-- ==== Sys2Proof/Word.lean ====
section
/-! DEFINITION. The word types of the MX9: bytes, 32-bit words and registers, 64-bit pairs, 40-bit tile elements
(R4, R44, R45, R77), and the register and predicate numbers (R143). -/

namespace Sys2Proof

abbrev Byte := BitVec 8
abbrev W32 := BitVec 32
abbrev W40 := BitVec 40
abbrev W64 := BitVec 64

/-- A register number g0 to g63 (R143). -/
abbrev RegN := BitVec 6

/-- A predicate number p0 to p7 (R143). -/
abbrev PredN := BitVec 3

end Sys2Proof
end

