-- ==== Sys2Proof/Syntax.lean ====
section
/-! DEFINITION. The instructions and events of the MX9: one constructor per row of the opcode table (R149 and the
table of operations and events). Words carry the operand fields of R143 to R152; events carry the names of what they
act on. -/

namespace Sys2Proof

/-- Rounding modes, in the code order of FPCTL.RM (R50) and of CVT's integer codes (R213). -/
inductive RMode where | rn | rz | ru | rd
deriving DecidableEq, Repr

/-- Compare conditions (R147). -/
inductive Cond where | eq | ne | lt | le | gt | ge
deriving DecidableEq, Repr

/-- Float-compare conditions (R235). -/
inductive FCond where | eq | lt | le | un
deriving DecidableEq, Repr

/-- Scopes of a synchronising access (R118, R119). -/
inductive Scope where | block | die | device | system
deriving DecidableEq, Repr

/-- Orders of an LA word (R118). -/
inductive Order where | relaxed | acquire | release | acqRel
deriving DecidableEq, Repr

/-- FENCE kinds (R123). -/
inductive FenceKind where | acquire | release | acqRel | sc | engine
deriving DecidableEq, Repr

/-- Thread roles (R15). -/
inductive Role where | any | copy | matrix | vector
deriving DecidableEq, Repr

/-- REDI modes (R226). -/
inductive RediMode where | add | min | max | and
deriving DecidableEq, Repr

/-- REDN modes (R226). -/
inductive RednMode where | wadd | min | max | or
deriving DecidableEq, Repr

/-- REDF and REDD modes (R226). -/
inductive RedfMode where | add | min | max
deriving DecidableEq, Repr

/-- SCANI modes (R226). -/
inductive ScaniMode where | incl | excl | max | nmax
deriving DecidableEq, Repr

/-- SCANF modes (R226). -/
inductive ScanfMode where | incl | excl | max | min
deriving DecidableEq, Repr

/-- Source lane of BCAST (R226, R231). -/
inductive BcastSrc where
  | lane (n : BitVec 5) | reg (b : RegN) | last
deriving DecidableEq, Repr

/-- VOTE with its destination (R226, R232). -/
inductive VoteOp where
  | all (pd : PredN) | any (pd : PredN) | ballot (d : RegN) | eq (pd : PredN)
deriving DecidableEq, Repr

/-- FCLASS formats (R226, R236). -/
inductive FclassFmt where | f32 | f64 | f16 | bf16
deriving DecidableEq, Repr

/-- MREAD modes (R237, R249). -/
inductive MreadMode where | v | lo | hi | sat
deriving DecidableEq, Repr

/-- Integer destinations of CVT (R213). -/
inductive IntTy where | i32 | n32 | i64 | n64
deriving DecidableEq, Repr

/-- CVT conversions (R212, R213), named destination then source. -/
inductive CvtOp where
  | f32F64 | f64F32 | f16F32 | f32F16 | bf16F32 | f32Bf16 | e4m3F32 | e5m2F32 | f32E4m3 | f32E5m2
  | mf6F32 | mf4F32 | f32Mf6 | f32Mf4 | f16F64 | f64F16 | f32I32 | f32N32 | f64I32 | f64N32
  | f64I64 | f64N64 | f32I64 | f32N64 | i8I32 | i4I32
  | toInt (src64 : Bool) (dst : IntTy) (rm : RMode)
deriving DecidableEq, Repr

/-- Special registers by name: selectors 0 to 13 (R49) and 32 to 40 (R302). -/
inductive SpecialReg where
  | index | nidx | block | bsize | rlo | rhi | argp | seed | ctrb | ftv | fpctl | role | lseq | cyc
  | ctxd | ctxid | partn | core | ftvset | tcause | tpc | tidx | tdata
deriving DecidableEq, Repr

/-- Names an agent that issues words: a thread group of a kernel block (block, group, a lane of the
issue set), a group of a trap context's handler, a control core, or a control core's handler. -/
inductive Who where
  | kern (bid gid lane : Nat)
  | hand (tid gid lane : Nat)
  | cc (c : Nat)
  | ccHand (c : Nat)
deriving DecidableEq, Repr

/-- Where data becomes undeliverable (R111): as an agent of a block, or an engine request of the block, reads it; or in a
sector of memory, or of a block's scratchpad, whose check value comes to disagree with its bytes (R110). -/
inductive Flaw where
  | read (q : Who) (rid : Option Nat)
  | memory
  | spad (bid : Nat)
  /-- a private sector of a thread -/
  | priv (bid idx : Nat)
deriving DecidableEq, Repr

/-- What of a copy's destination sectors is written: a sector whole, or one of its aligned 8-byte units ahead (R109). -/
inductive SecPart where
  | whole (sec : Nat)
  | unit (sec u : Nat)
deriving DecidableEq, Repr

/-- What a request from the fabric asks (R376). -/
inductive FabricBody where
  | read (n : Nat)
  | write (bytes : List Byte)
deriving DecidableEq, Repr

/-- One constructor per row of spec/opcode_table.json. -/
inductive Instr where
  /-- MOV (R168). -/
  | mov (d : RegN) (a : RegN) (ka : Bool) (wide : Bool)
  /-- IADD (R168). -/
  | iadd (d : RegN) (a : RegN) (b : RegN) (ka : Bool) (kb : Bool) (wide : Bool)
  /-- ISUB (R168). -/
  | isub (d : RegN) (a : RegN) (b : RegN) (ka : Bool) (kb : Bool) (wide : Bool)
  /-- IMUL (R168). -/
  | imul (d : RegN) (a : RegN) (b : RegN) (ka : Bool) (kb : Bool) (wide : Bool)
  /-- SHL (R168). -/
  | shl (d : RegN) (a : RegN) (b : RegN) (ka : Bool) (kb : Bool) (wide : Bool)
  /-- SHR (R168). -/
  | shr (d : RegN) (a : RegN) (b : RegN) (ka : Bool) (kb : Bool) (wide : Bool)
  /-- SAR (R168). -/
  | sar (d : RegN) (a : RegN) (b : RegN) (ka : Bool) (kb : Bool) (wide : Bool)
  /-- AND (R168). -/
  | and (d : RegN) (a : RegN) (b : RegN) (ka : Bool) (kb : Bool) (wide : Bool)
  /-- OR (R168). -/
  | or (d : RegN) (a : RegN) (b : RegN) (ka : Bool) (kb : Bool) (wide : Bool)
  /-- XOR (R168). -/
  | xor (d : RegN) (a : RegN) (b : RegN) (ka : Bool) (kb : Bool) (wide : Bool)
  /-- ANDN (R168). -/
  | andn (d : RegN) (a : RegN) (b : RegN) (ka : Bool) (kb : Bool) (wide : Bool)
  /-- IMIN (R168). -/
  | imin (d : RegN) (a : RegN) (b : RegN) (ka : Bool) (kb : Bool) (wide : Bool)
  /-- IMAX (R168). -/
  | imax (d : RegN) (a : RegN) (b : RegN) (ka : Bool) (kb : Bool) (wide : Bool)
  /-- NMIN (R168). -/
  | nmin (d : RegN) (a : RegN) (b : RegN) (ka : Bool) (kb : Bool) (wide : Bool)
  /-- NMAX (R168). -/
  | nmax (d : RegN) (a : RegN) (b : RegN) (ka : Bool) (kb : Bool) (wide : Bool)
  /-- INEG (R168). -/
  | ineg (d : RegN) (a : RegN) (ka : Bool) (wide : Bool)
  /-- IABS (R168). -/
  | iabs (d : RegN) (a : RegN) (ka : Bool) (wide : Bool)
  /-- MKFORM (R168). -/
  | mkform (d : RegN) (a : RegN) (b : RegN) (ka : Bool) (kb : Bool) (wide : Bool)
  /-- XBASE (R169). -/
  | xbase (d : RegN) (a : RegN) (ka : Bool) (wide : Bool)
  /-- XSTRIDE (R169). -/
  | xstride (d : RegN) (a : RegN) (ka : Bool) (wide : Bool)
  /-- RDFIRST (R170). -/
  | rdfirst (d : RegN) (a : RegN) (ka : Bool) (wide : Bool)
  /-- EXPAND (R170). -/
  | expand (d : RegN) (a : RegN) (ka : Bool) (wide : Bool)
  /-- IADDI (R171). -/
  | iaddi (d : RegN) (a : RegN) (imm : BitVec 12)
  /-- IMULI (R171). -/
  | imuli (d : RegN) (a : RegN) (imm : BitVec 12)
  /-- SHLI (R171). -/
  | shli (d : RegN) (a : RegN) (imm : BitVec 12)
  /-- SHRI (R171). -/
  | shri (d : RegN) (a : RegN) (imm : BitVec 12)
  /-- SARI (R171). -/
  | sari (d : RegN) (a : RegN) (imm : BitVec 12)
  /-- ANDI (R171). -/
  | andi (d : RegN) (a : RegN) (imm : BitVec 12)
  /-- ORI (R171). -/
  | ori (d : RegN) (a : RegN) (imm : BitVec 12)
  /-- XORI (R171). -/
  | xori (d : RegN) (a : RegN) (imm : BitVec 12)
  /-- MOVI (R171). -/
  | movi (d : RegN) (imm : BitVec 12)
  /-- IADDIW (R171). -/
  | iaddiw (d : RegN) (a : RegN) (imm : BitVec 12)
  /-- MOVL (R172). -/
  | movl (d : RegN) (imm : BitVec 16)
  /-- MOVH (R172). -/
  | movh (d : RegN) (imm : BitVec 16)
  /-- MOVS (R172). -/
  | movs (d : RegN) (imm : BitVec 16)
  /-- ICMP (R173). -/
  | icmp (pd : PredN) (a : RegN) (b : RegN) (cond : Cond)
  /-- ICMPA (R173). -/
  | icmpa (pd : PredN) (ps : PredN) (a : RegN) (b : RegN) (cond : Cond)
  /-- ICMPO (R173). -/
  | icmpo (pd : PredN) (ps : PredN) (a : RegN) (b : RegN) (cond : Cond)
  /-- NCMP (R173). -/
  | ncmp (pd : PredN) (a : RegN) (b : RegN) (cond : Cond)
  /-- NCMPA (R173). -/
  | ncmpa (pd : PredN) (ps : PredN) (a : RegN) (b : RegN) (cond : Cond)
  /-- NCMPO (R173). -/
  | ncmpo (pd : PredN) (ps : PredN) (a : RegN) (b : RegN) (cond : Cond)
  /-- ICMPI (R173). -/
  | icmpi (pd : PredN) (a : RegN) (imm : BitVec 6) (cond : Cond)
  /-- NCMPI (R173). -/
  | ncmpi (pd : PredN) (a : RegN) (imm : BitVec 6) (cond : Cond)
  /-- ICMPW (R173). -/
  | icmpw (pd : PredN) (a : RegN) (b : RegN) (cond : Cond)
  /-- NCMPW (R173). -/
  | ncmpw (pd : PredN) (a : RegN) (b : RegN) (cond : Cond)
  /-- PAND (R174). -/
  | pand (pd : PredN) (pa : PredN) (pb : PredN)
  /-- POR (R174). -/
  | por (pd : PredN) (pa : PredN) (pb : PredN)
  /-- PXOR (R174). -/
  | pxor (pd : PredN) (pa : PredN) (pb : PredN)
  /-- PANDN (R174). -/
  | pandn (pd : PredN) (pa : PredN) (pb : PredN)
  /-- PNOT (R174). -/
  | pnot (pd : PredN) (pa : PredN)
  /-- PSET (R174). -/
  | pset (pd : PredN) (k : Bool)
  /-- PCUT (R174). -/
  | pcut (pd : PredN) (a : RegN) (above : Bool)
  /-- SEL (R175). -/
  | sel (d : RegN) (a : RegN) (b : RegN) (p : PredN) (sense : Bool)
  /-- SELW (R175). -/
  | selw (d : RegN) (a : RegN) (b : RegN) (p : PredN) (sense : Bool)
  /-- PTOI (R175). -/
  | ptoi (d : RegN) (p : PredN) (sense : Bool)
  /-- NEXT (R176). -/
  | next (off : BitVec 24)
  /-- BR (R177). -/
  | br (p : PredN) (sense : Bool) (off : BitVec 20)
  /-- BRX (R179). -/
  | brx (a : RegN)
  /-- CALL (R178). -/
  | call (off : BitVec 24)
  /-- CALLX (R178). -/
  | callx (a : RegN)
  /-- RET (R178). -/
  | ret
  /-- EXIT (R181). -/
  | exit
  /-- TRAP (R182). -/
  | trap (n : BitVec 8)
  /-- SWITCH (R180). -/
  | switch (a : RegN) (entriesM1 : BitVec 10)
  /-- YIELD (R183). -/
  | yield (off : BitVec 24)
  /-- RDS (R185). -/
  | rds (d : RegN) (wide : Bool) (sreg : SpecialReg)
  /-- WRS (R185). -/
  | wrs (a : RegN) (wide : Bool) (sreg : SpecialReg)
  /-- FENCE (R123). -/
  | fence (scope : Scope) (kind : FenceKind)
  /-- BAR (R187). -/
  | bar (n : BitVec 4)
  /-- BARA (R187). -/
  | bara (n : BitVec 4)
  /-- RAND (R188). -/
  | rand (d : RegN) (stream : BitVec 16)
  /-- CYC (R189). -/
  | cyc (d : RegN) (wide : Bool)
  /-- NOP (R190). -/
  | nop
  /-- BKPT (R190). -/
  | bkpt (code : BitVec 8)
  /-- ERET (R339). -/
  | eret
  /-- XCHT (R191). -/
  | xcht (d : RegN) (n : BitVec 4)
  /-- LAUNCH (R193). -/
  | launch (d : RegN) (a : RegN)
  /-- LWAIT (R194). -/
  | lwait (d : RegN) (a : RegN)
  /-- ICINV (R195). -/
  | icinv (a : RegN)
  /-- ICINV_ALL (R195). -/
  | icinvAll
  /-- DBG_HALT (R363). -/
  | dbgHalt (d : RegN) (a : RegN)
  /-- DBG_RESUME (R363). -/
  | dbgResume (d : RegN) (a : RegN)
  /-- DBG_STEP (R364). -/
  | dbgStep (d : RegN) (a : RegN)
  /-- DBG_SETBP (R365). -/
  | dbgSetbp (d : RegN) (a : RegN)
  /-- DBG_CLRBP (R365). -/
  | dbgClrbp (d : RegN) (a : RegN)
  /-- DBG_SETWP (R365). -/
  | dbgSetwp (d : RegN) (a : RegN)
  /-- DBG_CLRWP (R365). -/
  | dbgClrwp (d : RegN) (a : RegN)
  /-- DBG_READ (R371). -/
  | dbgRead (d : RegN) (a : RegN)
  /-- DBG_POST (R196). -/
  | dbgPost (d : RegN) (a : RegN)
  /-- HALT (R197). -/
  | halt
  /-- SEGH (R151). -/
  | segh (lenM1 : BitVec 10) (fold : Bool) (liveG : BitVec 6) (liveP : BitVec 7) (role : Role)
  /-- RUNH (R155). -/
  | runh (count : BitVec 5) (guard : PredN) (sense : Bool) (prefetch : BitVec 8)
  /-- IMULHI (R203). -/
  | imulhi (d : RegN) (a : RegN) (b : RegN) (ka : Bool) (kb : Bool) (st : BitVec 2)
  /-- NMULHI (R203). -/
  | nmulhi (d : RegN) (a : RegN) (b : RegN) (ka : Bool) (kb : Bool) (st : BitVec 2)
  /-- POPC (R203). -/
  | popc (d : RegN) (a : RegN) (ka : Bool) (st : BitVec 2)
  /-- CLZ (R203). -/
  | clz (d : RegN) (a : RegN) (ka : Bool) (st : BitVec 2)
  /-- BREV (R203). -/
  | brev (d : RegN) (a : RegN) (ka : Bool) (st : BitVec 2)
  /-- BFE (R204). -/
  | bfe (d : RegN) (a : RegN) (b : RegN) (ka : Bool) (kb : Bool) (st : BitVec 2)
  /-- PRMT (R205). -/
  | prmt (d : RegN) (a : RegN) (b : RegN) (ka : Bool) (kb : Bool) (st : BitVec 2)
  /-- FADD (R206). -/
  | fadd (d : RegN) (a : RegN) (b : RegN) (ka : Bool) (kb : Bool) (st : BitVec 2)
  /-- FSUB (R206). -/
  | fsub (d : RegN) (a : RegN) (b : RegN) (ka : Bool) (kb : Bool) (st : BitVec 2)
  /-- FMUL (R206). -/
  | fmul (d : RegN) (a : RegN) (b : RegN) (ka : Bool) (kb : Bool) (st : BitVec 2)
  /-- FMIN (R206). -/
  | fmin (d : RegN) (a : RegN) (b : RegN) (ka : Bool) (kb : Bool) (st : BitVec 2)
  /-- FMAX (R206). -/
  | fmax (d : RegN) (a : RegN) (b : RegN) (ka : Bool) (kb : Bool) (st : BitVec 2)
  /-- FABS (R206). -/
  | fabs (d : RegN) (a : RegN) (ka : Bool) (st : BitVec 2)
  /-- FNEG (R206). -/
  | fneg (d : RegN) (a : RegN) (ka : Bool) (st : BitVec 2)
  /-- DADD (R206). -/
  | dadd (d : RegN) (a : RegN) (b : RegN) (ka : Bool) (kb : Bool) (st : BitVec 2)
  /-- DSUB (R206). -/
  | dsub (d : RegN) (a : RegN) (b : RegN) (ka : Bool) (kb : Bool) (st : BitVec 2)
  /-- DMUL (R206). -/
  | dmul (d : RegN) (a : RegN) (b : RegN) (ka : Bool) (kb : Bool) (st : BitVec 2)
  /-- DMIN (R206). -/
  | dmin (d : RegN) (a : RegN) (b : RegN) (ka : Bool) (kb : Bool) (st : BitVec 2)
  /-- DMAX (R206). -/
  | dmax (d : RegN) (a : RegN) (b : RegN) (ka : Bool) (kb : Bool) (st : BitVec 2)
  /-- HADD2 (R207). -/
  | hadd2 (d : RegN) (a : RegN) (b : RegN) (ka : Bool) (kb : Bool) (st : BitVec 2)
  /-- HMUL2 (R207). -/
  | hmul2 (d : RegN) (a : RegN) (b : RegN) (ka : Bool) (kb : Bool) (st : BitVec 2)
  /-- HMIN2 (R207). -/
  | hmin2 (d : RegN) (a : RegN) (b : RegN) (ka : Bool) (kb : Bool) (st : BitVec 2)
  /-- HMAX2 (R207). -/
  | hmax2 (d : RegN) (a : RegN) (b : RegN) (ka : Bool) (kb : Bool) (st : BitVec 2)
  /-- BADD2 (R207). -/
  | badd2 (d : RegN) (a : RegN) (b : RegN) (ka : Bool) (kb : Bool) (st : BitVec 2)
  /-- BMUL2 (R207). -/
  | bmul2 (d : RegN) (a : RegN) (b : RegN) (ka : Bool) (kb : Bool) (st : BitVec 2)
  /-- CVT (R214). -/
  | cvt (d : RegN) (a : RegN) (code : CvtOp) (ka : Bool) (inf : Bool) (st : BitVec 2)
  /-- FEXP2 (R210). -/
  | fexp2 (d : RegN) (a : RegN) (ka : Bool) (st : BitVec 2)
  /-- FLOG2 (R210). -/
  | flog2 (d : RegN) (a : RegN) (ka : Bool) (st : BitVec 2)
  /-- FRCP (R210). -/
  | frcp (d : RegN) (a : RegN) (ka : Bool) (st : BitVec 2)
  /-- FRSQ (R210). -/
  | frsq (d : RegN) (a : RegN) (ka : Bool) (st : BitVec 2)
  /-- FSQRT (R210). -/
  | fsqrt (d : RegN) (a : RegN) (ka : Bool) (st : BitVec 2)
  /-- FSINP (R210). -/
  | fsinp (d : RegN) (a : RegN) (ka : Bool) (st : BitVec 2)
  /-- FCOSP (R210). -/
  | fcosp (d : RegN) (a : RegN) (ka : Bool) (st : BitVec 2)
  /-- FTANH (R210). -/
  | ftanh (d : RegN) (a : RegN) (ka : Bool) (st : BitVec 2)
  /-- DRCP (R210). -/
  | drcp (d : RegN) (a : RegN) (ka : Bool) (st : BitVec 2)
  /-- DRSQ (R210). -/
  | drsq (d : RegN) (a : RegN) (ka : Bool) (st : BitVec 2)
  /-- FSCL (R209). -/
  | fscl (d : RegN) (a : RegN) (b : RegN) (ka : Bool) (kb : Bool) (st : BitVec 2)
  /-- DSCL (R209). -/
  | dscl (d : RegN) (a : RegN) (b : RegN) (ka : Bool) (kb : Bool) (st : BitVec 2)
  /-- FFRC (R209). -/
  | ffrc (d : RegN) (a : RegN) (ka : Bool) (st : BitVec 2)
  /-- FFMA (R208). -/
  | ffma (d : RegN) (a : RegN) (b : RegN) (c : RegN) (st : BitVec 2)
  /-- DFMA (R208). -/
  | dfma (d : RegN) (a : RegN) (b : RegN) (c : RegN) (st : BitVec 2)
  /-- HFMA2 (R207). -/
  | hfma2 (d : RegN) (a : RegN) (b : RegN) (c : RegN) (st : BitVec 2)
  /-- IMAD (R203). -/
  | imad (d : RegN) (a : RegN) (b : RegN) (c : RegN) (st : BitVec 2)
  /-- LD8 (R216). -/
  | ld8 (d : RegN) (a : RegN) (off : BitVec 8) (ka : Bool) (st : BitVec 2)
  /-- LD8S (R216). -/
  | ld8s (d : RegN) (a : RegN) (off : BitVec 8) (ka : Bool) (st : BitVec 2)
  /-- LD16 (R216). -/
  | ld16 (d : RegN) (a : RegN) (off : BitVec 8) (ka : Bool) (st : BitVec 2)
  /-- LD16S (R216). -/
  | ld16s (d : RegN) (a : RegN) (off : BitVec 8) (ka : Bool) (st : BitVec 2)
  /-- LD32 (R216). -/
  | ld32 (d : RegN) (a : RegN) (off : BitVec 8) (ka : Bool) (st : BitVec 2)
  /-- LD64 (R216). -/
  | ld64 (d : RegN) (a : RegN) (off : BitVec 8) (ka : Bool) (st : BitVec 2)
  /-- LD128 (R216). -/
  | ld128 (d : RegN) (a : RegN) (off : BitVec 8) (ka : Bool) (st : BitVec 2)
  /-- LDA32 (R121). -/
  | lda32 (d : RegN) (a : RegN) (off : BitVec 8) (ka : Bool) (st : BitVec 2)
  /-- LDA64 (R121). -/
  | lda64 (d : RegN) (a : RegN) (off : BitVec 8) (ka : Bool) (st : BitVec 2)
  /-- LD128A (R216). -/
  | ld128a (d : RegN) (a : RegN) (off : BitVec 8) (ka : Bool) (st : BitVec 2)
  /-- ST8 (R216). -/
  | st8 (d : RegN) (a : RegN) (off : BitVec 8) (ka : Bool) (st : BitVec 2)
  /-- ST16 (R216). -/
  | st16 (d : RegN) (a : RegN) (off : BitVec 8) (ka : Bool) (st : BitVec 2)
  /-- ST32 (R216). -/
  | st32 (d : RegN) (a : RegN) (off : BitVec 8) (ka : Bool) (st : BitVec 2)
  /-- ST64 (R216). -/
  | st64 (d : RegN) (a : RegN) (off : BitVec 8) (ka : Bool) (st : BitVec 2)
  /-- ST128 (R216). -/
  | st128 (d : RegN) (a : RegN) (off : BitVec 8) (ka : Bool) (st : BitVec 2)
  /-- STL32 (R120). -/
  | stl32 (d : RegN) (a : RegN) (off : BitVec 8) (ka : Bool) (st : BitVec 2)
  /-- STL64 (R120). -/
  | stl64 (d : RegN) (a : RegN) (off : BitVec 8) (ka : Bool) (st : BitVec 2)
  /-- ST128A (R216). -/
  | st128a (d : RegN) (a : RegN) (off : BitVec 8) (ka : Bool) (st : BitVec 2)
  /-- LDC32 (R219). -/
  | ldc32 (d : RegN) (a : RegN) (off : BitVec 8) (ka : Bool) (st : BitVec 2)
  /-- LDC64 (R219). -/
  | ldc64 (d : RegN) (a : RegN) (off : BitVec 8) (ka : Bool) (st : BitVec 2)
  /-- PFX (R220). -/
  | pfx (a : RegN) (off : BitVec 8) (ka : Bool) (st : BitVec 2)
  /-- AADD (R222). -/
  | aadd (d : RegN) (a : RegN) (b : RegN) (scope : Scope) (order : Order)
  /-- AIMIN (R222). -/
  | aimin (d : RegN) (a : RegN) (b : RegN) (scope : Scope) (order : Order)
  /-- AIMAX (R222). -/
  | aimax (d : RegN) (a : RegN) (b : RegN) (scope : Scope) (order : Order)
  /-- ANMIN (R222). -/
  | anmin (d : RegN) (a : RegN) (b : RegN) (scope : Scope) (order : Order)
  /-- ANMAX (R222). -/
  | anmax (d : RegN) (a : RegN) (b : RegN) (scope : Scope) (order : Order)
  /-- AAND (R222). -/
  | aand (d : RegN) (a : RegN) (b : RegN) (scope : Scope) (order : Order)
  /-- AOR (R222). -/
  | aor (d : RegN) (a : RegN) (b : RegN) (scope : Scope) (order : Order)
  /-- AXOR (R222). -/
  | axor (d : RegN) (a : RegN) (b : RegN) (scope : Scope) (order : Order)
  /-- AXCH (R222). -/
  | axch (d : RegN) (a : RegN) (b : RegN) (scope : Scope) (order : Order)
  /-- ACAS (R222). -/
  | acas (d : RegN) (a : RegN) (b : RegN) (scope : Scope) (order : Order)
  /-- AFADD (R222). -/
  | afadd (d : RegN) (a : RegN) (b : RegN) (scope : Scope) (order : Order)
  /-- AADDW (R222). -/
  | aaddw (d : RegN) (a : RegN) (b : RegN) (scope : Scope) (order : Order)
  /-- AXCHW (R222). -/
  | axchw (d : RegN) (a : RegN) (b : RegN) (scope : Scope) (order : Order)
  /-- ACASW (R222). -/
  | acasw (d : RegN) (a : RegN) (b : RegN) (scope : Scope) (order : Order)
  /-- QADD (R223). -/
  | qadd (a : RegN) (b : RegN) (scope : Scope) (order : Order)
  /-- QIMIN (R223). -/
  | qimin (a : RegN) (b : RegN) (scope : Scope) (order : Order)
  /-- QIMAX (R223). -/
  | qimax (a : RegN) (b : RegN) (scope : Scope) (order : Order)
  /-- QAND (R223). -/
  | qand (a : RegN) (b : RegN) (scope : Scope) (order : Order)
  /-- QOR (R223). -/
  | qor (a : RegN) (b : RegN) (scope : Scope) (order : Order)
  /-- QXOR (R223). -/
  | qxor (a : RegN) (b : RegN) (scope : Scope) (order : Order)
  /-- QFADD (R223). -/
  | qfadd (a : RegN) (b : RegN) (scope : Scope) (order : Order)
  /-- QBADD2 (R223). -/
  | qbadd2 (a : RegN) (b : RegN) (scope : Scope) (order : Order)
  /-- WAITA (R224). -/
  | waita (d : RegN) (a : RegN) (b : RegN) (scope : Scope) (order : Order)
  /-- MMA (R245). -/
  | mma (tile : BitVec 4) (zero : Bool) (a : RegN) (resv : BitVec 4) (mask : PredN) (st : BitVec 2)
  /-- MMAB (R245). -/
  | mmab (tile : BitVec 4) (zero : Bool) (a : RegN) (resv : BitVec 4) (mask : PredN) (st : BitVec 2)
  /-- MCFG (R241). -/
  | mcfg (a : RegN) (st : BitVec 2)
  /-- MZERO (R248). -/
  | mzero (tile : BitVec 4) (k40 : Bool) (st : BitVec 2)
  /-- MREAD (R249). -/
  | mread (d : RegN) (a : RegN) (tile : BitVec 4) (mode : MreadMode) (st : BitVec 2)
  /-- MWRITE (R248). -/
  | mwrite (tile : BitVec 4) (a : RegN) (b : RegN) (i32 : Bool) (st : BitVec 2)
  /-- MDRAIN (R250). -/
  | mdrain (tile : BitVec 4) (a : RegN) (b : RegN) (add : Bool) (st : BitVec 2)
  /-- MWAIT (R130). -/
  | mwait (tile : BitVec 4) (all : Bool) (st : BitVec 2)
  /-- OFENCE (R129). -/
  | ofence (st : BitVec 2)
  /-- OBRES (R252). -/
  | obres (resv : BitVec 4) (a : RegN) (st : BitVec 2)
  /-- OBBIND (R254). -/
  | obbind (resv : BitVec 4) (a : RegN) (st : BitVec 2)
  /-- OBREL (R254). -/
  | obrel (resv : BitVec 4) (st : BitVec 2)
  /-- CPY (R256). -/
  | cpy (a : RegN) (arv : Bool) (st : BitVec 2)
  /-- CPYS (R256). -/
  | cpys (a : RegN) (arv : Bool) (st : BitVec 2)
  /-- FETCH (R256). -/
  | fetch (a : RegN) (b : RegN) (arv : Bool) (st : BitVec 2)
  /-- TBINIT (R259). -/
  | tbinit (a : RegN) (b : RegN) (ring : Bool) (st : BitVec 2)
  /-- TBARR (R260). -/
  | tbarr (a : RegN) (b : RegN) (decl : Bool) (st : BitVec 2)
  /-- TBWAIT (R261). -/
  | tbwait (a : RegN) (b : RegN) (par : Bool) (st : BitVec 2)
  /-- TBTEST (R261). -/
  | tbtest (pd : PredN) (a : RegN) (b : RegN) (par : Bool) (st : BitVec 2)
  /-- SFMAX (R264). -/
  | sfmax (tile : BitVec 4) (a : RegN) (b : RegN) (st : BitVec 2)
  /-- SFMASK (R265). -/
  | sfmask (mreg : PredN) (a : RegN) (b : RegN) (st : BitVec 2)
  /-- SFCLR (R263). -/
  | sfclr (mreg : PredN) (a : RegN) (maskOnly : Bool) (st : BitVec 2)
  /-- SFTOPK (R266). -/
  | sftopk (a : RegN) (st : BitVec 2)
  /-- SFHIST (R267). -/
  | sfhist (a : RegN) (st : BitVec 2)
  /-- SFSCAN (R267). -/
  | sfscan (a : RegN) (incl : Bool) (st : BitVec 2)
  /-- SFPERM (R267). -/
  | sfperm (a : RegN) (st : BitVec 2)
  /-- SFWAIT (R262). -/
  | sfwait (st : BitVec 2)
  /-- REDI (R229). -/
  | redi (d : RegN) (a : RegN) (mode : RediMode) (st : BitVec 2)
  /-- REDN (R229). -/
  | redn (d : RegN) (a : RegN) (mode : RednMode) (st : BitVec 2)
  /-- REDF (R229). -/
  | redf (d : RegN) (a : RegN) (mode : RedfMode) (st : BitVec 2)
  /-- REDD (R229). -/
  | redd (d : RegN) (a : RegN) (mode : RedfMode) (st : BitVec 2)
  /-- SCANI (R230). -/
  | scani (d : RegN) (a : RegN) (mode : ScaniMode) (st : BitVec 2)
  /-- SCANF (R230). -/
  | scanf (d : RegN) (a : RegN) (mode : ScanfMode) (st : BitVec 2)
  /-- BCAST (R231). -/
  | bcast (d : RegN) (a : RegN) (src : BcastSrc) (st : BitVec 2)
  /-- VOTE (R232). -/
  | vote (op : VoteOp) (ps : PredN) (st : BitVec 2)
  /-- ISECT (R233). -/
  | isect (d : RegN) (a : RegN) (b : RegN) (st : BitVec 2)
  /-- ISECTB (R234). -/
  | isectb (d : RegN) (a : RegN) (b : RegN) (pk : BitVec 2) (st : BitVec 2)
  /-- FCMP (R235). -/
  | fcmp (pd : PredN) (a : RegN) (b : RegN) (mode : FCond) (st : BitVec 2)
  /-- DCMP (R235). -/
  | dcmp (pd : PredN) (a : RegN) (b : RegN) (mode : FCond) (st : BitVec 2)
  /-- HCMP2 (R235). -/
  | hcmp2 (pd : PredN) (a : RegN) (b : RegN) (mode : FCond) (st : BitVec 2)
  /-- FCLASS (R236). -/
  | fclass (d : RegN) (a : RegN) (mode : FclassFmt) (st : BitVec 2)
  /-- FOLD_CLOSE, an event (R39). -/
  | foldClose (bid node : Nat)
  /-- HELD_THREAD_PLACEMENT, an event (R28). -/
  | heldThreadPlacement (bid gid : Nat)
  /-- CONVERGENCE_DEADLOCK, an event (R40). -/
  | convergenceDeadlock (bid : Nat)
  /-- BLOCK_DISPATCH, an event (R318). -/
  | blockDispatch (lid : Nat) (cores : List Nat)
  /-- STEAL, an event (R318). -/
  | steal (core victim : Nat)
  /-- CONCURRENT_PLACEMENT, an event (R316). -/
  | concurrentPlacement (lid : Nat) (cores : List Nat)
  /-- BLOCK_END, an event (R14). -/
  | blockEnd (bid : Nat)
  /-- POSTMARK, an event (R322). -/
  | postmark (lid : Nat)
  /-- STORE_TO_CORE_POINT, an event (R114). -/
  | storeToCorePoint (q : Who)
  /-- STORE_TO_DIE_POINT, an event (R115). -/
  | storeToDiePoint (core i : Nat)
  /-- STORE_TO_HOME, an event (R115). -/
  | storeToHome (die i : Nat)
  /-- QUIET_REDUCTION_PERFORM, an event (R114). -/
  | quietReductionPerform (hid i : Nat)
  /-- ATOMIC_PERFORM, an event (R122). -/
  | atomicPerform (aid : Nat)
  /-- LOAD_CACHE_DROP, an event (R117). -/
  | loadCacheDrop (core i : Nat) (fetchUnit : Bool)
  /-- SHARED_LOAD_READ, an event (R137). -/
  | sharedLoadRead (q : Who)
  /-- CAPACITY_COMMIT, an event (R138). -/
  | capacityCommit (bid : Nat)
  /-- COPY_SOURCE_READ, an event (R128). -/
  | copySourceRead (bid rid sec first n : Nat)
  /-- SECTOR_PERFORMED, an event (R109, R128). -/
  | sectorPerformed (bid rid : Nat) (sec : SecPart)
  /-- PARK_RESUME, an event (R92). -/
  | parkResume (q : Who)
  /-- MATRIX_PERFORM, an event (R245). -/
  | matrixPerform (bid rid : Nat)
  /-- ADD_ON_STORE_PERFORM, an event (R132). -/
  | addOnStorePerform (hid : Nat)
  /-- RESERVATION_FILL, an event (R253). -/
  | reservationFill (bid rid : Nat)
  /-- SIFT_PERFORM, an event (R262). -/
  | siftPerform (bid rid : Nat)
  /-- WAITA_WAKE, an event (R134). -/
  | waitaWake (q : Who)
  /-- WAITA_END, an event (R134). -/
  | waitaEnd (q : Who)
  /-- REPLICA_COMPARE, an event (R139). -/
  | replicaCompare (lid num : Nat)
  /-- REPLICA_TIMEOUT, an event (R354). -/
  | replicaTimeout (lid num : Nat)
  /-- FORWARDED_VALUE, an event (R140). -/
  | forwardedValue (q : Who)
  /-- TRAP_ENTRY, an event (R336). -/
  | trapEntry (q : Who)
  /-- REPLAY, an event (R331). -/
  | replay (part : Nat) (ctx : BitVec 16)
  /-- PAGE_SCAN, an event (R158). -/
  | pageScan (die frame : Nat)
  /-- FETCH_FAULT_SWAP, an event (R321). -/
  | fetchFaultSwap (bid : Nat)
  /-- SWAP_RESTORE, an event (R321). -/
  | swapRestore (bid core : Nat)
  /-- QUEUE_POST, an event (R311). -/
  | queuePost (queue : Nat) (value : W32)
  /-- REGISTER_WRITE, an event (R7). -/
  | registerWrite (addr : Nat) (bytes : List Byte)
  /-- PROGRAM_COMMAND, an event (R313). -/
  | programCommand (cc : Nat)
  /-- CROSS_QUEUE_FENCE, an event (R313). -/
  | crossQueueFence (cc : Nat)
  /-- CROSS_QUEUE_FENCE_DONE, an event (R313). -/
  | crossQueueFenceDone (cc : Nat)
  /-- TLB_INVALIDATE, an event (R330). -/
  | tlbInvalidate (part : Nat) (value : W64)
  /-- INVALIDATION_COMPLETE, an event (R330). -/
  | invalidationComplete (part : Nat)
  /-- PRE_EMPT, an event (R343). -/
  | preEmpt (part : Nat)
  /-- LAUNCH_RESUME, an event (R343). -/
  | launchResume (part : Nat)
  /-- KILL, an event (R345). -/
  | kill (part : Nat)
  /-- BLOCK_SAVE, an event (R343). -/
  | blockSave (bid : Nat)
  /-- QUIESCE_TOKEN_RETURN, an event (R345). -/
  | quiesceTokenReturn (lid : Nat)
  /-- STORAGE_ERROR, an event (R110, R111): at a virtual or physical address, or an offset in a scratchpad; a sector's check
  value comes to differ by `diff`. -/
  | storageError (flaw : Flaw) (addr : W64) (diff : BitVec 16)
  /-- CORRECTABLE_ERROR, an event (R111). -/
  | correctableError (die : Nat)
  /-- FABRIC_REQUEST, an event (R377). -/
  | fabricRequest (fid off : Nat) (body : FabricBody)
  /-- ERROR_COMPLETION, an event (R376). -/
  | errorCompletion (fid : Nat)
  /-- MANAGEMENT_WRITE, an event (R379). -/
  | managementWrite (die off : Nat) (bytes : List Byte)
  /-- PARTITION_RESET, an event (R306). -/
  | partitionReset (part : Nat)
  /-- POWER_ON_RESET, an event (R382). -/
  | powerOnReset
  /-- SELF_TEST_COMPLETE, an event (R382). -/
  | selfTestComplete (fn : Nat) (failing : BitVec 16)
  /-- CLOCK_LOWERING, an event (R381). -/
  | clockLowering (die : Nat)
  /-- HALT_WAKE, an event (R197). -/
  | haltWake (cc : Nat)
  /-- REPORT, an event (R360). -/
  | report
  /-- SNAPSHOT_LATCH, an event (R370). -/
  | snapshotLatch (part unit inst : Nat)
  /-- POSTCARD, an event (R369). -/
  | postcard (i : Nat)
  /-- FAULT_RECORD_WRITE, an event (R298). -/
  | faultRecordWrite (i : Nat)
  /-- QUEUE_ENABLE, an event (R311). -/
  | queueEnable (queue : Nat) (value : W64)
  /-- FABRIC_COMPLETION, an event (R120). -/
  | fabricCompletion (fid : Nat) (data : List Byte)
deriving DecidableEq, Repr

end Sys2Proof
end

