-- ==== Sys2Proof/WellFormed.lean ====
section
/-! DEFINITION. What the page scanner asks of a word's operands beyond their field widths (R45, R144, R159): pairs
even, quads multiples of 4, shift counts in range, orders and choices permitted. Events carry no operands a scanner
sees. -/

namespace Sys2Proof

/-- A register number that may not name a pair (R45). -/
def oddReg (r : RegN) : Bool := r.getLsbD 0

/-- A register number that may not name a quad (R45). -/
def badQuad (r : RegN) : Bool := r.getLsbD 0 || r.getLsbD 1

/-- Orders that acquire (R118). -/
def Order.acquires : Order → Bool
  | .acquire | .acqRel => true
  | _ => false

/-- Orders that release (R118). -/
def Order.releases : Order → Bool
  | .release | .acqRel => true
  | _ => false

/-- Conversions that write a pair (R212, R213). -/
def CvtOp.writesPair : CvtOp → Bool
  | .f64F32 | .f64F16 | .f64I32 | .f64N32 | .f64I64 | .f64N64 => true
  | .toInt _ .i64 _ | .toInt _ .n64 _ => true
  | _ => false

/-- Conversions that read a pair (R212, R213). -/
def CvtOp.readsPair : CvtOp → Bool
  | .f32F64 | .f16F64 | .f64I64 | .f64N64 | .f32I64 | .f32N64 => true
  | .toInt true _ _ => true
  | _ => false

/-- Conversions whose overflow choice must be .sat (R214). -/
def CvtOp.mustSat : CvtOp → Bool
  | .mf6F32 | .mf4F32 | .i8I32 | .i4I32 | .toInt _ _ _ => true
  | _ => false

/-- Special registers a WRS may name (R51, R302). -/
def SpecialReg.wrsNames : SpecialReg → Bool
  | .fpctl | .ctxd | .ctxid | .partn | .core | .ftvset | .tcause | .tpc | .tidx | .tdata => true
  | _ => false

/-- The operands obey the scanner's word checks (R159 codes 4, 5 and 14). -/
def Instr.wf : Instr → Bool
  | .mov d a _ wide => !((wide && (oddReg d || oddReg a)))
  | .iadd d a b _ _ wide => !((wide && (oddReg d || oddReg a || oddReg b)))
  | .isub d a b _ _ wide => !((wide && (oddReg d || oddReg a || oddReg b)))
  | .imul d a b _ _ wide => !((wide && (oddReg d || oddReg a || oddReg b)))
  | .shl d a _ _ _ wide => !((wide && (oddReg d || oddReg a)))
  | .shr d a _ _ _ wide => !((wide && (oddReg d || oddReg a)))
  | .sar d a _ _ _ wide => !((wide && (oddReg d || oddReg a)))
  | .and d a b _ _ wide => !((wide && (oddReg d || oddReg a || oddReg b)))
  | .or d a b _ _ wide => !((wide && (oddReg d || oddReg a || oddReg b)))
  | .xor d a b _ _ wide => !((wide && (oddReg d || oddReg a || oddReg b)))
  | .andn d a b _ _ wide => !((wide && (oddReg d || oddReg a || oddReg b)))
  | .imin d a b _ _ wide => !((wide && (oddReg d || oddReg a || oddReg b)))
  | .imax d a b _ _ wide => !((wide && (oddReg d || oddReg a || oddReg b)))
  | .nmin d a b _ _ wide => !((wide && (oddReg d || oddReg a || oddReg b)))
  | .nmax d a b _ _ wide => !((wide && (oddReg d || oddReg a || oddReg b)))
  | .ineg d a _ wide => !((wide && (oddReg d || oddReg a)))
  | .iabs d a _ wide => !((wide && (oddReg d || oddReg a)))
  | .mkform d a _ _ _ wide => !((wide && (oddReg d || oddReg a)))
  | .xbase d a _ wide => !((wide && (oddReg d || oddReg a)))
  | .xstride d _ _ wide => !((wide && (oddReg d)))
  | .rdfirst d a _ wide => !((wide && (oddReg d || oddReg a)))
  | .expand d a _ wide => !((wide && (oddReg d || oddReg a)))
  | .iaddi _ _ _ => true
  | .imuli _ _ _ => true
  | .shli _ _ imm => decide (imm.toNat ≤ 31)
  | .shri _ _ imm => decide (imm.toNat ≤ 31)
  | .sari _ _ imm => decide (imm.toNat ≤ 31)
  | .andi _ _ _ => true
  | .ori _ _ _ => true
  | .xori _ _ _ => true
  | .movi _ _ => true
  | .iaddiw d a _ => !((oddReg d || oddReg a))
  | .movl _ _ => true
  | .movh _ _ => true
  | .movs _ _ => true
  | .icmp _ _ _ _ => true
  | .icmpa _ _ _ _ _ => true
  | .icmpo _ _ _ _ _ => true
  | .ncmp _ _ _ _ => true
  | .ncmpa _ _ _ _ _ => true
  | .ncmpo _ _ _ _ _ => true
  | .icmpi _ _ _ _ => true
  | .ncmpi _ _ _ _ => true
  | .icmpw _ a b _ => !((oddReg a || oddReg b))
  | .ncmpw _ a b _ => !((oddReg a || oddReg b))
  | .pand _ _ _ => true
  | .por _ _ _ => true
  | .pxor _ _ _ => true
  | .pandn _ _ _ => true
  | .pnot _ _ => true
  | .pset _ _ => true
  | .pcut _ a _ => !(oddReg a)
  | .sel _ _ _ _ _ => true
  | .selw d a b _ _ => !((oddReg d || oddReg a || oddReg b))
  | .ptoi _ _ _ => true
  | .next _ => true
  | .br _ _ _ => true
  | .brx a => !(oddReg a)
  | .call _ => true
  | .callx a => !(oddReg a)
  | .ret => true
  | .exit => true
  | .trap _ => true
  | .switch _ _ => true
  | .yield _ => true
  | .rds d wide _ => !(wide && oddReg d)
  | .wrs a wide sreg => sreg.wrsNames && !(wide && oddReg a)
  | .fence _ _ => true
  | .bar _ => true
  | .bara _ => true
  | .rand _ _ => true
  | .cyc d wide => !((wide && oddReg d))
  | .nop => true
  | .bkpt _ => true
  | .eret => true
  | .xcht _ _ => true
  | .launch _ a => !(oddReg a)
  | .lwait _ a => !(oddReg a)
  | .icinv a => !(oddReg a)
  | .icinvAll => true
  | .dbgHalt _ a => !(oddReg a)
  | .dbgResume _ a => !(oddReg a)
  | .dbgStep _ a => !(oddReg a)
  | .dbgSetbp _ a => !(oddReg a)
  | .dbgClrbp _ a => !(oddReg a)
  | .dbgSetwp _ a => !(oddReg a)
  | .dbgClrwp _ a => !(oddReg a)
  | .dbgRead _ a => !(oddReg a)
  | .dbgPost _ a => !(oddReg a)
  | .halt => true
  | .segh _ _ _ _ _ => true
  | .runh _ guard sense _ => !(sense && guard == 7)
  | .imulhi _ _ _ _ _ _ => true
  | .nmulhi _ _ _ _ _ _ => true
  | .popc _ _ _ _ => true
  | .clz _ _ _ _ => true
  | .brev _ _ _ _ => true
  | .bfe _ _ _ _ _ _ => true
  | .prmt _ _ _ _ _ _ => true
  | .fadd _ _ _ _ _ _ => true
  | .fsub _ _ _ _ _ _ => true
  | .fmul _ _ _ _ _ _ => true
  | .fmin _ _ _ _ _ _ => true
  | .fmax _ _ _ _ _ _ => true
  | .fabs _ _ _ _ => true
  | .fneg _ _ _ _ => true
  | .dadd d a b _ _ _ => !((oddReg d || oddReg a || oddReg b))
  | .dsub d a b _ _ _ => !((oddReg d || oddReg a || oddReg b))
  | .dmul d a b _ _ _ => !((oddReg d || oddReg a || oddReg b))
  | .dmin d a b _ _ _ => !((oddReg d || oddReg a || oddReg b))
  | .dmax d a b _ _ _ => !((oddReg d || oddReg a || oddReg b))
  | .hadd2 _ _ _ _ _ _ => true
  | .hmul2 _ _ _ _ _ _ => true
  | .hmin2 _ _ _ _ _ _ => true
  | .hmax2 _ _ _ _ _ _ => true
  | .badd2 _ _ _ _ _ _ => true
  | .bmul2 _ _ _ _ _ _ => true
  | .cvt d a code _ inf _ => !((code.mustSat && inf) || (code.writesPair && oddReg d) || (code.readsPair && oddReg a))
  | .fexp2 _ _ _ _ => true
  | .flog2 _ _ _ _ => true
  | .frcp _ _ _ _ => true
  | .frsq _ _ _ _ => true
  | .fsqrt _ _ _ _ => true
  | .fsinp _ _ _ _ => true
  | .fcosp _ _ _ _ => true
  | .ftanh _ _ _ _ => true
  | .drcp d a _ _ => !((oddReg d || oddReg a))
  | .drsq d a _ _ => !((oddReg d || oddReg a))
  | .fscl _ _ _ _ _ _ => true
  | .dscl d a _ _ _ _ => !((oddReg d || oddReg a))
  | .ffrc _ _ _ _ => true
  | .ffma _ _ _ _ _ => true
  | .dfma d a b c _ => !((oddReg d || oddReg a || oddReg b || oddReg c))
  | .hfma2 _ _ _ _ _ => true
  | .imad _ _ _ _ _ => true
  | .ld8 _ a _ _ _ => !(oddReg a)
  | .ld8s _ a _ _ _ => !(oddReg a)
  | .ld16 _ a _ _ _ => !(oddReg a)
  | .ld16s _ a _ _ _ => !(oddReg a)
  | .ld32 _ a _ _ _ => !(oddReg a)
  | .ld64 d a _ _ _ => !((oddReg d || oddReg a))
  | .ld128 d a _ _ _ => !((badQuad d || oddReg a))
  | .lda32 _ a _ _ _ => !(oddReg a)
  | .lda64 d a _ _ _ => !((oddReg d || oddReg a))
  | .ld128a d a _ _ _ => !((badQuad d || oddReg a))
  | .st8 _ a _ _ _ => !(oddReg a)
  | .st16 _ a _ _ _ => !(oddReg a)
  | .st32 _ a _ _ _ => !(oddReg a)
  | .st64 d a _ _ _ => !((oddReg d || oddReg a))
  | .st128 d a _ _ _ => !((badQuad d || oddReg a))
  | .stl32 _ a _ _ _ => !(oddReg a)
  | .stl64 d a _ _ _ => !((oddReg d || oddReg a))
  | .st128a d a _ _ _ => !((badQuad d || oddReg a))
  | .ldc32 _ a _ _ _ => !(oddReg a)
  | .ldc64 d a _ _ _ => !((oddReg d || oddReg a))
  | .pfx a _ _ _ => !(oddReg a)
  | .aadd _ a _ _ _ => !(oddReg a)
  | .aimin _ a _ _ _ => !(oddReg a)
  | .aimax _ a _ _ _ => !(oddReg a)
  | .anmin _ a _ _ _ => !(oddReg a)
  | .anmax _ a _ _ _ => !(oddReg a)
  | .aand _ a _ _ _ => !(oddReg a)
  | .aor _ a _ _ _ => !(oddReg a)
  | .axor _ a _ _ _ => !(oddReg a)
  | .axch _ a _ _ _ => !(oddReg a)
  | .acas _ a _ _ _ => !(oddReg a)
  | .afadd _ a _ _ _ => !(oddReg a)
  | .aaddw d a b _ _ => !((oddReg d || oddReg a || oddReg b))
  | .axchw d a b _ _ => !((oddReg d || oddReg a || oddReg b))
  | .acasw d a b _ _ => !((oddReg d || oddReg a || oddReg b))
  | .qadd a _ _ order => !order.acquires && !(oddReg a)
  | .qimin a _ _ order => !order.acquires && !(oddReg a)
  | .qimax a _ _ order => !order.acquires && !(oddReg a)
  | .qand a _ _ order => !order.acquires && !(oddReg a)
  | .qor a _ _ order => !order.acquires && !(oddReg a)
  | .qxor a _ _ order => !order.acquires && !(oddReg a)
  | .qfadd a _ _ order => !order.acquires && !(oddReg a)
  | .qbadd2 a _ _ order => !order.acquires && !(oddReg a)
  | .waita _ a _ _ order => !order.releases && !(oddReg a)
  | .mma _ _ _ _ _ _ => true
  | .mmab _ _ _ _ _ _ => true
  | .mcfg _ _ => true
  | .mzero _ _ _ => true
  | .mread _ a _ mode _ => !(mode == .sat && a != 0)
  | .mwrite _ _ _ _ _ => true
  | .mdrain _ a _ _ _ => !(oddReg a)
  | .mwait tile all _ => !(all && tile != 0)
  | .ofence _ => true
  | .obres _ _ _ => true
  | .obbind _ _ _ => true
  | .obrel _ _ => true
  | .cpy _ _ _ => true
  | .cpys _ _ _ => true
  | .fetch _ _ _ _ => true
  | .tbinit _ b ring _ => !((ring && oddReg b))
  | .tbarr _ _ _ _ => true
  | .tbwait _ _ _ _ => true
  | .tbtest _ _ _ _ _ => true
  | .sfmax _ _ _ _ => true
  | .sfmask _ _ _ _ => true
  | .sfclr _ a maskOnly _ => !(maskOnly && a != 0)
  | .sftopk _ _ => true
  | .sfhist _ _ => true
  | .sfscan _ _ _ => true
  | .sfperm _ _ => true
  | .sfwait _ => true
  | .redi _ _ _ _ => true
  | .redn d _ mode _ => !(mode == .wadd && oddReg d)
  | .redf _ _ _ _ => true
  | .redd d a _ _ => !((oddReg d || oddReg a))
  | .scani _ _ _ _ => true
  | .scanf _ _ _ _ => true
  | .bcast _ _ _ _ => true
  | .vote _ _ _ => true
  | .isect d _ _ _ => !(badQuad d)
  | .isectb d _ _ _ _ => !(badQuad d)
  | .fcmp _ _ _ _ _ => true
  | .dcmp _ a b _ _ => !((oddReg a || oddReg b))
  | .hcmp2 pd _ _ _ _ => !(pd.getLsbD 0)
  | .fclass _ a mode _ => !(mode == .f64 && oddReg a)
  | .foldClose _ _ => true
  | .heldThreadPlacement _ _ => true
  | .convergenceDeadlock _ => true
  | .blockDispatch _ _ => true
  | .steal _ _ => true
  | .concurrentPlacement _ _ => true
  | .blockEnd _ => true
  | .postmark _ => true
  | .storeToCorePoint _ => true
  | .storeToDiePoint _ _ => true
  | .storeToHome _ _ => true
  | .quietReductionPerform _ _ => true
  | .atomicPerform _ => true
  | .loadCacheDrop _ _ _ => true
  | .sharedLoadRead _ => true
  | .capacityCommit _ => true
  | .copySourceRead _ _ _ _ _ => true
  | .sectorPerformed _ _ _ => true
  | .parkResume _ => true
  | .matrixPerform _ _ => true
  | .addOnStorePerform _ => true
  | .reservationFill _ _ => true
  | .siftPerform _ _ => true
  | .waitaWake _ => true
  | .waitaEnd _ => true
  | .replicaCompare _ _ => true
  | .replicaTimeout _ _ => true
  | .forwardedValue _ => true
  | .trapEntry _ => true
  | .replay _ _ => true
  | .pageScan _ _ => true
  | .fetchFaultSwap _ => true
  | .swapRestore _ _ => true
  | .queuePost _ _ => true
  | .registerWrite _ _ => true
  | .programCommand _ => true
  | .crossQueueFence _ => true
  | .crossQueueFenceDone _ => true
  | .tlbInvalidate _ _ => true
  | .invalidationComplete _ => true
  | .preEmpt _ => true
  | .launchResume _ => true
  | .kill _ => true
  | .blockSave _ => true
  | .quiesceTokenReturn _ => true
  | .storageError _ _ _ => true
  | .correctableError _ => true
  | .fabricRequest _ _ _ => true
  | .errorCompletion _ => true
  | .managementWrite _ _ _ => true
  | .partitionReset _ => true
  | .powerOnReset => true
  | .selfTestComplete _ _ => true
  | .clockLowering _ => true
  | .haltWake _ => true
  | .report => true
  | .snapshotLatch _ _ _ => true
  | .postcard _ => true
  | .faultRecordWrite _ => true
  | .queueEnable _ _ => true
  | .fabricCompletion _ _ => true

end Sys2Proof
end

