-- ==== Sys2Proof/Decode.lean ====
section
/-! DEFINITION. Decoding of one 32-bit word (R142 to R152) and encoding back. A word that is not an instruction is
rejected by the page scanner's reason (R159, codes 1 to 5 and 14); the lowest code that applies is given. -/

namespace Sys2Proof

/-- Why a word is not an instruction: the reason codes of R159 that concern one word alone. -/
inductive DecodeError where
  | reservedClass | reservedOpcode | reservedField | reservedValue | misalignedReg | limit
deriving DecidableEq, Repr

/-- The reason code of R159. -/
def DecodeError.code : DecodeError → Nat
  | .reservedClass => 1 | .reservedOpcode => 2 | .reservedField => 3
  | .reservedValue => 4 | .misalignedReg => 5 | .limit => 14

/-- Bits [hi:lo] of a word (R5, R10). -/
def fld (w hi lo : Nat) : Nat := w / 2 ^ lo % 2 ^ (hi - lo + 1)

/-- Bit [n] of a word. -/
def bitAt (w n : Nat) : Bool := w / 2 ^ n % 2 == 1

/-- A register field of 6 bits at bit `lo`. -/
def regAt (w lo : Nat) : RegN := BitVec.ofNat 6 (w / 2 ^ lo)

/-- A predicate field of 3 bits at bit `lo`. -/
def predAt (w lo : Nat) : PredN := BitVec.ofNat 3 (w / 2 ^ lo)

/-- A field of n bits at bit `lo`. -/
def immAt (n w lo : Nat) : BitVec n := BitVec.ofNat n (w / 2 ^ lo)

/-- The field code of RMode. -/
def RMode.code : RMode → Nat
  | .rn => 0
  | .rz => 1
  | .ru => 2
  | .rd => 3

/-- RMode of a field code; a reserved code is rejected before this is used. -/
def RMode.ofCode (n : Nat) : RMode :=
  match n with
  | 0 => .rn
  | 1 => .rz
  | 2 => .ru
  | _ => .rd

/-- The field code of Cond. -/
def Cond.code : Cond → Nat
  | .eq => 0
  | .ne => 1
  | .lt => 2
  | .le => 3
  | .gt => 4
  | .ge => 5

/-- Cond of a field code; a reserved code is rejected before this is used. -/
def Cond.ofCode (n : Nat) : Cond :=
  match n with
  | 0 => .eq
  | 1 => .ne
  | 2 => .lt
  | 3 => .le
  | 4 => .gt
  | _ => .ge

/-- The field code of FCond. -/
def FCond.code : FCond → Nat
  | .eq => 0
  | .lt => 1
  | .le => 2
  | .un => 3

/-- FCond of a field code; a reserved code is rejected before this is used. -/
def FCond.ofCode (n : Nat) : FCond :=
  match n with
  | 0 => .eq
  | 1 => .lt
  | 2 => .le
  | _ => .un

/-- The field code of Scope. -/
def Scope.code : Scope → Nat
  | .block => 0
  | .die => 1
  | .device => 2
  | .system => 3

/-- Scope of a field code; a reserved code is rejected before this is used. -/
def Scope.ofCode (n : Nat) : Scope :=
  match n with
  | 0 => .block
  | 1 => .die
  | 2 => .device
  | _ => .system

/-- The field code of Order. -/
def Order.code : Order → Nat
  | .relaxed => 0
  | .acquire => 1
  | .release => 2
  | .acqRel => 3

/-- Order of a field code; a reserved code is rejected before this is used. -/
def Order.ofCode (n : Nat) : Order :=
  match n with
  | 0 => .relaxed
  | 1 => .acquire
  | 2 => .release
  | _ => .acqRel

/-- The field code of FenceKind. -/
def FenceKind.code : FenceKind → Nat
  | .acquire => 0
  | .release => 1
  | .acqRel => 2
  | .sc => 3
  | .engine => 4

/-- FenceKind of a field code; a reserved code is rejected before this is used. -/
def FenceKind.ofCode (n : Nat) : FenceKind :=
  match n with
  | 0 => .acquire
  | 1 => .release
  | 2 => .acqRel
  | 3 => .sc
  | _ => .engine

/-- The field code of Role. -/
def Role.code : Role → Nat
  | .any => 0
  | .copy => 1
  | .matrix => 2
  | .vector => 3

/-- Role of a field code; a reserved code is rejected before this is used. -/
def Role.ofCode (n : Nat) : Role :=
  match n with
  | 0 => .any
  | 1 => .copy
  | 2 => .matrix
  | _ => .vector

/-- The field code of RediMode. -/
def RediMode.code : RediMode → Nat
  | .add => 0
  | .min => 1
  | .max => 2
  | .and => 3

/-- RediMode of a field code; a reserved code is rejected before this is used. -/
def RediMode.ofCode (n : Nat) : RediMode :=
  match n with
  | 0 => .add
  | 1 => .min
  | 2 => .max
  | _ => .and

/-- The field code of RednMode. -/
def RednMode.code : RednMode → Nat
  | .wadd => 0
  | .min => 1
  | .max => 2
  | .or => 3

/-- RednMode of a field code; a reserved code is rejected before this is used. -/
def RednMode.ofCode (n : Nat) : RednMode :=
  match n with
  | 0 => .wadd
  | 1 => .min
  | 2 => .max
  | _ => .or

/-- The field code of RedfMode. -/
def RedfMode.code : RedfMode → Nat
  | .add => 0
  | .min => 1
  | .max => 2

/-- RedfMode of a field code; a reserved code is rejected before this is used. -/
def RedfMode.ofCode (n : Nat) : RedfMode :=
  match n with
  | 0 => .add
  | 1 => .min
  | _ => .max

/-- The field code of ScaniMode. -/
def ScaniMode.code : ScaniMode → Nat
  | .incl => 0
  | .excl => 1
  | .max => 2
  | .nmax => 3

/-- ScaniMode of a field code; a reserved code is rejected before this is used. -/
def ScaniMode.ofCode (n : Nat) : ScaniMode :=
  match n with
  | 0 => .incl
  | 1 => .excl
  | 2 => .max
  | _ => .nmax

/-- The field code of ScanfMode. -/
def ScanfMode.code : ScanfMode → Nat
  | .incl => 0
  | .excl => 1
  | .max => 2
  | .min => 3

/-- ScanfMode of a field code; a reserved code is rejected before this is used. -/
def ScanfMode.ofCode (n : Nat) : ScanfMode :=
  match n with
  | 0 => .incl
  | 1 => .excl
  | 2 => .max
  | _ => .min

/-- The field code of FclassFmt. -/
def FclassFmt.code : FclassFmt → Nat
  | .f32 => 0
  | .f64 => 1
  | .f16 => 2
  | .bf16 => 3

/-- FclassFmt of a field code; a reserved code is rejected before this is used. -/
def FclassFmt.ofCode (n : Nat) : FclassFmt :=
  match n with
  | 0 => .f32
  | 1 => .f64
  | 2 => .f16
  | _ => .bf16

/-- The field code of MreadMode. -/
def MreadMode.code : MreadMode → Nat
  | .v => 0
  | .lo => 1
  | .hi => 2
  | .sat => 3

/-- MreadMode of a field code; a reserved code is rejected before this is used. -/
def MreadMode.ofCode (n : Nat) : MreadMode :=
  match n with
  | 0 => .v
  | 1 => .lo
  | 2 => .hi
  | _ => .sat

/-- The field code of IntTy. -/
def IntTy.code : IntTy → Nat
  | .i32 => 0
  | .n32 => 1
  | .i64 => 2
  | .n64 => 3

/-- IntTy of a field code; a reserved code is rejected before this is used. -/
def IntTy.ofCode (n : Nat) : IntTy :=
  match n with
  | 0 => .i32
  | 1 => .n32
  | 2 => .i64
  | _ => .n64

/-- The field code of SpecialReg. -/
def SpecialReg.code : SpecialReg → Nat
  | .index => 0
  | .nidx => 1
  | .block => 2
  | .bsize => 3
  | .rlo => 4
  | .rhi => 5
  | .argp => 6
  | .seed => 7
  | .ctrb => 8
  | .ftv => 9
  | .fpctl => 10
  | .role => 11
  | .lseq => 12
  | .cyc => 13
  | .ctxd => 32
  | .ctxid => 33
  | .partn => 34
  | .core => 35
  | .ftvset => 36
  | .tcause => 37
  | .tpc => 38
  | .tidx => 39
  | .tdata => 40

/-- SpecialReg of a field code; a reserved code is rejected before this is used. -/
def SpecialReg.ofCode (n : Nat) : SpecialReg :=
  match n with
  | 0 => .index
  | 1 => .nidx
  | 2 => .block
  | 3 => .bsize
  | 4 => .rlo
  | 5 => .rhi
  | 6 => .argp
  | 7 => .seed
  | 8 => .ctrb
  | 9 => .ftv
  | 10 => .fpctl
  | 11 => .role
  | 12 => .lseq
  | 13 => .cyc
  | 32 => .ctxd
  | 33 => .ctxid
  | 34 => .partn
  | 35 => .core
  | 36 => .ftvset
  | 37 => .tcause
  | 38 => .tpc
  | 39 => .tidx
  | _ => .tdata

/-- The conversion code of R212 and R213. -/
def CvtOp.code : CvtOp → Nat
  | .f32F64 => 0
  | .f64F32 => 1
  | .f16F32 => 2
  | .f32F16 => 3
  | .bf16F32 => 4
  | .f32Bf16 => 5
  | .e4m3F32 => 6
  | .e5m2F32 => 7
  | .f32E4m3 => 8
  | .f32E5m2 => 9
  | .mf6F32 => 10
  | .mf4F32 => 11
  | .f32Mf6 => 12
  | .f32Mf4 => 13
  | .f16F64 => 14
  | .f64F16 => 15
  | .f32I32 => 16
  | .f32N32 => 17
  | .f64I32 => 18
  | .f64N32 => 19
  | .f64I64 => 20
  | .f64N64 => 21
  | .f32I64 => 22
  | .f32N64 => 23
  | .i8I32 => 24
  | .i4I32 => 25
  | .toInt s d r => 32 + (if s then 16 else 0) + 4 * d.code + r.code

/-- The conversion of a code; codes 26 to 31 are rejected before this is used. -/
def CvtOp.ofCode (n : Nat) : CvtOp :=
  match n with
  | 0 => .f32F64
  | 1 => .f64F32
  | 2 => .f16F32
  | 3 => .f32F16
  | 4 => .bf16F32
  | 5 => .f32Bf16
  | 6 => .e4m3F32
  | 7 => .e5m2F32
  | 8 => .f32E4m3
  | 9 => .f32E5m2
  | 10 => .mf6F32
  | 11 => .mf4F32
  | 12 => .f32Mf6
  | 13 => .f32Mf4
  | 14 => .f16F64
  | 15 => .f64F16
  | 16 => .f32I32
  | 17 => .f32N32
  | 18 => .f64I32
  | 19 => .f64N32
  | 20 => .f64I64
  | 21 => .f64N64
  | 22 => .f32I64
  | 23 => .f32N64
  | 24 => .i8I32
  | 25 => .i4I32
  | n => .toInt (n / 16 % 2 == 1) (IntTy.ofCode (n / 4 % 4)) (RMode.ofCode (n % 4))


/-- Selectors a word may name at all (R49, R302): the rest are reserved. -/
def SpecialReg.readable (n : Nat) : Bool := n ≤ 13 || (32 ≤ n && n ≤ 40)

/-- Selectors a WRS may name without the scanner rejecting it (R51, R302). -/
def SpecialReg.writable (n : Nat) : Bool := n == 10 || (32 ≤ n && n ≤ 40)

/-- Conversion codes 26 to 31 are reserved (R212). -/
def CvtOp.reserved (n : Nat) : Bool := 26 ≤ n && n ≤ 31

/-- Codes whose overflow choice must be .sat (R214). -/
def CvtOp.satOnly (n : Nat) : Bool := n == 10 || n == 11 || 24 ≤ n

/-- Codes that write a pair (R212, R213). -/
def CvtOp.dstWide (n : Nat) : Bool :=
  n == 1 || n == 15 || (18 ≤ n && n ≤ 21) || (32 ≤ n && n / 8 % 2 == 1)

/-- Codes that read a pair (R212, R213). -/
def CvtOp.srcWide (n : Nat) : Bool :=
  n == 0 || n == 14 || (20 ≤ n && n ≤ 23) || (32 ≤ n && n / 16 % 2 == 1)

/-- The source of a BCAST word (R226). -/
def BcastSrc.at (w : Nat) : BcastSrc :=
  match fld w 3 2 with
  | 0 => .lane (immAt 5 w 4)
  | 1 => .reg (regAt w 4)
  | _ => .last

/-- The b and mode fields of BCAST. -/
def BcastSrc.bits : BcastSrc → Nat
  | .lane n => n.toNat * 16
  | .reg b => b.toNat * 16 + 4
  | .last => 8

/-- The operation of a VOTE word (R226). -/
def VoteOp.at (w : Nat) : VoteOp :=
  match fld w 3 2 with
  | 0 => .all (predAt w 16)
  | 1 => .any (predAt w 16)
  | 2 => .ballot (regAt w 16)
  | _ => .eq (predAt w 16)

/-- The d and mode fields of VOTE. -/
def VoteOp.bits : VoteOp → Nat
  | .all p => p.toNat * 65536
  | .any p => p.toNat * 65536 + 4
  | .ballot d => d.toNat * 65536 + 8
  | .eq p => p.toNat * 65536 + 12

/-- An instruction, or the lowest reason code that applies (R159). -/
def chk (c3 c4 c5 c14 : Bool) (i : Instr) : Except DecodeError Instr :=
  if c3 then .error .reservedField
  else if c4 then .error .reservedValue
  else if c5 then .error .misalignedReg
  else if c14 then .error .limit
  else .ok i

/-- Class LR (R142, R143, R149). -/
def decodeLR (w : Nat) : Except DecodeError Instr :=
  match fld w 27 22 with
  | 0 => .ok (.imulhi (regAt w 16) (regAt w 10) (regAt w 4) (bitAt w 3) (bitAt w 2) (immAt 2 w 0))
  | 1 => .ok (.nmulhi (regAt w 16) (regAt w 10) (regAt w 4) (bitAt w 3) (bitAt w 2) (immAt 2 w 0))
  | 2 => chk ((fld w 2 2 != 0) || (fld w 9 4 != 0)) false false false
      (.popc (regAt w 16) (regAt w 10) (bitAt w 3) (immAt 2 w 0))
  | 3 => chk ((fld w 2 2 != 0) || (fld w 9 4 != 0)) false false false
      (.clz (regAt w 16) (regAt w 10) (bitAt w 3) (immAt 2 w 0))
  | 4 => chk ((fld w 2 2 != 0) || (fld w 9 4 != 0)) false false false
      (.brev (regAt w 16) (regAt w 10) (bitAt w 3) (immAt 2 w 0))
  | 5 => .ok (.bfe (regAt w 16) (regAt w 10) (regAt w 4) (bitAt w 3) (bitAt w 2) (immAt 2 w 0))
  | 6 => .ok (.prmt (regAt w 16) (regAt w 10) (regAt w 4) (bitAt w 3) (bitAt w 2) (immAt 2 w 0))
  | 7 => .ok (.fadd (regAt w 16) (regAt w 10) (regAt w 4) (bitAt w 3) (bitAt w 2) (immAt 2 w 0))
  | 8 => .ok (.fsub (regAt w 16) (regAt w 10) (regAt w 4) (bitAt w 3) (bitAt w 2) (immAt 2 w 0))
  | 9 => .ok (.fmul (regAt w 16) (regAt w 10) (regAt w 4) (bitAt w 3) (bitAt w 2) (immAt 2 w 0))
  | 10 => .ok (.fmin (regAt w 16) (regAt w 10) (regAt w 4) (bitAt w 3) (bitAt w 2) (immAt 2 w 0))
  | 11 => .ok (.fmax (regAt w 16) (regAt w 10) (regAt w 4) (bitAt w 3) (bitAt w 2) (immAt 2 w 0))
  | 12 => chk ((fld w 2 2 != 0) || (fld w 9 4 != 0)) false false false
      (.fabs (regAt w 16) (regAt w 10) (bitAt w 3) (immAt 2 w 0))
  | 13 => chk ((fld w 2 2 != 0) || (fld w 9 4 != 0)) false false false
      (.fneg (regAt w 16) (regAt w 10) (bitAt w 3) (immAt 2 w 0))
  | 14 => chk false false ((bitAt w 16 || bitAt w 10 || bitAt w 4)) false
      (.dadd (regAt w 16) (regAt w 10) (regAt w 4) (bitAt w 3) (bitAt w 2) (immAt 2 w 0))
  | 15 => chk false false ((bitAt w 16 || bitAt w 10 || bitAt w 4)) false
      (.dsub (regAt w 16) (regAt w 10) (regAt w 4) (bitAt w 3) (bitAt w 2) (immAt 2 w 0))
  | 16 => chk false false ((bitAt w 16 || bitAt w 10 || bitAt w 4)) false
      (.dmul (regAt w 16) (regAt w 10) (regAt w 4) (bitAt w 3) (bitAt w 2) (immAt 2 w 0))
  | 17 => chk false false ((bitAt w 16 || bitAt w 10 || bitAt w 4)) false
      (.dmin (regAt w 16) (regAt w 10) (regAt w 4) (bitAt w 3) (bitAt w 2) (immAt 2 w 0))
  | 18 => chk false false ((bitAt w 16 || bitAt w 10 || bitAt w 4)) false
      (.dmax (regAt w 16) (regAt w 10) (regAt w 4) (bitAt w 3) (bitAt w 2) (immAt 2 w 0))
  | 19 => .ok (.hadd2 (regAt w 16) (regAt w 10) (regAt w 4) (bitAt w 3) (bitAt w 2) (immAt 2 w 0))
  | 20 => .ok (.hmul2 (regAt w 16) (regAt w 10) (regAt w 4) (bitAt w 3) (bitAt w 2) (immAt 2 w 0))
  | 21 => .ok (.hmin2 (regAt w 16) (regAt w 10) (regAt w 4) (bitAt w 3) (bitAt w 2) (immAt 2 w 0))
  | 22 => .ok (.hmax2 (regAt w 16) (regAt w 10) (regAt w 4) (bitAt w 3) (bitAt w 2) (immAt 2 w 0))
  | 23 => .ok (.badd2 (regAt w 16) (regAt w 10) (regAt w 4) (bitAt w 3) (bitAt w 2) (immAt 2 w 0))
  | 24 => .ok (.bmul2 (regAt w 16) (regAt w 10) (regAt w 4) (bitAt w 3) (bitAt w 2) (immAt 2 w 0))
  | 25 => chk false ((CvtOp.reserved (fld w 9 4) || (bitAt w 2 && CvtOp.satOnly (fld w 9 4)))) (((CvtOp.dstWide (fld w 9 4) && bitAt w 16) || (CvtOp.srcWide (fld w 9 4) && bitAt w 10))) false
      (.cvt (regAt w 16) (regAt w 10) (CvtOp.ofCode (fld w 9 4)) (bitAt w 3) (bitAt w 2) (immAt 2 w 0))
  | 26 => chk ((fld w 2 2 != 0) || (fld w 9 4 != 0)) false false false
      (.fexp2 (regAt w 16) (regAt w 10) (bitAt w 3) (immAt 2 w 0))
  | 27 => chk ((fld w 2 2 != 0) || (fld w 9 4 != 0)) false false false
      (.flog2 (regAt w 16) (regAt w 10) (bitAt w 3) (immAt 2 w 0))
  | 28 => chk ((fld w 2 2 != 0) || (fld w 9 4 != 0)) false false false
      (.frcp (regAt w 16) (regAt w 10) (bitAt w 3) (immAt 2 w 0))
  | 29 => chk ((fld w 2 2 != 0) || (fld w 9 4 != 0)) false false false
      (.frsq (regAt w 16) (regAt w 10) (bitAt w 3) (immAt 2 w 0))
  | 30 => chk ((fld w 2 2 != 0) || (fld w 9 4 != 0)) false false false
      (.fsqrt (regAt w 16) (regAt w 10) (bitAt w 3) (immAt 2 w 0))
  | 31 => chk ((fld w 2 2 != 0) || (fld w 9 4 != 0)) false false false
      (.fsinp (regAt w 16) (regAt w 10) (bitAt w 3) (immAt 2 w 0))
  | 32 => chk ((fld w 2 2 != 0) || (fld w 9 4 != 0)) false false false
      (.fcosp (regAt w 16) (regAt w 10) (bitAt w 3) (immAt 2 w 0))
  | 33 => chk ((fld w 2 2 != 0) || (fld w 9 4 != 0)) false false false
      (.ftanh (regAt w 16) (regAt w 10) (bitAt w 3) (immAt 2 w 0))
  | 34 => chk ((fld w 2 2 != 0) || (fld w 9 4 != 0)) false ((bitAt w 16 || bitAt w 10)) false
      (.drcp (regAt w 16) (regAt w 10) (bitAt w 3) (immAt 2 w 0))
  | 35 => chk ((fld w 2 2 != 0) || (fld w 9 4 != 0)) false ((bitAt w 16 || bitAt w 10)) false
      (.drsq (regAt w 16) (regAt w 10) (bitAt w 3) (immAt 2 w 0))
  | 36 => .ok (.fscl (regAt w 16) (regAt w 10) (regAt w 4) (bitAt w 3) (bitAt w 2) (immAt 2 w 0))
  | 37 => chk false false ((bitAt w 16 || bitAt w 10)) false
      (.dscl (regAt w 16) (regAt w 10) (regAt w 4) (bitAt w 3) (bitAt w 2) (immAt 2 w 0))
  | 38 => chk ((fld w 2 2 != 0) || (fld w 9 4 != 0)) false false false
      (.ffrc (regAt w 16) (regAt w 10) (bitAt w 3) (immAt 2 w 0))
  | _ => .error .reservedOpcode

/-- Class LT (R142, R143, R149). -/
def decodeLT (w : Nat) : Except DecodeError Instr :=
  match fld w 27 26 with
  | 0 => .ok (.ffma (regAt w 20) (regAt w 14) (regAt w 8) (regAt w 2) (immAt 2 w 0))
  | 1 => chk false false ((bitAt w 20 || bitAt w 14 || bitAt w 8 || bitAt w 2)) false
      (.dfma (regAt w 20) (regAt w 14) (regAt w 8) (regAt w 2) (immAt 2 w 0))
  | 2 => .ok (.hfma2 (regAt w 20) (regAt w 14) (regAt w 8) (regAt w 2) (immAt 2 w 0))
  | _ => .ok (.imad (regAt w 20) (regAt w 14) (regAt w 8) (regAt w 2) (immAt 2 w 0))

/-- Class LM (R142, R143, R149). -/
def decodeLM (w : Nat) : Except DecodeError Instr :=
  match fld w 27 23 with
  | 0 => chk false false (bitAt w 11) false
      (.ld8 (regAt w 17) (regAt w 11) (immAt 8 w 3) (bitAt w 2) (immAt 2 w 0))
  | 1 => chk false false (bitAt w 11) false
      (.ld8s (regAt w 17) (regAt w 11) (immAt 8 w 3) (bitAt w 2) (immAt 2 w 0))
  | 2 => chk false false (bitAt w 11) false
      (.ld16 (regAt w 17) (regAt w 11) (immAt 8 w 3) (bitAt w 2) (immAt 2 w 0))
  | 3 => chk false false (bitAt w 11) false
      (.ld16s (regAt w 17) (regAt w 11) (immAt 8 w 3) (bitAt w 2) (immAt 2 w 0))
  | 4 => chk false false (bitAt w 11) false
      (.ld32 (regAt w 17) (regAt w 11) (immAt 8 w 3) (bitAt w 2) (immAt 2 w 0))
  | 5 => chk false false ((bitAt w 17 || bitAt w 11)) false
      (.ld64 (regAt w 17) (regAt w 11) (immAt 8 w 3) (bitAt w 2) (immAt 2 w 0))
  | 6 => chk false false ((fld w 18 17 != 0 || bitAt w 11)) false
      (.ld128 (regAt w 17) (regAt w 11) (immAt 8 w 3) (bitAt w 2) (immAt 2 w 0))
  | 7 => chk false false (bitAt w 11) false
      (.lda32 (regAt w 17) (regAt w 11) (immAt 8 w 3) (bitAt w 2) (immAt 2 w 0))
  | 8 => chk false false ((bitAt w 17 || bitAt w 11)) false
      (.lda64 (regAt w 17) (regAt w 11) (immAt 8 w 3) (bitAt w 2) (immAt 2 w 0))
  | 9 => chk false false ((fld w 18 17 != 0 || bitAt w 11)) false
      (.ld128a (regAt w 17) (regAt w 11) (immAt 8 w 3) (bitAt w 2) (immAt 2 w 0))
  | 10 => chk false false (bitAt w 11) false
      (.st8 (regAt w 17) (regAt w 11) (immAt 8 w 3) (bitAt w 2) (immAt 2 w 0))
  | 11 => chk false false (bitAt w 11) false
      (.st16 (regAt w 17) (regAt w 11) (immAt 8 w 3) (bitAt w 2) (immAt 2 w 0))
  | 12 => chk false false (bitAt w 11) false
      (.st32 (regAt w 17) (regAt w 11) (immAt 8 w 3) (bitAt w 2) (immAt 2 w 0))
  | 13 => chk false false ((bitAt w 17 || bitAt w 11)) false
      (.st64 (regAt w 17) (regAt w 11) (immAt 8 w 3) (bitAt w 2) (immAt 2 w 0))
  | 14 => chk false false ((fld w 18 17 != 0 || bitAt w 11)) false
      (.st128 (regAt w 17) (regAt w 11) (immAt 8 w 3) (bitAt w 2) (immAt 2 w 0))
  | 15 => chk false false (bitAt w 11) false
      (.stl32 (regAt w 17) (regAt w 11) (immAt 8 w 3) (bitAt w 2) (immAt 2 w 0))
  | 16 => chk false false ((bitAt w 17 || bitAt w 11)) false
      (.stl64 (regAt w 17) (regAt w 11) (immAt 8 w 3) (bitAt w 2) (immAt 2 w 0))
  | 17 => chk false false ((fld w 18 17 != 0 || bitAt w 11)) false
      (.st128a (regAt w 17) (regAt w 11) (immAt 8 w 3) (bitAt w 2) (immAt 2 w 0))
  | 18 => chk false false (bitAt w 11) false
      (.ldc32 (regAt w 17) (regAt w 11) (immAt 8 w 3) (bitAt w 2) (immAt 2 w 0))
  | 19 => chk false false ((bitAt w 17 || bitAt w 11)) false
      (.ldc64 (regAt w 17) (regAt w 11) (immAt 8 w 3) (bitAt w 2) (immAt 2 w 0))
  | 20 => chk ((fld w 22 17 != 0)) false (bitAt w 11) false
      (.pfx (regAt w 11) (immAt 8 w 3) (bitAt w 2) (immAt 2 w 0))
  | _ => .error .reservedOpcode

/-- Class LA (R142, R143, R149). -/
def decodeLA (w : Nat) : Except DecodeError Instr :=
  match fld w 27 22 with
  | 0 => chk false false (bitAt w 10) false
      (.aadd (regAt w 16) (regAt w 10) (regAt w 4) (Scope.ofCode (fld w 3 2)) (Order.ofCode (fld w 1 0)))
  | 1 => chk false false (bitAt w 10) false
      (.aimin (regAt w 16) (regAt w 10) (regAt w 4) (Scope.ofCode (fld w 3 2)) (Order.ofCode (fld w 1 0)))
  | 2 => chk false false (bitAt w 10) false
      (.aimax (regAt w 16) (regAt w 10) (regAt w 4) (Scope.ofCode (fld w 3 2)) (Order.ofCode (fld w 1 0)))
  | 3 => chk false false (bitAt w 10) false
      (.anmin (regAt w 16) (regAt w 10) (regAt w 4) (Scope.ofCode (fld w 3 2)) (Order.ofCode (fld w 1 0)))
  | 4 => chk false false (bitAt w 10) false
      (.anmax (regAt w 16) (regAt w 10) (regAt w 4) (Scope.ofCode (fld w 3 2)) (Order.ofCode (fld w 1 0)))
  | 5 => chk false false (bitAt w 10) false
      (.aand (regAt w 16) (regAt w 10) (regAt w 4) (Scope.ofCode (fld w 3 2)) (Order.ofCode (fld w 1 0)))
  | 6 => chk false false (bitAt w 10) false
      (.aor (regAt w 16) (regAt w 10) (regAt w 4) (Scope.ofCode (fld w 3 2)) (Order.ofCode (fld w 1 0)))
  | 7 => chk false false (bitAt w 10) false
      (.axor (regAt w 16) (regAt w 10) (regAt w 4) (Scope.ofCode (fld w 3 2)) (Order.ofCode (fld w 1 0)))
  | 8 => chk false false (bitAt w 10) false
      (.axch (regAt w 16) (regAt w 10) (regAt w 4) (Scope.ofCode (fld w 3 2)) (Order.ofCode (fld w 1 0)))
  | 9 => chk false false (bitAt w 10) false
      (.acas (regAt w 16) (regAt w 10) (regAt w 4) (Scope.ofCode (fld w 3 2)) (Order.ofCode (fld w 1 0)))
  | 10 => chk false false (bitAt w 10) false
      (.afadd (regAt w 16) (regAt w 10) (regAt w 4) (Scope.ofCode (fld w 3 2)) (Order.ofCode (fld w 1 0)))
  | 11 => chk false false ((bitAt w 16 || bitAt w 10 || bitAt w 4)) false
      (.aaddw (regAt w 16) (regAt w 10) (regAt w 4) (Scope.ofCode (fld w 3 2)) (Order.ofCode (fld w 1 0)))
  | 12 => chk false false ((bitAt w 16 || bitAt w 10 || bitAt w 4)) false
      (.axchw (regAt w 16) (regAt w 10) (regAt w 4) (Scope.ofCode (fld w 3 2)) (Order.ofCode (fld w 1 0)))
  | 13 => chk false false ((bitAt w 16 || bitAt w 10 || bitAt w 4)) false
      (.acasw (regAt w 16) (regAt w 10) (regAt w 4) (Scope.ofCode (fld w 3 2)) (Order.ofCode (fld w 1 0)))
  | 16 => chk ((fld w 21 16 != 0)) ((bitAt w 0)) (bitAt w 10) false
      (.qadd (regAt w 10) (regAt w 4) (Scope.ofCode (fld w 3 2)) (Order.ofCode (fld w 1 0)))
  | 17 => chk ((fld w 21 16 != 0)) ((bitAt w 0)) (bitAt w 10) false
      (.qimin (regAt w 10) (regAt w 4) (Scope.ofCode (fld w 3 2)) (Order.ofCode (fld w 1 0)))
  | 18 => chk ((fld w 21 16 != 0)) ((bitAt w 0)) (bitAt w 10) false
      (.qimax (regAt w 10) (regAt w 4) (Scope.ofCode (fld w 3 2)) (Order.ofCode (fld w 1 0)))
  | 19 => chk ((fld w 21 16 != 0)) ((bitAt w 0)) (bitAt w 10) false
      (.qand (regAt w 10) (regAt w 4) (Scope.ofCode (fld w 3 2)) (Order.ofCode (fld w 1 0)))
  | 20 => chk ((fld w 21 16 != 0)) ((bitAt w 0)) (bitAt w 10) false
      (.qor (regAt w 10) (regAt w 4) (Scope.ofCode (fld w 3 2)) (Order.ofCode (fld w 1 0)))
  | 21 => chk ((fld w 21 16 != 0)) ((bitAt w 0)) (bitAt w 10) false
      (.qxor (regAt w 10) (regAt w 4) (Scope.ofCode (fld w 3 2)) (Order.ofCode (fld w 1 0)))
  | 22 => chk ((fld w 21 16 != 0)) ((bitAt w 0)) (bitAt w 10) false
      (.qfadd (regAt w 10) (regAt w 4) (Scope.ofCode (fld w 3 2)) (Order.ofCode (fld w 1 0)))
  | 23 => chk ((fld w 21 16 != 0)) ((bitAt w 0)) (bitAt w 10) false
      (.qbadd2 (regAt w 10) (regAt w 4) (Scope.ofCode (fld w 3 2)) (Order.ofCode (fld w 1 0)))
  | 24 => chk false ((bitAt w 1)) (bitAt w 10) false
      (.waita (regAt w 16) (regAt w 10) (regAt w 4) (Scope.ofCode (fld w 3 2)) (Order.ofCode (fld w 1 0)))
  | _ => .error .reservedOpcode

/-- Class LX (R142, R143, R149). -/
def decodeLX (w : Nat) : Except DecodeError Instr :=
  match fld w 27 22 with
  | 0 => chk ((fld w 2 2 != 0) || (fld w 16 16 != 0)) false false false
      (.mma (immAt 4 w 18) (bitAt w 17) (regAt w 10) (immAt 4 w 6) (predAt w 3) (immAt 2 w 0))
  | 1 => chk ((fld w 2 2 != 0) || (fld w 16 16 != 0)) false false false
      (.mmab (immAt 4 w 18) (bitAt w 17) (regAt w 10) (immAt 4 w 6) (predAt w 3) (immAt 2 w 0))
  | 2 => chk ((fld w 9 4 != 0) || (fld w 21 16 != 0)) ((fld w 3 2 != 0)) false false
      (.mcfg (regAt w 10) (immAt 2 w 0))
  | 3 => chk ((fld w 17 4 != 0)) ((bitAt w 3)) false false
      (.mzero (immAt 4 w 18) (bitAt w 2) (immAt 2 w 0))
  | 4 => chk ((fld w 5 4 != 0) || (fld w 3 2 == 3 && fld w 15 10 != 0)) false false false
      (.mread (regAt w 16) (regAt w 10) (immAt 4 w 6) (MreadMode.ofCode (fld w 3 2)) (immAt 2 w 0))
  | 5 => chk ((fld w 17 16 != 0)) ((bitAt w 3)) false false
      (.mwrite (immAt 4 w 18) (regAt w 10) (regAt w 4) (bitAt w 2) (immAt 2 w 0))
  | 6 => chk ((fld w 17 16 != 0)) ((bitAt w 3)) (bitAt w 10) false
      (.mdrain (immAt 4 w 18) (regAt w 10) (regAt w 4) (bitAt w 2) (immAt 2 w 0))
  | 7 => chk ((fld w 17 4 != 0) || (fld w 3 2 == 1 && fld w 21 18 != 0)) ((bitAt w 3)) false false
      (.mwait (immAt 4 w 18) (bitAt w 2) (immAt 2 w 0))
  | 8 => chk ((fld w 21 4 != 0)) ((fld w 3 2 != 0)) false false
      (.ofence (immAt 2 w 0))
  | 9 => chk ((fld w 9 4 != 0) || (fld w 17 16 != 0)) ((fld w 3 2 != 0)) false false
      (.obres (immAt 4 w 18) (regAt w 10) (immAt 2 w 0))
  | 10 => chk ((fld w 9 4 != 0) || (fld w 17 16 != 0)) ((fld w 3 2 != 0)) false false
      (.obbind (immAt 4 w 18) (regAt w 10) (immAt 2 w 0))
  | 11 => chk ((fld w 17 4 != 0)) ((fld w 3 2 != 0)) false false
      (.obrel (immAt 4 w 18) (immAt 2 w 0))
  | 12 => chk ((fld w 9 4 != 0) || (fld w 21 16 != 0) || bitAt w 2) false false false
      (.cpy (regAt w 10) (bitAt w 3) (immAt 2 w 0))
  | 13 => chk ((fld w 9 4 != 0) || (fld w 21 16 != 0) || bitAt w 2) false false false
      (.cpys (regAt w 10) (bitAt w 3) (immAt 2 w 0))
  | 14 => chk ((fld w 21 16 != 0) || bitAt w 2) false false false
      (.fetch (regAt w 10) (regAt w 4) (bitAt w 3) (immAt 2 w 0))
  | 15 => chk ((fld w 21 16 != 0)) ((bitAt w 3)) ((bitAt w 2 && bitAt w 4)) false
      (.tbinit (regAt w 10) (regAt w 4) (bitAt w 2) (immAt 2 w 0))
  | 16 => chk ((fld w 21 16 != 0)) ((bitAt w 3)) false false
      (.tbarr (regAt w 10) (regAt w 4) (bitAt w 2) (immAt 2 w 0))
  | 17 => chk ((fld w 21 16 != 0)) ((bitAt w 3)) false false
      (.tbwait (regAt w 10) (regAt w 4) (bitAt w 2) (immAt 2 w 0))
  | 18 => chk ((fld w 21 19 != 0)) ((bitAt w 3)) false false
      (.tbtest (predAt w 16) (regAt w 10) (regAt w 4) (bitAt w 2) (immAt 2 w 0))
  | 19 => chk ((fld w 17 16 != 0)) ((fld w 3 2 != 0)) false false
      (.sfmax (immAt 4 w 18) (regAt w 10) (regAt w 4) (immAt 2 w 0))
  | 20 => chk ((fld w 21 19 != 0)) ((fld w 3 2 != 0)) false false
      (.sfmask (predAt w 16) (regAt w 10) (regAt w 4) (immAt 2 w 0))
  | 21 => chk ((fld w 9 4 != 0) || (fld w 21 19 != 0) || (fld w 3 2 == 1 && fld w 15 10 != 0)) ((bitAt w 3)) false false
      (.sfclr (predAt w 16) (regAt w 10) (bitAt w 2) (immAt 2 w 0))
  | 22 => chk ((fld w 9 4 != 0) || (fld w 21 16 != 0)) ((fld w 3 2 != 0)) false false
      (.sftopk (regAt w 10) (immAt 2 w 0))
  | 23 => chk ((fld w 9 4 != 0) || (fld w 21 16 != 0)) ((fld w 3 2 != 0)) false false
      (.sfhist (regAt w 10) (immAt 2 w 0))
  | 24 => chk ((fld w 9 4 != 0) || (fld w 21 16 != 0)) ((bitAt w 3)) false false
      (.sfscan (regAt w 10) (bitAt w 2) (immAt 2 w 0))
  | 25 => chk ((fld w 9 4 != 0) || (fld w 21 16 != 0)) ((fld w 3 2 != 0)) false false
      (.sfperm (regAt w 10) (immAt 2 w 0))
  | 26 => chk ((fld w 21 4 != 0)) ((fld w 3 2 != 0)) false false
      (.sfwait (immAt 2 w 0))
  | _ => .error .reservedOpcode

/-- Class LC (R142, R143, R149). -/
def decodeLC (w : Nat) : Except DecodeError Instr :=
  match fld w 27 22 with
  | 0 => chk ((fld w 9 4 != 0)) false false false
      (.redi (regAt w 16) (regAt w 10) (RediMode.ofCode (fld w 3 2)) (immAt 2 w 0))
  | 1 => chk ((fld w 9 4 != 0)) false ((fld w 3 2 == 0 && bitAt w 16)) false
      (.redn (regAt w 16) (regAt w 10) (RednMode.ofCode (fld w 3 2)) (immAt 2 w 0))
  | 2 => chk ((fld w 9 4 != 0)) ((fld w 3 2 == 3)) false false
      (.redf (regAt w 16) (regAt w 10) (RedfMode.ofCode (fld w 3 2)) (immAt 2 w 0))
  | 3 => chk ((fld w 9 4 != 0)) ((fld w 3 2 == 3)) ((bitAt w 16 || bitAt w 10)) false
      (.redd (regAt w 16) (regAt w 10) (RedfMode.ofCode (fld w 3 2)) (immAt 2 w 0))
  | 4 => chk ((fld w 9 4 != 0)) false false false
      (.scani (regAt w 16) (regAt w 10) (ScaniMode.ofCode (fld w 3 2)) (immAt 2 w 0))
  | 5 => chk ((fld w 9 4 != 0)) false false false
      (.scanf (regAt w 16) (regAt w 10) (ScanfMode.ofCode (fld w 3 2)) (immAt 2 w 0))
  | 6 => chk ((fld w 3 2 == 2 && fld w 9 4 != 0)) ((fld w 3 2 == 3)) false ((fld w 3 2 == 0 && 31 < fld w 9 4))
      (.bcast (regAt w 16) (regAt w 10) (BcastSrc.at w) (immAt 2 w 0))
  | 7 => chk ((fld w 9 4 != 0) || (fld w 15 13 != 0) || (fld w 3 2 != 2 && fld w 21 19 != 0)) false false false
      (.vote (VoteOp.at w) (predAt w 10) (immAt 2 w 0))
  | 8 => chk ((fld w 3 2 != 0)) false ((fld w 17 16 != 0)) false
      (.isect (regAt w 16) (regAt w 10) (regAt w 4) (immAt 2 w 0))
  | 9 => chk false false ((fld w 17 16 != 0)) false
      (.isectb (regAt w 16) (regAt w 10) (regAt w 4) (immAt 2 w 2) (immAt 2 w 0))
  | 10 => chk ((fld w 21 19 != 0)) false false false
      (.fcmp (predAt w 16) (regAt w 10) (regAt w 4) (FCond.ofCode (fld w 3 2)) (immAt 2 w 0))
  | 11 => chk ((fld w 21 19 != 0)) false ((bitAt w 10 || bitAt w 4)) false
      (.dcmp (predAt w 16) (regAt w 10) (regAt w 4) (FCond.ofCode (fld w 3 2)) (immAt 2 w 0))
  | 12 => chk ((fld w 21 19 != 0)) false (bitAt w 16) false
      (.hcmp2 (predAt w 16) (regAt w 10) (regAt w 4) (FCond.ofCode (fld w 3 2)) (immAt 2 w 0))
  | 13 => chk ((fld w 9 4 != 0)) false ((fld w 3 2 == 1 && bitAt w 10)) false
      (.fclass (regAt w 16) (regAt w 10) (FclassFmt.ofCode (fld w 3 2)) (immAt 2 w 0))
  | _ => .error .reservedOpcode

/-- Class FR (R142, R143, R149). -/
def decodeFR (w : Nat) : Except DecodeError Instr :=
  match fld w 27 22 with
  | 0 => chk ((fld w 2 2 != 0) || (fld w 9 4 != 0)) (bitAt w 1) ((bitAt w 0 && (bitAt w 16 || bitAt w 10))) false
      (.mov (regAt w 16) (regAt w 10) (bitAt w 3) (bitAt w 0))
  | 1 => chk false (bitAt w 1) ((bitAt w 0 && (bitAt w 16 || bitAt w 10 || bitAt w 4))) false
      (.iadd (regAt w 16) (regAt w 10) (regAt w 4) (bitAt w 3) (bitAt w 2) (bitAt w 0))
  | 2 => chk false (bitAt w 1) ((bitAt w 0 && (bitAt w 16 || bitAt w 10 || bitAt w 4))) false
      (.isub (regAt w 16) (regAt w 10) (regAt w 4) (bitAt w 3) (bitAt w 2) (bitAt w 0))
  | 3 => chk false (bitAt w 1) ((bitAt w 0 && (bitAt w 16 || bitAt w 10 || bitAt w 4))) false
      (.imul (regAt w 16) (regAt w 10) (regAt w 4) (bitAt w 3) (bitAt w 2) (bitAt w 0))
  | 4 => chk false (bitAt w 1) ((bitAt w 0 && (bitAt w 16 || bitAt w 10))) false
      (.shl (regAt w 16) (regAt w 10) (regAt w 4) (bitAt w 3) (bitAt w 2) (bitAt w 0))
  | 5 => chk false (bitAt w 1) ((bitAt w 0 && (bitAt w 16 || bitAt w 10))) false
      (.shr (regAt w 16) (regAt w 10) (regAt w 4) (bitAt w 3) (bitAt w 2) (bitAt w 0))
  | 6 => chk false (bitAt w 1) ((bitAt w 0 && (bitAt w 16 || bitAt w 10))) false
      (.sar (regAt w 16) (regAt w 10) (regAt w 4) (bitAt w 3) (bitAt w 2) (bitAt w 0))
  | 7 => chk false (bitAt w 1) ((bitAt w 0 && (bitAt w 16 || bitAt w 10 || bitAt w 4))) false
      (.and (regAt w 16) (regAt w 10) (regAt w 4) (bitAt w 3) (bitAt w 2) (bitAt w 0))
  | 8 => chk false (bitAt w 1) ((bitAt w 0 && (bitAt w 16 || bitAt w 10 || bitAt w 4))) false
      (.or (regAt w 16) (regAt w 10) (regAt w 4) (bitAt w 3) (bitAt w 2) (bitAt w 0))
  | 9 => chk false (bitAt w 1) ((bitAt w 0 && (bitAt w 16 || bitAt w 10 || bitAt w 4))) false
      (.xor (regAt w 16) (regAt w 10) (regAt w 4) (bitAt w 3) (bitAt w 2) (bitAt w 0))
  | 10 => chk false (bitAt w 1) ((bitAt w 0 && (bitAt w 16 || bitAt w 10 || bitAt w 4))) false
      (.andn (regAt w 16) (regAt w 10) (regAt w 4) (bitAt w 3) (bitAt w 2) (bitAt w 0))
  | 11 => chk false (bitAt w 1) ((bitAt w 0 && (bitAt w 16 || bitAt w 10 || bitAt w 4))) false
      (.imin (regAt w 16) (regAt w 10) (regAt w 4) (bitAt w 3) (bitAt w 2) (bitAt w 0))
  | 12 => chk false (bitAt w 1) ((bitAt w 0 && (bitAt w 16 || bitAt w 10 || bitAt w 4))) false
      (.imax (regAt w 16) (regAt w 10) (regAt w 4) (bitAt w 3) (bitAt w 2) (bitAt w 0))
  | 13 => chk false (bitAt w 1) ((bitAt w 0 && (bitAt w 16 || bitAt w 10 || bitAt w 4))) false
      (.nmin (regAt w 16) (regAt w 10) (regAt w 4) (bitAt w 3) (bitAt w 2) (bitAt w 0))
  | 14 => chk false (bitAt w 1) ((bitAt w 0 && (bitAt w 16 || bitAt w 10 || bitAt w 4))) false
      (.nmax (regAt w 16) (regAt w 10) (regAt w 4) (bitAt w 3) (bitAt w 2) (bitAt w 0))
  | 15 => chk ((fld w 2 2 != 0) || (fld w 9 4 != 0)) (bitAt w 1) ((bitAt w 0 && (bitAt w 16 || bitAt w 10))) false
      (.ineg (regAt w 16) (regAt w 10) (bitAt w 3) (bitAt w 0))
  | 16 => chk ((fld w 2 2 != 0) || (fld w 9 4 != 0)) (bitAt w 1) ((bitAt w 0 && (bitAt w 16 || bitAt w 10))) false
      (.iabs (regAt w 16) (regAt w 10) (bitAt w 3) (bitAt w 0))
  | 17 => chk false (bitAt w 1) ((bitAt w 0 && (bitAt w 16 || bitAt w 10))) false
      (.mkform (regAt w 16) (regAt w 10) (regAt w 4) (bitAt w 3) (bitAt w 2) (bitAt w 0))
  | 18 => chk ((fld w 2 2 != 0) || (fld w 9 4 != 0)) (bitAt w 1) ((bitAt w 0 && (bitAt w 16 || bitAt w 10))) false
      (.xbase (regAt w 16) (regAt w 10) (bitAt w 3) (bitAt w 0))
  | 19 => chk ((fld w 2 2 != 0) || (fld w 9 4 != 0)) (bitAt w 1) ((bitAt w 0 && (bitAt w 16))) false
      (.xstride (regAt w 16) (regAt w 10) (bitAt w 3) (bitAt w 0))
  | 20 => chk ((fld w 2 2 != 0) || (fld w 9 4 != 0)) (bitAt w 1) ((bitAt w 0 && (bitAt w 16 || bitAt w 10))) false
      (.rdfirst (regAt w 16) (regAt w 10) (bitAt w 3) (bitAt w 0))
  | 21 => chk ((fld w 2 2 != 0) || (fld w 9 4 != 0)) (bitAt w 1) ((bitAt w 0 && (bitAt w 16 || bitAt w 10))) false
      (.expand (regAt w 16) (regAt w 10) (bitAt w 3) (bitAt w 0))
  | _ => .error .reservedOpcode

/-- Class FI (R142, R143, R149). -/
def decodeFI (w : Nat) : Except DecodeError Instr :=
  match fld w 27 24 with
  | 0 => .ok (.iaddi (regAt w 18) (regAt w 12) (immAt 12 w 0))
  | 1 => .ok (.imuli (regAt w 18) (regAt w 12) (immAt 12 w 0))
  | 2 => chk false false false ((31 < fld w 11 0))
      (.shli (regAt w 18) (regAt w 12) (immAt 12 w 0))
  | 3 => chk false false false ((31 < fld w 11 0))
      (.shri (regAt w 18) (regAt w 12) (immAt 12 w 0))
  | 4 => chk false false false ((31 < fld w 11 0))
      (.sari (regAt w 18) (regAt w 12) (immAt 12 w 0))
  | 5 => .ok (.andi (regAt w 18) (regAt w 12) (immAt 12 w 0))
  | 6 => .ok (.ori (regAt w 18) (regAt w 12) (immAt 12 w 0))
  | 7 => .ok (.xori (regAt w 18) (regAt w 12) (immAt 12 w 0))
  | 8 => chk ((fld w 17 12 != 0)) false false false
      (.movi (regAt w 18) (immAt 12 w 0))
  | 9 => chk false false ((bitAt w 18 || bitAt w 12)) false
      (.iaddiw (regAt w 18) (regAt w 12) (immAt 12 w 0))
  | _ => .error .reservedOpcode

/-- Class FK (R142, R143, R149). -/
def decodeFK (w : Nat) : Except DecodeError Instr :=
  match fld w 27 26 with
  | 0 => chk ((fld w 3 0 != 0)) false false false
      (.movl (regAt w 20) (immAt 16 w 4))
  | 1 => chk ((fld w 3 0 != 0)) false false false
      (.movh (regAt w 20) (immAt 16 w 4))
  | 2 => chk ((fld w 3 0 != 0)) false false false
      (.movs (regAt w 20) (immAt 16 w 4))
  | _ => .error .reservedOpcode

/-- Class FC (R142, R143, R149). -/
def decodeFC (w : Nat) : Except DecodeError Instr :=
  match fld w 27 22 with
  | 0 => chk ((fld w 0 0 != 0)) ((5 < fld w 3 1) || (fld w 18 16 != 7)) false false
      (.icmp (predAt w 19) (regAt w 10) (regAt w 4) (Cond.ofCode (fld w 3 1)))
  | 1 => chk ((fld w 0 0 != 0)) ((5 < fld w 3 1)) false false
      (.icmpa (predAt w 19) (predAt w 16) (regAt w 10) (regAt w 4) (Cond.ofCode (fld w 3 1)))
  | 2 => chk ((fld w 0 0 != 0)) ((5 < fld w 3 1)) false false
      (.icmpo (predAt w 19) (predAt w 16) (regAt w 10) (regAt w 4) (Cond.ofCode (fld w 3 1)))
  | 3 => chk ((fld w 0 0 != 0)) ((5 < fld w 3 1) || (fld w 18 16 != 7)) false false
      (.ncmp (predAt w 19) (regAt w 10) (regAt w 4) (Cond.ofCode (fld w 3 1)))
  | 4 => chk ((fld w 0 0 != 0)) ((5 < fld w 3 1)) false false
      (.ncmpa (predAt w 19) (predAt w 16) (regAt w 10) (regAt w 4) (Cond.ofCode (fld w 3 1)))
  | 5 => chk ((fld w 0 0 != 0)) ((5 < fld w 3 1)) false false
      (.ncmpo (predAt w 19) (predAt w 16) (regAt w 10) (regAt w 4) (Cond.ofCode (fld w 3 1)))
  | 6 => chk ((fld w 0 0 != 0)) ((5 < fld w 3 1) || (fld w 18 16 != 7)) false false
      (.icmpi (predAt w 19) (regAt w 10) (immAt 6 w 4) (Cond.ofCode (fld w 3 1)))
  | 7 => chk ((fld w 0 0 != 0)) ((5 < fld w 3 1) || (fld w 18 16 != 7)) false false
      (.ncmpi (predAt w 19) (regAt w 10) (immAt 6 w 4) (Cond.ofCode (fld w 3 1)))
  | 8 => chk ((fld w 0 0 != 0)) ((5 < fld w 3 1) || (fld w 18 16 != 7)) ((bitAt w 10 || bitAt w 4)) false
      (.icmpw (predAt w 19) (regAt w 10) (regAt w 4) (Cond.ofCode (fld w 3 1)))
  | 9 => chk ((fld w 0 0 != 0)) ((5 < fld w 3 1) || (fld w 18 16 != 7)) ((bitAt w 10 || bitAt w 4)) false
      (.ncmpw (predAt w 19) (regAt w 10) (regAt w 4) (Cond.ofCode (fld w 3 1)))
  | 16 => chk ((fld w 9 0 != 0) || (fld w 18 16 != 0)) false false false
      (.pand (predAt w 19) (predAt w 13) (predAt w 10))
  | 17 => chk ((fld w 9 0 != 0) || (fld w 18 16 != 0)) false false false
      (.por (predAt w 19) (predAt w 13) (predAt w 10))
  | 18 => chk ((fld w 9 0 != 0) || (fld w 18 16 != 0)) false false false
      (.pxor (predAt w 19) (predAt w 13) (predAt w 10))
  | 19 => chk ((fld w 9 0 != 0) || (fld w 18 16 != 0)) false false false
      (.pandn (predAt w 19) (predAt w 13) (predAt w 10))
  | 20 => chk ((fld w 12 0 != 0) || (fld w 18 16 != 0)) false false false
      (.pnot (predAt w 19) (predAt w 13))
  | 21 => chk ((fld w 2 0 != 0) || (fld w 18 4 != 0)) false false false
      (.pset (predAt w 19) (bitAt w 3))
  | 22 => chk ((fld w 2 0 != 0) || (fld w 18 10 != 0)) false (bitAt w 4) false
      (.pcut (predAt w 19) (regAt w 4) (bitAt w 3))
  | 24 => .ok (.sel (regAt w 16) (regAt w 10) (regAt w 4) (predAt w 1) (bitAt w 0))
  | 25 => chk false false ((bitAt w 16 || bitAt w 10 || bitAt w 4)) false
      (.selw (regAt w 16) (regAt w 10) (regAt w 4) (predAt w 1) (bitAt w 0))
  | 26 => chk ((fld w 15 4 != 0)) false false false
      (.ptoi (regAt w 16) (predAt w 1) (bitAt w 0))
  | _ => .error .reservedOpcode

/-- Class FT (R142, R143, R149). -/
def decodeFT (w : Nat) : Except DecodeError Instr :=
  match fld w 27 24 with
  | 0 => .ok (.next (immAt 24 w 0))
  | 1 => .ok (.br (predAt w 21) (bitAt w 20) (immAt 20 w 0))
  | 2 => chk ((fld w 17 0 != 0)) false (bitAt w 18) false
      (.brx (regAt w 18))
  | 3 => .ok (.call (immAt 24 w 0))
  | 4 => chk ((fld w 17 0 != 0)) false (bitAt w 18) false
      (.callx (regAt w 18))
  | 5 => chk ((fld w 23 0 != 0)) false false false
      (.ret)
  | 6 => chk ((fld w 23 0 != 0)) false false false
      (.exit)
  | 7 => chk ((fld w 15 0 != 0)) false false false
      (.trap (immAt 8 w 16))
  | 8 => chk ((fld w 7 0 != 0)) false false false
      (.switch (regAt w 18) (immAt 10 w 8))
  | 9 => .ok (.yield (immAt 24 w 0))
  | _ => .error .reservedOpcode

/-- Class FY (R142, R143, R149). -/
def decodeFY (w : Nat) : Except DecodeError Instr :=
  match fld w 27 22 with
  | 0 => chk ((fld w 15 7 != 0)) ((!SpecialReg.readable (fld w 5 0))) ((bitAt w 6 && bitAt w 16)) false
      (.rds (regAt w 16) (bitAt w 6) (SpecialReg.ofCode (fld w 5 0)))
  | 1 => chk ((fld w 15 7 != 0)) ((!SpecialReg.writable (fld w 5 0))) ((bitAt w 6 && bitAt w 16)) false
      (.wrs (regAt w 16) (bitAt w 6) (SpecialReg.ofCode (fld w 5 0)))
  | 2 => chk ((fld w 21 6 != 0)) ((3 < fld w 5 3 || 4 < fld w 2 0)) false false
      (.fence (Scope.ofCode (fld w 5 3)) (FenceKind.ofCode (fld w 2 0)))
  | 3 => chk ((fld w 21 4 != 0)) false false false
      (.bar (immAt 4 w 0))
  | 4 => chk ((fld w 21 4 != 0)) false false false
      (.bara (immAt 4 w 0))
  | 5 => .ok (.rand (regAt w 16) (immAt 16 w 0))
  | 6 => chk ((fld w 5 0 != 0) || (fld w 15 7 != 0)) false ((bitAt w 6 && bitAt w 16)) false
      (.cyc (regAt w 16) (bitAt w 6))
  | 7 => chk ((fld w 21 0 != 0)) false false false
      (.nop)
  | 8 => chk ((fld w 21 8 != 0)) false false false
      (.bkpt (immAt 8 w 0))
  | 9 => chk ((fld w 21 0 != 0)) false false false
      (.eret)
  | 10 => chk ((fld w 15 4 != 0)) false false false
      (.xcht (regAt w 16) (immAt 4 w 0))
  | 11 => chk ((fld w 15 6 != 0)) false (bitAt w 0) false
      (.launch (regAt w 16) (regAt w 0))
  | 12 => chk ((fld w 15 6 != 0)) false (bitAt w 0) false
      (.lwait (regAt w 16) (regAt w 0))
  | 13 =>
    if bitAt w 6 then
      chk ((fld w 5 0 != 0) || (fld w 21 7 != 0)) false false false
      (.icinvAll)
    else
      chk ((fld w 21 7 != 0)) false (bitAt w 0) false
      (.icinv (regAt w 0))
  | 14 =>
    match fld w 9 6 with
    | 0 => chk ((fld w 15 10 != 0)) false (bitAt w 0) false
      (.dbgHalt (regAt w 16) (regAt w 0))
    | 1 => chk ((fld w 15 10 != 0)) false (bitAt w 0) false
      (.dbgResume (regAt w 16) (regAt w 0))
    | 2 => chk ((fld w 15 10 != 0)) false (bitAt w 0) false
      (.dbgStep (regAt w 16) (regAt w 0))
    | 3 => chk ((fld w 15 10 != 0)) false (bitAt w 0) false
      (.dbgSetbp (regAt w 16) (regAt w 0))
    | 4 => chk ((fld w 15 10 != 0)) false (bitAt w 0) false
      (.dbgClrbp (regAt w 16) (regAt w 0))
    | 5 => chk ((fld w 15 10 != 0)) false (bitAt w 0) false
      (.dbgSetwp (regAt w 16) (regAt w 0))
    | 6 => chk ((fld w 15 10 != 0)) false (bitAt w 0) false
      (.dbgClrwp (regAt w 16) (regAt w 0))
    | 7 => chk ((fld w 15 10 != 0)) false (bitAt w 0) false
      (.dbgRead (regAt w 16) (regAt w 0))
    | 8 => chk ((fld w 15 10 != 0)) false (bitAt w 0) false
      (.dbgPost (regAt w 16) (regAt w 0))
    | _ => chk (fld w 15 10 != 0) false (bitAt w 0) true .nop
  | 15 => chk ((fld w 21 0 != 0)) false false false
      (.halt)
  | _ => .error .reservedOpcode

/-- Class FH (R142, R143, R149). -/
def decodeFH (w : Nat) : Except DecodeError Instr :=
  match fld w 27 26 with
  | 0 => .ok (.segh (immAt 10 w 16) (bitAt w 15) (immAt 6 w 9) (immAt 7 w 2) (Role.ofCode (fld w 1 0)))
  | 1 => chk ((fld w 8 0 != 0)) ((bitAt w 17 && fld w 20 18 == 7)) false false
      (.runh (immAt 5 w 21) (predAt w 18) (bitAt w 17) (immAt 8 w 9))
  | _ => .error .reservedOpcode

/-- Decode one word (R142, R159): total, rejecting by name. -/
def decodeNat (w : Nat) : Except DecodeError Instr :=
  match fld w 31 28 with
  | 0 => decodeLR w
  | 1 => decodeLT w
  | 2 => decodeLM w
  | 3 => decodeLA w
  | 4 => decodeLX w
  | 5 => decodeLC w
  | 8 => decodeFR w
  | 9 => decodeFI w
  | 10 => decodeFK w
  | 11 => decodeFC w
  | 12 => decodeFT w
  | 13 => decodeFY w
  | 14 => decodeFH w
  | _ => .error .reservedClass

/-- Decode one 32-bit word. -/
def decode (w : W32) : Except DecodeError Instr := decodeNat w.toNat

/-- The number of a Bool field. -/
def bnat (b : Bool) : Nat := if b then 1 else 0

/-- The number of an instruction's word, from the layouts of R143 to R152; events have no word. -/
def encodeNat : Instr → Option Nat
  | .mov d a ka wide =>
    some (0x80000000 + d.toNat * 65536 + a.toNat * 1024 + bnat ka * 8 + bnat wide)
  | .iadd d a b ka kb wide =>
    some (0x80400000 + d.toNat * 65536 + a.toNat * 1024 + b.toNat * 16 + bnat ka * 8 + bnat kb * 4 + bnat wide)
  | .isub d a b ka kb wide =>
    some (0x80800000 + d.toNat * 65536 + a.toNat * 1024 + b.toNat * 16 + bnat ka * 8 + bnat kb * 4 + bnat wide)
  | .imul d a b ka kb wide =>
    some (0x80c00000 + d.toNat * 65536 + a.toNat * 1024 + b.toNat * 16 + bnat ka * 8 + bnat kb * 4 + bnat wide)
  | .shl d a b ka kb wide =>
    some (0x81000000 + d.toNat * 65536 + a.toNat * 1024 + b.toNat * 16 + bnat ka * 8 + bnat kb * 4 + bnat wide)
  | .shr d a b ka kb wide =>
    some (0x81400000 + d.toNat * 65536 + a.toNat * 1024 + b.toNat * 16 + bnat ka * 8 + bnat kb * 4 + bnat wide)
  | .sar d a b ka kb wide =>
    some (0x81800000 + d.toNat * 65536 + a.toNat * 1024 + b.toNat * 16 + bnat ka * 8 + bnat kb * 4 + bnat wide)
  | .and d a b ka kb wide =>
    some (0x81c00000 + d.toNat * 65536 + a.toNat * 1024 + b.toNat * 16 + bnat ka * 8 + bnat kb * 4 + bnat wide)
  | .or d a b ka kb wide =>
    some (0x82000000 + d.toNat * 65536 + a.toNat * 1024 + b.toNat * 16 + bnat ka * 8 + bnat kb * 4 + bnat wide)
  | .xor d a b ka kb wide =>
    some (0x82400000 + d.toNat * 65536 + a.toNat * 1024 + b.toNat * 16 + bnat ka * 8 + bnat kb * 4 + bnat wide)
  | .andn d a b ka kb wide =>
    some (0x82800000 + d.toNat * 65536 + a.toNat * 1024 + b.toNat * 16 + bnat ka * 8 + bnat kb * 4 + bnat wide)
  | .imin d a b ka kb wide =>
    some (0x82c00000 + d.toNat * 65536 + a.toNat * 1024 + b.toNat * 16 + bnat ka * 8 + bnat kb * 4 + bnat wide)
  | .imax d a b ka kb wide =>
    some (0x83000000 + d.toNat * 65536 + a.toNat * 1024 + b.toNat * 16 + bnat ka * 8 + bnat kb * 4 + bnat wide)
  | .nmin d a b ka kb wide =>
    some (0x83400000 + d.toNat * 65536 + a.toNat * 1024 + b.toNat * 16 + bnat ka * 8 + bnat kb * 4 + bnat wide)
  | .nmax d a b ka kb wide =>
    some (0x83800000 + d.toNat * 65536 + a.toNat * 1024 + b.toNat * 16 + bnat ka * 8 + bnat kb * 4 + bnat wide)
  | .ineg d a ka wide =>
    some (0x83c00000 + d.toNat * 65536 + a.toNat * 1024 + bnat ka * 8 + bnat wide)
  | .iabs d a ka wide =>
    some (0x84000000 + d.toNat * 65536 + a.toNat * 1024 + bnat ka * 8 + bnat wide)
  | .mkform d a b ka kb wide =>
    some (0x84400000 + d.toNat * 65536 + a.toNat * 1024 + b.toNat * 16 + bnat ka * 8 + bnat kb * 4 + bnat wide)
  | .xbase d a ka wide =>
    some (0x84800000 + d.toNat * 65536 + a.toNat * 1024 + bnat ka * 8 + bnat wide)
  | .xstride d a ka wide =>
    some (0x84c00000 + d.toNat * 65536 + a.toNat * 1024 + bnat ka * 8 + bnat wide)
  | .rdfirst d a ka wide =>
    some (0x85000000 + d.toNat * 65536 + a.toNat * 1024 + bnat ka * 8 + bnat wide)
  | .expand d a ka wide =>
    some (0x85400000 + d.toNat * 65536 + a.toNat * 1024 + bnat ka * 8 + bnat wide)
  | .iaddi d a imm =>
    some (0x90000000 + d.toNat * 262144 + a.toNat * 4096 + imm.toNat)
  | .imuli d a imm =>
    some (0x91000000 + d.toNat * 262144 + a.toNat * 4096 + imm.toNat)
  | .shli d a imm =>
    some (0x92000000 + d.toNat * 262144 + a.toNat * 4096 + imm.toNat)
  | .shri d a imm =>
    some (0x93000000 + d.toNat * 262144 + a.toNat * 4096 + imm.toNat)
  | .sari d a imm =>
    some (0x94000000 + d.toNat * 262144 + a.toNat * 4096 + imm.toNat)
  | .andi d a imm =>
    some (0x95000000 + d.toNat * 262144 + a.toNat * 4096 + imm.toNat)
  | .ori d a imm =>
    some (0x96000000 + d.toNat * 262144 + a.toNat * 4096 + imm.toNat)
  | .xori d a imm =>
    some (0x97000000 + d.toNat * 262144 + a.toNat * 4096 + imm.toNat)
  | .movi d imm =>
    some (0x98000000 + d.toNat * 262144 + imm.toNat)
  | .iaddiw d a imm =>
    some (0x99000000 + d.toNat * 262144 + a.toNat * 4096 + imm.toNat)
  | .movl d imm =>
    some (0xa0000000 + d.toNat * 1048576 + imm.toNat * 16)
  | .movh d imm =>
    some (0xa4000000 + d.toNat * 1048576 + imm.toNat * 16)
  | .movs d imm =>
    some (0xa8000000 + d.toNat * 1048576 + imm.toNat * 16)
  | .icmp pd a b cond =>
    some (0xb0070000 + pd.toNat * 524288 + a.toNat * 1024 + b.toNat * 16 + cond.code * 2)
  | .icmpa pd ps a b cond =>
    some (0xb0400000 + pd.toNat * 524288 + ps.toNat * 65536 + a.toNat * 1024 + b.toNat * 16 + cond.code * 2)
  | .icmpo pd ps a b cond =>
    some (0xb0800000 + pd.toNat * 524288 + ps.toNat * 65536 + a.toNat * 1024 + b.toNat * 16 + cond.code * 2)
  | .ncmp pd a b cond =>
    some (0xb0c70000 + pd.toNat * 524288 + a.toNat * 1024 + b.toNat * 16 + cond.code * 2)
  | .ncmpa pd ps a b cond =>
    some (0xb1000000 + pd.toNat * 524288 + ps.toNat * 65536 + a.toNat * 1024 + b.toNat * 16 + cond.code * 2)
  | .ncmpo pd ps a b cond =>
    some (0xb1400000 + pd.toNat * 524288 + ps.toNat * 65536 + a.toNat * 1024 + b.toNat * 16 + cond.code * 2)
  | .icmpi pd a imm cond =>
    some (0xb1870000 + pd.toNat * 524288 + a.toNat * 1024 + imm.toNat * 16 + cond.code * 2)
  | .ncmpi pd a imm cond =>
    some (0xb1c70000 + pd.toNat * 524288 + a.toNat * 1024 + imm.toNat * 16 + cond.code * 2)
  | .icmpw pd a b cond =>
    some (0xb2070000 + pd.toNat * 524288 + a.toNat * 1024 + b.toNat * 16 + cond.code * 2)
  | .ncmpw pd a b cond =>
    some (0xb2470000 + pd.toNat * 524288 + a.toNat * 1024 + b.toNat * 16 + cond.code * 2)
  | .pand pd pa pb =>
    some (0xb4000000 + pd.toNat * 524288 + pa.toNat * 8192 + pb.toNat * 1024)
  | .por pd pa pb =>
    some (0xb4400000 + pd.toNat * 524288 + pa.toNat * 8192 + pb.toNat * 1024)
  | .pxor pd pa pb =>
    some (0xb4800000 + pd.toNat * 524288 + pa.toNat * 8192 + pb.toNat * 1024)
  | .pandn pd pa pb =>
    some (0xb4c00000 + pd.toNat * 524288 + pa.toNat * 8192 + pb.toNat * 1024)
  | .pnot pd pa =>
    some (0xb5000000 + pd.toNat * 524288 + pa.toNat * 8192)
  | .pset pd k =>
    some (0xb5400000 + pd.toNat * 524288 + bnat k * 8)
  | .pcut pd a above =>
    some (0xb5800000 + pd.toNat * 524288 + a.toNat * 16 + bnat above * 8)
  | .sel d a b p sense =>
    some (0xb6000000 + d.toNat * 65536 + a.toNat * 1024 + b.toNat * 16 + p.toNat * 2 + bnat sense)
  | .selw d a b p sense =>
    some (0xb6400000 + d.toNat * 65536 + a.toNat * 1024 + b.toNat * 16 + p.toNat * 2 + bnat sense)
  | .ptoi d p sense =>
    some (0xb6800000 + d.toNat * 65536 + p.toNat * 2 + bnat sense)
  | .next off =>
    some (0xc0000000 + off.toNat)
  | .br p sense off =>
    some (0xc1000000 + p.toNat * 2097152 + bnat sense * 1048576 + off.toNat)
  | .brx a =>
    some (0xc2000000 + a.toNat * 262144)
  | .call off =>
    some (0xc3000000 + off.toNat)
  | .callx a =>
    some (0xc4000000 + a.toNat * 262144)
  | .ret =>
    some (0xc5000000)
  | .exit =>
    some (0xc6000000)
  | .trap n =>
    some (0xc7000000 + n.toNat * 65536)
  | .switch a entriesM1 =>
    some (0xc8000000 + a.toNat * 262144 + entriesM1.toNat * 256)
  | .yield off =>
    some (0xc9000000 + off.toNat)
  | .rds d wide sreg =>
    some (0xd0000000 + d.toNat * 65536 + bnat wide * 64 + sreg.code)
  | .wrs a wide sreg =>
    some (0xd0400000 + a.toNat * 65536 + bnat wide * 64 + sreg.code)
  | .fence scope kind =>
    some (0xd0800000 + scope.code * 8 + kind.code)
  | .bar n =>
    some (0xd0c00000 + n.toNat)
  | .bara n =>
    some (0xd1000000 + n.toNat)
  | .rand d stream =>
    some (0xd1400000 + d.toNat * 65536 + stream.toNat)
  | .cyc d wide =>
    some (0xd1800000 + d.toNat * 65536 + bnat wide * 64)
  | .nop =>
    some (0xd1c00000)
  | .bkpt code =>
    some (0xd2000000 + code.toNat)
  | .eret =>
    some (0xd2400000)
  | .xcht d n =>
    some (0xd2800000 + d.toNat * 65536 + n.toNat)
  | .launch d a =>
    some (0xd2c00000 + d.toNat * 65536 + a.toNat)
  | .lwait d a =>
    some (0xd3000000 + d.toNat * 65536 + a.toNat)
  | .icinv a =>
    some (0xd3400000 + a.toNat)
  | .icinvAll =>
    some (0xd3400040)
  | .dbgHalt d a =>
    some (0xd3800000 + d.toNat * 65536 + a.toNat)
  | .dbgResume d a =>
    some (0xd3800040 + d.toNat * 65536 + a.toNat)
  | .dbgStep d a =>
    some (0xd3800080 + d.toNat * 65536 + a.toNat)
  | .dbgSetbp d a =>
    some (0xd38000c0 + d.toNat * 65536 + a.toNat)
  | .dbgClrbp d a =>
    some (0xd3800100 + d.toNat * 65536 + a.toNat)
  | .dbgSetwp d a =>
    some (0xd3800140 + d.toNat * 65536 + a.toNat)
  | .dbgClrwp d a =>
    some (0xd3800180 + d.toNat * 65536 + a.toNat)
  | .dbgRead d a =>
    some (0xd38001c0 + d.toNat * 65536 + a.toNat)
  | .dbgPost d a =>
    some (0xd3800200 + d.toNat * 65536 + a.toNat)
  | .halt =>
    some (0xd3c00000)
  | .segh lenM1 fold liveG liveP role =>
    some (0xe0000000 + lenM1.toNat * 65536 + bnat fold * 32768 + liveG.toNat * 512 + liveP.toNat * 4 + role.code)
  | .runh count guard sense prefetch =>
    some (0xe4000000 + count.toNat * 2097152 + guard.toNat * 262144 + bnat sense * 131072 + prefetch.toNat * 512)
  | .imulhi d a b ka kb st =>
    some (0x0 + d.toNat * 65536 + a.toNat * 1024 + b.toNat * 16 + bnat ka * 8 + bnat kb * 4 + st.toNat)
  | .nmulhi d a b ka kb st =>
    some (0x400000 + d.toNat * 65536 + a.toNat * 1024 + b.toNat * 16 + bnat ka * 8 + bnat kb * 4 + st.toNat)
  | .popc d a ka st =>
    some (0x800000 + d.toNat * 65536 + a.toNat * 1024 + bnat ka * 8 + st.toNat)
  | .clz d a ka st =>
    some (0xc00000 + d.toNat * 65536 + a.toNat * 1024 + bnat ka * 8 + st.toNat)
  | .brev d a ka st =>
    some (0x1000000 + d.toNat * 65536 + a.toNat * 1024 + bnat ka * 8 + st.toNat)
  | .bfe d a b ka kb st =>
    some (0x1400000 + d.toNat * 65536 + a.toNat * 1024 + b.toNat * 16 + bnat ka * 8 + bnat kb * 4 + st.toNat)
  | .prmt d a b ka kb st =>
    some (0x1800000 + d.toNat * 65536 + a.toNat * 1024 + b.toNat * 16 + bnat ka * 8 + bnat kb * 4 + st.toNat)
  | .fadd d a b ka kb st =>
    some (0x1c00000 + d.toNat * 65536 + a.toNat * 1024 + b.toNat * 16 + bnat ka * 8 + bnat kb * 4 + st.toNat)
  | .fsub d a b ka kb st =>
    some (0x2000000 + d.toNat * 65536 + a.toNat * 1024 + b.toNat * 16 + bnat ka * 8 + bnat kb * 4 + st.toNat)
  | .fmul d a b ka kb st =>
    some (0x2400000 + d.toNat * 65536 + a.toNat * 1024 + b.toNat * 16 + bnat ka * 8 + bnat kb * 4 + st.toNat)
  | .fmin d a b ka kb st =>
    some (0x2800000 + d.toNat * 65536 + a.toNat * 1024 + b.toNat * 16 + bnat ka * 8 + bnat kb * 4 + st.toNat)
  | .fmax d a b ka kb st =>
    some (0x2c00000 + d.toNat * 65536 + a.toNat * 1024 + b.toNat * 16 + bnat ka * 8 + bnat kb * 4 + st.toNat)
  | .fabs d a ka st =>
    some (0x3000000 + d.toNat * 65536 + a.toNat * 1024 + bnat ka * 8 + st.toNat)
  | .fneg d a ka st =>
    some (0x3400000 + d.toNat * 65536 + a.toNat * 1024 + bnat ka * 8 + st.toNat)
  | .dadd d a b ka kb st =>
    some (0x3800000 + d.toNat * 65536 + a.toNat * 1024 + b.toNat * 16 + bnat ka * 8 + bnat kb * 4 + st.toNat)
  | .dsub d a b ka kb st =>
    some (0x3c00000 + d.toNat * 65536 + a.toNat * 1024 + b.toNat * 16 + bnat ka * 8 + bnat kb * 4 + st.toNat)
  | .dmul d a b ka kb st =>
    some (0x4000000 + d.toNat * 65536 + a.toNat * 1024 + b.toNat * 16 + bnat ka * 8 + bnat kb * 4 + st.toNat)
  | .dmin d a b ka kb st =>
    some (0x4400000 + d.toNat * 65536 + a.toNat * 1024 + b.toNat * 16 + bnat ka * 8 + bnat kb * 4 + st.toNat)
  | .dmax d a b ka kb st =>
    some (0x4800000 + d.toNat * 65536 + a.toNat * 1024 + b.toNat * 16 + bnat ka * 8 + bnat kb * 4 + st.toNat)
  | .hadd2 d a b ka kb st =>
    some (0x4c00000 + d.toNat * 65536 + a.toNat * 1024 + b.toNat * 16 + bnat ka * 8 + bnat kb * 4 + st.toNat)
  | .hmul2 d a b ka kb st =>
    some (0x5000000 + d.toNat * 65536 + a.toNat * 1024 + b.toNat * 16 + bnat ka * 8 + bnat kb * 4 + st.toNat)
  | .hmin2 d a b ka kb st =>
    some (0x5400000 + d.toNat * 65536 + a.toNat * 1024 + b.toNat * 16 + bnat ka * 8 + bnat kb * 4 + st.toNat)
  | .hmax2 d a b ka kb st =>
    some (0x5800000 + d.toNat * 65536 + a.toNat * 1024 + b.toNat * 16 + bnat ka * 8 + bnat kb * 4 + st.toNat)
  | .badd2 d a b ka kb st =>
    some (0x5c00000 + d.toNat * 65536 + a.toNat * 1024 + b.toNat * 16 + bnat ka * 8 + bnat kb * 4 + st.toNat)
  | .bmul2 d a b ka kb st =>
    some (0x6000000 + d.toNat * 65536 + a.toNat * 1024 + b.toNat * 16 + bnat ka * 8 + bnat kb * 4 + st.toNat)
  | .cvt d a code ka inf st =>
    some (0x6400000 + d.toNat * 65536 + a.toNat * 1024 + code.code * 16 + bnat ka * 8 + bnat inf * 4 + st.toNat)
  | .fexp2 d a ka st =>
    some (0x6800000 + d.toNat * 65536 + a.toNat * 1024 + bnat ka * 8 + st.toNat)
  | .flog2 d a ka st =>
    some (0x6c00000 + d.toNat * 65536 + a.toNat * 1024 + bnat ka * 8 + st.toNat)
  | .frcp d a ka st =>
    some (0x7000000 + d.toNat * 65536 + a.toNat * 1024 + bnat ka * 8 + st.toNat)
  | .frsq d a ka st =>
    some (0x7400000 + d.toNat * 65536 + a.toNat * 1024 + bnat ka * 8 + st.toNat)
  | .fsqrt d a ka st =>
    some (0x7800000 + d.toNat * 65536 + a.toNat * 1024 + bnat ka * 8 + st.toNat)
  | .fsinp d a ka st =>
    some (0x7c00000 + d.toNat * 65536 + a.toNat * 1024 + bnat ka * 8 + st.toNat)
  | .fcosp d a ka st =>
    some (0x8000000 + d.toNat * 65536 + a.toNat * 1024 + bnat ka * 8 + st.toNat)
  | .ftanh d a ka st =>
    some (0x8400000 + d.toNat * 65536 + a.toNat * 1024 + bnat ka * 8 + st.toNat)
  | .drcp d a ka st =>
    some (0x8800000 + d.toNat * 65536 + a.toNat * 1024 + bnat ka * 8 + st.toNat)
  | .drsq d a ka st =>
    some (0x8c00000 + d.toNat * 65536 + a.toNat * 1024 + bnat ka * 8 + st.toNat)
  | .fscl d a b ka kb st =>
    some (0x9000000 + d.toNat * 65536 + a.toNat * 1024 + b.toNat * 16 + bnat ka * 8 + bnat kb * 4 + st.toNat)
  | .dscl d a b ka kb st =>
    some (0x9400000 + d.toNat * 65536 + a.toNat * 1024 + b.toNat * 16 + bnat ka * 8 + bnat kb * 4 + st.toNat)
  | .ffrc d a ka st =>
    some (0x9800000 + d.toNat * 65536 + a.toNat * 1024 + bnat ka * 8 + st.toNat)
  | .ffma d a b c st =>
    some (0x10000000 + d.toNat * 1048576 + a.toNat * 16384 + b.toNat * 256 + c.toNat * 4 + st.toNat)
  | .dfma d a b c st =>
    some (0x14000000 + d.toNat * 1048576 + a.toNat * 16384 + b.toNat * 256 + c.toNat * 4 + st.toNat)
  | .hfma2 d a b c st =>
    some (0x18000000 + d.toNat * 1048576 + a.toNat * 16384 + b.toNat * 256 + c.toNat * 4 + st.toNat)
  | .imad d a b c st =>
    some (0x1c000000 + d.toNat * 1048576 + a.toNat * 16384 + b.toNat * 256 + c.toNat * 4 + st.toNat)
  | .ld8 d a off ka st =>
    some (0x20000000 + d.toNat * 131072 + a.toNat * 2048 + off.toNat * 8 + bnat ka * 4 + st.toNat)
  | .ld8s d a off ka st =>
    some (0x20800000 + d.toNat * 131072 + a.toNat * 2048 + off.toNat * 8 + bnat ka * 4 + st.toNat)
  | .ld16 d a off ka st =>
    some (0x21000000 + d.toNat * 131072 + a.toNat * 2048 + off.toNat * 8 + bnat ka * 4 + st.toNat)
  | .ld16s d a off ka st =>
    some (0x21800000 + d.toNat * 131072 + a.toNat * 2048 + off.toNat * 8 + bnat ka * 4 + st.toNat)
  | .ld32 d a off ka st =>
    some (0x22000000 + d.toNat * 131072 + a.toNat * 2048 + off.toNat * 8 + bnat ka * 4 + st.toNat)
  | .ld64 d a off ka st =>
    some (0x22800000 + d.toNat * 131072 + a.toNat * 2048 + off.toNat * 8 + bnat ka * 4 + st.toNat)
  | .ld128 d a off ka st =>
    some (0x23000000 + d.toNat * 131072 + a.toNat * 2048 + off.toNat * 8 + bnat ka * 4 + st.toNat)
  | .lda32 d a off ka st =>
    some (0x23800000 + d.toNat * 131072 + a.toNat * 2048 + off.toNat * 8 + bnat ka * 4 + st.toNat)
  | .lda64 d a off ka st =>
    some (0x24000000 + d.toNat * 131072 + a.toNat * 2048 + off.toNat * 8 + bnat ka * 4 + st.toNat)
  | .ld128a d a off ka st =>
    some (0x24800000 + d.toNat * 131072 + a.toNat * 2048 + off.toNat * 8 + bnat ka * 4 + st.toNat)
  | .st8 d a off ka st =>
    some (0x25000000 + d.toNat * 131072 + a.toNat * 2048 + off.toNat * 8 + bnat ka * 4 + st.toNat)
  | .st16 d a off ka st =>
    some (0x25800000 + d.toNat * 131072 + a.toNat * 2048 + off.toNat * 8 + bnat ka * 4 + st.toNat)
  | .st32 d a off ka st =>
    some (0x26000000 + d.toNat * 131072 + a.toNat * 2048 + off.toNat * 8 + bnat ka * 4 + st.toNat)
  | .st64 d a off ka st =>
    some (0x26800000 + d.toNat * 131072 + a.toNat * 2048 + off.toNat * 8 + bnat ka * 4 + st.toNat)
  | .st128 d a off ka st =>
    some (0x27000000 + d.toNat * 131072 + a.toNat * 2048 + off.toNat * 8 + bnat ka * 4 + st.toNat)
  | .stl32 d a off ka st =>
    some (0x27800000 + d.toNat * 131072 + a.toNat * 2048 + off.toNat * 8 + bnat ka * 4 + st.toNat)
  | .stl64 d a off ka st =>
    some (0x28000000 + d.toNat * 131072 + a.toNat * 2048 + off.toNat * 8 + bnat ka * 4 + st.toNat)
  | .st128a d a off ka st =>
    some (0x28800000 + d.toNat * 131072 + a.toNat * 2048 + off.toNat * 8 + bnat ka * 4 + st.toNat)
  | .ldc32 d a off ka st =>
    some (0x29000000 + d.toNat * 131072 + a.toNat * 2048 + off.toNat * 8 + bnat ka * 4 + st.toNat)
  | .ldc64 d a off ka st =>
    some (0x29800000 + d.toNat * 131072 + a.toNat * 2048 + off.toNat * 8 + bnat ka * 4 + st.toNat)
  | .pfx a off ka st =>
    some (0x2a000000 + a.toNat * 2048 + off.toNat * 8 + bnat ka * 4 + st.toNat)
  | .aadd d a b scope order =>
    some (0x30000000 + d.toNat * 65536 + a.toNat * 1024 + b.toNat * 16 + scope.code * 4 + order.code)
  | .aimin d a b scope order =>
    some (0x30400000 + d.toNat * 65536 + a.toNat * 1024 + b.toNat * 16 + scope.code * 4 + order.code)
  | .aimax d a b scope order =>
    some (0x30800000 + d.toNat * 65536 + a.toNat * 1024 + b.toNat * 16 + scope.code * 4 + order.code)
  | .anmin d a b scope order =>
    some (0x30c00000 + d.toNat * 65536 + a.toNat * 1024 + b.toNat * 16 + scope.code * 4 + order.code)
  | .anmax d a b scope order =>
    some (0x31000000 + d.toNat * 65536 + a.toNat * 1024 + b.toNat * 16 + scope.code * 4 + order.code)
  | .aand d a b scope order =>
    some (0x31400000 + d.toNat * 65536 + a.toNat * 1024 + b.toNat * 16 + scope.code * 4 + order.code)
  | .aor d a b scope order =>
    some (0x31800000 + d.toNat * 65536 + a.toNat * 1024 + b.toNat * 16 + scope.code * 4 + order.code)
  | .axor d a b scope order =>
    some (0x31c00000 + d.toNat * 65536 + a.toNat * 1024 + b.toNat * 16 + scope.code * 4 + order.code)
  | .axch d a b scope order =>
    some (0x32000000 + d.toNat * 65536 + a.toNat * 1024 + b.toNat * 16 + scope.code * 4 + order.code)
  | .acas d a b scope order =>
    some (0x32400000 + d.toNat * 65536 + a.toNat * 1024 + b.toNat * 16 + scope.code * 4 + order.code)
  | .afadd d a b scope order =>
    some (0x32800000 + d.toNat * 65536 + a.toNat * 1024 + b.toNat * 16 + scope.code * 4 + order.code)
  | .aaddw d a b scope order =>
    some (0x32c00000 + d.toNat * 65536 + a.toNat * 1024 + b.toNat * 16 + scope.code * 4 + order.code)
  | .axchw d a b scope order =>
    some (0x33000000 + d.toNat * 65536 + a.toNat * 1024 + b.toNat * 16 + scope.code * 4 + order.code)
  | .acasw d a b scope order =>
    some (0x33400000 + d.toNat * 65536 + a.toNat * 1024 + b.toNat * 16 + scope.code * 4 + order.code)
  | .qadd a b scope order =>
    some (0x34000000 + a.toNat * 1024 + b.toNat * 16 + scope.code * 4 + order.code)
  | .qimin a b scope order =>
    some (0x34400000 + a.toNat * 1024 + b.toNat * 16 + scope.code * 4 + order.code)
  | .qimax a b scope order =>
    some (0x34800000 + a.toNat * 1024 + b.toNat * 16 + scope.code * 4 + order.code)
  | .qand a b scope order =>
    some (0x34c00000 + a.toNat * 1024 + b.toNat * 16 + scope.code * 4 + order.code)
  | .qor a b scope order =>
    some (0x35000000 + a.toNat * 1024 + b.toNat * 16 + scope.code * 4 + order.code)
  | .qxor a b scope order =>
    some (0x35400000 + a.toNat * 1024 + b.toNat * 16 + scope.code * 4 + order.code)
  | .qfadd a b scope order =>
    some (0x35800000 + a.toNat * 1024 + b.toNat * 16 + scope.code * 4 + order.code)
  | .qbadd2 a b scope order =>
    some (0x35c00000 + a.toNat * 1024 + b.toNat * 16 + scope.code * 4 + order.code)
  | .waita d a b scope order =>
    some (0x36000000 + d.toNat * 65536 + a.toNat * 1024 + b.toNat * 16 + scope.code * 4 + order.code)
  | .mma tile zero a resv mask st =>
    some (0x40000000 + tile.toNat * 262144 + bnat zero * 131072 + a.toNat * 1024 + resv.toNat * 64 + mask.toNat * 8 + st.toNat)
  | .mmab tile zero a resv mask st =>
    some (0x40400000 + tile.toNat * 262144 + bnat zero * 131072 + a.toNat * 1024 + resv.toNat * 64 + mask.toNat * 8 + st.toNat)
  | .mcfg a st =>
    some (0x40800000 + a.toNat * 1024 + st.toNat)
  | .mzero tile k40 st =>
    some (0x40c00000 + tile.toNat * 262144 + bnat k40 * 4 + st.toNat)
  | .mread d a tile mode st =>
    some (0x41000000 + d.toNat * 65536 + a.toNat * 1024 + tile.toNat * 64 + mode.code * 4 + st.toNat)
  | .mwrite tile a b i32 st =>
    some (0x41400000 + tile.toNat * 262144 + a.toNat * 1024 + b.toNat * 16 + bnat i32 * 4 + st.toNat)
  | .mdrain tile a b add st =>
    some (0x41800000 + tile.toNat * 262144 + a.toNat * 1024 + b.toNat * 16 + bnat add * 4 + st.toNat)
  | .mwait tile all st =>
    some (0x41c00000 + tile.toNat * 262144 + bnat all * 4 + st.toNat)
  | .ofence st =>
    some (0x42000000 + st.toNat)
  | .obres resv a st =>
    some (0x42400000 + resv.toNat * 262144 + a.toNat * 1024 + st.toNat)
  | .obbind resv a st =>
    some (0x42800000 + resv.toNat * 262144 + a.toNat * 1024 + st.toNat)
  | .obrel resv st =>
    some (0x42c00000 + resv.toNat * 262144 + st.toNat)
  | .cpy a arv st =>
    some (0x43000000 + a.toNat * 1024 + bnat arv * 8 + st.toNat)
  | .cpys a arv st =>
    some (0x43400000 + a.toNat * 1024 + bnat arv * 8 + st.toNat)
  | .fetch a b arv st =>
    some (0x43800000 + a.toNat * 1024 + b.toNat * 16 + bnat arv * 8 + st.toNat)
  | .tbinit a b ring st =>
    some (0x43c00000 + a.toNat * 1024 + b.toNat * 16 + bnat ring * 4 + st.toNat)
  | .tbarr a b decl st =>
    some (0x44000000 + a.toNat * 1024 + b.toNat * 16 + bnat decl * 4 + st.toNat)
  | .tbwait a b par st =>
    some (0x44400000 + a.toNat * 1024 + b.toNat * 16 + bnat par * 4 + st.toNat)
  | .tbtest pd a b par st =>
    some (0x44800000 + pd.toNat * 65536 + a.toNat * 1024 + b.toNat * 16 + bnat par * 4 + st.toNat)
  | .sfmax tile a b st =>
    some (0x44c00000 + tile.toNat * 262144 + a.toNat * 1024 + b.toNat * 16 + st.toNat)
  | .sfmask mreg a b st =>
    some (0x45000000 + mreg.toNat * 65536 + a.toNat * 1024 + b.toNat * 16 + st.toNat)
  | .sfclr mreg a maskOnly st =>
    some (0x45400000 + mreg.toNat * 65536 + a.toNat * 1024 + bnat maskOnly * 4 + st.toNat)
  | .sftopk a st =>
    some (0x45800000 + a.toNat * 1024 + st.toNat)
  | .sfhist a st =>
    some (0x45c00000 + a.toNat * 1024 + st.toNat)
  | .sfscan a incl st =>
    some (0x46000000 + a.toNat * 1024 + bnat incl * 4 + st.toNat)
  | .sfperm a st =>
    some (0x46400000 + a.toNat * 1024 + st.toNat)
  | .sfwait st =>
    some (0x46800000 + st.toNat)
  | .redi d a mode st =>
    some (0x50000000 + d.toNat * 65536 + a.toNat * 1024 + mode.code * 4 + st.toNat)
  | .redn d a mode st =>
    some (0x50400000 + d.toNat * 65536 + a.toNat * 1024 + mode.code * 4 + st.toNat)
  | .redf d a mode st =>
    some (0x50800000 + d.toNat * 65536 + a.toNat * 1024 + mode.code * 4 + st.toNat)
  | .redd d a mode st =>
    some (0x50c00000 + d.toNat * 65536 + a.toNat * 1024 + mode.code * 4 + st.toNat)
  | .scani d a mode st =>
    some (0x51000000 + d.toNat * 65536 + a.toNat * 1024 + mode.code * 4 + st.toNat)
  | .scanf d a mode st =>
    some (0x51400000 + d.toNat * 65536 + a.toNat * 1024 + mode.code * 4 + st.toNat)
  | .bcast d a src st =>
    some (0x51800000 + d.toNat * 65536 + a.toNat * 1024 + src.bits + st.toNat)
  | .vote op ps st =>
    some (0x51c00000 + op.bits + ps.toNat * 1024 + st.toNat)
  | .isect d a b st =>
    some (0x52000000 + d.toNat * 65536 + a.toNat * 1024 + b.toNat * 16 + st.toNat)
  | .isectb d a b pk st =>
    some (0x52400000 + d.toNat * 65536 + a.toNat * 1024 + b.toNat * 16 + pk.toNat * 4 + st.toNat)
  | .fcmp pd a b mode st =>
    some (0x52800000 + pd.toNat * 65536 + a.toNat * 1024 + b.toNat * 16 + mode.code * 4 + st.toNat)
  | .dcmp pd a b mode st =>
    some (0x52c00000 + pd.toNat * 65536 + a.toNat * 1024 + b.toNat * 16 + mode.code * 4 + st.toNat)
  | .hcmp2 pd a b mode st =>
    some (0x53000000 + pd.toNat * 65536 + a.toNat * 1024 + b.toNat * 16 + mode.code * 4 + st.toNat)
  | .fclass d a mode st =>
    some (0x53400000 + d.toNat * 65536 + a.toNat * 1024 + mode.code * 4 + st.toNat)
  | .foldClose _ _ => none
  | .heldThreadPlacement _ _ => none
  | .convergenceDeadlock _ => none
  | .blockDispatch _ _ => none
  | .steal _ _ => none
  | .concurrentPlacement _ _ => none
  | .blockEnd _ => none
  | .postmark _ => none
  | .storeToCorePoint _ => none
  | .storeToDiePoint _ _ => none
  | .storeToHome _ _ => none
  | .quietReductionPerform _ _ => none
  | .atomicPerform _ => none
  | .loadCacheDrop _ _ _ => none
  | .sharedLoadRead _ => none
  | .capacityCommit _ => none
  | .copySourceRead _ _ _ _ _ => none
  | .sectorPerformed _ _ _ => none
  | .parkResume _ => none
  | .matrixPerform _ _ => none
  | .addOnStorePerform _ => none
  | .reservationFill _ _ => none
  | .siftPerform _ _ => none
  | .waitaWake _ => none
  | .waitaEnd _ => none
  | .replicaCompare _ _ => none
  | .replicaTimeout _ _ => none
  | .forwardedValue _ => none
  | .trapEntry _ => none
  | .replay _ _ => none
  | .pageScan _ _ => none
  | .fetchFaultSwap _ => none
  | .swapRestore _ _ => none
  | .queuePost _ _ => none
  | .registerWrite _ _ => none
  | .programCommand _ => none
  | .crossQueueFence _ => none
  | .crossQueueFenceDone _ => none
  | .tlbInvalidate _ _ => none
  | .invalidationComplete _ => none
  | .preEmpt _ => none
  | .launchResume _ => none
  | .kill _ => none
  | .blockSave _ => none
  | .quiesceTokenReturn _ => none
  | .storageError _ _ _ => none
  | .correctableError _ => none
  | .fabricRequest _ _ _ => none
  | .errorCompletion _ => none
  | .managementWrite _ _ _ => none
  | .partitionReset _ => none
  | .powerOnReset => none
  | .selfTestComplete _ _ => none
  | .clockLowering _ => none
  | .haltWake _ => none
  | .report => none
  | .snapshotLatch _ _ _ => none
  | .postcard _ => none
  | .faultRecordWrite _ => none
  | .queueEnable _ _ => none
  | .fabricCompletion _ _ => none

/-- The words of an instruction: one word, or none for an event. -/
def encode (i : Instr) : List W32 :=
  match encodeNat i with
  | some n => [BitVec.ofNat 32 n]
  | none => []

/-- The instruction the decoder reads from the word whose bits are `w`, numbered as the opcode table numbers them;
every word of the MX9 is 32 bits, stored little-endian (R4), so bits above 32 are no part of it. -/
def decodeTableWord (nbits w : Nat) : Option Instr :=
  if nbits ≤ 32 then
    match decode (BitVec.ofNat 32 w) with
    | .ok i => some i
    | .error _ => none
  else none

end Sys2Proof
end

