-- ==== Sys2Proof/Config.lean ====
section
/-! DEFINITION. What the NMX-9448 fixes (R1, R2, R89, R107, R375) and the free values: opaque constants without a
body stand for every value the manual leaves open, so no proof can rest on one. -/

namespace Sys2Proof.Config

/-- A fresh undefined value (R8) for each number of the counter `State.free` (log 3, DESIGN CHOICE). -/
opaque freeWord : Nat → W64

/-- The die that homes a far-memory line: "a slice chosen by hash" (R89, R112), which the manual does not give (log 16, DESIGN CHOICE). -/
opaque farHomeDie : Nat → Nat

/-- A byte of the on-chip map where the manual gives no layout (R107), by address and what the core's register files
hold, of block state also by the tick (log 15, DEDUCED). -/
opaque chipByte : Nat → List Nat → Byte

/-- A byte that the device itself reads where nothing in the package answers: in the host's or a peer's memory (R375), or
at an address its partition does not hold (R305); by address and tick (log 84, DESIGN CHOICE). -/
opaque farByte : Nat → Nat → Byte

/-- How a snapshot writes its unit and instance in bits [95:64] (R370). -/
opaque snapshotName : Nat → Nat → BitVec 32

/-- Which of its partition's dies an instance of a unit lies on (R370), by unit and instance (log 61, DESIGN CHOICE). -/
opaque unitDie : Nat → Nat → Nat

/-- The rest of a unit's snapshot (R370), by unit, instance and counter. -/
opaque snapshotRest : Nat → Nat → Nat → BitVec 416

/-- Dies of the package (R1). -/
def dies : Nat := 4

/-- Compute cores of a die (R1, R2). -/
def coresPerDie : Nat := 48

/-- Compute cores of the package; control core c bears number 192 + c (R302). -/
def cores : Nat := 192

/-- Control cores (R1). -/
def controlCores : Nat := 8

/-- Host-visible work queues (R1, R310). -/
def queues : Nat := 2048

/-- Scratchpad bytes of a core (R1, R314). -/
def scratchpadBytes : Nat := 1572864

/-- Resident blocks of a core (R1). -/
def blocksPerCore : Nat := 8

/-- Tiles of a partition (R1). -/
def tilesPerPartition : Nat := 16

/-- Operand-buffer units of a partition (R314). -/
def obufUnits : Nat := 1024

/-- Span slots of a partition (R1). -/
def spanSlots : Nat := 32

/-- Lane registers of a partition's resident sheaves (R1): 24 sheaves at 64 full registers; a released or form-held register
takes no room (log 83, DEDUCED). -/
def sheafRegs : Nat := 24 * 64

/-- Function-table versions this part holds (R83, R302). -/
def ftvHeld (v : Nat) : Bool := v == 1 || v == 2

/-- Precision in bits of the fixed-point work behind the transcendental words (log 19, DEDUCED). -/
def tableBits : Nat := 640

end Sys2Proof.Config
end

