-- ==== Sys2Proof/Machine/State.lean ====
section
/-! DEFINITION. The state of the MX9 as plain data: what every span, sheaf, block, launch, core, die, partition and
the package hold, and the machine after power-on reset. -/

namespace Sys2Proof.Machine

/-- Bytes by address, in one canonical form: addresses strictly rising, no entry equal to the byte an unlisted
address reads as (see Memory.wf). -/
abbrev Memory := List Host.Cell

/-- Why the machine stops. -/
inductive Fault where
  /-- Raised by a word whose acting group does not exist: no run from reset reaches such a state. Safe. -/
  | noActor
deriving DecidableEq, Repr

/-- Why a step has no meaning. -/
inductive Refusal where
  /-- Raised by an arm of exec that has no meaning yet. Safe. -/
  | notModelled (mnemonic : String)
deriving DecidableEq, Repr

/-! ### Registers and predicates of a thread group -/

/-- How a register is held (R32): a 32-bit form, the even half of a 64-bit pair form, the odd half of one, or one
value per lane with the mark "last written as a pair" (R39). -/
inductive RegKind where
  | f32 (base stride : W32)
  | f64 (base : W64) (stride : W32)
  | f64hi
  | e (wide : Bool) (vals : List W32)
deriving DecidableEq, Repr

/-- A register with its release marks: bit L for lane L of a sheaf, any bit for a span (R55, R56). -/
structure RegCell where
  kind : RegKind
  rel : W32
deriving DecidableEq, Repr

/-- A predicate of a span over [lo, hi) (R24). -/
inductive Cut where
  | allFalse | allTrue
  | below (k : Nat)
  | atOrAbove (k : Nat)
deriving DecidableEq, Repr

/-- A predicate: a cut in a span, one bit per lane in a sheaf (R48). -/
inductive PredKind where
  | cut (c : Cut)
  | bits (b : W32)
deriving DecidableEq, Repr

/-- A predicate with its release marks (R37, R48, R56). -/
structure PredCell where
  kind : PredKind
  rel : W32
deriving DecidableEq, Repr

/-- A fixed-latency result not yet written: the register or predicate and the cycles left (R57, R59); `stale`: a later word
has written it, so that only the condition on writes still counts; `of`: in a span, the ranges of indices whose result it is
(none listed: all of them). -/
structure Flight where
  isPred : Bool
  num : Nat
  left : Nat
  stale : Bool
  of : List (Nat × Nat)
deriving DecidableEq, Repr

/-- What each lane thread owns (R34, R50, R59); a span has one, under lane 0. -/
structure LaneSt where
  lane : Nat
  stack : List W64
  fpctl : BitVec 3
  flight : List Flight
deriving DecidableEq, Repr

/-! ### Thread groups -/

/-- A trap a group has raised: cause and operand (R337), members that failed, the resume address (R338), the trapping
word's address, and when it was raised (R340). -/
structure TrapReq where
  cause : Nat
  tdata : W64
  count : Nat
  tpc : W64
  word : W64
  pos : Nat
deriving DecidableEq, Repr

/-- Where a byte of a kernel address lies: physical memory, the block's scratchpad, or an index's private window
(R86). -/
inductive Loc where
  | pa (a : Nat)
  | spad (off : Nat)
  | priv (idx off : Nat)
deriving DecidableEq, Repr

/-- One member of a sleeping WAITA (R134, R224): its index, lane, address, last value read, and whether it is done. -/
structure WaitM where
  idx : Nat
  lane : Nat
  va : W64
  loc : Loc
  last : W32
  fin : Bool
deriving DecidableEq, Repr

/-- What a group of threads is doing. -/
inductive Stat where
  | ready
  /-- at a fold segment, its innermost open node not closed (R38) -/
  | fold
  /-- at BAR n, for generation g (R187) -/
  | bar (n g : Nat)
  /-- at TBWAIT (R261) -/
  | tbwait
  /-- on absent scratchpad sectors (R92) -/
  | parked
  /-- at a word whose translation failed, with the fault's kind (R331) -/
  | dataFault (kind : Nat)
  /-- on a fetch fault (R321) -/
  | fetchFault
  /-- on room in the fault queue (R298) -/
  | ringWait
  /-- at a trapping word, its trap context busy (R303) -/
  | trapHeld (t : TrapReq)
  /-- a handler runs for it (R336) -/
  | inTrap (tid : Nat)
  /-- halted for the debugger (R363) -/
  | halted
  /-- asleep in WAITA, writing d (R134) -/
  | waita (d : RegN) (cmp : List W32) (ms : List WaitM)
  /-- a deterministic shared load waits for lower blocks (R137) -/
  | sharedWait
  /-- a replica waits for the primary's value (R140) -/
  | fwdWait
  /-- a load over the fabric waits for its answer (R376) -/
  | fabricWait
  /-- at a FENCE whose acquire part follows its release step (R123) -/
  | fence
deriving DecidableEq, Repr

/-- Kinds of split node (R36). -/
inductive NodeKind where | cut | expansion | lanes
deriving DecidableEq, Repr

/-- An open split node on a thread's path and the child taken there (R35, R36). -/
structure PathStep where
  node : Nat
  kind : NodeKind
  child : Nat
deriving DecidableEq, Repr

/-- An issue set of a sheaf, or the whole of a span (R35): its split path (innermost first), lanes,
PC, words left in the run, segment and its words as fetched, and what it is doing. -/
structure ISet where
  path : List PathStep
  lanes : W32
  pc : W64
  left : Nat
  seg : W64
  /-- the terminator that named the segment being entered (R160) -/
  via : W64
  code : List W32
  stat : Stat
  /-- a .halt takes effect at the next run boundary (R363) -/
  haltReq : Bool
  /-- the .halt operations in force that name it (R362, R373) -/
  haltBy : List Nat
  /-- a .step is running (R364) -/
  stepping : Bool
  /-- the .step operations that run it (R364, R373) -/
  stepBy : List Nat
  /-- a split happened during the step (FLAGS[0] of R361) -/
  stepSplit : Bool
  /-- its halt at this segment's comparator has been taken (R365) -/
  bpTaken : Bool
  /-- the DBG .halt at which it stands has been asked for (R363); of a kernel group: a .step has readied it at a run
  boundary and its run has not begun (R364) -/
  asked : Bool
  /-- the number of the .halt that the DBG word at which it stands has asked for -/
  token : Nat
  /-- an LD128 is read in halves (R109, R216): none, or the low halves by position read so far -/
  half : Option (List (Nat × W64))
  /-- it has had its run in its partition's present round (R42) -/
  ran : Bool
  /-- its last turn found it waiting at its word, inside a run (R28, R42) -/
  idle : Bool
deriving DecidableEq, Repr

/-- A context descriptor as the device copies it (R295, R297). -/
structure Ctx where
  desc : Nat
  ctxid : BitVec 16
  ftv : Nat
  part : Nat
  fpctlDef : BitVec 3
  check : Bool
  mbox : Nat
  postBase : Nat
  prlog : Nat
  fqBase : Nat
  fqlog : Nat
  trapv : W64
  ptroot : Nat
deriving DecidableEq, Repr

/-- Whose access it is, as it was made: the word, its segment, whether its threads were a sheaf's (R333), and, of a control core,
the context then in force (R296). -/
structure Origin where
  word : W64
  seg : W64
  lanes : Bool
  ctx : Option Ctx
deriving DecidableEq, Repr

/-- Kinds of store-queue entry (R112, R114): a store, a release store at device scope (R120), a quiet reduction (LA
opcode, with its scope when it is a release), an add-on-store (from a K40 or W40 tile, of that number); and
what a thread's stores are ordered behind: a release fence (R123, its engine kind apart), a BARA's arrival (R124,
R187), a TBARR's update (R124, R260). -/
inductive SqKind where
  | store
  | relStore
  | red (op : Nat) (rel : Option Scope)
  | addon (k40 : Bool) (tile : Nat)
  | fence (scope : Scope) (engine : Bool)
  | bara (n : Nat)
  | tbarr (off darr : Nat) (dsec : Int)
deriving DecidableEq, Repr

/-- One thread's element of a store-queue entry; `mig`: the leaf that translated it has M = 1 (R335); `rel`: once it has left the
queue, the stamp of the release it carries (R136; 0: none). -/
structure SqElem where
  idx : Nat
  va : W64
  loc : Loc
  bytes : List Byte
  mig : Bool
  rel : Nat
deriving DecidableEq, Repr

/-- A store-queue entry; `pos` is its place in program order (R136); of an add-on-store, `is` are the threads that issued it and
`seen` the watchpoints it has been reported for (R365). -/
structure SqEntry where
  kind : SqKind
  elems : List SqElem
  pos : Nat
  src : Origin
  is : List Nat
  seen : List Nat
deriving DecidableEq, Repr

/-- The word that made an entry. -/
def SqEntry.word (q : SqEntry) : W64 := q.src.word

/-- A span over [lo, hi), or the sheaf of window lo / 32 (R19, R29), with its store queue (R112). -/
structure Grp where
  gid : Nat
  span : Bool
  lo : Nat
  hi : Nat
  regs : List RegCell
  preds : List PredCell
  units : List ISet
  lanes : List LaneSt
  stq : List SqEntry
  /-- held in the slow register file for want of a slot (R28) -/
  held : Bool
deriving DecidableEq, Repr

/-! ### Partition registers and engines of a block -/

/-- An accumulator tile (R52): its tag (none: undefined, some true: K40), saturation flag, what an unlisted element
is (some n: the undefined values numbered from n, none: zero) and its elements. -/
structure Tile where
  tag : Option Bool
  sat : Bool
  undef : Option Nat
  elems : List (Nat × W40)
deriving DecidableEq, Repr

/-- How a thread observes the completion of an engine write (R133): the phase of a transaction barrier a copy reports
to, MWAIT on a drain's tile, or in no way (a copy without a barrier). -/
inductive Await where
  | phase (off p : Nat)
  | tile (t : Nat)
  | never
deriving DecidableEq, Repr

/-- A live reservation: its record (R99), whether its range has been filled, how the completion of the copy that filled it
is observed, and the threads that have observed it, by index (R133, R246). -/
structure Resv where
  record : BitVec 256
  filled : Bool
  await : Option Await
  seen : List Nat
deriving DecidableEq, Repr

/-- What a block holds in one partition of its core (R31, R52, R241). -/
structure Part where
  tiles : List Tile
  masks : List W64
  resv : List (Option Resv)
  mcfg : W32
  obuf : Memory
deriving DecidableEq, Repr

/-- Where an engine reads or writes a byte. -/
inductive CLoc where
  | glob (va : W64)
  | spad (off : Nat)
  | obuf (off : Nat)
  | peer (block off : Nat)
deriving DecidableEq, Repr

/-- What a copied byte is made of: zeros; bits of a source byte; bits of the eight that begin at bit sh of a source byte;
for a bitmap-compressed row q (R104), byte b of element e, byte k of the bitmap made from n scratchpad elements that begin
with element c0, or byte b of the row's r-th non-zero element. -/
inductive CSrc where
  | zero
  | byte (l : CLoc) (mask : Byte)
  | cross (l : CLoc) (sh : Nat) (mask : Byte)
  | expand (q : Nat) (bmap dense : W64) (e esz b : Nat)
  | bmapOf (q row n fmt c0 k : Nat)
  | ranked (q : Nat) (bmap : W64) (row n fmt c0 r b : Nat)
deriving DecidableEq, Repr

/-- One byte an engine moves; `val` is none until its source is read, then the byte or nothing to write; `from'` are the
virtual addresses a fill has read it from (R365). -/
structure CMove where
  dst : CLoc
  dmask : Byte
  src : CSrc
  val : Option (Option Byte)
  from' : List Nat
deriving DecidableEq, Repr

/-- A destination sector of a copy: its moves (the physical bytes they go to are found when it is performed), and the
compressed rows in whose footprint it lies (R257). -/
structure CSec where
  key : CLoc
  moves : List CMove
  fin : Bool
  rows : List Nat
deriving DecidableEq, Repr

/-- A SIFT word with its operands as read at issue (R262 to R267). -/
inductive SiftOp where
  | max (tile tab : Nat) (ctl : W32)
  | mask (m tab : Nat) (g : W32)
  | clr (m tab : Nat) (maskOnly : Bool)
  | topk (desc : BitVec 256)
  | hist (desc : BitVec 256)
  | scan (desc : BitVec 256) (incl : Bool)
  | perm (desc : BitVec 256)
deriving DecidableEq, Repr

/-- An issued matrix word (R245): rows are lane and A-row offset; its reservation's record and the configuration as
captured, and the index register; mask 8 stands for a mask register that a SIFT word has disturbed (R130). -/
structure MatReq where
  diag : Bool
  tile : Nat
  resv : Nat
  record : BitVec 256
  mask : Nat
  zero : Bool
  slice : Nat
  rows : List (Nat × Nat)
  cfg : W32
  reg : Nat
deriving DecidableEq, Repr

/-- What an engine request does. -/
inductive EKind where
  /-- CPY, CPYS, FETCH: barrier offset, the peer block (R105), the fetch unit, the reservation it fills -/
  | copy (tbar : Option Nat) (peer : Option Nat) (fetchUnit : Bool) (toob : Option Nat) (secs : List CSec)
  /-- the fill of reservation o (R253) -/
  | fill (o : Nat) (secs : List CSec)
  /-- one member's row of a plain MDRAIN (R250) -/
  | drain (tile idx : Nat) (secs : List CSec)
  | matrix (m : MatReq)
  | sift (op : SiftOp)
deriving DecidableEq, Repr

/-- An engine request between issue and completion (R112); `issuers` are the indices it counts as issued by and that
have not waited for it (R130, R131), `lanesForm` whether they were a sheaf's members (R333), `ord` its number among its
lowest issuer's copies (R258), `ins` and `outs` the scratchpad ranges it reads and leaves undefined if disturbed (R130,
R131), `undef` that they have been, `fault` a data fault it waits on, `seen` the watchpoints it has been reported for
(R365). -/
structure EReq where
  rid : Nat
  part : Nat
  issuers : List Nat
  lanesForm : Bool
  word : W64
  seg : W64
  pos : Nat
  ord : Nat
  kind : EKind
  ins : List (Nat × Nat)
  outs : List (Nat × Nat)
  undef : Bool
  fault : Option Nat
  seen : List Nat
  /-- performed, kept until its issuers have waited for it -/
  fin : Bool
deriving DecidableEq, Repr

/-- What a copy of the primary has read of shared lines, for its other replicas (R258): the copy's lowest issuer and number,
the sector, the byte's place there, and the byte, or nothing to write. -/
structure EFwd where
  idx : Nat
  ord : Nat
  sec : Nat
  at' : Nat
  val : Option Byte
deriving DecidableEq, Repr

/-! ### Blocks -/

/-- A block barrier (R187): generations released, and per index how many it has arrived at. -/
structure Bar where
  released : Nat
  arrived : List (Nat × Nat)
deriving DecidableEq, Repr

/-- Kinds of satchel entry (R349): a store, bytes of a copy write or plain drain, a quiet reduction, an element of an
add-on-store, an atomic's completion record. -/
inductive SKind where
  | store | copyw
  /-- bits of one byte, of an element beside a dropped one (R103) -/
  | part (mask : Byte)
  | red (op : Nat)
  | addon (k40 : Bool)
  | done
deriving DecidableEq, Repr

/-- A staged entry (R136): the index that places it in merge order, program position, bytes at an address (virtual and
physical), the stamp of the release that published it, the stamp of the release that a reader of it acquires (0: none); the
threads it counts as made by (R238), and, of an engine write, how they observe it and which of them have (R133). -/
structure SEntry where
  idx : Nat
  issuers : List Nat
  pos : Nat
  kind : SKind
  va : W64
  pa : Nat
  bytes : List Byte
  pub : Option Nat
  /-- satchel bytes it occupies (R349) -/
  cost : Nat
  rel : Nat
  await : Option Await
  seenBy : List Nat
  mig : Bool
  src : Origin
deriving DecidableEq, Repr

/-- Kinds of commit, as in Signature (R351). -/
inductive CKind where | release | atomic | capacity | blockEnd
deriving DecidableEq, Repr

/-- A commit of a replica waiting to be compared (R139, R354): the threads that make it (R357), and the atomic's record
if it makes the commit. -/
structure Commit where
  kind : CKind
  entries : List SEntry
  sig : W64
  who : Option Who
  is : List Nat
  src : Origin
  aid : Option Nat
deriving DecidableEq, Repr

/-- What stalled a block on a full satchel (R138, R350): a store queue's head, or a sector of an engine request. -/
inductive FullBy where
  | queue (w : Who)
  | sector (rid sec : Nat)
deriving DecidableEq, Repr

/-- Where a block is. -/
inductive BSt where
  | running
  /-- saved in a swap slot: for a fetch fault of a page, or pre-empted (R321, R343) -/
  | swapped (slot : Nat) (page : W64)
  | preempted (slot : Nat)
  /-- ended; kept until its launch ends for its commits and replicas -/
  | ended
deriving DecidableEq, Repr

/-- A value the primary forwards (R140): the thread, which of its forwarded words, and the value; and the release that the
thread has acquired with it, as a thread and which of its releases (R136). -/
structure Fwd where
  idx : Nat
  ord : Nat
  val : W64
  hi : W64
  rel : Option (Nat × Nat)
deriving DecidableEq, Repr

/-- A report of a group that a DBG operation has stopped, kept until the operation's last group has stopped (R373): the
operations, the group's lowest index, the group, and the report. -/
structure Owed where
  by' : List Nat
  idx : Nat
  who : Who
  data : Nat
deriving DecidableEq, Repr

/-- A block, or one replica of it. -/
structure Block where
  bid : Nat
  lid : Nat
  num : Nat
  rank : Nat
  core : Nat
  st : BSt
  /-- where its grants start in the core's scratchpad, tiles and operand buffers (R107) -/
  spadBase : Nat
  tileBase : Nat
  obufBase : Nat
  groups : List Grp
  spad : Memory
  /-- scratchpad sectors whose check value disagrees with their bytes, and the difference (R110) -/
  sums : List (Nat × BitVec 16)
  absent : List (Nat × Nat)
  priv : List (Nat × Memory)
  /-- the same of a thread's private sectors: its index, the sector, the difference (R110) -/
  psums : List ((Nat × Nat) × BitVec 16)
  bars : List Bar
  /-- live transaction barriers by offset, with the phases completed since TBINIT (R96, R259) -/
  tbs : List (Nat × Nat)
  parts : List Part
  eng : List EReq
  satchel : List SEntry
  /-- publication stamps: the next one, per index the one acquired; per block barrier and generation, per transaction
  barrier and phase, and per byte the one released -/
  stamp : Nat
  acquired : List (Nat × Nat)
  barStamp : List (Nat × Nat)
  tbStamp : List (Nat × Nat × Nat)
  locStamp : List (Loc × Nat)
  /-- the releases that have published, in order: the thread of each (R136) -/
  pubs : List Nat
  /-- per index the stamp of its last release, and the stamp its plain loads have read up to -/
  released : List (Nat × Nat)
  readStamp : List (Nat × Nat)
  /-- the entry that did not fit (R138, R350): it waits, and the block stalls -/
  full : Option FullBy
  ordinal : Nat
  commit : Option Commit
  /-- its last commit is applied: it ends once all that sent over the fabric is acknowledged (R14) -/
  closed : Bool
  fwdOut : List Fwd
  fwdTaken : List (Nat × Nat)
  /-- copies made per index, and what the primary's copies have read of shared lines (R258) -/
  copies : List (Nat × Nat)
  engOut : List EFwd
  pathv : List (Nat × W64)
  lastExit : W64
  /-- it is to be saved: its groups stop at run boundaries (R321, R343) -/
  saving : Bool
  /-- names the values in the areas of its swap slot that are not architectural (R344) -/
  slotNonce : Nat
  /-- the bytes of its swap slot as the device has written them (R344) -/
  slotImg : List Byte
  owed : List Owed
  traceUsed : Nat
  traceFull : Bool
deriving DecidableEq, Repr

/-! ### Contexts and launches -/

/-- Execution modes (R314). -/
inductive Mode where | normal | deterministic | dual | triple
deriving DecidableEq, Repr

/-- The life of a launch. -/
inductive LSt where
  | running
  | preempting | preempted
  /-- being killed: by its fault policy (true) or through R341 -/
  | killing (byPolicy : Bool)
  | done
deriving DecidableEq, Repr

/-- A trace arm taken by a launch (R368). -/
structure Trace where
  bmap : Nat
  tbuf : Nat
  tlen : Nat
deriving DecidableEq, Repr

/-- An accepted launch (R193, R297, R308, R314). -/
structure Launch where
  lid : Nat
  cc : Nat
  sitePc : W64
  lseq : Nat
  record : BitVec 1024
  ctx : Ctx
  ftv : Nat
  prio : Nat
  mode : Mode
  fpol : Nat
  fdom : BitVec 16
  satchel : Nat
  path : List Nat
  ownt : List (BitVec 256)
  nextBlk : Nat
  /-- block numbers to start again (R346, R355) -/
  again : List Nat
  /-- block numbers that have ended -/
  endedBlks : List Nat
  /-- (block number, relaunches after storage errors, retries after mismatches) -/
  retries : List (Nat × Nat × Nat)
  /-- (block number, commit ordinal, signature) of applied commits (R358) -/
  sigs : List (Nat × Nat × W64)
  status : Nat
  ovf : Bool
  capc : Bool
  vote : Bool
  mism : Bool
  st : LSt
  trace : Option Trace
  /-- (handle, entry) pairs the launch has read, which a core may still hold (R106) -/
  held : List (Nat × BitVec 512)
deriving DecidableEq, Repr

/-! ### Cores, dies, control cores -/

/-- A store beyond its queue (R112): the thread that made it (its block and index; 0 and c for control core c), where
it goes, its bytes, and the threads, by block and index, that have read from it (R113). -/
structure PtStore where
  bid : Nat
  idx : Nat
  pa : Nat
  va : W64
  bytes : List Byte
  src : Origin
  readBy : List (Nat × Nat)
deriving DecidableEq, Repr

/-- A cached line of 64 bytes (R116): its line number and bytes as filled, and those of its sectors whose check value,
which travels with them, disagrees with their bytes (R110). -/
structure Line where
  num : Nat
  bytes : List Byte
  sums : List (Nat × BitVec 16)
deriving DecidableEq, Repr

/-- A core, compute or control (R112): its ordering point, caches, and run queue of (launch, block) (R318). -/
structure Core where
  num : Nat
  point : List PtStore
  lcache : List Line
  fcache : List Line
  runq : List (Nat × Nat)
deriving DecidableEq, Repr

/-- A frame's scan result (R158, R159): segment starts found, and the rejection if any. -/
structure Scan where
  frame : Nat
  starts : List Nat
  bad : Option (Nat × Nat)
deriving DecidableEq, Repr

/-- Segment words an instruction cache may hold (R195, R320). -/
structure ILine where
  pa : Nat
  words : List W32
deriving DecidableEq, Repr

/-- Atomic access counters of a frame, one per issuing die (R335). -/
structure Mig where
  frame : Nat
  counts : List Nat
deriving DecidableEq, Repr

/-- A die (R3, R112, R319, R335, R111, R381). -/
structure Die where
  num : Nat
  point : List PtStore
  cyc : W64
  scan : List Scan
  icache : List ILine
  mig : List Mig
  corrected : Nat
  lowered : Nat
deriving DecidableEq, Repr

/-- How the threads of a handler's group end (R339). -/
inductive HandEnd where
  | resume | exit | halt
deriving DecidableEq, Repr

/-- A trap context in use (R303, R336): whose group it serves, its own groups (banks t0-t15 as their registers) and
cause registers. -/
structure TrapCtx where
  tid : Nat
  core : Nat
  part : Nat
  bid : Nat
  gid : Nat
  lane : Nat
  cause : Nat
  tdata : W64
  tidx : Nat
  tpc : W64
  entryTpc : W64
  word : W64
  groups : List Grp
  /-- the handler's threads that have ended, by index, and how (R339) -/
  ended : List (HandEnd × List Nat)
deriving DecidableEq, Repr

/-- A command a control core serves (R313): its queue and record. -/
structure Cmd where
  queue : Nat
  seq : W32
  fence : Option (Nat × W32)
deriving DecidableEq, Repr

/-- A control core (R192, R296, R310, R313). -/
structure CCore where
  num : Nat
  grp : Grp
  ctx : Option Ctx
  lseq : Nat
  cmd : Option Cmd
  lastQ : Nat
  halted : Bool
  trap : Option TrapCtx
deriving DecidableEq, Repr

/-! ### Registers of the package -/

/-- A queue's register block (R310), and the posted records the device has read (R311). -/
structure QReg where
  num : Nat
  qbase : W64
  post : W32
  done : W32
  qerr : BitVec 4
  qlog : BitVec 4
  enable : Bool
  recs : List (BitVec 512)
deriving DecidableEq, Repr

/-- A partition's translation register block (R330) and its invalidations in progress. -/
structure XReg where
  rplCtx : BitVec 16
  tlbiDone : W64
  tlbi : W64
  pend : List W64
deriving DecidableEq, Repr

/-- A partition's launch control block (R341) and its operations in progress (op, site, sequence). -/
structure LCtl where
  sitePc : W64
  seq : W64
  done : W32
  stat : BitVec 4
  op : BitVec 2
  pend : List (Nat × W64 × W64)
deriving DecidableEq, Repr

/-- A die's management block (R379), without PARTCFG. -/
structure Mgmt where
  sealkey : BitVec 128
  satbase : W64
  satsize : BitVec 16
  fid : BitVec 10
deriving DecidableEq, Repr

/-- The bring-up status (R382). -/
structure BringUp where
  stfail : BitVec 16
  dieok : BitVec 4
  hold : Bool
  ready : BitVec 8
deriving DecidableEq, Repr

/-- A watchpoint (R365): the context's descriptor, range and enabled kinds. -/
structure Watch where
  ctx : Nat
  addr : W64
  len : Nat
  kinds : BitVec 3
deriving DecidableEq, Repr

/-- A latched snapshot (R370). -/
structure Snap where
  unit : Nat
  inst : Nat
  data : BitVec 512
deriving DecidableEq, Repr

/-- A partition's debug units (R365, R370): comparators by context and segment, watchpoints, the cross-trigger. -/
structure Dbg where
  cmps : List (Option (Nat × W64))
  wps : List (Option Watch)
  fired : Bool
  snaps : List Snap
deriving DecidableEq, Repr

/-- How a block ends on a fault (R342, R346, R355): as its launch's fault policy says, started again after a storage error,
or started again after a mismatch. -/
inductive Ending where
  | policy | relaunch | retry
deriving DecidableEq, Repr

/-- A record waiting for room in its ring (R298, R360), with the group it holds, and the block that ends, and how, once it
is written. -/
structure PendRec where
  ctx : Ctx
  isReport : Bool
  data : BitVec 512
  who : Option Who
  ends : Option (Nat × Ending)
deriving DecidableEq, Repr

/-- An atomic issued and not yet performed (R122): its thread (and whether it is a handler's word), its place in the
thread's program, address, operands and destination. -/
structure PAtomic where
  aid : Nat
  bid : Nat
  idx : Nat
  hand : Bool
  pos : Nat
  op : Nat
  va : W64
  loc : Loc
  b : W64
  cmp : W64
  d : Nat
  scope : Scope
  order : Order
  src : Origin
  /-- the leaf that translated it has M = 1 (R335) -/
  mig : Bool
deriving DecidableEq, Repr

/-- The word of an atomic. -/
def PAtomic.word (a : PAtomic) : W64 := a.src.word

/-- A quiet reduction or add-on-store at its home's request queue (R114): the elements not yet performed. -/
structure HomeReq where
  hid : Nat
  bid : Nat
  core : Nat
  entry : SqEntry
deriving DecidableEq, Repr

/-- An access over the fabric (R120, R376): a write with its bytes awaiting its acknowledgement, or a read awaiting
its bytes (none yet: `answered` false); the word of a reading thread then takes them. `op` is what the target is asked to do
with the bytes beside storing them: an LA opcode with its comparand, or 64 and 65, an add-on of a W40 and a K40 element; 66 and 67 mark a
fetch of code and a read of a handle's entry. -/
structure FabOp where
  fid : Nat
  bid : Nat
  idx : Nat
  pa : Nat
  va : W64
  write : Bool
  bytes : List Byte
  len : Nat
  answered : Bool
  op : Option (Nat × W64)
  src : Origin
deriving DecidableEq, Repr

/-- An answer the device has sent to a fabric request (R376): none is an error completion. -/
structure FabAns where
  fid : Nat
  off : Nat
  data : Option (List Byte)
deriving DecidableEq, Repr

/-- An entry a TLB or walker cache may hold (R329): context, level (5: sub-table), the address field it was indexed
by, its value. -/
structure TlbE where
  ctx : BitVec 16
  part : Nat
  level : Nat
  va : Nat
  entry : W64
deriving DecidableEq, Repr

/-- A request that may be sampled (R369): what its card says, and what it is, by block, program position, place and bytes. -/
structure CardReq where
  bid : Nat
  pos : Nat
  loc : Loc
  n : Nat
  ctx : Ctx
  sitePc : W64
  lseq : Nat
  word : W64
  addr : W64
  acc : Nat
  die : Nat
  idx : Nat
  /-- names the values that the manual leaves open in it -/
  nonce : Nat
deriving DecidableEq, Repr

/-- A record on its way into a ring (R298, R378): the ring by its PROD word, the record, the slot's number and PROD's bytes to come;
PROD has been written; and the device's writes over the fabric, by number, that it waits for. -/
structure RingW where
  part : Nat
  prod : Nat
  data : Nat
  next : List Byte
  made : Bool
  lo : Nat
  hi : Nat
deriving DecidableEq, Repr

/-- Who or what moves next (log 1, DESIGN CHOICE): an agent issues its next word, or an event takes place. -/
inductive Pick where
  | issue (w : Who)
  /-- the LD128 an agent stands at is to be read in halves (R109) -/
  | split (w : Who)
  | event (e : Instr)
deriving DecidableEq, Repr

/-- The machine. -/
structure State where
  mem : Memory
  /-- sectors of memory whose check value disagrees with their bytes, and the difference (R110) -/
  sums : List (Nat × BitVec 16)
  blocks : List Block
  launches : List Launch
  ccs : List CCore
  cores : List Core
  dies : List Die
  traps : List TrapCtx
  atoms : List PAtomic
  homeq : List HomeReq
  queues : List QReg
  xregs : List XReg
  lctls : List LCtl
  mgmt : List Mgmt
  partcfg : BitVec 2
  bring : BringUp
  mailbox : List Byte
  dbg : List Dbg
  pend : List PendRec
  fabric : List FabOp
  answers : List FabAns
  tlb : List TlbE
  cards : List CardReq
  rings : List RingW
  /-- bytes of the on-chip map that no running block has been granted, as last written (R107) -/
  chip : Memory
  nextId : Nat
  free : Nat
  agenda : List Pick
  turn : Who
  tick : Nat
deriving DecidableEq, Repr

/-- The uniform form of a value. -/
def RegCell.uniform (v : W32) : RegCell := { kind := .f32 v 0, rel := 0 }

/-- Sixty-four registers holding the uniform form with base 0 (R18, R313). -/
def regsZero : List RegCell := List.replicate 64 (RegCell.uniform 0)

/-- Seven predicates all-false (R18, R313). -/
def predsFalse : List PredCell := List.replicate 7 { kind := .cut .allFalse, rel := 0 }

/-- A unit that has not begun. -/
def ISet.start (pc : W64) : ISet :=
  { path := [], lanes := 1, pc := pc, left := 0, seg := pc, via := 0, code := [], stat := .ready, haltReq := false,
    haltBy := [], token := 0, stepping := false, stepBy := [], stepSplit := false, bpTaken := false, asked := false, half := none, ran := false,
    idle := false }

/-- The span over [lo, hi) in its start state (R18). -/
def Grp.root (gid lo hi : Nat) (pc : W64) (fpctl : BitVec 3) : Grp :=
  { gid := gid, span := true, lo := lo, hi := hi, regs := regsZero, preds := predsFalse, units := [ISet.start pc],
    lanes := [{ lane := 0, stack := [], fpctl := fpctl, flight := [] }], stq := [], held := false }

/-- Control core c after reset: no context, no command (R306, R384). -/
def CCore.init (c : Nat) : CCore :=
  { num := c, grp := Grp.root 0 0 1 0 0, ctx := none, lseq := 0, cmd := none, lastQ := 256 * c + 255,
    halted := false, trap := none }

/-- A die after reset. -/
def Die.init (d : Nat) : Die :=
  { num := d, point := [], cyc := 0, scan := [], icache := [], mig := [], corrected := 0, lowered := 0 }

/-- The machine right after power-on reset: every register field at its Reset value (R7), no context, no launch, no
block; the values the manual does not state are named in log 4, DESIGN CHOICE and log 5, DESIGN CHOICE. -/
def State.reset : State where
  mem := []
  sums := []
  blocks := []
  launches := []
  ccs := [CCore.init 0, CCore.init 1, CCore.init 2, CCore.init 3, CCore.init 4, CCore.init 5, CCore.init 6,
    CCore.init 7]
  cores := []
  dies := [Die.init 0, Die.init 1, Die.init 2, Die.init 3]
  traps := []
  atoms := []
  homeq := []
  queues := []
  xregs := List.replicate 4 { rplCtx := 0, tlbiDone := 0, tlbi := 0, pend := [] }
  lctls := List.replicate 4 { sitePc := 0, seq := 0, done := 0, stat := 0, op := 0, pend := [] }
  mgmt := List.replicate 4 { sealkey := 0, satbase := 0, satsize := 0, fid := 0 }
  partcfg := 0
  bring := { stfail := 0, dieok := 0, hold := false, ready := 0 }
  mailbox := List.replicate 256 0
  dbg := List.replicate 4 { cmps := List.replicate 8 none, wps := List.replicate 4 none, fired := false, snaps := [] }
  pend := []
  fabric := []
  answers := []
  tlb := []
  cards := []
  rings := []
  chip := []
  nextId := 1
  free := 0
  agenda := []
  turn := .cc 0
  tick := 0

end Sys2Proof.Machine
end

