-- ==== Sys2Proof/Machine/Bits.lean ====
section
/-! DEFINITION. Bit fields, sign extension, wrapping and byte order (R4, R5, R9, R10), and list helpers. -/

namespace Sys2Proof.Machine

/-- Bits(x, hi, lo) of R10. -/
def bits (x hi lo : Nat) : Nat := x / 2 ^ lo % 2 ^ (hi + 1 - lo)

/-- One bit of a number. -/
def bit (x n : Nat) : Bool := x / 2 ^ n % 2 == 1

/-- SignExtend(x, n) of R10. -/
def sext (n x : Nat) : Int := if bit x (n - 1) then (x : Int) - 2 ^ n else x

/-- Wrap(x, n) of R10. -/
def wrap (n : Nat) (x : Int) : Nat := (x % (2 ^ n : Int)).toNat

/-- Sat(x, lo, hi) of R10. -/
def sat (x lo hi : Int) : Int := if x < lo then lo else if hi < x then hi else x

/-- Wrap to a 32-bit word. -/
def toW32 (x : Int) : W32 := BitVec.ofNat 32 (wrap 32 x)

/-- Wrap to a 64-bit word. -/
def toW64 (x : Int) : W64 := BitVec.ofNat 64 (wrap 64 x)

/-- The signed reading of a word. -/
def int32 (x : W32) : Int := sext 32 x.toNat

/-- The signed reading of a pair. -/
def int64 (x : W64) : Int := sext 64 x.toNat

/-- The low half of a pair. -/
def lo64 (x : W64) : W32 := BitVec.ofNat 32 x.toNat

/-- The high half of a pair. -/
def hi64 (x : W64) : W32 := BitVec.ofNat 32 (x.toNat / 2 ^ 32)

/-- The pair of two halves (R45). -/
def pair64 (lo hi : W32) : W64 := BitVec.ofNat 64 (lo.toNat + 2 ^ 32 * hi.toNat)

/-- Ceiling division. -/
def cdiv (a b : Nat) : Nat := if b = 0 then 0 else (a + b - 1) / b

/-- The n bytes of a number, least significant first (R4). -/
def leBytes : Nat → Nat → List Byte
  | 0, _ => []
  | n + 1, x => BitVec.ofNat 8 x :: leBytes n (x / 256)

/-- The number of a list of bytes, least significant first (R4). -/
def leNat : List Byte → Nat
  | [] => 0
  | b :: bs => b.toNat + 256 * leNat bs

/-- The numbers lo, lo + 1, ... (n of them). -/
def upto : Nat → Nat → List Nat
  | _, 0 => []
  | lo, n + 1 => lo :: upto (lo + 1) n

/-- Population count of the low n bits. -/
def popc : Nat → Nat → Nat
  | 0, _ => 0
  | n + 1, x => x % 2 + popc n (x / 2)

/-- Zero bits above the highest 1 bit among n bits. -/
def clz (n x : Nat) : Nat := if x = 0 then n else n - 1 - Nat.log2 x

/-- A mask with the bits of a list of lanes. -/
def maskOf (ls : List Nat) : W32 := ls.foldl (fun m l => m ||| BitVec.ofNat 32 (2 ^ l)) 0

/-- The lanes of a mask, ascending. -/
def lanesOf (m : W32) : List Nat := (upto 0 32).filter fun l => bit m.toNat l

/-- Element of a list of naturals-indexed values, with a default. -/
def nth {α : Type} (l : List α) (n : Nat) (d : α) : α := (l[n]?).getD d

/-- Look up a key in a list of pairs. -/
def look {α : Type} [BEq α] {β : Type} (l : List (α × β)) (k : α) (d : β) : β :=
  match l.find? (fun p => p.1 == k) with
  | some p => p.2
  | none => d

/-- Set the value of a key in a list of pairs, in place or at the end. -/
def put {α : Type} [BEq α] {β : Type} : List (α × β) → α → β → List (α × β)
  | [], k, v => [(k, v)]
  | (k', v') :: r, k, v => if k' == k then (k, v) :: r else (k', v') :: put r k v

/-- Remove the element at a position. -/
def dropAt {α : Type} : List α → Nat → List α
  | [], _ => []
  | _ :: r, 0 => r
  | x :: r, n + 1 => x :: dropAt r n

/-- Change the elements that satisfy a test. -/
def mapIf {α : Type} (p : α → Bool) (f : α → α) (l : List α) : List α := l.map fun x => if p x then f x else x

/-- Insert by key into an ascending list, after equal keys. -/
def insKey {α : Type} (key : α → Nat) (x : α) : List α → List α
  | [] => [x]
  | y :: r => if key x < key y then x :: y :: r else y :: insKey key x r

/-- Stable insertion sort by a numeric key. -/
def sortKey {α : Type} (key : α → Nat) (l : List α) : List α := l.foldl (fun acc x => insKey key x acc) []

/-- Remove repeats, keeping the first of each. -/
def dedup {α : Type} [BEq α] (l : List α) : List α :=
  (l.foldl (fun acc x => if acc.any (· == x) then acc else x :: acc) []).reverse

/-- The smallest of a list of naturals, or a default. -/
def least (d : Nat) : List Nat → Nat
  | [] => d
  | x :: r => r.foldl Nat.min x

/-- Whether two byte ranges share a byte. -/
def overlaps (a n b m : Nat) : Bool := decide (a < b + m) && decide (b < a + n)

end Sys2Proof.Machine
end

