-- ==== Sys2Proof/Machine/Mem.lean ====
section
/-! DEFINITION. Byte memories in canonical form: reading and writing one byte and several. An unlisted address reads
as zero (R88, R90; for DRAM log 4, DESIGN CHOICE). -/

namespace Sys2Proof.Machine

/-- The canonical form: addresses strictly rising, no entry equal to what an unlisted address reads as. -/
def Memory.wf : Memory → Bool
  | [] => true
  | [(_, v)] => v != 0
  | (a, v) :: (b, w) :: r => v != 0 && decide (a < b) && Memory.wf ((b, w) :: r)

/-- One byte. -/
def Memory.read : Memory → Nat → Byte
  | [], _ => 0
  | (b, v) :: r, a => if b = a then v else if a < b then 0 else Memory.read r a

/-- Write one byte, keeping the canonical form. -/
def Memory.write : Memory → Nat → Byte → Memory
  | [], a, v => if v = 0 then [] else [(a, v)]
  | (b, w) :: r, a, v =>
    if a < b then (if v = 0 then (b, w) :: r else (a, v) :: (b, w) :: r)
    else if a = b then (if v = 0 then r else (a, v) :: r)
    else (b, w) :: Memory.write r a v

/-- The entries from an address on. -/
def Memory.from : Memory → Nat → Memory
  | [], _ => []
  | (b, v) :: r, a => if b < a then Memory.from r a else (b, v) :: r

/-- n bytes at an address, ascending. -/
def Memory.readN (m : Memory) (a n : Nat) : List Byte :=
  let t := m.from a
  (upto a n).map fun x => Memory.read t x

/-- Write bytes at an address, ascending. -/
def Memory.writeN : Memory → Nat → List Byte → Memory
  | m, _, [] => m
  | m, a, v :: vs => Memory.writeN (Memory.write m a v) (a + 1) vs

/-- A little-endian number of n bytes (R4). -/
def Memory.nat (m : Memory) (a n : Nat) : Nat := leNat (m.readN a n)

/-- Write a little-endian number of n bytes (R4). -/
def Memory.setNat (m : Memory) (a n x : Nat) : Memory := m.writeN a (leBytes n x)

/-- Change the bits of one byte under a mask. -/
def Memory.merge (m : Memory) (a : Nat) (mask v : Byte) : Memory :=
  m.write a ((m.read a &&& ~~~mask) ||| (v &&& mask))

/-! ### Check values (R110) -/

/-- One bit enters the CRC of R110, highest bit of a byte first. -/
def crc16Bit (c : BitVec 16) (b : Bool) : BitVec 16 := if c.msb != b then (c <<< 1) ^^^ 0x1021 else c <<< 1

/-- The check value of some bytes (R110): CRC-16 with polynomial 0x1021, initial value 0xFFFF, not reflected, no final XOR. -/
def crc16 (bytes : List Byte) : BitVec 16 :=
  bytes.foldl (fun c v => (upto 0 8).foldl (fun c i => crc16Bit c (bit v.toNat (7 - i))) c) 0xFFFF

/-- The check value a 32-byte sector carries: that of its bytes, but for the difference kept for it (log 85, DEDUCED). -/
def checkValue (m : Memory) (sums : List (Nat × BitVec 16)) (sec : Nat) : BitVec 16 :=
  crc16 (m.readN (32 * sec) 32) ^^^ look sums sec 0

/-- A sector's check fails: the value it carries is not that of its bytes (R110). -/
def sectorBad (sums : List (Nat × BitVec 16)) (sec : Nat) : Bool := look sums sec 0 != 0

/-- Sectors after n bytes at an address are written (R110): a sector written whole gets a new check value; one that the
write merges into is checked first, and a check that failed then fails on. -/
def sumsAfter (sums : List (Nat × BitVec 16)) (a n : Nat) : List (Nat × BitVec 16) :=
  sums.filter fun x => !(decide (a ≤ 32 * x.1) && decide (32 * x.1 + 32 ≤ a + n))

/-- A sector's bytes and its check value come to disagree. -/
def sumsSpoil (sums : List (Nat × BitVec 16)) (sec : Nat) (d : BitVec 16) : List (Nat × BitVec 16) :=
  let x := look sums sec 0 ^^^ d
  let rest := sums.filter fun y => y.1 != sec
  if x = 0 then rest else insKey (·.1) (sec, x) rest

end Sys2Proof.Machine
end

