-- ==== Sys2Proof/Machine/Num.lean ====
section
/-! DEFINITION. Number formats and the arithmetic rules (R62 to R82): values of encodings, exact arithmetic, one
rounding, conversions. -/

namespace Sys2Proof.Machine

/-- The float formats of R62 and R68. -/
inductive Fmt where
  | f64 | f32 | f16 | bf16 | e4m3 | e5m2 | w40 | mf6 | mf4
deriving DecidableEq, Repr

/-- Exponent bits (R62, R68). -/
def Fmt.eb : Fmt → Nat
  | .f64 => 11 | .f32 => 8 | .f16 => 5 | .bf16 => 8 | .e4m3 => 4 | .e5m2 => 5 | .w40 => 8 | .mf6 => 3 | .mf4 => 2

/-- Fraction bits (R62, R68). -/
def Fmt.fb : Fmt → Nat
  | .f64 => 52 | .f32 => 23 | .f16 => 10 | .bf16 => 7 | .e4m3 => 3 | .e5m2 => 2 | .w40 => 31 | .mf6 => 2 | .mf4 => 1

/-- Exponent bias (R62, R68). -/
def Fmt.bias (f : Fmt) : Nat := 2 ^ (f.eb - 1) - 1

/-- Width in bits. -/
def Fmt.width (f : Fmt) : Nat := 1 + f.eb + f.fb

/-- MF6 and MF4 have no zero but +0, no subnormals, infinities or NaNs (R68). -/
def Fmt.isMf : Fmt → Bool
  | .mf6 | .mf4 => true
  | _ => false

/-- Formats FTZ flushes (R66, R202). -/
def Fmt.flushes : Fmt → Bool
  | .f32 | .f16 | .bf16 => true
  | _ => false

/-- The value of an encoding: NaN, an infinity, or (-1)^neg · man · 2^exp. -/
inductive FV where
  | nan
  | inf (neg : Bool)
  | fin (neg : Bool) (man : Nat) (exp : Int)
deriving DecidableEq, Repr

/-- The sign bit of an encoding. -/
def Fmt.neg (f : Fmt) (x : Nat) : Bool := bit x (f.width - 1)

/-- The exponent field. -/
def Fmt.ef (f : Fmt) (x : Nat) : Nat := x / 2 ^ f.fb % 2 ^ f.eb

/-- The fraction field. -/
def Fmt.ff (f : Fmt) (x : Nat) : Nat := x % 2 ^ f.fb

/-- The canonical NaN (R62). -/
def Fmt.nanCode (f : Fmt) : Nat :=
  if f = .e4m3 then 0x7F else (2 ^ f.eb - 1) * 2 ^ f.fb + 2 ^ (f.fb - 1)

/-- The code of +∞; for E4M3 the NaN that stands in its place under .inf (R71). -/
def Fmt.infCode (f : Fmt) : Nat := if f = .e4m3 then 0x7F else (2 ^ f.eb - 1) * 2 ^ f.fb

/-- The code of the largest finite magnitude (R62, R68). -/
def Fmt.maxCode (f : Fmt) : Nat :=
  if f.isMf then 2 ^ (f.eb + f.fb) - 1 else if f = .e4m3 then 0x7E else f.infCode - 1

/-- Put a sign on a magnitude code. -/
def Fmt.signed (f : Fmt) (neg : Bool) (c : Nat) : Nat := if neg then c + 2 ^ (f.width - 1) else c

/-- The value of an encoding (R62, R68). -/
def Fmt.value (f : Fmt) (x : Nat) : FV :=
  let e := f.ef x
  let m := f.ff x
  let s := f.neg x
  let u : Int := - (f.bias : Int) - f.fb
  if f.isMf then
    if x % 2 ^ f.width = 0 then .fin false 0 0 else .fin s (2 ^ f.fb + m) (e + u)
  else if f = .e4m3 then
    if e = 15 ∧ m = 7 then .nan
    else if e = 0 then .fin s m (1 + u) else .fin s (8 + m) (e + u)
  else if e = 2 ^ f.eb - 1 then (if m = 0 then .inf s else .nan)
  else if e = 0 then .fin s m (1 + u)
  else .fin s (2 ^ f.fb + m) (e + u)

/-- An encoding is subnormal. -/
def Fmt.subnormal (f : Fmt) (x : Nat) : Bool := !f.isMf && f.ef x == 0 && f.ff x != 0

/-- Whether a mantissa of which `rem` of 2^sh was cut rounds up (R64). -/
def roundsUp (mode : RMode) (neg : Bool) (fl rem sh : Nat) : Bool :=
  match mode with
  | .rn => decide (2 ^ sh < 2 * rem) || (2 * rem == 2 ^ sh && fl % 2 == 1)
  | .rz => false
  | .ru => rem != 0 && !neg
  | .rd => rem != 0 && neg

/-- Round man · 2^exp to an IEEE-style format with the exponent unbounded above: the magnitude code, which is past
`maxCode` when the value overflows (R64, R70, R71). -/
def Fmt.roundMag (f : Fmt) (mode : RMode) (neg : Bool) (man : Nat) (exp : Int) : Nat :=
  if man = 0 then 0 else
  let emin : Int := 1 - (f.bias : Int) - f.fb
  let q0 : Int := exp + (Nat.log2 man : Int) - f.fb
  let q : Int := if q0 < emin then emin else q0
  let r : Nat :=
    if q ≤ exp then man * 2 ^ (exp - q).toNat
    else
      let sh := (q - exp).toNat
      let fl := man / 2 ^ sh
      if roundsUp mode neg fl (man % 2 ^ sh) sh then fl + 1 else fl
  (q - emin).toNat * 2 ^ f.fb + r

/-- The signed value of an MF code in units of 2^(-bias-M) (R68). -/
def Fmt.mfUnits (f : Fmt) (c : Nat) : Int :=
  if c = 0 then 0
  else
    let k : Int := (2 ^ f.fb + f.ff c) * 2 ^ f.ef c
    if f.neg c then -k else k

/-- The MF code nearest to a value: ties to bit 0 clear, and +0 where both are (R70). -/
def Fmt.mfNearest (f : Fmt) (neg : Bool) (man : Nat) (exp : Int) : Nat :=
  let e := exp + f.bias + f.fb
  let num : Int := if 0 ≤ e then man * 2 ^ e.toNat else man
  let den : Int := if 0 ≤ e then 1 else 2 ^ (-e).toNat
  let x : Int := if neg then -num else num
  let dist (c : Nat) : Nat := (x - f.mfUnits c * den).natAbs
  (upto 1 (2 ^ f.width - 1)).foldl
    (fun best c =>
      if dist c < dist best then c
      else if dist c = dist best ∧ best % 2 = 1 ∧ c % 2 = 0 then c else best) 0

/-- A finite value reaches the overflow threshold of the format (R71). -/
def Fmt.overflows (f : Fmt) (mode : RMode) (neg : Bool) (man : Nat) (exp : Int) : Bool :=
  match f with
  | .mf6 => decide (30 * 2 ^ (-exp).toNat ≤ man * 2 ^ exp.toNat)
  | .mf4 => decide (7 * 2 ^ (-exp).toNat ≤ man * 2 ^ exp.toNat)
  | _ => decide (f.maxCode < f.roundMag mode neg man exp)

/-- Formats whose conversions ignore RM (R64, R70). -/
def Fmt.ignoresRm : Fmt → Bool
  | .e4m3 | .e5m2 | .mf6 | .mf4 => true
  | _ => false

/-- The IEEE overflow result: infinity, or the largest finite value in the modes that do not reach it (R64). -/
def Fmt.ovfCode (f : Fmt) (mode : RMode) (neg : Bool) : Nat :=
  let toInf := match mode with
    | .rn => true | .rz => false | .ru => !neg | .rd => neg
  f.signed neg (if toInf then f.infCode else f.maxCode)

/-- RoundToFormat(v, fmt, mode) of an exact value (R64, R70). A zero into E4M3 or E5M2 keeps its sign (log 98, DEDUCED). -/
def Fmt.round (f : Fmt) (mode : RMode) (v : FV) : Nat :=
  match v with
  | .nan => if f.isMf then 0 else f.nanCode
  | .inf s => if f.isMf then f.signed s f.maxCode else f.signed s f.infCode
  | .fin s m e =>
    if f.isMf then (if f.overflows mode s m e then f.signed s f.maxCode else f.mfNearest s m e)
    else
      let c := f.roundMag mode s m e
      if f.maxCode < c then f.ovfCode mode s else f.signed s c

/-- Round to nearest even, as matrix arithmetic, drains and atomics do (R64). -/
def Fmt.roundRn (f : Fmt) (v : FV) : Nat := f.round .rn v

/-- FIn of R202: the value, a subnormal flushed to a zero of its sign under FTZ. -/
def Fmt.fin (f : Fmt) (ftz : Bool) (x : Nat) : FV :=
  if ftz && f.flushes && f.subnormal x then .fin (f.neg x) 0 0 else f.value x

/-- FOut of R202. -/
def Fmt.fout (f : Fmt) (ftz : Bool) (mode : RMode) (v : FV) : Nat :=
  let r := f.round mode v
  if ftz && f.flushes && f.subnormal r then f.signed (f.neg r) 0 else r

/-- Change the sign of a value. -/
def FV.negate : FV → FV
  | .nan => .nan
  | .inf s => .inf (!s)
  | .fin s m e => .fin (!s) m e

/-- The signed mantissa. -/
def smant (s : Bool) (m : Nat) : Int := if s then -(m : Int) else m

/-- The exact sum, with the zero sign of R64. -/
def FV.add (mode : RMode) : FV → FV → FV
  | .nan, _ => .nan
  | _, .nan => .nan
  | .inf s, .inf t => if s = t then .inf s else .nan
  | .inf s, _ => .inf s
  | _, .inf t => .inf t
  | .fin s m e, .fin t n g =>
    let k : Int := if e ≤ g then e else g
    let x := smant s (m * 2 ^ (e - k).toNat) + smant t (n * 2 ^ (g - k).toNat)
    if x = 0 then
      (if m = 0 ∧ n = 0 ∧ s = t then .fin s 0 0 else .fin (mode == .rd) 0 0)
    else .fin (decide (x < 0)) x.natAbs k

/-- The exact product. -/
def FV.mul : FV → FV → FV
  | .nan, _ => .nan
  | _, .nan => .nan
  | .inf s, .inf t => .inf (s != t)
  | .inf s, .fin t n _ => if n = 0 then .nan else .inf (s != t)
  | .fin s m _, .inf t => if m = 0 then .nan else .inf (s != t)
  | .fin s m e, .fin t n g => .fin (s != t) (m * n) (e + g)

/-- The exact value of a · b + c (R208): 0 · ∞ is NaN whatever c. -/
def FV.fma (mode : RMode) (a b c : FV) : FV := FV.add mode (FV.mul a b) c

/-- Order of two values that are not NaN, as an integer sign; -0 equals +0. -/
def FV.cmp : FV → FV → Int
  | .inf s, .inf t => if s = t then 0 else if s then -1 else 1
  | .inf s, _ => if s then -1 else 1
  | _, .inf t => if t then 1 else -1
  | .fin s m e, .fin t n g =>
    let k : Int := if e ≤ g then e else g
    let x := smant s (m * 2 ^ (e - k).toNat) - smant t (n * 2 ^ (g - k).toNat)
    if x < 0 then -1 else if x = 0 then 0 else 1
  | _, _ => 0

/-- A value is NaN. -/
def FV.isNan : FV → Bool
  | .nan => true
  | _ => false

/-- The sign of a value. -/
def FV.sign : FV → Bool
  | .nan => false
  | .inf s => s
  | .fin s _ _ => s

/-- A value is a zero. -/
def FV.isZero : FV → Bool
  | .fin _ 0 _ => true
  | _ => false

/-- a ranks below b under minimumNumber's order, where -0 is below +0 (R65). -/
def FV.below (a b : FV) : Bool :=
  let c := FV.cmp a b
  decide (c < 0) || (c == 0 && a.isZero && b.isZero && a.sign && !b.sign)

/-- The encoding of an operand with FTZ's flush applied, otherwise bit-identical (R66, R206). -/
def Fmt.flushed (f : Fmt) (ftz : Bool) (x : Nat) : Nat :=
  if ftz && f.flushes && f.subnormal x then f.signed (f.neg x) 0 else x

/-- An operand as a word returns it that does not combine it with another: flushed, a NaN made canonical (R65, R66). -/
def Fmt.returned (f : Fmt) (ftz : Bool) (x : Nat) : Nat := if (f.value x).isNan then f.nanCode else f.flushed ftz x

/-- minimumNumber (R65): one of the flushed operands, or the canonical NaN. -/
def Fmt.minNum (f : Fmt) (ftz : Bool) (x y : Nat) : Nat :=
  let a := f.fin ftz x
  let b := f.fin ftz y
  if a.isNan then (if b.isNan then f.nanCode else f.flushed ftz y)
  else if b.isNan then f.flushed ftz x
  else if FV.below b a then f.flushed ftz y else f.flushed ftz x

/-- maximumNumber (R65). -/
def Fmt.maxNum (f : Fmt) (ftz : Bool) (x y : Nat) : Nat :=
  let a := f.fin ftz x
  let b := f.fin ftz y
  if a.isNan then (if b.isNan then f.nanCode else f.flushed ftz y)
  else if b.isNan then f.flushed ftz x
  else if FV.below a b then f.flushed ftz y else f.flushed ftz x

/-- Round a value to an integer (R72). -/
def roundInt (mode : RMode) (s : Bool) (m : Nat) (e : Int) : Int :=
  if 0 ≤ e then smant s (m * 2 ^ e.toNat)
  else
    let sh := (-e).toNat
    let fl := m / 2 ^ sh
    smant s (if roundsUp mode s fl (m % 2 ^ sh) sh then fl + 1 else fl)

/-- Lower bound of an integer type. -/
def intLower : IntTy → Int
  | .i32 => -2147483648 | .n32 => 0 | .i64 => -9223372036854775808 | .n64 => 0

/-- Upper bound of an integer type. -/
def intUpper : IntTy → Int
  | .i32 => 2147483647 | .n32 => 4294967295 | .i64 => 9223372036854775807 | .n64 => 18446744073709551615

/-- A float value converted to an integer type: rounded, then saturated (R72). -/
def FV.toInt (mode : RMode) (ty : IntTy) : FV → Int
  | .nan => 0
  | .inf s => if s then intLower ty else intUpper ty
  | .fin s m e => sat (roundInt mode s m e) (intLower ty) (intUpper ty)

/-- The value of an integer. -/
def FV.ofInt (x : Int) : FV := .fin (decide (x < 0)) x.natAbs 0

/-- Conversion into a float format with an overflow choice (R71, R214). -/
def Fmt.convert (f : Fmt) (ftz : Bool) (mode : RMode) (inf : Bool) (v : FV) : Nat :=
  let mode := if f.ignoresRm then .rn else mode
  match v with
  | .nan => if f.isMf then 0 else f.nanCode
  | .inf s => f.signed s (if inf then f.infCode else f.maxCode)
  | .fin s m e =>
    if f.overflows mode s m e then
      (if inf then (if f.ignoresRm then f.signed s f.infCode else f.ovfCode mode s) else f.signed s f.maxCode)
    else f.fout ftz mode v

/-- The largest r with r · r ≤ n, by bits from 2^k down. -/
def isqrt : Nat → Nat → Nat → Nat
  | 0, n, r => if (r + 1) * (r + 1) ≤ n then r + 1 else r
  | k + 1, n, r =>
    let r' := r + 2 ^ (k + 1)
    isqrt k n (if r' * r' ≤ n then r' else r)

/-- A truncated positive value with a sticky bit for what was cut: fl · 2^e and more if `more`. -/
def stick (fl : Nat) (e : Int) (more : Bool) : FV := .fin false (2 * fl + (if more then 1 else 0)) (e - 1)

/-- The square root of man · 2^exp, cut with a sticky bit at well over 64 bits. -/
def sqrtFin (m : Nat) (e : Int) : FV :=
  if m = 0 then .fin false 0 0 else
  let e' : Int := if e % 2 = 0 then e - 160 else e - 161
  let n := m * 2 ^ (e - e').toNat
  let r := isqrt (Nat.log2 n / 2 + 1) n 0
  stick r (e' / 2) (r * r != n)

/-- The reciprocal of man · 2^exp, cut with a sticky bit. -/
def recipFin (m : Nat) (e : Int) : FV :=
  let k := Nat.log2 m + 130
  stick (2 ^ k / m) (-e - k) (2 ^ k % m != 0)

/-- PlaneValue(q, k, mid) of R75. -/
def planeValue (q k : Nat) (mid : Bool) : Int :=
  let v := sext k (bits q 7 (8 - k)) * 2 ^ (8 - k)
  if mid ∧ k < 8 then v + 2 ^ (7 - k) else v

/-- The value of an E8M0 block scale (R76). -/
def scaleValue (c : Nat) : FV := if c = 255 then .nan else .fin false 1 ((c : Int) - 127)

/-- An element format of memory records (R98). -/
inductive EFmt where
  | fp (f : Fmt)
  | i8 | i4 | plane | i32
deriving DecidableEq, Repr

/-- The element format of a code; codes 0b1100 to 0b1111 are reserved (R98). -/
def EFmt.ofCode (c : Nat) : Option EFmt :=
  match c with
  | 0 => some (.fp .f32) | 1 => some (.fp .f16) | 2 => some (.fp .bf16) | 3 => some (.fp .e4m3)
  | 4 => some (.fp .e5m2) | 5 => some (.fp .mf6) | 6 => some (.fp .mf4) | 7 => some .i8
  | 8 => some .i4 | 9 => some .plane | 10 => some (.fp .f64) | 11 => some .i32
  | _ => none

/-- Bits of one element in a packed row; a plane integer has no width of its own. -/
def EFmt.bitsOf : EFmt → Nat
  | .fp f => f.width
  | .i8 => 8 | .i4 => 4 | .plane => 8 | .i32 => 32

/-- The element counts as zero (R82). -/
def EFmt.isZeroCode (f : EFmt) (x : Nat) : Bool :=
  match f with
  | .fp g => if g.isMf then x == 0 else x % 2 ^ (g.width - 1) == 0
  | _ => x == 0

/-- Formats of float matrix operands (R242). -/
def EFmt.matFloat : EFmt → Bool
  | .fp .f16 | .fp .bf16 | .fp .e4m3 | .fp .e5m2 | .fp .mf6 | .fp .mf4 => true
  | _ => false

/-- Formats of integer matrix operands (R242). -/
def EFmt.matInt : EFmt → Bool
  | .i8 | .i4 | .plane => true
  | _ => false

/-- The depth of a format as read (R79). -/
def EFmt.depth (f : EFmt) (planes : Nat) : Nat :=
  match f with
  | .fp .f16 | .fp .bf16 => 2
  | .fp .mf4 => 8
  | .plane => if planes ≤ 4 then 8 else 4
  | _ => 4

end Sys2Proof.Machine
end

