-- ==== Sys2Proof/Machine/Forms.lean ====
section
/-! DEFINITION. How a thread group holds its registers and predicates (R19 to R33, R44 to R48, R55): reading a register
as a form or per thread, writing it back, cuts, splitting a span and expanding it. Positions count from the group's
origin: index − lo in a span, the lane in a sheaf. -/

namespace Sys2Proof.Machine

/-- A register that holds nothing of its own: index out of range. -/
def noReg : RegCell := RegCell.uniform 0

/-- The cell of a register. -/
def Grp.cell (g : Grp) (r : Nat) : RegCell := nth g.regs r noReg

/-- FormValue of a 32-bit form at a position (R19). -/
def formVal (base stride : W32) (pos : Nat) : W32 := base + stride * BitVec.ofNat 32 pos

/-- The value of a 64-bit pair form at a position (R20). -/
def formVal64 (base : W64) (stride : W32) (pos : Nat) : W64 := base + toW64 (int32 stride * pos)

/-- The value of a register at a position (R32, R46, R47). -/
def Grp.val (g : Grp) (r pos : Nat) : W32 :=
  match (g.cell r).kind with
  | .f32 b s => formVal b s pos
  | .f64 b s => lo64 (formVal64 b s pos)
  | .f64hi =>
    match (g.cell (r - 1)).kind with
    | .f64 b s => hi64 (formVal64 b s pos)
    | _ => 0
  | .e _ vs => nth vs pos 0

/-- The value of a pair at a position (R45, R47). -/
def Grp.val64 (g : Grp) (r pos : Nat) : W64 := pair64 (g.val r pos) (g.val (r + 1) pos)

/-- The live lanes of a sheaf; of a span, one stand-in lane. -/
def Grp.live (g : Grp) : W32 := g.units.foldl (fun m u => m ||| u.lanes) 0

/-- The positions of the group's threads (R165: the range of a thread group). -/
def Grp.positions (g : Grp) : List Nat := if g.span then upto 0 (g.hi - g.lo) else lanesOf g.live

/-- The range as a run of consecutive positions: first and length (R46, R47). -/
def Grp.run (g : Grp) : Option (Nat × Nat) :=
  if g.span then some (0, g.hi - g.lo)
  else match lanesOf g.live with
    | [] => none
    | a :: r => if (a :: r) == upto a (r.length + 1) then some (a, r.length + 1) else none

/-- All consecutive differences of a sequence equal one number. -/
def constDiff (d : W64) : List W64 → Bool
  | x :: y :: r => (y - x == d) && constDiff d (y :: r)
  | _ => true

/-- All consecutive 32-bit differences equal one number. -/
def constDiff32 (d : W32) : List W32 → Bool
  | x :: y :: r => (y - x == d) && constDiff32 d (y :: r)
  | _ => true

/-- The 32-bit form of values over consecutive positions from a (R39, R46): base at the origin and stride. -/
def formOf32 (a : Nat) (vs : List W32) : Option (W32 × W32) :=
  match vs with
  | [] => none
  | [x] => some (x, 0)
  | x :: y :: r =>
    let s := y - x
    if constDiff32 s (x :: y :: r) then some (x - s * BitVec.ofNat 32 a, s) else none

/-- The 64-bit pair form of values over consecutive positions from a, when the stride fits in 32 signed bits (R47). -/
def formOf64 (a : Nat) (vs : List W64) : Option (W64 × W32) :=
  match vs with
  | [] => none
  | [x] => some (x, 0)
  | x :: y :: r =>
    let s := y - x
    let si := int64 s
    if -2147483648 ≤ si ∧ si < 2147483648 ∧ constDiff s (x :: y :: r) then
      some (x - toW64 (si * a), toW32 si)
    else none

/-- The form a 32-bit register reads as, if it does (R46). -/
def Grp.form32 (g : Grp) (r : Nat) : Option (W32 × W32) :=
  match (g.cell r).kind with
  | .f32 b s => some (b, s)
  | .f64 b s => some (lo64 b, s)
  | .f64hi =>
    match (g.cell (r - 1)).kind with
    | .f64 b s => match g.run with
      | some (a, n) =>
        if s = 0 then some (hi64 b, 0) else formOf32 a ((upto a n).map fun p => hi64 (formVal64 b s p))
      | none => none
    | _ => none
  | .e _ _ => none

/-- The form a pair reads as, if it does (R47). -/
def Grp.form64 (g : Grp) (r : Nat) : Option (W64 × W32) :=
  match (g.cell r).kind, (g.cell (r + 1)).kind with
  | .f64 b s, .f64hi => some (b, s)
  | .f32 b s, .f32 c t =>
    match g.run with
    | some (a, n) =>
      if s = 0 ∧ t = 0 then some (pair64 b c, 0)
      else formOf64 a ((upto a n).map fun p => pair64 (formVal b s p) (formVal c t p))
    | none => none
  | _, _ => none

/-- Every lane's value of a register, for turning it into E. -/
def Grp.lanesVals (g : Grp) (r : Nat) : List W32 := (upto 0 32).map fun l => g.val r l

/-- Replace one register's cell. -/
def Grp.setCell (g : Grp) (r : Nat) (c : RegCell) : Grp := { g with regs := g.regs.set r c }

/-- The other half of a pair. -/
def mate (r : Nat) : Nat := if r % 2 = 0 then r + 1 else r - 1

/-- Before a 32-bit write to one half of an F64 pair, give both halves 32-bit representations (R46); before a 32-bit
write to a half of a wide E pair, drop the mark "last written as 64 bits" (R39). -/
def Grp.unpair (g : Grp) (r : Nat) : Grp :=
  let lo := r - r % 2
  match (g.cell lo).kind, (g.cell (lo + 1)).kind with
  | .f64 b s, .f64hi =>
    let hk := match g.form32 (lo + 1) with
      | some (x, t) => RegKind.f32 x t
      | none => .e false (g.lanesVals (lo + 1))
    (g.setCell (lo + 1) { g.cell (lo + 1) with kind := hk }).setCell lo { g.cell lo with kind := .f32 (lo64 b) s }
  | .e true vs, k =>
    let g := g.setCell lo { g.cell lo with kind := .e false vs }
    match k with
    | .e true ws => g.setCell (lo + 1) { g.cell (lo + 1) with kind := .e false ws }
    | _ => g
  | _, .e true ws => g.setCell (lo + 1) { g.cell (lo + 1) with kind := .e false ws }
  | _, _ => g

/-- A result to be written: a 32-bit form, a pair form, or one value per lane (R33, R165). -/
inductive Res where
  | form (b s : W32)
  | form64 (b : W64) (s : W32)
  | lanes (f : List W32)
  | lanes64 (f : List W64)
deriving DecidableEq, Repr

/-- Write E values of the lanes of a mask, keeping the others (R33). -/
def Grp.writeLanes (g : Grp) (r : Nat) (wide : Bool) (mask : W32) (vs : List W32) : Grp :=
  let old := g.lanesVals r
  let new := (upto 0 32).map fun l => if bit mask.toNat l then nth vs l 0 else nth old l 0
  g.setCell r { kind := .e wide new, rel := (g.cell r).rel &&& ~~~mask }

/-- Write a result to d for the threads of a unit (R33): a form stands only where the whole live set is written; a
strict subset makes the register E. A write ends the release of what it writes (R56). -/
def Grp.write (g : Grp) (u : ISet) (d : Nat) (r : Res) : Grp :=
  let whole := g.span || u.lanes == g.live
  match r with
  | .form b s =>
    let g := g.unpair d
    if whole then g.setCell d { kind := .f32 b s, rel := 0 }
    else g.writeLanes d false u.lanes ((upto 0 32).map fun l => formVal b s l)
  | .lanes vs => (g.unpair d).writeLanes d false u.lanes vs
  | .form64 b s =>
    if whole then
      (g.setCell d { kind := .f64 b s, rel := 0 }).setCell (d + 1) { kind := .f64hi, rel := 0 }
    else
      let g := g.unpair d
      let vs := (upto 0 32).map fun l => formVal64 b s l
      (g.writeLanes d true u.lanes (vs.map lo64)).writeLanes (d + 1) true u.lanes (vs.map hi64)
  | .lanes64 vs =>
    let g := g.unpair d
    (g.writeLanes d true u.lanes (vs.map lo64)).writeLanes (d + 1) true u.lanes (vs.map hi64)

/-- A word that writes a register later, as its result comes, ends the register's release for its threads (R56). -/
def Grp.claim (g : Grp) (u : ISet) (r : Nat) : Grp :=
  let c := g.cell r
  g.setCell r { c with rel := if g.span then 0 else c.rel &&& ~~~u.lanes }

/-- The release marks of some registers as another group has them. -/
def Grp.relsOf (g old : Grp) (rs : List Nat) : Grp :=
  rs.foldl (fun (g : Grp) r => g.setCell r { g.cell r with rel := (old.cell r).rel }) g

/-! ### Predicates -/

/-- Cut normal form over [lo, hi) (R24). -/
def Cut.norm (lo hi : Nat) : Cut → Cut
  | .below k => if k ≤ lo then .allFalse else if hi ≤ k then .allTrue else .below k
  | .atOrAbove k => if hi ≤ k then .allFalse else if k ≤ lo then .allTrue else .atOrAbove k
  | c => c

/-- A cut's value at an index. -/
def Cut.at (c : Cut) (i : Nat) : Bool :=
  match c with
  | .allFalse => false
  | .allTrue => true
  | .below k => decide (i < k)
  | .atOrAbove k => decide (k ≤ i)

/-- A cut is trivial (R26). -/
def Cut.trivial : Cut → Bool
  | .allFalse | .allTrue => true
  | _ => false

/-- The negation of a cut. -/
def Cut.not : Cut → Cut
  | .allFalse => .allTrue
  | .allTrue => .allFalse
  | .below k => .atOrAbove k
  | .atOrAbove k => .below k

/-- The threshold of a cut. -/
def Cut.threshold : Cut → List Nat
  | .below k | .atOrAbove k => [k]
  | _ => []

/-- The cut over [lo, hi) of a test whose value changes only at the given thresholds, if the set is empty, whole, a
prefix or a suffix (R25, R26). -/
def cutOf (lo hi : Nat) (ts : List Nat) (p : Nat → Bool) : Option Cut :=
  let starts := dedup (sortKey id (lo :: ts.filter fun t => decide (lo < t) && decide (t < hi)))
  let vals := starts.map fun t => (t, p t)
  match vals with
  | [] => some .allFalse
  | (_, v0) :: rest =>
    match rest.dropWhile (fun x => x.2 == v0) with
    | [] => some (if v0 then .allTrue else .allFalse)
    | (t, _) :: more =>
      if more.all (fun x => x.2 != v0) then some (if v0 then .below t else .atOrAbove t) else none

/-- The cell of a predicate; p7 reads all-true (R48). -/
def Grp.pcell (g : Grp) (p : Nat) : PredCell :=
  if p = 7 then { kind := if g.span then .cut .allTrue else .bits (BitVec.allOnes 32), rel := 0 }
  else nth g.preds p { kind := .cut .allFalse, rel := 0 }

/-- A predicate's value at a position. -/
def Grp.pval (g : Grp) (p pos : Nat) : Bool :=
  match (g.pcell p).kind with
  | .cut c => c.at (g.lo + pos)
  | .bits b => if g.span then b != 0 else bit b.toNat pos

/-- The cut of a predicate in a span. -/
def Grp.pcut (g : Grp) (p : Nat) : Cut :=
  match (g.pcell p).kind with
  | .cut c => c.norm g.lo g.hi
  | .bits b => if b = 0 then .allFalse else .allTrue

/-- A predicate result: a cut for a span, bits for the lanes of a sheaf. -/
inductive PRes where
  | cut (c : Cut)
  | bits (b : W32)
deriving DecidableEq, Repr

/-- Write a predicate for a unit (R48, R173): p7 discards, lanes outside the unit keep their bits. -/
def Grp.pwrite (g : Grp) (u : ISet) (p : Nat) (r : PRes) : Grp :=
  if p = 7 then g else
  match r with
  | .cut c => { g with preds := g.preds.set p { kind := .cut (c.norm g.lo g.hi), rel := 0 } }
  | .bits b =>
    let old := g.pcell p
    let ob : W32 := match old.kind with
      | .bits x => x
      | .cut c => maskOf ((upto 0 32).filter fun l => c.at (g.lo + l))
    let c : PredCell := ⟨.bits ((ob &&& ~~~u.lanes) ||| (b &&& u.lanes)), old.rel &&& ~~~u.lanes⟩
    { g with preds := g.preds.set p c }

/-! ### Compares over a range (R25) -/

/-- BaseAs(v, signed, w) of R25. -/
def baseAs (signed : Bool) (w v : Nat) : Int := if signed then sext w v else v

/-- The least value of a w-bit reading. -/
def loRange (signed : Bool) (w : Nat) : Int := if signed then -(2 ^ (w - 1)) else 0

/-- The bound above a w-bit reading. -/
def hiRange (signed : Bool) (w : Nat) : Int := if signed then 2 ^ (w - 1) else 2 ^ w

/-- The exact sequence base + stride · pos stays in range over the positions [a, a + n) (R25, "no wrap" of R165). -/
def noWrap (signed : Bool) (w base : Nat) (stride : Int) (a n : Nat) : Bool :=
  let e (p : Nat) : Int := baseAs signed w base + stride * p
  let ok (x : Int) : Bool := decide (loRange signed w ≤ x) && decide (x < hiRange signed w)
  ok (e a) && ok (e (a + n - 1))

/-- A condition on exact integers (R25). -/
def condHolds (c : Cond) (x y : Int) : Bool :=
  match c with
  | .eq => x == y | .ne => x != y | .lt => decide (x < y) | .le => decide (x ≤ y) | .gt => decide (y < x)
  | .ge => decide (y ≤ x)

/-- SpanCompare of R25 over positions [a, a + n), as a cut in positions; none means expand. -/
def spanCompare (c : Cond) (signed : Bool) (w : Nat) (xb : Nat) (xs : Int) (yb : Nat) (ys : Int) (a n : Nat) :
    Option Cut :=
  if noWrap signed w xb xs a n && noWrap signed w yb ys a n then
    let x0 := baseAs signed w xb
    let y0 := baseAs signed w yb
    let d := xs - ys
    -- the difference crosses zero near position (y0 − x0) / d
    let z := if d = 0 then 0 else ((y0 - x0) / d).toNat
    cutOf a (a + n) [z - 1, z, z + 1, z + 2] fun p => condHolds c (x0 + xs * p) (y0 + ys * p)
  else none

/-- A cut in positions moved to indices. -/
def Cut.shift (o : Nat) : Cut → Cut
  | .below k => .below (k + o)
  | .atOrAbove k => .atOrAbove (k + o)
  | c => c

/-! ### Splitting and expanding a span -/

/-- A register rebased by n positions (R27, R29). -/
def RegCell.rebase (n : Nat) (c : RegCell) : RegCell :=
  match c.kind with
  | .f32 b s => { c with kind := .f32 (formVal b s n) s }
  | .f64 b s => { c with kind := .f64 (formVal64 b s n) s }
  | _ => c

/-- A register rebased by a signed number of positions. -/
def RegCell.rebaseI (n : Int) (c : RegCell) : RegCell :=
  match c.kind with
  | .f32 b s => { c with kind := .f32 (b + toW32 (int32 s * n)) s }
  | .f64 b s => { c with kind := .f64 (b + toW64 (int32 s * n)) s }
  | _ => c

/-- The part of a store-queue entry made by the indices of a range: a split queue keeps each thread's order. -/
def SqEntry.only (p : Nat → Bool) (q : SqEntry) : Option SqEntry :=
  match q.elems.filter fun x => p x.idx with
  | [] => none
  | es => some { q with elems := es }

/-- A result in flight is one of the thread with an index (R59). -/
def Flight.holds (f : Flight) (i : Nat) : Bool := f.of.isEmpty || f.of.any fun x => decide (x.1 ≤ i) && decide (i < x.2)

/-- A result in flight named with the range of indices whose it is. -/
def Flight.within (lo hi : Nat) (f : Flight) : Flight := if f.of.isEmpty then { f with of := [(lo, hi)] } else f

/-- A result in flight as the part [lo, hi) of a span has it. -/
def Flight.clip (lo hi : Nat) (f : Flight) : Option Flight :=
  if f.of.isEmpty then some f
  else match (f.of.map fun x => (max lo x.1, min hi x.2)).filter fun x => decide (x.1 < x.2) with
    | [] => none
    | rs => some { f with of := if (rs.map fun x => x.2 - x.1).foldl (· + ·) 0 = hi - lo then [] else rs }

/-- Results in flight of the threads of a span [lo, hi) as the span holds them: each with the indices whose it is. -/
def gatherFlights (lo hi : Nat) (fs : List Flight) : List Flight :=
  (fs.foldl (fun (acc : List Flight) f =>
    let same (x : Flight) : Bool := x.isPred == f.isPred && x.num == f.num && x.left == f.left && x.stale == f.stale
    if acc.any same then acc.map fun x => if same x then { x with of := x.of ++ f.of } else x else acc ++ [f]) []).filterMap (Flight.clip lo hi)

/-- The part [lo, hi) of a span as a span of its own (R27): forms rebased, cuts normalised, the stack copied. -/
def Grp.part (g : Grp) (gid lo hi : Nat) (u : ISet) : Grp :=
  { g with
    gid := gid, lo := lo, hi := hi
    regs := g.regs.map (RegCell.rebase (lo - g.lo))
    preds := g.preds.map fun c => match c.kind with
      | .cut x => { c with kind := .cut (x.norm lo hi) }
      | _ => c
    units := [u]
    lanes := g.lanes.map fun l => { l with flight := l.flight.filterMap (Flight.clip lo hi) }
    stq := g.stq.filterMap (SqEntry.only fun i => decide (lo ≤ i) && decide (i < hi)) }

/-- The windows a span touches (R29). -/
def Grp.windows (g : Grp) : List Nat := upto (g.lo / 32) ((g.hi - 1) / 32 + 1 - g.lo / 32)

/-- The live lanes of a span in a window (R29). -/
def Grp.windowLanes (g : Grp) (w : Nat) : List Nat :=
  (upto 0 32).filter fun l => decide (g.lo ≤ 32 * w + l) && decide (32 * w + l < g.hi)

/-- The sheaf of window w of an expanding span (R29). -/
def Grp.sheaf (g : Grp) (gid w : Nat) (u : ISet) : Grp :=
  let ls := g.windowLanes w
  let m := maskOf ls
  { g with
    gid := gid, span := false, lo := 32 * w, hi := 32 * w + 32
    regs := g.regs.map fun c =>
      let c' := c.rebaseI ((32 * w : Int) - g.lo)
      { c' with rel := if c.rel = 0 then 0 else m }
    preds := g.preds.map fun c =>
      let k : PredKind := match c.kind with
        | .cut x => .bits (maskOf (ls.filter fun l => x.at (32 * w + l)))
        | .bits b => .bits b
      ⟨k, if c.rel = 0 then 0 else m⟩
    units := [{ u with lanes := m }]
    lanes := match g.lanes with
      | x :: _ => ls.map fun l =>
          { x with lane := l, flight := (x.flight.filter fun f => f.holds (32 * w + l)).map fun f => { f with of := [] } }
      | [] => []
    stq := g.stq.filterMap (SqEntry.only fun i => i / 32 == w) }

/-! ### Undefined values and releases -/

/-- Make a register hold undefined values for the threads of a mask: in a span a form of free base and stride, in a
sheaf free lane values (R8, R56, R59; log 3, DESIGN CHOICE, log 9, DEDUCED). -/
def Grp.undef (g : Grp) (r : Nat) (mask : W32) (nonce : Nat) : Grp :=
  let rel := (g.cell r).rel
  let g := g.unpair r
  if g.span then
    g.setCell r { kind := .f32 (lo64 (Config.freeWord nonce)) (hi64 (Config.freeWord nonce)), rel := rel }
  else
    let old := g.lanesVals r
    g.setCell r
      { kind := .e false ((upto 0 32).map fun l =>
          if bit mask.toNat l then lo64 (Config.freeWord (nonce + l)) else nth old l 0)
        rel := rel }

/-- Make a predicate hold undefined values for the threads of a mask. -/
def Grp.pundef (g : Grp) (p : Nat) (mask : W32) (nonce : Nat) : Grp :=
  let f := Config.freeWord nonce
  let old := g.pcell p
  match old.kind with
  | .cut _ =>
    let k := g.lo + (f.toNat / 4) % (g.hi - g.lo + 1)
    let c := if bit f.toNat 0 then Cut.below k else .atOrAbove k
    { g with preds := g.preds.set p { old with kind := .cut (c.norm g.lo g.hi) } }
  | .bits b => { g with preds := g.preds.set p { old with kind := .bits ((b &&& ~~~mask) ||| (lo64 f &&& mask)) } }

/-- Release a register for a unit (R55): a strict subset makes it E. -/
def Grp.release (g : Grp) (u : ISet) (r : Nat) : Grp :=
  if g.span then g.setCell r { g.cell r with rel := 1 }
  else if u.lanes == g.live then g.setCell r { g.cell r with rel := (g.cell r).rel ||| u.lanes }
  else
    let g := g.unpair r
    let c := g.cell r
    let k := match c.kind with
      | .e w vs => RegKind.e w vs
      | _ => .e false (g.lanesVals r)
    g.setCell r { kind := k, rel := c.rel ||| u.lanes }

/-- Release a predicate for a unit (R37). -/
def Grp.prelease (g : Grp) (u : ISet) (p : Nat) : Grp :=
  let c := g.pcell p
  { g with preds := g.preds.set p { c with rel := c.rel ||| u.lanes } }

end Sys2Proof.Machine
end

