-- ==== Sys2Proof/Machine/Access.lean ====
section
/-! DEFINITION. Finding and replacing the parts of a state: blocks, launches, cores, groups; the geometry of dies,
partitions and cores (R1, R2, R31, R304); the fields of launch records (R314); and the environment of the agent whose
word executes. -/

namespace Sys2Proof.Machine

/-! ### Geometry -/

/-- The die of a core number: compute cores 0–191, control core c as 192 + c (R2, R302). -/
def coreDie (n : Nat) : Nat := if n < Config.cores then n / Config.coresPerDie else (n - Config.cores) / 2

/-- Dies per partition (R304, R379). -/
def State.diesPer (s : State) : Nat := 4 / 2 ^ s.partcfg.toNat

/-- The partition of a die (R304). -/
def State.partOf (s : State) (die : Nat) : Nat := die / s.diesPer

/-- The dies of a partition (R304). -/
def State.partDies (s : State) (p : Nat) : List Nat := upto (s.diesPer * p) s.diesPer

/-! ### Launch records (R314) -/

/-- A field of the launch record. -/
def Launch.fld (l : Launch) (hi lo : Nat) : Nat := bits l.record.toNat hi lo

/-- Block size B. -/
def Launch.b (l : Launch) : Nat := l.fld 458 448

/-- Index count N. -/
def Launch.n (l : Launch) : Nat := l.fld 127 64

/-- Bytes of a swap slot's areas, in order (R321, R344): scratchpad, registers, tiles, operand buffers, satchel, block
state. -/
def Launch.areas (l : Launch) : List Nat :=
  [cdiv (l.fld 543 512) 32 * 32, cdiv (l.fld 458 448) 32 * 128 * l.fld 465 459, 20480 * l.fld 470 466,
    256 * l.fld 618 608, l.satchel, 65536]

/-- Bytes Z of a swap slot (R321). -/
def Launch.z (l : Launch) : Nat := cdiv (l.areas.foldl (· + ·) 0) 65536 * 65536

/-- The address of swap slot i (R321). -/
def Launch.slotAt (l : Launch) (i : Nat) : Nat := l.fld 831 768 + i * l.z

/-- The swap slot a block is saved in. -/
def BSt.slot? : BSt → Option Nat
  | .swapped i _ => some i
  | .preempted i => some i
  | _ => none

/-- Blocks of the launch (R13). -/
def Launch.blocks (l : Launch) : Nat := cdiv l.n l.b

/-- Registers per thread G (R44). -/
def Launch.g (l : Launch) : Nat := l.fld 465 459

/-- Tiles T per partition (R52). -/
def Launch.tiles (l : Launch) : Nat := l.fld 470 466

/-- Scratchpad bytes S, rounded up to a multiple of 32 (R86). -/
def Launch.s (l : Launch) : Nat := cdiv (l.fld 543 512) 32 * 32

/-- Private bytes P per index (R86). -/
def Launch.p (l : Launch) : Nat := l.fld 592 576

/-- Operand-buffer units per partition (R314). -/
def Launch.obuf (l : Launch) : Nat := l.fld 618 608

/-- Progress class: 0 weakly parallel, 1 parallel, 2 concurrent (R43). -/
def Launch.progress (l : Launch) : Nat := l.fld 475 474

/-- Blocks may be relaunched from their start (R111). -/
def Launch.idem (l : Launch) : Bool := bit l.record.toNat 476

/-- A launch stages its global writes in satchels (R136, R139). -/
def Launch.staged (l : Launch) : Bool := l.mode != .normal

/-- A dual or triple launch (R139). -/
def Launch.redundant (l : Launch) : Bool := l.mode == .dual || l.mode == .triple

/-- Replicas of the effective mode (R316). -/
def Mode.replicas : Mode → Nat
  | .normal => 1
  | .deterministic => 1
  | .dual => 2
  | .triple => 3

/-- Role group n of a record: start and end offsets and role (R314), if valid. -/
def Launch.group? (l : Launch) (n : Nat) : Option (Nat × Nat × Nat) :=
  let f := l.fld (32 * n + 671) (32 * n + 640)
  if bit f 24 then some (bits f 10 0, bits f 21 11, bits f 23 22) else none

/-- The role code of a block-relative offset (R15). -/
def Launch.roleAt (l : Launch) (off : Nat) : Nat :=
  match (upto 0 4).filterMap (fun n => (l.group? n).filter fun g => decide (g.1 ≤ off) && decide (off < g.2.1)) with
  | g :: _ => g.2.2
  | [] => 0

/-- First index of block b and one past its last (R13). -/
def Launch.blockRange (l : Launch) (num : Nat) : Nat × Nat := (num * l.b, min ((num + 1) * l.b) l.n)

/-! ### Finding and replacing -/

/-- A block by identity. -/
def State.block? (s : State) (bid : Nat) : Option Block := s.blocks.find? (·.bid == bid)

/-- Replace a block. -/
def State.setBlock (s : State) (b : Block) : State := { s with blocks := mapIf (·.bid == b.bid) (fun _ => b) s.blocks }

/-- Change a block. -/
def State.onBlock (s : State) (bid : Nat) (f : Block → Block) : State :=
  { s with blocks := mapIf (·.bid == bid) f s.blocks }

/-- A launch by identity. -/
def State.launch? (s : State) (lid : Nat) : Option Launch := s.launches.find? (·.lid == lid)

/-- Change a launch. -/
def State.onLaunch (s : State) (lid : Nat) (f : Launch → Launch) : State :=
  { s with launches := mapIf (·.lid == lid) f s.launches }

/-- A trap context in use by identity. -/
def State.trap? (s : State) (tid : Nat) : Option TrapCtx := s.traps.find? (·.tid == tid)

/-- A control core. -/
def State.cc? (s : State) (c : Nat) : Option CCore := s.ccs.find? (·.num == c)

/-- Change a control core. -/
def State.onCc (s : State) (c : Nat) (f : CCore → CCore) : State := { s with ccs := mapIf (·.num == c) f s.ccs }

/-- A core: an unlisted one holds nothing. -/
def State.core (s : State) (n : Nat) : Core :=
  (s.cores.find? (·.num == n)).getD { num := n, point := [], lcache := [], fcache := [], runq := [] }

/-- Replace a core. -/
def State.setCore (s : State) (c : Core) : State :=
  if s.cores.any (·.num == c.num) then { s with cores := mapIf (·.num == c.num) (fun _ => c) s.cores }
  else { s with cores := insKey (·.num) c s.cores }

/-- A die. -/
def State.die (s : State) (d : Nat) : Die := nth s.dies d (Die.init d)

/-- Change a die. -/
def State.onDie (s : State) (d : Nat) (f : Die → Die) : State := { s with dies := mapIf (·.num == d) f s.dies }

/-- A queue's registers: an unlisted queue is at reset (R310). -/
def State.queue (s : State) (q : Nat) : QReg :=
  (s.queues.find? (·.num == q)).getD
    { num := q, qbase := 0, post := 0, done := 0, qerr := 0, qlog := 0, enable := false, recs := [] }

/-- Replace a queue's registers. -/
def State.setQueue (s : State) (q : QReg) : State :=
  if s.queues.any (·.num == q.num) then { s with queues := mapIf (·.num == q.num) (fun _ => q) s.queues }
  else { s with queues := insKey (·.num) q s.queues }

/-- Change a partition's translation registers. -/
def State.onXreg (s : State) (p : Nat) (f : XReg → XReg) : State :=
  { s with xregs := (s.xregs.zip (upto 0 s.xregs.length)).map fun x => if x.2 == p then f x.1 else x.1 }

/-- Change a partition's launch control block. -/
def State.onLctl (s : State) (p : Nat) (f : LCtl → LCtl) : State :=
  { s with lctls := (s.lctls.zip (upto 0 s.lctls.length)).map fun x => if x.2 == p then f x.1 else x.1 }

/-- Change a partition's debug units. -/
def State.onDbg (s : State) (p : Nat) (f : Dbg → Dbg) : State :=
  { s with dbg := (s.dbg.zip (upto 0 s.dbg.length)).map fun x => if x.2 == p then f x.1 else x.1 }

/-! ### Groups and units -/

/-- The unit that holds a lane; a span's unit stands under lane 0. -/
def Grp.unitAt (g : Grp) (lane : Nat) : Option ISet := g.units.find? fun u => bit u.lanes.toNat lane

/-- Replace the unit that has these lanes. -/
def Grp.setUnit (g : Grp) (u : ISet) : Grp := { g with units := mapIf (·.lanes == u.lanes) (fun _ => u) g.units }

/-- The positions of a unit's members, ascending (R35). -/
def Grp.members (g : Grp) (u : ISet) : List Nat := if g.span then upto 0 (g.hi - g.lo) else lanesOf u.lanes

/-- The state of a position's thread: a span has one for all. -/
def Grp.lane (g : Grp) (pos : Nat) : LaneSt :=
  (g.lanes.find? fun l => l.lane == (if g.span then 0 else pos)).getD
    { lane := pos, stack := [], fpctl := 0, flight := [] }

/-- Change the lane states of a unit's members. -/
def Grp.onLanes (g : Grp) (u : ISet) (f : LaneSt → LaneSt) : Grp :=
  { g with lanes := mapIf (fun l => bit u.lanes.toNat l.lane) f g.lanes }

/-- Which lane of a group names a unit: its lowest. -/
def ISet.low (u : ISet) : Nat := least 0 (lanesOf u.lanes)

/-! ### The acting agent -/

/-- Privilege levels (R294). -/
inductive Level where
  | kernel | trap | control
deriving DecidableEq, Repr

/-- What a word executes with: the acting group and unit, its level, and where it runs; `bid` is 0 and `idx0` the
core's number on a control core. `view` is the group as the word reads it: registers whose value is undefined hold
free values there (R56, R59). -/
structure Env where
  who : Who
  level : Level
  grp : Grp
  view : Grp
  unit : ISet
  bid : Nat
  core : Nat
  die : Nat
  ppart : Nat
  part : Nat
  ctx : Option Ctx
  launch : Option Launch
  num : Nat
  check : Bool
  ftv : Nat
  g : Nat
deriving DecidableEq, Repr

/-- A control core or a control core's handler: one thread, every register uniform (R192). -/
def Env.solo (e : Env) : Bool := match e.who with
  | .cc _ => true
  | .ccHand _ => true
  | _ => false

/-- The word runs in a trap context. -/
def Env.inTrap (e : Env) : Bool := match e.who with
  | .hand _ _ _ => true
  | .ccHand _ => true
  | _ => false

/-- The index of a position: control core c's single thread is kept under c, and its index reads 0 (R192). -/
def Env.idx (e : Env) (pos : Nat) : Nat := if e.solo then e.core - Config.cores else e.grp.lo + pos

/-- The positions of the acting members; a control core's thread stands at position 0. -/
def Env.members (e : Env) : List Nat := if e.solo then [0] else e.grp.members e.unit

/-- The lowest acting position. -/
def Env.first (e : Env) : Nat := if e.grp.span || e.solo then 0 else e.unit.low

/-- The number of acting members. -/
def Env.count (e : Env) : Nat := if e.grp.span then e.grp.hi - e.grp.lo else popc 32 e.unit.lanes.toNat

/-- The unit is the sheaf's whole live set, or a span (R33). -/
def Env.whole (e : Env) : Bool := e.grp.span || e.unit.lanes == e.grp.live

/-- The partition of its core a window of a block runs on (R31). -/
def partOfWindow (l : Launch) (num w : Nat) : Nat := ((w + 4 - (num * l.b / 32) % 4) % 4)

/-- The environment of a group of a block. -/
def State.kernEnv (s : State) (who : Who) (b : Block) (l : Launch) (g : Grp) (u : ISet) : Env :=
  { who := who, level := .kernel, grp := g, view := g, unit := u, bid := b.bid, core := b.core
    die := coreDie b.core, ppart := s.partOf (coreDie b.core), part := partOfWindow l b.num (g.lo / 32)
    ctx := some l.ctx, launch := some l, num := b.num, check := l.ctx.check, ftv := l.ftv, g := l.g }

/-- The environment of a control core's group. -/
def State.ccEnv (s : State) (who : Who) (c : CCore) (g : Grp) (u : ISet) : Env :=
  { who := who, level := .control, grp := g, view := g, unit := u, bid := 0, core := Config.cores + c.num
    die := c.num / 2, ppart := s.partOf (c.num / 2), part := 0, ctx := c.ctx, launch := none, num := 0
    check := (c.ctx.map (·.check)).getD false, ftv := (c.ctx.map (·.ftv)).getD 1, g := 64 }

/-- The environment of an agent, if it exists. -/
def State.env? (s : State) (w : Who) : Option Env :=
  match w with
  | .kern bid gid lane => do
    let b ← s.block? bid
    let l ← s.launch? b.lid
    let g ← b.groups.find? (·.gid == gid)
    let u ← g.unitAt lane
    if b.st == .running then some (s.kernEnv w b l g u) else none
  | .hand tid gid lane => do
    let t ← s.trap? tid
    let b ← s.block? t.bid
    let l ← s.launch? b.lid
    let g ← t.groups.find? (·.gid == gid)
    let u ← g.unitAt lane
    some { s.kernEnv w b l g u with level := .trap, g := 16 }
  | .cc c => do
    let k ← s.cc? c
    let u ← k.grp.unitAt 0
    some (s.ccEnv w k k.grp u)
  | .ccHand c => do
    let k ← s.cc? c
    let t ← k.trap
    let g ← t.groups.head?
    let u ← g.unitAt 0
    some { s.ccEnv w k g u with level := .trap, g := 16 }

/-- Put groups in the place of the acting one. -/
def State.putGrps (s : State) (w : Who) (gs : List Grp) : State :=
  let sub (gid : Nat) (l : List Grp) : List Grp := l.flatMap fun x => if x.gid == gid then gs else [x]
  match w with
  | .kern bid gid _ => s.onBlock bid fun b => { b with groups := sub gid b.groups }
  | .hand tid gid _ =>
    { s with traps := mapIf (·.tid == tid) (fun t => { t with groups := sub gid t.groups }) s.traps }
  | .cc c => match gs with
    | g :: _ => s.onCc c fun k => { k with grp := g }
    | [] => s
  | .ccHand c => s.onCc c fun k => { k with trap := k.trap.map fun t => { t with groups := gs } }

/-- Change the groups of a block or a trap context that satisfy a test. -/
def State.onGrp (s : State) (w : Who) (f : Grp → Grp) : State :=
  match w with
  | .kern bid gid _ => s.onBlock bid fun b => { b with groups := mapIf (·.gid == gid) f b.groups }
  | .hand tid gid _ =>
    { s with traps := mapIf (·.tid == tid) (fun t => { t with groups := mapIf (·.gid == gid) f t.groups }) s.traps }
  | .cc c => s.onCc c fun k => { k with grp := f k.grp }
  | .ccHand c => s.onCc c fun k => { k with trap := k.trap.map fun t => { t with groups := t.groups.map f } }

/-- Change the unit an agent names. -/
def State.onUnit (s : State) (w : Who) (f : ISet → ISet) : State :=
  let lane := match w with
    | .kern _ _ l => l
    | .hand _ _ l => l
    | _ => 0
  s.onGrp w fun g => { g with units := mapIf (fun u => bit u.lanes.toNat lane) f g.units }

/-- What an agent is doing. -/
def State.stat? (s : State) (w : Who) : Option Stat := (s.env? w).map (·.unit.stat)

/-- A fresh identity. -/
def State.fresh (s : State) : Nat × State := (s.nextId, { s with nextId := s.nextId + 1 })

/-- Use up n numbers of the counter behind the free values; the first is `s.free`. -/
def State.spend (s : State) (n : Nat) : State := { s with free := s.free + n }

/-- Every unit of a block, as agents. -/
def Block.whos (b : Block) : List Who := b.groups.flatMap fun g => g.units.map fun u => .kern b.bid g.gid u.low

/-- Every unit of a trap context's handler, as agents. -/
def TrapCtx.whos (t : TrapCtx) : List Who := t.groups.flatMap fun g => g.units.map fun u => .hand t.tid g.gid u.low

end Sys2Proof.Machine
end

