-- ==== Sys2Proof/Machine/Phys.lean ====
section
/-! DEFINITION. Physical addresses: the windows of the package (R89, R375), what lies in them (memory, the on-chip map
of R107, the device registers of R310, R330, R341, R379, R382), reading and writing at the home, and what a write to a
register starts. -/

namespace Sys2Proof.Machine

/-- The windows of the physical map (R89, R375). -/
inductive Win where
  | near | far | onChip | peer | host | regs | none
deriving DecidableEq, Repr

/-- First address of the on-chip map (R89). -/
def onChipBase : Nat := 0xFF00000000000

/-- First address of the device register window (R375). -/
def regsBase : Nat := 0xFF10000000000

/-- Which window an address lies in. -/
def winOf (a : Nat) : Win :=
  if a < 0x1000000000 then .near
  else if 0x10000000000 ≤ a ∧ a < 0x20000000000 then .far
  else if 0x2000000000000 ≤ a ∧ a < 0xA000000000000 then .peer
  else if 0xA000000000000 ≤ a ∧ a < 0xB000000000000 then .host
  else if onChipBase ≤ a ∧ a < onChipBase + 0xC0000000 then .onChip
  else if regsBase ≤ a ∧ a < regsBase + 0x58100 then .regs
  else .none

/-- A block of the device register window (R375). -/
inductive RegBlk where
  | queue (q : Nat)
  | xlate (p : Nat)
  | lctl (p : Nat)
  | bring
  | mgmt (d : Nat)
  | mailbox
  | none
deriving DecidableEq, Repr

/-- The register block at an offset of the window, and the offset within it (R375). -/
def regBlk (o : Nat) : RegBlk × Nat :=
  if o < 0x20000 then (.queue (o / 64), o % 64)
  else if o < 0x24000 ∧ o % 0x1000 < 24 then (.xlate (o / 0x1000 % 16), o % 0x1000)
  else if 0x30000 ≤ o ∧ o < 0x34000 ∧ o % 0x1000 < 32 then (.lctl (o / 0x1000 % 16), o % 0x1000)
  else if 0x40000 ≤ o ∧ o < 0x40008 then (.bring, o % 0x1000)
  else if 0x50000 ≤ o ∧ o < 0x54000 ∧ o % 0x1000 < 64 then (.mgmt (o / 0x1000 % 16), o % 0x1000)
  else if 0x58000 ≤ o ∧ o < 0x58100 then (.mailbox, o % 0x1000)
  else (.none, 0)

/-- The die whose memory, core or port an address belongs to (R89, R107). -/
def dieOf (a : Nat) : Nat :=
  match winOf a with
  | .near => a / 2 ^ 34
  | .far => (a - 0x10000000000) / 2 ^ 38
  | .onChip => (a - onChipBase) / 0x1000000 / Config.coresPerDie
  | _ => 0

/-- A byte lies in a die's satchel area (R380). -/
def State.inSatchelArea (s : State) (a : Nat) : Bool :=
  s.mgmt.any fun m => decide (m.satbase.toNat ≤ a) && decide (a < m.satbase.toNat + 0x4000000 * m.satsize.toNat)

/-- A partition may reach the address through a translation (R305, R375, R380). -/
def State.paOk (s : State) (p a : Nat) : Bool :=
  match winOf a with
  | .near => s.partOf (dieOf a) == p && !s.inSatchelArea a
  | .far => s.partOf (dieOf a) == p
  | .onChip => s.partOf (dieOf a) == p
  | .peer => true
  | .host => true
  | .none => false
  | .regs =>
    match (regBlk (a - regsBase)).1 with
    | .queue q => s.partOf (q / 512) == p
    | .xlate n => n == p
    | .lctl n => n == p
    | .mgmt d => s.partOf d == p
    | .bring => true
    | .mailbox => true
    | .none => false

/-- The die that homes an address: of the near stack, or by hash among the partition's dies for far memory (R89,
R305). -/
def State.homeDie (s : State) (a : Nat) : Nat :=
  match winOf a with
  | .far =>
    let ds := s.partDies (s.partOf (dieOf a))
    nth ds (Config.farHomeDie (a / 64) % ds.length) 0
  | _ => dieOf a

/-- DRAM: the windows whose bytes are memory. -/
def isDram (a : Nat) : Bool := match winOf a with
  | .near => true
  | .far => true
  | _ => false

/-- The peer and host windows: an access travels the fabric (R375, R376). -/
def isFabric (a : Nat) : Bool := match winOf a with
  | .peer => true
  | .host => true
  | _ => false

/-! ### The fabric's view (R375 to R377) -/

/-- The partition that has a fabric identity (R379). -/
def State.partOfFid (s : State) (fid : Nat) : Option Nat :=
  (upto 0 (4 / s.diesPer)).find? fun p => (nth s.mgmt ((s.partDies p).headD 0) ⟨0, 0, 0, 0⟩).fid.toNat == fid

/-- What a fabric offset reaches (R377). -/
def fabricAddr (o : Nat) : Option Nat :=
  if o < 0x1000000000 then some o
  else if 0xF000000000 ≤ o ∧ o < 0xF001000000 then some (regsBase + (o - 0xF000000000))
  else if 0x10000000000 ≤ o ∧ o < 0x20000000000 then some o
  else none

/-- A store whose completion is an answer over the fabric: the peer and host windows, and a management block, which
answers every write from inside the package with an error completion (R376, R379). -/
def answersOnly (a : Nat) : Bool :=
  isFabric a || (winOf a == .regs && (match (regBlk (a - regsBase)).1 with
    | .mgmt _ => true
    | _ => false))

/-- A partition serves an address to the fabric: its own memory, its part of the register window; a management block takes
no write (R375, R376, R379). -/
def State.serves (s : State) (p a : Nat) (write : Bool) : Bool :=
  match winOf a with
  | .near => s.partOf (dieOf a) == p
  | .far => s.partOf (dieOf a) == p
  | .regs => s.paOk p a && !(write && answersOnly a)
  | _ => false

/-- Where n bytes at a fabric offset of a partition lie, if it serves them all (R376, R377). -/
def State.servedAt (s : State) (p o n : Nat) (write : Bool) : Option Nat :=
  match fabricAddr o, fabricAddr (o + n - 1) with
  | some a, some z => if n ≠ 0 ∧ z = a + n - 1 ∧ (upto a n).all (fun x => s.serves p x write) then some a else none
  | _, _ => none

/-- First address of the peer window (R375). -/
def peerBase : Nat := 0x2000000000000

/-- The partition of this package whose fabric identity a peer address names, and the fabric offset (R375). -/
def State.sibling (s : State) (a : Nat) : Option (Nat × Nat) :=
  if winOf a = .peer then (s.partOfFid ((a - peerBase) / 2 ^ 41)).map fun p => (p, (a - peerBase) % 2 ^ 41) else none

/-- A function of the package has passed its self-test (R382). -/
def BringUp.up (b : BringUp) (n : Nat) : Bool := bit b.ready.toNat n

/-- What lies between a die and an address has passed its self-test (R382): the memory, the die links, the ports. -/
def State.usable (s : State) (die a : Nat) : Bool :=
  match winOf a with
  | .near => s.bring.up 1 && (dieOf a == die || s.bring.up 3)
  | .far => s.bring.up 2 && (s.homeDie a == die || s.bring.up 3)
  | .onChip => dieOf a == die || s.bring.up 3
  | .peer => s.bring.up 4
  | .host => s.bring.up 4
  | _ => true

/-! ### The on-chip map (R107) -/

/-- The block of a core whose grant of `size b` units from `base b` holds unit n. -/
def State.resident (s : State) (core : Nat) (base size : Block → Nat) (n : Nat) : Option Block :=
  s.blocks.find? fun b => b.core == core && b.st == .running && decide (base b ≤ n) && decide (n < base b + size b)

/-- Scratchpad bytes granted to a block. -/
def State.spadSize (s : State) (b : Block) : Nat := ((s.launch? b.lid).map Launch.s).getD 0

/-- An element of a tile as it stands: an unlisted one is zero, or an undefined value (R52, log 3, DESIGN CHOICE). -/
def Tile.elem (t : Tile) (e : Nat) : W40 :=
  match t.elems.find? (·.1 == e) with
  | some x => x.2
  | none => match t.undef with
    | some n => BitVec.ofNat 40 (Config.freeWord (n + e)).toNat
    | none => 0

/-- Set an element of a tile, in ascending order of elements. -/
def Tile.setElem (t : Tile) (e : Nat) (v : W40) : Tile :=
  { t with elems := insKey (·.1) (e, v) (t.elems.filter (·.1 != e)) }

/-- The tile behind accumulator memory of a partition, by physical number. -/
def State.tileOf (s : State) (core q t : Nat) : Option (Block × Nat) :=
  (s.resident core (·.tileBase) (fun b => (nth b.parts q ⟨[], [], [], 0, []⟩).tiles.length) t).map
    fun b => (b, t - b.tileBase)

/-- An offset of a core's window in its register files, whose layout the manual leaves open (R107) (log 15, DEDUCED). -/
def chipFiles (o : Nat) : Bool := decide (0x200000 ≤ o) && decide (o < 0x300000)

/-- An offset of a core's window in its partition and block state, whose layout the manual leaves open (R107) (log 15, DEDUCED). -/
def chipOpen (o : Nat) : Bool := decide (0x3C0000 ≤ o) && decide (o < 0x3D0000)

/-- What a register cell holds, as numbers. -/
def RegCell.held (r : RegCell) : List Nat := r.rel.toNat :: (match r.kind with
  | .f32 b t => [0, b.toNat, t.toNat]
  | .f64 b t => [1, b.toNat, t.toNat]
  | .f64hi => [2]
  | .e w vs => 3 :: (if w then 1 else 0) :: vs.map (·.toNat))

/-- What the register files of a core hold, and for which groups, as numbers. -/
def State.chipHeld (s : State) (core : Nat) : List Nat :=
  (s.blocks.filter fun b => b.core == core && b.st == .running).flatMap fun b => b.num :: b.groups.flatMap fun g =>
    [g.gid, g.lo, g.hi, if g.held then 1 else 0] ++ g.regs.flatMap RegCell.held

/-- A group whose registers have changed in a way the manual does not state: undefined values. -/
def Grp.scrambled (nonce : Nat) (g : Grp) : Grp :=
  let v (r i : Nat) : W32 := BitVec.ofNat 32 (Config.freeWord (nonce + 32 * r + i)).toNat
  { g with regs := (upto 0 g.regs.length).map fun r =>
      ⟨if g.span then .f32 (v r 0) (v r 1) else .e false ((upto 0 32).map (v r)), 0⟩ }

/-- What a block holds in partition q where its state has changed in a way the manual does not state: tiles and reservation
records of undefined values, numbered from n. -/
def Part.scrambled (n q : Nat) (p : Part) : Part :=
  { p with
    tiles := ((upto 0 p.tiles.length).zip p.tiles).map fun x =>
      { x.2 with undef := some (n + 1024 * (16 * q + x.1)), elems := [] }
    resv := ((upto 0 p.resv.length).zip p.resv).map fun x => x.2.map fun v =>
      { v with record := (upto 0 4).foldl (fun (a : BitVec 256) k =>
          (a <<< 64) ||| BitVec.setWidth 256 (Config.freeWord (n + 64 * q + 4 * x.1 + k))) 0 } }

/-- A block's registers, tiles and reservations hold undefined values, numbered from m and from n. -/
def Block.unsettled (n m : Nat) (b : Block) : Block :=
  { b with
    groups := b.groups.map fun (g : Grp) => g.scrambled (m + 2 ^ 13 * g.gid)
    parts := ((upto 0 b.parts.length).zip b.parts).map fun x => x.2.scrambled (n + 2 ^ 17 * b.bid) x.1 }

/-- A byte is written in a core's partition and block state: what of its blocks it changes the manual does not state, so all
they hold there is undefined from then on (R107) (log 15, DEDUCED). -/
def State.stateWrite (s : State) (core : Nat) : State :=
  { s with
    free := s.free + 2 ^ 18 * s.nextId
    blocks := mapIf (fun (b : Block) => b.core == core && b.st == .running)
      (Block.unsettled s.free (s.free + 2 ^ 17 * s.nextId)) s.blocks }

/-- A byte is written in a core's register files: which register it changes the manual does not state, so all of its
groups' registers hold undefined values from then on (R107) (log 15, DEDUCED). -/
def State.filesWrite (s : State) (core : Nat) : State :=
  { s with
    free := s.free + 2 ^ 13 * s.nextId
    blocks := mapIf (fun (b : Block) => b.core == core && b.st == .running) (fun b =>
      { b with groups := b.groups.map fun (g : Grp) => g.scrambled (s.free + 2 ^ 13 * g.gid) }) s.blocks }

/-- A byte of the on-chip map: of the block it has been granted to, or as it was last written (log 91, DESIGN CHOICE). -/
def State.chipRead (s : State) (a : Nat) : Byte :=
  let core := (a - onChipBase) / 0x1000000
  let o := (a - onChipBase) % 0x1000000
  if o < 0x180000 then
    match s.resident core (·.spadBase) s.spadSize o with
    | some b => b.spad.read (o - b.spadBase)
    | none => s.chip.read a
  else if o < 0x181800 then
    BitVec.ofNat 8 ((upto 0 8).foldl (fun m i =>
      let sec := 8 * (o - 0x180000) + i
      let pres := match s.resident core (·.spadBase) s.spadSize (32 * sec) with
        | some b => !b.absent.any fun x => x.1 == sec - b.spadBase / 32
        | none => !bit (s.chip.read a).toNat i
      if pres then m + 2 ^ i else m) 0)
  else if 0x300000 ≤ o ∧ o < 0x350000 then
    let x := o - 0x300000
    match s.tileOf core (x / 0x14000) (x % 0x14000 / 5120) with
    | some (b, t) =>
      let tile := nth (nth b.parts (x / 0x14000) ⟨[], [], [], 0, []⟩).tiles t ⟨none, false, none, []⟩
      BitVec.ofNat 8 ((tile.elem (x % 5120 / 5)).toNat / 256 ^ (x % 5))
    | none => s.chip.read a
  else if 0x380000 ≤ o ∧ o < 0x3C0000 then
    let x := o - 0x380000
    match s.resident core (·.obufBase) (fun b => ((s.launch? b.lid).map Launch.obuf).getD 0) (x % 0x10000 / 64) with
    | some b => (nth b.parts (x / 0x10000) ⟨[], [], [], 0, []⟩).obuf.read (x % 0x10000 - 64 * b.obufBase)
    | none => s.chip.read a
  else if chipFiles o then Config.chipByte a (s.chipHeld core)
  else if chipOpen o then Config.chipByte a (s.tick :: s.chipHeld core)
  else 0

/-- The check of a 32-byte sector of memory, or of a block's scratchpad in the on-chip map, fails (R110). -/
def State.badAt (s : State) (k : Nat) : Bool :=
  let a := 32 * k
  match winOf a with
  | .near => sectorBad s.sums k
  | .far => sectorBad s.sums k
  | .onChip =>
    let o := (a - onChipBase) % 0x1000000
    if o < 0x180000 then
      match s.resident ((a - onChipBase) / 0x1000000) (·.spadBase) s.spadSize o with
      | some b => sectorBad b.sums ((o - b.spadBase) / 32)
      | none => false
    else false
  | _ => false

/-- Change partition q of a block. -/
def Block.onPart (b : Block) (q : Nat) (f : Part → Part) : Block :=
  { b with parts := (b.parts.zip (upto 0 b.parts.length)).map fun x => if x.2 == q then f x.1 else x.1 }

/-- Change tile t of a partition. -/
def Part.onTile (p : Part) (t : Nat) (f : Tile → Tile) : Part :=
  { p with tiles := (p.tiles.zip (upto 0 p.tiles.length)).map fun x => if x.2 == t then f x.1 else x.1 }

/-! ### Disturbing engine words (R130, R131) -/

/-- The lanes and columns a matrix word updates (R245). -/
def MatReq.elems (m : MatReq) : List Nat :=
  m.rows.flatMap fun r => (if m.diag then [2 * (r.1 / 2), 2 * (r.1 / 2) + 1] else upto 0 32).map fun j => 32 * r.1 + j

/-- n undefined bytes. -/
def freeBytes (nonce n : Nat) : List Byte := (upto nonce n).map fun k => BitVec.ofNat 8 (Config.freeWord k).toNat

/-- Undefined values in elements of a tile. -/
def Tile.freeElems (t : Tile) (nonce : Nat) (es : List Nat) : Tile :=
  es.foldl (fun (t : Tile) e => t.setElem e (BitVec.ofNat 40 (Config.freeWord (nonce + e)).toNat)) t

/-- What a disturbed word has written holds undefined values, and what a SIFT word will write; a matrix word that has not
been performed leaves its tile as it is till then (R130, R131, R245). -/
def Block.spoil (b : Block) (r : EReq) (nonce : Nat) : Block :=
  match r.kind with
  | .matrix m => if r.fin then b.onPart r.part fun p => p.onTile m.tile fun t => t.freeElems nonce m.elems else b
  | .sift op =>
    let b := r.outs.foldl (fun (b : Block) o => { b with spad := b.spad.writeN o.1 (freeBytes (nonce + o.1) o.2) }) b
    match op with
    | .mask m _ _ => b.onPart r.part fun p => { p with masks := p.masks.set m (Config.freeWord nonce) }
    | .clr m _ _ => b.onPart r.part fun p => { p with masks := p.masks.set m (Config.freeWord nonce) }
    | _ => b
  | _ => b

/-- Some use disturbs the engine words of a block that satisfy a test: their results are undefined values from then on
(R130, R131). -/
def State.disturb (s : State) (bid : Nat) (p : EReq → Bool) : State :=
  match s.block? bid with
  | none => s
  | some b =>
    let hits := b.eng.filter p
    if hits.isEmpty then s
    else
      let b := hits.foldl (fun (b : Block) r => b.spoil r (s.free + 2 ^ 22 * r.rid)) b
      let rid := (hits.map (·.rid)).foldl max 0
      (s.setBlock { b with eng := mapIf p (fun (r : EReq) => { r with undef := true }) b.eng }).spend (2 ^ 22 * (rid + 1))

/-- A range of the scratchpad meets one of some ranges. -/
def meetsAny (l : List (Nat × Nat)) (off n : Nat) : Bool := l.any fun x => overlaps off n x.1 x.2

/-- Bytes of a block's scratchpad are written: words that read them are disturbed. -/
def State.touchIns (s : State) (bid off n : Nat) : State := s.disturb bid fun r => meetsAny r.ins off n

/-- Bytes of a block's scratchpad are read: SIFT words that write them are disturbed. -/
def State.touchOuts (s : State) (bid off n : Nat) : State := s.disturb bid fun r => meetsAny r.outs off n

/-- Bytes of a block's scratchpad change. The contents of a live transaction barrier they touch are undefined from then
on (R96) (log 37, DEDUCED). -/
def State.spadPut (s : State) (bid off : Nat) (bytes : List Byte) : State :=
  match s.block? bid with
  | none => s
  | some b =>
    let b := { b with spad := b.spad.writeN off bytes, sums := sumsAfter b.sums off bytes.length }
    let hit := (b.tbs.map (·.1)).filter fun o => overlaps off bytes.length o 16
    if hit.isEmpty then s.setBlock b
    else
      let any (k : Nat) : List Byte := leBytes 8 (Config.freeWord (s.free + k)).toNat
      let pairs := (upto 0 hit.length).zip hit
      (s.setBlock { b with
        tbs := b.tbs.filter fun o => !hit.contains o.1
        spad := pairs.foldl (fun m x => (m.writeN x.2 (any (2 * x.1))).writeN (x.2 + 8) (any (2 * x.1 + 1))) b.spad }).spend
          (2 * hit.length)

/-! ### Writing the on-chip map (R107) -/

/-- Write a byte of the on-chip map. What no running block has been granted keeps it (log 91, DESIGN CHOICE). -/
def State.chipWrite (s : State) (a : Nat) (v : Byte) : State :=
  let core := (a - onChipBase) / 0x1000000
  let o := (a - onChipBase) % 0x1000000
  if o < 0x180000 then
    match s.resident core (·.spadBase) s.spadSize o with
    | some b => s.spadPut b.bid (o - b.spadBase) [v]
    | none => { s with chip := s.chip.write a v }
  else if chipFiles o then s.filesWrite core
  else if chipOpen o then s.stateWrite core
  else if o < 0x181800 then
    (upto 0 8).foldl (fun (s : State) i =>
      let sec := 8 * (o - 0x180000) + i
      match s.resident core (·.spadBase) s.spadSize (32 * sec) with
      | some b =>
        let k := sec - b.spadBase / 32
        let rest := b.absent.filter fun x => x.1 != k
        s.setBlock { b with absent := if bit v.toNat i then rest else insKey (·.1) (k, 1) rest }
      | none =>
        let m : Byte := BitVec.ofNat 8 (2 ^ i)
        { s with chip := s.chip.write a (if bit v.toNat i then s.chip.read a &&& ~~~m else s.chip.read a ||| m) }) s
  else if 0x300000 ≤ o ∧ o < 0x350000 then
    let x := o - 0x300000
    match s.tileOf core (x / 0x14000) (x % 0x14000 / 5120) with
    | some (b, t) => s.setBlock (b.onPart (x / 0x14000) fun p => p.onTile t fun tile =>
        let e := x % 5120 / 5
        let old := (tile.elem e).toNat
        let sh := 256 ^ (x % 5)
        tile.setElem e (BitVec.ofNat 40 (old - old / sh % 256 * sh + v.toNat * sh)))
    | none => { s with chip := s.chip.write a v }
  else if 0x380000 ≤ o ∧ o < 0x3C0000 then
    let x := o - 0x380000
    match s.resident core (·.obufBase) (fun b => ((s.launch? b.lid).map Launch.obuf).getD 0) (x % 0x10000 / 64) with
    | some b => s.setBlock (b.onPart (x / 0x10000) fun p =>
        { p with obuf := p.obuf.write (x % 0x10000 - 64 * b.obufBase) v })
    | none => { s with chip := s.chip.write a v }
  else s

/-- Write bytes of the on-chip map: those that lie in one block's scratchpad at once, as a store of the block's own would
(R96, R110). -/
def State.chipWriteN (s : State) (a : Nat) (bytes : List Byte) : State :=
  let core := (a - onChipBase) / 0x1000000
  let o := (a - onChipBase) % 0x1000000
  match if o + bytes.length ≤ 0x180000 then s.resident core (·.spadBase) s.spadSize o else none with
  | some b =>
    if o + bytes.length ≤ b.spadBase + s.spadSize b then s.spadPut b.bid (o - b.spadBase) bytes
    else ((upto a bytes.length).zip bytes).foldl (fun s x => s.chipWrite x.1 x.2) s
  | none => ((upto a bytes.length).zip bytes).foldl (fun s x => s.chipWrite x.1 x.2) s

/-- A block leaves its core: what its scratchpad and operand buffers hold stays there (R107; log 91, DESIGN CHOICE). -/
def State.leave (s : State) (b : Block) : State :=
  let win := onChipBase + 0x1000000 * b.core
  let base := win + b.spadBase
  let size := s.spadSize b
  let obuf := 64 * ((s.launch? b.lid).map Launch.obuf).getD 0
  let obase (q : Nat) : Nat := win + 0x380000 + 0x10000 * q + 64 * b.obufBase
  let out (x : Host.Cell) : Bool := !(decide (base ≤ x.1) && decide (x.1 < base + size)) &&
    !(upto 0 4).any fun q => decide (obase q ≤ x.1) && decide (x.1 < obase q + obuf)
  let put (m : Memory) (at' n : Nat) (l : Memory) : Memory := (l.filter fun x => decide (x.1 < n)).foldl (fun m x => m.write (at' + x.1) x.2) m
  let parts := (upto 0 b.parts.length).zip b.parts
  let m := put (s.chip.filter out) base size b.spad
  if b.st != .running then s else { s with chip := parts.foldl (fun m x => put m (obase x.1) obuf x.2.obuf) m }

/-! ### The device registers as bytes -/

/-- A queue's register block as a number (R310). -/
def QReg.image (q : QReg) : Nat :=
  q.qbase.toNat * 2 ^ 448 + q.post.toNat * 2 ^ 416 + q.done.toNat * 2 ^ 384 + q.qerr.toNat * 2 ^ 356
    + q.qlog.toNat * 2 ^ 352 + (if q.enable then 2 ^ 351 else 0)

/-- A translation register block as a number (R330). -/
def XReg.image (x : XReg) : Nat := x.rplCtx.toNat * 2 ^ 128 + x.tlbiDone.toNat * 2 ^ 64 + x.tlbi.toNat

/-- A launch control block as a number (R341). -/
def LCtl.image (l : LCtl) : Nat :=
  l.sitePc.toNat * 2 ^ 192 + l.seq.toNat * 2 ^ 128 + l.done.toNat * 2 ^ 96 + l.stat.toNat * 2 ^ 64 + l.op.toNat

/-- A management block as a number; SEALKEY reads as zero (R379). -/
def State.mgmtImage (s : State) (d : Nat) : Nat :=
  let m := nth s.mgmt d ⟨0, 0, 0, 0⟩
  m.satbase.toNat * 2 ^ 320 + m.satsize.toNat * 2 ^ 304 + s.partcfg.toNat * 2 ^ 288 + m.fid.toNat * 2 ^ 272

/-- The bring-up status as a number (R382). -/
def BringUp.image (b : BringUp) : Nat :=
  b.stfail.toNat * 2 ^ 48 + b.dieok.toNat * 2 ^ 32 + (if b.hold then 2 ^ 16 else 0) + b.ready.toNat

/-- A byte of the device register window. -/
def State.regRead (s : State) (o : Nat) : Byte :=
  let (k, j) := regBlk o
  let img := match k with
    | .queue q => (s.queue q).image
    | .xlate p => (nth s.xregs p ⟨0, 0, 0, []⟩).image
    | .lctl p => (nth s.lctls p ⟨0, 0, 0, 0, 0, []⟩).image
    | .bring => s.bring.image
    | .mgmt d => s.mgmtImage d
    | .mailbox => (nth s.mailbox j 0).toNat * 256 ^ j
    | .none => 0
  BitVec.ofNat 8 (img / 256 ^ j)

/-- A byte of the package at its home: memory, the on-chip map, or a register. -/
def State.ownByte (s : State) (a : Nat) : Byte :=
  match winOf a with
  | .near => s.mem.read a
  | .far => s.mem.read a
  | .onChip => s.chipRead a
  | .regs => s.regRead (a - regsBase)
  | _ => Config.farByte a s.tick

/-- A byte at its home; the device's own reads of the peer and host windows get what the other end answers (R375, R377). -/
def State.homeByte (s : State) (a : Nat) : Byte :=
  match s.sibling a with
  | some (p, o) => ((s.servedAt p o 1 false).map s.ownByte).getD (Config.farByte a s.tick)
  | none => s.ownByte a

/-- n bytes at their home. -/
def State.homeBytes (s : State) (a n : Nat) : List Byte := (upto a n).map s.homeByte

/-- A little-endian number of n bytes at its home. -/
def State.homeNat (s : State) (a n : Nat) : Nat := leNat (s.homeBytes a n)

/-- A little-endian number of n bytes that the device reads for a partition at a physical address: the map of the
partition holds its own memory only (R305; log 84, DESIGN CHOICE). -/
def State.partNat (s : State) (p a n : Nat) : Nat :=
  leNat ((upto a n).map fun x => if s.paOk p x then s.homeByte x else Config.farByte x s.tick)

/-! ### What register writes start -/

/-- Wake a halted control core (R197). -/
def State.wake (s : State) (c : Nat) : State := s.onCc c fun k => { k with halted := false }

/-- A queue fails: QERR is set, ENABLE cleared, no further record executed; a program that runs goes on (R311; log 102, DESIGN CHOICE). -/
def State.queueError (s : State) (q code : Nat) : State :=
  s.setQueue { s.queue q with qerr := BitVec.ofNat 4 code, enable := false, recs := [] }

/-- An acquire at die scope or wider drops every line of a core's load and fetch-unit caches (R121). -/
def State.dropCaches (s : State) (core : Nat) : State :=
  s.setCore { s.core core with lcache := [], fcache := [] }

/-- An enabled queue's QLOG is out of range, or more records are posted than its ring holds (R311). -/
def QReg.overrun (r : QReg) : Bool :=
  decide (r.qlog.toNat < 4) || decide (12 < r.qlog.toNat) || decide (2 ^ r.qlog.toNat < (r.post - r.done).toNat)

/-- Where a queue's posted records lie (R311). -/
def QReg.posted (r : QReg) : List Nat :=
  (upto 1 (r.post - r.done).toNat).map fun j => r.qbase.toNat + 64 * ((r.done + BitVec.ofNat 32 j).toNat % 2 ^ r.qlog.toNat)

/-- An enabled queue takes error 1, or the device reads its records from DONE + 1 through POST; what lies between and has not
passed its self-test makes it read them later (R311, R382). -/
def State.queueObserve (s : State) (q : Nat) : State :=
  let r := s.queue q
  if !r.enable then s
  else if r.overrun then s.queueError q 1
  else if r.posted.any fun a => !s.usable (q / 512) a then s.setQueue { r with recs := [] }
  else
    let s := s.dropCaches (Config.cores + q / 256)
    s.setQueue { r with recs := r.posted.map fun a => BitVec.ofNat 512 (s.partNat (s.partOf (q / 512)) a 64) }

/-- A write to POST: the device looks at a change of it (R311). -/
def State.queuePost (s : State) (q : Nat) (v : W32) : State :=
  (if v = (s.queue q).post then s else (s.setQueue { s.queue q with post := v }).queueObserve q).wake (q / 256)

/-- The enabled queues whose posted records the device has still to read, read (R382). -/
def State.queuesAgain (s : State) : State :=
  (s.queues.filter fun r => r.enable && r.recs.length != r.posted.length).foldl (fun (s : State) r => s.queueObserve r.num) s

/-- Drop the TLB entries an invalidation covers (R330): by context and region, by context, or all of a partition. -/
def tlbCovered (p : Nat) (v : W64) (t : TlbE) : Bool :=
  let n := v.toNat
  let ctx := BitVec.ofNat 16 (bits n 63 48)
  t.part == p &&
    (match bits n 47 46 with
     | 0 => t.ctx == ctx && (decide (t.level ≠ 5 ∧ bits t.entry.toNat 1 1 = 1)
              || decide (t.va / 2 ^ 16 = bits n 40 0)
              || (decide (t.level = 2) && decide (t.va / 2 ^ 29 = bits n 40 0 / 2 ^ 13))
              || (decide (t.level = 3) && decide (t.va / 2 ^ 42 = bits n 40 0 / 2 ^ 26))
              || (decide (t.level = 4) && decide (t.va / 2 ^ 55 = bits n 40 0 / 2 ^ 39))
              || decide (t.level = 1 ∧ t.va / 2 ^ 21 = bits n 40 0 / 2 ^ 5 ∧ bits t.entry.toNat 6 6 = 1))
     | 1 => t.ctx == ctx
     | _ => true)

/-- A store to TLBI starts an invalidation; scope 3 is ignored (R330). -/
def State.tlbInvalidate (s : State) (p : Nat) (v : W64) : State :=
  if bits v.toNat 47 46 = 3 then s
  else
    let w := v &&& BitVec.ofNat 64 0xFFFFC1FFFFFFFFFF
    s.onXreg p fun x => { x with tlbi := w, pend := x.pend ++ [w] }

/-- Every group and engine request of a context that waits on a fault of kind 1, 2 or 3 retries (R331). -/
def State.replay (s : State) (p : Nat) (ctx : BitVec 16) : State :=
  let s := s.onXreg p fun x => { x with rplCtx := ctx }
  let mine (b : Block) : Bool := match s.launch? b.lid with
    | some l => l.ctx.ctxid == ctx && l.ctx.part == p
    | none => false
  let unit (u : ISet) : ISet := match u.stat with
    | .dataFault k => if 1 ≤ k ∧ k ≤ 3 then { u with stat := .ready } else u
    | _ => u
  { s with blocks := mapIf mine (fun b =>
      { b with
        groups := b.groups.map fun g => { g with units := g.units.map unit }
        eng := b.eng.map fun r => match r.fault with
          | some k => if 1 ≤ k ∧ k ≤ 3 then { r with fault := none } else r
          | none => r }) s.blocks }

/-- Replace the bytes of a number's image that a write covers. -/
def overlay (img off : Nat) (bytes : List Byte) : Nat :=
  let n := bytes.length
  let lo := img % 256 ^ off
  let hi := img / 256 ^ (off + n)
  lo + leNat bytes * 256 ^ off + hi * 256 ^ (off + n)

/-- Write a queue's registers (R310): RO and reserved fields ignore it, QERR clears by ones, POST and ENABLE act: records
posted before ENABLE are read when it is set (log 103, DESIGN CHOICE). -/
def State.writeQueue (s : State) (q off : Nat) (bytes : List Byte) : State :=
  let r := s.queue q
  let x := overlay r.image off bytes
  let ones := overlay 0 off bytes
  let en := bit x 351
  let r' := { r with
    qbase := BitVec.ofNat 64 (bits x 511 448 / 4096 * 4096)
    qlog := BitVec.ofNat 4 (bits x 355 352)
    qerr := r.qerr &&& ~~~(BitVec.ofNat 4 (bits ones 359 356))
    enable := en }
  let s := s.setQueue r'
  let s := if en && (!r.enable || r'.overrun) then s.queueObserve q else s
  if off < 56 ∧ 52 < off + bytes.length then s.queuePost q (BitVec.ofNat 32 (bits x 447 416)) else s

/-- Write a translation register block (R330). -/
def State.writeXlate (s : State) (p off : Nat) (bytes : List Byte) : State :=
  let x := nth s.xregs p ⟨0, 0, 0, []⟩
  let y := overlay x.image off bytes
  if off = 0 ∧ bytes.length = 8 then s.tlbInvalidate p (BitVec.ofNat 64 y)
  else if off = 16 ∧ bytes.length = 2 then s.replay p (BitVec.ofNat 16 (bits y 143 128))
  else
    let v := BitVec.ofNat 64 (bits y 63 0) &&& BitVec.ofNat 64 0xFFFFC1FFFFFFFFFF
    s.onXreg p fun x => { x with
      tlbi := if bits y 47 46 = 3 then x.tlbi else v
      rplCtx := BitVec.ofNat 16 (bits y 143 128) }

/-- Write a launch control block; a 64-bit store to offset 0 starts an operation (R341). -/
def State.writeLctl (s : State) (p off : Nat) (bytes : List Byte) : State :=
  let y := overlay (nth s.lctls p ⟨0, 0, 0, 0, 0, []⟩).image off bytes
  s.onLctl p fun l =>
    let l := { l with
      sitePc := BitVec.ofNat 64 (bits y 255 192)
      seq := BitVec.ofNat 64 (bits y 191 128)
      op := BitVec.ofNat 2 (bits y 1 0) }
    if off = 0 ∧ bytes.length = 8 ∧ l.op ≠ 0 then { l with pend := l.pend ++ [(l.op.toNat, l.sitePc, l.seq)] } else l

/-- Write one block of the device register window at its home. The bring-up registers ignore writes; a management block
takes none from here (R379). -/
def State.blkWrite (s : State) (o : Nat) (bytes : List Byte) : State :=
  let (k, j) := regBlk o
  match k with
  | .queue q => s.writeQueue q j bytes
  | .xlate p => s.writeXlate p j bytes
  | .lctl p => s.writeLctl p j bytes
  | _ => s

/-- Bytes of the register block at an offset of the window, from that offset on. -/
def blkRoom (o : Nat) : Nat := match regBlk o with
  | (.queue _, j) => 64 - j
  | (.xlate _, j) => 24 - j
  | (.lctl _, j) => 32 - j
  | _ => 1

/-- Write the device register window, block by block, in at most k blocks. -/
def State.regWriteIn : Nat → State → Nat → List Byte → State
  | 0, s, _, _ => s
  | k + 1, s, o, bytes =>
    let n := blkRoom o
    let s := s.blkWrite o (bytes.take n)
    if bytes.length ≤ n then s else State.regWriteIn k s (o + n) (bytes.drop n)

/-- Write the device register window at its home, in ascending order of its blocks (R376; log 86, DEDUCED). -/
def State.regWrite (s : State) (o : Nat) (bytes : List Byte) : State := State.regWriteIn bytes.length s o bytes

/-- A write of n bytes that reaches a context's debug mailbox wakes its halted control cores (R197). -/
def State.mailboxWake (s : State) (a n : Nat) : State :=
  if s.ccs.any (·.halted) then
    { s with ccs := s.ccs.map fun k =>
        match k.ctx with
        | some c => if c.mbox ≠ 0 ∧ overlaps a n c.mbox 4096 = true then { k with halted := false } else k
        | none => k }
  else s

/-- Write bytes of memory at their home, with their sectors' check values (R110). -/
def State.memWrite (s : State) (a : Nat) (bytes : List Byte) : State :=
  ({ s with mem := s.mem.writeN a bytes, sums := sumsAfter s.sums a bytes.length }).mailboxWake a bytes.length

/-- The number under which the device's own writes over the fabric stand. -/
def devIdx : Nat := 2 ^ 20

/-- Write bytes at their home; over the fabric they are sent, and await their acknowledgement (R120, R376). -/
def State.homeWrite (s : State) (a : Nat) (bytes : List Byte) : State :=
  match winOf a with
  | .near => s.memWrite a bytes
  | .far => s.memWrite a bytes
  | .onChip => s.chipWriteN a bytes
  | .regs => s.regWrite (a - regsBase) bytes
  | .none => s
  | _ =>
    let (f, s) := s.fresh
    { s with fabric := s.fabric ++ [⟨f, 0, devIdx, a, 0, true, bytes, bytes.length, false, none, ⟨0, 0, false, none⟩⟩] }

/-- A write by the device that is a release at system scope: the bytes reach their home and their lines leave every
load cache (R120, R298). -/
def State.devWrite (s : State) (a : Nat) (bytes : List Byte) : State :=
  let hit (x : Line) : Bool := overlaps (64 * x.num) 64 a bytes.length
  let s := s.homeWrite a bytes
  { s with cores := s.cores.map fun c => { c with lcache := c.lcache.filter fun x => !hit x } }

/-! ### Rings (R298) -/

/-- A record's bytes, lowest first. -/
def recBytes (n : Nat) (x : Nat) : List Byte := leBytes n x

/-- A write by the device for a partition: what the partition's map does not hold is not written (R305; log 84, DESIGN
CHOICE). -/
def State.partWrite (s : State) (p a : Nat) (bytes : List Byte) : State :=
  if (upto a bytes.length).all (s.paOk p) then s.devWrite a bytes else s

/-- How far a record comes on its way into a ring. -/
inductive Put where
  /-- the ring has no room, another record is on its way, or a write over the fabric is not acknowledged -/
  | stuck
  /-- a part of it is written -/
  | moved (s : State)
  /-- the record and PROD are written -/
  | done (s : State)
deriving DecidableEq, Repr

/-- The state after an attempt. -/
def Put.after (p : Put) (s : State) : State := match p with
  | .stuck => s
  | .moved t => t
  | .done t => t

/-- A write of the device's own among those with some numbers is not acknowledged (R120). -/
def State.unacked (s : State) (lo hi : Nat) : Bool := s.fabric.any fun f => f.write && decide (lo ≤ f.fid) && decide (f.fid < hi)

/-- PROD takes its new value: a release at system scope, so the record is done once what goes over the fabric is acknowledged
(R120, R298). -/
def State.prodPut (s : State) (r : RingW) : Put :=
  let t := { s.partWrite r.part r.prod r.next with rings := s.rings.filter fun x => !(x.part == r.part && x.prod == r.prod) }
  if t.unacked s.nextId t.nextId then .moved { t with rings := t.rings ++ [{ r with made := true, lo := s.nextId, hi := t.nextId }] }
  else .done t

/-- A record goes into a slot of a ring and PROD follows it; `full`: the ring has no room. What goes over the fabric is
acknowledged before the next of the two (R120, R298, R378). -/
def State.slotPut (s : State) (part prod : Nat) (full : Bool) (slot : Nat) (next : List Byte) (size data : Nat) : Put :=
  match s.rings.find? fun x => x.part == part && x.prod == prod with
  | some r =>
    if r.data ≠ data ∨ s.unacked r.lo r.hi = true then .stuck
    else if r.made then .done { s with rings := s.rings.filter fun x => !(x.part == part && x.prod == prod) }
    else s.prodPut r
  | none =>
    if full then .stuck
    else
      let t := s.partWrite part slot (recBytes size data)
      let r : RingW := ⟨part, prod, data, next, false, s.nextId, t.nextId⟩
      if t.unacked r.lo r.hi then .moved { t with rings := t.rings ++ [r] } else t.prodPut r

/-- Write a record to a ring of 2^log slots at `base`, its PROD and CONS words at the given addresses (R298). -/
def State.ringPut (s : State) (part base log prod cons size : Nat) (data : Nat) : Put :=
  let p := s.partNat part prod 4
  let c := s.partNat part cons 4
  s.slotPut part prod (wrap 32 ((p : Int) - c) == 2 ^ log) (base + size * (p % 2 ^ log)) (leBytes 4 (p + 1)) size data

/-- Write a fault record to a context's queue (R298, R332). -/
def State.faultPut (s : State) (c : Ctx) (data : Nat) : Put :=
  s.ringPut c.part c.fqBase c.fqlog (c.desc + 40) (c.desc + 44) 64 data

/-- Write a report to a context's mailbox ring (R360). -/
def State.reportPut (s : State) (c : Ctx) (data : Nat) : Put :=
  let p := s.partNat c.part (c.mbox + 28) 4
  let k := s.partNat c.part (c.mbox + 24) 4
  s.slotPut c.part (c.mbox + 28) (decide (3840 ≤ k) || (p + 3840 - k) % 3840 == 60) (c.mbox + 256 + 64 * (p % 60))
    (leBytes 4 ((p + 1) % 3840)) 64 data

end Sys2Proof.Machine
end

