-- ==== Sys2Proof/Machine/Translate.lean ====
section
/-! DEFINITION. The kernel address space (R86, R87), page-table walks and what may stand in for them (R323 to R329),
and the ownership of lines (R347). -/

namespace Sys2Proof.Machine

/-! ### The kernel address space -/

/-- Where a kernel address lies (R86). -/
inductive VWin where
  | global
  | handle (off : Nat)
  | priv (off : Nat)
  | spad (off : Nat)
  | bad
deriving DecidableEq, Repr

/-- The window of an address. -/
def vwin (va : Nat) : VWin :=
  if va < 2 ^ 56 then .global
  else if 0xFFFFD00000000000 ≤ va ∧ va < 0xFFFFD00000400000 then .handle (va - 0xFFFFD00000000000)
  else if 0xFFFFE00000000000 ≤ va ∧ va < 0xFFFFF00000000000 then .priv (va - 0xFFFFE00000000000)
  else if 0xFFFFF00000000000 ≤ va then .spad (va - 0xFFFFF00000000000)
  else .bad

/-- First address of the handle table (R86). -/
def handleBase : Nat := 0xFFFFD00000000000

/-- An access of n bytes is within what its window gives the thread (R87). -/
def addrOk (s p va n : Nat) (write : Bool) : Bool :=
  match vwin va with
  | .global => decide (va + n ≤ 2 ^ 56)
  | .handle off => !write && decide (off + n ≤ 0x400000)
  | .priv off => decide (off + n ≤ p)
  | .spad off => decide (off + n ≤ s)
  | .bad => false

/-! ### Page tables -/

/-- What an access needs of a leaf (R327). -/
inductive Need where
  | read | write | readWrite | exec | any
deriving DecidableEq, Repr

/-- The outcome of a walk (R326): a fault's kind and level, or a leaf entry with the physical address and its level. -/
inductive Xl where
  | fault (kind level : Nat)
  | leaf (entry pa level : Nat)
deriving DecidableEq, Repr

/-- Index(va, lev) of R324; 0 stands for the sub-table. -/
def ptIndex (va : Nat) : Nat → Nat
  | 0 => bits va 15 12
  | 1 => bits va 28 16
  | 2 => bits va 41 29
  | 3 => bits va 54 42
  | _ => bits va 56 55

/-- Bytes one entry of a level covers (R324). -/
def ptCover : Nat → Nat
  | 0 => 2 ^ 12
  | 1 => 2 ^ 16
  | 2 => 2 ^ 29
  | 3 => 2 ^ 42
  | _ => 2 ^ 55

/-- The LEVEL code of a level: 5 for the sub-table (R326). -/
def levelCode (n : Nat) : Nat := if n = 0 then 5 else n

/-- The physical address field of an entry (R325). -/
def ptAddr (e : Nat) : Nat := bits e 51 7 * 2 ^ 7

/-- A partition's walk may read an entry: its table lies in the partition's own memory (R305; log 84, DESIGN CHOICE). -/
def State.entryOk (s : State) (part a : Nat) : Bool := s.paOk part a

/-- The walk from an entry read at a level on, with the entries it reads below (R326). -/
def walkFrom (s : State) (part va : Nat) : Nat → Nat → List (Nat × Nat) × Xl
  | 0, e =>
    let b := ptAddr e
    if !bit e 0 then ([], .fault 1 5)
    else if bits e 63 52 ≠ 0 ∨ bit e 1 ∨ bit e 6 ∨ b % 2 ^ 12 ≠ 0 then ([], .fault 2 5)
    else ([], .leaf e (b + bits va 11 0) 5)
  | n + 1, e =>
    let lev := n + 1
    let a := ptAddr e
    let down : List (Nat × Nat) × Xl :=
      if !s.entryOk part (a + 8 * ptIndex va n) then ([], .fault 4 (levelCode n))
      else
        let x := s.homeNat (a + 8 * ptIndex va n) 8
        let r := walkFrom s part va n x
        ((n, x) :: r.1, r.2)
    if !bit e 0 then ([], .fault 1 lev)
    else if bits e 63 52 ≠ 0 then ([], .fault 2 lev)
    else if bit e 1 && decide (2 ≤ lev) then
      if bits e 6 2 ≠ 0 ∨ a % 2 ^ 16 ≠ 0 then ([], .fault 2 lev) else down
    else if 3 ≤ lev then ([], .fault 2 lev)
    else if lev = 2 then
      if bit e 6 ∨ a % 2 ^ 29 ≠ 0 then ([], .fault 2 2) else ([], .leaf e (a + bits va 28 0) 2)
    else if !bit e 1 then
      if a % 2 ^ 16 ≠ 0 then ([], .fault 2 1) else ([], .leaf e (a + bits va 15 0) 1)
    else if bits e 6 2 ≠ 0 then ([], .fault 2 1)
    else down

/-- The walk from the root (R326). -/
def walk (s : State) (part root va : Nat) : List (Nat × Nat) × Xl :=
  if !s.entryOk part (root + 8 * ptIndex va 4) then ([], .fault 4 4)
  else
    let e := s.homeNat (root + 8 * ptIndex va 4) 8
    let r := walkFrom s part va 4 e
    ((4, e) :: r.1, r.2)

/-- What the walk reads for an address lies behind self-tests passed, seen from a die (R382; log 92, DEDUCED). -/
def State.walkable (s : State) (die part root va : Nat) : Bool :=
  let v := va % 2 ^ 57
  let r := (walk s part root v).1
  s.usable die (root + 8 * ptIndex v 4) && (r.zip (r.drop 1)).all fun x => s.usable die (ptAddr x.1.2 + 8 * ptIndex v x.2.1)

/-- A level-1 entry of a contiguous run taken for the whole run (R328): leaf entry j of the run seen from page i. The run's
physical address may lie below 0, which is no address of any window. -/
def runLeaf (e va j : Nat) : Option Xl :=
  if bit e 0 && !bit e 1 && bit e 6 && bits e 63 52 == 0 && ptAddr e % 2 ^ 16 == 0 then
    let up := ptAddr e + 65536 * bits va 20 16 + bits va 15 0
    some (if up < 65536 * j then .fault 4 1 else .leaf e (up - 65536 * j) 1)
  else none

/-- The other entries of a run of level-1 leaves that may stand in for the one read (R328): each entry with its number in
the run and what it gives. -/
def runOthers (s : State) (part va : Nat) (reads : List (Nat × Nat)) : List (Nat × Nat × Xl) :=
  match reads.find? (·.1 == 2) with
  | some (_, e) =>
    if bit e 0 && bit e 1 && bits e 6 2 == 0 && bits e 63 52 == 0 && ptAddr e % 2 ^ 16 == 0 then
      (upto 0 32).filterMap fun j =>
        let a := ptAddr e + 8 * (bits va 28 21 * 32 + j)
        if !s.entryOk part a then none
        else
          let x := s.homeNat a 8
          (runLeaf x va j).map fun r => (j, x, r)
    else []
  | none => []

/-- A leaf grants an access (R327). -/
def leafOk (e : Nat) : Need → Bool
  | .read => bit e 2
  | .write => bit e 3 && !bit e 4
  | .readWrite => bit e 2 && bit e 3 && !bit e 4
  | .exec => bit e 4
  | .any => true

/-- A walk's outcome for n bytes after the checks of R326 and R327 for a partition: the leaf's fault of kind 4 or 3, if
any. -/
def Xl.check (s : State) (part : Nat) (need : Need) (n : Nat) : Xl → Xl
  | .fault k l => .fault k l
  | .leaf e pa l =>
    if !(upto pa n).all (s.paOk part) then .fault 4 l else if leafOk e need then .leaf e pa l else .fault 3 l

/-- A way a translation may come out: the entries it has read, each with the level and the address it was indexed by, and
the outcome. -/
structure Way where
  reads : List (Nat × Nat × Nat)
  out : Xl
deriving DecidableEq, Repr

/-- The entries read on a walk for an address, each with the address it covers from. -/
def readsAt (va : Nat) (reads : List (Nat × Nat)) : List (Nat × Nat × Nat) :=
  reads.map fun x => (x.1, va / ptCover x.1 * ptCover x.1, x.2)

/-- What a kept entry gives for an address it covers, with the entries read below it (R328, R329). -/
def TlbE.way (s : State) (va : Nat) (t : TlbE) : Option Way :=
  let n := if t.level = 5 then 0 else t.level
  if t.va = va / ptCover n * ptCover n then
    let r := walkFrom s t.part va n t.entry.toNat
    some ⟨readsAt va r.1, r.2⟩
  else if t.level = 1 ∧ t.va / 2 ^ 21 = va / 2 ^ 21 then (runLeaf t.entry.toNat va (bits t.va 20 16)).map fun x => ⟨[], x⟩
  else none

/-- One way for each outcome, with the entries that any way to it reads. -/
def dedupWays (ws : List Way) : List Way :=
  (dedup (ws.map (·.out))).map fun o => ⟨(ws.filter fun w => w.out == o).flatMap (·.reads), o⟩

/-- Every way a translation may come out: the walk's own, by one of a run's other entries, from a kept entry. -/
def State.xlates (s : State) (c : Ctx) (va : Nat) : List Way :=
  let (reads, own) := walk s c.part c.ptroot va
  let others := (runOthers s c.part va reads).map fun x =>
    (⟨readsAt va reads ++ [(1, va / 2 ^ 21 * 2 ^ 21 + 65536 * x.1, x.2.1)], x.2.2⟩ : Way)
  let kept := s.tlb.filterMap fun t => if t.ctx == c.ctxid && t.part == c.part then t.way s va else none
  dedupWays (⟨readsAt va reads, own⟩ :: others ++ kept)

/-- The bytes a kept leaf maps; none where the entry points to a table. -/
def TlbE.size (t : TlbE) : Option Nat :=
  let e := t.entry.toNat
  let n := if t.level = 5 then 0 else t.level
  if n = 0 || (n == 1 && !bit e 1) || (n == 2 && !bit e 1) then some (if n = 1 && bit e 6 then 2 ^ 21 else ptCover n) else none

/-- The frames a kept leaf covers. -/
def TlbE.covers (t : TlbE) (frame : Nat) : Bool :=
  match t.size with
  | some n =>
    let base := ptAddr t.entry.toNat / n * n
    decide (base ≤ 4096 * frame) && decide (4096 * frame < base + n)
  | none => false

/-- A partition keeps a translation through which a frame may be executed (R319, R325). -/
def State.executable (s : State) (part frame : Nat) : Bool :=
  s.tlb.any fun t => t.part == part && bit t.entry.toNat 4 && t.covers frame

/-- Keep the valid entries that a translation has read (R329). -/
def State.keep (s : State) (c : Ctx) (reads : List (Nat × Nat × Nat)) : State :=
  let new := reads.filterMap fun (n, a, e) =>
    if bit e 0 then
      let t : TlbE := ⟨c.ctxid, c.part, levelCode n, a, BitVec.ofNat 64 e⟩
      if s.tlb.contains t then none else some t
    else none
  { s with tlb := s.tlb ++ new }

/-- Translate an address of a context for an access of n bytes (R323 to R329). Where more than one outcome is open, a free
value chooses, and the entries read on that way are kept (log 6, DEDUCED). -/
def State.translate (s : State) (c : Ctx) (va : Nat) (need : Need) (n : Nat := 1) : State × Xl :=
  let va := va % 2 ^ 57
  match s.xlates c va with
  | [w] => (s.keep c w.reads, w.out.check s c.part need n)
  | ws =>
    let i := (Config.freeWord s.free).toNat % ws.length
    let w := nth ws i ⟨[], .fault 1 4⟩
    ((s.keep c w.reads).spend 1, w.out.check s c.part need n)

/-! ### Ownership of lines (R347) -/

/-- How a line stands in a launch's ownership table: partitioned with its owner block, shared, or unclaimed. -/
inductive LineKind where
  | owned (block : Nat)
  | shared
  | unclaimed
deriving DecidableEq, Repr

/-- The kind of a line by the first descriptor that contains it (R347); a pointer of 0 makes all memory shared
(R135). -/
def Launch.lineKind (l : Launch) (va : Nat) : LineKind :=
  if l.fld 447 384 = 0 then .shared
  else
    let hit := l.ownt.find? fun d =>
      let x := d.toNat
      bits x 1 0 ≠ 0 && decide (bits x 255 192 ≤ va) && decide (va < bits x 255 192 + bits x 191 128)
    match hit with
    | some d =>
      let x := d.toNat
      if bits x 1 0 = 1 then .owned (bits x 95 64 + (va - bits x 255 192) / bits x 127 96) else .shared
    | none => .unclaimed

/-- A write, atomic or reduction to an address raises an ownership fault for a block (R135). -/
def Launch.ownFault (l : Launch) (num va : Nat) : Bool :=
  l.staged && (match l.lineKind va with
    | .owned b => b ≠ num
    | .shared => false
    | .unclaimed => true)

end Sys2Proof.Machine
end

