-- ==== Sys2Proof/Machine/Scan.lean ====
section
/-! DEFINITION. The page scanner (R153 to R159), the scan tables and instruction caches (R195, R319, R320), and
fetching a segment (R160). -/

namespace Sys2Proof.Machine

/-! ### Word classes as the walk sees them -/

/-- A word of class FH with the kind of a SEGH (R151). -/
def isSegh (w : Nat) : Bool := bits w 31 26 == 0x38

/-- A word of class FH with the kind of a RUNH (R152). -/
def isRunh (w : Nat) : Bool := bits w 31 26 == 0x39

/-- A word of class FH. -/
def isFH (w : Nat) : Bool := bits w 31 28 == 14

/-- A word of class FT. -/
def isFT (w : Nat) : Bool := bits w 31 28 == 12

/-- What the walk expects next (R159); positions are word numbers in the frame. -/
inductive ScanMode where
  | seg
  /-- after a SEGH whose segment's last word is `last`; whether a run has been seen -/
  | body (last : Nat) (run : Bool)
  | run (left last : Nat)
  | table (left sw last : Nat)
  | pad
  | stopped
deriving DecidableEq, Repr

/-- What the walk has gathered: segment starts, failures (word, code), static targets (word, target word) and words
whose successor must be a SEGH. -/
structure ScanAcc where
  mode : ScanMode
  starts : List Nat
  bad : List (Nat × Nat)
  targets : List (Nat × Int)
  after : List Nat
deriving DecidableEq, Repr

/-- Note a word's own encoding failure (codes 1 to 5 and 14). -/
def ScanAcc.note (a : ScanAcc) (p w : Nat) : ScanAcc :=
  match decodeNat w with
  | .ok _ => a
  | .error e => { a with bad := (p, e.code) :: a.bad }

/-- A framing failure ends the walk. -/
def ScanAcc.fail (a : ScanAcc) (p code : Nat) : ScanAcc := { a with mode := .stopped, bad := (p, code) :: a.bad }

/-- The terminator at p of a segment that ends at `last` (R148, R159). -/
def ScanAcc.term (a : ScanAcc) (p w last : Nat) : ScanAcc :=
  let a := a.note p w
  let op := bits w 27 24
  if !isFT w then a.fail p 9
  else if op = 8 then
    let n := bits w 17 8 + 1
    if last < p + n then a.fail p 12
    else if p + n < last then a.fail p 9
    else { a with mode := .table n p last }
  else if p ≠ last then a.fail p 9
  else
    let tgt := if op = 0 ∨ op = 3 ∨ op = 9 then [(p, (p : Int) + sext 24 (bits w 23 0))]
      else if op = 1 then [(p, (p : Int) + sext 20 (bits w 19 0))] else []
    let aft := if op = 1 ∨ op = 3 ∨ op = 4 ∨ op = 7 then [p] else []
    { a with mode := .seg, targets := tgt ++ a.targets, after := aft ++ a.after }

/-- A RUNH at p of a segment that ends at `last` (R152, R159). -/
def ScanAcc.runh (a : ScanAcc) (p w last : Nat) : ScanAcc :=
  let a := a.note p w
  let n := bits w 25 21
  if n = 0 ∨ 24 < n ∨ last ≤ p + n then a.fail p 8 else { a with mode := .run n last }

/-- The walk over one word. A non-zero word after padding is a failure by code 13, and by its own codes too (log 78, DEDUCED). -/
def ScanAcc.step (a : ScanAcc) (p w : Nat) : ScanAcc :=
  match a.mode with
  | .stopped => a
  | .pad => if w = 0 then a else (a.note p w).fail p 13
  | .seg =>
    if w = 0 then { a with mode := .pad }
    else if !isSegh w then (a.note p w).fail p 6
    else
      let last := p + bits w 25 16
      if 1024 ≤ last then a.fail p 7
      else if p = 1023 then { a with starts := p :: a.starts }.fail p 8
      else { a with mode := .body last false, starts := p :: a.starts }
  | .body last run =>
    if isRunh w then a.runh p w last
    else if run then a.term p w last
    else (a.note p w).fail p 8
  | .run left last =>
    if isFH w || isFT w then (a.note p w).fail p 8
    else { a.note p w with mode := if left = 1 then .body last true else .run (left - 1) last }
  | .table left sw last =>
    { a with
      mode := if left = 1 then .seg else .table (left - 1) sw last
      targets := (p, (sw : Int) + sext 32 w) :: a.targets }

/-- The walk over the words of a frame from position p (R154) (log 28, DEDUCED). -/
def scanWords : ScanAcc → Nat → List Nat → ScanAcc
  | a, _, [] => a
  | a, p, w :: ws => scanWords (a.step p w) (p + 1) ws

/-- The lowest failing word and the lowest code that applies to it (R159). -/
def lowestFailure (bad : List (Nat × Nat)) : Option (Nat × Nat) :=
  match bad with
  | [] => none
  | x :: r =>
    let p := r.foldl (fun m y => min m y.1) x.1
    some (p, least 0 ((bad.filter (·.1 == p)).map (·.2)))

/-- The scan of a frame's 1,024 words: segment starts and the rejection, if any (R159). For codes 10 and 11 the word
recorded is the terminator, or the SWITCH's table word, whose target or successor fails (log 78, DEDUCED). -/
def scanFrame (frame : Nat) (ws : List Nat) : Scan :=
  let a := scanWords ⟨.seg, [], [], [], []⟩ 0 ws
  let t10 := a.targets.filterMap fun (p, t) =>
    if 0 ≤ t ∧ t < 1024 ∧ !(a.starts.any fun x => (x : Int) == t) then some (p, 10) else none
  let t11 := a.after.filterMap fun p =>
    if p < 1023 && isSegh (nth ws (p + 1) 0) then none else some (p, 11)
  { frame := frame, starts := a.starts, bad := lowestFailure (a.bad ++ t10 ++ t11) }

/-- An answered read over the fabric (R376). -/
def State.answer (s : State) (bid idx a : Nat) : Option Byte :=
  (s.fabric.find? fun f => !f.write && f.answered && f.bid == bid && f.idx == idx && decide (f.pa ≤ a) &&
    decide (a < f.pa + f.len)).map fun f => nth f.bytes (a - f.pa) 0

/-- A word of code, each byte as given by some reader. -/
def codeWord (rd : Nat → Byte) (a : Nat) : Nat := leNat ((upto a 4).map rd)

/-- The scan result a die holds for a frame, scanning it where it holds none (R158, R319); `rd` reads its bytes. -/
def State.scanOf (s : State) (d frame : Nat) (rd : Nat → Byte := s.homeByte) : State × Scan :=
  match (s.die d).scan.find? (·.frame == frame) with
  | some r => (s, r)
  | none =>
    let r := scanFrame frame ((upto 0 1024).map fun i => codeWord rd (4096 * frame + 4 * i))
    (s.onDie d fun x => { x with scan := x.scan ++ [r] }, r)

/-- The outcome of a fetch: a segment's words, a fault of kind 4 (at a level), 5 (fetch fault, at a level), 6 (code
fault: the bad word's address and value) or 7 (target fault). -/
inductive Fetched where
  | words (ws : List W32)
  | outside (level : Nat)
  | absent (level : Nat)
  | code (addr : W64) (word : Nat)
  | target
  /-- nothing yet: the page scanner, or the memory behind the page, has not passed its self-test (R382) -/
  | later
  /-- nothing yet: the frame at an address beyond the fabric has not come (R376) -/
  | ask (frame : Nat)
deriving DecidableEq, Repr

/-- The words of the segment at a physical address, as its SEGH gives its length (R151). -/
def segWords (rd : Nat → Byte) (pa : Nat) : List W32 :=
  (upto 0 (bits (codeWord rd pa) 25 16 + 1)).map fun i => BitVec.ofNat 32 (codeWord rd (pa + 4 * i))

/-- The fetch of a frame over the fabric that a thread has made, as FabOp.op says it. -/
def fetchOp : Option (Nat × W64) := some (66, 0)

/-- A frame that a thread has asked for over the fabric has come. -/
def State.frameHere (s : State) (bid idx frame : Nat) : Bool :=
  s.fabric.any fun f => f.op == fetchOp && f.answered && f.bid == bid && f.idx == idx && f.pa == 4096 * frame

/-- A thread asks for a frame over the fabric, once (R376). -/
def State.askFrame (s : State) (bid idx frame : Nat) (va : W64) (src : Origin) : State :=
  if s.fabric.any fun f => f.op == fetchOp && f.bid == bid && f.idx == idx && f.pa == 4096 * frame then s
  else
    let (f, s) := s.fresh
    { s with fabric := s.fabric ++ [⟨f, bid, idx, 4096 * frame, va, false, [], 4096, false, fetchOp, src⟩] }

/-- The frames that have come for a thread are used up. -/
def State.takeFrame (s : State) (bid idx : Nat) : State :=
  if s.fabric.isEmpty then s
  else { s with fabric := s.fabric.filter fun f => !(f.op == fetchOp && f.answered && f.bid == bid && f.idx == idx) }

/-- Fetch the segment at a virtual address for a thread on a die (R160, R195, R320): the words in memory, or those an instruction
cache still holds, a free value choosing where they differ (log 6, DEDUCED). A target outside the translated windows is a
fetch fault of level 0 (log 79, DEDUCED). A frame beyond the fabric is asked for, whole, unless the die holds what it needs of
it (R376; log 93, DEDUCED). -/
def State.fetchSeg (s : State) (c : Ctx) (d bid idx : Nat) (va : W64) : State × Fetched :=
  let v := va.toNat
  let walked := match vwin v with
    | .global => true
    | .handle _ => true
    | _ => false
  if v % 4 ≠ 0 then (s, .target)
  else if !walked then (s, .absent 0)
  else if !s.walkable d c.part c.ptroot v then (s, .later)
  else
    let (s, x) := s.translate c v .exec
    match x with
    | .fault 4 l => (s, .outside l)
    | .fault _ l => (s, .absent l)
    | .leaf _ pa _ =>
      let line := (s.die d).icache.find? (·.pa == pa)
      let known := (s.die d).scan.any (fun r => r.frame == pa / 4096 && r.bad.isNone) && line.isSome
      let here := !isFabric pa || s.frameHere bid idx (pa / 4096)
      if !s.bring.up 5 || !s.usable d pa then (s, .later)
      else if !here && !known then (s, .ask (pa / 4096))
      else
      let rd (a : Nat) : Byte := if isFabric a then (s.answer bid idx a).getD 0 else s.homeByte a
      let (s, r) := s.scanOf d (pa / 4096) rd
      match r.bad with
      | some (p, _) =>
        (s, .code (BitVec.ofNat 64 (v / 4096 * 4096 + 4 * p)) (codeWord rd (pa / 4096 * 4096 + 4 * p)))
      | none =>
        if !r.starts.contains (pa % 4096 / 4) then (s, .target)
        else
          let now := if here then segWords rd pa else (line.map (·.words)).getD []
          let keep (s : State) : State := s.onDie d fun x => { x with icache := x.icache ++ [⟨pa, now⟩] }
          match line with
          | none => (keep s, .words now)
          | some l =>
            if l.words == now then (s, .words now)
            else if bit (Config.freeWord s.free).toNat 0 then (s.spend 1, .words l.words)
            else ((s.onDie d fun x => { x with icache := x.icache.filter (·.pa != pa) }).spend 1 |> keep, .words now)

/-- An address is a segment start of an accepted, executable frame (R160). -/
def Fetched.isOk : Fetched → Bool
  | .words _ => true
  | _ => false

/-- Drop the copies of a frame's code in a partition: its lines in the die instruction caches and its scan-table
entries (R195). -/
def State.dropFrame (s : State) (p frame : Nat) : State :=
  { s with dies := mapIf (fun d => s.partOf d.num == p) (fun d =>
      { d with
        scan := d.scan.filter (·.frame != frame)
        icache := d.icache.filter fun l => l.pa / 4096 != frame }) s.dies }

end Sys2Proof.Machine
end

