-- ==== Sys2Proof/Machine/Order.lean ====
section
/-! DEFINITION. The ordering machine (R112 to R127): the bytes a load reads, the store queues, what moves a store to its
home, releases and acquires, and the satchels (R135 to R139, R349). Threads are named by their block and index; control
core c is block 0, index c. -/

namespace Sys2Proof.Machine

/-! ### Places -/

/-- The place n bytes further on. -/
def Loc.add : Loc → Nat → Loc
  | .pa a, n => .pa (a + n)
  | .spad o, n => .spad (o + n)
  | .priv i o, n => .priv i (o + n)

/-- The offset of a place inside n bytes from another, if it lies there. -/
def Loc.inside (x from' : Loc) (n : Nat) : Option Nat :=
  let at' (a b : Nat) : Option Nat := if b ≤ a ∧ a < b + n then some (a - b) else none
  match x, from' with
  | .pa a, .pa b => at' a b
  | .spad a, .spad b => at' a b
  | .priv i a, .priv j b => if i = j then at' a b else none
  | _, _ => none

/-- Two runs of bytes share a byte. -/
def Loc.meets (x : Loc) (n : Nat) (y : Loc) (m : Nat) : Bool :=
  match x, y with
  | .pa a, .pa b => overlaps a n b m
  | .spad a, .spad b => overlaps a n b m
  | .priv i a, .priv j b => i == j && overlaps a n b m
  | _, _ => false

/-- The scratchpad sectors n bytes at an offset touch (R91). -/
def sectorsOf (off n : Nat) : List Nat := upto (off / 32) ((off + n - 1) / 32 + 1 - off / 32)

/-! ### Entries -/

/-- An entry that is a store of its thread's bytes. -/
def SqKind.isStore : SqKind → Bool
  | .store => true
  | .relStore => true
  | _ => false

/-- An entry performed at its home from the queue: a quiet reduction or an add-on-store (R114). -/
def SqKind.isReduction : SqKind → Bool
  | .red _ _ => true
  | .addon _ _ => true
  | _ => false

/-- The youngest queued store of some threads of a group that holds a byte, and the byte. -/
def Grp.forwardOf (g : Grp) (own : Nat → Bool) (loc : Loc) : Option Byte :=
  g.stq.foldl (fun acc q =>
    if q.kind.isStore then
      q.elems.foldl (fun acc x =>
        if own x.idx then
          match loc.inside x.loc x.bytes.length with
          | some k => some (nth x.bytes k 0)
          | none => acc
        else acc) acc
    else acc) none

/-- The youngest of a thread's own queued stores that holds a byte, and the byte (R116 step 1). -/
def Grp.forward (g : Grp) (idx : Nat) (loc : Loc) : Option Byte := g.forwardOf (· == idx) loc

/-- Bytes of memory an element acts on. -/
def SqKind.width (k : SqKind) (x : SqElem) : Nat := match k with
  | .addon _ _ => 4
  | _ => x.bytes.length

/-- An entry holds an element of a thread on bytes. -/
def SqEntry.on (q : SqEntry) (idx : Nat) (loc : Loc) (n : Nat) : Bool :=
  q.elems.any fun x => x.idx == idx && loc.meets n x.loc (q.kind.width x)

/-- A request of a thread on bytes stands at its home (R114). -/
def State.homeOn (s : State) (bid idx : Nat) (loc : Loc) (n : Nat) : Bool :=
  s.homeq.any fun h => h.bid == bid && h.entry.on idx loc n

/-- A request of a thread stands at its home. -/
def State.homeAny (s : State) (bid idx : Nat) : Bool :=
  s.homeq.any fun h => h.bid == bid && h.entry.elems.any fun x => x.idx == idx

/-- A thread's own arrival at a barrier that shares bytes with some has not made its update yet (R113, R124; log 21, DEDUCED). -/
def Grp.arriving (g : Grp) (idx : Nat) (loc : Loc) (n : Nat) : Bool :=
  g.stq.any fun q => (match q.kind with
    | .tbarr off _ _ => loc.meets n (.spad off) 16
    | _ => false) && q.elems.any fun x => x.idx == idx

/-- A thread's own quiet reduction, add-on-store or arrival on bytes is not yet performed (R116). -/
def State.reducing (s : State) (bid : Nat) (g : Grp) (idx : Nat) (loc : Loc) (n : Nat) : Bool :=
  g.stq.any (fun q => q.kind.isReduction && q.on idx loc n) || s.homeOn bid idx loc n || g.arriving idx loc n

/-- A thread has an entry of any kind in the queue. -/
def Grp.queued (g : Grp) (idx : Nat) : Bool := g.stq.any fun q => q.elems.any fun x => x.idx == idx

/-- A thread's earlier entries that satisfy a test still stand in its queue. -/
def Grp.waiting (g : Grp) (idx pos : Nat) (p : SqEntry → Bool) : Bool :=
  g.stq.any fun q => decide (q.pos < pos) && p q && q.elems.any fun x => x.idx == idx

/-- A thread's stores on bytes that have left the queue and not reached their home. -/
def State.inFlight (s : State) (bid idx : Nat) (loc : Loc) (n : Nat) : Bool :=
  let hit (x : PtStore) : Bool := x.bid == bid && x.idx == idx && loc.meets n (.pa x.pa) x.bytes.length
  s.cores.any (fun c => c.point.any hit) || s.dies.any (fun d => d.point.any hit)

/-- A store to some bytes that a thread has made, or has read from, stands at a core point or its die point (R113). -/
def State.heldOn (s : State) (core d bid idx : Nat) (loc : Loc) (n : Nat) : Bool :=
  let hit (x : PtStore) : Bool :=
    loc.meets n (.pa x.pa) x.bytes.length && ((x.bid == bid && x.idx == idx) || x.readBy.contains (bid, idx))
  (s.core core).point.any hit || (s.die d).point.any hit

/-- A thread has read some bytes at an address: the stores at its points that hold one of them as it was read are marked as read
by it, so that none of its later atomics passes them (R113, R122). -/
def State.markRead (s : State) (core d bid idx a : Nat) (bytes : List Byte) : State :=
  let read (x : PtStore) : Bool := ((upto 0 bytes.length).zip bytes).any fun y =>
    decide (x.pa ≤ a + y.1) && decide (a + y.1 < x.pa + x.bytes.length) && nth x.bytes (a + y.1 - x.pa) 0 == y.2
  let own (x : PtStore) : Bool := (x.bid == bid && x.idx == idx) || x.readBy.contains (bid, idx)
  let mark (x : PtStore) : PtStore := if read x && !own x then { x with readBy := x.readBy ++ [(bid, idx)] } else x
  if (s.core core).point.isEmpty && (s.die d).point.isEmpty then s
  else ({ s with cores := mapIf (fun c => c.num == core) (fun c => { c with point := c.point.map mark }) s.cores }).onDie d
    fun y => { y with point := y.point.map mark }

/-- A thread has an atomic issued before a place in its program and not yet performed. -/
def State.atomPending (s : State) (bid idx pos : Nat) : Bool :=
  s.atoms.any fun a => a.bid == bid && a.idx == idx && decide (a.pos < pos)

/-- A thread's writes over the fabric are all acknowledged (R120). -/
def State.fabricQuiet (s : State) (bid idx : Nat) : Bool :=
  !s.fabric.any fun f => f.write && f.bid == bid && f.idx == idx

/-! ### Reading -/

/-- The youngest store to a byte held at a point. -/
def pointByte (point : List PtStore) (a : Nat) : Option Byte :=
  point.foldl (fun acc x => if x.pa ≤ a ∧ a < x.pa + x.bytes.length then some (nth x.bytes (a - x.pa) 0) else acc) none

/-- A byte as a die sees it (R116 step 4): the youngest store at the die point, or the home. -/
def State.dieByte (s : State) (d a : Nat) : Byte := (pointByte (s.die d).point a).getD (s.homeByte a)

/-- A line of a cache. -/
def lineByte (lines : List Line) (a : Nat) : Option Byte :=
  (lines.find? fun x => x.num == a / 64).map fun x => nth x.bytes (a % 64) 0

/-- A byte of physical memory as a thread of a core reads it after its own queue (R116 steps 2 to 4); an acquire skips
the load cache (R121). -/
def State.coreByte (s : State) (core d a : Nat) (skip : Bool) : Byte :=
  match pointByte (s.core core).point a with
  | some v => v
  | none =>
    match (if skip then none else lineByte (s.core core).lcache a) with
    | some v => v
    | none => s.dieByte d a

/-- The line of an address as seen at a die point, with its sectors' check values (R110, R116 step 4). -/
def State.dieLine (s : State) (d a : Nat) : Line :=
  ⟨a / 64, (upto (a / 64 * 64) 64).map (s.dieByte d), s.sums.filter fun x => x.1 / 2 == a / 64⟩

/-- The lines a cache of k lines holds once one more has come: the oldest leaves a full cache (R1, R117). -/
def capLines (k : Nat) (l : List Line) (x : Line) : List Line := (l ++ [x]).drop (l.length + 1 - k)

/-- Fill the load cache, of 128 KiB, with the line of an address as seen at the die point, if it holds none (R1, R116;
log 7, DESIGN CHOICE). -/
def State.fill (s : State) (core d a : Nat) : State :=
  if !isDram a then s
  else
    let c := s.core core
    if c.lcache.any (fun x => x.num == a / 64) then s
    else s.setCore { c with lcache := capLines 2048 c.lcache (s.dieLine d a) }

/-- The check of the sector that a byte comes from fails (R110): a byte a store holds at a point is good; a cached one is as
it was filled. -/
def State.badByte (s : State) (core d a : Nat) (skip : Bool) : Bool :=
  if (pointByte (s.core core).point a).isSome then false
  else match (if skip then none else (s.core core).lcache.find? fun x => x.num == a / 64) with
    | some l => sectorBad l.sums (a / 32)
    | none => (pointByte (s.die d).point a).isNone && s.badAt (a / 32)

/-- The check of a private sector of an index fails (R110). -/
def Block.privBad (b : Block) (i k : Nat) : Bool := b.psums.any fun x => x.1 == (i, k) && x.2 != 0

/-- The check of a sector that n bytes of a place touch fails at their home (R110). -/
def State.homeBad (s : State) (bid : Nat) (loc : Loc) (n : Nat) : Bool :=
  match loc with
  | .pa a => (sectorsOf a n).any s.badAt
  | .spad o => ((s.block? bid).map fun b => (sectorsOf o n).any (sectorBad b.sums)).getD false
  | .priv i o => ((s.block? bid).map fun b => (sectorsOf o n).any (b.privBad i)).getD false

/-- An index's private window (R88). -/
def Block.privOf (b : Block) (i : Nat) : Memory := look b.priv i []

/-! ### Satchels -/

/-- Bytes a satchel holds; those of a commit being compared keep their space (R350). -/
def Block.satchelUsed (b : Block) : Nat :=
  let sum (l : List SEntry) : Nat := l.foldl (fun n x => n + x.cost) 0
  sum b.satchel + (match b.commit with
    | some c => sum c.entries
    | none => 0)

/-- Merge order: ascending index and program position (R136). -/
def mergeOrder (l : List SEntry) : List SEntry := sortKey (·.idx) (sortKey (·.pos) l)

/-- The bytes FP32 and two BF16 sums leave (R64, R65, R223): round to nearest even, never flushing. -/
def addF (f : Fmt) (x y : Nat) : Nat := f.roundRn (FV.add .rn (f.value x) (f.value y))

/-- The effect of an LA opcode on memory: the new value for M and B, and the comparand of ACAS (R222, R223). -/
def laNew (op m b cmp : Nat) : Nat :=
  let smin (n : Nat) : Nat := if sext n m ≤ sext n b then m else b
  let smax (n : Nat) : Nat := if sext n b ≤ sext n m then m else b
  match op with
  | 0 => wrap 32 (m + b)
  | 1 => smin 32
  | 2 => smax 32
  | 3 => min m b
  | 4 => max m b
  | 5 => m &&& b
  | 6 => m ||| b
  | 7 => m ^^^ b
  | 8 => b
  | 9 => if m = cmp then b else m
  | 10 => addF .f32 m b
  | 11 => wrap 64 (m + b)
  | 12 => b
  | 13 => if m = cmp then b else m
  | 16 => wrap 32 (m + b)
  | 17 => smin 32
  | 18 => smax 32
  | 19 => m &&& b
  | 20 => m ||| b
  | 21 => m ^^^ b
  | 22 => addF .f32 m b
  | _ => addF .bf16 (m % 65536) (b % 65536) + 65536 * addF .bf16 (m / 65536) (b / 65536)

/-- The access width of an LA opcode in bytes (R222, R223). -/
def laWidth (op : Nat) : Nat := if op = 11 ∨ op = 12 ∨ op = 13 then 8 else 4

/-- The W40 value of a 40-bit element (R77): 1 sign, 8 exponent, 31 fraction bits. -/
def w40Value (x : W40) : FV := Fmt.w40.value x.toNat

/-- An add-on-store of a tile element to 4 bytes (R250). -/
def addOn (k40 : Bool) (m : Nat) (x : W40) : Nat :=
  if k40 then wrap 32 (sat (sext 32 m + sext 40 x.toNat) (-2147483648) 2147483647)
  else Fmt.f32.roundRn (FV.add .rn (Fmt.f32.value m) (w40Value x))

/-- Apply a staged entry to bytes at its address, given and returned lowest first. -/
def SEntry.apply (x : SEntry) (old : List Byte) : List Byte :=
  match x.kind with
  | .red op => leBytes 4 (laNew op (leNat old) (leNat x.bytes) 0)
  | .addon k => leBytes 4 (addOn k (leNat old) (BitVec.ofNat 40 (leNat x.bytes)))
  | .done => old
  | .part m => [(old.headD 0 &&& ~~~m) ||| (x.bytes.headD 0 &&& m)]
  | _ => x.bytes

/-- Bytes an entry writes. -/
def SEntry.width (x : SEntry) : Nat := match x.kind with
  | .addon _ => 4
  | .done => 0
  | _ => x.bytes.length

/-- A staged entry is visible to a thread (R136): it made it, or acquired a release that published it. -/
def Block.sees (b : Block) (idx : Nat) (x : SEntry) : Bool :=
  x.issuers.contains idx || (match x.pub with
    | some n => decide (n < look b.acquired idx 0)
    | none => false)

/-- Overlay staged entries, in merge order, on n bytes read at a physical address. An entry never reaches across the
edge of a 32-byte sector, so n whole sectors hold every entry that touches them whole. -/
def overlayEntries (l : List SEntry) (a n : Nat) (bytes : List Byte) : List Byte :=
  (mergeOrder l).foldl (fun bs x =>
    if x.width = 0 ∨ !overlaps a n x.pa x.width then bs
    else
      let old := (upto 0 x.width).map fun i => if a ≤ x.pa + i ∧ x.pa + i < a + n then nth bs (x.pa + i - a) 0 else 0
      let new := x.apply old
      (upto 0 n).map fun i => if x.pa ≤ a + i ∧ a + i < x.pa + x.width then nth new (a + i - x.pa) 0 else nth bs i 0)
    bytes

/-! ### Reaching the home -/

/-- A write is sent over the fabric, with what its target is to do with the bytes (R376; log 20, DEDUCED). -/
def State.send (s : State) (x : PtStore) (op : Option (Nat × W64)) : State :=
  let (f, s) := s.fresh
  { s with fabric := s.fabric ++ [⟨f, x.bid, x.idx, x.pa, x.va, true, x.bytes, x.bytes.length, false, op, x.src⟩] }

/-- A store arrives at its home. -/
def State.arrive (s : State) (x : PtStore) : State :=
  if answersOnly x.pa then s.send x none
  else s.homeWrite x.pa x.bytes

/-- A store arrives at a die point, which for its own locations is the home (R115). -/
def State.toDie (s : State) (d : Nat) (x : PtStore) : State :=
  if s.homeDie x.pa = d ∧ isDram x.pa then s.homeWrite x.pa x.bytes
  else s.onDie d fun y => { y with point := y.point ++ [x] }

/-- A cached line takes the bytes a store leaves at a core point (R117). -/
def Line.take (x : PtStore) (l : Line) : Line :=
  { l with
    sums := sumsAfter l.sums x.pa x.bytes.length
    bytes := ((upto 0 64).zip l.bytes).map fun (i, v) =>
      let a := 64 * l.num + i
      if x.pa ≤ a ∧ a < x.pa + x.bytes.length then nth x.bytes (a - x.pa) 0 else v }

/-- Store i of a core point moves to the core's die (R115, R117). -/
def State.coreToDie (s : State) (core i : Nat) : State :=
  let c := s.core core
  match c.point[i]? with
  | none => s
  | some x =>
    let c := { c with point := dropAt c.point i, lcache := c.lcache.map (Line.take x) }
    (s.setCore c).toDie (coreDie core) x

/-- Store i of a die point moves to its home (R115). -/
def State.dieToHome (s : State) (d i : Nat) : State :=
  match (s.die d).point[i]? with
  | none => s
  | some x => (s.onDie d fun y => { y with point := dropAt y.point i }).arrive x

/-- An earlier store at a point shares a byte with store i: it moves first (R115). -/
def blockedAt (point : List PtStore) (i : Nat) : Bool :=
  match point[i]? with
  | none => true
  | some x => (point.take i).any fun y => overlaps x.pa x.bytes.length y.pa y.bytes.length

/-- Every store held at a core point moves to the die point (R120). -/
def State.flushCore (s : State) (core : Nat) : State :=
  (upto 0 (s.core core).point.length).foldl (fun s _ => s.coreToDie core 0) s

/-- Every store held at a die point reaches its home (R120). -/
def State.flushDie (s : State) (d : Nat) : State :=
  (upto 0 (s.die d).point.length).foldl (fun s _ => s.dieToHome d 0) s

/-- The flush of a release by a thread of a core at a scope (R120). -/
def State.flush (s : State) (core : Nat) : Scope → State
  | .block => s
  | .die => s.flushCore core
  | .device => (s.flushCore core).flushDie (coreDie core)
  | .system => (s.flushCore core).flushDie (coreDie core)

/-- The line of some bytes leaves the load caches and fetch-unit caches of the cores that satisfy a test (R117). -/
def State.dropLine (s : State) (p : Nat → Bool) (a n : Nat) : State :=
  let keep (l : Line) : Bool := !overlaps (64 * l.num) 64 a n
  { s with cores := mapIf (fun c => p c.num) (fun c =>
      { c with lcache := c.lcache.filter keep, fcache := c.fcache.filter keep }) s.cores }

/-- The acquire part at a scope: at die scope and wider, the core's caches are dropped (R121). -/
def State.acquire (s : State) (core : Nat) : Scope → State
  | .block => s
  | .die => s.dropCaches core
  | .device => s.dropCaches core
  | .system => s.dropCaches core

/-- No write of a thread over the fabric still stands at a point. -/
def State.sentAll (s : State) (bid idx : Nat) : Bool :=
  let held (x : PtStore) : Bool := x.bid == bid && x.idx == idx && answersOnly x.pa
  !(s.cores.any fun c => c.point.any held) && !(s.dies.any fun d => d.point.any held)

/-- A thread's writes over the fabric have been sent and are acknowledged (R120). A release at system scope that finds one
still at a point sends it there first. -/
def State.sysReady (s : State) (bid idx : Nat) : Bool := s.sentAll bid idx && s.fabricQuiet bid idx

/-! ### Scratchpad and private bytes -/

/-- Bytes of a saved block change at an offset of its swap slot too (R105, R321, R344). -/
def State.slotPatch (s : State) (b : Block) (l : Launch) (slot off : Nat) (bytes : List Byte) : State :=
  (s.partWrite l.ctx.part (l.slotAt slot + off) bytes).onBlock b.bid fun b =>
    { b with slotImg := b.slotImg.take off ++ bytes ++ b.slotImg.drop (off + bytes.length) }

/-- Scratchpad bytes of a saved block change in its swap slot too (R105, R321). -/
def State.slotSync (s : State) (bid off n : Nat) : State :=
  match s.block? bid with
  | none => s
  | some b =>
    match b.st.slot?, s.launch? b.lid with
    | some i, some l => s.slotPatch b l i off (b.spad.readN off n)
    | _, _ => s

/-- Operand-buffer bytes of a partition of a saved block change in its swap slot too (R321). -/
def State.slotSyncObuf (s : State) (bid q off n : Nat) : State :=
  match s.block? bid with
  | none => s
  | some b =>
    match b.st.slot?, s.launch? b.lid with
    | some i, some l =>
      s.slotPatch b l i (((l.areas.take 3).foldl (· + ·) 0) + 64 * l.obuf * q + off)
        ((nth b.parts q ⟨[], [], [], 0, []⟩).obuf.readN off n)
    | _, _ => s

/-- A write to a block's scratchpad, where the block is saved to its slot as well, with the transaction barriers it touches. -/
def State.spadWrite (s : State) (bid off : Nat) (bytes : List Byte) : State :=
  let hi := min (off + bytes.length + 15) (((s.block? bid).map s.spadSize).getD 0)
  ((s.touchIns bid off bytes.length).spadPut bid off bytes).slotSync bid (off - 15) (max (hi - (off - 15)) (off + bytes.length - (off - 15)))

/-- Write bytes of a place that the core point or an index keeps: the scratchpad, the private window (R125). -/
def State.localWrite (s : State) (bid : Nat) (loc : Loc) (bytes : List Byte) : State :=
  match loc with
  | .spad o => s.spadWrite bid o bytes
  | .priv i o => s.onBlock bid fun b => { b with
      priv := put b.priv i ((b.privOf i).writeN o bytes)
      psums := b.psums.filter fun x => x.1.1 != i || !(decide (o ≤ 32 * x.1.2) && decide (32 * x.1.2 + 32 ≤ o + bytes.length)) }
  | .pa _ => s

/-- Bytes of a place as they stand at its home. -/
def State.homeLoc (s : State) (bid : Nat) (loc : Loc) (n : Nat) : List Byte :=
  match loc with
  | .pa a => s.homeBytes a n
  | .spad o => ((s.block? bid).map fun b => b.spad.readN o n).getD (List.replicate n 0)
  | .priv i o => ((s.block? bid).map fun b => (b.privOf i).readN o n).getD (List.replicate n 0)

/-- Write bytes of a place at its home. -/
def State.homeLocWrite (s : State) (bid : Nat) (loc : Loc) (bytes : List Byte) : State :=
  match loc with
  | .pa a => s.homeWrite a bytes
  | _ => s.localWrite bid loc bytes

/-- A plain store element leaves its queue: to the core point, or, in the scratchpad and the private windows, to its
home there (R114, R125). -/
def State.toCore (s : State) (bid core : Nat) (src : Origin) (x : SqElem) : State :=
  match x.loc with
  | .pa a =>
    let c := s.core core
    s.setCore { c with point := c.point ++ [⟨bid, x.idx, a, x.va, x.bytes, src, []⟩] }
  | loc => s.localWrite bid loc x.bytes

/-! ### Publication (R136) -/

/-- A release by a thread covers an entry: a store or reduction of its own, or an engine write that it was a member of and whose
completion it has observed (R133, R238). -/
def SEntry.covered (x : SEntry) (idx : Nat) : Bool := x.issuers.contains idx && (x.await.isNone || x.seenBy.contains idx)

/-- A block-scope release of a thread publishes its staged entries under the block's next stamp; a thread that acquires the
release learns every stamp below the block's then next one (R133, R136). -/
def Block.publish (b : Block) (idx : Nat) : Block :=
  { b with
    satchel := mapIf (fun x => x.pub.isNone && x.covered idx) (fun x => { x with pub := some b.stamp }) b.satchel
    stamp := b.stamp + 1
    pubs := b.pubs ++ [idx] }

/-- The release behind a stamp: the thread that made it, and which of its releases it is (R136). -/
def Block.relOf (b : Block) (stamp : Nat) : Option (Nat × Nat) :=
  match stamp with
  | 0 => none
  | k + 1 => (b.pubs[k]?).map fun t => (t, (b.pubs.take k).foldl (fun n x => if x == t then n + 1 else n) 0)

/-- The stamp of a thread's release, if it has been made (R136). -/
def Block.stampAt (b : Block) (r : Nat × Nat) : Option Nat :=
  (((upto 0 b.pubs.length).zip b.pubs).filter fun x => x.2 == r.1)[r.2]?.map fun x => x.1 + 1

/-- A release fence of a thread has published: who acquires from a store the thread makes later acquires it (R136). -/
def Block.fenced (b : Block) (idx : Nat) : Block := { b with released := put b.released idx b.stamp }

/-- A thread that observes the completion of engine writes has seen the range of a reservation filled (R133, R246). -/
def Resv.observe (v : Resv) (idx : Nat) (p : Await → Bool) : Resv :=
  if (v.await.map p).getD false then { v with seen := idx :: v.seen } else v

/-- A thread observes the completion of those engine writes that satisfy a test: of its own, for its releases, and of fills
of unbound ranges, for its matrix words (R133, R246). -/
def Block.observe (b : Block) (idx : Nat) (p : Await → Bool) : Block :=
  { b with
    satchel := mapIf (fun x => x.issuers.contains idx && (x.await.map p).getD false) (fun x => { x with seenBy := idx :: x.seenBy }) b.satchel
    parts := b.parts.map fun q => { q with resv := q.resv.map fun v => v.map fun v => v.observe idx p } }

/-- A thread acquires the effects of releases up to a stamp. -/
def Block.learn (b : Block) (idx stamp : Nat) : Block :=
  if look b.acquired idx 0 < stamp then { b with acquired := put b.acquired idx stamp } else b

/-- The bytes of a run of places. -/
def Loc.run (x : Loc) (n : Nat) : List Loc := (upto 0 n).map x.add

/-- A write reaches bytes: who reads them later with an acquire acquires the release with stamp k (R136). -/
def Block.stampBytes (b : Block) (k : Nat) (loc : Loc) (n : Nat) : Block :=
  if k = 0 then b
  else { b with locStamp := (loc.run n).foldl (fun l x => put l x (max k (look l x 0))) b.locStamp }

/-- The latest release that a reader of bytes synchronises with (R136): of the writes that have reached their home, and of
the staged entries the read overlays. -/
def Block.stampOf (b : Block) (loc : Loc) (n : Nat) (seen : List SEntry) : Nat :=
  let k := (loc.run n).foldl (fun m x => max m (look b.locStamp x 0)) 0
  seen.foldl (fun m x => if loc.meets n (.pa x.pa) x.width then max m x.rel else m) k

/-- A thread has read what a release with stamp k reaches: it acquires it at once, or with a later acquire fence (R136). -/
def Block.noteStamp (b : Block) (idx : Nat) (acq : Bool) (k : Nat) : Block :=
  if acq then b.learn idx k else { b with readStamp := put b.readStamp idx (max k (look b.readStamp idx 0)) }

/-- A thread has read bytes, overlaid by some staged entries: at once as an acquire, or for a later acquire fence (R136). -/
def Block.noteRead (b : Block) (idx : Nat) (loc : Loc) (n : Nat) (acq : Bool) (seen : List SEntry := []) : Block :=
  b.noteStamp idx acq (b.stampOf loc n seen)

/-- The acquire part of a fence: what the thread's earlier loads have read (R136). -/
def Block.fenceLearn (b : Block) (idx : Nat) : Block := b.learn idx (look b.readStamp idx 0)

end Sys2Proof.Machine
end

