-- ==== Sys2Proof/Machine/Ops.lean ====
section
/-! DEFINITION. What every word shares: the checks and waits before it (R44, R52, R55 to R60, R225, R240), what it
leaves behind, taking a trap (R303, R336 to R340), data faults (R331 to R333), ending a block on a fault (R342), splitting
and expanding a group (R27, R29, R36), and reaching a new segment (R160, R176). -/

namespace Sys2Proof.Machine

/-! ### Fault records (R332) and reports (R361) -/

/-- How a record names its threads (R333, R385): lowest index, lane mask (0: a run of indices), count. -/
structure Named where
  idx : Nat
  lmask : Nat
  count : Nat
deriving DecidableEq, Repr

/-- The length of the run of consecutive numbers a list starts with. -/
def runLen : List Nat → Nat
  | x :: y :: r => if y = x + 1 then runLen (y :: r) + 1 else 1
  | [_] => 1
  | [] => 0

/-- The index set of some positions of a group (R333): in a span the run that starts at the lowest, in a sheaf lanes. -/
def Env.named (e : Env) (ps : List Nat) : Named :=
  let p0 := ps.headD 0
  if e.grp.span then ⟨e.grp.lo + p0, 0, runLen ps⟩ else ⟨e.grp.lo + p0, (maskOf ps).toNat, ps.length⟩

/-- What a fault record says beside its launch (R332). -/
structure Rec where
  num : Nat
  seg : Nat
  word : Nat
  addr : Nat
  who : Named
  level : Nat
  kind : Nat
  acc : Nat
  die : Nat
deriving DecidableEq, Repr

/-- A fault record as a number (R332). -/
def Rec.image (r : Rec) (l : Launch) : Nat :=
  l.sitePc.toNat * 2 ^ 448 + l.lseq * 2 ^ 384 + r.num * 2 ^ 320 + r.seg * 2 ^ 256 + r.word * 2 ^ 192 + r.addr * 2 ^ 128
    + r.who.idx * 2 ^ 88 + r.who.lmask * 2 ^ 56 + r.who.count * 2 ^ 45 + r.level * 2 ^ 42 + r.kind * 2 ^ 38
    + r.acc * 2 ^ 34 + r.die * 2 ^ 32 + l.fdom.toNat * 2 ^ 16 + l.ctx.ctxid.toNat

/-- The mailbox's cross-trigger sources (R360, R370). -/
def State.trig (s : State) (c : Ctx) : Nat := if c.mbox = 0 then 0 else s.partNat c.part (c.mbox + 1) 1

/-- An event of a cross-trigger source: the partition's trigger fires unless it has fired (R370). -/
def State.trigger (s : State) (c : Ctx) (src : Nat) : State :=
  if bit (s.trig c) src then s.onDbg c.part fun d => { d with fired := true } else s

/-- A fault record is written, if its ring has room (R298); it is an event of the cross-trigger's source 4, and one of kinds
11 and 12 of source 5 (R370). -/
def State.recPut (s : State) (c : Ctx) (data : Nat) : Put :=
  match s.faultPut c data with
  | .done s =>
    let s := s.trigger c 4
    .done (if bits data 41 38 = 11 ∨ bits data 41 38 = 12 then s.trigger c 5 else s)
  | r => r

/-- Write a fault record, or keep it until its ring has room, behind those that wait already (R298); `who` is the group it
holds, `ends` the block that ends once it is written. The flag says it was written. -/
def State.recordIn (s : State) (c : Ctx) (data : Nat) (who : Option Who) (ends : Option (Nat × Ending)) : State × Bool :=
  match if s.pend.any (fun p => p.ctx.desc == c.desc && !p.isReport) then .stuck else s.recPut c data with
  | .done s => (s, true)
  | r =>
    let s := r.after s
    ({ s with pend := s.pend ++ [⟨c, false, BitVec.ofNat 512 data, who, ends⟩] }, false)

/-- Write the fault record of a launch, or keep it until its ring has room (R298). -/
def State.record (s : State) (l : Launch) (r : Rec) (who : Option Who) : State × Bool :=
  s.recordIn l.ctx (r.image l) who none

/-- A report as a number (R361). -/
def reportImage (l : Launch) (num pc addr : Nat) (n : Named) (kind flags data : Nat) : Nat :=
  l.sitePc.toNat * 2 ^ 448 + l.lseq * 2 ^ 384 + num * 2 ^ 320 + pc * 2 ^ 256 + addr * 2 ^ 192 + n.idx * 2 ^ 152
    + n.lmask * 2 ^ 120 + n.count * 2 ^ 109 + kind * 2 ^ 104 + flags * 2 ^ 96 + data

/-- A group whose report waits is held till it is written (R360): one that is halted already stays so, and waits when it is
to go on. -/
def ISet.awaitRing (u : ISet) : ISet := if u.stat = .ready ∨ u.stat = .fold then { u with stat := .ringWait } else u

/-- Post a report, or keep it until its ring has room, holding its group (R360). -/
def State.report (s : State) (c : Ctx) (data : Nat) (who : Option Who) : State :=
  if c.mbox = 0 then s
  else match if s.pend.any (fun p => p.ctx.mbox == c.mbox && p.isReport) then .stuck else s.reportPut c data with
    | .done s => s
    | r =>
      let s := r.after s
      let s := { s with pend := s.pend ++ [⟨c, true, BitVec.ofNat 512 data, who, none⟩] }
      match who with
      | some w => s.onUnit w ISet.awaitRing
      | none => s

/-- A record or report is one of a launch (R332, R361). -/
def PendRec.ofLaunch (p : PendRec) (l : Launch) : Bool :=
  p.ctx.desc == l.ctx.desc && bits p.data.toNat 511 448 == l.sitePc.toNat && bits p.data.toNat 447 384 == l.lseq

/-- A launch is killed. -/
def Launch.killed (l : Launch) : Bool := match l.st with
  | .killing _ => true
  | _ => false

/-- The indices of a unit's threads. -/
def Grp.indices (g : Grp) (u : ISet) : List Nat := (g.members u).map (g.lo + ·)

/-- The unit of a block that holds an index. -/
def Block.holder (b : Block) (idx : Nat) : Option Who :=
  (b.groups.flatMap fun g => (g.units.filter fun u => (g.indices u).contains idx).map fun u => Who.kern b.bid g.gid u.low).head?

/-- How a record names some indices: in the form of the group that made the access (R333, R385). -/
def nameOf (lanes : Bool) (is : List Nat) : Named :=
  let i := least 0 is
  if lanes then ⟨i, (maskOf ((is.filter fun k => k / 32 == i / 32).map (· % 32))).toNat, is.length⟩
  else ⟨i, 0, runLen (sortKey id is)⟩

/-- Whose access the acting word makes. -/
def Env.origin (e : Env) : Origin := ⟨e.unit.pc, e.unit.seg, !e.grp.span, if e.solo then e.ctx else none⟩

/-- The threads of the group that a thread of a block belongs to (R357). -/
def Block.groupOf (b : Block) (is : List Nat) : List Nat :=
  ((b.groups.flatMap fun g => (g.units.map g.indices).filter fun l => is.any l.contains).head?).getD is

/-- The segment that holds a word, by the scan result of its frame (log 58, DEDUCED). -/
def State.segAt (s : State) (c : Ctx) (die : Nat) (word : W64) : Nat :=
  let v := word.toNat
  match (walk s c.part c.ptroot (v % 2 ^ 57)).2 with
  | .leaf _ pa _ =>
    let starts := (s.scanOf die (pa / 4096)).2.starts.filter fun p => decide (p ≤ pa % 4096 / 4)
    match starts with
    | [] => v
    | _ => v / 4096 * 4096 + 4 * starts.foldl max 0
  | _ => v

/-! ### Ending a block on a fault (R342) -/

/-- The request that a postcard would describe is still to be performed, and its response to return (R369). -/
def State.unperformed (s : State) (c : CardReq) : Bool :=
  let mine (bid idx : Nat) (loc : Loc) (n : Nat) : Bool := bid == c.bid && idx == c.idx && c.loc.meets c.n loc n
  let elem (q : SqEntry) : Bool := q.pos == c.pos && q.elems.any fun x => mine c.bid x.idx x.loc (q.kind.width x)
  let queued (g : Grp) : Bool := g.stq.any elem
  let staged (x : SEntry) : Bool := x.idx == c.idx && x.pos == c.pos
  let held (x : PtStore) : Bool := c.acc == 1 && mine x.bid x.idx (.pa x.pa) x.bytes.length
  ((s.block? c.bid).map fun b => b.groups.any queued || b.satchel.any staged ||
      ((b.commit.map fun k => k.entries.any staged).getD false)).getD false ||
    s.traps.any (fun t => t.bid == c.bid && t.groups.any queued) || s.homeq.any (fun h => h.bid == c.bid && elem h.entry) ||
    s.atoms.any (fun a => a.bid == c.bid && a.idx == c.idx && a.pos == c.pos) ||
    s.fabric.any (fun f => c.acc != 0 && mine f.bid f.idx (.pa f.pa) f.len) ||
    s.cores.any (fun k => k.point.any held) || s.dies.any fun d => d.point.any held

/-- The postcards of requests that will not be performed any more are not written: those not yet performed before a change, of which
nothing is left after it (R345, R369). -/
def State.dropCards (s old : State) : State :=
  if s.cards.isEmpty then s else { s with cards := s.cards.filter fun c => !old.unperformed c || s.unperformed c }

/-- The resources of a block are freed: its groups, trap contexts, engine work and atomics end; what has left its
queues goes on to its home (R342, log 18, DEDUCED). -/
def State.dropBlock (s : State) (bid : Nat) : State :=
  let t := (match s.block? bid with
    | some b => s.leave b
    | none => s).onBlock bid fun b =>
    { b with st := .ended, groups := [], eng := [], satchel := [], commit := none, absent := [], full := none }
  State.dropCards { t with
    traps := t.traps.filter (·.bid != bid)
    atoms := t.atoms.filter (·.bid != bid)
    fabric := t.fabric.filter fun f => f.write || f.bid != bid } s

/-- Every replica of a block ends. -/
def State.dropReplicas (s : State) (lid num : Nat) : State :=
  (s.blocks.filter fun b => b.lid == lid && b.num == num && b.st != .ended).foldl (fun s b => s.dropBlock b.bid) s

/-- The word about to execute, as its encoding. -/
def ISet.word (u : ISet) : Nat := (u.code.headD 0).toNat

/-- A unit stands at a RUNH: a run boundary after its segment's entry (R41, R386). -/
def ISet.atRun (u : ISet) : Bool := u.left == 0 && isRunh u.word

/-- A unit stands between two runs (R41): at a RUNH, or before a segment. -/
def ISet.atBoundary (u : ISet) : Bool := u.left == 0 && (u.code.isEmpty || isSegh u.word || isRunh u.word)

/-- A request of a killed launch goes on: a drain, or a copy that has read a source (R345); in a staged launch its writes
are discarded with the satchel. -/
def EReq.survivesKill (r : EReq) (staged : Bool) : Bool :=
  let begun (c : CSec) : Bool := c.fin || c.moves.any fun m => m.src != .zero && m.val.isSome
  !staged && r.fault.isNone && (match r.kind with
    | .copy _ _ _ _ secs => secs.any begun
    | .drain _ _ _ => true
    | _ => false)

/-- A wait that a kill abandons where it stands: on a fault, a trap, or room for a record (R345). -/
def Stat.abandoned : Stat → Bool
  | .dataFault _ => true
  | .fetchFault => true
  | .ringWait => true
  | .trapHeld _ => true
  | .inTrap _ => true
  | .halted => true
  | _ => false

/-- Nothing of a block can move a waiting group of it on any more: no group runs, and no entry, atomic or request of it is on
its way. -/
def State.stuck (s : State) (b : Block) : Bool :=
  b.groups.all (fun g => g.stq.isEmpty && g.units.all fun u => u.atBoundary || u.stat != .ready) && b.eng.all (·.fin) &&
    !s.atoms.any (·.bid == b.bid) && !s.homeq.any (·.bid == b.bid)

/-- A group of a killed launch goes on to its next run boundary (R41, R61, R345): it stands inside a run, and either runs or
waits for what can still come; one whose atomics have not landed stays as well (log 56, DEDUCED). -/
def State.runsOn (s : State) (b : Block) (g : Grp) (u : ISet) : Bool :=
  b.st == .running && ((!u.atBoundary && !u.stat.abandoned && (u.stat == .ready || !s.stuck b)) ||
    s.atoms.any fun a => a.bid == b.bid && !a.hand && (g.indices u).contains a.idx)

/-- Every group of a killed launch that stands at a run boundary stops, and every block saved to a slot; handlers, fault
waits and the records that groups wait to write, satchels, waiting commits and copies not yet reading are gone, and no block of it starts any more (R345 steps 1 and
2) (log 56, DEDUCED). -/
def State.killSweep (s : State) (l : Launch) : State :=
  let bids := (s.blocks.filter (·.lid == l.lid)).map (·.bid)
  let cut (b : Block) (g : Grp) : Grp :=
    { g with units := g.units.filter (s.runsOn b g), stq := if l.staged then [] else g.stq }
  let block (b : Block) : Block := { b with
    groups := (b.groups.map (cut b)).filter fun (g : Grp) => !g.units.isEmpty || !g.stq.isEmpty
    eng := b.eng.filter fun r => !r.fin && r.survivesKill l.staged
    satchel := [], commit := none, full := none, saving := false, owed := [] }
  State.dropCards { s.onLaunch l.lid fun l => { l with again := [] } with
    blocks := mapIf (fun (b : Block) => b.lid == l.lid) block s.blocks
    traps := s.traps.filter fun t => !bids.contains t.bid
    -- one that is on its way already is written, and holds nothing any more
    pend := s.pend.filterMap fun p =>
      if p.ofLaunch l && (p.who.isSome || p.ends.isSome) then
        (if s.rings.any fun r => r.data == p.data.toNat then some { p with who := none, ends := none } else none)
      else some p
    atoms := s.atoms.filter fun a => !(l.staged && bids.contains a.bid)
    fabric := s.fabric.filter fun f => f.write || !bids.contains f.bid
    cores := s.cores.map fun c => { c with runq := c.runq.filter fun x => x.1 != l.lid } } s

/-- A launch follows its fault policy after a fault of a block: FPOL 1, and every policy of a concurrent launch, kills
it; otherwise its other blocks run on (R342). -/
def State.policy (s : State) (lid num : Nat) : State :=
  match s.launch? lid with
  | none => s
  | some l =>
    let dies := l.fpol == 1 || l.progress == 2
    let st : LSt := match l.st with
      | .killing b => .killing b
      | .done => .done
      | x => if dies then .killing true else x
    let s := s.onLaunch lid fun l => { l with status := max 1 l.status, endedBlks := l.endedBlks ++ [num], st := st }
    if dies then s.killSweep l else s

/-- A block is to start again (R346, R355): by cause, how often it has. -/
def Launch.again' (l : Launch) (num : Nat) (how : Ending) : Launch :=
  let k := (l.retries.find? (·.1 == num)).getD (num, 0, 0)
  let k' := if how = .relaunch then (num, k.2.1 + 1, k.2.2) else (num, k.2.1, k.2.2 + 1)
  { l with again := l.again ++ [num], retries := (l.retries.filter fun x => x.1 != num) ++ [k'] }

/-- A block that its fault record ends frees its resources, with every replica, and is started again or leaves its launch to
its policy (R342 steps 4 and 5, R346, R355). A relaunch that meets a kill is not made. -/
def State.endBlock (s : State) (bid : Nat) (how : Ending) : State :=
  match s.block? bid with
  | none => s
  | some b =>
    let s := s.dropReplicas b.lid b.num
    if how = .policy || ((s.launch? b.lid).map Launch.killed).getD false then s.policy b.lid b.num
    else s.onLaunch b.lid fun l => l.again' b.num how

/-- A block that a fault ends stops issue at once and discards its satchel (R342 steps 1 and 2). -/
def Block.stopped (b : Block) : Block :=
  { b with satchel := [], commit := none, full := none, groups := b.groups.map fun g =>
      { g with units := g.units.map fun u => { u with stat := .ringWait } } }

/-- A block ends with a fault record (R342). While the ring has no room the block holds its resources, and its groups stay
where they are (R298). -/
def State.endWith (s : State) (b : Block) (r : Rec) (how : Ending) : State :=
  match s.launch? b.lid with
  | none => s
  | some l =>
    let (s, ok) := s.recordIn l.ctx (r.image l) none (some (b.bid, how))
    if ok then s.endBlock b.bid how
    else { s with
      blocks := mapIf (fun x => x.lid == b.lid && x.num == b.num && x.st != .ended) Block.stopped s.blocks
      traps := mapIf (fun (t : TrapCtx) => t.bid == b.bid) (fun t => { t with groups := t.groups.map fun g =>
        { g with units := g.units.map fun u => { u with stat := .ringWait } } }) s.traps }

/-- The record of a fault that ends a block still waits for room: the block has stopped (R298, R342). -/
def State.ending (s : State) (b : Block) : Bool :=
  s.pend.any fun p => match p.ends with
    | some (n, _) => n == b.bid || ((s.block? n).map fun x => x.lid == b.lid && x.num == b.num).getD false
    | none => false

/-- A block ends on a fault with its record (R342). -/
def State.endFault (s : State) (b : Block) (r : Rec) : State := s.endWith b r .policy

/-- A block ends on a storage error: in an idempotent launch it is started again, at most 3 times (R111, R346). -/
def State.storageEnd (s : State) (b : Block) (r : Rec) : State :=
  match s.launch? b.lid with
  | none => s
  | some l =>
    let k := (l.retries.find? (·.1 == b.num)).getD (b.num, 0, 0)
    s.endWith b r (if l.idem && decide (k.2.1 < 3) && !l.killed then .relaunch else .policy)

/-- The record of a fault of the acting group. -/
def Env.fault (e : Env) (kind level acc addr : Nat) (ps : List Nat) : Rec :=
  let seg := if e.unit.left == 0 && isSegh e.unit.word then e.unit.pc else e.unit.seg
  { num := e.num, seg := seg.toNat, word := e.unit.pc.toNat, addr := addr, who := e.named ps, level := level
    kind := kind, acc := acc, die := e.die }

/-- The acting group's block ends on a fault that names all of its members. -/
def State.groupFault (s : State) (e : Env) (kind level acc word addr : Nat) : State :=
  match s.block? e.bid with
  | some b => s.endFault b { e.fault kind level acc addr e.members with word := word }
  | none => s

/-- The acting threads' block ends on an ownership fault that names the members at some positions (R348). -/
def State.groupFault' (s : State) (e : Env) (kind acc : Nat) (addr : W64) (ps : List Nat) : State :=
  match s.block? e.bid with
  | some b => s.endFault b (e.fault kind 0 acc addr.toNat ps)
  | none => s

/-! ### Control cores -/

/-- A control core's command ends, abandoned with QERR 5 (R340): it then serves its next queue. Stores of the command and
of its handler still drain; an atomic not yet performed is dropped (log 18, DEDUCED). -/
def State.abandon (s : State) (c : Nat) : State :=
  match s.cc? c with
  | none => s
  | some k =>
    let s := match k.cmd with
      | some m => s.queueError m.queue 5
      | none => s
    let stq (k : CCore) : List SqEntry := k.grp.stq ++ ((k.trap.map (·.groups)).getD []).flatMap (·.stq)
    let s := { s with
      atoms := s.atoms.filter fun a => !(a.bid == 0 && a.idx == c)
      fabric := s.fabric.filter fun f => f.write || !(f.bid == 0 && f.idx == c) }
    s.onCc c fun k => { k with
      cmd := none, trap := none, halted := false, grp := { k.grp with units := [ISet.start 0], stq := stq k } }

/-! ### Traps -/

/-- A register of a trap context's bank at entry: t0 to t5 uniform, t2:t3 and t4:t5 as pairs; others undefined (R53, R336, log 10, DEDUCED). -/
def bankReg (vals : List RegKind) (nonce i : Nat) : RegCell :=
  match vals[i]? with
  | some k => ⟨k, 0⟩
  | none => ⟨.f32 (lo64 (Config.freeWord (nonce + i))) (hi64 (Config.freeWord (nonce + i))), 0⟩

/-- The handler's group at entry (R303, R336): the interrupted threads, the bank as its registers, undefined
predicates, FPCTL at its default, an empty return stack. -/
def handlerGrp (g : Grp) (u : ISet) (gid : Nat) (t : TrapReq) (pc : W64) (code : List W32) (fpctl : BitVec 3)
    (nonce : Nat) : Grp :=
  let vals : List RegKind := [.f32 (BitVec.ofNat 32 t.cause) 0, .f32 (BitVec.ofNat 32 t.count) 0, .f64 t.tdata 0, .f64hi, .f64 t.tpc 0, .f64hi]
  let g' : Grp :=
    { g with
      gid := gid
      regs := (upto 0 16).map (bankReg vals nonce)
      units := [{ ISet.start pc with lanes := u.lanes, code := code }]
      preds := g.preds.map fun p => { p with rel := 0 }
      lanes := (lanesOf u.lanes).map fun l => ⟨l, [], fpctl, []⟩
      stq := [], held := false }
  (upto 0 7).foldl (fun h p => h.pundef p u.lanes (nonce + 16 + p)) g'

/-- A group enters its trap context (R336). A TRAPV that is no segment start ends the block with kind 7, or a control
core's command with QERR 5 (R336, R340). -/
def State.enterTrap (s : State) (e : Env) (t : TrapReq) : State :=
  match e.ctx with
  | none => match e.who with
    | .cc c => s.abandon c
    | _ => s
  | some c =>
    let i := e.idx e.first
    let (s, f) := s.fetchSeg c e.die e.bid i c.trapv
    match f with
    | .words ws =>
      let s := s.takeFrame e.bid i
      let (tid, s) := s.fresh
      let (gid, s) := s.fresh
      -- the threads' own queue entries go with them
      let mine (i : Nat) : Bool := e.members.any fun p => e.idx p == i
      let h := { handlerGrp e.grp e.unit gid t c.trapv ws c.fpctlDef s.free with
        stq := e.grp.stq.filterMap (SqEntry.only mine) }
      let s := (s.spend 32).onGrp e.who fun g => { g with stq := g.stq.filterMap (SqEntry.only fun i => !mine i) }
      let tc : TrapCtx :=
        { tid := tid, core := e.core, part := e.part, bid := e.bid, gid := e.grp.gid, lane := e.unit.low
          cause := t.cause, tdata := t.tdata, tidx := if e.solo then 0 else e.grp.lo + e.first
          tpc := t.tpc, entryTpc := t.tpc, word := t.word, groups := [h], ended := [] }
      match e.who with
      | .cc n => s.onCc n fun k => { k with trap := some tc }
      | _ => { s.onUnit e.who (fun u => { u with stat := .inTrap tid }) with traps := s.traps ++ [tc] }
    -- the page of TRAPV cannot be scanned yet: the trap waits (R158, R382)
    | .later => s.onUnit e.who fun u => { u with stat := .trapHeld t }
    -- it lies beyond the fabric: the trap waits for it (R376)
    | .ask frame => (s.askFrame e.bid i frame c.trapv ⟨t.word, e.unit.seg, !e.grp.span, e.ctx⟩).onUnit e.who fun u => { u with stat := .trapHeld t }
    | _ => match e.who with
      | .cc n => s.abandon n
      | _ => s.groupFault e 7 0 0 t.word.toNat c.trapv.toNat

/-- Results in flight have landed (R61, R339). -/
def Grp.landed (g : Grp) (u : ISet) : Grp := g.onLanes u fun l => { l with flight := [] }

/-- A group of a core and partition is held at a trapping word: it trapped earlier and is served first (R340). -/
def State.trapQueue (s : State) (core part : Nat) : List (TrapReq × Nat × Who) :=
  s.blocks.flatMap fun b =>
    if b.core = core ∧ b.st = .running then
      match s.launch? b.lid with
      | none => []
      | some l => b.groups.flatMap fun g => if partOfWindow l b.num (g.lo / 32) = part then g.units.filterMap fun u =>
          match u.stat with
          | .trapHeld t => some (t, g.lo + (if g.span then 0 else u.low), .kern b.bid g.gid u.low)
          | _ => none
        else []
    else []

/-- Results of the acting threads' atomics are still to land: a trap is entered after them (R61, R339). -/
def State.landing (s : State) (e : Env) : Bool := s.atoms.any fun a => a.bid == e.bid && e.members.any fun p => e.idx p == a.idx

/-- What an LD128 has read of the acting word in halves does not outlast a trap or fault at it: the word runs again, whole (R109,
R218, R338). -/
def State.whole (s : State) (e : Env) : State :=
  if e.unit.half.isSome then s.onUnit e.who fun u => { u with half := none } else s

/-- A trap of the acting group (R336 to R340): it enters its trap context once the group's results have landed (R61), in
the order of the traps (R303, R340), and till then is held at the word; inside a handler it ends the block with kind 13,
or a control core's command with QERR 5. -/
def State.raise (s : State) (e : Env) (t : TrapReq) : State :=
  let s := s.whole e
  let s' := s.onGrp e.who fun g => g.landed e.unit
  let held := s'.onUnit e.who fun u => { u with stat := .trapHeld t }
  match e.who with
  | .kern _ _ _ =>
    if s.traps.any (fun x => x.core == e.core && x.part == e.part) || !(s.trapQueue e.core e.part).isEmpty || s.landing e then held
    else s'.enterTrap { e with grp := e.grp.landed e.unit } t
  | .hand _ _ _ => s.groupFault e 13 0 0 t.word.toNat 0
  | .cc _ => if s.landing e then held else s'.enterTrap { e with grp := e.grp.landed e.unit } t
  | .ccHand c => s.abandon c

/-- A trap taken at the acting word, which has had no effect (R338). -/
def State.trapWord (s : State) (e : Env) (cause : Nat) (tdata : W64) (count : Nat) : State :=
  s.raise e ⟨cause, tdata, count, e.unit.pc, e.unit.pc, s.tick⟩

/-! ### Data faults -/

/-- A failed translation or ownership check of the acting group's access (R331, R333, R348): kinds 1 to 3 hold the group at
the word behind its record, kind 4 ends the block; a control core takes a translation trap; in a handler the block or
command ends. An ownership fault ends the block with kind 8 at every level. Data whose check fails ends it as a storage
error, kind 9 (R111), and is a translation trap of a control core (log 65, DEDUCED). -/
def State.dataFault (s : State) (e : Env) (kind level acc : Nat) (addr : W64) (ps : List Nat) : State :=
  let s := s.whole e
  match e.who with
  | .kern _ _ _ =>
    if kind = 9 then
      match s.block? e.bid with
      | some b => s.storageEnd b (e.fault 9 0 acc addr.toNat ps)
      | none => s
    else
    match s.block? e.bid, e.launch with
    | some b, some l =>
      let r := e.fault kind level acc addr.toNat ps
      if kind = 4 ∨ kind = 8 then s.endFault b r
      else
        let (s, ok) := s.record l r (some e.who)
        s.onUnit e.who fun u => { u with stat := if ok then .dataFault kind else .ringWait }
    | _, _ => s
  | .hand _ _ _ =>
    if kind = 8 then s.groupFault' e kind acc addr ps
    else if kind = 9 then
      match s.block? e.bid with
      | some b => s.storageEnd b (e.fault 9 0 acc addr.toNat ps)
      | none => s
    else s.trapWord e 17 addr ps.length
  | _ => s.trapWord e 17 addr ps.length

/-! ### The shape of a word -/

/-- Which registers and predicates a word names, and how (R44, R55 to R60). -/
structure Shape where
  /-- registers every member reads, and those only the lowest-index member's value is read of -/
  srcs : List Nat := []
  firsts : List Nat := []
  dsts : List Nat := []
  psrcs : List Nat := []
  pdsts : List Nat := []
  /-- registers named without being read or written -/
  names : List Nat := []
  /-- sources it releases -/
  rel : List Nat := []
  /-- its fixed latency, or none -/
  lat : Option Nat := some 1
  gap : Nat := 1
  /-- a trap taken before the register range is checked: role, privilege (R16, R150) -/
  pre : Option Nat := none
  /-- a trap taken after it: tile range (R52) -/
  post : Option Nat := none
deriving DecidableEq, Repr

/-- Every register a word names. -/
def Shape.regs (sh : Shape) : List Nat := sh.srcs ++ sh.firsts ++ sh.dsts ++ sh.names

/-- Gap of a word by its S field (R58). -/
def gapOf (st : BitVec 2) (lat : Option Nat) : Nat :=
  match st.toNat with
  | 0 => 1
  | 1 => 2
  | 2 => 4
  | _ => lat.getD 1

/-- The lanes of a unit in which a register is released; of a span, lane 0. -/
def Grp.relMask (g : Grp) (lanes : W32) (r : Nat) : W32 :=
  let m := (g.cell r).rel
  if g.span then (if m = 0 then 0 else 1) else m &&& lanes

/-- The lanes of a unit in which a predicate is released. -/
def Grp.prelMask (g : Grp) (lanes : W32) (p : Nat) : W32 :=
  let m := (g.pcell p).rel
  if g.span then (if m = 0 then 0 else 1) else m &&& lanes

/-- A result in flight counts against a read of a register or predicate, or, with `n` some number, against a write that lands
in `n` cycles (R59): a word that reads after a later write reads that write. -/
def Flight.counts (f : Flight) (isPred : Bool) (n : Option Nat) (r : Nat) : Bool :=
  f.isPred == isPred && f.num == r && (match n with
    | none => !f.stale
    | some n => decide (n ≤ f.left))

/-- The lanes of a unit in which a result in flight counts against a read or write of a register or predicate (R59). -/
def Grp.flightMask (g : Grp) (u : ISet) (isPred : Bool) (n : Option Nat) (r : Nat) : W32 :=
  maskOf ((g.lanes.filter fun l => bit u.lanes.toNat l.lane && l.flight.any fun f => f.counts isPred n r).map (·.lane))

/-- Threads in a lane mask of a group. -/
def Grp.threads (g : Grp) (m : W32) : Nat :=
  if m = 0 then 0 else if g.span then g.hi - g.lo else popc 32 m.toNat

/-- The lanes in which the word reads a released register or predicate (R56). -/
def Env.released (e : Env) (sh : Shape) : W32 :=
  let one := maskOf [if e.grp.span then 0 else e.first]
  sh.srcs.foldl (fun m r => m ||| e.grp.relMask e.unit.lanes r) 0
    ||| sh.firsts.foldl (fun m r => m ||| (e.grp.relMask e.unit.lanes r &&& one)) 0
    ||| sh.psrcs.foldl (fun m p => m ||| e.grp.prelMask e.unit.lanes p) 0

/-- The lanes in which the lowest-index member's value is read of a register while a result in flight counts against it (R59). -/
def Env.firstMask (e : Env) (r : Nat) : W32 :=
  let p := if e.grp.span then 0 else e.first
  if (e.grp.lane p).flight.any fun f => f.counts false none r && f.holds (e.idx e.first) then maskOf [p] else 0

/-- The lanes in which the word breaks a stall count (R59). -/
def Env.stalled (e : Env) (sh : Shape) : W32 :=
  let rd (isPred : Bool) (l : List Nat) : W32 := l.foldl (fun m r => m ||| e.grp.flightMask e.unit isPred none r) 0
  let wr (isPred : Bool) (l : List Nat) : W32 := match sh.lat with
    | some n => l.foldl (fun m r => m ||| e.grp.flightMask e.unit isPred (some n) r) 0
    | none => 0
  rd false sh.srcs ||| sh.firsts.foldl (fun m r => m ||| e.firstMask r) 0 ||| rd true sh.psrcs ||| wr false sh.dsts ||| wr true sh.pdsts

/-- The results in flight that the word breaks the stall count of, and whether only the lowest-index member's value is read
(R59). -/
def Shape.broken (sh : Shape) (f : Flight) : Bool × Bool :=
  let rd (isPred : Bool) (l : List Nat) : Bool := l.any fun r => f.counts isPred none r
  let wr (isPred : Bool) (l : List Nat) : Bool := match sh.lat with
    | some n => l.any fun r => f.counts isPred (some n) r
    | none => false
  (rd false sh.srcs || rd true sh.psrcs || wr false sh.dsts || wr true sh.pdsts, rd false sh.firsts)

/-- The members for which the word breaks a stall count, by position (R59). -/
def Env.stallers (e : Env) (sh : Shape) : List Nat :=
  e.members.filter fun p =>
    (if e.grp.span then e.grp.lane 0 else e.grp.lane p).flight.any fun f =>
      f.holds (e.idx p) && ((sh.broken f).1 || ((sh.broken f).2 && p == e.first))

/-- In a span, the word breaks the stall count of some threads only (R59). -/
def Env.stallsPart (e : Env) (sh : Shape) : Bool :=
  e.grp.span && (e.grp.lane 0).flight.any fun f => !f.of.isEmpty && (sh.broken f).1

/-- A register awaits the result of an atomic of a member (R60); a word that reports how the register is held waits too
(log 90, DEDUCED). -/
def State.scoreboard (s : State) (e : Env) (sh : Shape) : Bool :=
  s.atoms.any fun a => a.bid == e.bid && a.hand == e.inTrap && e.members.any (fun p => e.idx p == a.idx) &&
    (sh.srcs ++ sh.firsts ++ sh.dsts ++ sh.names).any fun r => r == a.d || (laWidth a.op == 8 && r == a.d + 1)

/-- What stops a word before it has any effect. -/
inductive Hazard where
  | trap (cause : Nat) (tdata : W64) (count : Nat)
  | wait
  /-- it breaks the stall count of some threads of a span, unchecked: the span expands, so that those alone read undefined
  values (log 9, DEDUCED) -/
  | expand
deriving DecidableEq, Repr

/-- The checks every word passes before its own (R225, R240), in order (log 25, DEDUCED). -/
def State.hazard (s : State) (e : Env) (sh : Shape) : Option Hazard :=
  let word := BitVec.ofNat 64 e.unit.word
  match sh.pre with
  | some c => some (.trap c word e.count)
  | none =>
    if sh.regs.any (fun r => decide (e.g ≤ r)) then some (.trap 2 word e.count)
    else match sh.post with
      | some c => some (.trap c word e.count)
      | none =>
        if s.scoreboard e sh then some .wait
        else if !e.check then (if e.stallsPart sh then some .expand else none)
        else
          let r := e.released sh
          if r ≠ 0 then some (.trap 5 word (e.grp.threads r))
          else match e.stallers sh with
            | [] => none
            | ps => some (.trap 6 word ps.length)

/-- The group as an unchecked word reads it: what is released or not yet written reads as undefined values (R56, R59,
log 9, DEDUCED). -/
def Env.undefView (e : Env) (sh : Shape) (nonce : Nat) : Grp :=
  let bad (m : W32) (v : Grp) (r : Nat) : Grp := if m = 0 then v else v.undef r m (nonce + 32 * r)
  let v := sh.srcs.foldl (fun (v : Grp) r => bad (e.grp.relMask e.unit.lanes r ||| e.grp.flightMask e.unit false none r) v r) e.grp
  let v := sh.firsts.foldl (fun (v : Grp) r => bad (e.grp.relMask e.unit.lanes r ||| e.firstMask r) v r) v
  sh.psrcs.foldl (fun v p =>
    let m := e.grp.prelMask e.unit.lanes p ||| e.grp.flightMask e.unit true none p
    if m = 0 then v else v.pundef p m (nonce + 2048 + p)) v

/-- What a word reads from and writes to: the view, and the group with the sources it releases released (R55). -/
def State.prepare (s : State) (e : Env) (sh : Shape) : State × Env :=
  let g := sh.rel.foldl (fun (g : Grp) r => g.release e.unit r) e.grp
  if e.check || (e.released sh ||| e.stalled sh) == 0 then (s, { e with grp := g, view := e.grp })
  else (s.spend 4096, { e with grp := g, view := e.undefView sh s.free })

/-! ### Completing a word -/

/-- The unit at its next word. -/
def ISet.advance (u : ISet) : ISet :=
  { u with pc := u.pc + 4, left := u.left - 1, code := u.code.drop 1, asked := false, half := none }

/-- The results in flight after a word (R57 to R59): one whose destination the word writes is still to land, and later words
that write there count against it. -/
def flightsAfter (sh : Shape) (l : LaneSt) : LaneSt :=
  let older := l.flight.filterMap fun f =>
    let stale := f.stale || (if f.isPred then sh.pdsts else sh.dsts).contains f.num
    if f.left ≤ sh.gap then none else some { f with left := f.left - sh.gap, stale := stale }
  let new (isPred : Bool) (r : Nat) : Flight := ⟨isPred, r, (sh.lat.getD 0) - sh.gap, false, []⟩
  let added := if (sh.lat.getD 0) ≤ sh.gap then [] else sh.dsts.map (new false) ++ sh.pdsts.map (new true)
  { l with flight := older ++ added }

/-- An unchecked word that breaks a write's stall count leaves its destination undefined (R59). -/
def Env.spoil (e : Env) (old : Grp) (sh : Shape) (nonce : Nat) : Grp :=
  match sh.lat with
  | none => e.grp
  | some n =>
    let g := sh.dsts.foldl (fun (g : Grp) r =>
      let m := old.flightMask e.unit false (some n) r
      if m = 0 then g else g.undef r m (nonce + 32 * r)) e.grp
    sh.pdsts.foldl (fun (g : Grp) p =>
      let m := old.flightMask e.unit true (some n) p
      if m = 0 then g else g.pundef p m (nonce + 2048 + p)) g

/-- Registers of some threads of a block are written: a matrix word that reads one as its index register is disturbed
(R130). -/
def State.indexWritten (s : State) (bid : Nat) (is ds : List Nat) : State :=
  s.disturb bid fun r => (match r.kind with
    | .matrix m => ds.contains m.reg
    | _ => false) && is.any r.issuers.contains

/-- The acting threads write registers of their kernel's group. -/
def State.regsWritten (s : State) (e : Env) (ds : List Nat) : State :=
  match e.who with
  | .kern _ _ _ => s.indexWritten e.bid (e.members.map e.idx) ds
  | _ => s

/-- A word has completed: its group as written, the results in flight, the unit at the next word. -/
def State.finish (s : State) (e : Env) (old : Grp) (sh : Shape) : State :=
  let lands := some (sh.lat.getD 1024)
  let hit := !e.check && ((sh.dsts.any fun r => old.flightMask e.unit false lands r != 0) ||
    (sh.pdsts.any fun p => old.flightMask e.unit true lands p != 0))
  let g := if hit then e.spoil old sh s.free else e.grp
  let g := g.onLanes e.unit (flightsAfter sh)
  let s := if hit then s.spend 4096 else s
  (s.putGrps e.who [g.setUnit e.unit.advance]).regsWritten e sh.dsts

/-! ### Splitting and expanding -/

/-- Give a unit a new innermost node; a step that forms more than one group says so (R364). -/
def ISet.enter (u : ISet) (node : Nat) (kind : NodeKind) (child : Nat) (many : Bool := true) : ISet :=
  { u with path := ⟨node, kind, child⟩ :: u.path, stepSplit := u.stepSplit || (u.stepping && many) }

/-- The room a group takes: a span one slot, a sheaf the registers it holds as a value per lane and has not released in all
of its live lanes (R1; log 83, DEDUCED). -/
def Grp.room (g : Grp) : Nat :=
  if g.span then 1
  else (g.regs.filter fun c => (match c.kind with
    | .e _ _ => true
    | _ => false) && c.rel &&& g.live != g.live).length

/-- The room for groups of a kind in a partition (R1). -/
def slotRoom (span : Bool) : Nat := if span then Config.spanSlots else Config.sheafRegs

/-- The room that groups of a partition that are placed take, of a kind (R1, R28). -/
def State.slotsUsed (s : State) (core part : Nat) (span : Bool) : Nat :=
  s.blocks.foldl (fun n b =>
    if b.core = core ∧ b.st = .running then
      match s.launch? b.lid with
      | some l => ((b.groups.filter fun g =>
          g.span == span && !g.held && !g.units.isEmpty && partOfWindow l b.num (g.lo / 32) == part).map Grp.room).foldl (· + ·) n
      | none => n
    else n) 0

/-- Place groups of a block on a core in turn, those that find no room held (R28); `back` is room given back: by partition
and kind. -/
def State.place (s : State) (l : Launch) (num core : Nat) (back : Nat → Bool → Nat) (gs : List Grp) : List Grp :=
  (gs.foldl (fun (acc : List Grp × List (Nat × Bool × Nat)) g =>
    let part := partOfWindow l num (g.lo / 32)
    let taken := ((acc.2.filter fun x => x.1 == part && x.2.1 == g.span).map fun x => x.2.2).foldl (· + ·) 0
    let h := decide (slotRoom g.span < s.slotsUsed core part g.span - back part g.span + taken + g.room)
    ({ g with held := h } :: acc.1, if h then acc.2 else (part, g.span, g.room) :: acc.2)) ([], [])).1.reverse

/-- Groups beyond the slots of their partition are held in the slow file (R28); `gs` take the place of one group. -/
def State.holdNew (s : State) (e : Env) (gs : List Grp) : List Grp :=
  match e.who, e.launch with
  | .kern _ _ _, some l =>
    let mine := partOfWindow l e.num (e.grp.lo / 32)
    s.place l e.num e.core (fun part span => if part = mine ∧ e.grp.span = span ∧ !e.grp.held then e.grp.room else 0) gs
  | _, _ => gs

/-- The span expands at the word (R29): one sheaf per window, under an expansion node; the sheaf of window i is the group with
identity i past the next (log 12, DEDUCED). -/
def State.expandGrp (s : State) (e : Env) : State :=
  let (n, s) := s.fresh
  let ws := e.grp.windows
  let gs := ((upto 0 ws.length).zip ws).map fun (i, w) => e.grp.sheaf (s.nextId + i) w (e.unit.enter n .expansion w (decide (1 < ws.length)))
  let s := { s with nextId := s.nextId + ws.length }
  s.putGrps e.who (s.holdNew e gs)

/-- The span splits at a threshold (R27): the two children as given units, under a span-cut node. -/
def State.splitSpan (s : State) (e : Env) (k : Nat) (below above : ISet) : State :=
  let (n, s) := s.fresh
  let (g1, s) := s.fresh
  let (g2, s) := s.fresh
  let a := e.grp.part g1 e.grp.lo k (below.enter n .cut 0)
  let b := e.grp.part g2 k e.grp.hi (above.enter n .cut 1)
  s.putGrps e.who (s.holdNew e [a, b])

/-- The unit of a sheaf divides into the given ones, each with its lanes; more than one records a lane-predicate branch
node (R36, R176). -/
def State.divide (s : State) (e : Env) (us : List ISet) : State :=
  match us with
  | [u] => s.putGrps e.who [e.grp.setUnit { u with lanes := e.unit.lanes }]
  | _ =>
    let (n, s) := s.fresh
    let us := ((upto 0 us.length).zip us).map fun (i, u) => u.enter n .lanes i
    let units := e.grp.units.flatMap fun u => if u.lanes == e.unit.lanes then us else [u]
    s.putGrps e.who [{ e.grp with units := units }]

/-! ### The outcome of a word -/

/-- What a word's own meaning says, once its shared checks have passed. -/
inductive Eff where
  /-- it completes: the environment holds the group as written -/
  | done (s : State) (e : Env)
  /-- it has moved its group itself -/
  | moved (s : State)
  /-- a trap at the word (R337) -/
  | trap (cause : Nat) (tdata : W64) (count : Nat)
  /-- a data or ownership fault: kind, LEVEL, ACC, address and positions of the failing members (R332) -/
  | fault (s : State) (kind level acc : Nat) (addr : W64) (ps : List Nat)
  /-- the group waits at the word -/
  | hold (s : State) (st : Stat)
  /-- nothing happens yet -/
  | wait
  /-- the span expands (R22) -/
  | expand
deriving DecidableEq, Repr

/-- In a span, the word writes the low half of an F64 pair whose high half is no form by itself: the span expands
(R46). -/
def Env.splitsPair (e : Env) (sh : Shape) : Bool :=
  e.grp.span && sh.dsts.any fun d => d % 2 == 0 && !sh.dsts.contains (d + 1) && (e.grp.form32 (d + 1)).isNone

/-- A word runs: shared checks, its own meaning, and what follows. -/
def State.runWord (s : State) (shape : Env → Shape) (f : State → Env → Eff) : Host.Outcome State Fault Refusal :=
  match s.env? s.turn with
  | none => .fault .noActor
  | some e =>
    let sh := shape e
    match s.hazard e sh with
    | some (.trap c d n) => .next (s.trapWord e c d n)
    | some .wait => .next s
    | some .expand => .next (s.expandGrp e)
    | none =>
      let (s1, e1) := s.prepare e sh
      match f s1 e1 with
      | .done t e2 => if e.splitsPair sh then .next (s.expandGrp e) else .next (t.finish e2 e.grp sh)
      | .moved t => .next t
      | .trap c d n => .next (s.trapWord e c d n)
      | .fault t k l a v ps => .next (t.dataFault e k l a v ps)
      | .hold t st => .next (t.onUnit e.who fun u => { u with stat := st })
      | .wait => .next s
      | .expand => .next (s.expandGrp e)

/-- Write a result for the acting members; on a control core every result is uniform (R192). -/
def Env.write (e : Env) (d : Nat) (r : Res) : Env :=
  let r := if e.solo then (match r with
    | .form b _ => .form b 0
    | .form64 b _ => .form64 b 0
    | .lanes vs => .form (nth vs 0 0) 0
    | .lanes64 vs => .form64 (nth vs 0 0) 0) else r
  { e with grp := e.grp.write e.unit d r }

/-- Write a predicate for the acting members. -/
def Env.pwrite (e : Env) (p : Nat) (r : PRes) : Env := { e with grp := e.grp.pwrite e.unit p r }

/-! ### Entering a segment -/

/-- The unit at a new segment, its words not yet fetched (R176). -/
def ISet.goto (u : ISet) (pc : W64) : ISet := { u with via := u.pc, pc := pc, left := 0, code := [] }

end Sys2Proof.Machine
end

