-- ==== Sys2Proof/Machine/Operands.lean ====
section
/-! DEFINITION. Operands of register words: sources as forms and per thread, the closure rules of form words (R165 to
R172), and the scalar datapath of lane words (R33). Numbers are read as naturals of the operand's width; a form is its
base and its signed stride. -/

namespace Sys2Proof.Machine

/-- Width in bits of an operand. -/
def widthOf (wide : Bool) : Nat := if wide then 64 else 32

/-- The registers an operand names. -/
def regsOf (wide : Bool) (r : Nat) : List Nat := if wide then [r, r + 1] else [r]

/-- A thread's index as words see it: 0 on a control core (R192). -/
def Env.index (e : Env) (pos : Nat) : Nat := if e.solo then 0 else e.grp.lo + pos

/-- A source as a form, if it reads as one (R46, R47). -/
def Env.form (e : Env) (wide : Bool) (r : Nat) : Option (Nat × Int) :=
  if wide then (e.view.form64 r).map fun f => (f.1.toNat, int32 f.2)
  else (e.view.form32 r).map fun f => (f.1.toNat, int32 f.2)

/-- A thread's value of a source. -/
def Env.val (e : Env) (wide : Bool) (r pos : Nat) : Nat :=
  if wide then (e.view.val64 r pos).toNat else (e.view.val r pos).toNat

/-- A result that is a form: the base wrapped to the width; at 64 bits no form unless the stride fits in 32 signed bits
(R20, R165). -/
def formRes (wide : Bool) (b s : Int) : Option Res :=
  if wide then
    let t := sext 64 (wrap 64 s)
    if -2147483648 ≤ t ∧ t < 2147483648 then some (.form64 (toW64 b) (toW32 t)) else none
  else some (.form (toW32 b) (toW32 s))

/-- A result per lane. -/
def lanesRes (wide : Bool) (f : Nat → Int) : Res :=
  if wide then .lanes64 ((upto 0 32).map fun l => toW64 (f l)) else .lanes ((upto 0 32).map fun l => toW32 (f l))

/-- The representation of a form word's result (R165, R33): the closure's form in a span (none: it expands) and for a
sheaf's whole live set, per lane otherwise; uniform on a control core (R192). -/
def Env.formWord (e : Env) (wide : Bool) (clo : Option Res) (f : Nat → Int) : Option Res :=
  if e.solo then formRes wide (f 0) 0
  else if e.grp.span then clo
  else if e.whole then some (clo.getD (lanesRes wide f))
  else some (lanesRes wide f)

/-- The representation of a lane word's result (R33): uniform where every source is uniform, the issue set is whole and,
for a word that reads FPCTL, all members hold one FPCTL; else per lane. In a span without that it expands (R162). -/
def Env.laneWord (e : Env) (wide uniform : Bool) (f : Nat → Int) : Option Res :=
  if e.solo then formRes wide (f 0) 0
  else if uniform && e.whole then formRes wide (f e.first) 0
  else if e.grp.span then none
  else some (lanesRes wide f)

/-- Both halves of a pair are uniform F32 registers (R200). -/
def Grp.uniformHalves (g : Grp) (r : Nat) : Bool :=
  match (g.cell r).kind, (g.cell (r + 1)).kind with
  | .f32 _ s, .f32 _ t => s == 0 && t == 0
  | _, _ => false

/-- A source is uniform: a form with stride 0; a pair also with two uniform F32 halves, whatever lanes are live (R200). -/
def Env.uniform (e : Env) (wide : Bool) (r : Nat) : Bool :=
  match e.form wide r with
  | some f => f.2 == 0
  | none => wide && e.view.uniformHalves r

/-- Every member holds the same FPCTL (R200). -/
def Env.sameFp (e : Env) : Bool :=
  match e.members with
  | [] => true
  | p :: r => e.grp.span || r.all fun q => (e.grp.lane q).fpctl == (e.grp.lane p).fpctl

/-- A result the same for every member: uniform F when the issue set is whole, else E (R227). -/
def Env.sameWord (e : Env) (wide : Bool) (x : Int) : Res :=
  if e.whole || e.solo then (if wide then .form64 (toW64 x) 0 else .form (toW32 x) 0) else lanesRes wide fun _ => x

/-- Write a result, or expand where there is none. -/
def Env.put (e : Env) (s : State) (d : Nat) : Option Res → Eff
  | some r => .done s (e.write d r)
  | none => .expand

/-! ### Values and closures (R168) -/

/-- The positions a closure ranges over (R165). -/
def Env.range (e : Env) : List Nat := e.grp.positions

/-- A form's exact sequence stays in the range of a reading at every position (R25, R165); it is monotone, so the ends
decide. -/
def Env.noWrap (e : Env) (signed : Bool) (w : Nat) (f : Nat × Int) : Bool :=
  match e.range with
  | [] => true
  | p :: r =>
    let q := r.foldl Nat.max p
    let ok (x : Int) : Bool := decide (loRange signed w ≤ x) && decide (x < hiRange signed w)
    ok (baseAs signed w f.1 + f.2 * p) && ok (baseAs signed w f.1 + f.2 * q)

/-- SpanCompare is trivial over the range: all true, or all false (R25, R168). -/
def Env.trivial (e : Env) (c : Cond) (signed : Bool) (w : Nat) (x y : Nat × Int) : Option Bool :=
  if e.noWrap signed w x && e.noWrap signed w y then
    let t (p : Nat) : Bool := condHolds c (baseAs signed w x.1 + x.2 * p) (baseAs signed w y.1 + y.2 * p)
    if e.range.all t then some true else if e.range.all fun p => !t p then some false else none
  else none

/-- A binary form word: the width, its value on threads' values, its closure on forms. -/
structure Op2 where
  val : Nat → Nat → Nat → Int
  clo : Env → Nat → (Nat × Int) → (Nat × Int) → Option (Int × Int)

/-- The form of both sources' sum or difference, and of a product by a uniform factor. -/
def opAdd : Op2 := ⟨fun _ a b => (a : Int) + b, fun _ _ a b => some ((a.1 : Int) + b.1, a.2 + b.2)⟩

/-- ISUB. -/
def opSub : Op2 := ⟨fun _ a b => (a : Int) - b, fun _ _ a b => some ((a.1 : Int) - b.1, a.2 - b.2)⟩

/-- IMUL: a form when one source is uniform. -/
def opMul : Op2 :=
  ⟨fun _ a b => (a : Int) * b,
   fun _ _ a b => if b.2 = 0 then some ((a.1 : Int) * b.1, a.2 * b.1)
     else if a.2 = 0 then some ((b.1 : Int) * a.1, b.2 * a.1) else none⟩

/-- The count of a shift (R167). -/
def shiftCount (w b : Nat) : Nat := b % w

/-- SHL. -/
def opShl : Op2 :=
  ⟨fun w a b => (a : Int) * 2 ^ shiftCount w b,
   fun _ w a b => if b.2 = 0 then some ((a.1 : Int) * 2 ^ shiftCount w b.1, a.2 * 2 ^ shiftCount w b.1) else none⟩

/-- SHR. -/
def opShr : Op2 :=
  ⟨fun w a b => (a / 2 ^ shiftCount w b : Nat),
   fun e w a b =>
     let k : Nat := 2 ^ shiftCount w b.1
     if b.2 = 0 ∧ (a.2 = 0 ∨ (a.2 % k = 0 ∧ e.noWrap false w a = true)) then some (((a.1 / k : Nat) : Int), a.2 / k) else none⟩

/-- SAR. -/
def opSar : Op2 :=
  ⟨fun w a b => sext w a / 2 ^ shiftCount w b,
   fun e w a b =>
     let k : Nat := 2 ^ shiftCount w b.1
     if b.2 = 0 ∧ (a.2 = 0 ∨ (a.2 % k = 0 ∧ e.noWrap true w a = true)) then some (sext w a.1 / k, a.2 / k) else none⟩

/-- A bitwise word: a form when both sources are uniform. -/
def opBits (f : Nat → Nat → Nat) : Op2 :=
  ⟨fun _ a b => (f a b : Nat), fun _ _ a b => if a.2 = 0 ∧ b.2 = 0 then some ((f a.1 b.1 : Nat), 0) else none⟩

/-- A minimum or maximum: a form when the comparison is trivial over the range. -/
def opPick (c : Cond) (signed : Bool) : Op2 :=
  ⟨fun w a b => if condHolds c (baseAs signed w a) (baseAs signed w b) then (a : Int) else b,
   fun e w a b => (e.trivial c signed w a b).map fun t => if t then ((a.1 : Int), a.2) else ((b.1 : Int), b.2)⟩

/-- The representation of a binary form word's result. -/
def Env.op2 (e : Env) (op : Op2) (wide : Bool) (fa fb : Option (Nat × Int)) (va vb : Nat → Nat) : Option Res :=
  let w := widthOf wide
  let clo := match fa, fb with
    | some a, some b => (op.clo e w a b).bind fun r => formRes wide r.1 r.2
    | _, _ => none
  e.formWord wide clo fun p => op.val w (va p) (vb p)

/-- The shape of an FR word: d and its sources, b present or not, which are pairs (R167). -/
def frShape (d : Nat) (dw : Bool) (a : Nat) (aw : Bool) (b : Option (Nat × Bool)) (ka kb : Bool) : Shape :=
  let rb := match b with
    | some x => regsOf x.2 x.1
    | none => []
  { dsts := regsOf dw d, srcs := regsOf aw a ++ rb
    rel := (if ka then regsOf aw a else []) ++ (if kb then rb else []) }

/-- An FR word of two sources; `bw`: b is a pair under the wide form. -/
def State.fr2 (s : State) (op : Op2) (d a b : Nat) (ka kb wide bw : Bool) : Host.Outcome State Fault Refusal :=
  s.runWord (fun _ => frShape d wide a wide (some (b, wide && bw)) ka kb) fun s e =>
    e.put s d (e.op2 op wide (e.form wide a) (e.form (wide && bw) b) (e.val wide a) (e.val (wide && bw) b))

/-- An FR word of one source: the second operand is a constant. -/
def State.fr1 (s : State) (op : Op2) (k : Nat) (d a : Nat) (ka wide : Bool) : Host.Outcome State Fault Refusal :=
  s.runWord (fun _ => frShape d wide a wide none ka false) fun s e =>
    e.put s d (e.op2 op wide (e.form wide a) (some (k, 0)) (e.val wide a) fun _ => k)

/-- An FI word: the second operand is the immediate, wrapped to the width (R171). -/
def State.fi (s : State) (op : Op2) (d a : Nat) (imm : BitVec 12) (wide : Bool) : Host.Outcome State Fault Refusal :=
  let k := wrap (widthOf wide) (sext 12 imm.toNat)
  s.runWord (fun _ => { dsts := regsOf wide d, srcs := regsOf wide a }) fun s e =>
    e.put s d (e.op2 op wide (e.form wide a) (some (k, 0)) (e.val wide a) fun _ => k)

/-! ### Lane words -/

/-- A lane word on registers: its width of d and sources, latency, and the value of a thread. -/
structure LaneOp where
  lat : Nat
  dw : Bool
  fp : Bool

/-- A lane register word (LR, LT): sources with their widths, the value from a thread's FPCTL and source values (R200). -/
def State.lane (s : State) (op : LaneOp) (d : Nat) (srcs : List (Nat × Bool)) (rel : List Nat) (st : BitVec 2)
    (f : Env → BitVec 3 → List Nat → Nat) : Host.Outcome State Fault Refusal :=
  s.runWord
    (fun _ => { dsts := regsOf op.dw d, srcs := srcs.flatMap fun x => regsOf x.2 x.1
                rel := rel, lat := some op.lat, gap := gapOf st (some op.lat) })
    fun s e =>
      let uni := srcs.all (fun x => e.uniform x.2 x.1) && (!op.fp || e.sameFp)
      e.put s d (e.laneWord op.dw uni fun p => (f e (e.grp.lane p).fpctl (srcs.map fun x => e.val x.2 x.1 p) : Nat))

/-- The rounding mode of an FPCTL value (R50). -/
def rmOf (c : BitVec 3) : RMode := RMode.ofCode (c.toNat % 4)

/-- The FTZ bit of an FPCTL value (R50). -/
def ftzOf (c : BitVec 3) : Bool := bit c.toNat 2

end Sys2Proof.Machine
end

