-- ==== Sys2Proof/Machine/Flags.lean ====
section
/-! DEFINITION. Predicates: compares over forms and per thread (R25, R173), predicate logic (R26, R174), and how a word
consumes a predicate (R26, R175). -/

namespace Sys2Proof.Machine

/-- The truth of a whole span as a cut. -/
def Cut.ofBool (b : Bool) : Cut := if b then .allTrue else .allFalse

/-- The representation of a predicate result: a cut in a span (none: it expands), one bit per lane in a sheaf (R173);
one truth on a control core. -/
def Env.pred (e : Env) (cut : Option Cut) (f : Nat → Bool) : Option PRes :=
  if e.solo then some (.cut (Cut.ofBool (f 0)))
  else if e.grp.span then cut.map .cut
  else some (.bits (maskOf ((upto 0 32).filter fun l => f l)))

/-- A predicate result that is the same for every member. -/
def Env.samePred (e : Env) (b : Bool) : PRes := if e.grp.span then .cut (Cut.ofBool b) else .bits (if b then BitVec.allOnes 32 else 0)

/-- Write a predicate, or expand where there is none. -/
def Env.pput (e : Env) (s : State) (p : Nat) : Option PRes → Eff
  | some r => .done s (e.pwrite p r)
  | none => .expand

/-- A predicate's value for a thread as the word reads it. -/
def Env.pval (e : Env) (p pos : Nat) : Bool := e.view.pval p pos

/-- Combine cuts of a span by a truth function, where the result is a cut (R26). -/
def Env.combine (e : Env) (cs : List Cut) (f : List Bool → Bool) : Option Cut :=
  cutOf e.grp.lo e.grp.hi (cs.flatMap Cut.threshold) fun i => f (cs.map fun c => c.at i)

/-- A compare of the acting span as a cut over its indices (R25). -/
def Env.compareCut (e : Env) (c : Cond) (signed : Bool) (w : Nat) (x y : Option (Nat × Int)) : Option Cut :=
  match x, y with
  | some x, some y =>
    (spanCompare c signed w x.1 x.2 y.1 y.2 0 (e.grp.hi - e.grp.lo)).map (Cut.shift e.grp.lo)
  | _, _ => none

/-- How a compare combines with ps (R147). -/
inductive Combine where
  | plain | with_and | with_or
deriving DecidableEq, Repr

/-- The combination of ps with the compare's truth. -/
def Combine.apply : Combine → Bool → Bool → Bool
  | .plain, _, c => c
  | .with_and, p, c => p && c
  | .with_or, p, c => p || c

/-- A compare word: its readings, its second operand a register or a constant, its combination with ps (R173). -/
def State.compare (s : State) (c : Cond) (signed wide : Bool) (pd ps a : Nat) (b : Option Nat) (k : Nat)
    (how : Combine) : Host.Outcome State Fault Refusal :=
  s.runWord
    (fun _ => { srcs := regsOf wide a ++ (match b with
                  | some r => regsOf wide r
                  | none => [])
                psrcs := if how = .plain then [] else [ps], pdsts := [pd] })
    fun s e =>
      let w := widthOf wide
      let fy := match b with
        | some r => e.form wide r
        | none => some (k, 0)
      let vy (p : Nat) : Nat := match b with
        | some r => e.val wide r p
        | none => k
      let cut := (e.compareCut c signed w (e.form wide a) fy).bind fun x =>
        if how = .plain then some x
        else e.combine [e.view.pcut ps, x] fun l => how.apply (nth l 0 false) (nth l 1 false)
      let test (p : Nat) : Bool :=
        how.apply (e.pval ps p) (condHolds c (baseAs signed w (e.val wide a p)) (baseAs signed w (vy p)))
      e.pput s pd (e.pred cut test)

/-- A predicate-logic word on predicates (R174). -/
def State.plogic (s : State) (pd : Nat) (ps : List Nat) (f : List Bool → Bool) : Host.Outcome State Fault Refusal :=
  s.runWord (fun _ => { psrcs := ps, pdsts := [pd] }) fun s e =>
    e.pput s pd (e.pred (e.combine (ps.map e.view.pcut) f) fun p => f (ps.map fun q => e.pval q p))

/-- What a select's predicate is over the range (R175): one truth for all, or not. -/
def Env.choice (e : Env) (p : Nat) (sense : Bool) : Option Bool :=
  let q (x : Nat) : Bool := xor (e.pval p x) sense
  if e.grp.span then
    match (e.view.pcut p) with
    | .allTrue => some !sense
    | .allFalse => some sense
    | _ => none
  else if e.range.all q then some true else if e.range.all fun x => !q x then some false else none

/-- A select word (R175). -/
def State.select (s : State) (d a b p : Nat) (sense wide : Bool) : Host.Outcome State Fault Refusal :=
  s.runWord
    (fun _ => { dsts := regsOf wide d, srcs := regsOf wide a ++ regsOf wide b, psrcs := [p] })
    fun s e =>
      let clo := match e.form wide a, e.form wide b with
        | some x, some y =>
          let pick := match e.choice p sense with
            | some true => some x
            | some false => some y
            | none => if x = y then some x else none
          pick.bind fun f => formRes wide f.1 f.2
        | _, _ => none
      e.put s d (e.formWord wide clo fun pos =>
        if xor (e.pval p pos) sense then (e.val wide a pos : Int) else e.val wide b pos)

end Sys2Proof.Machine
end

