-- ==== Sys2Proof/Machine/Trans.lean ====
section
/-! DEFINITION. The function tables (R83, R84, R210): each transcendental of the exact input, computed in fixed point
of `Config.tableBits` bits, cut with a sticky bit and rounded once (log 19, DEDUCED). -/

namespace Sys2Proof.Machine

/-- One in fixed point. -/
def fxOne : Nat := 2 ^ Config.tableBits

/-- Product in fixed point, cut. -/
def fxMul (x y : Nat) : Nat := x * y / fxOne

/-- The sum over k of x^(2k+1) / (2k+1), signs alternating or all positive, by fuel. -/
def atanSum (alt : Bool) : Nat → Nat → Nat → Nat → Bool → Int → Int
  | 0, _, _, _, _, acc => acc
  | fuel + 1, p, x2, k, neg, acc =>
    let t : Int := p / k
    let acc' := if neg then acc - t else acc + t
    atanSum alt fuel (fxMul p x2) x2 (k + 2) (alt && !neg) acc'

/-- ln 2 = 2 · atanh(1/3). -/
def fxLn2 : Nat := (2 * atanSum false 240 (fxOne / 3) (fxOne / 9) 1 false 0).toNat

/-- π = 16 · atan(1/5) − 4 · atan(1/239). -/
def fxPi : Nat :=
  (16 * atanSum true 160 (fxOne / 5) (fxOne / 25) 1 false 0
    - 4 * atanSum true 60 (fxOne / 239) (fxOne / 57121) 1 false 0).toNat

/-- The sum over k of x^k / k!, by fuel. -/
def expSum : Nat → Nat → Nat → Nat → Nat → Nat
  | 0, _, _, _, acc => acc
  | fuel + 1, t, x, k, acc => expSum fuel (fxMul t x / (k + 1)) x (k + 1) (acc + t)

/-- e^x for x in [0, 1). -/
def fxExp (x : Nat) : Nat := expSum 170 fxOne x 0 0

/-- 2^t for t in [0, 1). -/
def fxExp2 (t : Nat) : Nat := fxExp (fxMul t fxLn2)

/-- The alternating sum of x^(2k+s) / (2k+s)!, by fuel. -/
def trigSum : Nat → Nat → Nat → Nat → Bool → Int → Int
  | 0, _, _, _, _, acc => acc
  | fuel + 1, t, x2, k, neg, acc =>
    trigSum fuel (fxMul t x2 / ((k + 1) * (k + 2))) x2 (k + 2) (!neg) (if neg then acc - t else acc + t)

/-- sin(π · r) for r in [0, 1/2]. -/
def fxSinPi (r : Nat) : Nat :=
  let y := fxMul r fxPi
  (trigSum 90 y (fxMul y y) 1 false 0).toNat

/-- log₂ of m / 2^640 for m in [1, 2) in fixed point. -/
def fxLog2 (m : Nat) : Nat :=
  let t := (m - fxOne) * fxOne / (m + fxOne)
  (2 * atanSum false 240 t (fxMul t t) 1 false 0).toNat * fxOne / fxLn2

/-- A fixed-point number as a value just above what it shows (the true value is irrational). -/
def fxVal (neg : Bool) (x : Nat) (e : Int) : FV := .fin neg (2 * x + 1) (e - Config.tableBits - 1)

/-- man · 2^exp in fixed point, cut. -/
def toFx (m : Nat) (e : Int) : Nat :=
  let k := e + Config.tableBits
  if 0 ≤ k then m * 2 ^ k.toNat else m / 2 ^ (-k).toNat

/-- 2^x of a finite x that is not an integer, or of an integer exactly. -/
def exp2Val (s : Bool) (m : Nat) (e : Int) : FV :=
  if 0 ≤ e ∨ m % 2 ^ (-e).toNat = 0 then
    let n : Int := smant s (if 0 ≤ e then m * 2 ^ (min e.toNat 20) else m / 2 ^ (-e).toNat)
    .fin false 1 (sat n (-400) 400)
  else
    let x : Int := smant s (toFx m e)
    let n := x / (fxOne : Int)
    if n < -400 then .fin false 1 (-400)
    else if 400 < n then .fin false 1 400
    else fxVal false (fxExp2 (x - n * fxOne).toNat) n

/-- log₂ of a positive value. -/
def log2Val (m : Nat) (e : Int) : FV :=
  let k := Nat.log2 m
  let n : Int := e + k
  if m = 2 ^ k then FV.ofInt n
  else
    let l := fxLog2 (m * fxOne / 2 ^ k)
    let x : Int := n * fxOne + l
    if x < 0 then fxVal true (x.natAbs - 1) 0 else fxVal false x.natAbs 0

/-- sin(πx) of a finite non-zero x; integers give a zero of x's sign (R84). -/
def sinPiVal (s : Bool) (m : Nat) (e : Int) : FV :=
  if 0 ≤ e then .fin s 0 0 else
  let d := 2 ^ (-e).toNat
  let r := m % (2 * d)
  let neg := decide (d < r) != s
  let r := r % d
  if r = 0 then .fin s 0 0
  else if 2 * r = d then .fin neg 1 0
  else
    let r := if d < 2 * r then d - r else r
    fxVal neg (fxSinPi (r * fxOne / d)) 0

/-- cos(πx) of a finite x. -/
def cosPiVal (m : Nat) (e : Int) : FV :=
  if 1 ≤ e then .fin false 1 0
  else if e = 0 then .fin (m % 2 == 1) 1 0 else
  let d := 2 ^ (-e).toNat
  let r := m % (2 * d)
  let r := if d < r then 2 * d - r else r
  let neg := decide (d < 2 * r)
  let r := if neg then d - r else r
  if r = 0 then .fin neg 1 0
  else if 2 * r = d then .fin false 0 0
  else fxVal neg (fxSinPi ((d - 2 * r) * fxOne / (2 * d))) 0

/-- tanh x of a finite non-zero x. -/
def tanhVal (s : Bool) (m : Nat) (e : Int) : FV :=
  if FV.cmp (.fin false m e) (.fin false 64 0) ≥ 0 then .fin s (2 ^ 120 - 1) (-120)
  else
    let y := toFx m (e + 1)
    let t := y * fxOne / fxLn2
    let n := t / fxOne
    let ex := fxExp2 (t % fxOne) * 2 ^ n
    fxVal s ((ex - fxOne) * fxOne / (ex + fxOne)) 0

/-- Round a table value: toward zero in version 1, to nearest even in version 2, ∞ past the largest finite value in
both (R83), then FTZ's flush (R66). -/
def tableRound (f : Fmt) (ftv : Nat) (ftz : Bool) (v : FV) : Nat :=
  match v with
  | .fin s m e =>
    if m ≠ 0 ∧ FV.cmp (f.value f.maxCode) (.fin false m e) < 0 then f.signed s f.infCode
    else f.fout ftz (if ftv = 1 then .rz else .rn) (.fin s m e)
  | _ => f.fout ftz .rn v

/-- FEXP2 (R83, R84). -/
def fexp2 (ftv : Nat) (ftz : Bool) (x : Nat) : Nat :=
  match Fmt.f32.fin ftz x with
  | .nan => Fmt.f32.nanCode
  | .inf s => if s then 0 else Fmt.f32.infCode
  | .fin s m e => if m = 0 then 0x3F800000 else tableRound .f32 ftv ftz (exp2Val s m e)

/-- FLOG2 (R83, R84). -/
def flog2 (ftv : Nat) (ftz : Bool) (x : Nat) : Nat :=
  match Fmt.f32.fin ftz x with
  | .nan => Fmt.f32.nanCode
  | .inf s => if s then Fmt.f32.nanCode else Fmt.f32.infCode
  | .fin s m e =>
    if m = 0 then Fmt.f32.signed true Fmt.f32.infCode
    else if s then Fmt.f32.nanCode
    else tableRound .f32 ftv ftz (log2Val m e)

/-- FRCP and DRCP (R83, R84). -/
def rcpOf (f : Fmt) (ftv : Nat) (ftz : Bool) (x : Nat) : Nat :=
  match f.fin ftz x with
  | .nan => f.nanCode
  | .inf s => f.signed s 0
  | .fin s m e =>
    if m = 0 then f.signed s f.infCode
    else match recipFin m e with
      | .fin _ n g => tableRound f ftv ftz (.fin s n g)
      | v => f.round .rn v

/-- FRSQ and DRSQ (R83, R84). -/
def rsqOf (f : Fmt) (ftv : Nat) (ftz : Bool) (x : Nat) : Nat :=
  match f.fin ftz x with
  | .nan => f.nanCode
  | .inf s => if s then f.nanCode else 0
  | .fin s m e =>
    if m = 0 then f.signed s f.infCode
    else if s then f.nanCode
    else
      let e' : Int := if e % 2 = 0 then e else e - 1
      let m' := if e % 2 = 0 then m else 2 * m
      let k := Nat.log2 m' + 260
      let k := if k % 2 = 0 then k else k + 1
      let q := 2 ^ k / m'
      let r := isqrt (Nat.log2 q / 2 + 1) q 0
      tableRound f ftv ftz (stick r (-(e' / 2) - k / 2) (!(r * r * m' == 2 ^ k)))

/-- FSQRT: IEEE squareRoot under RM in every version (R83, R84). -/
def fsqrt (mode : RMode) (ftz : Bool) (x : Nat) : Nat :=
  match Fmt.f32.fin ftz x with
  | .nan => Fmt.f32.nanCode
  | .inf s => if s then Fmt.f32.nanCode else Fmt.f32.infCode
  | .fin s m e =>
    if m = 0 then Fmt.f32.signed s 0
    else if s then Fmt.f32.nanCode
    else Fmt.f32.fout ftz mode (sqrtFin m e)

/-- FSINP (R83, R84). -/
def fsinp (ftv : Nat) (ftz : Bool) (x : Nat) : Nat :=
  match Fmt.f32.fin ftz x with
  | .fin s m e => if m = 0 then Fmt.f32.signed s 0 else tableRound .f32 ftv ftz (sinPiVal s m e)
  | _ => Fmt.f32.nanCode

/-- FCOSP (R83, R84). -/
def fcosp (ftv : Nat) (ftz : Bool) (x : Nat) : Nat :=
  match Fmt.f32.fin ftz x with
  | .fin _ m e => if m = 0 then 0x3F800000 else tableRound .f32 ftv ftz (cosPiVal m e)
  | _ => Fmt.f32.nanCode

/-- FTANH (R83, R84). -/
def ftanh (ftv : Nat) (ftz : Bool) (x : Nat) : Nat :=
  match Fmt.f32.fin ftz x with
  | .nan => Fmt.f32.nanCode
  | .inf s => Fmt.f32.signed s 0x3F800000
  | .fin s m e => if m = 0 then Fmt.f32.signed s 0 else tableRound .f32 ftv ftz (tanhVal s m e)

/-! ### RAND (R85) -/

/-- Mix64 of R85. -/
def mix64 (z : W64) : W64 :=
  let z := (z ^^^ (z >>> 31)) * 0xB5E19A473C86F2D1
  let z := (z ^^^ (z >>> 29)) * 0xE7C25B1894AD3F63
  z ^^^ (z >>> 32)

/-- RandValue of R85. -/
def randValue (seed ctrb : W64) (idx stream : Nat) : W64 :=
  let g : W64 := 0x8F3A61C5D27B4E09
  let key := mix64 (seed ^^^ (BitVec.ofNat 64 (stream + 1) * g))
  let ctr := ctrb + BitVec.ofNat 64 idx
  let z := mix64 (key + ctr * g)
  mix64 (z ^^^ key)

/-- RecHash of R351. -/
def recHash (xs : List W64) : W64 := xs.foldl (fun h x => mix64 (h ^^^ x)) 0x6A4D19C3E07B52F1

end Sys2Proof.Machine
end

