-- ==== Sys2Proof/Machine/Block.lean ====
section
/-! DEFINITION. What a block shares: its threads, its barriers (R187), the path values and trace of its terminators
(R367, R368), and the end of a thread (R181). -/

namespace Sys2Proof.Machine

/-- The live threads of a block (R181). -/
def Block.live (b : Block) : List Nat := b.groups.flatMap fun g => g.units.flatMap g.indices

/-- The primary replica of a block, or a block of a launch without replicas (R352, R366): the live one of lowest rank. -/
def State.primary (s : State) (b : Block) : Bool :=
  !s.blocks.any fun x => x.lid == b.lid && x.num == b.num && x.st != .ended && decide (x.rank < b.rank)

/-! ### Barriers (R187) -/

/-- Arrivals of a thread at barrier n. -/
def Block.arrivals (b : Block) (n i : Nat) : Nat := look (nth b.bars n ⟨0, []⟩).arrived i 0

/-- Change a barrier. -/
def Block.onBar (b : Block) (n : Nat) (f : Bar → Bar) : Block :=
  { b with bars := (b.bars.zip (upto 0 b.bars.length)).map fun x => if x.2 == n then f x.1 else x.1 }

/-- A thread arrives at the lowest generation it has not yet arrived at, after its block-scope release: what it has
published is known to those the generation releases (R124, R136, R187). -/
def Block.arrive (b : Block) (n i : Nat) : Block :=
  let g := b.arrivals n i
  let b := b.publish i
  let key := n * 2 ^ 40 + g
  { b.onBar n fun x => { x with arrived := put x.arrived i (g + 1) } with
    barStamp := put b.barStamp key (max b.stamp (look b.barStamp key 0)) }

/-- The generations of a barrier at which every live thread has arrived have released (R187). -/
def Block.releaseBar (b : Block) (n : Nat) : Block :=
  match b.live with
  | [] => b
  | i :: r =>
    let low := r.foldl (fun m j => min m (b.arrivals n j)) (b.arrivals n i)
    b.onBar n fun x => { x with released := max x.released low }

/-- A unit that waits at a released generation goes on (R124, R187). -/
def ISet.passBar (b : Block) (u : ISet) : ISet :=
  match u.stat with
  | .bar n g => if g < (nth b.bars n ⟨0, []⟩).released then { u.advance with stat := .ready } else u
  | _ => u

/-- The threads of a unit that passes a barrier acquire what the arrivals at their own generations published (R136). -/
def Block.learnBar (b : Block) (g : Grp) (u : ISet) : Block :=
  match u.stat with
  | .bar n k =>
    if k < (nth b.bars n ⟨0, []⟩).released then
      (g.indices u).foldl (fun b i => b.learn i (look b.barStamp (n * 2 ^ 40 + (b.arrivals n i - 1)) 0)) b
    else b
  | _ => b

/-- Release what can be released: at the first moment every live thread has arrived (R187). -/
def State.barriers (s : State) (bid : Nat) : State :=
  match s.block? bid with
  | none => s
  | some b =>
    let b := (upto 0 16).foldl Block.releaseBar b
    let hs := s.traps.filter (·.bid == bid)
    let b := (b.groups ++ hs.flatMap (·.groups)).foldl (fun b g => g.units.foldl (fun b u => b.learnBar g u) b) b
    let pass (g : Grp) : Grp := { g with units := g.units.map (ISet.passBar b) }
    let s := s.setBlock { b with groups := b.groups.map pass }
    { s with traps := mapIf (·.bid == bid) (fun t => { t with groups := t.groups.map pass }) s.traps }

/-! ### Path values and traces -/

/-- The threads at some positions executed a terminator at the unit's PC toward a successor (R367). -/
def State.pathStep (s : State) (e : Env) (ps : List Nat) (succ : W64) : State :=
  match e.level with
  | .kernel => s.onBlock e.bid fun b =>
      { b with pathv := ps.foldl (fun l p =>
          let i := e.grp.lo + p
          put l i (recHash [look l i 0, e.unit.pc, succ])) b.pathv }
  | _ => s

/-- The record of a terminator in an armed trace (R368): 32 bytes while TLEN lasts, then one report of kind 8 (log 26, DEDUCED). -/
def State.traceStep (s : State) (e : Env) (ps : List Nat) (succ : W64) : State :=
  match e.level, e.launch, s.block? e.bid with
  | .kernel, some l, some b =>
    match l.trace with
    | none => s
    | some t =>
      if !(s.primary b) || !bit (s.partNat l.ctx.part (t.bmap + b.num / 8) 1) (b.num % 8) then s
      else if b.traceUsed + 32 ≤ t.tlen then
        let n := e.named ps
        let x := e.unit.pc.toNat + succ.toNat * 2 ^ 64 + n.idx * 2 ^ 128 + n.lmask * 2 ^ 192 + n.count * 2 ^ 224
        (s.partWrite l.ctx.part (t.tbuf + t.tlen * b.num + b.traceUsed) (leBytes 32 x)).onBlock e.bid fun b =>
          { b with traceUsed := b.traceUsed + 32 }
      else if b.traceFull then s
      else
        let s := s.onBlock e.bid fun b => { b with traceFull := true }
        s.report l.ctx (reportImage l b.num e.unit.pc.toNat 0 (e.named ps) 8 0 0) (b.holder (e.grp.lo + ps.headD 0))
  | _, _, _ => s

/-- A terminator sends threads to a successor: its path values and trace. -/
def State.termStep (s : State) (e : Env) (ps : List Nat) (succ : W64) : State :=
  (s.pathStep e ps succ).traceStep e ps succ

/-! ### The end of threads (R181) -/

/-- The threads of a unit exit: they are no longer live; entries they issued still complete (R181). -/
def State.exitUnit (s : State) (w : Who) (bid : Nat) (u : ISet) (pc : W64) : State :=
  let s := s.onGrp w fun g => { g with units := g.units.filter fun x => x.lanes != u.lanes }
  let s := s.onBlock bid fun b =>
    { b with lastExit := pc, groups := b.groups.filter fun (g : Grp) => !g.units.isEmpty || !g.stq.isEmpty }
  s.barriers bid

/-! ### The end of a handler (R339) -/

/-- The units a trap context serves: its group's threads (R336), in more than one group if an exchange expanded them. -/
def Block.served (b : Block) (tid : Nat) : List (Grp × ISet) :=
  b.groups.flatMap fun g => (g.units.filter (·.stat == .inTrap tid)).map fun u => (g, u)

/-- Expand the span that a trap context serves, under an expansion node. -/
def State.expandServed (s : State) (b : Block) (g : Grp) (u : ISet) : State :=
  let ws := g.windows
  let (n, s) := s.fresh
  let gs := ((upto 0 ws.length).zip ws).map fun (i, w) => g.sheaf (s.nextId + i) w (u.enter n .expansion w)
  let s := { s with nextId := s.nextId + ws.length }
  s.putGrps (.kern b.bid g.gid u.low) gs

/-- How the handler's thread of an index ended. -/
def TrapCtx.endOf (t : TrapCtx) (i : Nat) : HandEnd := ((t.ended.find? fun x => x.2.contains i).map (·.1)).getD .resume

/-- The threads of a served unit do not all go on in one way. -/
def TrapCtx.mixed (t : TrapCtx) (g : Grp) (u : ISet) : Bool :=
  (g.indices u).any fun i => t.endOf i != t.endOf ((g.indices u).headD 0)

/-- A served unit as it goes on after an end of its handler that leaves it (R339): at TPC where that has a new value. -/
def TrapCtx.next (t : TrapCtx) (via : W64) (how : HandEnd) (u : ISet) : ISet :=
  let u := if t.tpc = t.entryTpc then u else { u.goto t.tpc with via := via }
  { u with stat := if how = .halt then .halted else .ready }

/-- One served unit goes on, each thread as its handler's thread ended (R339): exited threads leave it, and where others
resume while some stay halted the unit divides (log 11, DEDUCED). -/
def State.resumeUnit (s : State) (t : TrapCtx) (pc : W64) (g : Grp) (u : ISet) : State :=
  let w := Who.kern t.bid g.gid u.low
  match s.env? w with
  | none => s
  | some k =>
    let ends (h : HandEnd) : List Nat := k.members.filter fun p => t.endOf (k.idx p) == h
    let gone := ends .exit
    let s := if gone.isEmpty then s else s.termStep { k with unit := { k.unit with pc := pc } } gone 0
    if gone.length = k.members.length then s.exitUnit w t.bid u pc
    else
      let stays : List ISet := ([HandEnd.resume, .halt].filter fun h => !(ends h).isEmpty).map fun h =>
        { t.next pc h u with lanes := if g.span then u.lanes else maskOf (ends h) }
      let (n, s) := s.fresh
      let us := if stays.length < 2 then stays else ((upto 0 2).zip stays).map fun x => x.2.enter n .lanes x.1
      let units := k.grp.units.flatMap fun x => if x.lanes == u.lanes then us else [x]
      let s := s.putGrps w [{ k.grp with units := units }]
      if gone.isEmpty then s else (s.onBlock t.bid fun b => { b with lastExit := pc }).barriers t.bid

/-- The interrupted groups go on when the last unit of their handler has ended; what the handler's threads queued drains
from their own groups' queues. A span whose threads ended differently expands first (log 11, DEDUCED). -/
def State.resumeAll (s : State) (t : TrapCtx) (b : Block) (pc : W64) : State :=
  let left := t.groups.flatMap (·.stq)
  let s := (b.served t.tid).foldl (fun (s : State) (x : Grp × ISet) =>
    if x.1.span && t.mixed x.1 x.2 then s.expandServed b x.1 x.2 else s) s
  let served := ((s.block? b.bid).map (·.served t.tid)).getD []
  let own (g : Grp) (i : Nat) : Bool := served.any fun x => x.1.gid == g.gid && (x.1.indices x.2).contains i
  let s := s.onBlock b.bid fun b => { b with groups := b.groups.map fun (g : Grp) =>
    { g with stq := sortKey (·.pos) (g.stq ++ left.filterMap (SqEntry.only (own g))) } }
  served.foldl (fun (s : State) (x : Grp × ISet) => s.resumeUnit t pc x.1 x.2) s

/-- A .step of a handler's unit goes on with the threads that it serves (R364). -/
def State.passStep (s : State) (tid bid : Nat) (h : ISet) : State :=
  let take (u : ISet) : ISet := { u with stepping := true, stepBy := dedup (u.stepBy ++ h.stepBy) }
  if h.stepping then
    s.onBlock bid fun b => { b with groups := b.groups.map fun g => { g with units := mapIf (·.stat == .inTrap tid) take g.units } }
  else s

/-- A unit of a handler ends (R339). When it is the last, the trap context is free and the interrupted group goes on. HALT in
a control core's own handler halts the core until it is woken as R197 gives (log 74, DEDUCED). HALT in a block's handler posts no
report (log 100, DESIGN CHOICE). -/
def State.endHandler (s : State) (e : Env) (how : HandEnd) : State :=
  match e.who with
  | .hand tid gid _ =>
    let s := s.passStep tid e.bid e.unit
    match s.trap? tid, s.block? e.bid with
    | some t, some b =>
      let rest := (t.groups.map fun (g : Grp) =>
        if g.gid = gid then { g with units := g.units.filter fun x => x.lanes != e.unit.lanes } else g).filter
          fun (g : Grp) => !g.units.isEmpty || !g.stq.isEmpty
      let t : TrapCtx := { t with ended := (how, e.members.map e.idx) :: t.ended, groups := rest }
      if rest.any fun (g : Grp) => !g.units.isEmpty then
        { s with traps := mapIf (·.tid == tid) (fun _ => t) s.traps }
      else State.resumeAll { s with traps := s.traps.filter (·.tid != tid) } t b e.unit.pc
    | _, _ => s
  | .ccHand c =>
    match s.cc? c with
    | none => s
    | some k => match k.trap with
      | some t =>
        if how = .exit then s.abandon c
        else s.onCc c fun k => { k with
          trap := none
          halted := how == .halt
          grp := { k.grp with
            stq := k.grp.stq ++ t.groups.flatMap (·.stq)
            units := k.grp.units.map fun u =>
              if t.tpc = t.entryTpc then u else { u.goto t.tpc with via := e.unit.pc } } }
      | none => s
  | _ => s

end Sys2Proof.Machine
end

