-- ==== Sys2Proof/Machine/Fold.lean ====
section
/-! DEFINITION. Closing a split node at a fold (R38, R39), the convergence deadlock (R40), placing held threads (R28), and
the breakpoint comparators that a group meets as it enters a segment (R365). -/

namespace Sys2Proof.Machine

/-! ### Comparators (R365) -/


/-- A breakpoint comparator of the partition matches a group of the context at a segment (R365); only the primary
replica's groups match (R366) (log 69, DEDUCED). -/
def State.cmpMatch (s : State) (e : Env) (seg : W64) : Bool :=
  match e.level, e.ctx, s.block? e.bid with
  | .kernel, some c, some b =>
    s.primary b && (nth s.dbg c.part ⟨[], [], false, []⟩).cmps.any fun x => x == some (c.desc, seg)
  | _, _, _ => false

/-- A report of the acting group on a launch, as a number (R361). -/
def Env.reportOf (e : Env) (l : Launch) (pc : W64) (addr kind flags : Nat) (ps : List Nat) : Nat :=
  reportImage l e.num pc.toNat addr (e.named ps) kind flags 0

/-- Post a report of the acting group (R361). -/
def State.groupReport (s : State) (e : Env) (pc : W64) (addr kind flags : Nat) (ps : List Nat) : State :=
  match e.launch with
  | some l => s.report l.ctx (e.reportOf l pc addr kind flags ps) (some e.who)
  | none => s

/-! ### Who waits at a fold (R38) -/

/-- A unit is a member of a node: the node stands on its split path. -/
def ISet.memberOf (u : ISet) (n : Nat) : Bool := u.path.any (·.node == n)

/-- A unit waits at a fold with a node innermost. -/
def ISet.waitsFor (u : ISet) (n : Nat) : Bool :=
  u.stat == .fold && (match u.path with
    | p :: _ => p.node == n
    | [] => false)

/-- Every live member of a node waits at one fold segment with the node innermost (R38). -/
def closable (gs : List Grp) (n : Nat) : Bool :=
  let us := gs.flatMap fun g => g.units.filter (·.memberOf n)
  match us with
  | [] => false
  | u :: r => u.waitsFor n && r.all fun v => v.waitsFor n && v.pc == u.pc

/-! ### Sheaf merge (R39 step 1) -/

/-- Each lane's own value of a register of two sheaves of one window. -/
def mergeVals (a b : Grp) (r : Nat) : List W32 := (upto 0 32).map fun l => if bit b.live.toNat l then b.val r l else a.val r l

/-- Two registers of sheaves of one window as one: equal forms stay F, anything else becomes E with each lane's own
value; a register released in only some live lanes is kept per lane (log 29, DEDUCED). -/
def mergeCell (a b : Grp) (r : Nat) : RegCell :=
  let ca := a.cell r
  let cb := b.cell r
  let all := (ca.rel == a.live && cb.rel == b.live) || (ca.rel == 0 && cb.rel == 0)
  let sameHalf := match ca.kind, cb.kind with
    | .f64hi, .f64hi => (a.cell (r - 1)).kind == (b.cell (r - 1)).kind
    | .f32 x s, .f32 y t => x == y && s == t
    | .f64 x s, .f64 y t => x == y && s == t
    | _, _ => false
  if sameHalf && all then { ca with rel := ca.rel ||| cb.rel }
  else
    let wide := match ca.kind, cb.kind with
      | .e w _, .e v _ => w && v
      | .e w _, .f64 _ _ => w
      | .e w _, .f64hi => w
      | .f64 _ _, .e w _ => w
      | .f64hi, .e w _ => w
      | .f64 _ _, .f64 _ _ => true
      | .f64hi, .f64hi => true
      | _, _ => false
    ⟨.e wide (mergeVals a b r), ca.rel ||| cb.rel⟩

/-- A pair whose low half stayed F64 while its high half did not, or the reverse, is per lane in both halves; `g` is the
sheaf that a and b give. -/
def pairUp (a b g : Grp) (r : Nat) : RegCell :=
  let c := g.cell r
  match c.kind with
  | .f64 _ _ => match (g.cell (r + 1)).kind with
    | .f64hi => c
    | _ => { c with kind := .e true (mergeVals a b r) }
  | .f64hi => match (g.cell (r - 1)).kind with
    | .f64 _ _ => c
    | _ => { c with kind := .e true (mergeVals a b r) }
  | _ => c

/-- Two sheaves of one window as one, keeping the first's identity. -/
def mergeSheaf (a b : Grp) : Grp :=
  let g : Grp := { a with
    regs := (upto 0 a.regs.length).map (mergeCell a b)
    preds := (upto 0 7).map fun p =>
      let bitsOf (g : Grp) : W32 := maskOf ((upto 0 32).filter fun l => g.pval p l)
      ⟨.bits ((bitsOf a &&& a.live) ||| (bitsOf b &&& b.live)), (a.pcell p).rel ||| (b.pcell p).rel⟩
    units := a.units ++ b.units
    lanes := sortKey (·.lane) (a.lanes ++ b.lanes)
    stq := sortKey (·.pos) (a.stq ++ b.stq) }
  { g with regs := (upto 0 g.regs.length).map (pairUp a b g) }

/-! ### Entering a segment (R37) -/

/-- Release at entry the registers above LIVE_G and the predicates outside LIVE_P (R37). -/
def Grp.enterSeg (v lp : Nat) (g : Grp) (u : ISet) : Grp :=
  let g := ((upto 0 g.regs.length).filter fun r => decide (v < r)).foldl (fun (g : Grp) r => g.release u r) g
  ((upto 0 7).filter fun p => !bit lp p).foldl (fun (g : Grp) p => g.prelease u p) g

/-- The unit past the SEGH it stands at. -/
def ISet.pastSegh (u : ISet) : ISet :=
  { u with seg := u.pc, pc := u.pc + 4, left := 0, code := u.code.drop 1, bpTaken := false }

/-- The members of a node in a group pass its fold as one issue set (R38): the node leaves their split path, and they
enter the segment (R37). Where a comparator matches, the issue set halts before the segment's first word (R365). -/
def joinUnits (v lp n : Nat) (halt : Bool) (g : Grp) : Grp :=
  match g.units.filter (·.memberOf n) with
  | [] => g
  | u :: r =>
    let m := r.foldl (fun m v => m ||| v.lanes) u.lanes
    let one := { u with
      lanes := m, path := u.path.drop 1, stat := .ready
      haltReq := u.haltReq || r.any (·.haltReq), stepping := u.stepping || r.any (·.stepping)
      haltBy := r.foldl (fun l w => dedup (l ++ w.haltBy)) u.haltBy
      stepBy := r.foldl (fun l w => dedup (l ++ w.stepBy)) u.stepBy, stepSplit := u.stepSplit || r.any (·.stepSplit) }
    let one := if halt then { one with stat := .halted, bpTaken := true } else one
    let g := { g with units := g.units.filter (fun (w : ISet) => !w.memberOf n) ++ [one] }
    if halt then g.landed one else (g.enterSeg v lp one).setUnit one.pastSegh

/-! ### Recompression (R39 step 2) -/

/-- The live lanes as a contiguous run. -/
def Grp.liveRun (g : Grp) : Option (Nat × Nat) :=
  match lanesOf g.live with
  | [] => none
  | a :: r => if (a :: r) == upto a (r.length + 1) then some (a, r.length + 1) else none

/-- Recompress a 32-bit register; `lone`: the low half of a pair whose high half is not live-in. -/
def recompress32 (lone : Option Nat) (g : Grp) (r : Nat) : Grp :=
  let c := g.cell r
  match c.kind, g.liveRun with
  | .e wide vs, some (a, n) =>
    if c.rel &&& g.live ≠ 0 ∨ (wide ∧ lone ≠ some r) then g
    else match formOf32 a ((upto a n).map fun l => nth vs l 0) with
      | some (b, s) => g.setCell r ⟨.f32 b s, c.rel⟩
      | none => g
  | _, _ => g

/-- Recompress a pair last written as 64 bits. -/
def recompress64 (g : Grp) (r : Nat) : Grp :=
  let c := g.cell r
  let d := g.cell (r + 1)
  match c.kind, d.kind, g.liveRun with
  | .e true _, .e true _, some (a, n) =>
    if (c.rel ||| d.rel) &&& g.live ≠ 0 then g
    else match formOf64 a ((upto a n).map fun l => g.val64 r l) with
      | some (b, s) => (g.setCell r ⟨.f64 b s, c.rel⟩).setCell (r + 1) ⟨.f64hi, d.rel⟩
      | none => g
  | _, _, _ => g

/-- A mark "last written as 64 bits" without its mate is none. -/
def unmark (g : Grp) (r : Nat) : Grp :=
  match (g.cell r).kind, (g.cell (mate r)).kind with
  | .e true _, .e true _ => g
  | .e true vs, _ => g.setCell r { g.cell r with kind := .e false vs }
  | _, _ => g

/-- Recompress the live-in registers of a sheaf (R39 step 2): g0 to gv. -/
def recompress (v : Nat) (g : Grp) : Grp :=
  let rs := (upto 0 (v + 1)).filter fun r => decide (r < g.regs.length)
  let g := rs.foldl unmark g
  let g := (rs.filter fun r => r % 2 == 0 && rs.contains (r + 1)).foldl recompress64 g
  rs.foldl (recompress32 (if v % 2 = 0 then some v else none)) g

/-- Only the low half of a pair is live-in, where the highest live-in register is even: the fold takes that half by itself, as
a 32-bit word reads it (R39, R46). In a span the high half is dead; a sheaf may still hold lanes that use it (log 29, DEDUCED). -/
def Grp.dropMate (v : Nat) (g : Grp) : Grp :=
  match v % 2, (g.cell v).kind with
  | 0, .f64 b s =>
    if g.span then (g.setCell v { g.cell v with kind := .f32 (lo64 b) s }).setCell (v + 1) { RegCell.uniform 0 with rel := 1 }
    else g.unpair v
  | _, _ => g

/-! ### Sheaf to span (R39 step 3) -/

/-- Live-in predicates of a LIVE_P mask (R151). -/
def livePreds (m : Nat) : List Nat := (upto 0 7).filter fun p => bit m p

/-- A sheaf becomes a span where R39 step 3 allows. A live-in predicate released in every live lane is taken as its bits
stand, and released in the span; one released in some of them keeps the sheaf (log 75, DESIGN CHOICE). -/
def toSpan (v lp : Nat) (g : Grp) : Grp :=
  match g.liveRun, g.units with
  | some (a, n), [u] =>
    let rs := (upto 0 (v + 1)).filter fun r => decide (r < g.regs.length)
    let okReg (r : Nat) : Bool :=
      let c := g.cell r
      (match c.kind with
        | .e _ _ => false
        | .f64hi => (match (g.cell (r - 1)).kind with
          | .f64 _ _ => true
          | _ => false)
        | _ => true) && (c.rel &&& g.live == 0 || c.rel &&& g.live == g.live)
    let cutOfPred (p : Nat) : Option Cut :=
      cutOf (g.lo + a) (g.lo + a + n) ((upto 0 32).map (g.lo + ·)) fun i => g.pval p (i - g.lo)
    let okPred (p : Nat) : Bool := (cutOfPred p).isSome &&
      ((g.pcell p).rel &&& g.live == 0 || (g.pcell p).rel &&& g.live == g.live)
    let first := g.lane a
    let same := (lanesOf g.live).all fun l => (g.lane l).stack == first.stack && (g.lane l).fpctl == first.fpctl
    if !g.span && same && rs.all okReg && (livePreds lp).all okPred then
      let regs := ((upto 0 g.regs.length).map fun r =>
        let c := g.cell r
        if rs.contains r then { c.rebase a with rel := if c.rel &&& g.live = 0 then 0 else 1 }
        else { RegCell.uniform 0 with rel := 1 })
      let preds := (upto 0 7).map fun p =>
        if (livePreds lp).contains p then
          (⟨.cut ((cutOfPred p).getD .allFalse), if (g.pcell p).rel &&& g.live = 0 then 0 else 1⟩ : PredCell)
        else ⟨.cut .allFalse, 1⟩
      let flight := gatherFlights (g.lo + a) (g.lo + a + n) ((lanesOf g.live).flatMap fun l =>
        (dedup (g.lane l).flight).map (Flight.within (g.lo + l) (g.lo + l + 1)))
      { g with span := true, lo := g.lo + a, hi := g.lo + a + n, regs := regs, preds := preds
               units := [{ u with lanes := 1 }], lanes := [{ first with lane := 0, flight := flight }] }
    else g
  | _, _ => g

/-! ### Span merge (R39 step 4) -/

/-- The union of a predicate's values over two adjacent spans. -/
def unionCut (a b : Grp) (p : Nat) : Option Cut :=
  cutOf a.lo b.hi (b.lo :: ((a.pcut p).threshold ++ (b.pcut p).threshold)) fun i =>
    if i < b.lo then (a.pcut p).at i else (b.pcut p).at i

/-- Two adjacent spans merge where R39 step 4 allows. A live-in register released in both is compared by the form its cell
still holds, and one released in only one of them keeps them apart (log 89, DESIGN CHOICE). -/
def mergeSpan (v lp : Nat) (a b : Grp) : Option Grp :=
  match a.units, b.units, a.lanes, b.lanes with
  | [u], [w], [x], [y] =>
    let n := b.lo - a.lo
    let rs := (upto 0 (v + 1)).filter fun r => decide (r < a.regs.length)
    let okReg (r : Nat) : Bool := ((a.cell r).rebase n).kind == (b.cell r).kind && (a.cell r).rel == (b.cell r).rel
    let okPred (p : Nat) : Bool := (unionCut a b p).isSome && (a.pcell p).rel == (b.pcell p).rel
    if a.hi = b.lo ∧ rs.all okReg ∧ (livePreds lp).all okPred ∧ x.stack = y.stack ∧ x.fpctl = y.fpctl then
      some { a with
        hi := b.hi
        regs := (upto 0 a.regs.length).map fun r => if rs.contains r then a.cell r else { RegCell.uniform 0 with rel := 1 }
        preds := (upto 0 7).map fun p =>
          if (livePreds lp).contains p then ⟨.cut ((unionCut a b p).getD .allFalse), (a.pcell p).rel⟩
          else ⟨.cut .allFalse, 1⟩
        units := [{ u with
          haltReq := u.haltReq || w.haltReq, stepping := u.stepping || w.stepping, haltBy := dedup (u.haltBy ++ w.haltBy)
          stepBy := dedup (u.stepBy ++ w.stepBy), stepSplit := u.stepSplit || w.stepSplit }]
        lanes := [{ x with flight := gatherFlights a.lo b.hi (x.flight.map (Flight.within a.lo a.hi) ++ y.flight.map (Flight.within b.lo b.hi)) }]
        stq := sortKey (·.pos) (a.stq ++ b.stq) }
    else none
  | _, _, _, _ => none

/-- Merge a list of spans in ascending lo, each with the next. -/
def mergeSpans (v lp : Nat) : List Grp → List Grp
  | [] => []
  | a :: r =>
    let step (acc : Grp × List Grp) (b : Grp) : Grp × List Grp :=
      match mergeSpan v lp acc.1 b with
      | some g => (g, acc.2)
      | none => (b, acc.1 :: acc.2)
    let x := r.foldl step (a, [])
    (x.1 :: x.2).reverse

/-! ### Closing (R39) -/

/-- Insert a sheaf into a list, merging it with one of its window. -/
def insertSheaf (g : Grp) : List Grp → List Grp
  | [] => [g]
  | h :: r => if !h.span && h.lo == g.lo then mergeSheaf h g :: r else h :: insertSheaf g r

/-- The node n closes for the groups that hold members of it (R39); LIVE_G and LIVE_P are the fold segment's; `halt`: a
comparator matches there. -/
def closeNode (v lp n : Nat) (halt : Bool) (gs : List Grp) : List Grp :=
  let inX (g : Grp) : Bool := g.units.any (·.memberOf n)
  let mine := (gs.filter inX).map (Grp.dropMate v)
  let sheaves := (mine.filter (!·.span)).foldl (fun l g => insertSheaf g l) []
  let sheaves := sheaves.map fun g => toSpan v lp (recompress v (joinUnits v lp n halt g))
  let spans := (mine.filter (·.span)).map (joinUnits v lp n halt)
  let all := sheaves ++ spans
  gs.filter (fun g => !inX g) ++ all.filter (!·.span) ++ mergeSpans v lp (sortKey (·.lo) (all.filter (·.span)))

/-- A group of a block as it stands at a unit. -/
def State.unitEnv (s : State) (b : Block) (l : Launch) (g : Grp) (u : ISet) : Env := s.kernEnv (.kern b.bid g.gid u.low) b l g u

/-- The issue sets of a block that a comparator has halted as they passed a fold (R365): kind 1 for each, but for one that
steps, in ascending order of lowest index (R373). -/
def State.passReports (s : State) (b : Block) (l : Launch) (seg : W64) (was : List Grp) : State :=
  let old (g : Grp) (u : ISet) : Bool := was.any fun h => h.gid == g.gid && h.units.any fun v => v.lanes == u.lanes && v.stat == .halted
  let new := b.groups.flatMap fun g => (g.units.filter fun u =>
    u.stat == .halted && u.bpTaken && u.pc == seg && !old g u).map fun u => (g, u)
  let s := if new.isEmpty then s else s.trigger l.ctx 0
  (sortKey (fun x : Grp × ISet => x.1.lo + (if x.1.span then 0 else x.2.low)) new).foldl (fun (s : State) x =>
    if x.2.stepping then s
    else
      let e := s.unitEnv b l x.1 x.2
      s.groupReport e seg 0 1 0 e.members) s

/-- FOLD_CLOSE (R38, R39): the node's last live member waits at the fold. A node that cannot close leaves the state as
it is (log 34, DEDUCED). -/
def execFoldClose (bid node : Nat) (s : State) : Host.Outcome State Fault Refusal :=
  let run (halt : W64 → Bool) (gs : List Grp) : Option (W64 × List Grp) :=
    -- a result on its way to a member's register lands first (R61)
    let busy := gs.any fun g => g.units.any fun u => u.memberOf node &&
      s.atoms.any fun a => a.bid == bid && (g.indices u).contains a.idx
    if closable gs node && !busy then
      match (gs.flatMap fun g => g.units.filter (·.memberOf node)).head? with
      | some u =>
        let w := u.word
        some (u.pc, closeNode (bits w 14 9) (bits w 8 2) node (halt u.pc) gs)
      | none => none
    else none
  .next (match s.block? bid with
    | none => s
    | some b =>
      -- a block that waits at a commit, or stands in a swap slot, stays as it is (R138, R344, R350, R354)
      if b.commit.isSome || b.full.isSome || b.st != .running then s
      else
        let halt (pc : W64) : Bool := match s.launch? b.lid, b.groups.head? with
          | some l, some g => s.cmpMatch (s.unitEnv b l g (ISet.start pc)) pc
          | _, _ => false
        match run halt b.groups, s.launch? b.lid with
        | some (pc, gs), some l =>
          let b' := { b with groups := gs }
          ((s.setBlock b').passReports b' l pc b.groups).barriers bid
        | _, _ =>
          { s with traps := s.traps.map fun t =>
              if t.bid = bid then { t with groups := ((run (fun _ => false) t.groups).map (·.2)).getD t.groups } else t })

/-! ### Held threads (R28) -/

/-- The placed groups of a kind in a partition of a core that may make room for a held one: those that wait, and, where the
held group has had no run in the round, those that have had theirs (R28, R42; log 88, DEDUCED). -/
def State.rotatable (s : State) (core part : Nat) (span ran : Bool) : List Grp :=
  s.blocks.flatMap fun b =>
    if b.core = core ∧ b.st = .running then
      match s.launch? b.lid with
      | none => []
      | some l => b.groups.filter fun h => !h.held && h.span == span && !h.units.isEmpty &&
          partOfWindow l b.num (h.lo / 32) == part && h.units.all fun u => u.stat != .ready || u.idle || (ran && u.ran && u.atBoundary)
    else []

/-- The fewest of some groups, in order, whose room adds up to enough. -/
def enoughRoom : Nat → List Grp → Option (List Grp)
  | 0, _ => some []
  | _, [] => none
  | n, g :: r => (enoughRoom (n - g.room) r).map (g :: ·)

/-- HELD_THREAD_PLACEMENT (R28): a held group takes a free slot of its partition; where none is free it takes the place
of placed groups of its kind, which are then held (the rotation of R28). -/
def execHeldThreadPlacement (bid gid : Nat) (s : State) : Host.Outcome State Fault Refusal :=
  .next (match s.block? bid with
    | none => s
    | some b =>
      match b.groups.find? (fun g => g.gid == gid && g.held), s.launch? b.lid with
      | some g, some l =>
        let part := partOfWindow l b.num (g.lo / 32)
        let lack := s.slotsUsed b.core part g.span + g.room - slotRoom g.span
        let due := g.units.any fun u => u.stat == .ready && !u.ran
        match enoughRoom lack (s.rotatable b.core part g.span due) with
        | none => s
        | some out =>
          let turn (h : Grp) : Grp :=
            if h.gid = gid then { h with held := false } else if out.any (·.gid == h.gid) then { h with held := true } else h
          { s with blocks := s.blocks.map fun x => { x with groups := x.groups.map turn } }
      | _, _ => s)

/-! ### Convergence deadlock (R40) -/

/-- A unit waits at a fold, a block barrier or a transaction-barrier wait (R40). -/
def ISet.stuck (u : ISet) : Bool := match u.stat with
  | .fold => true
  | .bar _ _ => true
  | .tbwait => true
  | _ => false

/-- Nothing of a block is in flight (R40). -/
def State.blockQuiet (s : State) (b : Block) : Bool :=
  b.groups.all (·.stq.isEmpty) && b.eng.all (·.fin) && b.commit.isNone && b.full.isNone
    && !s.atoms.any (·.bid == b.bid) && !s.homeq.any (·.bid == b.bid) && !s.fabric.any (·.bid == b.bid)
    && !s.cores.any (fun c => c.point.any (·.bid == b.bid)) && !s.dies.any (fun d => d.point.any (·.bid == b.bid))

/-- A block whose live threads all wait, with nothing in flight and no node able to close (R40). -/
def State.deadlocked (s : State) (b : Block) : Bool :=
  let us := b.groups.flatMap (·.units)
  b.st == .running && !us.isEmpty && us.all (·.stuck) && s.blockQuiet b &&
    !(us.flatMap fun u => u.path.map (·.node)).any fun n => closable b.groups n

/-- CONVERGENCE_DEADLOCK (R40): one record of kind 10 per waiting group, in ascending order of lowest index; the block
ends as R342 gives. -/
def execConvergenceDeadlock (bid : Nat) (s : State) : Host.Outcome State Fault Refusal :=
  .next (match s.block? bid with
    | none => s
    | some b =>
      if !s.deadlocked b then s
      else match s.launch? b.lid with
        | none => s
        | some l =>
          let pairs := sortKey (fun x : Grp × ISet => x.1.lo + (if x.1.span then 0 else x.2.low))
            (b.groups.flatMap fun g => g.units.map fun u => (g, u))
          let recs := pairs.map fun (g, u) =>
            let e := s.kernEnv (.kern bid g.gid u.low) b l g u
            { e.fault 10 0 0 0 e.members with die := e.die }
          let s := recs.dropLast.foldl (fun s r => (s.record l r none).1) s
          match recs.getLast? with
          | some r => s.endFault b r
          | none => s)

end Sys2Proof.Machine
end

