-- ==== Sys2Proof/Machine/Control.lean ====
section
/-! DEFINITION. Segment and run headers (R37, R38, R151, R152, R155), terminators (R176 to R183) and the end of
handlers (R191, R339). -/

namespace Sys2Proof.Machine

/-! ### Moving on -/

/-- The word after the acting one: pc + 4. -/
def Env.nextPc (e : Env) : W64 := e.unit.pc + 4

/-- A static target: words from the terminator (R148). -/
def Env.target (e : Env) (n off : Nat) : W64 := e.unit.pc + toW64 (4 * sext n off)

/-- The group with the results in flight one word further (R58). -/
def Env.stepped (e : Env) (sh : Shape) : Grp := e.grp.onLanes e.unit (flightsAfter sh)

/-- Every acting thread goes to one segment. -/
def State.goAll (s : State) (e : Env) (succ : W64) : State :=
  let g := e.stepped {}
  (s.putGrps e.who [g.setUnit (e.unit.goto succ)]).termStep e e.members succ

/-- The issue sets the acting threads form when each goes to a segment of its own: one per successor (R176). -/
def Env.parts (e : Env) (f : Nat → W64) : List ISet :=
  (dedup (e.members.map f)).map fun x => { e.unit.goto x with lanes := maskOf (e.members.filter fun p => f p == x) }

/-- The acting threads go to segments of their own; more than one successor divides the issue set (R176). -/
def State.goEach (s : State) (e : Env) (f : Nat → W64) : State :=
  let s := s.divide { e with grp := e.stepped {} } (e.parts f)
  (dedup (e.members.map f)).foldl (fun s x => s.termStep e (e.members.filter fun p => f p == x) x) s

/-! ### Headers -/

/-- A role code of the acting threads (R15); a control core's is any. -/
def Env.role (e : Env) : Nat :=
  match e.launch with
  | some l => l.roleAt (e.grp.lo + e.first - e.num * l.b)
  | none => 0

/-- SEGH (R151): a comparator halts the group that enters, before it (R365); the role check (R17); a fold with an open node
waits (R38), but for a group that has passed it and was halted there; otherwise the segment is entered and its dead
registers are released (R37). -/
def execSegh (_lenM1 : BitVec 10) (fold : Bool) (liveG : BitVec 6) (liveP : BitVec 7) (role : Role) (s : State) :
    Host.Outcome State Fault Refusal :=
  match s.env? s.turn with
  | none => .fault .noActor
  | some e =>
    let waits := fold && !e.unit.path.isEmpty && !e.unit.bpTaken
    if s.cmpMatch e e.unit.pc && !e.unit.bpTaken && !waits then
      -- what the group has issued lands first (R61)
      if s.landing e then .next s
      else
      let s := s.onGrp e.who fun g => g.landed e.unit
      let s := s.onUnit e.who fun u => { u with stat := .halted, bpTaken := true }
      let s := match e.ctx with
        | some c => s.trigger c 0
        | none => s
      -- a step that ends here makes the one report itself (R365)
      .next (if e.unit.stepping then s else s.groupReport e e.unit.pc 0 1 0 e.members)
    else
      let need := role.code
      if need ≠ 0 ∧ e.role ≠ 0 ∧ e.role ≠ need then
        .next (s.trapWord e 1 (BitVec.ofNat 64 e.unit.word) e.count)
      else if waits then
        .next (s.onUnit e.who fun u => { u with stat := .fold })
      else
        .next (s.putGrps e.who [(e.grp.enterSeg liveG.toNat liveP.toNat e.unit).setUnit e.unit.pastSegh])

/-- The unit at the first word of the run its RUNH opens. -/
def ISet.beginRun (u : ISet) (count : Nat) : ISet :=
  { u with pc := u.pc + 4, left := count, code := u.code.drop 1, asked := false }

/-- The unit past the run its RUNH opens. -/
def ISet.skipRun (u : ISet) (count : Nat) : ISet :=
  { u with pc := u.pc + BitVec.ofNat 64 (4 + 4 * count), left := 0, code := u.code.drop (1 + count), asked := false }

/-- RUNH (R152, R155): the guard is read once; threads it leaves out go on after the run. -/
def execRunh (count : BitVec 5) (guard : PredN) (sense : Bool) (_prefetch : BitVec 8) (s : State) :
    Host.Outcome State Fault Refusal :=
  match s.env? s.turn with
  | none => .fault .noActor
  | some e =>
    let n := count.toNat
    let p := guard.toNat
    let run := e.unit.beginRun n
    let skip := e.unit.skipRun n
    if p = 7 then .next (s.putGrps e.who [e.grp.setUnit run])
    else
      let sh : Shape := { psrcs := [p], gap := 0, lat := none }
      match s.hazard e sh with
      | some (.trap c _ k) =>
        -- the trap is taken at the run's first word, and the guard is not read again (R155, R338)
        let e' := { e with grp := e.grp.setUnit run, unit := run }
        .next ((s.putGrps e.who [e'.grp]).trapWord e' c (BitVec.ofNat 64 run.word) k)
      | some .wait => .next s
      | some .expand => .next (s.expandGrp e)
      | none =>
        let (s, e) := s.prepare e sh
        let q (pos : Nat) : Bool := xor (e.pval p pos) sense
        if e.grp.span then
          match e.view.pcut p with
          | .allTrue => .next (s.putGrps e.who [e.grp.setUnit (if sense then skip else run)])
          | .allFalse => .next (s.putGrps e.who [e.grp.setUnit (if sense then run else skip)])
          | .below k => .next (s.splitSpan e k (if sense then skip else run) (if sense then run else skip))
          | .atOrAbove k => .next (s.splitSpan e k (if sense then run else skip) (if sense then skip else run))
        else
          let yes := maskOf (e.members.filter q)
          if yes = 0 then .next (s.putGrps e.who [e.grp.setUnit skip])
          else if yes = e.unit.lanes then .next (s.putGrps e.who [e.grp.setUnit run])
          else .next (s.divide e [{ run with lanes := yes }, { skip with lanes := e.unit.lanes &&& ~~~yes }])

/-! ### Terminators -/

/-- The shape of a terminator that names no register. -/
def termShape : Shape := { lat := none }

/-- NEXT (R176). -/
def execNext (off : BitVec 24) (s : State) : Host.Outcome State Fault Refusal :=
  s.runWord (fun _ => termShape) fun s e => .moved (s.goAll e (e.target 24 off.toNat))

/-- YIELD (R183): NEXT's effects; what it tells the picker is timing. -/
def execYield (off : BitVec 24) (s : State) : Host.Outcome State Fault Refusal :=
  s.runWord (fun _ => termShape) fun s e => .moved (s.goAll e (e.target 24 off.toNat))

/-- BR (R177): the target where p, after sense, is true, else the following segment; a non-trivial cut splits a span
(R27). -/
def execBr (p : PredN) (sense : Bool) (off : BitVec 20) (s : State) : Host.Outcome State Fault Refusal :=
  s.runWord (fun _ => { termShape with psrcs := [p.toNat] }) fun s e =>
    let to' (b : Bool) : W64 := if xor b sense then e.target 20 off.toNat else e.nextPc
    if e.grp.span then
      let split (k : Nat) (below : Bool) : Eff :=
        let a := to' below
        let b := to' (!below)
        let low := upto 0 (k - e.grp.lo)
        let high := upto (k - e.grp.lo) (e.grp.hi - k)
        .moved (((s.splitSpan { e with grp := e.stepped {} } k (e.unit.goto a) (e.unit.goto b)).termStep e low a).termStep
          e high b)
      match e.view.pcut p.toNat with
      | .allTrue => .moved (s.goAll e (to' true))
      | .allFalse => .moved (s.goAll e (to' false))
      | .below k => split k true
      | .atOrAbove k => split k false
    else .moved (s.goEach e fun pos => to' (e.pval p.toNat pos))

/-- BRX (R179): the address in the pair a; uniform-only on a span. -/
def execBrx (a : RegN) (s : State) : Host.Outcome State Fault Refusal :=
  s.runWord (fun _ => { termShape with srcs := regsOf true a.toNat }) fun s e =>
    let f (p : Nat) : W64 := BitVec.ofNat 64 (e.val true a.toNat p)
    if e.grp.span then
      if e.solo || e.uniform true a.toNat then .moved (s.goAll e (f 0)) else .expand
    else .moved (s.goEach e f)

/-- The positions whose return stack holds n entries. -/
def Env.depthIs (e : Env) (n : Nat) : List Nat := e.members.filter fun p => (e.grp.lane p).stack.length == n

/-- The lanes of the acting threads whose return stack is full (R34). -/
def Env.full (e : Env) : W32 :=
  maskOf ((e.grp.lanes.filter fun l => bit e.unit.lanes.toNat l.lane && decide (32 ≤ l.stack.length)).map (·.lane))

/-- Push the word after the terminator on the acting threads' stacks (R178). -/
def Env.pushRet (e : Env) : Env :=
  { e with grp := e.grp.onLanes e.unit fun l => { l with stack := e.nextPc :: l.stack } }

/-- CALL (R178): a full return stack traps (R34). -/
def execCall (off : BitVec 24) (s : State) : Host.Outcome State Fault Refusal :=
  s.runWord (fun _ => termShape) fun s e =>
    if e.full = 0 then .moved (s.goAll e.pushRet (e.target 24 off.toNat)) else .trap 9 32 (e.grp.threads e.full)

/-- CALLX (R178): uniform-only on a span, which expands before the push. -/
def execCallx (a : RegN) (s : State) : Host.Outcome State Fault Refusal :=
  s.runWord (fun _ => { termShape with srcs := regsOf true a.toNat }) fun s e =>
    let f (p : Nat) : W64 := BitVec.ofNat 64 (e.val true a.toNat p)
    if e.grp.span && !(e.solo || e.uniform true a.toNat) then .expand
    else if e.full ≠ 0 then .trap 9 32 (e.grp.threads e.full)
    else if e.grp.span then .moved (s.goAll e.pushRet (f 0))
    else .moved (s.goEach e.pushRet f)

/-- RET (R178): an empty return stack traps (R34). -/
def execRet (s : State) : Host.Outcome State Fault Refusal :=
  s.runWord (fun _ => termShape) fun s e =>
    let empty := e.depthIs 0
    let f (p : Nat) : W64 := (e.grp.lane p).stack.headD 0
    let e' := { e with grp := e.grp.onLanes e.unit fun l => { l with stack := l.stack.drop 1 } }
    if !empty.isEmpty then .trap 9 0 empty.length
    else if e.grp.span then .moved (s.goAll e' (f 0))
    else .moved (s.goEach e' f)

/-- The entry of a SWITCH's table an index selects (R180). -/
def Env.switchTo (e : Env) (entries a : Nat) : W64 :=
  let j := if a < entries then a else entries - 1
  e.unit.pc + toW64 (4 * sext 32 (nth e.unit.code (1 + j) 0).toNat)

/-- SWITCH (R180): uniform-only on a span; the last entry is the default. -/
def execSwitch (a : RegN) (entriesM1 : BitVec 10) (s : State) : Host.Outcome State Fault Refusal :=
  s.runWord (fun _ => { termShape with srcs := [a.toNat] }) fun s e =>
    let f (p : Nat) : W64 := e.switchTo (entriesM1.toNat + 1) (e.val false a.toNat p)
    if e.grp.span then
      if e.solo || e.uniform false a.toNat then .moved (s.goAll e (f 0)) else .expand
    else .moved (s.goEach e f)

/-- A control core's command completes at EXIT: DONE is written as a release at system scope, once its own stores have
left its queue (R313). -/
def State.commandDone (s : State) (c : Nat) : State :=
  match s.cc? c with
  | none => s
  | some k =>
    let s := s.flush (Config.cores + c) .system
    let s := match k.cmd with
      | some m =>
        let q := s.queue m.queue
        s.setQueue { q with done := m.seq, recs := q.recs.drop 1 }
      | none => s
    s.onCc c fun k => { k with cmd := none, grp := { k.grp with units := [ISet.start 0] } }

/-- EXIT (R181): the threads end; a handler's ends its interrupted group's threads (R339); a control core's completes its
command (R313), once its stores and writes over the fabric are done. -/
def execExit (s : State) : Host.Outcome State Fault Refusal :=
  s.runWord (fun _ => termShape) fun s e =>
    match e.who with
    | .kern _ _ _ =>
      .moved (((s.termStep e e.members 0).putGrps e.who [e.grp]).exitUnit e.who e.bid e.unit e.unit.pc)
    | .cc c =>
      if !e.grp.stq.isEmpty || s.atomPending 0 c s.tick || s.homeAny 0 c then .wait
      else if s.sysReady 0 c then .moved (s.commandDone c) else .moved (s.flush e.core .system)
    | _ => .moved (s.endHandler e .exit)

/-- TRAP (R182): a synchronous trap, resumed at the SEGH after it. -/
def execTrap (n : BitVec 8) (s : State) : Host.Outcome State Fault Refusal :=
  s.runWord (fun _ => termShape) fun s e =>
    let u := e.unit.goto e.nextPc
    match e.level with
    | .trap => .trap 19 (BitVec.ofNat 64 n.toNat) e.count
    | _ =>
      let e' := { e with grp := (e.stepped {}).setUnit u, unit := u }
      .moved (((s.putGrps e.who [e'.grp]).termStep e e.members e.nextPc).raise e'
        ⟨19, BitVec.ofNat 64 n.toNat, e.count, e.nextPc, e.unit.pc, s.tick⟩)

/-! ### Returning -/

/-- A word that only a trap context runs: elsewhere it raises a privilege trap (R191). -/
def trapOnly (e : Env) : Option Nat := if e.inTrap then none else some 4

/-- ERET (R191, R339): the handler ends and the interrupted group goes on at TPC. -/
def execEret (s : State) : Host.Outcome State Fault Refusal :=
  s.runWord (fun e => { termShape with pre := trapOnly e }) fun s e => .moved (s.endHandler e .resume)

/-- HALT (R197): a control core stops issue until woken; a handler ends and leaves its group halted. -/
def execHalt (s : State) : Host.Outcome State Fault Refusal :=
  s.runWord (fun e => { termShape with pre := if e.level == .kernel then some 4 else none }) fun s e =>
    match e.who with
    | .cc c => .done (s.onCc c fun k => { k with halted := true }) e
    | _ => .moved (s.endHandler e .halt)

end Sys2Proof.Machine
end

