-- ==== Sys2Proof/Machine/System.lean ====
section
/-! DEFINITION. System and special words (R184 to R192, R195): special registers, contexts in force (R296), fences and
block barriers, random numbers, the cycle counter, breakpoints, exchange with a trap bank, instruction-cache drops. -/

namespace Sys2Proof.Machine

/-! ### Values the primary forwards (R140) -/

/-- The replica whose values the others of a block receive (R352): the live one of lowest rank. -/
def State.primaryOf (s : State) (b : Block) : Option Block :=
  (sortKey (·.rank) (s.blocks.filter fun x => x.lid == b.lid && x.num == b.num && x.st != .ended)).head?

/-- Record values as forwarded, one per thread, each its next, with the releases they carry (R136, R140). -/
def Block.forward (b : Block) (vs : List (Nat × W64 × W64 × Option (Nat × Nat))) : Block :=
  vs.foldl (fun b (i, v, h, r) =>
    let k := look b.fwdTaken i 0
    { b with fwdOut := b.fwdOut ++ [⟨i, k, v, h, r⟩], fwdTaken := put b.fwdTaken i (k + 1) }) b

/-- The stamp, in a replica, of the release behind the value that a thread has last been forwarded (R136). -/
def Block.forwardedStamp (b : Block) (idx : Nat) : Nat :=
  (((b.fwdOut.reverse.find? (·.idx == idx)).bind (·.rel)).bind b.stampAt).getD 0

/-- The value that a thread has last forwarded carries a release (R136). -/
def Block.labelled (b : Block) (idx : Nat) (r : Option (Nat × Nat)) : Block :=
  let last := look b.fwdTaken idx 0 - 1
  { b with fwdOut := mapIf (fun x => x.idx == idx && x.ord == last) (fun (x : Fwd) => { x with rel := r }) b.fwdOut }

/-- The value per member of a word: at the given positions replicas receive the primary's (R140), elsewhere and outside
redundant launches the word reads it itself; none while the primary has not formed them, or a release that they carry is still
to come in the replica (R136; log 94, DEDUCED). -/
def State.forwarding (s : State) (e : Env) (ps : List Nat) (read : List Nat → State → State × (Nat → W64 × W64)) :
    Option (State × (Nat → W64 × W64)) :=
  match e.launch, s.block? e.bid with
  | some l, some b =>
    if !l.redundant || ps.isEmpty then some (read e.members s)
    else if s.primary b then
      let (s, f) := read e.members s
      some (s.onBlock e.bid fun b => b.forward (ps.map fun p => (e.idx p, (f p).1, (f p).2, none)), f)
    else
      match s.primaryOf b with
      | none => none
      | some p =>
        let vs := ps.filterMap fun pos =>
          let i := e.idx pos
          (p.fwdOut.find? fun x => x.idx == i && x.ord == look b.fwdTaken i 0).map fun x => (pos, x)
        if vs.length < ps.length || vs.any (fun x => (x.2.rel.map fun r => (b.stampAt r).isNone).getD false) then none
        else
          let (s, own) := read (e.members.filter fun p => !ps.contains p) s
          let f (pos : Nat) : W64 × W64 := match vs.find? (·.1 == pos) with
            | some x => (x.2.val, x.2.hi)
            | none => own pos
          some (s.onBlock e.bid fun b => b.forward (vs.map fun x => (x.2.idx, x.2.val, x.2.hi, x.2.rel)), f)
  | _, _ => some (read e.members s)

/-- A result one value per member: uniform where they agree, per lane in a sheaf; a span whose members differ expands. -/
def Env.memberWord (e : Env) (wide : Bool) (f : Nat → Int) : Option Res :=
  let same := e.solo || e.members.all fun p => f p == f e.first
  if e.grp.span && !same then none else some (if same then e.sameWord wide (f e.first) else lanesRes wide f)

/-! ### Special registers (R49 to R51, R185, R302) -/

/-- A privileged selector, 32 to 63 (R49). -/
def privileged : SpecialReg → Bool
  | .ctxd | .ctxid | .partn | .core | .ftvset | .tcause | .tpc | .tidx | .tdata => true
  | _ => false

/-- The trap context a word runs in. -/
def State.trapOf (s : State) (e : Env) : Option TrapCtx :=
  match e.who with
  | .hand tid _ _ => s.trap? tid
  | .ccHand c => (s.cc? c).bind (·.trap)
  | _ => none

/-- The sequence number RDS LSEQ reads (R49, R192). -/
def State.lseqOf (s : State) (e : Env) : Nat :=
  match e.launch with
  | some l => l.lseq
  | none => ((s.cc? (e.core - Config.cores)).map (·.lseq)).getD 0

/-- PARTN (R302): the partition, and the mask of its dies. -/
def State.partn (s : State) (p : Nat) : Nat := p + 16 * (s.partDies p).foldl (fun m d => m + 2 ^ d) 0

/-- A field of the launch record as a special register: 0 on a control core (R192). -/
def Env.ofLaunch (e : Env) (f : Launch → Nat) : Nat := (e.launch.map f).getD 0

/-- The value of a special register, but INDEX, FPCTL and CYC, which are per thread or read from a counter (R21, R49,
R192, R302). -/
def State.special (s : State) (e : Env) (r : SpecialReg) : Nat :=
  let t := s.trapOf e
  match r with
  | .index => 0
  | .nidx => e.ofLaunch (·.n)
  | .block => e.num
  | .bsize => e.ofLaunch (·.b)
  | .rlo => if e.solo then 0 else e.grp.lo + e.first
  | .rhi => if e.solo then 0 else if e.grp.span then e.grp.hi else e.grp.lo + e.members.foldl max 0 + 1
  | .argp => e.ofLaunch (·.fld 191 128)
  | .seed => e.ofLaunch (·.fld 319 256)
  | .ctrb => e.ofLaunch (·.fld 383 320)
  | .ftv => e.ftv
  | .fpctl => 0
  | .role => e.role
  | .lseq => s.lseqOf e
  | .cyc => 0
  | .ctxd => (e.ctx.map (·.desc)).getD 0
  | .ctxid => (e.ctx.map (·.ctxid.toNat)).getD 0
  | .partn => s.partn e.ppart
  | .core => e.core
  | .ftvset => 3
  | .tcause => (t.map (·.cause)).getD 0
  | .tpc => (t.map (·.tpc.toNat)).getD 0
  | .tidx => (t.map (·.tidx)).getD 0
  | .tdata => (t.map (·.tdata.toNat)).getD 0

/-- Read a die's cycle counter: it has advanced by an amount the model leaves free, never backward (R51, log 8, DESIGN CHOICE). -/
def State.readCyc (s : State) (d : Nat) : State × W64 :=
  let v := BitVec.ofNat 64 (min (2 ^ 64 - 1) ((s.die d).cyc.toNat + (Config.freeWord s.free).toNat))
  ((s.onDie d fun x => { x with cyc := v }).spend 1, v)

/-- Read the cycle counter as a word does: replicas receive the primary's value (R51, R140, R189). -/
def State.cycWord (s : State) (e : Env) (d : Nat) (wide : Bool) : Eff :=
  match s.forwarding e e.members fun _ s =>
      let (s, v) := s.readCyc e.die
      (s, fun _ => (v, 0)) with
  | some (s, f) => e.put s d (e.memberWord wide fun p => ((f p).1.toNat : Int))
  | none => .hold s .fwdWait

/-- RDS (R185). -/
def execRds (d : RegN) (wide : Bool) (sreg : SpecialReg) (s : State) : Host.Outcome State Fault Refusal :=
  s.runWord
    (fun e => { dsts := regsOf wide d.toNat
                lat := if sreg = .cyc then none else some 1
                pre := if privileged sreg && e.level == .kernel then some 4 else none })
    fun s e =>
      match sreg with
      | .cyc => s.cycWord e d.toNat wide
      | .index => e.put s d.toNat (e.formWord wide (formRes wide e.grp.lo 1) fun p => (e.index p : Int))
      | .fpctl => e.put s d.toNat (e.memberWord wide fun p => ((e.grp.lane p).fpctl.toNat : Int))
      | r => .done s (e.write d.toNat (e.sameWord wide (s.special e r)))

/-- A context descriptor at an address, as a control core of a partition may put it in force (R295, R296). -/
def State.descriptor (s : State) (part a : Nat) : Option Ctx :=
  let x := s.partNat part a 64
  let ring (r : Nat) : Bool := r % 2 ^ 52 == r && bits r 11 5 == 0 && decide (4 ≤ bits r 4 0) && decide (bits r 4 0 ≤ 16)
  let post := bits x 255 192
  let fq := bits x 191 128
  let root := bits x 63 0
  if a % 64 = 0 ∧ bits x 511 480 = 0 ∧ bits x 455 454 = 0 ∧ Config.ftvHeld (bits x 463 456) = true ∧
      bits x 453 452 = part ∧ ring post = true ∧ ring fq = true ∧ root % 65536 = 0 ∧ root < 2 ^ 52 then
    some
      { desc := a, ctxid := BitVec.ofNat 16 (bits x 479 464), ftv := bits x 463 456, part := part
        fpctlDef := BitVec.ofNat 3 (bits x 451 449), check := bit x 448, mbox := bits x 319 256
        postBase := bits post 51 12 * 4096, prlog := bits post 4 0, fqBase := bits fq 51 12 * 4096
        fqlog := bits fq 4 0, trapv := BitVec.ofNat 64 (bits x 127 64), ptroot := root }
  else none

/-- WRS to a selector that cannot be written at the writer's level raises a privilege trap (R49, R51, R302). -/
def wrsTrap (r : SpecialReg) (e : Env) : Option Nat :=
  match r with
  | .fpctl => none
  | .ctxd => if e.level == .control then none else some 4
  | .tpc => if e.inTrap then none else some 4
  | _ => some 4

/-- Every acting thread takes an FPCTL value (R50). -/
def Env.setFpctl (e : Env) (f : Nat → BitVec 3) : Env :=
  { e with grp := e.grp.onLanes e.unit fun l => { l with fpctl := f l.lane } }

/-- Put a context in force on a control core (R296, R300); none leaves it with no context. -/
def State.putCtx (s : State) (c : Nat) (x : Option Ctx) : State := s.onCc c fun k => { k with ctx := x }

/-- WRS (R50, R185, R296, R302) (log 44, DEDUCED). A 32-bit source is zero-extended to a selector of 64 bits, and TPC takes
the value of the lowest acting thread (log 81, DESIGN CHOICE). -/
def execWrs (a : RegN) (wide : Bool) (sreg : SpecialReg) (s : State) : Host.Outcome State Fault Refusal :=
  s.runWord (fun e => { srcs := regsOf wide a.toNat, pre := wrsTrap sreg e }) fun s e =>
    let v (p : Nat) : Nat := e.val wide a.toNat p
    match sreg with
    | .fpctl =>
      if e.grp.span && !(e.solo || e.uniform wide a.toNat) then .expand
      else .done s (e.setFpctl fun p => BitVec.ofNat 3 (v p))
    | .ctxd =>
      let n := v e.first
      if n = 0 then .done (s.putCtx (e.core - Config.cores) none) e
      else match s.descriptor e.ppart n with
        | none => .trap 16 (BitVec.ofNat 64 n) 1
        | some c => .done (s.putCtx (e.core - Config.cores) (some c)) (e.setFpctl fun _ => c.fpctlDef)
    | _ =>
      let n := BitVec.ofNat 64 (v e.first)
      match e.who with
      | .hand tid _ _ =>
        .done { s with traps := mapIf (·.tid == tid) (fun (t : TrapCtx) => { t with tpc := n }) s.traps } e
      | .ccHand c => .done (s.onCc c fun k => { k with trap := k.trap.map fun (t : TrapCtx) => { t with tpc := n } }) e
      | _ => .done s e

/-! ### Fences and block barriers (R123, R124, R186, R187) -/

/-- Queue entries of the acting threads, one each, in ascending index (R112). -/
def Env.enqueue (e : Env) (s : State) (kind : SqKind) (f : Nat → Option SqElem) : Env :=
  let qs : List SqEntry := (e.members.filterMap f).map fun x => ⟨kind, [x], s.tick, e.origin, [], []⟩
  { e with grp := { e.grp with stq := e.grp.stq ++ qs } }

/-- An entry that stores nothing of its own: a fence, or an arrival. -/
def Env.mark (e : Env) (s : State) (kind : SqKind) : Env :=
  e.enqueue s kind fun p => some ⟨e.idx p, 0, .priv (e.idx p) 0, [], false, 0⟩

/-- The acting threads learn what releases their earlier loads have read (R136). -/
def State.fenceLearn (s : State) (e : Env) : State :=
  s.onBlock e.bid fun b => e.members.foldl (fun (b : Block) p => b.fenceLearn (e.idx p)) b

/-- The group with the results in flight one word further, and its unit waiting. -/
def State.waitAt (s : State) (e : Env) (st : Stat) : State :=
  s.putGrps e.who [(e.stepped {}).setUnit { e.unit with stat := st }]

/-- FENCE (R123, R186). The acquire kind drops at once: earlier loads have read when they issued. The others are ordered
behind the thread's stores as an entry of its queue; those with an acquire part hold the thread until it has passed. -/
def execFence (scope : Scope) (kind : FenceKind) (s : State) : Host.Outcome State Fault Refusal :=
  s.runWord (fun _ => {}) fun s e =>
    match kind with
    | .acquire => .done ((s.acquire e.core scope).fenceLearn e) e
    | .release => .done s (e.mark s (.fence scope false))
    | .engine => .done s (e.mark s (.fence scope true))
    | _ => .moved (s.waitAt (e.mark s (.fence scope false)) .fence)

/-- The acting threads' earlier entries and atomics are not all performed: a release waits (R120). -/
def State.unreleased (s : State) (e : Env) : Bool :=
  e.members.any fun p => e.grp.queued (e.idx p) || s.atomPending e.bid (e.idx p) s.tick || s.homeAny e.bid (e.idx p)

/-- BAR n (R124, R187): after the release, the threads arrive and wait for their generation; at once on a control core
(R192). An issue set whose members arrive at different generations waits for the highest (log 82, DESIGN CHOICE). -/
def execBar (n : BitVec 4) (s : State) : Host.Outcome State Fault Refusal :=
  s.runWord (fun _ => {}) fun s e =>
    if e.solo then .done s e
    else if s.unreleased e then .wait
    else match s.block? e.bid with
      | none => .wait
      | some b =>
        let g := e.members.foldl (fun m p => max m (b.arrivals n.toNat (e.idx p))) 0
        let s := s.waitAt e (.bar n.toNat g)
        let s := s.onBlock e.bid fun b => e.members.foldl (fun (b : Block) p => b.arrive n.toNat (e.idx p)) b
        .moved (s.barriers e.bid)

/-- BARA n (R124, R187): the arrival follows the thread's earlier stores; at once on a control core (R192). -/
def execBara (n : BitVec 4) (s : State) : Host.Outcome State Fault Refusal :=
  s.runWord (fun _ => {}) fun s e => .done s (if e.solo then e else e.mark s (.bara n.toNat))

/-! ### RAND, CYC, NOP, BKPT -/

/-- RAND (R188): the pair d for an even d, else d; uniform on a span of one index. -/
def execRand (d : RegN) (stream : BitVec 16) (s : State) : Host.Outcome State Fault Refusal :=
  let wide := d.toNat % 2 == 0
  s.runWord (fun _ => { dsts := regsOf wide d.toNat }) fun s e =>
    let seed := BitVec.ofNat 64 (e.ofLaunch (·.fld 319 256))
    let ctrb := BitVec.ofNat 64 (e.ofLaunch (·.fld 383 320))
    let f (p : Nat) : Int := ((randValue seed ctrb (e.index p) stream.toNat).toNat : Int)
    if e.solo || (e.grp.span && e.count == 1) then e.put s d.toNat (formRes wide (f 0) 0)
    else if e.grp.span then .expand
    else .done s (e.write d.toNat (lanesRes wide f))

/-- CYC (R166, R189): of variable latency; once every earlier word of the threads has written its results. The wait relaxes no
stall count (R60). -/
def execCyc (d : RegN) (wide : Bool) (s : State) : Host.Outcome State Fault Refusal :=
  s.runWord (fun _ => { dsts := regsOf wide d.toNat, lat := none }) fun s e =>
    if e.members.any fun p => s.atomPending e.bid (e.idx p) s.tick then .wait
    else s.cycWord e d.toNat wide

/-- NOP (R190). -/
def execNop (s : State) : Host.Outcome State Fault Refusal := s.runWord (fun _ => {}) fun s e => .done s e

/-- A debugger is attached to the context (R190, R360). -/
def State.attached (s : State) (c : Option Ctx) : Bool :=
  match c with
  | some c => c.mbox ≠ 0 && bit (s.partNat c.part c.mbox 1) 0
  | none => false

/-- A unit halted by an event after its word: inside a run this takes the place of a .halt or .step in force; at a run's
end each has its own report (R364, R365) (log 43, DEDUCED). -/
def ISet.stopNow (u : ISet) : ISet :=
  { u with
    stat := .halted, haltReq := u.haltReq && u.atRun, haltBy := if u.atRun then u.haltBy else []
    stepping := u.stepping && u.atRun, stepBy := if u.atRun then u.stepBy else [] }

/-- BKPT (R190): with a debugger attached the group halts after the word and reports the code, in the primary only
(R366); else it traps at the following word. -/
def execBkpt (code : BitVec 8) (s : State) : Host.Outcome State Fault Refusal :=
  s.runWord (fun _ => {}) fun s e =>
    let u := { e.unit.advance with asked := false }
    let g := (e.stepped {}).setUnit u
    if !e.solo && s.attached e.ctx then
      if ((s.block? e.bid).map s.primary).getD true then
        let s := s.putGrps e.who [(e.stepped {}).setUnit u.stopNow]
        let s := match e.ctx with
          | some c => s.trigger c 1
          | none => s
        .moved (s.groupReport e e.nextPc code.toNat 2 0 e.members)
      else .done s e
    else
      let e' := { e with grp := g, unit := u }
      .moved ((s.putGrps e.who [g]).raise e' ⟨18, BitVec.ofNat 64 code.toNat, e.count, e.nextPc, e.unit.pc, s.tick⟩)

/-! ### XCHT (R191) -/

/-- The cell of a register that holds a 32-bit form of its own, if writing it leaves the other half of its pair a form:
what a span's exchange needs (R46). -/
def Grp.alone (g : Grp) (r : Nat) : Option RegCell :=
  match g.form32 r, g.form32 (mate r) with
  | some (b, t), some _ => some ⟨.f32 b t, (g.cell r).rel⟩
  | some (b, t), none => if mate r < g.regs.length then none else some ⟨.f32 b t, (g.cell r).rel⟩
  | none, _ => none

/-- Take a cell in the lanes of a mask: in a group whose live set that is, its representation and release state; else
the values of those lanes (R33). -/
def Grp.take (g : Grp) (m : W32) (r : Nat) (c : RegCell) (vs : List W32) : Grp :=
  let g := g.unpair r
  if g.span || m == g.live then g.setCell r c
  else
    let h := g.writeLanes r false m vs
    h.setCell r { h.cell r with rel := (h.cell r).rel ||| (c.rel &&& m) }

/-- A register's cell as one 32-bit register: halves of pairs as forms where they are, else per lane. -/
def Grp.single (g : Grp) (r : Nat) : RegCell := (g.unpair r).cell r

/-- Exchange register d of a served group with bank register n for the handler's acting lanes. -/
def exchange (h : Grp) (m : W32) (n : Nat) (g : Grp) (d : Nat) : Grp × Grp :=
  let hc := h.single n
  let gc := g.single d
  (h.take m n gc (g.lanesVals d), g.take m d hc (h.lanesVals n))

/-- A handler's span is the span it serves, not a part that it has split. -/
def Grp.covers (h g : Grp) : Bool := g.span && h.lo == g.lo && h.hi == g.hi

/-- XCHT (R191): in a trap context, each register takes the other's representation and release state. A span whose
exchange would leave values without a form expands, on both sides. -/
def execXcht (d : RegN) (n : BitVec 4) (s : State) : Host.Outcome State Fault Refusal :=
  s.runWord (fun e => { dsts := [n.toNat], pre := trapOnly e }) fun s e =>
    match e.who with
    | .hand tid _ _ =>
      match s.block? e.bid with
      | none => .wait
      | some b =>
        let served := (b.served tid).find? fun x => decide (x.1.lo ≤ e.grp.lo + e.first) && decide (e.grp.lo + e.first < x.1.hi)
        match served with
        | none => .wait
        | some (g, u) =>
          if (e.launch.map Launch.g).getD 0 ≤ d.toNat then .trap 2 (BitVec.ofNat 64 e.unit.word) e.count
          else
            let keep (s : State) (g' : Grp) : State :=
              (s.putGrps (.kern b.bid g.gid u.low) [g']).indexWritten b.bid (e.members.map e.idx) [d.toNat]
            if e.grp.span then
              if e.grp.covers g && (e.grp.alone n.toNat).isSome && (g.alone d.toNat).isSome then
                let (h, g') := exchange e.grp 1 n.toNat g d.toNat
                .done (keep s g') { e with grp := h }
              else .moved ((if g.span then s.expandServed b g u else s).expandGrp e)
            else if g.span then .moved (s.expandServed b g u)
            else
              let (h, g') := exchange e.grp e.unit.lanes n.toNat g d.toNat
              .done (keep s g') { e with grp := h }
    | .ccHand c =>
      match s.cc? c with
      | none => .wait
      | some k =>
        let (h, g') := exchange e.grp 1 n.toNat k.grp d.toNat
        .done (s.onCc c fun k => { k with grp := g' }) { e with grp := h }
    | _ => .wait

/-! ### ICINV (R195) -/

/-- Drop the copies of the frames that hold some addresses; the first whose walk finds no page is given back. -/
def State.dropCode (s : State) (c : Ctx) (p : Nat) : List Nat → State × Option (Nat × Nat × Nat)
  | [] => (s, none)
  | a :: r =>
    match s.translate c a .any with
    | (s, .leaf _ pa _) => (s.dropFrame p (pa / 4096)).dropCode c p r
    | (s, .fault k l) => (s, some (k, l, a))

/-- A privileged word (R150): a kernel thread's privilege trap. -/
def privWord (e : Env) : Option Nat := if e.level == .kernel then some 4 else none

/-- ICINV (R195): the frame that holds the address. -/
def execIcinv (a : RegN) (s : State) : Host.Outcome State Fault Refusal :=
  s.runWord (fun e => { srcs := regsOf true a.toNat, pre := privWord e }) fun s e =>
    let as := dedup (e.members.map fun p => e.val true a.toNat p)
    match e.ctx with
    | none => .trap 17 (BitVec.ofNat 64 (as.headD 0)) 1
    | some c =>
      match s.dropCode c e.ppart as with
      | (s, none) => .done s e
      | (s, some (k, l, x)) => .fault s k l 9 (BitVec.ofNat 64 x) [e.first]

/-- ICINV.ALL (R195): every copy and every scan-table entry of the partition. -/
def execIcinvAll (s : State) : Host.Outcome State Fault Refusal :=
  s.runWord (fun e => { pre := privWord e }) fun s e =>
    .done { s with dies := mapIf (fun d => s.partOf d.num == e.ppart) (fun (d : Die) => { d with scan := [], icache := [] })
                     s.dies } e

end Sys2Proof.Machine
end

