-- ==== Sys2Proof/Machine/Memory.lean ====
section
/-! DEFINITION. Accesses of words to memory: the checks of R225, the bytes a load reads (R116, R121, R137, R353), the
entries a store makes (R114), watchpoints (R365) and samples (R369). -/

namespace Sys2Proof.Machine

/-! ### Checks (R225) -/

/-- An element of an access: its position, virtual address and place, and whether its leaf has M = 1 on a page whose frames
are counted (R335). -/
structure Elem where
  pos : Nat
  va : Nat
  loc : Loc
  mig : Bool := false
deriving DecidableEq, Repr

/-- The outcome of the checks. -/
inductive Checked where
  | ok (s : State) (els : List Elem)
  | bad (eff : Eff)
deriving DecidableEq, Repr

/-- What an access asks for: its bytes, alignment, whether it writes, what it needs of a leaf, its ACC code (R332). -/
structure Ask where
  n : Nat
  align : Nat
  write : Bool
  need : Need
  acc : Nat
deriving DecidableEq, Repr

/-- Scratchpad bytes a word's threads have (R86). -/
def Env.spadLen (e : Env) : Nat := e.ofLaunch Launch.s

/-- Private bytes of a thread (R86). -/
def Env.privLen (e : Env) : Nat := e.ofLaunch Launch.p

/-- What the translation of some elements has given so far. -/
structure Walked where
  s : State
  els : List Elem
  fails : List (Nat × Nat × Nat × Nat)
  chip : List Nat
  /-- a walk reads what has not passed its self-test (R382) -/
  later : Bool
deriving DecidableEq, Repr

/-- The place of one element of n bytes (R86, R323, R108). -/
def Walked.one (e : Env) (c : Option Ctx) (need : Need) (n : Nat) (w : Walked) (pos va : Nat) : Walked :=
  let walk : Walked := match c with
    | none => { w with fails := w.fails ++ [(pos, va, 0, 0)] }
    | some c =>
      if !w.s.walkable e.die c.part c.ptroot va then { w with later := true }
      else match w.s.translate c va need n with
      | (s, .fault k l) => { w with s := s, fails := w.fails ++ [(pos, va, k, l)] }
      | (s, .leaf x pa lev) =>
        if winOf pa = .onChip then
          if e.level == .kernel then { w with s := s, chip := w.chip ++ [pos] }
          else { w with s := s, els := w.els ++ [⟨pos, va, .pa pa, false⟩] }
        else { w with s := s, els := w.els ++ [⟨pos, va, .pa pa, bit x 5 && lev != 2⟩] }
  match vwin va with
  | .spad o => { w with els := w.els ++ [⟨pos, va, .spad o, false⟩] }
  | .priv o => { w with els := w.els ++ [⟨pos, va, .priv (e.idx pos) o, false⟩] }
  | _ => walk

/-- What lies between the acting core and an element's place has passed its self-test: till then the word waits (R382). -/
def Env.reaches (e : Env) (s : State) (x : Elem) : Bool := match x.loc with
  | .pa a => s.usable e.die a
  | _ => true

/-- A byte of the scratchpad range lies in an absent sector (R91). -/
def Block.absentAt (b : Block) (off n : Nat) : Bool :=
  !b.absent.isEmpty && (sectorsOf off n).any fun k => b.absent.any (·.1 == k)

/-- The checks of R225 from alignment on, in order, for some positions; the lowest-index failing member's operand and
every failing member are reported (log 42, DEDUCED). -/
def State.checks (s : State) (e : Env) (a : Ask) (ps : List Nat) (va : Nat → Nat) : Checked :=
  let lost (c : Nat) (l : List Nat) : Checked := .bad (.trap c (BitVec.ofNat 64 (va (l.headD 0))) l.length)
  let mis := ps.filter fun p => va p % a.align ≠ 0
  let out := ps.filter fun p => !addrOk e.spadLen e.privLen (va p) a.n a.write
  let own := match e.launch with
    | some l => if a.write then ps.filter fun p => vwin (va p) == .global && l.ownFault e.num (va p) else []
    | none => []
  if !mis.isEmpty then lost 7 mis
  else if !out.isEmpty then lost 8 out
  else if !own.isEmpty then .bad (.fault s 8 0 a.acc (BitVec.ofNat 64 (va (own.headD 0))) own)
  else
    let w := ps.foldl (fun w p => Walked.one e e.ctx a.need a.n w p (va p)) (⟨s, [], [], [], false⟩ : Walked)
    if w.later then .bad .wait
    else match w.fails with
    | (_, v, k, l) :: _ => .bad (.fault w.s k l a.acc (BitVec.ofNat 64 v) (w.fails.map (·.1)))
    | [] =>
      if !w.chip.isEmpty then .bad (.trap 4 (BitVec.ofNat 64 e.unit.word) w.chip.length)
      else if w.els.all (e.reaches w.s) then .ok w.s w.els
      else .bad .wait

/-- Some element touches an absent scratchpad sector: the group parks (R92). An access through the on-chip map tests no presence
bit (log 99, DESIGN CHOICE). -/
def State.parks (s : State) (e : Env) (els : List Elem) (n : Nat) : Bool :=
  match s.block? e.bid with
  | some b => els.any fun x => match x.loc with
    | .spad o => b.absentAt o n
    | _ => false
  | none => false

/-! ### Staged lines (R135, R139) -/

/-- Every lower-numbered block of a launch has committed (R137). -/
def Launch.oldest (l : Launch) (num : Nat) : Bool := (l.endedBlks.filter fun k => decide (k < num)).length == num

/-- A line of a staged launch whose kind is shared. -/
def Launch.sharedAt (l : Launch) (va : Nat) : Bool := l.staged && vwin va == .global && l.lineKind va == .shared

/-- A write to an address is staged: a shared line in a deterministic launch, global memory in a redundant one. -/
def Launch.stages (l : Launch) (va : Nat) : Bool :=
  vwin va == .global && (l.redundant || (l.mode == .deterministic && l.lineKind va == .shared))

/-- A member's element lies on a shared line. -/
def Env.sharedAt (e : Env) (x : Elem) : Bool := match e.launch with
  | some l => l.sharedAt x.va
  | none => false

/-- A member's write is staged. -/
def Env.stagesAt (e : Env) (va : Nat) : Bool := match e.launch with
  | some l => l.stages va
  | none => false

/-- Entries that a replica or a block holds back: of a commit being compared, and of its satchel. -/
def Block.staged (b : Block) : List SEntry :=
  (match b.commit with
    | some c => c.entries
    | none => []) ++ b.satchel

/-! ### Reading -/

/-- The staged entries a thread's load of a place overlays (R137, R353). -/
def State.overlays (s : State) (e : Env) (x : Elem) : List SEntry :=
  match e.launch, s.block? e.bid with
  | some l, some b =>
    if !l.staged || vwin x.va != .global then []
    else if l.redundant then b.staged
    else if l.sharedAt x.va then b.staged.filter (b.sees (e.idx x.pos)) else []
  | _, _ => []

/-- Bytes of an element without the thread's own queue: through the load cache and points, the home alone for a shared
line of a deterministic launch, an answer over the fabric; staged entries overlaid. -/
def State.readBase (s : State) (e : Env) (x : Elem) (n : Nat) (skip : Bool) : List Byte :=
  match x.loc with
  | .pa a =>
    let det := e.sharedAt x && !(e.launch.map Launch.redundant).getD false
    let one (a : Nat) : Byte :=
      if isFabric a then (s.answer e.bid (e.idx x.pos) a).getD 0
      else if det then s.homeByte a
      else s.coreByte e.core e.die a skip
    match s.overlays e x with
    | [] => (upto a n).map one
    | l =>
      let lo := a / 32 * 32
      let all := overlayEntries l lo 32 ((upto lo 32).map one)
      (all.drop (a - lo)).take n
  | loc => s.homeLoc e.bid loc n

/-- The n bytes an element's load reads: the youngest own queued store of each byte, else as above (R116, R121). -/
def State.readElem (s : State) (e : Env) (x : Elem) (n : Nat) (skip : Bool) : List Byte :=
  let base := s.readBase e x n skip
  if e.grp.stq.isEmpty then base
  else ((upto 0 n).zip base).map fun (i, v) => (e.grp.forward (e.idx x.pos) (x.loc.add i)).getD v

/-- A load whose bytes come from beyond the core point may fill the load cache (R116; log 7, DESIGN CHOICE). -/
def State.fillElem (s : State) (e : Env) (x : Elem) (n : Nat) (skip : Bool) : State :=
  match x.loc with
  | .pa a =>
    if skip || e.sharedAt x || (upto a n).all (fun a => (pointByte (s.core e.core).point a).isSome) then s
    else s.fill e.core e.die a
  | _ => s

/-- Elements' scratchpad bytes are written or read: engine words that read or write them are disturbed (R130, R131) (log 47, DEDUCED). -/
def State.touch (s : State) (e : Env) (n : Nat) (write : Bool) (els : List Elem) : State :=
  els.foldl (fun (s : State) x => match x.loc with
    | .spad o => if write then s.touchIns e.bid o n else s.touchOuts e.bid o n
    | _ => s) s

/-- The thread of an element has read its bytes: what it has read of stores held at points (R113). -/
def State.markElem (s : State) (e : Env) (x : Elem) (bytes : List Byte) : State := match x.loc with
  | .pa a => s.markRead e.core e.die e.bid (e.idx x.pos) a bytes
  | _ => s

/-- The values of some elements as numbers, low and high 8 bytes, each read and its line filled in turn (R218). -/
def State.readAll (s : State) (e : Env) (n : Nat) (skip : Bool) : List Elem → State × List (Nat × W64 × W64)
  | [] => (s, [])
  | x :: r =>
    let s := s.touch e n false [x]
    let bytes := s.readElem e x n skip
    let v := leNat bytes
    let (s, l) := ((s.fillElem e x n skip).markElem e x bytes).readAll e n skip r
    (s, (x.pos, BitVec.ofNat 64 v, BitVec.ofNat 64 (v / 2 ^ 64)) :: l)

/-- A load must wait: for the thread's own reductions, atomics on the bytes, or an acquiring atomic (R113, R116,
R121). -/
def State.loadWaits (s : State) (e : Env) (x : Elem) (n : Nat) : Bool :=
  let i := e.idx x.pos
  s.reducing e.bid e.grp i x.loc n || s.atoms.any fun a => a.bid == e.bid && a.idx == i && a.hand == e.inTrap &&
    (a.order == .acquire || a.order == .acqRel || x.loc.meets n a.loc (laWidth a.op))

/-- Accesses over the fabric of some elements that have no answer yet: ask for those not asked (R376). -/
def State.askFabric (s : State) (e : Env) (n : Nat) (els : List Elem) : State × Bool :=
  els.foldl (fun (acc : State × Bool) x =>
    match x.loc with
    | .pa a =>
      if !isFabric a then acc
      else
        let (s, _) := acc
        let i := e.idx x.pos
        match s.fabric.find? fun f => !f.write && f.bid == e.bid && f.idx == i && f.pa == a && f.len == n with
        | some f => (s, acc.2 || !f.answered)
        | none =>
          let (id, s) := s.fresh
          ({ s with fabric := s.fabric ++ [⟨id, e.bid, i, a, BitVec.ofNat 64 x.va, false, [], n, false, none, e.origin⟩] }, true)
    | _ => acc) (s, false)

/-- The answers a word has taken are used up. -/
def State.takeFabric (s : State) (e : Env) (els : List Elem) : State :=
  if s.fabric.isEmpty then s
  else { s with fabric := s.fabric.filter fun f =>
    f.write || !(f.bid == e.bid && els.any fun x => e.idx x.pos == f.idx && x.loc == .pa f.pa) }

/-- The threads of some elements have read them, for the publication rule of staged launches (R136). At the positions `fwd` a
redundant launch forwards the values: the primary says which release a value carries, and the other replicas' threads learn
that one. -/
def State.noteReads (s : State) (e : Env) (n : Nat) (acq : Bool) (els : List Elem) (fwd : List Nat := []) : State :=
  if (e.launch.map (·.staged)).getD false then
    let far (x : Elem) : Bool := (e.launch.map (·.redundant)).getD false && fwd.contains x.pos
    let first := ((s.block? e.bid).map s.primary).getD true
    els.foldl (fun (s : State) x =>
      let seen := s.overlays e x
      let i := e.idx x.pos
      s.onBlock e.bid fun b =>
        if !far x then b.noteRead i x.loc n acq seen
        else if first then (b.noteRead i x.loc n acq seen).labelled i (b.relOf (b.stampOf x.loc n seen))
        else b.noteStamp i acq (b.forwardedStamp i)) s
  else s

/-- The elements that a word's threads read themselves (R140, R353): in a replica that is not the primary, not those whose
values are forwarded. -/
def State.ownReads (s : State) (e : Env) (acq : Bool) (els : List Elem) : List Elem :=
  if (e.launch.map (·.redundant)).getD false && !((s.block? e.bid).map s.primary).getD true then
    (if acq then [] else els.filter fun x => !e.sharedAt x)
  else els

/-- The check of a sector that an element's load reads fails (R110); bytes the thread's own queue holds are good. -/
def State.badElem (s : State) (e : Env) (x : Elem) (n : Nat) (skip : Bool) : Bool :=
  match x.loc with
  | .pa a =>
    if isFabric a then false
    else if e.sharedAt x && !(e.launch.map Launch.redundant).getD false then s.homeBad e.bid x.loc n
    else (upto 0 n).any fun i =>
      (e.grp.forward (e.idx x.pos) (x.loc.add i)).isNone && s.badByte e.core e.die (a + i) skip
  | loc => s.homeBad e.bid loc n

/-- A word reads some elements, unless the check of one fails: data that cannot be delivered correct ends the block
(R110, R111). -/
def State.sound (s : State) (e : Env) (n acc : Nat) (skip : Bool) (els : List Elem) (f : Eff) : Eff :=
  match els.filter fun x => s.badElem e x n skip with
  | [] => f
  | x :: r => .fault s 9 0 acc (BitVec.ofNat 64 x.va) ((x :: r).map (·.pos))

/-! ### Watchpoints and samples -/

/-- A range of n bytes at an address lies in a watchpoint's range. -/
def Watch.hits (w : Watch) (ctx kind va n : Nat) : Bool :=
  w.ctx == ctx && bit w.kinds.toNat kind && overlaps va n w.addr.toNat w.len

/-- Records for a set of positions (R385): one run or lane set, or one per window in lane form. -/
def Env.namedAll (e : Env) (ps : List Nat) : List Named :=
  if !e.grp.span then [e.named ps]
  else if runLen ps = ps.length then [e.named ps]
  else
    let is := ps.map (e.grp.lo + ·)
    (dedup (is.map (· / 32))).map fun w =>
      let mine := is.filter fun i => i / 32 == w
      ⟨mine.headD 0, (maskOf (mine.map (· % 32))).toNat, mine.length⟩

/-- The matches of a word's performed access with the partition's watchpoints: per watchpoint the elements (R365) (log 23, DEDUCED). -/
def State.watched (s : State) (e : Env) (kind n : Nat) (els : List Elem) : List (List Elem) :=
  match e.level, e.ctx, s.block? e.bid with
  | .kernel, some c, some b =>
    if !s.primary b then []
    else (nth s.dbg c.part ⟨[], [], false, []⟩).wps.filterMap fun w =>
      match w with
      | some w => match els.filter fun x => w.hits c.desc kind x.va n with
        | [] => none
        | l => some l
      | none => none
  | _, _, _ => []

/-- A word has completed whose access some watchpoints match: the group halts and reports (R365). -/
def State.watchHalt (s : State) (e : Env) (hits : List (List Elem)) : State :=
  match e.launch, e.ctx with
  | some l, some c =>
    let s := (s.onUnit e.who ISet.stopNow).trigger c 2
    let pc := match s.env? e.who with
      | some k => k.unit.pc.toNat
      | none => 0
    hits.foldl (fun s els =>
      let addr := (els.headD ⟨0, 0, .pa 0, false⟩).va
      (e.namedAll (els.map (·.pos))).foldl (fun (s : State) n =>
        s.report c (reportImage l e.num pc addr n 3 0 0) (some e.who)) s) s
  | _, _ => s

/-- Candidates for a postcard: the requests of a context's kernel threads while its PCRATE is not 0 (R369) (log 31, DESIGN CHOICE). -/
def State.sample (s : State) (e : Env) (acc n : Nat) (els : List Elem) : State :=
  match e.level, e.launch, s.block? e.bid with
  | .kernel, some l, some b =>
    if l.ctx.mbox = 0 ∨ bits (s.partNat l.ctx.part l.ctx.mbox 1) 7 4 = 0 ∨ s.primary b = false then s
    else State.spend { s with cards := s.cards ++ els.map fun x =>
      ⟨b.bid, s.tick, x.loc, n, l.ctx, l.sitePc, l.lseq, e.unit.pc, BitVec.ofNat 64 x.va, acc, e.die, e.idx x.pos, s.free + 3 * x.pos⟩ }
        (3 * 1024)
  | _, _, _ => s

/-- A word completes with its access performed: samples, then watchpoints (R365, R369). -/
def State.access (s : State) (e old : Env) (sh : Shape) (kind acc n : Nat) (els : List Elem) : Eff :=
  let hits := s.watched old kind n els
  let s := if kind = 0 then s else s.touch old n true els
  let s := if kind = 2 then s.touch old n false els else s
  let s := s.sample old acc n els
  if hits.isEmpty || old.splitsPair sh then .done s e else .moved ((s.finish e old.grp sh).watchHalt old hits)

/-! ### Stores -/

/-- The stores of a word as queue entries, in ascending index (R114, R218): an entry per thread, but a span's strided store
is one access (R23, R115). -/
def Env.queueStores (e : Env) (s : State) (kind : SqKind) (els : List Elem) (bytes : Nat → List Byte) (o : Nat) : Env :=
  let es := els.map fun x => (⟨e.idx x.pos, BitVec.ofNat 64 (x.va + o), x.loc.add o, bytes x.pos, x.mig, 0⟩ : SqElem)
  let qs : List (List SqElem) := if !e.grp.span then es.map ([·]) else if es.isEmpty then [] else [es]
  { e with grp := { e.grp with stq := e.grp.stq ++ qs.map fun es => ⟨kind, es, s.tick, e.origin, [], []⟩ } }

end Sys2Proof.Machine
end

