-- ==== Sys2Proof/Machine/LoadStore.lean ====
section
/-! DEFINITION. Loads, stores and prefetches (LM, R215 to R220). -/

namespace Sys2Proof.Machine

/-! ### Loads -/

/-- A load word: access size, registers it writes (1, 2 or 4), sign extension, acquire order, the uniform path of
LDC, whether it may be read in halves (R109). -/
structure LoadOp where
  z : Nat
  regs : Nat
  sign : Bool
  acq : Bool
  const : Bool
  halves : Bool := false
deriving DecidableEq, Repr

/-- The effective address (R215). -/
def effAddr (a off : Nat) (z : Nat) : Nat := wrap 64 ((a : Int) + sext 8 off * z)

/-- The registers of a quad, pair or single register. -/
def regRun (d n : Nat) : List Nat := upto d n

/-- A loaded value as its destination receives it (R216). -/
def LoadOp.extend (op : LoadOp) (v : Nat) : Int := if op.sign then sext (8 * op.z) v else v

/-- Write loaded values, one per member; `one`: a value for all as a uniform form (R219). -/
def LoadOp.put (op : LoadOp) (e : Env) (d : Nat) (one : Bool) (f : Nat → W64 × W64) : Env :=
  let v (p : Nat) : Int := op.extend (f p).1.toNat
  let hi (p : Nat) : Int := ((f p).2.toNat : Int)
  if op.regs = 4 then
    (((e.write d (lanesRes false v)).write (d + 1) (lanesRes false fun p => v p / 2 ^ 32)).write (d + 2)
      (lanesRes false hi)).write (d + 3) (lanesRes false fun p => hi p / 2 ^ 32)
  else
    let wide := op.regs == 2
    if one then e.write d (e.sameWord wide (v e.first)) else e.write d (lanesRes wide v)

/-- Read the elements for the given positions (R116, R121). -/
def readAt (e : Env) (op : LoadOp) (els : List Elem) (ps : List Nat) (s' : State) :
    State × (Nat → W64 × W64) :=
  let (s', l) := s'.readAll e op.z op.acq (els.filter fun x => ps.contains x.pos)
  (s', fun p => look l p (0, 0))

/-- A word's own outcome as a state, where it can only complete. -/
def State.settleEff (s : State) (old : Env) (sh : Shape) : Eff → State
  | .done t e => t.finish e old.grp sh
  | .moved t => t
  | _ => s

/-- Another group and lane of the acting block or handler. -/
def Env.inGroup (e : Env) (gid lane : Nat) : Who := match e.who with
  | .kern bid _ _ => .kern bid gid lane
  | .hand tid _ _ => .hand tid gid lane
  | w => w

/-- A span's access has been checked as one request: the group expands, and the word completes in each of its sheaves (R23, R29,
R218); `f` is what it does in one, given the position in the span of the sheaf's position 0 and its elements. -/
def State.eachSheaf (s : State) (e : Env) (sh : Shape) (els : List Elem) (f : State → Env → (Nat → Nat) → List Elem → Eff) : Eff :=
  let id := s.nextId + 1
  let ws := e.grp.windows
  .moved (((upto id ws.length).zip ws).foldl (fun (s : State) (gid, w) =>
    match s.env? (e.inGroup gid ((e.grp.windowLanes w).headD 0)) with
    | none => s
    | some k =>
      let mine := (els.filter fun x => (e.grp.lo + x.pos) / 32 == w).map fun x => { x with pos := (e.grp.lo + x.pos) % 32 }
      s.settleEff k sh (f s k (fun p => 32 * w + p - e.grp.lo) mine)) (s.expandGrp e))

/-- A load's values reach d: on a span in each of its sheaves (R29, R218). -/
def State.loadPut (s : State) (e : Env) (sh : Shape) (op : LoadOp) (d : Nat) (one : Bool) (els : List Elem)
    (f : Nat → W64 × W64) : Eff :=
  if !e.grp.span || one then s.access (op.put e d one f) e sh 0 0 op.z els
  else s.eachSheaf e sh els fun s k at' mine => s.access (op.put k d false fun p => f (at' p)) k sh 0 0 op.z mine

/-- What performing a load's elements does, once nothing holds it (R121, R140); `all` are those of every member, of which a
uniform load reads one. -/
def State.loadNow (s : State) (e : Env) (sh : Shape) (op : LoadOp) (d : Nat) (one : Bool) (els all : List Elem) : Eff :=
  let ps := if op.acq then e.members else (all.filter e.sharedAt).map (·.pos)
  match s.forwarding e ps (fun ps s' => readAt e op els ps s') with
  | none => .hold s .fwdWait
  | some (s, f) =>
    let s := if op.acq then s.acquire e.core .device else s
    let s := (s.noteReads e op.z op.acq all ps).takeFabric e els
    s.loadPut e sh op d one all fun p => if one then f e.first else f p

/-- The low halves of an LD128 are read; its high halves follow as a later step (R109, R216). -/
def State.loadLow (s : State) (e : Env) (els : List Elem) : Eff :=
  let (s, l) := s.readAll e 8 false els
  let s := s.noteReads e 8 false els
  .moved (s.onUnit e.who fun u => { u with half := some (l.map fun x => (x.1, x.2.1)) })

/-- The high halves of an LD128 whose low halves have been read, and its completion. -/
def State.loadHigh (s : State) (e : Env) (sh : Shape) (op : LoadOp) (d : Nat) (els : List Elem)
    (low : List (Nat × W64)) : Eff :=
  let up := els.map fun x => { x with va := x.va + 8, loc := x.loc.add 8 }
  let (s, l) := s.readAll e 8 false up
  let s := (s.noteReads e 8 false up).takeFabric e els
  s.loadPut e sh op d false els fun p => (look low p 0, (look l p (0, 0)).1)

/-- A member's private window or a satchel's view gives it bytes of its own: LDC of a uniform address then reads as LD32 or
LD64 do (R88, R219; log 41, DEDUCED). -/
def State.ownView (s : State) (e : Env) (els : List Elem) : Bool :=
  let seen (x : Elem) : List SEntry := s.overlays e x
  (els.any fun x => match x.loc with
    | .priv _ _ => true
    | _ => false) || match els with
    | x :: r => r.any fun y => seen y != seen x
    | [] => false

/-- A member's queue holds a store of an element's bytes. -/
def Env.queuedOn (e : Env) (x : Elem) (n : Nat) : Bool :=
  (upto 0 n).any fun i => (e.grp.forward (e.idx x.pos) (x.loc.add i)).isSome

/-- A load word (R216 to R219). A span's access is one strided request, and then it expands (R23, R218); LDC of a
uniform address reads once for the whole group, when no member's queue holds the bytes (R219) (log 41, DEDUCED). -/
def State.load (s : State) (op : LoadOp) (d a : RegN) (off : BitVec 8) (ka : Bool) (st : BitVec 2) :
    Host.Outcome State Fault Refusal :=
  let sh : Shape :=
    { dsts := regRun d.toNat op.regs, srcs := regsOf true a.toNat, rel := if ka then regsOf true a.toNat else []
      lat := none, gap := gapOf st none }
  s.runWord (fun _ => sh) fun s e =>
    let va (p : Nat) : Nat := effAddr (e.val true a.toNat p) off.toNat op.z
    match s.checks e ⟨op.z, op.z, false, .read, 0⟩ e.members va with
    | .bad x => x
    | .ok s all =>
      let one := e.solo || (op.const && e.whole && e.uniform true a.toNat && !s.ownView e all)
      let els := if one then all.take 1 else all
      if s.parks e els op.z then .hold s .parked
      else if all.any (fun x => s.loadWaits e x op.z) then .wait
      else if one && decide (1 < all.length) && all.any (e.queuedOn · op.z) then .wait
      else if els.any e.sharedAt && (e.launch.map fun l => !l.redundant && !l.oldest e.num).getD false then
        .hold s .sharedWait
      else
        let own := s.ownReads e op.acq els
        let (s, asked) := s.askFabric e op.z own
        if asked then .hold s .fabricWait
        else s.sound e op.z 0 op.acq own <| match e.unit.half with
          | some [] => if op.halves && !els.any e.sharedAt then s.loadLow e els else s.loadNow e sh op d.toNat one els all
          | some low => if op.halves then s.loadHigh e sh op d.toNat els low else s.loadNow e sh op d.toNat one els all
          | none => s.loadNow e sh op d.toNat one els all

/-- LD8 (R216). -/
def execLd8 (d a : RegN) (off : BitVec 8) (ka : Bool) (st : BitVec 2) (s : State) : Host.Outcome State Fault Refusal :=
  s.load ⟨1, 1, false, false, false, false⟩ d a off ka st

/-- LD8S (R216). -/
def execLd8s (d a : RegN) (off : BitVec 8) (ka : Bool) (st : BitVec 2) (s : State) :
    Host.Outcome State Fault Refusal := s.load ⟨1, 1, true, false, false, false⟩ d a off ka st

/-- LD16 (R216). -/
def execLd16 (d a : RegN) (off : BitVec 8) (ka : Bool) (st : BitVec 2) (s : State) :
    Host.Outcome State Fault Refusal := s.load ⟨2, 1, false, false, false, false⟩ d a off ka st

/-- LD16S (R216). -/
def execLd16s (d a : RegN) (off : BitVec 8) (ka : Bool) (st : BitVec 2) (s : State) :
    Host.Outcome State Fault Refusal := s.load ⟨2, 1, true, false, false, false⟩ d a off ka st

/-- LD32 (R216). -/
def execLd32 (d a : RegN) (off : BitVec 8) (ka : Bool) (st : BitVec 2) (s : State) :
    Host.Outcome State Fault Refusal := s.load ⟨4, 1, false, false, false, false⟩ d a off ka st

/-- LD64 (R216). -/
def execLd64 (d a : RegN) (off : BitVec 8) (ka : Bool) (st : BitVec 2) (s : State) :
    Host.Outcome State Fault Refusal := s.load ⟨8, 2, false, false, false, false⟩ d a off ka st

/-- LD128 (R216): two 8-byte reads, in one step or, where the agenda says so, in two (R109, log 1, DESIGN CHOICE). -/
def execLd128 (d a : RegN) (off : BitVec 8) (ka : Bool) (st : BitVec 2) (s : State) :
    Host.Outcome State Fault Refusal := s.load ⟨16, 4, false, false, false, true⟩ d a off ka st

/-- LDA32 (R121, R216). -/
def execLda32 (d a : RegN) (off : BitVec 8) (ka : Bool) (st : BitVec 2) (s : State) :
    Host.Outcome State Fault Refusal := s.load ⟨4, 1, false, true, false, false⟩ d a off ka st

/-- LDA64 (R121, R216). -/
def execLda64 (d a : RegN) (off : BitVec 8) (ka : Bool) (st : BitVec 2) (s : State) :
    Host.Outcome State Fault Refusal := s.load ⟨8, 2, false, true, false, false⟩ d a off ka st

/-- LD128A (R216): single-copy atomic. -/
def execLd128a (d a : RegN) (off : BitVec 8) (ka : Bool) (st : BitVec 2) (s : State) :
    Host.Outcome State Fault Refusal := s.load ⟨16, 4, false, false, false, false⟩ d a off ka st

/-- LDC32 (R216, R219). -/
def execLdc32 (d a : RegN) (off : BitVec 8) (ka : Bool) (st : BitVec 2) (s : State) :
    Host.Outcome State Fault Refusal := s.load ⟨4, 1, false, false, true, false⟩ d a off ka st

/-- LDC64 (R216, R219). -/
def execLdc64 (d a : RegN) (off : BitVec 8) (ka : Bool) (st : BitVec 2) (s : State) :
    Host.Outcome State Fault Refusal := s.load ⟨8, 2, false, false, true, false⟩ d a off ka st

/-! ### Stores -/

/-- A store word: access size, data registers (1, 2 or 4), release order, single-copy atomic at its whole size. -/
structure StoreOp where
  z : Nat
  regs : Nat
  rel : Bool
  whole : Bool
deriving DecidableEq, Repr

/-- A thread's store data as bytes (R216). -/
def StoreOp.bytes (op : StoreOp) (e : Env) (d pos : Nat) : List Byte :=
  (leBytes (4 * op.regs) ((regRun d op.regs).foldr (fun r x => (e.view.val r pos).toNat + 2 ^ 32 * x) 0)).take op.z

/-- The data registers all read as forms (R218), a pair as a 64-bit one (R47). -/
def StoreOp.formed (op : StoreOp) (e : Env) (d : Nat) : Bool :=
  if op.regs = 2 then (e.view.form64 d).isSome else (regRun d op.regs).all fun r => (e.view.form32 r).isSome

/-- Queue a store's elements with their bytes: a plain 16-byte store is two entries, one where it is staged (R109, R115, R349). -/
def StoreOp.queue (op : StoreOp) (s : State) (e : Env) (bs : Nat → List Byte) (els : List Elem) : Env :=
  let kind : SqKind := if op.rel then .relStore else .store
  if op.z = 16 ∧ op.whole = false then
    let (one, two) := els.partition fun x => e.stagesAt x.va
    ((e.queueStores s kind one bs 0).queueStores s kind two (fun p => (bs p).take 8) 0).queueStores s kind two
      (fun p => (bs p).drop 8) 8
  else e.queueStores s kind els bs 0

/-- A checked store enters the queues: one strided access of a span, unless it reaches the private window, where each sheaf of the
expanded span queues its own (R218). -/
def State.storePut (s : State) (e : Env) (sh : Shape) (op : StoreOp) (d : Nat) (els : List Elem) : Eff :=
  let priv (x : Elem) : Bool := match x.loc with
    | .priv _ _ => true
    | _ => false
  if e.grp.span && !e.solo && els.any priv then
    s.eachSheaf e sh els fun s k at' mine => s.access (op.queue s k (fun p => op.bytes e d (at' p)) mine) k sh 1 1 op.z mine
  else s.access (op.queue s e (op.bytes e d) els) e sh 1 1 op.z els

/-- A store word (R216 to R218): one strided request of a span whose operands read as forms; else the span expands first. -/
def State.store (s : State) (op : StoreOp) (d a : RegN) (off : BitVec 8) (ka : Bool) (st : BitVec 2) :
    Host.Outcome State Fault Refusal :=
  let sh : Shape :=
    { srcs := regsOf true a.toNat ++ regRun d.toNat op.regs, rel := if ka then regsOf true a.toNat else []
      lat := none, gap := gapOf st none }
  s.runWord (fun _ => sh) fun s e =>
    let va (p : Nat) : Nat := effAddr (e.val true a.toNat p) off.toNat op.z
    if e.grp.span && !e.solo && ((e.form true a.toNat).isNone || !op.formed e d.toNat) then .expand
    else match s.checks e ⟨op.z, op.z, true, .write, 1⟩ e.members va with
      | .bad x => x
      | .ok s els =>
        if s.parks e els op.z then .hold s .parked
        else s.storePut e sh op d.toNat els

/-- ST8 (R216). -/
def execSt8 (d a : RegN) (off : BitVec 8) (ka : Bool) (st : BitVec 2) (s : State) : Host.Outcome State Fault Refusal :=
  s.store ⟨1, 1, false, false⟩ d a off ka st

/-- ST16 (R216). -/
def execSt16 (d a : RegN) (off : BitVec 8) (ka : Bool) (st : BitVec 2) (s : State) :
    Host.Outcome State Fault Refusal := s.store ⟨2, 1, false, false⟩ d a off ka st

/-- ST32 (R216). -/
def execSt32 (d a : RegN) (off : BitVec 8) (ka : Bool) (st : BitVec 2) (s : State) :
    Host.Outcome State Fault Refusal := s.store ⟨4, 1, false, false⟩ d a off ka st

/-- ST64 (R216). -/
def execSt64 (d a : RegN) (off : BitVec 8) (ka : Bool) (st : BitVec 2) (s : State) :
    Host.Outcome State Fault Refusal := s.store ⟨8, 2, false, false⟩ d a off ka st

/-- ST128 (R216): two 8-byte entries. -/
def execSt128 (d a : RegN) (off : BitVec 8) (ka : Bool) (st : BitVec 2) (s : State) :
    Host.Outcome State Fault Refusal := s.store ⟨16, 4, false, false⟩ d a off ka st

/-- STL32 (R120, R216). -/
def execStl32 (d a : RegN) (off : BitVec 8) (ka : Bool) (st : BitVec 2) (s : State) :
    Host.Outcome State Fault Refusal := s.store ⟨4, 1, true, false⟩ d a off ka st

/-- STL64 (R120, R216). -/
def execStl64 (d a : RegN) (off : BitVec 8) (ka : Bool) (st : BitVec 2) (s : State) :
    Host.Outcome State Fault Refusal := s.store ⟨8, 2, true, false⟩ d a off ka st

/-- ST128A (R216): one single-copy atomic entry. -/
def execSt128a (d a : RegN) (off : BitVec 8) (ka : Bool) (st : BitVec 2) (s : State) :
    Host.Outcome State Fault Refusal := s.store ⟨16, 4, false, true⟩ d a off ka st

/-! ### Prefetch -/

/-- Bring the line of an address into the load cache where its translation allows a read (R220). -/
def State.prefetch (s : State) (e : Env) (va : Nat) : State :=
  match e.ctx, vwin va with
  | some c, .global =>
    if !s.walkable e.die c.part c.ptroot va then s
    else match s.translate c va .read with
    | (s, .leaf _ pa _) => s.fill e.core e.die pa
    | _ => s
  | _, _ => s

/-- PFX (R220): never parks, faults or traps beyond the register checks; form-closed on a span. -/
def execPfx (a : RegN) (off : BitVec 8) (ka : Bool) (st : BitVec 2) (s : State) :
    Host.Outcome State Fault Refusal :=
  s.runWord
    (fun _ => { srcs := regsOf true a.toNat, rel := if ka then regsOf true a.toNat else []
                lat := none, gap := gapOf st none })
    fun s e =>
      .done (e.members.foldl (fun s p => s.prefetch e (effAddr (e.val true a.toNat p) off.toNat 64)) s) e

end Sys2Proof.Machine
end

