-- ==== Sys2Proof/Machine/Barrier.lean ====
section
/-! DEFINITION. What engine words share (R16, R52, R238, R240), and transaction barriers (R94 to R97, R259 to R261). -/

namespace Sys2Proof.Machine

/-! ### Engine words -/

/-- The role trap of an engine word (R16): `ok` are the role codes besides any that may run it. -/
def roleTrap (ok : List Nat) (e : Env) : Option Nat := if e.role = 0 ∨ ok.contains e.role then none else some 1

/-- The tile-range trap (R52). -/
def tileTrap (t : Nat) (e : Env) : Option Nat := if e.ofLaunch Launch.tiles ≤ t then some 3 else none

/-- An operand of a group word: as the lowest-index member holds it (R35, R238). -/
def Env.lead (e : Env) (r : RegN) : Nat := e.val false r.toNat e.first

/-- A group word (R238): it executes once where its sources, 32-bit ones or pairs, are uniform on a span (log 30, DEDUCED). -/
def State.groupWord (s : State) (srcs : List (RegN × Bool)) (shape : Env → Shape) (st : BitVec 2)
    (f : State → Env → Eff) : Host.Outcome State Fault Refusal :=
  s.runWord
    (fun e => { shape e with
      firsts := srcs.flatMap fun x => regsOf x.2 x.1.toNat
      lat := none, gap := gapOf st none })
    fun s e =>
      if e.grp.span && !e.solo && !srcs.all (fun x => e.uniform x.2 x.1.toNat) then .expand else f s e

/-- The alignment and extent checks of a scratchpad range (R240). -/
def Env.rangeBad (e : Env) (off n align : Nat) : Option Eff :=
  if off % align ≠ 0 then some (.trap 7 (BitVec.ofNat 64 off) e.count)
  else if e.spadLen < off + n then some (.trap 8 (BitVec.ofNat 64 off) e.count)
  else none

/-- Run a word's own meaning once its scratchpad range has passed. -/
def Env.ranged (e : Env) (off n align : Nat) (f : Eff) : Eff := (e.rangeBad off n align).getD f

/-! ### Transaction barriers (R94, R95) -/

/-- TbUpdate of R95 on a barrier's 128 bits: its new value, and whether the phase completed. -/
def tbUpdate (x darr : Nat) (dsec : Int) : Nat × Bool :=
  let err := x % 2 ^ 29 + 2 ^ 29 + x / 2 ^ 30 * 2 ^ 30
  let arr := bits x 27 8
  let s := sext 32 (bits x 63 32) + dsec
  if bit x 29 then (x, false)
  else if bits x 127 84 ≠ 0 ∨ bits x 31 30 ≠ 0 ∨ bits x 7 4 ≠ 0 ∨ arr < darr then (err, false)
  else if s < -2147483648 ∨ 2147483648 ≤ s then (err, false)
  else
    let fin := arr == darr && s == 0
    let init := bits x 83 64
    let low := if fin then (bits x 3 0 + 1) % 16 + init * 256 else bits x 3 0 + (arr - darr) * 256
    (low + bits x 28 28 * 2 ^ 28 + wrap 32 s * 2 ^ 32 + init * 2 ^ 64, fin)

/-- Units at a TBWAIT test their barrier again. -/
def Grp.tbWake (g : Grp) : Grp :=
  { g with units := mapIf (fun (u : ISet) => u.stat == .tbwait) (fun u => { u with stat := .ready }) g.units }

/-- Units of a block and its handlers at a TBWAIT test again. -/
def State.tbWake (s : State) (bid : Nat) : State :=
  { s.onBlock bid fun b => { b with groups := b.groups.map Grp.tbWake } with
    traps := mapIf (fun (t : TrapCtx) => t.bid == bid) (fun t => { t with groups := t.groups.map Grp.tbWake }) s.traps }

/-- The barrier at an offset of a block's scratchpad. -/
def Block.tb (b : Block) (off : Nat) : Nat := b.spad.nat off 16

/-- One update of a barrier (R95). -/
def State.tbApply (s : State) (bid off darr : Nat) (dsec : Int) : State :=
  match s.block? bid with
  | none => s
  | some b =>
    let (x, fin) := tbUpdate (b.tb off) darr dsec
    let done := look b.tbs off 0
    (s.setBlock { b with
      spad := b.spad.setNat off 16 x
      tbs := if fin then put b.tbs off (done + 1) else b.tbs }).slotSync bid off 16 |>.tbWake bid

/-- An arrival is made, by threads that have just published: those that wait for its phase acquire it (R124, R136). -/
def Block.tbNote (b : Block) (off : Nat) : Block :=
  let p := look b.tbs off 0
  { b with tbStamp := (off, p, b.stamp) :: b.tbStamp.filter fun x => !(x.1 == off && x.2.1 == p) }

/-- How many phases, counted since TBINIT, a completed wait has seen complete. -/
def Block.tbPhases (b : Block) (off q : Nat) (par : Bool) : Nat :=
  let done := look b.tbs off 0
  let back := if par then 1 else (bits (b.tb off) 3 0 + 16 - q % 16) % 16
  done + 1 - back

/-- A thread acquires the arrivals at a barrier in its first p phases (R136). -/
def Block.tbLearn (b : Block) (off p i : Nat) : Block :=
  b.learn i ((b.tbStamp.filter fun x => x.1 == off && decide (x.2.1 < p)).foldl (fun m x => max m x.2.2) 0)

/-- TbDone of R261. -/
def tbDone (x q : Nat) (par : Bool) : Bool :=
  if par then bits x 0 0 == q % 2
  else
    let k := (bits x 3 0 + 16 - q % 16) % 16
    decide (1 ≤ k) && decide (k ≤ 8)

/-- A count TBINIT takes (R259). -/
def tbCountOk (n : Nat) : Bool := decide (1 ≤ n) && decide (n ≤ 1048575)

/-- A barrier as TBINIT leaves it (R259). -/
def tbFresh (n : Nat) (ring : Bool) : Nat := n * 256 + (if ring then 2 ^ 28 else 0) + n * 2 ^ 64

/-- A new barrier at an offset. -/
def Block.tbInit (b : Block) (off n : Nat) (ring : Bool) : Block :=
  { b with
    spad := b.spad.setNat off 16 (tbFresh n ring)
    tbs := put b.tbs off 0
    tbStamp := b.tbStamp.filter fun x => x.1 ≠ off }

/-- TBINIT (R259). -/
def execTbinit (a b : RegN) (ring : Bool) (st : BitVec 2) (s : State) : Host.Outcome State Fault Refusal :=
  s.groupWord [(a, false), (b, ring)] (fun _ => {}) st fun s e =>
    let off := e.lead a
    let n := if ring then 32 else 16
    let c := e.val ring b.toNat e.first
    let lo := c % 2 ^ 32
    let hi := c / 2 ^ 32
    e.ranged off n n <|
      if !tbCountOk lo || (ring && !tbCountOk hi) then .trap 10 (BitVec.ofNat 64 off) e.count
      else if e.members.any fun p => e.grp.waiting (e.idx p) s.tick (·.on (e.idx p) (.spad off) n) ||
          s.homeOn e.bid (e.idx p) (.spad off) n || e.grp.arriving (e.idx p) (.spad off) n then .wait
      else
        .done ((s.onBlock e.bid fun k =>
          if ring then (k.tbInit off lo true).tbInit (off + 16) hi true else k.tbInit off lo false).tbWake e.bid) e

/-- TBARR (R260): the update follows the release step of R124, as an entry of the threads' queue. -/
def execTbarr (a b : RegN) (decl : Bool) (st : BitVec 2) (s : State) : Host.Outcome State Fault Refusal :=
  s.groupWord [(a, false), (b, false)] (fun _ => {}) st fun s e =>
    let off := e.lead a
    e.ranged off 16 16 (.done s (e.mark s (.tbarr off (if decl then 0 else e.count) (sext 32 (e.lead b)))))

/-- A wait or test of a barrier: its checks, then whether its phase is done (R261). -/
def State.tbCheck (s : State) (e : Env) (a b : RegN) (par : Bool) (f : Block → Nat → Bool → Eff) : Eff :=
  let off := e.lead a
  e.ranged off 16 16 <|
    match s.block? e.bid with
    | none => .wait
    | some k =>
      let x := k.tb off
      if e.members.any fun p => e.grp.arriving (e.idx p) (.spad off) 16 then .wait
      else if bit x 29 || (par && !bit x 28) then .trap 10 (BitVec.ofNat 64 off) e.count
      else f k off (tbDone x (e.lead b) par)

/-- A completed wait for some phases of a barrier observes the copies that reported to them (R133). -/
def Await.inPhases (off p : Nat) : Await → Bool
  | .phase o k => o == off && decide (k < p)
  | _ => false

/-- The acquire of a completed wait (R124, R136), and what it observes (R133). -/
def State.tbAcquire (s : State) (e : Env) (k : Block) (off q : Nat) (par : Bool) : State :=
  let p := k.tbPhases off q par
  s.onBlock e.bid fun b => e.members.foldl (fun (b : Block) i =>
    (b.tbLearn off p (e.idx i)).observe (e.idx i) (Await.inPhases off p)) b

/-- TBWAIT (R261). -/
def execTbwait (a b : RegN) (par : Bool) (st : BitVec 2) (s : State) : Host.Outcome State Fault Refusal :=
  s.groupWord [(a, false), (b, false)] (fun _ => {}) st fun s e =>
    s.tbCheck e a b par fun k off fin =>
      if fin then .done (s.tbAcquire e k off (e.lead b) par) e else .hold s .tbwait

/-- TBTEST (R261). -/
def execTbtest (pd : PredN) (a b : RegN) (par : Bool) (st : BitVec 2) (s : State) :
    Host.Outcome State Fault Refusal :=
  s.groupWord [(a, false), (b, false)] (fun _ => { pdsts := if pd.toNat < 7 then [pd.toNat] else [] }) st fun s e =>
    s.tbCheck e a b par fun k off fin =>
      .done (if fin then s.tbAcquire e k off (e.lead b) par else s) (e.pwrite pd.toNat (e.samePred fin))

end Sys2Proof.Machine
end

