-- ==== Sys2Proof/Machine/Satchel.lean ====
section
/-! DEFINITION. Satchels: what enters them (R136, R349), the signature of a commit (R351), applying a commit at the homes
(R136, R139), and the counters of atomic accesses (R335). -/

namespace Sys2Proof.Machine

/-! ### Entering (R136, R138, R349, R350) -/

/-- The satchel of a block in a launch has room for so many bytes more. -/
def Block.fits (b : Block) (l : Launch) (cost : Nat) : Bool := decide (b.satchelUsed + cost ≤ l.satchel)

/-- Entries enter a block's satchel. -/
def Block.enter (b : Block) (xs : List SEntry) : Block := { b with satchel := b.satchel ++ xs }

/-- Entries enter a satchel if they fit; otherwise the block stalls, and the launch is marked (R138, R350) (log 45, DEDUCED). -/
def State.stage (s : State) (bid : Nat) (by' : FullBy) (xs : List SEntry) : State × Bool :=
  match s.block? bid with
  | none => (s, true)
  | some b =>
    match s.launch? b.lid with
    | none => (s, true)
    | some l =>
      if b.full.isSome || b.commit.isSome || s.ending b then (s, false)
      else if b.fits l (xs.foldl (fun n x => n + x.cost) 0) then (s.setBlock (b.enter xs), true)
      else ((s.setBlock { b with full := some by' }).onLaunch l.lid fun l => { l with capc := true }, false)

/-! ### Signatures (R351) -/

/-- A line's bytes and mask as a commit's stores leave it. -/
structure SigLine where
  line : Nat
  mask : Nat
  bytes : List Byte
deriving DecidableEq, Repr

/-- Put a byte into the lines of a signature. -/
def sigByte (ls : List SigLine) (va : Nat) (v : Byte) : List SigLine :=
  let n := va / 64
  let j := va % 64
  let ls := if ls.any (·.line == n) then ls else ls ++ [⟨n, 0, List.replicate 64 0⟩]
  mapIf (fun (x : SigLine) => x.line == n) (fun x => { x with mask := x.mask ||| 2 ^ j, bytes := x.bytes.set j v }) ls

/-- The lines a committed set writes by stores, copy writes and drains, after merge order. -/
def sigLines (set : List SEntry) : List SigLine :=
  (mergeOrder set).foldl (fun ls x =>
    let put (bs : List Byte) : List SigLine :=
      ((upto 0 bs.length).zip bs).foldl (fun ls y => sigByte ls (x.va.toNat + y.1) y.2) ls
    match x.kind with
    | .store => put x.bytes
    | .copyw => put x.bytes
    | .part m =>
      let old := ((ls.find? (·.line == x.va.toNat / 64)).map fun y => nth y.bytes (x.va.toNat % 64) 0).getD 0
      sigByte ls x.va.toNat ((old &&& ~~~m) ||| (x.bytes.headD 0 &&& m))
    | _ => ls) []

/-- The term of a reduction, an add-on-store element, or an atomic's completion record. -/
def SEntry.sigTerm (x : SEntry) : W64 :=
  let v := BitVec.ofNat 64 (leNat x.bytes)
  match x.kind with
  | .red op => recHash [2, x.va, BitVec.ofNat 64 op, v]
  | .addon k => recHash [2, x.va, if k then 65 else 64, v]
  | .done => recHash [4, x.va, v]
  | _ => 0

/-- The code of a commit kind in Signature. -/
def CKind.code : CKind → W64
  | .release => 1
  | .atomic => 2
  | .capacity => 3
  | .blockEnd => 4

/-- The eight bytes of a line from an offset, as a number. -/
def SigLine.word (x : SigLine) (j : Nat) : W64 := BitVec.ofNat 64 (leNat ((x.bytes.drop (8 * j)).take 8))

/-- Signature of R351; `atom` is the record of the atomic that makes the commit. -/
def signature (set : List SEntry) (kind : CKind) (n : Nat) (atom : Option PAtomic) : W64 :=
  let s0 := recHash [5, kind.code, BitVec.ofNat 64 n]
  let s1 := (sigLines set).foldl (fun (s : W64) x =>
    s + recHash ([1, BitVec.ofNat 64 (64 * x.line), BitVec.ofNat 64 x.mask] ++ (upto 0 8).map x.word)) s0
  let s2 := set.foldl (fun (s : W64) x => s + x.sigTerm) s1
  match atom with
  | some a => s2 + recHash [3, a.va, BitVec.ofNat 64 a.op, a.b, a.cmp]
  | none => s2

/-! ### Atomic access counters (R335) -/

/-- The record of a migration proposal (R332, R335), as a number (log 40, DEDUCED). -/
def migRecord (l : Option Launch) (c : Ctx) (num die : Nat) (who : Named) (va : W64) : Nat :=
  let site := (l.map (·.sitePc.toNat)).getD 0
  let seq := (l.map (·.lseq)).getD 0
  let dom := (l.map (·.fdom.toNat)).getD 0
  site * 2 ^ 448 + seq * 2 ^ 384 + num * 2 ^ 320 + va.toNat * 2 ^ 128 + who.idx * 2 ^ 88 + who.lmask * 2 ^ 56
    + who.count * 2 ^ 45 + 14 * 2 ^ 38 + die * 2 ^ 32 + dom * 2 ^ 16 + c.ctxid.toNat

/-- Write a record without a launch's policy, or keep it until its ring has room (R298). -/
def State.recordRaw (s : State) (c : Ctx) (data : Nat) : State := (s.recordIn c data none none).1

/-- An atomic, quiet reduction or add-on-store of a core has been performed at its home on near memory: its frame's
counter for the issuing die, and the proposal it may reach (R335); `mig`: the leaf that translated it has M = 1. -/
def State.countAccess (s : State) (l : Option Launch) (c : Option Ctx) (num core : Nat) (who : Named) (va : W64) (pa : Nat)
    (mig : Bool) : State :=
  match c, winOf pa with
  | some c, .near =>
      if !mig then s
      else
        let home := dieOf pa
        let frame := pa / 65536
        let d := coreDie core
        let old := ((s.die home).mig.find? (·.frame == frame)).map (·.counts) |>.getD [0, 0, 0, 0]
        let new := old.set d (min 65535 (nth old d 0 + 1))
        let up (x : Nat) : Bool := x ≠ home && decide (4096 ≤ nth new x 0) && decide (2 * nth new home 0 ≤ nth new x 0)
        let hit := (upto 0 4).find? up
        let keep : List Nat := if hit.isSome then [0, 0, 0, 0] else new
        let s := s.onDie home fun x =>
          let rest := x.mig.filter (·.frame != frame)
          let rest := if 1024 ≤ rest.length then rest.drop 1 else rest
          { x with mig := rest ++ [⟨frame, keep⟩] }
        match hit with
        | some d => s.recordRaw c (migRecord l c num d who va)
        | none => s
  | _, _ => s

/-- The same for a thread of a block, or of a control core, under the context in force as the access was made (R296). -/
def State.countBy (s : State) (bid core idx : Nat) (src : Origin) (va : W64) (pa : Nat) (mig : Bool) : State :=
  let b := s.block? bid
  let l := b.bind fun b => s.launch? b.lid
  let c := if bid = 0 then src.ctx else l.map (·.ctx)
  s.countAccess l c ((b.map (·.num)).getD 0) core (if bid = 0 then ⟨0, 0, 1⟩ else nameOf src.lanes [idx]) va pa mig

/-! ### Applying a commit -/

/-- One entry at its home (R136): stores replace, reductions and add-ons act on what stands there. -/
def State.applyEntry (s : State) (b : Block) (l : Launch) (x : SEntry) : State :=
  if x.width = 0 then s
  else
    let op : Option (Nat × W64) := match x.kind with
      | .red op => some (op, 0)
      | .addon k => some (if k then 65 else 64, 0)
      | _ => none
    -- beyond the fabric the target applies the operand (log 20, DEDUCED)
    let s := if op.isSome && isFabric x.pa then s.send ⟨b.bid, x.idx, x.pa, x.va, x.bytes, x.src, []⟩ op
      else s.arrive ⟨b.bid, x.idx, x.pa, x.va, x.apply (s.homeBytes x.pa x.width), x.src, []⟩
    if op.isSome then s.countAccess (some l) (some l.ctx) b.num b.core (nameOf x.src.lanes [x.idx]) x.va x.pa x.mig else s

/-- A set is applied in merge order, as one step; lines of what was written leave the load caches of the cores that hold
the block, so that its threads read no older value (R113, R136), and who acquires from its bytes later acquires the releases
its entries carry: each replica by its own stamp of that release. -/
def State.applySet (s : State) (b : Block) (l : Launch) (set : List SEntry) : State :=
  let s := (mergeOrder set).foldl (fun (s : State) x => s.applyEntry b l x) s
  let cores := (s.blocks.filter fun x => x.lid == b.lid && x.num == b.num && x.st != .ended).map (·.core)
  let s := set.foldl (fun (s : State) x => s.dropLine (fun c => cores.contains c) x.pa x.width) s
  let same (x : Block) : Bool := x.lid == b.lid && x.num == b.num && x.st != .ended
  let stamp (y : Block) : Block := set.foldl (fun (y : Block) x =>
    y.stampBytes (((b.relOf x.rel).bind y.stampAt).getD 0) (.pa x.pa) x.width) y
  { s with blocks := mapIf same stamp s.blocks }

/-- A signature joins those of its launch (R358). -/
def State.addSig (s : State) (lid num n : Nat) (sig : W64) : State :=
  s.onLaunch lid fun l => { l with sigs := l.sigs ++ [(num, n, sig)] }

/-- A deterministic block commits a part of its satchel at once (R136, R138). -/
def State.detCommit (s : State) (bid : Nat) (kind : CKind) (p : SEntry → Bool) (atom : Option PAtomic) : State :=
  match s.block? bid with
  | none => s
  | some b =>
    match s.launch? b.lid with
    | none => s
    | some l =>
      let set := b.satchel.filter p
      let s := s.addSig l.lid b.num b.ordinal (signature set kind b.ordinal atom)
      let s := s.setBlock { b with satchel := b.satchel.filter (fun x => !p x), ordinal := b.ordinal + 1 }
      s.applySet b l set

/-- A replica reaches a commit: its set waits to be compared (R139, R354). The flag says it could (log 55, DEDUCED). -/
def State.submit (s : State) (bid : Nat) (kind : CKind) (p : SEntry → Bool) (who : Option Who) (is : List Nat) (src : Origin)
    (atom : Option PAtomic) : State :=
  match s.block? bid with
  | none => s
  | some b =>
    if b.commit.isSome || s.ending b || (b.full.isSome && kind != .capacity) then s
    else
      let set := b.satchel.filter p
      s.setBlock { b with
        satchel := b.satchel.filter fun x => !p x
        commit := some ⟨kind, set, signature set kind b.ordinal atom, who, is, src, atom.map (·.aid)⟩
        ordinal := b.ordinal + 1 }

/-- An atomic's completion record (R351). -/
def doneRecord (a : PAtomic) (pa : Nat) (bytes : List Byte) : SEntry :=
  ⟨a.idx, [a.idx], a.pos, .done, a.va, pa, bytes, none, 32, 0, none, [], false, a.src⟩

/-- What a commit by some threads takes: completion records, their own entries, at a release those of them it covers (R133),
and what they see (R139, R351). -/
def Block.commitSet (b : Block) (is : List Nat) (release : Bool) (x : SEntry) : Bool :=
  x.kind == .done || (is.any fun i => x.issuers.contains i && (!release || x.covered i)) ||
    (release && x.pub.isSome && is.any fun i => b.sees i x)

end Sys2Proof.Machine
end

