-- ==== Sys2Proof/Machine/Queue.lean ====
section
/-! DEFINITION. The events that move stores, reductions and releases from store queues to their homes (R114 to R125,
R132), drop cached lines (R117), and let parked or waiting groups try their word again (R92, R137, R140). -/

namespace Sys2Proof.Machine

/-- A store queue and whose it is. -/
structure Qx where
  w : Who
  g : Grp
  bid : Nat
  core : Nat
  launch : Option Launch
  ctx : Option Ctx
  num : Nat
deriving DecidableEq, Repr

/-- The queue an agent's group owns; a group whose threads have all exited still has one (R181). -/
def State.stq? (s : State) (w : Who) : Option Qx :=
  match w with
  | .kern bid gid _ => do
    let b ← s.block? bid
    let l ← s.launch? b.lid
    let g ← b.groups.find? (·.gid == gid)
    some ⟨w, g, bid, b.core, some l, some l.ctx, b.num⟩
  | .hand tid gid _ => do
    let t ← s.trap? tid
    let b ← s.block? t.bid
    let l ← s.launch? b.lid
    let g ← t.groups.find? (·.gid == gid)
    some ⟨w, g, t.bid, b.core, some l, some l.ctx, b.num⟩
  | .cc c => do
    let k ← s.cc? c
    some ⟨w, k.grp, 0, Config.cores + c, none, k.ctx, 0⟩
  | .ccHand c => do
    let k ← s.cc? c
    let t ← k.trap
    let g ← t.groups.head?
    some ⟨w, g, 0, Config.cores + c, none, k.ctx, 0⟩

/-- A launch stages its writes. -/
def Qx.staged (x : Qx) : Bool := (x.launch.map Launch.staged).getD false

/-- A redundant launch's queue. -/
def Qx.redundant (x : Qx) : Bool := (x.launch.map Launch.redundant).getD false

/-- An element's write is staged (R136, R139). -/
def Qx.stages (x : Qx) (e : SqElem) : Bool := match x.launch with
  | some l => l.stages e.va.toNat
  | none => false

/-- Groups without threads or entries are gone. -/
def State.prune (s : State) (w : Who) : State :=
  let live (g : Grp) : Bool := !g.units.isEmpty || !g.stq.isEmpty
  match w with
  | .kern bid _ _ => s.onBlock bid fun b => { b with groups := b.groups.filter live }
  | .hand tid _ _ => { s with traps := mapIf (·.tid == tid) (fun t => { t with groups := t.groups.filter live }) s.traps }
  | _ => s

/-- The head entry of a queue becomes what is left of it. -/
def State.setHead (s : State) (w : Who) (q : Option SqEntry) : State :=
  (s.onGrp w fun g => { g with stq := (match q with
    | some q => [q]
    | none => []) ++ g.stq.drop 1 }).prune w

/-! ### Releases -/

/-- The waits of a release by an entry's threads (R120): their atomics and reductions are performed. Earlier entries have
left, as the queue is in order. -/
def State.releaseReady (s : State) (x : Qx) (q : SqEntry) : Bool :=
  q.elems.all fun e => !s.atomPending x.bid e.idx q.pos && !s.homeAny x.bid e.idx

/-- The further wait of a release at system scope (R120): the threads' writes over the fabric have been sent and are
acknowledged. -/
def State.acked (s : State) (x : Qx) (q : SqEntry) (scope : Scope) : Bool :=
  scope != .system || q.elems.all fun e => s.sysReady x.bid e.idx

/-- The release step (R120, R136): what the threads wrote before is published, and the points are flushed. -/
def State.releaseStep (s : State) (x : Qx) (q : SqEntry) (scope : Scope) : State :=
  let s := if x.staged then
    s.onBlock x.bid fun b => q.elems.foldl (fun (b : Block) e => b.publish e.idx) b else s
  s.flush x.core scope

/-- An entry is a release that writes. -/
def SqKind.releases : SqKind → Bool
  | .relStore => true
  | .red _ (some _) => true
  | _ => false

/-- The stamp of the release that a reader of a thread's write acquires (R136): a release's own, or for a store that of the
thread's last release fence. -/
def Block.stampFor (b : Block) (k : SqKind) (idx : Nat) : Nat :=
  if k.releases then b.stamp else if k = .store then look b.released idx 0 else 0

/-- The stamp that a queue's entry carries for a thread: none outside launches that stage their writes. -/
def State.stampOn (s : State) (x : Qx) (q : SqEntry) (idx : Nat) : Nat :=
  if x.staged then ((s.block? x.bid).map fun b => b.stampFor q.kind idx).getD 0 else 0

/-- Threads' writes have reached their place: who acquires from those bytes acquires the release they carry (R136). -/
def State.stamped (s : State) (x : Qx) (q : SqEntry) (es : List SqElem) : State :=
  if x.staged then
    s.onBlock x.bid fun b => es.foldl (fun (b : Block) e =>
      b.stampBytes (b.stampFor q.kind e.idx) e.loc (q.kind.width e)) b
  else s

/-! ### What a head entry does -/

/-- An element as it is staged, with the stamp it carries; the first element of an add-on-store's destination sector counts
for the sector (R349). -/
def stagedElem (q : SqEntry) (rel : Nat) (first : Bool) (e : SqElem) : SEntry :=
  let pa := match e.loc with
    | .pa a => a
    | _ => 0
  match q.kind with
  | .red op _ => ⟨e.idx, [e.idx], q.pos, .red op, e.va, pa, e.bytes, none, 32, rel, none, [], e.mig, q.src⟩
  | .addon k _ => ⟨e.idx, [e.idx], q.pos, .addon k, e.va, pa, e.bytes, none, if first then 48 else 0, rel, none, [], e.mig, q.src⟩
  | _ => ⟨e.idx, [e.idx], q.pos, .store, e.va, pa, e.bytes, none, 32, rel, none, [], e.mig, q.src⟩

/-- Two elements lie in one destination sector of one thread. -/
def sameSector (e : SqElem) (p : Option SqElem) : Bool := match p with
  | some p => p.idx == e.idx && p.va.toNat / 32 == e.va.toNat / 32
  | none => false

/-- Staged elements enter the satchel in turn; those from the first that does not fit on stay (R138, R350). -/
def State.stageElems (s : State) (x : Qx) (q : SqEntry) : Option SqElem → List SqElem → State × List SqElem
  | _, [] => (s, [])
  | prev, e :: r =>
    let rel := s.stampOn x q e.idx
    match s.stage x.bid (.queue x.w) [stagedElem q rel (!sameSector e prev) e] with
    | (s, true) => s.stageElems x q (some e) r
    | (s, false) => (s, e :: r)

/-- A thread's earlier atomics that its later store may not pass: acquiring ones, and those on the same bytes (log 35, DEDUCED). -/
def State.atomHolds (s : State) (x : Qx) (q : SqEntry) (e : SqElem) : Bool :=
  s.atoms.any fun a => a.bid == x.bid && a.idx == e.idx && decide (a.pos < q.pos) &&
    (a.order == .acquire || a.order == .acqRel || e.loc.meets (q.kind.width e) a.loc (laWidth a.op))

/-- A plain store leaves its queue (R114, R115, R125, R136). -/
def State.storeLeaves (s : State) (x : Qx) (q : SqEntry) : State :=
  if q.elems.any (s.atomHolds x q) then s
  else
    let plain := q.elems.filter fun e => !x.stages e
    let s := plain.foldl (fun (s : State) e => s.toCore x.bid x.core q.src e) s
    let s := s.stamped x q plain
    let (s, left) := s.stageElems x q none (q.elems.filter x.stages)
    s.setHead x.w (if left.isEmpty then none else some { q with elems := left })

/-- A release store is written at its home, or where its scratchpad or private window is, and its lines leave the load
caches (R120, device scope); in a redundant launch global bytes are written once, by the primary (R139). -/
def State.relWrite (s : State) (x : Qx) (q : SqEntry) (primary : Bool) : State :=
  let s := q.elems.foldl (fun (s : State) e =>
    match e.loc with
    | .pa a =>
      if primary then (s.arrive ⟨x.bid, e.idx, a, e.va, e.bytes, q.src, []⟩).dropLine (fun _ => true) a e.bytes.length else s
    | loc => s.localWrite x.bid loc e.bytes) s
  s.stamped x q q.elems

/-- A quiet reduction or add-on-store moves to its homes' request queue: what is already there of the same word joins
it (R114, R132). -/
def State.toHomeQueue (s : State) (x : Qx) (q : SqEntry) (es : List SqElem) : State :=
  let same (h : HomeReq) : Bool := h.bid == x.bid && h.entry.pos == q.pos && h.entry.kind == q.kind
  let join (h : HomeReq) : HomeReq := { h with entry := { h.entry with elems := h.entry.elems ++ es } }
  if es.isEmpty then s
  else if s.homeq.any same then { s with homeq := mapIf same join s.homeq }
  else
    let (n, s) := s.fresh
    { s with homeq := s.homeq ++ [⟨n, x.bid, x.core, { q with elems := es }⟩] }

/-- The parts of a block's add-on-store that are still to be performed. -/
def State.onParts (s : State) (bid pos : Nat) (f : SqEntry → SqEntry) : State :=
  let part (q : SqEntry) : Bool := q.pos == pos && (match q.kind with
    | .addon _ _ => true
    | _ => false)
  let grp (g : Grp) : Grp := { g with stq := mapIf part f g.stq }
  { s.onBlock bid fun b => { b with groups := b.groups.map grp } with
    traps := mapIf (fun (t : TrapCtx) => t.bid == bid) (fun t => { t with groups := t.groups.map grp }) s.traps
    homeq := mapIf (fun (h : HomeReq) => h.bid == bid && part h.entry) (fun h => { h with entry := f h.entry }) s.homeq }

/-- Elements of an add-on-store that are performed touch watchpoints of its context: kind 4, once for each, with the issuing word
and its members (R365). -/
def State.addonWatch (s : State) (bid : Nat) (q : SqEntry) (es : List SqElem) : State :=
  match s.block? bid with
  | none => s
  | some b =>
    match s.launch? b.lid with
    | none => s
    | some l =>
      if es.isEmpty || !s.primary b then s
      else
        let wps := (nth s.dbg l.ctx.part ⟨[], [], false, []⟩).wps
        let hits := ((upto 0 wps.length).zip wps).filterMap fun w =>
          if q.seen.contains w.1 then none
          else (w.2.bind fun w => es.find? fun x => w.hits l.ctx.desc 1 x.va.toNat 4).map fun x => (w.1, x.va)
        if hits.isEmpty then s
        else (hits.foldl (fun (s : State) (h : Nat × W64) =>
          (s.trigger l.ctx 2).report l.ctx (reportImage l b.num q.word.toNat h.2.toNat (nameOf q.src.lanes q.is) 4 0 0) none) s).onParts
            bid q.pos fun q => { q with seen := q.seen ++ hits.map (·.1) }

/-- A quiet reduction or add-on-store leaves its queue (R114, R136): once its threads' earlier stores to its bytes are
home, and, for a release, after R120's waits and flush (R122). -/
def State.reductionLeaves (s : State) (x : Qx) (q : SqEntry) : State :=
  let plain := q.elems.filter fun e => !x.stages e
  if plain.any (fun e => s.inFlight x.bid e.idx e.loc (q.kind.width e)) || q.elems.any (s.atomHolds x q) then s
  else
    -- who acquires from the bytes once it is performed acquires the release it carries (R136)
    let s := s.toHomeQueue x q (plain.map fun e => { e with rel := s.stampOn x q e.idx })
    let staged := q.elems.filter x.stages
    let (s, left) := s.stageElems x q none staged
    let s := s.setHead x.w (if left.isEmpty then none else some { q with elems := left })
    match q.kind with
    | .addon _ _ => s.addonWatch x.bid q (staged.take (staged.length - left.length))
    | _ => s

/-- A redundant launch's release of die scope or wider by a thread, the first of the entry, is a commit of its entries and
what it sees (R139) (log 39, DEDUCED). -/
def State.releaseCommit (s : State) (x : Qx) (q : SqEntry) : State :=
  match s.block? x.bid with
  | none => s
  | some b =>
    let is := (q.elems.take 1).map (·.idx)
    s.submit x.bid .release (b.commitSet is true) (some x.w) (b.groupOf is) q.src none

/-- A release entry commits first. -/
def Qx.commits (x : Qx) (scope : Scope) : Bool := x.redundant && scope != .block

/-- The indices of a unit's threads as queue entries name them. -/
def Qx.indices (x : Qx) (u : ISet) : List Nat := match x.w with
  | .cc c => [c]
  | .ccHand c => [c]
  | _ => x.g.indices u

/-- A thread's entry of the FENCE at which its unit waits has passed: the acquire part follows in the same step, and the
unit goes on once the entries of all its threads have passed (R121, R123) (log 38, DEDUCED) (log 46, DEDUCED). -/
def State.fencePass (s : State) (x : Qx) (q : SqEntry) (scope : Scope) : State :=
  let mine := x.g.units.filter fun u =>
    u.stat == .fence && u.pc == q.word && (x.indices u).any fun i => q.elems.any (·.idx == i)
  if mine.isEmpty then s
  else
    let s := s.acquire x.core scope
    let s := s.onBlock x.bid fun b => q.elems.foldl (fun (b : Block) e => b.fenceLearn e.idx) b
    let left (i : Nat) : Bool := (x.g.stq.drop 1).any fun p => p.pos == q.pos && p.elems.any (·.idx == i)
    let go := mine.filter fun u => !(x.indices u).any left
    s.onGrp x.w fun g => { g with units := mapIf (fun (u : ISet) => go.any (·.lanes == u.lanes)) (fun u =>
      { u.advance with stat := .ready }) g.units }

/-- What a target beyond the fabric does with a reduction's or add-on-store's operand. -/
def SqKind.farOp : SqKind → Option (Nat × W64)
  | .red op _ => some (op, 0)
  | .addon k _ => some (if k then 65 else 64, 0)
  | _ => none

/-- Who acquires from the bytes of an element acquires the release it carries, from its performance on (R136). -/
def State.carried (s : State) (bid : Nat) (kind : SqKind) (e : SqElem) : State :=
  if e.rel = 0 then s else s.onBlock bid fun b => b.stampBytes e.rel e.loc (kind.width e)

/-- An element of a reduction or add-on-store is performed at its home (R114, R117, R122, R132, R335). -/
def State.homePerform (s : State) (bid core : Nat) (src : Origin) (kind : SqKind) (e : SqElem) : State :=
  let s := s.carried bid kind e
  let n := kind.width e
  let new (old : Nat) : List Byte := leBytes n (match kind with
    | .red op _ => laNew op old (leNat e.bytes) 0
    | .addon k _ => addOn k old (BitVec.ofNat 40 (leNat e.bytes))
    | _ => old)
  match e.loc with
  | .pa a =>
    -- beyond the fabric the target applies the operand (log 20, DEDUCED)
    if isFabric a then s.send ⟨bid, e.idx, a, e.va, e.bytes, src, []⟩ kind.farOp
    else
      let s := (s.arrive ⟨bid, e.idx, a, e.va, new (s.homeNat a n), src, []⟩).dropLine (· == core) a n
      s.countBy bid core e.idx src e.va a e.mig
  | loc => s.localWrite bid loc (new (leNat (s.homeLoc bid loc n)))

/-- A release at the head of a queue is performed, its waits and, in a redundant launch, its commit behind it (R120,
R122, R123, R139). -/
def State.releaseHead (s : State) (x : Qx) (q : SqEntry) (primary : Bool) : State :=
  match q.kind with
  | .relStore =>
    let s := s.releaseStep x q .device
    if x.redundant then
      -- a thread at a time: each is a release of its own (R139)
      let left := q.elems.drop 1
      (s.relWrite x { q with elems := q.elems.take 1 } primary).setHead x.w
        (if left.isEmpty then none else some { q with elems := left })
    else
      let s := s.relWrite x { q with elems := q.elems.filter fun e => !x.stages e } true
      let (s, left) := s.stageElems x q none (q.elems.filter x.stages)
      s.setHead x.w (if left.isEmpty then none else some { q with elems := left })
  | .fence scope _ =>
    let s := s.releaseStep x q scope
    let s := if x.staged then s.onBlock x.bid fun b => q.elems.foldl (fun (b : Block) e => b.fenced e.idx) b else s
    (s.setHead x.w none).fencePass x q scope
  | .red _ (some scope) =>
    let s := s.releaseStep x q scope
    if x.commits scope then
      let es := q.elems.map fun e => { e with rel := s.stampOn x q e.idx }
      -- what the primary performs for its block counts as performed in every replica
      (es.foldl (fun (s : State) e =>
        if primary || !x.stages e then s.homePerform x.bid x.core q.src q.kind e else s.carried x.bid q.kind e) s).setHead x.w none
    else s.reductionLeaves x q
  | _ => s

/-- A release entry: it waits, then commits or is performed. At system scope, stores over the fabric that stand at a point
are sent first, and their acknowledgements awaited (R120). -/
def State.releaseLeaves (s : State) (x : Qx) (q : SqEntry) (scope : Scope) : State :=
  if !s.releaseReady x q then s
  else if !s.acked x q scope then s.flush x.core scope
  else if x.commits scope then s.releaseCommit x q
  else s.releaseHead x q true

/-- A part of an entry still stands in some queue of a block. -/
def State.stillQueued (s : State) (bid pos : Nat) : Bool :=
  let has (g : Grp) : Bool := g.stq.any (·.pos == pos)
  ((s.block? bid).map fun b => b.groups.any has).getD false ||
    s.traps.any fun t => t.bid == bid && t.groups.any has

/-- A TBARR's entry leaves: the release step, and, with its last part, the update (R124, R260). -/
def State.tbarrLeaves (s : State) (x : Qx) (q : SqEntry) (off darr : Nat) (dsec : Int) : State :=
  if !s.releaseReady x q then s
  else
    let s := (s.releaseStep x q .block).setHead x.w none
    if s.stillQueued x.bid q.pos then s
    else
      let s := if darr = 0 then s else s.onBlock x.bid fun b => b.tbNote off
      s.tbApply x.bid off darr dsec

/-- A BARA's entry leaves: the release, and its threads arrive (R124, R187). -/
def State.baraLeaves (s : State) (x : Qx) (q : SqEntry) (n : Nat) : State :=
  if !s.releaseReady x q then s
  else
    let s := (s.setHead x.w none).onBlock x.bid fun b => q.elems.foldl (fun (b : Block) e => b.arrive n e.idx) b
    s.barriers x.bid

/-- STORE_TO_CORE_POINT (R114, R120 to R125, R136): the oldest entry of a queue leaves it, if it may. -/
def execStoreToCorePoint (q : Who) (s : State) : Host.Outcome State Fault Refusal :=
  .next (match s.stq? q with
    | none => s
    | some x =>
      match x.g.stq with
      | [] => s
      | h :: _ =>
        match h.kind with
        | .store => s.storeLeaves x h
        | .relStore => s.releaseLeaves x h .device
        | .red _ none => s.reductionLeaves x h
        | .red _ (some scope) => s.releaseLeaves x h scope
        | .addon _ _ => s.reductionLeaves x h
        | .fence scope _ => s.releaseLeaves x h scope
        | .bara n => s.baraLeaves x h n
        | .tbarr off darr dsec => s.tbarrLeaves x h off darr dsec)

/-- STORE_TO_DIE_POINT (R115, R117): a store no earlier one of its bytes precedes. -/
def execStoreToDiePoint (core i : Nat) (s : State) : Host.Outcome State Fault Refusal :=
  .next (if blockedAt (s.core core).point i then s else s.coreToDie core i)

/-- STORE_TO_HOME (R115). -/
def execStoreToHome (die i : Nat) (s : State) : Host.Outcome State Fault Refusal :=
  .next (if blockedAt (s.die die).point i then s else s.dieToHome die i)

/-! ### Requests at homes -/

/-- Two elements of blocks act on a byte in common. -/
def sharesByte (b1 b2 : Nat) (k1 k2 : SqKind) (x y : SqElem) : Bool :=
  x.loc.meets (k1.width x) y.loc (k2.width y) && (b1 == b2 || (match x.loc with
    | .pa _ => true
    | _ => false))

/-- An earlier request at the home acts on some bytes first (R114) (log 36, DEDUCED). -/
def State.homeBlocked (s : State) (h : HomeReq) (es : List SqElem) : Bool :=
  (s.homeq.takeWhile fun k => k.hid != h.hid).any fun k => k.entry.elems.any fun y =>
    es.any fun x => sharesByte h.bid k.bid h.entry.kind k.entry.kind x y

/-- QUIET_REDUCTION_PERFORM (R114, R122, R223): element i of a request, earlier ones on its bytes being done. -/
def execQuietReductionPerform (hid i : Nat) (s : State) : Host.Outcome State Fault Refusal :=
  .next (match s.homeq.find? (·.hid == hid) with
    | none => s
    | some h =>
      match h.entry.kind, h.entry.elems[i]? with
      | .red _ _, some e =>
        let before := (h.entry.elems.take i).any fun y => sharesByte h.bid h.bid h.entry.kind h.entry.kind e y
        if s.homeBlocked h [e] || before then s
        else
          let s := s.homePerform h.bid h.core h.entry.src h.entry.kind e
          { s with homeq := s.homeq.filterMap fun k =>
              if k.hid = hid then
                match dropAt k.entry.elems i with
                | [] => none
                | es => some { k with entry := { k.entry with elems := es } }
              else some k }
      | _, _ => s)

/-- A matrix word on the tile of a drain, issued before it, has not completed (R132). -/
def State.matrixBefore (s : State) (h : HomeReq) (tile : Nat) : Bool :=
  match s.block? h.bid with
  | none => false
  | some b =>
    match s.launch? b.lid with
    | none => false
    | some l =>
      let part := partOfWindow l b.num ((h.entry.elems.map (·.idx)).headD 0 / 32)
      b.eng.any fun r => !r.fin && r.part == part && decide (r.pos < h.entry.pos) && (match r.kind with
        | .matrix m => m.tile == tile
        | _ => false)

/-- ADD_ON_STORE_PERFORM (R132, R250): the whole of a request, as one step. -/
def execAddOnStorePerform (hid : Nat) (s : State) : Host.Outcome State Fault Refusal :=
  .next (match s.homeq.find? (·.hid == hid) with
    | none => s
    | some h =>
      match h.entry.kind with
      | .addon _ tile =>
        if s.homeBlocked h h.entry.elems || s.stillQueued h.bid h.entry.pos || s.matrixBefore h tile then s
        else
          let s := h.entry.elems.foldl (fun (s : State) e => s.homePerform h.bid h.core h.entry.src h.entry.kind e) s
          { s with homeq := s.homeq.filter (·.hid != hid) }.addonWatch h.bid h.entry h.entry.elems
      | _ => s)

/-! ### Caches and waits -/

/-- LOAD_CACHE_DROP (R117): line i of a core's load cache or fetch-unit cache. -/
def execLoadCacheDrop (core i : Nat) (fetchUnit : Bool) (s : State) : Host.Outcome State Fault Refusal :=
  let c := s.core core
  .next (if fetchUnit then (if i < c.fcache.length then s.setCore { c with fcache := dropAt c.fcache i } else s)
    else if i < c.lcache.length then s.setCore { c with lcache := dropAt c.lcache i } else s)

/-- A group waiting for a reason tries its word again. -/
def State.retry (s : State) (w : Who) (st : Stat) : State :=
  s.onUnit w fun u => if u.stat = st then { u with stat := .ready } else u

/-- PARK_RESUME (R92): the group tries its access again; it parks again while a sector is absent. -/
def execParkResume (q : Who) (s : State) : Host.Outcome State Fault Refusal := .next (s.retry q .parked)

/-- SHARED_LOAD_READ (R137): a shared load tries again; it waits again while a lower block has not committed. -/
def execSharedLoadRead (q : Who) (s : State) : Host.Outcome State Fault Refusal := .next (s.retry q .sharedWait)

/-- FORWARDED_VALUE (R140): a replica's word tries again; it waits again while the primary's value has not come (log 87, DEDUCED). -/
def execForwardedValue (q : Who) (s : State) : Host.Outcome State Fault Refusal := .next (s.retry q .fwdWait)

end Sys2Proof.Machine
end

