-- ==== Sys2Proof/Machine/Atomics.lean ====
section
/-! DEFINITION. Atomics and quiet reductions (LA, R118, R122, R221 to R223, R138, R139) and the address wait WAITA
(R134, R224). -/

namespace Sys2Proof.Machine

/-- The order has a release part (R118). -/
def ordRel : Order → Bool
  | .release => true
  | .acqRel => true
  | _ => false

/-- The order has an acquire part (R118). -/
def ordAcq : Order → Bool
  | .acquire => true
  | .acqRel => true
  | _ => false

/-! ### Issue -/

/-- The atomics of a word, one per element, as they wait to be performed. -/
def State.issueAtoms (s : State) (e : Env) (op d : Nat) (scope : Scope) (order : Order) (b cmp : Nat → W64)
    (els : List Elem) : State :=
  els.foldl (fun (s : State) x =>
    let (n, s) := s.fresh
    { s with atoms := s.atoms ++ [⟨n, e.bid, e.idx x.pos, e.inTrap, s.tick, op, BitVec.ofNat 64 x.va, x.loc, b x.pos,
      cmp x.pos, d, scope, order, e.origin, x.mig⟩] }) s

/-- An atomic word (R221, R222): on a span it expands; each member's access waits to be performed at its home. -/
def State.atomic (s : State) (op : Nat) (d a b : RegN) (scope : Scope) (order : Order) :
    Host.Outcome State Fault Refusal :=
  let wide := laWidth op == 8
  let cas := op == 9 || op == 13
  let sh : Shape :=
    { dsts := regsOf wide d.toNat
      srcs := regsOf true a.toNat ++ regsOf wide b.toNat ++ (if cas then regsOf wide d.toNat else []), lat := none }
  s.runWord (fun _ => sh) fun s e =>
    let n := laWidth op
    if e.grp.span && !e.solo then .expand
    else match s.checks e ⟨n, n, true, .readWrite, 2⟩ e.members (e.val true a.toNat) with
      | .bad x => x
      | .ok s els =>
        if s.parks e els n then .hold s .parked
        else
          let v (r : RegN) (p : Nat) : W64 := BitVec.ofNat 64 (e.val wide r.toNat p)
          let e' := { e with grp := (regsOf wide d.toNat).foldl (fun (g : Grp) r => g.claim e.unit r) e.grp }
          (s.issueAtoms e op d.toNat scope order (v b) (if cas then v d else fun _ => 0) els).access e' e sh 2 2 n els

/-- A quiet-reduction word (R221, R223): its elements enter the store queue (R114). -/
def State.quiet (s : State) (op : Nat) (a b : RegN) (scope : Scope) (order : Order) :
    Host.Outcome State Fault Refusal :=
  let sh : Shape := { srcs := regsOf true a.toNat ++ [b.toNat], lat := none }
  s.runWord (fun _ => sh) fun s e =>
    if e.grp.span && !e.solo then .expand
    else match s.checks e ⟨4, 4, true, .readWrite, 3⟩ e.members (e.val true a.toNat) with
      | .bad x => x
      | .ok s els =>
        if s.parks e els 4 then .hold s .parked
        else
          let kind : SqKind := .red op (if ordRel order then some scope else none)
          let e' := e.queueStores s kind els (fun p => leBytes 4 (e.val false b.toNat p)) 0
          s.access e' e sh 2 3 4 els

/-- AADD (R222). -/
def execAadd (d a b : RegN) (scope : Scope) (order : Order) (s : State) : Host.Outcome State Fault Refusal :=
  s.atomic 0 d a b scope order

/-- AIMIN (R222). -/
def execAimin (d a b : RegN) (scope : Scope) (order : Order) (s : State) : Host.Outcome State Fault Refusal :=
  s.atomic 1 d a b scope order

/-- AIMAX (R222). -/
def execAimax (d a b : RegN) (scope : Scope) (order : Order) (s : State) : Host.Outcome State Fault Refusal :=
  s.atomic 2 d a b scope order

/-- ANMIN (R222). -/
def execAnmin (d a b : RegN) (scope : Scope) (order : Order) (s : State) : Host.Outcome State Fault Refusal :=
  s.atomic 3 d a b scope order

/-- ANMAX (R222). -/
def execAnmax (d a b : RegN) (scope : Scope) (order : Order) (s : State) : Host.Outcome State Fault Refusal :=
  s.atomic 4 d a b scope order

/-- AAND (R222). -/
def execAand (d a b : RegN) (scope : Scope) (order : Order) (s : State) : Host.Outcome State Fault Refusal :=
  s.atomic 5 d a b scope order

/-- AOR (R222). -/
def execAor (d a b : RegN) (scope : Scope) (order : Order) (s : State) : Host.Outcome State Fault Refusal :=
  s.atomic 6 d a b scope order

/-- AXOR (R222). -/
def execAxor (d a b : RegN) (scope : Scope) (order : Order) (s : State) : Host.Outcome State Fault Refusal :=
  s.atomic 7 d a b scope order

/-- AXCH (R222). -/
def execAxch (d a b : RegN) (scope : Scope) (order : Order) (s : State) : Host.Outcome State Fault Refusal :=
  s.atomic 8 d a b scope order

/-- ACAS (R222): it reads d as its comparand. -/
def execAcas (d a b : RegN) (scope : Scope) (order : Order) (s : State) : Host.Outcome State Fault Refusal :=
  s.atomic 9 d a b scope order

/-- AFADD (R222). -/
def execAfadd (d a b : RegN) (scope : Scope) (order : Order) (s : State) : Host.Outcome State Fault Refusal :=
  s.atomic 10 d a b scope order

/-- AADDW (R222). -/
def execAaddw (d a b : RegN) (scope : Scope) (order : Order) (s : State) : Host.Outcome State Fault Refusal :=
  s.atomic 11 d a b scope order

/-- AXCHW (R222). -/
def execAxchw (d a b : RegN) (scope : Scope) (order : Order) (s : State) : Host.Outcome State Fault Refusal :=
  s.atomic 12 d a b scope order

/-- ACASW (R222). -/
def execAcasw (d a b : RegN) (scope : Scope) (order : Order) (s : State) : Host.Outcome State Fault Refusal :=
  s.atomic 13 d a b scope order

/-- QADD (R223). -/
def execQadd (a b : RegN) (scope : Scope) (order : Order) (s : State) : Host.Outcome State Fault Refusal :=
  s.quiet 16 a b scope order

/-- QIMIN (R223). -/
def execQimin (a b : RegN) (scope : Scope) (order : Order) (s : State) : Host.Outcome State Fault Refusal :=
  s.quiet 17 a b scope order

/-- QIMAX (R223). -/
def execQimax (a b : RegN) (scope : Scope) (order : Order) (s : State) : Host.Outcome State Fault Refusal :=
  s.quiet 18 a b scope order

/-- QAND (R223). -/
def execQand (a b : RegN) (scope : Scope) (order : Order) (s : State) : Host.Outcome State Fault Refusal :=
  s.quiet 19 a b scope order

/-- QOR (R223). -/
def execQor (a b : RegN) (scope : Scope) (order : Order) (s : State) : Host.Outcome State Fault Refusal :=
  s.quiet 20 a b scope order

/-- QXOR (R223). -/
def execQxor (a b : RegN) (scope : Scope) (order : Order) (s : State) : Host.Outcome State Fault Refusal :=
  s.quiet 21 a b scope order

/-- QFADD (R223). -/
def execQfadd (a b : RegN) (scope : Scope) (order : Order) (s : State) : Host.Outcome State Fault Refusal :=
  s.quiet 22 a b scope order

/-- QBADD2 (R223). -/
def execQbadd2 (a b : RegN) (scope : Scope) (order : Order) (s : State) : Host.Outcome State Fault Refusal :=
  s.quiet 23 a b scope order

/-! ### Performing (R122) -/

/-- The groups whose queues may hold entries of a thread: its block's and its handlers', or its control core's. -/
def State.threadGrps (s : State) (bid idx : Nat) : List Grp :=
  if bid = 0 then
    match s.cc? idx with
    | some k => k.grp :: ((k.trap.map (·.groups)).getD [])
    | none => []
  else ((s.block? bid).map (·.groups)).getD [] ++ (s.traps.filter (·.bid == bid)).flatMap (·.groups)

/-- The core of an atomic's thread. -/
def State.atomCore (s : State) (a : PAtomic) : Nat :=
  if a.bid = 0 then Config.cores + a.idx else ((s.block? a.bid).map (·.core)).getD 0

/-- The launch of an atomic's thread. -/
def State.atomLaunch (s : State) (a : PAtomic) : Option Launch := (s.block? a.bid).bind fun b => s.launch? b.lid

/-- A fence: an entry that a later write follows (R123). -/
def SqKind.orders : SqKind → Bool
  | .fence _ _ => true
  | _ => false

/-- An atomic may be performed: its thread's earlier entries and atomics for the same bytes are, no store to them that the
thread has made or read waits at its core's points (R113, R122), the fences before it have passed, and R120's waits hold for a release. In a launch that stages
its writes every earlier entry has entered the satchel, so that every run and every replica commits the same (R138, R139;
log 22, DEDUCED). -/
def State.atomReady (s : State) (a : PAtomic) : Bool :=
  let n := laWidth a.op
  let core := s.atomCore a
  let gs := s.threadGrps a.bid a.idx
  let own (p : SqEntry → Bool) : Bool := gs.any fun g => g.waiting a.idx a.pos p
  let mine (x : PAtomic) : Bool := x.bid == a.bid && x.idx == a.idx && decide (x.pos < a.pos)
  let strict := ordRel a.order || (match a.loc with
    | .pa _ => ((s.atomLaunch a).map Launch.staged).getD false
    | _ => false)
  !own (fun q => q.on a.idx a.loc n || q.kind.orders) && !s.homeOn a.bid a.idx a.loc n
    && !s.heldOn core (coreDie core) a.bid a.idx a.loc n
    && !s.atoms.any (fun x => mine x && (ordAcq x.order || x.loc.meets (laWidth x.op) a.loc n))
    && !s.atoms.any (fun x => x.bid == a.bid && x.hand == a.hand && x.pos == a.pos && decide (x.aid < a.aid))
    && (!strict || (!own (fun _ => true) && !s.atoms.any mine && !s.homeAny a.bid a.idx))

/-- The cores whose load caches lose an atomic's line (R117, R120). -/
def PAtomic.drops (a : PAtomic) (core c : Nat) : Bool :=
  c == core || (ordRel a.order && (match a.scope with
    | .block => false
    | .die => coreDie c == coreDie core
    | _ => true))

/-- The release part of an atomic (R120, R122): what its thread wrote before is published, and the points are flushed. -/
def State.atomRel (s : State) (a : PAtomic) : State :=
  if ordRel a.order then
    (if ((s.atomLaunch a).map Launch.staged).getD false then s.onBlock a.bid fun b => b.publish a.idx else s).flush
      (s.atomCore a) a.scope
  else s

/-- An atomic leaves memory as it is: a comparison that failed. -/
def PAtomic.fails (a : PAtomic) (old : Nat) : Bool := (a.op == 9 || a.op == 13) && old != a.cmp.toNat

/-- The acquire part of an atomic (R121, R122), and what its thread and those that read its write learn (R136). -/
def State.atomAcq (s : State) (a : PAtomic) (old : Nat) : State :=
  let n := laWidth a.op
  let s := if ordAcq a.order then s.acquire (s.atomCore a) a.scope else s
  if ((s.atomLaunch a).map Launch.staged).getD false then
    s.onBlock a.bid fun b =>
      let b := b.noteRead a.idx a.loc n (ordAcq a.order)
      if a.fails old || !ordRel a.order then b else b.stampBytes b.stamp a.loc n
  else s

/-- The atomic at its home: the step of R122, giving the old value. -/
def State.atomDo (s : State) (a : PAtomic) : State × Nat :=
  let n := laWidth a.op
  let core := s.atomCore a
  let s := s.atomRel a
  let old := leNat (s.homeLoc a.bid a.loc n)
  let bytes := leBytes n (laNew a.op old a.b.toNat a.cmp.toNat)
  let s := match a.loc with
    | .pa x =>
      let s := if a.fails old then s else s.arrive ⟨a.bid, a.idx, x, a.va, bytes, a.src, []⟩
      (s.dropLine (a.drops core) x n).countBy a.bid core a.idx a.src a.va x a.mig
    | loc => if a.fails old then s else s.localWrite a.bid loc bytes
  (s.atomAcq a old, old)

/-- A result lands in a lane's register. -/
def Grp.land (g : Grp) (idx d : Nat) (wide : Bool) (v : W64) (solo : Bool) : Grp :=
  if solo then g.write (ISet.start 0) d (if wide then .form64 v 0 else .form (lo64 v) 0)
  else
    let m : W32 := BitVec.ofNat 32 (2 ^ (idx - g.lo))
    if g.span || idx < g.lo || g.lo + 32 ≤ idx || g.live &&& m == 0 then g
    else g.write { ISet.start 0 with lanes := m } d
      (if wide then .lanes64 (List.replicate 32 v) else .lanes (List.replicate 32 (lo64 v)))

/-- An atomic is complete: its old value lands in d (R60, R122), which stays released where a segment entered since has
released it (R37, R56). -/
def State.atomLand (s : State) (a : PAtomic) (old : Nat) : State :=
  let s := { s with atoms := s.atoms.filter (·.aid != a.aid) }
  let wide := laWidth a.op == 8
  let f (g : Grp) : Grp := (g.land a.idx a.d wide (BitVec.ofNat 64 old) (a.bid == 0)).relsOf g (regsOf wide a.d)
  if a.bid = 0 then
    s.onCc a.idx fun k =>
      if a.hand then { k with trap := k.trap.map fun t => { t with groups := t.groups.map f } } else { k with grp := f k.grp }
  else if a.hand then
    { s with traps := mapIf (fun (t : TrapCtx) => t.bid == a.bid) (fun t => { t with groups := t.groups.map f }) s.traps }
  else s.onBlock a.bid fun b => { b with groups := b.groups.map f }

/-- An atomic of a staged launch on global memory leaves a completion record (R351). -/
def State.atomDone (s : State) (a : PAtomic) (old : Nat) : State :=
  match a.loc with
  | .pa x => s.onBlock a.bid fun b => b.enter [doneRecord a x (leBytes (laWidth a.op) old)]
  | _ => s

/-- An atomic beyond the fabric asks its target, behind its release part, and completes with the answer, in the step of its
acquire part (R122, R376, log 20, DEDUCED). -/
def State.atomFabric (s : State) (a : PAtomic) (x : Nat) : State :=
  let n := laWidth a.op
  let mine (f : FabOp) : Bool := !f.write && f.bid == a.bid && f.idx == a.idx && f.pa == x && f.len == n
  match s.fabric.find? mine with
  | some f =>
    if f.answered then
      ({ s with fabric := s.fabric.filter fun g => g.fid != f.fid }.atomAcq a (leNat f.bytes)).atomLand a (leNat f.bytes)
    else s
  | none =>
    let (id, s) := (s.atomRel a).fresh
    { s with fabric := s.fabric ++ [⟨id, a.bid, a.idx, x, a.va, false, leBytes n a.b.toNat, n, false, some (a.op, a.cmp), a.src⟩] }

/-- A replica that is not the primary follows its atomic (R139, R140): what its thread published and acquired. -/
def State.atomEcho (s : State) (a : PAtomic) (old : Nat) : State := (s.atomRel a).atomAcq a old

/-- The request over the fabric that the primary of an atomic's block has made for it. -/
def State.farAsked (s : State) (b : Block) (a : PAtomic) : Option FabOp :=
  match a.loc, s.primaryOf b with
  | .pa x, some p =>
    if isFabric x then s.fabric.find? fun f =>
      !f.write && f.bid == p.bid && f.idx == a.idx && f.pa == x && f.len == laWidth a.op
    else none
  | _, _ => none

/-- An atomic's old value reaches every replica of its block: each completes its thread's oldest atomic. -/
def State.atomAll (s : State) (b : Block) (idx old : Nat) : State :=
  (s.blocks.filter fun x => x.lid == b.lid && x.num == b.num && x.st != .ended).foldl (fun (s : State) x =>
    match s.atoms.find? fun y => y.bid == x.bid && y.idx == idx with
    | some y => ((if s.primary x then s.atomAcq y old else s.atomEcho y old).atomDone y old).atomLand y old
    | none => s) s

/-- A failure that reaches a control core behind its words: a translation trap (R376; log 65, DEDUCED). -/
def State.ccFail (s : State) (c : Nat) (va : W64) : State :=
  let w : Who := match (s.cc? c).bind (·.trap) with
    | some _ => .ccHand c
    | none => .cc c
  match s.env? w with
  | some e => s.trapWord e 17 va 1
  | none => s

/-- The check of what an atomic reads fails at its home (R110, R111). -/
def State.atomLost (s : State) (a : PAtomic) : State :=
  if a.bid = 0 then { s with atoms := s.atoms.filter (·.aid != a.aid) }.ccFail a.idx a.va
  else match s.block? a.bid, s.atomLaunch a with
    | some b, some _ =>
      let die := coreDie b.core
      s.storageEnd b ⟨b.num, a.src.seg.toNat, a.word.toNat, a.va.toNat, nameOf a.src.lanes [a.idx], 0, 9, 2, die⟩
    | _, _ => s

/-- An atomic's place, if it lies beyond the fabric. -/
def PAtomic.far (a : PAtomic) : Option Nat := match a.loc with
  | .pa x => if isFabric x then some x else none
  | _ => none

/-- An atomic is done: over the fabric, or at its home. -/
def State.atomPlain (s : State) (a : PAtomic) : State :=
  match a.far with
  | some x => s.atomFabric a x
  | none =>
    let (s, old) := s.atomDo a
    s.atomLand a old

/-- The step of an atomic on memory whose writes its launch stages: on a shared line of a deterministic launch the block is
the oldest and the thread's entries commit first (R138); on global memory of a redundant launch it waits to be compared
(R139). Neither happens while an entry that did not fit waits (R350). -/
def State.atomStaged (s : State) (a : PAtomic) (b : Block) (l : Launch) : State :=
  match s.farAsked b a with
  | some f =>
    -- the replicas' records enter their satchels together, so none may be stalled or waiting to be compared (R350)
    let busy (x : Block) : Bool := x.lid == b.lid && x.num == b.num && x.st != .ended && (x.full.isSome || x.commit.isSome || s.ending x)
    if !f.answered || s.blocks.any busy then s
    else { s with fabric := s.fabric.filter fun g => g.fid != f.fid }.atomAll b a.idx (leNat f.bytes)
  | none =>
    if b.full.isSome || s.ending b then s
    else if l.redundant then s.submit a.bid .atomic (b.commitSet [a.idx] false) none (b.groupOf [a.idx]) a.src (some a)
    else if !l.oldest b.num then s
    else
      let s := s.detCommit a.bid .atomic (b.commitSet [a.idx] false) (some a)
      match a.far with
      | some x => s.atomFabric a x
      | none =>
        let (s, old) := s.atomDo a
        (s.atomDone a old).atomLand a old

/-- ATOMIC_PERFORM (R122): an atomic that may be performed is, once R120's acknowledgements for a release at system scope
have come. -/
def execAtomicPerform (aid : Nat) (s : State) : Host.Outcome State Fault Refusal :=
  .next (match s.atoms.find? (·.aid == aid) with
    | none => s
    | some a =>
      if !s.atomReady a then s
      else if ordRel a.order && a.scope == .system && !s.sysReady a.bid a.idx then s.flush (s.atomCore a) .system
      else if a.far.isNone && s.homeBad a.bid a.loc (laWidth a.op) then s.atomLost a
      else match s.block? a.bid, s.atomLaunch a with
        | some b, some l => if l.stages a.va.toNat then s.atomStaged a b l else s.atomPlain a
        | _, _ => s.atomPlain a)

/-! ### WAITA (R134, R224) -/

/-- The shape of a WAITA. -/
def waitaShape (d a b : Nat) : Shape := { dsts := [d], srcs := regsOf true a ++ [b], lat := none }

/-- The elements a WAITA has still to read. -/
def waitaElems (ms : List WaitM) : List Elem := (ms.filter fun m => !m.fin).map fun m => ⟨m.lane, m.va.toNat, m.loc, false⟩

/-- A WAITA reads as a load of its order and scope: members that differ from their condition are done. -/
def State.waitaRead (s : State) (e : Env) (acq : Bool) (scope : Scope) (cmp : List W32) (ms : List WaitM) :
    State × List WaitM :=
  let skip := acq && scope != .block
  let els := waitaElems ms
  let (s, l) := s.readAll e 4 skip els
  let s := if acq then s.acquire e.core scope else s
  let s := s.noteReads e 4 acq els
  (s, ms.map fun m =>
    if m.fin then m
    else
      let v := lo64 (look l m.lane (0, 0)).1
      { m with last := v, fin := v != nth cmp m.lane 0 })

/-- The values a primary's word has just forwarded carry the latest release that its threads have acquired, or read (R136). -/
def State.labelForward (s : State) (e : Env) (acq : Bool) : State :=
  if (e.launch.map Launch.redundant).getD false then
    s.onBlock e.bid fun b => e.members.foldl (fun (b : Block) p =>
      b.labelled (e.idx p) (b.relOf (look (if acq then b.acquired else b.readStamp) (e.idx p) 0))) b
  else s

/-- The values a completing WAITA writes: in a redundant launch the primary's (R140), `echo` being what follows the forwarding in
the primary, and a replica's own part of the read in another. -/
def State.waitaDone (s : State) (e : Env) (sh : Shape) (d : RegN) (ms : List WaitM) (echo : State → State := id) : Eff :=
  let v (p : Nat) : W64 := ((ms.find? (·.lane == p)).map fun m => BitVec.ofNat 64 m.last.toNat).getD 0
  match s.forwarding e e.members (fun _ s => (s, fun p => (v p, 0))) with
  | none => .hold s .fwdWait
  | some (s, f) =>
    (echo s).access (e.write d.toNat (lanesRes false fun p => ((f p).1.toNat : Int))) e sh 0 4 4
      (ms.map fun m => ⟨m.lane, m.va.toNat, m.loc, false⟩)

/-- WAITA (R134, R224): it completes when every member's value differs from b; otherwise the group sleeps. -/
def execWaita (d a b : RegN) (scope : Scope) (order : Order) (s : State) : Host.Outcome State Fault Refusal :=
  let sh := waitaShape d.toNat a.toNat b.toNat
  s.runWord (fun _ => sh) fun s e =>
    if e.grp.span && !e.solo then .expand
    else match s.checks e ⟨4, 4, false, .read, 4⟩ e.members (e.val true a.toNat) with
      | .bad x => x
      | .ok s els =>
        let l := e.launch
        let shared := els.any e.sharedAt && !(l.map Launch.redundant).getD false
        let replica := (l.map Launch.redundant).getD false && !((s.block? e.bid).map s.primary).getD true
        if s.parks e els 4 then .hold s .parked
        else if replica then
          s.waitaDone e sh d [] fun s =>
            (if ordAcq order then s.acquire e.core scope else s).noteReads e 4 (ordAcq order) els e.members
        else if els.any (fun x => s.loadWaits e x 4) then .wait
        else if shared && !((l.map fun l => l.oldest e.num).getD true) then .hold s .sharedWait
        else
          let (s, asked) := s.askFabric e 4 els
          if asked then .hold s .fabricWait
          else s.sound e 4 4 (ordAcq order && scope != .block) els <|
            let cmp : List W32 := (upto 0 32).map fun p => BitVec.ofNat 32 (e.val false b.toNat p)
            let (s, ms) := s.waitaRead e (ordAcq order) scope cmp
              (els.map fun x => ⟨e.idx x.pos, x.pos, BitVec.ofNat 64 x.va, x.loc, 0, false⟩)
            let s := s.takeFabric e els
            if ms.all (·.fin) || shared then s.waitaDone e sh d ms (·.labelForward e (ordAcq order)) else .hold s (.waita d cmp ms)

/-- The operand fields of the LA word a unit stands at: scope and order. -/
def waitaMode (u : ISet) : Scope × Bool :=
  match decodeNat u.word with
  | .ok (.waita _ _ _ scope order) => (scope, ordAcq order)
  | _ => (.device, false)

/-- A WAITA completes behind its sleep. -/
def State.waitaEnd (s : State) (w : Who) (e : Env) (d : RegN) (ms : List WaitM) : State :=
  let s := s.onUnit w fun u => { u with stat := .ready }
  let u := { e.unit with stat := .ready }
  let e := { e with grp := e.grp.setUnit u, unit := u }
  let sh : Shape := { dsts := [d.toNat], lat := none }
  match s.waitaDone e sh d ms (·.labelForward e (waitaMode u).2) with
  | .done t e' => t.finish e' e.grp sh
  | .moved t => t
  | _ => s

/-- A sleeping WAITA reads again; it completes when every member is done, or at once if the device ends it (R134). Beyond
the fabric each read is asked for anew (R376). -/
def State.waitaAgain (s : State) (w : Who) (force : Bool) : State :=
  match s.env? w with
  | none => s
  | some e =>
    match e.unit.stat with
    | .waita d cmp ms =>
      let (scope, acq) := waitaMode e.unit
      let els := waitaElems ms
      let (s', asked) := s.askFabric e 4 els
      if asked then (if force then s.waitaEnd w e d ms else s')
      else match s'.sound e 4 4 (acq && scope != .block) els .wait with
        | .fault t k l c va ps => t.dataFault e k l c va ps
        | _ =>
          let (s, ms) := s'.waitaRead e acq scope cmp ms
          let s := s.takeFabric e els
          if ms.all (·.fin) || force then s.waitaEnd w e d ms
          else s.onUnit w fun u => { u with stat := .waita d cmp ms }
    | _ => s

/-- WAITA_WAKE (R134): a write has woken the group, or one that only aliases it (log 72, DEDUCED). -/
def execWaitaWake (q : Who) (s : State) : Host.Outcome State Fault Refusal := .next (s.waitaAgain q false)

/-- WAITA_END (R134): the device ends the wait with the values read at that moment. -/
def execWaitaEnd (q : Who) (s : State) : Host.Outcome State Fault Refusal := .next (s.waitaAgain q true)

end Sys2Proof.Machine
end

