-- ==== Sys2Proof/Machine/Records.lean ====
section
/-! DEFINITION. The records engines read (R99 to R105, R255), element formats packed in rows (R63, R74, R243), and the
rows of a handle's box. -/

namespace Sys2Proof.Machine

/-! ### Packed rows -/

/-- A block length flag (R99, R101, R241). -/
def blkLen (flag : Bool) : Nat := if flag then 32 else 16

/-- How a row is packed: its format, and for plane integers the block length and planes held per block. -/
structure Pack where
  fmt : EFmt
  len : Nat
  planes : Nat
deriving DecidableEq, Repr

/-- Plane integers. -/
def Pack.plane (p : Pack) : Bool := p.fmt == .plane

/-- Bytes of n elements (R63, R74). -/
def Pack.bytes (p : Pack) (n : Nat) : Nat :=
  if p.plane then cdiv n p.len * (p.planes * p.len / 8) else cdiv (n * p.fmt.bitsOf) 8

/-- Element e of a row at an offset of bytes, as its code; for plane integers as the 8-bit pattern whose lower planes
read 0 (R63, R74). -/
def Pack.code (p : Pack) (rd : Nat → Nat) (off e : Nat) : Nat :=
  if p.plane then
    let base := off + e / p.len * (p.planes * p.len / 8)
    let i := e % p.len
    (upto 0 p.planes).foldl (fun q j => q + bits (rd (base + j * p.len / 8 + i / 8)) (i % 8) (i % 8) * 2 ^ (7 - j)) 0
  else
    let w := p.fmt.bitsOf
    let b := e * w
    let n := (b % 8 + w + 7) / 8
    let x := (upto 0 n).foldr (fun k x => rd (off + b / 8 + k) + 256 * x) 0
    x / 2 ^ (b % 8) % 2 ^ w

/-- The format of a record's FMT, BLEN and PLANES fields; none if FMT is reserved (R98). -/
def packOf (fmt : Nat) (blen : Bool) (planes : Nat) : Option Pack :=
  (EFmt.ofCode fmt).map fun f => ⟨f, blkLen blen, if f = .plane then planes else 0⟩

/-! ### Tile handles (R101, R102) -/

/-- A tile handle's entry; lists run from dimension 0 up, dimension 0 with stride 0. -/
structure Handle where
  bmap : Nat
  peer : Bool
  dims : Nat
  comp : Bool
  pack : Pack
  fmtCode : Nat
  box : List Nat
  stride : List Nat
  ext : List Nat
  base : Nat
deriving DecidableEq, Repr

/-- The entry as read, if it is well formed by itself (R101, R102). -/
def handleOf (x : Nat) : Option Handle :=
  let fmt := bits x 427 424
  let dims := bits x 436 434
  let planes := bits x 431 428
  let comp := bit x 433
  let box := (upto 0 5).map fun n => bits x (391 + 8 * n) (384 + 8 * n)
  let stride := 0 :: (upto 0 4).map fun n => bits x (263 + 40 * n) (224 + 40 * n)
  let ext := (upto 0 5).map fun n => bits x (95 + 32 * n) (64 + 32 * n)
  let base := bits x 63 0
  let len := blkLen (bit x 432)
  match packOf fmt (bit x 432) planes with
  | none => none
  | some p =>
    let unused := (upto 0 5).filter fun n => decide (dims ≤ n)
    let ok := decide (1 ≤ dims) && decide (dims ≤ 5) && bits x 447 438 == 0 && base % 16 == 0 &&
      stride.all (fun s => s % 16 == 0) && !(comp && (p.plane || decide (p.fmt.bitsOf < 8))) &&
      (comp || bits x 511 448 == 0) &&
      (if p.plane then decide (2 ≤ planes) && decide (planes ≤ 8) && nth ext 0 0 % len == 0 && nth box 0 0 % len == 0
        else planes == 0) &&
      unused.all fun n => nth box n 0 == 1 && nth stride n 0 == 0 && nth ext n 0 == 0
    if ok then some ⟨bits x 511 448, bit x 437, dims, comp, p, fmt, box, stride, ext, base⟩ else none

/-- Box extent of a dimension. -/
def Handle.boxAt (h : Handle) (n : Nat) : Nat := nth h.box n 1

/-- The box has zero extent (R103). -/
def Handle.empty (h : Handle) : Bool := h.box.any (· == 0)

/-- Coordinates of a binding or copy record, from dimension 0 up (R99, R255). -/
def coordsOf (x : Nat) : List Nat := [bits x 159 128, bits x 183 160, bits x 207 184, bits x 231 208, bits x 255 232]

/-- The coordinates of a box's rows, in the order of q (R255). -/
def Handle.rows (h : Handle) (c : List Nat) : List (List Nat) :=
  if h.empty then []
  else
    let ax (n : Nat) : List Nat := (upto 0 (h.boxAt n)).map fun r => nth c n 0 + r
    (ax 4).flatMap fun c4 => (ax 3).flatMap fun c3 => (ax 2).flatMap fun c2 => (ax 1).map fun c1 =>
      [nth c 0 0, c1, c2, c3, c4]

/-- Elements of a row of the box inside the tensor's extent (R103) (log 14, DEDUCED). -/
def Handle.inside (h : Handle) (c : List Nat) : Nat :=
  if (upto 1 (h.dims - 1)).any fun n => decide (nth h.ext n 0 ≤ nth c n 0) then 0
  else min (h.boxAt 0) (nth h.ext 0 0 - nth c 0 0)

/-- The byte address of element (0, c1, ..) of a row: virtual, or a scratchpad offset of a peer (R105). -/
def Handle.rowBase (h : Handle) (c : List Nat) : Nat :=
  (upto 1 4).foldl (fun a n => a + nth c n 0 * nth h.stride n 0) (if h.peer then h.base % 2 ^ 24 else h.base)

/-- The byte address of a row's first element. -/
def Handle.rowAddr (h : Handle) (c : List Nat) : Nat := h.rowBase c + h.pack.bytes (nth c 0 0)

/-- The row number of a compressed tensor (R104). -/
def Handle.rowNum (h : Handle) (c : List Nat) : Nat :=
  nth c 1 0 + nth h.ext 1 0 * (nth c 2 0 + nth h.ext 2 0 * (nth c 3 0 + nth h.ext 3 0 * nth c 4 0))

/-- The address of a row's bitmap (R104). -/
def Handle.rowMap (h : Handle) (c : List Nat) : Nat := h.bmap + h.rowNum c * 64 * cdiv (nth h.ext 0 0) 512

/-- Bytes per element of a compressed tensor. -/
def Handle.esz (h : Handle) : Nat := h.pack.fmt.bitsOf / 8

/-! ### Reservation records (R99, R100, R243) -/

/-- A reservation record's fields. -/
structure RRec where
  coords : List Nat
  handle : Nat
  bound : Bool
  scaleOff : Nat
  keyTile : Nat
  scaled : Bool
  len : Nat
  mid : Bool
  planes : Nat
  fmtCode : Nat
  units : Nat
  base : Nat
deriving DecidableEq, Repr

/-- The fields of a record (R99). -/
def rrecOf (r : BitVec 256) : RRec :=
  let x := r.toNat
  ⟨coordsOf x, bits x 127 112, bit x 111, bits x 95 64, bits x 53 48, bit x 42, blkLen (bit x 41), bit x 40,
    bits x 39 36, bits x 35 32, bits x 25 16 + 1, bits x 9 0⟩

/-- How B's columns are packed; an unknown format never stands in a live reservation. -/
def RRec.pack (r : RRec) : Pack :=
  (packOf r.fmtCode (r.len == 32) r.planes).getD ⟨.i8, 16, 0⟩

/-- Bytes per column CB. -/
def RRec.cb (r : RRec) : Nat := 2 * r.units

/-- Whole elements per column Kr (R243). -/
def RRec.kr (r : RRec) : Nat :=
  let p := r.pack
  if p.plane then (if p.planes = 0 then 0 else r.cb / (p.planes * p.len / 8) * p.len)
  else if p.fmt = .fp .mf6 then r.cb / 3 * 4 else r.cb * 8 / p.fmt.bitsOf

/-- First byte of the range in the block's grant. -/
def RRec.start (r : RRec) : Nat := 64 * r.base

/-- Formats a matrix word accepts (R242). -/
def matFmt (code : Nat) : Bool := match EFmt.ofCode code with
  | some f => f.matFloat || f.matInt
  | none => false

/-- A record by itself is well formed for a grant of `obuf` units beside the live reservations (R100). -/
def resvOk (x : BitVec 256) (obuf : Nat) (live : List RRec) : Bool :=
  let n := x.toNat
  let r := rrecOf x
  decide (r.base + r.units ≤ obuf) &&
    !live.any (fun y => decide (y.base < r.base + r.units) && decide (r.base < y.base + y.units)) &&
    bits n 110 96 == 0 && bits n 63 54 == 0 && bits n 47 43 == 0 && bits n 31 26 == 0 && bits n 15 10 == 0 &&
    matFmt r.fmtCode &&
    (if r.fmtCode = 9 then decide (2 ≤ r.planes) && decide (r.planes ≤ 8) else r.planes == 0 && !r.mid)

/-- The image with the binding fields of another (R254). -/
def rebind (old new : BitVec 256) : BitVec 256 :=
  BitVec.ofNat 256 (new.toNat / 2 ^ 111 * 2 ^ 111 + old.toNat % 2 ^ 111)

/-- A handle may fill a reservation of a record (R252). -/
def bindOk (h : Handle) (r : RRec) : Bool :=
  h.fmtCode == r.fmtCode && (r.fmtCode != 9 || decide (r.planes ≤ h.pack.planes)) && decide (h.boxAt 0 ≤ r.kr) &&
    decide (h.boxAt 1 ≤ 32) && h.boxAt 2 == 1 && h.boxAt 3 == 1 && h.boxAt 4 == 1

/-! ### Copy descriptors (R255) -/

/-- A copy descriptor's fields. -/
structure CDesc where
  coords : List Nat
  handle : Nat
  resv : Nat
  toob : Bool
  dplanes : Nat
  reserved : Nat
  pitch : Nat
  tbar : Nat
  spad : Nat
deriving DecidableEq, Repr

/-- The fields of a descriptor. -/
def cdescOf (x : Nat) : CDesc :=
  ⟨coordsOf x, bits x 127 112, bits x 111 108, bit x 107, bits x 106 103, bits x 102 96, bits x 95 64, bits x 63 32,
    bits x 31 0⟩

/-- The barrier a descriptor names. -/
def CDesc.bar (d : CDesc) : Option Nat := if d.tbar = 0xFFFFFFFF then none else some d.tbar

/-- How the scratchpad rows of a copy are packed: a handle's format, with DPLANES planes (R255). -/
def CDesc.pack (d : CDesc) (h : Handle) : Pack :=
  if h.pack.plane ∧ d.dplanes ≠ 0 then { h.pack with planes := d.dplanes } else h.pack

end Sys2Proof.Machine
end

