-- ==== Sys2Proof/Machine/Engine.lean ====
section
/-! DEFINITION. What the engines share (R112, R128, R133, R240): requests, the bytes they read and write, faults of their
translations, records read as a load of the issuing thread (R252, R255), and the events that read a copy's sources and
perform its sectors. -/

namespace Sys2Proof.Machine

/-! ### Requests -/

/-- The lowest index a request counts as issued by. -/
def EReq.lead (r : EReq) : Nat := least 0 r.issuers

/-- The sectors a request moves. -/
def EKind.secs : EKind → List CSec
  | .copy _ _ _ _ l => l
  | .fill _ l => l
  | .drain _ _ l => l
  | _ => []

/-- The request with other sectors. -/
def EKind.withSecs (k : EKind) (l : List CSec) : EKind := match k with
  | .copy t p f o _ => .copy t p f o l
  | .fill o _ => .fill o l
  | .drain t i _ => .drain t i l
  | k => k

/-- Replace a request of a block. -/
def State.setReq (s : State) (bid : Nat) (r : EReq) : State :=
  s.onBlock bid fun b => { b with eng := mapIf (fun (x : EReq) => x.rid == r.rid) (fun _ => r) b.eng }

/-- A request is done with. -/
def State.dropReq (s : State) (bid rid : Nat) : State :=
  s.onBlock bid fun b => { b with eng := b.eng.filter fun (x : EReq) => x.rid != rid }

/-- The acting threads issue a request (R130, R238) (log 48, DEDUCED). -/
def State.engIssue (s : State) (e : Env) (kind : EKind) (ins outs : List (Nat × Nat)) (undef : Bool) : State :=
  let (n, s) := s.fresh
  let is := e.members.map e.idx
  let lead := least 0 is
  let count := match kind with
    | .copy _ _ _ _ _ => true
    | .fill _ _ => true
    | _ => false
  s.onBlock e.bid fun b =>
    let ord := look b.copies lead 0
    let r : EReq := ⟨n, e.part, is, !e.grp.span, e.unit.pc, e.unit.seg, s.tick, ord, kind, ins, outs, undef, none, [], false⟩
    { b with eng := b.eng ++ [r], copies := if count then put b.copies lead (ord + 1) else b.copies }

/-- A request with its block and launch, where it may work: not done, not waiting on a fault, its block in residence, or
saved with its copies and drains completing (R321). -/
structure Eng where
  b : Block
  l : Launch
  r : EReq
deriving DecidableEq, Repr

/-- A fence of kind engine stands between a request and its issuers' earlier stores (R123, R128). -/
def Block.engHeld (b : Block) (hs : List TrapCtx) (r : EReq) : Bool :=
  let stands (g : Grp) : Bool := g.stq.any fun q => decide (q.pos < r.pos) && (match q.kind with
    | .fence _ true => true
    | _ => false) && q.elems.any fun x => r.issuers.contains x.idx
  b.groups.any stands || hs.any fun t => t.bid == b.bid && t.groups.any stands

/-- The request that an event names, if it may work. -/
def State.eng? (s : State) (bid rid : Nat) : Option Eng := do
  let b ← s.block? bid
  let l ← s.launch? b.lid
  let r ← b.eng.find? (·.rid == rid)
  let still := match r.kind with
    | .copy _ _ _ _ _ => b.st != .ended
    | .drain _ _ _ => b.st != .ended
    | _ => b.st == .running
  if still && !r.fin && r.fault.isNone && !b.engHeld s.traps r then some ⟨b, l, r⟩ else none

/-- The thread whose place in merge order a request's staged writes take (R136). -/
def Eng.tag (x : Eng) : Nat := match x.r.kind with
  | .drain _ i _ => i
  | _ => x.r.lead

/-- The die of a request's core. -/
def Eng.die (x : Eng) : Nat := coreDie x.b.core

/-! ### Faults of an engine's translation (R240, R331 to R333) -/

/-- Whose access a request makes. -/
def EReq.origin (r : EReq) : Origin := ⟨r.word, r.seg, r.lanesForm, none⟩

/-- The issuing members as a record names them. -/
def EReq.named (r : EReq) : Named :=
  let i := r.lead
  if r.lanesForm then ⟨i, (maskOf (r.issuers.map (· % 32))).toNat, r.issuers.length⟩
  else ⟨i, 0, r.issuers.length⟩

/-- A request waits on a failed translation behind its record; outside the partition its block ends (R342), and on data
whose check fails, as on a storage error (R110, R111). -/
def State.engFault (s : State) (x : Eng) (acc va kind level : Nat) : State :=
  let r : Rec := ⟨x.b.num, x.r.seg.toNat, x.r.word.toNat, va, x.r.named, level, kind, acc, x.die⟩
  if kind = 9 then s.storageEnd x.b r
  else if kind = 4 then s.endFault x.b r
  else
    let s := s.setReq x.b.bid { x.r with fault := some kind }
    (s.record x.l r none).1

/-- What an engine's translation of some pages gives: each page's physical address, the first failure, or that something on the
way has not passed its self-test (R382). -/
inductive Pages where
  | ok (l : List (Nat × Nat))
  | bad (va kind level : Nat)
  | later
deriving DecidableEq, Repr

/-- Translate pages of 4 KiB for an engine on a die, and check each address in them; the on-chip map is refused to it (R108)
(log 49, DEDUCED). -/
def State.engPages (s : State) (c : Ctx) (die : Nat) (need : Need) : List (Nat × List Nat) → State × Pages
  | [] => (s, .ok [])
  | (p, vas) :: r =>
    let va := vas.headD 0
    if !s.walkable die c.part c.ptroot va then (s, .later)
    else match s.translate c va need with
    | (s, .fault k l) => (s, .bad va k l)
    | (s, .leaf _ pa lev) =>
      let base := pa - va % 4096
      if winOf pa = .onChip then (s, .bad va 3 lev)
      else if !s.usable die pa then (s, .later)
      else match vas.find? fun v => !s.paOk c.part (base + v % 4096) with
        | some v => (s, .bad v 4 lev)
        | none => match s.engPages c die need r with
          | (s, .ok m) => (s, .ok ((p, base) :: m))
          | x => x

/-- An address that the scratchpad window holds needs no translation. -/
def inSpad (va : Nat) : Bool := match vwin va with
  | .spad _ => true
  | _ => false

/-- The pages some addresses lie in, each with those that do. -/
def pagesOf (vas : List Nat) : List (Nat × List Nat) :=
  (dedup (vas.map (· / 4096))).map fun p => (p, vas.filter fun v => v / 4096 == p)

/-- The physical address of a virtual one by translated pages. -/
def paIn (m : List (Nat × Nat)) (va : Nat) : Nat := look m (va / 4096) 0 + va % 4096

/-! ### Sources -/

/-- An engine request's name in fabric accesses. -/
def engIdx (rid : Nat) : Nat := 2 ^ 41 + rid

/-- Global bytes a source needs before any other: its own, or bytes of a bitmap (R104). -/
def CSrc.first : CSrc → List Nat
  | .byte (.glob va) _ => [va.toNat]
  | .cross (.glob va) sh m => va.toNat :: (if 2 ^ (8 - sh) ≤ m.toNat then [va.toNat + 1] else [])
  | .expand _ bmap _ e _ _ => upto bmap.toNat (e / 8 + 1)
  | .ranked _ bmap _ _ _ c0 _ _ => upto bmap.toNat (cdiv c0 8)
  | _ => []

/-- The bitmap-compressed row a source belongs to: such a row is read as a whole. -/
def CSrc.row : CSrc → Option Nat
  | .expand q _ _ _ _ _ => some q
  | .bmapOf q _ _ _ _ _ => some q
  | .ranked q _ _ _ _ _ _ _ => some q
  | _ => none

/-- Bits below e that are set in a bitmap read by address. -/
def rankIn (rd : Nat → Nat) (bmap e : Nat) : Nat :=
  (upto 0 (e / 8)).foldl (fun n k => n + popc 8 (rd (bmap + k))) 0 + popc 8 (rd (bmap + e / 8) % 2 ^ (e % 8))

/-- The global byte of an element's value in a compressed row, if its bit is set. -/
def CSrc.second (rd : Nat → Nat) : CSrc → List Nat
  | .expand _ bmap dense e esz b =>
    if bit (rd (bmap.toNat + e / 8)) (e % 8) then [dense.toNat + rankIn rd bmap.toNat e * esz + b] else []
  | _ => []

/-- The addresses whose lines decide whether a source is shared (R258). -/
def CSrc.keys : CSrc → List Nat
  | .expand _ bmap dense e esz _ => [bmap.toNat, dense.toNat + e * esz]
  | x => x.first

/-- A source lies on a shared line of a staged launch. -/
def CSrc.sharedIn (l : Launch) (x : CSrc) : Bool := x.keys.any l.sharedAt

/-- An element of a scratchpad row counts as zero (R82). -/
def zeroAt (b : Block) (row fmt e : Nat) : Bool :=
  match EFmt.ofCode fmt with
  | some f =>
    let n := f.bitsOf / 8
    f.isZeroCode (b.spad.nat (row + e * n) n)
  | none => true

/-- A source place's byte and the one after it. -/
def CLoc.both (b : Block) (rd : Nat → Nat) : CLoc → Nat
  | .glob va => rd va.toNat + 256 * rd (va.toNat + 1)
  | .spad o => b.spad.nat o 2
  | _ => 0

/-- Bytes at a virtual address that the scratchpad window holds. -/
def vaSpads (va n : Nat) : List (Nat × Nat) := match vwin va with
  | .spad o => [(o, n)]
  | _ => []

/-- The scratchpad bytes a source is made from. -/
def CSrc.spads : CSrc → List (Nat × Nat)
  | .zero => []
  | .byte (.spad o) _ => [(o, 1)]
  | .byte _ _ => []
  | .cross (.spad o) _ _ => [(o, 2)]
  | .cross _ _ _ => []
  | .expand _ bmap dense e esz _ => vaSpads bmap.toNat (e / 8 + 1) ++ vaSpads dense.toNat ((e + 1) * esz)
  | .bmapOf _ row n fmt _ _ => [(row, n * ((((EFmt.ofCode fmt).map EFmt.bitsOf).getD 8) / 8))]
  | .ranked _ bmap row n fmt c0 _ _ =>
    vaSpads bmap.toNat (cdiv c0 8) ++ [(row, n * ((((EFmt.ofCode fmt).map EFmt.bitsOf).getD 8) / 8))]

/-- The value of a source: a byte, or nothing to write. -/
def CSrc.value (b : Block) (rd : Nat → Nat) : CSrc → Option Byte
  | .zero => some 0
  | .byte l mask => some (BitVec.ofNat 8 (l.both b rd) &&& mask)
  | .cross l sh mask => some (BitVec.ofNat 8 (l.both b rd / 2 ^ sh) &&& mask)
  | .expand q bmap dense e esz k =>
    some (BitVec.ofNat 8 (((CSrc.expand q bmap dense e esz k).second rd).foldl (fun _ a => rd a) 0))
  | .bmapOf _ row n fmt c0 k =>
    some (BitVec.ofNat 8 ((upto 0 8).foldl (fun m i =>
      let e := 8 * k + i
      if c0 ≤ e ∧ e < c0 + n ∧ zeroAt b row fmt (e - c0) = false then m + 2 ^ i else m) 0))
  | .ranked _ bmap row n fmt c0 r k =>
    let before := if c0 = 0 then 0 else rankIn rd bmap.toNat c0
    if r < before then none
    else
      let full := (upto 0 n).filter fun e => !zeroAt b row fmt e
      match full[r - before]? with
      | some e => some (b.spad.read (row + e * ((((EFmt.ofCode fmt).map EFmt.bitsOf).getD 8) / 8) + k))
      | none => none

/-- The byte an engine reads at an address: of the scratchpad window, of memory: beyond the fabric the answer; a shared line of a deterministic launch at its home
(R258); by the fetch unit through its cache; else as the die sees it (R128). -/
def State.engByte (s : State) (x : Eng) (va pa : Nat) : Nat :=
  let fu := match x.r.kind with
    | .copy _ _ f _ _ => f
    | _ => false
  let own : Option Nat := match vwin va with
    | .spad o => some o
    | _ => none
  let v : Byte :=
    if own.isSome then x.b.spad.read (own.getD 0)
    else if isFabric pa then (s.answer x.b.bid (engIdx x.r.rid) pa).getD 0
    else if x.l.mode == .deterministic && x.l.sharedAt va then s.homeByte pa
    else if fu then (lineByte (s.core x.b.core).fcache pa).getD (s.dieByte x.die pa)
    else s.dieByte x.die pa
  v.toNat

/-- The check of the sector that an engine's byte comes from fails (R110). -/
def State.engBad (s : State) (x : Eng) (va pa : Nat) : Bool :=
  let line : Option Line := match x.r.kind with
    | .copy _ _ true _ _ => (s.core x.b.core).fcache.find? fun y => y.num == pa / 64
    | _ => none
  let atDie : Bool := (pointByte (s.die x.die).point pa).isNone && isDram pa && sectorBad s.sums (pa / 32)
  match vwin va with
  | .spad o => sectorBad x.b.sums (o / 32)
  | _ =>
    if isFabric pa then false
    else if x.l.mode == .deterministic && x.l.sharedAt va then isDram pa && sectorBad s.sums (pa / 32)
    else (line.map fun y => sectorBad y.sums (pa / 32)).getD atDie

/-- The scratchpad bytes of some ranges whose sector's check fails: the first, as an address. -/
def Block.spadBad (b : Block) (l : List (Nat × Nat)) : Option Nat :=
  (l.flatMap fun x => sectorsOf x.1 x.2).find? (sectorBad b.sums) |>.map fun k => 0xFFFFF00000000000 + 32 * k

/-- The fetch unit keeps the lines it reads, in a cache of 64 KiB (R1, R117, log 7, DESIGN CHOICE). -/
def State.engFill (s : State) (x : Eng) (pas : List Nat) : State :=
  match x.r.kind with
  | .copy _ _ true _ _ => pas.foldl (fun (s : State) a =>
      let c := s.core x.b.core
      if !isDram a || c.fcache.any (fun y => y.num == a / 64) then s
      else s.setCore { c with fcache := capLines 1024 c.fcache (s.dieLine x.die a) }) s
  | _ => s

/-- Ask for bytes beyond the fabric that have not been asked for (R376); the flag says some are not answered. -/
def State.engAsk (s : State) (x : Eng) (vps : List (Nat × Nat)) : State × Bool :=
  vps.foldl (fun (acc : State × Bool) vp =>
    if !isFabric vp.2 then acc
    else
      let s := acc.1
      match s.fabric.find? fun f => !f.write && f.bid == x.b.bid && f.idx == engIdx x.r.rid && f.pa == vp.2 with
      | some f => (s, acc.2 || !f.answered)
      | none =>
        let (id, s) := s.fresh
        ({ s with fabric := s.fabric ++
          [⟨id, x.b.bid, engIdx x.r.rid, vp.2, BitVec.ofNat 64 vp.1, false, [], 1, false, none, x.r.origin⟩] }, true)) (s, false)

/-- What reading some sources gives: their values, each with the global addresses it came from. -/
inductive SrcRead where
  | vals (s : State) (l : List (Option Byte × List Nat))
  | wait (s : State)
  | fault (s : State) (va kind level : Nat)
deriving DecidableEq, Repr

/-- Read some sources: first bytes of bitmaps and of memory, then the values a bitmap points to. -/
def State.readSrcs (s : State) (x : Eng) (l : List CSrc) : SrcRead :=
  let one := dedup (l.flatMap CSrc.first)
  let far (l : List Nat) : List Nat := l.filter fun v => !inSpad v
  match s.engPages x.l.ctx x.die .read (pagesOf (far one)) with
  | (s, .bad va k lev) => .fault s va k lev
  | (s, .later) => .wait s
  | (s, .ok m1) =>
    let (s, w) := s.engAsk x ((far one).map fun v => (v, paIn m1 v))
    let bad (m : List (Nat × Nat)) (l : List Nat) : Option Nat := l.find? fun v => s.engBad x v (paIn m v)
    if w then .wait s
    else match (bad m1 one).or (x.b.spadBad (l.flatMap CSrc.spads)) with
    | some v => .fault s v 9 0
    | none =>
      let vals1 := one.map fun v => (v, s.engByte x v (paIn m1 v))
      let rd1 (a : Nat) : Nat := look vals1 a 0
      let two := dedup (l.flatMap (CSrc.second rd1))
      match s.engPages x.l.ctx x.die .read (pagesOf (far two)) with
      | (s, .bad va k lev) => .fault s va k lev
      | (s, .later) => .wait s
      | (s, .ok m2) =>
        let (s, w) := s.engAsk x ((far two).map fun v => (v, paIn m2 v))
        if w then .wait s
        else match bad m2 two with
        | some v => .fault s v 9 0
        | none =>
          let vals2 := vals1 ++ two.map fun v => (v, s.engByte x v (paIn m2 v))
          let s := s.engFill x ((far one).map (paIn m1) ++ (far two).map (paIn m2))
          let s := { s with fabric := s.fabric.filter fun f => f.write || f.bid != x.b.bid || f.idx != engIdx x.r.rid }
          let s := (dedup (l.flatMap CSrc.spads)).foldl (fun (s : State) o => s.touchOuts x.b.bid o.1 o.2) s
          .vals s (l.map fun c => (c.value x.b fun a => look vals2 a 0, c.first ++ c.second rd1))

/-! ### Planning -/

/-- The base of the 32-byte destination unit of a place (R257). -/
def CLoc.sector : CLoc → CLoc
  | .glob va => .glob (BitVec.ofNat 64 (va.toNat / 32 * 32))
  | .spad o => .spad (o / 32 * 32)
  | .obuf o => .obuf (o / 32 * 32)
  | .peer b o => .peer b (o / 32 * 32)

/-- The place n bytes further on. -/
def CLoc.add : CLoc → Nat → CLoc
  | .glob va, n => .glob (va + BitVec.ofNat 64 n)
  | .spad o, n => .spad (o + n)
  | .obuf o, n => .obuf (o + n)
  | .peer b o, n => .peer b (o + n)

/-- A virtual address as an engine reaches it. -/
def clocOf (va : Nat) : CLoc := match vwin va with
  | .spad o => .spad o
  | _ => .glob (BitVec.ofNat 64 va)

/-- A sector counts, written or not: it lies in the footprint of a compressed row, or of another (R257). -/
def addSec (key : CLoc) (row : Option Nat) : List CSec → List CSec
  | [] => [⟨key, [], false, row.toList⟩]
  | x :: r => if x.key = key then { x with rows := x.rows ++ row.toList } :: r else x :: addSec key row r

/-- A move joins its sector. A byte that one copy writes twice is an undefined value: the manual orders no writes within
a copy. -/
def addMove (nonce : Nat) (m : CMove) : List CSec → List CSec
  | [] => [⟨m.dst.sector, [m], false, []⟩]
  | x :: r =>
    if x.key = m.dst.sector then
      if x.moves.any fun y => y.dst == m.dst && (y.dmask &&& m.dmask) != 0 then
        { x with moves := mapIf (fun (y : CMove) => y.dst == m.dst) (fun y =>
            { y with dmask := y.dmask ||| m.dmask, src := .zero
                     val := some (some (BitVec.ofNat 8 (Config.freeWord nonce).toNat)) }) x.moves } :: r
      else { x with moves := x.moves ++ [m] } :: r
    else x :: addMove nonce m r

/-- The sectors of n bytes from a place (log 50, DEDUCED). -/
def secsOf (l : CLoc) (n : Nat) : List CLoc := dedup ((upto 0 n).map fun i => (l.add i).sector)

/-- Sectors from the places that count and the bytes written: destination, bits, source. -/
def planSecs (nonce : Nat) (foot : List (CLoc × Option Nat)) (ms : List (CLoc × Byte × CSrc)) : List CSec :=
  let base := foot.foldl (fun l k => addSec k.1 k.2 l) []
  (((upto 0 ms.length).zip ms).foldl (fun l x =>
    let v : Option (Option Byte) := match x.2.2.2 with
      | .zero => some (some 0)
      | _ => none
    addMove (nonce + x.1) ⟨x.2.1, x.2.2.1, x.2.2.2, v, []⟩ l) base)

/-- Bytes of a run of sources laid from a place on. -/
def layRow (l : CLoc) (xs : List CSrc) : List (CLoc × Byte × CSrc) :=
  ((upto 0 xs.length).zip xs).map fun x => (l.add x.1, (0xFF : Byte), x.2)

/-- The bits of byte j that the first n bits of a row cover. -/
def bitsIn (n j : Nat) : Byte := if 8 * j + 8 ≤ n then 0xFF else BitVec.ofNat 8 (2 ^ (n - 8 * j) - 1)

/-- The sources of a box row's bytes as packed with k planes: what lies beyond the extent arrives as zero (R103, R104,
R253, R255). -/
def Handle.reads (h : Handle) (k : Nat) (c : List Nat) : List CSrc :=
  let ne := h.inside c
  let c0 := nth c 0 0
  let n := h.boxAt 0
  if h.comp then
    let q := h.rowNum c
    (upto 0 n).flatMap fun e => (upto 0 h.esz).map fun b =>
      if e < ne then .expand q (BitVec.ofNat 64 (h.rowMap c)) (BitVec.ofNat 64 (h.rowBase c)) (c0 + e) h.esz b else .zero
  else if h.pack.plane then
    let per := h.pack.len / 8
    (upto 0 (n / h.pack.len)).flatMap fun b => (upto 0 k).flatMap fun j => (upto 0 per).map fun i =>
      if b * h.pack.len < ne then
        .byte (clocOf (h.rowAddr c + b * (h.pack.planes * per) + j * per + i)) 0xFF
      else .zero
  else
    let w := h.pack.fmt.bitsOf
    let a := h.rowBase c + c0 * w / 8
    let sh := c0 * w % 8
    (upto 0 (h.pack.bytes n)).map fun j =>
      if ne * w ≤ 8 * j then .zero
      else if sh = 0 then .byte (clocOf (a + j)) (bitsIn (ne * w) j)
      else .cross (clocOf (a + j)) sh (bitsIn (ne * w) j)

/-- Where a handle's byte at an address lies: the tensor, or a peer's scratchpad (R105). -/
def Handle.place (h : Handle) (peer : Option Nat) (a : Nat) : CLoc := match peer with
  | some b => .peer b a
  | none => if h.peer then .peer 0 a else clocOf a

/-- The writes of a box row from scratchpad bytes at an offset, packed with k planes (R103, R104, R256). -/
def Handle.writes (h : Handle) (peer : Option Nat) (k : Nat) (c : List Nat) (off : Nat) : List (CLoc × Byte × CSrc) :=
  let ne := h.inside c
  let c0 := nth c 0 0
  let src (o : Nat) : CSrc := .byte (.spad o) 0xFF
  if h.comp then
    let q := h.rowNum c
    let bm := BitVec.ofNat 64 (h.rowMap c)
    let maps := (upto 0 (cdiv (c0 + ne) 8)).filterMap fun j =>
      let mask := BitVec.ofNat 8 ((upto 0 8).foldl (fun m i =>
        if c0 ≤ 8 * j + i ∧ 8 * j + i < c0 + ne then m + 2 ^ i else m) 0)
      if mask = 0 then none
      else some (clocOf (h.rowMap c + j), mask, CSrc.bmapOf q off ne h.fmtCode c0 j)
    let vals := (upto 0 (if ne = 0 then 0 else c0 + ne)).flatMap fun r => (upto 0 h.esz).map fun b =>
      (h.place peer (h.rowBase c + r * h.esz + b), (0xFF : Byte), CSrc.ranked q bm off ne h.fmtCode c0 r b)
    maps ++ vals
  else if h.pack.plane then
    let per := h.pack.len / 8
    (upto 0 (ne / h.pack.len)).flatMap fun b => (upto 0 h.pack.planes).flatMap fun j => (upto 0 per).map fun i =>
      (h.place peer (h.rowAddr c + b * (h.pack.planes * per) + j * per + i), (0xFF : Byte),
        if j < k then src (off + b * (k * per) + j * per + i) else .zero)
  else
    let w := h.pack.fmt.bitsOf
    (upto 0 (cdiv (ne * w) 8)).map fun j => (h.place peer (h.rowAddr c + j), bitsIn (ne * w) j, src (off + j))

/-- The sectors a box row's destination counts, dropped elements included, with the row where it is compressed (R103,
R257). -/
def Handle.foot (h : Handle) (peer : Option Nat) (c : List Nat) : List (CLoc × Option Nat) :=
  let n := h.boxAt 0
  let c0 := nth c 0 0
  if h.comp then
    (secsOf (h.place peer (h.rowBase c)) ((c0 + n) * h.esz) ++
      secsOf (clocOf (h.rowMap c + c0 / 8)) (cdiv (c0 + n) 8 - c0 / 8)).map fun l => (l, some (h.rowNum c))
  else (secsOf (h.place peer (h.rowAddr c)) (h.pack.bytes n)).map fun l => (l, none)

/-- The bytes of a reservation's range from a handle's box (R253). Plane integers keep the blocks of the handle's own
block length, though the record may name another (log 76, DESIGN CHOICE). -/
def RRec.fills (r : RRec) (h : Handle) (c : List Nat) : List (CLoc × Byte × CSrc) :=
  let rows := h.rows c
  (upto 0 32).flatMap fun j =>
    let xs := match rows[j]? with
      | some row => (h.reads r.planes row).take r.cb
      | none => []
    layRow (.obuf (r.start + j * r.cb)) (xs ++ List.replicate (r.cb - xs.length) .zero)

/-! ### Presence bits (R91) -/

/-- A sector is awaited by one more copy. -/
def Block.await (b : Block) (k : Nat) : Block :=
  let n := look b.absent k 0
  { b with absent := insKey (·.1) (k, n + 1) (b.absent.filter (·.1 != k)) }

/-- A copy has performed its writes to a sector (log 53, DEDUCED). -/
def Block.arrived (b : Block) (k : Nat) : Block :=
  let n := look b.absent k 0
  let rest := b.absent.filter (·.1 != k)
  { b with absent := if n ≤ 1 then rest else insKey (·.1) (k, n - 1) rest }

/-- The sectors of the own scratchpad that a copy writes wholly or in part. -/
def spadSecs (l : List CSec) : List Nat := l.filterMap fun x => match x.key with
  | .spad o => if x.moves.isEmpty then none else some (o / 32)
  | _ => none

/-! ### COPY_SOURCE_READ -/

/-- The places of moves to read: those asked for, and with one of a compressed row all of the row's. -/
def wanted (secs : List CSec) (sec first n : Nat) : List (Nat × Nat × CMove) :=
  let all := ((upto 0 secs.length).zip secs).flatMap fun x =>
    ((upto 0 x.2.moves.length).zip x.2.moves).map fun y => (x.1, y.1, y.2)
  let open' := all.filter fun x => x.2.2.val.isNone
  let asked := open'.filter fun x => x.1 == sec && decide (first ≤ x.2.1) && decide (x.2.1 < first + n)
  let rows := asked.filterMap fun x => x.2.2.src.row
  open'.filter fun x => asked.contains x || (match x.2.2.src.row with
    | some q => rows.contains q
    | none => false)

/-- Set the values read. -/
def setVals (secs : List CSec) (vs : List (Nat × Nat × Option Byte × List Nat)) : List CSec :=
  ((upto 0 secs.length).zip secs).map fun x =>
    let mine := vs.filter fun v => v.1 == x.1
    if mine.isEmpty then x.2
    else { x.2 with moves := ((upto 0 x.2.moves.length).zip x.2.moves).map fun y =>
      match mine.find? fun v => v.2.1 == y.1 with
      | some v => { y.2 with val := some v.2.2.1, from' := v.2.2.2 }
      | none => y.2 }

/-- The code of an engine's reads in a fault record (R332) (log 54, DEDUCED). -/
def EReq.readAcc (r : EReq) : Nat := match r.kind with
  | .fill _ _ => 7
  | _ => 5

/-- A replica takes what the primary's copy has read of shared lines (R258). -/
def State.fwdBytes (s : State) (x : Eng) (ws : List (Nat × Nat × CMove)) : Option (List (Nat × Nat × Option Byte × List Nat)) :=
  match s.primaryOf x.b with
  | none => none
  | some p =>
    let vs := ws.filterMap fun w => (p.engOut.find? fun f =>
      f.idx == x.r.lead && f.ord == x.r.ord && f.sec == w.1 && f.at' == w.2.1).map fun f => (w.1, w.2.1, f.val, [])
    if vs.length < ws.length then none else some vs

/-- COPY_SOURCE_READ (R128, R258): a copy, fetch or fill reads some of its source bytes, each once. -/
def execCopySourceRead (bid rid sec first n : Nat) (s : State) : Host.Outcome State Fault Refusal :=
  .next (match s.eng? bid rid with
    | none => s
    | some x =>
      let secs := x.r.kind.secs
      let ws := wanted secs sec first n
      let shared := ws.filter fun w => w.2.2.src.sharedIn x.l
      let taken := x.l.redundant && !s.primary x.b
      if ws.isEmpty || (x.l.mode == .deterministic && !shared.isEmpty && !x.l.oldest x.b.num) then s
      else match if taken then s.fwdBytes x shared else some [] with
        | none => s
        | some fw =>
          let own := if taken then ws.filter fun w => !shared.contains w else ws
          match s.readSrcs x (own.map fun w => w.2.2.src) with
          | .wait s => s
          | .fault s va k l => s.engFault x x.r.readAcc va k l
          | .vals s vs =>
            let mine := (own.zip vs).map fun y => (y.1.1, y.1.2.1, y.2)
            let s := s.setReq bid { x.r with kind := x.r.kind.withSecs (setVals secs (mine ++ fw)) }
            if x.l.redundant then
              -- kept by every replica: one of them may become the primary (R356)
              let out : List EFwd := ((mine ++ fw).filter fun v => shared.any fun w => w.1 == v.1 && w.2.1 == v.2.1).map
                fun v => ⟨x.r.lead, x.r.ord, v.1, v.2.1, v.2.2.1⟩
              s.onBlock bid fun b => { b with engOut := b.engOut ++ out }
            else s)

/-! ### SECTOR_PERFORMED -/

/-- A byte under the bits a move writes. -/
def CMove.over (m : CMove) (old : Byte) : Byte := (old &&& ~~~m.dmask) ||| (((m.val.getD none).getD 0) &&& m.dmask)

/-- A move that writes. -/
def CMove.live (m : CMove) : Bool := match m.val with
  | some (some _) => true
  | _ => false

/-- Runs of consecutive whole bytes: first address and bytes. -/
def runsOf : List (Nat × Byte) → List (Nat × List Byte)
  | [] => []
  | (a, v) :: r =>
    match runsOf r with
    | (b, vs) :: more => if b = a + 1 then (a, v :: vs) :: more else (a, [v]) :: (b, vs) :: more
    | [] => [(a, [v])]

/-- The virtual address of a global place. -/
def CLoc.va : CLoc → Nat
  | .glob va => va.toNat
  | _ => 0

/-- How a request's writes are observed by the thread that issued it (R133). -/
def Eng.await (x : Eng) : Await := match x.r.kind with
  | .copy (some off) _ _ _ _ => .phase off (look x.b.tbs off 0)
  | .drain t _ _ => .tile t
  | _ => .never

/-- Staged writes of a sector (R136, R139, R349): its whole bytes in runs, its partial bytes under their masks. They count as made
by every member of the word (R238). -/
def stagedSector (r : EReq) (idx : Nat) (aw : Await) (m : List (Nat × Nat)) (ms : List CMove) : List SEntry :=
  let entry (k : SKind) (va : Nat) (bs : List Byte) : SEntry :=
    ⟨idx, r.issuers, r.pos, k, BitVec.ofNat 64 va, paIn m va, bs, none, 0, 0, some aw, [], false, r.origin⟩
  let whole := runsOf (sortKey (·.1) ((ms.filter fun x => x.dmask == 0xFF).map fun x => (x.dst.va, x.over 0)))
  let part := ms.filter fun x => x.dmask != 0xFF
  let l := (whole.map fun (r : Nat × List Byte) => entry .copyw r.1 r.2) ++ part.map fun x => entry (.part x.dmask) x.dst.va [x.over 0]
  match l with
  | x :: r => { x with cost := 48 } :: r
  | [] => []

/-- Plain writes of a global sector at its home (R128). -/
def State.writeSector (s : State) (x : Eng) (m : List (Nat × Nat)) (ms : List CMove) : State :=
  let runs := runsOf (sortKey (·.1) (ms.map fun y => (y.dst.va, y.over (s.homeByte (paIn m y.dst.va)))))
  runs.foldl (fun (s : State) r => s.arrive ⟨x.b.bid, x.tag, paIn m r.1, BitVec.ofNat 64 r.1, r.2, x.r.origin, []⟩) s

/-- Writes to a block's scratchpad, each run of bytes at once (R110). -/
def State.writeSpad (s : State) (bid : Nat) (ms : List (Nat × CMove)) : State :=
  let old (o : Nat) : Byte := ((s.block? bid).map fun b => b.spad.read o).getD 0
  (runsOf (sortKey (·.1) (ms.map fun y => (y.1, y.2.over (old y.1))))).foldl (fun (s : State) r => s.spadWrite bid r.1 r.2) s

/-- The scratchpad byte a place of a block's request names: its block and offset. -/
def CLoc.spadAt (bid : Nat) : CLoc → Option (Nat × Nat)
  | .spad o => some (bid, o)
  | .peer p o => some (p, o)
  | _ => none

/-- A later copy of the core has written bytes: an earlier one no longer writes them (R91). -/
def State.overtake (s : State) (x : Eng) (sec : CSec) : State :=
  let me := x.b.bid
  let cut (bid : Nat) (m : CMove) : CMove :=
    let gone : Byte := (sec.moves.filter fun y => y.dst.spadAt me == m.dst.spadAt bid && y.live).foldl
      (fun a y => a ||| y.dmask) 0
    { m with dmask := m.dmask &&& ~~~gone }
  let fix (bid : Nat) (c : CSec) : CSec :=
    if !c.fin && c.key.spadAt bid == sec.key.spadAt me then { c with moves := c.moves.map (cut bid) } else c
  let earlier (bid : Nat) (r : EReq) : EReq :=
    if r.pos < x.r.pos then { r with kind := r.kind.withSecs (r.kind.secs.map (fix bid)) } else r
  let blocks := mapIf (fun (c : Block) => c.core == x.b.core) (fun c => { c with eng := c.eng.map (earlier c.bid) }) s.blocks
  if (sec.key.spadAt me).isNone then s else { s with blocks := blocks }

/-- What writing a sector gives. -/
inductive SecWrite where
  | ok (s : State)
  /-- not now: a satchel without room, or what has not passed its self-test -/
  | later (s : State)
  | fault (s : State) (va kind level : Nat)
deriving DecidableEq, Repr

/-- Make a sector's writes. -/
def State.secWrite (s : State) (x : Eng) (i : Nat) (sec : CSec) : SecWrite :=
  let ms := sec.moves.filter fun m => m.live && m.dmask != 0
  match sec.key with
  | .spad _ => .ok (s.writeSpad x.b.bid (ms.filterMap fun m => match m.dst with
      | .spad o => some (o, m)
      | _ => none))
  | .peer p _ => .ok (s.writeSpad p (ms.filterMap fun m => match m.dst with
      | .peer _ o => some (o, m)
      | _ => none))
  | .obuf o => .ok ((s.onBlock x.b.bid fun b => b.onPart x.r.part fun q =>
      { q with obuf := ms.foldl (fun m y => match y.dst with
          | .obuf o => m.write o (y.over (m.read o))
          | _ => m) q.obuf }).slotSyncObuf x.b.bid x.r.part o 32)
  | .glob va =>
    match s.engPages x.l.ctx x.die .write (pagesOf (ms.map fun m => m.dst.va)) with
    | (s, .bad a k l) => .fault s a k l
    | (s, .later) => .later s
    | (s, .ok m) =>
      if x.l.stages va.toNat then
        match s.stage x.b.bid (.sector x.r.rid i) (stagedSector x.r x.tag x.await m ms) with
        | (s, true) => .ok s
        | (s, false) => .later s
      else .ok (s.writeSector x m ms)

/-- A sector of a compressed row that receives no write is performed when its rows' writes are made (R257). -/
def waitsForRow (secs : List CSec) (sec : CSec) : Bool :=
  let rows := sec.rows ++ sec.moves.filterMap fun m => m.src.row
  sec.moves.all (fun m => !m.live) && secs.any fun y => !y.fin && y.moves.any fun m => (m.val.isNone || m.live) &&
    (match m.src.row with
      | some q => rows.contains q
      | none => false)

/-- A request whose sectors are all performed: a copy or drain is complete, and a range it has filled is observed as its
writes are; a fill is completed by its own event. -/
def State.engDone (s : State) (bid : Nat) (r : EReq) (aw : Await) : State :=
  if r.kind.secs.any fun c => !c.fin then s
  else match r.kind with
    | .copy _ _ _ (some o) _ =>
      (s.dropReq bid r.rid).onBlock bid fun b => b.onPart r.part fun p =>
        { p with resv := p.resv.set o ((nth p.resv o none).map fun v =>
            { v with filled := true, await := some aw, seen := [] }) }
    | .fill _ _ => s
    | _ => s.dropReq bid r.rid

/-- The block that holds a copy's barrier, if it is still there: its own, or the peer's (R95, R105). -/
def Eng.barHome (x : Eng) : Nat := match x.r.kind with
  | .copy _ (some p) _ _ _ => p
  | _ => x.b.bid

/-- A sector has been performed: its presence bit and its barrier's update, in the same step (R91, R95, R128). -/
def State.secDone (s : State) (x : Eng) (i : Nat) (sec : CSec) (live : Bool) : State :=
  match (s.block? x.b.bid).bind fun b => b.eng.find? (·.rid == x.r.rid) with
  | none => s
  | some r =>
    let r := { r with kind := r.kind.withSecs (((upto 0 r.kind.secs.length).zip r.kind.secs).map fun y =>
      if y.1 = i then { y.2 with fin := true } else y.2) }
    let s := s.setReq x.b.bid r
    let s := match sec.key, r.kind with
      | .spad o, .copy _ _ _ _ _ => if sec.moves.isEmpty then s else s.onBlock x.b.bid fun b => b.arrived (o / 32)
      | _, _ => s
    let s := match r.kind with
      | .copy (some off) _ _ _ _ => if live then s.tbApply x.barHome off 0 (-1) else s
      | _ => s
    s.engDone x.b.bid r x.await

/-- The virtual addresses a move touches as watchpoints see it (R365): where a copy or drain writes; where a fill has read. -/
def CMove.watched (fill : Bool) (m : CMove) : List Nat :=
  if fill then m.from'
  else if m.dmask = 0 ∨ !m.live then []
  else match m.dst with
    | .glob va => [va.toNat]
    | .spad o => [0xFFFFF00000000000 + o]
    | .peer _ o => [0xFFFFF00000000000 + o]
    | _ => []

/-- A performed sector touches watchpoints of its context that its request has not been reported for: kind 4 (R365). -/
def State.engWatch (s : State) (x : Eng) (sec : CSec) : State :=
  let fill := match x.r.kind with
    | .fill _ _ => true
    | _ => false
  let c := x.l.ctx
  let wps := (nth s.dbg c.part ⟨[], [], false, []⟩).wps
  let vas := sec.moves.flatMap (CMove.watched fill)
  if !s.primary x.b then s
  else ((upto 0 wps.length).zip wps).foldl (fun (s : State) y =>
    match y.2 with
    | none => s
    | some w =>
      match vas.find? fun va => w.hits c.desc (if fill then 0 else 1) va 1 with
      | some va =>
        if x.r.seen.contains y.1 then s
        else
          -- a word's drains are one drain
          let same (r : EReq) : Bool := r.rid == x.r.rid || (r.pos == x.r.pos && r.part == x.r.part && (match r.kind with
            | .drain _ _ _ => true
            | _ => false))
          let note (r : EReq) : EReq := if same r then { r with seen := y.1 :: r.seen } else r
          let s := (s.onBlock x.b.bid fun b => { b with eng := b.eng.map note }).trigger c 2
          s.report c (reportImage x.l x.b.num x.r.word.toNat va x.r.named 4 0 0) none
      | none => s) s

/-- Which aligned 8-byte unit of its sector a place lies in (R109). -/
def CLoc.unit : CLoc → Nat
  | .glob va => va.toNat % 32 / 8
  | .spad o => o % 32 / 8
  | .obuf o => o % 32 / 8
  | .peer _ o => o % 32 / 8

/-- A unit of a sector is written ahead of the rest (R109): its moves are then done. A sector that is staged goes as a
whole. -/
def State.unitAhead (s : State) (x : Eng) (i : Nat) (sec : CSec) (u : Nat) : State :=
  let now := { sec with moves := sec.moves.filter fun m => m.dst.unit == u && m.live }
  let staged := match sec.key with
    | .glob va => x.l.stages va.toNat
    | _ => false
  if staged || now.moves.isEmpty then s
  else match s.secWrite x i now with
    | .later s => s
    | .fault s va k l => s.engFault x 6 va k l
    | .ok s =>
      let mine (m : CMove) : CMove := if m.dst.unit == u && m.live then { m with val := some none } else m
      let secs (l : List CSec) : List CSec := ((upto 0 l.length).zip l).map fun y =>
        if y.1 = i then { y.2 with moves := y.2.moves.map mine } else y.2
      ((s.engWatch x now).overtake x now).onBlock x.b.bid fun b => { b with
        eng := mapIf (fun (r : EReq) => r.rid == x.r.rid) (fun r => { r with kind := r.kind.withSecs (secs r.kind.secs) }) b.eng }

/-- The number of the sector. -/
def secNum : SecPart → Nat
  | .whole i => i
  | .unit i _ => i

/-- SECTOR_PERFORMED (R95, R109, R128, R240): the writes of a sector whose sources have been read, or, ahead of them, those
of one of its aligned 8-byte units. A sector of a peer that has ended is dropped (R105). -/
def execSectorPerformed (bid rid : Nat) (sec : SecPart) (s : State) : Host.Outcome State Fault Refusal :=
  .next (match s.eng? bid rid with
    | none => s
    | some x =>
      let secs := x.r.kind.secs
      match secs[secNum sec]? with
      | none => s
      | some c =>
        let gone : Bool := match x.r.kind with
          | .copy _ (some p) _ _ _ => ((s.block? p).map fun b => b.st == .ended).getD true
          | _ => false
        match sec with
        | .unit i u =>
          if c.fin || gone || c.moves.any (fun m => m.dst.unit == u && m.val.isNone) then s else s.unitAhead x i c u
        | .whole i =>
          if c.fin || c.moves.any (fun m => m.val.isNone) || x.b.full.isSome || waitsForRow secs c then s
          else if gone then s.secDone x i c false
          else match s.secWrite x i c with
            | .later s => s
            | .fault s va k l => s.engFault x 6 va k l
            | .ok s => ((s.engWatch x c).overtake x c).secDone x i c true)

/-! ### Records read at issue -/

/-- Read n bytes of the scratchpad as a load of the acting threads, whose own queued stores it sees (R116, R252, R255; a
load of the whole span, as chapter 16 has it: log 32, DEDUCED). -/
def Env.spadLoad (e : Env) (b : Block) (off n : Nat) : Nat :=
  let own := e.members.map e.idx
  leNat ((upto off n).map fun o => (e.grp.forwardOf own.contains (.spad o)).getD (b.spad.read o))

/-- Read a 32-byte record at an offset: its checks, and what holds a load (R92, R113, R240). -/
def State.recordAt (s : State) (e : Env) (off : Nat) (f : State → Block → Nat → Eff) : Eff :=
  e.ranged off 32 32 <|
    match s.block? e.bid with
    | none => .wait
    | some b =>
      let x : Elem := ⟨e.first, 0, .spad off, false⟩
      if b.absentAt off 32 then .hold s .parked
      else if e.members.any (fun p => s.loadWaits e ⟨p, 0, .spad off, false⟩ 32) then .wait
      else if sectorBad b.sums (off / 32) then .fault s 9 0 0 (BitVec.ofNat 64 (0xFFFFF00000000000 + off)) e.members
      else f (s.touch e 32 false [x]) b (e.spadLoad b off 32)

/-- The outcome of reading a handle's entry. -/
inductive HRead where
  | entry (s : State) (h : Handle)
  | bad (eff : Eff)
deriving DecidableEq, Repr

/-- A handle trap (R102): its operand is the handle's number. -/
def Env.handleTrap (e : Env) (h : Nat) : Eff := .trap 13 (BitVec.ofNat 64 h) e.count

/-- The entry a launch uses of those it may see: what memory holds now, or one it has read before (R106). Where they differ a
free value chooses (log 73, DEDUCED); an entry is used whole, and is kept for the launch. -/
def State.heldEntry (s : State) (e : Env) (n : Nat) (now : BitVec 512) : State × BitVec 512 :=
  match e.launch with
  | none => (s, now)
  | some l =>
    let old := (l.held.filter fun x => x.1 == n && x.2 != now).map (·.2)
    let s' := s.onLaunch l.lid fun l => if l.held.contains (n, now) then l else { l with held := l.held ++ [(n, now)] }
    if old.isEmpty then (s', now)
    else (s'.spend 1, nth (now :: old) ((Config.freeWord s.free).toNat % (old.length + 1)) now)

/-- The read of a handle's entry over the fabric, as FabOp.op says it. -/
def handleOp : Option (Nat × W64) := some (67, 0)

/-- The 64 bytes of a handle's entry at a physical address: as the die sees them, or, beyond the fabric, once they have been asked
for and have come (R376). -/
def State.entryBytes (s : State) (e : Env) (va : W64) (pa : Nat) : State × Option (List Byte) :=
  let i := e.idx e.first
  let mine (f : FabOp) : Bool := f.op == handleOp && f.bid == e.bid && f.idx == i && f.pa == pa
  if !isFabric pa then (s, some ((upto pa 64).map (s.dieByte e.die)))
  else match s.fabric.find? mine with
    | some f => if f.answered then ({ s with fabric := s.fabric.filter fun g => g.fid != f.fid }, some f.bytes) else (s, none)
    | none =>
      let (n, s) := s.fresh
      ({ s with fabric := s.fabric ++ [⟨n, e.bid, i, pa, va, false, [], 64, false, handleOp, e.origin⟩] }, none)

/-- Read a handle's entry through the context's tables (R102, R106): a failed translation waits with ACC 8. -/
def State.handleAt (s : State) (e : Env) (n : Nat) : HRead :=
  match e.ctx with
  | none => .bad (e.handleTrap n)
  | some c =>
    let va := handleBase + 64 * n
    if !s.walkable e.die c.part c.ptroot va then .bad .wait
    else match s.translate c va .read 64 with
    | (s, .fault k l) => .bad (.fault s k l 8 (BitVec.ofNat 64 va) e.members)
    | (s, .leaf _ pa _) =>
      if !s.usable e.die pa then .bad .wait
      else if (upto pa 64).any fun a => s.badByte e.core e.die a true then
        .bad (.fault s 9 0 8 (BitVec.ofNat 64 va) e.members)
      else
      if winOf pa = .onChip ∧ e.level = .kernel then .bad (.trap 4 (BitVec.ofNat 64 e.unit.word) e.count)
      else match s.entryBytes e (BitVec.ofNat 64 va) pa with
        | (s, none) => .bad (.hold s .fabricWait)
        | (s, some bs) =>
          let (s, x) := s.heldEntry e n (BitVec.ofNat 512 (leNat bs))
          match handleOf x.toNat with
          | some h => .entry s h
          | none => .bad (e.handleTrap n)

end Sys2Proof.Machine
end

