-- ==== Sys2Proof/Machine/Matrix.lean ====
section
/-! DEFINITION. The matrix array: configuration (R241), MMA and MMAB (R242 to R247), tile words (R248, R249), drains
(R250), waits (R251). -/

namespace Sys2Proof.Machine

/-! ### Formats (R241, R242) -/

/-- How A rows are packed under a configuration. -/
def cfgPack (v : W32) : Pack := (packOf (bits v.toNat 3 0) (bit v.toNat 9) (bits v.toNat 7 4)).getD ⟨.i8, 16, 0⟩

/-- A configuration value MCFG accepts (R241). -/
def cfgOk (v : W32) : Bool :=
  let n := v.toNat
  let f := bits n 3 0
  let p := bits n 7 4
  !bit n 11 && matFmt f && (if f = 9 then decide (2 ≤ p) && decide (p ≤ 8) else p == 0) && !(bit n 8 && f != 9)

/-- An operand format is one of floats (R242). -/
def Pack.float (p : Pack) : Bool := p.fmt.matFloat

/-- What a matrix word does along K: its first position, positions, and depth (R79, R242, R244). -/
structure Along where
  k0 : Nat
  k : Nat
  d : Nat
deriving DecidableEq, Repr

/-- Slice s of a word for two operands. -/
def alongOf (a b : Pack) (s : Nat) : Along :=
  let d := min (a.fmt.depth a.planes) (b.fmt.depth b.planes)
  ⟨s * (4 * d), 4 * d, d⟩

/-- The byte of an A row's scale for position g0 (R244). -/
def scaleA (cfg : W32) (row g0 : Nat) : Int := (row : Int) + sext 20 (bits cfg.toNat 31 12) + (g0 / blkLen (bit cfg.toNat 9) : Nat)

/-- The byte of column j's scale for position g0 (R244). -/
def scaleB (r : RRec) (g0 j : Nat) : Nat := r.scaleOff + 32 * (g0 / r.len) + j

/-- A scales apply (R76, R241, R242). -/
def aScaled (cfg : W32) : Bool := (cfgPack cfg).float && bit cfg.toNat 10

/-- B scales apply. -/
def bScaled (cfg : W32) (r : RRec) : Bool := (cfgPack cfg).float && r.scaled

/-! ### Issue -/

/-- The lane of a member (R238). -/
def Env.laneOf (e : Env) (p : Nat) : Nat := if e.grp.span then (e.grp.lo + p) % 32 else p

/-- The acting block's registers of the acting partition. -/
def State.myPart (s : State) (e : Env) : Part :=
  ((s.block? e.bid).map fun b => nth b.parts e.part ⟨[], [], [], 0, []⟩).getD ⟨[], [], [], 0, []⟩

/-- A tile. -/
def Part.tile (p : Part) (t : Nat) : Tile := nth p.tiles t ⟨none, false, none, []⟩

/-- A reservation. -/
def Part.res (p : Part) (o : Nat) : Option Resv := nth p.resv o none

/-- A word uses a tile: matrix words on it not yet waited for are disturbed (R130) (log 71, DEDUCED). -/
def State.tileUsed (s : State) (e : Env) (t : Nat) : State :=
  s.disturb e.bid fun r => r.part == e.part && (match r.kind with
    | .matrix m => m.tile == t
    | _ => false)

/-- A word writes a tile: SFMAX words that read it are disturbed (R131). -/
def State.tileWritten (s : State) (e : Env) (t : Nat) : State :=
  s.disturb e.bid fun r => r.part == e.part && (match r.kind with
    | .sift (.max tile _ _) => tile == t
    | _ => false)

/-- A word reads a mask register: SIFT words that write it, not yet waited for, are disturbed (R131). -/
def State.maskRead (s : State) (e : Env) (m : Nat) : State :=
  if m = 7 then s
  else s.disturb e.bid fun r => r.part == e.part && (match r.kind with
    | .sift (.mask k _ _) => k == m
    | .sift (.clr k _ _) => k == m
    | _ => false)

/-- A fence of kind engine that the acting threads issued before this word stands in their queue: the word's reads start
only after its step, and so does the word (R123, R262). -/
def State.fenced (s : State) (e : Env) : Bool :=
  e.members.any fun p => (s.threadGrps e.bid (e.idx p)).any fun g => g.waiting (e.idx p) s.tick fun q => match q.kind with
    | .fence _ true => true
    | _ => false

/-- A matrix word on a tile that its issuers have not waited for (R130). -/
def Block.tilePending (b : Block) (part t : Nat) : Bool := b.eng.any fun r => r.part == part && (match r.kind with
  | .matrix m => m.tile == t
  | _ => false)

/-- A copy still fills an unbound reservation of the partition (R133, R246). -/
def Block.filling (b : Block) (part o : Nat) : Bool := b.eng.any fun r => r.part == part && (match r.kind with
  | .copy _ _ _ (some k) _ => k == o
  | _ => false)

/-- The scratchpad bytes of a row's slice. -/
def sliceOf (p : Pack) (x : Along) (off : Nat) : Nat × Nat :=
  let start := if p.plane then x.k0 / p.len * (p.planes * p.len / 8) else x.k0 * p.fmt.bitsOf / 8
  (off + start, p.bytes (x.k0 + x.k) - start)

/-- The columns a matrix word multiplies the row of a lane by (R245). -/
def colsOf (diag : Bool) (lane : Nat) : List Nat := if diag then [2 * (lane / 2), 2 * (lane / 2) + 1] else upto 0 32

/-- The scratchpad byte, or bytes' end, at which a matrix word leaves the scratchpad for the row of a lane, if it does; the
scales it reaches are those of the row's columns (R245, R246). -/
def rowBad (s : Nat) (cfg : W32) (r : RRec) (x : Along) (diag : Bool) (lane row : Nat) : Option Nat :=
  let col := (colsOf diag lane).foldl max 0
  let a := cfgPack cfg
  let last := x.k0 + x.k - x.d
  let lo := scaleA cfg row x.k0
  let hi := scaleA cfg row last
  if s < row + a.bytes (x.k0 + x.k) then some row
  else if aScaled cfg ∧ (lo < 0 ∨ (s : Int) ≤ hi) then some (wrap 64 (if lo < 0 then lo else hi))
  else if bScaled cfg r ∧ s ≤ scaleB r last col then some (scaleB r last col)
  else none

/-- MMA and MMAB at issue (R245, R246). -/
def State.mma (s : State) (diag : Bool) (tile : BitVec 4) (zero : Bool) (a : RegN) (resv : BitVec 4) (mask : PredN)
    (st : BitVec 2) : Host.Outcome State Fault Refusal :=
  s.runWord (fun e => { srcs := [a.toNat], pre := roleTrap [2] e, post := tileTrap tile.toNat e, lat := none
                        gap := gapOf st none }) fun s e =>
    if e.grp.span && !e.solo && decide (1 < e.grp.windows.length) then .expand
    else
      let part := s.myPart e
      let v (p : Nat) : Nat := e.val false a.toNat p
      let row (p : Nat) : Nat := bits (v p) 20 0
      let slice := bits (v e.first) 31 24
      let cfg := part.mcfg
      let mis := e.members.filter fun p => row p % 4 ≠ 0
      let word := BitVec.ofNat 64 e.unit.word
      let rec' := (part.res resv.toNat).map fun r => rrecOf r.record
      let formats := cfgOk cfg && (match rec' with
        | some r => (cfgPack cfg).float == r.pack.float
        | none => true)
      let x := match rec' with
        | some r => alongOf (cfgPack cfg) r.pack slice
        | none => ⟨0, 0, 1⟩
      let bad (p : Nat) : Option Nat :=
        if bits (v p) 23 21 ≠ 0 then some (bits (v p) 23 0)
        else match rec' with
          | some r => if formats then rowBad e.spadLen cfg r x diag (e.laneOf p) (row p) else none
          | none => none
      let out := e.members.filter fun p => (bad p).isSome
      if !mis.isEmpty then .trap 7 (BitVec.ofNat 64 (row (mis.headD 0))) mis.length
      else if !out.isEmpty then .trap 8 (BitVec.ofNat 64 ((bad (out.headD 0)).getD 0)) out.length
      else if !formats then .trap 11 word e.count
      else match part.res resv.toNat, rec', s.block? e.bid with
        | some r, some c, some b =>
          if c.kr < x.k0 + x.k then .trap 12 word e.count
          else if s.fenced e then .wait
          else
            let rows := e.members.map fun p => (e.laneOf p, row p)
            let m : MatReq := ⟨diag, tile.toNat, resv.toNat, r.record, mask.toNat, zero, slice, rows, cfg, a.toNat⟩
            -- an unbound range counts as filled for those who have observed it (R133, R246)
            let unseen := r.await.isSome && !e.members.all fun p => r.seen.contains (e.idx p)
            let undef := !c.bound && (!r.filled || b.filling e.part resv.toNat || unseen)
            let s := (s.tileWritten e tile.toNat).maskRead e mask.toNat
            .done (s.engIssue e (.matrix m) (rows.map fun y => sliceOf (cfgPack cfg) x y.2) [] undef) e
        | _, _, _ => .trap 12 word e.count

/-- MMA (R245). -/
def execMma (tile : BitVec 4) (zero : Bool) (a : RegN) (resv : BitVec 4) (mask : PredN) (st : BitVec 2) (s : State) :
    Host.Outcome State Fault Refusal := s.mma false tile zero a resv mask st

/-- MMAB (R245): the diagonal of sixteen 2 by 2 products. -/
def execMmab (tile : BitVec 4) (zero : Bool) (a : RegN) (resv : BitVec 4) (mask : PredN) (st : BitVec 2) (s : State) :
    Host.Outcome State Fault Refusal := s.mma true tile zero a resv mask st

/-! ### Performing (R80, R81, R245) -/

/-- The value of a float operand's code. -/
def Pack.fv (p : Pack) (code : Nat) : FV := match p.fmt with
  | .fp f => f.value code
  | _ => .nan

/-- The value of an integer operand's code (R73, R75). -/
def Pack.int (p : Pack) (mid : Bool) (code : Nat) : Int := match p.fmt with
  | .i8 => sext 8 code
  | .i4 => sext 4 code
  | _ => planeValue code p.planes mid

/-- The exact sum of some values, from the first on (R81). -/
def sumFv : List FV → FV
  | [] => .fin false 0 0
  | x :: r => r.foldl (FV.add .rn) x

/-- One group's step on a W40 element: one rounding (R80). -/
def stepW (c : Nat) (t : FV) : Nat := Fmt.w40.roundRn (FV.add .rn (Fmt.w40.value c) t)

/-- One group's step on a K40 element: the new value, and whether it was clamped (R78, R80). -/
def stepK (c : Nat) (x : Int) : Nat × Bool :=
  let v := sext 40 c + x
  let w := sat v (-549755813888) 549755813887
  (wrap 40 w, w != v)

/-- The positions of the groups along K (R80). -/
def Along.groups (x : Along) : List Nat := (upto 0 (x.k / x.d)).map fun i => x.k0 + i * x.d

/-- A row of operand codes along K. -/
def Along.codes (x : Along) (p : Pack) (rd : Nat → Nat) (off : Nat) : List Nat := (upto x.k0 x.k).map fun k => p.code rd off k

/-- An element after a matrix word: its value, and whether a clamp was made. -/
def matElem (float : Bool) (x : Along) (pa pb : Pack) (midA midB : Bool) (as bs : List Nat) (sa sb : List FV)
    (c : Nat) : Nat × Bool :=
  ((upto 0 (x.k / x.d)).foldl (fun (acc : Nat × Bool) g =>
    let ai := (as.drop (g * x.d)).take x.d
    let bi := (bs.drop (g * x.d)).take x.d
    if float then
      let sum := sumFv ((ai.zip bi).map fun y => FV.mul (pa.fv y.1) (pb.fv y.2))
      let t := FV.mul (FV.mul sum (nth sa g (.fin false 1 0))) (nth sb g (.fin false 1 0))
      (stepW acc.1 t, acc.2)
    else
      let sum := (ai.zip bi).foldl (fun (n : Int) y => n + pa.int midA y.1 * pb.int midB y.2) 0
      let r := stepK acc.1 sum
      (r.1, acc.2 || r.2)) (c, false))

/-- The tile after a matrix word (R245). -/
def matTile (b : Block) (p : Part) (m : MatReq) (t : Tile) : Tile :=
  let r := rrecOf m.record
  let pa := cfgPack m.cfg
  let pb := r.pack
  let x := alongOf pa pb m.slice
  let float := pa.float
  let buf := p.obuf.readN r.start (64 * r.units)
  let rdB (a : Nat) : Nat := (nth buf a 0).toNat
  let rdA (a : Nat) : Nat := (b.spad.read a).toNat
  let one : FV := .fin false 1 0
  let cols := (upto 0 32).map fun j => (x.codes pb rdB (j * r.cb),
    x.groups.map fun g => if bScaled m.cfg r then scaleValue (rdA (scaleB r g j)) else one)
  let t : Tile := { t with tag := some (!float), sat := if m.zero then false else t.sat }
  m.rows.foldl (fun (t : Tile) y =>
    let as := x.codes pa rdA y.2
    let sa := x.groups.map fun g => if aScaled m.cfg then scaleValue (rdA (scaleA m.cfg y.2 g).toNat) else one
    (colsOf m.diag y.1).foldl (fun (t : Tile) j =>
      let e := 32 * y.1 + j
      let col := nth cols j ([], [])
      let c := if m.zero then 0 else (t.elem e).toNat
      let v := matElem float x pa pb (bit m.cfg.toNat 8) r.mid as col.1 sa col.2 c
      { t.setElem e (BitVec.ofNat 40 v.1) with sat := t.sat || v.2 }) t) t

/-- A request has been performed: it is kept until its issuers have waited for it (R130). -/
def State.engFinish (s : State) (bid : Nat) (r : EReq) : State :=
  if r.issuers.isEmpty then s.dropReq bid r.rid else s.setReq bid { r with fin := true }

/-- The scratchpad ranges the gather reads for a matrix word: A rows and scales (R244, R245). -/
def MatReq.reads (m : MatReq) : List (Nat × Nat) :=
  let r := rrecOf m.record
  let p := cfgPack m.cfg
  let x := alongOf p r.pack m.slice
  m.rows.flatMap fun y => sliceOf p x y.2 :: x.groups.flatMap fun g =>
    (if aScaled m.cfg then [((scaleA m.cfg y.2 g).toNat, 1)] else []) ++
    (if bScaled m.cfg r then (colsOf m.diag y.1).map fun j => (scaleB r g j, 1) else [])

/-- What a disturbed matrix word does that its mask lets act: the elements it updates hold undefined values, and its flag is
set where a clamp would set it (R130, R245, R246). -/
def MatReq.scramble (m : MatReq) (nonce : Nat) (t : Tile) : Tile :=
  let float := (cfgPack m.cfg).float
  { t.freeElems nonce m.elems with
    tag := some (!float)
    sat := (t.sat && !m.zero) || (!float && bit (Config.freeWord (nonce + 1024)).toNat 0) }

/-- MATRIX_PERFORM (R80, R130, R245): a word whose mask bit is clear leaves the tile untouched, at once; else it is the oldest
matrix word on its tile, and no fill of its reservation issued before it is under way. A disturbed one leaves undefined values
(R130, R246), also where it is the mask register that was disturbed. What it gathers counts as read (R131). A gather of data whose check fails is a storage error (R110,
R111). -/
def execMatrixPerform (bid rid : Nat) (s : State) : Host.Outcome State Fault Refusal :=
  .next (match s.eng? bid rid with
    | none => s
    | some x =>
      match x.r.kind with
      | .matrix m =>
        let before (p : EKind → Bool) : Bool := x.b.eng.any fun r => decide (r.rid < rid) && !r.fin && r.part == x.r.part && p r.kind
        let onTile' := before fun k => match k with
          | .matrix k => k.tile == m.tile
          | _ => false
        let filling := before fun k => match k with
          | .fill o _ => o == m.resv
          | _ => false
        let p := nth x.b.parts x.r.part ⟨[], [], [], 0, []⟩
        let onTile (f : Block → Tile → Tile) : State :=
          s.onBlock bid fun b => b.onPart x.r.part fun q => q.onTile m.tile (f b)
        let key := (rrecOf m.record).keyTile
        if m.mask < 7 ∧ bit (nth p.masks m.mask 0).toNat key = false then
          s.engFinish bid { x.r with kind := .matrix { m with rows := [] } }
        else if onTile' then s
        else if m.mask = 8 then
          let all := m.scramble s.free
          let some' (t : Tile) : Tile := t.freeElems s.free m.elems
          ((onTile fun _ => if bit (Config.freeWord (s.free + 1025)).toNat 0 then all else some').spend 2048).engFinish bid x.r
        else if filling then s
        else if x.r.undef then ((onTile fun _ => m.scramble s.free).spend 2048).engFinish bid x.r
        else match x.b.spadBad m.reads with
          | some va => s.engFault x x.r.readAcc va 9 0
          | none => (m.reads.foldl (fun (s : State) y => s.touchOuts bid y.1 y.2) (onTile fun b => matTile b p m)).engFinish bid x.r
      | _ => s)

/-! ### Configuration and tile words (R241, R248, R249) -/

/-- Change the acting partition's registers. -/
def State.onMyPart (s : State) (e : Env) (f : Part → Part) : State := s.onBlock e.bid fun b => b.onPart e.part f

/-- MCFG (R241). -/
def execMcfg (a : RegN) (st : BitVec 2) (s : State) : Host.Outcome State Fault Refusal :=
  s.groupWord [(a, false)] (fun e => { pre := roleTrap [2] e }) st fun s e =>
    let v := BitVec.ofNat 32 (e.lead a)
    if cfgOk v then .done (s.onMyPart e fun p => { p with mcfg := v }) e
    else .trap 11 (BitVec.ofNat 64 e.unit.word) e.count

/-- MZERO (R248). -/
def execMzero (tile : BitVec 4) (k40 : Bool) (st : BitVec 2) (s : State) : Host.Outcome State Fault Refusal :=
  let t := tile.toNat
  s.groupWord [] (fun e => { pre := roleTrap [2] e, post := tileTrap t e }) st fun s e =>
    let s := s.onMyPart e fun p => p.onTile t fun _ => ⟨some k40, false, none, []⟩
    .done ((s.tileUsed e t).tileWritten e t) e

/-- What MREAD gives of a tile's element; none while the tag is undefined (R52, R249), and, at the word, while a matrix word
on the tile has not been waited for (R130). -/
def Tile.readAs (t : Tile) (mode : MreadMode) (e : Nat) : Option Nat :=
  let x := (t.elem e).toNat
  match mode, t.tag with
  | _, none => none
  | .v, some true => some (wrap 32 (Sys2Proof.Machine.sat (sext 40 x) (-2147483648) 2147483647))
  | .v, some false => some (Fmt.f32.roundRn (Fmt.w40.value x))
  | .lo, some _ => some (x % 2 ^ 32)
  | .hi, some _ => some (x / 2 ^ 32)
  | .sat, some _ => some (if t.sat then 1 else 0)

/-- MREAD (R249): element (lane, column) as the tile stands; .sat is the same for every member. -/
def execMread (d a : RegN) (tile : BitVec 4) (mode : MreadMode) (st : BitVec 2) (s : State) :
    Host.Outcome State Fault Refusal :=
  let t := tile.toNat
  let whole := mode == .sat
  s.runWord (fun e => { dsts := [d.toNat], srcs := if whole then [] else [a.toNat], pre := roleTrap [2, 3] e
                        post := tileTrap t e, lat := none, gap := gapOf st none }) fun s e =>
    if e.grp.span && !e.solo && !whole && decide (1 < e.count) then .expand
    else
      let open' := ((s.block? e.bid).map fun b => b.tilePending e.part t).getD false
      let s := s.tileUsed e t
      let x := (s.myPart e).tile t
      let v (p : Nat) : Nat :=
        (if open' then none else x.readAs mode (32 * e.laneOf p + e.val false a.toNat p % 32)).getD
          (let k := if whole then 0 else e.laneOf p
           (lo64 (Config.freeWord (s.free + k))).toNat % (if whole then 2 else if mode == .hi then 256 else 2 ^ 32))
      let r := if whole then e.sameWord false (v e.first)
        else if e.grp.span then .form (toW32 (v 0)) 0 else lanesRes false fun p => (v p : Int)
      .done (s.spend 32) (e.write d.toNat r)

/-- MWRITE (R248). -/
def execMwrite (tile : BitVec 4) (a b : RegN) (i32 : Bool) (st : BitVec 2) (s : State) :
    Host.Outcome State Fault Refusal :=
  let t := tile.toNat
  s.runWord (fun e => { srcs := [a.toNat, b.toNat], pre := roleTrap [2, 3] e, post := tileTrap t e, lat := none
                        gap := gapOf st none }) fun s e =>
    if e.grp.span && !e.solo && decide (1 < e.count) then .expand
    else
      let v (p : Nat) : Nat :=
        let x := e.val false a.toNat p
        if i32 then wrap 40 (sext 32 x) else Fmt.w40.roundRn (Fmt.f32.value x)
      let s := s.onMyPart e fun p => p.onTile t fun x =>
        { e.members.foldl (fun (x : Tile) p =>
            x.setElem (32 * e.laneOf p + e.val false b.toNat p % 32) (BitVec.ofNat 40 (v p))) x with
          tag := some i32, sat := false }
      .done ((s.tileUsed e t).tileWritten e t) e

/-! ### MDRAIN (R250) -/

/-- A drain control value is legal for a tile type (R250). -/
def drainOk (ctl : Nat) (k40 add : Bool) : Bool :=
  let f := bits ctl 27 24
  let o := bit ctl 28
  bits ctl 31 29 == 0 && bits ctl 23 0 == 0 &&
    (if add then f == (if k40 then 11 else 0) && !o
     else if k40 then (f == 11 || f == 7) && !o
     else decide (f ≤ 6) && !(o && (f == 5 || f == 6)))

/-- The destination code of an element (R70, R71, R250). -/
def drainCode (ctl : Nat) (k40 : Bool) (x : W40) : Nat :=
  let f := bits ctl 27 24
  if k40 then
    if f = 7 then wrap 8 (sat (sext 40 x.toNat) (-128) 127)
    else wrap 32 (sat (sext 40 x.toNat) (-2147483648) 2147483647)
  else match EFmt.ofCode f with
    | some (.fp g) => g.convert false .rn (bit ctl 28) (w40Value x)
    | _ => 0

/-- Bytes of a drained row. -/
def drainBytes (ctl : Nat) : Nat := 4 * (((EFmt.ofCode (bits ctl 27 24)).map EFmt.bitsOf).getD 32)

/-- The bytes of a row of codes of w bits (R63). -/
def packCodes (w : Nat) (cs : List Nat) : List Byte :=
  leBytes (cs.length * w / 8) (cs.foldr (fun c x => c + 2 ^ w * x) 0)

/-- The 4-byte elements of a row at an address. -/
def rowVas (va : Nat) : List Nat := (upto 0 32).map fun j => va + 4 * j

/-- An MDRAIN with add-on-store, translated at issue as a store is (R250): one entry of the threads' queue. -/
def State.drainAdd (s : State) (e : Env) (k40 : Bool) (t : Nat) (va : Nat → Nat) (elem : Nat → Nat → W40) : Eff :=
  let w := e.members.foldl (fun (w : Walked) p =>
    (rowVas (va p)).foldl (fun w a => Walked.one e e.ctx .readWrite 4 w p a) w) (⟨s, [], [], [], false⟩ : Walked)
  if w.later then .wait
  else match w.fails with
  | (_, v, k, l) :: _ => .fault w.s k l 6 (BitVec.ofNat 64 v) (dedup (w.fails.map (·.1)))
  | [] =>
    if !w.chip.isEmpty then .trap 4 (BitVec.ofNat 64 e.unit.word) (dedup w.chip).length
    else if !w.els.all (e.reaches w.s) then .wait
    else
      let es := w.els.map fun x =>
        (⟨e.idx x.pos, BitVec.ofNat 64 x.va, x.loc, leBytes 5 (elem x.pos ((x.va - va x.pos) / 4)).toNat, x.mig, 0⟩ : SqElem)
      let q : SqEntry := ⟨.addon k40 t, es, w.s.tick, e.origin, e.members.map e.idx, []⟩
      .done w.s { e with grp := { e.grp with stq := e.grp.stq ++ [q] } }

/-- A plain MDRAIN: a request per member, its bytes read at issue (R128, R250). -/
def State.drainPlain (s : State) (e : Env) (t : Nat) (va : Nat → Nat) (bytes : Nat → List Byte) : State :=
  e.members.foldl (fun (s : State) p =>
    let bs := bytes p
    let l := clocOf (va p)
    let secs := ((upto 0 bs.length).zip bs).foldl (fun l' y =>
      addMove s.free ⟨l.add y.1, 0xFF, .zero, some (some y.2), []⟩ l') []
    s.engIssue e (.drain t (e.idx p) secs) [] [] false) s

/-- MDRAIN (R250): each member's row; while the tag is undefined either type's rules, chosen freely, and undefined values
(R52). -/
def execMdrain (tile : BitVec 4) (a b : RegN) (add : Bool) (st : BitVec 2) (s : State) :
    Host.Outcome State Fault Refusal :=
  let t := tile.toNat
  s.runWord (fun e => { srcs := regsOf true a.toNat, firsts := [b.toNat], pre := roleTrap [2, 3] e, post := tileTrap t e
                        lat := none, gap := gapOf st none }) fun s e =>
    if e.grp.span && !e.solo && decide (1 < e.count) then .expand
    else
      let va (p : Nat) : Nat := e.val true a.toNat p
      let ctl := e.lead b
      let n := if add then 128 else drainBytes ctl
      let x := (s.myPart e).tile t
      let k40 := x.tag.getD (bit (Config.freeWord s.free).toNat 0)
      let mis := e.members.filter fun p => va p % 8 ≠ 0
      let out := e.members.filter fun p => !addrOk e.spadLen 0 (va p) n true
      let own := match e.launch with
        | some l => e.members.filter fun p => vwin (va p) == .global &&
            (upto (va p / 64) ((va p + n - 1) / 64 + 1 - va p / 64)).any fun k => l.ownFault e.num (64 * k)
        | none => []
      if !mis.isEmpty then .trap 7 (BitVec.ofNat 64 (va (mis.headD 0))) mis.length
      else if !out.isEmpty then .trap 8 (BitVec.ofNat 64 (va (out.headD 0))) out.length
      else if !drainOk ctl k40 add then .trap 11 (BitVec.ofNat 64 e.unit.word) e.count
      else if !own.isEmpty then .fault s 8 0 6 (BitVec.ofNat 64 (va (own.headD 0))) own
      else if s.fenced e then .wait
      else
        let open' := ((s.block? e.bid).map fun b => b.tilePending e.part t).getD false
        let s := (s.spend 2).tileUsed e t
        let x := (s.myPart e).tile t
        let known := x.tag.isSome && !open'
        let f0 := s.free
        let elem (p j : Nat) : W40 :=
          let k := 32 * e.laneOf p + j
          if known then x.elem k else BitVec.ofNat 40 (Config.freeWord (f0 + k)).toNat
        let s := s.spend 4096
        if add then s.drainAdd e k40 t va elem
        else
          let bytes (p : Nat) : List Byte :=
            if known then packCodes (n / 4) ((upto 0 32).map fun j => drainCode ctl k40 (elem p j))
            else freeBytes (f0 + 1024 + 128 * e.laneOf p) n
          .done (s.drainPlain e t va bytes) e

/-! ### MWAIT and OFENCE (R129, R130, R251) -/

/-- A request of the acting threads that a wait names. -/
def Env.issued (e : Env) (r : EReq) : Bool := e.members.any fun p => r.issuers.contains (e.idx p)

/-- The acting threads have waited for their requests that satisfy a test: performed ones are let go. -/
def State.waited (s : State) (e : Env) (p : EReq → Bool) : State :=
  let keep (r : EReq) : Option EReq :=
    if p r && e.issued r then
      match r.issuers.filter fun i => !e.members.any fun q => e.idx q == i with
      | [] => none
      | is => some { r with issuers := is }
    else some r
  s.onBlock e.bid fun b => { b with eng := b.eng.filterMap keep }

/-- A matrix word or drain on a tile, or on any. -/
def EReq.onTile (r : EReq) (t : Option Nat) : Bool := match r.kind with
  | .matrix m => t.isNone || t == some m.tile
  | .drain k _ _ => t.isNone || t == some k
  | _ => false

/-- An add-on-store of a tile, or of any, by an index. -/
def SqEntry.drains (q : SqEntry) (t : Option Nat) (i : Nat) : Bool :=
  (match q.kind with
    | .addon _ k => t.isNone || t == some k
    | _ => false) && q.elems.any fun x => x.idx == i

/-- MWAIT (R130, R133, R251): until every matrix word and drain of the acting threads on the tile, or on every tile, is done;
the threads have then observed their drains. -/
def execMwait (tile : BitVec 4) (all : Bool) (st : BitVec 2) (s : State) : Host.Outcome State Fault Refusal :=
  let t : Option Nat := if all then none else some tile.toNat
  s.groupWord [] (fun e => { pre := roleTrap [2, 3] e, post := if all then none else tileTrap tile.toNat e }) st fun s e =>
    let eng := ((s.block? e.bid).map (·.eng)).getD []
    let busy := eng.any (fun r => !r.fin && r.onTile t && e.issued r) || e.members.any fun p =>
      e.grp.stq.any (fun q => q.drains t (e.idx p)) || s.homeq.any fun h => h.bid == e.bid && h.entry.drains t (e.idx p)
    let seen : Await → Bool
      | .tile k => t.isNone || t == some k
      | _ => false
    if busy then .wait
    else .done ((s.waited e fun r => r.onTile t).onBlock e.bid fun b => e.members.foldl (fun (b : Block) p =>
      b.observe (e.idx p) seen) b) e

/-- OFENCE (R129): until every earlier scratchpad entry of the acting threads has reached the core point. -/
def execOfence (st : BitVec 2) (s : State) : Host.Outcome State Fault Refusal :=
  s.groupWord [] (fun e => { pre := roleTrap [2] e }) st fun s e =>
    let spad (q : SqEntry) : Bool := q.elems.any fun x => e.members.any (fun p => e.idx p == x.idx) && (match x.loc with
      | .spad _ => true
      | _ => false)
    if e.grp.stq.any spad || s.homeq.any (fun h => h.bid == e.bid && spad h.entry) then .wait else .done s e

end Sys2Proof.Machine
end

