-- ==== Sys2Proof/Machine/Copy.lean ====
section
/-! DEFINITION. Reservations (R99, R100, R252 to R254), copies and fetches at issue (R102 to R105, R240, R255 to R257), and
the completion of a fill (R253). -/

namespace Sys2Proof.Machine

/-! ### Extents (R87, R240) -/

/-- The address ranges a copy reads of a box row, or writes through the handle: a compressed row's bitmap and as much of
its dense row as its values could take. -/
def Handle.ranges (h : Handle) (c : List Nat) : List (Nat × Nat) :=
  let ne := h.inside c
  let c0 := nth c 0 0
  let w := h.pack.fmt.bitsOf
  if ne = 0 then []
  else if h.comp then [(h.rowMap c, cdiv (c0 + ne) 8), (h.rowBase c, (c0 + ne) * h.esz)]
  else if h.pack.plane then [(h.rowAddr c, h.pack.bytes ne)]
  else [(h.rowBase c + c0 * w / 8, cdiv (c0 * w % 8 + ne * w) 8)]

/-- The first of some ranges that an engine of a block with s bytes of scratchpad may not reach. -/
def rangeOut (s : Nat) (write : Bool) (l : List (Nat × Nat)) : Option Nat :=
  (l.find? fun x => !addrOk s 0 x.1 x.2 write).map (·.1)

/-- The first of some scratchpad ranges that leaves s bytes. -/
def spadOut (s : Nat) (l : List (Nat × Nat)) : Option Nat := (l.find? fun x => decide (s < x.1 + x.2)).map (·.1)

/-- The dimension-0 coordinate suits plane integers (R102). -/
def Handle.coordOk (h : Handle) (c : List Nat) : Bool := !h.pack.plane || nth c 0 0 % h.pack.len == 0

/-! ### Reservations (R252 to R254) -/

/-- A reservation trap: its operand is the word. -/
def Env.resvTrap (e : Env) : Eff := .trap 12 (BitVec.ofNat 64 e.unit.word) e.count

/-- Fills of a reservation of the acting partition are abandoned (R254). -/
def State.dropFill (s : State) (e : Env) (o : Nat) : State :=
  s.onBlock e.bid fun b => { b with eng := b.eng.filter fun r => !(r.part == e.part && (match r.kind with
    | .fill k _ => k == o
    | _ => false)) }

/-- A released reservation is no longer what copies under way fill: another may take its number (R246, R254). -/
def State.forgetFill (s : State) (e : Env) (o : Nat) : State :=
  let fix (r : EReq) : EReq := match r.kind with
    | .copy t p f (some k) secs => if r.part == e.part && k == o then { r with kind := .copy t p f none secs } else r
    | _ => r
  s.onBlock e.bid fun b => { b with eng := b.eng.map fix }

/-- A reservation's binding changes or ends: matrix words on it are disturbed (R130). -/
def State.resvUsed (s : State) (e : Env) (o : Nat) : State :=
  s.disturb e.bid fun r => r.part == e.part && (match r.kind with
    | .matrix m => m.resv == o
    | _ => false)

/-- Set a reservation of the acting partition. -/
def State.setResv (s : State) (e : Env) (o : Nat) (v : Option Resv) : State :=
  s.onMyPart e fun p => { p with resv := p.resv.set o v }

/-- The operand fetcher starts to fill a range from a handle (R253). -/
def State.startFill (s : State) (e : Env) (o : Nat) (r : RRec) (h : Handle) : State :=
  let ms := r.fills h r.coords
  (s.spend ms.length).engIssue e (.fill o (planSecs s.free [] ms)) [] [] false

/-- The binding checks of a record, then what follows: with BOUND = 1 its handle (R102, R105, R252). `bad`: the word breaks a rule
whose breach is a reservation trap, which the extent of what the handle names goes before (R240). -/
def State.bindWith (s : State) (e : Env) (bad : Bool) (r : RRec) (f : State → Option Handle → Eff) : Eff :=
  if !r.bound then (if bad then e.resvTrap else f s none)
  else match s.handleAt e r.handle with
    | .bad x => if bad then e.resvTrap else x
    | .entry s h =>
      let ls := if h.peer then [] else ((h.rows r.coords).take 32).flatMap h.ranges
      match rangeOut e.spadLen false ls with
      | some a => .trap 8 (BitVec.ofNat 64 a) e.count
      | none =>
        if bad then e.resvTrap
        else if h.peer || !h.coordOk r.coords then e.handleTrap r.handle
        else if !bindOk h r then e.resvTrap
        else f s (some h)

/-- A binding takes effect: a fill starts where there is a handle (log 52, DEDUCED). -/
def State.bindNow (s : State) (e : Env) (o : Nat) (r : RRec) : Option Handle → State
  | some h => s.startFill e o r h
  | none => s

/-- OBRES (R99, R100, R252). -/
def execObres (resv : BitVec 4) (a : RegN) (st : BitVec 2) (s : State) : Host.Outcome State Fault Refusal :=
  s.groupWord [(a, false)] (fun e => { pre := roleTrap [2] e }) st fun s e =>
    s.recordAt e (e.lead a) fun s _ x =>
      let o := resv.toNat
      let p := s.myPart e
      let rec' := BitVec.ofNat 256 x
      let live := p.resv.filterMap fun v => v.map fun y => rrecOf y.record
      let bad := (p.res o).isSome || !resvOk rec' (e.ofLaunch Launch.obuf) live
      let r := rrecOf rec'
      s.bindWith e bad r fun s h => .done ((s.setResv e o (some ⟨rec', false, none, []⟩)).bindNow e o r h) e

/-- A reservation with a new binding (R254): bound, its range is filled anew; unbound, it keeps its bytes, and stands as filled
as it was (log 52, DEDUCED). -/
def Resv.rebound (v : Resv) (rec' : BitVec 256) : Resv :=
  if (rrecOf rec').bound then ⟨rec', false, none, []⟩ else { v with record := rec' }

/-- OBBIND (R254). -/
def execObbind (resv : BitVec 4) (a : RegN) (st : BitVec 2) (s : State) : Host.Outcome State Fault Refusal :=
  s.groupWord [(a, false)] (fun e => { pre := roleTrap [2] e }) st fun s e =>
    s.recordAt e (e.lead a) fun s _ x =>
      let o := resv.toNat
      match (s.myPart e).res o with
      | none => s.bindWith e true (rrecOf (BitVec.ofNat 256 x)) fun _ _ => e.resvTrap
      | some v =>
        let rec' := rebind v.record (BitVec.ofNat 256 x)
        let r := rrecOf rec'
        s.bindWith e false r fun s h =>
          let s := (s.resvUsed e o).dropFill e o
          .done ((s.setResv e o (some (v.rebound rec'))).bindNow e o r h) e

/-- OBREL (R254). -/
def execObrel (resv : BitVec 4) (st : BitVec 2) (s : State) : Host.Outcome State Fault Refusal :=
  s.groupWord [] (fun e => { pre := roleTrap [2] e }) st fun s e =>
    let o := resv.toNat
    .done ((((s.resvUsed e o).dropFill e o).forgetFill e o).setResv e o none) e

/-- RESERVATION_FILL (R253): every unit of the range has been written; matrix words on the reservation go on. -/
def execReservationFill (bid rid : Nat) (s : State) : Host.Outcome State Fault Refusal :=
  .next (match s.eng? bid rid with
    | none => s
    | some x =>
      match x.r.kind with
      | .fill o secs =>
        if secs.any fun c => !c.fin then s
        else (s.dropReq bid rid).onBlock bid fun b => b.onPart x.r.part fun p =>
          { p with resv := p.resv.set o ((p.res o).map fun v => { v with filled := true, await := none, seen := [] }) }
      | _ => s)

/-! ### Copies and fetches (R255 to R257) -/

/-- The three words. -/
inductive CopyWord where
  | cpy | cpys | fetch
deriving DecidableEq, Repr

/-- A row a word moves: an acting position, its coordinates, its scratchpad offset. -/
structure CopyRow where
  pos : Nat
  coords : List Nat
  off : Nat
deriving DecidableEq, Repr

/-- The rows of a word; FETCH has one per member, at its own dimension-1 coordinate (R256). -/
def CDesc.rows (d : CDesc) (k : CopyWord) (e : Env) (h : Handle) (c1 : Nat → Nat) : List CopyRow :=
  match k with
  | .fetch =>
    if h.boxAt 0 = 0 then []
    else e.members.map fun p =>
      ⟨p, [nth d.coords 0 0, c1 p, nth d.coords 2 0, nth d.coords 3 0, nth d.coords 4 0], d.spad + e.laneOf p * d.pitch⟩
  | _ =>
    let rs := h.rows d.coords
    ((upto 0 rs.length).zip rs).map fun x => ⟨e.first, x.2, d.spad + x.1 * d.pitch⟩

/-- The peer block a handle names (R105): one of this launch that has not ended, of the same rank. -/
def State.peerOf (s : State) (b : Block) (h : Handle) : Option Nat :=
  (s.blocks.find? fun x => x.lid == b.lid && x.num == h.base / 2 ^ 24 && x.rank == b.rank && x.st != .ended).map (·.bid)

/-- A word breaks the rules whose breach is a copy trap (R255); a field that TOOB makes zero is one (log 101, DEDUCED). -/
def CDesc.bad (d : CDesc) (k : CopyWord) (h : Handle) (arv : Bool) : Bool :=
  let w := h.pack.fmt.bitsOf
  let step := if w = 4 then 2 else if w = 6 then 4 else 1
  let c0 := nth d.coords 0 0
  let rows := h.boxAt 1 * h.boxAt 2 * h.boxAt 3 * h.boxAt 4
  d.reserved != 0 ||
  (d.toob && (k != .cpy || d.spad != 0 || d.pitch != 0 || d.dplanes != 0)) ||
  (if h.pack.plane then d.dplanes != 0 && (decide (d.dplanes < 2) || decide (h.pack.planes < d.dplanes))
    else d.dplanes != 0) ||
  (!d.toob && k != .fetch && decide (1 < rows) && decide (d.pitch < (d.pack h).bytes (h.boxAt 0))) ||
  (!h.pack.plane && (c0 % step != 0 || h.boxAt 0 % step != 0)) ||
  (k == .fetch && nth d.coords 1 0 != 0) ||
  (arv && d.bar.isNone)

/-- The first range of a row that lies where the word may not reach (R240). -/
def CDesc.rowOut (d : CDesc) (k : CopyWord) (e : Env) (h : Handle) (r : CopyRow) : Option Nat :=
  let n := match k with
    | .cpys => h.inside r.coords
    | _ => h.boxAt 0
  let own : List (Nat × Nat) := if d.toob then [] else [(r.off, (d.pack h).bytes n)]
  let far : Option Nat :=
    if !h.peer then rangeOut e.spadLen (k == .cpys) (h.ranges r.coords)
    else if k != .cpys then none
    else if h.comp then
      (rangeOut e.spadLen true ((h.ranges r.coords).take 1)).or (spadOut e.spadLen ((h.ranges r.coords).drop 1))
    else spadOut e.spadLen (h.ranges r.coords)
  (spadOut e.spadLen (own.filter (·.2 != 0))).or far

/-- The first line of the launch's other blocks, or of none, that a row would write (R135, R225). -/
def ownOut (l : Launch) (num : Nat) (xs : List (Nat × Nat)) : Option Nat :=
  let lines := (xs.filter fun x => vwin x.1 == .global).flatMap fun x =>
    (upto (x.1 / 64) ((x.1 + x.2 - 1) / 64 + 1 - x.1 / 64)).map fun k => max x.1 (64 * k)
  lines.find? fun a => l.ownFault num a

/-- The sectors a word moves. -/
def CDesc.plan (d : CDesc) (k : CopyWord) (h : Handle) (peer : Option Nat) (nonce : Nat) (rows : List CopyRow) :
    List CSec :=
  let kp := (d.pack h).planes
  match k with
  | .cpys =>
    planSecs nonce (rows.flatMap fun r => h.foot peer r.coords) (rows.flatMap fun r => h.writes peer kp r.coords r.off)
  | _ => planSecs nonce [] (rows.flatMap fun r => layRow (.spad r.off) (h.reads kp r.coords))

/-- A copy takes effect at issue (R91, R95, R128, R257): presence bits, its request, its barrier's update; with nothing
to move it completes at once. -/
def State.copyIssue (s : State) (e : Env) (k : CopyWord) (d : CDesc) (arv : Bool) (h : Handle) (peer : Option Nat)
    (rows : List CopyRow) : State :=
  let resv : Option Resv := if d.toob then (s.myPart e).res d.resv else none
  let r? : Option RRec := resv.map fun v => rrecOf v.record
  let tbs := ((s.block? e.bid).map (·.tbs)).getD []
  let s := match r? with
    | some r =>
      if h.empty then
        -- nothing arrives: the range is zero at once
        s.onMyPart e fun p =>
          let zeros := p.obuf.writeN r.start (List.replicate (64 * r.units) 0)
          { p with obuf := zeros, resv := p.resv.set d.resv (resv.map fun (v : Resv) =>
            { v with filled := true, await := some ((d.bar.map fun t => Await.phase t (look tbs t 0)).getD .never)
                     seen := [] }) }
      else s
    | none => s
  let secs : List CSec := match r? with
    | some r => if h.empty then [] else planSecs s.free [] (r.fills h d.coords)
    | none => d.plan k h peer s.free rows
  let s := s.spend (secs.foldl (fun n (x : CSec) => n + x.moves.length) 0)
  let s := s.onBlock e.bid fun b => (spadSecs secs).foldl Block.await b
  let s := if secs.isEmpty then s
    else s.engIssue e (.copy d.bar peer (k == .fetch) (if d.toob then some d.resv else none) secs) [] [] false
  match d.bar, peer with
  | some t, none => s.tbApply e.bid t (if arv then 1 else 0) secs.length
  | _, _ => s

/-- The checks of CPY, CPYS and FETCH past their descriptor, in the order of R240, and their issue (log 51, DEDUCED). -/
def State.copy (s : State) (e : Env) (b : Block) (k : CopyWord) (d : CDesc) (arv : Bool) (c1 : Nat → Nat) : Eff :=
  let t := (d.bar.map fun t => [t]).getD []
  match ([d.spad, d.pitch] ++ t).find? fun x => x % 16 != 0, t.find? fun x => decide (e.spadLen < x + 16) with
  | some x, _ => .trap 7 (BitVec.ofNat 64 x) e.count
  | _, some x => .trap 8 (BitVec.ofNat 64 x) e.count
  | none, none =>
    match s.handleAt e d.handle with
    | .bad x => x
    | .entry s h =>
      let rows := d.rows k e h c1
      let out := rows.filter fun r => (d.rowOut k e h r).isSome
      let peer := s.peerOf b h
      let wrongPeer := h.peer && (k != .cpys || e.ofLaunch Launch.progress != 2 || peer.isNone)
      let resv := (s.myPart e).res d.resv
      let resvBad := match resv with
        | none => true
        | some v => (rrecOf v.record).bound || !bindOk h (rrecOf v.record)
      let own : Option Nat := match e.launch with
        | some l => if k != .cpys || h.peer then none else ownOut l e.num (rows.flatMap fun r => h.ranges r.coords)
        | none => none
      match out with
      | r :: _ =>
        .trap 8 (BitVec.ofNat 64 ((d.rowOut k e h r).getD 0)) (if k == .fetch then out.length else e.count)
      | [] =>
        if !h.coordOk d.coords || wrongPeer then e.handleTrap d.handle
        else if d.bad k h arv then .trap 14 (BitVec.ofNat 64 0) e.count
        else if d.toob && resvBad then e.resvTrap
        else match own with
          | some a => .fault s 8 0 6 (BitVec.ofNat 64 a) e.members
          | none => .done (s.copyIssue e k d arv h (if h.peer then peer else none) rows) e

/-- The descriptor's offset stands in a copy trap's operand (R337). -/
def Eff.copyAt (off : Nat) : Eff → Eff
  | .trap 14 _ n => .trap 14 (BitVec.ofNat 64 off) n
  | x => x

/-- CPY (R256). -/
def execCpy (a : RegN) (arv : Bool) (st : BitVec 2) (s : State) : Host.Outcome State Fault Refusal :=
  s.groupWord [(a, false)] (fun e => { pre := roleTrap [1] e }) st fun s e =>
    s.recordAt e (e.lead a) fun s b x => (s.copy e b .cpy (cdescOf x) arv fun _ => 0).copyAt (e.lead a)

/-- CPYS (R256). -/
def execCpys (a : RegN) (arv : Bool) (st : BitVec 2) (s : State) : Host.Outcome State Fault Refusal :=
  s.groupWord [(a, false)] (fun e => { pre := roleTrap [1] e }) st fun s e =>
    s.recordAt e (e.lead a) fun s b x => (s.copy e b .cpys (cdescOf x) arv fun _ => 0).copyAt (e.lead a)

/-- FETCH (R256). -/
def execFetch (a b : RegN) (arv : Bool) (st : BitVec 2) (s : State) : Host.Outcome State Fault Refusal :=
  s.groupWord [(a, false)] (fun e => { pre := roleTrap [1] e, srcs := [b.toNat] }) st fun s e =>
    if e.grp.span && !e.solo && decide (1 < e.count) then .expand
    else s.recordAt e (e.lead a) fun s k x =>
      (s.copy e k .fetch (cdescOf x) arv fun p => e.val false b.toNat p).copyAt (e.lead a)

end Sys2Proof.Machine
end

