-- ==== Sys2Proof/Machine/Sift.lean ====
section
/-! DEFINITION. The SIFT unit (R131, R262 to R267): its words at issue, and performing one. -/

namespace Sys2Proof.Machine

/-! ### Ranges and issue -/

/-- Bytes of a row-maximum table (R263). -/
def tableLen : Nat := 8320

/-- A SIFT trap: its operand is the word (R337). -/
def Env.siftTrap (e : Env) : Eff := .trap 15 (BitVec.ofNat 64 e.unit.word) e.count

/-- Two lists of scratchpad ranges share a byte. -/
def rangesMeet (l m : List (Nat × Nat)) : Bool := l.any fun x => x.2 != 0 && meetsAny (m.filter (·.2 != 0)) x.1 x.2

/-- A request of the SIFT unit. -/
def EReq.isSift (r : EReq) : Bool := match r.kind with
  | .sift _ => true
  | _ => false

/-- The mask register a SIFT word writes. -/
def EReq.maskOf? (r : EReq) : Option Nat := match r.kind with
  | .sift (.mask k _ _) => some k
  | .sift (.clr k _ _) => some k
  | _ => none

/-- A SIFT word is issued (R131, R262), once the engine fences before it have passed (R123). What other threads' words not
yet waited for read or write in common with it, an output laid over an input or another output, and a mask register that
another thread's word not yet waited for writes, leave undefined values. -/
def State.siftIssue (s : State) (e : Env) (op : SiftOp) (ins outs : List (Nat × Nat)) (mask : Option Nat) (undef : Bool) :
    Eff :=
  let mine (r : EReq) : Bool := e.members.any fun p => r.issuers.contains (e.idx p)
  let sameMask (r : EReq) : Bool := mask.isSome && mask != some 7 && r.part == e.part && r.maskOf? == mask
  let crossed (r : EReq) : Bool :=
    r.isSift && !mine r && (rangesMeet ins r.outs || rangesMeet outs r.ins || sameMask r)
  let held := ((s.block? e.bid).map fun b => b.eng.any fun r => crossed r && !r.fin).getD false
  if s.fenced e then .wait else .done ((s.disturb e.bid crossed).engIssue e (.sift op) ins outs (undef || held)) e

/-- The checks of a word's ranges in the scratchpad, in the order of R240: alignment of offsets, then extents. -/
def Env.siftRanges (e : Env) (align : Nat) (l : List (Nat × Nat)) (f : Eff) : Eff :=
  match l.find? fun x => x.1 % align != 0, spadOut e.spadLen (l.filter (·.2 != 0)) with
  | some x, _ => .trap 7 (BitVec.ofNat 64 x.1) e.count
  | none, some a => .trap 8 (BitVec.ofNat 64 a) e.count
  | none, none => f

/-- A matrix word tests a mask register of a block's partition that a SIFT word writes, as it is issued or as it is performed: it
is disturbed, and, not yet performed, does not know whether it acts (R130). -/
def State.maskWritten (s : State) (bid part m : Nat) : State :=
  if m = 7 then s
  else
    let tests (r : EReq) : Bool := r.part == part && (match r.kind with
      | .matrix x => x.mask == m
      | _ => false)
    let lost (r : EReq) : EReq := match r.kind with
      | .matrix x => if r.fin then r else { r with kind := .matrix { x with mask := 8 } }
      | _ => r
    (s.disturb bid tests).onBlock bid fun b => { b with eng := mapIf tests lost b.eng }

/-! ### Table words (R263 to R265) -/

/-- Rows, columns and key tile of an SFMAX control value, if it keeps the limits (R264). -/
def maxCtl (v : Nat) : Option (Nat × Nat × Nat) :=
  let rows := bits v 21 16
  let cols := bits v 13 8
  if bits v 31 22 = 0 ∧ bits v 15 14 = 0 ∧ bits v 7 6 = 0 ∧ 1 ≤ rows ∧ rows ≤ 32 ∧ 1 ≤ cols ∧ cols ≤ 32 then
    some (rows, cols, bits v 5 0)
  else none

/-- Offset of tmax(kt, r) in a table (R263). -/
def tmaxAt (tab kt r : Nat) : Nat := tab + 128 + 128 * kt + 4 * r

/-- SFMAX (R264). -/
def execSfmax (tile : BitVec 4) (a b : RegN) (st : BitVec 2) (s : State) : Host.Outcome State Fault Refusal :=
  let t := tile.toNat
  s.groupWord [(a, false), (b, false)] (fun e => { pre := roleTrap [3] e, post := tileTrap t e }) st fun s e =>
    let tab := e.lead a
    -- the bytes it reads and writes: the table's head, and the key tile's maxima
    let outs : List (Nat × Nat) := match maxCtl (e.lead b) with
      | some (rows, _, kt) => [(tab, 4 * rows), (tmaxAt tab kt 0, 4 * rows)]
      | none => []
    if tab % 16 ≠ 0 then .trap 7 (BitVec.ofNat 64 tab) e.count
    else e.siftRanges 1 outs <|
      if outs.isEmpty then e.siftTrap
      else (s.tileUsed e t).siftIssue e (.max t tab (BitVec.ofNat 32 (e.lead b))) (outs.take 1) outs none
        (((s.block? e.bid).map fun b => b.tilePending e.part t).getD false)

/-- SFMASK (R265). -/
def execSfmask (mreg : PredN) (a b : RegN) (st : BitVec 2) (s : State) : Host.Outcome State Fault Refusal :=
  s.groupWord [(a, false), (b, false)] (fun e => { pre := roleTrap [3] e }) st fun s e =>
    let tab := e.lead a
    e.siftRanges 16 [(tab, tableLen)] <|
      let op : SiftOp := .mask mreg.toNat tab (BitVec.ofNat 32 (e.lead b))
      (s.maskWritten e.bid e.part mreg.toNat).siftIssue e op [(tab, tableLen)] [] (some mreg.toNat) false

/-- SFCLR (R263). -/
def execSfclr (mreg : PredN) (a : RegN) (maskOnly : Bool) (st : BitVec 2) (s : State) :
    Host.Outcome State Fault Refusal :=
  s.groupWord (if maskOnly then [] else [(a, false)]) (fun e => { pre := roleTrap [3] e }) st fun s e =>
    let tab := if maskOnly then 0 else e.lead a
    let outs := if maskOnly then [] else [(tab, tableLen)]
    e.siftRanges 16 outs <|
      (s.maskWritten e.bid e.part mreg.toNat).siftIssue e (.clr mreg.toNat tab maskOnly) [] outs (some mreg.toNat) false

/-! ### Descriptor words (R266, R267) -/

/-- SFTOPK's descriptor (R266). -/
structure TopK where
  k : Nat
  rows : Nat
  cols : Nat
  goff : Nat
  oidx : Nat
  oval : Nat
  idx : Option Nat
  val : Nat
  ok : Bool
deriving DecidableEq, Repr

/-- Its fields. -/
def topkOf (x : Nat) : TopK :=
  let rows := bits x 207 192
  let cols := bits x 191 176
  let idx := bits x 63 32
  ⟨bits x 211 208 + 1, rows, cols, bits x 159 128, bits x 127 96, bits x 95 64,
    if idx = 0xFFFFFFFF then none else some idx, bits x 31 0,
    bits x 255 212 == 0 && bits x 175 160 == 0 && rows != 0 && cols != 0⟩

/-- What it reads. -/
def TopK.ins (d : TopK) : List (Nat × Nat) :=
  let n := 4 * d.rows * d.cols
  (d.val, n) :: (match d.idx with
    | some i => [(i, n)]
    | none => [])

/-- What it writes. -/
def TopK.outs (d : TopK) : List (Nat × Nat) := [(d.oval, 4 * d.k * d.rows), (d.oidx, 4 * d.k * d.rows)]

/-- The descriptor of SFHIST, SFSCAN and SFPERM (R267). -/
structure SiftDesc where
  out2 : Nat
  nb : Nat
  base : Nat
  n : Nat
  out : Nat
  inp : Nat
  ok : Bool
deriving DecidableEq, Repr

/-- Its fields; `ok`: its reserved fields are zero. -/
def siftDescOf (x : Nat) : SiftDesc :=
  ⟨bits x 191 160, bits x 159 144, bits x 127 96, bits x 95 64, bits x 63 32, bits x 31 0,
    bits x 255 192 == 0 && bits x 143 128 == 0⟩

/-- The acting threads' SIFT words that write some range have not completed: what they leave there is read after them
(R262). -/
def State.siftBehind (s : State) (e : Env) (off n : Nat) : Bool :=
  ((s.block? e.bid).map fun b => b.eng.any fun r => r.isSift && !r.fin && e.issued r && meetsAny r.outs off n).getD false

/-- A word that reads a descriptor at an offset (R131, R267), behind the engine fences and SIFT words before it (R123, R262):
the ranges and validity it gives, then the issue. A change of the descriptor from then on disturbs the word as one of its
inputs does. -/
def State.siftDesc (s : State) (e : Env) (off : Nat) (op : BitVec 256 → SiftOp)
    (f : Nat → List (Nat × Nat) × List (Nat × Nat) × Bool) (inPlace : Bool) : Eff :=
  e.siftRanges 32 [(off, 32)] <|
    match s.block? e.bid with
    | none => .wait
    | some b =>
      if s.fenced e || s.siftBehind e off 32 then .wait
      else
      let x := b.spad.nat off 32
      let (ins, outs, ok) := f x
      e.siftRanges 4 (ins ++ outs) <|
        if !ok then e.siftTrap
        else
          let same := inPlace && ins.map (·.1) == outs.map (·.1)
          let selfOver := match outs with
            | [o, p] => rangesMeet [o] [p]
            | _ => false
          let lapped := (!same && rangesMeet ins outs) || rangesMeet [(off, 32)] outs || selfOver
          s.siftIssue e (op (BitVec.ofNat 256 x)) ((off, 32) :: ins) outs none lapped

/-- SFTOPK (R266). -/
def execSftopk (a : RegN) (st : BitVec 2) (s : State) : Host.Outcome State Fault Refusal :=
  s.groupWord [(a, false)] (fun e => { pre := roleTrap [3] e }) st fun s e =>
    s.siftDesc e (e.lead a) .topk (fun x => ((topkOf x).ins, (topkOf x).outs, (topkOf x).ok)) false

/-- SFHIST (R267). -/
def execSfhist (a : RegN) (st : BitVec 2) (s : State) : Host.Outcome State Fault Refusal :=
  s.groupWord [(a, false)] (fun e => { pre := roleTrap [3] e }) st fun s e =>
    s.siftDesc e (e.lead a) .hist (fun x =>
      let d := siftDescOf x
      ([(d.inp, 4 * d.n)], [(d.out, 4 * d.nb)], d.ok && d.out2 == 0 && d.nb != 0)) false

/-- SFSCAN (R267). -/
def execSfscan (a : RegN) (incl : Bool) (st : BitVec 2) (s : State) : Host.Outcome State Fault Refusal :=
  s.groupWord [(a, false)] (fun e => { pre := roleTrap [3] e }) st fun s e =>
    s.siftDesc e (e.lead a) (fun x => .scan x incl) (fun x =>
      let d := siftDescOf x
      ([(d.inp, 4 * d.n)], [(d.out, 4 * (if incl then d.n else d.n + 1))],
        d.ok && d.out2 == 0 && d.nb == 0 && d.base == 0)) incl

/-- SFPERM (R267). -/
def execSfperm (a : RegN) (st : BitVec 2) (s : State) : Host.Outcome State Fault Refusal :=
  s.groupWord [(a, false)] (fun e => { pre := roleTrap [3] e }) st fun s e =>
    s.siftDesc e (e.lead a) .perm (fun x =>
      let d := siftDescOf x
      ([(d.inp, 4 * d.n)], [(d.out, 4 * d.n), (d.out2, 4 * d.n)], d.ok && d.base == 0 && d.nb != 0)) false

/-- SFWAIT (R262): until every SIFT word of the acting threads has completed. -/
def execSfwait (st : BitVec 2) (s : State) : Host.Outcome State Fault Refusal :=
  s.groupWord [] (fun e => { pre := roleTrap [3] e }) st fun s e =>
    let eng := ((s.block? e.bid).map (·.eng)).getD []
    if eng.any fun r => r.isSift && !r.fin && e.issued r then .wait else .done (s.waited e EReq.isSift) e

/-! ### Performing -/

/-- A word of the scratchpad. -/
def Block.word (b : Block) (off : Nat) : Nat := b.spad.nat off 4

/-- n words from an offset. -/
def Block.words (b : Block) (off n : Nat) : List Nat :=
  let bs := b.spad.readN off (4 * n)
  (upto 0 n).map fun i => leNat ((bs.drop (4 * i)).take 4)

/-- Words as bytes. -/
def wordBytes (ws : List Nat) : List Byte := ws.flatMap (leBytes 4)

/-- ToF32 of R264. -/
def siftF32 (k40 : Bool) (x : W40) : Nat :=
  Fmt.f32.roundRn (if k40 then FV.ofInt (sext 40 x.toNat) else w40Value x)

/-- The maximum of some FP32 codes under maximumNumber (R65). -/
def maxOf : List Nat → Nat
  | [] => 0
  | x :: r => r.foldl (Fmt.f32.maxNum false) x

/-- What SFMAX writes (R264): offsets and words. -/
def sfmaxOut (b : Block) (t : Tile) (tab : Nat) (ctl : W32) : List (Nat × List Nat) :=
  match maxCtl ctl.toNat with
  | none => []
  | some (rows, cols, kt) =>
    let k40 := t.tag.getD false
    let xs := (upto 0 rows).map fun r => maxOf ((upto 0 cols).map fun j => siftF32 k40 (t.elem (32 * r + j)))
    let runs := ((upto 0 rows).zip xs).map fun x => Fmt.f32.maxNum false (b.word (tab + 4 * x.1)) x.2
    [(tmaxAt tab kt 0, xs), (tab, runs)]

/-- The test of SFMASK for one row (R265). -/
def sfmaskRow (g run tmax : Nat) : Bool :=
  let t := Fmt.f32.value tmax
  let d := FV.add .rn (Fmt.f32.value run) (FV.negate (Fmt.f32.value g))
  !t.isNan && t != .inf true && !d.isNan && decide (0 ≤ FV.cmp t d)

/-- The mask SFMASK writes. -/
def sfmaskBits (b : Block) (tab : Nat) (g : W32) : W64 :=
  let runs := b.words tab 32
  BitVec.ofNat 64 ((upto 0 64).foldl (fun m kt =>
    let ts := b.words (tmaxAt tab kt 0) 32
    if (runs.zip ts).any fun x => sfmaskRow g.toNat x.1 x.2 then m + 2 ^ kt else m) 0)

/-- An entry of a score row: its code, global index and column. -/
structure Score where
  code : Nat
  gidx : Nat
  col : Nat
deriving DecidableEq, Repr

/-- x ranks before y (R266). -/
def Score.before (x y : Score) : Bool :=
  let a := Fmt.f32.value x.code
  let b := Fmt.f32.value y.code
  let tie := decide (x.gidx < y.gidx) || (x.gidx == y.gidx && decide (x.col < y.col))
  match a.isNan, b.isNan with
  | true, true => tie
  | false, true => true
  | true, false => false
  | false, false =>
    let c := FV.cmp a b
    decide (0 < c) || (c == 0 && tie)

/-- Put an entry in its rank. -/
def Score.insert (x : Score) : List Score → List Score
  | [] => [x]
  | y :: r => if x.before y then x :: y :: r else y :: x.insert r

/-- What SFTOPK writes. -/
def sftopkOut (b : Block) (d : TopK) : List (Nat × List Nat) :=
  (upto 0 d.rows).flatMap fun r =>
    let vals := b.words (d.val + 4 * d.cols * r) d.cols
    let is := match d.idx with
      | some o => b.words (o + 4 * d.cols * r) d.cols
      | none => upto 0 d.cols
    let xs := ((upto 0 d.cols).zip (vals.zip is)).map fun x => (⟨x.2.1, wrap 32 (x.2.2 + d.goff), x.1⟩ : Score)
    let top := (xs.foldl (fun l x => x.insert l) []).take d.k
    let pad := d.k - top.length
    [(d.oval + 4 * d.k * r, top.map (·.code) ++ List.replicate pad 0x7FC00000),
      (d.oidx + 4 * d.k * r, top.map (·.gidx) ++ List.replicate pad 0xFFFFFFFF)]

/-- What SFHIST writes (R267). -/
def sfhistOut (b : Block) (d : SiftDesc) : List (Nat × List Nat) :=
  let keys := (b.words d.inp d.n).map fun x : Nat => wrap 32 ((x : Int) - d.base)
  [(d.out, (upto 0 d.nb).map fun k => (keys.filter (· == k)).length % 2 ^ 32)]

/-- Running sums of some words: before each, and the total. -/
def sumsOf : Nat → List Nat → List Nat
  | t, [] => [t]
  | t, x :: r => t :: sumsOf ((t + x) % 2 ^ 32) r

/-- What SFSCAN writes. -/
def sfscanOut (b : Block) (d : SiftDesc) (incl : Bool) : List (Nat × List Nat) :=
  let l := sumsOf 0 (b.words d.inp d.n)
  [(d.out, if incl then l.drop 1 else l)]

/-- What SFPERM writes. -/
def sfpermOut (b : Block) (d : SiftDesc) : List (Nat × List Nat) :=
  let xs := (upto 0 d.n).zip (b.words d.inp d.n)
  let order := (sortKey (·.2) (xs.filter fun x => decide (x.2 < d.nb))).map (·.1)
  let at' := (upto 0 order.length).zip order
  let pos (i : Nat) : Nat := ((at'.find? fun x => x.2 == i).map (·.1)).getD 0xFFFFFFFF
  [(d.out, (upto 0 d.n).map pos), (d.out2, order ++ List.replicate (d.n - order.length) 0xFFFFFFFF)]

/-- The words a SIFT word writes in the scratchpad. -/
def SiftOp.writes (op : SiftOp) (b : Block) (p : Part) : List (Nat × List Nat) := match op with
  | .max t tab ctl => sfmaxOut b (p.tile t) tab ctl
  | .mask _ _ _ => []
  | .clr _ tab maskOnly => if maskOnly then [] else [(tab, List.replicate 2080 0xFF800000)]
  | .topk d => sftopkOut b (topkOf d.toNat)
  | .hist d => sfhistOut b (siftDescOf d.toNat)
  | .scan d incl => sfscanOut b (siftDescOf d.toNat) incl
  | .perm d => sfpermOut b (siftDescOf d.toNat)

/-- The mask register a SIFT word writes, and its value; m7 discards it (R52). -/
def SiftOp.maskOut (op : SiftOp) (b : Block) : Option (Nat × W64) := match op with
  | .mask m tab g => if m = 7 then none else some (m, sfmaskBits b tab g)
  | .clr m _ _ => if m = 7 then none else some (m, 0)
  | _ => none

/-- A SIFT word reads a tile whose tag is undefined (R52). -/
def SiftOp.untagged (op : SiftOp) (p : Part) : Bool := match op with
  | .max t _ _ => (p.tile t).tag.isNone
  | _ => false

/-- The results of a SIFT word: its words in the scratchpad and its mask register. Another SIFT word's inputs have been
dealt with at issue; matrix words that read these bytes are disturbed (R130). -/
def State.siftWrite (s : State) (x : Eng) (op : SiftOp) (p : Part) : State :=
  let s := (op.writes x.b p).foldl (fun (s : State) w =>
    let bs := wordBytes w.2
    (s.disturb x.b.bid fun r => !r.isSift && meetsAny r.ins w.1 bs.length).spadPut x.b.bid w.1 bs) s
  match op.maskOut x.b with
  | some (m, v) => s.onBlock x.b.bid fun b => b.onPart x.r.part fun p => { p with masks := p.masks.set m v }
  | none => s

/-- The mask register that a SIFT word writes. -/
def SiftOp.maskReg : SiftOp → Nat
  | .mask m _ _ => m
  | .clr m _ _ => m
  | _ => 7

/-- SIFT_PERFORM (R131, R262): the oldest SIFT word of its issuers. A matrix word issued since that tests its mask register is
disturbed (R130). -/
def execSiftPerform (bid rid : Nat) (s : State) : Host.Outcome State Fault Refusal :=
  .next (match s.eng? bid rid with
    | none => s
    | some x =>
      match x.r.kind with
      | .sift op =>
        let earlier := x.b.eng.any fun r =>
          decide (r.rid < rid) && r.isSift && !r.fin && r.issuers.any fun i => x.r.issuers.contains i
        let p := nth x.b.parts x.r.part ⟨[], [], [], 0, []⟩
        if earlier then s
        else
          let t := s.maskWritten bid x.r.part op.maskReg
          if x.r.undef || op.untagged p then
            ((t.onBlock bid fun b => b.spoil x.r t.free).spend (2 ^ 22)).engFinish bid x.r
          else (t.siftWrite x op p).engFinish bid x.r
      | _ => s)

end Sys2Proof.Machine
end

