-- ==== Sys2Proof/Machine/Commit.lean ====
section
/-! DEFINITION. Capacity commits (R138, R350), the comparison of replicas and its outcomes (R139, R354 to R357, R366), and
the end of a block (R14, R342, R367). -/

namespace Sys2Proof.Machine

/-! ### Naming a commit (R357) -/

/-- A whole block as a record names it (R385). -/
def Launch.wholeBlock (l : Launch) (num : Nat) : Named := ⟨(l.blockRange num).1, 0, (l.blockRange num).2 - (l.blockRange num).1⟩

/-- The record of a mismatch or vote at the commit that a replica has brought (R357) (log 59, DEDUCED). -/
def State.commitRec (s : State) (l : Launch) (b : Block) (kind die : Nat) : Rec :=
  let (src, named) : Origin × Named := match b.commit.filter fun c => c.kind != .blockEnd with
    | some c => (c.src, nameOf c.src.lanes c.is)
    | none => (⟨b.lastExit, BitVec.ofNat 64 (s.segAt l.ctx (coreDie b.core) b.lastExit), false, none⟩, l.wholeBlock b.num)
  ⟨b.num, src.seg.toNat, src.word.toNat, 0, named, 0, kind, 0, die⟩

/-! ### The end of a block -/

/-- A block ends (R14, R367): its signature is written where the context keeps a table, its resources are freed. -/
def State.pathOut (s : State) (b : Block) (l : Launch) : State :=
  let tab := if l.ctx.mbox = 0 then 0 else s.partNat l.ctx.part (l.ctx.mbox + 56) 8
  if tab = 0 ∨ s.primary b = false then s
  else
    let r := l.blockRange b.num
    let sig := (upto r.1 (r.2 - r.1)).foldl (fun (x : W64) i => x + recHash [6, BitVec.ofNat 64 i, look b.pathv i 0]) 0
    s.partWrite l.ctx.part (tab + 16 * b.num) (leBytes 8 b.num ++ leBytes 8 sig.toNat)

/-- Every replica of a block has ended, its last commit applied. -/
def State.blockDone (s : State) (b : Block) (l : Launch) : State :=
  let s := (s.pathOut b l).dropReplicas b.lid b.num
  s.onLaunch b.lid fun l => { l with endedBlks := l.endedBlks ++ [b.num] }

/-- The last commit of a block, in every replica of it, has been applied: it ends once all that it has sent over the fabric is
acknowledged (R14, R120). -/
def State.blockClose (s : State) (b : Block) (l : Launch) : State :=
  let same (x : Block) : Bool := x.lid == b.lid && x.num == b.num && x.st != .ended
  let s := { s with blocks := mapIf same (fun (x : Block) => { x with closed := true, commit := none }) s.blocks }
  if (s.blocks.filter same).any fun x => s.fabric.any (·.bid == x.bid) then s else s.blockDone ((s.primaryOf b).getD b) l

/-- A block's work is over (R14): every thread has exited, every queue is empty, every copy, drain, matrix and SIFT word
has completed, every store, atomic and reduction is performed, over the fabric acknowledged; handlers have ended, and no
record of a group of it waits. -/
def State.blockIdle (s : State) (b : Block) : Bool :=
  b.st == .running && b.groups.isEmpty && !s.traps.any (·.bid == b.bid) && s.blockQuiet b && !s.ending b &&
    !s.pend.any fun p => match p.who with
      | some (.kern bid _ _) => bid == b.bid
      | _ => false

/-- BLOCK_END (R14, R136, R139): a block without satchel ends; a deterministic one commits first, in block order; a
replica submits its last commit; one whose last commit is applied ends once what that has sent is acknowledged. -/
def execBlockEnd (bid : Nat) (s : State) : Host.Outcome State Fault Refusal :=
  .next (match s.block? bid with
    | none => s
    | some b =>
      match s.launch? b.lid with
      | none => s
      | some l =>
        if !s.blockIdle b then s
        else if b.closed then s.blockClose b l
        else match l.mode with
          | .normal => s.blockDone b l
          | .deterministic =>
            if l.oldest b.num then (s.detCommit bid .blockEnd (fun _ => true) none).blockClose b l else s
          | _ => s.submit bid .blockEnd (fun _ => true) none [] ⟨b.lastExit, 0, false, none⟩ none)

/-! ### Entries that did not fit -/

/-- The elements of an entry's head that are staged together: those of the first one's destination sector. -/
def headSector (q : SqEntry) : List SqElem × List SqElem :=
  match q.elems with
  | [] => ([], [])
  | e :: r => match q.kind with
    | .addon _ _ => ((e :: r.takeWhile fun x => sameSector x (some e)), r.dropWhile fun x => sameSector x (some e))
    | _ => ([e], r)

/-- The entry that did not fit is staged, as the first of the block's next commit, and the block resumes (R138, R350). -/
def State.stageStuck (s : State) (bid : Nat) : State :=
  match s.block? bid with
  | none => s
  | some b =>
    let s := s.onBlock bid fun b => { b with full := none }
    match b.full with
    | none => s
    | some (.queue w) =>
      (match s.stq? w with
      | none => s
      | some x =>
        match x.g.stq with
        | [] => s
        | q :: _ =>
          let (now, later) := headSector q
          let es := ((upto 0 now.length).zip now).map fun y => stagedElem q (s.stampOn x q y.2.idx) (y.1 == 0) y.2
          let s := (s.onBlock bid fun b => b.enter es).setHead w (if later.isEmpty then none else some { q with elems := later })
          match q.kind with
          | .addon _ _ => s.addonWatch bid q now
          | _ => s)
    | some (.sector rid i) =>
      match s.eng? bid rid with
      | none => s
      | some x =>
        match x.r.kind.secs[i]? with
        | none => s
        | some c =>
          let ms := c.moves.filter fun m => m.live && m.dmask != 0
          match s.engPages x.l.ctx x.die .write (pagesOf (ms.map fun m => m.dst.va)) with
          | (_, .later) => s
          | (s, .bad a k lev) => s.engFault x 6 a k lev
          | (s, .ok m) =>
            ((s.onBlock bid fun b => b.enter (stagedSector x.r x.tag x.await m ms)).engWatch x c).secDone x i c true

/-- What stands behind an entry that did not fit: its queue, the group whose word stores it, and the word (R357). -/
def State.stuckWord (s : State) (b : Block) : Option Who × List Nat × Origin :=
  let no : Origin := ⟨0, 0, false, none⟩
  match b.full with
  | some (.queue w) => match (s.stq? w).bind fun x => x.g.stq.head? with
    | some q => (some w, b.groupOf (dedup (q.elems.map (·.idx))), q.src)
    | none => (some w, [], no)
  | some (.sector rid _) => match b.eng.find? (·.rid == rid) with
    | some r => (none, b.groupOf r.issuers, r.origin)
    | none => (none, [], no)
  | none => (none, [], no)

/-- CAPACITY_COMMIT (R138, R350): a stalled deterministic block that has become the oldest commits its whole satchel; a
stalled replica submits its own. -/
def execCapacityCommit (bid : Nat) (s : State) : Host.Outcome State Fault Refusal :=
  .next (match s.block? bid with
    | none => s
    | some b =>
      match s.launch? b.lid with
      | none => s
      | some l =>
        if b.full.isNone || b.st == .ended || s.ending b then s
        else if l.redundant then
          let (who, is, src) := s.stuckWord b
          s.submit bid .capacity (fun _ => true) who is src none
        else if l.oldest b.num then (s.detCommit bid .capacity (fun _ => true) none).stageStuck bid
        else s)

/-! ### Replicas (R139, R354 to R356) -/

/-- The live replicas of a block, by rank. -/
def State.replicas (s : State) (lid num : Nat) : List Block :=
  sortKey (·.rank) (s.blocks.filter fun b => b.lid == lid && b.num == num && b.st != .ended)

/-- What a replica does once its commit has been settled; the primary's part of an atomic has been done. -/
def State.afterCommit (s : State) (bid : Nat) (c : Commit) (primary : Bool) : State :=
  match c.kind with
  | .release =>
    (match c.who.bind s.stq? with
    | some x => (match x.g.stq.head? with
      | some q => s.releaseHead x q primary
      | none => s)
    | none => s)
  | .capacity => s.stageStuck bid
  | _ => s

/-- The replicas agree (R139): the first of them applies the set, the others discard theirs; the release or atomic is
performed once; the block goes on or ends. -/
def State.settle (s : State) (l : Launch) (bs : List Block) : State :=
  match bs with
  | [] => s
  | p :: _ =>
    match p.commit with
    | none => s
    | some c =>
      let s := (s.applySet p l c.entries).addSig l.lid p.num (p.ordinal - 1) c.sig
      let s := bs.foldl (fun (s : State) b => s.onBlock b.bid fun b => { b with commit := none }) s
      let atom := c.aid.bind fun n => s.atoms.find? (·.aid == n)
      match c.kind, atom with
      | .blockEnd, _ => s.blockClose p l
      | .atomic, some a =>
        (match a.loc with
        | .pa x =>
          if isFabric x then s.atomFabric a x
          else if s.homeBad a.bid a.loc (laWidth a.op) then s.atomLost a
          else
            let (s, old) := s.atomDo a
            bs.foldl (fun (s : State) b =>
              match (b.commit.bind (·.aid)).bind fun n => s.atoms.find? (·.aid == n) with
              | some y =>
                let s := if b.bid = p.bid then s else s.atomEcho y old
                (s.atomDone y old).atomLand y old
              | none => s) s
        | _ => s)
      | _, _ => bs.foldl (fun (s : State) b => match b.commit with
          | some c => s.afterCommit b.bid c (b.bid == p.bid)
          | none => s) s

/-- All replicas differ, or a dual pair does (R355): the block is retried in an idempotent launch, at most 3 times;
otherwise it ends with kind 11. The record names the commit of the primary, or, where that one is missing, of the replica of
lowest rank that has come to one. -/
def State.mismatch (s : State) (l : Launch) (bs : List Block) : State :=
  match bs, bs.find? (·.commit.isSome) with
  | p :: _, some c =>
    let r := s.commitRec l c 11 (coreDie p.core)
    let k := (l.retries.find? (·.1 == p.num)).getD (p.num, 0, 0)
    (s.onLaunch l.lid fun l => { l with mism := true }).endWith p r
      (if l.idem && decide (k.2.2 < 3) then .retry else .policy)
  | _, _ => s

/-- A group stands halted for the debugger, or is about to. -/
def Block.haltedAt (b : Block) : List (Grp × ISet) :=
  b.groups.flatMap fun g => (g.units.filter fun u => u.stat == .halted || u.haltReq).map fun u => (g, u)

/-- The groups of a new primary at indices that the removed primary's halted groups held are to halt, as one event, and for the
.halt operations that those were to halt for (R366, R373). -/
def State.takeHalts (s : State) (gone : Block) (p : Block) : State :=
  let (t, s) := s.fresh
  let mark (g : Grp) (u : ISet) : ISet :=
    match gone.haltedAt.filter fun x => (x.1.indices x.2).any (g.indices u).contains with
    | [] => u
    | xs => { u with haltReq := true, haltBy := dedup (u.haltBy ++ xs.flatMap (·.2.haltBy) ++ [t]) }
  s.onBlock p.bid fun b => { b with groups := b.groups.map fun g => { g with units := g.units.map (mark g) } }

/-- A new primary goes on where the removed one stood: with its halts (R366), and behind its trace records (R368). -/
def State.takeOver (s : State) (gone : Block) (p : Block) : State :=
  ((s.takeHalts gone p).onBlock gone.bid fun b => { b with owed := [] }).onBlock p.bid fun b =>
    { b with traceUsed := gone.traceUsed, traceFull := gone.traceFull }

/-- Two of three replicas agree (R356): the third is stopped and discarded, and the block goes on as a dual one. -/
def State.vote (s : State) (l : Launch) (bs : List Block) (minority : Block) : State :=
  match bs with
  | [] => s
  | p :: _ =>
    let r := s.commitRec l p 12 (coreDie minority.core)
    let wasPrimary := s.primary minority
    let s := s.dropBlock minority.bid
    let s := (s.record l r none).1
    let s := s.onLaunch l.lid fun l => { l with vote := true }
    let s := if wasPrimary then s.takeOver minority p else s
    s.settle l bs

/-- The signature a replica waits with. -/
def Block.sigAt (b : Block) : Option W64 := b.commit.map (·.sig)

/-- Compare what the replicas have brought; a missing one disagrees with all. -/
def State.compareSigs (s : State) (l : Launch) (bs : List Block) : State :=
  let agree (a b : Block) : Bool := a.sigAt.isSome && a.sigAt == b.sigAt
  match bs with
  | [a] => s.settle l [a]
  | [a, b] => if agree a b then s.settle l [a, b] else s.mismatch l [a, b]
  | [a, b, c] =>
    if agree a b && agree a c then s.settle l [a, b, c]
    else if agree a b then s.vote l [a, b] c
    else if agree a c then s.vote l [a, c] b
    else if agree b c then s.vote l [b, c] a
    else s.mismatch l [a, b, c]
  | _ => s

/-- REPLICA_COMPARE (R139, R355, R356): every live replica of a block has reached its next commit. -/
def execReplicaCompare (lid num : Nat) (s : State) : Host.Outcome State Fault Refusal :=
  .next (match s.launch? lid with
    | none => s
    | some l =>
      let bs := s.replicas lid num
      if bs.isEmpty || !bs.all (·.commit.isSome) then s
      else s.compareSigs l bs)

/-- REPLICA_TIMEOUT (R354): a replica is still missing after 2^32 cycles, none of them with a group of the primary halted;
it counts as disagreeing. -/
def execReplicaTimeout (lid num : Nat) (s : State) : Host.Outcome State Fault Refusal :=
  .next (match s.launch? lid with
    | none => s
    | some l =>
      let bs := s.replicas lid num
      let some' := bs.any (·.commit.isSome)
      let all := bs.all (·.commit.isSome)
      let held := (bs.head?.map fun p => p.groups.any fun g => g.units.any fun u => u.stat == .halted).getD false
      if !some' || all || held then s else s.compareSigs l bs)

end Sys2Proof.Machine
end

