-- ==== Sys2Proof/Machine/LaneWords.lean ====
section
/-! DEFINITION. Lane arithmetic (R198 to R214): integer and bit words, float words, packed 16-bit words, fused
multiply-adds, scaling, transcendentals and conversion. Every word is a value function over the shared lane operation. -/

namespace Sys2Proof.Machine

/-! ### Values -/

/-- Bits [63:32] of the signed product (R203). -/
def imulhiVal (a b : Nat) : Nat := wrap 64 (sext 32 a * sext 32 b) / 2 ^ 32

/-- Bits [63:32] of the unsigned product (R203). -/
def nmulhiVal (a b : Nat) : Nat := a * b / 2 ^ 32

/-- Bits of a word in the opposite order (R203). -/
def brevVal (a : Nat) : Nat := (upto 0 32).foldl (fun r j => if bit a (31 - j) then r + 2 ^ j else r) 0

/-- Bfe of R204. -/
def bfeVal (a b : Nat) : Nat :=
  let p := bits b 4 0
  let n := min (bits b 13 8) (32 - p)
  if n = 0 then 0
  else
    let f := bits a (p + n - 1) p
    if bit b 16 then wrap 32 (sext n f) else f

/-- A result byte of PRMT from its control byte (R205). -/
def prmtByte (pool ctl : Nat) : Nat :=
  let y := pool / 2 ^ (8 * bits ctl 2 0) % 256
  let y := if bit ctl 5 then (if bit y 7 then 255 else 0) else y
  let y := if bit ctl 6 then 255 - y else y
  if bit ctl 7 then 0 else y

/-- Prmt of R205. -/
def prmtVal (a b d : Nat) : Nat :=
  (upto 0 4).foldl (fun r k => r + prmtByte (a + 2 ^ 32 * d) (b / 2 ^ (8 * k) % 256) * 2 ^ (8 * k)) 0

/-- A float word of two operands: the exact result, rounded once (R202). -/
def floatOp (f : Fmt) (op : RMode → FV → FV → FV) (c : BitVec 3) (x y : Nat) : Nat :=
  f.fout (ftzOf c) (rmOf c) (op (rmOf c) (f.fin (ftzOf c) x) (f.fin (ftzOf c) y))

/-- The difference of two values: the sum with the second negated. -/
def FV.sub (m : RMode) (x y : FV) : FV := FV.add m x y.negate

/-- A fused multiply-add, rounded once (R208). -/
def fmaOp (f : Fmt) (c : BitVec 3) (x y z : Nat) : Nat :=
  f.fout (ftzOf c) (rmOf c) (FV.fma (rmOf c) (f.fin (ftzOf c) x) (f.fin (ftzOf c) y) (f.fin (ftzOf c) z))

/-- A word on both elements of packed 16-bit operands (R63, R207). -/
def packed2 (f : Nat → Nat → Nat) (x y : Nat) : Nat :=
  f (x % 65536) (y % 65536) + 65536 * f (x / 65536) (y / 65536)

/-- FSCL and DSCL (R209); past the exponents of any format a scale changes nothing more. -/
def sclVal (f : Fmt) (c : BitVec 3) (x b : Nat) : Nat :=
  match f.fin (ftzOf c) x with
  | .fin s m e => f.fout (ftzOf c) (rmOf c) (.fin s m (e + sat (sext 32 b) (-5000) 5000))
  | v => f.fout (ftzOf c) (rmOf c) v

/-- FFRC (R209). -/
def ffrcVal (c : BitVec 3) (x : Nat) : Nat :=
  match Fmt.f32.fin (ftzOf c) x with
  | .fin s m e =>
    if 0 ≤ e then Fmt.f32.signed s 0 else Fmt.f32.fout (ftzOf c) (rmOf c) (.fin s (m % 2 ^ (-e).toNat) e)
  | _ => Fmt.f32.nanCode

/-! ### Conversion (R211 to R214) -/

/-- What a conversion reads: a float format, or a signed or unsigned integer of a width. -/
inductive CvtSrc where
  | fp (f : Fmt)
  | int (signed : Bool) (w : Nat)
deriving DecidableEq, Repr

/-- What a conversion writes. -/
inductive CvtDst where
  | fp (f : Fmt)
  | int (ty : IntTy) (rm : RMode)
  | narrow (w : Nat)
deriving DecidableEq, Repr

/-- Source and destination of each code (R212, R213). -/
def cvtShape (op : CvtOp) : CvtSrc × CvtDst :=
  match op with
  | .f32F64 => (.fp .f64, .fp .f32)
  | .f64F32 => (.fp .f32, .fp .f64)
  | .f16F32 => (.fp .f32, .fp .f16)
  | .f32F16 => (.fp .f16, .fp .f32)
  | .bf16F32 => (.fp .f32, .fp .bf16)
  | .f32Bf16 => (.fp .bf16, .fp .f32)
  | .e4m3F32 => (.fp .f32, .fp .e4m3)
  | .e5m2F32 => (.fp .f32, .fp .e5m2)
  | .f32E4m3 => (.fp .e4m3, .fp .f32)
  | .f32E5m2 => (.fp .e5m2, .fp .f32)
  | .mf6F32 => (.fp .f32, .fp .mf6)
  | .mf4F32 => (.fp .f32, .fp .mf4)
  | .f32Mf6 => (.fp .mf6, .fp .f32)
  | .f32Mf4 => (.fp .mf4, .fp .f32)
  | .f16F64 => (.fp .f64, .fp .f16)
  | .f64F16 => (.fp .f16, .fp .f64)
  | .f32I32 => (.int true 32, .fp .f32)
  | .f32N32 => (.int false 32, .fp .f32)
  | .f64I32 => (.int true 32, .fp .f64)
  | .f64N32 => (.int false 32, .fp .f64)
  | .f64I64 => (.int true 64, .fp .f64)
  | .f64N64 => (.int false 64, .fp .f64)
  | .f32I64 => (.int true 64, .fp .f32)
  | .f32N64 => (.int false 64, .fp .f32)
  | .i8I32 => (.int true 32, .narrow 8)
  | .i4I32 => (.int true 32, .narrow 4)
  | .toInt src64 dst rm => (.fp (if src64 then .f64 else .f32), .int dst rm)

/-- The source is a pair. -/
def CvtSrc.wide : CvtSrc → Bool
  | .fp f => f == .f64
  | .int _ w => w == 64

/-- The destination is a pair. -/
def CvtDst.wide : CvtDst → Bool
  | .fp f => f == .f64
  | .int ty _ => ty == .i64 || ty == .n64
  | .narrow _ => false

/-- The word reads FPCTL (R200): it uses M, FIn or FOut. -/
def cvtReadsFp (op : CvtOp) : Bool :=
  match cvtShape op with
  | (_, .fp _) => true
  | (.fp f, .int _ _) => f != .f64
  | _ => false

/-- The value a conversion reads. -/
def CvtSrc.value (ftz : Bool) (x : Nat) : CvtSrc → FV
  | .fp f => f.fin ftz (x % 2 ^ f.width)
  | .int s w => FV.ofInt (if s then sext w x else x)

/-- The result of a conversion, with its overflow choice (R71, R72, R213, R214). -/
def cvtVal (op : CvtOp) (inf : Bool) (c : BitVec 3) (x : Nat) : Nat :=
  let (src, dst) := cvtShape op
  let v := src.value (ftzOf c) x
  match dst with
  | .fp f => f.convert (ftzOf c) (rmOf c) inf v
  | .int ty rm => wrap 64 (v.toInt rm ty)
  | .narrow w => wrap w (sat (sext 32 x) (-(2 ^ (w - 1))) (2 ^ (w - 1) - 1))

/-! ### The words -/

/-- The second, and third, source of a list. -/
def src1 (l : List Nat) : Nat := nth l 1 0

/-- The registers a last-use bit releases (R55). -/
def lastUse (k : Bool) (wide : Bool) (r : RegN) : List Nat := if k then regsOf wide r.toNat else []

/-- An LR word of one source. -/
def State.lr1 (s : State) (lat : Nat) (wide fp : Bool) (d a : RegN) (ka : Bool) (st : BitVec 2)
    (f : Env → BitVec 3 → Nat → Nat) : Host.Outcome State Fault Refusal :=
  s.lane ⟨lat, wide, fp⟩ d.toNat [(a.toNat, wide)] (lastUse ka wide a) st fun e c l => f e c (l.headD 0)

/-- An LR word of two sources; `bw`: b is a pair too. -/
def State.lr2 (s : State) (lat : Nat) (wide bw fp : Bool) (d a b : RegN) (ka kb : Bool) (st : BitVec 2)
    (f : BitVec 3 → Nat → Nat → Nat) : Host.Outcome State Fault Refusal :=
  s.lane ⟨lat, wide, fp⟩ d.toNat [(a.toNat, wide), (b.toNat, bw)] (lastUse ka wide a ++ lastUse kb bw b) st
    fun _ c l => f c (l.headD 0) (src1 l)

/-- An LT word. -/
def State.lt3 (s : State) (lat : Nat) (wide fp : Bool) (d a b c : RegN) (st : BitVec 2)
    (f : BitVec 3 → Nat → Nat → Nat → Nat) : Host.Outcome State Fault Refusal :=
  s.lane ⟨lat, wide, fp⟩ d.toNat [(a.toNat, wide), (b.toNat, wide), (c.toNat, wide)] [] st
    fun _ m l => f m (l.headD 0) (src1 l) (nth l 2 0)

/-- IMULHI (R203). -/
def execImulhi (d a b : RegN) (ka kb : Bool) (st : BitVec 2) (s : State) : Host.Outcome State Fault Refusal :=
  s.lr2 2 false false false d a b ka kb st fun _ a b => imulhiVal a b

/-- NMULHI (R203). -/
def execNmulhi (d a b : RegN) (ka kb : Bool) (st : BitVec 2) (s : State) : Host.Outcome State Fault Refusal :=
  s.lr2 2 false false false d a b ka kb st fun _ a b => nmulhiVal a b

/-- POPC (R203). -/
def execPopc (d a : RegN) (ka : Bool) (st : BitVec 2) (s : State) : Host.Outcome State Fault Refusal :=
  s.lr1 2 false false d a ka st fun _ _ a => popc 32 a

/-- CLZ (R203). -/
def execClz (d a : RegN) (ka : Bool) (st : BitVec 2) (s : State) : Host.Outcome State Fault Refusal :=
  s.lr1 2 false false d a ka st fun _ _ a => clz 32 a

/-- BREV (R203). -/
def execBrev (d a : RegN) (ka : Bool) (st : BitVec 2) (s : State) : Host.Outcome State Fault Refusal :=
  s.lr1 2 false false d a ka st fun _ _ a => brevVal a

/-- BFE (R204). -/
def execBfe (d a b : RegN) (ka kb : Bool) (st : BitVec 2) (s : State) : Host.Outcome State Fault Refusal :=
  s.lr2 2 false false false d a b ka kb st fun _ a b => bfeVal a b

/-- PRMT: d is also a source (R205). -/
def execPrmt (d a b : RegN) (ka kb : Bool) (st : BitVec 2) (s : State) : Host.Outcome State Fault Refusal :=
  s.lane ⟨2, false, false⟩ d.toNat [(a.toNat, false), (b.toNat, false), (d.toNat, false)]
    (lastUse ka false a ++ lastUse kb false b) st fun _ _ l => prmtVal (l.headD 0) (src1 l) (nth l 2 0)

/-- FADD (R206). -/
def execFadd (d a b : RegN) (ka kb : Bool) (st : BitVec 2) (s : State) : Host.Outcome State Fault Refusal :=
  s.lr2 4 false false true d a b ka kb st (floatOp .f32 (FV.add))

/-- FSUB (R206). -/
def execFsub (d a b : RegN) (ka kb : Bool) (st : BitVec 2) (s : State) : Host.Outcome State Fault Refusal :=
  s.lr2 4 false false true d a b ka kb st (floatOp .f32 (FV.sub))

/-- FMUL (R206). -/
def execFmul (d a b : RegN) (ka kb : Bool) (st : BitVec 2) (s : State) : Host.Outcome State Fault Refusal :=
  s.lr2 4 false false true d a b ka kb st (floatOp .f32 (fun _ x y => FV.mul x y))

/-- FMIN (R65, R206). -/
def execFmin (d a b : RegN) (ka kb : Bool) (st : BitVec 2) (s : State) : Host.Outcome State Fault Refusal :=
  s.lr2 4 false false true d a b ka kb st fun c a b => Fmt.f32.minNum (ftzOf c) a b

/-- FMAX (R65, R206). -/
def execFmax (d a b : RegN) (ka kb : Bool) (st : BitVec 2) (s : State) : Host.Outcome State Fault Refusal :=
  s.lr2 4 false false true d a b ka kb st fun c a b => Fmt.f32.maxNum (ftzOf c) a b

/-- FABS (R206). -/
def execFabs (d a : RegN) (ka : Bool) (st : BitVec 2) (s : State) : Host.Outcome State Fault Refusal :=
  s.lr1 4 false false d a ka st fun _ _ a => a % 2 ^ 31

/-- FNEG (R206). -/
def execFneg (d a : RegN) (ka : Bool) (st : BitVec 2) (s : State) : Host.Outcome State Fault Refusal :=
  s.lr1 4 false false d a ka st fun _ _ a => if bit a 31 then a - 2 ^ 31 else a + 2 ^ 31

/-- DADD (R206). -/
def execDadd (d a b : RegN) (ka kb : Bool) (st : BitVec 2) (s : State) : Host.Outcome State Fault Refusal :=
  s.lr2 8 true true true d a b ka kb st (floatOp .f64 (FV.add))

/-- DSUB (R206). -/
def execDsub (d a b : RegN) (ka kb : Bool) (st : BitVec 2) (s : State) : Host.Outcome State Fault Refusal :=
  s.lr2 8 true true true d a b ka kb st (floatOp .f64 (FV.sub))

/-- DMUL (R206). -/
def execDmul (d a b : RegN) (ka kb : Bool) (st : BitVec 2) (s : State) : Host.Outcome State Fault Refusal :=
  s.lr2 8 true true true d a b ka kb st (floatOp .f64 (fun _ x y => FV.mul x y))

/-- DMIN (R65, R206). -/
def execDmin (d a b : RegN) (ka kb : Bool) (st : BitVec 2) (s : State) : Host.Outcome State Fault Refusal :=
  s.lr2 8 true true false d a b ka kb st fun _ a b => Fmt.f64.minNum false a b

/-- DMAX (R65, R206). -/
def execDmax (d a b : RegN) (ka kb : Bool) (st : BitVec 2) (s : State) : Host.Outcome State Fault Refusal :=
  s.lr2 8 true true false d a b ka kb st fun _ a b => Fmt.f64.maxNum false a b

/-- HADD2 (R207). -/
def execHadd2 (d a b : RegN) (ka kb : Bool) (st : BitVec 2) (s : State) : Host.Outcome State Fault Refusal :=
  s.lr2 4 false false true d a b ka kb st fun c a b => packed2 (floatOp .f16 FV.add c) a b

/-- HMUL2 (R207). -/
def execHmul2 (d a b : RegN) (ka kb : Bool) (st : BitVec 2) (s : State) : Host.Outcome State Fault Refusal :=
  s.lr2 4 false false true d a b ka kb st fun c a b => packed2 (floatOp .f16 (fun _ x y => FV.mul x y) c) a b

/-- HMIN2 (R207). -/
def execHmin2 (d a b : RegN) (ka kb : Bool) (st : BitVec 2) (s : State) : Host.Outcome State Fault Refusal :=
  s.lr2 4 false false true d a b ka kb st fun c a b => packed2 (Fmt.f16.minNum (ftzOf c)) a b

/-- HMAX2 (R207). -/
def execHmax2 (d a b : RegN) (ka kb : Bool) (st : BitVec 2) (s : State) : Host.Outcome State Fault Refusal :=
  s.lr2 4 false false true d a b ka kb st fun c a b => packed2 (Fmt.f16.maxNum (ftzOf c)) a b

/-- BADD2 (R207). -/
def execBadd2 (d a b : RegN) (ka kb : Bool) (st : BitVec 2) (s : State) : Host.Outcome State Fault Refusal :=
  s.lr2 4 false false true d a b ka kb st fun c a b => packed2 (floatOp .bf16 FV.add c) a b

/-- BMUL2 (R207). -/
def execBmul2 (d a b : RegN) (ka kb : Bool) (st : BitVec 2) (s : State) : Host.Outcome State Fault Refusal :=
  s.lr2 4 false false true d a b ka kb st fun c a b => packed2 (floatOp .bf16 (fun _ x y => FV.mul x y) c) a b

/-- CVT (R211 to R214). -/
def execCvt (d a : RegN) (code : CvtOp) (ka inf : Bool) (st : BitVec 2) (s : State) :
    Host.Outcome State Fault Refusal :=
  let sw := (cvtShape code).1.wide
  s.lane ⟨4, (cvtShape code).2.wide, cvtReadsFp code⟩ d.toNat [(a.toNat, sw)] (lastUse ka sw a) st
    fun _ c l => cvtVal code inf c (l.headD 0)

/-- FEXP2 (R83, R84, R210). -/
def execFexp2 (d a : RegN) (ka : Bool) (st : BitVec 2) (s : State) : Host.Outcome State Fault Refusal :=
  s.lr1 12 false true d a ka st fun e c a => fexp2 e.ftv (ftzOf c) a

/-- FLOG2 (R83, R84, R210). -/
def execFlog2 (d a : RegN) (ka : Bool) (st : BitVec 2) (s : State) : Host.Outcome State Fault Refusal :=
  s.lr1 12 false true d a ka st fun e c a => flog2 e.ftv (ftzOf c) a

/-- FSINP (R83, R84, R210). -/
def execFsinp (d a : RegN) (ka : Bool) (st : BitVec 2) (s : State) : Host.Outcome State Fault Refusal :=
  s.lr1 12 false true d a ka st fun e c a => fsinp e.ftv (ftzOf c) a

/-- FCOSP (R83, R84, R210). -/
def execFcosp (d a : RegN) (ka : Bool) (st : BitVec 2) (s : State) : Host.Outcome State Fault Refusal :=
  s.lr1 12 false true d a ka st fun e c a => fcosp e.ftv (ftzOf c) a

/-- FTANH (R83, R84, R210). -/
def execFtanh (d a : RegN) (ka : Bool) (st : BitVec 2) (s : State) : Host.Outcome State Fault Refusal :=
  s.lr1 12 false true d a ka st fun e c a => ftanh e.ftv (ftzOf c) a

/-- FRCP (R83, R84, R210). -/
def execFrcp (d a : RegN) (ka : Bool) (st : BitVec 2) (s : State) : Host.Outcome State Fault Refusal :=
  s.lr1 12 false true d a ka st fun e c a => rcpOf .f32 e.ftv (ftzOf c) a

/-- FRSQ (R83, R84, R210). -/
def execFrsq (d a : RegN) (ka : Bool) (st : BitVec 2) (s : State) : Host.Outcome State Fault Refusal :=
  s.lr1 12 false true d a ka st fun e c a => rsqOf .f32 e.ftv (ftzOf c) a

/-- FSQRT (R83, R84, R210). -/
def execFsqrt (d a : RegN) (ka : Bool) (st : BitVec 2) (s : State) : Host.Outcome State Fault Refusal :=
  s.lr1 12 false true d a ka st fun _ c a => fsqrt (rmOf c) (ftzOf c) a

/-- DRCP (R83, R84, R210). -/
def execDrcp (d a : RegN) (ka : Bool) (st : BitVec 2) (s : State) : Host.Outcome State Fault Refusal :=
  s.lr1 12 true false d a ka st fun e _ a => rcpOf .f64 e.ftv false a

/-- DRSQ (R83, R84, R210). -/
def execDrsq (d a : RegN) (ka : Bool) (st : BitVec 2) (s : State) : Host.Outcome State Fault Refusal :=
  s.lr1 12 true false d a ka st fun e _ a => rsqOf .f64 e.ftv false a

/-- FSCL (R209). -/
def execFscl (d a b : RegN) (ka kb : Bool) (st : BitVec 2) (s : State) : Host.Outcome State Fault Refusal :=
  s.lr2 4 false false true d a b ka kb st (sclVal .f32)

/-- DSCL: b is a 32-bit register (R209). -/
def execDscl (d a b : RegN) (ka kb : Bool) (st : BitVec 2) (s : State) : Host.Outcome State Fault Refusal :=
  s.lr2 8 true false true d a b ka kb st (sclVal .f64)

/-- FFRC (R209). -/
def execFfrc (d a : RegN) (ka : Bool) (st : BitVec 2) (s : State) : Host.Outcome State Fault Refusal :=
  s.lr1 4 false true d a ka st fun _ c a => ffrcVal c a

/-- FFMA (R208). -/
def execFfma (d a b c : RegN) (st : BitVec 2) (s : State) : Host.Outcome State Fault Refusal :=
  s.lt3 4 false true d a b c st (fmaOp .f32)

/-- DFMA (R208). -/
def execDfma (d a b c : RegN) (st : BitVec 2) (s : State) : Host.Outcome State Fault Refusal :=
  s.lt3 8 true true d a b c st (fmaOp .f64)

/-- HFMA2 (R207). -/
def execHfma2 (d a b c : RegN) (st : BitVec 2) (s : State) : Host.Outcome State Fault Refusal :=
  s.lt3 4 false true d a b c st fun m x y z =>
    fmaOp .f16 m (x % 65536) (y % 65536) (z % 65536)
      + 65536 * fmaOp .f16 m (x / 65536) (y / 65536) (z / 65536)

/-- IMAD (R203). -/
def execImad (d a b c : RegN) (st : BitVec 2) (s : State) : Host.Outcome State Fault Refusal :=
  s.lt3 2 false false d a b c st fun _ a b c => wrap 32 ((a : Int) * b + c)

end Sys2Proof.Machine
end

