-- ==== Sys2Proof/Machine/CrossLane.lean ====
section
/-! DEFINITION. Cross-lane words on the reduce-and-scan tree (R226 to R234), float compares and classification (R235,
R236). -/

namespace Sys2Proof.Machine

/-! ### The tree (R228) -/

/-- One node of the tree: an absent side passes the other unchanged. -/
def treeNode {α : Type} (op : α → α → α) : Option α → Option α → Option α
  | some x, some y => some (op x y)
  | some x, none => some x
  | none, y => y

/-- One level of the tree: neighbours combine. -/
def treeLevel {α : Type} (op : α → α → α) : List (Option α) → List (Option α)
  | x :: y :: r => treeNode op x y :: treeLevel op r
  | l => l

/-- TreeCombine of R228 over 32 lanes, each absent or with its value. -/
def tree {α : Type} (op : α → α → α) (v : List (Option α)) : Option α :=
  ((treeLevel op (treeLevel op (treeLevel op (treeLevel op (treeLevel op v)))))[0]?).join

/-- A member's values by lane; lanes outside the issue set are absent. -/
def Env.laneVals (e : Env) (f : Nat → Nat) : List (Option Nat) :=
  (upto 0 32).map fun l => if e.members.contains l then some (f l) else none

/-- ScanValue of R228 for a lane: the tree over the members up to it, or below it. -/
def scanVal (op : Nat → Nat → Nat) (v : List (Option Nat)) (excl : Bool) (ident l : Nat) : Nat :=
  (tree op (((upto 0 32).zip v).map fun x =>
    if x.1 < l || (x.1 == l && !excl) then x.2 else none)).getD ident

/-- A cross-lane word (R227): it expands on a span, even of one index; a control core's thread is the issue set. -/
def State.cross (s : State) (sh : Shape) (f : Env → Env) : Host.Outcome State Fault Refusal :=
  s.runWord (fun _ => sh) fun s e => if e.grp.span && !e.solo then .expand else .done s (f e)

/-- The shape of a cross-lane word that writes registers. -/
def crossShape (dsts srcs : List Nat) (lat : Nat) (st : BitVec 2) : Shape :=
  { dsts := dsts, srcs := srcs, lat := some lat, gap := gapOf st (some lat) }

/-- The predicates a word writes: p7 discards (R48). -/
def predDst (p : Nat) : List Nat := if p < 7 then [p] else []

/-- A reduction: the same value for every member (R229). -/
def State.reduce (s : State) (d a : RegN) (dw aw : Bool) (st : BitVec 2) (prep : BitVec 3 → Nat → Nat)
    (op : BitVec 3 → Nat → Nat → Nat) : Host.Outcome State Fault Refusal :=
  s.cross (crossShape (regsOf dw d.toNat) (regsOf aw a.toNat) 6 st) fun e =>
    let c := (e.grp.lane e.first).fpctl
    e.write d.toNat (e.sameWord dw (((tree (op c) (e.laneVals fun p => prep c (e.val aw a.toNat p))).getD 0 : Nat) : Int))

/-- A scan: each member its own value (R230). -/
def State.scan (s : State) (d a : RegN) (st : BitVec 2) (excl : Bool) (prep : BitVec 3 → Nat → Nat)
    (op : BitVec 3 → Nat → Nat → Nat) : Host.Outcome State Fault Refusal :=
  s.cross (crossShape [d.toNat] [a.toNat] 6 st) fun e =>
    let c := (e.grp.lane e.first).fpctl
    let v := e.laneVals fun p => prep c (e.val false a.toNat p)
    e.write d.toNat (lanesRes false fun p => (scanVal (op c) v excl 0 p : Nat))

/-- A signed minimum or maximum of 32-bit words. -/
def pickInt (signed : Bool) (least : Bool) (x y : Nat) : Nat :=
  let le := decide (baseAs signed 32 x ≤ baseAs signed 32 y)
  if least == le then x else y

/-- FP add, minimumNumber or maximumNumber of the tree (R228). -/
def redfOp (f : Fmt) (mode : RedfMode) (c : BitVec 3) (x y : Nat) : Nat :=
  match mode with
  | .add => floatOp f FV.add c x y
  | .min => f.minNum (ftzOf c) x y
  | .max => f.maxNum (ftzOf c) x y

/-- REDI (R229). -/
def execRedi (d a : RegN) (mode : RediMode) (st : BitVec 2) (s : State) : Host.Outcome State Fault Refusal :=
  s.reduce d a false false st (fun _ x => x) fun _ x y => match mode with
    | .add => wrap 32 ((x : Int) + y)
    | .min => pickInt true true x y
    | .max => pickInt true false x y
    | .and => x &&& y

/-- REDN (R229): .wadd sums exactly into a pair. -/
def execRedn (d a : RegN) (mode : RednMode) (st : BitVec 2) (s : State) : Host.Outcome State Fault Refusal :=
  s.reduce d a (mode == .wadd) false st (fun _ x => x) fun _ x y => match mode with
    | .wadd => x + y
    | .min => pickInt false true x y
    | .max => pickInt false false x y
    | .or => x ||| y

/-- REDF (R228, R229). -/
def execRedf (d a : RegN) (mode : RedfMode) (st : BitVec 2) (s : State) : Host.Outcome State Fault Refusal :=
  s.reduce d a false false st (fun c x => Fmt.f32.returned (ftzOf c) x) (redfOp .f32 mode)

/-- REDD (R228, R229). -/
def execRedd (d a : RegN) (mode : RedfMode) (st : BitVec 2) (s : State) : Host.Outcome State Fault Refusal :=
  s.reduce d a true true st (fun _ x => Fmt.f64.returned false x) (redfOp .f64 mode)

/-- SCANI (R230). -/
def execScani (d a : RegN) (mode : ScaniMode) (st : BitVec 2) (s : State) : Host.Outcome State Fault Refusal :=
  s.scan d a st (mode == .excl) (fun _ x => x) fun _ x y => match mode with
    | .incl => wrap 32 ((x : Int) + y)
    | .excl => wrap 32 ((x : Int) + y)
    | .max => pickInt true false x y
    | .nmax => pickInt false false x y

/-- SCANF (R228, R230). -/
def execScanf (d a : RegN) (mode : ScanfMode) (st : BitVec 2) (s : State) : Host.Outcome State Fault Refusal :=
  s.scan d a st (mode == .excl) (fun c x => Fmt.f32.returned (ftzOf c) x) (redfOp .f32 (match mode with
    | .incl => .add
    | .excl => .add
    | .max => .max
    | .min => .min))

/-- BCAST (R231): the value at one lane, 0 where it is no member's. -/
def execBcast (d a : RegN) (src : BcastSrc) (st : BitVec 2) (s : State) : Host.Outcome State Fault Refusal :=
  let sh := crossShape [d.toNat] [a.toNat] 6 st
  let sh := match src with
    | .reg b => { sh with firsts := [b.toNat] }
    | _ => sh
  s.cross sh fun e =>
    let l := match src with
      | .lane n => n.toNat
      | .reg b => e.val false b.toNat e.first % 32
      | .last => e.members.foldl max 0
    e.write d.toNat (e.sameWord false (if e.members.contains l then (e.val false a.toNat l : Int) else 0))

/-- VOTE (R232). -/
def execVote (op : VoteOp) (ps : PredN) (st : BitVec 2) (s : State) : Host.Outcome State Fault Refusal :=
  let sh := match op with
    | .ballot d => crossShape [d.toNat] [] 6 st
    | .all pd => { crossShape [] [] 6 st with pdsts := predDst pd.toNat }
    | .any pd => { crossShape [] [] 6 st with pdsts := predDst pd.toNat }
    | .eq pd => { crossShape [] [] 6 st with pdsts := predDst pd.toNat }
  s.cross { sh with psrcs := [ps.toNat] } fun e =>
    let v (p : Nat) : Bool := e.pval ps.toNat p
    match op with
    | .ballot d => e.write d.toNat (e.sameWord false ((maskOf (e.members.filter v)).toNat : Int))
    | .all pd => e.pwrite pd.toNat (e.samePred (e.members.all v))
    | .any pd => e.pwrite pd.toNat (e.samePred (e.members.any v))
    | .eq pd => e.pwrite pd.toNat (e.samePred (e.members.all v || !e.members.any v))

/-! ### Intersections (R233, R234) -/

/-- The pad value, and "none". -/
def noMatch : Nat := 0xFFFFFFFF

/-- The lowest member whose entry equals a value that is not the pad (R233). -/
def matchLane (ms : List Nat) (f : Nat → Nat) (x : Nat) : Nat :=
  if x = noMatch then noMatch else (ms.find? fun p => f p == x).getD noMatch

/-- ISECT (R233). -/
def execIsect (d a b : RegN) (st : BitVec 2) (s : State) : Host.Outcome State Fault Refusal :=
  s.cross (crossShape (upto d.toNat 4) [a.toNat, b.toNat] 8 st) fun e =>
    let fa (p : Nat) : Nat := e.val false a.toNat p
    let fb (p : Nat) : Nat := e.val false b.toNat p
    let top (f : Nat → Nat) : Nat := (e.members.map f).foldl max 0
    let m := min (top fa) (top fb)
    let count (f : Nat → Nat) : Nat := (e.members.filter fun p => decide (f p ≤ m)).length
    let n := d.toNat
    ((e.write n (lanesRes false fun p => (matchLane e.members fb (fa p) : Nat))).write (n + 1)
      (lanesRes false fun p => (matchLane e.members fa (fb p) : Nat))).write (n + 2)
      (e.sameWord true ((count fa + 2 ^ 32 * count fb : Nat) : Int))

/-- ISECTB (R234). -/
def execIsectb (d a b : RegN) (pk : BitVec 2) (st : BitVec 2) (s : State) : Host.Outcome State Fault Refusal :=
  s.cross { crossShape (upto d.toNat 4) [a.toNat, b.toNat] 8 st with pdsts := [pk.toNat] } fun e =>
    let fa (p : Nat) : Nat := e.val false a.toNat p
    let fb (p : Nat) : Nat := e.val false b.toNat p
    let sum (f : Nat → Nat) (ps : List Nat) : Nat := ps.foldl (fun n p => n + popc 32 (f p)) 0
    let below (p : Nat) : List Nat := e.members.filter fun q => decide (q < p)
    let n := d.toNat
    let e1 := ((e.write n (lanesRes false fun p => (fa p &&& fb p : Nat))).write (n + 1)
      (lanesRes false fun p => (sum fa (below p) : Nat))).write (n + 2) (lanesRes false fun p => (sum fb (below p) : Nat))
    let e2 := e1.write (n + 3) (e.sameWord false ((sum fa e.members + 2 ^ 16 * sum fb e.members : Nat) : Int))
    if e.solo then e2.pwrite pk.toNat (.cut (Cut.ofBool (fa e.first &&& fb e.first ≠ 0)))
    else e2.pwrite pk.toNat (.bits (maskOf (e.members.filter fun p => fa p &&& fb p ≠ 0)))

/-! ### Float compares (R235) -/

/-- A float-compare condition on two values. -/
def fcondHolds (m : FCond) (x y : FV) : Bool :=
  let un := x.isNan || y.isNan
  match m with
  | .un => un
  | .eq => !un && FV.cmp x y == 0
  | .lt => !un && decide (FV.cmp x y < 0)
  | .le => !un && decide (FV.cmp x y ≤ 0)

/-- A float-compare word writing one predicate per element of its operands: `el` picks an element's bits. -/
def State.fcompare (s : State) (f : Fmt) (wide : Bool) (lat : Nat) (outs : List (Nat × (Nat → Nat))) (a b : RegN)
    (mode : FCond) (st : BitVec 2) : Host.Outcome State Fault Refusal :=
  s.runWord
    (fun _ => { crossShape [] (regsOf wide a.toNat ++ regsOf wide b.toNat) lat st with
                pdsts := outs.flatMap fun x => predDst x.1 })
    fun s e =>
      if e.grp.span && !e.solo && !(e.uniform wide a.toNat && e.uniform wide b.toNat) then .expand
      else
        let test (el : Nat → Nat) (p : Nat) : Bool :=
          let z := ftzOf (e.grp.lane p).fpctl
          fcondHolds mode (f.fin z (el (e.val wide a.toNat p))) (f.fin z (el (e.val wide b.toNat p)))
        .done s (outs.foldl (fun (k : Env) x =>
          k.pwrite x.1 (if e.grp.span then .cut (Cut.ofBool (test x.2 0))
            else .bits (maskOf ((upto 0 32).filter (test x.2))))) e)

/-- FCMP (R235). -/
def execFcmp (pd : PredN) (a b : RegN) (mode : FCond) (st : BitVec 2) (s : State) : Host.Outcome State Fault Refusal :=
  s.fcompare .f32 false 4 [(pd.toNat, fun x => x)] a b mode st

/-- DCMP (R235). -/
def execDcmp (pd : PredN) (a b : RegN) (mode : FCond) (st : BitVec 2) (s : State) : Host.Outcome State Fault Refusal :=
  s.fcompare .f64 true 8 [(pd.toNat, fun x => x)] a b mode st

/-- HCMP2 (R235): element 0 writes pd, element 1 the next; p7 discards. -/
def execHcmp2 (pd : PredN) (a b : RegN) (mode : FCond) (st : BitVec 2) (s : State) : Host.Outcome State Fault Refusal :=
  s.fcompare .f16 false 4 [(pd.toNat, fun x => x % 65536), (pd.toNat + 1, fun x => x / 65536)] a b mode st

/-! ### Classification (R236) -/

/-- The one bit FCLASS sets. -/
def classBit (f : Fmt) (x : Nat) : Nat :=
  let n := f.neg x
  let e := f.ef x
  let m := f.ff x
  if e = 2 ^ f.eb - 1 then
    if m = 0 then (if n then 0 else 7) else if 2 ^ (f.fb - 1) ≤ m then 8 else 9
  else if e = 0 then
    if m = 0 then (if n then 3 else 4) else (if n then 2 else 5)
  else if n then 1 else 6

/-- The format of a mode (R236). -/
def fclassFmt : FclassFmt → Fmt
  | .f32 => .f32
  | .f64 => .f64
  | .f16 => .f16
  | .bf16 => .bf16

/-- FCLASS (R236). -/
def execFclass (d a : RegN) (mode : FclassFmt) (st : BitVec 2) (s : State) : Host.Outcome State Fault Refusal :=
  let f := fclassFmt mode
  let wide := mode == .f64
  s.lane ⟨if wide then 8 else 4, false, false⟩ d.toNat [(a.toNat, wide)] [] st fun _ _ xs =>
    2 ^ classBit f (nth xs 0 0 % 2 ^ f.width)

end Sys2Proof.Machine
end

