-- ==== Sys2Proof/Machine/FormWords.lean ====
section
/-! DEFINITION. The register words of the form pipe: FR, FI and FK (R167 to R172), and FC's compares, predicate logic and
selects (R173 to R175). Every word is its value and closure over the shared operations of Operands and Flags. -/

namespace Sys2Proof.Machine

/-- MOV (R168): d receives A; always a form of a form. -/
def execMov (d a : RegN) (ka wide : Bool) (s : State) : Host.Outcome State Fault Refusal :=
  s.fr1 opAdd 0 d.toNat a.toNat ka wide

/-- IADD (R168): Wrap(A + B, w). -/
def execIadd (d a b : RegN) (ka kb wide : Bool) (s : State) : Host.Outcome State Fault Refusal :=
  s.fr2 opAdd d.toNat a.toNat b.toNat ka kb wide true

/-- ISUB (R168): Wrap(A − B, w). -/
def execIsub (d a b : RegN) (ka kb wide : Bool) (s : State) : Host.Outcome State Fault Refusal :=
  s.fr2 opSub d.toNat a.toNat b.toNat ka kb wide true

/-- IMUL (R168): Wrap(A · B, w). -/
def execImul (d a b : RegN) (ka kb wide : Bool) (s : State) : Host.Outcome State Fault Refusal :=
  s.fr2 opMul d.toNat a.toNat b.toNat ka kb wide true

/-- SHL (R168): Wrap(A · 2^k, w). -/
def execShl (d a b : RegN) (ka kb wide : Bool) (s : State) : Host.Outcome State Fault Refusal :=
  s.fr2 opShl d.toNat a.toNat b.toNat ka kb wide false

/-- SHR (R168): A ÷ 2^k, unsigned. -/
def execShr (d a b : RegN) (ka kb wide : Bool) (s : State) : Host.Outcome State Fault Refusal :=
  s.fr2 opShr d.toNat a.toNat b.toNat ka kb wide false

/-- SAR (R168): the signed shift. -/
def execSar (d a b : RegN) (ka kb wide : Bool) (s : State) : Host.Outcome State Fault Refusal :=
  s.fr2 opSar d.toNat a.toNat b.toNat ka kb wide false

/-- AND (R168). -/
def execAnd (d a b : RegN) (ka kb wide : Bool) (s : State) : Host.Outcome State Fault Refusal :=
  s.fr2 (opBits (· &&& ·)) d.toNat a.toNat b.toNat ka kb wide true

/-- OR (R168). -/
def execOr (d a b : RegN) (ka kb wide : Bool) (s : State) : Host.Outcome State Fault Refusal :=
  s.fr2 (opBits (· ||| ·)) d.toNat a.toNat b.toNat ka kb wide true

/-- XOR (R168). -/
def execXor (d a b : RegN) (ka kb wide : Bool) (s : State) : Host.Outcome State Fault Refusal :=
  s.fr2 (opBits (· ^^^ ·)) d.toNat a.toNat b.toNat ka kb wide true

/-- ANDN (R168): A AND NOT B. -/
def execAndn (d a b : RegN) (ka kb wide : Bool) (s : State) : Host.Outcome State Fault Refusal :=
  s.fr2 (opBits fun a b => a - (a &&& b)) d.toNat a.toNat b.toNat ka kb wide true

/-- IMIN (R168): signed minimum. -/
def execImin (d a b : RegN) (ka kb wide : Bool) (s : State) : Host.Outcome State Fault Refusal :=
  s.fr2 (opPick .le true) d.toNat a.toNat b.toNat ka kb wide true

/-- IMAX (R168): signed maximum. -/
def execImax (d a b : RegN) (ka kb wide : Bool) (s : State) : Host.Outcome State Fault Refusal :=
  s.fr2 (opPick .ge true) d.toNat a.toNat b.toNat ka kb wide true

/-- NMIN (R168): unsigned minimum. -/
def execNmin (d a b : RegN) (ka kb wide : Bool) (s : State) : Host.Outcome State Fault Refusal :=
  s.fr2 (opPick .le false) d.toNat a.toNat b.toNat ka kb wide true

/-- NMAX (R168): unsigned maximum. -/
def execNmax (d a b : RegN) (ka kb wide : Bool) (s : State) : Host.Outcome State Fault Refusal :=
  s.fr2 (opPick .ge false) d.toNat a.toNat b.toNat ka kb wide true

/-- Zero minus the source; the absolute value, whose closure is the source or its negation (R168). -/
def opNeg : Op2 := ⟨fun _ a _ => -(a : Int), fun _ _ a _ => some (-(a.1 : Int), -a.2)⟩

/-- The absolute value (R168). -/
def opAbs : Op2 :=
  ⟨fun w a _ => (sext w a).natAbs,
   fun e w a _ => (e.trivial .ge true w a (0, 0)).map fun t => if t then ((a.1 : Int), a.2) else (-(a.1 : Int), -a.2)⟩

/-- INEG (R168): Wrap(−A, w). -/
def execIneg (d a : RegN) (ka wide : Bool) (s : State) : Host.Outcome State Fault Refusal :=
  s.fr1 opNeg 0 d.toNat a.toNat ka wide

/-- IABS (R168): Wrap(|A|, w), A signed. -/
def execIabs (d a : RegN) (ka wide : Bool) (s : State) : Host.Outcome State Fault Refusal :=
  s.fr1 opAbs 0 d.toNat a.toNat ka wide

/-- MKFORM (R168): A + SignExtend(B, 32) · i over the absolute index i. -/
def execMkform (d a b : RegN) (ka kb wide : Bool) (s : State) : Host.Outcome State Fault Refusal :=
  s.runWord (fun _ => frShape d.toNat wide a.toNat wide (some (b.toNat, false)) ka kb) fun s e =>
    let clo := match e.form wide a.toNat, e.form false b.toNat with
      | some x, some y =>
        if x.2 = 0 ∧ y.2 = 0 then formRes wide ((x.1 : Int) + sext 32 y.1 * e.grp.lo) (sext 32 y.1) else none
      | _, _ => none
    e.put s d.toNat (e.formWord wide clo fun p =>
      (e.val wide a.toNat p : Int) + sext 32 (e.val false b.toNat p) * e.index p)

/-- XBASE (R169): the base of the form a reads as, else each lane's value. -/
def execXbase (d a : RegN) (ka wide : Bool) (s : State) : Host.Outcome State Fault Refusal :=
  s.runWord (fun _ => frShape d.toNat wide a.toNat wide none ka false) fun s e =>
    let f := e.form wide a.toNat
    e.put s d.toNat (e.formWord wide (f.bind fun x => formRes wide x.1 0) fun p =>
      match f with
      | some x => (x.1 : Int)
      | none => e.val wide a.toNat p)

/-- The tag XSTRIDE reports for a register (R169). -/
def Env.tag (e : Env) (r : Nat) : Nat :=
  if e.view.relMask e.unit.lanes r == e.unit.lanes then 3
  else match (e.view.cell r).kind with
    | .f32 _ _ => 0
    | .f64 _ _ => 1
    | .f64hi => 1
    | .e _ _ => 2

/-- XSTRIDE (R169): the stride of the form a reads as, else 0; at 64 bits with a's tag. It reads no value of a, and of a
released register gives the stride its cell still holds (log 80, DESIGN CHOICE). -/
def execXstride (d a : RegN) (ka wide : Bool) (s : State) : Host.Outcome State Fault Refusal :=
  s.runWord
    (fun _ => { dsts := regsOf wide d.toNat, names := [a.toNat], rel := if ka then [a.toNat] else [] }) fun s e =>
    let st : Nat := match e.view.form32 a.toNat with
      | some f => f.2.toNat
      | none => 0
    .done s (e.write d.toNat (e.sameWord wide (if wide then st + 2 ^ 32 * e.tag a.toNat else st : Nat)))

/-- RDFIRST (R170): the value of the lowest-index member, for every member. -/
def execRdfirst (d a : RegN) (ka wide : Bool) (s : State) : Host.Outcome State Fault Refusal :=
  s.runWord
    (fun _ => { dsts := regsOf wide d.toNat, firsts := regsOf wide a.toNat
                rel := if ka then regsOf wide a.toNat else [] }) fun s e =>
    if e.grp.span && (e.form wide a.toNat).isNone then .expand
    else .done s (e.write d.toNat (e.sameWord wide (e.val wide a.toNat e.first)))

/-- EXPAND (R170): copies A and tags d E; a span expands; a control core copies (R192). -/
def execExpand (d a : RegN) (ka wide : Bool) (s : State) : Host.Outcome State Fault Refusal :=
  s.runWord (fun _ => frShape d.toNat wide a.toNat wide none ka false) fun s e =>
    if e.grp.span && !e.solo then .expand
    else .done s (e.write d.toNat (lanesRes wide fun p => e.val wide a.toNat p))

/-- IADDI (R171): as IADD with the immediate. -/
def execIaddi (d a : RegN) (imm : BitVec 12) (s : State) : Host.Outcome State Fault Refusal :=
  s.fi opAdd d.toNat a.toNat imm false

/-- IMULI (R171): as IMUL with the immediate. -/
def execImuli (d a : RegN) (imm : BitVec 12) (s : State) : Host.Outcome State Fault Refusal :=
  s.fi opMul d.toNat a.toNat imm false

/-- SHLI (R171): as SHL with the immediate. -/
def execShli (d a : RegN) (imm : BitVec 12) (s : State) : Host.Outcome State Fault Refusal :=
  s.fi opShl d.toNat a.toNat imm false

/-- SHRI (R171): as SHR with the immediate. -/
def execShri (d a : RegN) (imm : BitVec 12) (s : State) : Host.Outcome State Fault Refusal :=
  s.fi opShr d.toNat a.toNat imm false

/-- SARI (R171): as SAR with the immediate. -/
def execSari (d a : RegN) (imm : BitVec 12) (s : State) : Host.Outcome State Fault Refusal :=
  s.fi opSar d.toNat a.toNat imm false

/-- ANDI (R171): as AND with the immediate. -/
def execAndi (d a : RegN) (imm : BitVec 12) (s : State) : Host.Outcome State Fault Refusal :=
  s.fi (opBits (· &&& ·)) d.toNat a.toNat imm false

/-- ORI (R171): as OR with the immediate. -/
def execOri (d a : RegN) (imm : BitVec 12) (s : State) : Host.Outcome State Fault Refusal :=
  s.fi (opBits (· ||| ·)) d.toNat a.toNat imm false

/-- XORI (R171): as XOR with the immediate. -/
def execXori (d a : RegN) (imm : BitVec 12) (s : State) : Host.Outcome State Fault Refusal :=
  s.fi (opBits (· ^^^ ·)) d.toNat a.toNat imm false

/-- IADDIW (R171): as IADD at 64 bits with the immediate. -/
def execIaddiw (d a : RegN) (imm : BitVec 12) (s : State) : Host.Outcome State Fault Refusal :=
  s.fi opAdd d.toNat a.toNat imm true

/-- A word that writes one constant to every thread: always uniform (R171, R172). -/
def State.constWord (s : State) (d : Nat) (x : Int) : Host.Outcome State Fault Refusal :=
  s.runWord (fun _ => { dsts := [d] }) fun s e => e.put s d (e.formWord false (formRes false x 0) fun _ => x)

/-- MOVI (R171): Wrap(imm, 32), uniform. -/
def execMovi (d : RegN) (imm : BitVec 12) (s : State) : Host.Outcome State Fault Refusal :=
  s.constWord d.toNat (sext 12 imm.toNat)

/-- MOVL (R172): the immediate, zero-extended. -/
def execMovl (d : RegN) (imm : BitVec 16) (s : State) : Host.Outcome State Fault Refusal :=
  s.constWord d.toNat imm.toNat

/-- MOVH (R172): the immediate over the low half of d, which it reads. -/
def execMovh (d : RegN) (imm : BitVec 16) (s : State) : Host.Outcome State Fault Refusal :=
  s.runWord (fun _ => { dsts := [d.toNat], srcs := [d.toNat] }) fun s e =>
    let f (x : Nat) : Int := (imm.toNat * 65536 + x % 65536 : Nat)
    let clo := match e.form false d.toNat with
      | some x => if x.2 = 0 then formRes false (f x.1) 0 else none
      | none => none
    e.put s d.toNat (e.formWord false clo fun p => f (e.val false d.toNat p))

/-- MOVS (R172): the immediate, sign-extended. -/
def execMovs (d : RegN) (imm : BitVec 16) (s : State) : Host.Outcome State Fault Refusal :=
  s.constWord d.toNat (sext 16 imm.toNat)

/-- ICMP (R173). -/
def execIcmp (pd : PredN) (a b : RegN) (cond : Cond) (s : State) : Host.Outcome State Fault Refusal :=
  s.compare cond true false pd.toNat 7 a.toNat (some b.toNat) 0 .plain

/-- ICMPA (R173). -/
def execIcmpa (pd : PredN) (ps : PredN) (a b : RegN) (cond : Cond) (s : State) : Host.Outcome State Fault Refusal :=
  s.compare cond true false pd.toNat ps.toNat a.toNat (some b.toNat) 0 .with_and

/-- ICMPO (R173). -/
def execIcmpo (pd : PredN) (ps : PredN) (a b : RegN) (cond : Cond) (s : State) : Host.Outcome State Fault Refusal :=
  s.compare cond true false pd.toNat ps.toNat a.toNat (some b.toNat) 0 .with_or

/-- NCMP (R173). -/
def execNcmp (pd : PredN) (a b : RegN) (cond : Cond) (s : State) : Host.Outcome State Fault Refusal :=
  s.compare cond false false pd.toNat 7 a.toNat (some b.toNat) 0 .plain

/-- NCMPA (R173). -/
def execNcmpa (pd : PredN) (ps : PredN) (a b : RegN) (cond : Cond) (s : State) : Host.Outcome State Fault Refusal :=
  s.compare cond false false pd.toNat ps.toNat a.toNat (some b.toNat) 0 .with_and

/-- NCMPO (R173). -/
def execNcmpo (pd : PredN) (ps : PredN) (a b : RegN) (cond : Cond) (s : State) : Host.Outcome State Fault Refusal :=
  s.compare cond false false pd.toNat ps.toNat a.toNat (some b.toNat) 0 .with_or

/-- ICMPI (R173): against a signed 6-bit immediate. -/
def execIcmpi (pd : PredN) (a : RegN) (imm : BitVec 6) (cond : Cond) (s : State) : Host.Outcome State Fault Refusal :=
  s.compare cond true false pd.toNat 7 a.toNat none (wrap 32 (sext 6 imm.toNat)) .plain

/-- NCMPI (R173): against an unsigned 6-bit immediate. -/
def execNcmpi (pd : PredN) (a : RegN) (imm : BitVec 6) (cond : Cond) (s : State) : Host.Outcome State Fault Refusal :=
  s.compare cond false false pd.toNat 7 a.toNat none imm.toNat .plain

/-- ICMPW (R173): signed 64-bit pairs. -/
def execIcmpw (pd : PredN) (a b : RegN) (cond : Cond) (s : State) : Host.Outcome State Fault Refusal :=
  s.compare cond true true pd.toNat 7 a.toNat (some b.toNat) 0 .plain

/-- NCMPW (R173): unsigned 64-bit pairs. -/
def execNcmpw (pd : PredN) (a b : RegN) (cond : Cond) (s : State) : Host.Outcome State Fault Refusal :=
  s.compare cond false true pd.toNat 7 a.toNat (some b.toNat) 0 .plain

/-- PAND (R174). -/
def execPand (pd pa pb : PredN) (s : State) : Host.Outcome State Fault Refusal :=
  s.plogic pd.toNat [pa.toNat, pb.toNat] fun l => nth l 0 false && nth l 1 false

/-- POR (R174). -/
def execPor (pd pa pb : PredN) (s : State) : Host.Outcome State Fault Refusal :=
  s.plogic pd.toNat [pa.toNat, pb.toNat] fun l => nth l 0 false || nth l 1 false

/-- PXOR (R174). -/
def execPxor (pd pa pb : PredN) (s : State) : Host.Outcome State Fault Refusal :=
  s.plogic pd.toNat [pa.toNat, pb.toNat] fun l => xor (nth l 0 false) (nth l 1 false)

/-- PANDN (R174). -/
def execPandn (pd pa pb : PredN) (s : State) : Host.Outcome State Fault Refusal :=
  s.plogic pd.toNat [pa.toNat, pb.toNat] fun l => nth l 0 false && !nth l 1 false

/-- PNOT (R174). -/
def execPnot (pd pa : PredN) (s : State) : Host.Outcome State Fault Refusal :=
  s.plogic pd.toNat [pa.toNat] fun l => !nth l 0 false

/-- PSET (R174). -/
def execPset (pd : PredN) (k : Bool) (s : State) : Host.Outcome State Fault Refusal :=
  s.plogic pd.toNat [] fun _ => k

/-- PCUT (R174): the indices below, or at or above, the pair a. -/
def execPcut (pd : PredN) (a : RegN) (above : Bool) (s : State) : Host.Outcome State Fault Refusal :=
  s.runWord (fun _ => { srcs := regsOf true a.toNat, pdsts := [pd.toNat] }) fun s e =>
    let cut := match e.form true a.toNat with
      | some x => if x.2 = 0 then some (if above then Cut.atOrAbove x.1 else .below x.1) else none
      | none => none
    e.pput s pd.toNat (e.pred cut fun p =>
      if above then decide (e.val true a.toNat p ≤ e.index p) else decide (e.index p < e.val true a.toNat p))

/-- SEL (R175). -/
def execSel (d a b : RegN) (p : PredN) (sense : Bool) (s : State) : Host.Outcome State Fault Refusal :=
  s.select d.toNat a.toNat b.toNat p.toNat sense false

/-- SELW (R175): on pairs. -/
def execSelw (d a b : RegN) (p : PredN) (sense : Bool) (s : State) : Host.Outcome State Fault Refusal :=
  s.select d.toNat a.toNat b.toNat p.toNat sense true

/-- PTOI (R175): 1 where the predicate, after sense, is true. -/
def execPtoi (d : RegN) (p : PredN) (sense : Bool) (s : State) : Host.Outcome State Fault Refusal :=
  s.runWord (fun _ => { dsts := [d.toNat], psrcs := [p.toNat] }) fun s e =>
    let clo := (e.choice p.toNat sense).bind fun t => formRes false (if t then 1 else 0) 0
    e.put s d.toNat (e.formWord false clo fun pos => if xor (e.pval p.toNat pos) sense then 1 else 0)

end Sys2Proof.Machine
end

