-- ==== Sys2Proof/Machine/Cmac.lean ====
section
/-! DEFINITION. AES-128 (FIPS 197) and its CMAC (NIST SP 800-38B), which seal a postmark (R322); the CRC-64 of a
digest (R358). Bytes are numbers below 256, blocks are lists of sixteen. -/

namespace Sys2Proof.Machine

/-! ### AES-128 -/

/-- Twice a field element. -/
def xtime (a : Nat) : Nat := (2 * a % 256) ^^^ (if 128 ≤ a then 0x1B else 0)

/-- The product of two field elements, over the low n bits of the second. -/
def gmul : Nat → Nat → Nat → Nat
  | 0, _, _ => 0
  | n + 1, a, b => (if b % 2 = 1 then a else 0) ^^^ gmul n (xtime a) (b / 2)

/-- The square of a field element. -/
def gsq (a : Nat) : Nat := gmul 8 a a

/-- The inverse of a field element, its 254th power; 0 for 0. -/
def ginv (a : Nat) : Nat :=
  let a2 := gsq a
  let a3 := gmul 8 a2 a
  let a12 := gsq (gsq a3)
  let a15 := gmul 8 a12 a3
  let a240 := gsq (gsq (gsq (gsq a15)))
  gmul 8 a240 (gmul 8 a12 a2)

/-- A byte turned left by n bits. -/
def rotl8 (a n : Nat) : Nat := (a * 2 ^ n % 256) ||| (a / 2 ^ (8 - n))

/-- The substitution of a byte. -/
def sbox (a : Nat) : Nat :=
  let b := ginv a
  b ^^^ rotl8 b 1 ^^^ rotl8 b 2 ^^^ rotl8 b 3 ^^^ rotl8 b 4 ^^^ 0x63

/-- The bitwise difference of two lists of bytes. -/
def xorBytes (a b : List Nat) : List Nat := (a.zip b).map fun x => x.1 ^^^ x.2

/-- Rows shifted: byte r + 4c comes from column c + r. -/
def shiftRows (s : List Nat) : List Nat := (upto 0 16).map fun i => nth s (i % 4 + 4 * ((i / 4 + i % 4) % 4)) 0

/-- One column mixed. -/
def mixCol (c : List Nat) : List Nat :=
  (upto 0 4).map fun i =>
    gmul 8 (nth c i 0) 2 ^^^ gmul 8 (nth c ((i + 1) % 4) 0) 3 ^^^ nth c ((i + 2) % 4) 0 ^^^ nth c ((i + 3) % 4) 0

/-- All columns mixed. -/
def mixCols (s : List Nat) : List Nat := (upto 0 4).flatMap fun c => mixCol ((s.drop (4 * c)).take 4)

/-- The next round key. -/
def nextKey (k : List Nat) (rcon : Nat) : List Nat :=
  let t := [sbox (nth k 13 0) ^^^ rcon, sbox (nth k 14 0), sbox (nth k 15 0), sbox (nth k 12 0)]
  let w0 := xorBytes (k.take 4) t
  let w1 := xorBytes ((k.drop 4).take 4) w0
  let w2 := xorBytes ((k.drop 8).take 4) w1
  w0 ++ w1 ++ w2 ++ xorBytes (k.drop 12) w2

/-- Rounds from a state on: n rounds left, with the key and round constant before them. -/
def aesRounds : Nat → Nat → List Nat → List Nat → List Nat
  | 0, _, _, s => s
  | n + 1, rcon, k, s =>
    let k := nextKey k rcon
    let t := shiftRows (s.map sbox)
    aesRounds n (xtime rcon) k (xorBytes (if n = 0 then t else mixCols t) k)

/-- AES-128 of a block under a key. -/
def aes (key block : List Nat) : List Nat := aesRounds 10 1 key (xorBytes block key)

/-! ### CMAC -/

/-- A block shifted left by one bit, with the constant of the subkeys. -/
def dbl (b : List Nat) : List Nat :=
  let x := b.foldl (fun n v => 256 * n + v) 0
  let y := (2 * x % 2 ^ 128) ^^^ (if 2 ^ 127 ≤ x then 0x87 else 0)
  (upto 0 16).map fun i => y / 256 ^ (15 - i) % 256

/-- The chain of whole blocks, the last one masked with the first subkey. -/
def cmacFrom (key k1 : List Nat) : Nat → List Nat → List Nat → List Nat
  | 0, c, _ => c
  | 1, c, m => aes key (xorBytes (xorBytes c (m.take 16)) k1)
  | n + 1, c, m => cmacFrom key k1 n (aes key (xorBytes c (m.take 16))) (m.drop 16)

/-- The CMAC of a message of whole blocks, one or more. -/
def cmac (key msg : List Nat) : List Nat :=
  cmacFrom key (dbl (aes key (List.replicate 16 0))) (msg.length / 16) (List.replicate 16 0) msg

/-! ### CRC-64 -/

/-- One byte of a CRC-64 with polynomial 0x42F0E1EBA9EA3693: n bits left. -/
def crcBits : Nat → Nat → Nat
  | 0, c => c
  | n + 1, c => crcBits n ((2 * c % 2 ^ 64) ^^^ (if 2 ^ 63 ≤ c then 0x42F0E1EBA9EA3693 else 0))

/-- The CRC-64 of bytes (R358). -/
def crc64 (bs : List Nat) : Nat := bs.foldl (fun c b => crcBits 8 (c ^^^ (b * 2 ^ 56))) 0

end Sys2Proof.Machine
end

