-- ==== Sys2Proof/Machine/Launch.lean ====
section
/-! DEFINITION. Launches: admission (R193, R307 to R309, R315 to R317, R347, R348, R368), placing and starting blocks (R18,
R31, R318, R352), stealing, LWAIT (R194), and the postmark (R322, R358). -/

namespace Sys2Proof.Machine

/-! ### Regions (R307 to R309) -/

/-- A region control block may stand on a path: no reserved field or code, a version this part holds (R307, R308). -/
def regionOk (x : Nat) : Bool :=
  decide (bits x 415 408 ≤ 192) && (bits x 407 400 == 0 || Config.ftvHeld (bits x 407 400)) &&
    decide (bits x 395 393 ≤ 3) && bits x 392 391 != 3 && bits x 390 384 == 0 && bits x 367 0 == 0

/-- The region path from an address, of at most n blocks (R308). -/
def State.regionPath (s : State) (part : Nat) : Nat → Nat → Option (List Nat)
  | 0, a => if a = 0 then some [] else none
  | n + 1, a =>
    if a = 0 then some []
    else if a % 64 ≠ 0 ∨ isDram a = false ∨ s.paOk part a = false then none
    else
      let x := s.homeNat a 64
      if regionOk x then (s.regionPath part n (bits x 511 448)).map (a :: ·) else none

/-- A policy of the nearest block of a path that sets it (R308). -/
def State.policyOf (s : State) (path : List Nat) (hi lo : Nat) : Nat :=
  ((path.map fun a => bits (s.homeNat a 64) hi lo).find? (· ≠ 0)).getD 0

/-- LIVE of a region block. -/
def State.live (s : State) (a : Nat) : Nat := s.homeNat (a + 52) 2

/-- Add to LIVE on every block of a path (R309). -/
def State.addLive (s : State) (path : List Nat) (d : Int) : State :=
  path.foldl (fun (s : State) a => s.homeWrite (a + 52) (leBytes 2 (wrap 16 (s.live a + d)))) s

/-- Some block of a path has as many live launches as it allows (R309). -/
def State.overLive (s : State) (path : List Nat) : Bool :=
  path.any fun a => bits (s.homeNat a 64) 447 432 != 0 && decide (bits (s.homeNat a 64) 447 432 ≤ s.live a)

/-- The smallest MAXCORES a path sets. -/
def State.maxCores (s : State) (path : List Nat) : Option Nat :=
  match (path.map fun a => bits (s.homeNat a 64) 415 408).filter (· ≠ 0) with
  | [] => none
  | x :: r => some (r.foldl min x)

/-! ### Ownership tables (R347, R348) -/

/-- A descriptor of an ownership table is well formed. -/
def ownDescOk (d : BitVec 256) : Bool :=
  let x := d.toNat
  let base := bits x 255 192
  let len := bits x 191 128
  let stride := bits x 127 96
  let first := bits x 95 64
  let kind := bits x 1 0
  bits x 63 2 == 0 && kind != 3 && base % 64 == 0 && len % 64 == 0 && stride % 64 == 0 &&
    (kind != 1 || stride != 0) && (kind != 2 || (stride == 0 && first == 0)) &&
    (kind != 0 || (base == 0 && len == 0 && stride == 0 && first == 0)) && decide (base + len ≤ 2 ^ 56)

/-- What a read through a context's translations needs has passed its self-test, seen from a die (R382). -/
def State.readable (s : State) (c : Ctx) (die va : Nat) : Bool :=
  s.walkable die c.part c.ptroot va && (match (walk s c.part c.ptroot (va % 2 ^ 57)).2 with
    | .leaf _ pa _ => s.usable die pa
    | _ => true)

/-- Read descriptors of a table through the context's translations. -/
def State.ownDescs (s : State) (c : Ctx) : List Nat → State × Option (List (BitVec 256))
  | [] => (s, some [])
  | va :: r =>
    match (if vwin va = .global then s.translate c va .read else (s, .fault 0 0)) with
    | (s, .fault _ _) => (s, none)
    | (s, .leaf _ pa _) =>
      let d := BitVec.ofNat 256 (s.homeNat pa 32)
      match s.ownDescs c r with
      | (s, some l) => (s, if ownDescOk d then some (d :: l) else none)
      | x => x

/-- The ownership table a launch names; none where the record is malformed (R348). -/
def State.readOwnt (s : State) (c : Ctx) (va : Nat) : State × Option (List (BitVec 256)) :=
  if va = 0 then (s, some [])
  else if va % 64 ≠ 0 then (s, none)
  else s.ownDescs c ((upto 0 16).map fun i => va + 32 * i)

/-! ### Checks of a record (R15, R193, R314, R315) -/

/-- The role groups a record declares keep R15, and an invalid one is all zero. -/
def Launch.groupsOk (l : Launch) : Bool :=
  let raw (n : Nat) : Nat := l.fld (32 * n + 671) (32 * n + 640)
  let gs := (upto 0 4).filterMap l.group?
  (upto 0 4).all (fun n => if bit (raw n) 24 then bits (raw n) 31 25 == 0 else raw n == 0) &&
    gs.all (fun g => decide (g.1 < g.2.1) && g.1 % 32 == 0 && g.2.1 % 32 == 0) &&
    (upto 0 gs.length).all (fun i => (upto 0 i).all fun j =>
      let x := nth gs i (0, 0, 0)
      let y := nth gs j (0, 0, 0)
      decide (x.2.1 ≤ y.1) || decide (y.2.1 ≤ x.1)) &&
    (gs.isEmpty || l.b % 32 == 0)

/-- The fields of a record are well formed by themselves (log 57, DEDUCED). -/
def Launch.fieldsOk (l : Launch) : Bool :=
  let hint := l.fld 895 832
  l.fld 1023 912 == 0 && l.fld 639 619 == 0 && l.fld 607 593 == 0 && l.fld 511 477 == 0 &&
    l.b != 0 && decide (l.n ≤ 2 ^ 40) && l.groupsOk && l.g != 0 && decide (l.g ≤ 64) &&
    decide (l.p ≤ 65536) && l.p % 16 == 0 && l.fld 575 544 % 4096 == 0 &&
    (l.fld 575 544 == 0) == (l.fld 473 471 == 0) && decide (l.fld 473 471 ≤ 3) && l.progress != 3 &&
    hint / 2 ^ 12 == 0 && decide (bits hint 11 4 ≤ 8) && l.fld 831 768 % 65536 == 0 && l.fld 255 192 != 0

/-- The mode of a code (R314). -/
def modeOf : Nat → Mode
  | 0 => .normal
  | 1 => .deterministic
  | 2 => .dual
  | _ => .triple

/-- The effective mode under REDUN (R308). -/
def raisedMode (m : Mode) (redun : Nat) : Mode :=
  match m, redun with
  | .normal, 2 => .dual
  | .normal, 3 => .triple
  | .dual, 3 => .triple
  | m, _ => m

/-- Blocks k of a launch that one core can hold (R316). -/
def Launch.perCore (l : Launch) : Nat :=
  min (min 8 (Config.scratchpadBytes / max l.s 32)) (min (16 / max l.tiles 1) (1024 / max l.obuf 1))

/-- Cores that a launch placed whole needs (R316). -/
def Launch.coresNeeded (l : Launch) : Nat := cdiv (l.blocks * l.mode.replicas) l.perCore

/-- Register bytes of a block (R317). -/
def Launch.regBytes (l : Launch) : Nat := cdiv l.b 32 * 128 * l.g

/-- Bytes of a die's satchel area (R379). -/
def State.satchelArea (s : State) (die : Nat) : Nat := 0x4000000 * (nth s.mgmt die ⟨0, 0, 0, 0⟩).satsize.toNat

/-- The lowest status other than 4 that rejects a well-formed record; 0 where it is accepted (R315). `codeOk`: its CODE is a segment
start of an accepted frame. -/
def State.rejects (s : State) (part : Nat) (l : Launch) (codeOk : Bool) : Nat :=
  let dies := s.diesPer
  let noArea := l.satchel != 0 && (s.partDies part).all fun d => s.satchelArea d == 0
  let conc := l.progress == 2
  if l.fld 543 512 > Config.scratchpadBytes ∨ 16 < l.tiles ∨ 1024 < l.obuf ∨ 1048576 < l.satchel ∨ noArea = true then 1
  else if 1024 < l.b then 2
  else if (l.mode = .dual ∧ dies < 2) ∨ (l.mode = .triple ∧ dies < 4) ∨
      (conc = true ∧ Config.coresPerDie * dies < l.coresNeeded) then 3
  else if s.overLive l.path ∨ (conc = true ∧ (match s.maxCores l.path with
      | some m => decide (m < l.coresNeeded)
      | none => false) = true) then 5
  else if !codeOk then 6 else 0

/-! ### LAUNCH (R193) -/

/-- The trace arm a launch takes, if its context's is armed for its code (R368). -/
def State.traceArm (s : State) (c : Ctx) (code : Nat) : State × Option Trace :=
  let arm := if c.mbox = 0 then 0 else s.partNat c.part (c.mbox + 48) 8
  if arm = 0 then (s, none)
  else
    let x := s.partNat c.part arm 64
    if bit x 0 && bits x 511 448 == code then
      (s.partWrite c.part arm [BitVec.ofNat 8 (x % 256) &&& 0xFE], some ⟨bits x 447 384, bits x 383 320, bits x 319 288⟩)
    else (s, none)

/-- A launch as a record and its region path give it, before admission (R308). -/
def State.candidate (s : State) (e : Env) (c : Ctx) (record : BitVec 1024) (path : List Nat) : Launch :=
  let x := record.toNat
  let own := modeOf (bits x 473 471)
  let mode := raisedMode own (s.policyOf path 395 393)
  let or' (v d : Nat) : Nat := if v = 0 then d else v
  { lid := 0, cc := e.core - Config.cores, sitePc := e.unit.pc, lseq := 0, record := record, ctx := c
    ftv := or' (s.policyOf path 407 400) c.ftv, prio := or' (s.policyOf path 399 396) 8, mode := mode
    fpol := or' (s.policyOf path 392 391) 1, fdom := BitVec.ofNat 16 (s.policyOf path 383 368)
    satchel := if mode = .normal then 0 else if own = .normal then 262144 else bits x 575 544
    path := path, ownt := [], nextBlk := 0, again := [], endedBlks := [], retries := [], sigs := [], status := 0
    ovf := false, capc := false, vote := false, mism := false, st := .running, trace := none, held := [] }

/-- The outcome of an admission: a status, with the launch where it is accepted; or it waits, for a self-test or for a frame of
code beyond the fabric. -/
inductive Listed where
  | status (s : State) (n : Nat)
  | later
  | asked (s : State)
deriving DecidableEq, Repr

/-- Admission (R309, R315, R317): the status, and the state with the launch where it is accepted. The check of CODE waits where
its frame cannot be scanned yet (R158, R319). -/
def State.enlist (s : State) (e : Env) (c : Ctx) (record : BitVec 1024) : Listed :=
  match s.regionPath e.ppart 8 (bits record.toNat 255 192) with
  | none => .status s 4
  | some path =>
    let l := s.candidate e c record path
    let own := l.fld 447 384
    if !l.fieldsOk then .status s 4
    else if l.staged && own != 0 && !(upto 0 16).all (fun i => s.readable c e.die (own + 32 * i)) then .later
    else
      match (if l.staged then s.readOwnt c own else (s, some [])) with
      | (s, none) => .status s 4
      | (s, some ownt) =>
        let i := e.idx e.first
        let code := BitVec.ofNat 64 (l.fld 63 0)
        let (s, f) := s.fetchSeg c e.die e.bid i code
        match s.rejects e.ppart l true, f with
        | 0, .later => .later
        | 0, .ask frame => .asked (s.askFrame e.bid i frame code e.origin)
        | 0, .words _ =>
          let (n, s) := (s.takeFrame e.bid i).fresh
          let seq := ((s.cc? l.cc).map (·.lseq)).getD 0 + 1
          let s := (s.addLive path 1).onCc l.cc fun k => { k with lseq := seq }
          let (s, tr) := s.traceArm c (l.fld 63 0)
          let ovf := l.progress == 2 && decide (786432 < l.perCore * l.regBytes)
          .status { s with launches := s.launches ++
            [{ l with lid := n, lseq := seq, ownt := ownt, ovf := ovf, trace := tr }] } 0
        | 0, _ => .status (s.takeFrame e.bid i) 6
        | k, _ => .status s k

/-- A word of control cores alone (R192). -/
def ccWord (e : Env) : Option Nat := if e.solo then none else some 4

/-- LAUNCH (R193): the release step, the record, the status. -/
def execLaunch (d a : RegN) (s : State) : Host.Outcome State Fault Refusal :=
  s.runWord (fun e => { dsts := [d.toNat], srcs := regsOf true a.toNat, lat := none, pre := ccWord e }) fun s e =>
    let va := e.val true a.toNat e.first
    let put (n : Nat) : Env := e.write d.toNat (.form (BitVec.ofNat 32 n) 0)
    match e.ctx with
    | none => .trap 16 0 1
    | some c =>
      if s.unreleased e then .wait
      else
        let s := s.flush e.core .device
        if va % 128 ≠ 0 then .done s (put 4)
        else match s.checks e ⟨128, 1, false, .read, 0⟩ [e.first] fun _ => va with
          | .bad x => x
          | .ok s els =>
            let (s, asked) := s.askFabric e 128 els
            if asked then .hold s .fabricWait
            else s.sound e 128 0 false els <|
              let x := leNat (els.flatMap fun y => s.readElem e y 128 false)
              match s.enlist e c (BitVec.ofNat 1024 x) with
              | .status s n => .done (s.takeFabric e els) (put n)
              | .later => .wait
              | .asked s => .hold s .fabricWait

/-- LWAIT (R194). -/
def execLwait (d a : RegN) (s : State) : Host.Outcome State Fault Refusal :=
  s.runWord (fun e => { dsts := [d.toNat], srcs := regsOf true a.toNat, lat := none, pre := ccWord e }) fun s e =>
    let n := e.val true a.toNat e.first
    let c := e.core - Config.cores
    let put (n : Nat) : Env := e.write d.toNat (.form (BitVec.ofNat 32 n) 0)
    if n = 0 ∨ ((s.cc? c).map (·.lseq)).getD 0 < n then .done s (put 3)
    else match s.launches.find? fun l => l.cc == c && l.lseq == n with
      | none => .done s (put 3)
      | some l => if l.st = .done then .done (s.acquire e.core .device) (put l.status) else .wait

/-! ### Room on a core (R316 to R318, R349) -/

/-- Blocks in residence on a core. -/
def State.residents (s : State) (core : Nat) : List Block := s.blocks.filter fun b => b.core == core && b.st == .running

/-- The lowest place for n units among some ranges of a store of cap units. -/
def firstFit (cap : Nat) (used : List (Nat × Nat)) (n : Nat) : Option Nat :=
  let spots := sortKey id (0 :: used.map fun x => x.1 + x.2)
  if n = 0 then some 0
  else spots.find? fun p => decide (p + n ≤ cap) && !used.any fun x => overlaps p n x.1 x.2

/-- The launch of a block. -/
def State.launchOf (s : State) (b : Block) : Launch :=
  (s.launch? b.lid).getD ((s.launches.head?).getD
    { lid := 0, cc := 0, sitePc := 0, lseq := 0, record := 0, ctx := ⟨0, 0, 0, 0, 0, false, 0, 0, 0, 0, 0, 0, 0⟩, ftv := 0
      prio := 0, mode := .normal, fpol := 0, fdom := 0, satchel := 0, path := [], ownt := [], nextBlk := 0, again := []
      endedBlks := [], retries := [], sigs := [], status := 0, ovf := false, capc := false, vote := false, mism := false
      st := .done, trace := none, held := [] })

/-- The region limits let a core hold a block of a launch (R318). -/
def State.coreLimit (s : State) (l : Launch) (core : Nat) : Bool :=
  l.path.all fun a =>
    let m := bits (s.homeNat a 64) 415 408
    let held := (s.blocks.filter fun b => b.st == .running && (s.launchOf b).path.contains a).map (·.core)
    m == 0 || decide ((dedup (core :: held)).length ≤ m)

/-- Where a block of a launch could stand on a core: its grants' bases in scratchpad, tiles and operand buffers (log 33, DESIGN CHOICE). -/
def State.room (s : State) (l : Launch) (core : Nat) : Option (Nat × Nat × Nat) :=
  let bs := s.residents core
  let ls := bs.map s.launchOf
  let die := coreDie core
  let sat := ((s.blocks.filter fun b => coreDie b.core == die && b.st == .running).map fun b =>
    (s.launchOf b).satchel).foldl (· + ·) 0
  let regs := (ls.map Launch.regBytes).foldl (· + ·) 0
  if Config.cores ≤ core ∨ s.partOf die ≠ l.ctx.part ∨ bit s.bring.ready.toNat 7 = false ∨ Config.blocksPerCore ≤ bs.length ∨
      (l.ovf = false ∧ 786432 < regs + l.regBytes) ∨ s.satchelArea die < sat + l.satchel ∨ s.coreLimit l core = false then
    none
  else
    let at' (base : Block → Nat) (size : Launch → Nat) : List (Nat × Nat) := bs.map fun b => (base b, size (s.launchOf b))
    match firstFit Config.scratchpadBytes (at' (·.spadBase) Launch.s) l.s, firstFit 16 (at' (·.tileBase) Launch.tiles) l.tiles,
        firstFit 1024 (at' (·.obufBase) Launch.obuf) l.obuf with
    | some a, some b, some c => some (a, b, c)
    | _, _, _ => none

/-- A launch whose blocks may stand in run queues and be stolen (R318). -/
def Launch.queues (l : Launch) : Bool := l.progress == 0 && l.mode == .normal

/-- The core whose run queue another core of its die may steal from: the longest one, of these the lowest (R318). -/
def State.isVictim (s : State) (core victim : Nat) : Bool :=
  core != victim && decide (coreDie core = coreDie victim) &&
    (upto (coreDie core * Config.coresPerDie) Config.coresPerDie).all fun c =>
      let n := (s.core c).runq.length
      let v := (s.core victim).runq.length
      if c < victim then decide (n < v) else decide (n ≤ v)

/-- A launch has a block not yet started that a core may take: one dealt to no core, one in the core's own run queue, or, where
that is empty, the one that it may steal (R318). -/
def State.unstarted (s : State) (l : Launch) (core : Nat) : Bool :=
  let q := (s.core core).runq
  l.st == .running && (!l.again.isEmpty || decide (l.nextBlk < l.blocks) || q.any (·.1 == l.lid) ||
    (q.isEmpty && s.cores.any fun v => s.isVictim core v.num && ((v.runq.getLast?).map (·.1)) == some l.lid))

/-! ### Starting a block -/

/-- The root spans of a block, as index ranges (R18): one per role group, one per maximal range no group covers. -/
def Launch.roots (l : Launch) (num : Nat) : List (Nat × Nat) :=
  let (lo, hi) := l.blockRange num
  let len := hi - lo
  let ends := ((upto 0 4).filterMap l.group?).flatMap fun g => [min g.1 len, min g.2.1 len]
  let ps := sortKey id (dedup (0 :: len :: ends))
  ((ps.zip (ps.drop 1)).filter fun x => decide (x.1 < x.2)).map fun x => (lo + x.1, lo + x.2)

/-- A block of a launch starts on a core, in its start state (R18, R52, R88, R90, R241), if there is room. The saturation flag of
a tile starts clear (log 97, DESIGN CHOICE). -/
def State.startBlock (s : State) (l : Launch) (num rank core : Nat) : Option State :=
  (s.room l core).map fun (sb, tb, ob) =>
    let (bid, s) := s.fresh
    let rs := l.roots num
    let pc := BitVec.ofNat 64 (l.fld 63 0)
    let gs := ((upto 0 rs.length).zip rs).map fun x => Grp.root (s.nextId + x.1) x.2.1 x.2.2 pc l.ctx.fpctlDef
    let gs := s.place l num core (fun _ _ => 0) gs
    let part (q : Nat) : Part :=
      { tiles := (upto 0 l.tiles).map fun t => ⟨none, false, some (s.free + 1024 * (l.tiles * q + t)), []⟩
        masks := List.replicate 8 0, resv := List.replicate 16 none, mcfg := 0, obuf := [] }
    let b : Block :=
      { bid := bid, lid := l.lid, num := num, rank := rank, core := core, st := .running
        spadBase := sb, tileBase := tb, obufBase := ob, groups := gs, spad := [], sums := [], absent := [], priv := []
        bars := List.replicate 16 ⟨0, []⟩, tbs := [], parts := (upto 0 4).map part, eng := [], satchel := []
        psums := [], stamp := 0, acquired := [], barStamp := [], tbStamp := [], locStamp := [], pubs := [], released := []
        readStamp := [], full := none, ordinal := 0, commit := none, closed := false, slotImg := [], owed := [], fwdOut := [], fwdTaken := [], copies := [], engOut := [], pathv := []
        lastExit := pc, saving := false, slotNonce := 0, traceUsed := 0, traceFull := false }
    let s := s.spend (4096 * l.tiles)
    { s with blocks := s.blocks ++ [b], nextId := s.nextId + rs.length }

/-- The dies of a block's replicas, by rank, where the first stands on a die (R352). -/
def State.rankDies (s : State) (m : Mode) (d : Nat) : List Nat :=
  match m with
  | .dual => if s.diesPer = 4 then [d, (d + 2) % 4] else [d, d / 2 * 2 + (d + 1) % 2]
  | .triple => [d, (d + 2) % 4, (d + 1) % 4]
  | _ => [d]

/-- A core has room for n blocks of a launch, one after another (R316). -/
def State.roomFor (s : State) (l : Launch) (core : Nat) : Nat → Bool
  | 0 => true
  | n + 1 => ((s.startBlock l 0 0 core).map fun s => s.roomFor l core n).getD false

/-- The cores of a partition. -/
def State.partCores (s : State) (part : Nat) : List Nat :=
  (s.partDies part).flatMap fun d => upto (Config.coresPerDie * d) Config.coresPerDie

/-- Enough cores of the partition have room for as many blocks as one core can hold (R316). -/
def State.wholeRoom (s : State) (l : Launch) : Bool :=
  decide (l.coresNeeded ≤ ((s.partCores l.ctx.part).filter fun c => s.roomFor l c l.perCore).length)

/-- A launch may place a block on a core now (R318): there is room for it, and on the dies of its other replicas; one that is
placed whole has room for all (R316). -/
def State.mayPlace (s : State) (l : Launch) (core : Nat) : Bool :=
  (s.room l core).isSome && (if l.progress = 2 ∧ l.nextBlk = 0 then s.wholeRoom l
    else (s.partDies l.ctx.part).any fun d => (s.rankDies l.mode d).contains (coreDie core) && (s.rankDies l.mode d).all fun x =>
      (upto (Config.coresPerDie * x) Config.coresPerDie).any fun c => (s.room l c).isSome)

/-- A free slot of a core goes to this launch: no other of higher priority, or as high and admitted first, has an unstarted
block that it may place there (R318). -/
def State.inLine (s : State) (l : Launch) (core : Nat) : Bool :=
  !s.launches.any fun m => m.lid != l.lid && s.unstarted m core && m.ctx.part == l.ctx.part &&
    (decide (l.prio < m.prio) || (l.prio == m.prio && decide (m.lid < l.lid))) && s.mayPlace m core

/-- Start every replica of a block on the given cores, all or none (R352). -/
def State.startAll (s : State) (l : Launch) (num : Nat) (cores : List Nat) : Option State :=
  if cores.map coreDie = s.rankDies l.mode (coreDie (cores.headD 0)) then
    ((upto 0 cores.length).zip cores).foldl (fun (s : Option State) x => s.bind fun s => s.startBlock l num x.1 x.2) (some s)
  else none

/-- A block leaves a core's run queue. -/
def State.unqueue (s : State) (core lid num : Nat) : State :=
  let c := s.core core
  s.setCore { c with runq := c.runq.filter fun x => x != (lid, num) }

/-- Nothing of a block is on its way to a home (R126). -/
def State.settled (s : State) (b : Block) : Bool :=
  b.groups.all (·.stq.isEmpty) && !s.homeq.any (·.bid == b.bid) && !s.atoms.any (·.bid == b.bid)
    && !s.fabric.any (fun f => f.write && f.bid == b.bid)
    && !s.cores.any (fun c => c.point.any (·.bid == b.bid)) && !s.dies.any (fun d => d.point.any (·.bid == b.bid))

/-- BLOCK_DISPATCH (R126, R318, R346, R355): the next block of a launch starts on the given cores, one per replica: one to be
started again, on cores whose caches hold nothing older, the first in the core's run queue, or the next in ascending number; without room a weakly parallel one
waits in the core's run queue. -/
def execBlockDispatch (lid : Nat) (cores : List Nat) (s : State) : Host.Outcome State Fault Refusal :=
  .next (match s.launch? lid, cores.head? with
    | some l, some c =>
      if l.st != .running then s
      else
        let start (s : State) (num : Nat) : Option State :=
          if cores.all fun c => s.inLine l c then s.startAll l num cores else none
        match l.again with
        | num :: rest =>
          if (s.blocks.filter fun b => b.lid == lid && b.num == num).any fun b => !s.settled b then s
          else ((start s num).map fun s => (cores.foldl State.dropCaches s).onLaunch lid fun l => { l with again := rest }).getD s
        | [] =>
          if l.progress = 2 then s
          else
            let queued := ((s.core c).runq.find? (·.1 == lid)).bind fun x => (start s x.2).map fun s => s.unqueue c lid x.2
            match queued with
            | some s => s
            | none =>
              let num := l.nextBlk
              if l.blocks ≤ num then s
              else
                let take (s : State) : State := s.onLaunch lid fun l => { l with nextBlk := num + 1 }
                let waits := (s.core c).runq.any (·.1 == lid)
                match (if waits then none else start s num) with
                | some s => take s
                | none =>
                  if l.queues && s.partOf (coreDie c) == l.ctx.part && decide (c < Config.cores) then
                    let k := s.core c
                    take (s.setCore { k with runq := k.runq ++ [(lid, num)] })
                  else s
    | _, _ => s)

/-- STEAL (R318): an idle core takes the last block of the longest run queue of its die. -/
def execSteal (core victim : Nat) (s : State) : Host.Outcome State Fault Refusal :=
  .next (
    let v := s.core victim
    match v.runq.getLast? with
    | none => s
    | some (lid, num) =>
      match s.launch? lid with
      | none => s
      | some l =>
        if core < Config.cores ∧ (s.core core).runq.isEmpty ∧ s.isVictim core victim ∧ l.queues ∧ l.st = .running ∧ (s.room l core).isSome then
          let s := s.unqueue victim lid num
          let k := s.core core
          s.setCore { k with runq := k.runq ++ [(lid, num)] }
        else s)

/-! ### The postmark (R322, R358) -/

/-- The digest of a launch (R358): of a deterministic one over its blocks in order, each with its commits in the order made. -/
def Launch.digest (l : Launch) : Nat :=
  match l.mode with
  | .normal => 0
  | .deterministic =>
    crc64 ((sortKey (·.1) l.sigs).flatMap fun x =>
      (leBytes 8 x.1 ++ leBytes 8 x.2.2.toNat).map (·.toNat))
  | _ => (l.sigs.foldl (fun (n : W64) x => n + x.2.2) 0).toNat

/-- The code of a mode. -/
def Mode.code : Mode → Nat
  | .normal => 0
  | .deterministic => 1
  | .dual => 2
  | .triple => 3

/-- A flag's bit. -/
def flag (b : Bool) (n : Nat) : Nat := if b then 2 ^ n else 0

/-- The postmark without its seal, as a number. -/
def Launch.postImage (l : Launch) : Nat :=
  let nodig := l.killed || l.mode == .normal
  (if nodig then 0 else l.digest) * 2 ^ 960 + l.sitePc.toNat * 2 ^ 896 + l.lseq * 2 ^ 832 + l.fld 255 192 * 2 ^ 768
    + l.fld 319 256 * 2 ^ 704 + l.fld 383 320 * 2 ^ 640 + l.blocks * 2 ^ 576 + l.ctx.ctxid.toNat * 2 ^ 560
    + l.ftv * 2 ^ 552 + l.mode.code * 2 ^ 549 + l.status * 2 ^ 547 + flag nodig 546 + flag l.ovf 545 + flag l.capc 544
    + flag l.vote 543 + flag l.mism 542

/-- The bytes of a partition's sealing key: its lowest die's (R379). -/
def State.sealKey (s : State) (part : Nat) : List Nat :=
  (leBytes 16 (nth s.mgmt ((s.partDies part).headD 0) ⟨0, 0, 0, 0⟩).sealkey.toNat).map (·.toNat)

/-- The postmark sealed: the CMAC of bytes 16 to 127 in bytes 0 to 15 (R322). -/
def State.postmark (s : State) (l : Launch) : Nat :=
  let x := l.postImage
  let mac := cmac (s.sealKey l.ctx.part) ((leBytes 112 (x / 2 ^ 128)).map (·.toNat))
  x + leNat (mac.map fun n => BitVec.ofNat 8 n)

/-- Nothing that a launch's blocks have written is on its way to its home, and no fault record of it waits for room (R322,
R342). -/
def State.launchQuiet (s : State) (l : Launch) : Bool :=
  let bids := (s.blocks.filter (·.lid == l.lid)).map (·.bid)
  !s.homeq.any (fun h => bids.contains h.bid) && !s.fabric.any (fun f => f.write && bids.contains f.bid) &&
    !s.cores.any (fun c => c.point.any fun x => bids.contains x.bid) &&
    !s.dies.any (fun d => d.point.any fun x => bids.contains x.bid) && !s.pend.any fun p => !p.isReport && p.ofLaunch l

/-- A launch ends: its postmark is written if its ring has room, its LIVE counts drop in the same step (R298, R309). -/
def State.closeLaunch (s : State) (l : Launch) : State :=
  match s.ringPut l.ctx.part l.ctx.postBase l.ctx.prlog (l.ctx.desc + 48) (l.ctx.desc + 52) 128 (s.postmark l) with
  | .stuck => s
  | .moved s => s
  | .done s =>
    let s := (s.addLive l.path (-1)).onLaunch l.lid fun l => { l with st := .done }
    { s with blocks := s.blocks.filter (·.lid != l.lid) }

/-- POSTMARK (R322): every block of a launch has ended and every store of it has reached its home. -/
def execPostmark (lid : Nat) (s : State) : Host.Outcome State Fault Refusal :=
  .next (match s.launch? lid with
    | none => s
    | some l =>
      let ended := l.again.isEmpty && l.endedBlks.length == l.blocks &&
        (s.blocks.filter (·.lid == lid)).all (·.st == .ended)
      if l.st = .done ∨ l.killed = true ∨ ended = false ∨ s.launchQuiet l = false then s else s.closeLaunch l)

end Sys2Proof.Machine
end

