-- ==== Sys2Proof/Machine/Swap.lean ====
section
/-! DEFINITION. Saving blocks to swap slots and restoring them (R126, R321, R343, R344), the operations of the launch control
block (R341, R343, R345), and the placement of concurrent launches (R316). -/

namespace Sys2Proof.Machine

/-! ### Swap slots -/

/-- Swap slots of a launch: none where SAVE is 0 (R193, R321). -/
def Launch.slots (l : Launch) : Nat := if l.fld 831 768 = 0 then 0 else l.fld 911 896

/-- The slots a launch's blocks hold. -/
def State.slotsHeld (s : State) (l : Launch) : List Nat :=
  (s.blocks.filter (·.lid == l.lid)).filterMap fun b => b.st.slot?

/-- A free slot of a launch. -/
def State.freeSlot (s : State) (l : Launch) : Option Nat :=
  (upto 0 l.slots).find? fun i => !(s.slotsHeld l).contains i

/-- A byte of the register area: register r of the thread at a lane of a window, window by window (R344). What no live
thread holds is undefined. -/
def Block.regByte (b : Block) (l : Launch) (j : Nat) : Byte :=
  let w := j / (128 * l.g)
  let r := j / 128 % l.g
  let i := (l.blockRange b.num).1 / 32 * 32 + 32 * w + j % 128 / 4
  let free : Byte := BitVec.ofNat 8 (Config.freeWord (b.slotNonce + j)).toNat
  match b.groups.find? fun (g : Grp) => g.lo ≤ i && g.positions.contains (i - g.lo) with
  | some g =>
    if (g.cell r).rel = 0 then BitVec.ofNat 8 ((g.val r (i - g.lo)).toNat / 256 ^ (j % 4)) else free
  | none => free

/-- The bytes of a saved block's slot (R344): those of the satchel and block-state areas are not architectural (log 17, DEDUCED). -/
def Block.slotImage (b : Block) (l : Launch) : List Byte :=
  let part (q : Nat) : Part := nth b.parts q ⟨[], [], [], 0, []⟩
  let regs := (upto 0 (nth l.areas 1 0)).map (b.regByte l)
  let tiles := (upto 0 4).flatMap fun q => (upto 0 l.tiles).flatMap fun t =>
    (upto 0 1024).flatMap fun e => leBytes 5 ((nth (part q).tiles t ⟨none, false, none, []⟩).elem e).toNat
  let obuf := (upto 0 4).flatMap fun q => (part q).obuf.readN 0 (64 * l.obuf)
  let used := nth l.areas 0 0 + nth l.areas 1 0 + nth l.areas 2 0 + nth l.areas 3 0
  b.spad.readN 0 l.s ++ regs ++ tiles ++ obuf ++ freeBytes (b.slotNonce + used) (l.z - used)

/-! ### When a block may be saved (R61, R321, R343) -/

/-- A unit is at a run boundary, ready or in a wait it takes up again after the restore, or halted for the debugger (R41, R321,
R363) (log 60, DEDUCED). -/
def ISet.savable (u : ISet) : Bool :=
  match u.stat with
  | .dataFault _ => false
  | .ringWait => false
  | .inTrap _ => false
  | .waita _ _ _ => false
  | .fabricWait => false
  | .halted => true
  | _ => u.atBoundary

/-- A request leaves a block free to be saved: matrix and SIFT words have completed; every source in its scratchpad has
been read. -/
def EReq.savable (r : EReq) : Bool :=
  let own (m : CMove) : Bool := m.val.isNone && !m.src.spads.isEmpty
  r.fin || (match r.kind with
    | .matrix _ => false
    | .sift _ => false
    | .copy _ _ _ _ secs => !secs.any fun c => c.moves.any own
    | _ => true)

/-- A block may be saved now. -/
def State.savable (s : State) (b : Block) : Bool :=
  b.st == .running && b.groups.all (fun g => g.units.all ISet.savable) && b.eng.all EReq.savable && !s.ending b &&
    !s.traps.any (·.bid == b.bid) && !s.atoms.any (·.bid == b.bid)

/-- A fill starts again when its block is restored (R321). -/
def EReq.refill (r : EReq) : EReq := match r.kind with
  | .fill o secs =>
    let again (m : CMove) : CMove := { m with val := if m.src = .zero then some (some 0) else none }
    { r with kind := .fill o (secs.map fun c => { c with fin := false, moves := c.moves.map again }) }
  | _ => r

/-- The record of a storage error that the device itself meets as it saves or restores a block: it names no word and no thread
(R111, R346; log 95, DESIGN CHOICE). -/
def Block.swapError (b : Block) (addr : Nat) : Rec := ⟨b.num, 0, 0, addr, ⟨0, 0, 0⟩, 0, 9, 0, coreDie b.core⟩

/-- A block as its slot is to hold it. -/
def State.asSaved (s : State) (b : Block) (l : Launch) (st : BSt) : Block :=
  let rest (g : Grp) : Grp := g.units.foldl Grp.landed g
  let b := { b with
    st := st, saving := false, slotNonce := s.free, eng := b.eng.map EReq.refill, groups := b.groups.map rest }
  { b with slotImg := b.slotImage l }

/-- A block is saved to a slot, and leaves its core (R321, R344). The device's reads of its scratchpad are checked (R110, R346). -/
def State.saveBlock (s : State) (b : Block) (l : Launch) (slot : Nat) (st : BSt) : State :=
  match (sectorsOf 0 l.s).find? (sectorBad b.sums) with
  | some k => s.storageEnd b (b.swapError (0xFFFFF00000000000 + 32 * k))
  | none =>
    let b := s.asSaved b l st
    let s := ((s.leave { b with st := .running }).setBlock b).spend (l.z + 2 ^ 16)
    s.partWrite l.ctx.part (l.slotAt slot) b.slotImg

/-! ### Restoring (R126, R321, R343, R344) -/

/-- A block restored from a changed slot holds undefined values in every register, tile, reservation and scratchpad byte
(R344). -/
def Block.scramble (b : Block) (l : Launch) (n : Nat) : Block :=
  let grp (g : Grp) : Grp := (upto 0 g.regs.length).foldl (fun (g : Grp) r => g.undef r g.live (n + 2 ^ 12 * g.gid + 32 * r)) g
  { b with
    groups := b.groups.map grp
    parts := ((upto 0 b.parts.length).zip b.parts).map fun x => x.2.scrambled n x.1
    spad := b.spad.writeN 0 (freeBytes n l.s) }

/-- A unit on a fetch fault tries its fetch again. -/
def ISet.refetch (u : ISet) : ISet := if u.stat = .fetchFault then { u with stat := .ready } else u

/-- A saved block as it returns to a core, where its grants lie and its groups stand. -/
def Block.returned (b : Block) (core sb tb ob : Nat) (gs : List Grp) : Block :=
  { b with
    st := .running, saving := false, core := core, spadBase := sb, tileBase := tb, obufBase := ob
    groups := gs.map fun g => { g with units := g.units.map ISet.refetch } }

/-- A saved block returns to a core, if there is room; a replica stays on its die (R126, R321, R352). The device's reads of the
slot are checked (R110, R111). -/
def State.restoreBlock (s : State) (b : Block) (core : Nat) : Option State :=
  match s.launch? b.lid, b.st.slot? with
  | some l, some slot =>
    if !s.settled b || (l.redundant && coreDie core != coreDie b.core) then none
    else (s.room l core).map fun (sb, tb, ob) =>
      let mine := (upto (l.slotAt slot) l.z).all (s.paOk l.ctx.part)
      match (if mine then (sectorsOf (l.slotAt slot) l.z).find? fun k => isDram (32 * k) && sectorBad s.sums k else none) with
      | some k => s.storageEnd b (b.swapError (32 * k))
      | none =>
      let changed := !mine || s.homeBytes (l.slotAt slot) l.z != b.slotImg
      let b' := if changed then b.scramble l s.free else b
      let s := if changed then s.spend (2 ^ 24 + 2 ^ 12 * s.nextId) else s
      let gs := s.place l b.num core (fun _ _ => 0) b'.groups
      (s.setBlock (b'.returned core sb tb ob gs)).dropCaches core
  | _, _ => none

/-- The page of a fetch is executable now (R321). -/
def State.fetchable (s : State) (c : Ctx) (die bid : Nat) (va : W64) : State × Bool :=
  let (s, f) := s.fetchSeg c die bid 0 va
  (s, match f with
    | .absent _ => false
    | _ => true)

/-- The page a block waits for: that of its first group on a fetch fault. -/
def Block.faultPage (b : Block) : Option W64 :=
  ((b.groups.flatMap (·.units)).find? fun u => u.stat == .fetchFault).map (·.pc)

/-- FETCH_FAULT_SWAP (R321): a block to be saved for a fetch fault is saved, once it may be and while a slot is free;
without a slot it waits in place. -/
def execFetchFaultSwap (bid : Nat) (s : State) : Host.Outcome State Fault Refusal :=
  .next (match s.block? bid with
    | none => s
    | some b =>
      match s.launch? b.lid, b.faultPage with
      | some l, some page =>
        if !b.saving || l.st != .running then s
        else match s.freeSlot l with
          | none => s.setBlock { b with saving := false }
          | some slot => if s.savable b then s.saveBlock b l slot (.swapped slot page) else s
      | _, _ => s)

/-- SWAP_RESTORE (R126, R321, R343): the page has become executable, or the launch has resumed: the block runs again, on
the given core; one that waits in place goes on where it is. -/
def execSwapRestore (bid core : Nat) (s : State) : Host.Outcome State Fault Refusal :=
  .next (match s.block? bid with
    | none => s
    | some b =>
      match s.launch? b.lid with
      | none => s
      | some l =>
        if l.st != .running then s
        else match b.st with
          | .swapped _ page =>
            let (t, ok) := s.fetchable l.ctx (coreDie core) bid page
            if ok then (t.restoreBlock b core).getD s else s
          | .preempted _ => if l.progress = 2 then s else (s.restoreBlock b core).getD s
          | .running =>
            match b.faultPage with
            | some page =>
              let (t, ok) := s.fetchable l.ctx (coreDie b.core) bid page
              if ok then t.onBlock bid fun b => { b with
                saving := false
                groups := b.groups.map fun g => { g with units := mapIf (·.pc == page) ISet.refetch g.units } }
              else s
            | none => s
          | .ended => s)

/-- CONCURRENT_PLACEMENT (R316, R318, R343): once enough cores have room, and no launch goes before it, a concurrent launch
starts every block at once, on cores given by block and rank; a resumed one returns every saved block at once. -/
def execConcurrentPlacement (lid : Nat) (cores : List Nat) (s : State) : Host.Outcome State Fault Refusal :=
  .next (match s.launch? lid with
    | none => s
    | some l =>
      let saved := sortKey (·.num) (sortKey (·.rank) (s.blocks.filter fun b => b.lid == lid && b.st.slot?.isSome))
      if l.st != .running || l.progress != 2 then s
      else if !saved.isEmpty then
        if cores.length ≠ saved.length then s
        else ((saved.zip cores).foldl (fun (s : Option State) x => s.bind fun s => s.restoreBlock x.1 x.2) (some s)).getD s
      else
        let r := l.mode.replicas
        if l.nextBlk ≠ 0 ∨ cores.length ≠ l.blocks * r ∨ s.wholeRoom l = false ∨ cores.any (fun c => !s.inLine l c) then s
        else
          let one (s : Option State) (n : Nat) : Option State :=
            s.bind fun s => s.startAll l n ((cores.drop (n * r)).take r)
          (((upto 0 l.blocks).foldl one (some s)).map fun s => s.onLaunch lid fun l => { l with nextBlk := l.blocks }).getD s)

/-! ### The launch control block (R341) -/

/-- An operation completes: STAT, then DONE. -/
def State.lctlDone (s : State) (part stat : Nat) : State :=
  s.onLctl part fun c => { c with stat := BitVec.ofNat 4 stat, done := c.done + 1, pend := c.pend.drop 1 }

/-- The oldest operation in progress has started: its code is raised by 4 until it completes. -/
def State.lctlStarted (s : State) (part : Nat) : State :=
  s.onLctl part fun c => { c with pend := match c.pend with
    | x :: r => (x.1 + 4, x.2) :: r
    | [] => [] }

/-- The live launch of a partition that a site and sequence number name. -/
def State.liveAt (s : State) (part : Nat) (site seq : W64) : Option Launch :=
  s.launches.find? fun l => l.ctx.part == part && l.sitePc == site && BitVec.ofNat 64 l.lseq == seq && l.st != .done

/-- The oldest operation of a partition's launch control block, and the live launch it names. -/
def State.lctlHead (s : State) (part : Nat) : Option (Nat × Option Launch) :=
  ((nth s.lctls part ⟨0, 0, 0, 0, 0, []⟩).pend.head?).map fun x => (x.1, s.liveAt part x.2.1 x.2.2)

/-- The started blocks of a launch that have not ended. -/
def State.startedOf (s : State) (l : Launch) : List Block := s.blocks.filter fun b => b.lid == l.lid && b.st != .ended

/-- PRE_EMPT (R343): the operation is turned away, starts, or completes once every started block holds a slot. -/
def execPreEmpt (part : Nat) (s : State) : Host.Outcome State Fault Refusal :=
  .next (match s.lctlHead part with
    | some (1, none) => s.lctlDone part 1
    | some (1, some l) =>
      let bs := s.startedOf l
      let need := bs.filter fun b => b.st.slot?.isNone
      if l.st != .running then s.lctlDone part 3
      else if l.slots - (s.slotsHeld l).length < need.length then s.lctlDone part 2
      else
        let mark (b : Block) : Block := if b.lid = l.lid ∧ b.st = .running then { b with saving := true } else b
        { s.onLaunch l.lid fun l => { l with st := .preempting } with blocks := s.blocks.map mark }.lctlStarted part
    | some (5, none) => s.lctlDone part 0
    | some (5, some l) =>
      if (s.startedOf l).any (·.st == .running) && l.st == .preempting then s
      else (s.onLaunch l.lid fun l => { l with st := if l.st = .preempting then .preempted else l.st }).lctlDone part 0
    | _ => s)

/-- BLOCK_SAVE (R343): a block of a launch that is being pre-empted is saved, once every one of its blocks may be
(log 60, DEDUCED). -/
def execBlockSave (bid : Nat) (s : State) : Host.Outcome State Fault Refusal :=
  .next (match s.block? bid with
    | none => s
    | some b =>
      match s.launch? b.lid with
      | none => s
      | some l =>
        match s.freeSlot l with
        | some slot => if l.st == .preempting && b.saving && s.savable b && (s.startedOf l).all (fun x => x.st != .running || s.savable x)
          then s.saveBlock b l slot (.preempted slot) else s
        | none => s)

/-- LAUNCH_RESUME (R341, R343): a pre-empted launch goes on; the operation completes when no block of it is left saved by
the pre-emption. -/
def execLaunchResume (part : Nat) (s : State) : Host.Outcome State Fault Refusal :=
  let saved (b : Block) : Bool := match b.st with
    | .preempted _ => true
    | _ => false
  .next (match s.lctlHead part with
    | some (2, none) => s.lctlDone part 1
    | some (2, some l) =>
      if l.st != .preempted then s.lctlDone part 3
      else (s.onLaunch l.lid fun l => { l with st := .running }).lctlStarted part
    | some (6, none) => s.lctlDone part 0
    | some (6, some l) => if (s.startedOf l).any saved && l.st == .running then s else s.lctlDone part 0
    | _ => s)

/-- KILL (R341, R345): the operation is turned away, starts, or completes with the launch. -/
def execKill (part : Nat) (s : State) : Host.Outcome State Fault Refusal :=
  .next (match s.lctlHead part with
    | some (3, none) => s.lctlDone part 1
    | some (3, some l) =>
      if l.killed then s.lctlDone part 3
      else
        let s := s.onLaunch l.lid fun l => { l with st := .killing false, status := 2 }
        (s.killSweep l).lctlStarted part
    | some (7, none) => s.lctlDone part 0
    | _ => s)

/-- Every entry of a killed launch has been performed or discarded (R345 step 3). -/
def State.drained (s : State) (l : Launch) : Bool :=
  (s.blocks.filter (·.lid == l.lid)).all (fun b => b.groups.isEmpty && b.eng.isEmpty && !s.atoms.any (·.bid == b.bid)) &&
    s.launchQuiet l

/-- QUIESCE_TOKEN_RETURN (R345 steps 3 and 4): groups that have come to a run boundary stop; once nothing of the launch is
left, it ends with its postmark. -/
def execQuiesceTokenReturn (lid : Nat) (s : State) : Host.Outcome State Fault Refusal :=
  .next (match s.launch? lid with
    | none => s
    | some l =>
      if !l.killed then s
      else
        let s := s.killSweep l
        if !s.drained l then s else s.closeLaunch l)

end Sys2Proof.Machine
end

