-- ==== Sys2Proof/Machine/Debug.lean ====
section
/-! DEFINITION. The debugger: DBG and its command block (R196, R362), halting and stepping (R363, R364, R366), comparators and
watchpoints (R365), group images and snapshots (R370, R371), held reports (R360) and postcards (R369). -/

namespace Sys2Proof.Machine

/-! ### Where a group stands -/

/-- The PC a report gives (R386): a group before its segment's first run stands at the SEGH. -/
def ISet.standsAt (u : ISet) : W64 := if u.left = 0 ∧ u.pc = u.seg + 4 then u.seg else u.pc

/-- A unit that the debugger may name: the agent, its group, and itself. -/
abbrev DbgUnit : Type := Who × Grp × ISet

/-- The units of a block's groups. -/
def Block.dbgOwn (b : Block) : List DbgUnit := b.groups.flatMap fun g => g.units.map fun u => (.kern b.bid g.gid u.low, g, u)

/-- The units of the handlers that serve a block. -/
def State.dbgHands (s : State) (bid : Nat) : List DbgUnit :=
  (s.traps.filter (·.bid == bid)).flatMap fun t => t.groups.flatMap fun g => g.units.map fun u => (.hand t.tid g.gid u.low, g, u)

/-- Every unit of a block, those of its handlers too. -/
def State.dbgUnits (s : State) (b : Block) : List DbgUnit := b.dbgOwn ++ s.dbgHands b.bid

/-- Change some units. -/
def State.onUnits (s : State) (l : List DbgUnit) (f : DbgUnit → ISet) : State :=
  l.foldl (fun (s : State) x => s.onUnit x.1 fun _ => f x) s

/-! ### Halts and steps taking effect (R61, R363, R364, R373) -/

/-- Every result of a unit's threads has been written (R61). -/
def State.quietUnit (s : State) (b : Block) (g : Grp) (u : ISet) : Bool :=
  !s.atoms.any fun a => a.bid == b.bid && (g.indices u).contains a.idx

/-- A unit stops here for a .halt or a .step in force: it stands at a run boundary, or, for a .halt, at a fold, with nothing
in flight (R41, R61). -/
def State.stopsHere (s : State) (b : Block) (g : Grp) (u : ISet) : Bool :=
  ((u.stat == .ready && u.atRun && (u.haltReq || (u.stepping && !u.asked))) || (u.stat == .fold && u.haltReq)) &&
    s.quietUnit b g u

/-- A .step has come to its end for a unit: it has stopped, or waits at a fold that does not close (R364). -/
def ISet.stepDone (gs : List Grp) (u : ISet) : Bool :=
  u.stepping && (u.stat == .halted || (u.stat == .fold && !(u.path.head?.map fun p => closable gs p.node).getD false))

/-- The operations that some units still carry out: a .halt until the unit stops, a .step until its end. -/
def opsOpen (us : List DbgUnit) : List Nat :=
  us.flatMap fun x => (if x.2.2.haltReq then x.2.2.haltBy else []) ++ (if x.2.2.stepping then x.2.2.stepBy else [])

/-- A .step ends for a unit: as it halts; at a fold, once every unit of its operation has come to its end, since till then the
fold may close (R364). -/
def stepEnds (gs : List Grp) (us : List DbgUnit) (u : ISet) : Bool :=
  u.stepDone gs && (u.stat == .halted ||
    us.all fun x => !x.2.2.stepping || x.2.2.stepDone gs || !x.2.2.stepBy.any u.stepBy.contains)

/-- A .halt has come about for a unit. -/
def ISet.haltEnds (u : ISet) : Bool := u.haltReq && u.stat == .halted

/-- FLAGS of a kind-6 report: more than one group formed; it stands at a segment whose comparator matches (R361). -/
def ISet.stepFlags (u : ISet) : Nat := flag u.stepSplit 0 + flag (u.bpTaken && !u.atRun && u.left == 0) 1

/-- The report that a unit owes for operations, as it stands (R361). -/
def State.owe (s : State) (b : Block) (l : Launch) (x : DbgUnit) (by' : List Nat) (kind flags : Nat) : Owed :=
  let e := s.kernEnv x.1 b l x.2.1 x.2.2
  let n := e.named e.members
  ⟨by', n.idx, x.1, e.reportOf l x.2.2.standsAt 0 kind flags e.members⟩

/-- The units of a block that are to stop here do, with nothing in flight (R61). -/
def State.stopUnits (s : State) (b : Block) : State :=
  ((s.dbgUnits b).filter fun x => s.stopsHere b x.2.1 x.2.2).foldl (fun (s : State) x =>
    (s.onGrp x.1 fun g => g.landed x.2.2).onUnit x.1 fun u => { u with stat := .halted }) s

/-- A unit for which a .halt or a .step ends, no longer carries it. -/
def ISet.settled (gs : List Grp) (us : List DbgUnit) (u : ISet) : ISet :=
  let h := u.haltEnds
  let t := stepEnds gs us u
  { u with
    haltReq := u.haltReq && !h, haltBy := if h then [] else u.haltBy
    stepping := u.stepping && !t, stepBy := if t then [] else u.stepBy, stepSplit := u.stepSplit && !t }

/-- The reports a block owes that are posted now, and the others: those of one operation follow when its last group has stopped,
in ascending order of lowest index (R373). -/
def owedNow (open' : List Nat) (l : List Owed) : List Owed × List Owed :=
  let x := (sortKey (·.idx) l).foldl (fun (acc : List Nat × List Owed × List Owed) r =>
    if r.by'.any acc.1.contains then (acc.1 ++ r.by', acc.2.1, acc.2.2 ++ [r]) else (acc.1, acc.2.1 ++ [r], acc.2.2)) (open', [], [])
  x.2

/-- Halts and steps of a block take effect; each group that stops owes its report (R363, R364, R373). -/
def State.settleBlock (s : State) (b : Block) (l : Launch) : State :=
  let s := s.stopUnits b
  match s.block? b.bid with
  | none => s
  | some b =>
    let us := s.dbgUnits b
    let new := us.flatMap fun x =>
      (if x.2.2.haltEnds then [s.owe b l x x.2.2.haltBy 5 0] else []) ++
        (if stepEnds b.groups us x.2.2 then [s.owe b l x x.2.2.stepBy 6 x.2.2.stepFlags] else [])
    let s := s.onUnits (us.filter fun x => x.2.2.haltEnds || stepEnds b.groups us x.2.2) fun x => x.2.2.settled b.groups us
    let (now, later) := owedNow (opsOpen (((s.block? b.bid).map s.dbgUnits).getD [])) (b.owed ++ new)
    now.foldl (fun (s : State) r => s.report l.ctx r.data (some r.who)) (s.onBlock b.bid fun b => { b with owed := later })

/-- A unit of a block is to stop for the debugger, or a report of one is owed. -/
def State.debugged (s : State) (b : Block) : Bool :=
  !b.owed.isEmpty || (s.dbgUnits b).any fun x => x.2.2.haltReq || x.2.2.stepping

/-- Halts and steps of every block take effect. -/
def State.settleHalts (s : State) : State :=
  (s.blocks.filter s.debugged).foldl (fun (s : State) x =>
    match s.block? x.bid with
    | some b => match s.launch? b.lid with
      | some l => s.settleBlock b l
      | none => s
    | none => s) s

/-! ### The command block (R362) -/

/-- The operations of DBG (R196). -/
inductive DbgOp where
  | halt | resume | step | setbp | clrbp | setwp | clrwp | read | post
deriving DecidableEq, Repr

/-- Fields of a command block. -/
structure DbgCmd where
  site : Nat
  lseq : Nat
  idx : Nat
  unit : Nat
  scope : Nat
  slot : Nat
  wkind : Nat
  rsv : Nat
  addr : Nat
  len : Nat
  buf : Nat
  data : Nat
deriving DecidableEq, Repr

/-- The fields in the 64 bytes of a block. -/
def DbgCmd.of (x : Nat) : DbgCmd :=
  ⟨bits x 511 448, bits x 447 384, bits x 383 344, bits x 343 340, bits x 339 338, bits x 337 335, bits x 334 332,
    bits x 331 320, bits x 319 256, bits x 255 192, bits x 191 128, bits x 127 0⟩

/-- The fields that name a launch and a group are zero. -/
def DbgCmd.noTarget (c : DbgCmd) : Bool := c.site == 0 && c.lseq == 0 && c.idx == 0 && c.scope == 0

/-- The fields of comparators and watchpoints are zero. -/
def DbgCmd.noWatch (c : DbgCmd) : Bool := c.wkind == 0 && c.len == 0

/-- Every reserved field, and every field the operation does not use, is zero (R362). -/
def DbgCmd.clean (c : DbgCmd) (op : DbgOp) : Bool :=
  let rest := c.rsv == 0
  match op with
  | .halt | .resume | .step =>
    rest && c.noWatch && c.unit == 0 && c.slot == 0 && c.addr == 0 && c.buf == 0 && c.data == 0 && c.scope != 3
  | .setbp => rest && c.noTarget && c.noWatch && c.unit == 0 && c.buf == 0 && c.data == 0
  | .clrbp => rest && c.noTarget && c.noWatch && c.unit == 0 && c.addr == 0 && c.buf == 0 && c.data == 0
  | .setwp => rest && c.noTarget && c.unit == 0 && c.buf == 0 && c.data == 0
  | .clrwp => rest && c.noTarget && c.noWatch && c.unit == 0 && c.addr == 0 && c.buf == 0 && c.data == 0
  | .read =>
    rest && c.noWatch && c.slot == 0 && c.data == 0 && c.unit != 14 && (match c.unit with
      | 0 => c.scope == 0 && c.addr == 0
      | 15 => c.noTarget && c.addr == 0 && c.buf == 0
      | _ => c.noTarget)
  | .post =>
    rest && c.noTarget && c.noWatch && c.unit == 0 && c.slot == 0 && c.addr == 0 && c.buf == 0

/-- A unit stands halted. -/
def haltedUnit (x : DbgUnit) : Bool := x.2.2.stat == .halted

/-- A unit has halted, or waits for a handler that has (R190; log 96, DEDUCED). -/
def State.stands (s : State) (u : ISet) : Bool := match u.stat with
  | .halted => true
  | .inTrap t => ((s.traps.find? (·.tid == t)).map fun t => t.groups.all fun g => g.units.all fun u => u.stat == .halted).getD false
  | _ => false

/-- The block of the primary replica that holds an index of a launch, and the unit there (R366): of threads whose handler has
halted, the handler's (R190; log 96, DEDUCED). -/
def State.dbgTarget (s : State) (l : Launch) (idx : Nat) : Option (Block × DbgUnit) := do
  let b ← s.blocks.find? fun b => b.lid == l.lid && b.num == idx / l.b && b.st != .ended && s.primary b
  let x ← ((s.dbgHands b.bid).filter haltedUnit ++ b.dbgOwn).find? fun x => (x.2.1.indices x.2.2).contains idx
  some (b, x)

/-- A unit is named by an operation whose IDX lies in the unit x (R363). -/
def dbgNames (scope : Nat) (x y : DbgUnit) : Bool :=
  match scope with
  | 0 => y.1 == x.1
  | 1 => y.2.1.gid == x.2.1.gid
  | _ => true

/-- A report of a unit waits for room in its ring (R360). -/
def State.reportHeld (s : State) (w : Who) : Bool := s.pend.any fun p => p.isReport && p.who == some w

/-- A halted unit goes on, once its report has been written (R360, R363): by a .resume, or by a .step of a number. -/
def State.dbgGo (s : State) (step : Option Nat) (x : DbgUnit) : ISet :=
  { x.2.2 with
    stat := if s.reportHeld x.1 then .ringWait else .ready
    haltReq := false, haltBy := [], stepping := step.isSome, stepBy := step.toList, stepSplit := false
    asked := step.isSome && x.2.2.atBoundary }

/-- What a DBG operation does: a status with the state after it; it waits; or it has begun, and completes later. -/
inductive DbgDone where
  | status (s : State) (n : Nat)
  | wait
  | begun (s : State) (token : Nat)
deriving DecidableEq, Repr

/-- .halt, .resume and .step on a launch's named groups. A group goes on once all it has issued has written its results
(R61). -/
def State.dbgGroups (s : State) (c : Ctx) (op : DbgOp) (l : Launch) (x : DbgCmd) : DbgDone :=
  match s.dbgTarget l x.idx with
  | none => .status s 2
  | some (b, u) =>
    let (t, s') := s.fresh
    match op with
    | .halt =>
      match (b.dbgOwn.filter (dbgNames x.scope u)).filter fun y => !s.stands y.2.2 with
      | [] => .status s 4
      | ys => .begun ((s'.onUnits ys fun y => { y.2.2 with haltReq := true, haltBy := y.2.2.haltBy ++ [t] }).trigger c 3) t
    | _ =>
      match ((s.dbgUnits b).filter (dbgNames x.scope u)).filter haltedUnit with
      | [] => .status s 3
      | ys =>
        if ys.any fun y => !s.quietUnit b y.2.1 y.2.2 then .wait
        else
          let s1 := ys.foldl (fun (s : State) y => s.onGrp y.1 fun g => g.landed y.2.2) s'
          .status (s1.onUnits ys (s.dbgGo (if op = .step then some t else none))) 0

/-! ### Images and snapshots (R370, R371) -/

/-- The 8 bytes of a register in a group image: a pair's value in its low half; what is released or not there is an
undefined value. -/
def Env.imageReg (e : Env) (pos nonce r : Nat) : Nat :=
  let c := e.grp.cell r
  let pair : Bool := match c.kind with
    | .f64 _ _ => true
    | .e true _ => r % 2 == 0
    | _ => false
  let gone (r : Nat) : Bool := decide (e.grp.regs.length ≤ r) || bit (e.grp.relMask e.unit.lanes r).toNat (if e.grp.span then 0 else pos)
  if gone r then (Config.freeWord (nonce + r)).toNat
  else if pair then (e.grp.val64 r pos).toNat else (e.grp.val r pos).toNat

/-- The tag of a register in a group image: one beyond the launch's G counts as released. -/
def Env.imageTag (e : Env) (r : Nat) : Nat := if e.grp.regs.length ≤ r then 3 else e.tag r

/-- The 568 bytes of a group's image, for a thread of it (R371). -/
def Env.image (e : Env) (idx nonce : Nat) : List Byte :=
  let pos := idx - e.grp.lo
  let n := e.named e.members
  let preds := (upto 0 7).foldl (fun m p =>
    let gone := bit (e.grp.prelMask e.unit.lanes p).toNat (if e.grp.span then 0 else pos)
    let v := if gone then bit (Config.freeWord (nonce + 64)).toNat p else e.grp.pval p pos
    m + flag v p) 0
  let tags := (upto 0 64).foldl (fun m r => m + e.imageTag r * 4 ^ r) 0
  leBytes 8 e.unit.standsAt.toNat ++ leBytes 8 n.idx ++ leBytes 8 (n.lmask + n.count * 2 ^ 32)
    ++ ((upto 0 64).flatMap fun r => leBytes 8 (e.imageReg pos nonce r)) ++ leBytes 16 tags ++ leBytes 1 preds ++ leBytes 15 0

/-- A debug buffer lies in the partition's memory. -/
def State.dbgBuf (s : State) (c : Ctx) (a n : Nat) : Bool :=
  isDram a && isDram (a + n - 1) && s.paOk c.part a && s.paOk c.part (a + n - 1)

/-- .read: a group's image, a snapshot, or re-arming the cross-trigger. -/
def State.dbgRead (s : State) (c : Ctx) (l : Option Launch) (x : DbgCmd) : DbgDone :=
  match x.unit with
  | 0 =>
    match l with
    | none => .status s 1
    | some l =>
      match s.dbgTarget l x.idx with
      | none => .status s 2
      | some (b, y) =>
        if !haltedUnit y then .status s 3
        else if x.buf % 64 ≠ 0 ∨ s.dbgBuf c x.buf 568 = false then .status s 6
        else
          let e := s.kernEnv y.1 b l y.2.1 y.2.2
          .status ((s.devWrite x.buf (e.image x.idx s.free)).spend 128) 0
  | 15 => .status (s.onDbg c.part fun d => { d with fired := false, snaps := [] }) 0
  | n =>
    if x.buf % 64 ≠ 0 ∨ s.dbgBuf c x.buf 64 = false then .status s 6
    else
      let v := ((nth s.dbg c.part ⟨[], [], false, []⟩).snaps.find? fun k => k.unit == n && k.inst == x.addr).map (·.data.toNat)
      .status (s.devWrite x.buf (leBytes 64 (v.getD 0))) 0

/-! ### DBG (R196, R362) -/

/-- The range of a watchpoint is one of R362: its length, and one window of R86. -/
def watchOk (addr len : Nat) : Bool :=
  let same : Bool := match vwin addr, vwin (addr + len - 1) with
    | .global, .global => true
    | .handle _, .handle _ => true
    | .priv _, .priv _ => true
    | .spad _, .spad _ => true
    | _, _ => false
  decide (1 ≤ len) && decide (len ≤ 2 ^ 40) && decide (addr + len ≤ 2 ^ 64) && same

/-- Set a comparator or a watchpoint of a partition. -/
def State.putCmp (s : State) (part n : Nat) (v : Option (Nat × W64)) : State :=
  s.onDbg part fun d => { d with cmps := d.cmps.set n v }

/-- Set a watchpoint of a partition. -/
def State.putWatch (s : State) (part n : Nat) (v : Option Watch) : State :=
  s.onDbg part fun d => { d with wps := d.wps.set n v }

/-- One DBG operation on a command block: field checks, the mailbox, then the operation's own codes (R362) (log 24, DEDUCED). -/
def State.dbgDo (s : State) (c : Ctx) (op : DbgOp) (x : DbgCmd) : DbgDone :=
  let l := s.launches.find? fun l => l.ctx.desc == c.desc && l.sitePc.toNat == x.site && l.lseq == x.lseq && l.st != .done
  let watch := decide (3 < x.slot)
  if !x.clean op then .status s 8
  else if !s.attached (some c) then .status s 7
  else match op with
    | .setbp => if x.addr % 4 ≠ 0 then .status s 6 else .status (s.putCmp c.part x.slot (some (c.desc, BitVec.ofNat 64 x.addr))) 0
    | .clrbp => .status (s.putCmp c.part x.slot none) 0
    | .setwp =>
      if watch then .status s 5
      else if !watchOk x.addr x.len then .status s 6
      else .status (s.putWatch c.part x.slot (some ⟨c.desc, BitVec.ofNat 64 x.addr, x.len, BitVec.ofNat 3 x.wkind⟩)) 0
    | .clrwp => if watch then .status s 5 else .status (s.putWatch c.part x.slot none) 0
    | .read => s.dbgRead c l x
    | .post =>
      let data := 7 * 2 ^ 104 + x.data % 2 ^ 96
      let t := s.report c data none
      if t.pend.length = s.pend.length then .status t 0 else .begun t data
    | _ => match l with
      | none => .status s 1
      | some l => s.dbgGroups c op l x

/-- A group that a .halt operation names has not halted yet. -/
def State.haltsPending (s : State) (token : Nat) : Bool :=
  s.blocks.any fun b => b.st != .ended && b.groups.any fun g => g.units.any fun u =>
    u.haltReq && u.stat != .halted && u.haltBy.contains token

/-- A DBG operation that has begun is not yet complete: a group named by its .halt has not halted, or its report waits for room
(R360, R362). -/
def State.dbgPending (s : State) (c : Ctx) (op : DbgOp) (token : Nat) : Bool :=
  if op = .post then s.pend.any fun p => p.isReport && p.ctx.mbox == c.mbox && p.data == BitVec.ofNat 512 token
  else s.haltsPending token

/-- The element that holds n bytes of the command block. -/
def State.dbgHalf (s : State) (e : Env) (va : Nat) : Checked := s.checks e ⟨32, 1, false, .read, 0⟩ [e.first] fun _ => va

/-- DBG (R196): the block is read as two loads of 32 bytes; a .halt completes when every named group has halted (R362). -/
def State.dbg' (s : State) (op : DbgOp) (d a : RegN) : Host.Outcome State Fault Refusal :=
  s.runWord (fun e => { dsts := [d.toNat], srcs := regsOf true a.toNat, lat := none, pre := privWord e }) fun s e =>
    let va := e.val true a.toNat e.first
    let put (s : State) (n : Nat) : Eff := .done (s.acquire e.core .system) (e.write d.toNat (.form (BitVec.ofNat 32 n) 0))
    match e.ctx with
    | none => .trap 17 (BitVec.ofNat 64 va) e.count
    | some c =>
      if e.unit.asked then (if s.dbgPending c op e.unit.token then .wait else put s 0)
      else if va % 32 ≠ 0 then put s 8
      else match s.dbgHalf e va with
        | .bad x => x
        | .ok s lo => match s.dbgHalf e (va + 32) with
          | .bad x => x
          | .ok s hi =>
            let (s, asked) := s.askFabric e 32 (lo ++ hi)
            if asked then .hold s .fabricWait
            else s.sound e 32 0 false (lo ++ hi) <|
              let x := leNat ((lo ++ hi).flatMap fun y => s.readElem e y 32 false)
              match (s.takeFabric e (lo ++ hi)).dbgDo c op (DbgCmd.of x) with
              | .status s n => put s n
              | .wait => .wait
              | .begun s t => .moved (s.onUnit e.who fun u => { u with asked := true, token := t })

/-- DBG.halt (R196, R363). -/
def execDbgHalt (d a : RegN) (s : State) : Host.Outcome State Fault Refusal := s.dbg' .halt d a

/-- DBG.resume (R196, R363). -/
def execDbgResume (d a : RegN) (s : State) : Host.Outcome State Fault Refusal := s.dbg' .resume d a

/-- DBG.step (R196, R364). -/
def execDbgStep (d a : RegN) (s : State) : Host.Outcome State Fault Refusal := s.dbg' .step d a

/-- DBG.setbp (R196, R365). -/
def execDbgSetbp (d a : RegN) (s : State) : Host.Outcome State Fault Refusal := s.dbg' .setbp d a

/-- DBG.clrbp (R196, R365). -/
def execDbgClrbp (d a : RegN) (s : State) : Host.Outcome State Fault Refusal := s.dbg' .clrbp d a

/-- DBG.setwp (R196, R365). -/
def execDbgSetwp (d a : RegN) (s : State) : Host.Outcome State Fault Refusal := s.dbg' .setwp d a

/-- DBG.clrwp (R196, R365). -/
def execDbgClrwp (d a : RegN) (s : State) : Host.Outcome State Fault Refusal := s.dbg' .clrwp d a

/-- DBG.read (R196, R370, R371). -/
def execDbgRead (d a : RegN) (s : State) : Host.Outcome State Fault Refusal := s.dbg' .read d a

/-- DBG.post (R196, R362). -/
def execDbgPost (d a : RegN) (s : State) : Host.Outcome State Fault Refusal := s.dbg' .post d a

/-! ### Held records and reports (R298, R360) -/

/-- A group held for room in a ring goes on as its record or report lets it: to a fault wait, or to issue. -/
def ISet.unheld (p : PendRec) (u : ISet) : ISet :=
  if u.stat != .ringWait then u
  else if p.isReport then { u with stat := .ready }
  else match bits p.data.toNat 41 38 with
    | 5 => { u with stat := .fetchFault }
    | k => { u with stat := .dataFault k }

/-- A held record or report has been written: its group goes on, or its block ends (R298, R342). -/
def State.unpend (s : State) (i : Nat) (p : PendRec) : State :=
  let s := { s with pend := dropAt s.pend i }
  let s := match p.who with
    | some w => s.onUnit w (ISet.unheld p)
    | none => s
  match p.ends with
  | some (bid, how) => s.endBlock bid how
  | none => s

/-- An attempt can do nothing. -/
def Put.waits : Put → Bool
  | .stuck => true
  | _ => false

/-- The state after an attempt to write held record i: as it is written, its group goes on (R298). -/
def State.putHeld (s : State) (i : Nat) (p : PendRec) (x : Put) : State :=
  match x with
  | .done t => t.unpend i p
  | .moved t => t
  | .stuck => s

/-- REPORT (R360): the oldest held report whose ring has room is posted; those of one ring in order. -/
def execReport (s : State) : Host.Outcome State Fault Refusal :=
  let first (x : Nat × PendRec) : Bool := x.2.isReport && !(s.pend.take x.1).any fun p => p.isReport && p.ctx.mbox == x.2.ctx.mbox
  .next (match ((upto 0 s.pend.length).zip s.pend).find? fun x => first x && !(s.reportPut x.2.ctx x.2.data.toNat).waits with
    | some (i, p) => s.putHeld i p (s.reportPut p.ctx p.data.toNat)
    | none => s)

/-- FAULT_RECORD_WRITE (R298, R331): held record i is written when its ring has room and no earlier one waits for it. -/
def execFaultRecordWrite (i : Nat) (s : State) : Host.Outcome State Fault Refusal :=
  .next (match s.pend[i]? with
    | none => s
    | some p =>
      let before := (s.pend.take i).any fun q => !q.isReport && q.ctx.desc == p.ctx.desc
      if p.isReport || before then s else s.putHeld i p (s.recPut p.ctx p.data.toNat))

/-- SNAPSHOT_LATCH (R370): a unit of a partition whose trigger has fired latches once: its die's counter, its name; which
die it lies on, and the rest, the manual leaves open (log 61, DESIGN CHOICE). -/
def execSnapshotLatch (part unit inst : Nat) (s : State) : Host.Outcome State Fault Refusal :=
  let d := nth s.dbg part ⟨[], [], false, []⟩
  .next (if !d.fired || unit = 0 || 13 < unit || d.snaps.any (fun k => k.unit == unit && k.inst == inst) then s
    else
      let (s, cyc) := s.readCyc (nth (s.partDies part) (Config.unitDie unit inst % s.diesPer) 0)
      let x := cyc.toNat + (Config.snapshotName unit inst).toNat * 2 ^ 64 +
        (Config.snapshotRest unit inst s.free).toNat * 2 ^ 96
      (s.spend 1).onDbg part fun d => { d with snaps := d.snaps ++ [⟨unit, inst, BitVec.ofNat 512 x⟩] })

/-- A postcard as a number (R369): its counts of cycles are free values. -/
def CardReq.image (c : CardReq) : Nat :=
  c.sitePc.toNat * 2 ^ 448 + c.lseq * 2 ^ 384 + c.word.toNat * 2 ^ 320 + c.addr.toNat * 2 ^ 256 + c.die * 2 ^ 244
    + c.acc * 2 ^ 240 + ((Config.freeWord c.nonce).toNat + 2 ^ 64 * ((Config.freeWord (c.nonce + 1)).toNat % 2 ^ 48)) * 2 ^ 128
    + c.idx * 2 ^ 88 + (Config.freeWord (c.nonce + 2)).toNat % 2 ^ 16 * 2 ^ 72

/-- POSTCARD (R369): the card of sampled request i is written to its context's ring, once the request has been performed; a full
ring drops it. Behind a card on its way into the ring it waits (R298, R378). -/
def execPostcard (i : Nat) (s : State) : Host.Outcome State Fault Refusal :=
  .next (match s.cards[i]? with
    | none => s
    | some c =>
      let drop (s : State) : State := { s with cards := dropAt s.cards i }
      let prod := c.ctx.mbox + 36
      let ring := s.partNat c.ctx.part (c.ctx.mbox + 40) 8
      let busy := s.rings.any fun x => x.part == c.ctx.part && x.prod == prod
      if s.unperformed c then s
      else if !busy && bits (s.partNat c.ctx.part c.ctx.mbox 1) 7 4 == 0 then drop s
      else match s.ringPut c.ctx.part (bits ring 51 12 * 4096) (bits ring 4 0) prod (c.ctx.mbox + 32) 64 c.image with
        | .done t => drop t
        | .moved t => t
        | .stuck => if busy then s else drop s)

end Sys2Proof.Machine
end

