-- ==== Sys2Proof/Machine/Device.lean ====
section
/-! DEFINITION. What reaches the machine from outside its programs: waiting traps (R340), queues and commands (R310 to R313),
invalidations (R330), storage errors and relaunch (R111, R346), the fabric (R376 to R378), management (R379, R380), resets
(R306, R384) and bring-up (R382, R383). -/

namespace Sys2Proof.Machine

/-! ### Traps that waited (R303, R340) -/

/-- A trap context that a trapping group may enter is free; a control core always has one (R192, R303). -/
def State.trapFree (s : State) (e : Env) (t : TrapReq) : Bool :=
  match e.who with
  | .kern _ _ _ =>
    !s.traps.any (fun x => x.core == e.core && x.part == e.part) &&
      (s.trapQueue e.core e.part).all fun x => decide (t.pos < x.1.pos) || (t.pos == x.1.pos && decide (e.grp.lo + e.first ≤ x.2.1))
  | _ => true

/-- TRAP_ENTRY (R303, R336, R339, R340): a group held at a trapping word enters its trap context, once that is free, no group
that waits for it trapped earlier, and the results of the group's atomics have landed (R61). -/
def execTrapEntry (q : Who) (s : State) : Host.Outcome State Fault Refusal :=
  .next (match s.env? q with
    | none => s
    | some e =>
      match e.unit.stat with
      | .trapHeld t =>
        if !s.trapFree e t || s.landing e then s
        else
          let s := s.onUnit q fun u => { u with stat := .ready }
          let u := { e.unit with stat := .ready }
          s.enterTrap { e with unit := u, grp := (e.grp.landed e.unit).setUnit u } t
      | _ => s)

/-- REPLAY (R331): a context's waiting faults are tried again. -/
def execReplay (part : Nat) (ctx : BitVec 16) (s : State) : Host.Outcome State Fault Refusal := .next (s.replay part ctx)

/-- PAGE_SCAN (R158, R319, R382): a die records an executable frame's result, if it holds none; the page scanner, and the
frame's memory, have passed their self-tests. A frame beyond the fabric is scanned at its fetch (log 93, DEDUCED). -/
def execPageScan (die frame : Nat) (s : State) : Host.Outcome State Fault Refusal :=
  .next (if s.bring.up 5 && !isFabric (4096 * frame) && s.usable die (4096 * frame) && s.executable (s.partOf die) frame then (s.scanOf die frame).1 else s)

/-! ### Queues (R310, R311) -/

/-- QUEUE_POST (R311). -/
def execQueuePost (queue : Nat) (value : W32) (s : State) : Host.Outcome State Fault Refusal :=
  .next (if queue < Config.queues then s.queuePost queue value else s)

/-- QUEUE_ENABLE (R310, R311): the 8 bytes of a queue's registers that hold QERR, QLOG and ENABLE are written (log 63, DEDUCED). -/
def execQueueEnable (queue : Nat) (value : W64) (s : State) : Host.Outcome State Fault Refusal :=
  .next (if queue < Config.queues then s.writeQueue queue 40 (leBytes 8 value.toNat) else s)

/-- REGISTER_WRITE (R7): bytes are written to the device register window. -/
def execRegisterWrite (addr : Nat) (bytes : List Byte) (s : State) : Host.Outcome State Fault Refusal :=
  .next (if winOf addr = .regs then s.regWrite (addr - regsBase) bytes else s)

/-! ### Commands (R312, R313) -/

/-- Control cores may issue (R382, R383). -/
def BringUp.control (b : BringUp) : Bool := b.up 6 && !b.hold

/-- Compute cores may issue (R382, R383). -/
def BringUp.compute (b : BringUp) : Bool := b.up 7 && !b.hold

/-- The queue a control core serves next (R313). -/
def State.nextQueue (s : State) (k : CCore) : Option Nat :=
  ((upto 1 256).map fun j => 256 * k.num + (k.lastQ + j) % 256).find? fun q =>
    (s.queue q).enable && !(s.queue q).recs.isEmpty

/-- A command record is well formed: its number is the expected one, its kind known, its reserved bits zero (R312). -/
def QReg.recOk (q : QReg) (x : Nat) : Bool :=
  bits x 127 96 == (q.done + 1).toNat && decide (bits x 95 80 ≤ 1) && bits x 79 0 == 0

/-- The control core's group at a command program's entry (R313). -/
def CCore.program (k : CCore) (q x : Nat) (fpctl : BitVec 3) : Grp :=
  let g : Grp := { Grp.root k.grp.gid 0 1 (BitVec.ofNat 64 (bits x 447 384)) fpctl with stq := k.grp.stq }
  let u := ISet.start 0
  let arg (g : Grp) (r hi : Nat) : Grp := g.write u r (.form64 (BitVec.ofNat 64 (bits x hi (hi - 63))) 0)
  let g := arg (arg (arg (arg g 0 383) 2 319) 4 255) 6 191
  (g.write u 8 (.form (BitVec.ofNat 32 (q % 256)) 0)).write u 9 (.form (BitVec.ofNat 32 (bits x 127 96)) 0)

/-- A control core takes up the next command of the given kind; a failing one stops its queue (R311, R313). -/
def State.serve (s : State) (c kind : Nat) : State :=
  match s.cc? c with
  | none => s
  | some k =>
    if k.cmd.isSome || k.trap.isSome || !s.bring.control then s
    else match s.nextQueue k with
      | none => s
      | some q =>
        let r := s.queue q
        match r.recs with
        | [] => s
        | w :: _ =>
          let x := w.toNat
          let part := s.partOf (c / 2)
          let fail (n : Nat) : State := (s.queueError q n).onCc c fun k => { k with lastQ := q }
          let a := bits x 511 448
          let ctx := if a = 0 then some k.ctx else (s.descriptor part a).map some
          if !r.recOk x then (if kind = 0 then fail 2 else s)
          else if bits x 95 80 ≠ kind then s
          else match ctx with
            | none => fail 3
            | some cx =>
              let fpctl := if a = 0 then (k.grp.lane 0).fpctl else (cx.map (·.fpctlDef)).getD 0
              let t := bits x 330 320
              let seq := BitVec.ofNat 32 (bits x 127 96)
              if kind = 1 ∧ s.partOf (t / 512) ≠ part then fail 4
              else s.onCc c fun k =>
                let fence := if kind = 1 then some (t, BitVec.ofNat 32 (bits x 287 256)) else none
                let lanes (g : Grp) : Grp := { g with lanes := g.lanes.map fun l => { l with fpctl := fpctl } }
                let grp := if kind = 0 then k.program q x fpctl else lanes k.grp
                { k with ctx := cx, lastQ := q, cmd := some ⟨q, seq, fence⟩, halted := false, grp := grp }

/-- PROGRAM_COMMAND (R313): a control core starts the next command, a program. -/
def execProgramCommand (cc : Nat) (s : State) : Host.Outcome State Fault Refusal := .next (s.serve cc 0)

/-- CROSS_QUEUE_FENCE (R313): a control core takes up the next command, a fence. -/
def execCrossQueueFence (cc : Nat) (s : State) : Host.Outcome State Fault Refusal := .next (s.serve cc 1)

/-- A control core's own stores and writes are done (R120). -/
def State.ccQuiet (s : State) (k : CCore) : Bool :=
  k.grp.stq.isEmpty && s.sysReady 0 k.num && !s.atoms.any (fun a => a.bid == 0 && a.idx == k.num) && !s.homeAny 0 k.num

/-- CROSS_QUEUE_FENCE_DONE (R313): the target queue's DONE has reached the fence's number. -/
def execCrossQueueFenceDone (cc : Nat) (s : State) : Host.Outcome State Fault Refusal :=
  .next (match s.cc? cc with
    | none => s
    | some k =>
      match k.cmd with
      | some ⟨_, _, some (q, n)⟩ =>
        if decide (((s.queue q).done - n).toNat < 2 ^ 31) && s.ccQuiet k then s.commandDone cc else s
      | _ => s)

/-- HALT_WAKE (R197): the die signals a control core. -/
def execHaltWake (cc : Nat) (s : State) : Host.Outcome State Fault Refusal := .next (s.wake cc)

/-! ### Invalidations (R330) -/

/-- TLB_INVALIDATE (R330): a store to a partition's TLBI. -/
def execTlbInvalidate (part : Nat) (value : W64) (s : State) : Host.Outcome State Fault Refusal :=
  .next (s.tlbInvalidate part value)

/-- The context behind a thread's access: its launch's. A control core may have put another in force since: none. -/
def State.ctxOf (s : State) (bid : Nat) : Option Ctx := ((s.block? bid).bind fun b => s.launch? b.lid).map (·.ctx)

/-- Accesses that have been translated and are not yet performed: the thread and the address (log 64, DEDUCED). -/
def State.outstanding (s : State) : List (Nat × Nat × Nat) :=
  let ofQ (bid : Nat) (q : SqEntry) : List (Nat × Nat × Nat) := q.elems.filterMap fun x => match x.loc with
    | .pa _ => some (bid, x.idx, x.va.toNat)
    | _ => none
  let ofU (bid base : Nat) (u : ISet) : List (Nat × Nat × Nat) := match u.stat with
    | .waita _ _ ms => ms.filterMap fun m => match m.loc with
      | .pa _ => if m.fin then none else some (bid, base + m.lane, m.va.toNat)
      | _ => none
    | _ => []
  let ofG (bid : Nat) (g : Grp) : List (Nat × Nat × Nat) := g.stq.flatMap (ofQ bid) ++ g.units.flatMap (ofU bid g.lo)
  let ofC (c : Nat) (g : Grp) : List (Nat × Nat × Nat) := g.stq.flatMap (ofQ 0) ++ g.units.flatMap (ofU 0 c)
  let ofS (bid : Nat) (x : SEntry) : Nat × Nat × Nat := (bid, x.idx, x.va.toNat)
  let ofP (x : PtStore) : Nat × Nat × Nat := (x.bid, x.idx, x.va.toNat)
  s.blocks.flatMap (fun b => b.groups.flatMap (ofG b.bid) ++ b.satchel.map (ofS b.bid) ++
      ((b.commit.map (·.entries)).getD []).map (ofS b.bid))
    ++ s.traps.flatMap (fun t => t.groups.flatMap (ofG t.bid))
    ++ s.ccs.flatMap (fun k => ofC k.num k.grp ++ ((k.trap.map (·.groups)).getD []).flatMap (ofC k.num))
    ++ s.homeq.flatMap (fun h => ofQ h.bid h.entry)
    ++ s.cores.flatMap (fun c => c.point.map ofP) ++ s.dies.flatMap (fun d => d.point.map ofP)
    ++ s.atoms.map (fun a => (a.bid, a.idx, a.va.toNat)) ++ s.fabric.map (fun f => (f.bid, f.idx, f.va.toNat))

/-- A kept leaf maps an address of its context. -/
def TlbE.maps (t : TlbE) (va : Nat) : Bool := (t.size.map fun n => t.va / n == va % 2 ^ 57 / n).getD false

/-- An invalidation covers an address of a context (any, where the context is not known): in the region it names, or through a
leaf that it drops (R330). -/
def tlbiCovers (v : W64) (gone : List TlbE) (ctx : Option (BitVec 16)) (va : Nat) : Bool :=
  let mine := (ctx.map fun c => c == BitVec.ofNat 16 (bits v.toNat 63 48)).getD true
  match bits v.toNat 47 46 with
  | 0 => mine && (decide (bits va 56 16 = bits v.toNat 40 0) || gone.any (·.maps va))
  | 1 => mine
  | _ => true

/-- An invalidation of a partition waits for an access that has been translated (R330). -/
def State.tlbiWaitsFor (s : State) (part : Nat) (v : W64) (x : Nat × Nat × Nat) : Bool :=
  let gone := s.tlb.filter (tlbCovered part v)
  if x.1 = 0 then decide (x.2.1 < 8) && s.partOf (x.2.1 / 2) == part && tlbiCovers v gone none x.2.2
  else match s.ctxOf x.1 with
    | some c => c.part == part && tlbiCovers v gone (some c.ctxid) x.2.2
    | none => false

/-- INVALIDATION_COMPLETE (R319, R330): the oldest invalidation drops what it covers, once every access made through a
covered entry has been performed, and is counted. -/
def execInvalidationComplete (part : Nat) (s : State) : Host.Outcome State Fault Refusal :=
  .next (match (nth s.xregs part ⟨0, 0, 0, []⟩).pend with
    | [] => s
    | v :: _ =>
      if s.outstanding.any (s.tlbiWaitsFor part v) then s
      else
        let gone := s.tlb.filter (tlbCovered part v)
        let keep (r : Scan) : Bool := !gone.any fun t => t.covers r.frame
        { s.onXreg part fun x => { x with pend := x.pend.drop 1, tlbiDone := x.tlbiDone + 1 } with
          tlb := s.tlb.filter fun t => !tlbCovered part v t
          dies := mapIf (fun d => s.partOf d.num == part) (fun (d : Die) => { d with scan := d.scan.filter keep }) s.dies })

/-! ### Storage errors (R111, R342, R346, R376) -/

/-- A storage error that an engine request meets. -/
def State.engStorage (s : State) (b : Block) (r : EReq) (addr : Nat) : State :=
  s.storageEnd b ⟨b.num, r.seg.toNat, r.word.toNat, addr, r.named, 0, 9, r.readAcc, coreDie b.core⟩

/-- A storage error that an agent meets as it reads: its block ends; a control core takes a translation trap (log 65, DEDUCED). -/
def State.unitStorage (s : State) (w : Who) (addr : W64) : State :=
  match s.env? w with
  | none => s
  | some e => s.dataFault e 9 0 0 addr e.members

/-- STORAGE_ERROR (R110, R111, R346): data that an agent, or an engine request of its block, reads cannot be delivered correct;
or a sector comes to disagree with its check value. -/
def execStorageError (flaw : Flaw) (addr : W64) (diff : BitVec 16) (s : State) : Host.Outcome State Fault Refusal :=
  .next (match flaw with
    | .read q none => s.unitStorage q addr
    | .read q (some n) =>
      let bid : Option Nat := match q with
        | .kern b _ _ => some b
        | .hand t _ _ => (s.trap? t).map (·.bid)
        | _ => none
      (match (bid.bind s.block?).filter fun b => b.st != .ended with
      | none => s
      | some b => match b.eng.find? fun r => r.rid == n && !r.fin with
        | some r => s.engStorage b r addr.toNat
        | none => s)
    | .memory => if isDram addr.toNat then { s with sums := sumsSpoil s.sums (addr.toNat / 32) diff } else s
    | .spad bid => s.onBlock bid fun b =>
        if b.st = .running ∧ addr.toNat < s.spadSize b then { b with sums := sumsSpoil b.sums (addr.toNat / 32) diff } else b
    | .priv bid idx => s.onBlock bid fun b => { b with psums := b.psums.filter (·.1 != (idx, addr.toNat / 32)) ++
        [((idx, addr.toNat / 32), look b.psums (idx, addr.toNat / 32) 0 ^^^ diff)] })

/-- CORRECTABLE_ERROR (R111): corrected without effect on a program, and counted. -/
def execCorrectableError (die : Nat) (s : State) : Host.Outcome State Fault Refusal :=
  .next (s.onDie die fun d => { d with corrected := d.corrected + 1 })

/-! ### The fabric (R120, R376 to R378) -/

/-- The bytes of a request from outside. -/
def bodySize : FabricBody → Nat
  | .read n => n
  | .write bs => bs.length

/-- A request writes. -/
def bodyWrites : FabricBody → Bool
  | .read _ => false
  | .write _ => true

/-- An address of the bring-up status or the bring-up mailbox (R375). -/
def isBringUp (a : Nat) : Bool := winOf a == .regs && (match (regBlk (a - regsBase)).1 with
  | .bring => true
  | .mailbox => true
  | _ => false)

/-- A request that the package serves at n bytes of its own is performed there, unless the check of what it reads fails
(R110, R111): the state after it, and what is read. -/
def State.performAt (s : State) (a : Nat) (body : FabricBody) : State × Option (List Byte) :=
  match body with
  | .read n => (s, if s.homeBad 0 (.pa a) n then none else some (s.homeBytes a n))
  | .write bs => (s.homeWrite a bs, some [])

/-- FABRIC_REQUEST (R376 to R378): a request from outside is performed at its home, or answered with an error completion;
the answer is kept in State.answers. While the ports have not passed their self-test nothing is served; in the hold state the
management endpoint lets the bring-up status and mailbox be read (R382, R383) (log 66, DEDUCED). -/
def execFabricRequest (fid off : Nat) (body : FabricBody) (s : State) : Host.Outcome State Fault Refusal :=
  let answer (s : State) (d : Option (List Byte)) : State := { s with answers := s.answers ++ [⟨fid, off, d⟩] }
  let at' := (s.partOfFid fid).bind fun p => s.servedAt p off (bodySize body) (bodyWrites body)
  .next (if s.bring.up 4 then
      match at' with
      | some a =>
        if isDram a && !s.usable (dieOf a) a then s
        else
          let (t, d) := s.performAt a body
          answer t d
      | none => answer s none
    else if !s.bring.hold then s
    else match at' with
      | some a => answer s (if !bodyWrites body && (upto a (bodySize body)).all isBringUp then some (s.homeBytes a (bodySize body)) else none)
      | none => answer s none)

/-- Units that wait for an answer over the fabric try their word again. -/
def ISet.answered (u : ISet) : ISet := if u.stat = .fabricWait then { u with stat := .ready } else u

/-- The agents of a block or control core that wait for answers try again. -/
def State.fabricWake (s : State) (bid idx : Nat) : State :=
  let go (g : Grp) : Grp := { g with units := g.units.map ISet.answered }
  if bid = 0 then s.onCc idx fun k =>
    { k with grp := go k.grp, trap := k.trap.map fun t => { t with groups := t.groups.map go } }
  else { s.onBlock bid fun b => { b with groups := b.groups.map go } with
    traps := mapIf (fun (t : TrapCtx) => t.bid == bid) (fun t => { t with groups := t.groups.map go }) s.traps }

/-- A request over the fabric is complete: a write is acknowledged, a read has its bytes. -/
def State.fabricDone (s : State) (f : FabOp) (data : List Byte) : State :=
  if f.write then { s with fabric := s.fabric.filter (·.fid != f.fid) }
  else if f.answered || data.length != f.len then s
  else { s with fabric := mapIf (·.fid == f.fid) (fun (f : FabOp) => { f with answered := true, bytes := data }) s.fabric
    }.fabricWake f.bid f.idx

/-- ACC of an access over the fabric by a thread (R332). -/
def FabOp.acc (f : FabOp) : Nat :=
  match f.write, f.op with
  | false, none => 0
  | true, none => 1
  | false, some x => if x.1 = 66 then 9 else if x.1 = 67 then 8 else 2
  | true, some x => if x.1 < 64 then 3 else 6

/-- A request changes what it reaches. -/
def FabOp.changes (f : FabOp) : Bool := f.write || (match f.op with
  | some x => decide (x.1 < 66)
  | none => false)

/-- The bytes a request over the fabric touches: an add-on's element is one of 4 bytes. -/
def FabOp.width (f : FabOp) : Nat := match f.op with
  | some (op, _) => if op = 64 ∨ op = 65 then 4 else f.len
  | none => f.len

/-- An access over the fabric has failed (R376): its block ends as on a storage error, a control core takes a translation
trap. The record is of the word that made it, and names its thread, or of a fetch the group (R332, R333). -/
def State.fabricFail (s : State) (f : FabOp) : State :=
  let s := { s with fabric := s.fabric.filter (·.fid != f.fid) }
  if f.bid = 0 then (s.fabricWake 0 f.idx).ccFail f.idx f.va
  else match (s.block? f.bid).filter fun b => b.st != .ended with
    | none => s
    | some b =>
      match b.eng.find? fun r => engIdx r.rid == f.idx with
      | some r => s.engStorage b r f.va.toNat
      | none =>
        let is := if f.acc = 9 then b.groupOf [f.idx] else [f.idx]
        s.storageEnd b ⟨b.num, f.src.seg.toNat, f.src.word.toNat, f.va.toNat, nameOf f.src.lanes is, 0, 9, f.acc, coreDie b.core⟩

/-- A request of the package's own is performed at an address of the package that its fabric address names (R375): the state
after it, and the bytes it found. -/
def State.farPerform (s : State) (f : FabOp) (a : Nat) : State × List Byte :=
  match f.op with
  | none => if f.write then (s.homeWrite a f.bytes, []) else (s, s.homeBytes a f.len)
  | some (op, cmp) =>
    if 66 ≤ op then (s, s.homeBytes a f.len)
    else
    let n := f.width
    let old := s.homeNat a n
    let v := leNat f.bytes
    (s.homeWrite a (leBytes n (if op < 64 then laNew op old v cmp.toNat else addOn (op == 65) old (BitVec.ofNat 40 v))), leBytes n old)

/-- A request of the package's own reaches a partition of the package (R375, R376): it is performed and completed there, or
fails. -/
def State.farServe (s : State) (f : FabOp) (p o : Nat) : State :=
  match s.servedAt p o f.width f.changes with
  | none => s.fabricFail f
  | some a =>
    if (!f.write || f.op.isSome) && s.homeBad 0 (.pa a) f.width then s.fabricFail f
    else
      let (s, d) := s.farPerform f a
      s.fabricDone f d

/-- FABRIC_COMPLETION (R120, R375, R376): a write beyond the fabric is acknowledged, or a read answered, by the other end; by
this package where the identity is one of its own. A management block completes nothing (R379). -/
def execFabricCompletion (fid : Nat) (data : List Byte) (s : State) : Host.Outcome State Fault Refusal :=
  .next (match s.fabric.find? (·.fid == fid) with
    | none => s
    | some f =>
      if !isFabric f.pa || f.answered then s
      else match s.sibling f.pa with
        -- what has not passed its self-test serves nothing yet (R382)
        | some (p, o) => match s.servedAt p o f.width f.changes with
          | some a => if s.usable (dieOf a) a then s.farServe f p o else s
          | none => s.farServe f p o
        | none => s.fabricDone f data)

/-- ERROR_COMPLETION (R376, R379): an access beyond the fabric, or a write to a management block, has failed. -/
def execErrorCompletion (fid : Nat) (s : State) : Host.Outcome State Fault Refusal :=
  .next (match s.fabric.find? (·.fid == fid) with
    | none => s
    | some f => if f.answered then s else s.fabricFail f)

/-! ### Resets (R306, R382, R384) -/

/-- A partition is reset: its launches stop, every register of its dies is at its Reset value, no context is in force, LSEQ
reads 0, its dies' counters restart (R306) (log 68, DEDUCED). The dies' counts of corrected errors and lowered clocks, and the
bytes of its on-chip map, are kept (log 104, DESIGN CHOICE). -/
def State.resetPart (s : State) (p : Nat) : State :=
  let mine (d : Nat) : Bool := s.partOf d == p
  let lids := (s.launches.filter fun l => l.ctx.part == p).map (·.lid)
  let bids := (s.blocks.filter fun b => lids.contains b.lid).map (·.bid)
  let thread (bid idx : Nat) : Bool := if bid = 0 then mine (idx / 2) else bids.contains bid
  let at' {α : Type} (l : List α) (v : α) : List α := if p < l.length then l.set p v else l
  let s := (s.blocks.filter fun b => bids.contains b.bid).foldl State.leave s
  { s with
    launches := s.launches.filter fun l => !lids.contains l.lid
    blocks := s.blocks.filter fun b => !lids.contains b.lid
    traps := s.traps.filter fun t => !bids.contains t.bid
    atoms := s.atoms.filter fun a => !thread a.bid a.idx
    homeq := s.homeq.filter fun h => !(if h.bid = 0 then mine ((h.core - Config.cores) / 2) else bids.contains h.bid)
    fabric := s.fabric.filter fun f => !thread f.bid f.idx
    ccs := s.ccs.map fun k => if mine (k.num / 2) then CCore.init k.num else k
    cores := s.cores.filter fun c => !mine (coreDie c.num)
    dies := s.dies.map fun d =>
      if mine d.num then { Die.init d.num with corrected := d.corrected, lowered := d.lowered }
      else { d with point := d.point.filter fun x => !thread x.bid x.idx }
    queues := s.queues.filter fun q => !mine (q.num / 512)
    xregs := at' s.xregs ⟨0, 0, 0, []⟩
    lctls := at' s.lctls ⟨0, 0, 0, 0, 0, []⟩
    mgmt := (s.mgmt.zip (upto 0 s.mgmt.length)).map fun x => if mine x.2 then ⟨0, 0, 0, 0⟩ else x.1
    dbg := at' s.dbg ⟨List.replicate 8 none, List.replicate 4 none, false, []⟩
    pend := s.pend.filter fun x => x.ctx.part != p
    tlb := s.tlb.filter fun t => t.part != p
    cards := s.cards.filter fun c => c.ctx.part != p
    rings := s.rings.filter fun x => x.part != p }

/-- PARTITION_RESET (R306). -/
def execPartitionReset (part : Nat) (s : State) : Host.Outcome State Fault Refusal := .next (s.resetPart part)

/-- POWER_ON_RESET (R382, R384): the machine is as after power-on; what comes next outside it, and the numbers of the free
values used up, are not its state. -/
def execPowerOnReset (s : State) : Host.Outcome State Fault Refusal :=
  .next { State.reset with agenda := s.agenda, free := s.free, tick := s.tick }

/-! ### Management (R379, R380) -/

/-- A die's management block with all its fields, as a number. -/
def State.mgmtFull (s : State) (d : Nat) : Nat := s.mgmtImage d + (nth s.mgmt d ⟨0, 0, 0, 0⟩).sealkey.toNat * 2 ^ 384

/-- A management block takes the fields of a number (log 67, DEDUCED). -/
def State.mgmtPut (s : State) (d x : Nat) : State :=
  let m : Mgmt := ⟨BitVec.ofNat 128 (bits x 511 384), BitVec.ofNat 64 (bits x 383 320 / 2 ^ 26 * 2 ^ 26),
    BitVec.ofNat 16 (bits x 319 304), BitVec.ofNat 10 (bits x 281 272)⟩
  { s with mgmt := if d < s.mgmt.length then s.mgmt.set d m else s.mgmt }

/-- MANAGEMENT_WRITE (R379, R380, R383): fabric management writes a die's block, through an endpoint that is up or answers in
the hold state; a change of PARTCFG resets every partition first. -/
def execManagementWrite (die off : Nat) (bytes : List Byte) (s : State) : Host.Outcome State Fault Refusal :=
  .next (if (s.bring.up 0 || s.bring.hold) = false ∨ 4 ≤ die ∨ 64 < off + bytes.length then s
    else
      let cfg := BitVec.ofNat 2 (bits (overlay (s.mgmtFull die) off bytes) 289 288)
      if die = 0 ∧ cfg ≠ 3 ∧ cfg ≠ s.partcfg then
        let s := (upto 0 (4 / s.diesPer)).foldl (fun (s : State) p => s.resetPart p) s
        { s.mgmtPut die (overlay (s.mgmtFull die) off bytes) with partcfg := cfg }
      else s.mgmtPut die (overlay (s.mgmtFull die) off bytes))

/-! ### Power and bring-up (R381 to R383) -/

/-- CLOCK_LOWERING (R381): a die's arithmetic clock is lowered, which affects timing only. -/
def execClockLowering (die : Nat) (s : State) : Host.Outcome State Fault Refusal :=
  .next (s.onDie die fun d => { d with lowered := d.lowered + 1 })

/-- SELF_TEST_COMPLETE (R382, R383): test fn has ended: 0 to 7 are the functions of READY, 8 + d is the last test of die d.
Its result code goes to the bring-up mailbox. A failure sets STFAIL and HOLD, and READY bits 6 and 7 stay clear (log 70, DEDUCED). -/
def execSelfTestComplete (fn : Nat) (failing : BitVec 16) (s : State) : Host.Outcome State Fault Refusal :=
  .next (if 32 ≤ fn then s
    else
      let code := leBytes 8 failing.toNat
      let box := s.mailbox.take (8 * fn) ++ code ++ s.mailbox.drop (8 * fn + 8)
      let b := s.bring
      let b := if failing = 0 then
          { b with
            ready := if fn < 8 && !(b.hold && decide (6 ≤ fn)) then b.ready ||| BitVec.ofNat 8 (2 ^ fn) else b.ready
            dieok := if 8 ≤ fn ∧ fn < 12 then b.dieok ||| BitVec.ofNat 4 (2 ^ (fn - 8)) else b.dieok }
        else { b with stfail := if b.stfail = 0 then failing else b.stfail, hold := true, ready := b.ready &&& 0x3F }
      State.queuesAgain { s with mailbox := box, bring := b })

end Sys2Proof.Machine
end

