-- ==== Sys2Proof/Machine/Dispatch.lean ====
section
/-! DEFINITION. What each instruction and event does: one call of its meaning. -/

namespace Sys2Proof.Machine

def exec (i : Instr) (s : State) : Host.Outcome State Fault Refusal :=
  match i with
  | .mov d a ka wide => Sys2Proof.Machine.execMov d a ka wide s
  | .iadd d a b ka kb wide => Sys2Proof.Machine.execIadd d a b ka kb wide s
  | .isub d a b ka kb wide => Sys2Proof.Machine.execIsub d a b ka kb wide s
  | .imul d a b ka kb wide => Sys2Proof.Machine.execImul d a b ka kb wide s
  | .shl d a b ka kb wide => Sys2Proof.Machine.execShl d a b ka kb wide s
  | .shr d a b ka kb wide => Sys2Proof.Machine.execShr d a b ka kb wide s
  | .sar d a b ka kb wide => Sys2Proof.Machine.execSar d a b ka kb wide s
  | .and d a b ka kb wide => Sys2Proof.Machine.execAnd d a b ka kb wide s
  | .or d a b ka kb wide => Sys2Proof.Machine.execOr d a b ka kb wide s
  | .xor d a b ka kb wide => Sys2Proof.Machine.execXor d a b ka kb wide s
  | .andn d a b ka kb wide => Sys2Proof.Machine.execAndn d a b ka kb wide s
  | .imin d a b ka kb wide => Sys2Proof.Machine.execImin d a b ka kb wide s
  | .imax d a b ka kb wide => Sys2Proof.Machine.execImax d a b ka kb wide s
  | .nmin d a b ka kb wide => Sys2Proof.Machine.execNmin d a b ka kb wide s
  | .nmax d a b ka kb wide => Sys2Proof.Machine.execNmax d a b ka kb wide s
  | .ineg d a ka wide => Sys2Proof.Machine.execIneg d a ka wide s
  | .iabs d a ka wide => Sys2Proof.Machine.execIabs d a ka wide s
  | .mkform d a b ka kb wide => Sys2Proof.Machine.execMkform d a b ka kb wide s
  | .xbase d a ka wide => Sys2Proof.Machine.execXbase d a ka wide s
  | .xstride d a ka wide => Sys2Proof.Machine.execXstride d a ka wide s
  | .rdfirst d a ka wide => Sys2Proof.Machine.execRdfirst d a ka wide s
  | .expand d a ka wide => Sys2Proof.Machine.execExpand d a ka wide s
  | .iaddi d a imm => Sys2Proof.Machine.execIaddi d a imm s
  | .imuli d a imm => Sys2Proof.Machine.execImuli d a imm s
  | .shli d a imm => Sys2Proof.Machine.execShli d a imm s
  | .shri d a imm => Sys2Proof.Machine.execShri d a imm s
  | .sari d a imm => Sys2Proof.Machine.execSari d a imm s
  | .andi d a imm => Sys2Proof.Machine.execAndi d a imm s
  | .ori d a imm => Sys2Proof.Machine.execOri d a imm s
  | .xori d a imm => Sys2Proof.Machine.execXori d a imm s
  | .movi d imm => Sys2Proof.Machine.execMovi d imm s
  | .iaddiw d a imm => Sys2Proof.Machine.execIaddiw d a imm s
  | .movl d imm => Sys2Proof.Machine.execMovl d imm s
  | .movh d imm => Sys2Proof.Machine.execMovh d imm s
  | .movs d imm => Sys2Proof.Machine.execMovs d imm s
  | .icmp pd a b cond => Sys2Proof.Machine.execIcmp pd a b cond s
  | .icmpa pd ps a b cond => Sys2Proof.Machine.execIcmpa pd ps a b cond s
  | .icmpo pd ps a b cond => Sys2Proof.Machine.execIcmpo pd ps a b cond s
  | .ncmp pd a b cond => Sys2Proof.Machine.execNcmp pd a b cond s
  | .ncmpa pd ps a b cond => Sys2Proof.Machine.execNcmpa pd ps a b cond s
  | .ncmpo pd ps a b cond => Sys2Proof.Machine.execNcmpo pd ps a b cond s
  | .icmpi pd a imm cond => Sys2Proof.Machine.execIcmpi pd a imm cond s
  | .ncmpi pd a imm cond => Sys2Proof.Machine.execNcmpi pd a imm cond s
  | .icmpw pd a b cond => Sys2Proof.Machine.execIcmpw pd a b cond s
  | .ncmpw pd a b cond => Sys2Proof.Machine.execNcmpw pd a b cond s
  | .pand pd pa pb => Sys2Proof.Machine.execPand pd pa pb s
  | .por pd pa pb => Sys2Proof.Machine.execPor pd pa pb s
  | .pxor pd pa pb => Sys2Proof.Machine.execPxor pd pa pb s
  | .pandn pd pa pb => Sys2Proof.Machine.execPandn pd pa pb s
  | .pnot pd pa => Sys2Proof.Machine.execPnot pd pa s
  | .pset pd k => Sys2Proof.Machine.execPset pd k s
  | .pcut pd a above => Sys2Proof.Machine.execPcut pd a above s
  | .sel d a b p sense => Sys2Proof.Machine.execSel d a b p sense s
  | .selw d a b p sense => Sys2Proof.Machine.execSelw d a b p sense s
  | .ptoi d p sense => Sys2Proof.Machine.execPtoi d p sense s
  | .next off => Sys2Proof.Machine.execNext off s
  | .br p sense off => Sys2Proof.Machine.execBr p sense off s
  | .brx a => Sys2Proof.Machine.execBrx a s
  | .call off => Sys2Proof.Machine.execCall off s
  | .callx a => Sys2Proof.Machine.execCallx a s
  | .ret => Sys2Proof.Machine.execRet s
  | .exit => Sys2Proof.Machine.execExit s
  | .trap n => Sys2Proof.Machine.execTrap n s
  | .switch a entriesM1 => Sys2Proof.Machine.execSwitch a entriesM1 s
  | .yield off => Sys2Proof.Machine.execYield off s
  | .rds d wide sreg => Sys2Proof.Machine.execRds d wide sreg s
  | .wrs a wide sreg => Sys2Proof.Machine.execWrs a wide sreg s
  | .fence scope kind => Sys2Proof.Machine.execFence scope kind s
  | .bar n => Sys2Proof.Machine.execBar n s
  | .bara n => Sys2Proof.Machine.execBara n s
  | .rand d stream => Sys2Proof.Machine.execRand d stream s
  | .cyc d wide => Sys2Proof.Machine.execCyc d wide s
  | .nop => Sys2Proof.Machine.execNop s
  | .bkpt code => Sys2Proof.Machine.execBkpt code s
  | .eret => Sys2Proof.Machine.execEret s
  | .xcht d n => Sys2Proof.Machine.execXcht d n s
  | .launch d a => Sys2Proof.Machine.execLaunch d a s
  | .lwait d a => Sys2Proof.Machine.execLwait d a s
  | .icinv a => Sys2Proof.Machine.execIcinv a s
  | .icinvAll => Sys2Proof.Machine.execIcinvAll s
  | .dbgHalt d a => Sys2Proof.Machine.execDbgHalt d a s
  | .dbgResume d a => Sys2Proof.Machine.execDbgResume d a s
  | .dbgStep d a => Sys2Proof.Machine.execDbgStep d a s
  | .dbgSetbp d a => Sys2Proof.Machine.execDbgSetbp d a s
  | .dbgClrbp d a => Sys2Proof.Machine.execDbgClrbp d a s
  | .dbgSetwp d a => Sys2Proof.Machine.execDbgSetwp d a s
  | .dbgClrwp d a => Sys2Proof.Machine.execDbgClrwp d a s
  | .dbgRead d a => Sys2Proof.Machine.execDbgRead d a s
  | .dbgPost d a => Sys2Proof.Machine.execDbgPost d a s
  | .halt => Sys2Proof.Machine.execHalt s
  | .segh lenM1 fold liveG liveP role => Sys2Proof.Machine.execSegh lenM1 fold liveG liveP role s
  | .runh count guard sense prefetch => Sys2Proof.Machine.execRunh count guard sense prefetch s
  | .imulhi d a b ka kb st => Sys2Proof.Machine.execImulhi d a b ka kb st s
  | .nmulhi d a b ka kb st => Sys2Proof.Machine.execNmulhi d a b ka kb st s
  | .popc d a ka st => Sys2Proof.Machine.execPopc d a ka st s
  | .clz d a ka st => Sys2Proof.Machine.execClz d a ka st s
  | .brev d a ka st => Sys2Proof.Machine.execBrev d a ka st s
  | .bfe d a b ka kb st => Sys2Proof.Machine.execBfe d a b ka kb st s
  | .prmt d a b ka kb st => Sys2Proof.Machine.execPrmt d a b ka kb st s
  | .fadd d a b ka kb st => Sys2Proof.Machine.execFadd d a b ka kb st s
  | .fsub d a b ka kb st => Sys2Proof.Machine.execFsub d a b ka kb st s
  | .fmul d a b ka kb st => Sys2Proof.Machine.execFmul d a b ka kb st s
  | .fmin d a b ka kb st => Sys2Proof.Machine.execFmin d a b ka kb st s
  | .fmax d a b ka kb st => Sys2Proof.Machine.execFmax d a b ka kb st s
  | .fabs d a ka st => Sys2Proof.Machine.execFabs d a ka st s
  | .fneg d a ka st => Sys2Proof.Machine.execFneg d a ka st s
  | .dadd d a b ka kb st => Sys2Proof.Machine.execDadd d a b ka kb st s
  | .dsub d a b ka kb st => Sys2Proof.Machine.execDsub d a b ka kb st s
  | .dmul d a b ka kb st => Sys2Proof.Machine.execDmul d a b ka kb st s
  | .dmin d a b ka kb st => Sys2Proof.Machine.execDmin d a b ka kb st s
  | .dmax d a b ka kb st => Sys2Proof.Machine.execDmax d a b ka kb st s
  | .hadd2 d a b ka kb st => Sys2Proof.Machine.execHadd2 d a b ka kb st s
  | .hmul2 d a b ka kb st => Sys2Proof.Machine.execHmul2 d a b ka kb st s
  | .hmin2 d a b ka kb st => Sys2Proof.Machine.execHmin2 d a b ka kb st s
  | .hmax2 d a b ka kb st => Sys2Proof.Machine.execHmax2 d a b ka kb st s
  | .badd2 d a b ka kb st => Sys2Proof.Machine.execBadd2 d a b ka kb st s
  | .bmul2 d a b ka kb st => Sys2Proof.Machine.execBmul2 d a b ka kb st s
  | .cvt d a code ka inf st => Sys2Proof.Machine.execCvt d a code ka inf st s
  | .fexp2 d a ka st => Sys2Proof.Machine.execFexp2 d a ka st s
  | .flog2 d a ka st => Sys2Proof.Machine.execFlog2 d a ka st s
  | .frcp d a ka st => Sys2Proof.Machine.execFrcp d a ka st s
  | .frsq d a ka st => Sys2Proof.Machine.execFrsq d a ka st s
  | .fsqrt d a ka st => Sys2Proof.Machine.execFsqrt d a ka st s
  | .fsinp d a ka st => Sys2Proof.Machine.execFsinp d a ka st s
  | .fcosp d a ka st => Sys2Proof.Machine.execFcosp d a ka st s
  | .ftanh d a ka st => Sys2Proof.Machine.execFtanh d a ka st s
  | .drcp d a ka st => Sys2Proof.Machine.execDrcp d a ka st s
  | .drsq d a ka st => Sys2Proof.Machine.execDrsq d a ka st s
  | .fscl d a b ka kb st => Sys2Proof.Machine.execFscl d a b ka kb st s
  | .dscl d a b ka kb st => Sys2Proof.Machine.execDscl d a b ka kb st s
  | .ffrc d a ka st => Sys2Proof.Machine.execFfrc d a ka st s
  | .ffma d a b c st => Sys2Proof.Machine.execFfma d a b c st s
  | .dfma d a b c st => Sys2Proof.Machine.execDfma d a b c st s
  | .hfma2 d a b c st => Sys2Proof.Machine.execHfma2 d a b c st s
  | .imad d a b c st => Sys2Proof.Machine.execImad d a b c st s
  | .ld8 d a off ka st => Sys2Proof.Machine.execLd8 d a off ka st s
  | .ld8s d a off ka st => Sys2Proof.Machine.execLd8s d a off ka st s
  | .ld16 d a off ka st => Sys2Proof.Machine.execLd16 d a off ka st s
  | .ld16s d a off ka st => Sys2Proof.Machine.execLd16s d a off ka st s
  | .ld32 d a off ka st => Sys2Proof.Machine.execLd32 d a off ka st s
  | .ld64 d a off ka st => Sys2Proof.Machine.execLd64 d a off ka st s
  | .ld128 d a off ka st => Sys2Proof.Machine.execLd128 d a off ka st s
  | .lda32 d a off ka st => Sys2Proof.Machine.execLda32 d a off ka st s
  | .lda64 d a off ka st => Sys2Proof.Machine.execLda64 d a off ka st s
  | .ld128a d a off ka st => Sys2Proof.Machine.execLd128a d a off ka st s
  | .st8 d a off ka st => Sys2Proof.Machine.execSt8 d a off ka st s
  | .st16 d a off ka st => Sys2Proof.Machine.execSt16 d a off ka st s
  | .st32 d a off ka st => Sys2Proof.Machine.execSt32 d a off ka st s
  | .st64 d a off ka st => Sys2Proof.Machine.execSt64 d a off ka st s
  | .st128 d a off ka st => Sys2Proof.Machine.execSt128 d a off ka st s
  | .stl32 d a off ka st => Sys2Proof.Machine.execStl32 d a off ka st s
  | .stl64 d a off ka st => Sys2Proof.Machine.execStl64 d a off ka st s
  | .st128a d a off ka st => Sys2Proof.Machine.execSt128a d a off ka st s
  | .ldc32 d a off ka st => Sys2Proof.Machine.execLdc32 d a off ka st s
  | .ldc64 d a off ka st => Sys2Proof.Machine.execLdc64 d a off ka st s
  | .pfx a off ka st => Sys2Proof.Machine.execPfx a off ka st s
  | .aadd d a b scope order => Sys2Proof.Machine.execAadd d a b scope order s
  | .aimin d a b scope order => Sys2Proof.Machine.execAimin d a b scope order s
  | .aimax d a b scope order => Sys2Proof.Machine.execAimax d a b scope order s
  | .anmin d a b scope order => Sys2Proof.Machine.execAnmin d a b scope order s
  | .anmax d a b scope order => Sys2Proof.Machine.execAnmax d a b scope order s
  | .aand d a b scope order => Sys2Proof.Machine.execAand d a b scope order s
  | .aor d a b scope order => Sys2Proof.Machine.execAor d a b scope order s
  | .axor d a b scope order => Sys2Proof.Machine.execAxor d a b scope order s
  | .axch d a b scope order => Sys2Proof.Machine.execAxch d a b scope order s
  | .acas d a b scope order => Sys2Proof.Machine.execAcas d a b scope order s
  | .afadd d a b scope order => Sys2Proof.Machine.execAfadd d a b scope order s
  | .aaddw d a b scope order => Sys2Proof.Machine.execAaddw d a b scope order s
  | .axchw d a b scope order => Sys2Proof.Machine.execAxchw d a b scope order s
  | .acasw d a b scope order => Sys2Proof.Machine.execAcasw d a b scope order s
  | .qadd a b scope order => Sys2Proof.Machine.execQadd a b scope order s
  | .qimin a b scope order => Sys2Proof.Machine.execQimin a b scope order s
  | .qimax a b scope order => Sys2Proof.Machine.execQimax a b scope order s
  | .qand a b scope order => Sys2Proof.Machine.execQand a b scope order s
  | .qor a b scope order => Sys2Proof.Machine.execQor a b scope order s
  | .qxor a b scope order => Sys2Proof.Machine.execQxor a b scope order s
  | .qfadd a b scope order => Sys2Proof.Machine.execQfadd a b scope order s
  | .qbadd2 a b scope order => Sys2Proof.Machine.execQbadd2 a b scope order s
  | .waita d a b scope order => Sys2Proof.Machine.execWaita d a b scope order s
  | .mma tile zero a resv mask st => Sys2Proof.Machine.execMma tile zero a resv mask st s
  | .mmab tile zero a resv mask st => Sys2Proof.Machine.execMmab tile zero a resv mask st s
  | .mcfg a st => Sys2Proof.Machine.execMcfg a st s
  | .mzero tile k40 st => Sys2Proof.Machine.execMzero tile k40 st s
  | .mread d a tile mode st => Sys2Proof.Machine.execMread d a tile mode st s
  | .mwrite tile a b i32 st => Sys2Proof.Machine.execMwrite tile a b i32 st s
  | .mdrain tile a b add st => Sys2Proof.Machine.execMdrain tile a b add st s
  | .mwait tile all st => Sys2Proof.Machine.execMwait tile all st s
  | .ofence st => Sys2Proof.Machine.execOfence st s
  | .obres resv a st => Sys2Proof.Machine.execObres resv a st s
  | .obbind resv a st => Sys2Proof.Machine.execObbind resv a st s
  | .obrel resv st => Sys2Proof.Machine.execObrel resv st s
  | .cpy a arv st => Sys2Proof.Machine.execCpy a arv st s
  | .cpys a arv st => Sys2Proof.Machine.execCpys a arv st s
  | .fetch a b arv st => Sys2Proof.Machine.execFetch a b arv st s
  | .tbinit a b ring st => Sys2Proof.Machine.execTbinit a b ring st s
  | .tbarr a b decl st => Sys2Proof.Machine.execTbarr a b decl st s
  | .tbwait a b par st => Sys2Proof.Machine.execTbwait a b par st s
  | .tbtest pd a b par st => Sys2Proof.Machine.execTbtest pd a b par st s
  | .sfmax tile a b st => Sys2Proof.Machine.execSfmax tile a b st s
  | .sfmask mreg a b st => Sys2Proof.Machine.execSfmask mreg a b st s
  | .sfclr mreg a maskOnly st => Sys2Proof.Machine.execSfclr mreg a maskOnly st s
  | .sftopk a st => Sys2Proof.Machine.execSftopk a st s
  | .sfhist a st => Sys2Proof.Machine.execSfhist a st s
  | .sfscan a incl st => Sys2Proof.Machine.execSfscan a incl st s
  | .sfperm a st => Sys2Proof.Machine.execSfperm a st s
  | .sfwait st => Sys2Proof.Machine.execSfwait st s
  | .redi d a mode st => Sys2Proof.Machine.execRedi d a mode st s
  | .redn d a mode st => Sys2Proof.Machine.execRedn d a mode st s
  | .redf d a mode st => Sys2Proof.Machine.execRedf d a mode st s
  | .redd d a mode st => Sys2Proof.Machine.execRedd d a mode st s
  | .scani d a mode st => Sys2Proof.Machine.execScani d a mode st s
  | .scanf d a mode st => Sys2Proof.Machine.execScanf d a mode st s
  | .bcast d a src st => Sys2Proof.Machine.execBcast d a src st s
  | .vote op ps st => Sys2Proof.Machine.execVote op ps st s
  | .isect d a b st => Sys2Proof.Machine.execIsect d a b st s
  | .isectb d a b pk st => Sys2Proof.Machine.execIsectb d a b pk st s
  | .fcmp pd a b mode st => Sys2Proof.Machine.execFcmp pd a b mode st s
  | .dcmp pd a b mode st => Sys2Proof.Machine.execDcmp pd a b mode st s
  | .hcmp2 pd a b mode st => Sys2Proof.Machine.execHcmp2 pd a b mode st s
  | .fclass d a mode st => Sys2Proof.Machine.execFclass d a mode st s
  | .foldClose bid node => Sys2Proof.Machine.execFoldClose bid node s
  | .heldThreadPlacement bid gid => Sys2Proof.Machine.execHeldThreadPlacement bid gid s
  | .convergenceDeadlock bid => Sys2Proof.Machine.execConvergenceDeadlock bid s
  | .blockDispatch lid cores => Sys2Proof.Machine.execBlockDispatch lid cores s
  | .steal core victim => Sys2Proof.Machine.execSteal core victim s
  | .concurrentPlacement lid cores => Sys2Proof.Machine.execConcurrentPlacement lid cores s
  | .blockEnd bid => Sys2Proof.Machine.execBlockEnd bid s
  | .postmark lid => Sys2Proof.Machine.execPostmark lid s
  | .storeToCorePoint q => Sys2Proof.Machine.execStoreToCorePoint q s
  | .storeToDiePoint core n => Sys2Proof.Machine.execStoreToDiePoint core n s
  | .storeToHome die n => Sys2Proof.Machine.execStoreToHome die n s
  | .quietReductionPerform hid n => Sys2Proof.Machine.execQuietReductionPerform hid n s
  | .atomicPerform aid => Sys2Proof.Machine.execAtomicPerform aid s
  | .loadCacheDrop core n fetchUnit => Sys2Proof.Machine.execLoadCacheDrop core n fetchUnit s
  | .sharedLoadRead q => Sys2Proof.Machine.execSharedLoadRead q s
  | .capacityCommit bid => Sys2Proof.Machine.execCapacityCommit bid s
  | .copySourceRead bid rid sec first n => Sys2Proof.Machine.execCopySourceRead bid rid sec first n s
  | .sectorPerformed bid rid sec => Sys2Proof.Machine.execSectorPerformed bid rid sec s
  | .parkResume q => Sys2Proof.Machine.execParkResume q s
  | .matrixPerform bid rid => Sys2Proof.Machine.execMatrixPerform bid rid s
  | .addOnStorePerform hid => Sys2Proof.Machine.execAddOnStorePerform hid s
  | .reservationFill bid rid => Sys2Proof.Machine.execReservationFill bid rid s
  | .siftPerform bid rid => Sys2Proof.Machine.execSiftPerform bid rid s
  | .waitaWake q => Sys2Proof.Machine.execWaitaWake q s
  | .waitaEnd q => Sys2Proof.Machine.execWaitaEnd q s
  | .replicaCompare lid num => Sys2Proof.Machine.execReplicaCompare lid num s
  | .replicaTimeout lid num => Sys2Proof.Machine.execReplicaTimeout lid num s
  | .forwardedValue q => Sys2Proof.Machine.execForwardedValue q s
  | .trapEntry q => Sys2Proof.Machine.execTrapEntry q s
  | .replay part ctx => Sys2Proof.Machine.execReplay part ctx s
  | .pageScan die frame => Sys2Proof.Machine.execPageScan die frame s
  | .fetchFaultSwap bid => Sys2Proof.Machine.execFetchFaultSwap bid s
  | .swapRestore bid core => Sys2Proof.Machine.execSwapRestore bid core s
  | .queuePost queue value => Sys2Proof.Machine.execQueuePost queue value s
  | .registerWrite addr bytes => Sys2Proof.Machine.execRegisterWrite addr bytes s
  | .programCommand cc => Sys2Proof.Machine.execProgramCommand cc s
  | .crossQueueFence cc => Sys2Proof.Machine.execCrossQueueFence cc s
  | .crossQueueFenceDone cc => Sys2Proof.Machine.execCrossQueueFenceDone cc s
  | .tlbInvalidate part value => Sys2Proof.Machine.execTlbInvalidate part value s
  | .invalidationComplete part => Sys2Proof.Machine.execInvalidationComplete part s
  | .preEmpt part => Sys2Proof.Machine.execPreEmpt part s
  | .launchResume part => Sys2Proof.Machine.execLaunchResume part s
  | .kill part => Sys2Proof.Machine.execKill part s
  | .blockSave bid => Sys2Proof.Machine.execBlockSave bid s
  | .quiesceTokenReturn lid => Sys2Proof.Machine.execQuiesceTokenReturn lid s
  | .storageError flaw addr diff => Sys2Proof.Machine.execStorageError flaw addr diff s
  | .correctableError die => Sys2Proof.Machine.execCorrectableError die s
  | .fabricRequest fid off body => Sys2Proof.Machine.execFabricRequest fid off body s
  | .errorCompletion fid => Sys2Proof.Machine.execErrorCompletion fid s
  | .managementWrite die off bytes => Sys2Proof.Machine.execManagementWrite die off bytes s
  | .partitionReset part => Sys2Proof.Machine.execPartitionReset part s
  | .powerOnReset => Sys2Proof.Machine.execPowerOnReset s
  | .selfTestComplete fn failing => Sys2Proof.Machine.execSelfTestComplete fn failing s
  | .clockLowering die => Sys2Proof.Machine.execClockLowering die s
  | .haltWake cc => Sys2Proof.Machine.execHaltWake cc s
  | .report => Sys2Proof.Machine.execReport s
  | .snapshotLatch part unit inst => Sys2Proof.Machine.execSnapshotLatch part unit inst s
  | .postcard n => Sys2Proof.Machine.execPostcard n s
  | .faultRecordWrite n => Sys2Proof.Machine.execFaultRecordWrite n s
  | .queueEnable queue value => Sys2Proof.Machine.execQueueEnable queue value s
  | .fabricCompletion fid data => Sys2Proof.Machine.execFabricCompletion fid data s

end Sys2Proof.Machine
end

