-- ==== Sys2Proof/Machine/Picker.lean ====
section
/-! DEFINITION. Who moves next (R41, R42; log 1, DESIGN CHOICE): which agents may issue, fetching a segment (R158 to R160, R321), issuing a
word, the events that may be due, and the choice among them. -/

namespace Sys2Proof.Machine

/-! ### Issue -/

/-- A wait that what other groups of the launch do can end. -/
def Stat.onOthers : Stat → Bool
  | .bar _ _ => true
  | .tbwait => true
  | .parked => true
  | .sharedWait => true
  | .fwdWait => true
  | .fence => true
  | _ => false

/-- A group of a launch waits inside a run, at its word or as its block stalls on its satchel or a commit: the launch's other
groups run on, so that the wait can end and the group come to a run boundary before its block is saved (R41; log 60, DEDUCED). -/
def State.midRun (s : State) (lid : Nat) : Bool :=
  s.blocks.any fun b => b.lid == lid && b.st == .running && b.groups.any fun g => g.units.any fun u =>
    !u.atBoundary && (u.stat.onOthers || (u.stat == .ready && (u.idle || b.full.isSome || b.commit.isSome)))

/-- A group stands at a run boundary at which it is to stop: for the debugger, to be saved, or as its launch is killed
(R41, R61). -/
def Env.barred (e : Env) (saving killed : Bool) : Bool :=
  e.unit.atBoundary && (saving || killed || (e.unit.atRun && (e.unit.haltReq || (e.unit.stepping && !e.unit.asked))))

/-- An agent is ready: it does not wait, its cores are in service, its block is not stalled on a satchel or a commit and
does not end, and nothing is to stop it here (R41, R42, R138, R354, R382, R383). -/
def State.able (s : State) (e : Env) : Bool :=
  let running (b : Block) : Bool := s.bring.compute && b.full.isNone && b.commit.isNone && !s.ending b
  e.unit.stat == .ready && (match e.who with
    | .cc c => s.bring.control && (match s.cc? c with
      | some k => !k.halted && k.trap.isNone && (match k.cmd with
        | some m => m.fence.isNone
        | none => false)
      | none => false)
    | .ccHand _ => s.bring.control
    | .kern bid _ _ => (match s.block? bid with
      | some b => running b && !e.barred (b.saving && !s.midRun b.lid) ((e.launch.map Launch.killed).getD false)
      | none => false)
    | .hand _ _ _ => (match s.block? e.bid with
      | some b => running b && !e.barred false false
      | none => false))

/-- Every agent of the machine. -/
def State.agents (s : State) : List Who :=
  s.ccs.flatMap (fun k => [Who.cc k.num, .ccHand k.num]) ++ s.traps.flatMap TrapCtx.whos
    ++ (s.blocks.filter (·.st == .running)).flatMap Block.whos

/-- A ready group of the same partition of the core, placed or held, has not had its run in the present round (R42). -/
def State.roundOpen (s : State) (e : Env) : Bool :=
  (s.agents.filterMap s.env?).any fun x => !x.solo && x.core == e.core && x.part == e.part && s.able x && !x.unit.ran

/-- An agent may issue its next word: it is ready, it holds a slot, and a run of it begins only when every other ready group
of its partition has had one since (R28, R42). -/
def State.canIssue (s : State) (e : Env) : Bool :=
  s.able e && !e.grp.held && !(e.unit.atRun && e.unit.ran && !e.solo && s.roundOpen e)

/-- The groups of a core's partition begin a new round (R42). -/
def State.newRound (s : State) (core part : Nat) : State :=
  let fresh (g : Grp) : Grp := { g with units := g.units.map fun u => { u with ran := false } }
  let mine (b : Block) (g : Grp) : Bool :=
    ((s.launch? b.lid).map fun l => partOfWindow l b.num (g.lo / 32) == part).getD false
  { s with
    blocks := mapIf (fun b => b.core == core) (fun b => { b with groups := mapIf (mine b) fresh b.groups }) s.blocks
    traps := mapIf (fun t => t.core == core && t.part == part) (fun (t : TrapCtx) => { t with groups := t.groups.map fresh }) s.traps }

/-- An agent that is granted a run has had its run of the round; a second one opens the next round (R42). -/
def State.granted (s : State) (e : Env) : State :=
  if e.unit.atRun && !e.solo then
    (if e.unit.ran then s.newRound e.core e.part else s).onUnit e.who fun u => { u with ran := true }
  else s

/-- A fetch of a block's group has failed (R159, R160, R323, R342): its record, and the end of its block, or the wait for its
page. A block that can be saved is to be saved (R321) (log 62, DEDUCED). `seg` is the segment that the record names. -/
def State.fetchFails (s : State) (e : Env) (seg : W64) (f : Fetched) : State :=
  let pc := e.unit.pc.toNat
  let rec' (kind level word addr : Nat) : Rec :=
    { e.fault kind level 9 addr e.members with seg := seg.toNat, word := word }
  match s.block? e.bid, e.launch with
  | some b, some l =>
    match f with
    | .words _ => s
    | .later => s
    | .ask _ => s
    | .outside lev => s.endFault b (rec' 4 lev e.unit.via.toNat pc)
    | .code a w => s.endFault b (rec' 6 0 a.toNat w)
    | .target => s.endFault b (rec' 7 0 e.unit.via.toNat pc)
    | .absent lev =>
      let (s, ok) := s.record l (rec' 5 lev e.unit.via.toNat pc) (some e.who)
      let s := s.onUnit e.who fun u => { u with stat := if ok then .fetchFault else .ringWait }
      let due := (s.blocks.filter fun x => x.lid == l.lid && x.st == .running && x.saving).length
      if l.progress ≠ 2 ∧ (s.slotsHeld l).length + due < l.slots then s.onBlock b.bid fun b => { b with saving := true } else s
  | _, _ => s

/-- The words of the segment an agent stands before are fetched, whole (log 13, DEDUCED) (log 27, DEDUCED); beyond the fabric they
are waited for (R376). -/
def State.fetch (s : State) (e : Env) : State :=
  match e.ctx with
  | none => s.trapWord e 17 e.unit.pc 1
  | some c =>
    let i := e.idx e.first
    let (s, f) := s.fetchSeg c e.die e.bid i e.unit.pc
    match f with
    | .words ws => (s.takeFrame e.bid i).onUnit e.who fun u => { u with code := ws, left := 0, seg := u.pc }
    | .later => s
    | .ask frame =>
      (s.askFrame e.bid i frame e.unit.pc { e.origin with word := e.unit.via, seg := e.unit.pc }).onUnit e.who fun u =>
        { u with stat := .fabricWait }
    | _ =>
      let s := s.takeFrame e.bid i
      match e.who with
      | .kern _ _ _ => s.fetchFails e e.unit.pc f
      | .hand _ _ _ => s.groupFault e 13 0 0 e.unit.via.toNat 0
      | .cc n => (match f with
        | .outside _ => s.trapWord e 17 e.unit.pc 1
        | .absent _ => s.trapWord e 17 e.unit.pc 1
        | _ => s.abandon n)
      | .ccHand n => s.abandon n

/-- An agent stands at a word that no accepted frame holds, as code has changed since its frame was scanned: R158 gives no
behaviour, and the model takes that of the scan, a code fault (R159), or R340's in a handler (log 77, DESIGN CHOICE). -/
def State.badWord (s : State) (e : Env) : State :=
  match e.who with
  | .kern _ _ _ => s.fetchFails e e.unit.seg (.code e.unit.pc e.unit.word)
  | .hand _ _ _ => s.groupFault e 13 0 0 e.unit.pc.toNat 0
  | .cc n => s.abandon n
  | .ccHand n => s.abandon n

/-- An agent after its turn, with its issue set as it stood before: one that is found waiting at its word, as for a register that
an atomic has still to write, has had its run of the round, and may make room for a held group (R28, R42; log 88, DEDUCED). -/
def State.found (s : State) (w : Who) (was : ISet) : State :=
  s.onUnit w fun u =>
    if u.stat = .ready ∧ u.pc = was.pc ∧ u.left = was.left ∧ u.code = was.code ∧ u.half = was.half ∧ u.asked = was.asked then
      { u with idle := true, ran := true }
    else { u with idle := false }

/-- An outcome's next state, changed. -/
def andThen (o : Host.Outcome State Fault Refusal) (f : State → State) : Host.Outcome State Fault Refusal :=
  match o with
  | .next t => .next (f t)
  | .fault x => .fault x
  | .refused x => .refused x

/-- An agent issues: it fetches the segment it stands before, or executes its next word, a RUNH opening its run. -/
def State.issue (s : State) (w : Who) : Host.Outcome State Fault Refusal :=
  match s.env? w with
  | none => .next s
  | some e =>
    if !s.canIssue e then .next s
    else match e.unit.code with
      | [] => .next (s.fetch e)
      | x :: _ =>
        match decode x with
        | .ok i => andThen (exec i { s.granted e with turn := w }) fun t => if e.solo then t else t.found w e.unit
        | .error _ => .next (s.badWord e)

/-- An agent is to read the LD128 it stands at in halves (R109, R216). -/
def State.splitNext (s : State) (w : Who) : State :=
  match s.env? w with
  | some e =>
    match decode (e.unit.code.headD 0) with
    | .ok (.ld128 _ _ _ _ _) => s.onUnit w fun u => if u.half.isNone then { u with half := some [] } else u
    | _ => s
  | none => s

/-- What a pick does. A word is no event. -/
def State.act (s : State) (p : Pick) : Host.Outcome State Fault Refusal :=
  match p with
  | .issue w => s.issue w
  | .split w => (s.splitNext w).issue w
  | .event i => if (encodeNat i).isSome then .next s else exec i s

/-! ### Events that may be due -/

/-- What an event does: its meaning with its names given. -/
abbrev Deed : Type := State → Host.Outcome State Fault Refusal

/-- Split nodes at whose fold some unit waits. -/
def foldNodes (gs : List Grp) : List Nat :=
  dedup (gs.flatMap fun g => g.units.filterMap fun u => if u.stat = .fold then (u.path.head?).map (·.node) else none)

/-- What a waiting unit may be due for; `stop` says that a WAITA is to end: for the debugger, a save, a kill or an invalidation
that waits for it. -/
def ISet.due (stop : Bool) (w : Who) (u : ISet) : List Deed :=
  match u.stat with
  | .parked => [execParkResume w]
  | .sharedWait => [execSharedLoadRead w]
  | .fwdWait => [execForwardedValue w]
  | .waita _ _ _ => [if u.haltReq || stop then execWaitaEnd w else execWaitaWake w]
  | .trapHeld _ => [execTrapEntry w]
  | _ => []

/-- What an engine request may be due for. -/
def EReq.due (bid : Nat) (r : EReq) : List Deed :=
  if r.fin then []
  else match r.kind with
    | .matrix _ => [execMatrixPerform bid r.rid]
    | .sift _ => [execSiftPerform bid r.rid]
    | k =>
      let secs := (upto 0 k.secs.length).zip k.secs
      (secs.flatMap fun x =>
        if x.2.fin then []
        else if x.2.moves.any fun m => m.val.isNone then [execCopySourceRead bid r.rid x.1 0 x.2.moves.length]
        else [execSectorPerformed bid r.rid (.whole x.1)]) ++ (match k with
          | .fill _ _ => [execReservationFill bid r.rid]
          | _ => [])

/-- A core of a die with room for a block. -/
def State.coreFor (s : State) (l : Launch) (die : Nat) : Option Nat :=
  (upto (Config.coresPerDie * die) Config.coresPerDie).find? fun c => (s.room l c).isSome

/-- Cores for the replicas of a block, the first on one of the given dies (R352). -/
def State.coresFor (s : State) (l : Launch) (dies : List Nat) : Option (List Nat) :=
  (dies.map fun d => (s.rankDies l.mode d).filterMap fun x => s.coreFor l x).find? fun cs => cs.length == l.mode.replicas

/-- Cores for every block of a launch at once (R316). -/
def State.coresForAll (s : State) (l : Launch) : List Nat :=
  ((upto 0 l.blocks).foldl (fun (acc : State × List Nat) n =>
    match acc.1.coresFor l (s.partDies l.ctx.part) with
    | some cs => ((acc.1.startAll l n cs).getD acc.1, acc.2 ++ cs)
    | none => acc) (s, [])).2

/-- Cores for every saved block of a launch at once (R343). -/
def State.coresForSaved (s : State) (l : Launch) (bs : List Block) : List Nat :=
  (bs.foldl (fun (acc : State × List Nat) b =>
    let dies := if l.redundant then [coreDie b.core] else s.partDies l.ctx.part
    match dies.findSome? (acc.1.coreFor l) with
    | some c => ((acc.1.restoreBlock b c).getD acc.1, acc.2 ++ [c])
    | none => acc) (s, [])).2

/-- What a block may be due for. -/
def State.blockDue (s : State) (b : Block) : List Deed :=
  let hs := s.traps.filter (·.bid == b.bid)
  let units := b.groups.flatMap (fun g => g.units.map fun u => (Who.kern b.bid g.gid u.low, u)) ++
    hs.flatMap fun t => t.groups.flatMap fun g => g.units.map fun u => (Who.hand t.tid g.gid u.low, u)
  let queues := (b.groups.filter fun g => !g.stq.isEmpty).map (fun g => Who.kern b.bid g.gid 0) ++
    hs.flatMap fun t => (t.groups.filter fun g => !g.stq.isEmpty).map fun g => Who.hand t.tid g.gid 0
  let stop := b.saving || ((s.launch? b.lid).map fun l =>
    l.killed || !(nth s.xregs l.ctx.part ⟨0, 0, 0, []⟩).pend.isEmpty).getD false
  let cores := match s.launch? b.lid with
    | some l => ((s.partDies l.ctx.part).filterMap fun d => if l.redundant && d != coreDie b.core then none else s.coreFor l d)
    | none => []
  queues.map (fun w => execStoreToCorePoint w) ++ units.flatMap (fun x => x.2.due stop x.1)
    ++ b.eng.flatMap (fun r => r.due b.bid) ++ (foldNodes (b.groups ++ hs.flatMap (·.groups))).map (fun n => execFoldClose b.bid n)
    ++ (b.groups.filter (·.held)).map (fun g => execHeldThreadPlacement b.bid g.gid)
    ++ (if b.full.isSome then [execCapacityCommit b.bid] else [])
    ++ (if b.commit.isSome then [execReplicaCompare b.lid b.num] else [])
    ++ (match b.st with
      | .running =>
        (if b.groups.isEmpty then [execBlockEnd b.bid] else [execConvergenceDeadlock b.bid])
          ++ (if b.faultPage.isSome then [execFetchFaultSwap b.bid, execSwapRestore b.bid b.core] else [])
          ++ (if b.saving then [execBlockSave b.bid] else [])
      | .ended => []
      | _ => cores.map fun c => execSwapRestore b.bid c)

/-- A block of a launch may be due to start: where there is room, or on the core whose run queue holds it (R318). -/
def State.dispatchDue (s : State) (l : Launch) : List Deed :=
  (match s.coresFor l (s.partDies l.ctx.part) with
    | some cs => if !l.again.isEmpty || decide (l.nextBlk < l.blocks) then [execBlockDispatch l.lid cs] else []
    | none => []) ++
    (s.cores.filter fun c => c.runq.any (·.1 == l.lid)).map fun c => execBlockDispatch l.lid [c.num]

/-- What a launch may be due for. -/
def State.launchDue (s : State) (l : Launch) : List Deed :=
  if l.st = .done then []
  else if l.killed then [execQuiesceTokenReturn l.lid]
  else if l.endedBlks.length = l.blocks then [execPostmark l.lid]
  else if l.progress = 2 then
    let saved := sortKey (·.num) (sortKey (·.rank) (s.blocks.filter fun b => b.lid == l.lid && b.st.slot?.isSome))
    (if saved.isEmpty then (if l.nextBlk = 0 then [execConcurrentPlacement l.lid (s.coresForAll l)] else [])
      else [execConcurrentPlacement l.lid (s.coresForSaved l saved)]) ++ (if l.again.isEmpty then [] else s.dispatchDue l)
  else s.dispatchDue l

/-- What a control core may be due for. -/
def State.ccDue (s : State) (k : CCore) : List Deed :=
  let stop := !(nth s.xregs (s.partOf (k.num / 2)) ⟨0, 0, 0, []⟩).pend.isEmpty
  (if k.grp.stq.isEmpty then [] else [execStoreToCorePoint (.cc k.num)])
    ++ (match k.trap with
      | some t => (if t.groups.any fun g => !g.stq.isEmpty then [execStoreToCorePoint (.ccHand k.num)] else []) ++
        t.groups.flatMap fun g => g.units.flatMap fun u => u.due stop (.ccHand k.num)
      | none => k.grp.units.flatMap fun u => u.due stop (.cc k.num))
    ++ (match k.cmd with
      | none => [execProgramCommand k.num, execCrossQueueFence k.num]
      | some m => if m.fence.isSome then [execCrossQueueFenceDone k.num] else [])

/-- What a request over the fabric is due for inside the package: a management block answers with an error, a partition of the
package serves (R375, R379). -/
def State.fabricDue (s : State) (f : FabOp) : List Deed :=
  if !isFabric f.pa then [execErrorCompletion f.fid]
  else if (s.sibling f.pa).isSome then [execFabricCompletion f.fid []] else []

/-- The operations of a partition's register blocks in progress. -/
def State.partDue (s : State) (p : Nat) : List Deed :=
  (match (nth s.lctls p ⟨0, 0, 0, 0, 0, []⟩).pend.head? with
    | some x => (match x.1 % 4 with
      | 1 => [execPreEmpt p]
      | 2 => [execLaunchResume p]
      | 3 => [execKill p]
      | _ => [])
    | none => []) ++ (if (nth s.xregs p ⟨0, 0, 0, []⟩).pend.isEmpty then [] else [execInvalidationComplete p])
    ++ (if (nth s.dbg p ⟨[], [], false, []⟩).fired then (upto 1 13).map fun n => execSnapshotLatch p n 0 else [])

/-- The events that may be due inside the machine. One that is not leaves the state as it is. -/
def State.due (s : State) : List Deed :=
  s.blocks.flatMap s.blockDue ++ s.launches.flatMap s.launchDue ++ s.ccs.flatMap s.ccDue ++ (upto 0 4).flatMap s.partDue
    ++ s.cores.flatMap (fun c => (upto 0 c.point.length).map fun i => execStoreToDiePoint c.num i)
    ++ s.dies.flatMap (fun d => (upto 0 d.point.length).map fun i => execStoreToHome d.num i)
    ++ s.homeq.map (fun h => match h.entry.kind with
      | .addon _ _ => execAddOnStorePerform h.hid
      | _ => execQuietReductionPerform h.hid 0)
    ++ s.atoms.map (fun a => execAtomicPerform a.aid)
    -- a plain load that spins on a cached line comes to see the writes of others (R113)
    ++ s.cores.flatMap (fun c => (upto 0 c.lcache.length).map (fun i => execLoadCacheDrop c.num i false) ++
      (upto 0 c.fcache.length).map fun i => execLoadCacheDrop c.num i true)
    ++ (s.fabric.filter fun f => !f.answered).flatMap s.fabricDue
    ++ ((upto 0 s.pend.length).zip s.pend).map fun x => if x.2.isReport then execReport else execFaultRecordWrite x.1

/-! ### The choice -/

/-- The agents that may issue, in turn after the last. -/
def State.ready (s : State) : List Who :=
  let all := s.agents
  let turned := (all.dropWhile (· != s.turn)).drop 1 ++ all.takeWhile (· != s.turn) ++ [s.turn]
  turned.filter fun w => match s.env? w with
    | some e => s.canIssue e
    | none => false

/-- What moves next, where the agenda does not say: by turns an event that may be due, and the next agent that may issue;
none if there is nothing to do. -/
def State.choose (s : State) : Option Deed :=
  let es := s.due
  let event := es[s.tick / 2 % es.length]?
  let agent : Option Deed := s.ready.head?.map fun w s => s.issue w
  if s.tick % 2 = 0 then agent.or event else event.or agent

/-- What follows a step: halts and steps of the debugger take effect (R363, R364). -/
def settleOutcome (o : Host.Outcome State Fault Refusal) : Host.Outcome State Fault Refusal :=
  match o with
  | .next s => .next s.settleHalts
  | x => x

/-- One step of the machine: the agenda's next pick, or the model's own choice. -/
def State.stepNow (s : State) : Host.Outcome State Fault Refusal :=
  let s : State := { s with tick := s.tick + 1 }
  match s.agenda with
  | p :: r => settleOutcome ({ s with agenda := r }.act p)
  | [] => match s.choose with
    | some f => settleOutcome (f s)
    | none => .next s

/-! ### A word placed where it is the next to issue (log 2, DESIGN CHOICE) -/

/-- Where a word runs: on a control core, in a trap context, or in a block. -/
def placeOf : Except DecodeError Instr → Level
  | .ok (.launch _ _) => .control
  | .ok (.lwait _ _) => .control
  | .ok (.icinv _) => .control
  | .ok .icinvAll => .control
  | .ok .halt => .control
  | .ok (.wrs _ _ .ctxd) => .control
  | .ok (.dbgHalt _ _) => .control
  | .ok (.dbgResume _ _) => .control
  | .ok (.dbgStep _ _) => .control
  | .ok (.dbgSetbp _ _) => .control
  | .ok (.dbgClrbp _ _) => .control
  | .ok (.dbgSetwp _ _) => .control
  | .ok (.dbgClrwp _ _) => .control
  | .ok (.dbgRead _ _) => .control
  | .ok (.dbgPost _ _) => .control
  | .ok .eret => .trap
  | .ok (.xcht _ _) => .trap
  | .ok (.wrs _ _ .tpc) => .trap
  | .ok (.rds _ _ r) => if privileged r then .trap else .kernel
  | _ => .kernel

/-- A context of partition 0 with every other field zero. -/
def Ctx.plain : Ctx := ⟨0, 0, 1, 0, 0, false, 0, 0, 4, 0, 4, 0, 0⟩

/-- A launch of one block of 32 threads with 64 registers, one tile, a scratchpad of 1,024 bytes, private windows of 16
bytes and one unit of operand buffer. -/
def Launch.plain (lid : Nat) : Launch :=
  { lid := lid, cc := 0, sitePc := 0, lseq := 1
    record := BitVec.ofNat 1024 (32 * 2 ^ 64 + 32 * 2 ^ 448 + 64 * 2 ^ 459 + 2 ^ 466 + 1024 * 2 ^ 512 + 16 * 2 ^ 576 + 2 ^ 608)
    ctx := Ctx.plain, ftv := 1, prio := 8, mode := .normal, fpol := 1, fdom := 0, satchel := 0, path := [], ownt := []
    nextBlk := 1, again := [], endedBlks := [], retries := [], sigs := [], status := 0, ovf := false, capc := false
    vote := false, mism := false, st := .running, trace := none, held := [] }

/-- A unit whose next words are given. -/
def ISet.placed (ws : List W32) (left : Nat) (st : Stat) : ISet := { ISet.start 0 with code := ws, left := left, stat := st }

/-- The sheaf of window 0 with its unit: a sheaf runs every word without expanding. -/
def Grp.placed (gid : Nat) (u : ISet) : Grp := (Grp.root gid 0 32 0 0).sheaf gid 0 u

/-- A block of a launch on core 0 with one group. -/
def Block.placed (bid lid : Nat) (g : Grp) : Block :=
  { bid := bid, lid := lid, num := 0, rank := 0, core := 0, st := .running, spadBase := 0, tileBase := 0, obufBase := 0
    groups := [g], spad := [], sums := [], absent := [], priv := [], psums := [], bars := List.replicate 16 ⟨0, []⟩, tbs := []
    parts := List.replicate 4 ⟨[⟨none, false, none, []⟩], List.replicate 8 0, List.replicate 16 none, 0, []⟩
    eng := [], satchel := [], stamp := 0, acquired := [], barStamp := [], tbStamp := [], locStamp := [], pubs := []
    released := [], readStamp := [], full := none, ordinal := 0, commit := none, closed := false, slotImg := [], owed := [], fwdOut := [], fwdTaken := [], copies := [], engOut := []
    pathv := [], lastExit := 0, saving := false, slotNonce := 0, traceUsed := 0, traceFull := false }

/-- A handler's group for the threads of a block's group. -/
def Grp.handler (gid : Nat) (u : ISet) : Grp := { Grp.placed gid u with regs := List.replicate 16 (RegCell.uniform 0) }

/-- The state with a word as the next to issue: on control core 0 in a command program, in a trap context, or in the first
block of a launch. A SEGH, RUNH or terminator stands between runs. -/
def State.placeWord (s : State) (w : W32) : State :=
  let d := decode w
  let left := if isFH w.toNat || isFT w.toNat then 0 else 1
  let u := ISet.placed (w :: List.replicate 1024 0) left .ready
  let n := s.nextId
  let s := { s with bring := { s.bring with ready := 0xFF, hold := false }, nextId := n + 8 }
  match placeOf d with
  | .control =>
    let s := s.onCc 0 fun k => { k with
      ctx := some Ctx.plain, cmd := some ⟨0, 1, none⟩, halted := false, trap := none, grp := { k.grp with units := [u] } }
    { s with agenda := [.issue (.cc 0)] }
  | .trap =>
    let g := Grp.placed n (ISet.placed [] 1 (.inTrap (n + 3)))
    let t : TrapCtx := ⟨n + 3, 0, 0, n + 1, n, 0, 0, 0, 0, 0, 0, 0, [Grp.handler (n + 4) u], []⟩
    { s with
      launches := Launch.plain (n + 2) :: s.launches
      blocks := Block.placed (n + 1) (n + 2) g :: s.blocks
      traps := t :: s.traps
      agenda := [.issue (.hand (n + 3) (n + 4) 0)] }
  | .kernel =>
    { s with
      launches := Launch.plain (n + 2) :: s.launches
      blocks := Block.placed (n + 1) (n + 2) (Grp.placed n u) :: s.blocks
      agenda := [.issue (.kern (n + 1) n 0)] }

end Sys2Proof.Machine
end

