-- ==== Sys2Proof/Machine/Step.lean ====
section
/-! DEFINITION. One step of the machine, and a state in which a given word is the next to issue. -/

namespace Sys2Proof.Machine

/-- One step: what the agenda names, or the model's own choice, takes place (log 1, DESIGN CHOICE). -/
def step (s : State) : Host.Outcome State Fault Refusal := s.stepNow

/-- The state whose next step issues the word with bits w (log 2, DESIGN CHOICE). Every word of the MX9 has 32 bits (R4). -/
def State.withFetchWord (s : State) (_nbits w : Nat) : State := s.placeWord (BitVec.ofNat 32 w)

end Sys2Proof.Machine
end

