-- ==== Sys2Proof/Safety.lean ====
section
/-! DEFINITION. The terms claims are made in: a safe step, a run, what a result gives each thread, and a word that executes,
completes, expands its span, or writes a register or a predicate. -/

namespace Sys2Proof.Machine

/-! ### Runs -/

/-- The machine goes from a state to another in some number of steps. -/
inductive Runs : State → State → Prop
  | refl (s : State) : Runs s s
  | tail {s t u : State} (h : Runs s t) (h' : step t = .next u) : Runs s u

/-- A step from a state neither faults nor refuses. -/
def Safe (s : State) : Prop := ∃ t, step s = .next t

/-! ### Results -/

/-- What a result gives the thread at a position (R19, R20, R32). -/
def Res.at (r : Res) (pos : Nat) : Nat := match r with
  | .form b s => (formVal b s pos).toNat
  | .form64 b s => (formVal64 b s pos).toNat
  | .lanes vs => (nth vs pos 0).toNat
  | .lanes64 vs => (nth vs pos 0).toNat

/-- A result is a pair. -/
def Res.wide : Res → Bool
  | .form64 _ _ => true
  | .lanes64 _ => true
  | _ => false

/-- What a predicate result gives the thread at a position of a group from index lo (R24, R32). -/
def PRes.at (lo : Nat) (r : PRes) (pos : Nat) : Bool := match r with
  | .cut c => c.at (lo + pos)
  | .bits b => bit b.toNat pos

/-! ### A word that executes -/

/-- The acting agent's word executes in e: no shared check stops it (R52, R56, R59, R60, R150, R240), and it does not
divide a pair that must expand (R46). -/
structure Executes (s : State) (sh : Shape) (e : Env) : Prop where
  acts : s.env? s.turn = some e
  clear : s.hazard e sh = none
  whole : e.splitsPair sh = false

/-- The acting group is a sheaf or a control core's thread: no word needs a form there. -/
def Env.laned (e : Env) : Prop := e.grp.span = false ∨ e.solo = true

/-- A word completes: it leaves the state and the acting group that `post` makes of what it reads, and the group stands at
the next word with its results in flight. `pre` says on which states and operands. -/
def Completes (i : Instr) (sh : Env → Shape) (pre : State → Env → Prop) (post : State → Env → State × Env) : Prop :=
  ∀ s e, Executes s (sh e) e → pre (s.prepare e (sh e)).1 (s.prepare e (sh e)).2 →
    exec i s = .next ((post (s.prepare e (sh e)).1 (s.prepare e (sh e)).2).1.finish
      (post (s.prepare e (sh e)).1 (s.prepare e (sh e)).2).2 e.grp (sh e))

/-- A word completes by an effect that moves its group itself: a terminator, an entry to a trap, a wait. -/
def Moves (i : Instr) (sh : Env → Shape) (pre : State → Env → Prop) (post : State → Env → State) : Prop :=
  ∀ s e, s.env? s.turn = some e → s.hazard e (sh e) = none → pre (s.prepare e (sh e)).1 (s.prepare e (sh e)).2 →
    exec i s = .next (post (s.prepare e (sh e)).1 (s.prepare e (sh e)).2)

/-- A word raises a synchronous trap at itself, with no other effect (R338): its cause, its TDATA, its count. -/
def Traps (i : Instr) (sh : Env → Shape) (pre : State → Env → Prop) (cause : Nat) (tdata : Env → W64) : Prop :=
  ∀ s e, s.env? s.turn = some e → s.hazard e (sh e) = none → pre (s.prepare e (sh e)).1 (s.prepare e (sh e)).2 →
    ∃ n, exec i s = .next (s.trapWord e cause (tdata (s.prepare e (sh e)).2) n)

/-- A word that writes register d, with the value `v` gives each acting thread and the closure `c` (R165). In a span the
result is the closure's form, and without one the span expands; elsewhere each acting thread receives its value, and the
result is the closure's form where there is one and the issue set is whole. -/
def FormWord (i : Instr) (sh : Shape) (d : RegN) (wide : Bool) (v : Env → Nat → Int) (c : Env → Option (Int × Int)) : Prop :=
  ∀ s e, Executes s sh e →
    ((s.prepare e sh).2.laned ∨ ((c (s.prepare e sh).2).bind fun f => formRes wide f.1 f.2).isSome →
      ∃ r : Res, r.wide = wide ∧ (∀ p ∈ e.members, r.at p = wrap (widthOf wide) (v (s.prepare e sh).2 p)) ∧
        (e.solo = false → (s.prepare e sh).2.whole → ∀ q,
          ((c (s.prepare e sh).2).bind fun f => formRes wide f.1 f.2) = some q → r = q) ∧
        exec i s = .next ((s.prepare e sh).1.finish ((s.prepare e sh).2.write d.toNat r) e.grp sh)) ∧
    (¬(s.prepare e sh).2.laned → ((c (s.prepare e sh).2).bind fun f => formRes wide f.1 f.2) = none →
      exec i s = .next (s.expandGrp e))

/-- A lane word (R33, R162): each acting thread receives its value; in a span it executes once when all its sources are
uniform (`u`), and else the span expands. -/
def LaneWord (i : Instr) (sh : Shape) (d : RegN) (wide : Bool) (u : Env → Bool) (v : Env → Nat → Int) : Prop :=
  ∀ s e, Executes s sh e →
    ((s.prepare e sh).2.laned ∨ u (s.prepare e sh).2 = true →
      ∃ r : Res, r.wide = wide ∧ (∀ p ∈ e.members, r.at p = wrap (widthOf wide) (v (s.prepare e sh).2 p)) ∧
        exec i s = .next ((s.prepare e sh).1.finish ((s.prepare e sh).2.write d.toNat r) e.grp sh)) ∧
    (¬(s.prepare e sh).2.laned → u (s.prepare e sh).2 = false → exec i s = .next (s.expandGrp e))

/-- A lane register word of latency `lat`: its sources with their widths, the registers its last-use bits release, and the
value of a thread from its FPCTL and its sources' values (R57, R198, R200). -/
def LaneRow (i : Instr) (lat : Nat) (d : RegN) (wide fp : Bool) (srcs : List (Nat × Bool)) (rel : List Nat) (st : BitVec 2)
    (v : Env → BitVec 3 → List Nat → Nat) : Prop :=
  LaneWord i
    { dsts := regsOf wide d.toNat, srcs := srcs.flatMap fun x => regsOf x.2 x.1
      rel := rel, lat := some lat, gap := gapOf st (some lat) } d wide
    (fun e => srcs.all (fun x => e.uniform x.2 x.1) && (!fp || e.sameFp))
    (fun e p => (v e (e.grp.lane p).fpctl (srcs.map fun x => e.val x.2 x.1 p) : Nat))

/-- A word that writes one value `v` for every acting thread where `ok` holds (R170, R227): a uniform form when the issue
set is whole, and on a control core; else one value per lane. -/
def SameWord (i : Instr) (sh : Env → Shape) (d : RegN) (wide : Bool) (ok : Env → Prop) (v : Env → Int) : Prop :=
  ∀ s e, Executes s (sh e) e → ok (s.prepare e (sh e)).2 →
    ∃ r : Res, r.wide = wide ∧
      (∀ p ∈ e.members, r.at p = wrap (widthOf wide) (v (s.prepare e (sh e)).2)) ∧
      (((s.prepare e (sh e)).2.whole || e.solo) = true → r =
        if wide then .form64 (toW64 (v (s.prepare e (sh e)).2)) 0 else .form (toW32 (v (s.prepare e (sh e)).2)) 0) ∧
      exec i s = .next ((s.prepare e (sh e)).1.finish ((s.prepare e (sh e)).2.write d.toNat r) e.grp (sh e))

/-- A word at which a span expands where `no` holds (R22, R162). -/
def Expands (i : Instr) (sh : Env → Shape) (no : Env → Prop) : Prop :=
  ∀ s e, s.env? s.turn = some e → s.hazard e (sh e) = none → no (s.prepare e (sh e)).2 → exec i s = .next (s.expandGrp e)

/-- A word that writes predicate pd: the truth `v` gives each acting thread; in a span the cut `c`, or the span expands
(R25, R26, R173). -/
def PredWord (i : Instr) (sh : Shape) (pd : PredN) (v : Env → Nat → Bool) (c : Env → Option Cut) : Prop :=
  ∀ s e, Executes s sh e →
    ((s.prepare e sh).2.laned ∨ (c (s.prepare e sh).2).isSome →
      ∃ r : PRes, (∀ p ∈ e.members, r.at e.grp.lo p = v (s.prepare e sh).2 p) ∧
        exec i s = .next ((s.prepare e sh).1.finish ((s.prepare e sh).2.pwrite pd.toNat r) e.grp sh)) ∧
    (¬(s.prepare e sh).2.laned → c (s.prepare e sh).2 = none → exec i s = .next (s.expandGrp e))

/-- A source as a form, read by a closure. -/
def Env.unary (e : Env) (wide : Bool) (a : RegN) (k : Nat × Int → Option (Int × Int)) : Option (Int × Int) :=
  (e.form wide a.toNat).bind k

/-- Two sources as forms, read by a closure; the second has its own width. -/
def Env.binary (e : Env) (wide : Bool) (a : RegN) (wb : Bool) (b : RegN)
    (k : Nat × Int → Nat × Int → Option (Int × Int)) : Option (Int × Int) :=
  (e.form wide a.toNat).bind fun x => (e.form wb b.toNat).bind fun y => k x y

/-! ### Accesses -/

/-- The state a word leaves whose access has been performed: the scratchpad bytes it touches are noted for the engines
(R130, R131), it may be sampled (R369), and its group stands at the next word, halted with its reports where a watchpoint
matches (R365). `x` is the word's environment, `x'` holds its group as written. -/
def State.performed (t : State) (x' x : Env) (old : Grp) (sh : Shape) (kind acc n : Nat) (els : List Elem) : State :=
  let hits := t.watched x kind n els
  let u := if kind = 0 then t else t.touch x n true els
  let u := (if kind = 2 then u.touch x n false els else u).sample x acc n els
  if hits.isEmpty then u.finish x' old sh else (u.finish x' x.grp sh).watchHalt x hits

/-- A word whose access passes its checks at the addresses `va` of its acting threads (R225) and touches no absent sector
(R92) performs it, in the way `post` gives. -/
def Accesses (i : Instr) (sh : Shape) (a : Ask) (kind : Nat) (va : Env → Nat → Nat) (pre : State → Env → List Elem → Prop)
    (post : State → Env → List Elem → State × Env) : Prop :=
  ∀ (s t : State) (e : Env) (els : List Elem), Executes s sh e → e.members ≠ [] →
    (s.prepare e sh).1.checks (s.prepare e sh).2 a e.members (va (s.prepare e sh).2) = .ok t els →
    t.parks (s.prepare e sh).2 els a.n = false → pre t (s.prepare e sh).2 els →
    exec i s = .next ((post t (s.prepare e sh).2 els).1.performed (post t (s.prepare e sh).2 els).2 (s.prepare e sh).2 e.grp sh
      kind a.acc a.n els)

/-- A word's access that its checks stop has none of its effect (R225, R331, R338): its trap, or its fault. One that touches
an absent sector waits for it (R92). -/
def Refrains (i : Instr) (sh : Shape) (a : Ask) (va : Env → Nat → Nat) (pre : Env → Prop) : Prop :=
  ∀ (s : State) (e : Env), Executes s sh e → pre (s.prepare e sh).2 →
    let k := (s.prepare e sh).1.checks (s.prepare e sh).2 a e.members (va (s.prepare e sh).2)
    (∀ c d n, k = .bad (.trap c d n) → exec i s = .next (s.trapWord e c d n)) ∧
    (∀ t f l c v ps, k = .bad (.fault t f l c v ps) → exec i s = .next (t.dataFault e f l c v ps)) ∧
    (∀ t els, k = .ok t els → t.parks (s.prepare e sh).2 els a.n = true →
      exec i s = .next (t.onUnit e.who fun u => { u with stat := .parked }))

/-- The source bytes of some elements in the issuing threads' queue: in a sheaf each thread's store is an entry of its own, in
ascending index; a span's is one entry, of one strided access (R23, R114, R115, R218). -/
def Env.enters (x : Env) (t : State) (kind : SqKind) (els : List Elem) (bytes : Nat → List Byte) : Env :=
  let one (y : Elem) : SqElem := ⟨x.idx y.pos, BitVec.ofNat 64 y.va, y.loc, bytes y.pos, y.mig, 0⟩
  let entry (l : List SqElem) : SqEntry := ⟨kind, l, t.tick, x.origin, [], []⟩
  let new : List SqEntry := if x.grp.span then (if els.isEmpty then [] else [entry (els.map one)]) else els.map fun y => entry [one y]
  { x with grp := { x.grp with stq := x.grp.stq ++ new } }

end Sys2Proof.Machine
end

