-- ==== Sys2Proof/Certificates/Slice0/Obligations.lean ====
section
/-! DEFINITION. The statements for the provers: what the rules of spec/ say every word and event does, the encoding, and
the invariants of a step. -/

open Sys2Proof
open Sys2Proof.Machine

/-! ### Form words -/

/-- R168, R169, R170: the FR words. Each acting thread receives the value of the table's row; the result is the
closure's form where the row gives one, and a span without one expands at the word. -/
def Obligations.FormRegisterWords : Prop :=
  ∀ (d a b : RegN) (ka kb wide : Bool),
    let w := widthOf wide
    let one := frShape d.toNat wide a.toNat wide none ka false
    let two := frShape d.toNat wide a.toNat wide (some (b.toNat, wide)) ka kb
    let half := frShape d.toNat wide a.toNat wide (some (b.toNat, false)) ka kb
    let A (e : Env) (p : Nat) : Nat := e.val wide a.toNat p
    let B (e : Env) (p : Nat) : Nat := e.val wide b.toNat p
    let H (e : Env) (p : Nat) : Nat := e.val false b.toNat p
    let uniform (k : Nat → Nat → Nat) (x y : Nat × Int) : Option (Int × Int) :=
      if x.2 = 0 ∧ y.2 = 0 then some ((k x.1 y.1 : Nat), 0) else none
    let bitwise (i : Instr) (k : Nat → Nat → Nat) : Prop :=
      FormWord i two d wide (fun e p => (k (A e p) (B e p) : Nat)) fun e => e.binary wide a wide b (uniform k)
    let pick (i : Instr) (c : Cond) (signed : Bool) : Prop :=
      FormWord i two d wide
        (fun e p => if condHolds c (baseAs signed w (A e p)) (baseAs signed w (B e p)) then (A e p : Int) else B e p)
        fun e => e.binary wide a wide b fun x y =>
          (e.trivial c signed w x y).map fun t => if t then ((x.1 : Int), x.2) else ((y.1 : Int), y.2)
    FormWord (.mov d a ka wide) one d wide (fun e p => A e p) (fun e => e.unary wide a fun x => some (x.1, x.2)) ∧
    FormWord (.iadd d a b ka kb wide) two d wide (fun e p => (A e p : Int) + B e p)
      (fun e => e.binary wide a wide b fun x y => some (x.1 + y.1, x.2 + y.2)) ∧
    FormWord (.isub d a b ka kb wide) two d wide (fun e p => (A e p : Int) - B e p)
      (fun e => e.binary wide a wide b fun x y => some (x.1 - y.1, x.2 - y.2)) ∧
    FormWord (.imul d a b ka kb wide) two d wide (fun e p => (A e p : Int) * B e p)
      (fun e => e.binary wide a wide b fun x y =>
        if y.2 = 0 then some (x.1 * y.1, x.2 * y.1) else if x.2 = 0 then some (y.1 * x.1, y.2 * x.1) else none) ∧
    FormWord (.shl d a b ka kb wide) half d wide (fun e p => (A e p : Int) * 2 ^ (H e p % w))
      (fun e => e.binary wide a false b fun x y =>
        if y.2 = 0 then some (x.1 * 2 ^ (y.1 % w), x.2 * 2 ^ (y.1 % w)) else none) ∧
    FormWord (.shr d a b ka kb wide) half d wide (fun e p => (A e p / 2 ^ (H e p % w) : Nat))
      (fun e => e.binary wide a false b fun x y =>
        if y.2 = 0 ∧ (x.2 = 0 ∨ (x.2 % (2 ^ (y.1 % w) : Nat) = 0 ∧ e.noWrap false w x = true)) then
          some ((x.1 / 2 ^ (y.1 % w) : Nat), x.2 / (2 ^ (y.1 % w) : Nat)) else none) ∧
    FormWord (.sar d a b ka kb wide) half d wide (fun e p => sext w (A e p) / 2 ^ (H e p % w))
      (fun e => e.binary wide a false b fun x y =>
        if y.2 = 0 ∧ (x.2 = 0 ∨ (x.2 % (2 ^ (y.1 % w) : Nat) = 0 ∧ e.noWrap true w x = true)) then
          some (sext w x.1 / (2 ^ (y.1 % w) : Nat), x.2 / (2 ^ (y.1 % w) : Nat)) else none) ∧
    bitwise (.and d a b ka kb wide) (· &&& ·) ∧ bitwise (.or d a b ka kb wide) (· ||| ·) ∧
    bitwise (.xor d a b ka kb wide) (· ^^^ ·) ∧ bitwise (.andn d a b ka kb wide) (fun x y => x - (x &&& y)) ∧
    pick (.imin d a b ka kb wide) .le true ∧ pick (.imax d a b ka kb wide) .ge true ∧
    pick (.nmin d a b ka kb wide) .le false ∧ pick (.nmax d a b ka kb wide) .ge false ∧
    FormWord (.ineg d a ka wide) one d wide (fun e p => -(A e p : Int)) (fun e => e.unary wide a fun x => some (-x.1, -x.2)) ∧
    FormWord (.iabs d a ka wide) one d wide (fun e p => (sext w (A e p)).natAbs)
      (fun e => e.unary wide a fun x => (e.trivial .ge true w x (0, 0)).map fun t =>
        if t then ((x.1 : Int), x.2) else (-(x.1 : Int), -x.2)) ∧
    FormWord (.mkform d a b ka kb wide) half d wide (fun e p => (A e p : Int) + sext 32 (H e p) * e.index p)
      (fun e => e.binary wide a false b fun x y =>
        if x.2 = 0 ∧ y.2 = 0 then some ((x.1 : Int) + sext 32 y.1 * e.grp.lo, sext 32 y.1) else none) ∧
    FormWord (.xbase d a ka wide) one d wide
      (fun e p => match e.form wide a.toNat with
        | some x => (x.1 : Int)
        | none => A e p)
      (fun e => e.unary wide a fun x => some (x.1, 0)) ∧
    FormWord (.expand d a ka wide) one d wide (fun e p => A e p) (fun _ => none)

/-- R169, R170: XSTRIDE writes the stride of the form a reads as, or 0, uniform, and at 64 bits a's tag; it reads no
value. RDFIRST writes to every member the value of the member of the lowest index, and expands a span whose a is no
form. The stride of a released register rests on the model's choice of log 80, and what XSTRIDE waits for on log 90. -/
def Obligations.RepresentationWords : Prop :=
  ∀ (d a : RegN) (ka wide : Bool),
    SameWord (.xstride d a ka wide)
      (fun _ => { dsts := regsOf wide d.toNat, names := [a.toNat], rel := if ka then [a.toNat] else [] }) d wide
      (fun _ => True)
      (fun e =>
        let stride : Nat := match e.view.form32 a.toNat with
          | some f => f.2.toNat
          | none => 0
        let tag : Nat := if e.view.relMask e.unit.lanes a.toNat == e.unit.lanes then 3
          else match (e.view.cell a.toNat).kind with
            | .f32 _ _ => 0
            | .f64 _ _ => 1
            | .f64hi => 1
            | .e _ _ => 2
        if wide then (stride : Int) + 2 ^ 32 * tag else stride) ∧
    SameWord (.rdfirst d a ka wide)
      (fun _ => { dsts := regsOf wide d.toNat, firsts := regsOf wide a.toNat
                  rel := if ka then regsOf wide a.toNat else [] }) d wide
      (fun e => e.grp.span = false ∨ (e.form wide a.toNat).isSome)
      (fun e => e.val wide a.toNat e.first) ∧
    Expands (.rdfirst d a ka wide)
      (fun _ => { dsts := regsOf wide d.toNat, firsts := regsOf wide a.toNat
                  rel := if ka then regsOf wide a.toNat else [] })
      (fun e => e.grp.span = true ∧ e.form wide a.toNat = none) ∧
    ∀ (s : State) (e : Env), s.env? s.turn = some e → e.members ≠ [] →
      e.first ∈ e.members ∧ ∀ p ∈ e.members, e.first ≤ p

/-- R171, R172: the FI words, each as its FR word with the immediate, sign-extended from 12 bits and wrapped to the
width, as a uniform second source; a shift's immediate is its count. MOVI, MOVL and MOVS write their constant, always
uniform; MOVH writes its immediate over the low half of d, uniform where d is. -/
def Obligations.ImmediateWords : Prop :=
  (∀ (d a : RegN) (imm : BitVec 12),
     let k : Nat := wrap 32 (sext 12 imm.toNat)
     let K : Nat := wrap 64 (sext 12 imm.toNat)
     let sh : Shape := { dsts := [d.toNat], srcs := [a.toNat] }
     let A (e : Env) (p : Nat) : Nat := e.val false a.toNat p
     let uniform (f : Nat → Nat) (x : Nat × Int) : Option (Int × Int) := if x.2 = 0 then some ((f x.1 : Nat), 0) else none
     FormWord (.iaddi d a imm) sh d false (fun e p => (A e p : Int) + k) (fun e => e.unary false a fun x => some (x.1 + k, x.2)) ∧
     FormWord (.imuli d a imm) sh d false (fun e p => (A e p : Int) * k)
       (fun e => e.unary false a fun x => some (x.1 * k, x.2 * k)) ∧
     FormWord (.shli d a imm) sh d false (fun e p => (A e p : Int) * 2 ^ (k % 32))
       (fun e => e.unary false a fun x => some (x.1 * 2 ^ (k % 32), x.2 * 2 ^ (k % 32))) ∧
     FormWord (.shri d a imm) sh d false (fun e p => (A e p / 2 ^ (k % 32) : Nat))
       (fun e => e.unary false a fun x =>
         if x.2 = 0 ∨ (x.2 % (2 ^ (k % 32) : Nat) = 0 ∧ e.noWrap false 32 x = true) then
           some ((x.1 / 2 ^ (k % 32) : Nat), x.2 / (2 ^ (k % 32) : Nat)) else none) ∧
     FormWord (.sari d a imm) sh d false (fun e p => sext 32 (A e p) / 2 ^ (k % 32))
       (fun e => e.unary false a fun x =>
         if x.2 = 0 ∨ (x.2 % (2 ^ (k % 32) : Nat) = 0 ∧ e.noWrap true 32 x = true) then
           some (sext 32 x.1 / (2 ^ (k % 32) : Nat), x.2 / (2 ^ (k % 32) : Nat)) else none) ∧
     FormWord (.andi d a imm) sh d false (fun e p => (A e p &&& k : Nat)) (fun e => e.unary false a (uniform (· &&& k))) ∧
     FormWord (.ori d a imm) sh d false (fun e p => (A e p ||| k : Nat)) (fun e => e.unary false a (uniform (· ||| k))) ∧
     FormWord (.xori d a imm) sh d false (fun e p => (A e p ^^^ k : Nat)) (fun e => e.unary false a (uniform (· ^^^ k))) ∧
     FormWord (.iaddiw d a imm) { dsts := [d.toNat, d.toNat + 1], srcs := [a.toNat, a.toNat + 1] } d true
       (fun e p => (e.val true a.toNat p : Int) + K) (fun e => e.unary true a fun x => some (x.1 + K, x.2))) ∧
  (∀ (d : RegN) (imm : BitVec 12) (im : BitVec 16),
     FormWord (.movi d imm) { dsts := [d.toNat] } d false (fun _ _ => sext 12 imm.toNat) (fun _ => some (sext 12 imm.toNat, 0)) ∧
     FormWord (.movl d im) { dsts := [d.toNat] } d false (fun _ _ => im.toNat) (fun _ => some (im.toNat, 0)) ∧
     FormWord (.movs d im) { dsts := [d.toNat] } d false (fun _ _ => sext 16 im.toNat) (fun _ => some (sext 16 im.toNat, 0)) ∧
     FormWord (.movh d im) { dsts := [d.toNat], srcs := [d.toNat] } d false
       (fun e p => (im.toNat * 2 ^ 16 + e.val false d.toNat p % 2 ^ 16 : Nat))
       (fun e => e.unary false d fun x => if x.2 = 0 then some ((im.toNat * 2 ^ 16 + x.1 % 2 ^ 16 : Nat), 0) else none))

/-- R173: the compares. Each acting thread computes its condition exactly on the readings of the table and writes it,
or its AND or OR with ps, to pd; a span takes SpanCompare's cut (R25), combined with ps under R26, or expands. -/
def Obligations.Compares : Prop :=
  ∀ (pd ps : PredN) (a b : RegN) (imm : BitVec 6) (c : Cond),
    let x (wide : Bool) (e : Env) (p : Nat) : Nat := e.val wide a.toNat p
    let y (wide : Bool) (e : Env) (p : Nat) : Nat := e.val wide b.toNat p
    let holds (signed wide : Bool) (e : Env) (p : Nat) : Bool :=
      condHolds c (baseAs signed (widthOf wide) (x wide e p)) (baseAs signed (widthOf wide) (y wide e p))
    let cut (signed wide : Bool) (e : Env) : Option Cut :=
      e.compareCut c signed (widthOf wide) (e.form wide a.toNat) (e.form wide b.toNat)
    let plain (wide : Bool) : Shape := { srcs := regsOf wide a.toNat ++ regsOf wide b.toNat, pdsts := [pd.toNat] }
    let both : Shape := { plain false with psrcs := [ps.toNat] }
    let join (k : Bool → Bool → Bool) (signed : Bool) (e : Env) : Option Cut :=
      (cut signed false e).bind fun z => e.combine [e.view.pcut ps.toNat, z] fun l => k (nth l 0 false) (nth l 1 false)
    let I : Int := sext 6 imm.toNat
    let N : Int := imm.toNat
    PredWord (.icmp pd a b c) (plain false) pd (holds true false) (cut true false) ∧
    PredWord (.icmpa pd ps a b c) both pd (fun e p => e.pval ps.toNat p && holds true false e p) (join and true) ∧
    PredWord (.icmpo pd ps a b c) both pd (fun e p => e.pval ps.toNat p || holds true false e p) (join or true) ∧
    PredWord (.ncmp pd a b c) (plain false) pd (holds false false) (cut false false) ∧
    PredWord (.ncmpa pd ps a b c) both pd (fun e p => e.pval ps.toNat p && holds false false e p) (join and false) ∧
    PredWord (.ncmpo pd ps a b c) both pd (fun e p => e.pval ps.toNat p || holds false false e p) (join or false) ∧
    PredWord (.icmpi pd a imm c) { srcs := [a.toNat], pdsts := [pd.toNat] } pd
      (fun e p => condHolds c (sext 32 (x false e p)) I)
      (fun e => e.compareCut c true 32 (e.form false a.toNat) (some (wrap 32 I, 0))) ∧
    PredWord (.ncmpi pd a imm c) { srcs := [a.toNat], pdsts := [pd.toNat] } pd
      (fun e p => condHolds c (x false e p : Nat) N)
      (fun e => e.compareCut c false 32 (e.form false a.toNat) (some (imm.toNat, 0))) ∧
    PredWord (.icmpw pd a b c) (plain true) pd (holds true true) (cut true true) ∧
    PredWord (.ncmpw pd a b c) (plain true) pd (holds false true) (cut false true)

/-- R174: predicate logic, PSET and PCUT. A span takes the cut the truths form, if they form one, or expands. -/
def Obligations.PredicateLogic : Prop :=
  ∀ (pd pa pb : PredN) (a : RegN) (k : Bool),
    let P (e : Env) (p : Nat) : Bool := e.pval pa.toNat p
    let Q (e : Env) (p : Nat) : Bool := e.pval pb.toNat p
    let both : Shape := { psrcs := [pa.toNat, pb.toNat], pdsts := [pd.toNat] }
    let cut (f : Bool → Bool → Bool) (e : Env) : Option Cut :=
      e.combine [e.view.pcut pa.toNat, e.view.pcut pb.toNat] fun l => f (nth l 0 false) (nth l 1 false)
    PredWord (.pand pd pa pb) both pd (fun e p => P e p && Q e p) (cut and) ∧
    PredWord (.por pd pa pb) both pd (fun e p => P e p || Q e p) (cut or) ∧
    PredWord (.pxor pd pa pb) both pd (fun e p => xor (P e p) (Q e p)) (cut xor) ∧
    PredWord (.pandn pd pa pb) both pd (fun e p => P e p && !Q e p) (cut fun x y => x && !y) ∧
    PredWord (.pnot pd pa) { psrcs := [pa.toNat], pdsts := [pd.toNat] } pd (fun e p => !P e p)
      (fun e => e.combine [e.view.pcut pa.toNat] fun l => !nth l 0 false) ∧
    PredWord (.pset pd k) { psrcs := [], pdsts := [pd.toNat] } pd (fun _ _ => k) (fun e => e.combine [] fun _ => k) ∧
    PredWord (.pcut pd a k) { srcs := [a.toNat, a.toNat + 1], pdsts := [pd.toNat] } pd
      (fun e p => if k then decide (e.val true a.toNat p ≤ e.index p) else decide (e.index p < e.val true a.toNat p))
      (fun e => (e.form true a.toNat).bind fun x =>
        if x.2 = 0 then some (if k then .atOrAbove x.1 else .below x.1) else none)

/-- R175: the selects. q is p, negated under sense: SEL and SELW write a where it is true and b elsewhere, PTOI 1 or
0. -/
def Obligations.Selects : Prop :=
  ∀ (d a b : RegN) (p : PredN) (sense : Bool),
    let q (e : Env) (pos : Nat) : Bool := xor (e.pval p.toNat pos) sense
    let sel (i : Instr) (wide : Bool) : Prop :=
      FormWord i { dsts := regsOf wide d.toNat, srcs := regsOf wide a.toNat ++ regsOf wide b.toNat, psrcs := [p.toNat] } d wide
        (fun e pos => if q e pos then (e.val wide a.toNat pos : Int) else e.val wide b.toNat pos)
        (fun e => e.binary wide a wide b fun x y => match e.choice p.toNat sense with
          | some true => some (x.1, x.2)
          | some false => some (y.1, y.2)
          | none => if x = y then some (x.1, x.2) else none)
    sel (.sel d a b p sense) false ∧ sel (.selw d a b p sense) true ∧
    FormWord (.ptoi d p sense) { dsts := [d.toNat], psrcs := [p.toNat] } d false (fun e pos => if q e pos then 1 else 0)
      (fun e => (e.choice p.toNat sense).map fun t => (if t then 1 else 0, 0))

/-! ### Lane words -/

/-- R203, R204, R205: the integer and bit words: the value of each thread, with the word's latency and the registers
its last-use bits release; and what their bit functions compute, bit by bit and byte by byte. -/
def Obligations.IntegerLaneWords : Prop :=
  (∀ (d a b c : RegN) (ka kb : Bool) (st : BitVec 2),
     let one (i : Instr) (v : Nat → Nat) : Prop :=
       LaneRow i 2 d false false [(a.toNat, false)] (lastUse ka false a) st fun _ _ l => v (nth l 0 0)
     let two (i : Instr) (v : Nat → Nat → Nat) : Prop :=
       LaneRow i 2 d false false [(a.toNat, false), (b.toNat, false)] (lastUse ka false a ++ lastUse kb false b) st
         fun _ _ l => v (nth l 0 0) (nth l 1 0)
     two (.imulhi d a b ka kb st) (fun x y => wrap 64 (sext 32 x * sext 32 y) / 2 ^ 32) ∧
     two (.nmulhi d a b ka kb st) (fun x y => x * y / 2 ^ 32) ∧
     one (.popc d a ka st) (popc 32) ∧ one (.clz d a ka st) (clz 32) ∧ one (.brev d a ka st) brevVal ∧
     two (.bfe d a b ka kb st) bfeVal ∧
     LaneRow (.prmt d a b ka kb st) 2 d false false [(a.toNat, false), (b.toNat, false), (d.toNat, false)]
       (lastUse ka false a ++ lastUse kb false b) st (fun _ _ l => prmtVal (nth l 0 0) (nth l 1 0) (nth l 2 0)) ∧
     LaneRow (.imad d a b c st) 2 d false false [(a.toNat, false), (b.toNat, false), (c.toNat, false)] [] st
       (fun _ _ l => (nth l 0 0 * nth l 1 0 + nth l 2 0) % 2 ^ 32)) ∧
  ∀ a b d : Nat, a < 2 ^ 32 → b < 2 ^ 32 → d < 2 ^ 32 →
    popc 32 a = ((upto 0 32).filter fun j => a.testBit j).length ∧
    clz 32 a ≤ 32 ∧ (∀ j, 32 - clz 32 a ≤ j → a.testBit j = false) ∧ (a ≠ 0 → a.testBit (31 - clz 32 a) = true) ∧
    (∀ j, j < 32 → (brevVal a).testBit j = a.testBit (31 - j)) ∧ brevVal a < 2 ^ 32 ∧
    (let p := bits b 4 0
     let n := min (bits b 13 8) (32 - p)
     ∀ j, j < 32 → (bfeVal a b).testBit j =
       if j < n then a.testBit (p + j) else bit b 16 && decide (n ≠ 0) && a.testBit (p + n - 1)) ∧
    (∀ k j, k < 4 → j < 8 → (prmtVal a b d).testBit (8 * k + j) =
      let ctl (n : Nat) : Bool := b.testBit (8 * k + n)
      let src := bits b (8 * k + 2) (8 * k)
      let pick (n : Nat) : Bool := if src < 4 then a.testBit (8 * src + n) else d.testBit (8 * (src - 4) + n)
      !ctl 7 && xor (ctl 6) (if ctl 5 then pick 7 else pick j))

/-- R206, R208, R209: the FP32 and FP64 words, each the exact result of its flushed operands rounded once under the
thread's FPCTL; FABS and FNEG touch the sign alone. -/
def Obligations.FloatLaneWords : Prop :=
  ∀ (d a b c : RegN) (ka kb : Bool) (st : BitVec 2),
    let one (i : Instr) (fp : Bool) (v : BitVec 3 → Nat → Nat) : Prop :=
      LaneRow i 4 d false fp [(a.toNat, false)] (lastUse ka false a) st fun _ m l => v m (nth l 0 0)
    let two (i : Instr) (lat : Nat) (wide bw : Bool) (v : BitVec 3 → Nat → Nat → Nat) (fp : Bool := true) : Prop :=
      LaneRow i lat d wide fp [(a.toNat, wide), (b.toNat, bw)] (lastUse ka wide a ++ lastUse kb bw b) st
        fun _ m l => v m (nth l 0 0) (nth l 1 0)
    let three (i : Instr) (lat : Nat) (wide : Bool) (v : BitVec 3 → Nat → Nat → Nat → Nat) : Prop :=
      LaneRow i lat d wide true [(a.toNat, wide), (b.toNat, wide), (c.toNat, wide)] [] st
        fun _ m l => v m (nth l 0 0) (nth l 1 0) (nth l 2 0)
    let arith (f : Fmt) (op : RMode → FV → FV → FV) (m : BitVec 3) (x y : Nat) : Nat :=
      f.fout (ftzOf m) (rmOf m) (op (rmOf m) (f.fin (ftzOf m) x) (f.fin (ftzOf m) y))
    let fused (f : Fmt) (m : BitVec 3) (x y z : Nat) : Nat :=
      f.fout (ftzOf m) (rmOf m) (FV.fma (rmOf m) (f.fin (ftzOf m) x) (f.fin (ftzOf m) y) (f.fin (ftzOf m) z))
    two (.fadd d a b ka kb st) 4 false false (arith .f32 FV.add) ∧
    two (.fsub d a b ka kb st) 4 false false (arith .f32 fun m x y => FV.add m x y.negate) ∧
    two (.fmul d a b ka kb st) 4 false false (arith .f32 fun _ x y => FV.mul x y) ∧
    two (.fmin d a b ka kb st) 4 false false (fun m x y => Fmt.f32.minNum (ftzOf m) x y) ∧
    two (.fmax d a b ka kb st) 4 false false (fun m x y => Fmt.f32.maxNum (ftzOf m) x y) ∧
    one (.fabs d a ka st) false (fun _ x => x % 2 ^ 31) ∧
    one (.fneg d a ka st) false (fun _ x => if bit x 31 then x - 2 ^ 31 else x + 2 ^ 31) ∧
    two (.dadd d a b ka kb st) 8 true true (arith .f64 FV.add) ∧
    two (.dsub d a b ka kb st) 8 true true (arith .f64 fun m x y => FV.add m x y.negate) ∧
    two (.dmul d a b ka kb st) 8 true true (arith .f64 fun _ x y => FV.mul x y) ∧
    two (.dmin d a b ka kb st) 8 true true (fun _ x y => Fmt.f64.minNum false x y) false ∧
    two (.dmax d a b ka kb st) 8 true true (fun _ x y => Fmt.f64.maxNum false x y) false ∧
    three (.ffma d a b c st) 4 false (fused .f32) ∧ three (.dfma d a b c st) 8 true (fused .f64) ∧
    two (.fscl d a b ka kb st) 4 false false (sclVal .f32) ∧ two (.dscl d a b ka kb st) 8 true false (sclVal .f64) ∧
    one (.ffrc d a ka st) true ffrcVal

/-- R207: the packed 16-bit words compute each element from the same-numbered elements alone. -/
def Obligations.PackedWords : Prop :=
  ∀ (d a b c : RegN) (ka kb : Bool) (st : BitVec 2),
    let both (v : Nat → Nat → Nat) (x y : Nat) : Nat := v (x % 2 ^ 16) (y % 2 ^ 16) + 2 ^ 16 * v (x / 2 ^ 16) (y / 2 ^ 16)
    let two (i : Instr) (v : BitVec 3 → Nat → Nat → Nat) : Prop :=
      LaneRow i 4 d false true [(a.toNat, false), (b.toNat, false)] (lastUse ka false a ++ lastUse kb false b) st
        fun _ m l => both (v m) (nth l 0 0) (nth l 1 0)
    let arith (f : Fmt) (op : RMode → FV → FV → FV) (m : BitVec 3) (x y : Nat) : Nat :=
      f.fout (ftzOf m) (rmOf m) (op (rmOf m) (f.fin (ftzOf m) x) (f.fin (ftzOf m) y))
    let fused (m : BitVec 3) (x y z : Nat) : Nat :=
      Fmt.f16.fout (ftzOf m) (rmOf m)
        (FV.fma (rmOf m) (Fmt.f16.fin (ftzOf m) x) (Fmt.f16.fin (ftzOf m) y) (Fmt.f16.fin (ftzOf m) z))
    two (.hadd2 d a b ka kb st) (arith .f16 FV.add) ∧ two (.hmul2 d a b ka kb st) (arith .f16 fun _ x y => FV.mul x y) ∧
    two (.hmin2 d a b ka kb st) (fun m x y => Fmt.f16.minNum (ftzOf m) x y) ∧
    two (.hmax2 d a b ka kb st) (fun m x y => Fmt.f16.maxNum (ftzOf m) x y) ∧
    two (.badd2 d a b ka kb st) (arith .bf16 FV.add) ∧ two (.bmul2 d a b ka kb st) (arith .bf16 fun _ x y => FV.mul x y) ∧
    LaneRow (.hfma2 d a b c st) 4 d false true [(a.toNat, false), (b.toNat, false), (c.toNat, false)] [] st
      (fun _ m l => fused m (nth l 0 0 % 2 ^ 16) (nth l 1 0 % 2 ^ 16) (nth l 2 0 % 2 ^ 16) +
        2 ^ 16 * fused m (nth l 0 0 / 2 ^ 16) (nth l 1 0 / 2 ^ 16) (nth l 2 0 / 2 ^ 16))

/-- R70 to R72, R84, R210, R212, R213: the transcendentals and the conversions, each under the function-table version
in force and the thread's FPCTL; a conversion's source and destination have its code's formats. The special inputs
give the same results in every version. A conversion to a float overflows at its format's threshold, to MF6 and MF4 it
takes the nearest code, and to an integer it rounds in its mode and saturates. It rests on the model's choice of log
19. -/
def Obligations.FunctionAndConversionWords : Prop :=
  (∀ (d a : RegN) (ka inf : Bool) (st : BitVec 2) (code : CvtOp),
    let one (i : Instr) (wide fp : Bool) (v : Env → BitVec 3 → Nat → Nat) : Prop :=
      LaneRow i 12 d wide fp [(a.toNat, wide)] (lastUse ka wide a) st fun e m l => v e m (nth l 0 0)
    one (.fexp2 d a ka st) false true (fun e m x => fexp2 e.ftv (ftzOf m) x) ∧
    one (.flog2 d a ka st) false true (fun e m x => flog2 e.ftv (ftzOf m) x) ∧
    one (.frcp d a ka st) false true (fun e m x => rcpOf .f32 e.ftv (ftzOf m) x) ∧
    one (.frsq d a ka st) false true (fun e m x => rsqOf .f32 e.ftv (ftzOf m) x) ∧
    one (.fsqrt d a ka st) false true (fun _ m x => fsqrt (rmOf m) (ftzOf m) x) ∧
    one (.fsinp d a ka st) false true (fun e m x => fsinp e.ftv (ftzOf m) x) ∧
    one (.fcosp d a ka st) false true (fun e m x => fcosp e.ftv (ftzOf m) x) ∧
    one (.ftanh d a ka st) false true (fun e m x => ftanh e.ftv (ftzOf m) x) ∧
    one (.drcp d a ka st) true false (fun e _ x => rcpOf .f64 e.ftv false x) ∧
    one (.drsq d a ka st) true false (fun e _ x => rsqOf .f64 e.ftv false x) ∧
    LaneRow (.cvt d a code ka inf st) 4 d (cvtShape code).2.wide (cvtReadsFp code) [(a.toNat, (cvtShape code).1.wide)]
      (lastUse ka (cvtShape code).1.wide a) st (fun _ m l =>
        let v := (cvtShape code).1.value (ftzOf m) (nth l 0 0)
        match (cvtShape code).2 with
        | .fp f => f.convert (ftzOf m) (rmOf m) inf v
        | .int ty rm => wrap 64 (v.toInt rm ty)
        | .narrow w => wrap w (sat (sext 32 (nth l 0 0)) (-(2 ^ (w - 1))) (2 ^ (w - 1) - 1)))) ∧
  -- the special inputs of R84
  (∀ (ftv x : Nat) (ftz : Bool) (rm : RMode),
    let v := Fmt.f32.fin ftz x
    let w := Fmt.f64.value x
    let nan := 0x7FC00000
    let nan64 := 0x7FF8000000000000
    (v = .nan → fexp2 ftv ftz x = nan ∧ flog2 ftv ftz x = nan ∧ rcpOf .f32 ftv ftz x = nan ∧ rsqOf .f32 ftv ftz x = nan ∧
      fsqrt rm ftz x = nan ∧ fsinp ftv ftz x = nan ∧ fcosp ftv ftz x = nan ∧ ftanh ftv ftz x = nan) ∧
    (w = .nan → rcpOf .f64 ftv false x = nan64 ∧ rsqOf .f64 ftv false x = nan64) ∧
    (v = .inf false → fexp2 ftv ftz x = 0x7F800000 ∧ flog2 ftv ftz x = 0x7F800000 ∧ rcpOf .f32 ftv ftz x = 0 ∧
      rsqOf .f32 ftv ftz x = 0 ∧ fsqrt rm ftz x = 0x7F800000 ∧ fsinp ftv ftz x = nan ∧ fcosp ftv ftz x = nan ∧
      ftanh ftv ftz x = 0x3F800000) ∧
    (w = .inf false → rcpOf .f64 ftv false x = 0 ∧ rsqOf .f64 ftv false x = 0) ∧
    (v = .inf true → fexp2 ftv ftz x = 0 ∧ flog2 ftv ftz x = nan ∧ rcpOf .f32 ftv ftz x = 0x80000000 ∧
      rsqOf .f32 ftv ftz x = nan ∧ fsqrt rm ftz x = nan ∧ fsinp ftv ftz x = nan ∧ fcosp ftv ftz x = nan ∧
      ftanh ftv ftz x = 0xBF800000) ∧
    (w = .inf true → rcpOf .f64 ftv false x = 0x8000000000000000 ∧ rsqOf .f64 ftv false x = nan64) ∧
    (∀ s e, v = .fin s 0 e → fexp2 ftv ftz x = 0x3F800000 ∧ flog2 ftv ftz x = 0xFF800000 ∧
      rcpOf .f32 ftv ftz x = (if s then 0xFF800000 else 0x7F800000) ∧
      rsqOf .f32 ftv ftz x = (if s then 0xFF800000 else 0x7F800000) ∧ fsqrt rm ftz x = (if s then 0x80000000 else 0) ∧
      ftanh ftv ftz x = (if s then 0x80000000 else 0)) ∧
    (∀ s e, w = .fin s 0 e → rcpOf .f64 ftv false x = (if s then 0xFFF0000000000000 else 0x7FF0000000000000) ∧
      rsqOf .f64 ftv false x = (if s then 0xFFF0000000000000 else 0x7FF0000000000000)) ∧
    (∀ m e, m ≠ 0 → v = .fin true m e → flog2 ftv ftz x = nan ∧ rsqOf .f32 ftv ftz x = nan ∧ fsqrt rm ftz x = nan) ∧
    (∀ m e, m ≠ 0 → w = .fin true m e → rsqOf .f64 ftv false x = nan64) ∧
    flog2 ftv ftz 0x3F800000 = 0 ∧
    (∀ s m (e : Int) (n : Nat), v = .fin s m e → m * 2 ^ e.toNat = n * 2 ^ (-e).toNat →
      fsinp ftv ftz x = (if s then 0x80000000 else 0) ∧
      fcosp ftv ftz x = (if n % 2 = 0 then 0x3F800000 else 0xBF800000)) ∧
    (∀ s m (e : Int) (n : Nat), v = .fin s m e → 2 * m * 2 ^ e.toNat = (2 * n + 1) * 2 ^ (-e).toNat → fcosp ftv ftz x = 0)) ∧
  -- conversion to a float format (R70, R71)
  (∀ (ftz inf : Bool) (rm : RMode),
    let codes (f : Fmt) (nan big top : Nat) : Prop := f.convert ftz rm inf .nan = nan ∧
      ∀ s, f.convert ftz rm inf (.inf s) = (if inf then big else top) + (if s then 2 ^ (f.width - 1) else 0)
    let limit (f : Fmt) (mode : RMode) (big top : Nat) (past : Nat → Nat → Prop) : Prop := ∀ s m (e : Int), m ≠ 0 →
      (past (m * 2 ^ e.toNat) (2 ^ (-e).toNat) →
        f.convert ftz mode inf (.fin s m e) = (if inf then big else top) + (if s then 2 ^ (f.width - 1) else 0)) ∧
      (¬past (m * 2 ^ e.toNat) (2 ^ (-e).toNat) →
        f.convert ftz mode inf (.fin s m e) = f.fout ftz (if f.ignoresRm then .rn else mode) (.fin s m e))
    let nearest (f : Fmt) (b w : Nat) (units : Nat → Int) : Prop := ∀ s m (e : Int), f.overflows .rn s m e = false →
      let r := f.convert ftz rm inf (.fin s m e)
      let x : Int := (if s then -1 else 1) * (m * 2 ^ (e + b).toNat : Nat)
      let off (c : Nat) : Nat := (x - units c * 2 ^ (-(e + b)).toNat).natAbs
      r < w ∧ ∀ c, c < w → off r ≤ off c ∧ (off r = off c → c ≠ r → r % 2 = 0 ∧ (c % 2 = 0 → r = 0))
    codes .f64 0x7FF8000000000000 0x7FF0000000000000 0x7FEFFFFFFFFFFFFF ∧ codes .f32 0x7FC00000 0x7F800000 0x7F7FFFFF ∧
    codes .f16 0x7E00 0x7C00 0x7BFF ∧ codes .bf16 0x7FC0 0x7F80 0x7F7F ∧ codes .e4m3 0x7F 0x7F 0x7E ∧
    codes .e5m2 0x7E 0x7C 0x7B ∧ (inf = false → codes .mf6 0 0 0x1F ∧ codes .mf4 0 0 7) ∧
    limit .f16 .rn 0x7C00 0x7BFF (fun n d => 65520 * d ≤ n) ∧ limit .bf16 .rn 0x7F80 0x7F7F (fun n d => 511 * 2 ^ 119 * d ≤ n) ∧
    limit .e4m3 rm 0x7F 0x7E (fun n d => 464 * d < n) ∧ limit .e5m2 rm 0x7C 0x7B (fun n d => 61440 * d ≤ n) ∧
    (inf = false → limit .mf6 rm 0 0x1F (fun n d => 30 * d ≤ n) ∧ limit .mf4 rm 0 7 (fun n d => 7 * d ≤ n)) ∧
    nearest .mf6 5 64 (fun c => if c = 0 then 0 else (if 32 ≤ c then -1 else 1) * ((4 + c % 4) * 2 ^ (c / 4 % 8) : Nat)) ∧
    nearest .mf4 2 16 (fun c => if c = 0 then 0 else (if 8 ≤ c then -1 else 1) * ((2 + c % 2) * 2 ^ (c / 2 % 4) : Nat))) ∧
  -- conversion to an integer (R72)
  ∀ (rm : RMode) (ty : IntTy) (s : Bool) (m : Nat) (e : Int),
    let lo : Int := match ty with
      | .i32 => -2 ^ 31
      | .i64 => -2 ^ 63
      | _ => 0
    let hi : Int := match ty with
      | .i32 => 2 ^ 31 - 1
      | .n32 => 2 ^ 32 - 1
      | .i64 => 2 ^ 63 - 1
      | .n64 => 2 ^ 64 - 1
    let n : Int := (if s then -1 else 1) * (m * 2 ^ e.toNat : Nat)
    let d : Int := (2 ^ (-e).toNat : Nat)
    FV.toInt rm ty .nan = 0 ∧ FV.toInt rm ty (.inf s) = (if s then lo else hi) ∧
    ∃ q : Int, FV.toInt rm ty (.fin s m e) = max lo (min q hi) ∧
      match rm with
      | .rz => q = n.tdiv d
      | .rd => q * d ≤ n ∧ n < (q + 1) * d
      | .ru => (q - 1) * d < n ∧ n ≤ q * d
      | .rn => 2 * (n - q * d).natAbs ≤ d.natAbs ∧ (2 * (n - q * d).natAbs = d.natAbs → q % 2 = 0)

/-! ### Cross-lane words -/

/-- R65, R66, R228, R229, R230: the reductions write TreeCombine of the members' values, the same to every member; the
scans write each member the combination of the members up to its lane, or below it; the first member of an exclusive
scan receives 0; a value that no other combines with is flushed, and a NaN canonical. A span expands. -/
def Obligations.ReductionsAndScans : Prop :=
  (∀ (d a : RegN) (mi : RediMode) (mn : RednMode) (mf : RedfMode) (st : BitVec 2),
     let red (i : Instr) (dw aw : Bool) (prep : BitVec 3 → Nat → Nat) (op : BitVec 3 → Nat → Nat → Nat) : Prop :=
       SameWord i (fun _ => crossShape (regsOf dw d.toNat) (regsOf aw a.toNat) 6 st) d dw Env.laned
         (fun e =>
           let m := (e.grp.lane e.first).fpctl
           ((tree (op m) (e.laneVals fun p => prep m (e.val aw a.toNat p))).getD 0 : Nat)) ∧
       Expands i (fun _ => crossShape (regsOf dw d.toNat) (regsOf aw a.toNat) 6 st) (fun e => ¬e.laned)
     let float (f : Fmt) (m : BitVec 3) (x y : Nat) : Nat := match mf with
       | .add => f.fout (ftzOf m) (rmOf m) (FV.add (rmOf m) (f.fin (ftzOf m) x) (f.fin (ftzOf m) y))
       | .min => f.minNum (ftzOf m) x y
       | .max => f.maxNum (ftzOf m) x y
     red (.redi d a mi st) false false (fun _ x => x) (fun _ x y => match mi with
       | .add => (x + y) % 2 ^ 32
       | .min => if sext 32 x ≤ sext 32 y then x else y
       | .max => if sext 32 x ≤ sext 32 y then y else x
       | .and => x &&& y) ∧
     red (.redn d a mn st) (mn == .wadd) false (fun _ x => x) (fun _ x y => match mn with
       | .wadd => x + y
       | .min => min x y
       | .max => max x y
       | .or => x ||| y) ∧
     let lone (f : Fmt) (ftz : Bool) (x : Nat) : Nat := if (f.value x).isNan then f.nanCode else f.flushed ftz x
     red (.redf d a mf st) false false (fun m x => lone .f32 (ftzOf m) x) (float .f32) ∧
     red (.redd d a mf st) true true (fun _ x => lone .f64 false x) (float .f64)) ∧
  (∀ (d a : RegN) (mi : ScaniMode) (mf : ScanfMode) (st : BitVec 2),
     let scan (i : Instr) (excl : Bool) (prep : BitVec 3 → Nat → Nat) (op : BitVec 3 → Nat → Nat → Nat) : Prop :=
       LaneWord i (crossShape [d.toNat] [a.toNat] 6 st) d false (fun _ => false) fun e p =>
         let m := (e.grp.lane e.first).fpctl
         let upTo (q : Nat) : Bool := e.members.contains q && (decide (q < p) || (q == p && !excl))
         ((tree (op m) ((upto 0 32).map fun q =>
           if upTo q then some (prep m (e.val false a.toNat q)) else none)).getD 0 : Nat)
     scan (.scani d a mi st) (mi == .excl) (fun _ x => x) (fun _ x y => match mi with
       | .incl => (x + y) % 2 ^ 32
       | .excl => (x + y) % 2 ^ 32
       | .max => if sext 32 x ≤ sext 32 y then y else x
       | .nmax => max x y) ∧
     scan (.scanf d a mf st) (mf == .excl) (fun m x => if (Fmt.f32.value x).isNan then Fmt.f32.nanCode else Fmt.f32.flushed (ftzOf m) x) (fun m x y => match mf with
       | .incl => Fmt.f32.fout (ftzOf m) (rmOf m) (FV.add (rmOf m) (Fmt.f32.fin (ftzOf m) x) (Fmt.f32.fin (ftzOf m) y))
       | .excl => Fmt.f32.fout (ftzOf m) (rmOf m) (FV.add (rmOf m) (Fmt.f32.fin (ftzOf m) x) (Fmt.f32.fin (ftzOf m) y))
       | .max => Fmt.f32.maxNum (ftzOf m) x y
       | .min => Fmt.f32.minNum (ftzOf m) x y))

/-- R228: the tree of an associative operation combines the values that are present in ascending lane order, and is
absent exactly where none is. -/
def Obligations.TreeCombines : Prop :=
  ∀ (op : Nat → Nat → Nat) (v : List (Option Nat)), (∀ x y z, op (op x y) z = op x (op y z)) → v.length = 32 →
    tree op v = match v.filterMap id with
      | [] => none
      | x :: r => some (r.foldl op x)

/-- R231, R232: BCAST gives every member the value at one source lane, or 0 where that lane is no member; VOTE writes
the members' AND, OR or equality, or their ballot. A span expands. -/
def Obligations.BroadcastsAndVotes : Prop :=
  ∀ (d a : RegN) (src : BcastSrc) (pd ps : PredN) (st : BitVec 2),
    let shB : Shape := { crossShape [d.toNat] [a.toNat] 6 st with firsts := match src with
      | .reg b => [b.toNat]
      | _ => [] }
    let shV (ds ps' : List Nat) : Shape := { crossShape ds [] 6 st with pdsts := ps', psrcs := [ps.toNat] }
    let out : List Nat := if pd.toNat < 7 then [pd.toNat] else []
    let V (e : Env) (p : Nat) : Bool := e.pval ps.toNat p
    let vote (op : VoteOp) (t : Env → Bool) : Prop := PredWord (.vote op ps st) (shV [] out) pd (fun e _ => t e) fun _ => none
    SameWord (.bcast d a src st) (fun _ => shB) d false Env.laned (fun e =>
      let l := match src with
        | .lane n => n.toNat
        | .reg b => e.val false b.toNat e.first % 32
        | .last => e.members.foldl max 0
      if l ∈ e.members then (e.val false a.toNat l : Int) else 0) ∧
    Expands (.bcast d a src st) (fun _ => shB) (fun e => ¬e.laned) ∧
    vote (.all pd) (fun e => e.members.all (V e)) ∧ vote (.any pd) (fun e => e.members.any (V e)) ∧
    vote (.eq pd) (fun e => e.members.all (V e) || e.members.all fun p => !V e p) ∧
    SameWord (.vote (.ballot d) ps st) (fun _ => shV [d.toNat] []) d false Env.laned
      (fun e => (maskOf (e.members.filter (V e))).toNat) ∧
    Expands (.vote (.ballot d) ps st) (fun _ => shV [d.toNat] []) (fun e => ¬e.laned)

/-- R233, R234: ISECT and ISECTB write the quad from d, and ISECTB its non-empty flags to pk. -/
def Obligations.Intersections : Prop :=
  ∀ (d a b : RegN) (pk : BitVec 2) (st : BitVec 2),
    let sh : Shape := crossShape (upto d.toNat 4) [a.toNat, b.toNat] 8 st
    let shB : Shape := { sh with pdsts := [pk.toNat] }
    let A (e : Env) (p : Nat) : Nat := e.val false a.toNat p
    let B (e : Env) (p : Nat) : Nat := e.val false b.toNat p
    let meet (e : Env) (f : Nat → Nat) (x : Nat) : Nat :=
      if x = 2 ^ 32 - 1 then 2 ^ 32 - 1 else (e.members.find? fun p => f p == x).getD (2 ^ 32 - 1)
    let top (e : Env) (f : Nat → Nat) : Nat := (e.members.map f).foldl max 0
    let count (e : Env) (f : Nat → Nat) : Nat :=
      (e.members.filter fun p => decide (f p ≤ min (top e (A e)) (top e (B e)))).length
    let ones (e : Env) (f : Nat → Nat) (p : Nat) : Nat :=
      ((e.members.filter fun q => decide (q < p)).map fun q => popc 32 (f q)).sum
    let all (e : Env) (f : Nat → Nat) : Nat := (e.members.map fun q => popc 32 (f q)).sum
    (∀ s e, Executes s sh e → (s.prepare e sh).2.laned →
      let x := (s.prepare e sh).2
      ∃ r0 r1 r2 : Res, r0.wide = false ∧ r1.wide = false ∧ r2.wide = true ∧
        (∀ p ∈ e.members, r0.at p = wrap 32 (meet x (B x) (A x p)) ∧ r1.at p = wrap 32 (meet x (A x) (B x p)) ∧
          r2.at p = wrap 64 (count x (A x) + 2 ^ 32 * count x (B x) : Nat)) ∧
        exec (.isect d a b st) s = .next ((s.prepare e sh).1.finish
          (((x.write d.toNat r0).write (d.toNat + 1) r1).write (d.toNat + 2) r2) e.grp sh)) ∧
    (∀ s e, Executes s shB e → (s.prepare e shB).2.laned →
      let x := (s.prepare e shB).2
      ∃ (r0 r1 r2 r3 : Res) (q : PRes), (∀ p ∈ e.members, r0.at p = wrap 32 (A x p &&& B x p : Nat) ∧
          r1.at p = wrap 32 (ones x (A x) p) ∧ r2.at p = wrap 32 (ones x (B x) p) ∧
          r3.at p = wrap 32 (all x (A x) + 2 ^ 16 * all x (B x) : Nat) ∧
          q.at e.grp.lo p = decide (A x p &&& B x p ≠ 0)) ∧
        exec (.isectb d a b pk st) s = .next ((s.prepare e shB).1.finish
          (((((x.write d.toNat r0).write (d.toNat + 1) r1).write (d.toNat + 2) r2).write (d.toNat + 3) r3).pwrite pk.toNat q)
          e.grp shB)) ∧
    Expands (.isect d a b st) (fun _ => sh) (fun e => ¬e.laned) ∧ Expands (.isectb d a b pk st) (fun _ => shB) (fun e => ¬e.laned)

/-- R235, R236: the float compares write each member the truth of their condition, HCMP2 one predicate per element;
FCLASS writes the one bit of its operand's class. In a span they are uniform-only: where an operand is not uniform, it
expands. -/
def Obligations.FloatComparesAndClasses : Prop :=
  ∀ (d a b : RegN) (pd : PredN) (m : FCond) (k : FclassFmt) (st : BitVec 2),
    let out (p : Nat) : List Nat := if p < 7 then [p] else []
    let test (f : Fmt) (e : Env) (el : Nat → Nat) (wide : Bool) (p : Nat) : Bool :=
      let z := ftzOf (e.grp.lane p).fpctl
      let x := f.fin z (el (e.val wide a.toNat p))
      let y := f.fin z (el (e.val wide b.toNat p))
      let nan := x.isNan || y.isNan
      match m with
      | .eq => !nan && FV.cmp x y == 0
      | .lt => !nan && decide (FV.cmp x y < 0)
      | .le => !nan && decide (FV.cmp x y ≤ 0)
      | .un => nan
    let uniform (e : Env) (wide : Bool) : Bool := e.uniform wide a.toNat && e.uniform wide b.toNat
    let shape (wide : Bool) (lat : Nat) (ps : List Nat) : Shape :=
      { crossShape [] (regsOf wide a.toNat ++ regsOf wide b.toNat) lat st with pdsts := ps }
    let one (i : Instr) (f : Fmt) (wide : Bool) (lat : Nat) : Prop :=
      PredWord i (shape wide lat (out pd.toNat)) pd (fun e p => test f e id wide p)
        fun e => if uniform e wide then some (Cut.ofBool (test f e id wide 0)) else none
    let sh2 : Shape := shape false 4 (out pd.toNat ++ out (pd.toNat + 1))
    one (.fcmp pd a b m st) .f32 false 4 ∧ one (.dcmp pd a b m st) .f64 true 8 ∧
    (∀ s e, Executes s sh2 e →
      let x := (s.prepare e sh2).2
      x.laned ∨ uniform x false →
      ∃ r0 r1 : PRes, (∀ p ∈ e.members, r0.at e.grp.lo p = test .f16 x (· % 2 ^ 16) false p ∧
          r1.at e.grp.lo p = test .f16 x (· / 2 ^ 16) false p) ∧
        exec (.hcmp2 pd a b m st) s = .next ((s.prepare e sh2).1.finish
          ((x.pwrite pd.toNat r0).pwrite (pd.toNat + 1) r1) e.grp sh2)) ∧
    Expands (.hcmp2 pd a b m st) (fun _ => sh2) (fun x => ¬x.laned ∧ uniform x false = false) ∧
    LaneRow (.fclass d a k st) (if k == .f64 then 8 else 4) d false false [(a.toNat, k == .f64)] [] st
      (fun _ _ l =>
        let f := fclassFmt k
        let x := nth l 0 0 % 2 ^ f.width
        let n := f.neg x
        2 ^ (if f.ef x = 2 ^ f.eb - 1 then
            if f.ff x = 0 then (if n then 0 else 7) else if 2 ^ (f.fb - 1) ≤ f.ff x then 8 else 9
          else if f.ef x = 0 then if f.ff x = 0 then (if n then 3 else 4) else (if n then 2 else 5)
          else if n then 1 else 6))

/-! ### Headers and terminators -/

/-- R17, R37, R38, R151, R365: a SEGH that no comparator stops, whose role the threads have and at which no fold waits
is entered: registers above LIVE_G and predicates outside LIVE_P are released, and the threads stand at the next word.
One of a role the threads do not have traps with cause 1; a fold with an open node waits there. Where a comparator matches,
and no fold is to be waited for, the group halts before the segment's first word, once what it has issued has landed, and
posts a report of kind 1 that stands at the SEGH, but for a group that steps, whose step makes the report. -/
def Obligations.SegmentHeaders : Prop :=
  (∀ (len : BitVec 10) (fold : Bool) (lg : BitVec 6) (lp : BitVec 7) (role : Role) (s : State) (e : Env),
     s.env? s.turn = some e → (s.cmpMatch e e.unit.pc = false ∨ e.unit.bpTaken = true) →
     (role.code = 0 ∨ e.role = 0 ∨ e.role = role.code) → (fold = false ∨ e.unit.path = [] ∨ e.unit.bpTaken = true) →
     exec (.segh len fold lg lp role) s =
       .next (s.putGrps e.who [(e.grp.enterSeg lg.toNat lp.toNat e.unit).setUnit e.unit.pastSegh]) ∧
     e.unit.pastSegh.pc = e.unit.pc + 4 ∧ e.unit.pastSegh.seg = e.unit.pc ∧
     (e.unit.lanes ≠ 0 → ∀ r, lg.toNat < r → r < e.grp.regs.length →
       (e.grp.enterSeg lg.toNat lp.toNat e.unit).relMask e.unit.lanes r = if e.grp.span then 1 else e.unit.lanes) ∧
     (e.unit.lanes ≠ 0 → ∀ p, p < 7 → p < e.grp.preds.length → bit lp.toNat p = false →
       (e.grp.enterSeg lg.toNat lp.toNat e.unit).prelMask e.unit.lanes p = if e.grp.span then 1 else e.unit.lanes)) ∧
  (∀ (len : BitVec 10) (fold : Bool) (lg : BitVec 6) (lp : BitVec 7) (role : Role) (s : State) (e : Env),
     s.env? s.turn = some e →
     (role.code ≠ 0 → e.role ≠ 0 → e.role ≠ role.code → (s.cmpMatch e e.unit.pc = false ∨ e.unit.bpTaken = true) →
       exec (.segh len fold lg lp role) s = .next (s.trapWord e 1 (BitVec.ofNat 64 e.unit.word) e.count)) ∧
     ((role.code = 0 ∨ e.role = 0 ∨ e.role = role.code) → e.unit.path ≠ [] → e.unit.bpTaken = false → exec (.segh len true lg lp role) s =
       .next (s.onUnit e.who fun u => { u with stat := .fold }))) ∧
  (∀ (len : BitVec 10) (fold : Bool) (lg : BitVec 6) (lp : BitVec 7) (role : Role) (s : State) (e : Env) (c : Ctx),
     s.env? s.turn = some e → e.ctx = some c → s.cmpMatch e e.unit.pc = true → e.unit.bpTaken = false → (fold = false ∨ e.unit.path = []) →
     let halted := (((s.onGrp e.who fun g => g.landed e.unit).onUnit e.who fun u =>
       { u with stat := .halted, bpTaken := true }).trigger c 0)
     (s.landing e = true → exec (.segh len fold lg lp role) s = .next s) ∧
     (s.landing e = false → e.unit.stepping = true → exec (.segh len fold lg lp role) s = .next halted) ∧
     (s.landing e = false → e.unit.stepping = false → ∀ l, e.launch = some l → exec (.segh len fold lg lp role) s = .next
       (halted.report l.ctx (reportImage l e.num e.unit.pc.toNat 0 (e.named e.members) 1 0 0) (some e.who))))

/-- R152, R155: a run without a guard begins. With one, each thread whose guard, after sense, is true begins the run
and the others stand behind it; a sheaf's issue set divides, a span goes one way on a trivial cut and splits at its
threshold on another (R27). A guard that a check stops traps at the run's first word, with the run begun, so that the guard is
not read again. -/
def Obligations.RunEntry : Prop :=
  ∀ (count : BitVec 5) (p : PredN) (sense : Bool) (pf : BitVec 8) (s : State) (e : Env), s.env? s.turn = some e →
    let i : Instr := .runh count p sense pf
    let sh : Shape := { psrcs := [p.toNat], gap := 0, lat := none }
    let t := (s.prepare e sh).1
    let x := (s.prepare e sh).2
    let run := x.unit.beginRun count.toNat
    let skip := x.unit.skipRun count.toNat
    let yes := maskOf (x.members.filter fun q => xor (x.pval p.toNat q) sense)
    (p.toNat = 7 → exec i s = .next (s.putGrps e.who [e.grp.setUnit (e.unit.beginRun count.toNat)])) ∧
    (p.toNat ≠ 7 → s.hazard e sh = none →
      (x.grp.span = false → yes = x.unit.lanes → yes ≠ 0 → exec i s = .next (t.putGrps x.who [x.grp.setUnit run])) ∧
      (x.grp.span = false → yes = 0 → exec i s = .next (t.putGrps x.who [x.grp.setUnit skip])) ∧
      (x.grp.span = false → yes ≠ x.unit.lanes → yes ≠ 0 →
        exec i s = .next (t.divide x [{ run with lanes := yes }, { skip with lanes := x.unit.lanes &&& ~~~yes }])) ∧
      (x.grp.span = true → x.view.pcut p.toNat = .allTrue →
        exec i s = .next (t.putGrps x.who [x.grp.setUnit (if sense then skip else run)])) ∧
      (x.grp.span = true → x.view.pcut p.toNat = .allFalse →
        exec i s = .next (t.putGrps x.who [x.grp.setUnit (if sense then run else skip)])) ∧
      (∀ k, x.grp.span = true → x.view.pcut p.toNat = .below k →
        exec i s = .next (t.splitSpan x k (if sense then skip else run) (if sense then run else skip))) ∧
      (∀ k, x.grp.span = true → x.view.pcut p.toNat = .atOrAbove k →
        exec i s = .next (t.splitSpan x k (if sense then run else skip) (if sense then skip else run)))) ∧
    (p.toNat ≠ 7 → ∀ c d k, s.hazard e sh = some (.trap c d k) →
      let u := e.unit.beginRun count.toNat
      let begun : Env := { e with grp := e.grp.setUnit u, unit := u }
      exec i s = .next ((s.putGrps e.who [begun.grp]).trapWord begun c (BitVec.ofNat 64 u.word) k)) ∧
    (e.unit.beginRun count.toNat).pc = e.unit.pc + 4 ∧ (e.unit.beginRun count.toNat).left = count.toNat ∧
    (e.unit.skipRun count.toNat).pc = e.unit.pc + BitVec.ofNat 64 (4 + 4 * count.toNat)

/-- R176, R177, R179, R180, R183: NEXT, YIELD, BR, BRX and SWITCH send each acting thread to its successor's first
word; a span goes as one where its successor is one, splits at a cut (R27), and expands at a per-thread address. Where
the threads of a sheaf take different successors, each is in exactly one of the issue sets they form, and that set
stands at its own. -/
def Obligations.Jumps : Prop :=
  (∀ (off : BitVec 24) (off20 : BitVec 20) (p : PredN) (sense : Bool) (a : RegN) (n : BitVec 10),
     let br : Instr := .br p sense off20
     let pred : Env → Shape := fun _ => { termShape with psrcs := [p.toNat] }
     let to' (e : Env) (t : Bool) : W64 := if xor t sense then e.unit.pc + toW64 (4 * sext 20 off20.toNat) else e.unit.pc + 4
     let low (e : Env) (k : Nat) : List Nat := upto 0 (k - e.grp.lo)
     let high (e : Env) (k : Nat) : List Nat := upto (k - e.grp.lo) (e.grp.hi - k)
     let cut (s : State) (e : Env) (k : Nat) (t : Bool) : State :=
       ((s.splitSpan { e with grp := e.stepped {} } k (e.unit.goto (to' e t)) (e.unit.goto (to' e !t))).termStep e
         (low e k) (to' e t)).termStep e (high e k) (to' e !t)
     let pair : Env → Shape := fun _ => { termShape with srcs := [a.toNat, a.toNat + 1] }
     let addr (e : Env) (q : Nat) : W64 := BitVec.ofNat 64 (e.val true a.toNat q)
     let word : Env → Shape := fun _ => { termShape with srcs := [a.toNat] }
     let entry (e : Env) (q : Nat) : W64 :=
       let v := e.val false a.toNat q
       e.unit.pc + toW64 (4 * sext 32 (nth e.unit.code (1 + if v < n.toNat + 1 then v else n.toNat) 0).toNat)
     let dynamic (i : Instr) (sh : Env → Shape) (wide : Bool) (f : Env → Nat → W64) : Prop :=
       Moves i sh (fun _ e => e.grp.span = false) (fun s e => s.goEach e (f e)) ∧
       Moves i sh (fun _ e => e.grp.span = true ∧ (e.solo ∨ e.uniform wide a.toNat)) (fun s e => s.goAll e (f e 0)) ∧
       Expands i sh (fun e => e.grp.span = true ∧ e.solo = false ∧ e.uniform wide a.toNat = false)
     Moves (.next off) (fun _ => termShape) (fun _ _ => True) (fun s e => s.goAll e (e.unit.pc + toW64 (4 * sext 24 off.toNat))) ∧
     Moves (.yield off) (fun _ => termShape) (fun _ _ => True) (fun s e => s.goAll e (e.unit.pc + toW64 (4 * sext 24 off.toNat))) ∧
     Moves br pred (fun _ e => e.grp.span = false) (fun s e => s.goEach e fun q => to' e (e.pval p.toNat q)) ∧
     Moves br pred (fun _ e => e.grp.span = true ∧ e.view.pcut p.toNat = .allTrue) (fun s e => s.goAll e (to' e true)) ∧
     Moves br pred (fun _ e => e.grp.span = true ∧ e.view.pcut p.toNat = .allFalse) (fun s e => s.goAll e (to' e false)) ∧
     (∀ k, Moves br pred (fun _ e => e.grp.span = true ∧ e.view.pcut p.toNat = .below k) (fun s e => cut s e k true)) ∧
     (∀ k, Moves br pred (fun _ e => e.grp.span = true ∧ e.view.pcut p.toNat = .atOrAbove k) (fun s e => cut s e k false)) ∧
     dynamic (.brx a) pair true addr ∧ dynamic (.switch a n) word false entry) ∧
  (∀ (e : Env) (f : Nat → W64), e.laned →
     (∀ p ∈ e.members, ∃ u ∈ e.parts f, u.pc = f p ∧ bit u.lanes.toNat p = true ∧
       ∀ v ∈ e.parts f, bit v.lanes.toNat p = true → v = u) ∧
     (∀ u ∈ e.parts f, u.left = 0 ∧ u.code = [] ∧ ∀ l, l < 32 → bit u.lanes.toNat l = true → l ∈ e.members))

/-- R34, R178: CALL and CALLX push the word after them and go to their target; RET pops and goes to the top entry. A
full stack of 32 entries and an empty one trap with cause 9 and leave PC and stack as they are. -/
def Obligations.CallsAndReturns : Prop :=
  ∀ (off : BitVec 24) (a : RegN),
    let term : Env → Shape := fun _ => termShape
    let pair : Env → Shape := fun _ => { termShape with srcs := [a.toNat, a.toNat + 1] }
    let deep (e : Env) : Prop := ∃ l ∈ e.grp.lanes, bit e.unit.lanes.toNat l.lane = true ∧ 32 ≤ l.stack.length
    let bare (e : Env) : Prop := ∃ q ∈ e.members, (e.grp.lane q).stack = []
    let pushed (e : Env) : Env :=
      { e with grp := e.grp.onLanes e.unit fun l => { l with stack := (e.unit.pc + 4) :: l.stack } }
    let popped (e : Env) : Env := { e with grp := e.grp.onLanes e.unit fun l => { l with stack := l.stack.drop 1 } }
    let top (e : Env) (q : Nat) : W64 := (e.grp.lane q).stack.headD 0
    let addr (e : Env) (q : Nat) : W64 := BitVec.ofNat 64 (e.val true a.toNat q)
    Moves (.call off) term (fun _ e => ¬deep e) (fun s e => s.goAll (pushed e) (e.unit.pc + toW64 (4 * sext 24 off.toNat))) ∧
    Traps (.call off) term (fun _ e => deep e) 9 (fun _ => 32) ∧
    Moves (.callx a) pair (fun _ e => e.grp.span = false ∧ ¬deep e) (fun s e => s.goEach (pushed e) (addr e)) ∧
    Moves (.callx a) pair (fun _ e => e.grp.span = true ∧ (e.solo ∨ e.uniform true a.toNat) ∧ ¬deep e)
      (fun s e => s.goAll (pushed e) (addr e 0)) ∧
    Expands (.callx a) pair (fun e => e.grp.span = true ∧ e.solo = false ∧ e.uniform true a.toNat = false) ∧
    Traps (.callx a) pair (fun _ e => (e.grp.span = false ∨ e.solo = true ∨ e.uniform true a.toNat = true) ∧ deep e) 9 (fun _ => 32) ∧
    Moves .ret term (fun _ e => e.grp.span = false ∧ ¬bare e) (fun s e => s.goEach (popped e) (top e)) ∧
    Moves .ret term (fun _ e => e.grp.span = true ∧ ¬bare e) (fun s e => s.goAll (popped e) (top e 0)) ∧
    Traps .ret term (fun _ e => bare e) 9 (fun _ => 0)

/-- R181, R191, R197, R313, R339, R340: EXIT ends the acting threads: a kernel's issue set leaves its group, and what
it has queued stays; a control core whose own accesses are done completes its command: DONE takes its number and the
record leaves the queue; a handler ends, and with it its interrupted threads. ERET in a trap context ends the handler
and resumes what it interrupted, at TPC where that has a new value; HALT there leaves it halted, and stops a control
core's issue until it is woken. EXIT in a control core's handler abandons the command with QERR 5. It rests on the
model's choices of logs 11 and 74. -/
def Obligations.ThreadEnds : Prop :=
  -- EXIT, ERET and HALT
  (Moves .exit (fun _ => termShape) (fun _ e => ∃ b g l, e.who = .kern b g l)
     (fun s e => ((s.termStep e e.members 0).putGrps e.who [e.grp]).exitUnit e.who e.bid e.unit e.unit.pc) ∧
   (∀ c, Moves .exit (fun _ => termShape)
     (fun s e => e.who = .cc c ∧ e.grp.stq = [] ∧ s.atomPending 0 c s.tick = false ∧ s.homeAny 0 c = false ∧
       s.sysReady 0 c = true)
     (fun s _ => s.commandDone c)) ∧
   (∀ c, Moves .exit (fun _ => termShape)
     (fun s e => e.who = .cc c ∧ e.grp.stq = [] ∧ s.atomPending 0 c s.tick = false ∧ s.homeAny 0 c = false ∧
       s.sysReady 0 c = false)
     (fun s e => s.flush e.core .system)) ∧
   Moves .exit (fun _ => termShape) (fun _ e => e.inTrap = true) (fun s e => s.endHandler e .exit)) ∧
  (Moves .eret (fun e => { termShape with pre := trapOnly e }) (fun _ e => e.inTrap = true) (fun s e => s.endHandler e .resume) ∧
   Moves .halt (fun e => { termShape with pre := if e.level == .kernel then some 4 else none }) (fun _ e => e.inTrap = true)
     (fun s e => s.endHandler e .halt) ∧
   ∀ c, Completes .halt (fun e => { termShape with pre := if e.level == .kernel then some 4 else none })
     (fun _ e => e.who = .cc c) (fun s e => (s.onCc c fun k => { k with halted := true }, e))) ∧
  -- a kernel's threads exit
  (∀ (s : State) (b : Block) (gid lane : Nat) (u : ISet) (pc : W64), s.block? b.bid = some b →
    let t := s.exitUnit (.kern b.bid gid lane) b.bid u pc
    let stay (g : Grp) (v : ISet) : Prop := ¬(g.gid = gid ∧ v.lanes = u.lanes)
    t.mem = s.mem ∧ ∃ k, t.block? b.bid = some k ∧ k.lastExit = pc ∧
      (∀ i, i ∈ k.live ↔ ∃ g ∈ b.groups, ∃ v ∈ g.units, i ∈ g.indices v ∧ stay g v) ∧
      (∀ g ∈ b.groups, g.stq ≠ [] → ∃ h ∈ k.groups, h.gid = g.gid ∧ h.stq = g.stq ∧ h.regs = g.regs) ∧
      ∀ h ∈ k.groups, h.units ≠ [] ∨ h.stq ≠ []) ∧
  -- a command completes
  (∀ (s : State) (k : CCore) (m : Cmd), s.cc? k.num = some k → k.cmd = some m →
    let f := s.flush (192 + k.num) .system
    let t := s.commandDone k.num
    t.mem = f.mem ∧ t.queue m.queue = { f.queue m.queue with done := m.seq, recs := (f.queue m.queue).recs.drop 1 } ∧
    (∀ q, q ≠ m.queue → t.queue q = f.queue q) ∧
    ∀ k', f.cc? k.num = some k' →
      t.cc? k.num = some { k' with cmd := none, grp := { k'.grp with units := [ISet.start 0] } }) ∧
  -- a unit of a handler ends beside others
  (∀ (s : State) (e : Env) (tid gid lane : Nat) (t : TrapCtx) (b : Block) (how : HandEnd), e.who = .hand tid gid lane →
    s.trap? tid = some t → s.block? e.bid = some b →
    let stay (g : Grp) (v : ISet) : Bool := g.gid != gid || v.lanes != e.unit.lanes
    let rest := (t.groups.map fun g => { g with units := g.units.filter (stay g) }).filter fun g => !g.units.isEmpty || !g.stq.isEmpty
    (∃ g ∈ t.groups, ∃ v ∈ g.units, stay g v = true) →
      let t' : TrapCtx := { t with ended := (how, e.members.map e.idx) :: t.ended, groups := rest }
      s.endHandler e how = { s.passStep tid e.bid e.unit with traps := mapIf (·.tid == tid) (fun _ => t') s.traps } ∧
      (e.unit.stepping = false → s.passStep tid e.bid e.unit = s)) ∧
  -- the last unit of a handler ends
  (∀ (s : State) (e k : Env) (tid gid lane : Nat) (t : TrapCtx) (b : Block) (h g : Grp) (u : ISet) (how : HandEnd),
    e.who = .hand tid gid lane → s.trap? tid = some t → t.bid = e.bid → s.block? e.bid = some b → t.ended = [] →
    t.groups = [h] → h.gid = gid → h.units = [e.unit] → b.served tid = [(g, u)] →
    s.env? (.kern e.bid g.gid u.low) = some k → k.grp = g → k.unit = u → k.members ≠ [] →
    (∀ p ∈ k.members, k.idx p ∈ e.members.map e.idx) →
    let t' := s.endHandler e how
    (∀ x ∈ t'.traps, x.tid ≠ tid) ∧ ∃ b', t'.block? e.bid = some b' ∧
      (how ≠ .exit → t'.mem = s.mem ∧ ∃ g' ∈ b'.groups, g'.gid = g.gid ∧ g'.regs = g.regs ∧ g'.preds = g.preds ∧
        (∀ v ∈ g.units, v.lanes ≠ u.lanes → v ∈ g'.units) ∧
        ∃ v ∈ g'.units, v.lanes = u.lanes ∧ v.stat = (if how = .halt then .halted else .ready) ∧
          (t.tpc = t.entryTpc → v.pc = u.pc ∧ v.code = u.code ∧ v.left = u.left) ∧
          (t.tpc ≠ t.entryTpc → v.pc = t.tpc ∧ v.code = [] ∧ v.left = 0)) ∧
      (how = .exit → b'.lastExit = e.unit.pc ∧
        ∀ i, i ∈ b'.live ↔ ∃ x ∈ b.groups, ∃ v ∈ x.units, i ∈ x.indices v ∧ ¬(x.gid = g.gid ∧ v.lanes = u.lanes))) ∧
  -- a control core's handler ends
  ∀ (s : State) (e : Env) (k : CCore) (t : TrapCtx), e.who = .ccHand k.num → s.cc? k.num = some k → k.trap = some t →
    (∃ k', (s.endHandler e .exit).cc? k.num = some k' ∧ k'.cmd = none ∧ k'.trap = none) ∧
    (∀ m, k.cmd = some m →
      (s.endHandler e .exit).queue m.queue = { s.queue m.queue with qerr := 5, enable := false, recs := [] }) ∧
    ∀ how, how ≠ .exit → ∃ k', (s.endHandler e how).cc? k.num = some k' ∧ k'.trap = none ∧ k'.cmd = k.cmd ∧
      k'.halted = (how == .halt) ∧ k'.grp.regs = k.grp.regs ∧
      k'.grp.units.length = k.grp.units.length ∧ ∀ (n : Nat) (u u' : ISet), k.grp.units[n]? = some u → k'.grp.units[n]? = some u' →
        (t.tpc = t.entryTpc → u' = u) ∧ (t.tpc ≠ t.entryTpc → u'.pc = t.tpc ∧ u'.code = [] ∧ u'.left = 0)

/-- R182: TRAP raises the trap of its number, which resumes at the SEGH after it; a trap inside a handler is a second
trap. -/
def Obligations.TrapWords : Prop :=
  ∀ n : BitVec 8,
    Moves (.trap n) (fun _ => termShape) (fun _ e => e.level ≠ .trap)
      (fun s e =>
        let u := e.unit.goto (e.unit.pc + 4)
        let x := { e with grp := (e.stepped {}).setUnit u, unit := u }
        ((s.putGrps e.who [x.grp]).termStep e e.members (e.unit.pc + 4)).raise x
          ⟨19, BitVec.ofNat 64 n.toNat, e.count, e.unit.pc + 4, e.unit.pc, s.tick⟩) ∧
    Traps (.trap n) (fun _ => termShape) (fun _ e => e.level = .trap) 19 (fun _ => BitVec.ofNat 64 n.toNat)

/-! ### System and special words -/

/-- R21, R49, R185, R192, R302: RDS. INDEX gives each thread its index as a form of stride 1, FPCTL each thread's own
value, and every other selector but CYC one value for all: the launch's and the block's, the group's bounds, the
context's, the trap context's. A pair's high half is 0 for a selector of 32 bits. -/
def Obligations.SpecialRegisterReads : Prop :=
  ∀ (d : RegN) (wide : Bool) (r : SpecialReg),
    let sh : Env → Shape := fun e =>
      { dsts := regsOf wide d.toNat, lat := some 1, pre := if privileged r && e.level == .kernel then some 4 else none }
    let field (e : Env) (f : Launch → Nat) : Nat := (e.launch.map f).getD 0
    let trap (s : State) (e : Env) (f : TrapCtx → Nat) : Nat := ((s.trapOf e).map f).getD 0
    let value (s : State) (e : Env) : Nat := match r with
      | .nidx => field e (·.n)
      | .block => e.num
      | .bsize => field e (·.b)
      | .rlo => if e.solo then 0 else e.grp.lo + e.first
      | .rhi => if e.solo then 0 else if e.grp.span then e.grp.hi else e.grp.lo + e.members.foldl max 0 + 1
      | .argp => field e (·.fld 191 128)
      | .seed => field e (·.fld 319 256)
      | .ctrb => field e (·.fld 383 320)
      | .ftv => e.ftv
      | .role => e.role
      | .lseq => s.lseqOf e
      | .ctxd => (e.ctx.map (·.desc)).getD 0
      | .ctxid => (e.ctx.map (·.ctxid.toNat)).getD 0
      | .partn => s.partn e.ppart
      | .core => e.core
      | .ftvset => 3
      | .tcause => trap s e (·.cause)
      | .tpc => trap s e (·.tpc.toNat)
      | .tidx => trap s e (·.tidx)
      | .tdata => trap s e (·.tdata.toNat)
      | _ => 0
    (r ≠ .cyc → r ≠ .index → r ≠ .fpctl → ∀ s e, Executes s (sh e) e →
      let t := (s.prepare e (sh e)).1
      let x := (s.prepare e (sh e)).2
      ∃ q : Res, q.wide = wide ∧ (∀ p ∈ e.members, q.at p = wrap (widthOf wide) (value t x)) ∧
        exec (.rds d wide r) s = .next (t.finish (x.write d.toNat q) e.grp (sh e))) ∧
    (r = .index → FormWord (.rds d wide r) { dsts := regsOf wide d.toNat } d wide (fun e p => e.index p)
      fun e => some (e.grp.lo, 1)) ∧
    (r = .fpctl → LaneWord (.rds d wide r) { dsts := regsOf wide d.toNat } d wide (fun e => e.grp.span)
      fun e p => (e.grp.lane p).fpctl.toNat)

/-- R50, R185, R296, R302: WRS. FPCTL takes the low 3 bits of a, for each acting thread; CTXD puts the context of a
valid descriptor, or none at 0, in force on a control core, with its FPCTL; TPC is where the interrupted threads will
resume. It rests on the model's choices of log 44, and of log 81: a source of 32 bits is zero-extended into CTXD and TPC, and
TPC takes the value of the lowest acting thread. -/
def Obligations.SpecialRegisterWrites : Prop :=
  ∀ (a : RegN) (wide : Bool),
    let sh (r : SpecialReg) : Env → Shape := fun e => { srcs := regsOf wide a.toNat, pre := wrsTrap r e }
    let V (e : Env) (p : Nat) : Nat := e.val wide a.toNat p
    Completes (.wrs a wide .fpctl) (sh .fpctl) (fun _ e => e.laned ∨ e.uniform wide a.toNat = true)
      (fun s e => (s, { e with grp := e.grp.onLanes e.unit fun l => { l with fpctl := BitVec.ofNat 3 (V e l.lane) } })) ∧
    Expands (.wrs a wide .fpctl) (sh .fpctl) (fun e => ¬e.laned ∧ e.uniform wide a.toNat = false) ∧
    Completes (.wrs a wide .ctxd) (sh .ctxd) (fun _ e => V e e.first = 0)
      (fun s e => (s.onCc (e.core - Config.cores) fun k => { k with ctx := none }, e)) ∧
    (∀ c : Ctx, Completes (.wrs a wide .ctxd) (sh .ctxd)
      (fun s e => V e e.first ≠ 0 ∧ s.descriptor e.ppart (V e e.first) = some c)
      (fun s e => (s.onCc (e.core - Config.cores) fun k => { k with ctx := some c },
        { e with grp := e.grp.onLanes e.unit fun l => { l with fpctl := c.fpctlDef } }))) ∧
    Traps (.wrs a wide .ctxd) (sh .ctxd) (fun s e => V e e.first ≠ 0 ∧ s.descriptor e.ppart (V e e.first) = none) 16
      (fun e => BitVec.ofNat 64 (V e e.first)) ∧
    (∀ tid g l, Completes (.wrs a wide .tpc) (sh .tpc) (fun _ e => e.who = .hand tid g l)
      (fun s e =>
        let written : List TrapCtx := mapIf (·.tid == tid)
          (fun (t : TrapCtx) => { t with tpc := BitVec.ofNat 64 (V e e.first) }) s.traps
        ({ s with traps := written }, e))) ∧
    (∀ c, Completes (.wrs a wide .tpc) (sh .tpc) (fun _ e => e.who = .ccHand c)
      (fun s e => (s.onCc c fun k => { k with trap := k.trap.map fun (t : TrapCtx) =>
        { t with tpc := BitVec.ofNat 64 (V e e.first) } }, e)))

/-- R123, R124, R186: FENCE. The acquire kind drops the lines of its scope in the step; the release and engine kinds
stand in the threads' store queue behind their stores; those with an acquire part hold the threads behind that entry.
It rests on choices of the model, logs 38 and 46. -/
def Obligations.Fences : Prop :=
  ∀ scope : Scope,
    let queued (s : State) (e : Env) (engine : Bool) : Env :=
      { e with grp := { e.grp with stq := e.grp.stq ++ e.members.map fun p =>
        ⟨.fence scope engine, [⟨e.idx p, 0, .priv (e.idx p) 0, [], false, 0⟩], s.tick, e.origin, [], []⟩ } }
    Completes (.fence scope .acquire) (fun _ => {}) (fun _ _ => True) (fun s e => ((s.acquire e.core scope).fenceLearn e, e)) ∧
    Completes (.fence scope .release) (fun _ => {}) (fun _ _ => True) (fun s e => (s, queued s e false)) ∧
    Completes (.fence scope .engine) (fun _ => {}) (fun _ _ => True) (fun s e => (s, queued s e true)) ∧
    Moves (.fence scope .acqRel) (fun _ => {}) (fun _ _ => True) (fun s e => s.waitAt (queued s e false) .fence) ∧
    Moves (.fence scope .sc) (fun _ => {}) (fun _ _ => True) (fun s e => s.waitAt (queued s e false) .fence)

/-- R124, R187, R192: BAR's threads, once their earlier accesses are performed, arrive at their next generation and
wait for it; BARA's arrival follows their stores and does not hold them; on a control core both only complete. It
rests on choices of the model, logs 38 and 82. -/
def Obligations.BlockBarriers : Prop :=
  ∀ n : BitVec 4,
    let gen (b : Block) (e : Env) : Nat := e.members.foldl (fun m p => max m (b.arrivals n.toNat (e.idx p))) 0
    Completes (.bar n) (fun _ => {}) (fun _ e => e.solo = true) (fun s e => (s, e)) ∧
    (∀ b : Block, Moves (.bar n) (fun _ => {})
      (fun s e => e.solo = false ∧ s.unreleased e = false ∧ s.block? e.bid = some b)
      (fun s e => ((s.waitAt e (.bar n.toNat (gen b e))).onBlock e.bid fun k =>
        e.members.foldl (fun (k : Block) p => k.arrive n.toNat (e.idx p)) k).barriers e.bid)) ∧
    Completes (.bara n) (fun _ => {}) (fun _ e => e.solo = true) (fun s e => (s, e)) ∧
    Completes (.bara n) (fun _ => {}) (fun _ e => e.solo = false)
      (fun s e => (s, { e with grp := { e.grp with stq := e.grp.stq ++ e.members.map fun p =>
        ⟨.bara n.toNat, [⟨e.idx p, 0, .priv (e.idx p) 0, [], false, 0⟩], s.tick, e.origin, [], []⟩ } }))

/-- R51, R185, R188, R189: RAND writes RandValue of the launch's SEED and CTRB, the thread's index and the stream, the
pair for an even d and its low half for an odd one; uniform on a span of one index, and a longer span expands. CYC and
RDS CYC outside redundant launches write one value to all acting threads, the cycle counter of their die, which never
goes backward; CYC waits for the threads' atomics. It rests on the model's choice of log 8. -/
def Obligations.RandomAndCycleWords : Prop :=
  (∀ (d : RegN) (n : BitVec 16),
     LaneWord (.rand d n) { dsts := regsOf (d.toNat % 2 == 0) d.toNat } d (d.toNat % 2 == 0)
       (fun e => e.grp.span && decide (e.grp.hi - e.grp.lo = 1))
       fun e p => (randValue (BitVec.ofNat 64 ((e.launch.map (·.fld 319 256)).getD 0))
         (BitVec.ofNat 64 ((e.launch.map (·.fld 383 320)).getD 0)) (e.index p) n.toNat).toNat) ∧
  (∀ (d : RegN) (wide : Bool) (s : State) (e : Env),
     let sh : Shape := { dsts := regsOf wide d.toNat, lat := none }
     let reads (i : Instr) : Prop :=
       Executes s sh e → (∀ l, e.launch = some l → l.redundant = false) →
         (∀ p ∈ e.members, s.atomPending e.bid (e.idx p) s.tick = false) →
         let t := (s.prepare e sh).1
         let x := (s.prepare e sh).2
         ∃ (v : W64) (q : Res), (t.die e.die).cyc.toNat ≤ v.toNat ∧ q.wide = wide ∧
           (∀ p ∈ e.members, q.at p = wrap (widthOf wide) v.toNat) ∧
           exec i s = .next (((t.onDie e.die fun k => { k with cyc := v }).spend 1).finish (x.write d.toNat q) e.grp sh)
     reads (.cyc d wide) ∧ reads (.rds d wide .cyc) ∧
     (Executes s sh e → (∃ p ∈ e.members, s.atomPending e.bid (e.idx p) s.tick = true) → exec (.cyc d wide) s = .next s))

/-- R190, R195, R319, R364, R365: NOP only advances. BKPT with a debugger attached halts the group after the word and
reports its code, in the primary replica only; without one, and on a control core, it traps with cause 18 at the
following word. ICINV drops, in the dies of the partition, the instruction copies and the scan-table entry of each
frame that holds one of its addresses, and fails where an address has no page; ICINV.ALL drops every copy and
scan-table entry of the partition's dies. It rests on choices of the model, logs 6 and 43. -/
def Obligations.NopBreakpointAndCodeDrops : Prop :=
  (∀ code : BitVec 8,
     let primary (s : State) (e : Env) : Bool := ((s.block? e.bid).map s.primary).getD true
     let next (e : Env) (u : ISet) : Env := { e with grp := (e.stepped {}).setUnit u, unit := u }
     Completes .nop (fun _ => {}) (fun _ _ => True) (fun s e => (s, e)) ∧
     (∀ c : Ctx, Moves (.bkpt code) (fun _ => {})
       (fun s e => e.solo = false ∧ e.ctx = some c ∧ s.attached e.ctx = true ∧ primary s e = true)
       (fun s e => ((s.putGrps e.who [(next e e.unit.advance.stopNow).grp]).trigger c 1).groupReport e (e.unit.pc + 4)
         code.toNat 2 0 e.members)) ∧
     Completes (.bkpt code) (fun _ => {}) (fun s e => e.solo = false ∧ s.attached e.ctx = true ∧ primary s e = false)
       (fun s e => (s, e)) ∧
     Moves (.bkpt code) (fun _ => {}) (fun s e => e.solo = true ∨ s.attached e.ctx = false)
       (fun s e => (s.putGrps e.who [(next e e.unit.advance).grp]).raise (next e e.unit.advance)
         ⟨18, BitVec.ofNat 64 code.toNat, e.count, e.unit.pc + 4, e.unit.pc, s.tick⟩)) ∧
  (∀ a : RegN,
     let addrs (e : Env) : List Nat := dedup (e.members.map fun p => e.val true a.toNat p)
     (∀ c t, Completes (.icinv a) (fun e => { srcs := [a.toNat, a.toNat + 1], pre := privWord e })
       (fun s e => e.ctx = some c ∧ s.dropCode c e.ppart (addrs e) = (t, none)) (fun _ e => (t, e))) ∧
     (∀ (c : Ctx) (t : State) (k l x : Nat) (s : State) (e : Env), Executes s { srcs := [a.toNat, a.toNat + 1], pre := privWord e } e →
       e.ctx = some c → (s.prepare e { srcs := [a.toNat, a.toNat + 1], pre := privWord e }).1.dropCode c e.ppart
         (addrs (s.prepare e { srcs := [a.toNat, a.toNat + 1], pre := privWord e }).2) = (t, some (k, l, x)) →
       exec (.icinv a) s = .next (t.dataFault e k l 9 (BitVec.ofNat 64 x) [e.first])) ∧
     Completes .icinvAll (fun e => { pre := privWord e }) (fun _ _ => True)
       (fun s e =>
         let emptied : List Die := s.dies.map fun d =>
           if s.partOf d.num == e.ppart then { d with scan := [], icache := [] } else d
         ({ s with dies := emptied }, e))) ∧
  -- what ICINV drops: the frame that holds each address, in turn
  ∀ (s u : State) (c : Ctx) (p a : Nat) (r : List Nat),
    s.dropCode c p [] = (s, none) ∧
    (∀ k l, s.translate c a .any = (u, .fault k l) → s.dropCode c p (a :: r) = (u, some (k, l, a))) ∧
    ∀ x pa l, s.translate c a .any = (u, .leaf x pa l) →
      let without (d : Die) : Die := { d with
        scan := d.scan.filter fun y => y.frame != pa / 4096, icache := d.icache.filter fun y => y.pa / 4096 != pa / 4096 }
      s.dropCode c p (a :: r) =
        ({ u with dies := u.dies.map fun d => if u.partOf d.num = p then without d else d } : State).dropCode c p r

/-- R191, R339: XCHT in a trap context exchanges the interrupted group's register d with bank register n for every
acting thread: after it bank register n holds the old values of d and d the old values of n, each with the other's
release state, and every other register, lane and predicate of both groups is as before. A span whose exchange would
leave no form, or that the handler has split, expands on both sides; a d beyond the kernel's registers traps. -/
def Obligations.Exchanges : Prop :=
  (∀ (d : RegN) (n : BitVec 4),
    let sh : Env → Shape := fun e => { dsts := [n.toNat], pre := trapOnly e }
    let serves (s : State) (e : Env) (tid : Nat) (b : Block) (g : Grp) (u : ISet) : Prop :=
      s.block? e.bid = some b ∧ ((b.served tid).find? fun x =>
        decide (x.1.lo ≤ e.grp.lo + e.first) && decide (e.grp.lo + e.first < x.1.hi)) = some (g, u)
    let G (e : Env) : Nat := (e.launch.map Launch.g).getD 0
    let swapped (e : Env) (m : W32) (g : Grp) : Grp × Grp := exchange e.grp m n.toNat g d.toNat
    let covers (e : Env) (g : Grp) : Prop := g.span = true ∧ e.grp.lo = g.lo ∧ e.grp.hi = g.hi
    -- matrix words of these threads that read d as their index register are disturbed (R130)
    let kept (s : State) (e : Env) (b : Block) (g : Grp) (u : ISet) (g' : Grp) : State :=
      (s.putGrps (.kern b.bid g.gid u.low) [g']).indexWritten b.bid (e.members.map e.idx) [d.toNat]
    (∀ tid gid l b g u, Completes (.xcht d n) sh
      (fun s e => e.who = .hand tid gid l ∧ serves s e tid b g u ∧ d.toNat < G e ∧ e.grp.span = false ∧ g.span = false)
      (fun s e => (kept s e b g u (swapped e e.unit.lanes g).2, { e with grp := (swapped e e.unit.lanes g).1 }))) ∧
    (∀ tid gid l b g u, Completes (.xcht d n) sh
      (fun s e => e.who = .hand tid gid l ∧ serves s e tid b g u ∧ d.toNat < G e ∧ e.grp.span = true ∧ covers e g ∧
        (e.grp.alone n.toNat).isSome ∧ (g.alone d.toNat).isSome)
      (fun s e => (kept s e b g u (swapped e 1 g).2, { e with grp := (swapped e 1 g).1 }))) ∧
    (∀ tid gid l b g u, Moves (.xcht d n) sh
      (fun s e => e.who = .hand tid gid l ∧ serves s e tid b g u ∧ d.toNat < G e ∧ e.grp.span = true ∧
        ¬(covers e g ∧ (e.grp.alone n.toNat).isSome ∧ (g.alone d.toNat).isSome))
      (fun s e => (if g.span then s.expandServed b g u else s).expandGrp e)) ∧
    (∀ tid gid l b g u, Moves (.xcht d n) sh
      (fun s e => e.who = .hand tid gid l ∧ serves s e tid b g u ∧ d.toNat < G e ∧ e.grp.span = false ∧ g.span = true)
      (fun s _ => s.expandServed b g u)) ∧
    (∀ tid gid l b g u, Traps (.xcht d n) sh
      (fun s e => e.who = .hand tid gid l ∧ serves s e tid b g u ∧ G e ≤ d.toNat) 2
      (fun e => BitVec.ofNat 64 e.unit.word)) ∧
    ∀ c k, Completes (.xcht d n) sh (fun s e => e.who = .ccHand c ∧ s.cc? c = some k)
      (fun s e => (s.onCc c fun k' => { k' with grp := (exchange e.grp 1 n.toNat k.grp d.toNat).2 },
        { e with grp := (exchange e.grp 1 n.toNat k.grp d.toNat).1 }))) ∧
  -- what is exchanged
  ∀ (h g : Grp) (m : W32) (n d : Nat), n < h.regs.length → d < g.regs.length →
    let x := exchange h m n g d
    -- a pair form stands in an even register and the one after it
    let paired (g : Grp) : Prop := ∀ k,
      (∀ b t, (g.cell k).kind = .f64 b t → k % 2 = 0 ∧ (g.cell (k + 1)).kind = .f64hi) ∧
      ((g.cell k).kind = .f64hi → k % 2 = 1 ∧ ∃ b t, (g.cell (k - 1)).kind = .f64 b t)
    paired h → paired g →
    x.1 = { h with regs := x.1.regs } ∧ x.2 = { g with regs := x.2.regs } ∧
    (∀ r, r ≠ n → (x.1.cell r).rel = (h.cell r).rel ∧ ∀ p ∈ h.positions, (h.span = true → (h.alone n).isSome) → x.1.val r p = h.val r p) ∧
    (∀ r, r ≠ d → (x.2.cell r).rel = (g.cell r).rel ∧ ∀ p ∈ g.positions, (g.span = true → (g.alone d).isSome) → x.2.val r p = g.val r p) ∧
    (h.span = true → g.span = true → h.lo = g.lo → h.hi = g.hi → (h.alone n).isSome → (g.alone d).isSome →
      (x.1.cell n).rel = (g.cell d).rel ∧ (x.2.cell d).rel = (h.cell n).rel ∧
      ∀ p ∈ h.positions, x.1.val n p = g.val d p ∧ x.2.val d p = h.val n p) ∧
    (h.span = false → g.span = false → (∀ p, bit m.toNat p = true → p ∈ h.positions ∧ p ∈ g.positions) →
      ∀ p, (p ∈ h.positions → if bit m.toNat p = true
          then x.1.val n p = g.val d p ∧ bit (x.1.cell n).rel.toNat p = bit (g.cell d).rel.toNat p
          else x.1.val n p = h.val n p ∧ bit (x.1.cell n).rel.toNat p = bit (h.cell n).rel.toNat p) ∧
        (p ∈ g.positions → if bit m.toNat p = true
          then x.2.val d p = h.val n p ∧ bit (x.2.cell d).rel.toNat p = bit (h.cell n).rel.toNat p
          else x.2.val d p = g.val d p ∧ bit (x.2.cell d).rel.toNat p = bit (g.cell d).rel.toNat p))


/-! ### Memory -/

/-- R323, R225, R326, R327: the checks of an access at its threads' addresses, in order: alignment, then the window,
then ownership; the first that fails names the lowest failing thread and counts them. A walk of the page tables gives,
from each entry on, the fault or the leaf that R326 gives it, and a leaf grants an access where its memory is the
partition's own and R327's needs hold. The checks' order rests on the model's choice of log 42; that a table outside
the partition's memory gives a fault of kind 4 rests on the model's choice of log 84. -/
def Obligations.AccessChecks : Prop :=
  (∀ (s : State) (e : Env) (a : Ask) (ps : List Nat) (va : Nat → Nat),
    let mis := ps.filter fun p => va p % a.align ≠ 0
    let out := ps.filter fun p => !addrOk e.spadLen e.privLen (va p) a.n a.write
    let own (l : Launch) : List Nat := ps.filter fun p => vwin (va p) == .global && l.ownFault e.num (va p)
    (∀ p r, mis = p :: r → s.checks e a ps va = .bad (.trap 7 (BitVec.ofNat 64 (va p)) mis.length)) ∧
    (∀ p r, mis = [] → out = p :: r → s.checks e a ps va = .bad (.trap 8 (BitVec.ofNat 64 (va p)) out.length)) ∧
    (∀ l p r, mis = [] → out = [] → e.launch = some l → a.write = true → own l = p :: r →
      s.checks e a ps va = .bad (.fault s 8 0 a.acc (BitVec.ofNat 64 (va p)) (own l))) ∧
    (∀ t els, s.checks e a ps va = .ok t els → mis = [] ∧ out = [] ∧ els.map (·.pos) = ps ∧
      (∀ y ∈ els, y.va = va y.pos ∧ (∀ o, vwin y.va = .spad o → y.loc = .spad o) ∧
        ∀ o, vwin y.va = .priv o → y.loc = .priv (e.idx y.pos) o))) ∧
  (∀ (s : State) (part va root e : Nat),
    let a := e / 2 ^ 7 % 2 ^ 45 * 2 ^ 7
    let valid : Prop := e % 2 = 1 ∧ e / 2 ^ 52 % 2 ^ 12 = 0
    let down (at' n : Nat) : List (Nat × Nat) × Xl :=
      if s.paOk part at' then
        ((n, s.homeNat at' 8) :: (walkFrom s part va n (s.homeNat at' 8)).1, (walkFrom s part va n (s.homeNat at' 8)).2)
      else ([], .fault 4 (if n = 0 then 5 else n))
    let index (lev : Nat) : Nat := if lev = 4 then va / 2 ^ 55 % 4 else if lev = 3 then va / 2 ^ 42 % 2 ^ 13
      else if lev = 2 then va / 2 ^ 29 % 2 ^ 13 else if lev = 1 then va / 2 ^ 16 % 2 ^ 13 else va / 2 ^ 12 % 16
    walk s part root va = down (root + 8 * index 4) 4 ∧
    (e % 2 = 0 → walkFrom s part va 0 e = ([], .fault 1 5) ∧
      ∀ lev, 1 ≤ lev → walkFrom s part va lev e = ([], .fault 1 lev)) ∧
    (e % 2 = 1 → e / 2 ^ 52 % 2 ^ 12 ≠ 0 → walkFrom s part va 0 e = ([], .fault 2 5) ∧
      ∀ lev, 1 ≤ lev → walkFrom s part va lev e = ([], .fault 2 lev)) ∧
    (valid → e / 2 % 2 = 1 →
      (∀ lev, 2 ≤ lev → lev ≤ 4 → walkFrom s part va lev e =
        if e / 2 ^ 2 % 32 ≠ 0 ∨ a % 2 ^ 16 ≠ 0 then ([], .fault 2 lev) else down (a + 8 * index (lev - 1)) (lev - 1)) ∧
      walkFrom s part va 1 e = (if e / 2 ^ 2 % 32 ≠ 0 then ([], .fault 2 1) else down (a + 8 * index 0) 0) ∧
      walkFrom s part va 0 e = ([], .fault 2 5)) ∧
    (valid → e / 2 % 2 = 0 →
      walkFrom s part va 4 e = ([], .fault 2 4) ∧ walkFrom s part va 3 e = ([], .fault 2 3) ∧
      walkFrom s part va 2 e =
        (if e / 2 ^ 6 % 2 = 1 ∨ a % 2 ^ 29 ≠ 0 then ([], .fault 2 2) else ([], .leaf e (a + va % 2 ^ 29) 2)) ∧
      walkFrom s part va 1 e = (if a % 2 ^ 16 ≠ 0 then ([], .fault 2 1) else ([], .leaf e (a + va % 2 ^ 16) 1)) ∧
      walkFrom s part va 0 e =
        (if e / 2 ^ 6 % 2 = 1 ∨ a % 2 ^ 12 ≠ 0 then ([], .fault 2 5) else ([], .leaf e (a + va % 2 ^ 12) 5)))) ∧
  (∀ (s : State) (part n k l e pa : Nat) (need : Need),
    let grants : Prop := match need with
      | .read => e / 4 % 2 = 1
      | .write => e / 8 % 2 = 1 ∧ e / 16 % 2 = 0
      | .readWrite => e / 4 % 2 = 1 ∧ e / 8 % 2 = 1 ∧ e / 16 % 2 = 0
      | .exec => e / 16 % 2 = 1
      | .any => True
    Xl.check s part need n (.fault k l) = .fault k l ∧
    ((∃ i, i < n ∧ s.paOk part (pa + i) = false) → Xl.check s part need n (.leaf e pa l) = .fault 4 l) ∧
    ((∀ i, i < n → s.paOk part (pa + i) = true) →
      (grants → Xl.check s part need n (.leaf e pa l) = .leaf e pa l) ∧
      (¬grants → Xl.check s part need n (.leaf e pa l) = .fault 3 l))) ∧
  (∀ (s : State) (c : Ctx) (va n : Nat) (need : Need),
    let w := walk s c.part c.ptroot (va % 2 ^ 57)
    s.tlb = [] → runOthers s c.part (va % 2 ^ 57) w.1 = [] →
      (s.translate c va need n).2 = w.2.check s c.part need n)

/-- R116: byte i of a load is the youngest of the thread's own queued stores of it; else, of physical memory, the
store its core point holds, the core's cached line (an acquire at die scope or wider skips it, R121), the store its
die point holds, or its home; and the scratchpad and private bytes stand at their home (R125). It rests on choices of
the model, logs 7 and 35. -/
def Obligations.LoadedBytes : Prop :=
  (∀ (s : State) (e : Env) (y : Elem) (n i : Nat) (skip : Bool), i < n →
    let own := e.grp.forward (e.idx y.pos) (y.loc.add i)
    (∀ a, y.loc = .pa a → s.overlays e y = [] → e.sharedAt y = false → isFabric (a + i) = false →
      nth (s.readElem e y n skip) i 0 = own.getD (s.coreByte e.core e.die (a + i) skip)) ∧
    (∀ b o, y.loc = .spad o → s.block? e.bid = some b → nth (s.readElem e y n skip) i 0 = own.getD (b.spad.read (o + i))) ∧
    (∀ b k o, y.loc = .priv k o → s.block? e.bid = some b →
      nth (s.readElem e y n skip) i 0 = own.getD ((b.privOf k).read (o + i)))) ∧
  (∀ (s : State) (core die a : Nat) (skip : Bool),
    (∀ v, pointByte (s.core core).point a = some v → s.coreByte core die a skip = v) ∧
    (∀ v, pointByte (s.core core).point a = none → lineByte (s.core core).lcache a = some v →
      s.coreByte core die a false = v) ∧
    (∀ v, pointByte (s.core core).point a = none → (skip = true ∨ lineByte (s.core core).lcache a = none) →
      pointByte (s.die die).point a = some v → s.coreByte core die a skip = v) ∧
    (pointByte (s.core core).point a = none → (skip = true ∨ lineByte (s.core core).lcache a = none) →
      pointByte (s.die die).point a = none → s.coreByte core die a skip = s.homeByte a))

/-- R215, R216, R219: a load that nothing holds gives each acting thread the bytes at its effective address, zero- or
sign-extended; LDC reads once where its address is uniform and the issue set is whole. A span's load of its threads'
own addresses is one request, and the word completes in the sheaf of each window (R29, R218). A load that its checks
stop has none of its effect, and one that touches an absent sector parks. It rests on the model's choices of logs 12
and 41. -/
def Obligations.Loads : Prop :=
  ∀ (d a : RegN) (off : BitVec 8) (ka : Bool) (st : BitVec 2),
    let shape (regs : Nat) : Shape :=
      { dsts := upto d.toNat regs, srcs := [a.toNat, a.toNat + 1], rel := if ka then [a.toNat, a.toNat + 1] else []
        lat := none, gap := gapOf st none }
    let va (z : Nat) (x : Env) (p : Nat) : Nat := wrap 64 ((x.val true a.toNat p : Int) + sext 8 off.toNat * z)
    let once (const : Bool) (t : State) (x : Env) (all : List Elem) : Bool :=
      x.solo || (const && x.whole && x.uniform true a.toNat && !t.ownView x all)
    let free (t : State) (x : Env) (z : Nat) (acq one : Bool) (els all : List Elem) : Prop :=
      t.parks x els z = false ∧ (∀ y ∈ all, t.loadWaits x y z = false) ∧
      (one = false ∨ all.length ≤ 1 ∨ ∀ y ∈ all, x.queuedOn y z = false) ∧
      ((∀ y ∈ els, x.sharedAt y = false) ∨ ((x.launch.map fun l => l.redundant || l.oldest x.num).getD true) = true) ∧
      t.askFabric x z els = (t, false) ∧ (∀ y ∈ els, t.badElem x y z acq = false) ∧ x.unit.half = none ∧
      ((x.launch.map Launch.redundant).getD false = false ∨ (acq = false ∧ ∀ y ∈ els, x.sharedAt y = false))
    let after (t : State) (x : Env) (z : Nat) (acq : Bool) (els all : List Elem) : State :=
      let u := (t.readAll x z acq els).1
      (((if acq then u.acquire x.core .device else u)).noteReads x z acq all
        (if acq then x.members else (all.filter x.sharedAt).map (·.pos))).takeFabric x els
    let reads (i : Instr) (z regs : Nat) (sign acq const : Bool) : Prop :=
      ∀ (s t : State) (e : Env) (all : List Elem), Executes s (shape regs) e → e.members ≠ [] →
        let x := (s.prepare e (shape regs)).2
        let k := (s.prepare e (shape regs)).1.checks x ⟨z, z, false, .read, 0⟩ x.members (va z x)
        let one := once const t x all
        let els := if one then all.take 1 else all
        let value (p : Nat) : W64 × W64 := look (t.readAll x z acq els).2 (if one then x.first else p) (0, 0)
        let low (p : Nat) : Int := if sign then sext (8 * z) (value p).1.toNat else (value p).1.toNat
        let holds (put : List Res → Prop) (at' : Nat → Nat) (ps : List Nat) : Prop :=
          (regs = 1 → ∃ r : Res, r.wide = false ∧ (∀ p ∈ ps, r.at p = wrap 32 (low (at' p))) ∧ put [r]) ∧
          (regs = 2 → ∃ r : Res, r.wide = true ∧ (∀ p ∈ ps, r.at p = wrap 64 (low (at' p))) ∧ put [r]) ∧
          (regs = 4 → ∃ r0 r1 r2 r3 : Res, r0.wide = false ∧ r1.wide = false ∧ r2.wide = false ∧ r3.wide = false ∧
            (∀ p ∈ ps, r0.at p + 2 ^ 32 * r1.at p = (value (at' p)).1.toNat ∧
              r2.at p + 2 ^ 32 * r3.at p = (value (at' p)).2.toNat) ∧ put [r0, r1, r2, r3])
        let write (k : Env) (rs : List Res) : Env :=
          ((upto d.toNat rs.length).zip rs).foldl (fun k (n, r) => k.write n r) k
        (∀ c v n, k = .bad (.trap c v n) → exec i s = .next (s.trapWord e c v n)) ∧
        (∀ u f l c v ps, k = .bad (.fault u f l c v ps) → exec i s = .next (u.dataFault e f l c v ps)) ∧
        (k = .ok t all → t.parks x els z = true → exec i s = .next (t.onUnit e.who fun u => { u with stat := .parked })) ∧
        (k = .ok t all → free t x z acq one els all →
          ((x.grp.span = false ∨ one = true) → holds (fun rs =>
            exec i s = .next ((after t x z acq els all).performed (write x rs) x e.grp (shape regs) 0 0 z all)) id e.members) ∧
          (x.grp.span = true → one = false →
            let u := after t x z acq els all
            let mine (w : Nat) : List Elem := (all.filter fun y => (x.grp.lo + y.pos) / 32 == w).map fun y =>
              { y with pos := (x.grp.lo + y.pos) % 32 }
            ∃ f : Nat → List Res, (∀ w, holds (fun rs => f w = rs) (fun p => 32 * w + p - x.grp.lo) (upto 0 32)) ∧
              exec i s = .next (((upto (u.nextId + 1) x.grp.windows.length).zip x.grp.windows).foldl (fun v (gid, w) =>
                match v.env? (x.inGroup gid ((x.grp.windowLanes w).headD 0)) with
                | none => v
                | some k => v.settleEff k (shape regs) (v.access (write k (f w)) k (shape regs) 0 0 z (mine w)))
                (u.expandGrp x))))
    reads (.ld8 d a off ka st) 1 1 false false false ∧ reads (.ld8s d a off ka st) 1 1 true false false ∧
    reads (.ld16 d a off ka st) 2 1 false false false ∧ reads (.ld16s d a off ka st) 2 1 true false false ∧
    reads (.ld32 d a off ka st) 4 1 false false false ∧ reads (.ld64 d a off ka st) 8 2 false false false ∧
    reads (.ld128 d a off ka st) 16 4 false false false ∧ reads (.lda32 d a off ka st) 4 1 false true false ∧
    reads (.lda64 d a off ka st) 8 2 false true false ∧ reads (.ld128a d a off ka st) 16 4 false false false ∧
    reads (.ldc32 d a off ka st) 4 1 false false true ∧ reads (.ldc64 d a off ka st) 8 2 false false true

/-- R114, R215 to R218, R220: a store's bytes enter its threads' store queue, a plain ST128 as two entries of 8 bytes
(R109). A span makes one access where its operands read as forms, and else expands; where that access reaches the private
window, all of it is checked, and then each sheaf of the expanded span makes its own threads' stores (R218). PFX writes no
register and never stops. -/
def Obligations.Stores : Prop :=
  ∀ (d a : RegN) (off : BitVec 8) (ka : Bool) (st : BitVec 2),
    let shape (regs : Nat) : Shape :=
      { srcs := [a.toNat, a.toNat + 1] ++ upto d.toNat regs, rel := if ka then [a.toNat, a.toNat + 1] else []
        lat := none, gap := gapOf st none }
    let va (z : Nat) (x : Env) (p : Nat) : Nat := wrap 64 ((x.val true a.toNat p : Int) + sext 8 off.toNat * z)
    let single (x : Env) (formed : Prop) : Prop := x.grp.span = false ∨ x.solo = true ∨ ((x.form true a.toNat).isSome ∧ formed)
    let own (y : Elem) : Prop := ∃ k o, y.loc = .priv k o
    let one (x : Env) (els : List Elem) : Prop := x.grp.span = false ∨ x.solo = true ∨ ∀ y ∈ els, ¬own y
    let ones (x : Env) (regs : Nat) : Prop := ∀ r ∈ upto d.toNat regs, (x.form false r).isSome
    let formed (regs : Nat) (x : Env) : Prop := if regs = 2 then (x.form true d.toNat).isSome else ones x regs
    -- a span's access that reaches the private window: each sheaf of the expanded span makes its threads' stores
    let spread (i : Instr) (z regs : Nat) (put : State → Env → List Elem → Env → (Nat → Nat) → Env) : Prop :=
      ∀ (s t : State) (e : Env) (els : List Elem), Executes s (shape regs) e →
        let x := (s.prepare e (shape regs)).2
        single x (formed regs x) → ¬one x els → (∀ y ∈ els, x.stagesAt y.va = false) →
        (s.prepare e (shape regs)).1.checks x ⟨z, z, true, .write, 1⟩ x.members (va z x) = .ok t els → t.parks x els z = false →
        let mine (w : Nat) : List Elem := (els.filter fun y => (x.grp.lo + y.pos) / 32 == w).map fun y =>
          { y with pos := (x.grp.lo + y.pos) % 32 }
        exec i s = .next (((upto (t.nextId + 1) x.grp.windows.length).zip x.grp.windows).foldl (fun v (gid, w) =>
          match v.env? (x.inGroup gid ((x.grp.windowLanes w).headD 0)) with
          | none => v
          | some k => v.settleEff k (shape regs) (v.access (put v k (mine w) x fun p => 32 * w + p - x.grp.lo) k (shape regs) 1 1 z
              (mine w)))
          (t.expandGrp x))
    let puts (i : Instr) (z regs : Nat) (kind : SqKind) (bytes : Env → Nat → List Byte) : Prop :=
      Accesses i (shape regs) ⟨z, z, true, .write, 1⟩ 1 (va z) (fun _ x els => single x (formed regs x) ∧ one x els)
        (fun t x els => (t, x.enters t kind els (bytes x))) ∧
      spread i z regs (fun v k els x at' => k.enters v kind els fun p => bytes x (at' p)) ∧
      Refrains i (shape regs) ⟨z, z, true, .write, 1⟩ (va z) (fun x => single x (formed regs x)) ∧
      Expands i (fun _ => shape regs) (fun x => ¬single x (formed regs x))
    let quad (x : Env) (p : Nat) : List Byte := leBytes 8 (x.val true d.toNat p) ++ leBytes 8 (x.val true (d.toNat + 2) p)
    let half (n : Nat) (x : Env) (p : Nat) : List Byte := leBytes 8 (x.val true (d.toNat + n) p)
    puts (.st8 d a off ka st) 1 1 .store (fun x p => leBytes 1 (x.val false d.toNat p)) ∧
    puts (.st16 d a off ka st) 2 1 .store (fun x p => leBytes 2 (x.val false d.toNat p)) ∧
    puts (.st32 d a off ka st) 4 1 .store (fun x p => leBytes 4 (x.val false d.toNat p)) ∧
    puts (.st64 d a off ka st) 8 2 .store (fun x p => leBytes 8 (x.val true d.toNat p)) ∧
    puts (.stl32 d a off ka st) 4 1 .relStore (fun x p => leBytes 4 (x.val false d.toNat p)) ∧
    puts (.stl64 d a off ka st) 8 2 .relStore (fun x p => leBytes 8 (x.val true d.toNat p)) ∧
    puts (.st128a d a off ka st) 16 4 .store quad ∧
    Accesses (.st128 d a off ka st) (shape 4) ⟨16, 16, true, .write, 1⟩ 1 (va 16)
      (fun _ x els => single x (ones x 4) ∧ one x els ∧ ∀ y ∈ els, x.stagesAt y.va = false)
      (fun t x els => (t, (x.enters t .store els (half 0 x)).enters t .store
        (els.map fun y => { y with va := y.va + 8, loc := y.loc.add 8 }) (half 2 x))) ∧
    Accesses (.st128 d a off ka st) (shape 4) ⟨16, 16, true, .write, 1⟩ 1 (va 16)
      (fun _ x els => single x (ones x 4) ∧ one x els ∧ ∀ y ∈ els, x.stagesAt y.va = true)
      (fun t x els => (t, x.enters t .store els (quad x))) ∧
    spread (.st128 d a off ka st) 16 4 (fun v k els x at' => (k.enters v .store els fun p => half 0 x (at' p)).enters v .store
      (els.map fun y => { y with va := y.va + 8, loc := y.loc.add 8 }) fun p => half 2 x (at' p)) ∧
    Refrains (.st128 d a off ka st) (shape 4) ⟨16, 16, true, .write, 1⟩ (va 16) (fun x => single x (ones x 4)) ∧
    Expands (.st128 d a off ka st) (fun _ => shape 4) (fun x => ¬single x (ones x 4)) ∧
    Completes (.pfx a off ka st)
      (fun _ => { srcs := [a.toNat, a.toNat + 1], rel := if ka then [a.toNat, a.toNat + 1] else []
                  lat := none, gap := gapOf st none }) (fun _ _ => True)
      (fun s x => (x.members.foldl (fun s p => s.prefetch x (va 64 x p)) s, x))

/-! ### Atomics, waits and queues -/

/-- R56, R60, R122, R221, R222, R223: an atomic word issues one atomic per acting thread, to be performed at its home,
and the threads go on, their destination no longer released; a quiet reduction enters their store queue. In a span
both expand. -/
def Obligations.AtomicWords : Prop :=
  ∀ (d a b : RegN) (scope : Scope) (order : Order),
    let addr (x : Env) (p : Nat) : Nat := x.val true a.toNat p
    let laned (_ : State) (x : Env) (_ : List Elem) : Prop := x.laned
    let issues (i : Instr) (op n : Nat) (cas : Bool) : Prop :=
      let wide : Bool := n == 8
      let sh : Shape :=
        { dsts := regsOf wide d.toNat
          srcs := [a.toNat, a.toNat + 1] ++ regsOf wide b.toNat ++ (if cas then regsOf wide d.toNat else []), lat := none }
      let v (x : Env) (r : RegN) (p : Nat) : W64 := BitVec.ofNat 64 (x.val wide r.toNat p)
      let issued (t : State) (x : Env) (els : List Elem) : List PAtomic := ((upto t.nextId els.length).zip els).map fun y =>
        ⟨y.1, x.bid, x.idx y.2.pos, x.inTrap, t.tick, op, BitVec.ofNat 64 y.2.va, y.2.loc, v x b y.2.pos,
          if cas then v x d y.2.pos else 0, d.toNat, scope, order, x.origin, y.2.mig⟩
      Accesses i sh ⟨n, n, true, .readWrite, 2⟩ 2 addr laned (fun t x els =>
        ({ t with nextId := t.nextId + els.length, atoms := t.atoms ++ issued t x els },
        { x with grp := (regsOf wide d.toNat).foldl (fun (g : Grp) r => g.claim x.unit r) x.grp })) ∧
      Refrains i sh ⟨n, n, true, .readWrite, 2⟩ addr Env.laned ∧ Expands i (fun _ => sh) (fun x => ¬x.laned)
    let enters (i : Instr) (op : Nat) : Prop :=
      let sh : Shape := { srcs := [a.toNat, a.toNat + 1, b.toNat], lat := none }
      let rel : Option Scope := if order = .release ∨ order = .acqRel then some scope else none
      Accesses i sh ⟨4, 4, true, .readWrite, 3⟩ 2 addr laned (fun t x els =>
        (t, x.enters t (.red op rel) els fun p => leBytes 4 (x.val false b.toNat p))) ∧
      Refrains i sh ⟨4, 4, true, .readWrite, 3⟩ addr Env.laned ∧ Expands i (fun _ => sh) (fun x => ¬x.laned)
    issues (.aadd d a b scope order) 0 4 false ∧ issues (.aimin d a b scope order) 1 4 false ∧
    issues (.aimax d a b scope order) 2 4 false ∧ issues (.anmin d a b scope order) 3 4 false ∧
    issues (.anmax d a b scope order) 4 4 false ∧ issues (.aand d a b scope order) 5 4 false ∧
    issues (.aor d a b scope order) 6 4 false ∧ issues (.axor d a b scope order) 7 4 false ∧
    issues (.axch d a b scope order) 8 4 false ∧ issues (.acas d a b scope order) 9 4 true ∧
    issues (.afadd d a b scope order) 10 4 false ∧ issues (.aaddw d a b scope order) 11 8 false ∧
    issues (.axchw d a b scope order) 12 8 false ∧ issues (.acasw d a b scope order) 13 8 true ∧
    enters (.qadd a b scope order) 16 ∧ enters (.qimin a b scope order) 17 ∧ enters (.qimax a b scope order) 18 ∧
    enters (.qand a b scope order) 19 ∧ enters (.qor a b scope order) 20 ∧ enters (.qxor a b scope order) 21 ∧
    enters (.qfadd a b scope order) 22 ∧ enters (.qbadd2 a b scope order) 23

/-- R122, R222, R223: an atomic that may be performed, outside a staged launch, reads the value at its home, behind the
flush of its release part, and leaves there what its row says of it: in near or far memory, in a scratchpad, or in a
private window; a failing compare writes nothing. Its old value lands in its destination, in its own thread and
nowhere else; one that its rules still hold leaves the state as it is. It rests on choices of the model, logs 22 and
20. -/
def Obligations.AtomicsPerform : Prop :=
  (∀ (s : State) (p : PAtomic), s.atoms.find? (·.aid == p.aid) = some p →
    let n := laWidth p.op
    let rel : Prop := p.order = .release ∨ p.order = .acqRel
    let u := if rel then s.flush (s.atomCore p) p.scope else s
    let old := leNat (u.homeLoc p.bid p.loc n)
    let bytes := leBytes n (laNew p.op old p.b.toNat p.cmp.toNat)
    let fails : Prop := (p.op = 9 ∨ p.op = 13) ∧ old ≠ p.cmp.toNat
    (s.atomReady p = false → exec (.atomicPerform p.aid) s = .next s) ∧
    (s.atomReady p = true → (∀ x, p.loc = .pa x → isFabric x = false) → s.homeBad p.bid p.loc n = false →
      (p.scope = .system → rel → s.sysReady p.bid p.idx = true) →
      (∀ b l, s.block? p.bid = some b → s.launch? b.lid = some l → l.staged = false) →
      ∃ t, exec (.atomicPerform p.aid) s = .next ((t.atomAcq p old).atomLand p old) ∧
        (∀ x, p.loc = .pa x → ∃ v,
          t = (v.dropLine (p.drops (s.atomCore p)) x n).countBy p.bid (s.atomCore p) p.idx p.src p.va x p.mig ∧
          (fails → v = u) ∧ (¬fails → v = u.arrive ⟨p.bid, p.idx, x, p.va, bytes, p.src, []⟩ ∧
            (isDram x = true → v.mem = u.mem.writeN x bytes)) ∧
          (p.mig = false → t.mem = v.mem)) ∧
        (∀ o, p.loc = .spad o → t = if fails then u else u.spadWrite p.bid o bytes) ∧
        ∀ j o, p.loc = .priv j o → (fails → t = u) ∧ (¬fails → ∀ b k, u.block? p.bid = some b → t.block? p.bid = some k →
          k.privOf j = (b.privOf j).writeN o bytes))) ∧
  (∀ (t : State) (p : PAtomic) (old : Nat), (t.atomLaunch p).all (fun l => !l.staged) = true →
    t.atomAcq p old = if p.order = .acquire ∨ p.order = .acqRel then t.acquire (t.atomCore p) p.scope else t) ∧
  (∀ (t : State) (p : PAtomic) (old : Nat),
    let wide : Bool := laWidth p.op == 8
    old < 2 ^ (8 * laWidth p.op) → (wide = true → p.d % 2 = 0) →
    let r := t.atomLand p old
    -- what becomes of a group in which the old value lands
    let lands (g h : Grp) : Prop := p.d + 2 ≤ g.regs.length → (∀ k b s, (g.cell k).kind = .f64 b s → k % 2 = 0) →
      (p.bid = 0 → g.span = true ∧ g.hi = g.lo + 1) →
      let mine (l : Nat) : Prop := if p.bid = 0 then l = 0
        else g.span = false ∧ l < 32 ∧ p.idx = g.lo + l ∧ bit g.live.toNat l = true
      h = { g with regs := h.regs } ∧
        (∀ l, mine l → (if wide then (h.val64 p.d l).toNat else (h.val p.d l).toNat) = old) ∧
        ∀ q l, l ∈ g.positions → q ∉ regsOf wide p.d ∨ ¬mine l → h.val q l = g.val q l
    r.atoms = t.atoms.filter (fun a => a.aid != p.aid) ∧ r.mem = t.mem ∧ r.cores = t.cores ∧ r.dies = t.dies ∧
    (p.bid ≠ 0 → p.hand = false → ∀ b, t.block? p.bid = some b → ∃ gs, r.block? p.bid = some { b with groups := gs } ∧
      gs.length = b.groups.length ∧ ∀ (i : Nat) (g h : Grp), b.groups[i]? = some g → gs[i]? = some h → lands g h) ∧
    (p.bid ≠ 0 → p.hand = true → ∀ (i : Nat) (x : TrapCtx), t.traps[i]? = some x → x.bid = p.bid →
      ∃ gs, r.traps[i]? = some { x with groups := gs } ∧
        gs.length = x.groups.length ∧ ∀ (j : Nat) (g h : Grp), x.groups[j]? = some g → gs[j]? = some h → lands g h) ∧
    (p.bid = 0 → p.hand = false → ∀ k, t.cc? p.idx = some k → ∃ h, r.cc? p.idx = some { k with grp := h } ∧ lands k.grp h)) ∧
  ∀ m b c : Nat, m < 2 ^ 32 → b < 2 ^ 32 →
    let signed (f : Int → Int → Int) (x : Nat) : Prop := x < 2 ^ 32 ∧ sext 32 x = f (sext 32 m) (sext 32 b)
    laNew 0 m b c = (m + b) % 2 ^ 32 ∧ signed min (laNew 1 m b c) ∧ signed max (laNew 2 m b c) ∧
    laNew 3 m b c = min m b ∧ laNew 4 m b c = max m b ∧ laNew 5 m b c = m &&& b ∧ laNew 6 m b c = m ||| b ∧
    laNew 7 m b c = m ^^^ b ∧ laNew 8 m b c = b ∧ laNew 9 m b c = (if m = c then b else m) ∧
    laNew 16 m b c = (m + b) % 2 ^ 32 ∧ signed min (laNew 17 m b c) ∧ signed max (laNew 18 m b c) ∧
    laNew 19 m b c = m &&& b ∧ laNew 20 m b c = m ||| b ∧ laNew 21 m b c = m ^^^ b ∧
    (let sum (f : Fmt) (x y : Nat) : Nat := f.roundRn (FV.add .rn (f.value x) (f.value y))
     (∀ op, op = 10 ∨ op = 22 → laNew op m b c = sum .f32 m b ∧
       ((Fmt.f32.value m).isNan = true ∨ (Fmt.f32.value b).isNan = true → laNew op m b c = 0x7FC00000)) ∧
     laNew 23 m b c % 2 ^ 16 = sum .bf16 (m % 2 ^ 16) (b % 2 ^ 16) ∧
     laNew 23 m b c / 2 ^ 16 = sum .bf16 (m / 2 ^ 16) (b / 2 ^ 16)) ∧
    ∀ p q : Nat, p < 2 ^ 64 → q < 2 ^ 64 → laNew 11 p q c = (p + q) % 2 ^ 64 ∧ laNew 12 p q c = q ∧
      laNew 13 p q c = (if p = c then q else p)

/-- R134, R224: WAITA reads as a load of its order; where every thread's word differs from b it completes with what it
read, and else the group sleeps. A wake reads again for the threads still waiting; the device may end the wait at any
time. It rests on the model's choice of log 72. -/
def Obligations.AddressWaits : Prop :=
  (∀ (d a b : RegN) (scope : Scope) (order : Order) (s t : State) (e : Env) (els : List Elem),
    let acq : Bool := order == .acquire || order == .acqRel
    let sh : Shape := { dsts := [d.toNat], srcs := [a.toNat, a.toNat + 1, b.toNat], lat := none }
    let i : Instr := .waita d a b scope order
    Executes s sh e → e.members ≠ [] →
    let x := (s.prepare e sh).2
    x.laned → (s.prepare e sh).1.checks x ⟨4, 4, false, .read, 4⟩ e.members (x.val true a.toNat) = .ok t els →
    t.parks x els 4 = false → (∀ y ∈ els, t.loadWaits x y 4 = false ∧ x.sharedAt y = false) →
    t.askFabric x 4 els = (t, false) → (x.launch.map Launch.redundant).getD false = false →
    (∀ y ∈ els, t.badElem x y 4 (acq && scope != .block) = false) →
    let u := t.readAll x 4 (acq && scope != .block) els
    let now (p : Nat) : Nat := (look u.2 p (0, 0)).1.toNat % 2 ^ 32
    let v := (((if acq then u.1.acquire x.core scope else u.1)).noteReads x 4 acq els).takeFabric x els
    ((∀ p ∈ e.members, now p ≠ x.val false b.toNat p) → ∃ r : Res, r.wide = false ∧ (∀ p ∈ e.members, r.at p = now p) ∧
      exec i s = .next (v.performed (x.write d.toNat r) x e.grp sh 0 4 4 els)) ∧
    ((∃ p ∈ e.members, now p = x.val false b.toNat p) → ∃ cmp ms, (∀ p ∈ e.members, nth cmp p 0 = x.view.val b.toNat p) ∧
      (∀ m ∈ ms, m.last.toNat = now m.lane ∧ (m.fin = true ↔ now m.lane ≠ x.val false b.toNat m.lane)) ∧
      ms.map (·.lane) = e.members ∧ exec i s = .next (v.onUnit e.who fun u => { u with stat := .waita d cmp ms }))) ∧
  (∀ (q : Who) (s : State) (e : Env) (d : RegN) (cmp : List W32) (ms : List WaitM),
    s.env? q = some e → e.unit.stat = .waita d cmp ms →
    let els : List Elem := (ms.filter fun m => !m.fin).map fun m => ⟨m.lane, m.va.toNat, m.loc, false⟩
    let (scope, acq) := waitaMode e.unit
    let r := s.waitaRead e acq scope cmp ms
    let v := r.1.takeFabric e els
    let woken : ISet := { e.unit with stat := .ready }
    let x : Env := { e with grp := e.grp.setUnit woken, unit := woken }
    let ends (i : Instr) : Prop := ∃ o : Res, o.wide = false ∧
      (∀ p m, r.2.find? (·.lane == p) = some m → p < 32 → o.at p = m.last.toNat) ∧
      exec i s = .next ((v.onUnit q fun u => { u with stat := .ready }).performed (x.write d.toNat o) x x.grp
        { dsts := [d.toNat], lat := none } 0 4 4 (r.2.map fun m => ⟨m.lane, m.va.toNat, m.loc, false⟩))
    (e.launch.map Launch.redundant).getD false = false → e.laned → s.askFabric e 4 els = (s, false) →
    (∀ y ∈ els, s.badElem e y 4 (acq && scope != .block) = false) →
    ((∃ m ∈ r.2, m.fin = false) → exec (.waitaWake q) s =
      .next (v.onUnit q fun u => { u with stat := .waita d cmp r.2 })) ∧
    ((∀ m ∈ r.2, m.fin = true) → ends (.waitaWake q)) ∧ ends (.waitaEnd q))

/-- R92, R114, R115, R117, R123, R137, R140: the oldest entry of a queue leaves it: a plain store goes to its core
point, or its scratchpad or private bytes to their home, a fence has its release step; a store at a point that no
earlier one of its bytes precedes goes to the die point, then to its home; caches may drop a line; a waiting word is
tried again. It rests on choices of the model, logs 7, 36, 38 and 87. -/
def Obligations.StoresMove : Prop :=
  (∀ (q : Who) (s : State) (x : Qx) (h : SqEntry) (r : List SqEntry), s.stq? q = some x → x.g.stq = h :: r →
    (h.kind = .store → x.staged = false → (∀ y ∈ h.elems, s.atomHolds x h y = false) →
      exec (.storeToCorePoint q) s =
        .next ((h.elems.foldl (fun t y => t.toCore x.bid x.core h.src y) s).setHead x.w none)) ∧
    (∀ scope k, h.kind = .fence scope k → (x.redundant = false ∨ scope = .block) →
      let ready : Prop := ∀ y ∈ h.elems, s.atomPending x.bid y.idx h.pos = false ∧ s.homeAny x.bid y.idx = false
      let sent : Prop := scope ≠ .system ∨ ∀ y ∈ h.elems, s.sysReady x.bid y.idx = true
      let t := s.releaseStep x h scope
      let u := if x.staged then t.onBlock x.bid fun b => h.elems.foldl (fun (b : Block) y => b.fenced y.idx) b else t
      (ready → sent → exec (.storeToCorePoint q) s = .next ((u.setHead x.w none).fencePass x h scope)) ∧
      (ready → ¬sent → exec (.storeToCorePoint q) s = .next (s.flush x.core scope)) ∧
      (¬ready → exec (.storeToCorePoint q) s = .next s))) ∧
  (∀ (s : State) (bid core pa : Nat) (src : Origin) (y : SqElem), y.loc = .pa pa →
    ((s.toCore bid core src y).core core).point = (s.core core).point ++ [⟨bid, y.idx, pa, y.va, y.bytes, src, []⟩]) ∧
  (∀ (s : State) (core i : Nat) (y : PtStore), (s.core core).point[i]? = some y →
    let before : Prop := ∃ z ∈ (s.core core).point.take i, overlaps y.pa y.bytes.length z.pa z.bytes.length = true
    (before → exec (.storeToDiePoint core i) s = .next s) ∧
    (¬before →
      let c := { s.core core with
        point := dropAt (s.core core).point i, lcache := (s.core core).lcache.map (Line.take y) }
      exec (.storeToDiePoint core i) s = .next ((s.setCore c).toDie (coreDie core) y))) ∧
  (∀ (s : State) (die i : Nat) (y : PtStore), (s.die die).point[i]? = some y →
    let before : Prop := ∃ z ∈ (s.die die).point.take i, overlaps y.pa y.bytes.length z.pa z.bytes.length = true
    (before → exec (.storeToHome die i) s = .next s) ∧
    (¬before → answersOnly y.pa = false → exec (.storeToHome die i) s =
      .next ((s.onDie die fun k => { k with point := dropAt k.point i }).homeWrite y.pa y.bytes))) ∧
  (∀ (s : State) (core i : Nat),
    (i < (s.core core).lcache.length → exec (.loadCacheDrop core i false) s =
      .next (s.setCore { s.core core with lcache := dropAt (s.core core).lcache i })) ∧
    (i < (s.core core).fcache.length → exec (.loadCacheDrop core i true) s =
      .next (s.setCore { s.core core with fcache := dropAt (s.core core).fcache i }))) ∧
  ∀ (q : Who) (s : State),
    let again (st : Stat) : State := s.onUnit q fun u => if u.stat = st then { u with stat := .ready } else u
    exec (.parkResume q) s = .next (again .parked) ∧ exec (.sharedLoadRead q) s = .next (again .sharedWait) ∧
    exec (.forwardedValue q) s = .next (again .fwdWait)

/-- R114, R132, R223, R250, R365: a reduction element whose bytes no earlier request at the home acts on is performed
there and leaves its request; an add-on-store is performed whole, after the matrix words issued before it on its tile,
and reports, kind 4, once for each watchpoint of its context that it touches. In memory and in a scratchpad the bytes
become what the row says of them, and an add-on-store's sum is formed exactly and rounded or clamped once; beyond the
fabric the operand is sent. It rests on choices of the model, logs 20, 35 and 36. -/
def Obligations.ReductionsPerform : Prop :=
  (∀ (s : State) (h : HomeReq) (op i : Nat) (rel : Option Scope) (y : SqElem), s.homeq.find? (·.hid == h.hid) = some h →
    h.entry.kind = .red op rel → h.entry.elems[i]? = some y → s.homeBlocked h [y] = false →
    (∀ z ∈ h.entry.elems.take i, sharesByte h.bid h.bid h.entry.kind h.entry.kind y z = false) →
    let t := s.homePerform h.bid h.core h.entry.src h.entry.kind y
    let left (k : HomeReq) : Option HomeReq :=
      if k.hid ≠ h.hid then some k
      else if dropAt k.entry.elems i = [] then none
      else some { k with entry := { k.entry with elems := dropAt k.entry.elems i } }
    exec (.quietReductionPerform h.hid i) s = .next { t with homeq := t.homeq.filterMap left }) ∧
  (∀ (s : State) (h : HomeReq) (k40 : Bool) (tile : Nat), s.homeq.find? (·.hid == h.hid) = some h →
    h.entry.kind = .addon k40 tile → s.homeBlocked h h.entry.elems = false → s.stillQueued h.bid h.entry.pos = false →
    s.matrixBefore h tile = false →
    let t := h.entry.elems.foldl (fun (t : State) y => t.homePerform h.bid h.core h.entry.src (.addon k40 tile) y) s
    let u := { t with homeq := t.homeq.filter (·.hid != h.hid) }
    exec (.addOnStorePerform h.hid) s = .next (u.addonWatch h.bid h.entry h.entry.elems)) ∧
  (∀ (s : State) (b : Block) (l : Launch) (q : SqEntry) (es : List SqElem),
    s.block? b.bid = some b → s.launch? b.lid = some l →
    let wps := (nth s.dbg l.ctx.part ⟨[], [], false, []⟩).wps
    -- the address at which the bytes touch watchpoint i, where it has not been reported for them
    let touches (i : Nat) : Option W64 := if i ∈ q.seen then none
      else (nth wps i none).bind fun w => (es.find? fun x => w.hits l.ctx.desc 1 x.va.toNat 4).map (·.va)
    let reports (t : State) (va : W64) : State := (t.trigger l.ctx 2).report l.ctx
      (reportImage l b.num q.word.toNat va.toNat (nameOf q.src.lanes q.is) 4 0 0) none
    ((∀ i, i < wps.length → touches i = none) → s.addonWatch b.bid q es = s) ∧
    (∀ i va, i < wps.length → touches i = some va → (∀ k, k < wps.length → k ≠ i → touches k = none) → s.primary b = true →
      s.addonWatch b.bid q es = (reports s va).onParts b.bid q.pos fun q => { q with seen := q.seen ++ [i] })) ∧
  (∀ (s : State) (b : Block) (core o op tile : Nat) (src : Origin) (rel : Option Scope) (k40 : Bool) (y : SqElem),
    s.block? b.bid = some b → y.loc = .spad o → y.rel = 0 →
    (y.bytes.length = 4 → s.homePerform b.bid core src (.red op rel) y =
      s.spadWrite b.bid o (leBytes 4 (laNew op (b.spad.nat o 4) (leNat y.bytes) 0))) ∧
    s.homePerform b.bid core src (.addon k40 tile) y =
      s.spadWrite b.bid o (leBytes 4 (addOn k40 (b.spad.nat o 4) (BitVec.ofNat 40 (leNat y.bytes))))) ∧
  (∀ (s : State) (bid core a op tile : Nat) (src : Origin) (rel : Option Scope) (k40 : Bool) (y : SqElem),
    y.loc = .pa a → y.rel = 0 →
    let acts (n : Nat) (kind : SqKind) (new : Nat → Nat) (far : Nat × W64) : Prop :=
      let bytes := leBytes n (new (s.homeNat a n))
      let t := s.homePerform bid core src kind y
      (isFabric a = true → t = s.send ⟨bid, y.idx, a, y.va, y.bytes, src, []⟩ (some far)) ∧
      (isFabric a = false → t = ((s.arrive ⟨bid, y.idx, a, y.va, bytes, src, []⟩).dropLine (fun c => c == core) a n).countBy
        bid core y.idx src y.va a y.mig) ∧
      (isDram a = true → y.mig = false → t.mem = s.mem.writeN a bytes)
    (y.bytes.length = 4 → acts 4 (.red op rel) (fun m => laNew op m (leNat y.bytes) 0) (op, 0)) ∧
    acts 4 (.addon k40 tile) (fun m => addOn k40 m (BitVec.ofNat 40 (leNat y.bytes))) (if k40 then 65 else 64, 0)) ∧
  ∀ (m : Nat) (x : W40),
    (addOn true m x < 2 ^ 32 ∧
      sext 32 (addOn true m x) = max (-2 ^ 31) (min (2 ^ 31 - 1) (sext 32 m + sext 40 x.toNat))) ∧
    addOn false m x = Fmt.f32.roundRn (FV.add .rn (Fmt.f32.value m) (Fmt.w40.value x.toNat))

/-- R95, R96, R259, R260, R261: transaction barriers. TBINIT writes fresh barriers, TBARR's update enters the threads'
queue behind their stores (R124), TBWAIT goes on when its phase is done and sleeps until then, TBTEST writes whether
it is. The update itself moves ARR and SEC and, where both reach zero, starts the next phase from INIT. It rests on
choices of the model, logs 21, 37 and 38. -/
def Obligations.TransactionBarriers : Prop :=
  (∀ (a b : RegN) (pd : PredN) (ring decl par : Bool) (st : BitVec 2),
    let sh (wide : Bool) (out : List Nat) : Env → Shape := fun _ =>
      { firsts := a.toNat :: regsOf wide b.toNat, pdsts := out, lat := none, gap := gapOf st none }
    let off (x : Env) : Nat := x.val false a.toNat x.first
    let lead (x : Env) : Nat := x.val false b.toNat x.first
    let one (wide : Bool) (x : Env) : Prop :=
      x.grp.span = false ∨ x.solo = true ∨ (x.uniform false a.toNat = true ∧ x.uniform wide b.toNat = true)
    let inside (n : Nat) (x : Env) : Prop := off x % n = 0 ∧ off x + n ≤ x.spadLen
    let quiet (x : Env) (n : Nat) : Prop := ∀ p ∈ x.members, x.grp.arriving (x.idx p) (.spad (off x)) n = false
    let n : Nat := if ring then 32 else 16
    let c (x : Env) : Nat := x.val ring b.toNat x.first
    let ok (v : Nat) : Prop := 1 ≤ v ∧ v ≤ 2 ^ 20 - 1
    let valid (x : Env) : Prop := ok (c x % 2 ^ 32) ∧ (ring = true → ok (c x / 2 ^ 32))
    let test (s : State) (x : Env) (k : Block) : Prop := one false x ∧ inside 16 x ∧ quiet x 16 ∧ s.block? x.bid = some k
    let stops (x : Env) (k : Block) : Prop := bit (k.tb (off x)) 29 = true ∨ (par = true ∧ bit (k.tb (off x)) 28 = false)
    let is7 : List Nat := if pd.toNat < 7 then [pd.toNat] else []
    Completes (.tbinit a b ring st) (sh ring []) (fun s x => one ring x ∧ inside n x ∧ valid x ∧ quiet x n ∧
        ∀ p ∈ x.members, x.grp.waiting (x.idx p) s.tick (·.on (x.idx p) (.spad (off x)) n) = false ∧
          s.homeOn x.bid (x.idx p) (.spad (off x)) n = false)
      (fun s x => ((s.onBlock x.bid fun k =>
        if ring then (k.tbInit (off x) (c x % 2 ^ 32) true).tbInit (off x + 16) (c x / 2 ^ 32) true
        else k.tbInit (off x) (c x % 2 ^ 32) false).tbWake x.bid, x)) ∧
    Traps (.tbinit a b ring st) (sh ring []) (fun _ x => one ring x ∧ inside n x ∧ ¬valid x) 10
      (fun x => BitVec.ofNat 64 (off x)) ∧
    Completes (.tbarr a b decl st) (sh false []) (fun _ x => one false x ∧ inside 16 x)
      (fun s x => (s, { x with grp := { x.grp with stq := x.grp.stq ++ x.members.map fun p =>
        ⟨.tbarr (off x) (if decl then 0 else x.count) (sext 32 (lead x)),
          [⟨x.idx p, 0, .priv (x.idx p) 0, [], false, 0⟩], s.tick, x.origin, [], []⟩ } })) ∧
    (∀ k, Completes (.tbwait a b par st) (sh false [])
      (fun s x => test s x k ∧ ¬stops x k ∧ tbDone (k.tb (off x)) (lead x) par = true)
      (fun s x => (s.tbAcquire x k (off x) (lead x) par, x))) ∧
    (∀ k, Moves (.tbwait a b par st) (sh false [])
      (fun s x => test s x k ∧ ¬stops x k ∧ tbDone (k.tb (off x)) (lead x) par = false)
      (fun s x => s.onUnit x.who fun u => { u with stat := .tbwait })) ∧
    ∀ k s e, Executes s (sh false is7 e) e →
      let t := (s.prepare e (sh false is7 e)).1
      let x := (s.prepare e (sh false is7 e)).2
      test t x k → ¬stops x k →
      let fin := tbDone (k.tb (off x)) (lead x) par
      ∃ r : PRes, (∀ p ∈ e.members, p < 32 ∨ e.grp.span = true → r.at e.grp.lo p = fin) ∧
        exec (.tbtest pd a b par st) s = .next ((if fin then t.tbAcquire x k (off x) (lead x) par else t).finish
          (x.pwrite pd.toNat r) e.grp (sh false is7 e))) ∧
  (∀ n ring, n < 2 ^ 20 → bits (tbFresh n ring) 3 0 = 0 ∧ bits (tbFresh n ring) 27 8 = n ∧
    bit (tbFresh n ring) 28 = ring ∧ bit (tbFresh n ring) 29 = false ∧ bits (tbFresh n ring) 63 32 = 0 ∧
    bits (tbFresh n ring) 83 64 = n ∧ bits (tbFresh n ring) 127 84 = 0) ∧
  (∀ (x darr : Nat) (dsec : Int), x < 2 ^ 128 → bit x 29 = false → bits x 127 84 = 0 → bits x 31 30 = 0 → bits x 7 4 = 0 →
    let arr := bits x 27 8
    let sec := sext 32 (bits x 63 32) + dsec
    let y := (tbUpdate x darr dsec).1
    darr ≤ arr → -2 ^ 31 ≤ sec → sec < 2 ^ 31 →
    bit y 29 = false ∧ bits y 83 64 = bits x 83 64 ∧ bit y 28 = bit x 28 ∧
    (arr = darr ∧ sec = 0 → (tbUpdate x darr dsec).2 = true ∧ bits y 3 0 = (bits x 3 0 + 1) % 16 ∧
      bits y 27 8 = bits x 83 64 ∧ bits y 63 32 = 0) ∧
    (¬(arr = darr ∧ sec = 0) → (tbUpdate x darr dsec).2 = false ∧ bits y 3 0 = bits x 3 0 ∧ bits y 27 8 = arr - darr ∧
      sext 32 (bits y 63 32) = sec)) ∧
  ∀ (x q : Nat),
    (tbDone x q true = decide (x % 2 = q % 2)) ∧
    (tbDone x q false = decide (1 ≤ (bits x 3 0 + 16 - q % 16) % 16 ∧ (bits x 3 0 + 16 - q % 16) % 16 ≤ 8))

/-! ### Engines -/

/-- R129, R130, R241, R245, R246, R248, R249, R250, R251: the matrix words. MMA and MMAB issue a request with their
rows, MCFG sets the configuration, MZERO and MWRITE leave a tile zero or with the written elements, MREAD gives each
thread an element, MDRAIN issues one request per thread or one add-on-store entry, MWAIT and OFENCE hold their threads
until what they wait for is over; a control core runs MCFG, MWAIT.all and OFENCE too. It rests on choices of the model,
logs 30, 47, 48, 51 and 71. -/
def Obligations.MatrixWords : Prop :=
  ∀ (tile resv : BitVec 4) (zero diag i32 k40 all : Bool) (a b d : RegN) (mask : PredN) (mode : MreadMode) (st : BitVec 2),
    let t := tile.toNat
    let sh (ok : List Nat) (ranged : Bool) (srcs firsts dsts : List Nat) : Env → Shape := fun e =>
      { srcs := srcs, firsts := firsts, dsts := dsts, pre := roleTrap ok e, lat := none, gap := gapOf st none
        post := if ranged then tileTrap t e else none }
    let lead (x : Env) (r : RegN) : Nat := x.val false r.toNat x.first
    let one (x : Env) : Prop := x.laned ∨ x.count ≤ 1
    let A (x : Env) (p : Nat) : Nat := x.val false a.toNat p
    let place (x : Env) (r : RegN) (p : Nat) : Nat := 32 * x.laneOf p + x.val false r.toNat p % 32
    let mma : Instr := if diag then .mmab tile zero a resv mask st else .mma tile zero a resv mask st
    let rows (x : Env) : List (Nat × Nat) := x.members.map fun p => (x.laneOf p, bits (A x p) 20 0)
    let slice (x : Env) : Nat := bits (A x x.first) 31 24
    (∀ (r : Resv) (k : Block), Completes mma (sh [2] true [a.toNat] [] [])
      (fun s x =>
        let cfg := (s.myPart x).mcfg
        let c := rrecOf r.record
        let g := alongOf (cfgPack cfg) c.pack (slice x)
        (x.laned ∨ x.grp.windows.length ≤ 1) ∧ (s.myPart x).res resv.toNat = some r ∧ s.block? x.bid = some k ∧
        cfgOk cfg = true ∧ (cfgPack cfg).float = c.pack.float ∧ g.k0 + g.k ≤ c.kr ∧ s.fenced x = false ∧
        ∀ p ∈ x.members, bits (A x p) 20 0 % 4 = 0 ∧ bits (A x p) 23 21 = 0 ∧
          rowBad x.spadLen cfg c g diag (x.laneOf p) (bits (A x p) 20 0) = none)
      (fun s x =>
        let cfg := (s.myPart x).mcfg
        let c := rrecOf r.record
        let g := alongOf (cfgPack cfg) c.pack (slice x)
        let m : MatReq := ⟨diag, t, resv.toNat, r.record, mask.toNat, zero, slice x, rows x, cfg, a.toNat⟩
        let unseen : Bool := r.await.isSome && !x.members.all fun p => r.seen.contains (x.idx p)
        (((s.tileWritten x t).maskRead x mask.toNat).engIssue x (.matrix m)
          ((rows x).map fun y => sliceOf (cfgPack cfg) g y.2) []
          (!c.bound && (!r.filled || k.filling x.part resv.toNat || unseen)), x))) ∧
    Completes (.mcfg a st) (sh [2] false [] [a.toNat] [])
      (fun _ x => (x.laned ∨ x.uniform false a.toNat = true) ∧ cfgOk (BitVec.ofNat 32 (lead x a)) = true)
      (fun s x => (s.onBlock x.bid fun k => k.onPart x.part fun p => { p with mcfg := BitVec.ofNat 32 (lead x a) }, x)) ∧
    Traps (.mcfg a st) (sh [2] false [] [a.toNat] [])
      (fun _ x => (x.laned ∨ x.uniform false a.toNat = true) ∧ cfgOk (BitVec.ofNat 32 (lead x a)) = false) 11
      (fun x => BitVec.ofNat 64 x.unit.word) ∧
    Completes (.mzero tile k40 st) (sh [2] true [] [] []) (fun _ _ => True)
      (fun s x => (((s.onBlock x.bid fun k => k.onPart x.part fun p =>
        p.onTile t fun _ => ⟨some k40, false, none, []⟩).tileUsed x t).tileWritten x t, x)) ∧
    (let srcs := if mode = .sat then [] else [a.toNat]
     ∀ s e, Executes s (sh [2, 3] true srcs [] [d.toNat] e) e →
      let s' := (s.prepare e (sh [2, 3] true srcs [] [d.toNat] e)).1
      let x := (s.prepare e (sh [2, 3] true srcs [] [d.toNat] e)).2
      let u := s'.tileUsed x t
      (one x ∨ mode = .sat) →
      ∃ r : Res, r.wide = false ∧
        (∀ k, s'.block? x.bid = some k → k.tilePending x.part t = false →
          ∀ p ∈ e.members, ∀ v, ((u.myPart x).tile t).readAs mode (place x a p) = some v → r.at p = wrap 32 v) ∧
        exec (.mread d a tile mode st) s =
          .next ((u.spend 32).finish (x.write d.toNat r) e.grp (sh [2, 3] true srcs [] [d.toNat] e))) ∧
    Completes (.mwrite tile a b i32 st) (sh [2, 3] true [a.toNat, b.toNat] [] []) (fun _ x => one x)
      (fun s x =>
        let v (p : Nat) : Nat := if i32 then wrap 40 (sext 32 (A x p)) else Fmt.w40.roundRn (Fmt.f32.value (A x p))
        let set (y : Tile) : Tile := x.members.foldl (fun y p => y.setElem (place x b p) (BitVec.ofNat 40 (v p))) y
        (((s.onBlock x.bid fun k => k.onPart x.part fun p => p.onTile t fun y => { set y with tag := some i32, sat := false }
          ).tileUsed x t).tileWritten x t, x)) ∧
    (∀ add k, let sh := sh [2, 3] true [a.toNat, a.toNat + 1] [b.toNat] []
      let va (x : Env) (p : Nat) : Nat := x.val true a.toNat p
      let n (x : Env) : Nat := if add then 128 else drainBytes (lead x b)
      let u (s : State) (x : Env) : State := (s.spend 2).tileUsed x t
      let elem (s : State) (x : Env) (p j : Nat) : W40 := (((u s x).myPart x).tile t).elem (32 * x.laneOf p + j)
      let walked (s : State) (x : Env) : Walked := x.members.foldl (fun (w : Walked) p =>
        (rowVas (va x p)).foldl (fun w c => Walked.one x x.ctx .readWrite 4 w p c) w) ⟨(u s x).spend 4096, [], [], [], false⟩
      let ok (s : State) (x : Env) : Prop := one x ∧ ((s.myPart x).tile t).tag = some k ∧ s.fenced x = false ∧
        (((u s x).myPart x).tile t).tag.isSome ∧ (∀ k, s.block? x.bid = some k → k.tilePending x.part t = false) ∧ drainOk (lead x b) k add = true ∧
        (∀ p ∈ x.members, va x p % 8 = 0 ∧ addrOk x.spadLen 0 (va x p) (n x) true = true) ∧
        ∀ l, x.launch = some l → l.staged = false
      (add = false → Completes (.mdrain tile a b add st) sh ok (fun s x => (((u s x).spend 4096).drainPlain x t (va x)
        fun p => packCodes (n x / 4) ((upto 0 32).map fun j => drainCode (lead x b) k (elem s x p j)), x))) ∧
      (add = true → Completes (.mdrain tile a b add st) sh
        (fun s x => ok s x ∧ (walked s x).later = false ∧ (walked s x).fails = [] ∧ (walked s x).chip = [] ∧
          ∀ y ∈ (walked s x).els, x.reaches (walked s x).s y = true)
        (fun s x =>
          let w := walked s x
          let row : List SqElem := w.els.map fun y => ⟨x.idx y.pos, BitVec.ofNat 64 y.va, y.loc,
            leBytes 5 (elem s x y.pos ((y.va - va x y.pos) / 4)).toNat, y.mig, 0⟩
          (w.s, { x with grp := { x.grp with stq := x.grp.stq ++ [⟨.addon k t, row, w.s.tick, x.origin,
            x.members.map x.idx, []⟩] } })))) ∧
    (let on : Option Nat := if all then none else some t
     let sh := sh [2, 3] (!all) [] [] []
     let busy (s : State) (x : Env) : Prop :=
      (∃ k, s.block? x.bid = some k ∧ ∃ r ∈ k.eng, r.fin = false ∧ r.onTile on = true ∧ x.issued r = true) ∨
      ∃ p ∈ x.members, (∃ q ∈ x.grp.stq, q.drains on (x.idx p) = true) ∨
        ∃ h ∈ s.homeq, h.bid = x.bid ∧ h.entry.drains on (x.idx p) = true
     Completes (.mwait tile all st) sh (fun s x => ¬busy s x) (fun s x =>
      ((s.waited x fun r => r.onTile on).onBlock x.bid fun b => x.members.foldl (fun (b : Block) p =>
        b.observe (x.idx p) fun w => match w with
          | .tile k => on.isNone || on == some k
          | _ => false) b, x)) ∧
     ∀ s e, Executes s (sh e) e → busy (s.prepare e (sh e)).1 (s.prepare e (sh e)).2 → exec (.mwait tile all st) s = .next s) ∧
    (let sh := sh [2] false [] [] []
     let spad (x : Env) (q : SqEntry) : Prop := ∃ y ∈ q.elems, (∃ p ∈ x.members, x.idx p = y.idx) ∧ ∃ o, y.loc = .spad o
     let busy (s : State) (x : Env) : Prop := (∃ q ∈ x.grp.stq, spad x q) ∨ ∃ h ∈ s.homeq, h.bid = x.bid ∧ spad x h.entry
     Completes (.ofence st) sh (fun s x => ¬busy s x) (fun s x => (s, x)) ∧
     ∀ s e, Executes s (sh e) e → busy (s.prepare e (sh e)).1 (s.prepare e (sh e)).2 → exec (.ofence st) s = .next s)

/-- R77 to R81, R130, R131, R242, R244, R245: a matrix word whose mask bit is clear leaves its tile at once. One that
acts, the oldest on its tile, once no fill of its reservation comes before it, updates its tile: each element of its
rows and columns takes the steps of R80, one per group along K, rounded once in W40 or clamped in K40, and every other
element stays; what it gathers counts as read. One a disturbing use has reached, of what it gathers or of its mask
register, leaves only the elements it updates undefined. It rests on choices of the model, logs 47 and 71. -/
def Obligations.MatrixPerforms : Prop :=
  (∀ (s : State) (bid : Nat) (x : Eng) (m : MatReq), s.eng? bid x.r.rid = some x → x.r.kind = .matrix m → m.mask ≤ 8 →
    let older (r : EReq) : Prop := r.rid < x.r.rid ∧ r.fin = false ∧ r.part = x.r.part
    let tiled (r : EReq) : Prop := older r ∧ ∃ k, r.kind = .matrix k ∧ k.tile = m.tile
    let fills (r : EReq) : Prop := older r ∧ ∃ o secs, r.kind = .fill o secs ∧ o = m.resv
    let p := nth x.b.parts x.r.part ⟨[], [], [], 0, []⟩
    let on : Prop := m.mask = 7 ∨ (m.mask < 7 ∧ bit (nth p.masks m.mask 0).toNat (rrecOf m.record).keyTile = true)
    let leaves (s : State) (f : Tile → Tile) : State :=
      (s.onBlock bid fun b => b.onPart x.r.part fun q => q.onTile m.tile f)
    let go := exec (.matrixPerform bid x.r.rid) s
    (m.mask < 7 → ¬on → go = .next (s.engFinish bid { x.r with kind := .matrix { m with rows := [] } })) ∧
    (on → (∃ r ∈ x.b.eng, tiled r ∨ fills r) → go = .next s) ∧
    (on → (∀ r ∈ x.b.eng, ¬tiled r ∧ ¬fills r) →
      (x.r.undef = false → x.b.spadBad m.reads = none →
        go = .next ((m.reads.foldl (fun (t : State) y => t.touchOuts bid y.1 y.2) (leaves s (matTile x.b p m))).engFinish bid x.r)) ∧
      (x.r.undef = true → ∃ f : Tile → Tile, go = .next (((leaves s f).spend 2048).engFinish bid x.r) ∧
        ∀ t, (∀ e, e ∉ m.elems → (f t).elem e = t.elem e) ∧ (f t).tag = some (!(cfgPack m.cfg).float) ∧
          (t.sat = true → m.zero = false → (f t).sat = true))) ∧
    (m.mask = 8 → (∀ r ∈ x.b.eng, ¬tiled r) → ∃ f : Tile → Tile, go = .next (((leaves s f).spend 2048).engFinish bid x.r) ∧
      ∀ t e, e ∉ m.elems → (f t).elem e = t.elem e)) ∧
  (∀ (b : Block) (p : Part) (m : MatReq) (t : Tile), (m.rows.map (·.1)).Nodup → (∀ y ∈ m.rows, y.1 < 32) →
    let r := rrecOf m.record
    let pa := cfgPack m.cfg
    let pb := r.pack
    let g := alongOf pa pb m.slice
    let u := matTile b p m t
    let spad (a : Nat) : Nat := (b.spad.read a).toNat
    let buf (a : Nat) : Nat := if a < 64 * r.units then (p.obuf.read (r.start + a)).toNat else 0
    let A (y : Nat × Nat) (k : Nat) : Nat := pa.code spad y.2 k
    let B (j k : Nat) : Nat := pb.code buf (j * r.cb) k
    let ks (i : Nat) : List Nat := upto (g.k0 + i * g.d) g.d
    let scA (y : Nat × Nat) (k : Nat) : FV :=
      if aScaled m.cfg then scaleValue (spad (scaleA m.cfg y.2 k).toNat) else .fin false 1 0
    let scB (k j : Nat) : FV := if bScaled m.cfg r then scaleValue (spad (scaleB r k j)) else .fin false 1 0
    let stepF (y : Nat × Nat) (j c i : Nat) : Nat :=
      let sum := sumFv ((ks i).map fun k => FV.mul (pa.fv (A y k)) (pb.fv (B j k)))
      Fmt.w40.roundRn (FV.add .rn (Fmt.w40.value c)
        (FV.mul (FV.mul sum (scA y (g.k0 + i * g.d))) (scB (g.k0 + i * g.d) j)))
    let sumI (y : Nat × Nat) (j i : Nat) : Int :=
      ((ks i).map fun k => pa.int (bit m.cfg.toNat 8) (A y k) * pb.int r.mid (B j k)).sum
    let stepI (y : Nat × Nat) (j c i : Nat) : Nat :=
      wrap 40 (max (-2 ^ 39) (min (2 ^ 39 - 1) (sext 40 c + sumI y j i)))
    let start (y : Nat × Nat) (j : Nat) : Nat := if m.zero then 0 else (t.elem (32 * y.1 + j)).toNat
    let after (y : Nat × Nat) (j n : Nat) : Nat :=
      (upto 0 n).foldl (fun c i => if pa.float then stepF y j c i else stepI y j c i) (start y j)
    let meets (y : Nat × Nat) (j : Nat) : Prop := j < 32 ∧ (m.diag = true → j / 2 = y.1 / 2)
    u.tag = some (!pa.float) ∧
    (∀ y ∈ m.rows, ∀ j, meets y j → (u.elem (32 * y.1 + j)).toNat = after y j (g.k / g.d)) ∧
    (∀ e, (∀ y ∈ m.rows, ∀ j, meets y j → e ≠ 32 * y.1 + j) → u.elem e = t.elem e) ∧
    (u.sat = true ↔ (t.sat = true ∧ m.zero = false) ∨ (pa.float = false ∧ ∃ y ∈ m.rows, ∃ j i, meets y j ∧ i < g.k / g.d ∧
      let v := sext 40 (after y j i) + sumI y j i
      (v < -2 ^ 39 ∨ 2 ^ 39 - 1 < v)))) ∧
  (∀ (x : FV) (l : List FV),
    ((∃ y ∈ x :: l, y.isNan = true) ∨ (FV.inf true ∈ x :: l ∧ FV.inf false ∈ x :: l) ↔ (sumFv (x :: l)).isNan = true) ∧
    (∀ z, (∀ y ∈ x :: l, y.isNan = false ∧ y ≠ .inf (!z)) → .inf z ∈ x :: l → sumFv (x :: l) = .inf z) ∧
    ((∀ y ∈ x :: l, y.isZero = true ∧ y.sign = true) ↔ (sumFv (x :: l)).isZero = true ∧ (sumFv (x :: l)).sign = true) ∧
    ∀ fs : List (Bool × Nat × Int), x :: l = fs.map (fun y => FV.fin y.1 y.2.1 y.2.2) → ∃ s n e, sumFv (x :: l) = .fin s n e ∧
      ((smant s n : Int) : Rat) * 2 ^ e = (fs.map fun y => ((smant y.1 y.2.1 : Int) : Rat) * 2 ^ y.2.2).sum) ∧
  ∀ (s t : Bool) (n : Nat) (e : Int),
    FV.mul (.inf s) (.fin t n e) = (if n = 0 then .nan else .inf (s != t)) ∧
    FV.mul (.fin t n e) (.inf s) = (if n = 0 then .nan else .inf (t != s))

/-- R91, R95, R99, R102, R240, R252 to R258: reservations and copies. OBRES and OBBIND read their record, whose fill
starts where it names a handle, OBREL ends a reservation, and CPY, CPYS and FETCH that pass their checks issue their
copy. A sector whose sources have been read is written, its presence bit and barrier changing in the same step, and a
fill whose sectors are all written is over; a control core runs OBREL too. It rests on choices of the model, logs 30,
32, 50, 51, 52 and 53. -/
def Obligations.ReservationsAndCopies : Prop :=
  (∀ (resv : BitVec 4) (a c : RegN) (arv : Bool) (st : BitVec 2),
    let o := resv.toNat
    let sh (role : Nat) (srcs firsts : List Nat) : Env → Shape := fun e =>
      { firsts := firsts, srcs := srcs, pre := roleTrap [role] e, lat := none, gap := gapOf st none }
    let off (x : Env) : Nat := x.val false a.toNat x.first
    let one (x : Env) : Prop := x.laned ∨ x.uniform false a.toNat = true
    let read (x : Env) (k : Block) : Nat := x.spadLoad k (off x) 32
    let u (s : State) (x : Env) : State := s.touch x 32 false [⟨x.first, 0, .spad (off x), false⟩]
    let readable (s : State) (x : Env) (k : Block) : Prop := off x % 32 = 0 ∧ off x + 32 ≤ x.spadLen ∧
      s.block? x.bid = some k ∧ k.absentAt (off x) 32 = false ∧ sectorBad k.sums (off x / 32) = false ∧
      ∀ p ∈ x.members, s.loadWaits x ⟨p, 0, .spad (off x), false⟩ 32 = false
    let binds (s t : State) (x : Env) (r : RRec) (h : Handle) : Prop := r.bound = true ∧
      s.handleAt x r.handle = .entry t h ∧ rangeOut x.spadLen false (((h.rows r.coords).take 32).flatMap h.ranges) = none ∧
      h.peer = false ∧ h.coordOk r.coords = true ∧ bindOk h r = true
    let free (s : State) (x : Env) (k : Block) : Prop := ((u s x).myPart x).res o = none ∧
      resvOk (BitVec.ofNat 256 (read x k)) (x.ofLaunch Launch.obuf)
        (((u s x).myPart x).resv.filterMap fun v => v.map fun y => rrecOf y.record) = true
    (∀ k, Completes (.obres resv a st) (sh 2 [] [a.toNat])
      (fun s x => one x ∧ readable s x k ∧ free s x k ∧ (rrecOf (BitVec.ofNat 256 (read x k))).bound = false)
      (fun s x => ((u s x).setResv x o (some ⟨BitVec.ofNat 256 (read x k), false, none, []⟩), x))) ∧
    (∀ k t h, Completes (.obres resv a st) (sh 2 [] [a.toNat])
      (fun s x => one x ∧ readable s x k ∧ free s x k ∧ binds (u s x) t x (rrecOf (BitVec.ofNat 256 (read x k))) h)
      (fun _ x => ((t.setResv x o (some ⟨BitVec.ofNat 256 (read x k), false, none, []⟩)).startFill x o
        (rrecOf (BitVec.ofNat 256 (read x k))) h, x))) ∧
    (∀ k v, let r (x : Env) : RRec := rrecOf (rebind v.record (BitVec.ofNat 256 (read x k)))
      Completes (.obbind resv a st) (sh 2 [] [a.toNat])
      (fun s x => one x ∧ readable s x k ∧ ((u s x).myPart x).res o = some v ∧ (r x).bound = false)
      (fun s x => ((((u s x).resvUsed x o).dropFill x o).setResv x o
        (some { v with record := rebind v.record (BitVec.ofNat 256 (read x k)) }), x))) ∧
    (∀ k v t h, let image (x : Env) : BitVec 256 := rebind v.record (BitVec.ofNat 256 (read x k))
      Completes (.obbind resv a st) (sh 2 [] [a.toNat])
      (fun s x => one x ∧ readable s x k ∧ ((u s x).myPart x).res o = some v ∧ binds (u s x) t x (rrecOf (image x)) h)
      (fun _ x => ((((t.resvUsed x o).dropFill x o).setResv x o (some ⟨image x, false, none, []⟩)).startFill x o
        (rrecOf (image x)) h, x))) ∧
    Completes (.obrel resv st) (sh 2 [] []) (fun _ _ => True)
      (fun s x => ((((s.resvUsed x o).dropFill x o).forgetFill x o).setResv x o none, x)) ∧
    (let passes (s t : State) (x : Env) (k : Block) (w : CopyWord) (d : CDesc) (h : Handle) (c1 : Nat → Nat) : Prop :=
      d.spad % 16 = 0 ∧ d.pitch % 16 = 0 ∧ (∀ b, d.bar = some b → b % 16 = 0 ∧ b + 16 ≤ x.spadLen) ∧
      s.handleAt x d.handle = .entry t h ∧ (∀ r ∈ d.rows w x h c1, d.rowOut w x h r = none) ∧ h.coordOk d.coords = true ∧
      (h.peer = true → w = .cpys ∧ x.ofLaunch Launch.progress = 2 ∧ (t.peerOf k h).isSome) ∧ d.bad w h arv = false ∧
      (d.toob = true → ∃ v, (t.myPart x).res d.resv = some v ∧ (rrecOf v.record).bound = false ∧
        bindOk h (rrecOf v.record) = true) ∧
      (w = .cpys → h.peer = false → ∀ l, x.launch = some l → l.staged = false)
     let issued (t : State) (x : Env) (k : Block) (w : CopyWord) (d : CDesc) (h : Handle) (c1 : Nat → Nat) : State :=
      t.copyIssue x w d arv h (if h.peer then t.peerOf k h else none) (d.rows w x h c1)
     (∀ k t h, Completes (.cpy a arv st) (sh 1 [] [a.toNat])
      (fun s x => one x ∧ readable s x k ∧ passes (u s x) t x k .cpy (cdescOf (read x k)) h fun _ => 0)
      (fun _ x => (issued t x k .cpy (cdescOf (read x k)) h fun _ => 0, x))) ∧
     (∀ k t h, Completes (.cpys a arv st) (sh 1 [] [a.toNat])
      (fun s x => one x ∧ readable s x k ∧ passes (u s x) t x k .cpys (cdescOf (read x k)) h fun _ => 0)
      (fun _ x => (issued t x k .cpys (cdescOf (read x k)) h fun _ => 0, x))) ∧
     (∀ k t h, Completes (.fetch a c arv st) (sh 1 [c.toNat] [a.toNat])
      (fun s x => one x ∧ (x.laned ∨ x.count ≤ 1) ∧ readable s x k ∧
        passes (u s x) t x k .fetch (cdescOf (read x k)) h (x.val false c.toNat))
      (fun _ x => (issued t x k .fetch (cdescOf (read x k)) h (x.val false c.toNat), x))))) ∧
  (∀ (s : State) (bid : Nat) (x : Eng), s.eng? bid x.r.rid = some x →
    (∀ o secs, x.r.kind = .fill o secs → (∀ c ∈ secs, c.fin = true) → exec (.reservationFill bid x.r.rid) s =
      .next ((s.dropReq bid x.r.rid).onBlock bid fun b => b.onPart x.r.part fun p =>
        { p with resv := p.resv.set o ((p.res o).map fun v => { v with filled := true, await := none, seen := [] }) })) ∧
    (∀ sec first n t vs, x.l.mode = .normal → wanted x.r.kind.secs sec first n ≠ [] →
      s.readSrcs x ((wanted x.r.kind.secs sec first n).map fun w => w.2.2.src) = .vals t vs →
      vs.length = (wanted x.r.kind.secs sec first n).length →
      exec (.copySourceRead bid x.r.rid sec first n) s = .next (t.setReq bid { x.r with
        kind := x.r.kind.withSecs (setVals x.r.kind.secs
          (((wanted x.r.kind.secs sec first n).zip vs).map fun y => (y.1.1, y.1.2.1, y.2))) })) ∧
    (∀ sec c t, x.r.kind.secs[sec]? = some c → c.fin = false → (∀ m ∈ c.moves, m.val.isSome) → x.b.full = none →
      waitsForRow x.r.kind.secs c = false → (∀ b p f o l, x.r.kind ≠ .copy b (some p) f o l) → s.secWrite x sec c = .ok t →
      exec (.sectorPerformed bid x.r.rid (.whole sec)) s = .next (((t.engWatch x c).overtake x c).secDone x sec c true)))

/-- R131, R262 to R267: the SIFT words issue a request over the ranges they read and write, once these are aligned and
inside the scratchpad and their operands keep their limits; SFWAIT holds its threads until theirs are over. The oldest
of its issuers is performed and leaves the words of its rule in the scratchpad, and its mask register. A control core
runs SFCLR.mask and SFWAIT too. It rests on choices of the model, logs 30, 47, 48, 51 and 52. -/
def Obligations.SiftWords : Prop :=
  (∀ (tile : BitVec 4) (m : PredN) (a b : RegN) (only incl : Bool) (st : BitVec 2),
    let sh (firsts : List Nat) (ranged : Bool) : Env → Shape := fun e =>
      { firsts := firsts, pre := roleTrap [3] e, lat := none, gap := gapOf st none
        post := if ranged then tileTrap tile.toNat e else none }
    let A (x : Env) : Nat := x.val false a.toNat x.first
    let B (x : Env) : Nat := x.val false b.toNat x.first
    let one (x : Env) : Prop := x.laned ∨ x.uniform false a.toNat = true
    let two (x : Env) : Prop := x.laned ∨ (x.uniform false a.toNat = true ∧ x.uniform false b.toNat = true)
    let fits (x : Env) (align : Nat) (l : List (Nat × Nat)) : Prop :=
      ∀ y ∈ l, y.1 % align = 0 ∧ (y.2 = 0 ∨ y.1 + y.2 ≤ x.spadLen)
    let desc (x : Env) (k : Block) : Nat := k.spad.nat (A x) 32
    let issue (s : State) (x : Env) (op : SiftOp) (ins outs : List (Nat × Nat)) (mask : Option Nat) (undef : Bool) : State :=
      let crossed (r : EReq) : Bool := r.isSift && !x.members.any (fun p => r.issuers.contains (x.idx p)) &&
        (rangesMeet ins r.outs || rangesMeet outs r.ins ||
          (mask.isSome && mask != some 7 && r.part == x.part && r.maskOf? == mask))
      let held := ((s.block? x.bid).map fun b => b.eng.any fun r => crossed r && !r.fin).getD false
      (s.disturb x.bid crossed).engIssue x (.sift op) ins outs (undef || held)
    let word (i : Instr) (op : BitVec 256 → SiftOp) (ins outs : Nat → List (Nat × Nat)) (ok : Nat → Bool)
        (inPlace : Bool) : Prop := ∀ k, Completes i (sh [a.toNat] false)
      (fun s x => one x ∧ fits x 32 [(A x, 32)] ∧ s.block? x.bid = some k ∧ s.fenced x = false ∧
        s.siftBehind x (A x) 32 = false ∧ fits x 4 (ins (desc x k) ++ outs (desc x k)) ∧ ok (desc x k) = true)
      (fun s x =>
        let is := ins (desc x k)
        let os := outs (desc x k)
        let self : Bool := match os with
          | [y, z] => rangesMeet [y] [z]
          | _ => false
        let lapped := (!(inPlace && is.map (·.1) == os.map (·.1)) && rangesMeet is os) || rangesMeet [(A x, 32)] os || self
        (issue s x (op (BitVec.ofNat 256 (desc x k))) ((A x, 32) :: is) os none lapped, x))
    let four (n : Nat) : Nat := 4 * n
    Completes (.sfclr m a only st) (sh (if only then [] else [a.toNat]) false)
      (fun s x => (only = true ∨ (one x ∧ fits x 16 [(A x, 8320)])) ∧ s.fenced x = false)
      (fun s x => (issue (s.maskWritten x.bid x.part m.toNat) x (.clr m.toNat (if only then 0 else A x) only) []
        (if only then [] else [(A x, 8320)]) (some m.toNat) false, x)) ∧
    (∀ rows cols kt, Completes (.sfmax tile a b st) (sh [a.toNat, b.toNat] true)
      (fun s x => two x ∧ A x % 16 = 0 ∧ fits x 1 [(A x, 4 * rows), (A x + 128 + 128 * kt, 4 * rows)] ∧
        maxCtl (B x) = some (rows, cols, kt) ∧ s.fenced x = false)
      (fun s x => (issue (s.tileUsed x tile.toNat) x (.max tile.toNat (A x) (BitVec.ofNat 32 (B x)))
        [(A x, 4 * rows)] [(A x, 4 * rows), (A x + 128 + 128 * kt, 4 * rows)] none
        (((s.block? x.bid).map fun b => b.tilePending x.part tile.toNat).getD false), x))) ∧
    Traps (.sfmax tile a b st) (sh [a.toNat, b.toNat] true)
      (fun _ x => two x ∧ A x % 16 = 0 ∧ maxCtl (B x) = none) 15 (fun x => BitVec.ofNat 64 x.unit.word) ∧
    Completes (.sfmask m a b st) (sh [a.toNat, b.toNat] false)
      (fun s x => two x ∧ fits x 16 [(A x, 8320)] ∧ s.fenced x = false)
      (fun s x => (issue (s.maskWritten x.bid x.part m.toNat) x (.mask m.toNat (A x) (BitVec.ofNat 32 (B x))) [(A x, 8320)] []
        (some m.toNat) false, x)) ∧
    word (.sftopk a st) .topk (fun x => (topkOf x).ins) (fun x => (topkOf x).outs) (fun x => (topkOf x).ok) false ∧
    word (.sfhist a st) .hist (fun x => [((siftDescOf x).inp, four (siftDescOf x).n)])
      (fun x => [((siftDescOf x).out, four (siftDescOf x).nb)])
      (fun x => (siftDescOf x).ok && (siftDescOf x).out2 == 0 && (siftDescOf x).nb != 0) false ∧
    word (.sfscan a incl st) (fun x => .scan x incl) (fun x => [((siftDescOf x).inp, four (siftDescOf x).n)])
      (fun x => [((siftDescOf x).out, four (if incl then (siftDescOf x).n else (siftDescOf x).n + 1))])
      (fun x => (siftDescOf x).ok && (siftDescOf x).out2 == 0 && (siftDescOf x).nb == 0 && (siftDescOf x).base == 0) incl ∧
    word (.sfperm a st) .perm (fun x => [((siftDescOf x).inp, four (siftDescOf x).n)])
      (fun x => [((siftDescOf x).out, four (siftDescOf x).n), ((siftDescOf x).out2, four (siftDescOf x).n)])
      (fun x => (siftDescOf x).ok && (siftDescOf x).base == 0 && (siftDescOf x).nb != 0) false ∧
    (let busy (s : State) (x : Env) : Prop := ∃ k, s.block? x.bid = some k ∧
      ∃ r ∈ k.eng, r.isSift = true ∧ r.fin = false ∧ x.issued r = true
     Completes (.sfwait st) (sh [] false) (fun s x => ¬busy s x) (fun s x => (s.waited x EReq.isSift, x)) ∧
     ∀ s e, Executes s (sh [] false e) e → busy (s.prepare e (sh [] false e)).1 (s.prepare e (sh [] false e)).2 →
      exec (.sfwait st) s = .next s)) ∧
  (∀ (s : State) (bid : Nat) (x : Eng) (op : SiftOp), s.eng? bid x.r.rid = some x → x.r.kind = .sift op →
    let p := nth x.b.parts x.r.part ⟨[], [], [], 0, []⟩
    let first (r : EReq) : Prop := r.rid < x.r.rid ∧ r.isSift = true ∧ r.fin = false ∧
      ∃ i ∈ r.issuers, i ∈ x.r.issuers
    let put (t : State) (w : Nat × List Nat) : State :=
      let bytes := w.2.flatMap (leBytes 4)
      (t.disturb bid fun r => !r.isSift && meetsAny r.ins w.1 bytes.length).spadPut bid w.1 bytes
    let t := (op.writes x.b p).foldl put (s.maskWritten bid x.r.part op.maskReg)
    ((∃ r ∈ x.b.eng, first r) → exec (.siftPerform bid x.r.rid) s = .next s) ∧
    ((∀ r ∈ x.b.eng, ¬first r) → x.r.undef = false → op.untagged p = false →
      (op.maskOut x.b = none → exec (.siftPerform bid x.r.rid) s = .next (t.engFinish bid x.r)) ∧
      ∀ m v, op.maskOut x.b = some (m, v) → exec (.siftPerform bid x.r.rid) s = .next ((t.onBlock bid fun b =>
        b.onPart x.r.part fun q => { q with masks := q.masks.set m v }).engFinish bid x.r))) ∧
  ∀ (b : Block) (p : Part) (tab : Nat) (g : W32) (d : BitVec 256) (incl : Bool),
    let w (o : Nat) : Nat := b.spad.nat o 4
    let f (o : Nat) : FV := Fmt.f32.value (w o)
    (∀ m, SiftOp.writes (.clr m tab false) b p = [(tab, List.replicate 2080 0xFF800000)] ∧
      SiftOp.writes (.clr m tab true) b p = [] ∧ SiftOp.writes (.mask m tab g) b p = [] ∧
      (m ≠ 7 → SiftOp.maskOut (.clr m tab incl) b = some (m, 0)) ∧
      (m = 7 → SiftOp.maskOut (.clr m tab incl) b = none ∧ SiftOp.maskOut (.mask m tab g) b = none) ∧
      (m ≠ 7 → ∃ v : W64, SiftOp.maskOut (.mask m tab g) b = some (m, v) ∧ ∀ kt < 64, (v.getLsbD kt = true ↔
        ∃ r < 32,
          let t := f (tab + 128 + 128 * kt + 4 * r)
          let run := f (tab + 4 * r)
          let gap := Fmt.f32.value g.toNat
          t.isNan = false ∧ t ≠ .inf true ∧ run.isNan = false ∧ gap.isNan = false ∧
            (∀ z, ¬(run = .inf z ∧ gap = .inf z)) ∧ 0 ≤ FV.cmp t (FV.add .rn run (FV.negate gap))))) ∧
    (∀ t rows cols kt k40, maxCtl g.toNat = some (rows, cols, kt) → (p.tile t).tag = some k40 → ∃ xs runs,
      let v (r j : Nat) : Nat :=
        let x := (p.tile t).elem (32 * r + j)
        Fmt.f32.roundRn (if k40 then FV.ofInt (sext 40 x.toNat) else Fmt.w40.value x.toNat)
      SiftOp.writes (.max t tab g) b p = [(tab + 128 + 128 * kt, xs), (tab, runs)] ∧ xs.length = rows ∧ runs.length = rows ∧
      ∀ r < rows, nth xs r 0 = (upto 1 (cols - 1)).foldl (fun m j => Fmt.f32.maxNum false m (v r j)) (v r 0) ∧
        nth runs r 0 = Fmt.f32.maxNum false (w (tab + 4 * r)) (nth xs r 0)) ∧
    (let q := topkOf d.toNat
     let code (r c : Nat) : Nat := w (q.val + 4 * (q.cols * r + c))
     let gidx (r c : Nat) : Nat := wrap 32 ((match q.idx with
       | some o => w (o + 4 * (q.cols * r + c))
       | none => c) + q.goff)
     let ranks (r x y : Nat) : Prop :=
       let u := Fmt.f32.value (code r x)
       let v := Fmt.f32.value (code r y)
       let tie : Prop := gidx r x < gidx r y ∨ (gidx r x = gidx r y ∧ x < y)
       (u.isNan = false ∧ v.isNan = true) ∨ (u.isNan = true ∧ v.isNan = true ∧ tie) ∨
         (u.isNan = false ∧ v.isNan = false ∧ (0 < FV.cmp u v ∨ (FV.cmp u v = 0 ∧ tie)))
     ∀ r < q.rows, ∃ order : List Nat, order.Perm (upto 0 q.cols) ∧ order.Pairwise (ranks r) ∧
       (q.oval + 4 * q.k * r, (order.take q.k).map (code r) ++ List.replicate (q.k - q.cols) 0x7FC00000) ∈
         SiftOp.writes (.topk d) b p ∧
       (q.oidx + 4 * q.k * r, (order.take q.k).map (gidx r) ++ List.replicate (q.k - q.cols) 0xFFFFFFFF) ∈
         SiftOp.writes (.topk d) b p) ∧
    (let q := siftDescOf d.toNat
     let x (i : Nat) : Nat := w (q.inp + 4 * i)
     let count (c : Nat → Bool) : Nat := ((upto 0 q.n).filter c).length
     let sum (n : Nat) : Nat := ((upto 0 n).map x).sum % 2 ^ 32
     (∃ l, SiftOp.writes (.hist d) b p = [(q.out, l)] ∧ l.length = q.nb ∧
       ∀ k < q.nb, nth l k 0 = count (fun i => wrap 32 ((x i : Int) - q.base) == k) % 2 ^ 32) ∧
     (∃ l, SiftOp.writes (.scan d false) b p = [(q.out, l)] ∧ l.length = q.n + 1 ∧ ∀ i ≤ q.n, nth l i 0 = sum i) ∧
     (∃ l, SiftOp.writes (.scan d true) b p = [(q.out, l)] ∧ l.length = q.n ∧ ∀ i < q.n, nth l i 0 = sum (i + 1)) ∧
     ∃ at' of', SiftOp.writes (.perm d) b p = [(q.out, at'), (q.out2, of')] ∧ at'.length = q.n ∧ of'.length = q.n ∧
       (∀ i < q.n, (q.nb ≤ x i → nth at' i 0 = 0xFFFFFFFF) ∧
         (x i < q.nb → nth at' i 0 = count (fun j => decide (x j < q.nb ∧ (x j < x i ∨ (x j = x i ∧ j < i)))) ∧
           nth of' (nth at' i 0) 0 = i)) ∧
       ∀ i, count (fun j => decide (x j < q.nb)) ≤ i → i < q.n → nth of' i 0 = 0xFFFFFFFF)

/-! ### The debugger -/

/-- R193, R196, R360 to R365, R371: DBG writes the operation's status once its command block has been read as two
accesses of 32 bytes, and drops the cached lines; a misaligned block is status 8; in a kernel every DBG word is a
privilege trap. The checks are made in order: the block's fields, the mailbox, then the operation's own. .halt asks
the named groups that run to halt and completes once they have, .resume and .step let the named halted ones go on once
their results have landed, a group that is to stop does at a run boundary and posts its report, .read writes a group's
image, a snapshot or zeros, or re-arms the cross-trigger, and .post posts its data. It rests on choices of the model,
logs 24, 69 and 96. -/
def Obligations.DebugWords : Prop :=
  (∀ (d a : RegN),
    let sh : Env → Shape := fun e =>
      { dsts := [d.toNat], srcs := [a.toNat, a.toNat + 1], lat := none, pre := if e.level = .kernel then some 4 else none }
    let va (x : Env) : Nat := x.val true a.toNat x.first
    let put (s : State) (x : Env) (n : Nat) : State × Env :=
      (s.acquire x.core .system, x.write d.toNat (.form (BitVec.ofNat 32 n) 0))
    let word (i : Instr) (op : DbgOp) : Prop :=
      (∀ c, Completes i sh (fun _ x => x.ctx = some c ∧ x.unit.asked = false ∧ va x % 32 ≠ 0) (fun s x => put s x 8)) ∧
      (∀ c lo hi (t1 t2 t3 : State) n, Completes i sh
        (fun s x => x.ctx = some c ∧ x.unit.asked = false ∧ va x % 32 = 0 ∧
          s.checks x ⟨32, 1, false, .read, 0⟩ [x.first] (fun _ => va x) = .ok t1 lo ∧
          t1.checks x ⟨32, 1, false, .read, 0⟩ [x.first] (fun _ => va x + 32) = .ok t2 hi ∧
          t2.askFabric x 32 (lo ++ hi) = (t2, false) ∧ (∀ y ∈ lo ++ hi, t2.badElem x y 32 false = false) ∧
          (t2.takeFabric x (lo ++ hi)).dbgDo c op (DbgCmd.of (leNat ((lo ++ hi).flatMap fun y => t2.readElem x y 32 false))) =
            .status t3 n)
        (fun _ x => put t3 x n)) ∧
      -- one that begins waits at its word until it has taken effect
      (∀ c lo hi (t1 t2 t3 : State) n, Moves i sh
        (fun s x => x.ctx = some c ∧ x.unit.asked = false ∧ va x % 32 = 0 ∧
          s.checks x ⟨32, 1, false, .read, 0⟩ [x.first] (fun _ => va x) = .ok t1 lo ∧
          t1.checks x ⟨32, 1, false, .read, 0⟩ [x.first] (fun _ => va x + 32) = .ok t2 hi ∧
          t2.askFabric x 32 (lo ++ hi) = (t2, false) ∧ (∀ y ∈ lo ++ hi, t2.badElem x y 32 false = false) ∧
          (t2.takeFabric x (lo ++ hi)).dbgDo c op (DbgCmd.of (leNat ((lo ++ hi).flatMap fun y => t2.readElem x y 32 false))) =
            .begun t3 n)
        (fun _ x => t3.onUnit x.who fun u => { u with asked := true, token := n })) ∧
      (∀ c, Completes i sh (fun s x => x.ctx = some c ∧ x.unit.asked = true ∧ s.dbgPending c op x.unit.token = false)
        (fun s x => put s x 0)) ∧
      (∀ (s : State) (e : Env) (c : Ctx), s.env? s.turn = some e → s.hazard e (sh e) = none → e.ctx = some c → e.unit.asked = true →
        (s.prepare e (sh e)).1.dbgPending c op e.unit.token = true → exec i s = .next s) ∧
      (∀ (s : State) (e : Env), s.env? s.turn = some e → e.level = .kernel →
        exec i s = .next (s.trapWord e 4 (BitVec.ofNat 64 e.unit.word) e.count))
    word (.dbgHalt d a) .halt ∧ word (.dbgResume d a) .resume ∧ word (.dbgStep d a) .step ∧ word (.dbgSetbp d a) .setbp ∧
    word (.dbgClrbp d a) .clrbp ∧ word (.dbgSetwp d a) .setwp ∧ word (.dbgClrwp d a) .clrwp ∧ word (.dbgRead d a) .read ∧
    word (.dbgPost d a) .post) ∧
  (∀ (s : State) (c : Ctx) (x : DbgCmd),
    let good (op : DbgOp) : Prop := x.clean op = true ∧ s.attached (some c) = true
    (∀ op, x.clean op = false → s.dbgDo c op x = .status s 8) ∧
    (∀ op, x.clean op = true → s.attached (some c) = false → s.dbgDo c op x = .status s 7) ∧
    (good .setbp → s.dbgDo c .setbp x = if x.addr % 4 ≠ 0 then .status s 6 else .status (s.onDbg c.part fun u =>
      { u with cmps := u.cmps.set x.slot (some (c.desc, BitVec.ofNat 64 x.addr)) }) 0) ∧
    (good .clrbp → s.dbgDo c .clrbp x = .status (s.onDbg c.part fun u => { u with cmps := u.cmps.set x.slot none }) 0) ∧
    (good .setwp → s.dbgDo c .setwp x = if 3 < x.slot then .status s 5 else if watchOk x.addr x.len = false then .status s 6
      else .status (s.onDbg c.part fun u => { u with
        wps := u.wps.set x.slot (some ⟨c.desc, BitVec.ofNat 64 x.addr, x.len, BitVec.ofNat 3 x.wkind⟩) }) 0) ∧
    (good .clrwp → s.dbgDo c .clrwp x = if 3 < x.slot then .status s 5
      else .status (s.onDbg c.part fun u => { u with wps := u.wps.set x.slot none }) 0) ∧
    let named (l : Launch) : Bool := l.ctx.desc == c.desc && l.sitePc.toNat == x.site && l.lseq == x.lseq && l.st != .done
    let group (op : DbgOp) : Prop := op = .halt ∨ op = .resume ∨ op = .step
    (∀ op, group op → good op → s.launches.find? named = none → s.dbgDo c op x = .status s 1) ∧
    (∀ l, s.launches.find? named = some l →
      (∀ op, group op → good op → s.dbgTarget l x.idx = none → s.dbgDo c op x = .status s 2) ∧
      (∀ b u, s.dbgTarget l x.idx = some (b, u) →
        b.lid = l.lid ∧ b.num = x.idx / l.b ∧ s.primary b = true ∧ x.idx ∈ u.2.1.indices u.2.2 ∧
        let s' : State := { s with nextId := s.nextId + 1 }
        let ours := (b.groups.flatMap fun g => g.units.map fun k => ((Who.kern b.bid g.gid k.low, g, k) : DbgUnit))
        let runs := (ours.filter (dbgNames x.scope u)).filter fun y => !s.stands y.2.2
        let halted := ((s.dbgUnits b).filter (dbgNames x.scope u)).filter fun y => y.2.2.stat == .halted
        let begin (y : DbgUnit) : ISet := { y.2.2 with haltReq := true, haltBy := y.2.2.haltBy ++ [s.nextId] }
        let go (held step : Bool) (y : DbgUnit) : ISet := { y.2.2 with
          stat := if held then .ringWait else .ready
          haltReq := false, haltBy := [], stepping := step, stepBy := if step then [s.nextId] else [], stepSplit := false
          asked := step && y.2.2.atBoundary }
        let quiet : Prop := ∀ y ∈ halted, ∀ a ∈ s.atoms, a.bid = b.bid → a.idx ∉ y.2.1.indices y.2.2
        (good .halt → runs = [] → s.dbgDo c .halt x = .status s 4) ∧
        (good .halt → runs ≠ [] → s.dbgDo c .halt x = .begun ((s'.onUnits runs begin).trigger c 3) s.nextId) ∧
        (∀ step : Bool, good (if step then .step else .resume) →
          (halted = [] → s.dbgDo c (if step then .step else .resume) x = .status s 3) ∧
          (halted ≠ [] → ¬quiet → s.dbgDo c (if step then .step else .resume) x = .wait) ∧
          (halted ≠ [] → quiet → ∃ t, s.dbgDo c (if step then .step else .resume) x = .status t 0 ∧
            t = (halted.foldl (fun (s : State) y => s.onGrp y.1 fun g => g.onLanes y.2.2 fun k => { k with flight := [] }) s').onUnits
              halted fun y => go (s.pend.any fun p => p.isReport && p.who == some y.1) step y)))) ∧
    (good .read → (x.unit = 0 →
        (s.launches.find? named = none → s.dbgDo c .read x = .status s 1) ∧
        ∀ l, s.launches.find? named = some l → (s.dbgTarget l x.idx = none → s.dbgDo c .read x = .status s 2) ∧
          ∀ b w g u, s.dbgTarget l x.idx = some (b, w, g, u) →
            let bad : Prop := x.buf % 64 ≠ 0 ∨ s.dbgBuf c x.buf 568 = false
            (u.stat ≠ .halted → s.dbgDo c .read x = .status s 3) ∧ (u.stat = .halted → bad → s.dbgDo c .read x = .status s 6) ∧
            (u.stat = .halted → ¬bad → s.dbgDo c .read x = .status
              ((s.devWrite x.buf ((s.kernEnv w b l g u).image x.idx s.free)).spend 128) 0)) ∧
      (x.unit = 15 → s.dbgDo c .read x = .status (s.onDbg c.part fun d => { d with fired := false, snaps := [] }) 0) ∧
      (x.unit ≠ 0 → x.unit ≠ 15 →
        let bad : Prop := x.buf % 64 ≠ 0 ∨ s.dbgBuf c x.buf 64 = false
        let snap := (nth s.dbg c.part ⟨[], [], false, []⟩).snaps.find? fun k => k.unit == x.unit && k.inst == x.addr
        (bad → s.dbgDo c .read x = .status s 6) ∧
        (¬bad → snap = none → s.dbgDo c .read x = .status (s.devWrite x.buf (leBytes 64 0)) 0) ∧
        ∀ k, ¬bad → snap = some k → s.dbgDo c .read x = .status (s.devWrite x.buf (leBytes 64 k.data.toNat)) 0)) ∧
    (good .post → let data := 7 * 2 ^ 104 + x.data % 2 ^ 96
      let t := s.report c data none
      (t.pend.length = s.pend.length → s.dbgDo c .post x = .status t 0) ∧
      (t.pend.length ≠ s.pend.length → s.dbgDo c .post x = .begun t data))) ∧
  -- what it waits for, and which groups an operation names
  (∀ (s : State) (c : Ctx) (k : Nat) (x y : DbgUnit),
    (s.dbgPending c .halt k = true ↔ ∃ b ∈ s.blocks, b.st ≠ .ended ∧ ∃ g ∈ b.groups, ∃ u ∈ g.units,
      u.haltReq = true ∧ u.stat ≠ .halted ∧ k ∈ u.haltBy) ∧
    (s.dbgPending c .post k = true ↔ ∃ p ∈ s.pend, p.isReport = true ∧ p.ctx.mbox = c.mbox ∧ p.data = BitVec.ofNat 512 k) ∧
    (dbgNames 0 x y = true ↔ y.1 = x.1) ∧ (dbgNames 1 x y = true ↔ y.2.1.gid = x.2.1.gid) ∧ dbgNames 2 x y = true) ∧
  -- a group that is to stop does, at a run boundary, and its report is posted
  (∀ (s : State) (b : Block) (l : Launch) (g : Grp) (u : ISet) (kind : Nat), s.block? b.bid = some b →
    (∀ x ∈ s.blocks, x.bid = b.bid → x = b) → (∀ t ∈ s.traps, t.bid ≠ b.bid) → b.groups = [g] → g.units = [u] →
    bit u.lanes.toNat u.low = true → u.stat = .ready → u.atRun = true → b.owed = [] →
    (∀ a ∈ s.atoms, a.bid = b.bid → a.idx ∉ g.indices u) →
    (kind = 5 ∧ u.haltReq = true ∧ u.stepping = false) ∨ (kind = 6 ∧ u.haltReq = false ∧ u.stepping = true ∧ u.asked = false) →
    let h : ISet := { u with stat := .halted }
    let k (v : ISet) : Grp := { (g.onLanes u fun x => { x with flight := [] }) with units := [v] }
    let who : Who := .kern b.bid g.gid u.low
    let e := (s.setBlock { b with groups := [k h] }).kernEnv who { b with groups := [k h] } l (k h) h
    let v : ISet := if kind = 5 then { h with haltReq := false, haltBy := [] }
      else { h with stepping := false, stepBy := [], stepSplit := false }
    s.settleBlock b l = (s.setBlock { b with groups := [k v], owed := [] }).report l.ctx
      (reportImage l e.num u.standsAt.toNat 0 (e.named e.members) kind (if kind = 6 ∧ u.stepSplit = true then 1 else 0) 0) (some who)) ∧
  -- R371: a group's image
  ∀ (e : Env) (idx nonce : Nat), (e.named e.members).idx < 2 ^ 64 → (e.named e.members).lmask < 2 ^ 32 → (e.named e.members).count < 2 ^ 32 →
    let x := e.image idx nonce
    let at' (o n : Nat) : Nat := leNat ((x.drop o).take n)
    let pos := idx - e.grp.lo
    let lane := if e.grp.span then 0 else pos
    x.length = 568 ∧ at' 0 8 = e.unit.standsAt.toNat ∧ at' 8 8 = (e.named e.members).idx ∧ at' 16 4 = (e.named e.members).lmask ∧
    at' 20 4 = (e.named e.members).count ∧ at' 553 15 = 0 ∧
    (∀ r, r < 64 → r < e.grp.regs.length → bit (e.grp.relMask e.unit.lanes r).toNat lane = false →
      let pair : Prop := (∃ b st, (e.grp.cell r).kind = .f64 b st) ∨ ((∃ vs, (e.grp.cell r).kind = .e true vs) ∧ r % 2 = 0)
      (pair → at' (24 + 8 * r) 8 = (e.grp.val64 r pos).toNat) ∧ (¬pair → at' (24 + 8 * r) 8 = (e.grp.val r pos).toNat)) ∧
    (∀ r, r < 64 → bits (at' 536 16) (2 * r + 1) (2 * r) = if e.grp.regs.length ≤ r then 3 else e.tag r) ∧
    ∀ p, p < 7 → bit (e.grp.prelMask e.unit.lanes p).toNat lane = false → bit (at' 552 1) p = e.grp.pval p pos

/-! ### Launches -/

/-- R193, R194, R309, R315: LAUNCH writes the status of admission, after the release step; a misaligned record, a bad
region path or ownership table, or an ill-formed field is status 4, and the lowest status that holds is given of the
others. An accepted launch takes the next sequence number and counts in LIVE on every block of its region path.
Where the frame of its code cannot be scanned yet it waits. Without a context in force it traps. LWAIT writes the status of an ended launch, or 3 for none of its control core's.
It rests on the model's choice of log 57. -/
def Obligations.LaunchWords : Prop :=
  (∀ (d a : RegN),
    let sh : Env → Shape := fun e =>
      { dsts := [d.toNat], srcs := [a.toNat, a.toNat + 1], lat := none, pre := if e.solo then none else some 4 }
    let va (x : Env) : Nat := x.val true a.toNat x.first
    let put (x : Env) (n : Nat) : Env := x.write d.toNat (.form (BitVec.ofNat 32 n) 0)
    let core (x : Env) : Nat := x.core - Config.cores
    let last (s : State) (x : Env) : Nat := ((s.cc? (core x)).map (·.lseq)).getD 0
    let named (s : State) (x : Env) : Option Launch := s.launches.find? fun l => l.cc == core x && l.lseq == va x
    Traps (.launch d a) sh (fun _ x => x.ctx = none) 16 (fun _ => 0) ∧
    (∀ c, Completes (.launch d a) sh (fun s x => x.ctx = some c ∧ s.unreleased x = false ∧ va x % 128 ≠ 0)
      (fun s x => (s.flush x.core .device, put x 4))) ∧
    (let admits (s t : State) (x : Env) (c : Ctx) (els : List Elem) (o : Listed) : Prop :=
      x.ctx = some c ∧ s.unreleased x = false ∧ va x % 128 = 0 ∧
        (s.flush x.core .device).checks x ⟨128, 1, false, .read, 0⟩ [x.first] (fun _ => va x) = .ok t els ∧
        t.askFabric x 128 els = (t, false) ∧ (∀ y ∈ els, t.badElem x y 128 false = false) ∧
        t.enlist x c (BitVec.ofNat 1024 (leNat (els.flatMap fun y => t.readElem x y 128 false))) = o
     (∀ c t els u n, Completes (.launch d a) sh (fun s x => admits s t x c els (.status u n))
      (fun _ x => (u.takeFabric x els, put x n))) ∧
     ∀ c t els s e, Executes s (sh e) e → admits (s.prepare e (sh e)).1 t (s.prepare e (sh e)).2 c els .later →
      exec (.launch d a) s = .next s) ∧
    Completes (.lwait d a) sh (fun s x => va x = 0 ∨ last s x < va x ∨ named s x = none) (fun s x => (s, put x 3)) ∧
    (∀ l, Completes (.lwait d a) sh (fun s x => va x ≠ 0 ∧ va x ≤ last s x ∧ named s x = some l ∧ l.st = .done)
      (fun s x => (s.acquire x.core .device, put x l.status))) ∧
    ∀ l s e, Executes s (sh e) e →
      let t := (s.prepare e (sh e)).1
      let x := (s.prepare e (sh e)).2
      va x ≠ 0 → va x ≤ last t x → named t x = some l → l.st ≠ .done → exec (.lwait d a) s = .next s) ∧
  (∀ (s : State) (e : Env) (c : Ctx) (record : BitVec 1024),
    let region := bits record.toNat 255 192
    (s.regionPath e.ppart 8 region = none → s.enlist e c record = .status s 4) ∧
    ∀ path, s.regionPath e.ppart 8 region = some path →
      let l := s.candidate e c record path
      let own := l.fld 447 384
      let i := e.idx e.first
      let code := BitVec.ofNat 64 (l.fld 63 0)
      let tested : Prop := l.staged = true → own ≠ 0 → ∀ k < 16, s.readable c e.die (own + 32 * k) = true
      let o := if l.staged then s.readOwnt c own else (s, some [])
      (l.fieldsOk = false → s.enlist e c record = .status s 4) ∧
      (l.fieldsOk = true → ¬tested → s.enlist e c record = .later) ∧
      (l.fieldsOk = true → tested → o.2 = none → s.enlist e c record = .status o.1 4) ∧
      ∀ table, l.fieldsOk = true → tested → o.2 = some table →
        let f := o.1.fetchSeg c e.die e.bid i code
        let n := f.1.rejects e.ppart l true
        let v := f.1.takeFrame e.bid i
        let seq := ((v.cc? l.cc).map (·.lseq)).getD 0 + 1
        let counted := { v with nextId := v.nextId + 1 }.addLive path 1
        let t := (counted.onCc l.cc fun k => { k with lseq := seq }).traceArm c (l.fld 63 0)
        (n ≠ 0 → s.enlist e c record = .status f.1 n) ∧
        (n = 0 → f.2 = .later → s.enlist e c record = .later) ∧
        (∀ frame, n = 0 → f.2 = .ask frame → s.enlist e c record = .asked (f.1.askFrame e.bid i frame code e.origin)) ∧
        (∀ ws, n = 0 → f.2 = .words ws → s.enlist e c record = .status { t.1 with launches := t.1.launches ++ [{ l with
          lid := v.nextId, lseq := seq, ownt := table, trace := t.2
          ovf := l.progress == 2 && decide (786432 < l.perCore * l.regBytes) }] } 0) ∧
        (n = 0 → f.2 ≠ .later → (∀ frame, f.2 ≠ .ask frame) → (∀ ws, f.2 ≠ .words ws) →
          s.enlist e c record = .status v 6)) ∧
  (∀ (s : State) (path : List Nat) (a : Nat), path.Nodup → (∀ b ∈ path, b % 64 = 0 ∧ isDram b = true) →
    (a ∈ path → (s.addLive path 1).live a = (s.live a + 1) % 2 ^ 16 ∧ (0 < s.live a → (s.addLive path (-1)).live a = s.live a - 1)) ∧
    (a ∉ path → a % 64 = 0 → (s.addLive path 1).live a = s.live a)) ∧
  ∀ (s : State) (part : Nat) (l : Launch) (codeOk : Bool),
    let dies := s.diesPer
    let region (x hi lo : Nat) : Nat := bits (s.homeNat x 64) hi lo
    let grants : Prop := Config.scratchpadBytes < bits l.record.toNat 543 512 ∨ 16 < l.tiles ∨ 1024 < l.obuf ∨
      1048576 < l.satchel ∨ (l.satchel ≠ 0 ∧ ∀ d ∈ s.partDies part, s.satchelArea d = 0)
    let spread : Prop := (l.mode = .dual ∧ dies < 2) ∨ (l.mode = .triple ∧ dies < 4) ∨
      (l.progress = 2 ∧ Config.coresPerDie * dies < l.coresNeeded)
    let limits : Prop := (∃ x ∈ l.path, region x 447 432 ≠ 0 ∧ region x 447 432 ≤ s.live x) ∨
      (l.progress = 2 ∧ ∃ x ∈ l.path, region x 415 408 ≠ 0 ∧ region x 415 408 < l.coresNeeded)
    let n := s.rejects part l codeOk
    (grants → n = 1) ∧ (¬grants → 1024 < l.b → n = 2) ∧ (¬grants → l.b ≤ 1024 → spread → n = 3) ∧
    (¬grants → l.b ≤ 1024 → ¬spread → limits → n = 5) ∧
    (¬grants → l.b ≤ 1024 → ¬spread → ¬limits → codeOk = false → n = 6) ∧
    (¬grants → l.b ≤ 1024 → ¬spread → ¬limits → codeOk = true → n = 0)

/-- R14, R18, R28, R38, R39, R40, R138, R139, R316, R318, R322, R354: what happens to blocks and launches. Blocks
start on a core with room, every register 0 and every predicate false in a root span, wait in a run queue, and may be
stolen; a node whose members all wait at one fold closes: sheaves of a window merge, each lane with its own values,
registers recompress, a sheaf whose registers are forms and whose predicates are cuts becomes a span, and adjacent
spans that agree merge, all with the values each thread had; held groups take free slots; a block whose work is over
ends, one with a last commit once that is applied and acknowledged, and a launch whose blocks have ended and whose
stores are home is closed with its postmark; a commit that all replicas agree on is applied once; a deadlocked block
ends with a record for each waiting group. It rests on choices of the model, logs 29, 33, 34, 55, 75, 83, 88 and
89. -/
def Obligations.LaunchEvents : Prop :=
  (∀ (s : State) (b : Block), s.block? b.bid = some b →
    (∀ l, s.launch? b.lid = some l →
      (∀ (node : Nat) (g0 : Grp) (u : ISet), b.commit = none → b.full = none → b.st = .running → closable b.groups node = true →
        (∀ g ∈ b.groups, ∀ v ∈ g.units, v.memberOf node = true → ∀ y ∈ s.atoms, y.bid = b.bid → y.idx ∉ g.indices v) →
        b.groups.head? = some g0 → (b.groups.flatMap fun g => g.units.filter (·.memberOf node)).head? = some u →
        let halt := s.cmpMatch (s.unitEnv b l g0 (ISet.start u.pc)) u.pc
        let b' : Block := { b with groups := closeNode (bits u.word 14 9) (bits u.word 8 2) node halt b.groups }
        exec (.foldClose b.bid node) s = .next (((s.setBlock b').passReports b' l u.pc b.groups).barriers b.bid)) ∧
      (∀ g, b.groups.find? (fun h => h.gid == g.gid && h.held) = some g →
        let part := partOfWindow l b.num (g.lo / 32)
        let room : Nat := if g.span then Config.spanSlots else Config.sheafRegs
        let lack := s.slotsUsed b.core part g.span + g.room - room
        let due := g.units.any fun u => u.stat == .ready && !u.ran
        let turn (out : List Grp) (h : Grp) : Grp :=
          if h.gid = g.gid then { h with held := false }
          else if out.any (·.gid == h.gid) then { h with held := true } else h
        let swap (out : List Grp) : State :=
          { s with blocks := s.blocks.map fun x => { x with groups := x.groups.map (turn out) } }
        (lack = 0 → exec (.heldThreadPlacement b.bid g.gid) s = .next (swap [])) ∧
        (∀ out, enoughRoom lack (s.rotatable b.core part g.span due) = some out →
          exec (.heldThreadPlacement b.bid g.gid) s = .next (swap out)) ∧
        (enoughRoom lack (s.rotatable b.core part g.span due) = none →
          exec (.heldThreadPlacement b.bid g.gid) s = .next s)) ∧
      (s.blockIdle b = true → b.closed = false → l.mode = .normal → exec (.blockEnd b.bid) s = .next (s.blockDone b l)) ∧
      (s.blockIdle b = true → b.closed = false → l.mode = .deterministic → l.oldest b.num = true →
        exec (.blockEnd b.bid) s = .next ((s.detCommit b.bid .blockEnd (fun _ => true) none).blockClose b l)) ∧
      (s.blockIdle b = true → b.closed = false → l.redundant = true → exec (.blockEnd b.bid) s =
        .next (s.submit b.bid .blockEnd (fun _ => true) none [] ⟨b.lastExit, 0, false, none⟩ none)) ∧
      (s.blockIdle b = true → b.closed = true → exec (.blockEnd b.bid) s = .next (s.blockClose b l)) ∧
      (let same (x : Block) : Bool := x.lid == b.lid && x.num == b.num && x.st != .ended
       let t : State := { s with blocks := s.blocks.map fun x => if same x then { x with closed := true, commit := none } else x }
       ((∃ x ∈ s.blocks, same x = true ∧ ∃ f ∈ s.fabric, f.bid = x.bid) → s.blockClose b l = t) ∧
       ((∀ x ∈ s.blocks, same x = true → ∀ f ∈ s.fabric, f.bid ≠ x.bid) → s.blockClose b l = t.blockDone ((t.primaryOf b).getD b) l)) ∧
      (s.blockIdle b = false → exec (.blockEnd b.bid) s = .next s) ∧
      (b.full ≠ none → b.st ≠ .ended → s.ending b = false → l.redundant = false → l.oldest b.num = true → exec (.capacityCommit b.bid) s =
        .next ((s.detCommit b.bid .capacity (fun _ => true) none).stageStuck b.bid)) ∧
      (s.deadlocked b = true → exec (.convergenceDeadlock b.bid) s = .next (
        let pairs := sortKey (fun y : Grp × ISet => y.1.lo + (if y.1.span then 0 else y.2.low))
          (b.groups.flatMap fun g => g.units.map fun u => (g, u))
        let recs := pairs.map fun y =>
          let e := s.kernEnv (.kern b.bid y.1.gid y.2.low) b l y.1 y.2
          { e.fault 10 0 0 0 e.members with die := e.die }
        match recs.getLast? with
        | some r => (recs.dropLast.foldl (fun t r => (t.record l r none).1) s).endFault b r
        | none => s)) ∧
      (s.deadlocked b = false → exec (.convergenceDeadlock b.bid) s = .next s))) ∧
  (∀ (s : State) (l : Launch), s.launch? l.lid = some l →
    (∀ cores c t, l.st = .running → l.progress ≠ 2 → l.again = [] → cores.head? = some c →
      (s.core c).runq.find? (·.1 == l.lid) = none → l.nextBlk < l.blocks → (∀ k ∈ cores, s.inLine l k = true) →
      s.startAll l l.nextBlk cores = some t → exec (.blockDispatch l.lid cores) s =
        .next (t.onLaunch l.lid fun k => { k with nextBlk := l.nextBlk + 1 })) ∧
    (∀ cores t, l.st = .running → l.progress = 2 → (∀ b ∈ s.blocks, b.lid = l.lid → b.st.slot? = none) → l.nextBlk = 0 →
      cores.length = l.blocks * l.mode.replicas → s.wholeRoom l = true → (∀ c ∈ cores, s.inLine l c = true) →
      (upto 0 l.blocks).foldl (fun (o : Option State) n => o.bind fun u =>
        u.startAll l n ((cores.drop (n * l.mode.replicas)).take l.mode.replicas)) (some s) = some t →
      exec (.concurrentPlacement l.lid cores) s = .next (t.onLaunch l.lid fun l => { l with nextBlk := l.blocks })) ∧
    (∀ core victim num, (s.core victim).runq.getLast? = some (l.lid, num) → core ≠ victim → core < Config.cores →
      coreDie core = coreDie victim → (s.core core).runq = [] → l.queues = true → l.st = .running →
      (s.room l core).isSome → (∀ c, coreDie c = coreDie core → c < Config.cores →
        if c < victim then (s.core c).runq.length < (s.core victim).runq.length
        else (s.core c).runq.length ≤ (s.core victim).runq.length) →
      let t := s.unqueue victim l.lid num
      exec (.steal core victim) s =
        .next (t.setCore { t.core core with runq := (t.core core).runq ++ [(l.lid, num)] })) ∧
    (l.st ≠ .done → l.killed = false → l.again = [] → l.endedBlks.length = l.blocks →
      (∀ b ∈ s.blocks, b.lid = l.lid → b.st = .ended) → s.launchQuiet l = true →
      exec (.postmark l.lid) s = .next (s.closeLaunch l)) ∧
    (∀ num, let bs := s.replicas l.lid num
      let some' : Prop := ∃ b ∈ bs, b.commit.isSome
      let all : Prop := ∀ b ∈ bs, b.commit.isSome
      (bs ≠ [] → all → exec (.replicaCompare l.lid num) s = .next (s.compareSigs l bs)) ∧
      ((bs = [] ∨ ¬all) → exec (.replicaCompare l.lid num) s = .next s) ∧
      (some' → ¬all → (∀ p, bs.head? = some p → ∀ g ∈ p.groups, ∀ u ∈ g.units, u.stat ≠ .halted) →
        exec (.replicaTimeout l.lid num) s = .next (s.compareSigs l bs)) ∧
      ((¬some' ∨ all) → exec (.replicaTimeout l.lid num) s = .next s)) ∧
    (∀ a b, (∃ x, a.sigAt = some x ∧ b.sigAt = some x) → s.compareSigs l [a, b] = s.settle l [a, b]) ∧
    (∀ a b, a.sigAt ≠ b.sigAt → s.compareSigs l [a, b] = s.mismatch l [a, b]) ∧
    (∀ a b c, a.sigAt ≠ b.sigAt → a.sigAt ≠ c.sigAt → b.sigAt ≠ c.sigAt →
      s.compareSigs l [a, b, c] = s.mismatch l [a, b, c]) ∧
    ∀ a b c, a.sigAt.isSome → a.sigAt = b.sigAt → a.sigAt ≠ c.sigAt → s.compareSigs l [a, b, c] = s.vote l [a, b] c) ∧
  (∀ (s : State) (l : Launch) (num rank core : Nat) (r : Nat × Nat × Nat), s.room l core = some r → l.roots num ≠ [] →
    ∃ t b, s.startBlock l num rank core = some t ∧ t.blocks = s.blocks ++ [b] ∧ b.num = num ∧ b.rank = rank ∧ b.core = core ∧
      b.lid = l.lid ∧ b.spad = [] ∧ b.priv = [] ∧ b.groups.map (fun g => (g.lo, g.hi)) = l.roots num ∧
      (∀ p ∈ b.parts, (∀ y ∈ p.tiles, y.tag = none) ∧ (∀ m ∈ p.masks, m = 0) ∧ (∀ r ∈ p.resv, r = none) ∧ p.mcfg = 0) ∧
      ∀ g ∈ b.groups, g.span = true ∧ g.stq = [] ∧ (∃ u, g.units = [u] ∧ u.pc = BitVec.ofNat 64 (l.fld 63 0) ∧
        u.stat = .ready ∧ u.path = [] ∧ u.code = []) ∧
        (∀ r p, g.val r p = 0) ∧ (∀ q p, q < 7 → g.pval q p = false) ∧
        ∀ x ∈ g.lanes, x.stack = [] ∧ x.fpctl = l.ctx.fpctlDef) ∧
  -- R39: what a closing node leaves of its groups
  (∀ (v lp n : Nat) (halt : Bool) (gs : List Grp) (g : Grp), g ∈ gs → (∀ u ∈ g.units, u.memberOf n = false) →
    g ∈ closeNode v lp n halt gs) ∧
  (∀ (v lp n : Nat) (g : Grp) (u : ISet) (r : List ISet), g.units.filter (fun w => w.memberOf n) = u :: r →
    (∀ k b st, (g.cell k).kind = .f64 b st → k % 2 = 0) →
    let k := joinUnits v lp n false g
    (∃ w ∈ k.units, w.lanes = r.foldl (fun m v => m ||| v.lanes) u.lanes ∧ w.path = u.path.drop 1 ∧ w.stat = .ready ∧
      w.seg = u.pc ∧ w.pc = u.pc + 4) ∧
    (∀ q p, p ∈ g.positions → k.val q p = g.val q p) ∧ (∀ q p, k.pval q p = g.pval q p) ∧ k.stq = g.stq ∧
      k.lanes.map (fun x => (x.lane, x.stack, x.fpctl)) = g.lanes.map fun x => (x.lane, x.stack, x.fpctl)) ∧
  (∀ (a b : Grp), a.span = false →
    let g := mergeSheaf a b
    g.live = a.live ||| b.live ∧ g.units = a.units ++ b.units ∧
    (∀ r l, r < a.regs.length → l < 32 → g.val r l = if bit b.live.toNat l then b.val r l else a.val r l) ∧
    (∀ r x st, r < a.regs.length → a.cell r = ⟨.f32 x st, 0⟩ → b.cell r = ⟨.f32 x st, 0⟩ → g.cell r = ⟨.f32 x st, 0⟩) ∧
    (∀ r x st, r + 1 < a.regs.length → a.cell r = ⟨.f64 x st, 0⟩ → b.cell r = ⟨.f64 x st, 0⟩ → a.cell (r + 1) = ⟨.f64hi, 0⟩ →
      b.cell (r + 1) = ⟨.f64hi, 0⟩ → g.cell r = ⟨.f64 x st, 0⟩ ∧ g.cell (r + 1) = ⟨.f64hi, 0⟩) ∧
    (∀ q l, q < 7 → l < 32 → bit g.live.toNat l = true → g.pval q l = if bit b.live.toNat l then b.pval q l else a.pval q l) ∧
    ∀ x, x ∈ g.lanes ↔ x ∈ a.lanes ∨ x ∈ b.lanes) ∧
  (∀ (v : Nat) (g : Grp), g.span = false → v < g.regs.length →
    let k := recompress v g
    (∀ r l, l ∈ lanesOf g.live → k.val r l = g.val r l) ∧ k = { g with regs := k.regs } ∧
    (∀ r, v < r → k.cell r = g.cell r) ∧
    (∀ r w vs, r ≤ v → (g.cell r).kind = .e w vs → (g.cell r).rel &&& g.live ≠ 0 → ∃ w', k.cell r = ⟨.e w' vs, (g.cell r).rel⟩) ∧
    (∀ r vs a n (st : W32), r ≤ v → (g.cell r).kind = .e false vs → (g.cell r).rel &&& g.live = 0 → lanesOf g.live = upto a n → 0 < n →
      (n = 1 → st = 0) → (∀ i, i + 1 < n → nth vs (a + i + 1) 0 - nth vs (a + i) 0 = st) →
      k.cell r = ⟨.f32 (nth vs a 0 - st * BitVec.ofNat 32 a) st, (g.cell r).rel⟩) ∧
    (∀ r vs, r ≤ v → (g.cell r).kind = .e false vs → (∀ b st, ∃ l ∈ lanesOf g.live, nth vs l 0 ≠ formVal b st l) →
      k.cell r = g.cell r) ∧
    (∀ r vs ws a n (st : W32), r % 2 = 0 → r + 1 ≤ v → (g.cell r).kind = .e true vs → (g.cell (r + 1)).kind = .e true ws →
      ((g.cell r).rel ||| (g.cell (r + 1)).rel) &&& g.live = 0 → lanesOf g.live = upto a n → 0 < n → (n = 1 → st = 0) →
      (∀ i, i + 1 < n → g.val64 r (a + i + 1) = g.val64 r (a + i) + st.signExtend 64) →
      k.cell r = ⟨.f64 (g.val64 r a - st.signExtend 64 * BitVec.ofNat 64 a) st, (g.cell r).rel⟩ ∧
        k.cell (r + 1) = ⟨.f64hi, (g.cell (r + 1)).rel⟩)) ∧
  (∀ (v lp : Nat) (g : Grp), g.span = false → v < g.regs.length →
    let k := toSpan v lp g
    let same : Prop := ∀ l ∈ lanesOf g.live, ∀ m ∈ lanesOf g.live, (g.lane l).stack = (g.lane m).stack ∧ (g.lane l).fpctl = (g.lane m).fpctl
    (k = g ∨ ∃ a n, lanesOf g.live = upto a n ∧ k.span = true ∧ k.lo = g.lo + a ∧ k.hi = g.lo + a + n ∧ g.units.length = 1 ∧ same ∧
      (∀ r p, r ≤ v → p < n → k.val r p = g.val r (a + p)) ∧
      (∀ q p, q < 7 → bit lp q = true → p < n → k.pval q p = g.pval q (a + p)) ∧
      (k.lane 0).stack = (g.lane a).stack ∧ (k.lane 0).fpctl = (g.lane a).fpctl ∧ k.stq = g.stq) ∧
    ∀ a n, lanesOf g.live = upto a n → 0 < n → g.units.length = 1 → same →
      (∀ r, r ≤ v → (g.cell r).rel = 0 ∧ ((∃ b st, (g.cell r).kind = .f32 b st) ∨ (∃ b st, (g.cell r).kind = .f64 b st) ∨
        ((g.cell r).kind = .f64hi ∧ ∃ b st, (g.cell (r - 1)).kind = .f64 b st))) →
      (∀ q, q < 7 → bit lp q = true → (g.pcell q).rel = 0 ∧ ∃ c : Cut, ∀ l ∈ lanesOf g.live, g.pval q l = c.at (g.lo + l)) →
      k.span = true) ∧
  (∀ (v lp : Nat) (a b : Grp), a.span = true → b.span = true → v < a.regs.length → a.lo ≤ a.hi → b.lo ≤ b.hi →
    (∀ x ∈ a.lanes ++ b.lanes, x.lane = 0) → (∀ c ∈ a.regs, ∀ w vs, c.kind ≠ .e w vs) →
    (∀ k, mergeSpan v lp a b = some k → k.span = true ∧ k.lo = a.lo ∧ k.hi = b.hi ∧ a.hi = b.lo ∧
      (∀ r p, r ≤ v → k.val r p = if p < a.hi - a.lo then a.val r p else b.val r (p - (a.hi - a.lo))) ∧
      (∀ q p, q < 7 → bit lp q = true → p < b.hi - a.lo →
        k.pval q p = if p < a.hi - a.lo then a.pval q p else b.pval q (p - (a.hi - a.lo))) ∧
      (k.lane 0).stack = (a.lane 0).stack ∧ (k.lane 0).stack = (b.lane 0).stack ∧
      (k.lane 0).fpctl = (a.lane 0).fpctl ∧ (k.lane 0).fpctl = (b.lane 0).fpctl) ∧
    (a.hi ≠ b.lo → mergeSpan v lp a b = none) ∧
    ((∃ x ∈ a.lanes, ∃ y ∈ b.lanes, x.stack ≠ y.stack ∨ x.fpctl ≠ y.fpctl) → mergeSpan v lp a b = none))

/-- R110, R126, R321, R341, R343 to R346: saving and restoring. A block to be saved for a fetch fault, or for a pre-emption,
goes to a free slot once it may; a saved one returns where there is room once its page is executable or its launch
runs again; PRE-EMPT, RESUME and KILL start on a launch that is in the state they need and are turned away otherwise;
a killed launch ends once nothing of it is left. A saved block keeps its registers, predicates, stacks, private memory
and scratchpad; its slot receives the scratchpad's bytes, then the registers by window and register; restored from an
unchanged slot it has them all again, from a changed one free values; a scratchpad sector that fails its check ends the
block as a storage error does. It rests on choices of the model, logs 56, 60 and 95. -/
def Obligations.SwapEvents : Prop :=
  (∀ (s : State) (b : Block) (l : Launch), s.block? b.bid = some b → s.launch? b.lid = some l →
    (∀ page slot, b.faultPage = some page → b.saving = true → l.st = .running → s.freeSlot l = some slot →
      (s.savable b = true → exec (.fetchFaultSwap b.bid) s = .next (s.saveBlock b l slot (.swapped slot page))) ∧
      (s.savable b = false → exec (.fetchFaultSwap b.bid) s = .next s)) ∧
    (∀ page, b.faultPage = some page → b.saving = true → l.st = .running → s.freeSlot l = none →
      exec (.fetchFaultSwap b.bid) s = .next (s.setBlock { b with saving := false })) ∧
    (∀ slot, l.st = .preempting → b.saving = true → s.savable b = true → s.freeSlot l = some slot →
      (∀ k ∈ s.startedOf l, k.st = .running → s.savable k = true) →
      exec (.blockSave b.bid) s = .next (s.saveBlock b l slot (.preempted slot))) ∧
    (∀ core slot page t u, l.st = .running → b.st = .swapped slot page →
      s.fetchable l.ctx (coreDie core) b.bid page = (t, true) → t.restoreBlock b core = some u →
      exec (.swapRestore b.bid core) s = .next u) ∧
    (∀ core slot u, l.st = .running → b.st = .preempted slot → l.progress ≠ 2 → s.restoreBlock b core = some u →
      exec (.swapRestore b.bid core) s = .next u)) ∧
  (∀ (s : State) (part : Nat) (l : Launch),
    (∀ op, s.lctlHead part = some (op, none) →
      (op = 1 → exec (.preEmpt part) s = .next (s.lctlDone part 1)) ∧
      (op = 2 → exec (.launchResume part) s = .next (s.lctlDone part 1)) ∧
      (op = 3 → exec (.kill part) s = .next (s.lctlDone part 1))) ∧
    (s.lctlHead part = some (1, some l) →
      (l.st ≠ .running → exec (.preEmpt part) s = .next (s.lctlDone part 3)) ∧
      (l.st = .running →
        let need := ((s.startedOf l).filter fun b => b.st.slot?.isNone).length
        (l.slots - (s.slotsHeld l).length < need → exec (.preEmpt part) s = .next (s.lctlDone part 2)) ∧
        (need ≤ l.slots - (s.slotsHeld l).length →
          let marked : List Block := s.blocks.map fun b =>
            if b.lid = l.lid ∧ b.st = .running then { b with saving := true } else b
          exec (.preEmpt part) s = .next ({ s.onLaunch l.lid fun l => { l with st := .preempting } with
            blocks := marked }.lctlStarted part)))) ∧
    (s.lctlHead part = some (2, some l) →
      (l.st ≠ .preempted → exec (.launchResume part) s = .next (s.lctlDone part 3)) ∧
      (l.st = .preempted → exec (.launchResume part) s =
        .next ((s.onLaunch l.lid fun l => { l with st := .running }).lctlStarted part))) ∧
    (s.lctlHead part = some (3, some l) →
      (l.killed = true → exec (.kill part) s = .next (s.lctlDone part 3)) ∧
      (l.killed = false → exec (.kill part) s =
        .next (((s.onLaunch l.lid fun l => { l with st := .killing false, status := 2 }).killSweep l).lctlStarted part)))) ∧
  (∀ (s : State) (l : Launch), s.launch? l.lid = some l → l.killed = true →
    let t := s.killSweep l
    (t.drained l = true → exec (.quiesceTokenReturn l.lid) s = .next (t.closeLaunch l)) ∧
    (t.drained l = false → exec (.quiesceTokenReturn l.lid) s = .next t)) ∧
  (∀ (s t : State) (b : Block) (l : Launch) (core slot : Nat), s.launch? b.lid = some l → b.st.slot? = some slot →
    s.restoreBlock b core = some t → s.settled b = true ∧ (s.room l core).isSome ∧
      (l.redundant = true → coreDie core = coreDie b.core)) ∧
  -- R344: what a slot receives and a saved block keeps
  (∀ (s : State) (b : Block) (l : Launch) (slot : Nat) (st : BSt), s.block? b.bid = some b →
    (∀ k, (sectorsOf 0 l.s).find? (sectorBad b.sums) = some k →
      s.saveBlock b l slot st = s.storageEnd b ⟨b.num, 0, 0, 0xFFFFF00000000000 + 32 * k, ⟨0, 0, 0⟩, 0, 9, 0, coreDie b.core⟩) ∧
    ((∀ k ∈ sectorsOf 0 l.s, sectorBad b.sums k = false) → isDram (l.slotAt slot) = true → ∃ k, (s.saveBlock b l slot st).block? b.bid = some k ∧
      k.st = st ∧ k.spad = b.spad ∧ k.absent = b.absent ∧ k.priv = b.priv ∧ k.bars = b.bars ∧ k.tbs = b.tbs ∧ k.parts = b.parts ∧
      k.groups.map (fun g => (g.gid, g.span, g.lo, g.hi, g.regs, g.preds, g.units, g.stq)) =
        b.groups.map (fun g => (g.gid, g.span, g.lo, g.hi, g.regs, g.preds, g.units, g.stq)) ∧
      k.groups.map (fun g => g.lanes.map fun x => (x.lane, x.stack, x.fpctl)) =
        b.groups.map (fun g => g.lanes.map fun x => (x.lane, x.stack, x.fpctl)) ∧
      (∀ j, j < l.s → nth k.slotImg j 0 = b.spad.read j) ∧
      (∀ j, j < nth l.areas 1 0 → nth k.slotImg (l.s + j) 0 = k.regByte l j) ∧
      ((∀ a ∈ upto (l.slotAt slot) k.slotImg.length, s.paOk l.ctx.part a = true) →
        (s.saveBlock b l slot st).mem = s.mem.writeN (l.slotAt slot) k.slotImg))) ∧
  (∀ (b : Block) (l : Launch) (g : Grp) (w r lane k : Nat), r < l.g → lane < 32 → k < 4 → g ∈ b.groups →
    let i := (l.blockRange b.num).1 / 32 * 32 + 32 * w + lane
    (∀ h ∈ b.groups, h.lo ≤ i → i - h.lo ∈ h.positions → h = g) → g.lo ≤ i → i - g.lo ∈ g.positions → (g.cell r).rel = 0 →
    b.regByte l (128 * (l.g * w + r) + 4 * lane + k) = nth (leBytes 4 (g.val r (i - g.lo)).toNat) k 0) ∧
  -- R344: what a restored block has
  ∀ (s t : State) (b : Block) (l : Launch) (core slot : Nat), s.block? b.bid = some b → s.launch? b.lid = some l →
    b.st.slot? = some slot → (∀ a ∈ upto (l.slotAt slot) l.z, s.paOk l.ctx.part a = true ∧ isDram a = true) →
    (∀ k ∈ sectorsOf (l.slotAt slot) l.z, sectorBad s.sums k = false) → s.restoreBlock b core = some t →
    t.mem = s.mem ∧ ∃ k, t.block? b.bid = some k ∧ k.st = .running ∧ k.core = core ∧
      k.groups.map (fun g => (g.gid, g.span, g.lo, g.hi, g.preds, g.lanes, g.stq)) =
        b.groups.map (fun g => (g.gid, g.span, g.lo, g.hi, g.preds, g.lanes, g.stq)) ∧
      k.groups.map (·.units) = b.groups.map (fun g => g.units.map ISet.refetch) ∧
      (s.homeBytes (l.slotAt slot) l.z = b.slotImg → k.spad = b.spad ∧ k.absent = b.absent ∧ k.priv = b.priv ∧
        k.bars = b.bars ∧ k.tbs = b.tbs ∧ k.parts = b.parts ∧ k.groups.map (·.regs) = b.groups.map (·.regs)) ∧
      (s.homeBytes (l.slotAt slot) l.z ≠ b.slotImg → k.spad = b.spad.writeN 0 (freeBytes s.free l.s))

/-! ### Faults, queues and the outside -/

/-- R158, R159, R197, R298, R303, R310 to R313, R319, R330 to R333, R336, R342, R360, R361, R369, R370: traps that waited,
replays, the page scanner and its verdicts, the fields that a fault record and a report receive and what a group does
behind them, held records and reports, latches and postcards, the queues and the control cores that serve them,
invalidations. It rests on choices of the model, logs 28, 31, 40, 61, 63, 64, 78, 86 and 93. -/
def Obligations.QueueAndFaultEvents : Prop :=
  -- TRAP_ENTRY
  (∀ (q : Who) (s : State) (e : Env) (r : TrapReq), s.env? q = some e → e.unit.stat = .trapHeld r →
    let mine := e.grp.lo + e.first
    let kernel : Prop := ∃ b g l, e.who = .kern b g l
    let taken : Prop := ∃ c ∈ s.traps, c.core = e.core ∧ c.part = e.part
    let first : Prop := ∀ y ∈ s.trapQueue e.core e.part, r.pos < y.1.pos ∨ (r.pos = y.1.pos ∧ mine ≤ y.2.1)
    let landing : Prop := ∃ a ∈ s.atoms, a.bid = e.bid ∧ ∃ p ∈ e.members, e.idx p = a.idx
    let u : ISet := { e.unit with stat := .ready }
    ((kernel → ¬taken ∧ first) → ¬landing → exec (.trapEntry q) s = .next ((s.onUnit q fun u => { u with stat := .ready }).enterTrap
      { e with unit := u, grp := (e.grp.onLanes e.unit fun l => { l with flight := [] }).setUnit u } r)) ∧
    ((kernel ∧ (taken ∨ ¬first)) ∨ landing → exec (.trapEntry q) s = .next s)) ∧
  -- REPLAY
  (∀ (s : State) (part : Nat) (ctx : BitVec 16), ∃ t, exec (.replay part ctx) s = .next t ∧
    t.xregs = (s.onXreg part fun x => { x with rplCtx := ctx }).xregs ∧ t.mem = s.mem ∧ t.blocks.length = s.blocks.length ∧
    ∀ (k : Nat) (b b' : Block), s.blocks[k]? = some b → t.blocks[k]? = some b' →
      ((∀ l, s.launch? b.lid = some l → ¬(l.ctx.ctxid = ctx ∧ l.ctx.part = part)) → b' = b) ∧
      ∀ l, s.launch? b.lid = some l → l.ctx.ctxid = ctx → l.ctx.part = part →
        (∀ (i : Nat) (g : Grp), b.groups[i]? = some g → ∃ g' : Grp, b'.groups[i]? = some g' ∧ g' = { g with units := g'.units } ∧
          ∀ (j : Nat) (u : ISet), g.units[j]? = some u →
            g'.units[j]? = some (if u.stat = .dataFault 1 ∨ u.stat = .dataFault 2 ∨ u.stat = .dataFault 3 then { u with stat := .ready }
              else u)) ∧
        ∀ (i : Nat) (r : EReq), b.eng[i]? = some r →
          b'.eng[i]? = some (if r.fault = some 1 ∨ r.fault = some 2 ∨ r.fault = some 3 then { r with fault := none } else r)) ∧
  -- PAGE_SCAN, and the walk of a frame
  (∀ (s : State) (die frame : Nat),
    let able : Prop := s.bring.up 5 = true ∧ isFabric (4096 * frame) = false ∧ s.usable die (4096 * frame) = true ∧
      ∃ x ∈ s.tlb, x.part = s.partOf die ∧ bit x.entry.toNat 4 = true ∧ x.covers frame = true
    let words := (upto 0 1024).map fun i => s.homeNat (4096 * frame + 4 * i) 4
    (¬able ∨ (∃ r ∈ (s.die die).scan, r.frame = frame) → exec (.pageScan die frame) s = .next s) ∧
    (able → (∀ r ∈ (s.die die).scan, r.frame ≠ frame) →
      exec (.pageScan die frame) s = .next (s.onDie die fun d => { d with scan := d.scan ++ [scanFrame frame words] }))) ∧
  (∀ (frame : Nat) (ws : List Nat),
    let a := scanWords ⟨.seg, [], [], [], []⟩ 0 ws
    let fails (p c : Nat) : Prop := (p, c) ∈ a.bad ∨
      (c = 10 ∧ ∃ t : Nat, (p, (t : Int)) ∈ a.targets ∧ t < 1024 ∧ t ∉ a.starts) ∨
      (c = 11 ∧ p ∈ a.after ∧ ¬(p + 1 < 1024 ∧ bits (nth ws (p + 1) 0) 31 26 = 0x38))
    let r := scanFrame frame ws
    r.frame = frame ∧ r.starts = a.starts ∧ (r.bad = none ↔ ∀ p c, ¬fails p c) ∧
    ∀ p c, r.bad = some (p, c) → fails p c ∧ ∀ p' c', fails p' c' → p < p' ∨ (p = p' ∧ c ≤ c')) ∧
  (∀ (a : ScanAcc) (p w last left sw : Nat) (run : Bool),
    let kind := bits w 31 26
    let own : List (Nat × Nat) := match decodeNat w with
      | .ok _ => a.bad
      | .error e => (p, e.code) :: a.bad
    let stops (code : Nat) : Prop := a.step p w = { a with mode := .stopped, bad := (p, code) :: own }
    let len := bits w 25 16
    let n := bits w 25 21
    let entries := bits w 17 8 + 1
    let op := bits w 27 24
    (a.mode = .stopped → a.step p w = a) ∧
    (a.mode = .pad → (w = 0 → a.step p w = a) ∧
      (w ≠ 0 → stops 13)) ∧
    (a.mode = .seg → (w = 0 → a.step p w = { a with mode := .pad }) ∧ (w ≠ 0 → kind ≠ 0x38 → stops 6) ∧
      (kind = 0x38 → 1024 ≤ p + len → a.step p w = { a with mode := .stopped, bad := (p, 7) :: a.bad }) ∧
      (kind = 0x38 → p + len < 1024 → p ≠ 1023 →
        a.step p w = { a with mode := .body (p + len) false, starts := p :: a.starts })) ∧
    (a.mode = .body last run → kind = 0x39 → (n = 0 ∨ 24 < n ∨ last ≤ p + n → stops 8) ∧
      (1 ≤ n → n ≤ 24 → p + n < last → a.step p w = { a with mode := .run n last, bad := own })) ∧
    (a.mode = .body last false → kind ≠ 0x39 → stops 8) ∧
    (a.mode = .body last true → kind ≠ 0x39 →
      (bits w 31 28 ≠ 12 ∨ (op ≠ 8 ∧ p ≠ last) ∨ (op = 8 ∧ p + entries < last) → stops 9) ∧
      (bits w 31 28 = 12 → op = 8 → last < p + entries → stops 12) ∧
      (bits w 31 28 = 12 → op = 8 → p + entries = last → a.step p w = { a with mode := .table entries p last, bad := own }) ∧
      (bits w 31 28 = 12 → op ≠ 8 → p = last →
        let goals : List (Nat × Int) := if op = 0 ∨ op = 3 ∨ op = 9 then [(p, p + sext 24 (bits w 23 0))]
          else if op = 1 then [(p, p + sext 20 (bits w 19 0))] else []
        let next : List Nat := if op = 1 ∨ op = 3 ∨ op = 4 ∨ op = 7 then [p] else []
        a.step p w = { a with mode := .seg, bad := own, targets := goals ++ a.targets, after := next ++ a.after })) ∧
    (a.mode = .run left last → (bits w 31 28 = 14 ∨ bits w 31 28 = 12 → stops 8) ∧
      (bits w 31 28 ≠ 14 → bits w 31 28 ≠ 12 →
        a.step p w = { a with mode := if left = 1 then .body last true else .run (left - 1) last, bad := own })) ∧
    (a.mode = .table left sw last → a.step p w = { a with
      mode := if left = 1 then .seg else .table (left - 1) sw last, targets := (p, (sw : Int) + sext 32 w) :: a.targets })) ∧
  -- FAULT_RECORD_WRITE, REPORT, and the rings
  (∀ (s : State) (c : Ctx) (data : Nat),
    let p := s.partNat c.part (c.desc + 40) 4
    let k := s.partNat c.part (c.desc + 44) 4
    let q := s.partNat c.part (c.mbox + 28) 4
    let m := s.partNat c.part (c.mbox + 24) 4
    let free (prod : Nat) : Prop := ∀ x ∈ s.rings, ¬(x.part = c.part ∧ x.prod = prod)
    let slot := c.fqBase + 64 * (p % 2 ^ c.fqlog)
    let place := c.mbox + 256 + 64 * (q % 60)
    (free (c.desc + 40) → wrap 32 ((p : Int) - k) = 2 ^ c.fqlog → s.faultPut c data = .stuck) ∧
    (free (c.desc + 40) → wrap 32 ((p : Int) - k) ≠ 2 ^ c.fqlog → isDram slot = true → isDram (c.desc + 40) = true →
      s.faultPut c data = .done ((s.partWrite c.part slot (leBytes 64 data)).partWrite c.part (c.desc + 40) (leBytes 4 (p + 1)))) ∧
    (free (c.desc + 40) → wrap 32 ((p : Int) - k) ≠ 2 ^ c.fqlog → isFabric slot = true → (∀ a ∈ upto slot 64, s.paOk c.part a = true) →
      ∃ t f, s.faultPut c data = .moved t ∧ t.mem = s.mem ∧ t.fabric = s.fabric ++ [f] ∧ f.write = true ∧ f.pa = slot ∧
        f.bytes = leBytes 64 data) ∧
    (free (c.mbox + 28) → 3840 ≤ m ∨ (q + 3840 - m) % 3840 = 60 → s.reportPut c data = .stuck) ∧
    (free (c.mbox + 28) → m < 3840 → (q + 3840 - m) % 3840 ≠ 60 → isDram place = true → isDram (c.mbox + 28) = true →
      s.reportPut c data = .done ((s.partWrite c.part place (leBytes 64 data)).partWrite c.part (c.mbox + 28)
        (leBytes 4 ((q + 1) % 3840)))) ∧
    ∀ (r : RingW) (prod : Nat) (full : Bool) (slot : Nat) (next : List Byte) (size : Nat),
      s.rings.find? (fun x => x.part == c.part && x.prod == prod) = some r →
      (r.data ≠ data ∨ (∃ f ∈ s.fabric, f.write = true ∧ r.lo ≤ f.fid ∧ f.fid < r.hi) →
        s.slotPut c.part prod full slot next size data = .stuck) ∧
      (r.data = data → (∀ f ∈ s.fabric, f.write = true → ¬(r.lo ≤ f.fid ∧ f.fid < r.hi)) → r.made = true →
        s.slotPut c.part prod full slot next size data =
          .done { s with rings := s.rings.filter fun x => !(x.part == c.part && x.prod == prod) })) ∧
  (∀ (s t : State) (i : Nat) (p : PendRec), s.pend[i]? = some p →
    let held (t : State) : State := { t with pend := dropAt t.pend i }
    let woken (t : State) : State := match p.who with
      | some w => (held t).onUnit w (ISet.unheld p)
      | none => held t
    let goes (t : State) : State := match p.ends with
      | some (bid, how) => (woken t).endBlock bid how
      | none => woken t
    (p.isReport = false → (∀ y ∈ s.pend.take i, y.isReport = false → y.ctx.desc ≠ p.ctx.desc) →
      (s.recPut p.ctx p.data.toNat = .done t → exec (.faultRecordWrite i) s = .next (goes t)) ∧
      (s.recPut p.ctx p.data.toNat = .moved t → exec (.faultRecordWrite i) s = .next t) ∧
      (s.recPut p.ctx p.data.toNat = .stuck → exec (.faultRecordWrite i) s = .next s)) ∧
    (p.isReport = false → (∃ y ∈ s.pend.take i, y.isReport = false ∧ y.ctx.desc = p.ctx.desc) → exec (.faultRecordWrite i) s = .next s) ∧
    (p.isReport = true →
      (∀ y ∈ s.pend.take i, y.isReport = true → y.ctx.mbox ≠ p.ctx.mbox ∧ s.reportPut y.ctx y.data.toNat = .stuck) →
      (s.reportPut p.ctx p.data.toNat = .done t → exec .report s = .next (goes t)) ∧
      (s.reportPut p.ctx p.data.toNat = .moved t → exec .report s = .next t))) ∧
  (∀ s : State, (∀ y ∈ s.pend, y.isReport = true → s.reportPut y.ctx y.data.toNat = .stuck) → exec .report s = .next s) ∧
  -- what a fault record and a report hold (R332, R361), and how they are made (R298, R331, R342, R360)
  (∀ (r : Rec) (l : Launch), l.lseq < 2 ^ 64 → r.num < 2 ^ 64 → r.seg < 2 ^ 64 → r.word < 2 ^ 64 → r.addr < 2 ^ 64 →
    r.who.idx < 2 ^ 40 → r.who.lmask < 2 ^ 32 → r.who.count < 2 ^ 11 → r.level < 8 → r.kind < 16 → r.acc < 16 → r.die < 4 →
    let x := r.image l
    bits x 511 448 = l.sitePc.toNat ∧ bits x 447 384 = l.lseq ∧ bits x 383 320 = r.num ∧ bits x 319 256 = r.seg ∧
    bits x 255 192 = r.word ∧ bits x 191 128 = r.addr ∧ bits x 127 88 = r.who.idx ∧ bits x 87 56 = r.who.lmask ∧
    bits x 55 45 = r.who.count ∧ bits x 44 42 = r.level ∧ bits x 41 38 = r.kind ∧ bits x 37 34 = r.acc ∧ bits x 33 32 = r.die ∧
    bits x 31 16 = l.fdom.toNat ∧ bits x 15 0 = l.ctx.ctxid.toNat) ∧
  (∀ (l : Launch) (num pc addr kind flags data : Nat) (n : Named), l.lseq < 2 ^ 64 → num < 2 ^ 64 → pc < 2 ^ 64 → addr < 2 ^ 64 →
    n.idx < 2 ^ 40 → n.lmask < 2 ^ 32 → n.count < 2 ^ 11 → kind < 32 → flags < 256 → data < 2 ^ 96 →
    let x := reportImage l num pc addr n kind flags data
    bits x 511 448 = l.sitePc.toNat ∧ bits x 447 384 = l.lseq ∧ bits x 383 320 = num ∧ bits x 319 256 = pc ∧
    bits x 255 192 = addr ∧ bits x 191 152 = n.idx ∧ bits x 151 120 = n.lmask ∧ bits x 119 109 = n.count ∧
    bits x 108 104 = kind ∧ bits x 103 96 = flags ∧ bits x 95 0 = data) ∧
  (∀ (s : State) (e : Env) (b : Block) (l : Launch) (n i k level acc : Nat) (addr : W64) (ps : List Nat), e.who = .kern n i k →
    e.unit.half = none → s.block? e.bid = some b → e.launch = some l → s.launch? b.lid = some l →
    let r (kind : Nat) := e.fault kind level acc addr.toNat ps
    let busy : Prop := ∃ p ∈ s.pend, p.ctx.desc = l.ctx.desc ∧ p.isReport = false
    let kept (x : Nat) (who : Option Who) (ends : Option (Nat × Ending)) : State :=
      { s with pend := s.pend ++ [⟨l.ctx, false, BitVec.ofNat 512 x, who, ends⟩] }
    (∀ kind, (r kind).num = e.num ∧ (r kind).word = e.unit.pc.toNat ∧ (r kind).addr = addr.toNat ∧ (r kind).kind = kind ∧
      (r kind).level = level ∧ (r kind).acc = acc ∧ (r kind).die = e.die ∧ (r kind).who = e.named ps ∧
      (0 < e.unit.left ∨ isSegh e.unit.word = false → (r kind).seg = e.unit.seg.toNat)) ∧
    (∀ kind, kind = 4 ∨ kind = 8 → s.dataFault e kind level acc addr ps = s.endFault b (r kind)) ∧
    (s.dataFault e 9 level acc addr ps = s.storageEnd b { r 9 with level := 0 }) ∧
    (∀ kind, kind = 1 ∨ kind = 2 ∨ kind = 3 →
      (∀ t, ¬busy → s.recPut l.ctx ((r kind).image l) = .done t →
        s.dataFault e kind level acc addr ps = t.onUnit e.who fun u => { u with stat := .dataFault kind }) ∧
      (busy ∨ s.recPut l.ctx ((r kind).image l) = .stuck →
        s.dataFault e kind level acc addr ps =
          (kept ((r kind).image l) (some e.who) none).onUnit e.who fun u => { u with stat := .ringWait })) ∧
    ∀ q : Rec,
      (∀ t, ¬busy → s.recPut l.ctx (q.image l) = .done t → s.endFault b q = t.endBlock b.bid .policy) ∧
      (busy ∨ s.recPut l.ctx (q.image l) = .stuck → ∃ t, s.endFault b q = t ∧
        t.pend = (kept (q.image l) none (some (b.bid, .policy))).pend ∧ t.mem = s.mem ∧
        ∀ y ∈ t.blocks, y.lid = b.lid → y.num = b.num → y.st ≠ .ended → y.satchel = [] ∧ y.commit = none ∧
          ∀ g ∈ y.groups, ∀ u ∈ g.units, u.stat = .ringWait)) ∧
  (∀ (s : State) (c : Ctx) (x : Nat),
    (s.faultPut c x = .stuck → s.recPut c x = .stuck) ∧ (∀ t, s.faultPut c x = .moved t → s.recPut c x = .moved t) ∧
    ∀ t, s.faultPut c x = .done t → s.recPut c x =
      .done (if bits x 41 38 = 11 ∨ bits x 41 38 = 12 then (t.trigger c 4).trigger c 5 else t.trigger c 4)) ∧
  (∀ (s : State) (c : Ctx) (x : Nat) (who : Option Who),
    let busy : Prop := ∃ p ∈ s.pend, p.ctx.mbox = c.mbox ∧ p.isReport = true
    let kept : State := { s with pend := s.pend ++ [⟨c, true, BitVec.ofNat 512 x, who, none⟩] }
    (c.mbox = 0 → s.report c x who = s) ∧
    (∀ t, c.mbox ≠ 0 → ¬busy → s.reportPut c x = .done t → s.report c x who = t) ∧
    (c.mbox ≠ 0 → busy ∨ s.reportPut c x = .stuck → s.report c x who = match who with
      | none => kept
      | some w => kept.onUnit w fun u => if u.stat = .ready ∨ u.stat = .fold then { u with stat := .ringWait } else u)) ∧
  -- SNAPSHOT_LATCH
  (∀ (s : State) (part unit inst : Nat),
    let d := nth s.dbg part ⟨[], [], false, []⟩
    (d.fired = false → exec (.snapshotLatch part unit inst) s = .next s) ∧
    (d.fired = true → 1 ≤ unit → unit ≤ 13 → (∀ k ∈ d.snaps, ¬(k.unit = unit ∧ k.inst = inst)) →
      ∃ (t : State) (data : BitVec 512), exec (.snapshotLatch part unit inst) s = .next (t.onDbg part fun d =>
        { d with snaps := d.snaps ++ [⟨unit, inst, data⟩] }) ∧ t.dbg = s.dbg ∧ t.mem = s.mem)) ∧
  -- POSTCARD
  (∀ (s : State) (i : Nat) (c : CardReq), s.cards[i]? = some c →
    let part := c.ctx.part
    let ring := s.partNat part (c.ctx.mbox + 40) 8
    let prod := s.partNat part (c.ctx.mbox + 36) 4
    let slot := bits ring 51 12 * 4096 + 64 * (prod % 2 ^ bits ring 4 0)
    let full : Prop := wrap 32 ((prod : Int) - s.partNat part (c.ctx.mbox + 32) 4) = 2 ^ bits ring 4 0
    let off : Prop := bits (s.partNat part c.ctx.mbox 1) 7 4 = 0
    (s.unperformed c = true → exec (.postcard i) s = .next s) ∧
    (s.unperformed c = false → (∀ x ∈ s.rings, ¬(x.part = part ∧ x.prod = c.ctx.mbox + 36)) →
      (off ∨ full → exec (.postcard i) s = .next { s with cards := dropAt s.cards i }) ∧
      (¬off → ¬full → isDram slot = true → isDram (c.ctx.mbox + 36) = true →
        c.lseq < 2 ^ 64 → c.die < 4 → c.acc < 16 → c.idx < 2 ^ 40 →
        ∃ x : Nat, bits x 511 448 = c.sitePc.toNat ∧ bits x 447 384 = c.lseq ∧ bits x 383 320 = c.word.toNat ∧
          bits x 319 256 = c.addr.toNat ∧ bits x 255 246 = 0 ∧ bits x 245 244 = c.die ∧ bits x 243 240 = c.acc ∧
          bits x 127 88 = c.idx ∧ bits x 71 0 = 0 ∧
          let w : State := (s.partWrite part slot (leBytes 64 x)).partWrite part (c.ctx.mbox + 36) (leBytes 4 (prod + 1))
          exec (.postcard i) s = .next { w with cards := dropAt s.cards i }))) ∧
  -- QUEUE_POST, QUEUE_ENABLE, REGISTER_WRITE
  (∀ (s : State) (q : Nat) (v : W32) (x : W64), q < 2048 →
    let r := s.queue q
    let observed (r : QReg) (t : State) : Prop :=
      let bad : Prop := r.qlog.toNat < 4 ∨ 12 < r.qlog.toNat ∨ 2 ^ r.qlog.toNat < (r.post - r.done).toNat
      let seen := (s.setQueue r).dropCaches (192 + q / 256)
      let posted : List Nat := (upto 1 (r.post - r.done).toNat).map fun j =>
        r.qbase.toNat + 64 * ((r.done + BitVec.ofNat 32 j).toNat % 2 ^ r.qlog.toNat)
      (r.enable = false → t = s.setQueue r) ∧
      (r.enable = true → bad → t = (s.setQueue r).setQueue { r with qerr := 1, enable := false, recs := [] }) ∧
      (r.enable = true → ¬bad → (∃ a ∈ posted, s.usable (q / 512) a = false) → t = (s.setQueue r).setQueue { r with recs := [] }) ∧
      (r.enable = true → ¬bad → (∀ a ∈ posted, s.usable (q / 512) a = true) →
        t = seen.setQueue { r with recs := posted.map fun a => BitVec.ofNat 512 (seen.partNat (s.partOf (q / 512)) a 64) })
    let r' : QReg := { r with
      qbase := BitVec.ofNat 64 (r.qbase.toNat / 4096 * 4096), qlog := BitVec.ofNat 4 (bits x.toNat 35 32)
      qerr := r.qerr &&& ~~~(BitVec.ofNat 4 (bits x.toNat 39 36)), enable := bit x.toNat 31 }
    (v = r.post → exec (.queuePost q v) s = .next (s.onCc (q / 256) fun k => { k with halted := false })) ∧
    (v ≠ r.post → ∃ t, observed { r with post := v } t ∧
      exec (.queuePost q v) s = .next (t.onCc (q / 256) fun k => { k with halted := false })) ∧
    (r.enable = true ∧ r'.enable = true ∧ r'.overrun = false → exec (.queueEnable q x) s = .next (s.setQueue r')) ∧
    (¬(r.enable = true ∧ r'.enable = true ∧ r'.overrun = false) → ∃ t, observed r' t ∧ exec (.queueEnable q x) s = .next t) ∧
    exec (.registerWrite (regsBase + 64 * q + 40) (leBytes 8 x.toNat)) s = exec (.queueEnable q x) s) ∧
  (∀ (s : State) (p : Nat) (v : W64) (c : BitVec 16), p < 4 →
    exec (.registerWrite (regsBase + 0x20000 + 0x1000 * p) (leBytes 8 v.toNat)) s = exec (.tlbInvalidate p v) s ∧
    exec (.registerWrite (regsBase + 0x20000 + 0x1000 * p + 16) (leBytes 2 c.toNat)) s = exec (.replay p c) s ∧
    exec (.registerWrite (regsBase + 0x30000 + 0x1000 * p) (leBytes 8 v.toNat)) s = .next (s.onLctl p fun l =>
      let op := BitVec.ofNat 2 (bits v.toNat 1 0)
      { l with op := op, pend := if op = 0 then l.pend else l.pend ++ [(op.toNat, l.sitePc, l.seq)] })) ∧
  (∀ (s : State) (a : Nat) (bs : List Byte), winOf a = .regs → 0x40000 ≤ a - regsBase → bs.length ≤ 1 →
    exec (.registerWrite a bs) s = .next s) ∧
  (∀ (s : State) (q o : Nat) (bs cs : List Byte), q + 1 < 2048 → bs ≠ [] → o + bs.length = 64 → cs ≠ [] → cs.length ≤ 64 →
    ∃ t, exec (.registerWrite (regsBase + 64 * q + o) bs) s = .next t ∧
      exec (.registerWrite (regsBase + 64 * q + o) (bs ++ cs)) s = exec (.registerWrite (regsBase + 64 * (q + 1)) cs) t) ∧
  -- the control cores
  (∀ (s : State) (k : CCore) (q : Nat) (w : BitVec 512) (r : List (BitVec 512)), s.cc? k.num = some k → k.cmd = none →
    k.trap = none → s.bring.control = true → s.nextQueue k = some q → (s.queue q).recs = w :: r →
    let x := w.toNat
    let part := s.partOf (k.num / 2)
    let seq := BitVec.ofNat 32 (bits x 127 96)
    let fails (code : Nat) : State :=
      (s.setQueue { s.queue q with qerr := BitVec.ofNat 4 code, enable := false, recs := [] }).onCc k.num fun k =>
        { k with lastQ := q }
    let good : Prop := bits x 127 96 = ((s.queue q).done + 1).toNat ∧ bits x 95 80 ≤ 1 ∧ bits x 79 0 = 0
    (¬good → exec (.programCommand k.num) s = .next (fails 2)) ∧
    (∀ c, good → bits x 95 80 = 0 → bits x 511 448 ≠ 0 → s.descriptor part (bits x 511 448) = some c →
      exec (.programCommand k.num) s = .next (s.onCc k.num fun k => { k with
        ctx := some c, lastQ := q, cmd := some ⟨q, seq, none⟩, halted := false, grp := k.program q x c.fpctlDef })) ∧
    (good → bits x 511 448 ≠ 0 → s.descriptor part (bits x 511 448) = none →
      (bits x 95 80 = 0 → exec (.programCommand k.num) s = .next (fails 3)) ∧
      (bits x 95 80 = 1 → exec (.crossQueueFence k.num) s = .next (fails 3))) ∧
    (good → bits x 95 80 = 1 → bits x 511 448 = 0 → s.partOf (bits x 330 320 / 512) ≠ part →
      exec (.crossQueueFence k.num) s = .next (fails 4)) ∧
    (good → bits x 95 80 = 1 → bits x 511 448 = 0 → s.partOf (bits x 330 320 / 512) = part →
      exec (.crossQueueFence k.num) s = .next (s.onCc k.num fun k' => { k' with
        ctx := k.ctx, lastQ := q, cmd := some ⟨q, seq, some (bits x 330 320, BitVec.ofNat 32 (bits x 287 256))⟩
        halted := false
        grp := { k'.grp with lanes := k'.grp.lanes.map fun l => { l with fpctl := (k.grp.lane 0).fpctl } } }))) ∧
  (∀ (k : CCore) (q x : Nat) (fp : BitVec 3),
    let g := k.program q x fp
    let word (hi : Nat) : W64 := BitVec.ofNat 64 (bits x hi (hi - 63))
    g.span = true ∧ g.lo = 0 ∧ g.hi = 1 ∧ g.stq = k.grp.stq ∧ (∀ l ∈ g.lanes, l.stack = [] ∧ l.fpctl = fp) ∧
    (∃ u, g.units = [u] ∧ u.pc = word 447 ∧ u.stat = .ready) ∧
    g.val64 0 0 = word 383 ∧ g.val64 2 0 = word 319 ∧ g.val64 4 0 = word 255 ∧ g.val64 6 0 = word 191 ∧
    g.val 8 0 = BitVec.ofNat 32 (q % 256) ∧ g.val 9 0 = BitVec.ofNat 32 (bits x 127 96)) ∧
  (∀ (s : State) (k : CCore) (m q : Nat) (seq n : W32), s.cc? k.num = some k → k.cmd = some ⟨m, seq, some (q, n)⟩ →
    (((s.queue q).done - n).toNat < 2 ^ 31 → s.ccQuiet k = true →
      exec (.crossQueueFenceDone k.num) s = .next (s.commandDone k.num)) ∧
    (2 ^ 31 ≤ ((s.queue q).done - n).toNat → exec (.crossQueueFenceDone k.num) s = .next s)) ∧
  (∀ (s : State) (c : Nat), exec (.haltWake c) s = .next (s.onCc c fun k => { k with halted := false })) ∧
  -- TLB_INVALIDATE and INVALIDATION_COMPLETE
  (∀ (s : State) (part : Nat) (v : W64),
    (bits v.toNat 47 46 = 3 → exec (.tlbInvalidate part v) s = .next s) ∧
    (bits v.toNat 47 46 ≠ 3 →
      let w := v &&& BitVec.ofNat 64 0xFFFFC1FFFFFFFFFF
      exec (.tlbInvalidate part v) s = .next (s.onXreg part fun x => { x with tlbi := w, pend := x.pend ++ [w] }))) ∧
  ∀ (s : State) (part : Nat) (v : W64) (r : List W64), (nth s.xregs part ⟨0, 0, 0, []⟩).pend = v :: r →
    ((∃ y ∈ s.outstanding, s.tlbiWaitsFor part v y = true) → exec (.invalidationComplete part) s = .next s) ∧
    ((∀ y ∈ s.outstanding, s.tlbiWaitsFor part v y = false) → ∃ t, exec (.invalidationComplete part) s = .next t ∧
      t.tlb = s.tlb.filter (fun y => !tlbCovered part v y) ∧ t.mem = s.mem ∧
      t.xregs = (s.onXreg part fun x => { x with pend := x.pend.drop 1, tlbiDone := x.tlbiDone + 1 }).xregs ∧
      (∀ d ∈ t.dies, s.partOf d.num = part → ∀ y ∈ d.scan, ∀ z ∈ s.tlb, tlbCovered part v z = true → z.covers y.frame = false) ∧
      ∀ z : TlbE, tlbCovered part v z = true ↔ (z.part = part ∧
        let ctx := BitVec.ofNat 16 (bits v.toNat 63 48)
        let page := bits v.toNat 40 0
        let leaf : Prop := bit z.entry.toNat 1 = false ∨ z.level = 5
        (bits v.toNat 47 46 = 0 → z.ctx = ctx ∧ (¬leaf ∨ z.va / 2 ^ 16 = page ∨ (z.level = 2 ∧ z.va / 2 ^ 29 = page / 2 ^ 13) ∨
          (z.level = 3 ∧ z.va / 2 ^ 42 = page / 2 ^ 26) ∨ (z.level = 4 ∧ z.va / 2 ^ 55 = page / 2 ^ 39) ∨
          (z.level = 1 ∧ z.va / 2 ^ 21 = page / 2 ^ 5 ∧ bit z.entry.toNat 6 = true))) ∧
        (bits v.toNat 47 46 = 1 → z.ctx = ctx)))

/-- R110, R111, R306, R346, R375 to R379, R381 to R384: what reaches the machine from outside it: storage errors,
requests and answers of the fabric, resets, management writes, the clock and the self-tests. It rests on choices of
the model, logs 65, 66, 68, 70 and 85. -/
def Obligations.OutsideEvents : Prop :=
  (∀ (s : State) (q : Who) (b : Block) (e : Env) (a : W64) (d : BitVec 16), s.block? e.bid = some b → e.solo = false → s.env? q = some e →
    exec (.storageError (.read q none) a d) s = .next (s.storageEnd b (e.fault 9 0 0 a.toNat e.members))) ∧
  (∀ (s : State) (c : Nat) (e : Env) (a : W64) (d : BitVec 16), s.env? (.cc c) = some e →
    exec (.storageError (.read (.cc c) none) a d) s = .next (s.trapWord e 17 a e.members.length)) ∧
  (∀ (s : State) (bid gid lane n : Nat) (a : W64) (d : BitVec 16) (b : Block) (r : EReq), s.block? bid = some b → b.st ≠ .ended →
    b.eng.find? (fun r => r.rid == n && !r.fin) = some r →
    exec (.storageError (.read (.kern bid gid lane) (some n)) a d) s = .next (s.storageEnd b
      ⟨b.num, r.seg.toNat, r.word.toNat, a.toNat, r.named, 0, 9, r.readAcc, coreDie b.core⟩)) ∧
  (∀ (s : State) (a : W64) (diff : BitVec 16), ∃ t, exec (.storageError .memory a diff) s = .next t ∧ t.mem = s.mem ∧
    (isDram a.toNat = true → diff ≠ 0 → (∀ x ∈ s.sums, x.1 ≠ a.toNat / 32) → t.homeBad 0 (.pa a.toNat) 1 = true)) ∧
  (∀ (s : State) (b : Block) (l : Launch) (r : Rec), s.launch? b.lid = some l → l.idem = false →
    s.storageEnd b r = s.endFault b r) ∧
  (∀ (s : State) (d : Nat), exec (.correctableError d) s = .next (s.onDie d fun k => { k with corrected := k.corrected + 1 })) ∧
  (∀ (s : State) (p o n a : Nat) (w : Bool),
    let own (x : Nat) : Prop := match winOf x with
      | .near => s.partOf (dieOf x) = p
      | .far => s.partOf (dieOf x) = p
      | .regs => s.paOk p x = true ∧ (w = true → answersOnly x = false)
      | _ => False
    s.servedAt p o n w = some a ↔ n ≠ 0 ∧ fabricAddr o = some a ∧ fabricAddr (o + n - 1) = some (a + n - 1) ∧
      ∀ x, a ≤ x → x < a + n → own x) ∧
  (∀ (s : State) (fid off n p a : Nat) (bs : List Byte), s.bring.up 4 = true → s.partOfFid fid = some p →
    let up : Prop := isDram a = true → s.usable (dieOf a) a = true
    let answer (d : Option (List Byte)) : State := { s with answers := s.answers ++ [⟨fid, off, d⟩] }
    (s.servedAt p off n false = some a → up →
      (s.homeBad 0 (.pa a) n = false → exec (.fabricRequest fid off (.read n)) s = .next (answer (some (s.homeBytes a n)))) ∧
      (s.homeBad 0 (.pa a) n = true → exec (.fabricRequest fid off (.read n)) s = .next (answer none))) ∧
    (s.servedAt p off bs.length true = some a → up →
      let t := s.homeWrite a bs
      exec (.fabricRequest fid off (.write bs)) s = .next { t with answers := t.answers ++ [⟨fid, off, some []⟩] }) ∧
    (s.servedAt p off n false = some a → ¬up → exec (.fabricRequest fid off (.read n)) s = .next s) ∧
    (s.servedAt p off n false = none → exec (.fabricRequest fid off (.read n)) s = .next (answer none)) ∧
    (s.servedAt p off bs.length true = none → exec (.fabricRequest fid off (.write bs)) s = .next (answer none))) ∧
  (∀ (s : State) (fid off n : Nat) (bs : List Byte),
    let answer (d : Option (List Byte)) : State := { s with answers := s.answers ++ [⟨fid, off, d⟩] }
    (s.bring.up 4 = true → s.partOfFid fid = none → exec (.fabricRequest fid off (.read n)) s = .next (answer none)) ∧
    (s.bring.up 4 = false → s.bring.hold = false → exec (.fabricRequest fid off (.read n)) s = .next s) ∧
    (s.bring.up 4 = false → s.bring.hold = true → exec (.fabricRequest fid off (.write bs)) s = .next (answer none)) ∧
    (∀ p a, s.bring.up 4 = false → s.bring.hold = true → s.partOfFid fid = some p → s.servedAt p off n false = some a →
      (∀ x, a ≤ x → x < a + n → (regsBase + 0x40000 ≤ x ∧ x < regsBase + 0x40008) ∨
        (regsBase + 0x58000 ≤ x ∧ x < regsBase + 0x58100)) →
      exec (.fabricRequest fid off (.read n)) s = .next (answer (some (s.homeBytes a n))))) ∧
  (∀ (s : State) (f : FabOp) (data : List Byte), s.fabric.find? (·.fid == f.fid) = some f →
    let gone (t : State) : State := { t with fabric := t.fabric.filter (·.fid != f.fid) }
    let has (d : List Byte) (g : FabOp) : FabOp := { g with answered := true, bytes := d }
    let taken (t : State) (d : List Byte) : State := { t with fabric := mapIf (·.fid == f.fid) (has d) t.fabric }.fabricWake f.bid f.idx
    (isFabric f.pa = false ∨ f.answered = true → exec (.fabricCompletion f.fid data) s = .next s) ∧
    (isFabric f.pa = true → f.answered = false → s.sibling f.pa = none →
      (f.write = true → exec (.fabricCompletion f.fid data) s = .next (gone s)) ∧
      (f.write = false → data.length = f.len → exec (.fabricCompletion f.fid data) s = .next (taken s data))) ∧
    (∀ p o, isFabric f.pa = true → f.answered = false → s.sibling f.pa = some (p, o) → f.op = none →
      (s.servedAt p o f.len f.write = none → exec (.fabricCompletion f.fid data) s = exec (.errorCompletion f.fid) s) ∧
      ∀ a, s.servedAt p o f.len f.write = some a →
        if s.usable (dieOf a) a = false then exec (.fabricCompletion f.fid data) s = .next s
        else (f.write = true → exec (.fabricCompletion f.fid data) s = .next (gone (s.homeWrite a f.bytes))) ∧
        (f.write = false → s.homeBad 0 (.pa a) f.len = false →
          exec (.fabricCompletion f.fid data) s = .next (taken s (s.homeBytes a f.len))) ∧
        (f.write = false → s.homeBad 0 (.pa a) f.len = true →
          exec (.fabricCompletion f.fid data) s = exec (.errorCompletion f.fid) s)) ∧
    (f.answered = true → exec (.errorCompletion f.fid) s = .next s) ∧
    (f.answered = false → f.bid = 0 → exec (.errorCompletion f.fid) s = .next (((gone s).fabricWake 0 f.idx).ccFail f.idx f.va)) ∧
    ∀ b : Block, f.answered = false → f.bid ≠ 0 → s.block? f.bid = some b → b.st ≠ .ended →
      (∀ r ∈ b.eng, engIdx r.rid ≠ f.idx) → f.acc ≠ 9 → exec (.errorCompletion f.fid) s = .next ((gone s).storageEnd b
        ⟨b.num, f.src.seg.toNat, f.src.word.toNat, f.va.toNat,
          if f.src.lanes then ⟨f.idx, 2 ^ (f.idx % 32), 1⟩ else ⟨f.idx, 0, 1⟩, 0, 9, f.acc, coreDie b.core⟩)) ∧
  (∀ (s : State) (p : Nat), ∃ t, exec (.partitionReset p) s = .next t ∧ t.mem = s.mem ∧
    (∀ l ∈ t.launches, l.ctx.part ≠ p) ∧ (∀ k ∈ t.ccs, s.partOf (k.num / 2) = p → k = CCore.init k.num) ∧
    (∀ c ∈ t.cores, s.partOf (coreDie c.num) ≠ p) ∧ (∀ q ∈ t.queues, s.partOf (q.num / 512) ≠ p) ∧
    ∀ d ∈ t.dies, s.partOf d.num = p → d.point = [] ∧ d.cyc = 0) ∧
  (∀ s : State, ∃ t, exec .powerOnReset s = .next t ∧
    { t with agenda := State.reset.agenda, free := State.reset.free, tick := State.reset.tick } = State.reset) ∧
  (∀ (s : State) (die off : Nat) (bs : List Byte), die < 4 → off + bs.length ≤ 64 →
    (s.bring.up 0 = false → s.bring.hold = false → exec (.managementWrite die off bs) s = .next s) ∧
    (s.bring.up 0 = true ∨ s.bring.hold = true → die ≠ 0 → exec (.managementWrite die off bs) s =
      .next (s.mgmtPut die (overlay (s.mgmtFull die) off bs)))) ∧
  (∀ (s : State) (d : Nat), exec (.clockLowering d) s = .next (s.onDie d fun k => { k with lowered := k.lowered + 1 })) ∧
  ∀ (s : State) (n : Nat), n < 8 →
    (∃ t, exec (.selfTestComplete n 0) s = .next t ∧ t.bring.hold = s.bring.hold ∧ t.bring.stfail = s.bring.stfail ∧
      ((s.bring.hold = false ∨ n < 6) → bit t.bring.ready.toNat n = true)) ∧
    (∀ t code, exec (.selfTestComplete n code) s = .next t → s.mailbox.length = 256 →
      t.mailbox = s.mailbox.take (8 * n) ++ leBytes 8 code.toNat ++ s.mailbox.drop (8 * n + 8) ∧ t.mailbox.length = 256) ∧
    ∀ code : BitVec 16, code ≠ 0 → ∃ t, exec (.selfTestComplete n code) s = .next t ∧ t.bring.hold = true ∧
      t.bring.control = false ∧ t.bring.compute = false ∧
      t.bring.stfail = (if s.bring.stfail = 0 then code else s.bring.stfail)

/-! ### Encoding -/

/-- R4, R142 to R152: words written out from the spec's layouts decode to the instructions they stand for. -/
def Obligations.DecodeWords : Prop :=
  decode 0x92081003 = .ok (.shli 2 1 3) ∧ decode 0x90101FFF = .ok (.iaddi 4 1 0xFFF) ∧
  decode 0xB18710A4 = .ok (.icmpi 0 4 10 .lt) ∧ decode 0xA0612340 = .ok (.movl 6 0x1234) ∧
  decode 0xD043000A = .ok (.wrs 3 false .fpctl) ∧ decode 0xD0800011 = .ok (.fence .device .release) ∧
  decode 0x52821054 = .ok (.fcmp 2 4 5 .lt 0) ∧ decode 0xD3850086 = .ok (.dbgStep 5 6) ∧
  decode 0xD2A80006 = .ok (.xcht 40 6) ∧ decode 0xD2400000 = .ok .eret

/-- R142 to R152, R159: the word of every well-formed instruction decodes to it, with every operand at every value. -/
def Obligations.EncodeThenDecode : Prop :=
  ∀ (i : Instr) (n : Nat), i.wf = true → encodeNat i = some n → n < 2 ^ 32 ∧ decode (BitVec.ofNat 32 n) = .ok i

/-- R142, R159: a word that decodes is the word of a well-formed instruction: no bit of it is ignored, and no reserved
field, value or register number is accepted. -/
def Obligations.DecodeThenEncode : Prop :=
  ∀ (w : W32) (i : Instr), decode w = .ok i → i.wf = true ∧ encode i = [w]

/-! ### Steps -/

/-- R41, R156, R158, R159: a step that issues runs the instruction the next word decodes to, in the acting agent's
turn; an agent with no word fetched fetches its segment, and a word that does not decode is a code fault. Halts of the
debugger follow (R363, R364), and the mark that a group which stays at its word has had its turn (R28, R42). Without an
agenda the first ready agent issues on every second step. It rests on choices of the model: log 1 for what moves next,
log 13 for a fetch of a whole segment, log 77 for a word that does not decode, and log 88 for the mark. -/
def Obligations.StepRunsDecoded : Prop :=
  ∀ (s : State) (e : Env) (w : Who) (r : List Pick),
    let s' : State := { s with tick := s.tick + 1 }
    let due (n : State) : Prop :=
      (s.agenda = .issue w :: r ∧ n = { s' with agenda := r }) ∨
      (s.agenda = [] ∧ s.tick % 2 = 1 ∧ s'.ready.head? = some w ∧ n = s')
    s.env? w = some e → s.canIssue e = true →
    let still (u : ISet) : Prop := u.stat = .ready ∧ u.pc = e.unit.pc ∧ u.left = e.unit.left ∧ u.code = e.unit.code ∧
      u.half = e.unit.half ∧ u.asked = e.unit.asked
    (∀ (n : State) (x : W32) (ws : List W32) (i : Instr), due n → e.unit.code = x :: ws → decode x = .ok i →
      let m : State := { n.granted e with turn := w }
      (e.solo = true → step s = settleOutcome (exec i m)) ∧
      (e.solo = false → ∃ mark : ISet → ISet,
        (∀ u, (still u → mark u = { u with idle := true, ran := true }) ∧ (¬still u → mark u = { u with idle := false })) ∧
        step s = settleOutcome (match exec i m with
          | .next t => .next (t.onUnit w mark)
          | x => x))) ∧
    (∀ (n : State) (x : W32) (ws : List W32) (d : DecodeError), due n → e.unit.code = x :: ws → decode x = .error d →
      step s = settleOutcome (.next (n.badWord e))) ∧
    (∀ n : State, due n → e.unit.code = [] → step s = settleOutcome (.next (n.fetch e)))

/-- R7, R306, R310, R379, R382, R384: after power-on reset every function is unready, one partition holds all dies,
the management, translation and launch registers read their Reset values, no comparator or watchpoint is set and the
cross-trigger is armed with no snapshot latched, no context is in force, LSEQ and the cycle counters read 0, no queue is
enabled, and nothing runs. The memory is in its canonical form, and every return
stack is empty. It rests on choices of the model, logs 1, 2 and 5. -/
def Obligations.ResetState : Prop :=
  let s := State.reset
  s.bring = ⟨0, 0, false, 0⟩ ∧ s.partcfg = 0 ∧ (∀ d, d < 4 → s.mgmt[d]? = some ⟨0, 0, 0, 0⟩ ∧ s.partOf d = 0) ∧
  (∀ p, p < 4 → (s.xregs[p]?).map (fun x => (x.rplCtx.toNat, x.tlbiDone.toNat, x.pend)) = some (0, 0, []) ∧
    (s.lctls[p]?).map (fun x => (x.stat, x.pend)) = some (0, [])) ∧
  (∀ p, p < 4 → ∃ d, s.dbg[p]? = some d ∧ (∀ c ∈ d.cmps, c = none) ∧ (∀ w ∈ d.wps, w = none) ∧ d.fired = false ∧ d.snaps = []) ∧
  (∀ c, c < 8 → (s.cc? c).map (fun k => (k.ctx, k.lseq, k.cmd, k.trap)) = some (none, 0, none, none)) ∧
  (∀ d, d < 4 → (s.die d).cyc = 0) ∧ s.queues = [] ∧ s.launches = [] ∧ s.blocks = [] ∧ s.traps = [] ∧
  s.mem.wf = true ∧ (∀ k ∈ s.ccs, ∀ l ∈ k.grp.lanes, l.stack = []) ∧ step s = .next { s with tick := 1 }

/-- The bytes of physical memory keep their canonical form over every step, whatever it does: a byte has one entry,
and none where it reads as an unwritten byte does. -/
def Obligations.StepKeepsMemoryCanonical : Prop :=
  ∀ s t : State, s.mem.wf = true → step s = .next t → t.mem.wf = true

/-- R4, R88, R89: bytes written at an address read back, in ascending order, and every other byte keeps its value; a
number reads back little-endian; a write at a home in near or far memory is such a write. Memories that read alike are
equal. It rests on the model's choice of log 4. -/
def Obligations.MemoryReadsBack : Prop :=
  ∀ (m : Memory) (a : Nat) (bs : List Byte), m.wf = true →
    (m.writeN a bs).readN a bs.length = bs ∧
    (∀ b, b < a ∨ a + bs.length ≤ b → (m.writeN a bs).read b = m.read b) ∧
    (∀ n x, (m.setNat a n x).nat a n = x % 2 ^ (8 * n)) ∧
    (∀ s : State, (winOf a = .near ∨ winOf a = .far) → (s.homeWrite a bs).mem = s.mem.writeN a bs) ∧
    ∀ k : Memory, k.wf = true → (∀ b, m.read b = k.read b) → m = k

/-! ### What every word shares -/

/-- R44, R55, R56, R59, R60, R150: before their effect IADD, FADD, LD32 and ST32 trap on a register at or above G,
wait for the result of an atomic they name, and on checked issue trap on a released source and on a broken stall
count, in this order, each trap counting its failing threads. A last use releases its source. HALT, ICINV, ICINV.ALL,
DBG.halt, RDS CORE, WRS CTXD, WRS TPC, LAUNCH, LWAIT, ERET and XCHT raise the privilege trap, before any other check,
where they may not run. It rests on the model's choice of log 25. -/
def Obligations.WordChecks : Prop :=
  ∀ (d a b : RegN) (ka kb wide : Bool) (st : BitVec 2) (off : BitVec 8) (k : BitVec 4),
    let word (e : Env) : W64 := BitVec.ofNat 64 e.unit.word
    let checked (i : Instr) (sh : Shape) : Prop :=
      ∀ (s : State) (e : Env), s.env? s.turn = some e →
        ((∃ r ∈ sh.regs, e.g ≤ r) → exec i s = .next (s.trapWord e 2 (word e) e.count)) ∧
        ((∀ r ∈ sh.regs, r < e.g) →
          (s.scoreboard e sh = true → exec i s = .next s) ∧
          (s.scoreboard e sh = false → e.check = true →
            (e.released sh ≠ 0 → exec i s = .next (s.trapWord e 5 (word e) (e.grp.threads (e.released sh)))) ∧
            (e.released sh = 0 → e.stalled sh ≠ 0 →
              exec i s = .next (s.trapWord e 6 (word e) (e.grp.threads (e.stalled sh)))))) ∧
        (∀ r ∈ sh.srcs, e.grp.relMask e.unit.lanes r ≠ 0 → e.released sh ≠ 0) ∧
        (e.unit.lanes ≠ 0 → ∀ r ∈ sh.rel, r < e.grp.regs.length →
          (s.prepare e sh).2.grp.relMask e.unit.lanes r ≠ 0)
    let memory (srcs dsts : List Nat) : Shape :=
      { srcs := srcs, dsts := dsts, rel := if ka then [a.toNat, a.toNat + 1] else [], lat := none, gap := gapOf st none }
    let bars (i : Instr) (no : Env → Prop) : Prop :=
      ∀ (s : State) (e : Env), s.env? s.turn = some e → no e → exec i s = .next (s.trapWord e 4 (word e) e.count)
    checked (.iadd d a b ka kb wide) (frShape d.toNat wide a.toNat wide (some (b.toNat, wide)) ka kb) ∧
    checked (.fadd d a b ka kb st) { dsts := [d.toNat], srcs := [a.toNat, b.toNat], lat := some 4, gap := gapOf st (some 4),
                                     rel := lastUse ka false a ++ lastUse kb false b } ∧
    checked (.ld32 d a off ka st) (memory [a.toNat, a.toNat + 1] [d.toNat]) ∧
    checked (.st32 d a off ka st) (memory [a.toNat, a.toNat + 1, d.toNat] []) ∧
    bars .halt (fun e => e.level = .kernel) ∧ bars .icinvAll (fun e => e.level = .kernel) ∧
    bars (.icinv a) (fun e => e.level = .kernel) ∧ bars (.dbgHalt d a) (fun e => e.level = .kernel) ∧
    bars (.rds d wide .core) (fun e => e.level = .kernel) ∧ bars (.wrs a wide .ctxd) (fun e => e.level ≠ .control) ∧
    bars (.wrs a wide .tpc) (fun e => e.inTrap = false) ∧ bars (.launch d a) (fun e => e.solo = false) ∧
    bars (.lwait d a) (fun e => e.solo = false) ∧ bars .eret (fun e => e.inTrap = false) ∧
    bars (.xcht d k) (fun e => e.inTrap = false)

/-- R61, R303, R336 to R340, R342: a trap at a kernel group's word enters its trap context once that is free, no
earlier trap waits for it and the results of the group's atomics have landed; else the group is held at the word. At
entry the handler runs at TRAPV for the trapping threads with TCAUSE, TDATA, TPC the resume address and TIDX the
group's lowest index; t0, t1, t2:t3 and t4:t5 hold the cause, the failing members' number, TDATA and TPC as uniform
forms, no register or predicate is released, FPCTL is at its default and the return stack empty; the group waits for
it, and no byte of memory changes, the fetch of the handler's segment included. A TRAPV that is no segment start ends
the block with kind 7, a trap in a handler with kind 13; a control core abandons its command, with its atomics. It
rests on choices of the model, logs 10 and 18. -/
def Obligations.TrapEntrySaves : Prop :=
  (∀ (s : State) (e : Env) (cause n : Nat) (tdata : W64) (bid gid lane : Nat), e.who = .kern bid gid lane →
    let g := e.grp.onLanes e.unit fun l => { l with flight := [] }
    -- what an LD128 has read in halves does not outlast it
    let m : State := if e.unit.half.isSome then s.onUnit e.who fun u => { u with half := none } else s
    let s0 := m.onGrp e.who fun g => g.onLanes e.unit fun l => { l with flight := [] }
    let wait : Prop := (∃ x ∈ s.traps, x.core = e.core ∧ x.part = e.part) ∨ m.trapQueue e.core e.part ≠ [] ∨
      ∃ a ∈ s.atoms, a.bid = e.bid ∧ ∃ p ∈ e.members, e.idx p = a.idx
    let req : TrapReq := ⟨cause, tdata, n, e.unit.pc, e.unit.pc, s.tick⟩
    (wait → s.trapWord e cause tdata n = s0.onUnit e.who fun u => { u with stat := .trapHeld req }) ∧
    (¬wait → s.trapWord e cause tdata n = s0.enterTrap { e with grp := g } req)) ∧
  (∀ (s t : State) (e : Env) (r : TrapReq) (bid gid lane : Nat) (c : Ctx) (ws : List W32), e.who = .kern bid gid lane →
    e.ctx = some c → s.fetchSeg c e.die e.bid (e.idx e.first) c.trapv = (t, .words ws) →
    ∃ (tc : TrapCtx) (h : Grp) (u : ISet),
      (s.enterTrap e r).traps = s.traps ++ [tc] ∧ (s.enterTrap e r).mem = s.mem ∧
      tc.groups = [h] ∧ h.units = [u] ∧ u.pc = c.trapv ∧ u.code = ws ∧ u.lanes = e.unit.lanes ∧ u.stat = .ready ∧
      tc.core = e.core ∧ tc.part = e.part ∧ tc.cause = r.cause ∧ tc.tdata = r.tdata ∧ tc.tpc = r.tpc ∧ tc.word = r.word ∧
      tc.tidx = e.grp.lo + e.first ∧ tc.ended = [] ∧ h.lo = e.grp.lo ∧ h.hi = e.grp.hi ∧ h.span = e.grp.span ∧
      h.regs.length = 16 ∧ h.cell 0 = ⟨.f32 (BitVec.ofNat 32 r.cause) 0, 0⟩ ∧ h.cell 1 = ⟨.f32 (BitVec.ofNat 32 r.count) 0, 0⟩ ∧
      h.cell 2 = ⟨.f64 r.tdata 0, 0⟩ ∧ h.cell 3 = ⟨.f64hi, 0⟩ ∧ h.cell 4 = ⟨.f64 r.tpc 0, 0⟩ ∧ h.cell 5 = ⟨.f64hi, 0⟩ ∧
      (∀ x ∈ h.regs, x.rel = 0) ∧ (∀ x ∈ h.preds, x.rel = 0) ∧ (∀ x ∈ h.lanes, x.stack = [] ∧ x.fpctl = c.fpctlDef) ∧
      ∀ k, (s.enterTrap e r).env? e.who = some k → k.unit.stat = .inTrap tc.tid) ∧
  (∀ (s t : State) (e : Env) (r : TrapReq) (c : Ctx), e.ctx = some c →
    (s.fetchSeg c e.die e.bid (e.idx e.first) c.trapv = (t, .later) → s.enterTrap e r = t.onUnit e.who fun u => { u with stat := .trapHeld r }) ∧
    (s.fetchSeg c e.die e.bid (e.idx e.first) c.trapv = (t, .target) →
      (e.solo = false → s.enterTrap e r = t.groupFault e 7 0 0 r.word.toNat c.trapv.toNat) ∧
      ∀ n, e.who = .cc n → s.enterTrap e r = t.abandon n)) ∧
  (∀ (s : State) (e : Env) (cause n : Nat) (tdata : W64),
    let m : State := if e.unit.half.isSome then s.onUnit e.who fun u => { u with half := none } else s
    (∀ tid gid lane, e.who = .hand tid gid lane → s.trapWord e cause tdata n = m.groupFault e 13 0 0 e.unit.pc.toNat 0) ∧
    ∀ c, e.who = .ccHand c → s.trapWord e cause tdata n = m.abandon c) ∧
  ∀ (s : State) (k : CCore) (m : Cmd), s.cc? k.num = some k → k.cmd = some m →
    let t := s.abandon k.num
    (∀ a ∈ t.atoms, ¬(a.bid = 0 ∧ a.idx = k.num)) ∧ (t.queue m.queue = { s.queue m.queue with qerr := 5, enable := false, recs := [] }) ∧
    ∃ k', t.cc? k.num = some k' ∧ k'.cmd = none ∧ k'.trap = none ∧ k'.halted = false ∧
      k'.grp.stq = k.grp.stq ++ ((k.trap.map fun t => t.groups.flatMap (·.stq)).getD [])

/-- R33, R45 to R48, R55 to R57, R59: a word that completes with a result gives each acting thread its value and leaves
everything else: other registers, the inactive lanes of the destination, predicates (a write to p7 is discarded),
FPCTL, return stacks, other groups and blocks, scratchpads, tiles and reservations that no matrix word in progress
reads through the destination, and every byte of memory. Its group stands at the next word. Where issue is not
checked, a word that breaks a stall count leaves what it writes undefined, and nothing else. What prepares a word for
its effect releases its last-use sources in the acting lanes and changes nothing else of the group; what the word reads
is the group's own values, but, where issue is not checked, undefined ones for sources that are released or not yet
written. It rests on the model's choice of log 9. -/
def Obligations.WritesAndFrames : Prop :=
  (∀ (s : State) (e : Env) (sh : Shape), (∀ k b st, (e.grp.cell k).kind = .f64 b st → k % 2 = 0) →
    let t := (s.prepare e sh).1
    let x := (s.prepare e sh).2
    let here (p : Nat) : Prop := p ∈ e.grp.positions ∧ p < 32
    -- the state, and the group: its releases
    t = { s with free := t.free } ∧ x = { e with grp := x.grp, view := x.view } ∧ x.grp = { e.grp with regs := x.grp.regs } ∧
    (∀ r p, here p → x.grp.val r p = e.grp.val r p) ∧ (∀ r, r ∉ sh.rel → (x.grp.cell r).rel = (e.grp.cell r).rel) ∧
    (e.grp.span = false → ∀ r l, bit e.unit.lanes.toNat l = false → bit (x.grp.cell r).rel.toNat l = bit (e.grp.cell r).rel.toNat l) ∧
    (∀ r, r ∉ sh.rel → e.grp.span = true → x.grp.cell r = e.grp.cell r) ∧
    -- what the word reads
    (e.check = true ∨ (e.released sh = 0 ∧ e.stalled sh = 0) → x.view = e.grp ∧ t = s) ∧
    (x.view = { e.grp with regs := x.view.regs, preds := x.view.preds }) ∧
    (∀ r p, here p → r ∉ sh.firsts ∨ e.grp.relMask e.unit.lanes r ||| e.firstMask r = 0 →
      r ∉ sh.srcs ∨ e.grp.relMask e.unit.lanes r ||| e.grp.flightMask e.unit false none r = 0 → x.view.val r p = e.grp.val r p) ∧
    (e.grp.span = false → ∀ r p, here p → r ∉ sh.firsts →
      bit (e.grp.relMask e.unit.lanes r ||| e.grp.flightMask e.unit false none r).toNat p = false → x.view.val r p = e.grp.val r p) ∧
    ∀ p, p ∉ sh.psrcs ∨ e.grp.prelMask e.unit.lanes p ||| e.grp.flightMask e.unit true none p = 0 →
      x.view.pcell p = e.grp.pcell p) ∧
  (∀ (e : Env) (d : Nat) (r : Res), (r.wide = true → d % 2 = 0) → d + (if r.wide then 2 else 1) ≤ e.grp.regs.length →
    (e.grp.span = true → e.solo = true ∨ (∃ b s, r = .form b s) ∨ ∃ b s, r = .form64 b s) →
    (e.solo = true → e.grp.span = true) → (∀ k b s, (e.grp.cell k).kind = .f64 b s → k % 2 = 0) →
    (r.wide = false → e.grp.span = true → d % 2 = 0 → (e.grp.form32 (d + 1)).isSome) →
    let g := (e.write d r).grp
    (∀ p ∈ e.members, (if r.wide then (g.val64 d p).toNat else (g.val d p).toNat) = r.at p) ∧
    (∀ q p, p ∈ e.grp.positions →
      (q ≠ d ∧ (r.wide = true → q ≠ d + 1)) ∨ p ∉ e.grp.members e.unit → g.val q p = e.grp.val q p) ∧
    g = { e.grp with regs := g.regs }) ∧
  (∀ (e : Env) (p : Nat) (r : PRes), p ≤ 7 → e.grp.preds.length = 7 → e.grp.lo ≤ e.grp.hi →
    (e.grp.span = true → ∃ c, r = .cut c) → (e.grp.span = false → ∃ b, r = .bits b) →
    let g := (e.pwrite p r).grp
    (p < 7 → ∀ q ∈ e.grp.members e.unit, g.pval p q = r.at e.grp.lo q) ∧
    (p < 7 → ∀ q ∈ e.grp.positions, q ∉ e.grp.members e.unit → g.pval p q = e.grp.pval p q) ∧
    (∀ k, k ≠ p ∨ p = 7 → g.pcell k = e.grp.pcell k) ∧ g = { e.grp with preds := g.preds }) ∧
  (∀ (s : State) (e : Env) (old : Grp) (sh : Shape), (∀ k b s, (e.grp.cell k).kind = .f64 b s → k % 2 = 0) → ∃ k : Grp,
    let t := s.finish e old sh
    let g := (k.onLanes e.unit (flightsAfter sh)).setUnit e.unit.advance
    ((e.check = true ∨ (∀ u m r n, old.flightMask u m r n = 0) → k = e.grp) ∧ k = { e.grp with regs := k.regs, preds := k.preds } ∧
      (∀ r, r ∉ sh.dsts → (k.cell r).rel = (e.grp.cell r).rel ∧ ∀ p ∈ e.grp.positions, p < 32 → k.val r p = e.grp.val r p) ∧
      ∀ p, p ∉ sh.pdsts → k.pcell p = e.grp.pcell p) ∧
    (t.mem = s.mem ∧ t.cores = s.cores ∧ t.dies = s.dies ∧ t.launches = s.launches ∧ t.atoms = s.atoms ∧
      t.queues = s.queues ∧ t.dbg = s.dbg) ∧
    (g.regs = k.regs ∧ g.preds = k.preds ∧ g.stq = e.grp.stq ∧
      ∀ p, (g.lane p).stack = (e.grp.lane p).stack ∧ (g.lane p).fpctl = (e.grp.lane p).fpctl) ∧
    (e.unit.advance.pc = e.unit.pc + 4 ∧ e.unit.advance.code = e.unit.code.drop 1) ∧
    (∀ bid gid lane, e.who = .kern bid gid lane →
      t.traps = s.traps ∧ t.ccs = s.ccs ∧ (∀ k, k ≠ bid → t.block? k = s.block? k) ∧
      ∀ b, s.block? bid = some b → (∀ q ∈ b.eng, ∀ m, q.kind = .matrix m → sh.dsts.contains m.reg = false) →
        t.block? bid = some { b with groups := b.groups.flatMap fun x => if x.gid == gid then [g] else [x] }) ∧
    (∀ c, e.who = .cc c → t.blocks = s.blocks ∧ t.traps = s.traps ∧ (∀ k, k ≠ c → t.cc? k = s.cc? k) ∧
      ∀ k, s.cc? c = some k → t.cc? c = some { k with grp := g }) ∧
    (∀ c, e.who = .ccHand c → t.blocks = s.blocks ∧ t.traps = s.traps ∧ (∀ k, k ≠ c → t.cc? k = s.cc? k) ∧
      ∀ k, s.cc? c = some k →
        t.cc? c = some { k with trap := k.trap.map fun (x : TrapCtx) => { x with groups := [g] } }) ∧
    (∀ tid gid lane, e.who = .hand tid gid lane → t.blocks = s.blocks ∧ t.ccs = s.ccs ∧ (∀ k, k ≠ tid → t.trap? k = s.trap? k) ∧
      ∀ x, s.trap? tid = some x →
        t.trap? tid = some { x with groups := x.groups.flatMap fun h => if h.gid == gid then [g] else [h] })) ∧
  (∀ (s : State) (x' x : Env) (old : Grp) (sh : Shape) (kind acc n : Nat) (els : List Elem),
    s.watched x kind n els = [] →
    let t := s.performed x' x old sh kind acc n els
    t.mem = s.mem ∧ t.cores = s.cores ∧ t.dies = s.dies ∧ t.launches = s.launches) ∧
  ∀ (s : State) (e : Env),
    (s.expandGrp e).mem = s.mem ∧ (s.expandGrp e).cores = s.cores ∧ (s.expandGrp e).dies = s.dies ∧
      (s.expandGrp e).launches = s.launches

/-- R27, R29, R46: a span that splits is replaced, where it stood, by its two parts, and one that expands by one sheaf for
every window it touches, each under the new node. The parts and the sheaves hold, for each of their threads, the register
and predicate values that thread had in the span, and its return stack and FPCTL; each one's queued stores are its own
threads'. A span expands at a 32-bit word that writes the low half of an F64 pair whose high half is no form by itself.
It rests on the model's choice of log 12. -/
def Obligations.SpanPieces : Prop :=
  (∀ (g : Grp) (gid : Nat) (u : ISet), g.span = true → (∀ c ∈ g.regs, ∀ w vs, c.kind ≠ .e w vs) →
    (∀ c ∈ g.preds, ∀ b, c.kind ≠ .bits b) →
    (∀ lo hi, g.lo ≤ lo → hi ≤ g.hi →
      let k := g.part gid lo hi u
      (∀ p, lo + p < hi → (∀ r, k.val r p = g.val r (lo - g.lo + p)) ∧
        ∀ q, k.pval q p = g.pval q (lo - g.lo + p)) ∧
      k.lanes.map (fun x => (x.lane, x.stack, x.fpctl)) = g.lanes.map (fun x => (x.lane, x.stack, x.fpctl)) ∧
      k.lo = lo ∧ k.hi = hi ∧ k.span = true ∧ k.units = [u] ∧ k.gid = gid ∧
      ∀ q ∈ k.stq, ∀ x ∈ q.elems, lo ≤ x.idx ∧ x.idx < hi) ∧
    ∀ w, let k := g.sheaf gid w u
      (∀ l, l < 32 → g.lo ≤ 32 * w + l → 32 * w + l < g.hi →
        (∀ r, k.val r l = g.val r (32 * w + l - g.lo)) ∧ (∀ q, q < 7 → k.pval q l = g.pval q (32 * w + l - g.lo)) ∧
        ((g.lanes ≠ [] ∧ ∀ x ∈ g.lanes, x.lane = 0) →
          (k.lane l).stack = (g.lane 0).stack ∧ (k.lane l).fpctl = (g.lane 0).fpctl)) ∧
      k.span = false ∧ k.lo = 32 * w ∧ k.gid = gid ∧ (∀ v ∈ k.units, v.lanes = maskOf (g.windowLanes w)) ∧
      ∀ q ∈ k.stq, ∀ x ∈ q.elems, x.idx / 32 = w) ∧
  -- what a split and an expansion put in the place of the group
  (∀ (s : State) (e : Env) (k : Nat) (below above : ISet),
    let placed (g : Grp) : Grp := { g with held := false }
    let n := s.nextId
    (∃ gs, s.splitSpan e k below above = ({ s with nextId := n + 3 }).putGrps e.who gs ∧
      gs.map placed = [placed (e.grp.part (n + 1) e.grp.lo k (below.enter n .cut 0)),
        placed (e.grp.part (n + 2) k e.grp.hi (above.enter n .cut 1))]) ∧
    (∃ gs, s.expandGrp e = ({ s with nextId := n + 1 + e.grp.windows.length }).putGrps e.who gs ∧
      gs.length = e.grp.windows.length ∧ ∀ i w, e.grp.windows[i]? = some w → (gs[i]?).map placed =
        some (placed (e.grp.sheaf (n + 1 + i) w (e.unit.enter n .expansion w (decide (1 < e.grp.windows.length)))))) ∧
    (e.grp.lo < e.grp.hi → ∀ w, w ∈ e.grp.windows ↔ ∃ i, e.grp.lo ≤ i ∧ i < e.grp.hi ∧ i / 32 = w)) ∧
  (∀ (u : ISet) (n c : Nat) (kind : NodeKind) (many : Bool), let v := u.enter n kind c many
    v.path = ⟨n, kind, c⟩ :: u.path ∧ v.pc = u.pc ∧ v.code = u.code ∧ v.left = u.left ∧ v.stat = u.stat ∧ v.lanes = u.lanes) ∧
  -- R46
  (∀ (s : State) (shape : Env → Shape) (f : State → Env → Eff) (e e' : Env) (t : State), s.env? s.turn = some e →
    s.hazard e (shape e) = none → f (s.prepare e (shape e)).1 (s.prepare e (shape e)).2 = .done t e' →
    (e.splitsPair (shape e) = true → s.runWord shape f = .next (s.expandGrp e)) ∧
    (e.splitsPair (shape e) = false → s.runWord shape f = .next (t.finish e' e.grp (shape e)))) ∧
  ∀ (d a b : RegN) (ka kb : Bool) (imm : BitVec 12) (im : BitVec 16),
    let splits (i : Instr) (sh : Shape) : Prop := ∀ (s : State) (e : Env), s.env? s.turn = some e → s.hazard e sh = none →
      e.grp.span = true → d.toNat % 2 = 0 → e.grp.form32 (d.toNat + 1) = none → exec i s = .next (s.expandGrp e)
    let one := frShape d.toNat false a.toNat false none ka false
    let two := frShape d.toNat false a.toNat false (some (b.toNat, false)) ka kb
    splits (.mov d a ka false) one ∧ splits (.iadd d a b ka kb false) two ∧ splits (.isub d a b ka kb false) two ∧
    splits (.imul d a b ka kb false) two ∧ splits (.and d a b ka kb false) two ∧ splits (.shl d a b ka kb false) two ∧
    splits (.ineg d a ka false) one ∧ splits (.xbase d a ka false) one ∧ splits (.mkform d a b ka kb false) two ∧
    splits (.movi d imm) { dsts := [d.toNat] } ∧ splits (.movl d im) { dsts := [d.toNat] } ∧
    splits (.movs d im) { dsts := [d.toNat] } ∧ splits (.iaddi d a imm) { dsts := [d.toNat], srcs := [a.toNat] }

/-- R34: a return stack holds at most 32 entries, in every group of a block, of a trap context and of a control core:
every step keeps this, whatever it does. -/
def Obligations.StepKeepsReturnStacks : Prop :=
  let ok (g : Grp) : Prop := ∀ l ∈ g.lanes, l.stack.length ≤ 32
  let inv (s : State) : Prop := (∀ b ∈ s.blocks, ∀ g ∈ b.groups, ok g) ∧ (∀ x ∈ s.traps, ∀ g ∈ x.groups, ok g) ∧
    ∀ k ∈ s.ccs, ok k.grp ∧ ∀ x, k.trap = some x → ∀ g ∈ x.groups, ok g
  ∀ s t : State, inv s → step s = .next t → inv t
end

