-- ==== Sys2Proof/Laws/Basic.lean ====
section
/-! SUPPORT. Lists of positions, lane masks, wrapping and sign extension: the arithmetic behind forms. -/

namespace Sys2Proof.Machine

/-! ### Positions -/

theorem mem_upto {x lo n : Nat} : x ∈ upto lo n ↔ lo ≤ x ∧ x < lo + n := by
  induction n generalizing lo with
  | zero => simp [upto]
  | succ n ih => simp only [upto, List.mem_cons, ih]; omega

@[simp] theorem length_upto (lo n : Nat) : (upto lo n).length = n := by
  induction n generalizing lo with
  | zero => rfl
  | succ n ih => simp [upto, ih]

theorem getElem?_upto {lo n i : Nat} (h : i < n) : (upto lo n)[i]? = some (lo + i) := by
  induction n generalizing lo i with
  | zero => omega
  | succ n ih =>
    cases i with
    | zero => simp [upto]
    | succ i => simp only [upto, List.getElem?_cons_succ]; rw [ih (by omega)]; congr 1; omega

theorem nth_map_upto {α : Type} {f : Nat → α} {d : α} {lo n i : Nat} (h : i < n) :
    nth ((upto lo n).map f) i d = f (lo + i) := by
  simp [nth, List.getElem?_map, getElem?_upto h]

theorem nth_map_upto0 {α : Type} {f : Nat → α} {d : α} {n i : Nat} (h : i < n) :
    nth ((upto 0 n).map f) i d = f i := by
  rw [nth_map_upto h, Nat.zero_add]

theorem mem_lanesOf {m : W32} {l : Nat} : l ∈ lanesOf m ↔ l < 32 ∧ bit m.toNat l = true := by
  simp [lanesOf, List.mem_filter, mem_upto]

theorem bit_eq_testBit (x n : Nat) : bit x n = x.testBit n := by
  simp only [bit, Nat.testBit_eq_decide_div_mod_eq]
  by_cases h : x / 2 ^ n % 2 = 1 <;> simp [h]

theorem bit_or (x y : W32) (l : Nat) : bit (x ||| y).toNat l = (bit x.toNat l || bit y.toNat l) := by
  simp [bit_eq_testBit, BitVec.toNat_or]

/-! ### Wrapping (R10) -/

theorem toNat_ofInt32 (x : Int) : (BitVec.ofInt 32 x).toNat = wrap 32 x := by
  simp [wrap, BitVec.toNat_ofInt]

theorem wrap_lt (n : Nat) (x : Int) : wrap n x < 2 ^ n := by
  have h : (0 : Int) < 2 ^ n := Int.pow_pos (by decide)
  have h1 := Int.emod_nonneg x (Int.ne_of_gt h)
  have h2 := Int.emod_lt_of_pos x h
  have h3 : ((2 ^ n : Nat) : Int) = (2 : Int) ^ n := by norm_num
  unfold wrap; omega

theorem wrap_coe (n : Nat) (x : Int) : ((wrap n x : Nat) : Int) = x % 2 ^ n := by
  have h : (0 : Int) < 2 ^ n := Int.pow_pos (by decide)
  exact Int.toNat_of_nonneg (Int.emod_nonneg x (Int.ne_of_gt h))

/-- Two integers wrap alike exactly when they are congruent. -/
theorem wrap_eq_iff {n : Nat} {x y : Int} : wrap n x = wrap n y ↔ x % 2 ^ n = y % 2 ^ n := by
  rw [← wrap_coe, ← wrap_coe]; exact ⟨fun h => by rw [h], fun h => by exact_mod_cast h⟩

theorem wrap_of_lt {n x : Nat} (h : x < 2 ^ n) : wrap n (x : Int) = x := by
  have := wrap_coe n (x : Int)
  rw [Int.emod_eq_of_lt (by omega) (by exact_mod_cast h)] at this
  exact_mod_cast this

@[simp] theorem toNat_toW32 (x : Int) : (toW32 x).toNat = wrap 32 x := by
  rw [toW32, BitVec.toNat_ofNat, Nat.mod_eq_of_lt (wrap_lt 32 x)]

@[simp] theorem toNat_toW64 (x : Int) : (toW64 x).toNat = wrap 64 x := by
  rw [toW64, BitVec.toNat_ofNat, Nat.mod_eq_of_lt (wrap_lt 64 x)]

/-- Sign extension is congruent to the number it reads. -/
theorem sext_emod (n x : Nat) : sext n x % 2 ^ n = (x : Int) % 2 ^ n := by
  unfold sext; split
  · rw [Int.sub_emod, Int.emod_self]; simp
  · rfl

theorem int32_emod (x : W32) : int32 x % 2 ^ 32 = (x.toNat : Int) % 2 ^ 32 := sext_emod _ _

theorem int64_emod (x : W64) : int64 x % 2 ^ 64 = (x.toNat : Int) % 2 ^ 64 := sext_emod _ _

/-- Sign extension of a wrapped integer that fits. -/
theorem sext_range {n x : Nat} (hn : 0 < n) (h : x < 2 ^ n) : -(2 ^ (n - 1)) ≤ sext n x ∧ sext n x < 2 ^ (n - 1) := by
  have hb : (2 : Int) ^ n = 2 * 2 ^ (n - 1) := by
    obtain ⟨m, rfl⟩ : ∃ m, n = m + 1 := ⟨n - 1, by omega⟩
    rw [Nat.add_sub_cancel, pow_succ]; ring
  have hx : (x : Int) < 2 ^ n := by exact_mod_cast h
  have hbit : bit x (n - 1) = true ↔ 2 ^ (n - 1) ≤ x := by
    have hx' : x / 2 ^ (n - 1) < 2 := by
      rw [Nat.div_lt_iff_lt_mul (by positivity)]
      have : 2 ^ n = 2 * 2 ^ (n - 1) := by
        obtain ⟨m, rfl⟩ : ∃ m, n = m + 1 := ⟨n - 1, by omega⟩
        rw [Nat.add_sub_cancel, pow_succ]; ring
      omega
    have h1 : 2 ^ (n - 1) ≤ x ↔ 1 ≤ x / 2 ^ (n - 1) := by
      rw [Nat.le_div_iff_mul_le (by positivity)]; omega
    rw [h1]; unfold bit; simp only [beq_iff_eq]
    generalize x / 2 ^ (n - 1) = q at hx' ⊢
    omega
  unfold sext; split
  · next hb' =>
    have := hbit.mp hb'
    have : (2 : Int) ^ (n - 1) ≤ x := by exact_mod_cast this
    omega
  · next hb' =>
    have : ¬ (2 ^ (n - 1) ≤ x) := fun h => hb' (hbit.mpr h)
    have : (x : Int) < 2 ^ (n - 1) := by exact_mod_cast Nat.lt_of_not_le this
    have : (0 : Int) < 2 ^ (n - 1) := Int.pow_pos (by decide)
    omega

/-- An integer in the signed range of n bits is the sign extension of its wrapping. -/
theorem sext_wrap {n : Nat} {x : Int} (hn : 0 < n) (h1 : -(2 ^ (n - 1)) ≤ x) (h2 : x < 2 ^ (n - 1)) :
    sext n (wrap n x) = x := by
  have hr := sext_range hn (wrap_lt n x)
  have he : sext n (wrap n x) % 2 ^ n = x % 2 ^ n := by
    rw [sext_emod, wrap_coe, Int.emod_emod_of_dvd _ (dvd_refl _)]
  have hb : (2 : Int) ^ n = 2 * 2 ^ (n - 1) := by
    obtain ⟨m, rfl⟩ : ∃ m, n = m + 1 := ⟨n - 1, by omega⟩
    rw [Nat.add_sub_cancel, pow_succ]; ring
  have hd : (2 : Int) ^ n ∣ sext n (wrap n x) - x := Int.ModEq.dvd he.symm
  obtain ⟨k, hk⟩ := hd
  have hp : (0 : Int) < 2 ^ (n - 1) := Int.pow_pos (by decide)
  have : k = 0 := by
    rw [hb] at hk
    have h3 : 2 * 2 ^ (n - 1) * k < 2 * 2 ^ (n - 1) * 1 := by rw [← hk]; linarith [hr.2]
    have h4 : 2 * 2 ^ (n - 1) * (-1) < 2 * 2 ^ (n - 1) * k := by rw [← hk]; linarith [hr.1]
    have h5 := lt_of_mul_lt_mul_left h3 (by linarith)
    have h6 := lt_of_mul_lt_mul_left h4 (by linarith)
    omega
  subst this
  linarith

/-! ### Words as a ring -/

theorem toW32_eq (x : Int) : toW32 x = BitVec.ofInt 32 x := BitVec.eq_of_toNat_eq (by rw [toNat_toW32, toNat_ofInt32])

theorem toW64_eq (x : Int) : toW64 x = BitVec.ofInt 64 x :=
  BitVec.eq_of_toNat_eq (by rw [toNat_toW64]; simp [wrap, BitVec.toNat_ofInt])

theorem toW64_add (x y : Int) : toW64 (x + y) = toW64 x + toW64 y := by simp only [toW64_eq, BitVec.ofInt_add]

theorem toW64_mul (x y : Int) : toW64 (x * y) = toW64 x * toW64 y := by simp only [toW64_eq, BitVec.ofInt_mul]

theorem toW64_natCast (n : Nat) : toW64 (n : Int) = BitVec.ofNat 64 n := by
  rw [toW64_eq]; exact BitVec.ofInt_natCast 64 n

@[simp] theorem toW64_int64 (x : W64) : toW64 (int64 x) = x := by
  apply BitVec.eq_of_toNat_eq
  have h := wrap_coe 64 (int64 x)
  rw [int64_emod, Int.emod_eq_of_lt (by omega) (by exact_mod_cast x.isLt)] at h
  rw [toNat_toW64]; exact_mod_cast h

/-- The halves of a pair make it up (R45). -/
theorem pair64_halves (x : W64) : pair64 (lo64 x) (hi64 x) = x := by
  apply BitVec.eq_of_toNat_eq
  have := x.isLt
  simp only [pair64, lo64, hi64, BitVec.toNat_ofNat]
  omega

end Sys2Proof.Machine
end

