-- ==== Sys2Proof/Laws/Forms.lean ====
section
/-! SUPPORT. A register that reads as a form holds that form's value for every thread of its group (R19, R20, R46, R47). -/

namespace Sys2Proof.Machine

/-! ### FormValue (R19, R20) -/

theorem formVal_toNat (b s : W32) (p : Nat) : (formVal b s p).toNat = wrap 32 (b.toNat + int32 s * p) := by
  have h : ((formVal b s p).toNat : Int) = ((b.toNat : Int) + s.toNat * p) % 2 ^ 32 := by
    simp [formVal, BitVec.toNat_add, BitVec.toNat_mul]
  have h2 : ((wrap 32 (b.toNat + int32 s * p) : Nat) : Int) = ((b.toNat : Int) + s.toNat * p) % 2 ^ 32 := by
    rw [wrap_coe, Int.add_emod, Int.mul_emod, int32_emod, ← Int.mul_emod, ← Int.add_emod]
  exact_mod_cast h.trans h2.symm

theorem formVal64_toNat (b : W64) (s : W32) (p : Nat) :
    (formVal64 b s p).toNat = wrap 64 (b.toNat + int32 s * p) := by
  have h : ((formVal64 b s p).toNat : Int) = ((b.toNat : Int) + int32 s * p) % 2 ^ 64 := by
    simp [formVal64, BitVec.toNat_add, wrap_coe]
  rw [← wrap_coe] at h
  exact_mod_cast h

/-- The low half of a 64-bit form is the 32-bit form of the same stride. -/
theorem lo64_formVal64 (b : W64) (s : W32) (p : Nat) : lo64 (formVal64 b s p) = formVal (lo64 b) s p := by
  apply BitVec.eq_of_toNat_eq
  have h1 : ((lo64 (formVal64 b s p)).toNat : Int) = ((b.toNat : Int) + int32 s * p) % 2 ^ 32 := by
    rw [lo64, BitVec.toNat_ofNat, formVal64_toNat]
    push_cast
    rw [wrap_coe, Int.emod_emod_of_dvd _ (by norm_num)]
  have h2 : ((formVal (lo64 b) s p).toNat : Int) = ((b.toNat : Int) + int32 s * p) % 2 ^ 32 := by
    rw [formVal_toNat, wrap_coe, lo64, BitVec.toNat_ofNat]
    push_cast
    rw [Int.emod_add_emod]
  exact_mod_cast h1.trans h2.symm

@[simp] theorem formVal64_zero (b : W64) (p : Nat) : formVal64 b 0 p = b := by
  simp [formVal64, int32, sext, bit, toW64, wrap]

@[simp] theorem formVal_zero (b : W32) (p : Nat) : formVal b 0 p = b := by simp [formVal]

/-! ### Recognising a form (R39, R46, R47) -/

theorem constDiff32_getElem {d : W32} {l : List W32} (h : constDiff32 d l = true) {i : Nat} (hi : i < l.length) :
    l[i] = l[0]'(by omega) + d * BitVec.ofNat 32 i := by
  induction l generalizing i with
  | nil => simp at hi
  | cons x r ih =>
    cases i with
    | zero => simp
    | succ i =>
      cases r with
      | nil => simp at hi
      | cons y r =>
        simp only [constDiff32, Bool.and_eq_true, beq_iff_eq] at h
        have := ih h.2 (i := i) (by simpa using hi)
        simp only [List.getElem_cons_succ, List.getElem_cons_zero] at this ⊢
        rw [this, ← h.1, BitVec.ofNat_add, show BitVec.ofNat 32 1 = 1 from rfl]
        ring

theorem constDiff_getElem {d : W64} {l : List W64} (h : constDiff d l = true) {i : Nat} (hi : i < l.length) :
    l[i] = l[0]'(by omega) + d * BitVec.ofNat 64 i := by
  induction l generalizing i with
  | nil => simp at hi
  | cons x r ih =>
    cases i with
    | zero => simp
    | succ i =>
      cases r with
      | nil => simp at hi
      | cons y r =>
        simp only [constDiff, Bool.and_eq_true, beq_iff_eq] at h
        have := ih h.2 (i := i) (by simpa using hi)
        simp only [List.getElem_cons_succ, List.getElem_cons_zero] at this ⊢
        rw [this, ← h.1, BitVec.ofNat_add, show BitVec.ofNat 64 1 = 1 from rfl]
        ring

theorem formOf32_val {f : Nat → W32} {a n : Nat} {b s : W32} (h : formOf32 a ((upto a n).map f) = some (b, s))
    {p : Nat} (hp : a ≤ p ∧ p < a + n) : f p = formVal b s p := by
  obtain ⟨i, rfl⟩ : ∃ i, p = a + i := ⟨p - a, by omega⟩
  have hi : i < n := by omega
  match n, h with
  | 0, h => simp [upto, formOf32] at h
  | 1, h =>
    simp only [upto, List.map, formOf32, Option.some.injEq, Prod.mk.injEq] at h
    obtain ⟨rfl, rfl⟩ := h
    obtain rfl : i = 0 := by omega
    exact (formVal_zero _ _).symm
  | n + 2, h =>
    have hl : (upto a (n + 2)).map f = f a :: f (a + 1) :: (upto (a + 2) n).map f := rfl
    rw [hl] at h
    simp only [formOf32] at h
    split at h
    · next hc =>
      simp only [Option.some.injEq, Prod.mk.injEq] at h
      obtain ⟨rfl, rfl⟩ := h
      rw [← hl] at hc
      have := constDiff32_getElem hc (i := i) (by simpa using hi)
      have hg : ((upto a (n + 2)).map f)[i]'(by simpa using hi) = f (a + i) := by
        rw [List.getElem_map]; congr 1
        have := getElem?_upto (lo := a) hi
        rw [List.getElem?_eq_getElem (by simpa using hi)] at this
        exact Option.some.inj this
      rw [hg] at this
      rw [this, formVal, BitVec.ofNat_add]
      simp only [hl, List.getElem_cons_zero]
      ring
    · exact absurd h (by simp)

theorem formOf64_val {f : Nat → W64} {a n : Nat} {b : W64} {s : W32} (h : formOf64 a ((upto a n).map f) = some (b, s))
    {p : Nat} (hp : a ≤ p ∧ p < a + n) : f p = formVal64 b s p := by
  obtain ⟨i, rfl⟩ : ∃ i, p = a + i := ⟨p - a, by omega⟩
  have hi : i < n := by omega
  match n, h with
  | 0, h => simp [upto, formOf64] at h
  | 1, h =>
    simp only [upto, List.map, formOf64, Option.some.injEq, Prod.mk.injEq] at h
    obtain ⟨rfl, rfl⟩ := h
    obtain rfl : i = 0 := by omega
    exact (formVal64_zero _ _).symm
  | n + 2, h =>
    have hl : (upto a (n + 2)).map f = f a :: f (a + 1) :: (upto (a + 2) n).map f := rfl
    rw [hl] at h
    simp only [formOf64] at h
    split at h
    · next hc =>
      simp only [Option.some.injEq, Prod.mk.injEq] at h
      obtain ⟨rfl, rfl⟩ := h
      obtain ⟨h1, h2, hc⟩ := hc
      rw [← hl] at hc
      have := constDiff_getElem hc (i := i) (by simpa using hi)
      have hg : ((upto a (n + 2)).map f)[i]'(by simpa using hi) = f (a + i) := by
        rw [List.getElem_map]; congr 1
        have := getElem?_upto (lo := a) hi
        rw [List.getElem?_eq_getElem (by simpa using hi)] at this
        exact Option.some.inj this
      rw [hg] at this
      simp only [hl, List.getElem_cons_zero] at this
      generalize f (a + 1) - f a = d at *
      have hd : int32 (toW32 (int64 d)) = int64 d := by
        rw [int32, toNat_toW32]
        exact sext_wrap (by norm_num) h1 h2
      rw [this, formVal64, hd, toW64_mul, toW64_mul, toW64_int64, toW64_natCast, toW64_natCast, BitVec.ofNat_add]
      ring
    · exact absurd h (by simp)

/-! ### Registers -/

/-- The run of a group holds its positions. -/
theorem mem_run {g : Grp} {a n p : Nat} (h : g.run = some (a, n)) (hp : p ∈ g.positions) : a ≤ p ∧ p < a + n := by
  unfold Grp.run at h
  unfold Grp.positions at hp
  split at h
  · next hs =>
    rw [if_pos hs] at hp
    simp only [Option.some.injEq, Prod.mk.injEq] at h
    obtain ⟨rfl, rfl⟩ := h
    simpa [mem_upto] using hp
  · next hs =>
    rw [if_neg hs] at hp
    split at h
    · simp at h
    · next x r hl =>
      split at h
      · next he =>
        simp only [Option.some.injEq, Prod.mk.injEq] at h
        obtain ⟨rfl, rfl⟩ := h
        rw [hl, eq_of_beq he] at hp
        exact mem_upto.mp hp
      · simp at h

/-- A register that reads as a 32-bit form holds its value at every position (R46). -/
theorem form32_val {g : Grp} {r p : Nat} {b s : W32} (h : g.form32 r = some (b, s)) (hp : p ∈ g.positions) :
    g.val r p = formVal b s p := by
  unfold Grp.form32 at h
  unfold Grp.val
  split at h
  · simp only [Option.some.injEq, Prod.mk.injEq] at h; obtain ⟨rfl, rfl⟩ := h; rfl
  · simp only [Option.some.injEq, Prod.mk.injEq] at h
    obtain ⟨rfl, rfl⟩ := h
    exact lo64_formVal64 _ _ _
  · split at h
    · next b' s' hk' =>
      split at h
      · next a n hr =>
        split at h
        · next hs =>
          simp only [Option.some.injEq, Prod.mk.injEq] at h
          obtain ⟨rfl, rfl⟩ := h
          subst hs
          exact (congrArg hi64 (formVal64_zero _ _)).trans (formVal_zero _ _).symm
        · exact formOf32_val (f := fun p => hi64 (formVal64 b' s' p)) h (mem_run hr hp)
      · simp at h
    · simp at h
  · simp at h

/-- A pair that reads as a form holds its value at every position (R47). -/
theorem form64_val {g : Grp} {r p : Nat} {b : W64} {s : W32} (h : g.form64 r = some (b, s)) (hp : p ∈ g.positions) :
    g.val64 r p = formVal64 b s p := by
  unfold Grp.form64 at h
  unfold Grp.val64 Grp.val
  split at h
  · next b' s' hk hk' =>
    simp only [Option.some.injEq, Prod.mk.injEq] at h
    obtain ⟨rfl, rfl⟩ := h
    simp only [hk, hk', Nat.add_sub_cancel]
    exact pair64_halves _
  · next b' s' c t hk hk' =>
    simp only [hk, hk']
    split at h
    · next a n hr =>
      split at h
      · next hz =>
        simp only [Option.some.injEq, Prod.mk.injEq] at h
        obtain ⟨rfl, rfl⟩ := h
        obtain ⟨rfl, rfl⟩ := hz
        exact (congrArg₂ pair64 (formVal_zero _ _) (formVal_zero _ _)).trans (formVal64_zero _ _).symm
      · exact formOf64_val (f := fun p => pair64 (formVal b' s' p) (formVal c t p)) h (mem_run hr hp)
    · simp at h
  · simp at h

end Sys2Proof.Machine
end

