-- ==== Sys2Proof/Laws/Memory.lean ====
section
/-! SUPPORT. Byte memories: every operation keeps the canonical form, reset memory has it, and a byte written reads back
while every other byte keeps its value. -/

namespace Sys2Proof.Machine

/-- Every entry of a memory lies at or above an address. -/
def Memory.above (a : Nat) (m : Memory) : Prop := ∀ x ∈ m, a ≤ x.1

theorem Memory.wf_cons {a : Nat} {v : Byte} {m : Memory} :
    Memory.wf ((a, v) :: m) = true ↔ v ≠ 0 ∧ Memory.above (a + 1) m ∧ Memory.wf m = true := by
  induction m generalizing a v with
  | nil => simp [Memory.wf, Memory.above]
  | cons x r ih =>
    obtain ⟨b, w⟩ := x
    have h := ih (a := b) (v := w)
    simp only [Memory.wf, Bool.and_eq_true, bne_iff_ne, decide_eq_true_eq]
    constructor
    · rintro ⟨⟨hv, hab⟩, hw⟩
      refine ⟨hv, ?_, hw⟩
      have := (h.mp hw).2.1
      intro x hx
      rcases List.mem_cons.mp hx with rfl | hx
      · exact hab
      · have := this x hx; omega
    · rintro ⟨hv, ha, hw⟩
      exact ⟨⟨hv, ha (b, w) (List.mem_cons_self ..)⟩, hw⟩

theorem Memory.above_mono {a b : Nat} {m : Memory} (h : Memory.above b m) (hab : a ≤ b) : Memory.above a m :=
  fun x hx => Nat.le_trans hab (h x hx)

theorem Memory.above_write {m : Memory} {k a : Nat} {v : Byte} (h : Memory.above k m) (hk : k ≤ a) :
    Memory.above k (m.write a v) := by
  induction m with
  | nil =>
    unfold Memory.write; split
    · exact h
    · intro x hx; rw [List.mem_singleton.mp hx]; exact hk
  | cons y r ih =>
    obtain ⟨b, w⟩ := y
    have hb : k ≤ b := h (b, w) (List.mem_cons_self ..)
    have hr : Memory.above k r := fun x hx => h x (List.mem_cons_of_mem _ hx)
    unfold Memory.write
    split_ifs
    · exact h
    · intro x hx
      rcases List.mem_cons.mp hx with rfl | hx
      · exact hk
      · exact h x hx
    · exact hr
    · intro x hx
      rcases List.mem_cons.mp hx with rfl | hx
      · exact hk
      · exact hr x hx
    · intro x hx
      rcases List.mem_cons.mp hx with rfl | hx
      · exact hb
      · exact ih hr x hx

/-- Writing a byte keeps the canonical form. -/
theorem Memory.wf_write {m : Memory} {a : Nat} {v : Byte} (h : m.wf = true) : (m.write a v).wf = true := by
  induction m with
  | nil => unfold Memory.write; split <;> simp_all [Memory.wf]
  | cons y r ih =>
    obtain ⟨b, w⟩ := y
    obtain ⟨hw, ha, hr⟩ := Memory.wf_cons.mp h
    unfold Memory.write
    split_ifs with h1 h2 h3 h4
    · exact h
    · refine Memory.wf_cons.mpr ⟨h2, ?_, h⟩
      intro x hx
      rcases List.mem_cons.mp hx with rfl | hx
      · exact h1
      · have := ha x hx; omega
    · exact hr
    · subst h3; exact Memory.wf_cons.mpr ⟨h4, ha, hr⟩
    · exact Memory.wf_cons.mpr ⟨hw, Memory.above_write ha (by omega), ih hr⟩

/-- Writing bytes keeps the canonical form. -/
theorem Memory.wf_writeN {m : Memory} {a : Nat} {vs : List Byte} (h : m.wf = true) : (m.writeN a vs).wf = true := by
  induction vs generalizing m a with
  | nil => exact h
  | cons v r ih => exact ih (Memory.wf_write h)

/-- Writing a number keeps the canonical form. -/
theorem Memory.wf_setNat {m : Memory} {a n x : Nat} (h : m.wf = true) : (m.setNat a n x).wf = true :=
  Memory.wf_writeN h

/-- Changing bits of a byte keeps the canonical form. -/
theorem Memory.wf_merge {m : Memory} {a : Nat} {k v : Byte} (h : m.wf = true) : (m.merge a k v).wf = true :=
  Memory.wf_write h

theorem Memory.read_of_above {m : Memory} {k a : Nat} (h : Memory.above k m) (ha : a < k) : m.read a = 0 := by
  cases m with
  | nil => rfl
  | cons y r =>
    obtain ⟨b, w⟩ := y
    have hb : k ≤ b := h (b, w) (List.mem_cons_self ..)
    unfold Memory.read
    rw [if_neg (by omega), if_pos (by omega)]

/-- A byte written reads back. -/
theorem Memory.read_write_same {m : Memory} {a : Nat} {v : Byte} (h : m.wf = true) : (m.write a v).read a = v := by
  induction m with
  | nil => unfold Memory.write; split <;> simp_all [Memory.read]
  | cons y r ih =>
    obtain ⟨b, w⟩ := y
    obtain ⟨-, ha, hr⟩ := Memory.wf_cons.mp h
    unfold Memory.write
    split_ifs with h1 h2 h3 h4
    · rw [h2]; unfold Memory.read; rw [if_neg (by omega), if_pos h1]
    · unfold Memory.read; rw [if_pos rfl]
    · subst h3; rw [h4]; exact Memory.read_of_above ha (by omega)
    · unfold Memory.read; rw [if_pos rfl]
    · unfold Memory.read; rw [if_neg (by omega), if_neg (by omega)]; exact ih hr

/-- Writing a byte leaves every other byte as it was. -/
theorem Memory.read_write_ne {m : Memory} {a b : Nat} {v : Byte} (h : m.wf = true) (hn : b ≠ a) :
    (m.write a v).read b = m.read b := by
  induction m with
  | nil =>
    unfold Memory.write; split
    · rfl
    · simp only [Memory.read]; split_ifs with h1 <;> first | rfl | exact absurd h1.symm hn
  | cons y r ih =>
    obtain ⟨c, w⟩ := y
    obtain ⟨-, ha, hr⟩ := Memory.wf_cons.mp h
    unfold Memory.write
    split_ifs with h1 h2 h3 h4
    · rfl
    · conv_lhs => unfold Memory.read
      rw [if_neg (by omega)]
      split_ifs with h5
      · exact (Memory.read_of_above (k := c) (by
          intro x hx
          rcases List.mem_cons.mp hx with rfl | hx
          · exact le_refl _
          · have := ha x hx; omega) (by omega)).symm
      · rfl
    · subst h3
      conv_rhs => unfold Memory.read
      rw [if_neg (by omega)]
      split_ifs with h5
      · exact Memory.read_of_above ha (by omega)
      · rfl
    · subst h3
      simp only [Memory.read, if_neg (Ne.symm hn)]
    · simp only [Memory.read]
      split_ifs
      · rfl
      · rfl
      · exact ih hr

/-- Reset memory is canonical. -/
theorem State.reset_mem_wf : State.reset.mem.wf = true := rfl

/-- Waking control cores changes no memory. -/
@[simp] theorem State.mailboxWake_mem (s : State) (a n : Nat) : (s.mailboxWake a n).mem = s.mem := by
  unfold State.mailboxWake; split <;> rfl

end Sys2Proof.Machine
end

