-- ==== Sys2Proof/Laws/State.lean ====
section
/-! SUPPORT. Each named update of the state, field by field: what it leaves alone, true by unfolding. -/

namespace Sys2Proof.Machine

variable (s : State)

/-! ### State.setBlock -/

@[simp] theorem State.setBlock_mem (b : Block) : (s.setBlock b).mem = s.mem := rfl
@[simp] theorem State.setBlock_sums (b : Block) : (s.setBlock b).sums = s.sums := rfl
@[simp] theorem State.setBlock_launches (b : Block) : (s.setBlock b).launches = s.launches := rfl
@[simp] theorem State.setBlock_ccs (b : Block) : (s.setBlock b).ccs = s.ccs := rfl
@[simp] theorem State.setBlock_cores (b : Block) : (s.setBlock b).cores = s.cores := rfl
@[simp] theorem State.setBlock_dies (b : Block) : (s.setBlock b).dies = s.dies := rfl
@[simp] theorem State.setBlock_traps (b : Block) : (s.setBlock b).traps = s.traps := rfl
@[simp] theorem State.setBlock_atoms (b : Block) : (s.setBlock b).atoms = s.atoms := rfl
@[simp] theorem State.setBlock_homeq (b : Block) : (s.setBlock b).homeq = s.homeq := rfl
@[simp] theorem State.setBlock_queues (b : Block) : (s.setBlock b).queues = s.queues := rfl
@[simp] theorem State.setBlock_xregs (b : Block) : (s.setBlock b).xregs = s.xregs := rfl
@[simp] theorem State.setBlock_lctls (b : Block) : (s.setBlock b).lctls = s.lctls := rfl
@[simp] theorem State.setBlock_mgmt (b : Block) : (s.setBlock b).mgmt = s.mgmt := rfl
@[simp] theorem State.setBlock_partcfg (b : Block) : (s.setBlock b).partcfg = s.partcfg := rfl
@[simp] theorem State.setBlock_bring (b : Block) : (s.setBlock b).bring = s.bring := rfl
@[simp] theorem State.setBlock_mailbox (b : Block) : (s.setBlock b).mailbox = s.mailbox := rfl
@[simp] theorem State.setBlock_dbg (b : Block) : (s.setBlock b).dbg = s.dbg := rfl
@[simp] theorem State.setBlock_pend (b : Block) : (s.setBlock b).pend = s.pend := rfl
@[simp] theorem State.setBlock_fabric (b : Block) : (s.setBlock b).fabric = s.fabric := rfl
@[simp] theorem State.setBlock_answers (b : Block) : (s.setBlock b).answers = s.answers := rfl
@[simp] theorem State.setBlock_tlb (b : Block) : (s.setBlock b).tlb = s.tlb := rfl
@[simp] theorem State.setBlock_cards (b : Block) : (s.setBlock b).cards = s.cards := rfl
@[simp] theorem State.setBlock_rings (b : Block) : (s.setBlock b).rings = s.rings := rfl
@[simp] theorem State.setBlock_chip (b : Block) : (s.setBlock b).chip = s.chip := rfl
@[simp] theorem State.setBlock_nextId (b : Block) : (s.setBlock b).nextId = s.nextId := rfl
@[simp] theorem State.setBlock_free (b : Block) : (s.setBlock b).free = s.free := rfl
@[simp] theorem State.setBlock_agenda (b : Block) : (s.setBlock b).agenda = s.agenda := rfl
@[simp] theorem State.setBlock_turn (b : Block) : (s.setBlock b).turn = s.turn := rfl
@[simp] theorem State.setBlock_tick (b : Block) : (s.setBlock b).tick = s.tick := rfl

/-! ### State.onBlock -/

@[simp] theorem State.onBlock_mem (n : Nat) (f : Block → Block) : (s.onBlock n f).mem = s.mem := rfl
@[simp] theorem State.onBlock_sums (n : Nat) (f : Block → Block) : (s.onBlock n f).sums = s.sums := rfl
@[simp] theorem State.onBlock_launches (n : Nat) (f : Block → Block) : (s.onBlock n f).launches = s.launches := rfl
@[simp] theorem State.onBlock_ccs (n : Nat) (f : Block → Block) : (s.onBlock n f).ccs = s.ccs := rfl
@[simp] theorem State.onBlock_cores (n : Nat) (f : Block → Block) : (s.onBlock n f).cores = s.cores := rfl
@[simp] theorem State.onBlock_dies (n : Nat) (f : Block → Block) : (s.onBlock n f).dies = s.dies := rfl
@[simp] theorem State.onBlock_traps (n : Nat) (f : Block → Block) : (s.onBlock n f).traps = s.traps := rfl
@[simp] theorem State.onBlock_atoms (n : Nat) (f : Block → Block) : (s.onBlock n f).atoms = s.atoms := rfl
@[simp] theorem State.onBlock_homeq (n : Nat) (f : Block → Block) : (s.onBlock n f).homeq = s.homeq := rfl
@[simp] theorem State.onBlock_queues (n : Nat) (f : Block → Block) : (s.onBlock n f).queues = s.queues := rfl
@[simp] theorem State.onBlock_xregs (n : Nat) (f : Block → Block) : (s.onBlock n f).xregs = s.xregs := rfl
@[simp] theorem State.onBlock_lctls (n : Nat) (f : Block → Block) : (s.onBlock n f).lctls = s.lctls := rfl
@[simp] theorem State.onBlock_mgmt (n : Nat) (f : Block → Block) : (s.onBlock n f).mgmt = s.mgmt := rfl
@[simp] theorem State.onBlock_partcfg (n : Nat) (f : Block → Block) : (s.onBlock n f).partcfg = s.partcfg := rfl
@[simp] theorem State.onBlock_bring (n : Nat) (f : Block → Block) : (s.onBlock n f).bring = s.bring := rfl
@[simp] theorem State.onBlock_mailbox (n : Nat) (f : Block → Block) : (s.onBlock n f).mailbox = s.mailbox := rfl
@[simp] theorem State.onBlock_dbg (n : Nat) (f : Block → Block) : (s.onBlock n f).dbg = s.dbg := rfl
@[simp] theorem State.onBlock_pend (n : Nat) (f : Block → Block) : (s.onBlock n f).pend = s.pend := rfl
@[simp] theorem State.onBlock_fabric (n : Nat) (f : Block → Block) : (s.onBlock n f).fabric = s.fabric := rfl
@[simp] theorem State.onBlock_answers (n : Nat) (f : Block → Block) : (s.onBlock n f).answers = s.answers := rfl
@[simp] theorem State.onBlock_tlb (n : Nat) (f : Block → Block) : (s.onBlock n f).tlb = s.tlb := rfl
@[simp] theorem State.onBlock_cards (n : Nat) (f : Block → Block) : (s.onBlock n f).cards = s.cards := rfl
@[simp] theorem State.onBlock_rings (n : Nat) (f : Block → Block) : (s.onBlock n f).rings = s.rings := rfl
@[simp] theorem State.onBlock_chip (n : Nat) (f : Block → Block) : (s.onBlock n f).chip = s.chip := rfl
@[simp] theorem State.onBlock_nextId (n : Nat) (f : Block → Block) : (s.onBlock n f).nextId = s.nextId := rfl
@[simp] theorem State.onBlock_free (n : Nat) (f : Block → Block) : (s.onBlock n f).free = s.free := rfl
@[simp] theorem State.onBlock_agenda (n : Nat) (f : Block → Block) : (s.onBlock n f).agenda = s.agenda := rfl
@[simp] theorem State.onBlock_turn (n : Nat) (f : Block → Block) : (s.onBlock n f).turn = s.turn := rfl
@[simp] theorem State.onBlock_tick (n : Nat) (f : Block → Block) : (s.onBlock n f).tick = s.tick := rfl

/-! ### State.onLaunch -/

@[simp] theorem State.onLaunch_mem (n : Nat) (f : Launch → Launch) : (s.onLaunch n f).mem = s.mem := rfl
@[simp] theorem State.onLaunch_sums (n : Nat) (f : Launch → Launch) : (s.onLaunch n f).sums = s.sums := rfl
@[simp] theorem State.onLaunch_blocks (n : Nat) (f : Launch → Launch) : (s.onLaunch n f).blocks = s.blocks := rfl
@[simp] theorem State.onLaunch_ccs (n : Nat) (f : Launch → Launch) : (s.onLaunch n f).ccs = s.ccs := rfl
@[simp] theorem State.onLaunch_cores (n : Nat) (f : Launch → Launch) : (s.onLaunch n f).cores = s.cores := rfl
@[simp] theorem State.onLaunch_dies (n : Nat) (f : Launch → Launch) : (s.onLaunch n f).dies = s.dies := rfl
@[simp] theorem State.onLaunch_traps (n : Nat) (f : Launch → Launch) : (s.onLaunch n f).traps = s.traps := rfl
@[simp] theorem State.onLaunch_atoms (n : Nat) (f : Launch → Launch) : (s.onLaunch n f).atoms = s.atoms := rfl
@[simp] theorem State.onLaunch_homeq (n : Nat) (f : Launch → Launch) : (s.onLaunch n f).homeq = s.homeq := rfl
@[simp] theorem State.onLaunch_queues (n : Nat) (f : Launch → Launch) : (s.onLaunch n f).queues = s.queues := rfl
@[simp] theorem State.onLaunch_xregs (n : Nat) (f : Launch → Launch) : (s.onLaunch n f).xregs = s.xregs := rfl
@[simp] theorem State.onLaunch_lctls (n : Nat) (f : Launch → Launch) : (s.onLaunch n f).lctls = s.lctls := rfl
@[simp] theorem State.onLaunch_mgmt (n : Nat) (f : Launch → Launch) : (s.onLaunch n f).mgmt = s.mgmt := rfl
@[simp] theorem State.onLaunch_partcfg (n : Nat) (f : Launch → Launch) : (s.onLaunch n f).partcfg = s.partcfg := rfl
@[simp] theorem State.onLaunch_bring (n : Nat) (f : Launch → Launch) : (s.onLaunch n f).bring = s.bring := rfl
@[simp] theorem State.onLaunch_mailbox (n : Nat) (f : Launch → Launch) : (s.onLaunch n f).mailbox = s.mailbox := rfl
@[simp] theorem State.onLaunch_dbg (n : Nat) (f : Launch → Launch) : (s.onLaunch n f).dbg = s.dbg := rfl
@[simp] theorem State.onLaunch_pend (n : Nat) (f : Launch → Launch) : (s.onLaunch n f).pend = s.pend := rfl
@[simp] theorem State.onLaunch_fabric (n : Nat) (f : Launch → Launch) : (s.onLaunch n f).fabric = s.fabric := rfl
@[simp] theorem State.onLaunch_answers (n : Nat) (f : Launch → Launch) : (s.onLaunch n f).answers = s.answers := rfl
@[simp] theorem State.onLaunch_tlb (n : Nat) (f : Launch → Launch) : (s.onLaunch n f).tlb = s.tlb := rfl
@[simp] theorem State.onLaunch_cards (n : Nat) (f : Launch → Launch) : (s.onLaunch n f).cards = s.cards := rfl
@[simp] theorem State.onLaunch_rings (n : Nat) (f : Launch → Launch) : (s.onLaunch n f).rings = s.rings := rfl
@[simp] theorem State.onLaunch_chip (n : Nat) (f : Launch → Launch) : (s.onLaunch n f).chip = s.chip := rfl
@[simp] theorem State.onLaunch_nextId (n : Nat) (f : Launch → Launch) : (s.onLaunch n f).nextId = s.nextId := rfl
@[simp] theorem State.onLaunch_free (n : Nat) (f : Launch → Launch) : (s.onLaunch n f).free = s.free := rfl
@[simp] theorem State.onLaunch_agenda (n : Nat) (f : Launch → Launch) : (s.onLaunch n f).agenda = s.agenda := rfl
@[simp] theorem State.onLaunch_turn (n : Nat) (f : Launch → Launch) : (s.onLaunch n f).turn = s.turn := rfl
@[simp] theorem State.onLaunch_tick (n : Nat) (f : Launch → Launch) : (s.onLaunch n f).tick = s.tick := rfl

/-! ### State.onCc -/

@[simp] theorem State.onCc_mem (c : Nat) (f : CCore → CCore) : (s.onCc c f).mem = s.mem := rfl
@[simp] theorem State.onCc_sums (c : Nat) (f : CCore → CCore) : (s.onCc c f).sums = s.sums := rfl
@[simp] theorem State.onCc_blocks (c : Nat) (f : CCore → CCore) : (s.onCc c f).blocks = s.blocks := rfl
@[simp] theorem State.onCc_launches (c : Nat) (f : CCore → CCore) : (s.onCc c f).launches = s.launches := rfl
@[simp] theorem State.onCc_cores (c : Nat) (f : CCore → CCore) : (s.onCc c f).cores = s.cores := rfl
@[simp] theorem State.onCc_dies (c : Nat) (f : CCore → CCore) : (s.onCc c f).dies = s.dies := rfl
@[simp] theorem State.onCc_traps (c : Nat) (f : CCore → CCore) : (s.onCc c f).traps = s.traps := rfl
@[simp] theorem State.onCc_atoms (c : Nat) (f : CCore → CCore) : (s.onCc c f).atoms = s.atoms := rfl
@[simp] theorem State.onCc_homeq (c : Nat) (f : CCore → CCore) : (s.onCc c f).homeq = s.homeq := rfl
@[simp] theorem State.onCc_queues (c : Nat) (f : CCore → CCore) : (s.onCc c f).queues = s.queues := rfl
@[simp] theorem State.onCc_xregs (c : Nat) (f : CCore → CCore) : (s.onCc c f).xregs = s.xregs := rfl
@[simp] theorem State.onCc_lctls (c : Nat) (f : CCore → CCore) : (s.onCc c f).lctls = s.lctls := rfl
@[simp] theorem State.onCc_mgmt (c : Nat) (f : CCore → CCore) : (s.onCc c f).mgmt = s.mgmt := rfl
@[simp] theorem State.onCc_partcfg (c : Nat) (f : CCore → CCore) : (s.onCc c f).partcfg = s.partcfg := rfl
@[simp] theorem State.onCc_bring (c : Nat) (f : CCore → CCore) : (s.onCc c f).bring = s.bring := rfl
@[simp] theorem State.onCc_mailbox (c : Nat) (f : CCore → CCore) : (s.onCc c f).mailbox = s.mailbox := rfl
@[simp] theorem State.onCc_dbg (c : Nat) (f : CCore → CCore) : (s.onCc c f).dbg = s.dbg := rfl
@[simp] theorem State.onCc_pend (c : Nat) (f : CCore → CCore) : (s.onCc c f).pend = s.pend := rfl
@[simp] theorem State.onCc_fabric (c : Nat) (f : CCore → CCore) : (s.onCc c f).fabric = s.fabric := rfl
@[simp] theorem State.onCc_answers (c : Nat) (f : CCore → CCore) : (s.onCc c f).answers = s.answers := rfl
@[simp] theorem State.onCc_tlb (c : Nat) (f : CCore → CCore) : (s.onCc c f).tlb = s.tlb := rfl
@[simp] theorem State.onCc_cards (c : Nat) (f : CCore → CCore) : (s.onCc c f).cards = s.cards := rfl
@[simp] theorem State.onCc_rings (c : Nat) (f : CCore → CCore) : (s.onCc c f).rings = s.rings := rfl
@[simp] theorem State.onCc_chip (c : Nat) (f : CCore → CCore) : (s.onCc c f).chip = s.chip := rfl
@[simp] theorem State.onCc_nextId (c : Nat) (f : CCore → CCore) : (s.onCc c f).nextId = s.nextId := rfl
@[simp] theorem State.onCc_free (c : Nat) (f : CCore → CCore) : (s.onCc c f).free = s.free := rfl
@[simp] theorem State.onCc_agenda (c : Nat) (f : CCore → CCore) : (s.onCc c f).agenda = s.agenda := rfl
@[simp] theorem State.onCc_turn (c : Nat) (f : CCore → CCore) : (s.onCc c f).turn = s.turn := rfl
@[simp] theorem State.onCc_tick (c : Nat) (f : CCore → CCore) : (s.onCc c f).tick = s.tick := rfl

/-! ### State.onDie -/

@[simp] theorem State.onDie_mem (d : Nat) (f : Die → Die) : (s.onDie d f).mem = s.mem := rfl
@[simp] theorem State.onDie_sums (d : Nat) (f : Die → Die) : (s.onDie d f).sums = s.sums := rfl
@[simp] theorem State.onDie_blocks (d : Nat) (f : Die → Die) : (s.onDie d f).blocks = s.blocks := rfl
@[simp] theorem State.onDie_launches (d : Nat) (f : Die → Die) : (s.onDie d f).launches = s.launches := rfl
@[simp] theorem State.onDie_ccs (d : Nat) (f : Die → Die) : (s.onDie d f).ccs = s.ccs := rfl
@[simp] theorem State.onDie_cores (d : Nat) (f : Die → Die) : (s.onDie d f).cores = s.cores := rfl
@[simp] theorem State.onDie_traps (d : Nat) (f : Die → Die) : (s.onDie d f).traps = s.traps := rfl
@[simp] theorem State.onDie_atoms (d : Nat) (f : Die → Die) : (s.onDie d f).atoms = s.atoms := rfl
@[simp] theorem State.onDie_homeq (d : Nat) (f : Die → Die) : (s.onDie d f).homeq = s.homeq := rfl
@[simp] theorem State.onDie_queues (d : Nat) (f : Die → Die) : (s.onDie d f).queues = s.queues := rfl
@[simp] theorem State.onDie_xregs (d : Nat) (f : Die → Die) : (s.onDie d f).xregs = s.xregs := rfl
@[simp] theorem State.onDie_lctls (d : Nat) (f : Die → Die) : (s.onDie d f).lctls = s.lctls := rfl
@[simp] theorem State.onDie_mgmt (d : Nat) (f : Die → Die) : (s.onDie d f).mgmt = s.mgmt := rfl
@[simp] theorem State.onDie_partcfg (d : Nat) (f : Die → Die) : (s.onDie d f).partcfg = s.partcfg := rfl
@[simp] theorem State.onDie_bring (d : Nat) (f : Die → Die) : (s.onDie d f).bring = s.bring := rfl
@[simp] theorem State.onDie_mailbox (d : Nat) (f : Die → Die) : (s.onDie d f).mailbox = s.mailbox := rfl
@[simp] theorem State.onDie_dbg (d : Nat) (f : Die → Die) : (s.onDie d f).dbg = s.dbg := rfl
@[simp] theorem State.onDie_pend (d : Nat) (f : Die → Die) : (s.onDie d f).pend = s.pend := rfl
@[simp] theorem State.onDie_fabric (d : Nat) (f : Die → Die) : (s.onDie d f).fabric = s.fabric := rfl
@[simp] theorem State.onDie_answers (d : Nat) (f : Die → Die) : (s.onDie d f).answers = s.answers := rfl
@[simp] theorem State.onDie_tlb (d : Nat) (f : Die → Die) : (s.onDie d f).tlb = s.tlb := rfl
@[simp] theorem State.onDie_cards (d : Nat) (f : Die → Die) : (s.onDie d f).cards = s.cards := rfl
@[simp] theorem State.onDie_rings (d : Nat) (f : Die → Die) : (s.onDie d f).rings = s.rings := rfl
@[simp] theorem State.onDie_chip (d : Nat) (f : Die → Die) : (s.onDie d f).chip = s.chip := rfl
@[simp] theorem State.onDie_nextId (d : Nat) (f : Die → Die) : (s.onDie d f).nextId = s.nextId := rfl
@[simp] theorem State.onDie_free (d : Nat) (f : Die → Die) : (s.onDie d f).free = s.free := rfl
@[simp] theorem State.onDie_agenda (d : Nat) (f : Die → Die) : (s.onDie d f).agenda = s.agenda := rfl
@[simp] theorem State.onDie_turn (d : Nat) (f : Die → Die) : (s.onDie d f).turn = s.turn := rfl
@[simp] theorem State.onDie_tick (d : Nat) (f : Die → Die) : (s.onDie d f).tick = s.tick := rfl

/-! ### State.onXreg -/

@[simp] theorem State.onXreg_mem (p : Nat) (f : XReg → XReg) : (s.onXreg p f).mem = s.mem := rfl
@[simp] theorem State.onXreg_sums (p : Nat) (f : XReg → XReg) : (s.onXreg p f).sums = s.sums := rfl
@[simp] theorem State.onXreg_blocks (p : Nat) (f : XReg → XReg) : (s.onXreg p f).blocks = s.blocks := rfl
@[simp] theorem State.onXreg_launches (p : Nat) (f : XReg → XReg) : (s.onXreg p f).launches = s.launches := rfl
@[simp] theorem State.onXreg_ccs (p : Nat) (f : XReg → XReg) : (s.onXreg p f).ccs = s.ccs := rfl
@[simp] theorem State.onXreg_cores (p : Nat) (f : XReg → XReg) : (s.onXreg p f).cores = s.cores := rfl
@[simp] theorem State.onXreg_dies (p : Nat) (f : XReg → XReg) : (s.onXreg p f).dies = s.dies := rfl
@[simp] theorem State.onXreg_traps (p : Nat) (f : XReg → XReg) : (s.onXreg p f).traps = s.traps := rfl
@[simp] theorem State.onXreg_atoms (p : Nat) (f : XReg → XReg) : (s.onXreg p f).atoms = s.atoms := rfl
@[simp] theorem State.onXreg_homeq (p : Nat) (f : XReg → XReg) : (s.onXreg p f).homeq = s.homeq := rfl
@[simp] theorem State.onXreg_queues (p : Nat) (f : XReg → XReg) : (s.onXreg p f).queues = s.queues := rfl
@[simp] theorem State.onXreg_lctls (p : Nat) (f : XReg → XReg) : (s.onXreg p f).lctls = s.lctls := rfl
@[simp] theorem State.onXreg_mgmt (p : Nat) (f : XReg → XReg) : (s.onXreg p f).mgmt = s.mgmt := rfl
@[simp] theorem State.onXreg_partcfg (p : Nat) (f : XReg → XReg) : (s.onXreg p f).partcfg = s.partcfg := rfl
@[simp] theorem State.onXreg_bring (p : Nat) (f : XReg → XReg) : (s.onXreg p f).bring = s.bring := rfl
@[simp] theorem State.onXreg_mailbox (p : Nat) (f : XReg → XReg) : (s.onXreg p f).mailbox = s.mailbox := rfl
@[simp] theorem State.onXreg_dbg (p : Nat) (f : XReg → XReg) : (s.onXreg p f).dbg = s.dbg := rfl
@[simp] theorem State.onXreg_pend (p : Nat) (f : XReg → XReg) : (s.onXreg p f).pend = s.pend := rfl
@[simp] theorem State.onXreg_fabric (p : Nat) (f : XReg → XReg) : (s.onXreg p f).fabric = s.fabric := rfl
@[simp] theorem State.onXreg_answers (p : Nat) (f : XReg → XReg) : (s.onXreg p f).answers = s.answers := rfl
@[simp] theorem State.onXreg_tlb (p : Nat) (f : XReg → XReg) : (s.onXreg p f).tlb = s.tlb := rfl
@[simp] theorem State.onXreg_cards (p : Nat) (f : XReg → XReg) : (s.onXreg p f).cards = s.cards := rfl
@[simp] theorem State.onXreg_rings (p : Nat) (f : XReg → XReg) : (s.onXreg p f).rings = s.rings := rfl
@[simp] theorem State.onXreg_chip (p : Nat) (f : XReg → XReg) : (s.onXreg p f).chip = s.chip := rfl
@[simp] theorem State.onXreg_nextId (p : Nat) (f : XReg → XReg) : (s.onXreg p f).nextId = s.nextId := rfl
@[simp] theorem State.onXreg_free (p : Nat) (f : XReg → XReg) : (s.onXreg p f).free = s.free := rfl
@[simp] theorem State.onXreg_agenda (p : Nat) (f : XReg → XReg) : (s.onXreg p f).agenda = s.agenda := rfl
@[simp] theorem State.onXreg_turn (p : Nat) (f : XReg → XReg) : (s.onXreg p f).turn = s.turn := rfl
@[simp] theorem State.onXreg_tick (p : Nat) (f : XReg → XReg) : (s.onXreg p f).tick = s.tick := rfl

/-! ### State.onLctl -/

@[simp] theorem State.onLctl_mem (p : Nat) (f : LCtl → LCtl) : (s.onLctl p f).mem = s.mem := rfl
@[simp] theorem State.onLctl_sums (p : Nat) (f : LCtl → LCtl) : (s.onLctl p f).sums = s.sums := rfl
@[simp] theorem State.onLctl_blocks (p : Nat) (f : LCtl → LCtl) : (s.onLctl p f).blocks = s.blocks := rfl
@[simp] theorem State.onLctl_launches (p : Nat) (f : LCtl → LCtl) : (s.onLctl p f).launches = s.launches := rfl
@[simp] theorem State.onLctl_ccs (p : Nat) (f : LCtl → LCtl) : (s.onLctl p f).ccs = s.ccs := rfl
@[simp] theorem State.onLctl_cores (p : Nat) (f : LCtl → LCtl) : (s.onLctl p f).cores = s.cores := rfl
@[simp] theorem State.onLctl_dies (p : Nat) (f : LCtl → LCtl) : (s.onLctl p f).dies = s.dies := rfl
@[simp] theorem State.onLctl_traps (p : Nat) (f : LCtl → LCtl) : (s.onLctl p f).traps = s.traps := rfl
@[simp] theorem State.onLctl_atoms (p : Nat) (f : LCtl → LCtl) : (s.onLctl p f).atoms = s.atoms := rfl
@[simp] theorem State.onLctl_homeq (p : Nat) (f : LCtl → LCtl) : (s.onLctl p f).homeq = s.homeq := rfl
@[simp] theorem State.onLctl_queues (p : Nat) (f : LCtl → LCtl) : (s.onLctl p f).queues = s.queues := rfl
@[simp] theorem State.onLctl_xregs (p : Nat) (f : LCtl → LCtl) : (s.onLctl p f).xregs = s.xregs := rfl
@[simp] theorem State.onLctl_mgmt (p : Nat) (f : LCtl → LCtl) : (s.onLctl p f).mgmt = s.mgmt := rfl
@[simp] theorem State.onLctl_partcfg (p : Nat) (f : LCtl → LCtl) : (s.onLctl p f).partcfg = s.partcfg := rfl
@[simp] theorem State.onLctl_bring (p : Nat) (f : LCtl → LCtl) : (s.onLctl p f).bring = s.bring := rfl
@[simp] theorem State.onLctl_mailbox (p : Nat) (f : LCtl → LCtl) : (s.onLctl p f).mailbox = s.mailbox := rfl
@[simp] theorem State.onLctl_dbg (p : Nat) (f : LCtl → LCtl) : (s.onLctl p f).dbg = s.dbg := rfl
@[simp] theorem State.onLctl_pend (p : Nat) (f : LCtl → LCtl) : (s.onLctl p f).pend = s.pend := rfl
@[simp] theorem State.onLctl_fabric (p : Nat) (f : LCtl → LCtl) : (s.onLctl p f).fabric = s.fabric := rfl
@[simp] theorem State.onLctl_answers (p : Nat) (f : LCtl → LCtl) : (s.onLctl p f).answers = s.answers := rfl
@[simp] theorem State.onLctl_tlb (p : Nat) (f : LCtl → LCtl) : (s.onLctl p f).tlb = s.tlb := rfl
@[simp] theorem State.onLctl_cards (p : Nat) (f : LCtl → LCtl) : (s.onLctl p f).cards = s.cards := rfl
@[simp] theorem State.onLctl_rings (p : Nat) (f : LCtl → LCtl) : (s.onLctl p f).rings = s.rings := rfl
@[simp] theorem State.onLctl_chip (p : Nat) (f : LCtl → LCtl) : (s.onLctl p f).chip = s.chip := rfl
@[simp] theorem State.onLctl_nextId (p : Nat) (f : LCtl → LCtl) : (s.onLctl p f).nextId = s.nextId := rfl
@[simp] theorem State.onLctl_free (p : Nat) (f : LCtl → LCtl) : (s.onLctl p f).free = s.free := rfl
@[simp] theorem State.onLctl_agenda (p : Nat) (f : LCtl → LCtl) : (s.onLctl p f).agenda = s.agenda := rfl
@[simp] theorem State.onLctl_turn (p : Nat) (f : LCtl → LCtl) : (s.onLctl p f).turn = s.turn := rfl
@[simp] theorem State.onLctl_tick (p : Nat) (f : LCtl → LCtl) : (s.onLctl p f).tick = s.tick := rfl

/-! ### State.onDbg -/

@[simp] theorem State.onDbg_mem (p : Nat) (f : Dbg → Dbg) : (s.onDbg p f).mem = s.mem := rfl
@[simp] theorem State.onDbg_sums (p : Nat) (f : Dbg → Dbg) : (s.onDbg p f).sums = s.sums := rfl
@[simp] theorem State.onDbg_blocks (p : Nat) (f : Dbg → Dbg) : (s.onDbg p f).blocks = s.blocks := rfl
@[simp] theorem State.onDbg_launches (p : Nat) (f : Dbg → Dbg) : (s.onDbg p f).launches = s.launches := rfl
@[simp] theorem State.onDbg_ccs (p : Nat) (f : Dbg → Dbg) : (s.onDbg p f).ccs = s.ccs := rfl
@[simp] theorem State.onDbg_cores (p : Nat) (f : Dbg → Dbg) : (s.onDbg p f).cores = s.cores := rfl
@[simp] theorem State.onDbg_dies (p : Nat) (f : Dbg → Dbg) : (s.onDbg p f).dies = s.dies := rfl
@[simp] theorem State.onDbg_traps (p : Nat) (f : Dbg → Dbg) : (s.onDbg p f).traps = s.traps := rfl
@[simp] theorem State.onDbg_atoms (p : Nat) (f : Dbg → Dbg) : (s.onDbg p f).atoms = s.atoms := rfl
@[simp] theorem State.onDbg_homeq (p : Nat) (f : Dbg → Dbg) : (s.onDbg p f).homeq = s.homeq := rfl
@[simp] theorem State.onDbg_queues (p : Nat) (f : Dbg → Dbg) : (s.onDbg p f).queues = s.queues := rfl
@[simp] theorem State.onDbg_xregs (p : Nat) (f : Dbg → Dbg) : (s.onDbg p f).xregs = s.xregs := rfl
@[simp] theorem State.onDbg_lctls (p : Nat) (f : Dbg → Dbg) : (s.onDbg p f).lctls = s.lctls := rfl
@[simp] theorem State.onDbg_mgmt (p : Nat) (f : Dbg → Dbg) : (s.onDbg p f).mgmt = s.mgmt := rfl
@[simp] theorem State.onDbg_partcfg (p : Nat) (f : Dbg → Dbg) : (s.onDbg p f).partcfg = s.partcfg := rfl
@[simp] theorem State.onDbg_bring (p : Nat) (f : Dbg → Dbg) : (s.onDbg p f).bring = s.bring := rfl
@[simp] theorem State.onDbg_mailbox (p : Nat) (f : Dbg → Dbg) : (s.onDbg p f).mailbox = s.mailbox := rfl
@[simp] theorem State.onDbg_pend (p : Nat) (f : Dbg → Dbg) : (s.onDbg p f).pend = s.pend := rfl
@[simp] theorem State.onDbg_fabric (p : Nat) (f : Dbg → Dbg) : (s.onDbg p f).fabric = s.fabric := rfl
@[simp] theorem State.onDbg_answers (p : Nat) (f : Dbg → Dbg) : (s.onDbg p f).answers = s.answers := rfl
@[simp] theorem State.onDbg_tlb (p : Nat) (f : Dbg → Dbg) : (s.onDbg p f).tlb = s.tlb := rfl
@[simp] theorem State.onDbg_cards (p : Nat) (f : Dbg → Dbg) : (s.onDbg p f).cards = s.cards := rfl
@[simp] theorem State.onDbg_rings (p : Nat) (f : Dbg → Dbg) : (s.onDbg p f).rings = s.rings := rfl
@[simp] theorem State.onDbg_chip (p : Nat) (f : Dbg → Dbg) : (s.onDbg p f).chip = s.chip := rfl
@[simp] theorem State.onDbg_nextId (p : Nat) (f : Dbg → Dbg) : (s.onDbg p f).nextId = s.nextId := rfl
@[simp] theorem State.onDbg_free (p : Nat) (f : Dbg → Dbg) : (s.onDbg p f).free = s.free := rfl
@[simp] theorem State.onDbg_agenda (p : Nat) (f : Dbg → Dbg) : (s.onDbg p f).agenda = s.agenda := rfl
@[simp] theorem State.onDbg_turn (p : Nat) (f : Dbg → Dbg) : (s.onDbg p f).turn = s.turn := rfl
@[simp] theorem State.onDbg_tick (p : Nat) (f : Dbg → Dbg) : (s.onDbg p f).tick = s.tick := rfl

/-! ### State.spend -/

@[simp] theorem State.spend_mem (n : Nat) : (s.spend n).mem = s.mem := rfl
@[simp] theorem State.spend_sums (n : Nat) : (s.spend n).sums = s.sums := rfl
@[simp] theorem State.spend_blocks (n : Nat) : (s.spend n).blocks = s.blocks := rfl
@[simp] theorem State.spend_launches (n : Nat) : (s.spend n).launches = s.launches := rfl
@[simp] theorem State.spend_ccs (n : Nat) : (s.spend n).ccs = s.ccs := rfl
@[simp] theorem State.spend_cores (n : Nat) : (s.spend n).cores = s.cores := rfl
@[simp] theorem State.spend_dies (n : Nat) : (s.spend n).dies = s.dies := rfl
@[simp] theorem State.spend_traps (n : Nat) : (s.spend n).traps = s.traps := rfl
@[simp] theorem State.spend_atoms (n : Nat) : (s.spend n).atoms = s.atoms := rfl
@[simp] theorem State.spend_homeq (n : Nat) : (s.spend n).homeq = s.homeq := rfl
@[simp] theorem State.spend_queues (n : Nat) : (s.spend n).queues = s.queues := rfl
@[simp] theorem State.spend_xregs (n : Nat) : (s.spend n).xregs = s.xregs := rfl
@[simp] theorem State.spend_lctls (n : Nat) : (s.spend n).lctls = s.lctls := rfl
@[simp] theorem State.spend_mgmt (n : Nat) : (s.spend n).mgmt = s.mgmt := rfl
@[simp] theorem State.spend_partcfg (n : Nat) : (s.spend n).partcfg = s.partcfg := rfl
@[simp] theorem State.spend_bring (n : Nat) : (s.spend n).bring = s.bring := rfl
@[simp] theorem State.spend_mailbox (n : Nat) : (s.spend n).mailbox = s.mailbox := rfl
@[simp] theorem State.spend_dbg (n : Nat) : (s.spend n).dbg = s.dbg := rfl
@[simp] theorem State.spend_pend (n : Nat) : (s.spend n).pend = s.pend := rfl
@[simp] theorem State.spend_fabric (n : Nat) : (s.spend n).fabric = s.fabric := rfl
@[simp] theorem State.spend_answers (n : Nat) : (s.spend n).answers = s.answers := rfl
@[simp] theorem State.spend_tlb (n : Nat) : (s.spend n).tlb = s.tlb := rfl
@[simp] theorem State.spend_cards (n : Nat) : (s.spend n).cards = s.cards := rfl
@[simp] theorem State.spend_rings (n : Nat) : (s.spend n).rings = s.rings := rfl
@[simp] theorem State.spend_chip (n : Nat) : (s.spend n).chip = s.chip := rfl
@[simp] theorem State.spend_nextId (n : Nat) : (s.spend n).nextId = s.nextId := rfl
@[simp] theorem State.spend_agenda (n : Nat) : (s.spend n).agenda = s.agenda := rfl
@[simp] theorem State.spend_turn (n : Nat) : (s.spend n).turn = s.turn := rfl
@[simp] theorem State.spend_tick (n : Nat) : (s.spend n).tick = s.tick := rfl
@[simp] theorem State.onBlock_blocks (n : Nat) (f : Block → Block) : (s.onBlock n f).blocks = mapIf (·.bid == n) f s.blocks := rfl
@[simp] theorem State.onLaunch_launches (n : Nat) (f : Launch → Launch) :
    (s.onLaunch n f).launches = mapIf (·.lid == n) f s.launches := rfl
@[simp] theorem State.onCc_ccs (c : Nat) (f : CCore → CCore) : (s.onCc c f).ccs = mapIf (·.num == c) f s.ccs := rfl
@[simp] theorem State.onDie_dies (d : Nat) (f : Die → Die) : (s.onDie d f).dies = mapIf (·.num == d) f s.dies := rfl
@[simp] theorem State.spend_free (n : Nat) : (s.spend n).free = s.free + n := rfl

/-! ### State.setCore -/

@[simp] theorem State.setCore_mem (c : Core) : (s.setCore c).mem = s.mem := by
  unfold State.setCore; split <;> rfl
@[simp] theorem State.setCore_sums (c : Core) : (s.setCore c).sums = s.sums := by
  unfold State.setCore; split <;> rfl
@[simp] theorem State.setCore_blocks (c : Core) : (s.setCore c).blocks = s.blocks := by
  unfold State.setCore; split <;> rfl
@[simp] theorem State.setCore_launches (c : Core) : (s.setCore c).launches = s.launches := by
  unfold State.setCore; split <;> rfl
@[simp] theorem State.setCore_ccs (c : Core) : (s.setCore c).ccs = s.ccs := by
  unfold State.setCore; split <;> rfl
@[simp] theorem State.setCore_dies (c : Core) : (s.setCore c).dies = s.dies := by
  unfold State.setCore; split <;> rfl
@[simp] theorem State.setCore_traps (c : Core) : (s.setCore c).traps = s.traps := by
  unfold State.setCore; split <;> rfl
@[simp] theorem State.setCore_atoms (c : Core) : (s.setCore c).atoms = s.atoms := by
  unfold State.setCore; split <;> rfl
@[simp] theorem State.setCore_homeq (c : Core) : (s.setCore c).homeq = s.homeq := by
  unfold State.setCore; split <;> rfl
@[simp] theorem State.setCore_queues (c : Core) : (s.setCore c).queues = s.queues := by
  unfold State.setCore; split <;> rfl
@[simp] theorem State.setCore_xregs (c : Core) : (s.setCore c).xregs = s.xregs := by
  unfold State.setCore; split <;> rfl
@[simp] theorem State.setCore_lctls (c : Core) : (s.setCore c).lctls = s.lctls := by
  unfold State.setCore; split <;> rfl
@[simp] theorem State.setCore_mgmt (c : Core) : (s.setCore c).mgmt = s.mgmt := by
  unfold State.setCore; split <;> rfl
@[simp] theorem State.setCore_partcfg (c : Core) : (s.setCore c).partcfg = s.partcfg := by
  unfold State.setCore; split <;> rfl
@[simp] theorem State.setCore_bring (c : Core) : (s.setCore c).bring = s.bring := by
  unfold State.setCore; split <;> rfl
@[simp] theorem State.setCore_mailbox (c : Core) : (s.setCore c).mailbox = s.mailbox := by
  unfold State.setCore; split <;> rfl
@[simp] theorem State.setCore_dbg (c : Core) : (s.setCore c).dbg = s.dbg := by
  unfold State.setCore; split <;> rfl
@[simp] theorem State.setCore_pend (c : Core) : (s.setCore c).pend = s.pend := by
  unfold State.setCore; split <;> rfl
@[simp] theorem State.setCore_fabric (c : Core) : (s.setCore c).fabric = s.fabric := by
  unfold State.setCore; split <;> rfl
@[simp] theorem State.setCore_answers (c : Core) : (s.setCore c).answers = s.answers := by
  unfold State.setCore; split <;> rfl
@[simp] theorem State.setCore_tlb (c : Core) : (s.setCore c).tlb = s.tlb := by
  unfold State.setCore; split <;> rfl
@[simp] theorem State.setCore_cards (c : Core) : (s.setCore c).cards = s.cards := by
  unfold State.setCore; split <;> rfl
@[simp] theorem State.setCore_rings (c : Core) : (s.setCore c).rings = s.rings := by
  unfold State.setCore; split <;> rfl
@[simp] theorem State.setCore_chip (c : Core) : (s.setCore c).chip = s.chip := by
  unfold State.setCore; split <;> rfl
@[simp] theorem State.setCore_nextId (c : Core) : (s.setCore c).nextId = s.nextId := by
  unfold State.setCore; split <;> rfl
@[simp] theorem State.setCore_free (c : Core) : (s.setCore c).free = s.free := by
  unfold State.setCore; split <;> rfl
@[simp] theorem State.setCore_agenda (c : Core) : (s.setCore c).agenda = s.agenda := by
  unfold State.setCore; split <;> rfl
@[simp] theorem State.setCore_turn (c : Core) : (s.setCore c).turn = s.turn := by
  unfold State.setCore; split <;> rfl
@[simp] theorem State.setCore_tick (c : Core) : (s.setCore c).tick = s.tick := by
  unfold State.setCore; split <;> rfl

/-! ### State.setQueue -/

@[simp] theorem State.setQueue_mem (q : QReg) : (s.setQueue q).mem = s.mem := by
  unfold State.setQueue; split <;> rfl
@[simp] theorem State.setQueue_sums (q : QReg) : (s.setQueue q).sums = s.sums := by
  unfold State.setQueue; split <;> rfl
@[simp] theorem State.setQueue_blocks (q : QReg) : (s.setQueue q).blocks = s.blocks := by
  unfold State.setQueue; split <;> rfl
@[simp] theorem State.setQueue_launches (q : QReg) : (s.setQueue q).launches = s.launches := by
  unfold State.setQueue; split <;> rfl
@[simp] theorem State.setQueue_ccs (q : QReg) : (s.setQueue q).ccs = s.ccs := by
  unfold State.setQueue; split <;> rfl
@[simp] theorem State.setQueue_cores (q : QReg) : (s.setQueue q).cores = s.cores := by
  unfold State.setQueue; split <;> rfl
@[simp] theorem State.setQueue_dies (q : QReg) : (s.setQueue q).dies = s.dies := by
  unfold State.setQueue; split <;> rfl
@[simp] theorem State.setQueue_traps (q : QReg) : (s.setQueue q).traps = s.traps := by
  unfold State.setQueue; split <;> rfl
@[simp] theorem State.setQueue_atoms (q : QReg) : (s.setQueue q).atoms = s.atoms := by
  unfold State.setQueue; split <;> rfl
@[simp] theorem State.setQueue_homeq (q : QReg) : (s.setQueue q).homeq = s.homeq := by
  unfold State.setQueue; split <;> rfl
@[simp] theorem State.setQueue_xregs (q : QReg) : (s.setQueue q).xregs = s.xregs := by
  unfold State.setQueue; split <;> rfl
@[simp] theorem State.setQueue_lctls (q : QReg) : (s.setQueue q).lctls = s.lctls := by
  unfold State.setQueue; split <;> rfl
@[simp] theorem State.setQueue_mgmt (q : QReg) : (s.setQueue q).mgmt = s.mgmt := by
  unfold State.setQueue; split <;> rfl
@[simp] theorem State.setQueue_partcfg (q : QReg) : (s.setQueue q).partcfg = s.partcfg := by
  unfold State.setQueue; split <;> rfl
@[simp] theorem State.setQueue_bring (q : QReg) : (s.setQueue q).bring = s.bring := by
  unfold State.setQueue; split <;> rfl
@[simp] theorem State.setQueue_mailbox (q : QReg) : (s.setQueue q).mailbox = s.mailbox := by
  unfold State.setQueue; split <;> rfl
@[simp] theorem State.setQueue_dbg (q : QReg) : (s.setQueue q).dbg = s.dbg := by
  unfold State.setQueue; split <;> rfl
@[simp] theorem State.setQueue_pend (q : QReg) : (s.setQueue q).pend = s.pend := by
  unfold State.setQueue; split <;> rfl
@[simp] theorem State.setQueue_fabric (q : QReg) : (s.setQueue q).fabric = s.fabric := by
  unfold State.setQueue; split <;> rfl
@[simp] theorem State.setQueue_answers (q : QReg) : (s.setQueue q).answers = s.answers := by
  unfold State.setQueue; split <;> rfl
@[simp] theorem State.setQueue_tlb (q : QReg) : (s.setQueue q).tlb = s.tlb := by
  unfold State.setQueue; split <;> rfl
@[simp] theorem State.setQueue_cards (q : QReg) : (s.setQueue q).cards = s.cards := by
  unfold State.setQueue; split <;> rfl
@[simp] theorem State.setQueue_rings (q : QReg) : (s.setQueue q).rings = s.rings := by
  unfold State.setQueue; split <;> rfl
@[simp] theorem State.setQueue_chip (q : QReg) : (s.setQueue q).chip = s.chip := by
  unfold State.setQueue; split <;> rfl
@[simp] theorem State.setQueue_nextId (q : QReg) : (s.setQueue q).nextId = s.nextId := by
  unfold State.setQueue; split <;> rfl
@[simp] theorem State.setQueue_free (q : QReg) : (s.setQueue q).free = s.free := by
  unfold State.setQueue; split <;> rfl
@[simp] theorem State.setQueue_agenda (q : QReg) : (s.setQueue q).agenda = s.agenda := by
  unfold State.setQueue; split <;> rfl
@[simp] theorem State.setQueue_turn (q : QReg) : (s.setQueue q).turn = s.turn := by
  unfold State.setQueue; split <;> rfl
@[simp] theorem State.setQueue_tick (q : QReg) : (s.setQueue q).tick = s.tick := by
  unfold State.setQueue; split <;> rfl

/-! ### State.putGrps -/

@[simp] theorem State.putGrps_mem (w : Who) (gs : List Grp) : (s.putGrps w gs).mem = s.mem := by
  cases w <;> cases gs <;> rfl
@[simp] theorem State.putGrps_sums (w : Who) (gs : List Grp) : (s.putGrps w gs).sums = s.sums := by
  cases w <;> cases gs <;> rfl
@[simp] theorem State.putGrps_launches (w : Who) (gs : List Grp) : (s.putGrps w gs).launches = s.launches := by
  cases w <;> cases gs <;> rfl
@[simp] theorem State.putGrps_cores (w : Who) (gs : List Grp) : (s.putGrps w gs).cores = s.cores := by
  cases w <;> cases gs <;> rfl
@[simp] theorem State.putGrps_dies (w : Who) (gs : List Grp) : (s.putGrps w gs).dies = s.dies := by
  cases w <;> cases gs <;> rfl
@[simp] theorem State.putGrps_atoms (w : Who) (gs : List Grp) : (s.putGrps w gs).atoms = s.atoms := by
  cases w <;> cases gs <;> rfl
@[simp] theorem State.putGrps_homeq (w : Who) (gs : List Grp) : (s.putGrps w gs).homeq = s.homeq := by
  cases w <;> cases gs <;> rfl
@[simp] theorem State.putGrps_queues (w : Who) (gs : List Grp) : (s.putGrps w gs).queues = s.queues := by
  cases w <;> cases gs <;> rfl
@[simp] theorem State.putGrps_xregs (w : Who) (gs : List Grp) : (s.putGrps w gs).xregs = s.xregs := by
  cases w <;> cases gs <;> rfl
@[simp] theorem State.putGrps_lctls (w : Who) (gs : List Grp) : (s.putGrps w gs).lctls = s.lctls := by
  cases w <;> cases gs <;> rfl
@[simp] theorem State.putGrps_mgmt (w : Who) (gs : List Grp) : (s.putGrps w gs).mgmt = s.mgmt := by
  cases w <;> cases gs <;> rfl
@[simp] theorem State.putGrps_partcfg (w : Who) (gs : List Grp) : (s.putGrps w gs).partcfg = s.partcfg := by
  cases w <;> cases gs <;> rfl
@[simp] theorem State.putGrps_bring (w : Who) (gs : List Grp) : (s.putGrps w gs).bring = s.bring := by
  cases w <;> cases gs <;> rfl
@[simp] theorem State.putGrps_mailbox (w : Who) (gs : List Grp) : (s.putGrps w gs).mailbox = s.mailbox := by
  cases w <;> cases gs <;> rfl
@[simp] theorem State.putGrps_dbg (w : Who) (gs : List Grp) : (s.putGrps w gs).dbg = s.dbg := by
  cases w <;> cases gs <;> rfl
@[simp] theorem State.putGrps_pend (w : Who) (gs : List Grp) : (s.putGrps w gs).pend = s.pend := by
  cases w <;> cases gs <;> rfl
@[simp] theorem State.putGrps_fabric (w : Who) (gs : List Grp) : (s.putGrps w gs).fabric = s.fabric := by
  cases w <;> cases gs <;> rfl
@[simp] theorem State.putGrps_answers (w : Who) (gs : List Grp) : (s.putGrps w gs).answers = s.answers := by
  cases w <;> cases gs <;> rfl
@[simp] theorem State.putGrps_tlb (w : Who) (gs : List Grp) : (s.putGrps w gs).tlb = s.tlb := by
  cases w <;> cases gs <;> rfl
@[simp] theorem State.putGrps_cards (w : Who) (gs : List Grp) : (s.putGrps w gs).cards = s.cards := by
  cases w <;> cases gs <;> rfl
@[simp] theorem State.putGrps_rings (w : Who) (gs : List Grp) : (s.putGrps w gs).rings = s.rings := by
  cases w <;> cases gs <;> rfl
@[simp] theorem State.putGrps_chip (w : Who) (gs : List Grp) : (s.putGrps w gs).chip = s.chip := by
  cases w <;> cases gs <;> rfl
@[simp] theorem State.putGrps_nextId (w : Who) (gs : List Grp) : (s.putGrps w gs).nextId = s.nextId := by
  cases w <;> cases gs <;> rfl
@[simp] theorem State.putGrps_free (w : Who) (gs : List Grp) : (s.putGrps w gs).free = s.free := by
  cases w <;> cases gs <;> rfl
@[simp] theorem State.putGrps_agenda (w : Who) (gs : List Grp) : (s.putGrps w gs).agenda = s.agenda := by
  cases w <;> cases gs <;> rfl
@[simp] theorem State.putGrps_turn (w : Who) (gs : List Grp) : (s.putGrps w gs).turn = s.turn := by
  cases w <;> cases gs <;> rfl
@[simp] theorem State.putGrps_tick (w : Who) (gs : List Grp) : (s.putGrps w gs).tick = s.tick := by
  cases w <;> cases gs <;> rfl

/-! ### State.onGrp -/

@[simp] theorem State.onGrp_mem (w : Who) (f : Grp → Grp) : (s.onGrp w f).mem = s.mem := by
  cases w <;> rfl
@[simp] theorem State.onGrp_sums (w : Who) (f : Grp → Grp) : (s.onGrp w f).sums = s.sums := by
  cases w <;> rfl
@[simp] theorem State.onGrp_launches (w : Who) (f : Grp → Grp) : (s.onGrp w f).launches = s.launches := by
  cases w <;> rfl
@[simp] theorem State.onGrp_cores (w : Who) (f : Grp → Grp) : (s.onGrp w f).cores = s.cores := by
  cases w <;> rfl
@[simp] theorem State.onGrp_dies (w : Who) (f : Grp → Grp) : (s.onGrp w f).dies = s.dies := by
  cases w <;> rfl
@[simp] theorem State.onGrp_atoms (w : Who) (f : Grp → Grp) : (s.onGrp w f).atoms = s.atoms := by
  cases w <;> rfl
@[simp] theorem State.onGrp_homeq (w : Who) (f : Grp → Grp) : (s.onGrp w f).homeq = s.homeq := by
  cases w <;> rfl
@[simp] theorem State.onGrp_queues (w : Who) (f : Grp → Grp) : (s.onGrp w f).queues = s.queues := by
  cases w <;> rfl
@[simp] theorem State.onGrp_xregs (w : Who) (f : Grp → Grp) : (s.onGrp w f).xregs = s.xregs := by
  cases w <;> rfl
@[simp] theorem State.onGrp_lctls (w : Who) (f : Grp → Grp) : (s.onGrp w f).lctls = s.lctls := by
  cases w <;> rfl
@[simp] theorem State.onGrp_mgmt (w : Who) (f : Grp → Grp) : (s.onGrp w f).mgmt = s.mgmt := by
  cases w <;> rfl
@[simp] theorem State.onGrp_partcfg (w : Who) (f : Grp → Grp) : (s.onGrp w f).partcfg = s.partcfg := by
  cases w <;> rfl
@[simp] theorem State.onGrp_bring (w : Who) (f : Grp → Grp) : (s.onGrp w f).bring = s.bring := by
  cases w <;> rfl
@[simp] theorem State.onGrp_mailbox (w : Who) (f : Grp → Grp) : (s.onGrp w f).mailbox = s.mailbox := by
  cases w <;> rfl
@[simp] theorem State.onGrp_dbg (w : Who) (f : Grp → Grp) : (s.onGrp w f).dbg = s.dbg := by
  cases w <;> rfl
@[simp] theorem State.onGrp_pend (w : Who) (f : Grp → Grp) : (s.onGrp w f).pend = s.pend := by
  cases w <;> rfl
@[simp] theorem State.onGrp_fabric (w : Who) (f : Grp → Grp) : (s.onGrp w f).fabric = s.fabric := by
  cases w <;> rfl
@[simp] theorem State.onGrp_answers (w : Who) (f : Grp → Grp) : (s.onGrp w f).answers = s.answers := by
  cases w <;> rfl
@[simp] theorem State.onGrp_tlb (w : Who) (f : Grp → Grp) : (s.onGrp w f).tlb = s.tlb := by
  cases w <;> rfl
@[simp] theorem State.onGrp_cards (w : Who) (f : Grp → Grp) : (s.onGrp w f).cards = s.cards := by
  cases w <;> rfl
@[simp] theorem State.onGrp_rings (w : Who) (f : Grp → Grp) : (s.onGrp w f).rings = s.rings := by
  cases w <;> rfl
@[simp] theorem State.onGrp_chip (w : Who) (f : Grp → Grp) : (s.onGrp w f).chip = s.chip := by
  cases w <;> rfl
@[simp] theorem State.onGrp_nextId (w : Who) (f : Grp → Grp) : (s.onGrp w f).nextId = s.nextId := by
  cases w <;> rfl
@[simp] theorem State.onGrp_free (w : Who) (f : Grp → Grp) : (s.onGrp w f).free = s.free := by
  cases w <;> rfl
@[simp] theorem State.onGrp_agenda (w : Who) (f : Grp → Grp) : (s.onGrp w f).agenda = s.agenda := by
  cases w <;> rfl
@[simp] theorem State.onGrp_turn (w : Who) (f : Grp → Grp) : (s.onGrp w f).turn = s.turn := by
  cases w <;> rfl
@[simp] theorem State.onGrp_tick (w : Who) (f : Grp → Grp) : (s.onGrp w f).tick = s.tick := by
  cases w <;> rfl

/-! ### State.onUnit -/

@[simp] theorem State.onUnit_mem (w : Who) (f : ISet → ISet) : (s.onUnit w f).mem = s.mem := by
  cases w <;> rfl
@[simp] theorem State.onUnit_sums (w : Who) (f : ISet → ISet) : (s.onUnit w f).sums = s.sums := by
  cases w <;> rfl
@[simp] theorem State.onUnit_launches (w : Who) (f : ISet → ISet) : (s.onUnit w f).launches = s.launches := by
  cases w <;> rfl
@[simp] theorem State.onUnit_cores (w : Who) (f : ISet → ISet) : (s.onUnit w f).cores = s.cores := by
  cases w <;> rfl
@[simp] theorem State.onUnit_dies (w : Who) (f : ISet → ISet) : (s.onUnit w f).dies = s.dies := by
  cases w <;> rfl
@[simp] theorem State.onUnit_atoms (w : Who) (f : ISet → ISet) : (s.onUnit w f).atoms = s.atoms := by
  cases w <;> rfl
@[simp] theorem State.onUnit_homeq (w : Who) (f : ISet → ISet) : (s.onUnit w f).homeq = s.homeq := by
  cases w <;> rfl
@[simp] theorem State.onUnit_queues (w : Who) (f : ISet → ISet) : (s.onUnit w f).queues = s.queues := by
  cases w <;> rfl
@[simp] theorem State.onUnit_xregs (w : Who) (f : ISet → ISet) : (s.onUnit w f).xregs = s.xregs := by
  cases w <;> rfl
@[simp] theorem State.onUnit_lctls (w : Who) (f : ISet → ISet) : (s.onUnit w f).lctls = s.lctls := by
  cases w <;> rfl
@[simp] theorem State.onUnit_mgmt (w : Who) (f : ISet → ISet) : (s.onUnit w f).mgmt = s.mgmt := by
  cases w <;> rfl
@[simp] theorem State.onUnit_partcfg (w : Who) (f : ISet → ISet) : (s.onUnit w f).partcfg = s.partcfg := by
  cases w <;> rfl
@[simp] theorem State.onUnit_bring (w : Who) (f : ISet → ISet) : (s.onUnit w f).bring = s.bring := by
  cases w <;> rfl
@[simp] theorem State.onUnit_mailbox (w : Who) (f : ISet → ISet) : (s.onUnit w f).mailbox = s.mailbox := by
  cases w <;> rfl
@[simp] theorem State.onUnit_dbg (w : Who) (f : ISet → ISet) : (s.onUnit w f).dbg = s.dbg := by
  cases w <;> rfl
@[simp] theorem State.onUnit_pend (w : Who) (f : ISet → ISet) : (s.onUnit w f).pend = s.pend := by
  cases w <;> rfl
@[simp] theorem State.onUnit_fabric (w : Who) (f : ISet → ISet) : (s.onUnit w f).fabric = s.fabric := by
  cases w <;> rfl
@[simp] theorem State.onUnit_answers (w : Who) (f : ISet → ISet) : (s.onUnit w f).answers = s.answers := by
  cases w <;> rfl
@[simp] theorem State.onUnit_tlb (w : Who) (f : ISet → ISet) : (s.onUnit w f).tlb = s.tlb := by
  cases w <;> rfl
@[simp] theorem State.onUnit_cards (w : Who) (f : ISet → ISet) : (s.onUnit w f).cards = s.cards := by
  cases w <;> rfl
@[simp] theorem State.onUnit_rings (w : Who) (f : ISet → ISet) : (s.onUnit w f).rings = s.rings := by
  cases w <;> rfl
@[simp] theorem State.onUnit_chip (w : Who) (f : ISet → ISet) : (s.onUnit w f).chip = s.chip := by
  cases w <;> rfl
@[simp] theorem State.onUnit_nextId (w : Who) (f : ISet → ISet) : (s.onUnit w f).nextId = s.nextId := by
  cases w <;> rfl
@[simp] theorem State.onUnit_free (w : Who) (f : ISet → ISet) : (s.onUnit w f).free = s.free := by
  cases w <;> rfl
@[simp] theorem State.onUnit_agenda (w : Who) (f : ISet → ISet) : (s.onUnit w f).agenda = s.agenda := by
  cases w <;> rfl
@[simp] theorem State.onUnit_turn (w : Who) (f : ISet → ISet) : (s.onUnit w f).turn = s.turn := by
  cases w <;> rfl
@[simp] theorem State.onUnit_tick (w : Who) (f : ISet → ISet) : (s.onUnit w f).tick = s.tick := by
  cases w <;> rfl

end Sys2Proof.Machine
end

