-- ==== Sys2Proof/Laws/Run.lean ====
section
/-! SUPPORT. What running a word can do (runWord, hazard, prepare, finish), once for all words. -/

namespace Sys2Proof.Machine

/-! ### The acting agent -/

theorem env?_who {s : State} {w : Who} {e : Env} (h : s.env? w = some e) : e.who = w := by
  cases w <;> simp only [State.env?, Option.bind_eq_bind, Option.bind_eq_some_iff] at h
  · obtain ⟨b, -, l, -, g, -, u, -, h⟩ := h
    split at h
    · simp only [Option.some.injEq] at h; subst h; rfl
    · simp at h
  · obtain ⟨t, -, b, -, l, -, g, -, u, -, h⟩ := h
    simp only [Option.some.injEq] at h; subst h; rfl
  · obtain ⟨k, -, u, -, h⟩ := h
    simp only [Option.some.injEq] at h; subst h; rfl
  · obtain ⟨k, -, t, -, g, -, u, -, h⟩ := h
    simp only [Option.some.injEq] at h; subst h; rfl

theorem env?_unit {s : State} {w : Who} {e : Env} (h : s.env? w = some e) : e.unit ∈ e.grp.units ∧ e.view = e.grp := by
  cases w <;> simp only [State.env?, Option.bind_eq_bind, Option.bind_eq_some_iff] at h
  · obtain ⟨b, -, l, -, g, -, u, hu, h⟩ := h
    split at h
    · simp only [Option.some.injEq] at h; subst h; exact ⟨List.mem_of_find?_eq_some hu, rfl⟩
    · simp at h
  · obtain ⟨t, -, b, -, l, -, g, -, u, hu, h⟩ := h
    simp only [Option.some.injEq] at h; subst h; exact ⟨List.mem_of_find?_eq_some hu, rfl⟩
  · obtain ⟨k, -, u, hu, h⟩ := h
    simp only [Option.some.injEq] at h; subst h; exact ⟨List.mem_of_find?_eq_some hu, rfl⟩
  · obtain ⟨k, -, t, -, g, -, u, hu, h⟩ := h
    simp only [Option.some.injEq] at h; subst h; exact ⟨List.mem_of_find?_eq_some hu, rfl⟩

theorem bit_live {l : Nat} {us : List ISet} {m : W32} {u : ISet} (hu : u ∈ us ∧ bit u.lanes.toNat l = true ∨ bit m.toNat l = true) :
    bit (us.foldl (fun m u => m ||| u.lanes) m).toNat l = true := by
  induction us generalizing m with
  | nil => simpa using hu
  | cons v r ih =>
    apply ih
    rw [bit_or]
    rcases hu with ⟨hm, hb⟩ | hb
    · rcases List.mem_cons.mp hm with rfl | hm
      · right; simp [hb]
      · left; exact ⟨hm, hb⟩
    · right; simp [hb]

/-- The acting threads are threads of their group. -/
theorem members_positions {s : State} {w : Who} {e : Env} (h : s.env? w = some e) (hs : e.solo = false) {p : Nat}
    (hp : p ∈ e.members) : p ∈ e.grp.positions := by
  simp only [Env.members, hs, Bool.false_eq_true, if_false, Grp.members] at hp
  unfold Grp.positions
  split at hp
  · next hsp => rwa [if_pos hsp]
  · next hsp =>
    rw [if_neg hsp]
    rw [mem_lanesOf] at hp ⊢
    exact ⟨hp.1, bit_live (Or.inl ⟨(env?_unit h).1, hp.2⟩)⟩

theorem members_lt {e : Env} (hs : e.grp.span = false ∨ e.solo = true) {p : Nat} (hp : p ∈ e.members) : p < 32 := by
  unfold Env.members at hp
  split at hp
  · simp only [List.mem_singleton] at hp; omega
  · next h =>
    rcases hs with hs | hs
    · simp only [Grp.members, hs, Bool.false_eq_true, if_false] at hp
      exact (mem_lanesOf.mp hp).1
    · exact absurd hs h

/-! ### Words -/

/-- A word whose own meaning completes: the group as it wrote it, one word further. -/
theorem runWord_done {s : State} {sh : Env → Shape} {f : State → Env → Eff} {e : Env} (h : Executes s (sh e) e)
    {t : State} {e' : Env} (hf : f (s.prepare e (sh e)).1 (s.prepare e (sh e)).2 = .done t e') :
    s.runWord sh f = .next (t.finish e' e.grp (sh e)) := by
  simp only [State.runWord, h.acts, h.clear, hf, h.whole]
  simp

/-- A word whose own meaning has moved its group. -/
theorem runWord_moved {s : State} {sh : Env → Shape} {f : State → Env → Eff} {e : Env} (ha : s.env? s.turn = some e)
    (hc : s.hazard e (sh e) = none) {t : State} (hf : f (s.prepare e (sh e)).1 (s.prepare e (sh e)).2 = .moved t) :
    s.runWord sh f = .next t := by
  simp only [State.runWord, ha, hc, hf]

/-- A word at which the span expands (R22). -/
theorem runWord_expand {s : State} {sh : Env → Shape} {f : State → Env → Eff} {e : Env} (ha : s.env? s.turn = some e)
    (hc : s.hazard e (sh e) = none) (hf : f (s.prepare e (sh e)).1 (s.prepare e (sh e)).2 = .expand) :
    s.runWord sh f = .next (s.expandGrp e) := by
  simp only [State.runWord, ha, hc, hf]

/-- A word that a check of its own stops (R337). -/
theorem runWord_trap {s : State} {sh : Env → Shape} {f : State → Env → Eff} {e : Env} (ha : s.env? s.turn = some e)
    (hc : s.hazard e (sh e) = none) {c n : Nat} {d : W64}
    (hf : f (s.prepare e (sh e)).1 (s.prepare e (sh e)).2 = .trap c d n) :
    s.runWord sh f = .next (s.trapWord e c d n) := by
  simp only [State.runWord, ha, hc, hf]

/-- A word that a shared check stops. -/
theorem runWord_hazard {s : State} {sh : Env → Shape} {f : State → Env → Eff} {e : Env} (ha : s.env? s.turn = some e)
    {c n : Nat} {d : W64} (hc : s.hazard e (sh e) = some (.trap c d n)) :
    s.runWord sh f = .next (s.trapWord e c d n) := by
  simp only [State.runWord, ha, hc]

/-- Everything running a word can do. -/
theorem runWord_cases {s t : State} {sh : Env → Shape} {f : State → Env → Eff} (h : s.runWord sh f = .next t) :
    ∃ e, s.env? s.turn = some e ∧
      ((∃ c d n, t = s.trapWord e c d n) ∨ t = s ∨ t = s.expandGrp e ∨
        (∃ u e', f (s.prepare e (sh e)).1 (s.prepare e (sh e)).2 = .done u e' ∧ t = u.finish e' e.grp (sh e)) ∨
        f (s.prepare e (sh e)).1 (s.prepare e (sh e)).2 = .moved t ∨
        (∃ u k l a v ps, f (s.prepare e (sh e)).1 (s.prepare e (sh e)).2 = .fault u k l a v ps ∧
          t = u.dataFault e k l a v ps) ∨
        (∃ u st, f (s.prepare e (sh e)).1 (s.prepare e (sh e)).2 = .hold u st ∧
          t = u.onUnit e.who fun x => { x with stat := st })) := by
  unfold State.runWord at h
  split at h
  · simp at h
  · next e he =>
    refine ⟨e, he, ?_⟩
    simp only at h
    split at h
    · next c d n _ => injection h with h; exact .inl ⟨c, d, n, h.symm⟩
    · injection h with h; exact .inr (.inl h.symm)
    · injection h with h; exact .inr (.inr (.inl h.symm))
    · split at h
      · next u e' hf =>
        split at h
        · injection h with h; exact .inr (.inr (.inl h.symm))
        · injection h with h; exact .inr (.inr (.inr (.inl ⟨u, e', hf, h.symm⟩)))
      · next u hf => injection h with h; subst h; exact .inr (.inr (.inr (.inr (.inl hf))))
      · next c d n hf => injection h with h; exact .inl ⟨c, d, n, h.symm⟩
      · next u k l a v ps hf =>
        injection h with h; exact .inr (.inr (.inr (.inr (.inr (.inl ⟨u, k, l, a, v, ps, hf, h.symm⟩)))))
      · next u st hf => injection h with h; exact .inr (.inr (.inr (.inr (.inr (.inr ⟨u, st, hf, h.symm⟩)))))
      · injection h with h; exact .inr (.inl h.symm)
      · injection h with h; exact .inr (.inr (.inl h.symm))

/-- A running word faults only where no agent acts. -/
theorem runWord_fault {s : State} {sh : Env → Shape} {f : State → Env → Eff} {x : Fault} (h : s.runWord sh f = .fault x) :
    s.env? s.turn = none := by
  unfold State.runWord at h
  split at h
  · assumption
  · simp only at h
    split at h <;> try simp at h
    split at h <;> try simp at h
    split at h <;> simp at h

/-- Where an agent acts, a running word always goes on to a next state: it completes, traps, faults, waits or expands. -/
theorem runWord_next {s : State} {sh : Env → Shape} {f : State → Env → Eff} {e : Env} (h : s.env? s.turn = some e) :
    ∃ t, s.runWord sh f = .next t := by
  unfold State.runWord
  rw [h]
  dsimp only
  split
  · exact ⟨_, rfl⟩
  · exact ⟨_, rfl⟩
  · exact ⟨_, rfl⟩
  · split <;> try exact ⟨_, rfl⟩
    split <;> exact ⟨_, rfl⟩

/-! ### What a word reads -/

/-- The group a word reads has the threads of the acting group, and keeps its place. -/
structure SameThreads (g h : Grp) : Prop where
  span : g.span = h.span
  lo : g.lo = h.lo
  hi : g.hi = h.hi
  units : g.units = h.units
  gid : g.gid = h.gid
  lanes : g.lanes = h.lanes
  stq : g.stq = h.stq
  held : g.held = h.held

theorem SameThreads.refl (g : Grp) : SameThreads g g := ⟨rfl, rfl, rfl, rfl, rfl, rfl, rfl, rfl⟩

theorem SameThreads.trans {g h k : Grp} (a : SameThreads g h) (b : SameThreads h k) : SameThreads g k :=
  ⟨a.span.trans b.span, a.lo.trans b.lo, a.hi.trans b.hi, a.units.trans b.units, a.gid.trans b.gid,
    a.lanes.trans b.lanes, a.stq.trans b.stq, a.held.trans b.held⟩

theorem SameThreads.positions {g h : Grp} (a : SameThreads g h) : g.positions = h.positions := by
  simp only [Grp.positions, Grp.live, a.span, a.lo, a.hi, a.units]

theorem SameThreads.foldl {α : Type} {f : Grp → α → Grp} (hf : ∀ g x, SameThreads (f g x) g) (l : List α) (g : Grp) :
    SameThreads (l.foldl f g) g := by
  induction l generalizing g with
  | nil => exact .refl g
  | cons x r ih => exact (ih (f g x)).trans (hf g x)

theorem setCell_same (g : Grp) (r : Nat) (c : RegCell) : SameThreads (g.setCell r c) g := ⟨rfl, rfl, rfl, rfl, rfl, rfl, rfl, rfl⟩

theorem unpair_same (g : Grp) (r : Nat) : SameThreads (g.unpair r) g := by
  unfold Grp.unpair
  simp only
  split
  · exact (setCell_same _ _ _).trans (setCell_same _ _ _)
  · split
    · exact (setCell_same _ _ _).trans (setCell_same _ _ _)
    · exact setCell_same _ _ _
  · exact setCell_same _ _ _
  · exact .refl g

theorem writeLanes_same (g : Grp) (r : Nat) (w : Bool) (m : W32) (vs : List W32) :
    SameThreads (g.writeLanes r w m vs) g := setCell_same _ _ _

theorem write_same (g : Grp) (u : ISet) (d : Nat) (r : Res) : SameThreads (g.write u d r) g := by
  unfold Grp.write
  cases r <;> simp only
  · split
    · exact (setCell_same _ _ _).trans (unpair_same _ _)
    · exact (writeLanes_same _ _ _ _ _).trans (unpair_same _ _)
  · split
    · exact (setCell_same _ _ _).trans (setCell_same _ _ _)
    · exact ((writeLanes_same _ _ _ _ _).trans (writeLanes_same _ _ _ _ _)).trans (unpair_same _ _)
  · exact (writeLanes_same _ _ _ _ _).trans (unpair_same _ _)
  · exact ((writeLanes_same _ _ _ _ _).trans (writeLanes_same _ _ _ _ _)).trans (unpair_same _ _)

theorem pwrite_same (g : Grp) (u : ISet) (p : Nat) (r : PRes) : SameThreads (g.pwrite u p r) g := by
  unfold Grp.pwrite
  split
  · exact .refl g
  · cases r <;> exact ⟨rfl, rfl, rfl, rfl, rfl, rfl, rfl, rfl⟩

theorem undef_same (g : Grp) (r : Nat) (m : W32) (n : Nat) : SameThreads (g.undef r m n) g := by
  unfold Grp.undef
  simp only
  split <;> exact (setCell_same _ _ _).trans (unpair_same _ _)

theorem pundef_same (g : Grp) (p : Nat) (m : W32) (n : Nat) : SameThreads (g.pundef p m n) g := by
  unfold Grp.pundef
  simp only
  split <;> exact ⟨rfl, rfl, rfl, rfl, rfl, rfl, rfl, rfl⟩

theorem release_same (g : Grp) (u : ISet) (r : Nat) : SameThreads (g.release u r) g := by
  unfold Grp.release
  split
  · exact setCell_same _ _ _
  · split
    · exact setCell_same _ _ _
    · exact (setCell_same _ _ _).trans (unpair_same _ _)

/-- The environment a word reads in: the acting group with the sources it releases released, and its view. -/
structure Reads (e e' : Env) : Prop where
  grp : SameThreads e'.grp e.grp
  view : SameThreads e'.view e.grp
  rest : e' = { e with grp := e'.grp, view := e'.view }

/-- The state a word reads from differs only in the free counter; its environment, in registers undefined or released. -/
theorem prepare_reads (s : State) (e : Env) (sh : Shape) :
    Reads e (s.prepare e sh).2 ∧ ∃ n, (s.prepare e sh).1 = { s with free := n } := by
  have hr : SameThreads (sh.rel.foldl (fun (g : Grp) r => g.release e.unit r) e.grp) e.grp :=
    SameThreads.foldl (fun _ _ => release_same _ _ _) _ _
  unfold State.prepare
  simp only
  split
  · exact ⟨⟨hr, .refl _, rfl⟩, s.free, rfl⟩
  · refine ⟨⟨hr, ?_, rfl⟩, s.free + 4096, rfl⟩
    unfold Env.undefView
    refine SameThreads.trans (SameThreads.foldl (fun g x => ?_) _ _)
      (SameThreads.trans (SameThreads.foldl (fun g x => ?_) _ _) (SameThreads.foldl (fun g x => ?_) _ _)) <;> dsimp only <;> split
    · exact .refl g
    · exact pundef_same _ _ _ _
    · exact .refl g
    · exact undef_same _ _ _ _
    · exact .refl g
    · exact undef_same _ _ _ _

end Sys2Proof.Machine
end

