-- ==== Sys2Proof/Laws/Words.lean ====
section
/-! SUPPORT. Results: what a form, a lane result and a form word give each acting thread, and that a closure answers with
the word's values (R165, R168). -/

namespace Sys2Proof.Machine

theorem widthOf_pos (w : Bool) : 0 < widthOf w := by cases w <;> decide

theorem toW64_congr {x y : Int} (h : x % 2 ^ 64 = y % 2 ^ 64) : wrap 64 x = wrap 64 y := wrap_eq_iff.mpr h

theorem int32_toW32_emod (x : Int) : int32 (toW32 x) % 2 ^ 32 = x % 2 ^ 32 := by
  rw [int32_emod, toNat_toW32, wrap_coe, Int.emod_emod_of_dvd _ (dvd_refl _)]

/-- A form result gives each position its exact sequence, wrapped (R19, R20). -/
theorem formRes_at {wide : Bool} {b s : Int} {r : Res} (h : formRes wide b s = some r) (p : Nat) :
    r.wide = wide ∧ r.at p = wrap (widthOf wide) (b + s * p) := by
  cases wide
  · simp only [formRes, Bool.false_eq_true, if_false, Option.some.injEq] at h
    subst h
    refine ⟨rfl, ?_⟩
    simp only [Res.at, formVal_toNat, toNat_toW32, widthOf, Bool.false_eq_true, if_false, wrap_eq_iff]
    rw [wrap_coe, Int.emod_add_emod, Int.add_emod, Int.mul_emod, int32_toW32_emod, ← Int.mul_emod, ← Int.add_emod]
  · simp only [formRes, if_true] at h
    split at h
    · next ht =>
      simp only [Option.some.injEq] at h
      subst h
      refine ⟨rfl, ?_⟩
      have h32 : int32 (toW32 (sext 64 (wrap 64 s))) = sext 64 (wrap 64 s) := by
        rw [int32, toNat_toW32]; exact sext_wrap (by norm_num) ht.1 ht.2
      simp only [Res.at, formVal64_toNat, toNat_toW64, widthOf, if_true, h32, wrap_eq_iff]
      rw [wrap_coe, Int.emod_add_emod, Int.add_emod, Int.mul_emod, sext_emod, wrap_coe,
        Int.emod_emod_of_dvd _ (dvd_refl _), ← Int.mul_emod, ← Int.add_emod]
    · simp at h

theorem lanesRes_at {wide : Bool} {f : Nat → Int} {p : Nat} (hp : p < 32) :
    (lanesRes wide f).wide = wide ∧ (lanesRes wide f).at p = wrap (widthOf wide) (f p) := by
  cases wide
  · refine ⟨rfl, ?_⟩
    show (nth ((upto 0 32).map fun l => toW32 (f l)) p 0).toNat = _
    rw [nth_map_upto0 (f := fun l => toW32 (f l)) hp, toNat_toW32]; rfl
  · refine ⟨rfl, ?_⟩
    show (nth ((upto 0 32).map fun l => toW64 (f l)) p 0).toNat = _
    rw [nth_map_upto0 (f := fun l => toW64 (f l)) hp, toNat_toW64]; rfl

theorem formRes_uniform (wide : Bool) (b : Int) : (formRes wide b 0).isSome := by cases wide <;> rfl

theorem Reads.solo {e e' : Env} (h : Reads e e') : e'.solo = e.solo := by rw [h.rest]; rfl

theorem Reads.unit {e e' : Env} (h : Reads e e') : e'.unit = e.unit := by rw [h.rest]

theorem Reads.members {e e' : Env} (h : Reads e e') : e'.members = e.members := by
  simp only [Env.members, Grp.members, h.solo, h.unit, h.grp.span, h.grp.lo, h.grp.hi]

/-- The acting threads as the word sees them: in range, and lanes where the group is a sheaf. -/
structure Acting (e : Env) : Prop where
  range : e.solo = false → ∀ p ∈ e.members, p ∈ e.view.positions
  lanes : e.laned → ∀ p ∈ e.members, p < 32
  solo : e.solo = true → e.members = [0]
  same : e.view.positions = e.range
  view : e.grp.span = true → e.view.span = true ∧ e.view.lo = e.grp.lo ∧ e.view.hi = e.grp.hi

theorem prepare_acting {s : State} {w : Who} {e : Env} (h : s.env? w = some e) (sh : Shape) : Acting (s.prepare e sh).2 := by
  obtain ⟨hr, -⟩ := prepare_reads s e sh
  have hs : (s.prepare e sh).2.solo = e.solo := hr.solo
  have hm : (s.prepare e sh).2.members = e.members := hr.members
  refine ⟨fun h0 p hp => ?_, fun hl p hp => ?_, fun h0 => ?_, hr.view.positions.trans hr.grp.positions.symm,
    fun h => ⟨(hr.view.span.trans hr.grp.span.symm).trans h, hr.view.lo.trans hr.grp.lo.symm, hr.view.hi.trans hr.grp.hi.symm⟩⟩
  · rw [hr.view.positions]; rw [hm] at hp; exact members_positions h (hs ▸ h0) hp
  · rw [hm] at hp
    refine members_lt ?_ hp
    rcases hl with hl | hl
    · left; rw [← hr.grp.span]; exact hl
    · right; rw [← hs]; exact hl
  · simp only [Env.members, h0, if_true]

/-- A closure answers with the word's values over the range. -/
def Closed (e : Env) (wide : Bool) (clo : Option Res) (f : Nat → Int) : Prop :=
  ∀ r, clo = some r → ∀ p ∈ e.view.positions, r.wide = wide ∧ r.at p = wrap (widthOf wide) (f p)

/-- A form word gives each acting thread its value (R165). -/
theorem formWord_at {e : Env} (ha : Acting e) {wide : Bool} {clo : Option Res} {f : Nat → Int}
    (hc : e.solo = false → Closed e wide clo f)
    {r : Res} (h : e.formWord wide clo f = some r) {p : Nat} (hp : p ∈ e.members) :
    r.wide = wide ∧ r.at p = wrap (widthOf wide) (f p) := by
  unfold Env.formWord at h
  split at h
  · next hs =>
    have := ha.solo hs
    rw [this, List.mem_singleton] at hp
    subst hp
    simpa using formRes_at h 0
  · next hs =>
    have hr := ha.range (by simpa using hs) p hp
    have hc := hc (by simpa using hs)
    split at h
    · exact hc r h p hr
    · next hsp =>
      have hl := ha.lanes (.inl (by simpa using hsp)) p hp
      split at h
      · simp only [Option.some.injEq] at h
        subst h
        cases hcl : clo with
        | some r => exact hc r hcl p hr
        | none => exact lanesRes_at hl
      · simp only [Option.some.injEq] at h
        subst h; exact lanesRes_at hl

/-- A form word has a result in a sheaf, on a control core, and in a span whose closure answers. -/
theorem formWord_isSome {e : Env} {wide : Bool} {clo : Option Res} {f : Nat → Int} (h : e.laned ∨ clo.isSome) :
    ∃ r, e.formWord wide clo f = some r := by
  unfold Env.formWord
  split
  · exact Option.isSome_iff_exists.mp (formRes_uniform wide (f 0))
  · next hs =>
    split
    · next hsp =>
      rcases h with (h | h) | h
      · exact absurd h (by simp [hsp])
      · exact absurd h (by simpa using hs)
      · exact Option.isSome_iff_exists.mp h
    · split <;> exact ⟨_, rfl⟩

/-- The lowest acting thread is one of the acting threads. -/
theorem least_mem {l : List Nat} (h : l ≠ []) (d : Nat) : least d l ∈ l := by
  cases l with
  | nil => exact absurd rfl h
  | cons x r =>
    show r.foldl Nat.min x ∈ x :: r
    clear h d
    induction r generalizing x with
    | nil => simp
    | cons y r ih =>
      rcases Nat.le_total x y with hxy | hxy
      · have := ih (Nat.min x y)
        rw [show Nat.min x y = x from Nat.min_eq_left hxy] at this
        rw [List.foldl_cons, show Nat.min x y = x from Nat.min_eq_left hxy]
        rcases List.mem_cons.mp this with h | h
        · exact List.mem_cons.mpr (.inl h)
        · exact List.mem_cons_of_mem _ (List.mem_cons_of_mem _ h)
      · have := ih (Nat.min x y)
        rw [show Nat.min x y = y from Nat.min_eq_right hxy] at this
        rw [List.foldl_cons, show Nat.min x y = y from Nat.min_eq_right hxy]
        exact List.mem_cons_of_mem _ this

theorem first_mem {e : Env} (h : e.members ≠ []) : e.first ∈ e.members := by
  unfold Env.members Env.first at *
  by_cases hs : e.solo = true
  · simp [hs]
  · simp only [hs, Bool.or_false, if_false, Grp.members, Bool.false_eq_true] at h ⊢
    split
    · next hsp =>
      rw [if_pos hsp] at h
      rw [mem_upto]
      cases hn : e.grp.hi - e.grp.lo with
      | zero => rw [hn] at h; simp [upto] at h
      | succ n => omega
    · next hsp =>
      rw [if_neg hsp] at h
      exact least_mem h 0

/-- A lane word gives each acting thread its value, where a uniform source set gives all of them one value (R33). -/
theorem laneWord_at {e : Env} (ha : Acting e) {wide uni : Bool} {f : Nat → Int}
    (hu : uni = true → ∀ p ∈ e.members, f p = f e.first) {r : Res} (h : e.laneWord wide uni f = some r) {p : Nat}
    (hp : p ∈ e.members) : r.wide = wide ∧ r.at p = wrap (widthOf wide) (f p) := by
  unfold Env.laneWord at h
  split at h
  · next hs =>
    have := ha.solo hs
    rw [this, List.mem_singleton] at hp
    subst hp
    simpa using formRes_at h 0
  · next hs =>
    split at h
    · next hu' =>
      rw [hu (by simp only [Bool.and_eq_true] at hu'; exact hu'.1) p hp]
      simpa using formRes_at h p
    · split at h
      · simp at h
      · next hsp =>
        simp only [Option.some.injEq] at h
        subst h; exact lanesRes_at (ha.lanes (.inl (by simpa using hsp)) p hp)

/-- A lane word has a result in a sheaf, on a control core, and in a span whose sources are uniform. -/
theorem laneWord_isSome {e : Env} {wide uni : Bool} {f : Nat → Int} (h : e.laned ∨ (uni = true ∧ e.grp.span = true)) :
    ∃ r, e.laneWord wide uni f = some r := by
  unfold Env.laneWord
  split
  · exact Option.isSome_iff_exists.mp (formRes_uniform wide (f 0))
  · next hs =>
    split
    · exact Option.isSome_iff_exists.mp (formRes_uniform wide _)
    · next hw =>
      split
      · next hsp =>
        rcases h with (h | h) | h
        · exact absurd h (by simp [hsp])
        · exact absurd h (by simpa using hs)
        · exact absurd (by simp [h.1, Env.whole, hsp]) hw
      · exact ⟨_, rfl⟩

/-- One value for every acting thread (R227). -/
theorem sameWord_at {e : Env} (ha : Acting e) {wide : Bool} {x : Int} {p : Nat} (hp : p ∈ e.members) :
    (e.sameWord wide x).wide = wide ∧ (e.sameWord wide x).at p = wrap (widthOf wide) x := by
  unfold Env.sameWord
  split
  · have h := formRes_at (wide := wide) (b := x) (s := 0) (r := if wide then .form64 (toW64 x) 0 else .form (toW32 x) 0)
      (by cases wide <;> rfl) p
    simpa using h
  · next hw =>
    simp only [Bool.or_eq_true, not_or] at hw
    have : e.grp.span = false := by
      rcases hb : e.grp.span
      · rfl
      · exact absurd (by simp [Env.whole, hb]) hw.1
    exact lanesRes_at (ha.lanes (.inl this) p hp)

/-! ### Sources -/

/-- A source that reads as a form holds its value at every position of the range (R46, R47). -/
theorem form_val {e : Env} {wide : Bool} {r p : Nat} {f : Nat × Int} (h : e.form wide r = some f)
    (hp : p ∈ e.view.positions) : e.val wide r p = wrap (widthOf wide) (f.1 + f.2 * p) := by
  cases wide
  · simp only [Env.form, Bool.false_eq_true, if_false, Option.map_eq_some_iff] at h
    obtain ⟨⟨b, s⟩, hf, rfl⟩ := h
    simp only [Env.val, Bool.false_eq_true, if_false, form32_val hf hp, formVal_toNat]; rfl
  · simp only [Env.form, if_true, Option.map_eq_some_iff] at h
    obtain ⟨⟨b, s⟩, hf, rfl⟩ := h
    simp only [Env.val, if_true, form64_val hf hp, formVal64_toNat]; rfl

theorem val_lt (e : Env) (wide : Bool) (r p : Nat) : e.val wide r p < 2 ^ widthOf wide := by
  cases wide <;> exact BitVec.isLt _

/-- Uniform halves hold one value at every position. -/
theorem uniformHalves_val {g : Grp} {r : Nat} (h : g.uniformHalves r = true) (p : Nat) :
    g.val r p = g.val r 0 ∧ g.val (r + 1) p = g.val (r + 1) 0 := by
  unfold Grp.uniformHalves at h
  split at h
  · next b s c t hb hc =>
    simp only [Bool.and_eq_true, beq_iff_eq] at h
    obtain ⟨rfl, rfl⟩ := h
    simp [Grp.val, hb, hc, formVal]
  · simp at h

/-- A uniform source holds one value for every thread of the range. -/
theorem uniform_val {e : Env} {wide : Bool} {r p q : Nat} (h : e.uniform wide r = true) (hp : p ∈ e.view.positions)
    (hq : q ∈ e.view.positions) : e.val wide r p = e.val wide r q := by
  unfold Env.uniform at h
  split at h
  · next f hf =>
    rw [form_val hf hp, form_val hf hq, eq_of_beq h]; simp
  · simp only [Bool.and_eq_true] at h
    have hv : ∀ p, e.val wide r p = (pair64 (e.view.val r 0) (e.view.val (r + 1) 0)).toNat := by
      intro p
      rw [Env.val, if_pos h.1]
      unfold Grp.val64
      have := uniformHalves_val h.2 p
      rw [this.1, this.2]
    rw [hv p, hv q]

/-! ### Closures (R168) -/

theorem pow_width_pos (w : Nat) : (0 : Int) < 2 ^ w := Int.pow_pos (by decide)

theorem wrap_emod (w : Nat) (x : Int) : ((wrap w x : Nat) : Int) % 2 ^ w = x % 2 ^ w := by
  rw [wrap_coe, Int.emod_emod_of_dvd _ (dvd_refl _)]

/-- The closure of a binary form word answers with its values. -/
def Op2.Sound (op : Op2) (e : Env) (w : Nat) : Prop :=
  ∀ a b r, op.clo e w a b = some r → a.1 < 2 ^ w → b.1 < 2 ^ w → ∀ p ∈ e.range,
    wrap w (op.val w (wrap w (a.1 + a.2 * p)) (wrap w (b.1 + b.2 * p))) = wrap w (r.1 + r.2 * p)

theorem opAdd_sound (e : Env) (w : Nat) : opAdd.Sound e w := by
  intro a b r h _ _ p _
  simp only [opAdd, Option.some.injEq] at h
  subst h
  simp only [opAdd, wrap_eq_iff]
  rw [Int.add_emod, wrap_emod, wrap_emod, ← Int.add_emod]
  ring_nf

theorem opSub_sound (e : Env) (w : Nat) : opSub.Sound e w := by
  intro a b r h _ _ p _
  simp only [opSub, Option.some.injEq] at h
  subst h
  simp only [opSub, wrap_eq_iff]
  rw [Int.sub_emod, wrap_emod, wrap_emod, ← Int.sub_emod]
  ring_nf

theorem opMul_sound (e : Env) (w : Nat) : opMul.Sound e w := by
  intro a b r h _ _ p _
  simp only [opMul] at h ⊢
  have hm : ((wrap w (a.1 + a.2 * p) : Int) * wrap w (b.1 + b.2 * p)) % 2 ^ w =
      ((a.1 + a.2 * p) * (b.1 + b.2 * p)) % 2 ^ w := by
    rw [Int.mul_emod, wrap_emod, wrap_emod, ← Int.mul_emod]
  split at h
  · next hb =>
    simp only [Option.some.injEq] at h; subst h
    rw [wrap_eq_iff, hm, hb]; ring_nf
  · split at h
    · next ha =>
      simp only [Option.some.injEq] at h; subst h
      rw [wrap_eq_iff, hm, ha]; ring_nf
    · simp at h

theorem opShl_sound (e : Env) (w : Nat) : opShl.Sound e w := by
  intro a b r h _ hb p _
  simp only [opShl] at h ⊢
  split at h
  · next hs =>
    simp only [Option.some.injEq] at h; subst h
    have hbv : wrap w ((b.1 : Int) + b.2 * p) = b.1 := by rw [hs]; simpa using wrap_of_lt hb
    rw [hbv, wrap_eq_iff, Int.mul_emod, wrap_emod, ← Int.mul_emod]
    ring_nf
  · simp at h

theorem opBits_sound (f : Nat → Nat → Nat) (e : Env) (w : Nat) : (opBits f).Sound e w := by
  intro a b r h ha hb p _
  simp only [opBits] at h ⊢
  split at h
  · next hs =>
    simp only [Option.some.injEq] at h; subst h
    have h1 : wrap w ((a.1 : Int) + a.2 * p) = a.1 := by rw [hs.1]; simpa using wrap_of_lt ha
    have h2 : wrap w ((b.1 : Int) + b.2 * p) = b.1 := by rw [hs.2]; simpa using wrap_of_lt hb
    rw [h1, h2]; simp
  · simp at h

theorem opNeg_sound (e : Env) (w : Nat) : opNeg.Sound e w := by
  intro a b r h _ _ p _
  simp only [opNeg, Option.some.injEq] at h
  subst h
  simp only [opNeg, wrap_eq_iff]
  rw [← Int.neg_one_mul, Int.mul_emod, wrap_emod, ← Int.mul_emod]
  ring_nf

/-- A form is read with its base in range. -/
theorem form_lt {e : Env} {wide : Bool} {r : Nat} {f : Nat × Int} (h : e.form wide r = some f) : f.1 < 2 ^ widthOf wide := by
  cases wide
  · simp only [Env.form, Bool.false_eq_true, if_false, Option.map_eq_some_iff] at h
    obtain ⟨x, -, rfl⟩ := h; exact x.1.isLt
  · simp only [Env.form, if_true, Option.map_eq_some_iff] at h
    obtain ⟨x, -, rfl⟩ := h; exact x.1.isLt

/-- A form word whose closure is sound, run: the statement of FormWord from its two halves. -/
theorem formWord_run {i : Instr} {sh : Shape} {d : RegN} {wide : Bool} {v : Env → Nat → Int} {c : Env → Option (Int × Int)}
    (hi : ∀ s, exec i s = s.runWord (fun _ => sh) fun s e => e.put s d.toNat (e.formWord wide ((c e).bind fun f => formRes wide f.1 f.2) (v e)))
    (hc : ∀ e f, Acting e → e.solo = false → c e = some f → ∀ p ∈ e.view.positions,
      wrap (widthOf wide) (v e p) = wrap (widthOf wide) (f.1 + f.2 * p)) : FormWord i sh d wide v c := by
  intro s e he
  have ha := prepare_acting he.acts sh
  have hr := (prepare_reads s e sh).1
  have hcl : (s.prepare e sh).2.solo = false →
      Closed (s.prepare e sh).2 wide ((c (s.prepare e sh).2).bind fun f => formRes wide f.1 f.2) (v (s.prepare e sh).2) := by
    intro hs r h p hp
    obtain ⟨f, hf, h⟩ := Option.bind_eq_some_iff.mp h
    obtain ⟨h1, h2⟩ := formRes_at h p
    exact ⟨h1, h2.trans (hc _ f ha hs hf p hp).symm⟩
  refine ⟨fun hok => ?_, fun hl hn => ?_⟩
  · obtain ⟨r, h⟩ := formWord_isSome (f := v (s.prepare e sh).2) hok
    by_cases hm : e.members = []
    · refine ⟨r, ?_, by simp [hm], ?_, ?_⟩
      · unfold Env.formWord at h
        split at h
        · exact (formRes_at h 0).1
        · split at h
          · obtain ⟨f, -, h⟩ := Option.bind_eq_some_iff.mp h
            exact (formRes_at h 0).1
          · split at h
            · simp only [Option.some.injEq] at h
              subst h
              cases hq : (c (s.prepare e sh).2).bind fun f => formRes wide f.1 f.2 with
              | none => exact (lanesRes_at (f := v (s.prepare e sh).2) (p := 0) (by decide)).1
              | some q =>
                obtain ⟨f, -, hq⟩ := Option.bind_eq_some_iff.mp hq
                exact (formRes_at hq 0).1
            · simp only [Option.some.injEq] at h
              subst h
              exact (lanesRes_at (f := v (s.prepare e sh).2) (p := 0) (by decide)).1
      · intro hs hw q hq
        rw [← hr.solo] at hs
        unfold Env.formWord at h
        rw [hs, hw, hq] at h
        simp only [Bool.false_eq_true, if_false] at h
        split at h <;> simpa using h.symm
      · rw [hi, runWord_done he (t := (s.prepare e sh).1) (e' := (s.prepare e sh).2.write d.toNat r)]
        simp only [h, Env.put]
    · refine ⟨r, ?_, fun p hp => ?_, ?_, ?_⟩
      · obtain ⟨x, hx⟩ := List.exists_mem_of_ne_nil _ hm
        exact (formWord_at ha hcl h (by rw [hr.members]; exact hx)).1
      · exact (formWord_at ha hcl h (by rw [hr.members]; exact hp)).2
      · intro hs hw q hq
        rw [← hr.solo] at hs
        unfold Env.formWord at h
        rw [hs, hw, hq] at h
        simp only [Bool.false_eq_true, if_false] at h
        split at h <;> simpa using h.symm
      · rw [hi, runWord_done he (t := (s.prepare e sh).1) (e' := (s.prepare e sh).2.write d.toNat r)]
        simp only [h, Env.put]
  · rw [hi]
    simp only [State.runWord, he.acts, he.clear]
    have hsp : (s.prepare e sh).2.grp.span = true := by
      by_contra h; exact hl (.inl (by simpa using h))
    have hso : (s.prepare e sh).2.solo = false := by
      by_contra h; exact hl (.inr (by simpa using h))
    simp only [Env.formWord, hso, hsp, hn, Env.put, Bool.false_eq_true, if_false, if_true]

/-! ### Readings that do not wrap (R25, R165) -/

theorem upto_sorted (lo n : Nat) : (upto lo n).Pairwise (· < ·) := by
  induction n generalizing lo with
  | zero => simp [upto]
  | succ n ih =>
    simp only [upto, List.pairwise_cons]
    exact ⟨fun x hx => by rw [mem_upto] at hx; omega, ih _⟩

theorem positions_sorted (g : Grp) : g.positions.Pairwise (· < ·) := by
  unfold Grp.positions
  split
  · exact upto_sorted _ _
  · exact (upto_sorted _ _).filter _

theorem le_foldl_max (l : List Nat) (m : Nat) : m ≤ l.foldl Nat.max m ∧ ∀ x ∈ l, x ≤ l.foldl Nat.max m := by
  induction l generalizing m with
  | nil => simp
  | cons y r ih =>
    obtain ⟨h1, h2⟩ := ih (Nat.max m y)
    have hm : m ≤ Nat.max m y := Nat.le_max_left m y
    have hy : y ≤ Nat.max m y := Nat.le_max_right m y
    refine ⟨hm.trans h1, fun x hx => ?_⟩
    rcases List.mem_cons.mp hx with rfl | hx
    · exact hy.trans h1
    · exact h2 x hx

theorem baseAs_emod (signed : Bool) (w v : Nat) : baseAs signed w v % 2 ^ w = (v : Int) % 2 ^ w := by
  cases signed
  · rfl
  · exact sext_emod w v

theorem baseAs_wrap {signed : Bool} {w : Nat} (hw : 0 < w) {x : Int} (h1 : loRange signed w ≤ x) (h2 : x < hiRange signed w) :
    baseAs signed w (wrap w x) = x := by
  cases signed
  · simp only [baseAs, loRange, hiRange, Bool.false_eq_true, if_false] at *
    rw [wrap_coe, Int.emod_eq_of_lt h1 h2]
  · simp only [baseAs, loRange, hiRange, if_true] at *
    exact sext_wrap hw h1 h2

/-- A form that does not wrap reads as its exact sequence at every position of the range. -/
theorem noWrap_at {e : Env} {signed : Bool} {w : Nat} (hw : 0 < w) {f : Nat × Int} (h : e.noWrap signed w f = true)
    {p : Nat} (hp : p ∈ e.range) :
    baseAs signed w (wrap w (f.1 + f.2 * p)) = baseAs signed w f.1 + f.2 * p := by
  have hcong : wrap w ((f.1 : Int) + f.2 * p) = wrap w (baseAs signed w f.1 + f.2 * p) := by
    rw [wrap_eq_iff, Int.add_emod, ← baseAs_emod signed, ← Int.add_emod]
  rw [hcong]
  unfold Env.noWrap at h
  have hsort := positions_sorted e.grp
  simp only [Env.range] at h hp
  cases hl : e.grp.positions with
  | nil => rw [hl] at hp; simp at hp
  | cons a r =>
    rw [hl] at h hp hsort
    simp only [Bool.and_eq_true, decide_eq_true_eq] at h
    obtain ⟨⟨a1, a2⟩, b1, b2⟩ := h
    have hap : a ≤ p := by
      rcases List.mem_cons.mp hp with rfl | hp
      · exact Nat.le_refl _
      · exact Nat.le_of_lt (List.rel_of_pairwise_cons hsort hp)
    have hpq : p ≤ r.foldl Nat.max a := by
      rcases List.mem_cons.mp hp with rfl | hp
      · exact (le_foldl_max r p).1
      · exact (le_foldl_max r a).2 p hp
    have hap' : (a : Int) ≤ p := by exact_mod_cast hap
    have hpq' : (p : Int) ≤ (r.foldl Nat.max a : Nat) := by exact_mod_cast hpq
    generalize ((r.foldl Nat.max a : Nat) : Int) = q at *
    rcases le_total 0 f.2 with hs | hs
    · have := mul_le_mul_of_nonneg_left hap' hs
      have := mul_le_mul_of_nonneg_left hpq' hs
      exact baseAs_wrap hw (by omega) (by omega)
    · have := mul_le_mul_of_nonpos_left hap' hs
      have := mul_le_mul_of_nonpos_left hpq' hs
      exact baseAs_wrap hw (by omega) (by omega)

/-- A trivial comparison gives every position of the range one truth (R25, R168). -/
theorem trivial_at {e : Env} {c : Cond} {signed : Bool} {w : Nat} (hw : 0 < w) {x y : Nat × Int} {t : Bool}
    (h : e.trivial c signed w x y = some t) {p : Nat} (hp : p ∈ e.range) :
    condHolds c (baseAs signed w (wrap w (x.1 + x.2 * p))) (baseAs signed w (wrap w (y.1 + y.2 * p))) = t := by
  unfold Env.trivial at h
  split at h
  · next hn =>
    simp only [Bool.and_eq_true] at hn
    rw [noWrap_at hw hn.1 hp, noWrap_at hw hn.2 hp]
    simp only at h
    split at h
    · next ht => simp only [Option.some.injEq] at h; subst h; exact List.all_eq_true.mp ht p hp
    · split at h
      · next ht =>
        simp only [Option.some.injEq] at h; subst h
        have := List.all_eq_true.mp ht p hp
        simpa using this
      · simp at h
  · simp at h

theorem opPick_sound (c : Cond) (signed : Bool) (e : Env) {w : Nat} (hw : 0 < w) : (opPick c signed).Sound e w := by
  intro a b r h _ _ p hp
  simp only [opPick, Option.map_eq_some_iff] at h
  obtain ⟨t, ht, rfl⟩ := h
  have := trivial_at hw ht hp
  simp only [opPick, this]
  cases t <;> simp [wrap_eq_iff, wrap_emod]

theorem opAbs_sound (e : Env) {w : Nat} (hw : 0 < w) : opAbs.Sound e w := by
  intro a b r h _ _ p hp
  simp only [opAbs, Option.map_eq_some_iff] at h
  obtain ⟨t, ht, rfl⟩ := h
  have := trivial_at hw ht hp
  have hz : wrap w ((((0, 0) : Nat × Int).1 : Int) + ((0, 0) : Nat × Int).2 * p) = 0 := by simp [wrap]
  rw [hz] at this
  have hz2 : baseAs true w 0 = 0 := by simp [baseAs, sext, bit]
  rw [hz2] at this
  simp only [condHolds, baseAs, if_true] at this
  have hv := sext_emod w (wrap w ((a.1 : Int) + a.2 * p))
  rw [wrap_emod] at hv
  simp only [opAbs, wrap_eq_iff]
  generalize sext w (wrap w ((a.1 : Int) + a.2 * p)) = x at *
  cases t
  · have hx : x < 0 := by simpa using this
    have : ((x.natAbs : Nat) : Int) = -x := by omega
    rw [this, ← Int.neg_one_mul, Int.mul_emod, hv, ← Int.mul_emod]
    simp only [Bool.false_eq_true, if_false]
    ring_nf
  · have hx : 0 ≤ x := by simpa using this
    have : ((x.natAbs : Nat) : Int) = x := by omega
    rw [this, hv]; simp

theorem shift_exact {k : Nat} {b s : Int} (hs : s % (2 ^ k : Nat) = 0) (p : Nat) :
    (b + s * p) / (2 ^ k : Nat) = b / (2 ^ k : Nat) + s / (2 ^ k : Nat) * p := by
  obtain ⟨q, rfl⟩ := Int.dvd_of_emod_eq_zero hs
  have hk : ((2 ^ k : Nat) : Int) ≠ 0 := by positivity
  rw [Int.mul_ediv_cancel_left _ hk, mul_assoc, Int.add_mul_ediv_left _ _ hk]

theorem opShr_sound (e : Env) {w : Nat} (hw : 0 < w) : opShr.Sound e w := by
  intro a b r h ha hb p hp
  simp only [opShr] at h ⊢
  split at h
  · next hs =>
    obtain ⟨hbs, hs⟩ := hs
    have hbv : wrap w ((b.1 : Int) + b.2 * p) = b.1 := by rw [hbs]; simpa using wrap_of_lt hb
    simp only [Option.some.injEq] at h; subst h
    rw [hbv]
    rcases hs with hs | ⟨hs, hn⟩
    · have : wrap w ((a.1 : Int) + a.2 * p) = a.1 := by rw [hs]; simpa using wrap_of_lt ha
      rw [this, hs]; simp
    · have hx := noWrap_at hw hn hp
      simp only [baseAs, Bool.false_eq_true, if_false] at hx
      push_cast
      rw [hx]
      congr 1
      have := shift_exact (b := (a.1 : Int)) (s := a.2) (k := shiftCount w b.1) hs p
      push_cast at this
      exact this
  · simp at h

theorem opSar_sound (e : Env) {w : Nat} (hw : 0 < w) : opSar.Sound e w := by
  intro a b r h ha hb p hp
  simp only [opSar] at h ⊢
  split at h
  · next hs =>
    obtain ⟨hbs, hs⟩ := hs
    have hbv : wrap w ((b.1 : Int) + b.2 * p) = b.1 := by rw [hbs]; simpa using wrap_of_lt hb
    simp only [Option.some.injEq] at h; subst h
    rw [hbv]
    rcases hs with hs | ⟨hs, hn⟩
    · have : wrap w ((a.1 : Int) + a.2 * p) = a.1 := by rw [hs]; simpa using wrap_of_lt ha
      rw [this, hs]; simp
    · have hx := noWrap_at hw hn hp
      simp only [baseAs, if_true] at hx
      rw [hx]
      congr 1
      have := shift_exact (b := sext w a.1) (s := a.2) (k := shiftCount w b.1) hs p
      push_cast at this ⊢
      exact this
  · simp at h

/-! ### The two shared forms of form words -/

/-- An FR word of two sources, said once (R165, R168). -/
theorem fr2_run {i : Instr} {op : Op2} {d a b : RegN} {ka kb wide bw : Bool}
    (hi : ∀ s, exec i s = s.fr2 op d.toNat a.toNat b.toNat ka kb wide bw)
    (hs : ∀ e, op.Sound e (widthOf wide)) (hb : wide = true ∧ bw = false → ∀ e w x y f, op.clo e w x y = some f → y.2 = 0) :
    FormWord i (frShape d.toNat wide a.toNat wide (some (b.toNat, wide && bw)) ka kb) d wide
      (fun e p => op.val (widthOf wide) (e.val wide a.toNat p) (e.val (wide && bw) b.toNat p))
      (fun e => e.binary wide a (wide && bw) b fun x y => op.clo e (widthOf wide) x y) := by
  apply formWord_run
  · intro s
    rw [hi]
    unfold State.fr2 Env.op2 Env.binary
    congr 1; funext s e; congr 2
    cases e.form wide a.toNat <;> simp
    cases e.form (wide && bw) b.toNat <;> simp
  · intro e f ha _ hf p hp
    have hrange := ha.same
    simp only [Env.binary, Option.bind_eq_some_iff] at hf
    obtain ⟨x, hx, y, hy, hf⟩ := hf
    rw [hrange] at hp
    have hpv : p ∈ e.view.positions := hrange ▸ hp
    rw [form_val hx hpv, form_val hy hpv]
    have hxl := form_lt hx
    have hyl := form_lt hy
    have hyl' : y.1 < 2 ^ widthOf wide := by
      refine Nat.lt_of_lt_of_le hyl ?_
      cases wide <;> cases bw <;> decide
    have := hs e x y f hf hxl hyl' p hp
    rw [← this]
    by_cases hw : wide = true ∧ bw = false
    · have hy0 := hb hw _ _ _ _ _ hf
      simp only [hy0, zero_mul, add_zero]
      rw [wrap_of_lt hyl, wrap_of_lt hyl']
    · have : (wide && bw) = wide := by cases wide <;> cases bw <;> simp_all
      rw [this]

/-- An FR or FI word of one source and a constant, said once (R165, R168, R171). -/
theorem fr1_run {i : Instr} {op : Op2} {sh : Shape} {d a : RegN} {wide : Bool} {k : Nat} (hk : k < 2 ^ widthOf wide)
    (hi : ∀ s, exec i s = s.runWord (fun _ => sh) fun s e =>
      e.put s d.toNat (e.op2 op wide (e.form wide a.toNat) (some (k, 0)) (e.val wide a.toNat) fun _ => k))
    (hs : ∀ e, op.Sound e (widthOf wide)) :
    FormWord i sh d wide (fun e p => op.val (widthOf wide) (e.val wide a.toNat p) k)
      (fun e => e.unary wide a fun x => op.clo e (widthOf wide) x (k, 0)) := by
  apply formWord_run
  · intro s
    rw [hi]
    unfold Env.op2 Env.unary
    congr 1; funext s e; congr 2
    cases e.form wide a.toNat <;> simp
  · intro e f ha _ hf p hp
    have hrange := ha.same
    simp only [Env.unary, Option.bind_eq_some_iff] at hf
    obtain ⟨x, hx, hf⟩ := hf
    have hpv := hp
    rw [hrange] at hp
    rw [form_val hx hpv]
    have := hs e x (k, 0) f hf (form_lt hx) hk p hp
    simp only [zero_mul, add_zero, wrap_of_lt hk] at this
    exact this

/-! ### Lane words -/

/-- The members of an issue set, and one more: the lowest. -/
theorem acting_first {e : Env} (ha : Acting e) (hs : e.solo = false) {p : Nat} (hp : p ∈ e.members) :
    e.first ∈ e.view.positions ∧ p ∈ e.view.positions :=
  ⟨ha.range hs _ (first_mem (by intro h; rw [h] at hp; simp at hp)), ha.range hs p hp⟩

theorem sameFp_at {e : Env} (_hs : e.solo = false) (h : e.sameFp = true) {p : Nat} (hp : p ∈ e.members) :
    (e.grp.lane p).fpctl = (e.grp.lane e.first).fpctl := by
  rcases hsp : e.grp.span
  · have hf := first_mem (show e.members ≠ [] by intro h; rw [h] at hp; simp at hp)
    unfold Env.sameFp at h
    cases hm : e.members with
    | nil => rw [hm] at hp; simp at hp
    | cons x r =>
      rw [hm] at h hp hf
      simp only [hsp, Bool.false_or, List.all_eq_true, beq_iff_eq] at h
      have key : ∀ q ∈ x :: r, (e.grp.lane q).fpctl = (e.grp.lane x).fpctl := by
        intro q hq
        rcases List.mem_cons.mp hq with rfl | hq
        · rfl
        · exact h q hq
      rw [key p hp, key _ hf]
  · simp only [Grp.lane, hsp, if_true]
    cases e.grp.lanes.find? fun x => x.lane == 0 <;> rfl

theorem laneWord_wide {e : Env} {wide uni : Bool} {f : Nat → Int} {r : Res} (h : e.laneWord wide uni f = some r) :
    r.wide = wide := by
  unfold Env.laneWord at h
  split at h
  · exact (formRes_at h 0).1
  · split at h
    · exact (formRes_at h 0).1
    · split at h
      · simp at h
      · simp only [Option.some.injEq] at h
        subst h
        exact (lanesRes_at (f := f) (p := 0) (by decide)).1

/-- A lane register word, said once (R33, R162, R198). -/
theorem lane_run {i : Instr} {op : LaneOp} {d : RegN} {srcs : List (Nat × Bool)} {rel : List Nat} {st : BitVec 2}
    {f : Env → BitVec 3 → List Nat → Nat} (hi : ∀ s, exec i s = s.lane op d.toNat srcs rel st f)
    (hfp : op.fp = false → ∀ e c c' l, f e c l = f e c' l) :
    LaneWord i
      { dsts := regsOf op.dw d.toNat, srcs := srcs.flatMap fun x => regsOf x.2 x.1
        rel := rel, lat := some op.lat, gap := gapOf st (some op.lat) } d op.dw
      (fun e => srcs.all (fun x => e.uniform x.2 x.1) && (!op.fp || e.sameFp))
      (fun e p => (f e (e.grp.lane p).fpctl (srcs.map fun x => e.val x.2 x.1 p) : Nat)) := by
  intro s e he
  have ha := prepare_acting he.acts
    { dsts := regsOf op.dw d.toNat, srcs := srcs.flatMap fun x => regsOf x.2 x.1
      rel := rel, lat := some op.lat, gap := gapOf st (some op.lat) }
  obtain ⟨hr, -⟩ := prepare_reads s e
    { dsts := regsOf op.dw d.toNat, srcs := srcs.flatMap fun x => regsOf x.2 x.1
      rel := rel, lat := some op.lat, gap := gapOf st (some op.lat) }
  have hrun := fun t e' => runWord_done (f := fun s e =>
      e.put s d.toNat (e.laneWord op.dw (srcs.all (fun x => e.uniform x.2 x.1) && (!op.fp || e.sameFp)) fun p =>
        (f e (e.grp.lane p).fpctl (srcs.map fun x => e.val x.2 x.1 p) : Nat)))
    (sh := fun _ => { dsts := regsOf op.dw d.toNat, srcs := srcs.flatMap fun x => regsOf x.2 x.1
                      rel := rel, lat := some op.lat, gap := gapOf st (some op.lat) }) he (t := t) (e' := e')
  generalize hsh : ({ dsts := regsOf op.dw d.toNat, srcs := srcs.flatMap fun x => regsOf x.2 x.1
                      rel := rel, lat := some op.lat, gap := gapOf st (some op.lat) } : Shape) = sh at *
  have hexp := runWord_expand (f := fun s e =>
      e.put s d.toNat (e.laneWord op.dw (srcs.all (fun x => e.uniform x.2 x.1) && (!op.fp || e.sameFp)) fun p =>
        (f e (e.grp.lane p).fpctl (srcs.map fun x => e.val x.2 x.1 p) : Nat)))
    (sh := fun _ => sh) he.acts he.clear
  have hi' : ∀ s, exec i s = s.runWord (fun _ => sh) fun s e =>
      e.put s d.toNat (e.laneWord op.dw (srcs.all (fun x => e.uniform x.2 x.1) && (!op.fp || e.sameFp)) fun p =>
        (f e (e.grp.lane p).fpctl (srcs.map fun x => e.val x.2 x.1 p) : Nat)) := by
    intro s; rw [hi, ← hsh]; rfl
  generalize (s.prepare e sh).2 = x at *
  refine ⟨fun hok => ?_, fun hl hn => ?_⟩
  · have hsome : ∃ r, x.laneWord op.dw (srcs.all (fun y => x.uniform y.2 y.1) && (!op.fp || x.sameFp)) (fun p =>
        (f x (x.grp.lane p).fpctl (srcs.map fun y => x.val y.2 y.1 p) : Nat)) = some r := by
      apply laneWord_isSome
      by_cases hlan : x.laned
      · exact .inl hlan
      · refine .inr ⟨hok.resolve_left hlan, ?_⟩
        by_contra h; exact hlan (.inl (by simpa using h))
    obtain ⟨r, h⟩ := hsome
    refine ⟨r, laneWord_wide h, fun p hp => ?_, ?_⟩
    · rw [← hr.members] at hp
      by_cases hs : x.solo = true
      · have hm := ha.solo hs
        rw [hm, List.mem_singleton] at hp
        subst hp
        unfold Env.laneWord at h
        rw [if_pos hs] at h
        simpa using (formRes_at h 0).2
      · refine (laneWord_at ha ?_ h hp).2
        intro hu q hq
        simp only [Bool.and_eq_true, List.all_eq_true, Bool.or_eq_true, Bool.not_eq_true'] at hu
        have hs : x.solo = false := by simpa using hs
        obtain ⟨hf, hq'⟩ := acting_first ha hs hq
        have hv : (srcs.map fun y => x.val y.2 y.1 q) = srcs.map fun y => x.val y.2 y.1 x.first :=
          List.map_congr_left fun y hy => uniform_val (hu.1 y hy) hq' hf
        rw [hv]
        rcases hu.2 with h0 | h0
        · rw [hfp h0 x _ (x.grp.lane x.first).fpctl]
        · rw [sameFp_at hs h0 hq]
    · rw [hi', hrun (s.prepare e sh).1 (x.write d.toNat r)]
      simp only [h, Env.put]
  · rw [hi']
    have hsp : x.grp.span = true := by
      by_contra h; exact hl (.inl (by simpa using h))
    have hso : x.solo = false := by
      by_contra h; exact hl (.inr (by simpa using h))
    apply hexp
    simp only [Env.laneWord, hso, hsp, hn, Bool.false_and, Env.put, Bool.false_eq_true, if_false, if_true]

end Sys2Proof.Machine
end

