-- ==== Sys2Proof/Laws/Preds.lean ====
section
/-! SUPPORT. Predicates: cuts over a range, SpanCompare and combinations answer with the words' truths (R24 to R26, R173,
R174). -/

namespace Sys2Proof.Machine

/-! ### Sorting and removing repeats -/

theorem mem_insKey {α : Type} {key : α → Nat} {x y : α} {l : List α} : y ∈ insKey key x l ↔ y = x ∨ y ∈ l := by
  induction l with
  | nil => simp [insKey]
  | cons z r ih =>
    unfold insKey
    split
    · simp
    · simp only [List.mem_cons, ih]; tauto

theorem insKey_sorted {α : Type} {key : α → Nat} {x : α} {l : List α} (h : l.Pairwise fun a b => key a ≤ key b) :
    (insKey key x l).Pairwise fun a b => key a ≤ key b := by
  induction l with
  | nil => simp [insKey]
  | cons z r ih =>
    unfold insKey
    rw [List.pairwise_cons] at h
    split
    · next hlt =>
      rw [List.pairwise_cons]
      refine ⟨fun y hy => ?_, List.pairwise_cons.mpr h⟩
      rcases List.mem_cons.mp hy with rfl | hy
      · omega
      · have := h.1 y hy; omega
    · next hle =>
      rw [List.pairwise_cons]
      refine ⟨fun y hy => ?_, ih h.2⟩
      rcases mem_insKey.mp hy with rfl | hy
      · omega
      · exact h.1 y hy

theorem foldl_insKey {α : Type} {key : α → Nat} (l acc : List α) (h : acc.Pairwise fun a b => key a ≤ key b) :
    (l.foldl (fun acc x => insKey key x acc) acc).Pairwise (fun a b => key a ≤ key b) ∧
      ∀ y, y ∈ l.foldl (fun acc x => insKey key x acc) acc ↔ y ∈ l ∨ y ∈ acc := by
  induction l generalizing acc with
  | nil => exact ⟨h, fun y => by simp⟩
  | cons x r ih =>
    obtain ⟨h1, h2⟩ := ih (insKey key x acc) (insKey_sorted h)
    refine ⟨h1, fun y => ?_⟩
    rw [List.foldl_cons, h2, mem_insKey, List.mem_cons]; tauto

/-- Sorting keeps the elements and puts them in order. -/
theorem sortKey_spec {α : Type} (key : α → Nat) (l : List α) :
    (sortKey key l).Pairwise (fun a b => key a ≤ key b) ∧ ∀ y, y ∈ sortKey key l ↔ y ∈ l := by
  obtain ⟨h1, h2⟩ := foldl_insKey (key := key) l [] List.Pairwise.nil
  exact ⟨h1, fun y => by rw [sortKey, h2]; simp⟩

theorem foldl_dedup (l acc : List Nat) (hs : (acc.reverse ++ l).Pairwise (· ≤ ·)) (hd : acc.reverse.Pairwise (· < ·)) :
    ((l.foldl (fun acc x => if acc.any (· == x) then acc else x :: acc) acc).reverse).Pairwise (· < ·) ∧
      ∀ y, y ∈ (l.foldl (fun acc x => if acc.any (· == x) then acc else x :: acc) acc).reverse ↔ y ∈ l ∨ y ∈ acc := by
  induction l generalizing acc with
  | nil => exact ⟨hd, fun y => by simp⟩
  | cons x r ih =>
    simp only [List.foldl_cons]
    by_cases hx : acc.any (· == x) = true
    · rw [if_pos hx]
      have hx' : x ∈ acc := by simpa using hx
      have hs' : (acc.reverse ++ r).Pairwise (· ≤ ·) := by
        refine hs.sublist ?_
        exact List.Sublist.append_left (List.sublist_cons_self x r) _
      obtain ⟨h1, h2⟩ := ih acc hs' hd
      refine ⟨h1, fun y => ?_⟩
      rw [h2, List.mem_cons]
      constructor
      · rintro (h | h)
        · exact .inl (.inr h)
        · exact .inr h
      · rintro ((rfl | h) | h)
        · exact .inr hx'
        · exact .inl h
        · exact .inr h
    · rw [if_neg hx]
      have hx' : x ∉ acc := by simpa using hx
      have hs' : ((x :: acc).reverse ++ r).Pairwise (· ≤ ·) := by simpa using hs
      have hd' : ((x :: acc).reverse).Pairwise (· < ·) := by
        rw [List.reverse_cons, List.pairwise_append]
        refine ⟨hd, List.pairwise_singleton _ _, fun y hy z hz => ?_⟩
        rw [List.mem_singleton] at hz; subst hz
        have := (List.pairwise_append.mp hs).2.2 y hy z (by simp)
        have hne : y ≠ z := by rintro rfl; exact hx' (by simpa using hy)
        omega
      obtain ⟨h1, h2⟩ := ih (x :: acc) hs' hd'
      refine ⟨h1, fun y => ?_⟩
      rw [h2, List.mem_cons, List.mem_cons]; tauto

/-- Repeats removed from a sorted list of numbers. -/
theorem dedup_spec {l : List Nat} (hs : l.Pairwise (· ≤ ·)) :
    (dedup l).Pairwise (· < ·) ∧ ∀ y, y ∈ dedup l ↔ y ∈ l := by
  obtain ⟨h1, h2⟩ := foldl_dedup l [] (by simpa using hs) (by simp)
  exact ⟨h1, fun y => by rw [dedup, h2]; simp⟩

/-! ### Cuts of a test -/

/-- Among ascending numbers that hold lo, the greatest that is not above i; the test does not change from it to i. -/
theorem last_start {L : List Nat} {p : Nat → Bool} {lo hi : Nat} (hlo : lo ∈ L)
    (hstep : ∀ i, lo ≤ i → i + 1 < hi → p i ≠ p (i + 1) → i + 1 ∈ L) {i : Nat} (h1 : lo ≤ i) (h2 : i < hi) :
    ∃ t ∈ L, lo ≤ t ∧ t ≤ i ∧ p t = p i ∧ ∀ u ∈ L, u ≤ i → u ≤ t := by
  induction i with
  | zero =>
    obtain rfl : lo = 0 := by omega
    exact ⟨0, hlo, by omega, by omega, rfl, fun u _ h => h⟩
  | succ i ih =>
    by_cases hm : i + 1 ∈ L
    · exact ⟨i + 1, hm, by omega, by omega, rfl, fun u _ h => h⟩
    · by_cases he : lo = i + 1
      · exact absurd (he ▸ hlo) hm
      · obtain ⟨t, ht, hl, hti, hp, hmax⟩ := ih (by omega) (by omega)
        refine ⟨t, ht, hl, by omega, ?_, fun u hu hle => ?_⟩
        · rw [hp]
          by_contra hne
          exact hm (hstep i (by omega) h2 hne)
        · exact hmax u hu (by rcases Nat.lt_or_ge u (i + 1) with h | h; · omega
                              · obtain rfl : u = i + 1 := by omega
                                exact absurd hu hm)

/-- The cut a test forms over a range agrees with it everywhere, when it changes only at the given thresholds (R25, R26). -/
theorem cutOf_at {lo hi : Nat} {ts : List Nat} {p : Nat → Bool} {c : Cut} (h : cutOf lo hi ts p = some c)
    (hstep : ∀ i, lo ≤ i → i + 1 < hi → p i ≠ p (i + 1) → i + 1 ∈ ts) {i : Nat} (h1 : lo ≤ i) (h2 : i < hi) :
    c.at i = p i := by
  unfold cutOf at h
  obtain ⟨hsort, hmem⟩ := sortKey_spec id (lo :: ts.filter fun t => decide (lo < t) && decide (t < hi))
  obtain ⟨hs, hm⟩ := dedup_spec (l := sortKey id (lo :: ts.filter fun t => decide (lo < t) && decide (t < hi))) hsort
  simp only at h
  have hL : ∀ y, y ∈ dedup (sortKey id (lo :: ts.filter fun t => decide (lo < t) && decide (t < hi))) ↔
      y = lo ∨ (y ∈ ts ∧ lo < y ∧ y < hi) := by
    intro y; rw [hm, hmem]; simp
  generalize dedup (sortKey id (lo :: ts.filter fun t => decide (lo < t) && decide (t < hi))) = L at *
  obtain ⟨t, ht, hlt, hti, hp, hmax⟩ := last_start (L := L) (p := p) ((hL lo).mpr (.inl rfl))
    (fun j hj1 hj2 hne => (hL _).mpr (.inr ⟨hstep j hj1 hj2 hne, by omega, hj2⟩)) h1 h2
  rw [← hp]
  cases L with
  | nil => simp at ht
  | cons t0 rest =>
    simp only [List.map_cons] at h
    have hsplit := List.takeWhile_append_dropWhile (p := fun x : Nat × Bool => x.2 == p t0)
      (l := rest.map fun t => (t, p t))
    have htake : ∀ x ∈ (rest.map fun t => (t, p t)).takeWhile (fun x => x.2 == p t0), x.2 = p t0 := by
      intro x hx
      have := List.mem_takeWhile_imp hx
      simpa using this
    split at h
    · next hd =>
      have hall : ∀ u ∈ t0 :: rest, p u = p t0 := by
        intro u hu
        rcases List.mem_cons.mp hu with rfl | hu
        · rfl
        · rw [hd, List.append_nil] at hsplit
          have : (u, p u) ∈ rest.map fun t => (t, p t) := List.mem_map.mpr ⟨u, hu, rfl⟩
          rw [← hsplit] at this
          exact htake _ this
      rw [hall t ht]
      simp only [Option.some.injEq] at h
      subst h
      cases p t0 <;> rfl
    · next t1 v1 more hd =>
      split at h
      · next hmore =>
        simp only [Option.some.injEq] at h
        have hv1 : v1 ≠ p t0 := by
          have := List.head?_dropWhile_not (p := fun x : Nat × Bool => x.2 == p t0) (l := rest.map fun t => (t, p t))
          rw [hd] at this
          simpa using this
        have hmem2 : ∀ u ∈ t0 :: rest, (u < t1 → p u = p t0) ∧ (t1 ≤ u → p u ≠ p t0) := by
          have hmap : rest.map (fun t => (t, p t)) =
              ((rest.map fun t => (t, p t)).takeWhile fun x => x.2 == p t0) ++ (t1, v1) :: more := by
            rw [← hd, hsplit]
          have hrest : rest = ((rest.map fun t => (t, p t)).takeWhile fun x => x.2 == p t0).map Prod.fst ++
              t1 :: more.map Prod.fst := by
            have := congrArg (List.map Prod.fst) hmap
            simpa [Function.comp_def] using this
          have hval : ∀ x ∈ rest.map (fun t => (t, p t)), x.2 = p x.1 := by
            intro x hx
            obtain ⟨u, -, rfl⟩ := List.mem_map.mp hx
            rfl
          intro u hu
          have hpair := hs
          rw [hrest, ← List.cons_append, List.pairwise_append] at hpair
          obtain ⟨-, hp2, hp3⟩ := hpair
          rcases List.mem_cons.mp hu with rfl | hu
          · exact ⟨fun _ => rfl, fun h => absurd (hp3 u (by simp) t1 (by simp)) (by omega)⟩
          · rw [hrest, List.mem_append, List.mem_cons] at hu
            rcases hu with hu | rfl | hu
            · obtain ⟨x, hx, rfl⟩ := List.mem_map.mp hu
              have hlt := hp3 x.1 (List.mem_cons_of_mem _ hu) t1 (by simp)
              have hx2 := hval x (by rw [hmap]; exact List.mem_append_left _ hx)
              exact ⟨fun _ => by rw [← hx2]; exact htake x hx, fun h => absurd h (by omega)⟩
            · have := hval (u, v1) (by rw [hmap]; exact List.mem_append_right _ (by simp))
              exact ⟨fun h => absurd h (by omega), fun _ => by rw [← this]; exact hv1⟩
            · obtain ⟨x, hx, rfl⟩ := List.mem_map.mp hu
              have hlt := List.rel_of_pairwise_cons hp2 hu
              have hx2 := hval x (by rw [hmap]; exact List.mem_append_right _ (List.mem_cons_of_mem _ hx))
              have := List.all_eq_true.mp hmore x hx
              exact ⟨fun h => absurd h (by omega), fun _ => by rw [← hx2]; simpa using this⟩
        obtain ⟨ha, hb⟩ := hmem2 t ht
        have ht1 : t1 ∈ t0 :: rest := by
          have : (t1, v1) ∈ rest.map fun t => (t, p t) := by rw [← hsplit, hd]; simp
          obtain ⟨u, hu, he⟩ := List.mem_map.mp this
          simp only [Prod.mk.injEq] at he
          rw [← he.1]; exact List.mem_cons_of_mem _ hu
        subst h
        by_cases hlt1 : i < t1
        · have := ha (by omega)
          rw [this]
          cases p t0 <;> simp [Cut.at, hlt1]
        · have hle : t1 ≤ t := hmax t1 ht1 (by omega)
          have := hb hle
          have hpt : p t = !p t0 := by cases h : p t <;> cases h' : p t0 <;> simp_all
          rw [hpt]
          cases p t0 <;> simp [Cut.at, hlt1]
          omega
      · simp at h

/-! ### SpanCompare (R25) -/

theorem noWrap_spec {signed : Bool} {w base : Nat} {stride : Int} {a n : Nat} (hw : 0 < w)
    (h : noWrap signed w base stride a n = true) {p : Nat} (h1 : a ≤ p) (h2 : p < a + n) :
    baseAs signed w (wrap w (base + stride * p)) = baseAs signed w base + stride * p := by
  have hcong : wrap w ((base : Int) + stride * p) = wrap w (baseAs signed w base + stride * p) := by
    rw [wrap_eq_iff, Int.add_emod, ← baseAs_emod signed, ← Int.add_emod]
  rw [hcong]
  unfold noWrap at h
  simp only [Bool.and_eq_true, decide_eq_true_eq] at h
  obtain ⟨⟨a1, a2⟩, b1, b2⟩ := h
  have hap : (a : Int) ≤ p := by exact_mod_cast h1
  have hpq : (p : Int) ≤ ((a + n - 1 : Nat) : Int) := by omega
  generalize ((a + n - 1 : Nat) : Int) = q at *
  rcases le_total 0 stride with hs | hs
  · have := mul_le_mul_of_nonneg_left hap hs
    have := mul_le_mul_of_nonneg_left hpq hs
    exact baseAs_wrap hw (by omega) (by omega)
  · have := mul_le_mul_of_nonpos_left hap hs
    have := mul_le_mul_of_nonpos_left hpq hs
    exact baseAs_wrap hw (by omega) (by omega)

/-- A condition on two lines changes only next to where they cross. -/
theorem cond_step {c : Cond} {x0 y0 xs ys : Int} {i : Nat}
    (h : condHolds c (x0 + xs * i) (y0 + ys * i) ≠ condHolds c (x0 + xs * (i + 1 : Nat)) (y0 + ys * (i + 1 : Nat))) :
    i + 1 ∈ (let z := if xs - ys = 0 then 0 else ((y0 - x0) / (xs - ys)).toNat; [z - 1, z, z + 1, z + 2]) := by
  have hx : (x0 + xs * (i + 1 : Nat)) - (y0 + ys * (i + 1 : Nat)) = (x0 + xs * i) - (y0 + ys * i) + (xs - ys) := by
    push_cast; ring
  have hi : (x0 + xs * i) - (y0 + ys * i) = (xs - ys) * i - (y0 - x0) := by ring
  generalize x0 + xs * (i + 1 : Nat) = a' at *
  generalize y0 + ys * (i + 1 : Nat) = b' at *
  generalize x0 + xs * i = a at *
  generalize y0 + ys * i = b at *
  generalize xs - ys = d at *
  generalize y0 - x0 = k at *
  by_cases hd : d = 0
  · exfalso; subst hd
    have : a' - b' = a - b := by omega
    apply h
    cases c <;> simp only [condHolds] <;> first
      | (rw [Bool.eq_iff_iff]; simp only [beq_iff_eq, bne_iff_ne, decide_eq_true_eq]; omega)
  · simp only [hd, if_false]
    have hq := Int.mul_ediv_add_emod k d
    have hr := Int.emod_nonneg k hd
    have hr2 := Int.emod_lt_abs k hd
    generalize k / d = q at *
    generalize k % d = r at *
    have hab : a - b = d * (i - q) - r := by rw [hi, ← hq]; ring
    suffices hs : q - 1 ≤ i ∧ i ≤ q by
      have : (q.toNat : Int) = q := Int.toNat_of_nonneg (by omega)
      simp only [List.mem_cons, List.not_mem_nil, or_false]
      omega
    have hab' : a' - b' = d * (i + 1 - q) - r := by rw [hx, hab]; ring
    by_contra hs
    rw [not_and_or, not_le, not_le] at hs
    have hsign : (a < b ∧ a' < b') ∨ (b < a ∧ b' < a') := by
      rcases lt_or_gt_of_ne hd with hneg | hpos
      · rw [abs_of_neg hneg] at hr2
        rcases hs with hs | hs
        · have h1 : d * (i + 1 - q) ≥ d * (-1) := mul_le_mul_of_nonpos_left (by omega) (le_of_lt hneg)
          have h2 : d * (i - q) ≥ d * (-1) := mul_le_mul_of_nonpos_left (by omega) (le_of_lt hneg)
          right; omega
        · have h1 : d * (i + 1 - q) ≤ d * 1 := mul_le_mul_of_nonpos_left (by omega) (le_of_lt hneg)
          have h2 : d * (i - q) ≤ d * 1 := mul_le_mul_of_nonpos_left (by omega) (le_of_lt hneg)
          left; omega
      · rw [abs_of_pos hpos] at hr2
        rcases hs with hs | hs
        · have h1 : d * (i + 1 - q) ≤ d * (-1) := mul_le_mul_of_nonneg_left (by omega) (le_of_lt hpos)
          have h2 : d * (i - q) ≤ d * (-1) := mul_le_mul_of_nonneg_left (by omega) (le_of_lt hpos)
          left; omega
        · have h1 : d * (i + 1 - q) ≥ d * 1 := mul_le_mul_of_nonneg_left (by omega) (le_of_lt hpos)
          have h2 : d * (i - q) ≥ d * 1 := mul_le_mul_of_nonneg_left (by omega) (le_of_lt hpos)
          right; omega
    apply h
    clear hx hi hq hab hab' hs hr hr2 h
    cases c <;> simp only [condHolds] <;> rw [Bool.eq_iff_iff] <;>
      simp only [beq_iff_eq, bne_iff_ne, decide_eq_true_eq] <;> omega

/-- SpanCompare's cut holds exactly where the condition does, over positions from a (R25). -/
theorem spanCompare_at {c : Cond} {signed : Bool} {w xb yb : Nat} {xs ys : Int} {a n : Nat} {k : Cut} (hw : 0 < w)
    (h : spanCompare c signed w xb xs yb ys a n = some k) {p : Nat} (h1 : a ≤ p) (h2 : p < a + n) :
    k.at p = condHolds c (baseAs signed w (wrap w (xb + xs * p))) (baseAs signed w (wrap w (yb + ys * p))) := by
  unfold spanCompare at h
  split at h
  · next hn =>
    simp only [Bool.and_eq_true] at hn
    rw [noWrap_spec hw hn.1 h1 h2, noWrap_spec hw hn.2 h1 h2]
    exact cutOf_at h (fun i _ _ hne => cond_step hne) h1 h2
  · simp at h

@[simp] theorem shift_at (k : Cut) (o i : Nat) : (k.shift o).at (o + i) = k.at i := by
  cases k <;> simp only [Cut.shift, Cut.at]
  · exact decide_eq_decide.mpr (by omega)
  · exact decide_eq_decide.mpr (by omega)

/-- A compare of forms over the acting span is the compare of the threads' values (R25, R173). -/
theorem compareCut_at {e : Env} {c : Cond} {signed wide : Bool} {x y : Option (Nat × Int)} {k : Cut}
    (h : e.compareCut c signed (widthOf wide) x y = some k) {p : Nat} (hp : p < e.grp.hi - e.grp.lo) :
    ∃ fx fy, x = some fx ∧ y = some fy ∧ k.at (e.grp.lo + p) =
      condHolds c (baseAs signed (widthOf wide) (wrap (widthOf wide) (fx.1 + fx.2 * p)))
        (baseAs signed (widthOf wide) (wrap (widthOf wide) (fy.1 + fy.2 * p))) := by
  unfold Env.compareCut at h
  split at h
  · next fx fy =>
    obtain ⟨k', hk, rfl⟩ := Option.map_eq_some_iff.mp h
    refine ⟨fx, fy, rfl, rfl, ?_⟩
    rw [shift_at]
    exact spanCompare_at (widthOf_pos wide) hk (Nat.zero_le _) (by omega)
  · simp at h

/-! ### Combining cuts (R26) -/

/-- A cut's value changes only at its threshold. -/
theorem at_step {k : Cut} {i : Nat} (h : k.at i ≠ k.at (i + 1)) : i + 1 ∈ k.threshold := by
  cases k <;> simp only [Cut.at, Cut.threshold, ne_eq, not_true, List.mem_singleton] at h ⊢
  · rw [decide_eq_decide] at h; omega
  · rw [decide_eq_decide] at h; omega

/-- A combination of cuts, where it is a cut, holds where the truth function of the cuts does (R26). -/
theorem combine_at {e : Env} {cs : List Cut} {f : List Bool → Bool} {k : Cut} (h : e.combine cs f = some k) {i : Nat}
    (h1 : e.grp.lo ≤ i) (h2 : i < e.grp.hi) : k.at i = f (cs.map fun c => c.at i) := by
  unfold Env.combine at h
  refine cutOf_at h (fun j _ _ hne => ?_) h1 h2
  rw [List.mem_flatMap]
  by_contra hno
  apply hne
  congr 1
  apply List.map_congr_left
  intro c hc
  by_contra hc'
  exact hno ⟨c, hc, at_step hc'⟩

/-- Normalising a cut keeps its values over the range (R24). -/
theorem norm_at (k : Cut) {lo hi i : Nat} (h1 : lo ≤ i) (h2 : i < hi) : (k.norm lo hi).at i = k.at i := by
  cases k with
  | allFalse => rfl
  | allTrue => rfl
  | below k =>
    show (if k ≤ lo then Cut.allFalse else if hi ≤ k then .allTrue else .below k).at i = decide (i < k)
    split
    · exact (decide_eq_false (by omega)).symm
    · split
      · exact (decide_eq_true (by omega)).symm
      · rfl
  | atOrAbove k =>
    show (if hi ≤ k then Cut.allFalse else if k ≤ lo then .allTrue else .atOrAbove k).at i = decide (k ≤ i)
    split
    · exact (decide_eq_false (by omega)).symm
    · split
      · exact (decide_eq_true (by omega)).symm
      · rfl

/-- A predicate of a span reads as its cut (R24, R48). -/
theorem pcut_at {g : Grp} (hs : g.span = true) (p : Nat) {pos : Nat} (hp : pos < g.hi - g.lo) :
    (g.pcut p).at (g.lo + pos) = g.pval p pos := by
  unfold Grp.pcut Grp.pval
  split
  · exact norm_at _ (by omega) (by omega)
  · rw [hs]
    split
    · next h => subst h; rfl
    · next h => simp only [Cut.at, if_true]; symm; simpa using h

/-! ### Predicate words -/

theorem bit_maskOf {l : List Nat} {i : Nat} (hi : i < 32) : bit (maskOf l).toNat i = decide (i ∈ l) := by
  have key : ∀ (l : List Nat) (m : W32), bit (l.foldl (fun m l => m ||| BitVec.ofNat 32 (2 ^ l)) m).toNat i =
      (bit m.toNat i || decide (i ∈ l)) := by
    intro l
    induction l with
    | nil => intro m; simp
    | cons x r ih =>
      intro m
      rw [List.foldl_cons, ih, bit_or, Bool.or_assoc]
      congr 1
      have : bit (BitVec.ofNat 32 (2 ^ x)).toNat i = decide (i = x) := by
        rw [bit_eq_testBit, BitVec.toNat_ofNat, Nat.testBit_mod_two_pow, Nat.testBit_two_pow]
        simp only [hi, decide_true, Bool.true_and]
        exact decide_eq_decide.mpr eq_comm
      rw [this]
      simp only [List.mem_cons]
      by_cases h1 : i = x <;> by_cases h2 : i ∈ r <;> simp [h1, h2]
  have := key l 0
  simpa [maskOf, bit] using this

/-- A predicate word, said once (R25, R26, R173, R174). -/
theorem pred_run {i : Instr} {sh : Shape} {pd : PredN} {v : Env → Nat → Bool} {c : Env → Option Cut}
    (hi : ∀ s, exec i s = s.runWord (fun _ => sh) fun s e => e.pput s pd.toNat (e.pred (c e) (v e)))
    (hc : ∀ e k, e.solo = false → e.grp.span = true → e.view.span = true → e.view.lo = e.grp.lo → e.view.hi = e.grp.hi →
      c e = some k → ∀ p, p < e.grp.hi - e.grp.lo → k.at (e.grp.lo + p) = v e p) : PredWord i sh pd v c := by
  intro s e he
  have ha := prepare_acting he.acts sh
  obtain ⟨hr, -⟩ := prepare_reads s e sh
  have hrun := fun t e' => runWord_done (f := fun s e => e.pput s pd.toNat (e.pred (c e) (v e))) (sh := fun _ => sh) he
    (t := t) (e' := e')
  have hexp := runWord_expand (f := fun s e => e.pput s pd.toNat (e.pred (c e) (v e))) (sh := fun _ => sh) he.acts he.clear
  have hlo := hr.grp.lo
  have hmem := hr.members
  have hview : (s.prepare e sh).2.view.span = (s.prepare e sh).2.grp.span ∧
      (s.prepare e sh).2.view.lo = (s.prepare e sh).2.grp.lo ∧ (s.prepare e sh).2.view.hi = (s.prepare e sh).2.grp.hi :=
    ⟨hr.view.span.trans hr.grp.span.symm, hr.view.lo.trans hr.grp.lo.symm, hr.view.hi.trans hr.grp.hi.symm⟩
  generalize (s.prepare e sh).2 = x at *
  refine ⟨fun hok => ?_, fun hl hn => ?_⟩
  · by_cases hso : x.solo = true
    · refine ⟨.cut (Cut.ofBool (v x 0)), fun p hp => ?_, ?_⟩
      · rw [← hmem, ha.solo hso, List.mem_singleton] at hp
        subst hp
        cases v x 0 <;> rfl
      · rw [hi, hrun]
        simp only [Env.pred, hso, if_true, Env.pput]
    · have hso : x.solo = false := by simpa using hso
      by_cases hsp : x.grp.span = true
      · have hcs : (c x).isSome := by
          rcases hok with (h | h) | h
          · simp [hsp] at h
          · simp [hso] at h
          · exact h
        obtain ⟨k, hk⟩ := Option.isSome_iff_exists.mp hcs
        refine ⟨.cut k, fun p hp => ?_, ?_⟩
        · rw [← hmem] at hp
          simp only [Env.members, hso, Bool.false_eq_true, if_false, Grp.members, hsp, if_true, mem_upto] at hp
          rw [← hlo]
          exact hc x k hso hsp (hview.1.trans hsp) hview.2.1 hview.2.2 hk p (by omega)
        · rw [hi, hrun]
          simp only [Env.pred, hso, hsp, hk, Env.pput, Bool.false_eq_true, if_false, if_true, Option.map_some]
      · have hsp : x.grp.span = false := by simpa using hsp
        refine ⟨.bits (maskOf ((upto 0 32).filter fun l => v x l)), fun p hp => ?_, ?_⟩
        · rw [← hmem] at hp
          have := ha.lanes (.inl hsp) p hp
          show bit _ p = _
          rw [bit_maskOf this]
          have hm : p ∈ upto 0 32 := mem_upto.mpr ⟨Nat.zero_le _, by omega⟩
          simp [List.mem_filter, hm]
        · rw [hi, hrun]
          simp only [Env.pred, hso, hsp, Env.pput, Bool.false_eq_true, if_false]
  · rw [hi]
    have hsp : x.grp.span = true := by
      by_contra h; exact hl (.inl (by simpa using h))
    have hso : x.solo = false := by
      by_contra h; exact hl (.inr (by simpa using h))
    apply hexp
    simp only [Env.pred, hso, hsp, hn, Env.pput, Bool.false_eq_true, if_false, if_true, Option.map_none]

theorem span_positions {g : Grp} (hs : g.span = true) {p : Nat} (hp : p < g.hi - g.lo) : p ∈ g.positions := by
  unfold Grp.positions; rw [if_pos hs, mem_upto]; omega

/-- A compare of two registers, said once (R173). -/
theorem compare_run {i : Instr} {c : Cond} {signed wide : Bool} {pd : PredN} {ps a b : Nat} {how : Combine}
    (hi : ∀ s, exec i s = s.compare c signed wide pd.toNat ps a (some b) 0 how) :
    PredWord i { srcs := regsOf wide a ++ regsOf wide b, psrcs := if how = .plain then [] else [ps], pdsts := [pd.toNat] } pd
      (fun e p => how.apply (e.pval ps p) (condHolds c (baseAs signed (widthOf wide) (e.val wide a p))
        (baseAs signed (widthOf wide) (e.val wide b p))))
      (fun e => (e.compareCut c signed (widthOf wide) (e.form wide a) (e.form wide b)).bind fun x =>
        if how = .plain then some x
        else e.combine [e.view.pcut ps, x] fun l => how.apply (nth l 0 false) (nth l 1 false)) := by
  apply pred_run
  · intro s; rw [hi]; rfl
  · intro e kc _ _ hvs hvl hvh hc p hp
    obtain ⟨x, hx, hc⟩ := Option.bind_eq_some_iff.mp hc
    obtain ⟨fx, fy, hfx, hfy, hat⟩ := compareCut_at hx hp
    have hpv : p ∈ e.view.positions := span_positions hvs (by omega)
    rw [form_val hfx hpv, form_val hfy hpv, ← hat]
    cases how with
    | plain => simp only [if_true, Option.some.injEq] at hc; subst hc; rfl
    | with_and =>
      simp only [reduceCtorEq, if_false] at hc
      rw [combine_at hc (by omega) (by omega)]
      simp [nth, Combine.apply, Env.pval, ← hvl, pcut_at hvs ps (pos := p) (by omega)]
    | with_or =>
      simp only [reduceCtorEq, if_false] at hc
      rw [combine_at hc (by omega) (by omega)]
      simp [nth, Combine.apply, Env.pval, ← hvl, pcut_at hvs ps (pos := p) (by omega)]

/-- A compare of a register with a constant, said once (R173). -/
theorem comparei_run {i : Instr} {c : Cond} {signed wide : Bool} {pd : PredN} {ps a k : Nat} (hk : k < 2 ^ widthOf wide)
    (hi : ∀ s, exec i s = s.compare c signed wide pd.toNat ps a none k .plain) :
    PredWord i { srcs := regsOf wide a ++ [], psrcs := [], pdsts := [pd.toNat] } pd
      (fun e p => condHolds c (baseAs signed (widthOf wide) (e.val wide a p)) (baseAs signed (widthOf wide) k))
      (fun e => e.compareCut c signed (widthOf wide) (e.form wide a) (some (k, 0))) := by
  apply pred_run
  · intro s
    rw [hi]
    unfold State.compare
    congr 1; funext s e
    simp
    rfl
  · intro e kc _ _ hvs hvl hvh hc p hp
    obtain ⟨fx, fy, hfx, hfy, hat⟩ := compareCut_at hc hp
    have hpv : p ∈ e.view.positions := span_positions hvs (by omega)
    simp only [Option.some.injEq] at hfy
    subst hfy
    rw [form_val hfx hpv, hat]
    simp [wrap_of_lt hk]

/-- A predicate-logic word on two predicates, said once (R174). -/
theorem plogic_run {i : Instr} {pd : PredN} {ps : List Nat} {f : List Bool → Bool}
    (hi : ∀ s, exec i s = s.plogic pd.toNat ps f) :
    PredWord i { psrcs := ps, pdsts := [pd.toNat] } pd (fun e p => f (ps.map fun q => e.pval q p))
      (fun e => e.combine (ps.map e.view.pcut) f) := by
  apply pred_run
  · intro s; rw [hi]; rfl
  · intro e kc _ _ hvs hvl hvh hc p hp
    rw [combine_at hc (by omega) (by omega), List.map_map]
    congr 1
    apply List.map_congr_left
    intro q _
    show (e.view.pcut q).at _ = e.view.pval q p
    rw [← hvl, pcut_at hvs q (by omega)]

/-! ### Selects (R175) -/

/-- A predicate that is one truth over the range is that truth for each thread of it (R175). -/
theorem choice_at {e : Env} {p : Nat} {sense t : Bool} (hs : e.grp.span = true → e.view.span = true ∧
      e.view.lo = e.grp.lo ∧ e.view.hi = e.grp.hi) (h : e.choice p sense = some t) {pos : Nat} (hp : pos ∈ e.range) :
    xor (e.pval p pos) sense = t := by
  unfold Env.choice at h
  simp only at h
  split at h
  · next hsp =>
    obtain ⟨hvs, hvl, hvh⟩ := hs hsp
    have hpos : pos < e.view.hi - e.view.lo := by
      simp only [Env.range, Grp.positions, hsp, if_true, mem_upto] at hp; omega
    have := pcut_at hvs p hpos
    unfold Env.pval
    rw [← this]
    split at h
    · next hk => simp only [Option.some.injEq] at h; subst h; rw [hk]; cases sense <;> rfl
    · next hk => simp only [Option.some.injEq] at h; subst h; rw [hk]; cases sense <;> rfl
    · simp at h
  · split at h
    · next ha => simp only [Option.some.injEq] at h; subst h; exact List.all_eq_true.mp ha pos hp
    · split at h
      · next ha =>
        simp only [Option.some.injEq] at h; subst h
        have := List.all_eq_true.mp ha pos hp
        simpa using this
      · simp at h

/-- A select word, said once (R175). -/
theorem select_run {i : Instr} {d a b : RegN} {p : PredN} {sense wide : Bool}
    (hi : ∀ s, exec i s = s.select d.toNat a.toNat b.toNat p.toNat sense wide) :
    FormWord i { dsts := regsOf wide d.toNat, srcs := regsOf wide a.toNat ++ regsOf wide b.toNat, psrcs := [p.toNat] } d wide
      (fun e pos => if xor (e.pval p.toNat pos) sense then (e.val wide a.toNat pos : Int) else e.val wide b.toNat pos)
      (fun e => e.binary wide a wide b fun x y => match e.choice p.toNat sense with
        | some true => some (x.1, x.2)
        | some false => some (y.1, y.2)
        | none => if x = y then some (x.1, x.2) else none) := by
  apply formWord_run
  · intro s
    rw [hi]
    unfold State.select Env.binary
    congr 1; funext s e
    cases e.form wide a.toNat <;> simp
    cases e.form wide b.toNat <;> simp
    cases e.choice p.toNat sense with
    | none => simp only; split <;> rfl
    | some t => cases t <;> rfl
  · intro e f ha _ hf q hq
    simp only [Env.binary, Option.bind_eq_some_iff] at hf
    obtain ⟨x, hx, y, hy, hf⟩ := hf
    rw [form_val hx hq, form_val hy hq]
    have hr : q ∈ e.range := ha.same ▸ hq
    split at hf
    · next hc =>
      rw [choice_at ha.view hc hr]
      simp only [Option.some.injEq] at hf; subst hf
      simp [wrap_eq_iff, wrap_emod]
    · next hc =>
      rw [choice_at ha.view hc hr]
      simp only [Option.some.injEq] at hf; subst hf
      simp [wrap_eq_iff, wrap_emod]
    · split at hf
      · next hxy =>
        simp only [Option.some.injEq] at hf; subst hf
        subst hxy
        simp [wrap_eq_iff, wrap_emod]
      · simp at hf

end Sys2Proof.Machine
end

