-- ==== Sys2Proof/Tests/Slice0.lean ====
section
/-! SUPPORT. The model's own tests: the words of spec/ decode to their instructions, ill-formed terms are refused, single steps
give the values spec/ states, and the hypotheses of the statements are met by concrete states. -/

open Sys2Proof
open Sys2Proof.Machine

set_option Elab.async false

namespace Sys2Proof.Tests

/-! ### Small states -/

/-- A state with a word as the next to issue, by the agent whose turn it is. -/
def word (w : W32) : State :=
  let s := State.reset.placeWord w
  match s.agenda with
  | .issue q :: _ => { s with turn := q }
  | _ => s

/-- Change every group of the blocks, of the handlers and of the control cores. -/
def groups (f : Grp → Grp) (s : State) : State :=
  { s with
    blocks := s.blocks.map fun b => { b with groups := b.groups.map f }
    traps := s.traps.map fun t => { t with groups := t.groups.map f }
    ccs := s.ccs.map fun k => { k with grp := f k.grp } }

/-- Registers with uniform values. -/
def regs (l : List (Nat × W32)) (s : State) : State :=
  groups (fun g => l.foldl (fun g x => g.setCell x.1 (RegCell.uniform x.2)) g) s

/-- A register with a form. -/
def form (r : Nat) (b t : W32) (s : State) : State := groups (fun g => g.setCell r ⟨.f32 b t, 0⟩) s

/-- A register with a value per lane. -/
def lanes (r : Nat) (f : Nat → W32) (s : State) : State :=
  groups (fun g => g.setCell r ⟨.e false ((upto 0 32).map f), 0⟩) s

/-- The pair from r holds the first address of the scratchpad plus an offset. -/
def spad (r off : Nat) (s : State) : State := regs [(r, BitVec.ofNat 32 off), (r + 1, 0xFFFFF000)] s

/-- The block's group is the span [0, 32). -/
def span (s : State) : State :=
  { s with blocks := s.blocks.map fun b => { b with groups := b.groups.map fun g =>
      { Grp.root g.gid 0 32 0 0 with regs := g.regs, units := g.units.map fun u => { u with lanes := 1 } } } }

/-- An agent of the reset state. -/
def idle : Env := State.reset.ccEnv (.cc 0) (CCore.init 0) (CCore.init 0).grp (ISet.start 0)

/-- The agent whose turn it is. -/
def env (s : State) : Env := (s.env? s.turn).getD idle

/-- An access of no word in particular. -/
def org : Origin := ⟨0, 0, false, none⟩

/-- A record went into its ring whole. -/
def putDone (p : Put) : Bool := match p with
  | .done _ => true
  | _ => false

/-- The state after one step. -/
def ran (s : State) : State := match step s with
  | .next t => t
  | _ => s

/-- A register's value at a position of the first block's group. -/
def reg (s : State) (r p : Nat) : W32 := ((s.blocks.head?.bind fun b => b.groups.head?).map fun g => g.val r p).getD 0

/-- The unit of the first block's group. -/
def unit (s : State) : ISet := ((s.blocks.head?.bind fun b => b.groups.head?).bind fun g => g.units.head?).getD (ISet.start 0)

/-- The acting agent's word executes with some members. -/
def fits (s : State) (sh : Shape) : Bool :=
  (s.env? s.turn).isSome && (s.hazard (env s) sh).isNone && !(env s).splitsPair sh && !(env s).members.isEmpty

theorem fits_acts {s : State} (h : (s.env? s.turn).isSome = true) : s.env? s.turn = some (env s) := by
  unfold env
  cases hx : s.env? s.turn with
  | none => rw [hx] at h; exact absurd h (by decide)
  | some e => rfl

theorem fits_executes {s : State} {sh : Shape} (h : fits s sh = true) : Executes s sh (env s) ∧ (env s).members ≠ [] := by
  simp only [fits, Bool.and_eq_true] at h
  obtain ⟨⟨⟨h1, h2⟩, h3⟩, h4⟩ := h
  exact ⟨⟨fits_acts h1, Option.isNone_iff_eq_none.mp h2, by simpa using h3⟩, by simpa using h4⟩


/-! ### Well-formed terms -/

/-- A term that breaks each check of R45, R144 and R159 is refused, and one that keeps it is not. -/
theorem test_wf_pairs :
    (Instr.iadd 3 4 6 false false true).wf = false ∧ (Instr.iadd 2 5 6 false false true).wf = false ∧
    (Instr.iadd 2 4 7 false false true).wf = false ∧ (Instr.iadd 3 5 7 false false false).wf = true ∧
    (Instr.dadd 2 4 7 false false 0).wf = false ∧ (Instr.ld32 1 3 0 false 0).wf = false ∧
    (Instr.st64 1 2 0 false 0).wf = false ∧ (Instr.rds 3 true .argp).wf = false ∧ (Instr.cyc 3 true).wf = false ∧
    (Instr.launch 3 5).wf = false ∧ (Instr.icinv 1).wf = false ∧ (Instr.brx 1).wf = false ∧ (Instr.pcut 0 1 true).wf = false ∧
    (Instr.redn 3 2 .wadd 0).wf = false ∧ (Instr.fclass 3 1 .f64 0).wf = false ∧ (Instr.tbinit 1 3 true 0).wf = false ∧
    (Instr.tbinit 1 3 false 0).wf = true ∧ (Instr.mdrain 0 1 2 false 0).wf = false ∧ (Instr.dbgRead 1 3).wf = false := by
  decide +kernel

theorem test_wf_quads :
    (Instr.ld128 2 4 0 false 0).wf = false ∧ (Instr.ld128 4 4 0 false 0).wf = true ∧
    (Instr.isect 6 1 2 0).wf = false ∧ (Instr.isectb 8 1 2 3 0).wf = true := by decide +kernel

theorem test_wf_values :
    (Instr.shli 1 2 32).wf = false ∧ (Instr.shri 1 2 31).wf = true ∧ (Instr.sari 1 2 0xFFF).wf = false ∧
    (Instr.qadd 2 4 .device .acquire).wf = false ∧ (Instr.qadd 2 4 .device .release).wf = true ∧
    (Instr.waita 1 2 3 .die .release).wf = false ∧ (Instr.waita 1 2 3 .die .acquire).wf = true ∧
    (Instr.cvt 1 2 .mf6F32 false true 0).wf = false ∧ (Instr.cvt 1 2 .mf6F32 false false 0).wf = true ∧
    (Instr.cvt 1 2 .f64F32 false false 0).wf = false ∧ (Instr.wrs 2 false .index).wf = false ∧
    (Instr.wrs 2 false .ctxd).wf = true ∧ (Instr.runh 1 7 true 0).wf = false ∧ (Instr.runh 1 6 true 0).wf = true ∧
    (Instr.hcmp2 1 2 3 .lt 0).wf = false ∧ (Instr.mread 1 2 0 .sat 0).wf = false ∧ (Instr.mwait 1 true 0).wf = false ∧
    (Instr.sfclr 0 1 true 0).wf = false := by decide +kernel

/-- Words the scanner refuses, with the lowest code that applies (R159): a reserved class, opcode, field and value, an odd
pair, and a count beyond its limit. -/
theorem test_refused :
    decode 0x60000000 = .error .reservedClass ∧ decode 0x85800000 = .error .reservedOpcode ∧
    decode 0xA0612341 = .error .reservedField ∧ decode 0x80000002 = .error .reservedValue ∧
    decode 0x80411841 = .error .misalignedReg ∧ decode 0x92081020 = .error .limit := by decide +kernel

/-- The decoder sees a table word as the hardware stores it. -/
theorem test_table_word :
    decodeTableWord 32 0x80461840 = some (.iadd 6 6 4 false false false) ∧
    decodeTableWord 32 0x60000000 = none := by decide +kernel

/-! ### Single steps, with values from spec/ -/

/-- FFMA of the example under R209. -/
theorem test_ffma : reg (ran (regs [(1, 0x3F800001), (2, 0x3F7FFFFF), (3, 0xBF800000)] (word 0x1040420C))) 4 7 = 0x337FFFFE := by
  decide +kernel

/-- HADD2 of the example under R207: 1 + 1 and the overflow of the greatest number. -/
theorem test_hadd2 : reg (ran (regs [(1, 0x3C007BFF), (2, 0x3C007BFF)] (word 0x04C40420))) 4 0 = 0x40007C00 := by decide +kernel

/-- PRMT of the example under R205. -/
theorem test_prmt : reg (ran (regs [(1, 0x11223344), (2, 0x43048000), (4, 0x000000F0)] (word 0x01840420))) 4 31 = 0xEEF00044 := by
  decide +kernel

/-- CVT of −2.5 and of 470.0, which clamps, to E4M3 (the example of spec/08). -/
theorem test_cvt_e4m3 : reg (ran (regs [(1, 0xC0200000)] (word 0x06440460))) 4 0 = 0xC2 ∧
    reg (ran (regs [(1, 0x43EB0000)] (word 0x06440460))) 4 0 = 0x7E := by decide +kernel

/-- CVT of 2⁻²⁰ to FP16 (the example after R214). -/
theorem test_cvt_f16 : reg (ran (regs [(1, 0x35800000)] (word 0x06440424))) 4 0 = 0x0010 := by decide +kernel

/-- ISECTB of the bitmaps of spec/12: the common bits, the running counts, the packed totals. -/
theorem test_isectb :
    let a (l : Nat) : W32 := nth [0x224, 0x9, 0x80, 0x80000001] l 0
    let b (l : Nat) : W32 := nth [0x100220, 0x12, 0x40000080, 0x80000000] l 0
    let t := ran (lanes 12 a (lanes 13 b (word 0x525030D4)))
    reg t 16 0 = 0x220 ∧ reg t 16 3 = 0x80000000 ∧ reg t 17 2 = 5 ∧ reg t 19 1 = 0x00080008 := by decide +kernel

/-- IADD wraps at 32 bits (R10). -/
theorem test_iadd_wraps : reg (ran (regs [(6, 0xFFFFFFFF), (4, 3)] (word 0x80461840))) 6 2 = 2 := by decide +kernel

/-- RDS INDEX is the form of stride 1, and IMULI scales it (R21, R170): thread 5 of the block reads 15. -/
theorem test_index : reg (ran (word 0xD0050000)) 5 5 = 5 ∧ reg (ran (form 5 0 1 (word 0x91185003))) 6 5 = 15 := by decide +kernel

/-- ICMPI.LT in a span (R25, R173): g4 = (0, 4) is below 10 for the threads 0, 1 and 2. -/
theorem test_icmpi :
    ((ran (span (form 4 0 4 (word 0xB18710A4)))).blocks.head?.bind fun b => b.groups.head?).map (fun g => g.pcut 0)
      = some (.below 3) := by decide +kernel

/-- A word completes at the word after it (R57). -/
theorem test_advances : (unit (ran (word 0x80461840))).pc = 4 ∧ (unit (ran (word 0x80461840))).left = 0 := by decide +kernel

/-- A plain store waits in its thread's queue, and a load sees it there (R114, R116). -/
theorem test_store_queued :
    let s := spad 2 16 (regs [(4, 0xAABBCCDD)] (word 0x26081000))
    ((ran s).blocks.head?.bind fun b => b.groups.head?).map (fun g => g.stq.length) = some 32 ∧
      ((ran s).blocks.head?).map (fun b => b.spad.read 16) = some 0 := by decide +kernel

/-- LD32 reads little-endian bytes of the scratchpad (R4). -/
theorem test_ld32 :
    let s := spad 2 16 (word 0x22081000)
    let s := { s with blocks := s.blocks.map fun b => { b with spad := b.spad.writeN 16 [0xDD, 0xCC, 0xBB, 0xAA] } }
    reg (ran s) 4 9 = 0xAABBCCDD := by decide +kernel

/-- LD8S extends the sign (R215). -/
theorem test_ld8s :
    let s := spad 2 16 (word 0x20881000)
    let s := { s with blocks := s.blocks.map fun b => { b with spad := b.spad.writeN 16 [0xFD] } }
    reg (ran s) 4 0 = 0xFFFFFFFD := by decide +kernel

/-- A misaligned store traps with cause 7 and the address (R87, R337). -/
theorem test_misaligned :
    let t := ran (spad 2 18 (regs [(4, 1)] (word 0x26081000)))
    t.traps.map (fun c => (c.cause, c.tdata)) = [] ∧ t.blocks.map (·.st) = [.ended] := by decide +kernel

/-- SELW on a pair, under p0's negation (R175): a where p0 is false. -/
theorem test_sel : reg (ran (regs [(1, 7), (2, 9)] (word 0xB6040421))) 4 0 = 7 := by decide +kernel

/-- BR of a false predicate falls through (R148, R177); NEXT goes to its target. -/
theorem test_branches : (unit (ran (word 0xC160FFEB))).pc = 4 ∧ (unit (ran (word 0xC0000003))).pc = 12 := by decide +kernel

/-- A SEGH releases registers above LIVE_G and predicates outside LIVE_P (R37). -/
theorem test_segh_releases :
    ((ran (word 0xE0153600)).blocks.head?.bind fun b => b.groups.head?).map
      (fun g => ((g.cell 27).rel, (g.cell 28).rel, (g.pcell 0).rel)) = some (0, 0xFFFFFFFF, 0xFFFFFFFF) := by decide +kernel

/-- REDI.MAX over the members (R229), and SCANI.INCL (R230): lane 3 of 0, 1, 2, 3, … receives 6. -/
theorem test_redi_scani : reg (ran (lanes 28 (BitVec.ofNat 32) (word 0x501B7008))) 27 0 = 31 ∧
    reg (ran (lanes 4 (BitVec.ofNat 32) (word 0x51061000))) 6 3 = 6 := by decide +kernel

/-- A K40 element clamps, and the clamp is recorded (R78). -/
theorem test_stepK : stepK (2 ^ 39 - 1) 1 = (2 ^ 39 - 1, true) ∧ stepK 5 (-7) = (2 ^ 40 - 2, false) := by decide +kernel

/-- A transaction barrier of count 2 starts its next phase at the second arrival (R95, R260). -/
theorem test_tbUpdate : (tbUpdate (tbFresh 2 false) 1 0).2 = false ∧ (tbUpdate (tbUpdate (tbFresh 2 false) 1 0).1 1 0).2 = true := by
  decide +kernel

/-- Reset memory is canonical, and a step of the reset machine only counts. -/
theorem test_reset : State.reset.mem.wf = true ∧ (ran State.reset).tick = 1 := ⟨rfl, by decide +kernel⟩

/-! ### Words of spec/'s listings

Each class from the layouts of R143 to R152 and the map of R149. -/

/-- Words of class LR, from the layouts of R143 to R152 and the map of R149. -/
theorem test_decode_lr0 :
    decode 0x000C5266 = .ok (.imulhi 12 20 38 false true 2) ∧
    decode 0x004C5266 = .ok (.nmulhi 12 20 38 false true 2) ∧
    decode 0x008C5009 = .ok (.popc 12 20 true 1) ∧
    decode 0x00CC5009 = .ok (.clz 12 20 true 1) ∧
    decode 0x010C5009 = .ok (.brev 12 20 true 1) ∧
    decode 0x014C5266 = .ok (.bfe 12 20 38 false true 2) ∧
    decode 0x018C5266 = .ok (.prmt 12 20 38 false true 2) ∧
    decode 0x01CC5266 = .ok (.fadd 12 20 38 false true 2) ∧
    decode 0x020C5266 = .ok (.fsub 12 20 38 false true 2) ∧
    decode 0x024C5266 = .ok (.fmul 12 20 38 false true 2) ∧
    decode 0x028C5266 = .ok (.fmin 12 20 38 false true 2) ∧
    decode 0x02CC5266 = .ok (.fmax 12 20 38 false true 2) ∧
    decode 0x030C5009 = .ok (.fabs 12 20 true 1) ∧
    decode 0x034C5009 = .ok (.fneg 12 20 true 1) ∧
    decode 0x038C5266 = .ok (.dadd 12 20 38 false true 2) ∧
    decode 0x03CC5266 = .ok (.dsub 12 20 38 false true 2) ∧
    decode 0x040C5266 = .ok (.dmul 12 20 38 false true 2) ∧
    decode 0x044C5266 = .ok (.dmin 12 20 38 false true 2) ∧
    decode 0x048C5266 = .ok (.dmax 12 20 38 false true 2) ∧
    decode 0x04CC5266 = .ok (.hadd2 12 20 38 false true 2) := by decide +kernel

/-- Words of class LR, from the layouts of R143 to R152 and the map of R149. -/
theorem test_decode_lr1 :
    decode 0x050C5266 = .ok (.hmul2 12 20 38 false true 2) ∧
    decode 0x054C5266 = .ok (.hmin2 12 20 38 false true 2) ∧
    decode 0x058C5266 = .ok (.hmax2 12 20 38 false true 2) ∧
    decode 0x05CC5266 = .ok (.badd2 12 20 38 false true 2) ∧
    decode 0x060C5266 = .ok (.bmul2 12 20 38 false true 2) ∧
    decode 0x064C502E = .ok (.cvt 12 20 .f16F32 true true 2) ∧
    decode 0x064C5391 = .ok (.cvt 12 20 (.toInt true .i64 .rz) false false 1) ∧
    decode 0x068C5009 = .ok (.fexp2 12 20 true 1) ∧
    decode 0x06CC5009 = .ok (.flog2 12 20 true 1) ∧
    decode 0x070C5009 = .ok (.frcp 12 20 true 1) ∧
    decode 0x074C5009 = .ok (.frsq 12 20 true 1) ∧
    decode 0x078C5009 = .ok (.fsqrt 12 20 true 1) ∧
    decode 0x07CC5009 = .ok (.fsinp 12 20 true 1) ∧
    decode 0x080C5009 = .ok (.fcosp 12 20 true 1) ∧
    decode 0x084C5009 = .ok (.ftanh 12 20 true 1) ∧
    decode 0x088C5009 = .ok (.drcp 12 20 true 1) ∧
    decode 0x08CC5009 = .ok (.drsq 12 20 true 1) ∧
    decode 0x090C5266 = .ok (.fscl 12 20 38 false true 2) ∧
    decode 0x094C5266 = .ok (.dscl 12 20 38 false true 2) ∧
    decode 0x098C5009 = .ok (.ffrc 12 20 true 1) := by decide +kernel

/-- Words of class LT, from the layouts of R143 to R152 and the map of R149. -/
theorem test_decode_lt0 :
    decode 0x10C526E1 = .ok (.ffma 12 20 38 56 1) ∧
    decode 0x14C526E1 = .ok (.dfma 12 20 38 56 1) ∧
    decode 0x18C526E1 = .ok (.hfma2 12 20 38 56 1) ∧
    decode 0x1CC526E1 = .ok (.imad 12 20 38 56 1) := by decide +kernel

/-- Words of class LM, from the layouts of R143 to R152 and the map of R149. -/
theorem test_decode_lm0 :
    decode 0x2018A49E = .ok (.ld8 12 20 0x93 true 2) ∧
    decode 0x2098A49E = .ok (.ld8s 12 20 0x93 true 2) ∧
    decode 0x2118A49E = .ok (.ld16 12 20 0x93 true 2) ∧
    decode 0x2198A49E = .ok (.ld16s 12 20 0x93 true 2) ∧
    decode 0x2218A49E = .ok (.ld32 12 20 0x93 true 2) ∧
    decode 0x2298A49E = .ok (.ld64 12 20 0x93 true 2) ∧
    decode 0x2318A49E = .ok (.ld128 12 20 0x93 true 2) ∧
    decode 0x2398A49E = .ok (.lda32 12 20 0x93 true 2) ∧
    decode 0x2418A49E = .ok (.lda64 12 20 0x93 true 2) ∧
    decode 0x2498A49E = .ok (.ld128a 12 20 0x93 true 2) ∧
    decode 0x2518A49E = .ok (.st8 12 20 0x93 true 2) ∧
    decode 0x2598A49E = .ok (.st16 12 20 0x93 true 2) ∧
    decode 0x2618A49E = .ok (.st32 12 20 0x93 true 2) ∧
    decode 0x2698A49E = .ok (.st64 12 20 0x93 true 2) ∧
    decode 0x2718A49E = .ok (.st128 12 20 0x93 true 2) ∧
    decode 0x2798A49E = .ok (.stl32 12 20 0x93 true 2) ∧
    decode 0x2818A49E = .ok (.stl64 12 20 0x93 true 2) ∧
    decode 0x2898A49E = .ok (.st128a 12 20 0x93 true 2) ∧
    decode 0x2918A49E = .ok (.ldc32 12 20 0x93 true 2) ∧
    decode 0x2998A49E = .ok (.ldc64 12 20 0x93 true 2) := by decide +kernel

/-- Words of class LM, from the layouts of R143 to R152 and the map of R149. -/
theorem test_decode_lm1 :
    decode 0x2A00A49E = .ok (.pfx 20 0x93 true 2) := by decide +kernel

/-- Words of class LA, from the layouts of R143 to R152 and the map of R149. -/
theorem test_decode_la0 :
    decode 0x300C5267 = .ok (.aadd 12 20 38 .die .acqRel) ∧
    decode 0x304C5267 = .ok (.aimin 12 20 38 .die .acqRel) ∧
    decode 0x308C5267 = .ok (.aimax 12 20 38 .die .acqRel) ∧
    decode 0x30CC5267 = .ok (.anmin 12 20 38 .die .acqRel) ∧
    decode 0x310C5267 = .ok (.anmax 12 20 38 .die .acqRel) ∧
    decode 0x314C5267 = .ok (.aand 12 20 38 .die .acqRel) ∧
    decode 0x318C5267 = .ok (.aor 12 20 38 .die .acqRel) ∧
    decode 0x31CC5267 = .ok (.axor 12 20 38 .die .acqRel) ∧
    decode 0x320C5267 = .ok (.axch 12 20 38 .die .acqRel) ∧
    decode 0x324C5267 = .ok (.acas 12 20 38 .die .acqRel) ∧
    decode 0x328C5267 = .ok (.afadd 12 20 38 .die .acqRel) ∧
    decode 0x32CC5267 = .ok (.aaddw 12 20 38 .die .acqRel) ∧
    decode 0x330C5267 = .ok (.axchw 12 20 38 .die .acqRel) ∧
    decode 0x334C5267 = .ok (.acasw 12 20 38 .die .acqRel) ∧
    decode 0x3400526A = .ok (.qadd 20 38 .device .release) ∧
    decode 0x3440526A = .ok (.qimin 20 38 .device .release) ∧
    decode 0x3480526A = .ok (.qimax 20 38 .device .release) ∧
    decode 0x34C0526A = .ok (.qand 20 38 .device .release) ∧
    decode 0x3500526A = .ok (.qor 20 38 .device .release) ∧
    decode 0x3540526A = .ok (.qxor 20 38 .device .release) := by decide +kernel

/-- Words of class LA, from the layouts of R143 to R152 and the map of R149. -/
theorem test_decode_la1 :
    decode 0x3580526A = .ok (.qfadd 20 38 .device .release) ∧
    decode 0x35C0526A = .ok (.qbadd2 20 38 .device .release) ∧
    decode 0x360C526D = .ok (.waita 12 20 38 .system .acquire) := by decide +kernel

/-- Words of class LX, from the layouts of R143 to R152 and the map of R149. -/
theorem test_decode_lx0 :
    decode 0x402651AA = .ok (.mma 9 true 20 6 5 2) ∧
    decode 0x406651AA = .ok (.mmab 9 true 20 6 5 2) ∧
    decode 0x40805001 = .ok (.mcfg 20 1) ∧
    decode 0x40E40005 = .ok (.mzero 9 true 1) ∧
    decode 0x410C5249 = .ok (.mread 12 20 9 .hi 1) ∧
    decode 0x41645265 = .ok (.mwrite 9 20 38 true 1) ∧
    decode 0x41A45265 = .ok (.mdrain 9 20 38 true 1) ∧
    decode 0x41E40001 = .ok (.mwait 9 false 1) ∧
    decode 0x42000003 = .ok (.ofence 3) ∧
    decode 0x42645001 = .ok (.obres 9 20 1) ∧
    decode 0x42A45001 = .ok (.obbind 9 20 1) ∧
    decode 0x42E40001 = .ok (.obrel 9 1) ∧
    decode 0x43005009 = .ok (.cpy 20 true 1) ∧
    decode 0x43405009 = .ok (.cpys 20 true 1) ∧
    decode 0x43805269 = .ok (.fetch 20 38 true 1) ∧
    decode 0x43C05266 = .ok (.tbinit 20 38 true 2) ∧
    decode 0x44005266 = .ok (.tbarr 20 38 true 2) ∧
    decode 0x44405266 = .ok (.tbwait 20 38 true 2) ∧
    decode 0x44855266 = .ok (.tbtest 5 20 38 true 2) ∧
    decode 0x44E45262 = .ok (.sfmax 9 20 38 2) := by decide +kernel

/-- Words of class LX, from the layouts of R143 to R152 and the map of R149. -/
theorem test_decode_lx1 :
    decode 0x45055262 = .ok (.sfmask 5 20 38 2) ∧
    decode 0x45455002 = .ok (.sfclr 5 20 false 2) ∧
    decode 0x45805002 = .ok (.sftopk 20 2) ∧
    decode 0x45C05002 = .ok (.sfhist 20 2) ∧
    decode 0x46005006 = .ok (.sfscan 20 true 2) ∧
    decode 0x46405002 = .ok (.sfperm 20 2) ∧
    decode 0x46800003 = .ok (.sfwait 3) := by decide +kernel

/-- Words of class LC, from the layouts of R143 to R152 and the map of R149. -/
theorem test_decode_lc0 :
    decode 0x500C500D = .ok (.redi 12 20 .and 1) ∧
    decode 0x504D500D = .ok (.redn 13 20 .or 1) ∧
    decode 0x508C5009 = .ok (.redf 12 20 .max 1) ∧
    decode 0x50CC5009 = .ok (.redd 12 20 .max 1) ∧
    decode 0x510C500D = .ok (.scani 12 20 .nmax 1) ∧
    decode 0x514C5005 = .ok (.scanf 12 20 .excl 1) ∧
    decode 0x518C5265 = .ok (.bcast 12 20 (.reg 38) 1) ∧
    decode 0x51CC1409 = .ok (.vote (.ballot 12) 5 1) ∧
    decode 0x520C5261 = .ok (.isect 12 20 38 1) ∧
    decode 0x524C5269 = .ok (.isectb 12 20 38 2 1) ∧
    decode 0x52845269 = .ok (.fcmp 4 20 38 .le 1) ∧
    decode 0x52C45269 = .ok (.dcmp 4 20 38 .le 1) ∧
    decode 0x53045269 = .ok (.hcmp2 4 20 38 .le 1) ∧
    decode 0x534C5009 = .ok (.fclass 12 20 .f16 1) := by decide +kernel

/-- Words of class FR, from the layouts of R143 to R152 and the map of R149. -/
theorem test_decode_fr0 :
    decode 0x800C5009 = .ok (.mov 12 20 true true) ∧
    decode 0x804C5269 = .ok (.iadd 12 20 38 true false true) ∧
    decode 0x808C5269 = .ok (.isub 12 20 38 true false true) ∧
    decode 0x80CC5269 = .ok (.imul 12 20 38 true false true) ∧
    decode 0x810C5269 = .ok (.shl 12 20 38 true false true) ∧
    decode 0x814C5269 = .ok (.shr 12 20 38 true false true) ∧
    decode 0x818C5269 = .ok (.sar 12 20 38 true false true) ∧
    decode 0x81CC5269 = .ok (.and 12 20 38 true false true) ∧
    decode 0x820C5269 = .ok (.or 12 20 38 true false true) ∧
    decode 0x824C5269 = .ok (.xor 12 20 38 true false true) ∧
    decode 0x828C5269 = .ok (.andn 12 20 38 true false true) ∧
    decode 0x82CC5269 = .ok (.imin 12 20 38 true false true) ∧
    decode 0x830C5269 = .ok (.imax 12 20 38 true false true) ∧
    decode 0x834C5269 = .ok (.nmin 12 20 38 true false true) ∧
    decode 0x838C5269 = .ok (.nmax 12 20 38 true false true) ∧
    decode 0x83CC5009 = .ok (.ineg 12 20 true true) ∧
    decode 0x840C5009 = .ok (.iabs 12 20 true true) ∧
    decode 0x844C5269 = .ok (.mkform 12 20 38 true false true) ∧
    decode 0x848C5009 = .ok (.xbase 12 20 true true) ∧
    decode 0x84CC5009 = .ok (.xstride 12 20 true true) := by decide +kernel

/-- Words of class FR, from the layouts of R143 to R152 and the map of R149. -/
theorem test_decode_fr1 :
    decode 0x850C5009 = .ok (.rdfirst 12 20 true true) ∧
    decode 0x854C5009 = .ok (.expand 12 20 true true) := by decide +kernel

/-- Words of class FI, from the layouts of R143 to R152 and the map of R149. -/
theorem test_decode_fi0 :
    decode 0x90314F83 = .ok (.iaddi 12 20 3971) ∧
    decode 0x91314F83 = .ok (.imuli 12 20 3971) ∧
    decode 0x92314005 = .ok (.shli 12 20 5) ∧
    decode 0x93314005 = .ok (.shri 12 20 5) ∧
    decode 0x94314005 = .ok (.sari 12 20 5) ∧
    decode 0x95314F83 = .ok (.andi 12 20 3971) ∧
    decode 0x96314F83 = .ok (.ori 12 20 3971) ∧
    decode 0x97314F83 = .ok (.xori 12 20 3971) ∧
    decode 0x98300F83 = .ok (.movi 12 3971) ∧
    decode 0x99314F83 = .ok (.iaddiw 12 20 3971) := by decide +kernel

/-- Words of class FK, from the layouts of R143 to R152 and the map of R149. -/
theorem test_decode_fk0 :
    decode 0xA0CBEEF0 = .ok (.movl 12 0xBEEF) ∧
    decode 0xA4CBEEF0 = .ok (.movh 12 0xBEEF) ∧
    decode 0xA8CBEEF0 = .ok (.movs 12 0xBEEF) := by decide +kernel

/-- Words of class FC, from the layouts of R143 to R152 and the map of R149. -/
theorem test_decode_fc0 :
    decode 0xB02F5268 = .ok (.icmp 5 20 38 .gt) ∧
    decode 0xB06A5268 = .ok (.icmpa 5 2 20 38 .gt) ∧
    decode 0xB0AA5268 = .ok (.icmpo 5 2 20 38 .gt) ∧
    decode 0xB0EF5268 = .ok (.ncmp 5 20 38 .gt) ∧
    decode 0xB12A5268 = .ok (.ncmpa 5 2 20 38 .gt) ∧
    decode 0xB16A5268 = .ok (.ncmpo 5 2 20 38 .gt) ∧
    decode 0xB1AF52B8 = .ok (.icmpi 5 20 43 .gt) ∧
    decode 0xB1EF52B8 = .ok (.ncmpi 5 20 43 .gt) ∧
    decode 0xB22F5268 = .ok (.icmpw 5 20 38 .gt) ∧
    decode 0xB26F5268 = .ok (.ncmpw 5 20 38 .gt) ∧
    decode 0xB4284C00 = .ok (.pand 5 2 3) ∧
    decode 0xB4684C00 = .ok (.por 5 2 3) ∧
    decode 0xB4A84C00 = .ok (.pxor 5 2 3) ∧
    decode 0xB4E84C00 = .ok (.pandn 5 2 3) ∧
    decode 0xB5284000 = .ok (.pnot 5 2) ∧
    decode 0xB5680008 = .ok (.pset 5 true) ∧
    decode 0xB5A80148 = .ok (.pcut 5 20 true) ∧
    decode 0xB60C5267 = .ok (.sel 12 20 38 3 true) ∧
    decode 0xB64C5267 = .ok (.selw 12 20 38 3 true) ∧
    decode 0xB68C0007 = .ok (.ptoi 12 3 true) := by decide +kernel

/-- Words of class FT, from the layouts of R143 to R152 and the map of R149. -/
theorem test_decode_ft0 :
    decode 0xC0FFFF21 = .ok (.next 0xFFFF21) ∧
    decode 0xC17FFFEB = .ok (.br 3 true 0xFFFEB) ∧
    decode 0xC2500000 = .ok (.brx 20) ∧
    decode 0xC3FFFF21 = .ok (.call 0xFFFF21) ∧
    decode 0xC4500000 = .ok (.callx 20) ∧
    decode 0xC5000000 = .ok (.ret) ∧
    decode 0xC6000000 = .ok (.exit) ∧
    decode 0xC75A0000 = .ok (.trap 0x5A) ∧
    decode 0xC856A500 = .ok (.switch 21 0x2A5) ∧
    decode 0xC9FFFF21 = .ok (.yield 0xFFFF21) := by decide +kernel

/-- Words of class FY, from the layouts of R143 to R152 and the map of R149. -/
theorem test_decode_fy0 :
    decode 0xD00C0046 = .ok (.rds 12 true .argp) ∧
    decode 0xD00D0025 = .ok (.rds 13 false .tcause) ∧
    decode 0xD043000A = .ok (.wrs 3 false .fpctl) ∧
    decode 0xD0800011 = .ok (.fence .device .release) ∧
    decode 0xD0C00009 = .ok (.bar 9) ∧
    decode 0xD1000009 = .ok (.bara 9) ∧
    decode 0xD14DABCD = .ok (.rand 13 0xABCD) ∧
    decode 0xD18C0040 = .ok (.cyc 12 true) ∧
    decode 0xD1C00000 = .ok (.nop) ∧
    decode 0xD20000A7 = .ok (.bkpt 0xA7) ∧
    decode 0xD2400000 = .ok (.eret) ∧
    decode 0xD2A80006 = .ok (.xcht 40 6) ∧
    decode 0xD2CD0014 = .ok (.launch 13 20) ∧
    decode 0xD30D0014 = .ok (.lwait 13 20) ∧
    decode 0xD3400014 = .ok (.icinv 20) ∧
    decode 0xD3400040 = .ok (.icinvAll) ∧
    decode 0xD38D0014 = .ok (.dbgHalt 13 20) ∧
    decode 0xD38D0054 = .ok (.dbgResume 13 20) ∧
    decode 0xD38D0094 = .ok (.dbgStep 13 20) ∧
    decode 0xD38D00D4 = .ok (.dbgSetbp 13 20) := by decide +kernel

/-- Words of class FY, from the layouts of R143 to R152 and the map of R149. -/
theorem test_decode_fy1 :
    decode 0xD38D0114 = .ok (.dbgClrbp 13 20) ∧
    decode 0xD38D0154 = .ok (.dbgSetwp 13 20) ∧
    decode 0xD38D0194 = .ok (.dbgClrwp 13 20) ∧
    decode 0xD38D01D4 = .ok (.dbgRead 13 20) ∧
    decode 0xD38D0214 = .ok (.dbgPost 13 20) ∧
    decode 0xD3C00000 = .ok (.halt) := by decide +kernel

/-- Words of class FH, from the layouts of R143 to R152 and the map of R149. -/
theorem test_decode_fh0 :
    decode 0xE015B6AE = .ok (.segh 0x15 true 27 0x2B .matrix) ∧
    decode 0xE6774A00 = .ok (.runh 19 5 true 0xA5) := by decide +kernel

/-! ### Witnesses: the hypotheses of the statements are met -/

/-- IADD g6, g6, g4 in a sheaf, and in a span, where the sum of two forms is a form. -/
theorem witness_FormRegisterWords :
    let sh := frShape 6 false 6 false (some (4, false)) false false
    let s := word 0x80461840
    let t := span (form 4 0 4 s)
    (Executes s sh (env s) ∧ (env s).members ≠ [] ∧ (env s).grp.span = false) ∧
    Executes t sh (env t) ∧ (env t).members ≠ [] ∧ (env t).grp.span = true ∧
      ((env t).binary false 6 false 4 fun x y => some ((x.1 : Int) + y.1, x.2 + y.2)) = some (0, 4) :=
  ⟨⟨(fits_executes (by decide +kernel)).1, by decide +kernel, by decide +kernel⟩,
    (fits_executes (by decide +kernel)).1, by decide +kernel, by decide +kernel, by decide +kernel⟩

/-- RDFIRST in a sheaf, and in a span whose source is no form. -/
theorem witness_RepresentationWords :
    let s := word 0x85144C00
    let sh : Shape := { dsts := [20], firsts := [19] }
    let t := span (lanes 19 (BitVec.ofNat 32) s)
    (Executes s sh (env s) ∧ (env s).members ≠ [] ∧ (env s).grp.span = false) ∧
    t.env? t.turn = some (env t) ∧ t.hazard (env t) sh = none ∧ (env t).grp.span = true ∧ (env t).form false 19 = none :=
  ⟨⟨(fits_executes (by decide +kernel)).1, by decide +kernel, by decide +kernel⟩,
    fits_acts (by decide +kernel), by decide +kernel, by decide +kernel, by decide +kernel⟩

/-- IADDI and MOVL in a sheaf. -/
theorem witness_ImmediateWords :
    let s := word 0x90101FFF
    let t := word 0xA0612340
    (Executes s { dsts := [4], srcs := [1] } (env s) ∧ (env s).members ≠ []) ∧
    Executes t { dsts := [6] } (env t) ∧ (env t).members ≠ [] :=
  ⟨fits_executes (by decide +kernel), fits_executes (by decide +kernel)⟩

/-- ICMPI in a sheaf, and in a span whose cut exists. -/
theorem witness_Compares :
    let sh : Shape := { srcs := [4], pdsts := [0] }
    let s := word 0xB18710A4
    let t := span (form 4 0 4 s)
    (Executes s sh (env s) ∧ (env s).members ≠ [] ∧ (env s).grp.span = false) ∧
    Executes t sh (env t) ∧ (env t).members ≠ [] ∧ ((env t).compareCut .lt true 32 ((env t).form false 4) (some (10, 0))).isSome :=
  ⟨⟨(fits_executes (by decide +kernel)).1, by decide +kernel, by decide +kernel⟩,
    (fits_executes (by decide +kernel)).1, by decide +kernel, by decide +kernel⟩

/-- PAND p5, p2, p3. -/
theorem witness_PredicateLogic :
    let s := word 0xB4284C00
    Executes s { psrcs := [2, 3], pdsts := [5] } (env s) ∧ (env s).members ≠ [] := fits_executes (by decide +kernel)

/-- SEL g42, g41, g26, p2. -/
theorem witness_Selects :
    let s := word 0xB62AA5A4
    Executes s { dsts := [42], srcs := [41, 26], psrcs := [2] } (env s) ∧ (env s).members ≠ [] :=
  fits_executes (by decide +kernel)

/-- POPC.S1 g28, g16. -/
theorem witness_IntegerLaneWords :
    let s := word 0x009C4001
    Executes s { dsts := [28], srcs := [16], lat := some 2, gap := 2 } (env s) ∧ (env s).members ≠ [] :=
  fits_executes (by decide +kernel)

/-- The greatest 32-bit operands. -/
theorem witness_IntegerLaneWords_operands : (2 ^ 32 - 1 < 2 ^ 32) ∧ 2 ^ 32 - 1 ≠ 0 ∧ 32 - clz 32 (2 ^ 32 - 1) ≤ 32 := by decide +kernel

/-- FADD g4, g1, g2. -/
theorem witness_FloatLaneWords :
    let s := word 0x01C40420
    Executes s { dsts := [4], srcs := [1, 2], lat := some 4, gap := 1 } (env s) ∧ (env s).members ≠ [] :=
  fits_executes (by decide +kernel)

/-- HMUL2.S3 g19, g18, g8. -/
theorem witness_PackedWords :
    let s := word 0x05134882
    Executes s { dsts := [19], srcs := [18, 8], lat := some 4, gap := 4 } (env s) ∧ (env s).members ≠ [] :=
  fits_executes (by decide +kernel)

/-- FEXP2 g4, g1. -/
theorem witness_FunctionAndConversionWords :
    let s := word 0x06840400
    Executes s { dsts := [4], srcs := [1], lat := some 12, gap := 1 } (env s) ∧ (env s).members ≠ [] :=
  fits_executes (by decide +kernel)

/-- REDI.MAX in a sheaf; in a span it expands. -/
theorem witness_ReductionsAndScans :
    let sh := crossShape [27] [28] 6 0
    let s := word 0x501B7008
    let t := span s
    (Executes s sh (env s) ∧ (env s).members ≠ [] ∧ (env s).grp.span = false) ∧
    t.env? t.turn = some (env t) ∧ t.hazard (env t) sh = none ∧ (env t).grp.span = true ∧ (env t).solo = false :=
  ⟨⟨(fits_executes (by decide +kernel)).1, by decide +kernel, by decide +kernel⟩,
    fits_acts (by decide +kernel), by decide +kernel, by decide +kernel, by decide +kernel⟩

/-- The sum of 32 ones. -/
theorem witness_TreeCombines :
    (∀ x y z : Nat, x + y + z = x + (y + z)) ∧ (List.replicate 32 (some 1)).length = 32 ∧
      tree (· + ·) (List.replicate 32 (some 1)) = some 32 := ⟨Nat.add_assoc, by decide, by decide +kernel⟩

/-- VOTE.ALL p3, p2 with sources of a sheaf. -/
theorem witness_BroadcastsAndVotes :
    let s := word 0x51C30800
    Executes s { crossShape [] [] 6 0 with pdsts := [3], psrcs := [2] } (env s) ∧ (env s).members ≠ [] :=
  fits_executes (by decide +kernel)

/-- ISECT v8, g1, g2. -/
theorem witness_Intersections :
    let s := word 0x52080420
    Executes s (crossShape [8, 9, 10, 11] [1, 2] 8 0) (env s) ∧ (env s).members ≠ [] := fits_executes (by decide +kernel)

/-- FCMP.LT p2, g4, g5. -/
theorem witness_FloatComparesAndClasses :
    let s := word 0x52821054
    Executes s { crossShape [] [4, 5] 4 0 with pdsts := [2] } (env s) ∧ (env s).members ≠ [] :=
  fits_executes (by decide +kernel)

/-- A SEGH of any role in a block without a role, no comparator set; one of role 3 in a launch of role 1 traps, and one that
folds waits while a node is open. -/
theorem witness_SegmentHeaders :
    let s := word 0xE0153600
    let t := { s with launches := s.launches.map fun l => { l with record := l.record ||| (1 <<< 468 : BitVec 1024) } }
    let u := groups (fun g => { g with units := g.units.map fun u => { u with path := [⟨9, .lanes, 0⟩] } }) s
    s.env? s.turn = some (env s) ∧ s.cmpMatch (env s) (env s).unit.pc = false ∧ (env s).role = 0 ∧ (env s).unit.path = [] ∧
    (env s).unit.lanes ≠ 0 ∧ 27 < (env s).grp.regs.length ∧ u.env? u.turn = some (env u) ∧ (env u).unit.path ≠ [] ∧
    t.env? t.turn = some (env t) :=
  ⟨fits_acts (by decide +kernel), by decide +kernel, by decide +kernel, by decide +kernel, by decide +kernel,
    by decide +kernel, fits_acts (by decide +kernel), by decide +kernel, fits_acts (by decide +kernel)⟩

/-- A run guarded by p3: in a sheaf with every guard false, and in a span whose guard is a cut below 5. -/
theorem witness_RunEntry :
    let sh : Shape := { psrcs := [3], gap := 0, lat := none }
    let s := word 0xE42C0000
    let t := groups (fun g => { g with preds := g.preds.set 3 ⟨.cut (.below 5), 0⟩ }) (span s)
    s.env? s.turn = some (env s) ∧ s.hazard (env s) sh = none ∧ (env s).grp.span = false ∧
      maskOf ((env s).members.filter fun q => (env s).pval 3 q) = 0 ∧
    t.env? t.turn = some (env t) ∧ t.hazard (env t) sh = none ∧ (env t).grp.span = true ∧ (env t).view.pcut 3 = .below 5 :=
  ⟨fits_acts (by decide +kernel), by decide +kernel, by decide +kernel, by decide +kernel,
    fits_acts (by decide +kernel), by decide +kernel, by decide +kernel, by decide +kernel⟩

/-- A BR in a sheaf, and in a span on a cut. -/
theorem witness_Jumps :
    let sh : Shape := { termShape with psrcs := [3] }
    let s := word 0xC160FFEB
    let t := groups (fun g => { g with preds := g.preds.set 3 ⟨.cut (.below 5), 0⟩ }) (span s)
    (s.env? s.turn = some (env s) ∧ s.hazard (env s) sh = none ∧ (env s).grp.span = false ∧ (env s).members ≠ []) ∧
    t.env? t.turn = some (env t) ∧ t.hazard (env t) sh = none ∧ (env t).grp.span = true ∧ (env t).view.pcut 3 = .below 5 :=
  ⟨⟨fits_acts (by decide +kernel), by decide +kernel, by decide +kernel, by decide +kernel⟩,
    fits_acts (by decide +kernel), by decide +kernel, by decide +kernel, by decide +kernel⟩

/-- A CALL with an empty stack, and one with a full stack of 32 entries; a RET with one entry. -/
theorem witness_CallsAndReturns :
    let s := word 0xC3000004
    let full := groups (fun g => { g with lanes := g.lanes.map fun l => { l with stack := List.replicate 32 0 } }) s
    let r := groups (fun g => { g with lanes := g.lanes.map fun l => { l with stack := [8] } }) (word 0xC5000000)
    (s.env? s.turn = some (env s) ∧ s.hazard (env s) termShape = none ∧
      ∀ q ∈ (env s).members, ((env s).grp.lane q).stack.length ≠ 32) ∧
    (full.env? full.turn = some (env full) ∧ full.hazard (env full) termShape = none ∧
      0 ∈ (env full).members ∧ ((env full).grp.lane 0).stack.length = 32) ∧
    r.env? r.turn = some (env r) ∧ r.hazard (env r) termShape = none ∧
      ∀ q ∈ (env r).members, ((env r).grp.lane q).stack.length ≠ 0 :=
  ⟨⟨fits_acts (by decide +kernel), by decide +kernel, by decide +kernel⟩,
    ⟨fits_acts (by decide +kernel), by decide +kernel, by decide +kernel, by decide +kernel⟩,
    fits_acts (by decide +kernel), by decide +kernel, by decide +kernel⟩

/-- EXIT of a block's threads, ERET in a handler, HALT on a control core. -/
theorem witness_ThreadEnds :
    let s := word 0xC6000000
    let h := word 0xD2400000
    let c := word 0xD3C00000
    (s.env? s.turn = some (env s) ∧ s.hazard (env s) termShape = none ∧ (env s).who = .kern 2 1 0) ∧
    (h.env? h.turn = some (env h) ∧ h.hazard (env h) { termShape with pre := trapOnly (env h) } = none ∧
      (env h).inTrap = true) ∧
    c.env? c.turn = some (env c) ∧ c.hazard (env c) termShape = none ∧ (env c).who = .cc 0 :=
  ⟨⟨fits_acts (by decide +kernel), by decide +kernel, by decide +kernel⟩,
    ⟨fits_acts (by decide +kernel), by decide +kernel, by decide +kernel⟩,
    fits_acts (by decide +kernel), by decide +kernel, by decide +kernel⟩

/-- TRAP 5 of a block's threads. -/
theorem witness_TrapWords :
    let s := word 0xC7050000
    s.env? s.turn = some (env s) ∧ s.hazard (env s) termShape = none ∧ (env s).level ≠ .trap :=
  ⟨fits_acts (by decide +kernel), by decide +kernel, by decide +kernel⟩

/-- RDS ARGP into a pair in a block, RDS TCAUSE in a handler. -/
theorem witness_SpecialRegisterReads :
    let s := word 0xD0000046
    let h := word 0xD0050025
    (Executes s { dsts := [0, 1], lat := some 1 } (env s) ∧ (env s).members ≠ []) ∧
    Executes h { dsts := [5], lat := some 1 } (env h) ∧ (env h).members ≠ [] :=
  ⟨fits_executes (by decide +kernel), fits_executes (by decide +kernel)⟩

/-- WRS FPCTL in a block, WRS CTXD of 0 on a control core, WRS TPC in a handler. -/
theorem witness_SpecialRegisterWrites :
    let s := word 0xD043000A
    let c := word 0xD0430020
    let h := word 0xD0420066
    (Executes s { srcs := [3] } (env s) ∧ (env s).members ≠ [] ∧ (env s).grp.span = false) ∧
    (Executes c { srcs := [3], pre := wrsTrap .ctxd (env c) } (env c) ∧ (env c).val false 3 (env c).first = 0) ∧
    (h.env? h.turn).isSome = true ∧ (env h).inTrap = true :=
  ⟨⟨(fits_executes (by decide +kernel)).1, by decide +kernel, by decide +kernel⟩,
    ⟨(fits_executes (by decide +kernel)).1, by decide +kernel⟩, by decide +kernel, by decide +kernel⟩

/-- FENCE.REL.DEVICE. -/
theorem witness_Fences :
    let s := word 0xD0800011
    Executes s {} (env s) ∧ (env s).members ≠ [] := fits_executes (by decide +kernel)

/-- BAR 9 of a block whose threads have no access under way. -/
theorem witness_BlockBarriers :
    let s := word 0xD0C00009
    Executes s {} (env s) ∧ (env s).members ≠ [] ∧ (env s).solo = false ∧ s.unreleased (env s) = false ∧
      (s.block? (env s).bid).isSome = true :=
  ⟨(fits_executes (by decide +kernel)).1, by decide +kernel, by decide +kernel, by decide +kernel, by decide +kernel⟩

/-- RAND g13 and CYC w12 in a launch that is not redundant, no atomic under way. -/
theorem witness_RandomAndCycleWords :
    let s := word 0xD14DABCD
    let c := word 0xD18C0040
    (Executes s { dsts := [13] } (env s) ∧ (env s).members ≠ []) ∧
    Executes c { dsts := [12, 13] } (env c) ∧ (∀ l ∈ (env c).launch, l.redundant = false) ∧
      ∀ p ∈ (env c).members, c.atomPending (env c).bid ((env c).idx p) c.tick = false :=
  ⟨fits_executes (by decide +kernel), (fits_executes (by decide +kernel)).1, by decide +kernel, by decide +kernel⟩

/-- NOP, BKPT without a debugger, ICINV.ALL on a control core. -/
theorem witness_NopBreakpointAndCodeDrops :
    let s := word 0xD1C00000
    let b := word 0xD2000007
    let c := word 0xD3400040
    (Executes s {} (env s) ∧ (env s).members ≠ []) ∧
    (b.env? b.turn = some (env b) ∧ b.hazard (env b) {} = none ∧ b.attached (env b).ctx = false) ∧
    Executes c { pre := privWord (env c) } (env c) ∧ (env c).members ≠ [] :=
  ⟨fits_executes (by decide +kernel), ⟨fits_acts (by decide +kernel), by decide +kernel, by decide +kernel⟩,
    fits_executes (by decide +kernel)⟩

/-- XCHT g40, t6 in the handler of a sheaf. -/
theorem witness_Exchanges :
    let s := word 0xD2A80006
    Executes s { dsts := [6], pre := trapOnly (env s) } (env s) ∧ (env s).grp.span = false ∧ (env s).inTrap = true ∧
      40 < ((env s).launch.map Launch.g).getD 0 ∧
      ((s.block? (env s).bid).map fun b => (b.served 4).length) = some 1 :=
  ⟨(fits_executes (by decide +kernel)).1, by decide +kernel, by decide +kernel, by decide +kernel, by decide +kernel⟩

/-- A state with an instruction's word as the next to issue. -/
def at' (i : Instr) : State := word (BitVec.ofNat 32 ((encodeNat i).getD 0))

/-- The elements of an access that passes its checks. -/
def els (k : Checked) : List Elem := match k with
  | .ok _ l => l
  | _ => []

/-- The state after an access's checks. -/
def checked (s : State) (k : Checked) : State := match k with
  | .ok t _ => t
  | _ => s

/-- An access passes its checks. -/
def passes (k : Checked) : Bool := match k with
  | .ok _ _ => true
  | _ => false

theorem passes_ok {s : State} {k : Checked} (h : passes k = true) : k = .ok (checked s k) (els k) := by
  cases k with
  | ok t l => rfl
  | bad b => simp [passes] at h

/-- Change the first launch. -/
def onLaunch1 (f : Launch → Launch) (s : State) : State := { s with launches := s.launches.map f }

/-- Change the first block. -/
def onBlock1 (f : Block → Block) (s : State) : State := { s with blocks := s.blocks.map f }

/-- The first block. -/
def block1 (s : State) : Block := s.blocks.head?.getD (Block.placed 0 0 (Grp.root 0 0 1 0 0))

/-- The first launch. -/
def launch1 (s : State) : Launch := s.launches.head?.getD (Launch.plain 0)

/-- Entries that are invalid, that point to a table, that are leaves of each level with and without a fault; a leaf's memory
that is the partition's and one that is not; a context with nothing kept. -/
theorem witness_AccessChecks_walk :
    let s := at' .nop
    let c := Ctx.plain
    let e := 2 ^ 16 + 0x4D
    (2 ^ 16 % 2 = 0) ∧ ((2 ^ 16 + 3) % 2 = 1 ∧ (2 ^ 16 + 3) / 2 ^ 52 % 2 ^ 12 = 0 ∧ (2 ^ 16 + 3) / 2 % 2 = 1) ∧
    (e % 2 = 1 ∧ e / 2 ^ 52 % 2 ^ 12 = 0 ∧ e / 2 % 2 = 0) ∧ ((2 ^ 52 + 1) % 2 = 1 ∧ (2 ^ 52 + 1) / 2 ^ 52 % 2 ^ 12 ≠ 0) ∧
    ((upto 64 8).all (s.paOk 0)) = true ∧ s.paOk 0 (regsBase + 0x60000) = false ∧
    s.tlb = [] ∧ runOthers s c.part 0 (walk s c.part c.ptroot 0).1 = [] := by decide +kernel

/-- An aligned access at the end of the scratchpad passes; the next address is outside it, one within is misaligned; a write of
an unclaimed line in a launch of deterministic mode is an ownership fault. -/
theorem witness_AccessChecks :
    let s := at' (.st32 4 2 0 false 0)
    let d := onLaunch1 (fun l => { l with mode := .deterministic, record := l.record ||| (1 <<< 384 : BitVec 1024) }) s
    let a : Ask := ⟨4, 4, true, .write, 1⟩
    let va (n : Nat) (_ : Nat) : Nat := 0xFFFFF00000000000 + n
    passes (s.checks (env s) a [0, 1] (va 1020)) = true ∧
    [0, 1].filter (fun p => va 1022 p % a.align ≠ 0) = [0, 1] ∧
    [0, 1].filter (fun p => va 1024 p % a.align ≠ 0) = [] ∧
    [0, 1].filter (fun p => !addrOk (env s).spadLen (env s).privLen (va 1024 p) a.n a.write) = [0, 1] ∧
    (∀ p ∈ [0, 1], (fun _ => 64) p % a.align = 0 ∧ addrOk (env d).spadLen (env d).privLen 64 a.n a.write = true) ∧
    (env d).launch = some (launch1 d) ∧
    [0, 1].filter (fun _ => vwin 64 == .global && (launch1 d).ownFault (env d).num 64) = [0, 1] := by decide +kernel

/-- Elements in the scratchpad, in a private window and in physical memory; caches and points with and without the byte. -/
theorem witness_LoadedBytes :
    let s := at' (.ld32 4 2 0 false 0)
    let y : Elem := ⟨0, 0, .pa 64, false⟩
    s.overlays (env s) y = [] ∧ (env s).sharedAt y = false ∧ isFabric (64 + 3) = false ∧
      s.block? (env s).bid = some (block1 s) ∧
    pointByte [⟨2, 0, 64, 64, [7], org, []⟩] 64 = some 7 ∧ pointByte (s.core 0).point 64 = none ∧
      lineByte [⟨1, List.replicate 64 9, []⟩] 64 = some 9 ∧ lineByte (s.core 0).lcache 64 = none ∧
      pointByte (s.die 0).point 64 = none := by decide +kernel

/-- LD32, LD64, LD128 and LDC32 of the scratchpad in a sheaf, LD32 in a span; a misaligned one and one outside. -/
theorem witness_Loads :
    let sh (n : Nat) : Shape := { dsts := upto 4 n, srcs := [2, 3], lat := none }
    let good (s : State) (n z : Nat) (spans one : Bool) : Bool :=
      let x := (s.prepare (env s) (sh n)).2
      let a := (s.prepare (env s) (sh n)).1.checks x ⟨z, z, false, .read, 0⟩ x.members fun p => wrap 64 (x.val true 2 p : Int)
      let t := checked s a
      let mine := if one then (els a).take 1 else els a
      fits s (sh n) && passes a && !t.parks x mine z && x.unit.half == none && x.grp.span == spans &&
      (x.whole && x.uniform true 2 && !t.ownView x (els a)) &&
      (els a).all (fun y => !t.loadWaits x y z && !x.sharedAt y && !x.queuedOn y z && !t.badElem x y z false) &&
      t.askFabric x z mine == (t, false) && !((x.launch.map Launch.redundant).getD false)
    let stops (s : State) (c : Nat) : Bool :=
      let x := (s.prepare (env s) (sh 1)).2
      fits s (sh 1) && match (s.prepare (env s) (sh 1)).1.checks x ⟨4, 4, false, .read, 0⟩ x.members
        (fun p => wrap 64 (x.val true 2 p : Int)) with
      | .bad (.trap k _ _) => k == c
      | _ => false
    let s (i : Instr) : State := spad 2 16 (at' i)
    good (s (.ld32 4 2 0 false 0)) 1 4 false false = true ∧ good (s (.ld64 4 2 0 false 0)) 2 8 false false = true ∧
    good (s (.ld128 4 2 0 false 0)) 4 16 false false = true ∧ good (s (.ldc32 4 2 0 false 0)) 1 4 false true = true ∧
    good (span (s (.ld32 4 2 0 false 0))) 1 4 true false = true ∧ good (span (s (.ldc32 4 2 0 false 0))) 1 4 true true = true ∧
    stops (spad 2 18 (at' (.ld32 4 2 0 false 0))) 7 = true ∧ stops (spad 2 1024 (at' (.ld32 4 2 0 false 0))) 8 = true := by
  decide +kernel

/-- ST32 and ST128 of the scratchpad in a sheaf, ST32 of uniform operands in a span; one of a private address expands; PFX. -/
theorem witness_Stores :
    let sh (n : Nat) : Shape := { srcs := [2, 3] ++ upto 4 n, lat := none }
    let good (s : State) (n z : Nat) (spans : Bool) : Bool :=
      let x := (s.prepare (env s) (sh n)).2
      let a := (s.prepare (env s) (sh n)).1.checks x ⟨z, z, true, .write, 1⟩ x.members fun p => wrap 64 (x.val true 2 p : Int)
      fits s (sh n) && passes a && !(checked s a).parks x (els a) z && x.grp.span == spans &&
      (x.form true 2).isSome && (x.form false 4).isSome && (els a).all fun y => !x.stagesAt y.va
    let p := span (regs [(2, 0), (3, 0xFFFFE000)] (at' (.st32 4 2 0 false 0)))
    good (spad 2 16 (at' (.st32 4 2 0 false 0))) 1 4 false = true ∧
    good (spad 2 16 (at' (.st128 4 2 0 false 0))) 4 16 false = true ∧
    good (span (spad 2 16 (at' (.st32 4 2 0 false 0)))) 1 4 true = true ∧
    ((p.env? p.turn).isSome && (p.hazard (env p) (sh 1)).isNone && (env p).grp.span && !(env p).solo &&
      vwin ((env p).val true 2 0) == .priv 0) = true ∧
    fits (at' (.pfx 2 0 false 0)) { srcs := [2, 3], lat := none } = true := by decide +kernel

/-- AADD g4, w2, g6 at offset 16. -/
def aadd : State := spad 2 16 (regs [(6, 1)] (at' (.aadd 4 2 6 .block .relaxed)))

/-- AADD and QADD in a sheaf; in a span AADD expands. -/
theorem witness_AtomicWords :
    let sh : Shape := { dsts := [4], srcs := [2, 3, 6], lat := none }
    let qs : Shape := { srcs := [2, 3, 6], lat := none }
    let q := spad 2 16 (at' (.qadd 2 6 .block .relaxed))
    let good (s : State) (sh : Shape) (acc : Nat) : Bool :=
      let x := (s.prepare (env s) sh).2
      let a := (s.prepare (env s) sh).1.checks x ⟨4, 4, true, .readWrite, acc⟩ x.members (x.val true 2)
      fits s sh && passes a && !(checked s a).parks x (els a) 4 && !x.grp.span
    good aadd sh 2 = true ∧ good q qs 3 = true ∧
    ((span aadd).env? (span aadd).turn).isSome = true ∧ (span aadd).hazard (env (span aadd)) sh = none ∧
      (env (span aadd)).grp.span = true ∧ (env (span aadd)).solo = false := by decide +kernel

/-- Of the 32 atomics of one AADD on one word the first may be performed and the others wait for it. -/
theorem witness_AtomicsPerform :
    let s := ran aadd
    s.atoms.map s.atomReady = true :: List.replicate 31 false ∧ (s.atoms.all fun p =>
      s.atoms.find? (·.aid == p.aid) == some p && p.loc == .spad 16 && p.order == .relaxed &&
      p.scope == .block && !s.homeBad p.bid p.loc (laWidth p.op) &&
      s.block? p.bid == some (block1 s) && s.launch? (block1 s).lid == some (launch1 s) && !(launch1 s).staged) = true ∧
    2 ^ 32 - 1 < 2 ^ 32 := by decide +kernel

/-- WAITA of a word of the scratchpad that equals b sleeps; one that differs completes. -/
theorem witness_AddressWaits :
    let sh : Shape := { dsts := [4], srcs := [2, 3, 6], lat := none }
    let good (s : State) (eq : Bool) : Bool :=
      let x := (s.prepare (env s) sh).2
      let a := (s.prepare (env s) sh).1.checks x ⟨4, 4, false, .read, 4⟩ x.members (x.val true 2)
      let t := checked s a
      let u := t.readAll x 4 false (els a)
      fits s sh && passes a && !t.parks x (els a) 4 && !x.grp.span &&
      (els a).all (fun y => !t.loadWaits x y 4 && !x.sharedAt y && !t.badElem x y 4 false) &&
      t.askFabric x 4 (els a) == (t, false) &&
      x.members.all fun p => ((look u.2 p (0, 0)).1.toNat % 2 ^ 32 == x.val false 6 p) == eq
    let i : Instr := .waita 4 2 6 .block .relaxed
    let r := ran (spad 2 16 (at' i))
    good (spad 2 16 (at' i)) true = true ∧ good (spad 2 16 (regs [(6, 1)] (at' i))) false = true ∧
    (match (unit r).stat with
      | .waita d cmp ms =>
        let e := (r.env? r.turn).getD idle
        (r.env? r.turn).isSome && d == 4 && !e.solo &&
          ((r.waitaRead e (waitaMode e.unit).2 (waitaMode e.unit).1 cmp ms).2.any fun m => !m.fin)
      | _ => false) = true := by decide +kernel

/-- The entry of ST32 leaves its queue; a fence's release step; stores at a core point and a die point, one behind another. -/
theorem witness_StoresMove :
    let s := ran (spad 2 16 (at' (.st32 4 2 0 false 0)))
    let f := ran (at' (.fence .device .release))
    let one : PtStore := ⟨2, 0, 64, 64, [1], org, []⟩
    let k : Core := { s.core 0 with point := [one, one], lcache := [⟨1, List.replicate 64 0, []⟩], fcache := [⟨1, List.replicate 64 0, []⟩] }
    let c := s.setCore k
    let d := s.onDie 0 fun d => { d with point := [one, one] }
    ((s.stq? s.turn).any fun x => match x.g.stq with
      | h :: _ => h.kind == .store && !x.staged && h.elems.length == 1 && h.elems.all fun y => !s.atomHolds x h y
      | _ => false) = true ∧
    ((f.stq? f.turn).any fun x => match x.g.stq with
      | h :: _ => h.kind == .fence .device false && !x.redundant && f.releaseReady x h && f.acked x h .device
      | _ => false) = true ∧
    (c.core 0).point[0]? = some one ∧ (c.core 0).point[1]? = some one ∧ (c.core 0).lcache.length = 1 ∧
      (c.core 0).fcache.length = 1 ∧ (d.die 0).point[0]? = some one ∧ (d.die 0).point[1]? = some one ∧
      answersOnly 64 = false := by decide +kernel

/-- A request at a home's queue: a quiet sum at the scratchpad, an add-on-store of one element. -/
theorem witness_ReductionsPerform :
    let y : SqElem := ⟨0, 0xFFFFF00000000010, .spad 16, [1, 0, 0, 0], false, 0⟩
    let z : SqElem := ⟨0, 0xFFFFF00000000020, .spad 32, [1, 0, 0, 0, 0], false, 0⟩
    let h : HomeReq := ⟨50, 2, 0, ⟨.red 16 none, [y, { y with loc := .spad 20 }], 0, org, [], []⟩⟩
    let k : HomeReq := ⟨51, 2, 0, ⟨.addon true 0, [z], 1, org, [], []⟩⟩
    let s := { at' .nop with homeq := [h, k] }
    s.homeq.find? (·.hid == 50) = some h ∧ h.entry.elems[0]? = some y ∧ s.homeBlocked h [y] = false ∧
    s.homeq.find? (·.hid == 51) = some k ∧ s.homeBlocked k k.entry.elems = false ∧ s.stillQueued 2 k.entry.pos = false ∧
    s.matrixBefore k 0 = false ∧ s.block? (block1 s).bid = some (block1 s) ∧ y.bytes.length = 4 := by decide +kernel

/-- TBINIT g2, g4 with count 1, and count 0, which traps; TBARR; TBWAIT at phase 0, done for 15 and not for 0; TBTEST. -/
theorem witness_TransactionBarriers :
    let sh (out : List Nat) : Shape := { firsts := [2, 4], pdsts := out, lat := none }
    let ini (n : W32) : State := regs [(2, 16), (4, n)] (at' (.tbinit 2 4 false 0))
    let arr := regs [(2, 16), (4, 5)] (at' (.tbarr 2 4 false 0))
    let s (i : Instr) (q : W32) : State := onBlock1 (fun b => b.tbInit 16 1 false) (regs [(2, 16), (4, q)] (at' i))
    let w := s (.tbwait 2 4 false 0)
    let t := s (.tbtest 1 2 4 false 0) 15
    let good (s : State) (sh : Shape) : Bool := fits s sh &&
      let x := (s.prepare (env s) sh).2
      x.val false 2 x.first % 16 == 0 && x.val false 2 x.first + 16 ≤ x.spadLen &&
      x.members.all (fun p => !x.grp.arriving (x.idx p) (.spad 16) 16 &&
        !x.grp.waiting (x.idx p) s.tick (·.on (x.idx p) (.spad 16) 16) && !s.homeOn x.bid (x.idx p) (.spad 16) 16) &&
      s.block? x.bid == some (block1 s)
    good (ini 1) (sh []) = true ∧ good (ini 0) (sh []) = true ∧ good arr (sh []) = true ∧ good (w 15) (sh []) = true ∧
    good (w 0) (sh []) = true ∧ good t (sh [1]) = true ∧
    bit ((block1 (w 15)).tb 16) 29 = false ∧ tbDone ((block1 (w 15)).tb 16) 15 false = true ∧
    tbDone ((block1 (w 15)).tb 16) 0 false = false ∧
    (let x := tbFresh 2 true
     x < 2 ^ 128 ∧ bit x 29 = false ∧ bits x 127 84 = 0 ∧ bits x 31 30 = 0 ∧ bits x 7 4 = 0 ∧ 2 ≤ bits x 27 8) := by
  decide +kernel

/-- A launch with 64 units of operand buffer. -/
def roomy (s : State) : State := onLaunch1 (fun l => { l with record := l.record + (63 <<< 608 : BitVec 1024) }) s

/-- The record of a reservation of 32 units of I8, without scales and without a handle. -/
def resvImage : Nat := 7 * 2 ^ 32 + 31 * 2 ^ 16

/-- Matrix words in a sheaf: MMA of I8 rows at 0, MCFG of I8 and of a reserved value, MREAD, MDRAIN of a K40 tile to the
scratchpad, MWAIT and OFENCE with nothing issued. -/
theorem witness_MatrixWords :
    let parts (f : Part → Part) (s : State) : State := onBlock1 (fun b => { b with parts := b.parts.map f }) s
    let mma := parts (fun p => { p with mcfg := 7, resv := p.resv.set 0 (some ⟨BitVec.ofNat 256 resvImage, true, none, []⟩) })
      (roomy (at' (.mma 0 false 2 0 7 0)))
    let cfg (v : W32) : State := regs [(2, v)] (at' (.mcfg 2 0))
    let drain := spad 2 128 (regs [(4, 0x0B000000)] (parts (fun p => { p with tiles := [⟨some true, false, none, []⟩] })
      (at' (.mdrain 0 2 4 false 0))))
    (let x := (mma.prepare (env mma) { srcs := [2], lat := none }).2
     let c := rrecOf (BitVec.ofNat 256 resvImage)
     let g := alongOf (cfgPack 7) c.pack 0
     fits mma { srcs := [2], lat := none } = true ∧ x.grp.span = false ∧ (mma.myPart x).mcfg = 7 ∧ cfgOk 7 = true ∧
     ((mma.myPart x).res 0).map (·.record) = some (BitVec.ofNat 256 resvImage) ∧ (cfgPack 7).float = c.pack.float ∧
     g.k0 + g.k ≤ c.kr ∧ rowBad x.spadLen 7 c g false 0 0 = none ∧ mma.block? x.bid = some (block1 mma)) ∧
    fits (cfg 7) { firsts := [2], lat := none } = true ∧ cfgOk 12 = false ∧ fits (cfg 12) { firsts := [2], lat := none } = true ∧
    fits (at' (.mzero 0 true 0)) { lat := none } = true ∧
    fits (at' (.mread 4 2 0 .lo 0)) { srcs := [2], dsts := [4], lat := none } = true ∧
    fits (at' (.mwrite 0 2 4 true 0)) { srcs := [2, 4], lat := none } = true ∧
    fits (at' (.mwait 0 false 0)) { lat := none } = true ∧ fits (at' (.ofence 0)) { lat := none } = true ∧
    (let x := (drain.prepare (env drain) { srcs := [2, 3], firsts := [4], lat := none }).2
     fits drain { srcs := [2, 3], firsts := [4], lat := none } = true ∧ x.grp.span = false ∧
     ((drain.myPart x).tile 0).tag = some true ∧ drainOk (x.val false 4 x.first) true false = true ∧
     x.val true 2 0 % 8 = 0 ∧ addrOk x.spadLen 0 (x.val true 2 0) (drainBytes (x.val false 4 x.first)) true = true) := by
  decide +kernel

/-- A matrix word alone on its tile, and behind another; an element at each end of the 40-bit range. -/
theorem witness_MatrixPerforms :
    let m (mask : Nat) : EKind := .matrix ⟨false, 0, 0, BitVec.ofNat 256 resvImage, mask, true, 0, [(0, 0)], 7, 2⟩
    let q (rid mask : Nat) : EReq := ⟨rid, 0, [0], true, 0, 0, 0, 0, m mask, [], [], false, none, [], false⟩
    let s := onBlock1 (fun b => { b with eng := [q 60 7, q 61 0] }) (at' .nop)
    ((s.eng? 2 60).any fun x => x.r == q 60 7 && x.b.eng.all fun r => !(decide (r.rid < 60))) = true ∧
    ((s.eng? 2 61).any fun x => x.r == q 61 0 && x.b.eng.any fun r => decide (r.rid < 61) && !r.fin && r.part == x.r.part) = true ∧
    2 ^ 40 - 1 < 2 ^ 40 := by decide +kernel

/-- Page tables at 0 that map the handle table onto the first 512 MB, and handle 16: two I8 elements of the scratchpad. -/
def handles (s : State) : State :=
  let h := 7 * 2 ^ 424 + 2 ^ 434 + 2 * 2 ^ 384 + 2 ^ 392 + 2 ^ 400 + 2 ^ 408 + 2 ^ 416 + 2 * 2 ^ 64 + 0xFFFFF00000000200
  { s with mem := Memory.setNat (Memory.setNat (Memory.setNat (Memory.setNat [] 24 8 0x10003) 1024 64 h) (0x10000 + 8 * 8180) 8 0x20003) 0x20000 8 5 }

/-- A record of 32 bytes at the start of the scratchpad, whose offset is g2. -/
def image (x : Nat) (s : State) : State := handles (onBlock1 (fun b => { b with spad := b.spad.setNat 0 32 x }) (roomy s))

/-- The state an instruction leaves. -/
def after (i : Instr) (s : State) : State := match exec i s with
  | .next t => t
  | _ => s

/-- OBRES without a handle and with handle 16, OBBIND, OBREL, CPY of handle 16, its source read and its sector written. -/
theorem witness_ReservationsAndCopies :
    let sh : Shape := { firsts := [2], lat := none }
    let free := image resvImage (at' (.obres 0 2 0))
    let bound := resvImage + 2 ^ 111 + 16 * 2 ^ 112
    let binds := image bound (at' (.obres 0 2 0))
    let rebinds := image resvImage (onBlock1 (fun b => { b with parts := b.parts.map fun p =>
      { p with resv := p.resv.set 0 (some ⟨BitVec.ofNat 256 resvImage, true, none, []⟩) } }) (at' (.obbind 0 2 0)))
    let d := 16 * 2 ^ 112 + 16 * 2 ^ 64 + 0xFFFFFFFF * 2 ^ 32 + 64
    let cpy := image d (at' (.cpy 2 false 0))
    let readable (s : State) : Bool := fits s sh &&
      let x := (s.prepare (env s) sh).2
      s.block? x.bid == some (block1 s) && !(block1 s).absentAt 0 32 && x.members.all fun p => !s.loadWaits x ⟨p, 0, .spad 0, false⟩ 32
    let entry (s : State) (f : Handle → Bool) : Bool := match s.handleAt (env s) 16 with
      | .entry _ h => f h
      | _ => false
    readable free = true ∧ resvOk (BitVec.ofNat 256 resvImage) ((env free).ofLaunch Launch.obuf) [] = true ∧
    (rrecOf (BitVec.ofNat 256 resvImage)).bound = false ∧
    readable binds = true ∧ resvOk (BitVec.ofNat 256 bound) ((env binds).ofLaunch Launch.obuf) [] = true ∧
    (entry binds fun h => bindOk h (rrecOf (BitVec.ofNat 256 bound)) && !h.peer && h.coordOk [0, 0, 0, 0, 0] &&
      rangeOut 1024 false (((h.rows [0, 0, 0, 0, 0]).take 32).flatMap h.ranges) == none) = true ∧
    readable rebinds = true ∧ fits (at' (.obrel 0 0)) { lat := none } = true ∧
    readable cpy = true ∧ (cdescOf d).bar = none ∧ (entry cpy fun h => !(cdescOf d).bad .cpy h false && h.coordOk (cdescOf d).coords &&
      ((cdescOf d).rows .cpy (env cpy) h fun _ => 0).all fun r => (cdescOf d).rowOut .cpy (env cpy) h r == none) = true ∧
    (let t := ran cpy
     let r := nth (block1 t).eng 0 ⟨0, 0, [], false, 0, 0, 0, 0, .sift (.clr 0 0 true), [], [], false, none, [], false⟩
     let u := after (.copySourceRead 2 r.rid 0 0 32) t
     ((t.eng? 2 r.rid).any fun x => x.l.mode == .normal && wanted x.r.kind.secs 0 0 32 != [] &&
        match t.readSrcs x ((wanted x.r.kind.secs 0 0 32).map fun w => w.2.2.src) with
        | .vals _ vs => vs.length == (wanted x.r.kind.secs 0 0 32).length
        | _ => false) = true ∧
     ((u.eng? 2 r.rid).any fun x => match x.r.kind.secs[0]? with
        | some c => !c.fin && c.moves.all (fun m => m.val.isSome) && x.b.full.isNone && !waitsForRow x.r.kind.secs c
        | none => false) = true) := by decide +kernel

/-- A launch whose scratchpad has 16 KB. -/
def deep (s : State) : State := onLaunch1 (fun l => { l with record := l.record + (15360 <<< 512 : BitVec 1024) }) s

/-- SIFT words in a sheaf: over a table at 0, a bad control value, the descriptors, a request by itself and one behind another. -/
theorem witness_SiftWords :
    let sh (l : List Nat) : Shape := { firsts := l, lat := none }
    let fit (l : List (Nat × Nat)) (n : Nat) : Bool := l.all fun y => y.1 % 4 == 0 && (y.2 == 0 || y.1 + y.2 ≤ n)
    let desc (x : Nat) (i : Instr) : State := onBlock1 (fun b => { b with spad := b.spad.setNat 0 32 x }) (at' i)
    let topk := 2 ^ 192 + 2 ^ 176 + 64 * 2 ^ 128 + 128 * 2 ^ 96 + 192 * 2 ^ 64 + 0xFFFFFFFF * 2 ^ 32 + 256
    let hist := 2 * 2 ^ 144 + 4 * 2 ^ 64 + 128 * 2 ^ 32 + 64
    let scan := 4 * 2 ^ 64 + 128 * 2 ^ 32 + 64
    let perm := 256 * 2 ^ 160 + 2 * 2 ^ 144 + 4 * 2 ^ 64 + 128 * 2 ^ 32 + 64
    let q (rid : Nat) : EReq := ⟨rid, 0, [0], true, 0, 0, 0, 0, .sift (.scan 0 true), [], [], false, none, [], false⟩
    let e := onBlock1 (fun b => { b with eng := [q 60, q 61] }) (at' .nop)
    fits (deep (at' (.sfclr 1 2 false 0))) (sh [2]) = true ∧ (env (deep (at' (.sfclr 1 2 false 0)))).spadLen = 16384 ∧
    fits (deep (regs [(4, 0x00010100)] (at' (.sfmax 0 2 4 0)))) (sh [2, 4]) = true ∧ maxCtl 0x00010100 = some (1, 1, 0) ∧
    fits (deep (at' (.sfmax 0 2 4 0))) (sh [2, 4]) = true ∧ maxCtl 0 = none ∧
    fits (deep (at' (.sfmask 1 2 4 0))) (sh [2, 4]) = true ∧
    fits (desc topk (.sftopk 2 0)) (sh [2]) = true ∧ (topkOf topk).ok = true ∧
      fit ((topkOf topk).ins ++ (topkOf topk).outs) 1024 = true ∧
    fits (desc hist (.sfhist 2 0)) (sh [2]) = true ∧ (siftDescOf hist).ok = true ∧ (siftDescOf hist).nb = 2 ∧
    fits (desc scan (.sfscan 2 true 0)) (sh [2]) = true ∧ (siftDescOf scan).ok = true ∧ (siftDescOf scan).n = 4 ∧
    fits (desc perm (.sfperm 2 0)) (sh [2]) = true ∧ (siftDescOf perm).ok = true ∧ (siftDescOf perm).out2 = 256 ∧
    fits (at' (.sfwait 0)) (sh []) = true ∧
    ((e.eng? 2 60).any fun x => x.r == q 60 && x.b.eng.all fun r => !(decide (r.rid < 60))) = true ∧
    ((e.eng? 2 61).any fun x => x.b.eng.any fun r => decide (r.rid < 61) && r.isSift && !r.fin) = true := by decide +kernel

/-- The first 512 MB mapped onto themselves for reading and writing, the next 512 MB onto the first for execution; a segment
at 0x3000, found by the scan; a region control block at 0x2000. -/
def mapped (s : State) : State :=
  let m := [(0, 0x10003), (0x10000, 0x20003), (0x20000, 0x0D), (0x20008, 0x11), (0x3000, 0xE43C0000E0033600),
    (0x3008, 0xC6000000D1C00000)].foldl (fun (m : Memory) x => m.setNat x.1 8 x.2) []
  { s with mem := m, dies := s.dies.map fun d => { d with scan := [⟨3, [0], none⟩] } }

/-- A control core's word whose pair w6 holds an address. -/
def atCc (i : Instr) (a : W32) : State := mapped (regs [(6, a)] (at' i))

/-- DBG at a misaligned block, and at a mapped one. -/
theorem witness_DebugWords :
    let sh : Shape := { dsts := [5], srcs := [6, 7], lat := none }
    let s := atCc (.dbgHalt 5 6) 0x1000
    let x := (s.prepare (env s) sh).2
    let lo := s.checks x ⟨32, 1, false, .read, 0⟩ [x.first] fun _ => 0x1000
    let hi := (checked s lo).checks x ⟨32, 1, false, .read, 0⟩ [x.first] fun _ => 0x1020
    fits (atCc (.dbgHalt 5 6) 8) sh = true ∧ fits s sh = true ∧ x.ctx = some Ctx.plain ∧ x.unit.asked = false ∧
    passes lo = true ∧ passes hi = true ∧ ((checked s hi).askFabric x 32 (els lo ++ els hi)).2 = false := by decide +kernel

/-- The command block of zeros that DBG reads there, in a context without a debugger; commands for one that has one. -/
theorem witness_DebugWords_commands :
    let s := atCc (.dbgHalt 5 6) 0x1000
    let c : Ctx := { Ctx.plain with mbox := 0x4000 }
    let y : DbgCmd := ⟨0, 0, 0, 0, 0, 1, 0, 0, 64, 4, 0, 0⟩
    (match s.dbgDo Ctx.plain .halt (DbgCmd.of 0) with
      | .status _ n => n == 7
      | _ => false) = true ∧
    { s with mem := Memory.setNat s.mem 0x4000 8 1 }.attached (some c) = true ∧
    { y with len := 0 }.clean .setbp = true ∧ y.clean .setwp = true ∧ { y with addr := 0, len := 0 }.clean .clrbp = true ∧
    { y with rsv := 1 }.clean .halt = false ∧ watchOk 64 4 = true ∧ watchOk 64 0 = false := by decide +kernel

/-- The record of a launch of one block of 32 threads whose code is at 0x20003000 and whose region control block is at 0x2000. -/
def launchImage : BitVec 1024 := (Launch.plain 0).record ||| BitVec.ofNat 1024 (0x20003000 + 0x2000 * 2 ^ 192)

/-- LAUNCH of a misaligned record and of one at 0x1000; LWAIT of no sequence number, of an ended launch and of a running one. -/
theorem witness_LaunchWords :
    let sh : Shape := { dsts := [5], srcs := [6, 7], lat := none }
    let s := atCc (.launch 5 6) 0x1000
    let x := (s.prepare (env s) sh).2
    let k := (s.flush x.core .device).checks x ⟨128, 1, false, .read, 0⟩ [x.first] fun _ => 0x1000
    let w (st : LSt) : State :=
      let s := atCc (.lwait 5 6) 1
      { s with launches := [{ Launch.plain 9 with st := st }], ccs := s.ccs.map fun c => { c with lseq := 1 } }
    fits (atCc (.launch 5 6) 8) sh = true ∧ fits s sh = true ∧ x.ctx = some Ctx.plain ∧ s.unreleased x = false ∧ passes k = true ∧
    fits (atCc (.lwait 5 6) 0) sh = true ∧
    fits (w .done) sh = true ∧ fits (w .running) sh = true ∧
    ((w .done).launches.find? fun l => l.cc == 0 && l.lseq == 1).isSome = true := by decide +kernel

/-- The record of the LAUNCH at 0x1000 is read without the fabric. -/
theorem witness_LaunchWords_read :
    let sh : Shape := { dsts := [5], srcs := [6, 7], lat := none }
    let s := atCc (.launch 5 6) 0x1000
    let x := (s.prepare (env s) sh).2
    let k := (s.flush x.core .device).checks x ⟨128, 1, false, .read, 0⟩ [x.first] fun _ => 0x1000
    (checked s k).askFabric x 128 (els k) = (checked s k, false) := by decide +kernel

/-- A bad region path, an ill-formed field, code that is not there, and an accepted record. -/
theorem witness_LaunchWords_admission :
    let s := atCc (.launch 5 6) 0x1000
    let l := s.candidate (env s) Ctx.plain launchImage [0x2000]
    let f := s.fetchSeg Ctx.plain (env s).die 0 192 0x20003000
    s.regionPath (env s).ppart 8 1 = none ∧ s.regionPath (env s).ppart 8 0x2000 = some [0x2000] ∧ l.fieldsOk = true ∧
    l.staged = false ∧ (s.candidate (env s) Ctx.plain 0 [0x2000]).fieldsOk = false ∧ f.2.isOk = true ∧
    f.1.rejects (env s).ppart l true = 0 ∧ f.1.rejects (env s).ppart l false = 6 := by decide +kernel

/-- A block whose sheaf is two lane-split halves that wait at one fold closes its node; a held group where a slot is free; a
block with nothing left; one with a full satchel; one that waits at a barrier for ever. -/
theorem witness_LaunchEvents_blocks :
    let s := at' .nop
    let b := block1 s
    let node (l : W32) : ISet := { ISet.start 64 with lanes := l, path := [⟨9, .lanes, l.toNat⟩], stat := .fold }
    let one (f : Grp → Grp) : Block := { b with groups := b.groups.map f }
    let fold := one fun g => { g with units := [node 0xFFFF, node 0xFFFF0000] }
    let held := one fun g => { g with held := true }
    let done : Block := { b with groups := [] }
    let dead := one fun g => { g with units := g.units.map fun u => { u with stat := .bar 0 0 } }
    let set (k : Block) : State := s.setBlock k
    s.block? b.bid = some b ∧ s.launch? b.lid = some (launch1 s) ∧ fold.commit = none ∧ fold.full = none ∧
      closable fold.groups 9 = true ∧ (set fold).atoms = [] ∧
    (held.groups.find? fun h => h.gid == 1 && h.held).isSome = true ∧ (set held).slotsUsed 0 0 false + 0 ≤ Config.sheafRegs ∧
    (set done).blockIdle done = true ∧ (launch1 s).mode = .normal ∧ s.blockIdle b = false ∧
    (launch1 s).oldest b.num = true ∧ (launch1 s).redundant = false ∧ (set dead).deadlocked dead = true ∧
      s.deadlocked b = false := by decide +kernel

/-- A launch with two blocks of 32 threads, none of them started, and its code at 0. -/
def fresh : Launch :=
  { Launch.plain 3 with record := (Launch.plain 3).record + (32 <<< 64 : BitVec 1024), nextBlk := 0 }

/-- A launch may start its next block on core 0, or both at once; its queued block may be stolen; one whose blocks have ended
is closed; replicas that agree, disagree and wait. -/
theorem witness_LaunchEvents_launches :
    let s := { at' .nop with launches := [fresh], blocks := [] }
    let c : Launch := { fresh with record := fresh.record ||| (2 <<< 474 : BitVec 1024) }
    let t := { s with launches := [c] }
    let q := s.setCore { s.core 0 with runq := [(3, 1)] }
    let e : Launch := { fresh with nextBlk := 2, endedBlks := [0, 1] }
    let k (n : Nat) (g : Option W64) : Block := { Block.placed n 3 (Grp.placed 20 (ISet.start 0)) with
      rank := n, commit := g.map fun v => ⟨.blockEnd, [], v, none, [], org, none⟩ }
    let r (l : List Block) : State := { s with blocks := l, launches := [{ fresh with mode := .dual }] }
    s.launch? 3 = some fresh ∧ fresh.blocks = 2 ∧ fresh.progress = 0 ∧ fresh.queues = true ∧ s.inLine fresh 0 = true ∧
    (s.startAll fresh 0 [0]).isSome = true ∧ (s.room fresh 0).isSome = true ∧ fresh.roots 0 = [(0, 32)] ∧ fresh.roots 1 = [(32, 64)] ∧
    c.progress = 2 ∧ ((upto 0 2).foldl (fun (o : Option State) n => o.bind fun u =>
      u.startAll c n (([0, 1].drop n).take 1)) (some t)).isSome = true ∧
    (q.core 0).runq.getLast? = some (3, 1) ∧ (q.core 1).runq = [] ∧ (q.room fresh 1).isSome = true ∧
    e.endedBlks.length = e.blocks ∧ s.launchQuiet e = true ∧ e.killed = false ∧
    (r [k 1 (some 5), k 2 (some 5)]).replicas 3 0 = [k 1 (some 5), k 2 (some 5)] ∧ (k 1 (some 5)).sigAt = (k 2 (some 5)).sigAt ∧
    (k 1 (some 5)).sigAt ≠ (k 2 (some 6)).sigAt ∧ (k 2 none).commit = none ∧
    (∀ g ∈ (k 1 none).groups, ∀ u ∈ g.units, u.stat ≠ .halted) := by decide +kernel

/-- A launch with two slots in near memory and its block at a run boundary: for a fetch fault, for a pre-emption, saved in slot 0
and able to return; operations on a running, a pre-empted and a killed launch. -/
theorem witness_SwapEvents :
    let l : Launch := { fresh with record := fresh.record ||| BitVec.ofNat 1024 (2 ^ 24 * 2 ^ 768 + 2 * 2 ^ 896), nextBlk := 1 }
    let b : Block := Block.placed 4 3 (Grp.placed 20 (ISet.start 0))
    let st (l : Launch) (b : Block) : State := { mapped (at' .nop) with launches := [l], blocks := [b] }
    let page : Block := { Block.placed 4 3 (Grp.placed 20 { ISet.start 0x20003000 with stat := .fetchFault }) with saving := true }
    let s := st l b
    let saved (x : BSt) : Block := { b with st := x }
    let op (n : Nat) (l : Launch) : State := { st l b with lctls := (st l b).lctls.map fun c => { c with pend := [(n, 0, 1)] } }
    let killed : Launch := { l with st := .killing false }
    l.slots = 2 ∧ s.freeSlot l = some 0 ∧ s.savable page = true ∧ page.faultPage = some 0x20003000 ∧
    (saved (.preempted 0)).st.slot? = some 0 ∧
    ((st l (saved (.preempted 0))).restoreBlock (saved (.preempted 0)) 5).isSome = true ∧
    (s.fetchable l.ctx 0 4 0x20003000).2 = true ∧
    (op 1 l).lctlHead 0 = some (1, some l) ∧ ((op 1 l).slotsHeld l).length = 0 ∧
    (op 2 { l with st := .preempted }).lctlHead 0 = some (2, some { l with st := .preempted }) ∧
    (op 3 l).lctlHead 0 = some (3, some l) ∧ l.killed = false ∧ killed.killed = true ∧
    (op 3 { l with st := .done }).lctlHead 0 = some (3, none) ∧
    (st killed b).launch? 3 = some killed ∧ ((st killed b).killSweep killed).drained killed = true := by decide +kernel

/-- A trap that waits where the trap context is free and where it is taken; a record and a report with room; a fired trigger; a
free postcard class; queues, their commands and fences; an invalidation with nothing under way. -/
theorem witness_QueueAndFaultEvents :
    let s := at' .nop
    let w : Who := .kern 2 1 0
    let r : TrapReq := ⟨5, 0, 32, 0, 0, 0⟩
    let held := groups (fun g => { g with units := g.units.map fun u => { u with stat := .trapHeld r } }) s
    let busy := { held with traps := [⟨9, 0, 0, 2, 8, 0, 0, 0, 0, 0, 0, 0, [], []⟩] }
    let c : Ctx := { Ctx.plain with desc := 0x5000, fqBase := 0x6000, mbox := 0x8000 }
    let pend := { s with pend := [⟨c, false, 1, some w, none⟩, ⟨c, true, 2, none, none⟩] }
    let fired := s.onDbg 0 fun d => { d with fired := true }
    let cards := { s with cards := [⟨2, 0, .spad 0, 4, c, 0, 1, 0, 0, 0, 0, 0, 0⟩] }
    let put (x : Nat) (l : List QReg) : State :=
      { s with mem := Memory.setNat [] 0x5000 64 x, queues := l, bring := { s.bring with ready := 0xFF } }
    let desc := 2 ^ 456 + (0x7000 + 4) * 2 ^ 192 + (0x6000 + 4) * 2 ^ 128
    let q (n : Nat) (recs : List (BitVec 512)) : QReg := ⟨n, 0, 0, 0, 0, 4, true, recs⟩
    let prog := BitVec.ofNat 512 (0x5000 * 2 ^ 448 + 2 ^ 96)
    let fence := BitVec.ofNat 512 (2 ^ 96 + 2 ^ 80 + 3 * 2 ^ 320)
    let bad := BitVec.ofNat 512 (0x5040 * 2 ^ 448 + 2 ^ 96)
    let k : CCore := { CCore.init 0 with cmd := some ⟨0, 1, some (3, 0)⟩ }
    let k1 : CCore := { CCore.init 0 with cmd := some ⟨0, 1, some (3, 1)⟩ }
    let inv := s.onXreg 0 fun x => { x with pend := [0] }
    (∃ u, (held.env? w).map (·.unit) = some u ∧ u.stat = .trapHeld r) ∧ held.trapQueue 0 0 = [(r, 0, w)] ∧ held.traps = [] ∧
    (busy.traps.any fun t => t.core == 0 && t.part == 0) = true ∧
    (pend.pend[0]?).map (·.isReport) = some false ∧ putDone (pend.faultPut c 1) = true ∧ putDone (pend.reportPut c 2) = true ∧
    (nth fired.dbg 0 ⟨[], [], false, []⟩).fired = true ∧ (nth s.dbg 0 ⟨[], [], false, []⟩).fired = false ∧
    cards.cards.length = 1 ∧ bits (cards.homeByte 0x8000).toNat 7 4 = 0 ∧
    ((put desc []).descriptor 0 0x5000).isSome = true ∧ (put desc []).descriptor 0 0x5040 = none ∧
    (put desc [q 0 [prog]]).nextQueue (CCore.init 0) = some 0 ∧ (q 0 [prog]).recOk prog.toNat = true ∧
    (q 0 [fence]).recOk fence.toNat = true ∧ bits fence.toNat 95 80 = 1 ∧ (q 0 [bad]).recOk bad.toNat = true ∧
    (put desc []).bring.control = true ∧
    ((s.queue 3).done - 0).toNat < 2 ^ 31 ∧ s.ccQuiet k = true ∧ 2 ^ 31 ≤ ((s.queue 3).done - 1).toNat ∧ k1.trap = none ∧
    (nth inv.xregs 0 ⟨0, 0, 0, []⟩).pend = [0] ∧ inv.outstanding = [] := by
  refine ⟨⟨_, rfl, ?_⟩, ?_⟩ <;> decide +kernel

/-- An agent of a running block; requests of the fabric to near memory by identity 0; an access under way; registers of a die;
results of the self-tests. -/
theorem witness_OutsideEvents :
    let s := at' .nop
    let f (write : Bool) : FabOp := ⟨50, 2, 0, 64, 64, write, [], 4, false, none, org⟩
    s.block? 2 = some (block1 s) ∧ (block1 s).st ≠ .ended ∧ (s.env? (.kern 2 1 0)).isSome = true ∧ (launch1 s).idem = false ∧
    bit s.bring.ready.toNat 4 = true ∧ s.partOfFid 0 = some 0 ∧ fabricAddr 64 = some 64 ∧ fabricAddr 67 = some 67 ∧
    s.serves 0 64 true = true ∧ s.serves 0 67 true = true ∧ s.serves 0 64 false = true ∧ s.serves 1 64 false = false ∧
    ({ s with fabric := [f true] }.fabric.find? fun x => x.fid == 50) = some (f true) ∧ (f false).answered = false ∧
    bit s.bring.ready.toNat 0 = true ∧ bit State.reset.bring.ready.toNat 0 = false := by decide +kernel

/-- A well-formed instruction with a word, and a word that decodes. -/
theorem witness_EncodeThenDecode : (Instr.shli 2 1 31).wf = true ∧ (encodeNat (.shli 2 1 31)).isSome = true := by decide +kernel

theorem witness_DecodeThenEncode : decode 0x92081003 = .ok (.shli 2 1 3) := by decide +kernel

/-- An agent whose turn the agenda gives, with a word, with a bad word and with none; one that is ready without an agenda. -/
theorem witness_StepRunsDecoded :
    let s := at' .nop
    let w : Who := .kern 2 1 0
    let code (l : List W32) : State := groups (fun g => { g with units := g.units.map fun u => { u with code := l } }) s
    let own := { s with agenda := [], tick := 1 }
    s.env? w = some ((s.env? w).getD idle) ∧ s.canIssue ((s.env? w).getD idle) = true ∧ s.agenda = [.issue w] ∧
    ((s.env? w).getD idle).unit.code.head? = some 0xD1C00000 ∧ decode 0xD1C00000 = .ok .nop ∧
    ((code [0x60000000]).env? w).map (fun e => (e.unit.code, (code [0x60000000]).canIssue e)) = some ([0x60000000], true) ∧
    decode 0x60000000 = .error .reservedClass ∧
    ((code []).env? w).map (fun e => (e.unit.code, (code []).canIssue e)) = some ([], true) ∧
    own.tick % 2 = 1 ∧ { own with tick := 2 }.ready.head? = some w := by decide +kernel

/-- A step of a state with canonical memory. -/
theorem witness_StepKeepsMemoryCanonical :
    State.reset.mem.wf = true ∧ ∃ t, step State.reset = .next t := ⟨rfl, ran State.reset, rfl⟩

/-- Two canonical memories that read alike; an address in near memory and one in far memory. -/
theorem witness_MemoryReadsBack :
    let m := Memory.writeN [] 16 [1, 0, 2]
    m.wf = true ∧ (16 < 16 ∨ 16 + 3 ≤ 19) ∧ winOf 0 = .near ∧ winOf 0x10000000000 = .far := by decide +kernel

/-- IADD with a register at G, with a register that an atomic still writes, with a released source and with a result in flight
on checked issue; HALT and LAUNCH where they may not run. -/
theorem witness_WordChecks :
    let sh := frShape 6 false 6 false (some (4, false)) false false
    let i : Instr := .iadd 6 6 4 false false false
    let few := onLaunch1 (fun l => { l with record := l.record - (58 <<< 459 : BitVec 1024) }) (at' i)
    let chk := onLaunch1 (fun l => { l with ctx := { l.ctx with check := true } })
    let wait := { at' i with atoms := (ran (spad 2 16 (at' (.aadd 4 2 6 .block .relaxed)))).atoms }
    let rel := chk (groups (fun g => g.setCell 4 ⟨.f32 0 0, 0xFFFFFFFF⟩) (at' i))
    let fly := chk (groups (fun g => { g with lanes := g.lanes.map fun l => { l with flight := [⟨false, 4, 3, false, []⟩] } }) (at' i))
    let halt := (at' .nop).onUnit (.kern 2 1 0) fun u => { u with code := [0xD3C00000] }
    (few.env? few.turn = some (env few) ∧ 6 ∈ sh.regs ∧ (env few).g = 6) ∧
    (wait.env? wait.turn = some (env wait) ∧ (∀ r ∈ sh.regs, r < (env wait).g) ∧ wait.scoreboard (env wait) sh = true) ∧
    (rel.env? rel.turn = some (env rel) ∧ rel.scoreboard (env rel) sh = false ∧ (env rel).check = true ∧
      (env rel).released sh ≠ 0 ∧ (env rel).grp.relMask (env rel).unit.lanes 4 ≠ 0) ∧
    (fly.env? fly.turn = some (env fly) ∧ fly.scoreboard (env fly) sh = false ∧ (env fly).check = true ∧
      (env fly).released sh = 0 ∧ (env fly).stalled sh ≠ 0) ∧
    (env few).unit.lanes ≠ 0 ∧
    halt.env? halt.turn = some (env halt) ∧ (env halt).level = .kernel ∧ (env halt).solo = false ∧ (env halt).inTrap = false :=
  ⟨⟨fits_acts (by decide +kernel), by decide +kernel, by decide +kernel⟩,
    ⟨fits_acts (by decide +kernel), by decide +kernel, by decide +kernel⟩,
    ⟨fits_acts (by decide +kernel), by decide +kernel, by decide +kernel, by decide +kernel, by decide +kernel⟩,
    ⟨fits_acts (by decide +kernel), by decide +kernel, by decide +kernel, by decide +kernel, by decide +kernel⟩,
    by decide +kernel, fits_acts (by decide +kernel), by decide +kernel, by decide +kernel, by decide +kernel⟩

/-- A kernel group whose trap context is free and whose TRAPV is a segment, and one whose trap context is taken. -/
theorem witness_TrapEntrySaves :
    let c : Ctx := { Ctx.plain with trapv := 0x20003000 }
    let s := mapped (onLaunch1 (fun l => { l with ctx := c }) (at' .nop))
    let e := (s.env? (.kern 2 1 0)).getD idle
    let s0 := s.onGrp e.who fun g => g.landed e.unit
    let busy := { s with traps := [⟨9, 0, 0, 2, 8, 0, 0, 0, 0, 0, 0, 0, [], []⟩] }
    e.who = .kern 2 1 0 ∧ (s.traps.any fun x => x.core == e.core && x.part == e.part) = false ∧ e.ctx = some c ∧
    (match (s0.fetchSeg c e.die e.bid (e.idx e.first) c.trapv).2 with
      | .words ws => ws.length == 4
      | _ => false) = true ∧
    (busy.traps.any fun x => x.core == e.core && x.part == e.part) = true := by decide +kernel

/-- A word of a sheaf that writes a register, a pair and a predicate, in a sheaf, a span and on a control core. -/
theorem witness_WritesAndFrames :
    let s := at' .nop
    let e := (s.env? (.kern 2 1 0)).getD idle
    let t := span s
    let f := (t.env? (.kern 2 1 0)).getD idle
    let c := at' .halt
    let d := (c.env? (.cc 0)).getD idle
    4 + 2 ≤ e.grp.regs.length ∧ e.grp.span = false ∧ e.solo = false ∧ e.grp.preds.length = 7 ∧ e.grp.lo ≤ e.grp.hi ∧
    (e.grp.regs.all fun c => match c.kind with
      | .f64 _ _ => false
      | _ => true) = true ∧
    f.grp.span = true ∧ (f.grp.form32 5).isSome = true ∧ f.solo = false ∧
    d.solo = true ∧ d.grp.span = true ∧ d.who = .cc 0 ∧ s.block? 2 = some (block1 s) ∧ (block1 s).eng = [] ∧
    s.watched e 0 4 [] = [] ∧ (c.cc? 0).isSome = true := by decide +kernel

/-- A span of forms and cuts, with a queued store of thread 3. -/
theorem witness_SpanPieces :
    let g := { Grp.root 1 0 64 0 0 with stq := [⟨.store, [⟨3, 0, .spad 0, [1], false, 0⟩, ⟨40, 0, .spad 0, [1], false, 0⟩], 0, org, [], []⟩] }
    g.span = true ∧ (∀ c ∈ g.regs, c.kind = .f32 0 0) ∧ (∀ c ∈ g.preds, c.kind = .cut .allFalse) ∧ g.lanes ≠ [] ∧
    (∀ x ∈ g.lanes, x.lane = 0) ∧ g.lo ≤ 32 ∧ 64 ≤ g.hi := by decide +kernel

/-! ### Hypotheses of the statements' further clauses -/

/-- Stacks that are full and empty in an acting lane, and neither. -/
theorem witness_CallsAndReturns_stacks :
    let s := word 0xC3000004
    let full := groups (fun g => { g with lanes := g.lanes.map fun l => { l with stack := List.replicate 32 0 } }) s
    let some' := groups (fun g => { g with lanes := g.lanes.map fun l => { l with stack := List.replicate 31 0 } }) s
    (∃ l ∈ (env full).grp.lanes, bit (env full).unit.lanes.toNat l.lane = true ∧ 32 ≤ l.stack.length) ∧
    (∃ q ∈ (env s).members, ((env s).grp.lane q).stack = []) ∧
    (∀ l ∈ (env some').grp.lanes, l.stack.length < 32) ∧ ∀ q ∈ (env some').members, ((env some').grp.lane q).stack ≠ [] := by
  decide +kernel

/-- A command of control core 0; a handler whose one unit ends and one with two units; a control core's handler. -/
theorem witness_ThreadEnds_ends :
    let k : CCore := { CCore.init 0 with cmd := some ⟨0, 1, none⟩ }
    let c := { word 0xC6000000 with ccs := [k] }
    let h := word 0xD2400000
    let t := (h.traps.head?).getD ⟨0, 0, 0, 0, 0, 0, 0, 0, 0, 0, 0, 0, [], []⟩
    let e := env h
    let cut (l : W32) (u : ISet) : ISet := { u with lanes := l }
    let two := groups (fun g => { g with units := g.units.flatMap fun u => [cut 0xFFFF u, cut 0xFFFF0000 u] }) h
    let cc := { h with ccs := [{ k with trap := some t }] }
    (c.cc? 0 = some k ∧ c.atomPending 0 0 c.tick = false ∧ c.homeAny 0 0 = false ∧ c.sysReady 0 0 = true ∧
      ({ c with fabric := [⟨1, 0, 0, 2 ^ 49, 0, true, [1], 1, false, none, org⟩] } : State).sysReady 0 0 = false) ∧
    (∃ tid gid lane, e.who = .hand tid gid lane ∧ h.trap? tid = some t ∧ (h.block? e.bid).isSome ∧ t.bid = e.bid ∧ t.ended = [] ∧
      t.groups.map (·.gid) = [gid] ∧ t.groups.map (·.units) = [[e.unit]] ∧
      ((h.block? e.bid).map fun b => (b.served tid).map fun x => (x.2.low, e.members.map e.idx)) =
        some [((upto 0 32).headD 0, upto 0 32)]) ∧
    ((two.traps.flatMap fun t => t.groups.flatMap (·.units)).map (·.lanes) = [0xFFFF, 0xFFFF0000]) ∧
    (cc.env? (.ccHand 0)).map (·.who) = some (.ccHand 0) ∧ cc.cc? 0 = some { k with trap := some t } := by
  refine ⟨by decide +kernel, ⟨_, _, _, rfl, ?_⟩, by decide +kernel, by decide +kernel, by decide +kernel⟩
  decide +kernel

/-- Groups with single registers and with a pair; spans of the same range whose registers stand alone. -/
theorem witness_Exchanges_groups :
    let g := Grp.root 1 0 32 0 0
    let h := { g with span := false, regs := g.regs.set 5 ⟨.e false [], 1⟩ }
    (∀ c ∈ g.regs, c.kind = .f32 0 0) ∧ (∀ c ∈ h.regs, (∀ b s, c.kind ≠ .f64 b s) ∧ c.kind ≠ .f64hi) ∧
    6 < g.regs.length ∧ 6 < h.regs.length ∧ (g.alone 6).isSome = true ∧ g.span = true ∧ h.span = false ∧
    (∀ p, p < 32 → p ∈ g.positions) := by
  refine ⟨by decide +kernel, ?_, by decide +kernel, by decide +kernel, by decide +kernel, rfl, rfl, by decide +kernel⟩
  have hc : ∀ c ∈ ({ Grp.root 1 0 32 0 0 with span := false, regs := (Grp.root 1 0 32 0 0).regs.set 5 ⟨.e false [], 1⟩ } : Grp).regs,
      c.kind = .f32 0 0 ∨ c.kind = .e false [] := by decide +kernel
  intro c h
  rcases hc c h with k | k <;> rw [k] <;> exact ⟨fun _ _ => by simp, by simp⟩

/-- An address without a page, and one with a page. -/
theorem witness_NopBreakpointAndCodeDrops_pages :
    ((at' .nop).translate Ctx.plain 0 .any).2 = .fault 1 4 ∧
    ((mapped (at' .nop)).translate Ctx.plain 4096 .any).2 = .leaf 0x0D 4096 2 := by decide +kernel

/-- A NaN, the infinities, zeros, an integer and a half, a negative number; a value past F16's greatest, and one below. -/
theorem witness_FunctionAndConversionWords_inputs :
    Fmt.f32.fin false 0x7FC00000 = .nan ∧ Fmt.f32.fin false 0x7F800000 = .inf false ∧ Fmt.f32.fin false 0xFF800000 = .inf true ∧
    (match Fmt.f32.fin false 0x80000000, Fmt.f32.fin false 0x40400000, Fmt.f32.fin false 0xBF000000 with
      | .fin true 0 _, .fin false m e, .fin true m' e' => m != 0 && m * 2 ^ e.toNat == 3 * 2 ^ (-e).toNat &&
          2 * m' * 2 ^ e'.toNat == 2 ^ (-e').toNat
      | _, _, _ => false) = true ∧
    (match Fmt.f64.value 0x8000000000000000, Fmt.f64.value 0xBFF0000000000000 with
      | .fin true 0 _, .fin true m _ => m != 0
      | _, _ => false) = true ∧
    Fmt.f64.value 0x7FF8000000000000 = .nan ∧ Fmt.f64.value 0x7FF0000000000000 = .inf false ∧
    Fmt.f64.value 0xFFF0000000000000 = .inf true ∧ 65520 * 1 ≤ 65520 * 2 ^ (0 : Int).toNat ∧ Fmt.mf6.overflows .rn false 1 0 = false := by
  decide +kernel

/-- TRAPV at a segment's start, inside one and one in a page that cannot be scanned yet; traps inside handlers. -/
theorem witness_TrapEntrySaves_fetch :
    let c : Ctx := Ctx.plain
    let s := mapped (at' .nop)
    let h := word 0xD2400000
    let fetch (s : State) (va : W64) : Nat := match (s.fetchSeg c 0 2 0 va).2 with
      | .words _ => 0
      | .target => 1
      | .later => 2
      | _ => 3
    let bare := { s with bring := { s.bring with ready := 1 } }
    fetch s 0x20003000 = 0 ∧ fetch s 0x20003004 = 1 ∧ fetch bare 0x20003000 = 2 ∧
    (∃ tid gid lane, (env h).who = .hand tid gid lane) ∧ (at' .nop).trapQueue 0 0 = [] ∧
    (at' .nop).atoms = [] := by
  refine ⟨by decide +kernel, by decide +kernel, by decide +kernel, ⟨_, _, _, rfl⟩, by decide +kernel, by decide +kernel⟩

/-- Launches that each refusal of admission turns away: too much scratchpad, too many threads, one that needs two dies of a
partition of one, a block of the path with its limit reached. -/
theorem witness_LaunchWords_refusals :
    let s := mapped (at' .nop)
    let l := Launch.plain 9
    let or' (n : Nat) : Launch := { l with record := l.record ||| BitVec.ofNat 1024 n }
    let one := { s with partcfg := 2 }
    let live := { s with mem := s.mem.setNat (0x2000 + 54) 2 1 }
    let live1 := { live with mem := live.mem.setNat (0x2000 + 52) 2 1 }
    s.rejects 0 (or' (0xFFFFFFFF * 2 ^ 512)) true = 1 ∧ s.rejects 0 (or' (2047 * 2 ^ 448)) true = 2 ∧
    one.rejects 0 { l with mode := .dual } true = 3 ∧ live1.rejects 0 { l with path := [0x2000] } true = 5 ∧
    live.rejects 0 { l with path := [0x2000] } true = 0 ∧ [0x2000].Nodup ∧ isDram 0x2000 = true ∧
    ((env (at' (.launch 5 6))).ctx.isSome) = true := by decide +kernel

/-- Held groups: where the partition has no room and a placed one waits, and where none does; a satchel that is full;
three replicas that agree, disagree by one, and disagree. -/
theorem witness_LaunchEvents_held :
    let s := at' .nop
    let b := block1 s
    let big (gid : Nat) (st : Stat) (held : Bool) : Grp := { Grp.placed gid { ISet.start 0 with stat := st } with
      gid := gid, held := held, regs := List.replicate 64 ⟨.e false [], 0⟩ }
    let many (st : Stat) : Block := { b with groups := big 1 .ready true :: (upto 2 24).map fun g => big g st false }
    let set (k : Block) : State := s.setBlock k
    let c (n : Nat) (g : Nat) : Block := { b with bid := n, rank := n, commit := some ⟨.blockEnd, [], BitVec.ofNat 64 g, none, [], org, none⟩ }
    (set (many .parked)).slotsUsed 0 0 false + (big 1 .ready true).room - Config.sheafRegs = 64 ∧
    (enoughRoom 64 ((set (many .parked)).rotatable 0 0 false true)).isSome = true ∧
    enoughRoom 64 ((set (many .ready)).rotatable 0 0 false true) = none ∧
    (c 1 5).sigAt.isSome = true ∧ (c 1 5).sigAt = (c 2 5).sigAt ∧ (c 1 5).sigAt ≠ (c 3 6).sigAt ∧
    (c 2 4).sigAt ≠ (c 3 6).sigAt ∧ (s.room (launch1 s) 1).isSome = true ∧ (launch1 s).roots 0 ≠ [] := by decide +kernel

/-- A frame the page scanner may read and words of each kind; a record with room and one without; a sampled access with its
class on; queues that overrun and do not; a context's postcard ring. -/
theorem witness_QueueAndFaultEvents_rings :
    let s := mapped (at' .nop)
    let c : Ctx := { Ctx.plain with desc := 0x5000, fqBase := 0x6000, mbox := 0x8000, fqlog := 4 }
    let full := { s with mem := s.mem.setNat (0x5000 + 40) 4 16 }
    let on := { s with mem := s.mem.setNat 0x8000 1 0x10 }
    let q (log post : Nat) : QReg := ⟨0, 0, BitVec.ofNat 32 post, 0, 0, BitVec.ofNat 4 log, true, []⟩
    s.bring.up 5 = true ∧ isDram (4096 * 7) = true ∧ s.usable 0 (4096 * 7) = true ∧ ((s.die 0).scan.map (·.frame)) = [3] ∧
    bits 0xE4200000 31 26 = 0x39 ∧ bits 0xE0000000 31 26 = 0x38 ∧ bits 0xC6000000 31 28 = 12 ∧
    putDone (s.recPut c 1) = true ∧ full.recPut c 1 = .stuck ∧ bits (on.partNat 0 0x8000 1) 7 4 = 1 ∧
    wrap 32 ((0 : Int) - 0) ≠ 2 ^ bits (on.partNat 0 (0x8000 + 40) 8) 4 0 ∧
    (q 4 17).overrun = true ∧ (q 4 16).overrun = false ∧
    winOf (regsBase + 0x20000) = .regs ∧ bits (0 : W64).toNat 47 46 ≠ 3 := by decide +kernel

/-- Requests that are served and that are not, before and after the port's self-test; a request of a sibling partition. -/
theorem witness_OutsideEvents_requests :
    let s := at' .nop
    let early := { s with bring := { s.bring with ready := 1 } }
    let hold := { early with bring := { early.bring with hold := true } }
    let sib := { s with partcfg := 1 }
    s.bring.up 4 = true ∧ s.partOfFid 0 = some 0 ∧ s.servedAt 0 64 4 false = some 64 ∧ s.usable (dieOf 64) 64 = true ∧
    s.homeBad 0 (.pa 64) 4 = false ∧ s.servedAt 0 (2 ^ 41 - 1) 4 false = none ∧ early.bring.up 4 = false ∧ hold.bring.hold = true ∧
    (s.servedAt 0 0xFF 0 false) = none ∧ isFabric (2 ^ 49) = true ∧ s.sibling (2 ^ 49) = some (0, 0) ∧
    isFabric (2 ^ 49 + 2 ^ 41) = true ∧ s.sibling (2 ^ 49 + 2 ^ 41) = none ∧ sib.servedAt 1 64 4 false = none := by decide +kernel

/-- A matrix request whose operands a disturbing use has reached, and one whose mask bit is clear. -/
theorem witness_MatrixPerforms_undefined :
    let m (mask : Nat) : EKind := .matrix ⟨false, 0, 0, BitVec.ofNat 256 resvImage, mask, true, 0, [(0, 0)], 7, 2⟩
    let q (mask : Nat) (undef : Bool) : EReq := ⟨60, 0, [0], true, 0, 0, 0, 0, m mask, [], [], undef, none, [], false⟩
    let s (r : EReq) : State := onBlock1 (fun b => { b with eng := [r] }) (at' .nop)
    ((s (q 7 true)).eng? 2 60).isSome = true ∧ ((s (q 7 false)).eng? 2 60).isSome = true ∧
    (((s (q 0 true)).eng? 2 60).map fun x => bit (nth (nth x.b.parts 0 ⟨[], [], [], 0, []⟩).masks 0 0).toNat
      (rrecOf (BitVec.ofNat 256 resvImage)).keyTile) = some false ∧
    ([(0, 0)].map (·.1)).Nodup := by decide +kernel

/-- Every return stack of the reset state is empty, and it has a step. -/
theorem witness_StepKeepsReturnStacks :
    (∀ k ∈ State.reset.ccs, (∀ l ∈ k.grp.lanes, l.stack.length ≤ 32) ∧ k.trap = none) ∧ State.reset.blocks = [] ∧
    State.reset.traps = [] ∧ ∃ t, step State.reset = .next t := ⟨by decide +kernel, rfl, rfl, ran State.reset, rfl⟩

/-- An atomic in a private window that may be performed, a compare in near memory that fails and an acquiring exchange there;
groups and control cores in which an old value lands. -/
theorem witness_AtomicsPerform_homes :
    let s0 := at' .nop
    let one (p : PAtomic) : State := { s0 with atoms := [p] }
    let p : PAtomic := ⟨60, 2, 3, false, 0, 8, 0xFFFFE00000000000, .priv 3 0, 1, 0, 4, .block, .relaxed, org, false⟩
    let q : PAtomic := { p with loc := .pa 64, op := 9, cmp := 5 }
    let r : PAtomic := { p with loc := .pa 64, order := .acqRel, scope := .device }
    (one p).atomReady p = true ∧ (one q).atomReady q = true ∧ (one r).atomReady r = true ∧ isFabric 64 = false ∧ isDram 64 = true ∧
    leNat ((one q).homeLoc q.bid q.loc 4) = 0 ∧ (one q).homeBad q.bid q.loc 4 = false ∧ (one p).homeBad p.bid p.loc 4 = false ∧
    (launch1 s0).staged = false ∧ laWidth 8 = 4 ∧
    ((block1 s0).groups.map fun g => (g.regs.length, g.span, bit g.live.toNat 3)) = [(64, false, true)] ∧
    ((s0.cc? 0).map fun k => (k.grp.regs.length, k.grp.span, k.grp.lo, k.grp.hi)) = some (64, true, 0, 1) ∧
    ((word 0xD2400000).traps.map fun t => (t.bid != 0, t.groups.map fun g => g.regs.length)) = [(true, [16])] := by
  decide +kernel

/-- Reductions in a scratchpad, in near memory and beyond the fabric; an add-on-store that touches one watchpoint of its context. -/
theorem witness_ReductionsPerform_homes :
    let w : Watch := ⟨0, 64, 4, 2⟩
    let s := (at' .nop).onDbg 0 fun d => { d with wps := d.wps.set 1 (some w) }
    let y : SqElem := ⟨0, 64, .pa 64, [1, 0, 0, 0], false, 0⟩
    s.block? 2 = some (block1 s) ∧ s.launch? (block1 s).lid = some (launch1 s) ∧ s.primary (block1 s) = true ∧
    w.hits (launch1 s).ctx.desc 1 y.va.toNat 4 = true ∧ (nth s.dbg 0 ⟨[], [], false, []⟩).wps = [none, some w, none, none] ∧
    (launch1 s).ctx.part = 0 ∧ isFabric 64 = false ∧ isDram 64 = true ∧ isFabric (2 ^ 49) = true ∧ y.rel = 0 ∧ y.bytes.length = 4 := by
  decide +kernel

/-- Groups that meet at a fold: two sheaves of one window, sheaves whose registers are values per lane that lie on a form and that
do not, one whose threads make a span, and two spans that make one. -/
theorem witness_LaunchEvents_joins :
    let u : ISet := { ISet.start 64 with path := [⟨9, .lanes, 0⟩], stat := .fold }
    let a := (Grp.root 20 0 64 0 0).sheaf 21 0 { u with lanes := 1 }
    let c (f : Nat → W32) : Grp := a.setCell 4 ⟨.e false ((upto 0 32).map f), 0⟩
    let line (n : Nat) : W32 := BitVec.ofNat 32 (3 * n + 5)
    let r := recompress 8 (c line)
    let k := toSpan 8 0 a
    let x : Grp := { Grp.root 22 0 32 0 0 with units := [u] }
    let z : Grp := { Grp.root 23 32 64 0 0 with units := [u] }
    a.span = false ∧ (∀ v ∈ a.units, v.memberOf 8 = false) ∧ (a.units.filter fun w => w.memberOf 9) = a.units ∧ a.units.length = 1 ∧
    8 < a.regs.length ∧ lanesOf a.live = upto 0 32 ∧ ((c line).cell 4).kind = .e false ((upto 0 32).map line) ∧
    (∀ i ∈ upto 0 31, line (i + 1) - line i = 3) ∧ (r.cell 4).kind = .f32 5 3 ∧
    k.span = true ∧ (k.lo, k.hi) = (0, 32) ∧ (mergeSpan 8 0 x z).isSome = true ∧ (∀ l ∈ x.lanes ++ z.lanes, l.lane = 0) ∧
    (x.regs.all fun c => match c.kind with
      | .e _ _ => false
      | _ => true) = true := by decide +kernel

/-- A block of a launch with a slot in near memory: its slot and its scratchpad are sound, and the slot's bytes are the
partition's. -/
theorem witness_SwapEvents_slot :
    let l : Launch := { fresh with record := fresh.record ||| BitVec.ofNat 1024 (2 ^ 24 * 2 ^ 768 + 2 * 2 ^ 896), nextBlk := 1 }
    let b : Block := Block.placed 4 3 (Grp.placed 20 (ISet.start 0))
    let s : State := { mapped (at' .nop) with launches := [l], blocks := [b] }
    let bad : Block := { b with sums := [(3, 1)] }
    s.block? 4 = some b ∧ s.launch? 3 = some l ∧ l.slotAt 0 = 2 ^ 24 ∧ isDram (l.slotAt 0) = true ∧
    (∀ k ∈ sectorsOf 0 l.s, sectorBad b.sums k = false) ∧ (sectorsOf 0 l.s).find? (sectorBad bad.sums) = some 3 ∧
    (∀ a, 2 ^ 24 ≤ a → a < 2 ^ 30 → winOf a = .near) ∧ s.partcfg = 0 ∧ s.mgmt.all (fun m => m.satsize == 0) = true ∧ s.sums = [] ∧
    l.g = 64 ∧ (b.groups.map fun g => (g.lo, g.positions)) = [(0, upto 0 32)] ∧ (l.blockRange b.num).1 = 0 ∧
    ((nth b.groups 0 (Grp.placed 0 (ISet.start 0))).cell 4).rel = 0 := by
  refine ⟨by decide +kernel, by decide +kernel, by decide +kernel, by decide +kernel, by decide +kernel, by decide +kernel, ?_,
    by decide +kernel⟩
  intro a ha hb
  unfold winOf
  rw [if_pos (by omega)]

/-- Rings with no record on its way and with one; a fault queue beyond the fabric; a group whose access faults, of kinds that end
its block and that hold it; a card performed and one not. -/
theorem witness_QueueAndFaultEvents_records :
    let s := mapped (at' .nop)
    let c : Ctx := { Ctx.plain with desc := 0x5000, fqBase := 0x6000, mbox := 0x8000, fqlog := 4 }
    let far : Ctx := { c with fqBase := 2 ^ 49 + 2 ^ 41 }
    let r : RingW := ⟨0, 0x5028, 7, [1, 0, 0, 0], true, 0, 0⟩
    let way := { s with rings := [r] }
    let e := env s
    let card (a : Nat) : CardReq := ⟨2, 0, .pa 64, 4, c, 0, 1, 0, 0, a, 0, 0, 0⟩
    let held := s.onDie 0 fun d => { d with point := [⟨2, 0, 64, 64, [1, 0, 0, 0], org, []⟩] }
    let on := { s with mem := s.mem.setNat 0x8000 1 0x10 }
    s.rings = [] ∧ isDram 0x6000 = true ∧ isDram 0x5028 = true ∧ isDram 0x8100 = true ∧ isDram 0x801C = true ∧
    isFabric far.fqBase = true ∧ s.paOk 0 far.fqBase = true ∧ s.paOk 0 (far.fqBase + 63) = true ∧
    way.rings.find? (fun x => x.part == 0 && x.prod == 0x5028) = some r ∧ way.fabric = [] ∧
    e.who = .kern 2 1 0 ∧ e.unit.half = none ∧ s.block? e.bid = some (block1 s) ∧ e.launch = some (launch1 s) ∧
    s.launch? (block1 s).lid = some (launch1 s) ∧ s.pend = [] ∧ putDone (s.recPut (launch1 s).ctx 1) = true ∧
    s.unperformed (card 1) = false ∧ held.unperformed (card 1) = true ∧
    bits (on.partNat 0 0x8000 1) 7 4 = 1 ∧ on.partNat 0 0x8028 8 = 0 ∧ (s.homeByte 0x8000) = 0 ∧
    c.mbox ≠ 0 ∧ putDone (s.reportPut c 1) = true := by decide +kernel

/-- Commands of the debugger for a launch with a group that runs, that has halted and that is to halt or to step; what DBG waits
for, and a group's image. -/
theorem witness_DebugWords_groups :
    let c : Ctx := { Ctx.plain with mbox := 0x4000 }
    let s0 := at' .nop
    let sets (f : ISet → ISet) : State :=
      let t := onLaunch1 (fun l => { l with ctx := c }) (groups (fun g => { g with units := g.units.map f }) s0)
      { t with mem := Memory.setNat t.mem 0x4000 8 1 }
    let st (n : Nat) : DbgCmd := ⟨0, 1, 0, 0, n, 0, 0, 0, 0, 0, 0, 0⟩
    let runh : ISet → ISet := fun u => { u with code := [0xE4200000], left := 0 }
    let run := sets id
    let stop := sets fun u => { u with stat := .halted }
    let asks := sets fun u => { runh u with haltReq := true, haltBy := [7] }
    let steps := sets fun u => { runh u with stepping := true, stepBy := [7], asked := false }
    let l := launch1 run
    let named (l : Launch) : Bool := l.ctx.desc == c.desc && l.sitePc.toNat == 0 && l.lseq == 1 && l.st != .done
    let fits (s : State) (g : Nat → Bool) : Bool := match s.dbgTarget (launch1 s) 0 with
      | some (b, u) => g ((b.dbgOwn.filter (dbgNames 2 u)).filter fun y => !s.stands y.2.2).length
      | none => false
    let shape (s : State) : Bool := (block1 s).groups.length == 1 && (block1 s).groups.all fun g => g.units.length == 1 &&
      g.units.all fun u => u.stat == .ready && u.atRun && bit u.lanes.toNat u.low
    let e := env run
    (st 2).clean .halt = true ∧ (st 0).clean .step = true ∧ (st 0).clean .read = true ∧ (st 3).clean .halt = false ∧
    run.attached (some c) = true ∧ run.launches.find? named = some l ∧ fits run (fun n => n == 1) = true ∧
    fits stop (fun n => n == 0) = true ∧ run.dbgTarget l 99 = none ∧ shape asks = true ∧ shape steps = true ∧
    (block1 asks).owed = [] ∧ asks.atoms = [] ∧ asks.traps = [] ∧ asks.dbgPending c .halt 7 = true ∧ run.dbgPending c .halt 7 = false ∧
    run.dbgBuf c 64 568 = true ∧ run.dbgBuf c (2 ^ 49) 64 = false ∧
    (e.named e.members).idx < 2 ^ 64 ∧ (e.named e.members).lmask < 2 ^ 32 ∧ (e.named e.members).count < 2 ^ 32 := by decide +kernel

/-- What prepares a word where its last-use source is released, and where an unchecked word reads a released register and one that
is not yet written. -/
theorem witness_WritesAndFrames_prepare :
    let sh : Shape := { dsts := [6], srcs := [4, 5], rel := [4], lat := none }
    let s := at' .nop
    let fly := groups (fun g => { g.setCell 4 ⟨.f32 0 0, 1⟩ with
      lanes := g.lanes.map fun l => { l with flight := [⟨false, 5, 3, false, []⟩] } }) s
    let e := env s
    let f := env fly
    (e.grp.regs.all fun c => match c.kind with
      | .f64 _ _ => false
      | _ => true) = true ∧ (f.grp.regs.all fun c => match c.kind with
      | .f64 _ _ => false
      | _ => true) = true ∧
    e.released sh = 0 ∧ e.stalled sh = 0 ∧ f.check = false ∧ f.released sh = 1 ∧ f.stalled sh ≠ 0 ∧
    bit (f.grp.relMask f.unit.lanes 4 ||| f.grp.flightMask f.unit false none 4).toNat 2 = false ∧ 2 ∈ f.grp.positions ∧
    f.grp.span = false := by decide +kernel

/-- A span with an F64 pair whose high half is no form, at a word that writes its low half. -/
theorem witness_SpanPieces_pairs :
    let sh : Shape := { dsts := [4] }
    let s := span (groups (fun g => (g.setCell 4 ⟨.f64 0xFFFFFFF0 1, 0⟩).setCell 5 ⟨.f64hi, 0⟩) (at' (.movl 4 7)))
    (s.env? s.turn).isSome = true ∧ s.hazard (env s) sh = none ∧ (env s).grp.span = true ∧ (env s).grp.form32 5 = none ∧
    (env s).splitsPair sh = true ∧ (env s).grp.lo < (env s).grp.hi := by decide +kernel

/-- HCMP2 in a span of operands that are not uniform; a SEGH that a comparator matches, in a group that steps and in one that does
not; a guard that is released, on checked issue; CYC while an atomic of a thread is to land. -/
theorem witness_words_that_stop :
    let sh2 : Shape := { crossShape [] [4, 5] 4 0 with pdsts := [2, 3] }
    let h := span (form 4 0 1 (at' (.hcmp2 2 4 5 .lt 0)))
    let dbg := fun (s : State) => s.onDbg 0 fun d => { d with cmps := d.cmps.set 2 (some (0, 0)) }
    let c := dbg (word 0xE0153600)
    let c' := dbg (groups (fun g => { g with units := g.units.map fun u => { u with stepping := true } }) (word 0xE0153600))
    let r := onLaunch1 (fun l => { l with ctx := { l.ctx with check := true } })
      (groups (fun g => { g with preds := g.preds.set 3 ⟨.bits 0, 0xFFFFFFFF⟩ }) (word 0xE42C0000))
    let y := { at' (.cyc 4 false) with atoms := [⟨60, 2, 3, false, 0, 8, 64, .pa 64, 1, 0, 9, .block, .relaxed, org, false⟩], tick := 1 }
    let csh : Shape := { dsts := [4], lat := none }
    h.env? h.turn = some (env h) ∧ h.hazard (env h) sh2 = none ∧ (env h).grp.span = true ∧ (env h).uniform false 4 = false ∧
    c.env? c.turn = some (env c) ∧ (env c).ctx.isSome = true ∧ c.cmpMatch (env c) (env c).unit.pc = true ∧
      (env c).unit.bpTaken = false ∧ (env c).unit.path = [] ∧ c.landing (env c) = false ∧ (env c).launch.isSome = true ∧
      (env c').unit.stepping = true ∧ c'.landing (env c') = false ∧
    r.env? r.turn = some (env r) ∧ (match r.hazard (env r) { psrcs := [3], gap := 0, lat := none } with
      | some (.trap 5 _ 32) => true
      | _ => false) = true ∧
    y.env? y.turn = some (env y) ∧ fits y csh = true ∧ y.atomPending (env y).bid ((env y).idx 3) y.tick = true ∧ y.landing (env y) = true :=
  ⟨fits_acts (by decide +kernel), by decide +kernel, by decide +kernel, by decide +kernel, fits_acts (by decide +kernel),
    by decide +kernel, by decide +kernel, by decide +kernel, by decide +kernel, by decide +kernel, by decide +kernel,
    by decide +kernel, by decide +kernel, fits_acts (by decide +kernel), by decide +kernel, fits_acts (by decide +kernel),
    by decide +kernel, by decide +kernel, by decide +kernel⟩

end Sys2Proof.Tests
end

