-- ==== Sys2Proof/Proofs/Selects.lean ====
section
/-! PROOF. The selects: SEL and SELW are the shared select operation, PTOI the truth that the predicate, after sense, has
over the range (R175). -/

namespace Sys2Proof.Machine

theorem exec_sel (d a b : RegN) (p : PredN) (sense : Bool) (s : State) :
    exec (.sel d a b p sense) s = s.select d.toNat a.toNat b.toNat p.toNat sense false := rfl

theorem exec_selw (d a b : RegN) (p : PredN) (sense : Bool) (s : State) :
    exec (.selw d a b p sense) s = s.select d.toNat a.toNat b.toNat p.toNat sense true := rfl

theorem exec_ptoi (d : RegN) (p : PredN) (sense : Bool) (s : State) :
    exec (.ptoi d p sense) s = s.runWord (fun _ => { dsts := [d.toNat], psrcs := [p.toNat] }) fun s e =>
      e.put s d.toNat (e.formWord false ((e.choice p.toNat sense).bind fun t => formRes false (if t then 1 else 0) 0)
        fun pos => if xor (e.pval p.toNat pos) sense then 1 else 0) := rfl

/-- PTOI's closure is the truth the predicate has over the whole range, so it agrees with each thread's own (R175). -/
theorem ptoi_run (d : RegN) (p : PredN) (sense : Bool) :
    FormWord (.ptoi d p sense) { dsts := [d.toNat], psrcs := [p.toNat] } d false
      (fun e pos => if xor (e.pval p.toNat pos) sense then 1 else 0)
      (fun e => (e.choice p.toNat sense).map fun t => (if t then 1 else 0, 0)) := by
  apply formWord_run
  · intro s
    rw [exec_ptoi]
    simp only [Option.bind_map, Function.comp_def]
  · intro e f ha _ hf pos hpos
    obtain ⟨t, ht, rfl⟩ := Option.map_eq_some_iff.mp hf
    have hq : xor (e.pval p.toNat pos) sense = t := choice_at ha.view ht (ha.same ▸ hpos)
    simp only [hq, zero_mul, add_zero]

/-- Settles O6: each word is the shared select, or PTOI's form word, over the predicate's choice. -/
theorem selects : Obligations.Selects := by
  intro d a b p sense
  exact ⟨select_run (exec_sel d a b p sense), select_run (exec_selw d a b p sense), ptoi_run d p sense⟩

end Sys2Proof.Machine
end

