-- ==== Sys2Proof/Proofs/Jumps.lean ====
section
/-! PROOF. The terminators that go to a successor: what each does with its group (R176, R177, R179, R180, R183), and the
issue sets the threads of a sheaf form when they take different ones (R176). -/

namespace Sys2Proof.Machine

/-! ### Words that move their group, or expand -/

/-- A word whose own meaning moves the group to `post`. -/
theorem moves_of_runWord {i : Instr} {sh : Env → Shape} {f : State → Env → Eff} {pre : State → Env → Prop}
    {post : State → Env → State} (hi : ∀ s, exec i s = s.runWord sh f) (hf : ∀ s e, pre s e → f s e = .moved (post s e)) :
    Moves i sh pre post :=
  fun s _ ha hc hp => (hi s).trans (runWord_moved ha hc (hf _ _ hp))

/-- A word whose own meaning expands the span. -/
theorem expands_of_runWord {i : Instr} {sh : Env → Shape} {f : State → Env → Eff} {no : Env → Prop}
    (hi : ∀ s, exec i s = s.runWord sh f) (hf : ∀ s e, no e → f s e = .expand) : Expands i sh no :=
  fun s _ ha hc hn => (hi s).trans (runWord_expand ha hc (hf _ _ hn))

/-! ### Static successors (R176, R183) -/

theorem exec_next (off : BitVec 24) (s : State) :
    exec (.next off) s = s.runWord (fun _ => termShape) fun s e => .moved (s.goAll e (e.target 24 off.toNat)) := rfl

theorem exec_yield (off : BitVec 24) (s : State) :
    exec (.yield off) s = s.runWord (fun _ => termShape) fun s e => .moved (s.goAll e (e.target 24 off.toNat)) := rfl

/-! ### BR (R177) -/

/-- BR's successor for a predicate's value: the target where it is true after sense, else the word after BR. -/
def Env.brTo (e : Env) (sense : Bool) (off : BitVec 20) (t : Bool) : W64 :=
  if xor t sense then e.target 20 off.toNat else e.nextPc

/-- BR at a cut with threshold k (R27): the piece below k goes where the predicate's value is `below`, the other where it
is not. -/
def State.brSplit (s : State) (e : Env) (sense : Bool) (off : BitVec 20) (k : Nat) (below : Bool) : State :=
  ((s.splitSpan { e with grp := e.stepped {} } k (e.unit.goto (e.brTo sense off below))
    (e.unit.goto (e.brTo sense off !below))).termStep e (upto 0 (k - e.grp.lo)) (e.brTo sense off below)).termStep e
    (upto (k - e.grp.lo) (e.grp.hi - k)) (e.brTo sense off !below)

/-- Where BR sends its group: a span by its cut, the threads of a sheaf each by its own value. -/
def State.brGo (s : State) (e : Env) (p : PredN) (sense : Bool) (off : BitVec 20) : State :=
  if e.grp.span then
    match e.view.pcut p.toNat with
    | .allTrue => s.goAll e (e.brTo sense off true)
    | .allFalse => s.goAll e (e.brTo sense off false)
    | .below k => s.brSplit e sense off k true
    | .atOrAbove k => s.brSplit e sense off k false
  else s.goEach e fun q => e.brTo sense off (e.pval p.toNat q)

/-- BR always moves its group. -/
theorem exec_br (p : PredN) (sense : Bool) (off : BitVec 20) (s : State) :
    exec (.br p sense off) s =
      s.runWord (fun _ => { termShape with psrcs := [p.toNat] }) fun s e => .moved (s.brGo e p sense off) := by
  show execBr p sense off s = _
  unfold execBr
  congr 1
  funext s e
  unfold State.brGo
  split
  · cases e.view.pcut p.toNat <;> rfl
  · rfl

section
variable {s : State} {e : Env} {p : PredN} {sense : Bool} {off : BitVec 20}

theorem brGo_sheaf (h : e.grp.span = false) :
    s.brGo e p sense off = s.goEach e fun q => e.brTo sense off (e.pval p.toNat q) := by
  simp [State.brGo, h]

theorem brGo_allTrue (h : e.grp.span = true) (hk : e.view.pcut p.toNat = .allTrue) :
    s.brGo e p sense off = s.goAll e (e.brTo sense off true) := by
  simp [State.brGo, h, hk]

theorem brGo_allFalse (h : e.grp.span = true) (hk : e.view.pcut p.toNat = .allFalse) :
    s.brGo e p sense off = s.goAll e (e.brTo sense off false) := by
  simp [State.brGo, h, hk]

theorem brGo_below {k : Nat} (h : e.grp.span = true) (hk : e.view.pcut p.toNat = .below k) :
    s.brGo e p sense off = s.brSplit e sense off k true := by
  simp [State.brGo, h, hk]

theorem brGo_atOrAbove {k : Nat} (h : e.grp.span = true) (hk : e.view.pcut p.toNat = .atOrAbove k) :
    s.brGo e p sense off = s.brSplit e sense off k false := by
  simp [State.brGo, h, hk]

end

/-- BR leaves the state that a condition on its group makes of `State.brGo`. -/
theorem br_moves {p : PredN} {sense : Bool} {off : BitVec 20} {pre : Env → Prop} {post : State → Env → State}
    (h : ∀ s e, pre e → s.brGo e p sense off = post s e) :
    Moves (.br p sense off) (fun _ => { termShape with psrcs := [p.toNat] }) (fun _ e => pre e) post :=
  moves_of_runWord (exec_br p sense off) fun s e hp => congrArg Eff.moved (h s e hp)

/-! ### Successors named by a register (R179, R180) -/

/-- A terminator whose successor each thread reads from register a: the threads of a sheaf go each to its own, a span
whose threads have one goes as one, and another span expands. -/
theorem dynamic_run {i : Instr} {sh : Env → Shape} {wide : Bool} {a : Nat} {f : Env → Nat → W64}
    (hi : ∀ s, exec i s = s.runWord sh fun s e =>
      if e.grp.span then if e.solo || e.uniform wide a then .moved (s.goAll e (f e 0)) else .expand
      else .moved (s.goEach e (f e))) :
    Moves i sh (fun _ e => e.grp.span = false) (fun s e => s.goEach e (f e)) ∧
    Moves i sh (fun _ e => e.grp.span = true ∧ (e.solo ∨ e.uniform wide a)) (fun s e => s.goAll e (f e 0)) ∧
    Expands i sh (fun e => e.grp.span = true ∧ e.solo = false ∧ e.uniform wide a = false) := by
  refine ⟨moves_of_runWord hi fun s e hs => ?_, moves_of_runWord hi ?_, expands_of_runWord hi ?_⟩
  · simp [hs]
  · rintro s e ⟨hs, hu⟩
    simp [hs, hu]
  · rintro s e ⟨hs, hsolo, hu⟩
    simp [hs, hsolo, hu]

theorem exec_brx (a : RegN) (s : State) :
    exec (.brx a) s = s.runWord (fun _ => { termShape with srcs := [a.toNat, a.toNat + 1] }) fun s e =>
      if e.grp.span then
        if e.solo || e.uniform true a.toNat then .moved (s.goAll e (BitVec.ofNat 64 (e.val true a.toNat 0))) else .expand
      else .moved (s.goEach e fun q => BitVec.ofNat 64 (e.val true a.toNat q)) := rfl

/-- SWITCH reads entry v of its table of n + 1, or the last where there is none (R180). -/
theorem exec_switch (a : RegN) (n : BitVec 10) (s : State) :
    exec (.switch a n) s = s.runWord (fun _ => { termShape with srcs := [a.toNat] }) fun s e =>
      if e.grp.span then
        if e.solo || e.uniform false a.toNat then .moved (s.goAll e (e.switchTo (n.toNat + 1) (e.val false a.toNat 0)))
        else .expand
      else .moved (s.goEach e fun q => e.switchTo (n.toNat + 1) (e.val false a.toNat q)) := rfl

/-! ### The issue sets of a division (R176) -/

/-- Removing repeats keeps the elements. -/
theorem mem_dedup {α : Type} [BEq α] [LawfulBEq α] {x : α} {l : List α} : x ∈ dedup l ↔ x ∈ l := by
  have collected (acc : List α) :
      x ∈ l.foldl (fun acc y => if acc.any (· == y) then acc else y :: acc) acc ↔ x ∈ acc ∨ x ∈ l := by
    induction l generalizing acc with
    | nil => simp
    | cons y r ih =>
      rw [List.foldl_cons, ih, List.mem_cons]
      split
      · next hy =>
        obtain ⟨z, hz, hzy⟩ := List.any_eq_true.mp hy
        obtain rfl := eq_of_beq hzy
        exact ⟨Or.imp_right .inr, by rintro (h | rfl | h) <;> simp [*]⟩
      · rw [List.mem_cons]; tauto
  rw [dedup, List.mem_reverse, collected]
  simp

/-- The issue set of the acting threads whose successor is x. -/
def Env.partAt (e : Env) (f : Nat → W64) (x : W64) : ISet :=
  { e.unit.goto x with lanes := maskOf (e.members.filter fun p => f p == x) }

/-- There is one issue set for each successor of an acting thread. -/
theorem mem_parts {e : Env} {f : Nat → W64} {u : ISet} : u ∈ e.parts f ↔ ∃ p ∈ e.members, e.partAt f (f p) = u := by
  unfold Env.parts
  simp only [List.mem_map, mem_dedup, exists_exists_and_eq_and, Env.partAt]

/-- The issue set of a successor holds the acting threads that have it. -/
theorem bit_partAt {e : Env} {f : Nat → W64} {x : W64} {l : Nat} (hl : l < 32) :
    bit (e.partAt f x).lanes.toNat l = true ↔ l ∈ e.members ∧ f l = x := by
  show bit (maskOf _).toNat l = true ↔ _
  rw [bit_maskOf hl]
  simp

/-- Each acting thread of a sheaf is in one issue set alone, the one of its successor. -/
theorem parts_cover {e : Env} {f : Nat → W64} (h : e.laned) {p : Nat} (hp : p ∈ e.members) :
    ∃ u ∈ e.parts f, u.pc = f p ∧ bit u.lanes.toNat p = true ∧
      ∀ v ∈ e.parts f, bit v.lanes.toNat p = true → v = u := by
  have hl : p < 32 := members_lt h hp
  refine ⟨e.partAt f (f p), mem_parts.mpr ⟨p, hp, rfl⟩, rfl, (bit_partAt hl).mpr ⟨hp, rfl⟩, fun v hv hb => ?_⟩
  obtain ⟨q, -, rfl⟩ := mem_parts.mp hv
  rw [((bit_partAt hl).mp hb).2]

/-- The issue sets stand at the start of a segment and hold acting threads only. -/
theorem parts_within {e : Env} {f : Nat → W64} {u : ISet} (hu : u ∈ e.parts f) :
    u.left = 0 ∧ u.code = [] ∧ ∀ l, l < 32 → bit u.lanes.toNat l = true → l ∈ e.members := by
  obtain ⟨p, -, rfl⟩ := mem_parts.mp hu
  exact ⟨rfl, rfl, fun l hl hb => ((bit_partAt hl).mp hb).1⟩

/-- Settles O18: each word's own meaning, case by case, and the partition of a sheaf's threads by successor. -/
theorem jumps : Obligations.Jumps := by
  refine ⟨fun off off20 p sense a n => ⟨?next, ?yield, ?sheaf, ?allTrue, ?allFalse, ?below, ?atOrAbove, ?brx, ?switch⟩,
    fun e f h => ⟨fun p hp => parts_cover h hp, fun u hu => parts_within hu⟩⟩
  case next => exact moves_of_runWord (exec_next off) fun _ _ _ => rfl
  case yield => exact moves_of_runWord (exec_yield off) fun _ _ _ => rfl
  case sheaf => exact br_moves fun _ _ hs => brGo_sheaf hs
  case allTrue => exact br_moves fun _ _ ⟨hs, hk⟩ => brGo_allTrue hs hk
  case allFalse => exact br_moves fun _ _ ⟨hs, hk⟩ => brGo_allFalse hs hk
  case below => exact fun k => br_moves fun _ _ ⟨hs, hk⟩ => brGo_below hs hk
  case atOrAbove => exact fun k => br_moves fun _ _ ⟨hs, hk⟩ => brGo_atOrAbove hs hk
  case brx => exact dynamic_run (exec_brx a)
  case switch => exact dynamic_run (exec_switch a n)

end Sys2Proof.Machine
end

