-- ==== Sys2Proof/Proofs/LaneRows.lean ====
section
/-! PROOF. The shared lane operations of one, two and three sources meet their lane rows (R198 to R200), and the packed
16-bit words with them: each is its value function over the elements (R207). -/

namespace Sys2Proof.Machine

/-! ### Lane rows of one, two and three sources -/

theorem headD_eq_nth (l : List Nat) : l.headD 0 = nth l 0 0 := by cases l <;> rfl

/-- A word that is the shared lane operation meets its lane row, where a value without FPCTL does not read it. -/
theorem laneRow_of_lane {i : Instr} {lat : Nat} {d : RegN} {wide fp : Bool} {srcs : List (Nat × Bool)} {rel : List Nat}
    {st : BitVec 2} {f : Env → BitVec 3 → List Nat → Nat}
    (hi : ∀ s, exec i s = s.lane ⟨lat, wide, fp⟩ d.toNat srcs rel st f)
    (hf : fp = false → ∀ e c c' l, f e c l = f e c' l) : LaneRow i lat d wide fp srcs rel st f :=
  lane_run (op := ⟨lat, wide, fp⟩) hi hf

section
variable {i : Instr} {lat : Nat} {wide bw fp : Bool} {d a b c : RegN} {ka kb : Bool} {st : BitVec 2}

theorem lr1_row {f : Env → BitVec 3 → Nat → Nat} (hi : ∀ s, exec i s = s.lr1 lat wide fp d a ka st f)
    (hf : fp = false → ∀ e m m' x, f e m x = f e m' x) :
    LaneRow i lat d wide fp [(a.toNat, wide)] (lastUse ka wide a) st fun e m l => f e m (nth l 0 0) := by
  refine laneRow_of_lane (fun s => ?_) fun h e m m' l => hf h e m m' _
  simp only [hi, State.lr1, headD_eq_nth]

theorem lr2_row {f : BitVec 3 → Nat → Nat → Nat} (hi : ∀ s, exec i s = s.lr2 lat wide bw fp d a b ka kb st f)
    (hf : fp = false → ∀ m m' x y, f m x y = f m' x y) :
    LaneRow i lat d wide fp [(a.toNat, wide), (b.toNat, bw)] (lastUse ka wide a ++ lastUse kb bw b) st
      fun _ m l => f m (nth l 0 0) (nth l 1 0) := by
  refine laneRow_of_lane (fun s => ?_) fun h _ m m' l => hf h m m' _ _
  simp only [hi, State.lr2, headD_eq_nth, src1]

theorem lt3_row {f : BitVec 3 → Nat → Nat → Nat → Nat} (hi : ∀ s, exec i s = s.lt3 lat wide fp d a b c st f)
    (hf : fp = false → ∀ m m' x y z, f m x y z = f m' x y z) :
    LaneRow i lat d wide fp [(a.toNat, wide), (b.toNat, wide), (c.toNat, wide)] [] st
      fun _ m l => f m (nth l 0 0) (nth l 1 0) (nth l 2 0) := by
  refine laneRow_of_lane (fun s => ?_) fun h _ m m' l => hf h m m' _ _ _
  simp only [hi, State.lt3, headD_eq_nth, src1]

/-! ### Packed 16-bit words (R207) -/

theorem packed2_elements (v : Nat → Nat → Nat) (x y : Nat) :
    packed2 v x y = v (x % 2 ^ 16) (y % 2 ^ 16) + 2 ^ 16 * v (x / 2 ^ 16) (y / 2 ^ 16) := rfl

/-- A word of two packed operands computes each element from the elements of its number. -/
theorem packed_row {v : BitVec 3 → Nat → Nat → Nat}
    (hi : ∀ s, exec i s = s.lr2 4 false false true d a b ka kb st fun m x y => packed2 (v m) x y) :
    LaneRow i 4 d false true [(a.toNat, false), (b.toNat, false)] (lastUse ka false a ++ lastUse kb false b) st
      fun _ m l => v m (nth l 0 0 % 2 ^ 16) (nth l 1 0 % 2 ^ 16) +
        2 ^ 16 * v m (nth l 0 0 / 2 ^ 16) (nth l 1 0 / 2 ^ 16) := by
  simpa only [packed2_elements] using lr2_row hi nofun

end

theorem exec_hfma2 (d a b c : RegN) (st : BitVec 2) (s : State) :
    exec (.hfma2 d a b c st) s = s.lt3 4 false true d a b c st fun m x y z =>
      fmaOp .f16 m (x % 2 ^ 16) (y % 2 ^ 16) (z % 2 ^ 16) +
        2 ^ 16 * fmaOp .f16 m (x / 2 ^ 16) (y / 2 ^ 16) (z / 2 ^ 16) := rfl

/-- Settles O9: each word of two operands is its element operation on both elements, and HFMA2 the fused multiply-add. -/
theorem packedWords : Obligations.PackedWords := by
  intro d a b c ka kb st
  refine ⟨?hadd2, ?hmul2, ?hmin2, ?hmax2, ?badd2, ?bmul2, ?hfma2⟩
  case hadd2 => exact packed_row (v := floatOp .f16 FV.add) fun _ => rfl
  case hmul2 => exact packed_row (v := floatOp .f16 fun _ x y => FV.mul x y) fun _ => rfl
  case hmin2 => exact packed_row (v := fun m => Fmt.f16.minNum (ftzOf m)) fun _ => rfl
  case hmax2 => exact packed_row (v := fun m => Fmt.f16.maxNum (ftzOf m)) fun _ => rfl
  case badd2 => exact packed_row (v := floatOp .bf16 FV.add) fun _ => rfl
  case bmul2 => exact packed_row (v := floatOp .bf16 fun _ x y => FV.mul x y) fun _ => rfl
  case hfma2 => exact lt3_row (exec_hfma2 d a b c st) nofun

end Sys2Proof.Machine
end

