-- ==== Sys2Proof/Proofs/IntegerWords.lean ====
section
/-! PROOF. The bit functions of the integer words (R203 to R205), bit by bit: counts, fields joined and taken, sign
extension, PRMT's bytes; and the words over them. -/

namespace Sys2Proof.Machine

/-! ### Fields -/

theorem testBit_bits (x hi lo j : Nat) :
    (bits x hi lo).testBit j = (decide (j < hi + 1 - lo) && x.testBit (lo + j)) := by
  rw [bits, Nat.testBit_mod_two_pow, Nat.testBit_div_two_pow, Nat.add_comm j]

theorem bits_lt (x hi lo : Nat) : bits x hi lo < 2 ^ (hi + 1 - lo) := Nat.mod_lt _ (Nat.two_pow_pos _)

theorem testBit_mod_256 {x j : Nat} (hj : j < 8) : (x % 256).testBit j = x.testBit j := by
  rw [show (256 : Nat) = 2 ^ 8 from rfl, Nat.testBit_mod_two_pow]
  simp [hj]

/-- The numbers `f 0`, `f 1`, ... (n of them) as adjacent fields of w bits. -/
def joined (w : Nat) (f : Nat → Nat) (n : Nat) : Nat := (upto 0 n).foldl (fun r k => r + f k * 2 ^ (w * k)) 0

theorem upto_succ_last (lo n : Nat) : upto lo (n + 1) = upto lo n ++ [lo + n] := by
  induction n generalizing lo with
  | zero => rfl
  | succ n ih =>
    rw [upto, ih (lo + 1), upto, List.cons_append]
    congr 3; omega

theorem joined_succ (w : Nat) (f : Nat → Nat) (n : Nat) : joined w f (n + 1) = joined w f n + f n * 2 ^ (w * n) := by
  simp [joined, upto_succ_last]

theorem joined_lt {w : Nat} {f : Nat → Nat} (hf : ∀ k, f k < 2 ^ w) (n : Nat) : joined w f n < 2 ^ (w * n) := by
  induction n with
  | zero => simp [joined, upto]
  | succ n ih =>
    calc joined w f (n + 1) = joined w f n + f n * 2 ^ (w * n) := joined_succ w f n
      _ < 2 ^ (w * n) + f n * 2 ^ (w * n) := by omega
      _ = (f n + 1) * 2 ^ (w * n) := by ring
      _ ≤ 2 ^ w * 2 ^ (w * n) := Nat.mul_le_mul_right _ (hf n)
      _ = 2 ^ (w * (n + 1)) := by rw [← pow_add]; ring_nf

/-- Each joined field keeps its bits. -/
theorem testBit_joined {w : Nat} {f : Nat → Nat} (hf : ∀ k, f k < 2 ^ w) {n k j : Nat} (hk : k < n) (hj : j < w) :
    (joined w f n).testBit (w * k + j) = (f k).testBit j := by
  induction n with
  | zero => omega
  | succ n ih =>
    rw [joined_succ, Nat.add_comm, Nat.mul_comm (f n), Nat.testBit_two_pow_mul_add _ (joined_lt hf n)]
    rcases Nat.lt_succ_iff_lt_or_eq.mp hk with hk | rfl
    · have : w * (k + 1) ≤ w * n := Nat.mul_le_mul_left w hk
      rw [if_pos (by rw [Nat.mul_succ] at this; omega), ih hk]
    · rw [if_neg (by omega), Nat.add_sub_cancel_left]

/-! ### Counts (R203) -/

theorem upto_succ_map (lo n : Nat) : upto (lo + 1) n = (upto lo n).map (· + 1) := by
  induction n generalizing lo with
  | zero => rfl
  | succ n ih => rw [upto, ih, upto, List.map_cons]

theorem popc_eq_length_filter (n x : Nat) : popc n x = ((upto 0 n).filter fun j => x.testBit j).length := by
  induction n generalizing x with
  | zero => rfl
  | succ n ih =>
    have hrest : ((upto 1 n).filter fun j => x.testBit j).length = popc n (x / 2) := by
      rw [ih, upto_succ_map, List.filter_map, List.length_map]
      simp only [Function.comp_def, Nat.testBit_succ]
    rw [popc, upto, List.filter_cons, ← hrest, Nat.testBit_zero]
    rcases Nat.mod_two_eq_zero_or_one x with h | h <;> simp [h, Nat.add_comm]

theorem clz_le (n x : Nat) : clz n x ≤ n := by
  unfold clz; split <;> omega

/-- The highest 1 bit stands right below the leading zeros. -/
theorem log2_add_clz {n x : Nat} (hx : x < 2 ^ n) (h0 : x ≠ 0) : Nat.log2 x + 1 + clz n x = n := by
  have := (Nat.log2_lt h0).mpr hx
  rw [clz, if_neg h0]; omega

theorem testBit_of_clz_le {n x j : Nat} (hx : x < 2 ^ n) (hj : n - clz n x ≤ j) : x.testBit j = false := by
  by_cases h0 : x = 0
  · rw [h0, Nat.zero_testBit]
  · have := log2_add_clz hx h0
    exact Nat.testBit_lt_two_pow ((Nat.log2_lt h0).mp (by omega))

theorem testBit_below_clz {n x : Nat} (hx : x < 2 ^ n) (h0 : x ≠ 0) : x.testBit (n - 1 - clz n x) = true := by
  have := log2_add_clz hx h0
  rw [show n - 1 - clz n x = Nat.log2 x by omega, Nat.testBit_log2 h0]

/-! ### BREV (R203) -/

theorem brevVal_eq_joined (a : Nat) : brevVal a = joined 1 (fun j => (a.testBit (31 - j)).toNat) 32 := by
  unfold brevVal joined
  congr 1
  funext r j
  rw [bit_eq_testBit, Nat.one_mul]
  dsimp only
  cases a.testBit (31 - j) <;> simp

theorem brevVal_lt (a : Nat) : brevVal a < 2 ^ 32 :=
  brevVal_eq_joined a ▸ joined_lt (fun _ => Bool.toNat_lt _) 32

theorem testBit_brevVal (a : Nat) {j : Nat} (hj : j < 32) : (brevVal a).testBit j = a.testBit (31 - j) := by
  have := testBit_joined (w := 1) (f := fun j => (a.testBit (31 - j)).toNat) (fun _ => Bool.toNat_lt _) hj Nat.zero_lt_one
  rw [Nat.one_mul, Nat.add_zero] at this
  rw [brevVal_eq_joined, this]
  cases a.testBit (31 - j) <;> rfl

/-! ### BFE (R204) -/

/-- A negative number, wrapped to more bits, has ones above its own. -/
theorem wrap_sub_two_pow {n w x : Nat} (hnw : n ≤ w) (hx : x < 2 ^ n) :
    wrap w ((x : Int) - 2 ^ n) = 2 ^ n * (2 ^ (w - n) - 1) + x := by
  have hw : 2 ^ w = 2 ^ n * 2 ^ (w - n) := by rw [← pow_add, Nat.add_sub_cancel' hnw]
  have hle : 2 ^ n ≤ 2 ^ w := Nat.pow_le_pow_right (by decide) hnw
  have hy : 2 ^ n * (2 ^ (w - n) - 1) + x = 2 ^ w - 2 ^ n + x := by rw [Nat.mul_sub, ← hw, Nat.mul_one]
  have hc : ((2 ^ w - 2 ^ n + x : Nat) : Int) = (x : Int) - 2 ^ n + 2 ^ w := by push_cast [hle]; ring
  rw [hy, ← wrap_of_lt (n := w) (x := 2 ^ w - 2 ^ n + x) (by omega), wrap_eq_iff, hc, Int.add_emod_right]

/-- Sign extension repeats the top bit. -/
theorem testBit_wrap_sext {n w x j : Nat} (hnw : n ≤ w) (hx : x < 2 ^ n) (hj : j < w) :
    (wrap w (sext n x)).testBit j = if j < n then x.testBit j else x.testBit (n - 1) := by
  unfold sext
  split
  · next hs =>
    rw [wrap_sub_two_pow hnw hx, Nat.testBit_two_pow_mul_add _ hx, Nat.testBit_two_pow_sub_one,
      ← bit_eq_testBit x (n - 1), hs]
    split
    · rfl
    · simp only [decide_eq_true_eq]; omega
  · next hs =>
    rw [wrap_of_lt (hx.trans_le (Nat.pow_le_pow_right (by decide) hnw)), ← bit_eq_testBit x (n - 1),
      Bool.eq_false_of_not_eq_true hs]
    split
    · rfl
    · next hjn => exact Nat.testBit_lt_two_pow (hx.trans_le (Nat.pow_le_pow_right (by decide) (Nat.le_of_not_lt hjn)))

/-- The field of BFE: its bits, and above them nothing or its top bit. -/
theorem testBit_bfeVal (a b : Nat) {n j : Nat} (hn : n = min (bits b 13 8) (32 - bits b 4 0)) (hj : j < 32) :
    (bfeVal a b).testBit j =
      if j < n then a.testBit (bits b 4 0 + j) else bit b 16 && decide (n ≠ 0) && a.testBit (bits b 4 0 + n - 1) := by
  have hn32 : n ≤ 32 := by omega
  unfold bfeVal
  simp only [← hn]
  generalize bits b 4 0 = p
  by_cases h0 : n = 0
  · simp [h0]
  have hw : p + n - 1 + 1 - p = n := by omega
  have hf : bits a (p + n - 1) p < 2 ^ n := by simpa only [hw] using bits_lt a (p + n - 1) p
  have hbit (k : Nat) (hk : k < n) : (bits a (p + n - 1) p).testBit k = a.testBit (p + k) := by
    rw [testBit_bits, hw, decide_eq_true hk, Bool.true_and]
  rw [if_neg h0]
  rcases hs : bit b 16
  · by_cases hjn : j < n
    · simp [hjn, hbit]
    · simp [hjn, testBit_bits, hw]
  · rw [if_pos rfl, testBit_wrap_sext hn32 hf hj, hbit (n - 1) (by omega), ← Nat.add_sub_assoc (by omega)]
    by_cases hjn : j < n
    · simp [hjn, hbit]
    · simp [hjn, h0]

/-! ### PRMT (R205) -/

/-- A byte's complement. -/
theorem testBit_255_sub {y j : Nat} (hy : y < 2 ^ 8) (hj : j < 8) : (255 - y).testBit j = !y.testBit j := by
  rw [show 255 - y = 2 ^ 8 - (y + 1) by omega, Nat.testBit_two_pow_sub_succ hy]
  simp [hj]

/-- A byte whose bits are all one bit. -/
theorem testBit_replicated (t : Bool) {j : Nat} (hj : j < 8) : (if t then 255 else 0 : Nat).testBit j = t := by
  cases t
  · exact Nat.zero_testBit j
  · rw [if_pos rfl, show (255 : Nat) = 2 ^ 8 - 1 from rfl, Nat.testBit_two_pow_sub_one]
    simpa using hj

theorem prmtByte_lt (pool ctl : Nat) : prmtByte pool ctl < 2 ^ 8 := by
  unfold prmtByte
  dsimp only
  split_ifs <;> omega

/-- A control byte picks a byte of the pool or its sign, inverts it, and clears it, in this order. -/
theorem testBit_prmtByte (pool ctl : Nat) {j : Nat} (hj : j < 8) :
    (prmtByte pool ctl).testBit j =
      (!ctl.testBit 7 && xor (ctl.testBit 6) (pool.testBit (8 * bits ctl 2 0 + if ctl.testBit 5 then 7 else j))) := by
  have hbyte (n : Nat) (hn : n < 8) :
      (pool / 2 ^ (8 * bits ctl 2 0) % 256).testBit n = pool.testBit (8 * bits ctl 2 0 + n) := by
    rw [testBit_mod_256 hn, Nat.testBit_div_two_pow, Nat.add_comm]
  have hlt : pool / 2 ^ (8 * bits ctl 2 0) % 256 < 2 ^ 8 := Nat.mod_lt _ (by decide)
  unfold prmtByte
  simp only [bit_eq_testBit]
  generalize pool / 2 ^ (8 * bits ctl 2 0) % 256 = y at *
  have hsign : (if ctl.testBit 5 then (if y.testBit 7 then 255 else 0) else y).testBit j =
      pool.testBit (8 * bits ctl 2 0 + if ctl.testBit 5 then 7 else j) := by
    cases ctl.testBit 5
    · exact hbyte j hj
    · exact (testBit_replicated _ hj).trans (hbyte 7 (by decide))
  have hlt' : (if ctl.testBit 5 then (if y.testBit 7 then 255 else 0) else y) < 2 ^ 8 := by split_ifs <;> omega
  rw [← hsign]
  generalize (if ctl.testBit 5 then (if y.testBit 7 then 255 else 0) else y) = z at *
  cases ctl.testBit 7
  · cases ctl.testBit 6
    · simp
    · simp [testBit_255_sub hlt' hj]
  · simp

theorem prmtVal_eq_joined (a b d : Nat) :
    prmtVal a b d = joined 8 (fun k => prmtByte (a + 2 ^ 32 * d) (b / 2 ^ (8 * k) % 256)) 4 := rfl

theorem bits_control (b k : Nat) : bits (b / 2 ^ (8 * k) % 256) 2 0 = bits b (8 * k + 2) (8 * k) := by
  simp only [bits, pow_zero, Nat.div_one]
  rw [show 8 * k + 2 + 1 - 8 * k = 3 by omega]
  exact Nat.mod_mod_of_dvd _ (by decide)

theorem testBit_control (b k : Nat) {n : Nat} (hn : n < 8) :
    (b / 2 ^ (8 * k) % 256).testBit n = b.testBit (8 * k + n) := by
  rw [testBit_mod_256 hn, Nat.testBit_div_two_pow, Nat.add_comm]

/-- Bytes 0 to 3 of PRMT's pool are a's, and 4 to 7 are d's. -/
theorem testBit_pool {a : Nat} (d : Nat) (ha : a < 2 ^ 32) (src : Nat) {n : Nat} (hn : n < 8) :
    (a + 2 ^ 32 * d).testBit (8 * src + n) =
      if src < 4 then a.testBit (8 * src + n) else d.testBit (8 * (src - 4) + n) := by
  rw [Nat.add_comm, Nat.testBit_two_pow_mul_add _ ha]
  by_cases h : src < 4
  · rw [if_pos h, if_pos (by omega)]
  · rw [if_neg h, if_neg (by omega)]
    congr 1; omega

theorem testBit_prmtVal {a : Nat} (b d : Nat) (ha : a < 2 ^ 32) {k j : Nat} (hk : k < 4) (hj : j < 8) :
    (prmtVal a b d).testBit (8 * k + j) =
      let ctl (n : Nat) : Bool := b.testBit (8 * k + n)
      let src := bits b (8 * k + 2) (8 * k)
      let pick (n : Nat) : Bool := if src < 4 then a.testBit (8 * src + n) else d.testBit (8 * (src - 4) + n)
      !ctl 7 && xor (ctl 6) (if ctl 5 then pick 7 else pick j) := by
  rw [prmtVal_eq_joined, testBit_joined (fun _ => prmtByte_lt _ _) hk hj, testBit_prmtByte _ _ hj, bits_control,
    testBit_control b k (by decide), testBit_control b k (by decide), testBit_control b k (by decide)]
  dsimp only
  rw [← testBit_pool d ha _ hj, ← testBit_pool d ha _ (by decide : 7 < 8)]
  split <;> rfl

/-! ### The words -/

theorem exec_prmt (d a b : RegN) (ka kb : Bool) (st : BitVec 2) (s : State) :
    exec (.prmt d a b ka kb st) s =
      s.lane ⟨2, false, false⟩ d.toNat [(a.toNat, false), (b.toNat, false), (d.toNat, false)]
        (lastUse ka false a ++ lastUse kb false b) st fun _ _ l => prmtVal (nth l 0 0) (nth l 1 0) (nth l 2 0) := by
  simp only [← headD_eq_nth]
  rfl

theorem wrap_natCast (n x : Nat) : wrap n (x : Int) = x % 2 ^ n := by
  rw [← Int.natCast_inj, wrap_coe]; norm_cast

theorem exec_imad (d a b c : RegN) (st : BitVec 2) (s : State) :
    exec (.imad d a b c st) s = s.lt3 2 false false d a b c st fun _ x y z => (x * y + z) % 2 ^ 32 := by
  simp only [← wrap_natCast, Nat.cast_add, Nat.cast_mul]
  rfl

/-- Settles O7: each word is its value function over the shared lane operation, and the bit functions are read bit by
bit. -/
theorem integerLaneWords : Obligations.IntegerLaneWords := by
  refine ⟨fun d a b c ka kb st => ⟨?imulhi, ?nmulhi, ?popc, ?clz, ?brev, ?bfe, ?prmt, ?imad⟩,
    fun a b d ha _ _ => ⟨popc_eq_length_filter 32 a, clz_le 32 a, fun _ => testBit_of_clz_le ha, testBit_below_clz ha,
      fun _ => testBit_brevVal a, brevVal_lt a, fun _ => testBit_bfeVal a b rfl, fun _ _ => testBit_prmtVal b d ha⟩⟩
  case imulhi => exact lr2_row (f := fun _ => imulhiVal) (fun _ => rfl) fun _ _ _ _ _ => rfl
  case nmulhi => exact lr2_row (f := fun _ => nmulhiVal) (fun _ => rfl) fun _ _ _ _ _ => rfl
  case popc => exact lr1_row (f := fun _ _ => popc 32) (fun _ => rfl) fun _ _ _ _ _ => rfl
  case clz => exact lr1_row (f := fun _ _ => clz 32) (fun _ => rfl) fun _ _ _ _ _ => rfl
  case brev => exact lr1_row (f := fun _ _ => brevVal) (fun _ => rfl) fun _ _ _ _ _ => rfl
  case bfe => exact lr2_row (f := fun _ => bfeVal) (fun _ => rfl) fun _ _ _ _ _ => rfl
  case prmt => exact laneRow_of_lane (exec_prmt d a b ka kb st) fun _ _ _ _ _ => rfl
  case imad => exact lt3_row (exec_imad d a b c st) fun _ _ _ _ _ _ => rfl

end Sys2Proof.Machine
end

