-- ==== Sys2Proof/Proofs/CrossLane.lean ====
section
/-! PROOF. The cross-lane words: each completes in a sheaf and on a control core and expands on a span (R227); the
reductions and scans over the tree (R229, R230), the broadcast and the votes (R231, R232), the intersections (R233, R234). -/

namespace Sys2Proof.Machine

/-! ### A cross-lane word (R227) -/

theorem laned_iff {e : Env} : e.laned ↔ (e.grp.span && !e.solo) = false := by
  rw [Bool.and_eq_false_iff, Bool.not_eq_false']; rfl

/-- The acting threads a word reads with are the ones it executes for. -/
theorem Executes.acting {s : State} {sh : Shape} {e : Env} (he : Executes s sh e) :
    Acting (s.prepare e sh).2 ∧ (s.prepare e sh).2.members = e.members :=
  ⟨prepare_acting he.acts sh, (prepare_reads s e sh).1.members⟩

section
variable {i : Instr} {sh : Shape} {f : Env → Env}

/-- Outside a span a cross-lane word completes with what it makes of its environment. -/
theorem cross_done (hi : ∀ s, exec i s = s.cross sh f) {s : State} {e : Env} (he : Executes s sh e)
    (hl : (s.prepare e sh).2.laned) :
    exec i s = .next ((s.prepare e sh).1.finish (f (s.prepare e sh).2) e.grp sh) :=
  (hi s).trans (runWord_done (sh := fun _ => sh) he (if_neg (by rw [laned_iff.mp hl]; decide)))

theorem cross_expands (hi : ∀ s, exec i s = s.cross sh f) : Expands i (fun _ => sh) fun e => ¬e.laned :=
  expands_of_runWord hi fun _ _ hl => if_pos ((Bool.eq_false_or_eq_true _).resolve_right (mt laned_iff.mpr hl))

end

theorem samePred_at {e : Env} (ha : Acting e) (hl : e.laned) (b : Bool) (lo : Nat) {p : Nat} (hp : p ∈ e.members) :
    (e.samePred b).at lo p = b := by
  unfold Env.samePred
  split
  · cases b <;> rfl
  · have hp32 : p < 32 := ha.lanes hl p hp
    cases b
    · simp [PRes.at, bit_eq_testBit]
    · show bit (BitVec.allOnes 32).toNat p = true
      rw [bit_eq_testBit, BitVec.toNat_allOnes, Nat.testBit_two_pow_sub_one, decide_eq_true hp32]

theorem sameWord_wide (e : Env) (wide : Bool) (x : Int) : (e.sameWord wide x).wide = wide := by
  unfold Env.sameWord lanesRes
  cases wide <;> split <;> rfl

section
variable {i : Instr} {sh : Shape} {wide : Bool}

/-- A cross-lane word that writes one value for all members. -/
theorem sameWord_of_cross {d : RegN} {v : Env → Int}
    (hi : ∀ s, exec i s = s.cross sh fun e => e.write d.toNat (e.sameWord wide (v e))) :
    SameWord i (fun _ => sh) d wide Env.laned v := by
  intro s e he hl
  obtain ⟨ha, hm⟩ := he.acting
  refine ⟨_, sameWord_wide _ _ _, fun p hp => ?_, fun hw => ?_, cross_done hi he hl⟩
  · exact (sameWord_at ha (hm ▸ hp)).2
  · rw [← (prepare_reads s e sh).1.solo] at hw
    exact if_pos hw

/-- A cross-lane word that writes each member its own value. -/
theorem laneWord_of_cross {d : RegN} {v w : Env → Nat → Int}
    (hi : ∀ s, exec i s = s.cross sh fun e => e.write d.toNat (lanesRes wide (v e))) (hv : ∀ e p, v e p = w e p) :
    LaneWord i sh d wide (fun _ => false) w := by
  obtain rfl : v = w := funext₂ hv
  intro s e he
  obtain ⟨ha, hm⟩ := he.acting
  refine ⟨fun hok => ?_, fun hl _ => cross_expands hi s e he.acts he.clear hl⟩
  have hl : (s.prepare e sh).2.laned := hok.resolve_right nofun
  refine ⟨lanesRes wide (v (s.prepare e sh).2), by cases wide <;> rfl, fun p hp => ?_, cross_done hi he hl⟩
  exact (lanesRes_at (ha.lanes hl p (hm ▸ hp))).2

/-- A cross-lane word that writes one truth for all members. -/
theorem predWord_of_cross {pd : PredN} {t : Env → Bool}
    (hi : ∀ s, exec i s = s.cross sh fun e => e.pwrite pd.toNat (e.samePred (t e))) :
    PredWord i sh pd (fun e _ => t e) fun _ => none := by
  intro s e he
  obtain ⟨ha, hm⟩ := he.acting
  refine ⟨fun hok => ?_, fun hl _ => cross_expands hi s e he.acts he.clear hl⟩
  have hl : (s.prepare e sh).2.laned := hok.resolve_right nofun
  exact ⟨_, fun p hp => samePred_at ha hl _ _ (hm ▸ hp), cross_done hi he hl⟩

end

/-! ### Reductions (R229) -/

theorem wrap_add (n x y : Nat) : wrap n ((x : Int) + y) = (x + y) % 2 ^ n := by
  rw [← Nat.cast_add, wrap_natCast]

theorem pickInt_least (signed : Bool) (x y : Nat) :
    pickInt signed true x y = if baseAs signed 32 x ≤ baseAs signed 32 y then x else y := by
  by_cases h : baseAs signed 32 x ≤ baseAs signed 32 y <;> simp [pickInt, h]

theorem pickInt_greatest (signed : Bool) (x y : Nat) :
    pickInt signed false x y = if baseAs signed 32 x ≤ baseAs signed 32 y then y else x := by
  by_cases h : baseAs signed 32 x ≤ baseAs signed 32 y <;> simp [pickInt, h]

theorem pickInt_unsigned_least (x y : Nat) : pickInt false true x y = min x y := by
  simp only [pickInt_least, baseAs, Bool.false_eq_true, if_false, Nat.cast_le, Nat.min_def]

theorem pickInt_unsigned_greatest (x y : Nat) : pickInt false false x y = max x y := by
  simp only [pickInt_greatest, baseAs, Bool.false_eq_true, if_false, Nat.cast_le, Nat.max_def]

/-- A reduction, said once: one value for all members, and a span expands. -/
theorem reduce_run {i : Instr} {d a : RegN} {dw aw : Bool} {st : BitVec 2} {prep : BitVec 3 → Nat → Nat}
    {op : BitVec 3 → Nat → Nat → Nat} (hi : ∀ s, exec i s = s.reduce d a dw aw st prep op) :
    SameWord i (fun _ => crossShape (regsOf dw d.toNat) (regsOf aw a.toNat) 6 st) d dw Env.laned (fun e =>
      ((tree (op (e.grp.lane e.first).fpctl)
        (e.laneVals fun p => prep (e.grp.lane e.first).fpctl (e.val aw a.toNat p))).getD 0 : Nat)) ∧
    Expands i (fun _ => crossShape (regsOf dw d.toNat) (regsOf aw a.toNat) 6 st) fun e => ¬e.laned :=
  ⟨sameWord_of_cross hi, cross_expands hi⟩

/-! ### Scans (R230) -/

/-- A scan's value for a lane is the tree over the members up to it, or below it (R228). -/
theorem scanVal_laneVals (op : Nat → Nat → Nat) (e : Env) (f : Nat → Nat) (excl : Bool) (ident p : Nat) :
    scanVal op (e.laneVals f) excl ident p =
      (tree op ((upto 0 32).map fun q =>
        if e.members.contains q && (decide (q < p) || (q == p && !excl)) then some (f q) else none)).getD ident := by
  have hzip : ∀ g : Nat → Option Nat, (upto 0 32).zip ((upto 0 32).map g) = (upto 0 32).map fun q => (q, g q) :=
    fun g => by simpa using List.zip_map' (f := id) (g := g) (l := upto 0 32)
  simp only [scanVal, Env.laneVals, hzip, List.map_map, Function.comp_def]
  congr 2
  refine List.map_congr_left fun q _ => ?_
  cases e.members.contains q <;> simp only [Bool.true_and, Bool.false_and, Bool.false_eq_true, if_true, if_false, ite_self]

/-- A scan, said once: each member its own value, and a span expands. -/
theorem scan_run {i : Instr} {d a : RegN} {st : BitVec 2} {excl : Bool} {prep : BitVec 3 → Nat → Nat}
    {op : BitVec 3 → Nat → Nat → Nat} (hi : ∀ s, exec i s = s.scan d a st excl prep op) :
    LaneWord i (crossShape [d.toNat] [a.toNat] 6 st) d false (fun _ => false) fun e p =>
      ((tree (op (e.grp.lane e.first).fpctl) ((upto 0 32).map fun q =>
        if e.members.contains q && (decide (q < p) || (q == p && !excl)) then
          some (prep (e.grp.lane e.first).fpctl (e.val false a.toNat q)) else none)).getD 0 : Nat) := by
  exact laneWord_of_cross hi fun e p => congrArg Nat.cast (scanVal_laneVals _ e _ excl 0 p)

/-! ### The words of R229 and R230 -/

theorem exec_redi (d a : RegN) (mode : RediMode) (st : BitVec 2) (s : State) :
    exec (.redi d a mode st) s = s.reduce d a false false st (fun _ x => x) fun _ x y => match mode with
      | .add => (x + y) % 2 ^ 32
      | .min => if sext 32 x ≤ sext 32 y then x else y
      | .max => if sext 32 x ≤ sext 32 y then y else x
      | .and => x &&& y := by
  show execRedi d a mode st s = _
  unfold execRedi
  congr 1
  funext _ x y
  cases mode with
  | add => exact wrap_add 32 x y
  | min => exact pickInt_least true x y
  | max => exact pickInt_greatest true x y
  | and => rfl

theorem exec_redn (d a : RegN) (mode : RednMode) (st : BitVec 2) (s : State) :
    exec (.redn d a mode st) s = s.reduce d a (mode == .wadd) false st (fun _ x => x) fun _ x y => match mode with
      | .wadd => x + y
      | .min => min x y
      | .max => max x y
      | .or => x ||| y := by
  show execRedn d a mode st s = _
  unfold execRedn
  congr 1
  funext _ x y
  cases mode with
  | wadd => rfl
  | min => exact pickInt_unsigned_least x y
  | max => exact pickInt_unsigned_greatest x y
  | or => rfl

theorem exec_redf (d a : RegN) (mode : RedfMode) (st : BitVec 2) (s : State) :
    exec (.redf d a mode st) s =
      s.reduce d a false false st (fun c x => Fmt.f32.returned (ftzOf c) x) (redfOp .f32 mode) := rfl

theorem exec_redd (d a : RegN) (mode : RedfMode) (st : BitVec 2) (s : State) :
    exec (.redd d a mode st) s =
      s.reduce d a true true st (fun _ x => Fmt.f64.returned false x) (redfOp .f64 mode) := rfl

theorem exec_scani (d a : RegN) (mode : ScaniMode) (st : BitVec 2) (s : State) :
    exec (.scani d a mode st) s = s.scan d a st (mode == .excl) (fun _ x => x) fun _ x y => match mode with
      | .incl => (x + y) % 2 ^ 32
      | .excl => (x + y) % 2 ^ 32
      | .max => if sext 32 x ≤ sext 32 y then y else x
      | .nmax => max x y := by
  show execScani d a mode st s = _
  unfold execScani
  congr 1
  funext _ x y
  cases mode with
  | incl => exact wrap_add 32 x y
  | excl => exact wrap_add 32 x y
  | max => exact pickInt_greatest true x y
  | nmax => exact pickInt_unsigned_greatest x y

theorem exec_scanf (d a : RegN) (mode : ScanfMode) (st : BitVec 2) (s : State) :
    exec (.scanf d a mode st) s =
      s.scan d a st (mode == .excl) (fun c x => Fmt.f32.returned (ftzOf c) x) (redfOp .f32 (match mode with
        | .incl => .add
        | .excl => .add
        | .max => .max
        | .min => .min)) := rfl

/-- Settles O11: each word is the shared reduction or scan, with its rule's operation on its rule's operand. -/
theorem reductionsAndScans : Obligations.ReductionsAndScans := by
  refine ⟨fun d a mi mn mf st => ⟨?redi, ?redn, ?redf, ?redd⟩, fun d a mi mf st => ⟨?scani, ?scanf⟩⟩
  case redi => exact (reduce_run (exec_redi d a mi st) :)
  case redn => exact (reduce_run (exec_redn d a mn st) :)
  case redf => exact (reduce_run (exec_redf d a mf st) :)
  case redd => exact (reduce_run (exec_redd d a mf st) :)
  case scani => exact (scan_run (exec_scani d a mi st) :)
  case scanf => cases mf <;> exact (scan_run (exec_scanf d a _ st) :)

/-! ### Broadcasts and votes (R231, R232) -/

theorem exec_bcast (d a : RegN) (src : BcastSrc) (st : BitVec 2) (s : State) :
    exec (.bcast d a src st) s =
      s.cross { crossShape [d.toNat] [a.toNat] 6 st with firsts := match src with
        | .reg b => [b.toNat]
        | _ => [] } fun e =>
        let l := match src with
          | .lane n => n.toNat
          | .reg b => e.val false b.toNat e.first % 32
          | .last => e.members.foldl max 0
        e.write d.toNat (e.sameWord false (if l ∈ e.members then (e.val false a.toNat l : Int) else 0)) := by
  simp only [← List.contains_iff_mem]
  cases src <;> rfl

section
variable (d : RegN) (pd ps : PredN) (st : BitVec 2) (s : State)

theorem exec_voteAll : exec (.vote (.all pd) ps st) s =
    s.cross { crossShape [] [] 6 st with pdsts := predDst pd.toNat, psrcs := [ps.toNat] } fun e =>
      e.pwrite pd.toNat (e.samePred (e.members.all (e.pval ps.toNat))) := rfl

theorem exec_voteAny : exec (.vote (.any pd) ps st) s =
    s.cross { crossShape [] [] 6 st with pdsts := predDst pd.toNat, psrcs := [ps.toNat] } fun e =>
      e.pwrite pd.toNat (e.samePred (e.members.any (e.pval ps.toNat))) := rfl

/-- No member's truth holds exactly where each member's fails. -/
theorem exec_voteEq : exec (.vote (.eq pd) ps st) s =
    s.cross { crossShape [] [] 6 st with pdsts := predDst pd.toNat, psrcs := [ps.toNat] } fun e =>
      e.pwrite pd.toNat (e.samePred (e.members.all (e.pval ps.toNat) || e.members.all fun p => !e.pval ps.toNat p)) := by
  simp only [← List.not_any_eq_all_not]
  rfl

theorem exec_voteBallot : exec (.vote (.ballot d) ps st) s =
    s.cross { crossShape [d.toNat] [] 6 st with psrcs := [ps.toNat] } fun e =>
      e.write d.toNat (e.sameWord false ((maskOf (e.members.filter (e.pval ps.toNat))).toNat : Int)) := rfl

end

/-- Settles O13: each word writes one value, or one truth, for all members. -/
theorem broadcastsAndVotes : Obligations.BroadcastsAndVotes := by
  intro d a src pd ps st
  refine ⟨?bcast, ?bcastSpan, ?all, ?any, ?eq, ?ballot, ?ballotSpan⟩
  case bcast => exact sameWord_of_cross (exec_bcast d a src st)
  case bcastSpan => exact cross_expands (exec_bcast d a src st)
  case all => exact predWord_of_cross (exec_voteAll pd ps st)
  case any => exact predWord_of_cross (exec_voteAny pd ps st)
  case eq => exact predWord_of_cross (exec_voteEq pd ps st)
  case ballot => exact sameWord_of_cross (exec_voteBallot d ps st)
  case ballotSpan => exact cross_expands (exec_voteBallot d ps st)

/-! ### Intersections (R233, R234) -/

theorem exec_isect (d a b : RegN) (st : BitVec 2) (s : State) :
    exec (.isect d a b st) s = s.cross (crossShape (upto d.toNat 4) [a.toNat, b.toNat] 8 st) fun e =>
      let A := e.val false a.toNat
      let B := e.val false b.toNat
      let top (f : Nat → Nat) : Nat := (e.members.map f).foldl max 0
      let count (f : Nat → Nat) : Nat := (e.members.filter fun p => decide (f p ≤ min (top A) (top B))).length
      ((e.write d.toNat (lanesRes false fun p => (matchLane e.members B (A p) : Nat))).write (d.toNat + 1)
        (lanesRes false fun p => (matchLane e.members A (B p) : Nat))).write (d.toNat + 2)
        (e.sameWord true ((count A + 2 ^ 32 * count B : Nat) : Int)) := rfl

/-- The 1 bits of the entries at some positions. -/
def onesAt (f : Nat → Nat) (ps : List Nat) : Nat := (ps.map fun p => popc 32 (f p)).sum

theorem foldl_popc (f : Nat → Nat) (ps : List Nat) : ps.foldl (fun n p => n + popc 32 (f p)) 0 = onesAt f ps := by
  rw [onesAt, List.sum_eq_foldl, List.foldl_map]

/-- A truth of each member's own, as ISECTB writes it (R234); one truth on a control core. -/
def Env.memberPred (e : Env) (t : Nat → Bool) : PRes :=
  if e.solo then .cut (Cut.ofBool (t e.first)) else .bits (maskOf (e.members.filter t))

theorem first_of_solo {e : Env} (h : e.solo = true) : e.first = 0 := if_pos (by rw [h, Bool.or_true])

theorem memberPred_at {e : Env} (ha : Acting e) (hl : e.laned) (t : Nat → Bool) (lo : Nat) {p : Nat} (hp : p ∈ e.members) :
    (e.memberPred t).at lo p = t p := by
  unfold Env.memberPred
  split
  · next hs =>
    rw [ha.solo hs, List.mem_singleton] at hp
    rw [first_of_solo hs, hp]
    cases t 0 <;> rfl
  · show bit (maskOf (e.members.filter t)).toNat p = t p
    rw [bit_maskOf (ha.lanes hl p hp)]
    simp [hp]

theorem exec_isectb (d a b : RegN) (pk : BitVec 2) (st : BitVec 2) (s : State) :
    exec (.isectb d a b pk st) s =
      s.cross { crossShape (upto d.toNat 4) [a.toNat, b.toNat] 8 st with pdsts := [pk.toNat] } fun e =>
        let A := e.val false a.toNat
        let B := e.val false b.toNat
        let below (p : Nat) : List Nat := e.members.filter fun q => decide (q < p)
        ((((e.write d.toNat (lanesRes false fun p => (A p &&& B p : Nat))).write (d.toNat + 1)
          (lanesRes false fun p => (onesAt A (below p) : Nat))).write (d.toNat + 2)
          (lanesRes false fun p => (onesAt B (below p) : Nat))).write (d.toNat + 3)
          (e.sameWord false ((onesAt A e.members + 2 ^ 16 * onesAt B e.members : Nat) : Int))).pwrite pk.toNat
          (e.memberPred fun p => A p &&& B p ≠ 0) := by
  show execIsectb d a b pk st s = _
  unfold execIsectb Env.memberPred
  simp only [foldl_popc]
  congr 1
  funext e
  split <;> rfl

/-- Settles O14: the lists' matches and counts in three results of ISECT; the common bits, the ones below each member,
the totals and the flags in five of ISECTB. -/
theorem intersections : Obligations.Intersections := by
  intro d a b pk st
  refine ⟨fun s e he hl => ?isect, fun s e he hl => ?isectb, ?isectSpan, ?isectbSpan⟩
  case isect =>
    obtain ⟨ha, hm⟩ := he.acting
    refine ⟨_, _, _, rfl, rfl, sameWord_wide _ _ _, fun p hp => ?_, cross_done (exec_isect d a b st) he hl⟩
    have hp := hm ▸ hp
    have hp32 := ha.lanes hl p hp
    exact ⟨(lanesRes_at hp32).2, (lanesRes_at hp32).2, (sameWord_at ha hp).2⟩
  case isectb =>
    obtain ⟨ha, hm⟩ := he.acting
    refine ⟨_, _, _, _, _, fun p hp => ?_, cross_done (exec_isectb d a b pk st) he hl⟩
    have hp := hm ▸ hp
    have hp32 := ha.lanes hl p hp
    exact ⟨(lanesRes_at hp32).2, (lanesRes_at hp32).2, (lanesRes_at hp32).2, (sameWord_at ha hp).2,
      memberPred_at ha hl _ _ hp⟩
  case isectSpan => exact cross_expands (exec_isect d a b st)
  case isectbSpan => exact cross_expands (exec_isectb d a b pk st)

end Sys2Proof.Machine
end

