-- ==== Sys2Proof/Proofs/FloatCompares.lean ====
section
/-! PROOF. The float compares: one predicate per element, and a cut of one truth in a span of uniform operands (R235); and
the classification FCLASS as a lane word (R236). -/

namespace Sys2Proof.Machine

/-! ### Results of a float compare -/

/-- The truth of a float compare on an element of two operands, for a thread under its FTZ (R235). -/
def Env.floatTest (e : Env) (f : Fmt) (wide : Bool) (a b : RegN) (m : FCond) (el : Nat → Nat) (p : Nat) : Bool :=
  fcondHolds m (f.fin (ftzOf (e.grp.lane p).fpctl) (el (e.val wide a.toNat p)))
    (f.fin (ftzOf (e.grp.lane p).fpctl) (el (e.val wide b.toNat p)))

/-- The predicate a float compare writes: one truth in a span, else a bit per lane. -/
def Env.floatPred (e : Env) (t : Nat → Bool) : PRes :=
  if e.grp.span then .cut (Cut.ofBool (t 0)) else .bits (maskOf ((upto 0 32).filter t))

/-- Both operands of a float compare are uniform. -/
def Env.uniform2 (e : Env) (wide : Bool) (a b : RegN) : Bool := e.uniform wide a.toNat && e.uniform wide b.toNat

theorem lane_fpctl_of_span {g : Grp} (h : g.span = true) (p : Nat) : (g.lane p).fpctl = (g.lane 0).fpctl := by
  simp only [Grp.lane, h, if_true]
  cases g.lanes.find? fun x => x.lane == 0 <;> rfl

/-- In a span of uniform operands every acting thread's truth is the first position's. -/
theorem floatTest_uniform {e : Env} (ha : Acting e) (hl : ¬e.laned) {wide : Bool} {a b : RegN}
    (hu : e.uniform2 wide a b = true) (f : Fmt) (m : FCond) (el : Nat → Nat) {p : Nat} (hp : p ∈ e.members) :
    e.floatTest f wide a b m el p = e.floatTest f wide a b m el 0 := by
  rw [laned_iff, Bool.not_eq_false, Bool.and_eq_true, Bool.not_eq_true'] at hl
  obtain ⟨hsp, hso⟩ := hl
  obtain ⟨hua, hub⟩ := Bool.and_eq_true_iff.mp hu
  have hfirst : e.first = 0 := if_pos (by rw [hsp, Bool.true_or])
  obtain ⟨h0, hpv⟩ := acting_first ha hso hp
  rw [hfirst] at h0
  rw [Env.floatTest, Env.floatTest, uniform_val hua hpv h0, uniform_val hub hpv h0, lane_fpctl_of_span hsp]

theorem floatPred_at {e : Env} (ha : Acting e) {t : Nat → Bool} (ht : e.laned ∨ ∀ p ∈ e.members, t p = t 0) (lo : Nat)
    {p : Nat} (hp : p ∈ e.members) : (e.floatPred t).at lo p = t p := by
  unfold Env.floatPred
  split
  · next hsp =>
    have h0 : t p = t 0 := by
      rcases ht with (h | h) | h
      · rw [hsp] at h; cases h
      · rw [ha.solo h, List.mem_singleton] at hp; rw [hp]
      · exact h p hp
    rw [h0]
    cases t 0 <;> rfl
  · next hsp =>
    have hp32 : p < 32 := ha.lanes (.inl (Bool.eq_false_of_not_eq_true hsp)) p hp
    show bit (maskOf ((upto 0 32).filter t)).toNat p = t p
    rw [bit_maskOf hp32]
    simp [mem_upto, hp32]

/-! ### The shared float compare -/

/-- The shape of a float compare that writes some predicates. -/
def fcompareShape (wide : Bool) (lat : Nat) (a b : RegN) (st : BitVec 2) (ps : List Nat) : Shape :=
  { crossShape [] (regsOf wide a.toNat ++ regsOf wide b.toNat) lat st with pdsts := ps }

section
variable {i : Instr} {f : Fmt} {wide : Bool} {lat : Nat} {outs : List (Nat × (Nat → Nat))} {a b : RegN} {m : FCond}
  {st : BitVec 2} {ps : List Nat}

/-- What a float compare does: the span expands where an operand is not uniform, else each predicate is written. -/
theorem fcompare_eq (s : State) (hps : (outs.flatMap fun x => predDst x.1) = ps) :
    s.fcompare f wide lat outs a b m st = s.runWord (fun _ => fcompareShape wide lat a b st ps) fun s e =>
      if (e.grp.span && !e.solo && !e.uniform2 wide a b) = true then .expand
      else .done s (outs.foldl (fun k x => k.pwrite x.1 (e.floatPred (e.floatTest f wide a b m x.2))) e) := by
  subst hps
  rfl

theorem fcompare_expands (hi : ∀ s, exec i s = s.fcompare f wide lat outs a b m st)
    (hps : (outs.flatMap fun x => predDst x.1) = ps) :
    Expands i (fun _ => fcompareShape wide lat a b st ps) fun e => ¬e.laned ∧ e.uniform2 wide a b = false := by
  refine expands_of_runWord (fun s => (hi s).trans (fcompare_eq s hps)) fun _ e ⟨hl, hu⟩ => if_pos ?_
  rw [(Bool.eq_false_or_eq_true _).resolve_right (mt laned_iff.mpr hl), hu]
  rfl

/-- Where it completes, each predicate gives every acting thread its element's truth. -/
theorem fcompare_done (hi : ∀ s, exec i s = s.fcompare f wide lat outs a b m st)
    (hps : (outs.flatMap fun x => predDst x.1) = ps) {s : State} {e : Env} (he : Executes s (fcompareShape wide lat a b st ps) e)
    (hok : (s.prepare e (fcompareShape wide lat a b st ps)).2.laned ∨
      (s.prepare e (fcompareShape wide lat a b st ps)).2.uniform2 wide a b = true) :
    let x := (s.prepare e (fcompareShape wide lat a b st ps)).2
    (∀ el, ∀ p ∈ e.members, (x.floatPred (x.floatTest f wide a b m el)).at e.grp.lo p = x.floatTest f wide a b m el p) ∧
    exec i s = .next ((s.prepare e (fcompareShape wide lat a b st ps)).1.finish
      (outs.foldl (fun k y => k.pwrite y.1 (x.floatPred (x.floatTest f wide a b m y.2))) x) e.grp
      (fcompareShape wide lat a b st ps)) := by
  obtain ⟨ha, hm⟩ := he.acting
  refine ⟨fun el p hp => floatPred_at ha ?_ _ (hm ▸ hp),
    ((hi s).trans (fcompare_eq s hps)).trans (runWord_done (sh := fun _ => fcompareShape wide lat a b st ps) he (if_neg ?_))⟩
  · rw [or_iff_not_imp_left]
    exact fun hl q hq => floatTest_uniform ha hl (hok.resolve_left hl) f m el hq
  · rcases hok with h | h
    · rw [laned_iff.mp h, Bool.false_and]; exact Bool.false_ne_true
    · rw [h, Bool.not_true, Bool.and_false]; exact Bool.false_ne_true

/-- A float compare of whole operands writes one predicate. -/
theorem fcompare_run {pd : PredN} (hi : ∀ s, exec i s = s.fcompare f wide lat [(pd.toNat, id)] a b m st)
    (hps : predDst pd.toNat = ps) :
    PredWord i (fcompareShape wide lat a b st ps) pd (fun e => e.floatTest f wide a b m id) fun e =>
      if e.uniform2 wide a b then some (Cut.ofBool (e.floatTest f wide a b m id 0)) else none := by
  have hps : ([(pd.toNat, id)].flatMap fun x : Nat × (Nat → Nat) => predDst x.1) = ps := by simpa using hps
  refine fun s e he => ⟨fun hok => ?_, fun hl hn => fcompare_expands hi hps s e he.acts he.clear ⟨hl, ?_⟩⟩
  · obtain ⟨hat, hrun⟩ := fcompare_done hi hps he (hok.imp_right fun h => by by_contra hu; simp [hu] at h)
    exact ⟨_, hat id, hrun⟩
  · by_contra hu
    simp [hu] at hn

end

/-! ### The words -/

theorem exec_fcmp (pd : PredN) (a b : RegN) (m : FCond) (st : BitVec 2) (s : State) :
    exec (.fcmp pd a b m st) s = s.fcompare .f32 false 4 [(pd.toNat, id)] a b m st := rfl

theorem exec_dcmp (pd : PredN) (a b : RegN) (m : FCond) (st : BitVec 2) (s : State) :
    exec (.dcmp pd a b m st) s = s.fcompare .f64 true 8 [(pd.toNat, id)] a b m st := rfl

theorem exec_hcmp2 (pd : PredN) (a b : RegN) (m : FCond) (st : BitVec 2) (s : State) :
    exec (.hcmp2 pd a b m st) s =
      s.fcompare .f16 false 4 [(pd.toNat, (· % 2 ^ 16)), (pd.toNat + 1, (· / 2 ^ 16))] a b m st := rfl

theorem exec_fclass (d a : RegN) (k : FclassFmt) (st : BitVec 2) (s : State) :
    exec (.fclass d a k st) s =
      s.lane ⟨if k == .f64 then 8 else 4, false, false⟩ d.toNat [(a.toNat, k == .f64)] [] st fun _ _ l =>
        2 ^ classBit (fclassFmt k) (nth l 0 0 % 2 ^ (fclassFmt k).width) := rfl

theorem flatMap_predDst_pair (p q : Nat) (f g : Nat → Nat) :
    ([(p, f), (q, g)].flatMap fun x : Nat × (Nat → Nat) => predDst x.1) = predDst p ++ predDst q := by
  simp

/-- Settles O15: the compares are the shared float compare of one or two elements, FCLASS a lane word of its class bit. -/
theorem floatComparesAndClasses : Obligations.FloatComparesAndClasses := by
  intro d a b pd m k st
  refine ⟨?fcmp, ?dcmp, fun s e he hok => ?hcmp2, ?hcmp2Span, ?fclass⟩
  case fcmp => cases m <;> exact fcompare_run (exec_fcmp pd a b _ st) rfl
  case dcmp => cases m <;> exact fcompare_run (exec_dcmp pd a b _ st) rfl
  case hcmp2 =>
    obtain ⟨hat, hrun⟩ := fcompare_done (exec_hcmp2 pd a b m st) (flatMap_predDst_pair _ _ _ _) he hok
    refine ⟨_, _, fun p hp => ⟨(hat _ p hp).trans ?_, (hat _ p hp).trans ?_⟩, hrun⟩ <;> cases m <;> rfl
  case hcmp2Span => exact fcompare_expands (exec_hcmp2 pd a b m st) (flatMap_predDst_pair _ _ _ _)
  case fclass => exact laneRow_of_lane (exec_fclass d a k st) fun _ _ _ _ _ => rfl

end Sys2Proof.Machine
end

