-- ==== Sys2Proof/Proofs/WordsEncode.lean ====
section
/-! PROOF. The word of an instruction, read back field by field: every well-formed instruction decodes from its word (R142 to R152). -/

namespace Sys2Proof

/-! ### Fields of a word (R5, R10) -/

theorem chk_eq_ok {c3 c4 c5 c14 : Bool} {i j : Instr} :
    chk c3 c4 c5 c14 i = .ok j ↔ c3 = false ∧ c4 = false ∧ c5 = false ∧ c14 = false ∧ i = j := by
  cases c3 <;> cases c4 <;> cases c5 <;> cases c14 <;> simp [chk]

theorem toNat_regAt (w lo : Nat) : (regAt w lo).toNat = fld w (lo + 5) lo := by simp [regAt, fld]

theorem toNat_predAt (w lo : Nat) : (predAt w lo).toNat = fld w (lo + 2) lo := by simp [predAt, fld]

theorem toNat_immAt (m w lo : Nat) : (immAt (m + 1) w lo).toNat = fld w (lo + m) lo := by simp [immAt, fld]

theorem bnat_lt (b : Bool) : bnat b < 2 := by cases b <;> decide

theorem bnat_bitAt (w n : Nat) : bnat (bitAt w n) = fld w n n := by
  have := Nat.mod_lt (w / 2 ^ n) (show 2 > 0 by decide)
  simp only [bnat, bitAt, fld, beq_iff_eq, Nat.sub_self]
  split <;> omega

theorem bitAt_eq_false {w n : Nat} : bitAt w n = false ↔ fld w n n = 0 := by
  rw [← bnat_bitAt]; cases bitAt w n <;> simp [bnat]

/-- The low bit of a field is its number's parity. -/
theorem bitAt_fld (w hi lo : Nat) : bitAt w lo = (fld w hi lo % 2 == 1) := by
  rw [bitAt, fld, Nat.mod_mod_of_dvd _ (dvd_pow_self 2 (Nat.succ_ne_zero _))]

/-- The high bit of a field. -/
theorem bitAt_top (w lo m : Nat) : bitAt w (lo + m) = (fld w (lo + m) lo / 2 ^ m == 1) := by
  rw [bitAt, fld, Nat.add_sub_cancel_left, pow_succ, Nat.mod_mul_right_div_self, Nat.div_div_eq_div_mul, ← pow_add]

/-- The low bits of a field are a field. -/
theorem fld_mod (w lo k m : Nat) (h : k ≤ m) : fld w (lo + m) lo % 2 ^ (k + 1) = fld w (lo + k) lo := by
  rw [fld, fld, Nat.add_sub_cancel_left, Nat.add_sub_cancel_left, Nat.mod_mod_of_dvd _ (pow_dvd_pow 2 (by omega))]

theorem oddReg_eq (r : RegN) : oddReg r = (r.toNat % 2 == 1) := by
  rw [Bool.eq_iff_iff]
  simp [oddReg, BitVec.getElem_eq_testBit_toNat, Nat.testBit_eq_decide_div_mod_eq]

theorem badQuad_eq (r : RegN) : badQuad r = (r.toNat % 4 != 0) := by
  rw [Bool.eq_iff_iff]
  simp [badQuad, BitVec.getElem_eq_testBit_toNat, Nat.testBit_eq_decide_div_mod_eq]
  omega

theorem oddReg_regAt (w lo : Nat) : oddReg (regAt w lo) = bitAt w lo := by
  rw [oddReg_eq, toNat_regAt, ← bitAt_fld]

theorem badQuad_regAt (w lo : Nat) : badQuad (regAt w lo) = (fld w (lo + 1) lo != 0) := by
  rw [badQuad_eq, toNat_regAt]; exact congrArg (· != 0) (fld_mod w lo 1 5 (by decide))

/-! ### Layouts -/

/-- A field of a word, with the value it has. -/
inductive Field where
  | reg (r : RegN)
  | pred (p : PredN)
  | imm (m : Nat) (x : BitVec (m + 1))
  | bit (b : Bool)
  | code (m c : Nat) (h : c < 2 ^ (m + 1))

/-- The index of a field's top bit in the field. -/
def Field.top : Field → Nat
  | .reg _ => 5
  | .pred _ => 2
  | .imm m _ => m
  | .bit _ => 0
  | .code m _ _ => m

/-- The number in a field. -/
def Field.val : Field → Nat
  | .reg r => r.toNat
  | .pred p => p.toNat
  | .imm _ x => x.toNat
  | .bit b => bnat b
  | .code _ c _ => c

/-- A reserved field of m + 1 bits. -/
def Field.zero (m : Nat) : Field := .code m 0 (Nat.two_pow_pos _)

theorem Field.val_lt (f : Field) : f.val < 2 ^ (f.top + 1) := by
  cases f with
  | reg r => exact r.isLt
  | pred p => exact p.isLt
  | imm m x => exact x.isLt
  | bit b => exact bnat_lt b
  | code m c h => exact h

/-- The bits of some fields. -/
def width : List Field → Nat
  | [] => 0
  | f :: r => f.top + 1 + width r

/-- The number that some fields make up, from the top. -/
def packed : List Field → Nat
  | [] => 0
  | f :: r => f.val * 2 ^ width r + packed r

/-- What the decoder reads of a field at bit lo. -/
def Field.reads (n lo : Nat) : Field → Prop
  | .reg r => fld n (lo + 5) lo = r.toNat ∧ regAt n lo = r ∧ bitAt n lo = oddReg r ∧ (fld n (lo + 1) lo != 0) =
    badQuad r
  | .pred p => fld n (lo + 2) lo = p.toNat ∧ predAt n lo = p ∧ bitAt n lo = p.getLsbD 0
  | .imm m x => fld n (lo + m) lo = x.toNat ∧ immAt (m + 1) n lo = x
  | .bit b => fld n lo lo = bnat b ∧ bitAt n lo = b
  | .code m c _ => fld n (lo + m) lo = c ∧ bitAt n lo = (c % 2 == 1) ∧
      bitAt n (lo + m) = (c / 2 ^ m == 1)

/-- The decoder reads some fields that end the word n. -/
def Reads (n : Nat) : List Field → Prop
  | [] => True
  | f :: r => f.reads n (width r) ∧ Reads n r

theorem packed_lt (l : List Field) : packed l < 2 ^ width l := by
  induction l with
  | nil => simp [packed, width]
  | cons f r ih =>
    have : (f.val + 1) * 2 ^ width r ≤ 2 ^ (f.top + 1) * 2 ^ width r := Nat.mul_le_mul_right _ f.val_lt
    rw [packed, width, pow_add]
    linarith

/-- A field of a number whose value is known is what the decoder reads. -/
theorem Field.reads_of_fld {n lo : Nat} (f : Field) (h : fld n (lo + f.top) lo = f.val) : f.reads n lo := by
  cases f with
  | reg r =>
    have hr : regAt n lo = r := BitVec.eq_of_toNat_eq ((toNat_regAt n lo).trans h)
    exact ⟨h, hr, by rw [← hr, oddReg_regAt], by rw [← hr, badQuad_regAt]⟩
  | pred p =>
    have hp : predAt n lo = p := BitVec.eq_of_toNat_eq ((toNat_predAt n lo).trans h)
    refine ⟨h, hp, ?_⟩
    rw [bitAt_fld n (lo + 2), show fld n (lo + 2) lo = p.toNat from h, Bool.eq_iff_iff]
    simp [BitVec.getElem_eq_testBit_toNat, Nat.testBit_eq_decide_div_mod_eq]
  | imm m x => exact ⟨h, BitVec.eq_of_toNat_eq ((toNat_immAt m n lo).trans h)⟩
  | bit b =>
    refine ⟨h, ?_⟩
    have h : bnat (bitAt n lo) = bnat b := (bnat_bitAt n lo).trans h
    revert h
    cases bitAt n lo <;> cases b <;> decide
  | code m c hc =>
    have h : fld n (lo + m) lo = c := h
    exact ⟨h, by rw [bitAt_fld n (lo + m), h], by rw [bitAt_top, h]⟩

/-- The digits of a number in a mixed base: the top one, and the rest. -/
theorem fld_of_mod {n lo t v x : Nat} (hx : x < 2 ^ lo) (h : n % 2 ^ (t + 1 + lo) = v * 2 ^ lo + x) :
    fld n (lo + t) lo = v ∧ n % 2 ^ lo = x := by
  rw [Nat.add_comm (t + 1), pow_add, Nat.mul_comm v] at h
  constructor
  · rw [fld, Nat.add_sub_cancel_left, ← Nat.mod_mul_right_div_self, h, Nat.mul_add_div (by positivity),
    Nat.div_eq_of_lt hx,
      Nat.add_zero]
  · rw [← Nat.mod_mul_right_mod n _ (2 ^ (t + 1)), h, Nat.mul_add_mod, Nat.mod_eq_of_lt hx]

/-- The decoder reads the fields that a number is made of. -/
theorem reads_of_mod {n : Nat} {l : List Field} (h : n % 2 ^ width l = packed l) : Reads n l := by
  induction l with
  | nil => trivial
  | cons f r ih =>
    obtain ⟨h1, h2⟩ := fld_of_mod (packed_lt r) h
    exact ⟨f.reads_of_fld h1, ih h2⟩

/-- The word of an opcode K above some fields: its class, its operation, and the fields. -/
theorem reads_word {n K x : Nat} (h : K + x = n) (l : List Field) (k : Nat) (hk : width l = k) (hK : k < 28 ∧ K < 2 ^
    32)
    (hx : x + K % 2 ^ k = packed l) :
    n < 2 ^ 32 ∧ fld n 31 28 = K / 2 ^ 28 ∧ fld n 27 k = K % 2 ^ 28 / 2 ^ k ∧ Reads n l := by
  have hp := packed_lt l
  rw [← hx, hk] at hp
  obtain ⟨hk28, hK⟩ := hK
  have hdiv : n / 2 ^ k = K / 2 ^ k := by
    rw [← h, ← Nat.div_add_mod K (2 ^ k), Nat.add_assoc, Nat.mul_add_div (by positivity), Nat.add_comm (K % 2 ^ k),
      Nat.div_eq_of_lt hp, Nat.div_add_mod]
    rfl
  have hmod : n % 2 ^ k = packed l := by
    rw [← hx, ← h, ← Nat.div_add_mod K (2 ^ k), Nat.add_assoc, Nat.mul_add_mod, Nat.add_comm (K % 2 ^ k),
      Nat.mod_eq_of_lt hp,
      Nat.div_add_mod]
  have up (j : Nat) (hj : k ≤ j) : n / 2 ^ j = K / 2 ^ j := by
    obtain ⟨i, rfl⟩ := Nat.exists_eq_add_of_le hj
    rw [pow_add, ← Nat.div_div_eq_div_mul, hdiv, Nat.div_div_eq_div_mul]
  have hn : n < 2 ^ 32 := by
    have := up 32 (by omega)
    rw [Nat.div_eq_of_lt hK] at this
    exact (Nat.div_eq_zero_iff_lt (by positivity)).mp this
  refine ⟨hn, ?_, ?_, reads_of_mod (hk ▸ hmod)⟩
  · rw [fld, up 28 hk28.le]
    have : K / 2 ^ 28 < 2 ^ 4 := by omega
    exact Nat.mod_eq_of_lt this
  · obtain ⟨j, hj⟩ : ∃ j, 28 = k + (j + 1) := ⟨27 - k, by omega⟩
    rw [fld, hdiv, show 27 - k + 1 = j + 1 by omega, hj, pow_add 2 k, Nat.mod_mul_right_div_self]

theorem decode_ofNat {n : Nat} (h : n < 2 ^ 32) : decode (BitVec.ofNat 32 n) = decodeNat n := by
  rw [decode, BitVec.toNat_ofNat, Nat.mod_eq_of_lt h]

/-- The word of a well-formed instruction decodes to it. -/
def Decodes (i : Instr) : Prop :=
  i.wf = true → ∀ n, encodeNat i = some n → n < 2 ^ 32 ∧ decode (BitVec.ofNat 32 n) = .ok i

theorem bnat_lt_four (b : Bool) : bnat b < 2 ^ (1 + 1) := by cases b <;> decide

theorem bnat_mod_two (b : Bool) : (bnat b % 2 == 1) = b := by cases b <;> rfl

theorem bnat_div_two (b : Bool) : (bnat b / 2 == 1) = false := by cases b <;> rfl

theorem bnat_beq_one (b : Bool) : (bnat b == 1) = b := by cases b <;> rfl

theorem Scope.code_lt3 (x : Scope) : x.code < 2 ^ (2 + 1) := by cases x <;> decide

theorem Cond.legal (c : Cond) : decide (5 < c.code) = false := by cases c <;> rfl

theorem Order.acquires_code (o : Order) : (o.code % 2 == 1) = o.acquires := by cases o <;> rfl

theorem Order.releases_code (o : Order) : (o.code / 2 == 1) = o.releases := by cases o <;> rfl

theorem SpecialReg.readable_code (x : SpecialReg) : SpecialReg.readable x.code = true := by cases x <;> rfl

theorem SpecialReg.writable_code (x : SpecialReg) : SpecialReg.writable x.code = x.wrsNames := by cases x <;> rfl

theorem FenceKind.legal (k : FenceKind) : decide (4 < k.code) = false := by cases k <;> rfl

theorem Scope.legal (k : Scope) : decide (3 < k.code) = false := by cases k <;> rfl

theorem RedfMode.legal (k : RedfMode) : (k.code == 3) = false := by cases k <;> rfl

theorem RednMode.wadd_code (k : RednMode) : (k.code == 0) = (k == .wadd) := by cases k <;> rfl

theorem FclassFmt.f64_code (k : FclassFmt) : (k.code == 1) = (k == .f64) := by cases k <;> rfl

theorem MreadMode.sat_code (k : MreadMode) : (k.code == 3) = (k == .sat) := by cases k <;> rfl

/-- A conversion's code is in range and not reserved, and says what the conversion's name says (R212 to R214). -/
theorem CvtOp.code_spec (x : CvtOp) :
    x.code < 2 ^ (5 + 1) ∧ CvtOp.ofCode x.code = x ∧ CvtOp.reserved x.code = false ∧ CvtOp.satOnly x.code = x.mustSat ∧
      CvtOp.dstWide x.code = x.writesPair ∧ CvtOp.srcWide x.code = x.readsPair := by
  cases x with
  | toInt s d r => cases s <;> cases d <;> cases r <;> exact ⟨by decide, rfl, rfl, rfl, rfl, rfl⟩
  | _ => exact ⟨by decide, rfl, rfl, rfl, rfl, rfl⟩

theorem toNat_bne_zero {w : Nat} (x : BitVec w) : (x.toNat != 0) = (x != 0) := by
  rw [Bool.eq_iff_iff]; simp [← BitVec.toNat_inj]

theorem toNat_beq_seven (p : PredN) : (p.toNat == 7) = (p == 7) := by
  rw [Bool.eq_iff_iff]; simp [← BitVec.toNat_inj]

theorem Cond.ofCode_code (x : Cond) : Cond.ofCode x.code = x := by cases x <;> rfl

theorem Cond.code_lt (x : Cond) : x.code < 2 ^ (2 + 1) := by cases x <;> decide

theorem SpecialReg.ofCode_code (x : SpecialReg) : SpecialReg.ofCode x.code = x := by cases x <;> rfl

theorem SpecialReg.code_lt (x : SpecialReg) : x.code < 2 ^ (5 + 1) := by cases x <;> decide

theorem Scope.ofCode_code (x : Scope) : Scope.ofCode x.code = x := by cases x <;> rfl

theorem Scope.code_lt (x : Scope) : x.code < 2 ^ (1 + 1) := by cases x <;> decide

theorem FenceKind.ofCode_code (x : FenceKind) : FenceKind.ofCode x.code = x := by cases x <;> rfl

theorem FenceKind.code_lt (x : FenceKind) : x.code < 2 ^ (2 + 1) := by cases x <;> decide

theorem Role.ofCode_code (x : Role) : Role.ofCode x.code = x := by cases x <;> rfl

theorem Role.code_lt (x : Role) : x.code < 2 ^ (1 + 1) := by cases x <;> decide

theorem Order.ofCode_code (x : Order) : Order.ofCode x.code = x := by cases x <;> rfl

theorem Order.code_lt (x : Order) : x.code < 2 ^ (1 + 1) := by cases x <;> decide

theorem MreadMode.ofCode_code (x : MreadMode) : MreadMode.ofCode x.code = x := by cases x <;> rfl

theorem MreadMode.code_lt (x : MreadMode) : x.code < 2 ^ (1 + 1) := by cases x <;> decide

theorem RediMode.ofCode_code (x : RediMode) : RediMode.ofCode x.code = x := by cases x <;> rfl

theorem RediMode.code_lt (x : RediMode) : x.code < 2 ^ (1 + 1) := by cases x <;> decide

theorem RednMode.ofCode_code (x : RednMode) : RednMode.ofCode x.code = x := by cases x <;> rfl

theorem RednMode.code_lt (x : RednMode) : x.code < 2 ^ (1 + 1) := by cases x <;> decide

theorem RedfMode.ofCode_code (x : RedfMode) : RedfMode.ofCode x.code = x := by cases x <;> rfl

theorem RedfMode.code_lt (x : RedfMode) : x.code < 2 ^ (1 + 1) := by cases x <;> decide

theorem ScaniMode.ofCode_code (x : ScaniMode) : ScaniMode.ofCode x.code = x := by cases x <;> rfl

theorem ScaniMode.code_lt (x : ScaniMode) : x.code < 2 ^ (1 + 1) := by cases x <;> decide

theorem ScanfMode.ofCode_code (x : ScanfMode) : ScanfMode.ofCode x.code = x := by cases x <;> rfl

theorem ScanfMode.code_lt (x : ScanfMode) : x.code < 2 ^ (1 + 1) := by cases x <;> decide

theorem FCond.ofCode_code (x : FCond) : FCond.ofCode x.code = x := by cases x <;> rfl

theorem FCond.code_lt (x : FCond) : x.code < 2 ^ (1 + 1) := by cases x <;> decide

theorem FclassFmt.ofCode_code (x : FclassFmt) : FclassFmt.ofCode x.code = x := by cases x <;> rfl

theorem FclassFmt.code_lt (x : FclassFmt) : x.code < 2 ^ (1 + 1) := by cases x <;> decide

theorem decodes_mov (d a : RegN) (ka wide : Bool) :
    ∀ i ∈ [Instr.mov d a ka wide, .ineg d a ka wide, .iabs d a ka wide, .xbase d a ka wide, .rdfirst d a ka wide,
      .expand d a ka wide], Decodes i := by
  simp only [List.forall_mem_cons, List.not_mem_nil, false_imp_iff, implies_true, and_true]
  refine ⟨?_, ?_, ?_, ?_, ?_, ?_⟩
  all_goals
    intro hwf n h
    unfold Instr.wf at hwf
    unfold encodeNat at h
    simp only [Bool.not_eq_true', Option.some.injEq, Nat.add_assoc] at hwf h
    obtain ⟨hn, hc, ho, hf⟩ := reads_word h
      [.reg d, .reg a, .zero 5, .bit ka, .zero 0, .zero 0, .bit wide] 22 rfl (by decide)
      (by simp only [packed, width, Field.val, Field.top, Field.zero]; omega)
    simp only [Reads, width, Field.reads, Field.top, Field.zero, Nat.reduceAdd, Nat.reducePow, Nat.reduceDiv,
      Nat.reduceMod, Nat.reduceBEq] at hc ho hf
    exact ⟨hn, by simp only [decode_ofNat hn, decodeNat, hc, decodeFR, ho, hf, hwf, chk,
      Bool.false_eq_true, if_false, bne_self_eq_false, Bool.or_self]⟩

theorem decodes_iadd (d a b : RegN) (ka kb wide : Bool) :
    ∀ i ∈ [Instr.iadd d a b ka kb wide, .isub d a b ka kb wide, .imul d a b ka kb wide, .and d a b ka kb wide,
      .or d a b ka kb wide, .xor d a b ka kb wide, .andn d a b ka kb wide, .imin d a b ka kb wide,
      .imax d a b ka kb wide, .nmin d a b ka kb wide, .nmax d a b ka kb wide], Decodes i := by
  simp only [List.forall_mem_cons, List.not_mem_nil, false_imp_iff, implies_true, and_true]
  refine ⟨?_, ?_, ?_, ?_, ?_, ?_, ?_, ?_, ?_, ?_, ?_⟩
  all_goals
    intro hwf n h
    unfold Instr.wf at hwf
    unfold encodeNat at h
    simp only [Bool.not_eq_true', Option.some.injEq, Nat.add_assoc] at hwf h
    obtain ⟨hn, hc, ho, hf⟩ := reads_word h
      [.reg d, .reg a, .reg b, .bit ka, .bit kb, .zero 0, .bit wide] 22 rfl (by decide)
      (by simp only [packed, width, Field.val, Field.top, Field.zero]; omega)
    simp only [Reads, width, Field.reads, Field.top, Field.zero, Nat.reduceAdd, Nat.reducePow, Nat.reduceDiv,
      Nat.reduceMod, Nat.reduceBEq] at hc ho hf
    exact ⟨hn, by simp only [decode_ofNat hn, decodeNat, hc, decodeFR, ho, hf, hwf, chk,
      Bool.false_eq_true, if_false]⟩

theorem decodes_shl (d a b : RegN) (ka kb wide : Bool) :
    ∀ i ∈ [Instr.shl d a b ka kb wide, .shr d a b ka kb wide, .sar d a b ka kb wide, .mkform d a b ka kb wide],
      Decodes i := by
  simp only [List.forall_mem_cons, List.not_mem_nil, false_imp_iff, implies_true, and_true]
  refine ⟨?_, ?_, ?_, ?_⟩
  all_goals
    intro hwf n h
    unfold Instr.wf at hwf
    unfold encodeNat at h
    simp only [Bool.not_eq_true', Option.some.injEq, Nat.add_assoc] at hwf h
    obtain ⟨hn, hc, ho, hf⟩ := reads_word h
      [.reg d, .reg a, .reg b, .bit ka, .bit kb, .zero 0, .bit wide] 22 rfl (by decide)
      (by simp only [packed, width, Field.val, Field.top, Field.zero]; omega)
    simp only [Reads, width, Field.reads, Field.top, Field.zero, Nat.reduceAdd, Nat.reducePow, Nat.reduceDiv,
      Nat.reduceMod, Nat.reduceBEq] at hc ho hf
    exact ⟨hn, by simp only [decode_ofNat hn, decodeNat, hc, decodeFR, ho, hf, hwf, chk,
      Bool.false_eq_true, if_false]⟩

theorem decodes_xstride (d a : RegN) (ka wide : Bool) : Decodes (.xstride d a ka wide) := by
  intro hwf n h
  unfold Instr.wf at hwf
  unfold encodeNat at h
  simp only [Bool.not_eq_true', Option.some.injEq, Nat.add_assoc] at hwf h
  obtain ⟨hn, hc, ho, hf⟩ := reads_word h
    [.reg d, .reg a, .zero 5, .bit ka, .zero 0, .zero 0, .bit wide] 22 rfl (by decide)
    (by simp only [packed, width, Field.val, Field.top, Field.zero]; omega)
  simp only [Reads, width, Field.reads, Field.top, Field.zero, Nat.reduceAdd, Nat.reducePow, Nat.reduceDiv,
    Nat.reduceMod, Nat.reduceBEq] at hc ho hf
  exact ⟨hn, by simp only [decode_ofNat hn, decodeNat, hc, decodeFR, ho, hf, hwf, chk,
    Bool.false_eq_true, if_false, bne_self_eq_false, Bool.or_self]⟩

theorem decodes_iaddi (d a : RegN) (imm : BitVec 12) :
    ∀ i ∈ [Instr.iaddi d a imm, .imuli d a imm, .andi d a imm, .ori d a imm, .xori d a imm], Decodes i := by
  simp only [List.forall_mem_cons, List.not_mem_nil, false_imp_iff, implies_true, and_true]
  refine ⟨?_, ?_, ?_, ?_, ?_⟩
  all_goals
    intro hwf n h
    unfold encodeNat at h
    simp only [Option.some.injEq, Nat.add_assoc] at h
    obtain ⟨hn, hc, ho, hf⟩ := reads_word h
      [.reg d, .reg a, .imm 11 imm] 24 rfl (by decide)
      (by simp only [packed, width, Field.val, Field.top]; omega)
    simp only [Reads, width, Field.reads, Field.top, Nat.reduceAdd, Nat.reducePow, Nat.reduceDiv,
      Nat.reduceMod] at hc ho hf
    exact ⟨hn, by simp only [decode_ofNat hn, decodeNat, hc, decodeFI, ho, hf]⟩

theorem decodes_shli (d a : RegN) (imm : BitVec 12) :
    ∀ i ∈ [Instr.shli d a imm, .shri d a imm, .sari d a imm], Decodes i := by
  simp only [List.forall_mem_cons, List.not_mem_nil, false_imp_iff, implies_true, and_true]
  refine ⟨?_, ?_, ?_⟩
  all_goals
    intro hwf n h
    unfold Instr.wf at hwf
    unfold encodeNat at h
    simp only [Option.some.injEq, Nat.add_assoc] at hwf h
    obtain ⟨hn, hc, ho, hf⟩ := reads_word h
      [.reg d, .reg a, .imm 11 imm] 24 rfl (by decide)
      (by simp only [packed, width, Field.val, Field.top]; omega)
    simp only [Reads, width, Field.reads, Field.top, Nat.reduceAdd, Nat.reducePow, Nat.reduceDiv,
      Nat.reduceMod] at hc ho hf
    exact ⟨hn, by simp only [decode_ofNat hn, decodeNat, hc, decodeFI, ho, hf,
      decide_eq_false (Nat.not_lt.mpr (of_decide_eq_true hwf)), chk,
      Bool.false_eq_true, if_false]⟩

theorem decodes_movi (d : RegN) (imm : BitVec 12) : Decodes (.movi d imm) := by
  intro hwf n h
  unfold encodeNat at h
  simp only [Option.some.injEq, Nat.add_assoc] at h
  obtain ⟨hn, hc, ho, hf⟩ := reads_word h
    [.reg d, .zero 5, .imm 11 imm] 24 rfl (by decide)
    (by simp only [packed, width, Field.val, Field.top, Field.zero]; omega)
  simp only [Reads, width, Field.reads, Field.top, Field.zero, Nat.reduceAdd, Nat.reducePow, Nat.reduceDiv,
    Nat.reduceMod, Nat.reduceBEq] at hc ho hf
  exact ⟨hn, by simp only [decode_ofNat hn, decodeNat, hc, decodeFI, ho, hf, chk,
    Bool.false_eq_true, if_false, bne_self_eq_false]⟩

theorem decodes_iaddiw (d a : RegN) (imm : BitVec 12) : Decodes (.iaddiw d a imm) := by
  intro hwf n h
  unfold Instr.wf at hwf
  unfold encodeNat at h
  simp only [Bool.not_eq_true', Option.some.injEq, Nat.add_assoc] at hwf h
  obtain ⟨hn, hc, ho, hf⟩ := reads_word h
    [.reg d, .reg a, .imm 11 imm] 24 rfl (by decide)
    (by simp only [packed, width, Field.val, Field.top]; omega)
  simp only [Reads, width, Field.reads, Field.top, Nat.reduceAdd, Nat.reducePow, Nat.reduceDiv,
    Nat.reduceMod] at hc ho hf
  exact ⟨hn, by simp only [decode_ofNat hn, decodeNat, hc, decodeFI, ho, hf, hwf, chk,
    Bool.false_eq_true, if_false]⟩

theorem decodes_movl (d : RegN) (imm : BitVec 16) :
    ∀ i ∈ [Instr.movl d imm, .movh d imm, .movs d imm], Decodes i := by
  simp only [List.forall_mem_cons, List.not_mem_nil, false_imp_iff, implies_true, and_true]
  refine ⟨?_, ?_, ?_⟩
  all_goals
    intro hwf n h
    unfold encodeNat at h
    simp only [Option.some.injEq, Nat.add_assoc] at h
    obtain ⟨hn, hc, ho, hf⟩ := reads_word h
      [.reg d, .imm 15 imm, .zero 3] 26 rfl (by decide)
      (by simp only [packed, width, Field.val, Field.top, Field.zero]; omega)
    simp only [Reads, width, Field.reads, Field.top, Field.zero, Nat.reduceAdd, Nat.reducePow, Nat.reduceDiv,
      Nat.reduceMod, Nat.reduceBEq] at hc ho hf
    exact ⟨hn, by simp only [decode_ofNat hn, decodeNat, hc, decodeFK, ho, hf, chk,
      Bool.false_eq_true, if_false, bne_self_eq_false]⟩

theorem decodes_icmp (pd : PredN) (a b : RegN) (cond : Cond) :
    ∀ i ∈ [Instr.icmp pd a b cond, .ncmp pd a b cond], Decodes i := by
  simp only [List.forall_mem_cons, List.not_mem_nil, false_imp_iff, implies_true, and_true]
  refine ⟨?_, ?_⟩
  all_goals
    intro hwf n h
    unfold encodeNat at h
    simp only [Option.some.injEq, Nat.add_assoc] at h
    obtain ⟨hn, hc, ho, hf⟩ := reads_word h
      [.pred pd, .code 2 7 (by decide), .reg a, .reg b, .code 2 cond.code cond.code_lt, .zero 0] 22 rfl (by decide)
      (by simp only [packed, width, Field.val, Field.top, Field.zero]; omega)
    simp only [Reads, width, Field.reads, Field.top, Field.zero, Nat.reduceAdd, Nat.reducePow, Nat.reduceDiv,
      Nat.reduceMod, Nat.reduceBEq] at hc ho hf
    exact ⟨hn, by simp only [decode_ofNat hn, decodeNat, hc, decodeFC, ho, hf, Cond.ofCode_code, Cond.legal, chk,
      Bool.false_eq_true, if_false, bne_self_eq_false, Bool.or_self]⟩

theorem decodes_icmpa (pd ps : PredN) (a b : RegN) (cond : Cond) :
    ∀ i ∈ [Instr.icmpa pd ps a b cond, .icmpo pd ps a b cond, .ncmpa pd ps a b cond, .ncmpo pd ps a b cond], Decodes i
      := by
  simp only [List.forall_mem_cons, List.not_mem_nil, false_imp_iff, implies_true, and_true]
  refine ⟨?_, ?_, ?_, ?_⟩
  all_goals
    intro hwf n h
    unfold encodeNat at h
    simp only [Option.some.injEq, Nat.add_assoc] at h
    obtain ⟨hn, hc, ho, hf⟩ := reads_word h
      [.pred pd, .pred ps, .reg a, .reg b, .code 2 cond.code cond.code_lt, .zero 0] 22 rfl (by decide)
      (by simp only [packed, width, Field.val, Field.top, Field.zero]; omega)
    simp only [Reads, width, Field.reads, Field.top, Field.zero, Nat.reduceAdd, Nat.reducePow, Nat.reduceDiv,
      Nat.reduceMod, Nat.reduceBEq] at hc ho hf
    exact ⟨hn, by simp only [decode_ofNat hn, decodeNat, hc, decodeFC, ho, hf, Cond.ofCode_code, Cond.legal, chk,
      Bool.false_eq_true, if_false, bne_self_eq_false]⟩

theorem decodes_icmpi (pd : PredN) (a : RegN) (imm : BitVec 6) (cond : Cond) :
    ∀ i ∈ [Instr.icmpi pd a imm cond, .ncmpi pd a imm cond], Decodes i := by
  simp only [List.forall_mem_cons, List.not_mem_nil, false_imp_iff, implies_true, and_true]
  refine ⟨?_, ?_⟩
  all_goals
    intro hwf n h
    unfold encodeNat at h
    simp only [Option.some.injEq, Nat.add_assoc] at h
    obtain ⟨hn, hc, ho, hf⟩ := reads_word h
      [.pred pd, .code 2 7 (by decide), .reg a, .imm 5 imm, .code 2 cond.code cond.code_lt, .zero 0] 22 rfl (by decide)
      (by simp only [packed, width, Field.val, Field.top, Field.zero]; omega)
    simp only [Reads, width, Field.reads, Field.top, Field.zero, Nat.reduceAdd, Nat.reducePow, Nat.reduceDiv,
      Nat.reduceMod, Nat.reduceBEq] at hc ho hf
    exact ⟨hn, by simp only [decode_ofNat hn, decodeNat, hc, decodeFC, ho, hf, Cond.ofCode_code, Cond.legal, chk,
      Bool.false_eq_true, if_false, bne_self_eq_false, Bool.or_self]⟩

theorem decodes_icmpw (pd : PredN) (a b : RegN) (cond : Cond) :
    ∀ i ∈ [Instr.icmpw pd a b cond, .ncmpw pd a b cond], Decodes i := by
  simp only [List.forall_mem_cons, List.not_mem_nil, false_imp_iff, implies_true, and_true]
  refine ⟨?_, ?_⟩
  all_goals
    intro hwf n h
    unfold Instr.wf at hwf
    unfold encodeNat at h
    simp only [Bool.not_eq_true', Option.some.injEq, Nat.add_assoc] at hwf h
    obtain ⟨hn, hc, ho, hf⟩ := reads_word h
      [.pred pd, .code 2 7 (by decide), .reg a, .reg b, .code 2 cond.code cond.code_lt, .zero 0] 22 rfl (by decide)
      (by simp only [packed, width, Field.val, Field.top, Field.zero]; omega)
    simp only [Reads, width, Field.reads, Field.top, Field.zero, Nat.reduceAdd, Nat.reducePow, Nat.reduceDiv,
      Nat.reduceMod, Nat.reduceBEq] at hc ho hf
    exact ⟨hn, by simp only [decode_ofNat hn, decodeNat, hc, decodeFC, ho, hf, hwf, Cond.ofCode_code, Cond.legal, chk,
      Bool.false_eq_true, if_false, bne_self_eq_false, Bool.or_self]⟩

theorem decodes_pand (pd pa pb : PredN) :
    ∀ i ∈ [Instr.pand pd pa pb, .por pd pa pb, .pxor pd pa pb, .pandn pd pa pb], Decodes i := by
  simp only [List.forall_mem_cons, List.not_mem_nil, false_imp_iff, implies_true, and_true]
  refine ⟨?_, ?_, ?_, ?_⟩
  all_goals
    intro hwf n h
    unfold encodeNat at h
    simp only [Option.some.injEq, Nat.add_assoc] at h
    obtain ⟨hn, hc, ho, hf⟩ := reads_word h
      [.pred pd, .zero 2, .pred pa, .pred pb, .zero 9] 22 rfl (by decide)
      (by simp only [packed, width, Field.val, Field.top, Field.zero]; omega)
    simp only [Reads, width, Field.reads, Field.top, Field.zero, Nat.reduceAdd, Nat.reducePow, Nat.reduceDiv,
      Nat.reduceMod, Nat.reduceBEq] at hc ho hf
    exact ⟨hn, by simp only [decode_ofNat hn, decodeNat, hc, decodeFC, ho, hf, chk,
      Bool.false_eq_true, if_false, bne_self_eq_false, Bool.or_self]⟩

theorem decodes_pnot (pd pa : PredN) : Decodes (.pnot pd pa) := by
  intro hwf n h
  unfold encodeNat at h
  simp only [Option.some.injEq, Nat.add_assoc] at h
  obtain ⟨hn, hc, ho, hf⟩ := reads_word h
    [.pred pd, .zero 2, .pred pa, .zero 12] 22 rfl (by decide)
    (by simp only [packed, width, Field.val, Field.top, Field.zero]; omega)
  simp only [Reads, width, Field.reads, Field.top, Field.zero, Nat.reduceAdd, Nat.reducePow, Nat.reduceDiv,
    Nat.reduceMod, Nat.reduceBEq] at hc ho hf
  exact ⟨hn, by simp only [decode_ofNat hn, decodeNat, hc, decodeFC, ho, hf, chk,
    Bool.false_eq_true, if_false, bne_self_eq_false, Bool.or_self]⟩

theorem decodes_pset (pd : PredN) (k : Bool) : Decodes (.pset pd k) := by
  intro hwf n h
  unfold encodeNat at h
  simp only [Option.some.injEq, Nat.add_assoc] at h
  obtain ⟨hn, hc, ho, hf⟩ := reads_word h
    [.pred pd, .zero 14, .bit k, .zero 2] 22 rfl (by decide)
    (by simp only [packed, width, Field.val, Field.top, Field.zero]; omega)
  simp only [Reads, width, Field.reads, Field.top, Field.zero, Nat.reduceAdd, Nat.reducePow, Nat.reduceDiv,
    Nat.reduceMod, Nat.reduceBEq] at hc ho hf
  exact ⟨hn, by simp only [decode_ofNat hn, decodeNat, hc, decodeFC, ho, hf, chk,
    Bool.false_eq_true, if_false, bne_self_eq_false, Bool.or_self]⟩

theorem decodes_pcut (pd : PredN) (a : RegN) (above : Bool) : Decodes (.pcut pd a above) := by
  intro hwf n h
  unfold Instr.wf at hwf
  unfold encodeNat at h
  simp only [Bool.not_eq_true', Option.some.injEq, Nat.add_assoc] at hwf h
  obtain ⟨hn, hc, ho, hf⟩ := reads_word h
    [.pred pd, .zero 8, .reg a, .bit above, .zero 2] 22 rfl (by decide)
    (by simp only [packed, width, Field.val, Field.top, Field.zero]; omega)
  simp only [Reads, width, Field.reads, Field.top, Field.zero, Nat.reduceAdd, Nat.reducePow, Nat.reduceDiv,
    Nat.reduceMod, Nat.reduceBEq] at hc ho hf
  exact ⟨hn, by simp only [decode_ofNat hn, decodeNat, hc, decodeFC, ho, hf, hwf, chk,
    Bool.false_eq_true, if_false, bne_self_eq_false, Bool.or_self]⟩

theorem decodes_sel (d a b : RegN) (p : PredN) (sense : Bool) : Decodes (.sel d a b p sense) := by
  intro hwf n h
  unfold encodeNat at h
  simp only [Option.some.injEq, Nat.add_assoc] at h
  obtain ⟨hn, hc, ho, hf⟩ := reads_word h
    [.reg d, .reg a, .reg b, .pred p, .bit sense] 22 rfl (by decide)
    (by simp only [packed, width, Field.val, Field.top]; omega)
  simp only [Reads, width, Field.reads, Field.top, Nat.reduceAdd, Nat.reducePow, Nat.reduceDiv,
    Nat.reduceMod] at hc ho hf
  exact ⟨hn, by simp only [decode_ofNat hn, decodeNat, hc, decodeFC, ho, hf]⟩

theorem decodes_selw (d a b : RegN) (p : PredN) (sense : Bool) : Decodes (.selw d a b p sense) := by
  intro hwf n h
  unfold Instr.wf at hwf
  unfold encodeNat at h
  simp only [Bool.not_eq_true', Option.some.injEq, Nat.add_assoc] at hwf h
  obtain ⟨hn, hc, ho, hf⟩ := reads_word h
    [.reg d, .reg a, .reg b, .pred p, .bit sense] 22 rfl (by decide)
    (by simp only [packed, width, Field.val, Field.top]; omega)
  simp only [Reads, width, Field.reads, Field.top, Nat.reduceAdd, Nat.reducePow, Nat.reduceDiv,
    Nat.reduceMod] at hc ho hf
  exact ⟨hn, by simp only [decode_ofNat hn, decodeNat, hc, decodeFC, ho, hf, hwf, chk,
    Bool.false_eq_true, if_false]⟩

theorem decodes_ptoi (d : RegN) (p : PredN) (sense : Bool) : Decodes (.ptoi d p sense) := by
  intro hwf n h
  unfold encodeNat at h
  simp only [Option.some.injEq, Nat.add_assoc] at h
  obtain ⟨hn, hc, ho, hf⟩ := reads_word h
    [.reg d, .zero 11, .pred p, .bit sense] 22 rfl (by decide)
    (by simp only [packed, width, Field.val, Field.top, Field.zero]; omega)
  simp only [Reads, width, Field.reads, Field.top, Field.zero, Nat.reduceAdd, Nat.reducePow, Nat.reduceDiv,
    Nat.reduceMod, Nat.reduceBEq] at hc ho hf
  exact ⟨hn, by simp only [decode_ofNat hn, decodeNat, hc, decodeFC, ho, hf, chk,
    Bool.false_eq_true, if_false, bne_self_eq_false]⟩

theorem decodes_next (off : BitVec 24) :
    ∀ i ∈ [Instr.next off, .call off, .yield off], Decodes i := by
  simp only [List.forall_mem_cons, List.not_mem_nil, false_imp_iff, implies_true, and_true]
  refine ⟨?_, ?_, ?_⟩
  all_goals
    intro hwf n h
    unfold encodeNat at h
    simp only [Option.some.injEq] at h
    obtain ⟨hn, hc, ho, hf⟩ := reads_word h
      [.imm 23 off] 24 rfl (by decide)
      (by simp only [packed, width, Field.val]; omega)
    simp only [Reads, width, Field.reads, Nat.reduceAdd, Nat.reducePow, Nat.reduceDiv,
      Nat.reduceMod] at hc ho hf
    exact ⟨hn, by simp only [decode_ofNat hn, decodeNat, hc, decodeFT, ho, hf]⟩

theorem decodes_br (p : PredN) (sense : Bool) (off : BitVec 20) : Decodes (.br p sense off) := by
  intro hwf n h
  unfold encodeNat at h
  simp only [Option.some.injEq, Nat.add_assoc] at h
  obtain ⟨hn, hc, ho, hf⟩ := reads_word h
    [.pred p, .bit sense, .imm 19 off] 24 rfl (by decide)
    (by simp only [packed, width, Field.val, Field.top]; omega)
  simp only [Reads, width, Field.reads, Field.top, Nat.reduceAdd, Nat.reducePow, Nat.reduceDiv,
    Nat.reduceMod] at hc ho hf
  exact ⟨hn, by simp only [decode_ofNat hn, decodeNat, hc, decodeFT, ho, hf]⟩

theorem decodes_brx (a : RegN) :
    ∀ i ∈ [Instr.brx a, .callx a], Decodes i := by
  simp only [List.forall_mem_cons, List.not_mem_nil, false_imp_iff, implies_true, and_true]
  refine ⟨?_, ?_⟩
  all_goals
    intro hwf n h
    unfold Instr.wf at hwf
    unfold encodeNat at h
    simp only [Bool.not_eq_true', Option.some.injEq] at hwf h
    obtain ⟨hn, hc, ho, hf⟩ := reads_word h
      [.reg a, .zero 17] 24 rfl (by decide)
      (by simp only [packed, width, Field.val, Field.top, Field.zero]; omega)
    simp only [Reads, width, Field.reads, Field.top, Field.zero, Nat.reduceAdd, Nat.reducePow, Nat.reduceDiv,
      Nat.reduceMod, Nat.reduceBEq] at hc ho hf
    exact ⟨hn, by simp only [decode_ofNat hn, decodeNat, hc, decodeFT, ho, hf, hwf, chk,
      Bool.false_eq_true, if_false, bne_self_eq_false]⟩

theorem decodes_ret : ∀ i ∈ [Instr.ret, .exit], Decodes i := by
  simp only [List.forall_mem_cons, List.not_mem_nil, false_imp_iff, implies_true, and_true]
  refine ⟨?_, ?_⟩
  all_goals
    intro _ n h
    obtain rfl := Option.some.inj h
    exact ⟨by decide, rfl⟩

theorem decodes_trap (x : BitVec 8) : Decodes (.trap x) := by
  intro hwf n h
  unfold encodeNat at h
  simp only [Option.some.injEq] at h
  obtain ⟨hn, hc, ho, hf⟩ := reads_word h
    [.imm 7 x, .zero 15] 24 rfl (by decide)
    (by simp only [packed, width, Field.val, Field.top, Field.zero]; omega)
  simp only [Reads, width, Field.reads, Field.top, Field.zero, Nat.reduceAdd, Nat.reducePow, Nat.reduceDiv,
    Nat.reduceMod, Nat.reduceBEq] at hc ho hf
  exact ⟨hn, by simp only [decode_ofNat hn, decodeNat, hc, decodeFT, ho, hf, chk,
    Bool.false_eq_true, if_false, bne_self_eq_false]⟩

theorem decodes_switch (a : RegN) (entriesM1 : BitVec 10) : Decodes (.switch a entriesM1) := by
  intro hwf n h
  unfold encodeNat at h
  simp only [Option.some.injEq, Nat.add_assoc] at h
  obtain ⟨hn, hc, ho, hf⟩ := reads_word h
    [.reg a, .imm 9 entriesM1, .zero 7] 24 rfl (by decide)
    (by simp only [packed, width, Field.val, Field.top, Field.zero]; omega)
  simp only [Reads, width, Field.reads, Field.top, Field.zero, Nat.reduceAdd, Nat.reducePow, Nat.reduceDiv,
    Nat.reduceMod, Nat.reduceBEq] at hc ho hf
  exact ⟨hn, by simp only [decode_ofNat hn, decodeNat, hc, decodeFT, ho, hf, chk,
    Bool.false_eq_true, if_false, bne_self_eq_false]⟩

theorem decodes_rds (d : RegN) (wide : Bool) (sreg : SpecialReg) : Decodes (.rds d wide sreg) := by
  intro hwf n h
  unfold Instr.wf at hwf
  unfold encodeNat at h
  simp only [Bool.not_eq_true', Option.some.injEq, Nat.add_assoc] at hwf h
  obtain ⟨hn, hc, ho, hf⟩ := reads_word h
    [.reg d, .zero 8, .bit wide, .code 5 sreg.code sreg.code_lt] 22 rfl (by decide)
    (by simp only [packed, width, Field.val, Field.top, Field.zero]; omega)
  simp only [Reads, width, Field.reads, Field.top, Field.zero, Nat.reduceAdd, Nat.reducePow, Nat.reduceDiv,
    Nat.reduceMod, Nat.reduceBEq] at hc ho hf
  exact ⟨hn, by simp only [decode_ofNat hn, decodeNat, hc, decodeFY, ho, hf, SpecialReg.readable_code, Bool.not_true,
    hwf, SpecialReg.ofCode_code, chk,
    Bool.false_eq_true, if_false, bne_self_eq_false]⟩

theorem decodes_wrs (a : RegN) (wide : Bool) (sreg : SpecialReg) : Decodes (.wrs a wide sreg) := by
  intro hwf n h
  unfold Instr.wf at hwf
  unfold encodeNat at h
  simp only [Bool.and_eq_true, Bool.not_eq_true', Option.some.injEq, Nat.add_assoc] at hwf h
  obtain ⟨hn, hc, ho, hf⟩ := reads_word h
    [.reg a, .zero 8, .bit wide, .code 5 sreg.code sreg.code_lt] 22 rfl (by decide)
    (by simp only [packed, width, Field.val, Field.top, Field.zero]; omega)
  simp only [Reads, width, Field.reads, Field.top, Field.zero, Nat.reduceAdd, Nat.reducePow, Nat.reduceDiv,
    Nat.reduceMod, Nat.reduceBEq] at hc ho hf
  exact ⟨hn, by simp only [decode_ofNat hn, decodeNat, hc, decodeFY, ho, hf, SpecialReg.writable_code, Bool.not_true,
    hwf, SpecialReg.ofCode_code, chk,
    Bool.false_eq_true, if_false, bne_self_eq_false]⟩

theorem decodes_fence (scope : Scope) (kind : FenceKind) : Decodes (.fence scope kind) := by
  intro hwf n h
  unfold encodeNat at h
  simp only [Option.some.injEq, Nat.add_assoc] at h
  obtain ⟨hn, hc, ho, hf⟩ := reads_word h
    [.zero 15, .code 2 scope.code (Scope.code_lt3 _), .code 2 kind.code kind.code_lt] 22 rfl (by decide)
    (by simp only [packed, width, Field.val, Field.top, Field.zero]; omega)
  simp only [Reads, width, Field.reads, Field.top, Field.zero, Nat.reduceAdd, Nat.reducePow, Nat.reduceDiv,
    Nat.reduceMod, Nat.reduceBEq] at hc ho hf
  exact ⟨hn, by simp only [decode_ofNat hn, decodeNat, hc, decodeFY, ho, hf, FenceKind.legal, Scope.legal,
    FenceKind.ofCode_code, Scope.ofCode_code, chk,
    Bool.false_eq_true, if_false, bne_self_eq_false, Bool.or_self]⟩

theorem decodes_bar (x : BitVec 4) :
    ∀ i ∈ [Instr.bar x, .bara x], Decodes i := by
  simp only [List.forall_mem_cons, List.not_mem_nil, false_imp_iff, implies_true, and_true]
  refine ⟨?_, ?_⟩
  all_goals
    intro hwf n h
    unfold encodeNat at h
    simp only [Option.some.injEq] at h
    obtain ⟨hn, hc, ho, hf⟩ := reads_word h
      [.zero 17, .imm 3 x] 22 rfl (by decide)
      (by simp only [packed, width, Field.val, Field.top, Field.zero]; omega)
    simp only [Reads, width, Field.reads, Field.top, Field.zero, Nat.reduceAdd, Nat.reducePow, Nat.reduceDiv,
      Nat.reduceMod, Nat.reduceBEq] at hc ho hf
    exact ⟨hn, by simp only [decode_ofNat hn, decodeNat, hc, decodeFY, ho, hf, chk,
      Bool.false_eq_true, if_false, bne_self_eq_false]⟩

theorem decodes_rand (d : RegN) (stream : BitVec 16) : Decodes (.rand d stream) := by
  intro hwf n h
  unfold encodeNat at h
  simp only [Option.some.injEq, Nat.add_assoc] at h
  obtain ⟨hn, hc, ho, hf⟩ := reads_word h
    [.reg d, .imm 15 stream] 22 rfl (by decide)
    (by simp only [packed, width, Field.val, Field.top]; omega)
  simp only [Reads, width, Field.reads, Field.top, Nat.reduceAdd, Nat.reducePow, Nat.reduceDiv,
    Nat.reduceMod] at hc ho hf
  exact ⟨hn, by simp only [decode_ofNat hn, decodeNat, hc, decodeFY, ho, hf]⟩

theorem decodes_cyc (d : RegN) (wide : Bool) : Decodes (.cyc d wide) := by
  intro hwf n h
  unfold Instr.wf at hwf
  unfold encodeNat at h
  simp only [Bool.not_eq_true', Option.some.injEq, Nat.add_assoc] at hwf h
  obtain ⟨hn, hc, ho, hf⟩ := reads_word h
    [.reg d, .zero 8, .bit wide, .zero 5] 22 rfl (by decide)
    (by simp only [packed, width, Field.val, Field.top, Field.zero]; omega)
  simp only [Reads, width, Field.reads, Field.top, Field.zero, Nat.reduceAdd, Nat.reducePow, Nat.reduceDiv,
    Nat.reduceMod, Nat.reduceBEq] at hc ho hf
  exact ⟨hn, by simp only [decode_ofNat hn, decodeNat, hc, decodeFY, ho, hf, hwf, chk,
    Bool.false_eq_true, if_false, bne_self_eq_false, Bool.or_self]⟩

theorem decodes_nop : ∀ i ∈ [Instr.nop, .eret, .halt], Decodes i := by
  simp only [List.forall_mem_cons, List.not_mem_nil, false_imp_iff, implies_true, and_true]
  refine ⟨?_, ?_, ?_⟩
  all_goals
    intro _ n h
    obtain rfl := Option.some.inj h
    exact ⟨by decide, rfl⟩

theorem decodes_bkpt (code : BitVec 8) : Decodes (.bkpt code) := by
  intro hwf n h
  unfold encodeNat at h
  simp only [Option.some.injEq] at h
  obtain ⟨hn, hc, ho, hf⟩ := reads_word h
    [.zero 13, .imm 7 code] 22 rfl (by decide)
    (by simp only [packed, width, Field.val, Field.top, Field.zero]; omega)
  simp only [Reads, width, Field.reads, Field.top, Field.zero, Nat.reduceAdd, Nat.reducePow, Nat.reduceDiv,
    Nat.reduceMod, Nat.reduceBEq] at hc ho hf
  exact ⟨hn, by simp only [decode_ofNat hn, decodeNat, hc, decodeFY, ho, hf, chk,
    Bool.false_eq_true, if_false, bne_self_eq_false]⟩

theorem decodes_xcht (d : RegN) (x : BitVec 4) : Decodes (.xcht d x) := by
  intro hwf n h
  unfold encodeNat at h
  simp only [Option.some.injEq, Nat.add_assoc] at h
  obtain ⟨hn, hc, ho, hf⟩ := reads_word h
    [.reg d, .zero 11, .imm 3 x] 22 rfl (by decide)
    (by simp only [packed, width, Field.val, Field.top, Field.zero]; omega)
  simp only [Reads, width, Field.reads, Field.top, Field.zero, Nat.reduceAdd, Nat.reducePow, Nat.reduceDiv,
    Nat.reduceMod, Nat.reduceBEq] at hc ho hf
  exact ⟨hn, by simp only [decode_ofNat hn, decodeNat, hc, decodeFY, ho, hf, chk,
    Bool.false_eq_true, if_false, bne_self_eq_false]⟩

theorem decodes_launch (d a : RegN) :
    ∀ i ∈ [Instr.launch d a, .lwait d a], Decodes i := by
  simp only [List.forall_mem_cons, List.not_mem_nil, false_imp_iff, implies_true, and_true]
  refine ⟨?_, ?_⟩
  all_goals
    intro hwf n h
    unfold Instr.wf at hwf
    unfold encodeNat at h
    simp only [Bool.not_eq_true', Option.some.injEq, Nat.add_assoc] at hwf h
    obtain ⟨hn, hc, ho, hf⟩ := reads_word h
      [.reg d, .zero 9, .reg a] 22 rfl (by decide)
      (by simp only [packed, width, Field.val, Field.top, Field.zero]; omega)
    simp only [Reads, width, Field.reads, Field.top, Field.zero, Nat.reduceAdd, Nat.reducePow, Nat.reduceDiv,
      Nat.reduceMod, Nat.reduceBEq] at hc ho hf
    exact ⟨hn, by simp only [decode_ofNat hn, decodeNat, hc, decodeFY, ho, hf, hwf, chk,
      Bool.false_eq_true, if_false, bne_self_eq_false]⟩

theorem decodes_segh (lenM1 : BitVec 10) (fold : Bool) (liveG : BitVec 6) (liveP : BitVec 7) (role : Role) : Decodes
    (.segh lenM1 fold liveG liveP role) := by
  intro hwf n h
  unfold encodeNat at h
  simp only [Option.some.injEq, Nat.add_assoc] at h
  obtain ⟨hn, hc, ho, hf⟩ := reads_word h
    [.imm 9 lenM1, .bit fold, .imm 5 liveG, .imm 6 liveP, .code 1 role.code role.code_lt] 26 rfl (by decide)
    (by simp only [packed, width, Field.val, Field.top]; omega)
  simp only [Reads, width, Field.reads, Field.top, Nat.reduceAdd, Nat.reducePow, Nat.reduceDiv,
    Nat.reduceMod] at hc ho hf
  exact ⟨hn, by simp only [decode_ofNat hn, decodeNat, hc, decodeFH, ho, hf, Role.ofCode_code]⟩

theorem decodes_runh (count : BitVec 5) (guard : PredN) (sense : Bool) (prefetch : BitVec 8) : Decodes (.runh count
    guard sense prefetch) := by
  intro hwf n h
  unfold Instr.wf at hwf
  unfold encodeNat at h
  simp only [Bool.not_eq_true', Option.some.injEq, Nat.add_assoc] at hwf h
  obtain ⟨hn, hc, ho, hf⟩ := reads_word h
    [.imm 4 count, .pred guard, .bit sense, .imm 7 prefetch, .zero 8] 26 rfl (by decide)
    (by simp only [packed, width, Field.val, Field.top, Field.zero]; omega)
  simp only [Reads, width, Field.reads, Field.top, Field.zero, Nat.reduceAdd, Nat.reducePow, Nat.reduceDiv,
    Nat.reduceMod, Nat.reduceBEq] at hc ho hf
  exact ⟨hn, by simp only [decode_ofNat hn, decodeNat, hc, decodeFH, ho, hf, toNat_beq_seven, hwf, chk,
    Bool.false_eq_true, if_false, bne_self_eq_false]⟩

theorem decodes_imulhi (d a b : RegN) (ka kb : Bool) (st : BitVec 2) :
    ∀ i ∈ [Instr.imulhi d a b ka kb st, .nmulhi d a b ka kb st, .bfe d a b ka kb st, .prmt d a b ka kb st,
      .fadd d a b ka kb st, .fsub d a b ka kb st, .fmul d a b ka kb st, .fmin d a b ka kb st, .fmax d a b ka kb st,
      .hadd2 d a b ka kb st, .hmul2 d a b ka kb st, .hmin2 d a b ka kb st, .hmax2 d a b ka kb st, .badd2 d a b ka kb st,
      .bmul2 d a b ka kb st, .fscl d a b ka kb st], Decodes i := by
  simp only [List.forall_mem_cons, List.not_mem_nil, false_imp_iff, implies_true, and_true]
  refine ⟨?_, ?_, ?_, ?_, ?_, ?_, ?_, ?_, ?_, ?_, ?_, ?_, ?_, ?_, ?_, ?_⟩
  all_goals
    intro hwf n h
    unfold encodeNat at h
    simp only [Option.some.injEq, Nat.add_assoc] at h
    obtain ⟨hn, hc, ho, hf⟩ := reads_word h
      [.reg d, .reg a, .reg b, .bit ka, .bit kb, .imm 1 st] 22 rfl (by decide)
      (by simp only [packed, width, Field.val, Field.top]; omega)
    simp only [Reads, width, Field.reads, Field.top, Nat.reduceAdd, Nat.reducePow, Nat.reduceDiv,
      Nat.reduceMod] at hc ho hf
    exact ⟨hn, by simp only [decode_ofNat hn, decodeNat, hc, decodeLR, ho, hf]⟩

theorem decodes_popc (d a : RegN) (ka : Bool) (st : BitVec 2) :
    ∀ i ∈ [Instr.popc d a ka st, .clz d a ka st, .brev d a ka st, .fabs d a ka st, .fneg d a ka st, .fexp2 d a ka st,
      .flog2 d a ka st, .frcp d a ka st, .frsq d a ka st, .fsqrt d a ka st, .fsinp d a ka st, .fcosp d a ka st,
      .ftanh d a ka st, .ffrc d a ka st], Decodes i := by
  simp only [List.forall_mem_cons, List.not_mem_nil, false_imp_iff, implies_true, and_true]
  refine ⟨?_, ?_, ?_, ?_, ?_, ?_, ?_, ?_, ?_, ?_, ?_, ?_, ?_, ?_⟩
  all_goals
    intro hwf n h
    unfold encodeNat at h
    simp only [Option.some.injEq, Nat.add_assoc] at h
    obtain ⟨hn, hc, ho, hf⟩ := reads_word h
      [.reg d, .reg a, .zero 5, .bit ka, .zero 0, .imm 1 st] 22 rfl (by decide)
      (by simp only [packed, width, Field.val, Field.top, Field.zero]; omega)
    simp only [Reads, width, Field.reads, Field.top, Field.zero, Nat.reduceAdd, Nat.reducePow, Nat.reduceDiv,
      Nat.reduceMod, Nat.reduceBEq] at hc ho hf
    exact ⟨hn, by simp only [decode_ofNat hn, decodeNat, hc, decodeLR, ho, hf, chk,
      Bool.false_eq_true, if_false, bne_self_eq_false, Bool.or_self]⟩

theorem decodes_dadd (d a b : RegN) (ka kb : Bool) (st : BitVec 2) :
    ∀ i ∈ [Instr.dadd d a b ka kb st, .dsub d a b ka kb st, .dmul d a b ka kb st, .dmin d a b ka kb st,
      .dmax d a b ka kb st], Decodes i := by
  simp only [List.forall_mem_cons, List.not_mem_nil, false_imp_iff, implies_true, and_true]
  refine ⟨?_, ?_, ?_, ?_, ?_⟩
  all_goals
    intro hwf n h
    unfold Instr.wf at hwf
    unfold encodeNat at h
    simp only [Bool.not_eq_true', Option.some.injEq, Nat.add_assoc] at hwf h
    obtain ⟨hn, hc, ho, hf⟩ := reads_word h
      [.reg d, .reg a, .reg b, .bit ka, .bit kb, .imm 1 st] 22 rfl (by decide)
      (by simp only [packed, width, Field.val, Field.top]; omega)
    simp only [Reads, width, Field.reads, Field.top, Nat.reduceAdd, Nat.reducePow, Nat.reduceDiv,
      Nat.reduceMod] at hc ho hf
    exact ⟨hn, by simp only [decode_ofNat hn, decodeNat, hc, decodeLR, ho, hf, hwf, chk,
      Bool.false_eq_true, if_false]⟩

theorem decodes_cvt (d a : RegN) (code : CvtOp) (ka inf : Bool) (st : BitVec 2) : Decodes (.cvt d a code ka inf st)
    := by
  intro hwf n h
  unfold Instr.wf at hwf
  unfold encodeNat at h
  simp only [Bool.or_eq_false_iff, Bool.not_eq_true', Option.some.injEq, Nat.add_assoc] at hwf h
  obtain ⟨hn, hc, ho, hf⟩ := reads_word h
    [.reg d, .reg a, .code 5 code.code code.code_spec.1, .bit ka, .bit inf, .imm 1 st] 22 rfl (by decide)
    (by simp only [packed, width, Field.val, Field.top]; omega)
  simp only [Reads, width, Field.reads, Field.top, Nat.reduceAdd, Nat.reducePow, Nat.reduceDiv,
    Nat.reduceMod] at hc ho hf
  exact ⟨hn, by simp only [decode_ofNat hn, decodeNat, hc, decodeLR, ho, hf, code.code_spec, Bool.and_comm inf, hwf,
    chk,
    Bool.false_eq_true, if_false, Bool.or_self]⟩

theorem decodes_drcp (d a : RegN) (ka : Bool) (st : BitVec 2) :
    ∀ i ∈ [Instr.drcp d a ka st, .drsq d a ka st], Decodes i := by
  simp only [List.forall_mem_cons, List.not_mem_nil, false_imp_iff, implies_true, and_true]
  refine ⟨?_, ?_⟩
  all_goals
    intro hwf n h
    unfold Instr.wf at hwf
    unfold encodeNat at h
    simp only [Bool.not_eq_true', Option.some.injEq, Nat.add_assoc] at hwf h
    obtain ⟨hn, hc, ho, hf⟩ := reads_word h
      [.reg d, .reg a, .zero 5, .bit ka, .zero 0, .imm 1 st] 22 rfl (by decide)
      (by simp only [packed, width, Field.val, Field.top, Field.zero]; omega)
    simp only [Reads, width, Field.reads, Field.top, Field.zero, Nat.reduceAdd, Nat.reducePow, Nat.reduceDiv,
      Nat.reduceMod, Nat.reduceBEq] at hc ho hf
    exact ⟨hn, by simp only [decode_ofNat hn, decodeNat, hc, decodeLR, ho, hf, hwf, chk,
      Bool.false_eq_true, if_false, bne_self_eq_false, Bool.or_self]⟩

theorem decodes_dscl (d a b : RegN) (ka kb : Bool) (st : BitVec 2) : Decodes (.dscl d a b ka kb st) := by
  intro hwf n h
  unfold Instr.wf at hwf
  unfold encodeNat at h
  simp only [Bool.not_eq_true', Option.some.injEq, Nat.add_assoc] at hwf h
  obtain ⟨hn, hc, ho, hf⟩ := reads_word h
    [.reg d, .reg a, .reg b, .bit ka, .bit kb, .imm 1 st] 22 rfl (by decide)
    (by simp only [packed, width, Field.val, Field.top]; omega)
  simp only [Reads, width, Field.reads, Field.top, Nat.reduceAdd, Nat.reducePow, Nat.reduceDiv,
    Nat.reduceMod] at hc ho hf
  exact ⟨hn, by simp only [decode_ofNat hn, decodeNat, hc, decodeLR, ho, hf, hwf, chk,
    Bool.false_eq_true, if_false]⟩

theorem decodes_ffma (d a b c : RegN) (st : BitVec 2) :
    ∀ i ∈ [Instr.ffma d a b c st, .hfma2 d a b c st, .imad d a b c st], Decodes i := by
  simp only [List.forall_mem_cons, List.not_mem_nil, false_imp_iff, implies_true, and_true]
  refine ⟨?_, ?_, ?_⟩
  all_goals
    intro hwf n h
    unfold encodeNat at h
    simp only [Option.some.injEq, Nat.add_assoc] at h
    obtain ⟨hn, hc, ho, hf⟩ := reads_word h
      [.reg d, .reg a, .reg b, .reg c, .imm 1 st] 26 rfl (by decide)
      (by simp only [packed, width, Field.val, Field.top]; omega)
    simp only [Reads, width, Field.reads, Field.top, Nat.reduceAdd, Nat.reducePow, Nat.reduceDiv,
      Nat.reduceMod] at hc ho hf
    exact ⟨hn, by simp only [decode_ofNat hn, decodeNat, hc, decodeLT, ho, hf]⟩

theorem decodes_dfma (d a b c : RegN) (st : BitVec 2) : Decodes (.dfma d a b c st) := by
  intro hwf n h
  unfold Instr.wf at hwf
  unfold encodeNat at h
  simp only [Bool.not_eq_true', Option.some.injEq, Nat.add_assoc] at hwf h
  obtain ⟨hn, hc, ho, hf⟩ := reads_word h
    [.reg d, .reg a, .reg b, .reg c, .imm 1 st] 26 rfl (by decide)
    (by simp only [packed, width, Field.val, Field.top]; omega)
  simp only [Reads, width, Field.reads, Field.top, Nat.reduceAdd, Nat.reducePow, Nat.reduceDiv,
    Nat.reduceMod] at hc ho hf
  exact ⟨hn, by simp only [decode_ofNat hn, decodeNat, hc, decodeLT, ho, hf, hwf, chk,
    Bool.false_eq_true, if_false]⟩

theorem decodes_ld8 (d a : RegN) (off : BitVec 8) (ka : Bool) (st : BitVec 2) :
    ∀ i ∈ [Instr.ld8 d a off ka st, .ld8s d a off ka st, .ld16 d a off ka st, .ld16s d a off ka st,
      .ld32 d a off ka st, .lda32 d a off ka st, .st8 d a off ka st, .st16 d a off ka st, .st32 d a off ka st,
      .stl32 d a off ka st, .ldc32 d a off ka st], Decodes i := by
  simp only [List.forall_mem_cons, List.not_mem_nil, false_imp_iff, implies_true, and_true]
  refine ⟨?_, ?_, ?_, ?_, ?_, ?_, ?_, ?_, ?_, ?_, ?_⟩
  all_goals
    intro hwf n h
    unfold Instr.wf at hwf
    unfold encodeNat at h
    simp only [Bool.not_eq_true', Option.some.injEq, Nat.add_assoc] at hwf h
    obtain ⟨hn, hc, ho, hf⟩ := reads_word h
      [.reg d, .reg a, .imm 7 off, .bit ka, .imm 1 st] 23 rfl (by decide)
      (by simp only [packed, width, Field.val, Field.top]; omega)
    simp only [Reads, width, Field.reads, Field.top, Nat.reduceAdd, Nat.reducePow, Nat.reduceDiv,
      Nat.reduceMod] at hc ho hf
    exact ⟨hn, by simp only [decode_ofNat hn, decodeNat, hc, decodeLM, ho, hf, hwf, chk,
      Bool.false_eq_true, if_false]⟩

theorem decodes_ld64 (d a : RegN) (off : BitVec 8) (ka : Bool) (st : BitVec 2) :
    ∀ i ∈ [Instr.ld64 d a off ka st, .lda64 d a off ka st, .st64 d a off ka st, .stl64 d a off ka st,
      .ldc64 d a off ka st], Decodes i := by
  simp only [List.forall_mem_cons, List.not_mem_nil, false_imp_iff, implies_true, and_true]
  refine ⟨?_, ?_, ?_, ?_, ?_⟩
  all_goals
    intro hwf n h
    unfold Instr.wf at hwf
    unfold encodeNat at h
    simp only [Bool.not_eq_true', Option.some.injEq, Nat.add_assoc] at hwf h
    obtain ⟨hn, hc, ho, hf⟩ := reads_word h
      [.reg d, .reg a, .imm 7 off, .bit ka, .imm 1 st] 23 rfl (by decide)
      (by simp only [packed, width, Field.val, Field.top]; omega)
    simp only [Reads, width, Field.reads, Field.top, Nat.reduceAdd, Nat.reducePow, Nat.reduceDiv,
      Nat.reduceMod] at hc ho hf
    exact ⟨hn, by simp only [decode_ofNat hn, decodeNat, hc, decodeLM, ho, hf, hwf, chk,
      Bool.false_eq_true, if_false]⟩

theorem decodes_ld128 (d a : RegN) (off : BitVec 8) (ka : Bool) (st : BitVec 2) :
    ∀ i ∈ [Instr.ld128 d a off ka st, .ld128a d a off ka st, .st128 d a off ka st, .st128a d a off ka st], Decodes i
      := by
  simp only [List.forall_mem_cons, List.not_mem_nil, false_imp_iff, implies_true, and_true]
  refine ⟨?_, ?_, ?_, ?_⟩
  all_goals
    intro hwf n h
    unfold Instr.wf at hwf
    unfold encodeNat at h
    simp only [Bool.not_eq_true', Option.some.injEq, Nat.add_assoc] at hwf h
    obtain ⟨hn, hc, ho, hf⟩ := reads_word h
      [.reg d, .reg a, .imm 7 off, .bit ka, .imm 1 st] 23 rfl (by decide)
      (by simp only [packed, width, Field.val, Field.top]; omega)
    simp only [Reads, width, Field.reads, Field.top, Nat.reduceAdd, Nat.reducePow, Nat.reduceDiv,
      Nat.reduceMod] at hc ho hf
    exact ⟨hn, by simp only [decode_ofNat hn, decodeNat, hc, decodeLM, ho, hf, hwf, chk,
      Bool.false_eq_true, if_false]⟩

theorem decodes_pfx (a : RegN) (off : BitVec 8) (ka : Bool) (st : BitVec 2) : Decodes (.pfx a off ka st) := by
  intro hwf n h
  unfold Instr.wf at hwf
  unfold encodeNat at h
  simp only [Bool.not_eq_true', Option.some.injEq, Nat.add_assoc] at hwf h
  obtain ⟨hn, hc, ho, hf⟩ := reads_word h
    [.zero 5, .reg a, .imm 7 off, .bit ka, .imm 1 st] 23 rfl (by decide)
    (by simp only [packed, width, Field.val, Field.top, Field.zero]; omega)
  simp only [Reads, width, Field.reads, Field.top, Field.zero, Nat.reduceAdd, Nat.reducePow, Nat.reduceDiv,
    Nat.reduceMod, Nat.reduceBEq] at hc ho hf
  exact ⟨hn, by simp only [decode_ofNat hn, decodeNat, hc, decodeLM, ho, hf, hwf, chk,
    Bool.false_eq_true, if_false, bne_self_eq_false]⟩

theorem decodes_aadd (d a b : RegN) (scope : Scope) (order : Order) :
    ∀ i ∈ [Instr.aadd d a b scope order, .aimin d a b scope order, .aimax d a b scope order, .anmin d a b scope order,
      .anmax d a b scope order, .aand d a b scope order, .aor d a b scope order, .axor d a b scope order,
      .axch d a b scope order, .acas d a b scope order, .afadd d a b scope order], Decodes i := by
  simp only [List.forall_mem_cons, List.not_mem_nil, false_imp_iff, implies_true, and_true]
  refine ⟨?_, ?_, ?_, ?_, ?_, ?_, ?_, ?_, ?_, ?_, ?_⟩
  all_goals
    intro hwf n h
    unfold Instr.wf at hwf
    unfold encodeNat at h
    simp only [Bool.not_eq_true', Option.some.injEq, Nat.add_assoc] at hwf h
    obtain ⟨hn, hc, ho, hf⟩ := reads_word h
      [.reg d, .reg a, .reg b, .code 1 scope.code scope.code_lt, .code 1 order.code order.code_lt] 22 rfl (by decide)
      (by simp only [packed, width, Field.val, Field.top]; omega)
    simp only [Reads, width, Field.reads, Field.top, Nat.reduceAdd, Nat.reducePow, Nat.reduceDiv,
      Nat.reduceMod] at hc ho hf
    exact ⟨hn, by simp only [decode_ofNat hn, decodeNat, hc, decodeLA, ho, hf, hwf, Order.ofCode_code,
      Scope.ofCode_code, chk,
      Bool.false_eq_true, if_false]⟩

theorem decodes_aaddw (d a b : RegN) (scope : Scope) (order : Order) :
    ∀ i ∈ [Instr.aaddw d a b scope order, .axchw d a b scope order, .acasw d a b scope order], Decodes i := by
  simp only [List.forall_mem_cons, List.not_mem_nil, false_imp_iff, implies_true, and_true]
  refine ⟨?_, ?_, ?_⟩
  all_goals
    intro hwf n h
    unfold Instr.wf at hwf
    unfold encodeNat at h
    simp only [Bool.not_eq_true', Option.some.injEq, Nat.add_assoc] at hwf h
    obtain ⟨hn, hc, ho, hf⟩ := reads_word h
      [.reg d, .reg a, .reg b, .code 1 scope.code scope.code_lt, .code 1 order.code order.code_lt] 22 rfl (by decide)
      (by simp only [packed, width, Field.val, Field.top]; omega)
    simp only [Reads, width, Field.reads, Field.top, Nat.reduceAdd, Nat.reducePow, Nat.reduceDiv,
      Nat.reduceMod] at hc ho hf
    exact ⟨hn, by simp only [decode_ofNat hn, decodeNat, hc, decodeLA, ho, hf, hwf, Order.ofCode_code,
      Scope.ofCode_code, chk,
      Bool.false_eq_true, if_false]⟩

theorem decodes_qadd (a b : RegN) (scope : Scope) (order : Order) :
    ∀ i ∈ [Instr.qadd a b scope order, .qimin a b scope order, .qimax a b scope order, .qand a b scope order,
      .qor a b scope order, .qxor a b scope order, .qfadd a b scope order, .qbadd2 a b scope order], Decodes i := by
  simp only [List.forall_mem_cons, List.not_mem_nil, false_imp_iff, implies_true, and_true]
  refine ⟨?_, ?_, ?_, ?_, ?_, ?_, ?_, ?_⟩
  all_goals
    intro hwf n h
    unfold Instr.wf at hwf
    unfold encodeNat at h
    simp only [Bool.and_eq_true, Bool.not_eq_true', Option.some.injEq, Nat.add_assoc] at hwf h
    obtain ⟨hn, hc, ho, hf⟩ := reads_word h
      [.zero 5, .reg a, .reg b, .code 1 scope.code scope.code_lt, .code 1 order.code order.code_lt] 22 rfl (by decide)
      (by simp only [packed, width, Field.val, Field.top, Field.zero]; omega)
    simp only [Reads, width, Field.reads, Field.top, Field.zero, Nat.reduceAdd, Nat.reducePow, Nat.reduceDiv,
      Nat.reduceMod, Nat.reduceBEq] at hc ho hf
    exact ⟨hn, by simp only [decode_ofNat hn, decodeNat, hc, decodeLA, ho, hf, Order.acquires_code, hwf,
      Order.ofCode_code, Scope.ofCode_code, chk,
      Bool.false_eq_true, if_false, bne_self_eq_false]⟩

theorem decodes_waita (d a b : RegN) (scope : Scope) (order : Order) : Decodes (.waita d a b scope order) := by
  intro hwf n h
  unfold Instr.wf at hwf
  unfold encodeNat at h
  simp only [Bool.and_eq_true, Bool.not_eq_true', Option.some.injEq, Nat.add_assoc] at hwf h
  obtain ⟨hn, hc, ho, hf⟩ := reads_word h
    [.reg d, .reg a, .reg b, .code 1 scope.code scope.code_lt, .code 1 order.code order.code_lt] 22 rfl (by decide)
    (by simp only [packed, width, Field.val, Field.top]; omega)
  simp only [Reads, width, Field.reads, Field.top, Nat.reduceAdd, Nat.reducePow, Nat.reduceDiv,
    Nat.reduceMod] at hc ho hf
  exact ⟨hn, by simp only [decode_ofNat hn, decodeNat, hc, decodeLA, ho, hf, Order.releases_code, hwf,
    Order.ofCode_code, Scope.ofCode_code, chk,
    Bool.false_eq_true, if_false]⟩

theorem decodes_mma (tile : BitVec 4) (zero : Bool) (a : RegN) (resv : BitVec 4) (mask : PredN) (st : BitVec 2) :
    ∀ i ∈ [Instr.mma tile zero a resv mask st, .mmab tile zero a resv mask st], Decodes i := by
  simp only [List.forall_mem_cons, List.not_mem_nil, false_imp_iff, implies_true, and_true]
  refine ⟨?_, ?_⟩
  all_goals
    intro hwf n h
    unfold encodeNat at h
    simp only [Option.some.injEq, Nat.add_assoc] at h
    obtain ⟨hn, hc, ho, hf⟩ := reads_word h
      [.imm 3 tile, .bit zero, .zero 0, .reg a, .imm 3 resv, .pred mask, .zero 0, .imm 1 st] 22 rfl (by decide)
      (by simp only [packed, width, Field.val, Field.top, Field.zero]; omega)
    simp only [Reads, width, Field.reads, Field.top, Field.zero, Nat.reduceAdd, Nat.reducePow, Nat.reduceDiv,
      Nat.reduceMod, Nat.reduceBEq] at hc ho hf
    exact ⟨hn, by simp only [decode_ofNat hn, decodeNat, hc, decodeLX, ho, hf, chk,
      Bool.false_eq_true, if_false, bne_self_eq_false, Bool.or_self]⟩

theorem decodes_mcfg (a : RegN) (st : BitVec 2) :
    ∀ i ∈ [Instr.mcfg a st, .sftopk a st, .sfhist a st, .sfperm a st], Decodes i := by
  simp only [List.forall_mem_cons, List.not_mem_nil, false_imp_iff, implies_true, and_true]
  refine ⟨?_, ?_, ?_, ?_⟩
  all_goals
    intro hwf n h
    unfold encodeNat at h
    simp only [Option.some.injEq, Nat.add_assoc] at h
    obtain ⟨hn, hc, ho, hf⟩ := reads_word h
      [.zero 5, .reg a, .zero 5, .zero 1, .imm 1 st] 22 rfl (by decide)
      (by simp only [packed, width, Field.val, Field.top, Field.zero]; omega)
    simp only [Reads, width, Field.reads, Field.top, Field.zero, Nat.reduceAdd, Nat.reducePow, Nat.reduceDiv,
      Nat.reduceMod, Nat.reduceBEq] at hc ho hf
    exact ⟨hn, by simp only [decode_ofNat hn, decodeNat, hc, decodeLX, ho, hf, chk,
      Bool.false_eq_true, if_false, bne_self_eq_false, Bool.or_self]⟩

theorem decodes_mzero (tile : BitVec 4) (k40 : Bool) (st : BitVec 2) : Decodes (.mzero tile k40 st) := by
  intro hwf n h
  unfold encodeNat at h
  simp only [Option.some.injEq, Nat.add_assoc] at h
  obtain ⟨hn, hc, ho, hf⟩ := reads_word h
    [.imm 3 tile, .zero 13, .zero 0, .bit k40, .imm 1 st] 22 rfl (by decide)
    (by simp only [packed, width, Field.val, Field.top, Field.zero]; omega)
  simp only [Reads, width, Field.reads, Field.top, Field.zero, Nat.reduceAdd, Nat.reducePow, Nat.reduceDiv,
    Nat.reduceMod, Nat.reduceBEq] at hc ho hf
  exact ⟨hn, by simp only [decode_ofNat hn, decodeNat, hc, decodeLX, ho, hf, chk,
    Bool.false_eq_true, if_false, bne_self_eq_false]⟩

theorem decodes_mread (d a : RegN) (tile : BitVec 4) (mode : MreadMode) (st : BitVec 2) : Decodes (.mread d a tile
    mode st) := by
  intro hwf n h
  unfold Instr.wf at hwf
  unfold encodeNat at h
  simp only [Bool.not_eq_true', Option.some.injEq, Nat.add_assoc] at hwf h
  obtain ⟨hn, hc, ho, hf⟩ := reads_word h
    [.reg d, .reg a, .imm 3 tile, .zero 1, .code 1 mode.code mode.code_lt, .imm 1 st] 22 rfl (by decide)
    (by simp only [packed, width, Field.val, Field.top, Field.zero]; omega)
  simp only [Reads, width, Field.reads, Field.top, Field.zero, Nat.reduceAdd, Nat.reducePow, Nat.reduceDiv,
    Nat.reduceMod, Nat.reduceBEq] at hc ho hf
  exact ⟨hn, by simp only [decode_ofNat hn, decodeNat, hc, decodeLX, ho, hf, MreadMode.sat_code, toNat_bne_zero, hwf,
    MreadMode.ofCode_code, chk,
    Bool.false_eq_true, if_false, bne_self_eq_false, Bool.or_self]⟩

theorem decodes_mwrite (tile : BitVec 4) (a b : RegN) (i32 : Bool) (st : BitVec 2) : Decodes (.mwrite tile a b i32
    st) := by
  intro hwf n h
  unfold encodeNat at h
  simp only [Option.some.injEq, Nat.add_assoc] at h
  obtain ⟨hn, hc, ho, hf⟩ := reads_word h
    [.imm 3 tile, .zero 1, .reg a, .reg b, .zero 0, .bit i32, .imm 1 st] 22 rfl (by decide)
    (by simp only [packed, width, Field.val, Field.top, Field.zero]; omega)
  simp only [Reads, width, Field.reads, Field.top, Field.zero, Nat.reduceAdd, Nat.reducePow, Nat.reduceDiv,
    Nat.reduceMod, Nat.reduceBEq] at hc ho hf
  exact ⟨hn, by simp only [decode_ofNat hn, decodeNat, hc, decodeLX, ho, hf, chk,
    Bool.false_eq_true, if_false, bne_self_eq_false]⟩

theorem decodes_mdrain (tile : BitVec 4) (a b : RegN) (add : Bool) (st : BitVec 2) : Decodes (.mdrain tile a b add
    st) := by
  intro hwf n h
  unfold Instr.wf at hwf
  unfold encodeNat at h
  simp only [Bool.not_eq_true', Option.some.injEq, Nat.add_assoc] at hwf h
  obtain ⟨hn, hc, ho, hf⟩ := reads_word h
    [.imm 3 tile, .zero 1, .reg a, .reg b, .zero 0, .bit add, .imm 1 st] 22 rfl (by decide)
    (by simp only [packed, width, Field.val, Field.top, Field.zero]; omega)
  simp only [Reads, width, Field.reads, Field.top, Field.zero, Nat.reduceAdd, Nat.reducePow, Nat.reduceDiv,
    Nat.reduceMod, Nat.reduceBEq] at hc ho hf
  exact ⟨hn, by simp only [decode_ofNat hn, decodeNat, hc, decodeLX, ho, hf, hwf, chk,
    Bool.false_eq_true, if_false, bne_self_eq_false]⟩

theorem decodes_mwait (tile : BitVec 4) (all : Bool) (st : BitVec 2) : Decodes (.mwait tile all st) := by
  intro hwf n h
  unfold Instr.wf at hwf
  unfold encodeNat at h
  simp only [Bool.not_eq_true', Option.some.injEq, Nat.add_assoc] at hwf h
  obtain ⟨hn, hc, ho, hf⟩ := reads_word h
    [.imm 3 tile, .zero 13, .code 1 (bnat all) (bnat_lt_four _), .imm 1 st] 22 rfl (by decide)
    (by simp only [packed, width, Field.val, Field.top, Field.zero]; omega)
  simp only [Reads, width, Field.reads, Field.top, Field.zero, Nat.reduceAdd, Nat.reducePow, Nat.reduceDiv,
    Nat.reduceMod, Nat.reduceBEq] at hc ho hf
  exact ⟨hn, by simp only [decode_ofNat hn, decodeNat, hc, decodeLX, ho, hf, bnat_mod_two, bnat_div_two,
    bnat_beq_one, toNat_bne_zero, hwf, chk,
    Bool.false_eq_true, if_false, bne_self_eq_false, Bool.or_self]⟩

theorem decodes_ofence (st : BitVec 2) :
    ∀ i ∈ [Instr.ofence st, .sfwait st], Decodes i := by
  simp only [List.forall_mem_cons, List.not_mem_nil, false_imp_iff, implies_true, and_true]
  refine ⟨?_, ?_⟩
  all_goals
    intro hwf n h
    unfold encodeNat at h
    simp only [Option.some.injEq] at h
    obtain ⟨hn, hc, ho, hf⟩ := reads_word h
      [.zero 17, .zero 1, .imm 1 st] 22 rfl (by decide)
      (by simp only [packed, width, Field.val, Field.top, Field.zero]; omega)
    simp only [Reads, width, Field.reads, Field.top, Field.zero, Nat.reduceAdd, Nat.reducePow, Nat.reduceDiv,
      Nat.reduceMod, Nat.reduceBEq] at hc ho hf
    exact ⟨hn, by simp only [decode_ofNat hn, decodeNat, hc, decodeLX, ho, hf, chk,
      Bool.false_eq_true, if_false, bne_self_eq_false]⟩

theorem decodes_obres (resv : BitVec 4) (a : RegN) (st : BitVec 2) :
    ∀ i ∈ [Instr.obres resv a st, .obbind resv a st], Decodes i := by
  simp only [List.forall_mem_cons, List.not_mem_nil, false_imp_iff, implies_true, and_true]
  refine ⟨?_, ?_⟩
  all_goals
    intro hwf n h
    unfold encodeNat at h
    simp only [Option.some.injEq, Nat.add_assoc] at h
    obtain ⟨hn, hc, ho, hf⟩ := reads_word h
      [.imm 3 resv, .zero 1, .reg a, .zero 5, .zero 1, .imm 1 st] 22 rfl (by decide)
      (by simp only [packed, width, Field.val, Field.top, Field.zero]; omega)
    simp only [Reads, width, Field.reads, Field.top, Field.zero, Nat.reduceAdd, Nat.reducePow, Nat.reduceDiv,
      Nat.reduceMod, Nat.reduceBEq] at hc ho hf
    exact ⟨hn, by simp only [decode_ofNat hn, decodeNat, hc, decodeLX, ho, hf, chk,
      Bool.false_eq_true, if_false, bne_self_eq_false, Bool.or_self]⟩

theorem decodes_obrel (resv : BitVec 4) (st : BitVec 2) : Decodes (.obrel resv st) := by
  intro hwf n h
  unfold encodeNat at h
  simp only [Option.some.injEq, Nat.add_assoc] at h
  obtain ⟨hn, hc, ho, hf⟩ := reads_word h
    [.imm 3 resv, .zero 13, .zero 1, .imm 1 st] 22 rfl (by decide)
    (by simp only [packed, width, Field.val, Field.top, Field.zero]; omega)
  simp only [Reads, width, Field.reads, Field.top, Field.zero, Nat.reduceAdd, Nat.reducePow, Nat.reduceDiv,
    Nat.reduceMod, Nat.reduceBEq] at hc ho hf
  exact ⟨hn, by simp only [decode_ofNat hn, decodeNat, hc, decodeLX, ho, hf, chk,
    Bool.false_eq_true, if_false, bne_self_eq_false]⟩

theorem decodes_cpy (a : RegN) (arv : Bool) (st : BitVec 2) :
    ∀ i ∈ [Instr.cpy a arv st, .cpys a arv st], Decodes i := by
  simp only [List.forall_mem_cons, List.not_mem_nil, false_imp_iff, implies_true, and_true]
  refine ⟨?_, ?_⟩
  all_goals
    intro hwf n h
    unfold encodeNat at h
    simp only [Option.some.injEq, Nat.add_assoc] at h
    obtain ⟨hn, hc, ho, hf⟩ := reads_word h
      [.zero 5, .reg a, .zero 5, .bit arv, .zero 0, .imm 1 st] 22 rfl (by decide)
      (by simp only [packed, width, Field.val, Field.top, Field.zero]; omega)
    simp only [Reads, width, Field.reads, Field.top, Field.zero, Nat.reduceAdd, Nat.reducePow, Nat.reduceDiv,
      Nat.reduceMod, Nat.reduceBEq] at hc ho hf
    exact ⟨hn, by simp only [decode_ofNat hn, decodeNat, hc, decodeLX, ho, hf, chk,
      Bool.false_eq_true, if_false, bne_self_eq_false, Bool.or_self]⟩

theorem decodes_fetch (a b : RegN) (arv : Bool) (st : BitVec 2) : Decodes (.fetch a b arv st) := by
  intro hwf n h
  unfold encodeNat at h
  simp only [Option.some.injEq, Nat.add_assoc] at h
  obtain ⟨hn, hc, ho, hf⟩ := reads_word h
    [.zero 5, .reg a, .reg b, .bit arv, .zero 0, .imm 1 st] 22 rfl (by decide)
    (by simp only [packed, width, Field.val, Field.top, Field.zero]; omega)
  simp only [Reads, width, Field.reads, Field.top, Field.zero, Nat.reduceAdd, Nat.reducePow, Nat.reduceDiv,
    Nat.reduceMod, Nat.reduceBEq] at hc ho hf
  exact ⟨hn, by simp only [decode_ofNat hn, decodeNat, hc, decodeLX, ho, hf, chk,
    Bool.false_eq_true, if_false, bne_self_eq_false, Bool.or_self]⟩

theorem decodes_tbinit (a b : RegN) (ring : Bool) (st : BitVec 2) : Decodes (.tbinit a b ring st) := by
  intro hwf n h
  unfold Instr.wf at hwf
  unfold encodeNat at h
  simp only [Bool.not_eq_true', Option.some.injEq, Nat.add_assoc] at hwf h
  obtain ⟨hn, hc, ho, hf⟩ := reads_word h
    [.zero 5, .reg a, .reg b, .zero 0, .bit ring, .imm 1 st] 22 rfl (by decide)
    (by simp only [packed, width, Field.val, Field.top, Field.zero]; omega)
  simp only [Reads, width, Field.reads, Field.top, Field.zero, Nat.reduceAdd, Nat.reducePow, Nat.reduceDiv,
    Nat.reduceMod, Nat.reduceBEq] at hc ho hf
  exact ⟨hn, by simp only [decode_ofNat hn, decodeNat, hc, decodeLX, ho, hf, hwf, chk,
    Bool.false_eq_true, if_false, bne_self_eq_false]⟩

theorem decodes_tbarr (a b : RegN) (decl : Bool) (st : BitVec 2) : Decodes (.tbarr a b decl st) := by
  intro hwf n h
  unfold encodeNat at h
  simp only [Option.some.injEq, Nat.add_assoc] at h
  obtain ⟨hn, hc, ho, hf⟩ := reads_word h
    [.zero 5, .reg a, .reg b, .zero 0, .bit decl, .imm 1 st] 22 rfl (by decide)
    (by simp only [packed, width, Field.val, Field.top, Field.zero]; omega)
  simp only [Reads, width, Field.reads, Field.top, Field.zero, Nat.reduceAdd, Nat.reducePow, Nat.reduceDiv,
    Nat.reduceMod, Nat.reduceBEq] at hc ho hf
  exact ⟨hn, by simp only [decode_ofNat hn, decodeNat, hc, decodeLX, ho, hf, chk,
    Bool.false_eq_true, if_false, bne_self_eq_false]⟩

theorem decodes_tbwait (a b : RegN) (par : Bool) (st : BitVec 2) : Decodes (.tbwait a b par st) := by
  intro hwf n h
  unfold encodeNat at h
  simp only [Option.some.injEq, Nat.add_assoc] at h
  obtain ⟨hn, hc, ho, hf⟩ := reads_word h
    [.zero 5, .reg a, .reg b, .zero 0, .bit par, .imm 1 st] 22 rfl (by decide)
    (by simp only [packed, width, Field.val, Field.top, Field.zero]; omega)
  simp only [Reads, width, Field.reads, Field.top, Field.zero, Nat.reduceAdd, Nat.reducePow, Nat.reduceDiv,
    Nat.reduceMod, Nat.reduceBEq] at hc ho hf
  exact ⟨hn, by simp only [decode_ofNat hn, decodeNat, hc, decodeLX, ho, hf, chk,
    Bool.false_eq_true, if_false, bne_self_eq_false]⟩

theorem decodes_tbtest (pd : PredN) (a b : RegN) (par : Bool) (st : BitVec 2) : Decodes (.tbtest pd a b par st) := by
  intro hwf n h
  unfold encodeNat at h
  simp only [Option.some.injEq, Nat.add_assoc] at h
  obtain ⟨hn, hc, ho, hf⟩ := reads_word h
    [.zero 2, .pred pd, .reg a, .reg b, .zero 0, .bit par, .imm 1 st] 22 rfl (by decide)
    (by simp only [packed, width, Field.val, Field.top, Field.zero]; omega)
  simp only [Reads, width, Field.reads, Field.top, Field.zero, Nat.reduceAdd, Nat.reducePow, Nat.reduceDiv,
    Nat.reduceMod, Nat.reduceBEq] at hc ho hf
  exact ⟨hn, by simp only [decode_ofNat hn, decodeNat, hc, decodeLX, ho, hf, chk,
    Bool.false_eq_true, if_false, bne_self_eq_false]⟩

theorem decodes_sfmax (tile : BitVec 4) (a b : RegN) (st : BitVec 2) : Decodes (.sfmax tile a b st) := by
  intro hwf n h
  unfold encodeNat at h
  simp only [Option.some.injEq, Nat.add_assoc] at h
  obtain ⟨hn, hc, ho, hf⟩ := reads_word h
    [.imm 3 tile, .zero 1, .reg a, .reg b, .zero 1, .imm 1 st] 22 rfl (by decide)
    (by simp only [packed, width, Field.val, Field.top, Field.zero]; omega)
  simp only [Reads, width, Field.reads, Field.top, Field.zero, Nat.reduceAdd, Nat.reducePow, Nat.reduceDiv,
    Nat.reduceMod, Nat.reduceBEq] at hc ho hf
  exact ⟨hn, by simp only [decode_ofNat hn, decodeNat, hc, decodeLX, ho, hf, chk,
    Bool.false_eq_true, if_false, bne_self_eq_false]⟩

theorem decodes_sfmask (mreg : PredN) (a b : RegN) (st : BitVec 2) : Decodes (.sfmask mreg a b st) := by
  intro hwf n h
  unfold encodeNat at h
  simp only [Option.some.injEq, Nat.add_assoc] at h
  obtain ⟨hn, hc, ho, hf⟩ := reads_word h
    [.zero 2, .pred mreg, .reg a, .reg b, .zero 1, .imm 1 st] 22 rfl (by decide)
    (by simp only [packed, width, Field.val, Field.top, Field.zero]; omega)
  simp only [Reads, width, Field.reads, Field.top, Field.zero, Nat.reduceAdd, Nat.reducePow, Nat.reduceDiv,
    Nat.reduceMod, Nat.reduceBEq] at hc ho hf
  exact ⟨hn, by simp only [decode_ofNat hn, decodeNat, hc, decodeLX, ho, hf, chk,
    Bool.false_eq_true, if_false, bne_self_eq_false]⟩

theorem decodes_sfclr (mreg : PredN) (a : RegN) (maskOnly : Bool) (st : BitVec 2) : Decodes (.sfclr mreg a maskOnly
    st) := by
  intro hwf n h
  unfold Instr.wf at hwf
  unfold encodeNat at h
  simp only [Bool.not_eq_true', Option.some.injEq, Nat.add_assoc] at hwf h
  obtain ⟨hn, hc, ho, hf⟩ := reads_word h
    [.zero 2, .pred mreg, .reg a, .zero 5, .code 1 (bnat maskOnly) (bnat_lt_four _), .imm 1 st] 22 rfl (by decide)
    (by simp only [packed, width, Field.val, Field.top, Field.zero]; omega)
  simp only [Reads, width, Field.reads, Field.top, Field.zero, Nat.reduceAdd, Nat.reducePow, Nat.reduceDiv,
    Nat.reduceMod, Nat.reduceBEq] at hc ho hf
  exact ⟨hn, by simp only [decode_ofNat hn, decodeNat, hc, decodeLX, ho, hf, bnat_mod_two, bnat_div_two,
    bnat_beq_one, toNat_bne_zero, hwf, chk,
    Bool.false_eq_true, if_false, bne_self_eq_false, Bool.or_self]⟩

theorem decodes_sfscan (a : RegN) (incl : Bool) (st : BitVec 2) : Decodes (.sfscan a incl st) := by
  intro hwf n h
  unfold encodeNat at h
  simp only [Option.some.injEq, Nat.add_assoc] at h
  obtain ⟨hn, hc, ho, hf⟩ := reads_word h
    [.zero 5, .reg a, .zero 5, .zero 0, .bit incl, .imm 1 st] 22 rfl (by decide)
    (by simp only [packed, width, Field.val, Field.top, Field.zero]; omega)
  simp only [Reads, width, Field.reads, Field.top, Field.zero, Nat.reduceAdd, Nat.reducePow, Nat.reduceDiv,
    Nat.reduceMod, Nat.reduceBEq] at hc ho hf
  exact ⟨hn, by simp only [decode_ofNat hn, decodeNat, hc, decodeLX, ho, hf, chk,
    Bool.false_eq_true, if_false, bne_self_eq_false, Bool.or_self]⟩

theorem decodes_redi (d a : RegN) (mode : RediMode) (st : BitVec 2) : Decodes (.redi d a mode st) := by
  intro hwf n h
  unfold encodeNat at h
  simp only [Option.some.injEq, Nat.add_assoc] at h
  obtain ⟨hn, hc, ho, hf⟩ := reads_word h
    [.reg d, .reg a, .zero 5, .code 1 mode.code mode.code_lt, .imm 1 st] 22 rfl (by decide)
    (by simp only [packed, width, Field.val, Field.top, Field.zero]; omega)
  simp only [Reads, width, Field.reads, Field.top, Field.zero, Nat.reduceAdd, Nat.reducePow, Nat.reduceDiv,
    Nat.reduceMod, Nat.reduceBEq] at hc ho hf
  exact ⟨hn, by simp only [decode_ofNat hn, decodeNat, hc, decodeLC, ho, hf, RediMode.ofCode_code, chk,
    Bool.false_eq_true, if_false, bne_self_eq_false]⟩

theorem decodes_redn (d a : RegN) (mode : RednMode) (st : BitVec 2) : Decodes (.redn d a mode st) := by
  intro hwf n h
  unfold Instr.wf at hwf
  unfold encodeNat at h
  simp only [Bool.not_eq_true', Option.some.injEq, Nat.add_assoc] at hwf h
  obtain ⟨hn, hc, ho, hf⟩ := reads_word h
    [.reg d, .reg a, .zero 5, .code 1 mode.code mode.code_lt, .imm 1 st] 22 rfl (by decide)
    (by simp only [packed, width, Field.val, Field.top, Field.zero]; omega)
  simp only [Reads, width, Field.reads, Field.top, Field.zero, Nat.reduceAdd, Nat.reducePow, Nat.reduceDiv,
    Nat.reduceMod, Nat.reduceBEq] at hc ho hf
  exact ⟨hn, by simp only [decode_ofNat hn, decodeNat, hc, decodeLC, ho, hf, RednMode.wadd_code, hwf,
    RednMode.ofCode_code, chk,
    Bool.false_eq_true, if_false, bne_self_eq_false]⟩

theorem decodes_redf (d a : RegN) (mode : RedfMode) (st : BitVec 2) : Decodes (.redf d a mode st) := by
  intro hwf n h
  unfold encodeNat at h
  simp only [Option.some.injEq, Nat.add_assoc] at h
  obtain ⟨hn, hc, ho, hf⟩ := reads_word h
    [.reg d, .reg a, .zero 5, .code 1 mode.code mode.code_lt, .imm 1 st] 22 rfl (by decide)
    (by simp only [packed, width, Field.val, Field.top, Field.zero]; omega)
  simp only [Reads, width, Field.reads, Field.top, Field.zero, Nat.reduceAdd, Nat.reducePow, Nat.reduceDiv,
    Nat.reduceMod, Nat.reduceBEq] at hc ho hf
  exact ⟨hn, by simp only [decode_ofNat hn, decodeNat, hc, decodeLC, ho, hf, RedfMode.legal, RedfMode.ofCode_code, chk,
    Bool.false_eq_true, if_false, bne_self_eq_false]⟩

theorem decodes_redd (d a : RegN) (mode : RedfMode) (st : BitVec 2) : Decodes (.redd d a mode st) := by
  intro hwf n h
  unfold Instr.wf at hwf
  unfold encodeNat at h
  simp only [Bool.not_eq_true', Option.some.injEq, Nat.add_assoc] at hwf h
  obtain ⟨hn, hc, ho, hf⟩ := reads_word h
    [.reg d, .reg a, .zero 5, .code 1 mode.code mode.code_lt, .imm 1 st] 22 rfl (by decide)
    (by simp only [packed, width, Field.val, Field.top, Field.zero]; omega)
  simp only [Reads, width, Field.reads, Field.top, Field.zero, Nat.reduceAdd, Nat.reducePow, Nat.reduceDiv,
    Nat.reduceMod, Nat.reduceBEq] at hc ho hf
  exact ⟨hn, by simp only [decode_ofNat hn, decodeNat, hc, decodeLC, ho, hf, RedfMode.legal, hwf,
    RedfMode.ofCode_code, chk,
    Bool.false_eq_true, if_false, bne_self_eq_false]⟩

theorem decodes_scani (d a : RegN) (mode : ScaniMode) (st : BitVec 2) : Decodes (.scani d a mode st) := by
  intro hwf n h
  unfold encodeNat at h
  simp only [Option.some.injEq, Nat.add_assoc] at h
  obtain ⟨hn, hc, ho, hf⟩ := reads_word h
    [.reg d, .reg a, .zero 5, .code 1 mode.code mode.code_lt, .imm 1 st] 22 rfl (by decide)
    (by simp only [packed, width, Field.val, Field.top, Field.zero]; omega)
  simp only [Reads, width, Field.reads, Field.top, Field.zero, Nat.reduceAdd, Nat.reducePow, Nat.reduceDiv,
    Nat.reduceMod, Nat.reduceBEq] at hc ho hf
  exact ⟨hn, by simp only [decode_ofNat hn, decodeNat, hc, decodeLC, ho, hf, ScaniMode.ofCode_code, chk,
    Bool.false_eq_true, if_false, bne_self_eq_false]⟩

theorem decodes_scanf (d a : RegN) (mode : ScanfMode) (st : BitVec 2) : Decodes (.scanf d a mode st) := by
  intro hwf n h
  unfold encodeNat at h
  simp only [Option.some.injEq, Nat.add_assoc] at h
  obtain ⟨hn, hc, ho, hf⟩ := reads_word h
    [.reg d, .reg a, .zero 5, .code 1 mode.code mode.code_lt, .imm 1 st] 22 rfl (by decide)
    (by simp only [packed, width, Field.val, Field.top, Field.zero]; omega)
  simp only [Reads, width, Field.reads, Field.top, Field.zero, Nat.reduceAdd, Nat.reducePow, Nat.reduceDiv,
    Nat.reduceMod, Nat.reduceBEq] at hc ho hf
  exact ⟨hn, by simp only [decode_ofNat hn, decodeNat, hc, decodeLC, ho, hf, ScanfMode.ofCode_code, chk,
    Bool.false_eq_true, if_false, bne_self_eq_false]⟩

theorem decodes_isect (d a b : RegN) (st : BitVec 2) : Decodes (.isect d a b st) := by
  intro hwf n h
  unfold Instr.wf at hwf
  unfold encodeNat at h
  simp only [Bool.not_eq_true', Option.some.injEq, Nat.add_assoc] at hwf h
  obtain ⟨hn, hc, ho, hf⟩ := reads_word h
    [.reg d, .reg a, .reg b, .zero 1, .imm 1 st] 22 rfl (by decide)
    (by simp only [packed, width, Field.val, Field.top, Field.zero]; omega)
  simp only [Reads, width, Field.reads, Field.top, Field.zero, Nat.reduceAdd, Nat.reducePow, Nat.reduceDiv,
    Nat.reduceMod, Nat.reduceBEq] at hc ho hf
  exact ⟨hn, by simp only [decode_ofNat hn, decodeNat, hc, decodeLC, ho, hf, hwf, chk,
    Bool.false_eq_true, if_false, bne_self_eq_false]⟩

theorem decodes_isectb (d a b : RegN) (pk st : BitVec 2) : Decodes (.isectb d a b pk st) := by
  intro hwf n h
  unfold Instr.wf at hwf
  unfold encodeNat at h
  simp only [Bool.not_eq_true', Option.some.injEq, Nat.add_assoc] at hwf h
  obtain ⟨hn, hc, ho, hf⟩ := reads_word h
    [.reg d, .reg a, .reg b, .imm 1 pk, .imm 1 st] 22 rfl (by decide)
    (by simp only [packed, width, Field.val, Field.top]; omega)
  simp only [Reads, width, Field.reads, Field.top, Nat.reduceAdd, Nat.reducePow, Nat.reduceDiv,
    Nat.reduceMod] at hc ho hf
  exact ⟨hn, by simp only [decode_ofNat hn, decodeNat, hc, decodeLC, ho, hf, hwf, chk,
    Bool.false_eq_true, if_false]⟩

theorem decodes_fcmp (pd : PredN) (a b : RegN) (mode : FCond) (st : BitVec 2) : Decodes (.fcmp pd a b mode st) := by
  intro hwf n h
  unfold encodeNat at h
  simp only [Option.some.injEq, Nat.add_assoc] at h
  obtain ⟨hn, hc, ho, hf⟩ := reads_word h
    [.zero 2, .pred pd, .reg a, .reg b, .code 1 mode.code mode.code_lt, .imm 1 st] 22 rfl (by decide)
    (by simp only [packed, width, Field.val, Field.top, Field.zero]; omega)
  simp only [Reads, width, Field.reads, Field.top, Field.zero, Nat.reduceAdd, Nat.reducePow, Nat.reduceDiv,
    Nat.reduceMod, Nat.reduceBEq] at hc ho hf
  exact ⟨hn, by simp only [decode_ofNat hn, decodeNat, hc, decodeLC, ho, hf, FCond.ofCode_code, chk,
    Bool.false_eq_true, if_false, bne_self_eq_false]⟩

theorem decodes_dcmp (pd : PredN) (a b : RegN) (mode : FCond) (st : BitVec 2) : Decodes (.dcmp pd a b mode st) := by
  intro hwf n h
  unfold Instr.wf at hwf
  unfold encodeNat at h
  simp only [Bool.not_eq_true', Option.some.injEq, Nat.add_assoc] at hwf h
  obtain ⟨hn, hc, ho, hf⟩ := reads_word h
    [.zero 2, .pred pd, .reg a, .reg b, .code 1 mode.code mode.code_lt, .imm 1 st] 22 rfl (by decide)
    (by simp only [packed, width, Field.val, Field.top, Field.zero]; omega)
  simp only [Reads, width, Field.reads, Field.top, Field.zero, Nat.reduceAdd, Nat.reducePow, Nat.reduceDiv,
    Nat.reduceMod, Nat.reduceBEq] at hc ho hf
  exact ⟨hn, by simp only [decode_ofNat hn, decodeNat, hc, decodeLC, ho, hf, hwf, FCond.ofCode_code, chk,
    Bool.false_eq_true, if_false, bne_self_eq_false]⟩

theorem decodes_hcmp2 (pd : PredN) (a b : RegN) (mode : FCond) (st : BitVec 2) : Decodes (.hcmp2 pd a b mode st) := by
  intro hwf n h
  unfold Instr.wf at hwf
  unfold encodeNat at h
  simp only [Bool.not_eq_true', Option.some.injEq, Nat.add_assoc] at hwf h
  obtain ⟨hn, hc, ho, hf⟩ := reads_word h
    [.zero 2, .pred pd, .reg a, .reg b, .code 1 mode.code mode.code_lt, .imm 1 st] 22 rfl (by decide)
    (by simp only [packed, width, Field.val, Field.top, Field.zero]; omega)
  simp only [Reads, width, Field.reads, Field.top, Field.zero, Nat.reduceAdd, Nat.reducePow, Nat.reduceDiv,
    Nat.reduceMod, Nat.reduceBEq] at hc ho hf
  exact ⟨hn, by simp only [decode_ofNat hn, decodeNat, hc, decodeLC, ho, hf, hwf, FCond.ofCode_code, chk,
    Bool.false_eq_true, if_false, bne_self_eq_false]⟩

theorem decodes_fclass (d a : RegN) (mode : FclassFmt) (st : BitVec 2) : Decodes (.fclass d a mode st) := by
  intro hwf n h
  unfold Instr.wf at hwf
  unfold encodeNat at h
  simp only [Bool.not_eq_true', Option.some.injEq, Nat.add_assoc] at hwf h
  obtain ⟨hn, hc, ho, hf⟩ := reads_word h
    [.reg d, .reg a, .zero 5, .code 1 mode.code mode.code_lt, .imm 1 st] 22 rfl (by decide)
    (by simp only [packed, width, Field.val, Field.top, Field.zero]; omega)
  simp only [Reads, width, Field.reads, Field.top, Field.zero, Nat.reduceAdd, Nat.reducePow, Nat.reduceDiv,
    Nat.reduceMod, Nat.reduceBEq] at hc ho hf
  exact ⟨hn, by simp only [decode_ofNat hn, decodeNat, hc, decodeLC, ho, hf, FclassFmt.f64_code, hwf,
    FclassFmt.ofCode_code, chk,
    Bool.false_eq_true, if_false, bne_self_eq_false]⟩

theorem decodes_icinv (a : RegN) : Decodes (.icinv a) := by
  intro hwf n h
  unfold Instr.wf at hwf
  unfold encodeNat at h
  simp only [Bool.not_eq_true', Option.some.injEq] at hwf h
  obtain ⟨hn, hc, ho, hf⟩ := reads_word h [.zero 14, .bit false, .reg a] 22 rfl (by decide)
    (by simp only [packed, width, Field.val, Field.top, Field.zero, bnat, Bool.false_eq_true, if_false]; omega)
  simp only [Reads, width, Field.reads, Field.top, Field.zero, Nat.reduceAdd, Nat.reducePow, Nat.reduceDiv,
    Nat.reduceMod, Nat.reduceBEq] at hc ho hf
  exact ⟨hn, by simp only [decode_ofNat hn, decodeNat, hc, decodeFY, ho, hf, hwf, chk,
    Bool.false_eq_true, if_false, bne_self_eq_false]⟩

theorem decodes_icinvAll : Decodes .icinvAll := by
  intro _ n h
  obtain rfl := Option.some.inj h
  exact ⟨by decide, rfl⟩

/-- The DBG operations differ in the operation's number alone. -/
theorem decodes_dbg (m : Nat) (hm : m < 2 ^ (3 + 1)) {i : Instr} {d a : RegN} (hw : i.wf = !oddReg a)
    (he : encodeNat i = some (0xd3800000 + m * 64 + d.toNat * 65536 + a.toNat))
    (hd : ∀ n, fld n 31 28 = 13 → fld n 27 22 = 14 → fld n 9 6 = m → regAt n 16 = d → regAt n 0 = a →
      decodeNat n = chk (fld n 15 10 != 0) false (bitAt n 0) false i) : Decodes i := by
  intro hwf n h
  rw [hw, Bool.not_eq_true'] at hwf
  rw [he] at h
  simp only [Option.some.injEq, Nat.add_assoc] at h
  obtain ⟨hn, hc, ho, hf⟩ := reads_word h [.reg d, .zero 5, .code 3 m hm, .reg a] 22 rfl (by decide)
    (by simp only [packed, width, Field.val, Field.top, Field.zero]; omega)
  simp only [Reads, width, Field.reads, Field.top, Field.zero, Nat.reduceAdd, Nat.reducePow, Nat.reduceDiv,
    Nat.reduceMod, Nat.reduceBEq] at hc ho hf
  obtain ⟨⟨-, hrd, -⟩, ⟨hz, -⟩, ⟨hop, -⟩, ⟨-, hra, hba, -⟩, -⟩ := hf
  exact ⟨hn, by simp only [decode_ofNat hn, hd n hc ho hop hrd hra, chk, hz, hba, hwf, Bool.false_eq_true, if_false,
    bne_self_eq_false]⟩

theorem decodes_bcast (d a : RegN) (src : BcastSrc) (st : BitVec 2) : Decodes (.bcast d a src st) := by
  intro _ n h
  unfold encodeNat at h
  simp only [Option.some.injEq, Nat.add_assoc] at h
  cases src with
  | lane l =>
    have hl : ¬ 31 < l.toNat := by omega
    obtain ⟨hn, hc, ho, hf⟩ := reads_word h [.reg d, .reg a, .code 5 l.toNat (by omega), .zero 1,
      .imm 1 st] 22 rfl (by decide)
      (by simp only [packed, width, Field.val, Field.top, Field.zero, BcastSrc.bits]; omega)
    obtain ⟨-, -, -, hf'⟩ := reads_word h [.reg d, .reg a, .zero 0, .imm 4 l, .zero 1, .imm 1 st] 22 rfl (by decide)
      (by simp only [packed, width, Field.val, Field.top, Field.zero, BcastSrc.bits]; omega)
    simp only [Reads, width, Field.reads, Field.top, Field.zero, Nat.reduceAdd, Nat.reducePow, Nat.reduceDiv,
      Nat.reduceMod, Nat.reduceBEq] at hc ho hf hf'
    exact ⟨hn, by simp only [decode_ofNat hn, decodeNat, hc, decodeLC, ho, hf, hf', BcastSrc.at, hl, chk, Nat.reduceBEq,
      decide_false, Bool.false_and, Bool.true_and, Bool.false_eq_true, if_false]⟩
  | reg b =>
    obtain ⟨hn, hc, ho, hf⟩ := reads_word h [.reg d, .reg a, .reg b, .code 1 1 (by decide),
      .imm 1 st] 22 rfl (by decide)
      (by simp only [packed, width, Field.val, Field.top, BcastSrc.bits]; omega)
    simp only [Reads, width, Field.reads, Field.top, Nat.reduceAdd, Nat.reducePow, Nat.reduceDiv,
      Nat.reduceMod, Nat.reduceBEq] at hc ho hf
    exact ⟨hn, by simp only [decode_ofNat hn, decodeNat, hc, decodeLC, ho, hf, BcastSrc.at, chk, Nat.reduceBEq,
      Bool.false_and, Bool.false_eq_true, if_false]⟩
  | last =>
    obtain ⟨hn, hc, ho, hf⟩ := reads_word h [.reg d, .reg a, .zero 5, .code 1 2 (by decide),
      .imm 1 st] 22 rfl (by decide)
      (by simp only [packed, width, Field.val, Field.top, Field.zero, BcastSrc.bits]; omega)
    simp only [Reads, width, Field.reads, Field.top, Field.zero, Nat.reduceAdd, Nat.reducePow, Nat.reduceDiv,
      Nat.reduceMod, Nat.reduceBEq] at hc ho hf
    exact ⟨hn, by simp only [decode_ofNat hn, decodeNat, hc, decodeLC, ho, hf, BcastSrc.at, chk, Nat.reduceBEq,
      bne_self_eq_false, Bool.and_false, Bool.false_and, Bool.false_eq_true, if_false]⟩

theorem decodes_vote (op : VoteOp) (ps : PredN) (st : BitVec 2) : Decodes (.vote op ps st) := by
  intro _ n h
  unfold encodeNat at h
  simp only [Option.some.injEq, Nat.add_assoc] at h
  have pred (p : PredN) (m : Nat) (hm : m < 2 ^ (1 + 1)) (hb : op.bits = p.toNat * 65536 + m * 4) :=
    reads_word h [.zero 2, .pred p, .zero 2, .pred ps, .zero 5, .code 1 m hm, .imm 1 st] 22 rfl (by decide)
      (by simp only [packed, width, Field.val, Field.top, Field.zero, hb]; omega)
  cases op with
  | ballot d =>
    obtain ⟨hn, hc, ho, hf⟩ := reads_word h [.reg d, .zero 2, .pred ps, .zero 5, .code 1 2 (by decide),
      .imm 1 st] 22 rfl (by decide)
      (by simp only [packed, width, Field.val, Field.top, Field.zero, VoteOp.bits]; omega)
    simp only [Reads, width, Field.reads, Field.top, Field.zero, Nat.reduceAdd, Nat.reducePow, Nat.reduceDiv,
      Nat.reduceMod, Nat.reduceBEq] at hc ho hf
    exact ⟨hn, by simp only [decode_ofNat hn, decodeNat, hc, decodeLC, ho, hf, VoteOp.at, chk,
      bne_self_eq_false, Bool.or_self, Bool.false_and, Bool.false_eq_true, if_false]⟩
  | all p =>
    obtain ⟨hn, hc, ho, hf⟩ := pred p 0 (by decide) (Nat.add_zero _).symm
    simp only [Reads, width, Field.reads, Field.top, Field.zero, Nat.reduceAdd, Nat.reducePow, Nat.reduceDiv,
      Nat.reduceMod, Nat.reduceBEq] at hc ho hf
    exact ⟨hn, by simp only [decode_ofNat hn, decodeNat, hc, decodeLC, ho, hf, VoteOp.at, chk,
      bne_self_eq_false, Bool.or_self, Bool.and_false, Bool.false_eq_true, if_false]⟩
  | any p =>
    obtain ⟨hn, hc, ho, hf⟩ := pred p 1 (by decide) rfl
    simp only [Reads, width, Field.reads, Field.top, Field.zero, Nat.reduceAdd, Nat.reducePow, Nat.reduceDiv,
      Nat.reduceMod, Nat.reduceBEq] at hc ho hf
    exact ⟨hn, by simp only [decode_ofNat hn, decodeNat, hc, decodeLC, ho, hf, VoteOp.at, chk,
      bne_self_eq_false, Bool.or_self, Bool.and_false, Bool.false_eq_true, if_false]⟩
  | eq p =>
    obtain ⟨hn, hc, ho, hf⟩ := pred p 3 (by decide) rfl
    simp only [Reads, width, Field.reads, Field.top, Field.zero, Nat.reduceAdd, Nat.reducePow, Nat.reduceDiv,
      Nat.reduceMod, Nat.reduceBEq] at hc ho hf
    exact ⟨hn, by simp only [decode_ofNat hn, decodeNat, hc, decodeLC, ho, hf, VoteOp.at, chk,
      bne_self_eq_false, Bool.or_self, Bool.and_false, Bool.false_eq_true, if_false]⟩

/-- Settles O50: by the layout of each group of words, whose fields the decoder reads back. -/
theorem encodeThenDecode : Obligations.EncodeThenDecode := by
  intro i n hwf h
  have hd : Decodes i := by
    cases i with
    | mov d a ka wide | ineg d a ka wide | iabs d a ka wide | xbase d a ka wide | rdfirst d a ka wide
      | expand d a ka wide => exact decodes_mov d a ka wide _ (by simp)
    | iadd d a b ka kb wide | isub d a b ka kb wide | imul d a b ka kb wide | and d a b ka kb wide
      | or d a b ka kb wide | xor d a b ka kb wide | andn d a b ka kb wide | imin d a b ka kb wide
      | imax d a b ka kb wide | nmin d a b ka kb wide | nmax d a b ka kb wide =>
      exact decodes_iadd d a b ka kb wide _ (by simp)
    | shl d a b ka kb wide | shr d a b ka kb wide | sar d a b ka kb wide | mkform d a b ka kb wide =>
      exact decodes_shl d a b ka kb wide _ (by simp)
    | xstride d a ka wide => exact decodes_xstride d a ka wide
    | iaddi d a imm | imuli d a imm | andi d a imm | ori d a imm | xori d a imm =>
      exact decodes_iaddi d a imm _ (by simp)
    | shli d a imm | shri d a imm | sari d a imm => exact decodes_shli d a imm _ (by simp)
    | movi d imm => exact decodes_movi d imm
    | iaddiw d a imm => exact decodes_iaddiw d a imm
    | movl d imm | movh d imm | movs d imm => exact decodes_movl d imm _ (by simp)
    | icmp pd a b cond | ncmp pd a b cond => exact decodes_icmp pd a b cond _ (by simp)
    | icmpa pd ps a b cond | icmpo pd ps a b cond | ncmpa pd ps a b cond | ncmpo pd ps a b cond =>
      exact decodes_icmpa pd ps a b cond _ (by simp)
    | icmpi pd a imm cond | ncmpi pd a imm cond => exact decodes_icmpi pd a imm cond _ (by simp)
    | icmpw pd a b cond | ncmpw pd a b cond => exact decodes_icmpw pd a b cond _ (by simp)
    | pand pd pa pb | por pd pa pb | pxor pd pa pb | pandn pd pa pb => exact decodes_pand pd pa pb _ (by simp)
    | pnot pd pa => exact decodes_pnot pd pa
    | pset pd k => exact decodes_pset pd k
    | pcut pd a above => exact decodes_pcut pd a above
    | sel d a b p sense => exact decodes_sel d a b p sense
    | selw d a b p sense => exact decodes_selw d a b p sense
    | ptoi d p sense => exact decodes_ptoi d p sense
    | next off | call off | yield off => exact decodes_next off _ (by simp)
    | br p sense off => exact decodes_br p sense off
    | brx a | callx a => exact decodes_brx a _ (by simp)
    | ret | exit => exact decodes_ret _ (by simp)
    | trap x => exact decodes_trap x
    | switch a entriesM1 => exact decodes_switch a entriesM1
    | rds d wide sreg => exact decodes_rds d wide sreg
    | wrs a wide sreg => exact decodes_wrs a wide sreg
    | fence scope kind => exact decodes_fence scope kind
    | bar x | bara x => exact decodes_bar x _ (by simp)
    | rand d stream => exact decodes_rand d stream
    | cyc d wide => exact decodes_cyc d wide
    | nop | eret | halt => exact decodes_nop _ (by simp)
    | bkpt code => exact decodes_bkpt code
    | xcht d x => exact decodes_xcht d x
    | launch d a | lwait d a => exact decodes_launch d a _ (by simp)
    | dbgHalt d a =>
      exact decodes_dbg 0 (by decide) rfl rfl fun n hc ho hm hd ha => by
        simp only [decodeNat, hc, decodeFY, ho, hm, hd, ha]
    | dbgResume d a =>
      exact decodes_dbg 1 (by decide) rfl rfl fun n hc ho hm hd ha => by
        simp only [decodeNat, hc, decodeFY, ho, hm, hd, ha]
    | dbgStep d a =>
      exact decodes_dbg 2 (by decide) rfl rfl fun n hc ho hm hd ha => by
        simp only [decodeNat, hc, decodeFY, ho, hm, hd, ha]
    | dbgSetbp d a =>
      exact decodes_dbg 3 (by decide) rfl rfl fun n hc ho hm hd ha => by
        simp only [decodeNat, hc, decodeFY, ho, hm, hd, ha]
    | dbgClrbp d a =>
      exact decodes_dbg 4 (by decide) rfl rfl fun n hc ho hm hd ha => by
        simp only [decodeNat, hc, decodeFY, ho, hm, hd, ha]
    | dbgSetwp d a =>
      exact decodes_dbg 5 (by decide) rfl rfl fun n hc ho hm hd ha => by
        simp only [decodeNat, hc, decodeFY, ho, hm, hd, ha]
    | dbgClrwp d a =>
      exact decodes_dbg 6 (by decide) rfl rfl fun n hc ho hm hd ha => by
        simp only [decodeNat, hc, decodeFY, ho, hm, hd, ha]
    | dbgRead d a =>
      exact decodes_dbg 7 (by decide) rfl rfl fun n hc ho hm hd ha => by
        simp only [decodeNat, hc, decodeFY, ho, hm, hd, ha]
    | dbgPost d a =>
      exact decodes_dbg 8 (by decide) rfl rfl fun n hc ho hm hd ha => by
        simp only [decodeNat, hc, decodeFY, ho, hm, hd, ha]
    | segh lenM1 fold liveG liveP role => exact decodes_segh lenM1 fold liveG liveP role
    | runh count guard sense prefetch => exact decodes_runh count guard sense prefetch
    | imulhi d a b ka kb st | nmulhi d a b ka kb st | bfe d a b ka kb st | prmt d a b ka kb st | fadd d a b ka kb st
      | fsub d a b ka kb st | fmul d a b ka kb st | fmin d a b ka kb st | fmax d a b ka kb st | hadd2 d a b ka kb st
      | hmul2 d a b ka kb st | hmin2 d a b ka kb st | hmax2 d a b ka kb st | badd2 d a b ka kb st | bmul2 d a b ka kb st
      | fscl d a b ka kb st => exact decodes_imulhi d a b ka kb st _ (by simp)
    | popc d a ka st | clz d a ka st | brev d a ka st | fabs d a ka st | fneg d a ka st | fexp2 d a ka st
      | flog2 d a ka st | frcp d a ka st | frsq d a ka st | fsqrt d a ka st | fsinp d a ka st | fcosp d a ka st
      | ftanh d a ka st | ffrc d a ka st => exact decodes_popc d a ka st _ (by simp)
    | dadd d a b ka kb st | dsub d a b ka kb st | dmul d a b ka kb st | dmin d a b ka kb st | dmax d a b ka kb st =>
      exact decodes_dadd d a b ka kb st _ (by simp)
    | cvt d a code ka inf st => exact decodes_cvt d a code ka inf st
    | drcp d a ka st | drsq d a ka st => exact decodes_drcp d a ka st _ (by simp)
    | dscl d a b ka kb st => exact decodes_dscl d a b ka kb st
    | ffma d a b c st | hfma2 d a b c st | imad d a b c st => exact decodes_ffma d a b c st _ (by simp)
    | dfma d a b c st => exact decodes_dfma d a b c st
    | ld8 d a off ka st | ld8s d a off ka st | ld16 d a off ka st | ld16s d a off ka st | ld32 d a off ka st
      | lda32 d a off ka st | st8 d a off ka st | st16 d a off ka st | st32 d a off ka st | stl32 d a off ka st
      | ldc32 d a off ka st => exact decodes_ld8 d a off ka st _ (by simp)
    | ld64 d a off ka st | lda64 d a off ka st | st64 d a off ka st | stl64 d a off ka st | ldc64 d a off ka st =>
      exact decodes_ld64 d a off ka st _ (by simp)
    | ld128 d a off ka st | ld128a d a off ka st | st128 d a off ka st | st128a d a off ka st =>
      exact decodes_ld128 d a off ka st _ (by simp)
    | pfx a off ka st => exact decodes_pfx a off ka st
    | aadd d a b scope order | aimin d a b scope order | aimax d a b scope order | anmin d a b scope order
      | anmax d a b scope order | aand d a b scope order | aor d a b scope order | axor d a b scope order
      | axch d a b scope order | acas d a b scope order | afadd d a b scope order =>
      exact decodes_aadd d a b scope order _ (by simp)
    | aaddw d a b scope order | axchw d a b scope order | acasw d a b scope order =>
      exact decodes_aaddw d a b scope order _ (by simp)
    | qadd a b scope order | qimin a b scope order | qimax a b scope order | qand a b scope order
      | qor a b scope order | qxor a b scope order | qfadd a b scope order | qbadd2 a b scope order =>
      exact decodes_qadd a b scope order _ (by simp)
    | waita d a b scope order => exact decodes_waita d a b scope order
    | mma tile zero a resv mask st | mmab tile zero a resv mask st =>
      exact decodes_mma tile zero a resv mask st _ (by simp)
    | mcfg a st | sftopk a st | sfhist a st | sfperm a st => exact decodes_mcfg a st _ (by simp)
    | mzero tile k40 st => exact decodes_mzero tile k40 st
    | mread d a tile mode st => exact decodes_mread d a tile mode st
    | mwrite tile a b i32 st => exact decodes_mwrite tile a b i32 st
    | mdrain tile a b add st => exact decodes_mdrain tile a b add st
    | mwait tile all st => exact decodes_mwait tile all st
    | ofence st | sfwait st => exact decodes_ofence st _ (by simp)
    | obres resv a st | obbind resv a st => exact decodes_obres resv a st _ (by simp)
    | obrel resv st => exact decodes_obrel resv st
    | cpy a arv st | cpys a arv st => exact decodes_cpy a arv st _ (by simp)
    | fetch a b arv st => exact decodes_fetch a b arv st
    | tbinit a b ring st => exact decodes_tbinit a b ring st
    | tbarr a b decl st => exact decodes_tbarr a b decl st
    | tbwait a b par st => exact decodes_tbwait a b par st
    | tbtest pd a b par st => exact decodes_tbtest pd a b par st
    | sfmax tile a b st => exact decodes_sfmax tile a b st
    | sfmask mreg a b st => exact decodes_sfmask mreg a b st
    | sfclr mreg a maskOnly st => exact decodes_sfclr mreg a maskOnly st
    | sfscan a incl st => exact decodes_sfscan a incl st
    | redi d a mode st => exact decodes_redi d a mode st
    | redn d a mode st => exact decodes_redn d a mode st
    | redf d a mode st => exact decodes_redf d a mode st
    | redd d a mode st => exact decodes_redd d a mode st
    | scani d a mode st => exact decodes_scani d a mode st
    | scanf d a mode st => exact decodes_scanf d a mode st
    | isect d a b st => exact decodes_isect d a b st
    | isectb d a b pk st => exact decodes_isectb d a b pk st
    | fcmp pd a b mode st => exact decodes_fcmp pd a b mode st
    | dcmp pd a b mode st => exact decodes_dcmp pd a b mode st
    | hcmp2 pd a b mode st => exact decodes_hcmp2 pd a b mode st
    | fclass d a mode st => exact decodes_fclass d a mode st
    | icinv a => exact decodes_icinv a
    | icinvAll => exact decodes_icinvAll
    | bcast d a src st => exact decodes_bcast d a src st
    | vote op ps st => exact decodes_vote op ps st
    | _ => exact fun _ _ h => absurd h nofun
  exact hd hwf n h

end Sys2Proof
end

