-- ==== Sys2Proof/Proofs/WordsDecode.lean ====
section
/-! PROOF. A word that decodes, put together again from its fields: it is the word of the well-formed instruction it decodes to (R142,
R159). -/

namespace Sys2Proof

theorem eq_three {a : Nat} (h : a < 4) (h0 : a ≠ 0) (h1 : a ≠ 1) (h2 : a ≠ 2) : a = 3 := by omega

theorem chk_ok {c3 c4 c5 c14 : Bool} {i j : Instr} (h : chk c3 c4 c5 c14 i = .ok j) :
    c3 = false ∧ c4 = false ∧ c5 = false ∧ c14 = false ∧ j = i := by
  obtain ⟨h3, h4, h5, h14, rfl⟩ := chk_eq_ok.mp h
  exact ⟨h3, h4, h5, h14, rfl⟩

/-- The fields of a word between bit positions, from bit hi down. -/
def fields (w : Nat) : Nat → List Nat → Nat
  | hi, [] => fld w (hi - 1) 0
  | hi, b :: bs => fld w (hi - 1) b * 2 ^ b + fields w b bs

/-- The bits of a number are those of its fields. -/
theorem fields_eq {w hi : Nat} {bs : List Nat} (h : 0 < hi ∧ (hi :: bs).IsChain (· > ·) ∧ ∀ b ∈ bs, 0 < b) :
    fields w hi bs = w % 2 ^ hi := by
  induction bs generalizing hi with
  | nil => rw [fields, fld]; simp [Nat.sub_add_cancel h.1]
  | cons b bs ih =>
    obtain ⟨-, hc, hp⟩ := h
    rw [List.isChain_cons_cons] at hc
    have hb := hp b (List.mem_cons_self ..)
    rw [fields, ih ⟨hb, hc.2, fun x hx => hp x (List.mem_cons_of_mem _ hx)⟩, fld]
    have e : hi = b + (hi - 1 - b + 1) := by omega
    conv_rhs => rw [e, pow_add, Nat.mod_mul]
    ring

theorem word_fields {w : Nat} (hw : w < 2 ^ 32) (bs : List Nat)
    (h : 0 < 32 ∧ (32 :: bs).IsChain (· > ·) ∧ ∀ b ∈ bs, 0 < b) : w = fields w 32 bs := by
  rw [fields_eq h, Nat.mod_eq_of_lt hw]

theorem fld_lt (w lo m : Nat) : fld w (lo + m) lo < 2 ^ (m + 1) := by
  rw [fld, Nat.add_sub_cancel_left]; exact Nat.mod_lt _ (Nat.two_pow_pos _)

theorem Scope.code_fld (w lo : Nat) : (Scope.ofCode (fld w (lo + 1) lo)).code = fld w (lo + 1) lo := by
  have := fld_lt w lo 1
  interval_cases fld w (lo + 1) lo <;> rfl

theorem Order.code_fld (w lo : Nat) : (Order.ofCode (fld w (lo + 1) lo)).code = fld w (lo + 1) lo := by
  have := fld_lt w lo 1
  interval_cases fld w (lo + 1) lo <;> rfl

theorem Role.code_fld (w lo : Nat) : (Role.ofCode (fld w (lo + 1) lo)).code = fld w (lo + 1) lo := by
  have := fld_lt w lo 1
  interval_cases fld w (lo + 1) lo <;> rfl

theorem RediMode.code_fld (w lo : Nat) : (RediMode.ofCode (fld w (lo + 1) lo)).code = fld w (lo + 1) lo := by
  have := fld_lt w lo 1
  interval_cases fld w (lo + 1) lo <;> rfl

theorem RednMode.code_fld (w lo : Nat) : (RednMode.ofCode (fld w (lo + 1) lo)).code = fld w (lo + 1) lo := by
  have := fld_lt w lo 1
  interval_cases fld w (lo + 1) lo <;> rfl

theorem ScaniMode.code_fld (w lo : Nat) : (ScaniMode.ofCode (fld w (lo + 1) lo)).code = fld w (lo + 1) lo := by
  have := fld_lt w lo 1
  interval_cases fld w (lo + 1) lo <;> rfl

theorem ScanfMode.code_fld (w lo : Nat) : (ScanfMode.ofCode (fld w (lo + 1) lo)).code = fld w (lo + 1) lo := by
  have := fld_lt w lo 1
  interval_cases fld w (lo + 1) lo <;> rfl

theorem FclassFmt.code_fld (w lo : Nat) : (FclassFmt.ofCode (fld w (lo + 1) lo)).code = fld w (lo + 1) lo := by
  have := fld_lt w lo 1
  interval_cases fld w (lo + 1) lo <;> rfl

theorem MreadMode.code_fld (w lo : Nat) : (MreadMode.ofCode (fld w (lo + 1) lo)).code = fld w (lo + 1) lo := by
  have := fld_lt w lo 1
  interval_cases fld w (lo + 1) lo <;> rfl

theorem FCond.code_fld (w lo : Nat) : (FCond.ofCode (fld w (lo + 1) lo)).code = fld w (lo + 1) lo := by
  have := fld_lt w lo 1
  interval_cases fld w (lo + 1) lo <;> rfl

theorem Cond.code_fld {w lo : Nat} (h : ¬5 < fld w (lo + 2) lo) : (Cond.ofCode (fld w (lo + 2) lo)).code = fld w (lo
    + 2) lo := by
  interval_cases fld w (lo + 2) lo <;> rfl

theorem fld_split_two (w lo : Nat) : fld w (lo + 1) lo = fld w (lo + 1) (lo + 1) * 2 + fld w lo lo := by
  simp only [fld, Nat.add_sub_cancel_left, Nat.sub_self, pow_succ, pow_zero, ← Nat.div_div_eq_div_mul]
  omega

/-- A bit whose upper neighbour is clear, and a test made of both. -/
theorem wf_of_top_clear {w lo : Nat} {b : Bool} (h : bitAt w (lo + 1) = false) (hb : (fld w (lo + 1) lo == 1 && b) =
    false) :
    (bitAt w lo && b) = false := by
  rw [bitAt_eq_false] at h
  rw [fld_split_two, h, Nat.zero_mul, Nat.zero_add] at hb
  have : fld w lo lo < 2 := fld_lt w lo 0
  rw [bitAt_fld w lo lo, Nat.mod_eq_of_lt this]
  exact hb

theorem Order.acquires_fld (w lo : Nat) : (Order.ofCode (fld w (lo + 1) lo)).acquires = bitAt w lo := by
  rw [← Order.acquires_code, Order.code_fld, ← bitAt_fld]

theorem Order.releases_fld (w lo : Nat) : (Order.ofCode (fld w (lo + 1) lo)).releases = bitAt w (lo + 1) := by
  rw [← Order.releases_code, Order.code_fld, bitAt_top]; rfl

theorem MreadMode.sat_fld (w lo : Nat) : (MreadMode.ofCode (fld w (lo + 1) lo) == .sat) = (fld w (lo + 1) lo == 3) := by
  rw [← MreadMode.sat_code, MreadMode.code_fld]

theorem RednMode.wadd_fld (w lo : Nat) : (RednMode.ofCode (fld w (lo + 1) lo) == .wadd) = (fld w (lo + 1) lo == 0) := by
  rw [← RednMode.wadd_code, RednMode.code_fld]

theorem FclassFmt.f64_fld (w lo : Nat) : (FclassFmt.ofCode (fld w (lo + 1) lo) == .f64) = (fld w (lo + 1) lo == 1) := by
  rw [← FclassFmt.f64_code, FclassFmt.code_fld]

theorem regAt_bne_zero (w lo : Nat) : (regAt w lo != 0) = (fld w (lo + 5) lo != 0) := by
  rw [← toNat_bne_zero, toNat_regAt]

theorem immAt_bne_zero (m w lo : Nat) : (immAt (m + 1) w lo != 0) = (fld w (lo + m) lo != 0) := by
  rw [← toNat_bne_zero, toNat_immAt]

theorem predAt_beq_seven (w lo : Nat) : (predAt w lo == 7) = (fld w (lo + 2) lo == 7) := by
  rw [← toNat_beq_seven, toNat_predAt]

theorem predAt_low (w lo : Nat) : (predAt w lo).getLsbD 0 = bitAt w lo := by
  rw [bitAt_fld w (lo + 2), ← toNat_predAt, Bool.eq_iff_iff]
  simp [BitVec.getElem_eq_testBit_toNat, Nat.testBit_eq_decide_div_mod_eq]

theorem RedfMode.code_fld {w lo : Nat} (h : (fld w (lo + 1) lo == 3) = false) :
    (RedfMode.ofCode (fld w (lo + 1) lo)).code = fld w (lo + 1) lo := by
  have legal : ∀ n < 2 ^ (1 + 1), (n == 3) = false → (RedfMode.ofCode n).code = n := by decide
  exact legal _ (fld_lt w lo 1) h

theorem Scope.code_ofCode {n : Nat} (h : ¬3 < n) : (Scope.ofCode n).code = n := by
  interval_cases n <;> rfl

theorem FenceKind.code_ofCode {n : Nat} (h : ¬4 < n) : (FenceKind.ofCode n).code = n := by
  interval_cases n <;> rfl

theorem SpecialReg.code_ofCode {n : Nat} (h : (!SpecialReg.readable n) = false) : (SpecialReg.ofCode n).code = n := by
  have hn : n ≤ 13 ∨ (32 ≤ n ∧ n ≤ 40) := by
    simp only [SpecialReg.readable, Bool.not_eq_false', Bool.or_eq_true, Bool.and_eq_true, decide_eq_true_eq] at h
    exact h
  rcases hn with hn | ⟨h1, h2⟩ <;> interval_cases n <;> rfl

theorem SpecialReg.readable_of_writable {n : Nat} (h : (!SpecialReg.writable n) = false) :
    (!SpecialReg.readable n) = false := by
  simp only [SpecialReg.writable, SpecialReg.readable, Bool.not_eq_false', Bool.or_eq_true, Bool.and_eq_true,
    beq_iff_eq,
    decide_eq_true_eq] at h ⊢
  omega

theorem SpecialReg.wrsNames_ofCode {n : Nat} (h : (!SpecialReg.writable n) = false) : (SpecialReg.ofCode n).wrsNames
    = true := by
  rw [← SpecialReg.writable_code, SpecialReg.code_ofCode (readable_of_writable h)]
  exact (Bool.not_eq_false' _).mp h

/-- The conversion of a code that is not reserved has that code (R212, R213). -/
theorem CvtOp.code_ofCode {n : Nat} (hn : n < 2 ^ 6) (h : CvtOp.reserved n = false) : (CvtOp.ofCode n).code = n := by
  have legal : ∀ n < 2 ^ 6, CvtOp.reserved n = false → (CvtOp.ofCode n).code = n := by decide
  exact legal n hn h

theorem CvtOp.ofCode_spec {n : Nat} {b : Bool} (hn : n < 2 ^ 6) (h : (CvtOp.reserved n || b) = false) :
    (CvtOp.ofCode n).code = n ∧ (CvtOp.ofCode n).mustSat = CvtOp.satOnly n ∧
      (CvtOp.ofCode n).writesPair = CvtOp.dstWide n ∧ (CvtOp.ofCode n).readsPair = CvtOp.srcWide n := by
  have hc := CvtOp.code_ofCode hn (Bool.or_eq_false_iff.mp h).1
  obtain ⟨-, -, -, hs, hw, hr⟩ := (CvtOp.ofCode n).code_spec
  rw [hc] at hs hw hr
  exact ⟨hc, hs.symm, hw.symm, hr.symm⟩

theorem BcastSrc.bits_at {w : Nat} (h3 : (fld w 3 2 == 2 && fld w 9 4 != 0) = false) (h4 : (fld w 3 2 == 3) = false)
    (h14 : (fld w 3 2 == 0 && decide (31 < fld w 9 4)) = false) : (BcastSrc.at w).bits = fld w 9 4 * 16 + fld w 3 2 *
      4 := by
  have hm : fld w 3 2 < 4 := fld_lt w 2 1
  have hl : fld w 9 4 % 2 ^ 5 = fld w 8 4 := fld_mod w 4 4 5 (by decide)
  simp only [Bool.and_eq_false_iff, beq_eq_false_iff_ne, bne_eq_false_iff_eq, decide_eq_false_iff_not] at h3 h4 h14
  unfold BcastSrc.at
  split
  · next h => simp only [BcastSrc.bits, toNat_immAt, Nat.reduceAdd]; omega
  · next h => simp only [BcastSrc.bits, toNat_regAt, Nat.reduceAdd, h]
  · next h0 h1 =>
    have h2 : fld w 3 2 = 2 := by by_contra h2; exact h4 (eq_three hm h0 h1 h2)
    simp only [BcastSrc.bits]; omega

theorem VoteOp.bits_at {w : Nat} (h : (fld w 3 2 != 2 && fld w 21 19 != 0) = false) :
    (VoteOp.at w).bits = fld w 21 16 * 65536 + fld w 3 2 * 4 := by
  have hm : fld w 3 2 < 4 := fld_lt w 2 1
  have hs : fld w 21 16 = fld w 21 19 * 8 + fld w 18 16 := by simp only [fld]; omega
  simp only [Bool.and_eq_false_iff, bne_eq_false_iff_eq] at h
  unfold VoteOp.at
  split
  · next h0 => simp only [VoteOp.bits, toNat_predAt, Nat.reduceAdd]; omega
  · next h1 => simp only [VoteOp.bits, toNat_predAt, Nat.reduceAdd]; omega
  · next h2 => simp only [VoteOp.bits, toNat_regAt, Nat.reduceAdd]; omega
  · next h0 h1 h2 =>
    have h3 : fld w 3 2 = 3 := eq_three hm h0 h1 h2
    simp only [VoteOp.bits, toNat_predAt, Nat.reduceAdd]; omega

theorem decodeLR_sound {w : Nat} {i : Instr} (hw : w < 2 ^ 32) (hc : fld w 31 28 = 0) (h : decodeLR w = .ok i) :
    i.wf = true ∧ encodeNat i = some w := by
  unfold decodeLR at h
  split at h
  case h_1 | h_2 | h_6 | h_7 | h_8 | h_9 | h_10 | h_11 | h_12 | h_20 | h_21 | h_22 | h_23 | h_24 | h_25 | h_37 =>
    obtain rfl := Except.ok.inj h
    have hword := word_fields hw [28, 22, 16, 10, 4, 3, 2] (by decide)
    simp only [fields, Nat.reduceSub] at hword
    unfold Instr.wf encodeNat
    simp only [true_and, toNat_regAt, toNat_immAt, bnat_bitAt, Option.some.injEq, Nat.reduceAdd]
    omega
  case h_3 | h_4 | h_5 | h_13 | h_14 | h_27 | h_28 | h_29 | h_30 | h_31 | h_32 | h_33 | h_34 | h_39 =>
    obtain ⟨h3, h4, h5, h14, rfl⟩ := chk_ok h
    have hword := word_fields hw [28, 22, 16, 10, 4, 3, 2] (by decide)
    simp only [fields, Nat.reduceSub] at hword
    unfold Instr.wf encodeNat
    simp only [Bool.or_eq_false_iff, bne_eq_false_iff_eq] at h3
    simp only [true_and, toNat_regAt, toNat_immAt, bnat_bitAt, Option.some.injEq, Nat.reduceAdd]
    omega
  case h_15 | h_16 | h_17 | h_18 | h_19 =>
    obtain ⟨h3, h4, h5, h14, rfl⟩ := chk_ok h
    have hword := word_fields hw [28, 22, 16, 10, 4, 3, 2] (by decide)
    simp only [fields, Nat.reduceSub] at hword
    unfold Instr.wf encodeNat
    simp only [oddReg_regAt, h5, Bool.not_false, true_and, toNat_regAt, toNat_immAt, bnat_bitAt, Option.some.injEq,
      Nat.reduceAdd]
    omega
  case h_26 =>
    obtain ⟨h3, h4, h5, h14, rfl⟩ := chk_ok h
    have hword := word_fields hw [28, 22, 16, 10, 4, 3, 2] (by decide)
    simp only [fields, Nat.reduceSub] at hword
    unfold Instr.wf encodeNat
    have h4' := (Bool.or_eq_false_iff.mp h4).2
    have hc4 := CvtOp.ofCode_spec (n := fld w 9 4) (fld_lt w 4 5) h4
    simp only [oddReg_regAt, h5, hc4, h4', Bool.and_comm _ (bitAt w 2), Bool.false_or, Bool.not_false, true_and,
      toNat_regAt, toNat_immAt, bnat_bitAt, Option.some.injEq, Nat.reduceAdd]
    omega
  case h_35 | h_36 =>
    obtain ⟨h3, h4, h5, h14, rfl⟩ := chk_ok h
    have hword := word_fields hw [28, 22, 16, 10, 4, 3, 2] (by decide)
    simp only [fields, Nat.reduceSub] at hword
    unfold Instr.wf encodeNat
    simp only [Bool.or_eq_false_iff, bne_eq_false_iff_eq] at h3
    simp only [oddReg_regAt, h5, Bool.not_false, true_and, toNat_regAt, toNat_immAt, bnat_bitAt, Option.some.injEq,
      Nat.reduceAdd]
    omega
  case h_38 =>
    obtain ⟨h3, h4, h5, h14, rfl⟩ := chk_ok h
    have hword := word_fields hw [28, 22, 16, 10, 4, 3, 2] (by decide)
    simp only [fields, Nat.reduceSub] at hword
    unfold Instr.wf encodeNat
    simp only [oddReg_regAt, h5, Bool.not_false, true_and, toNat_regAt, toNat_immAt, bnat_bitAt, Option.some.injEq,
      Nat.reduceAdd]
    omega
  case h_40 => exact absurd h nofun

theorem decodeLT_sound {w : Nat} {i : Instr} (hw : w < 2 ^ 32) (hc : fld w 31 28 = 1) (h : decodeLT w = .ok i) :
    i.wf = true ∧ encodeNat i = some w := by
  unfold decodeLT at h
  split at h
  case h_1 | h_3 =>
    obtain rfl := Except.ok.inj h
    have hword := word_fields hw [28, 26, 20, 14, 8, 2] (by decide)
    simp only [fields, Nat.reduceSub] at hword
    unfold Instr.wf encodeNat
    simp only [true_and, toNat_regAt, toNat_immAt, Option.some.injEq, Nat.reduceAdd]
    omega
  case h_4 h0 h1 h2 =>
    have ho : fld w 27 26 = 3 := eq_three (fld_lt w 26 1) h0 h1 h2
    obtain rfl := Except.ok.inj h
    have hword := word_fields hw [28, 26, 20, 14, 8, 2] (by decide)
    simp only [fields, Nat.reduceSub] at hword
    unfold Instr.wf encodeNat
    simp only [true_and, toNat_regAt, toNat_immAt, Option.some.injEq, Nat.reduceAdd]
    omega
  case h_2 =>
    obtain ⟨h3, h4, h5, h14, rfl⟩ := chk_ok h
    have hword := word_fields hw [28, 26, 20, 14, 8, 2] (by decide)
    simp only [fields, Nat.reduceSub] at hword
    unfold Instr.wf encodeNat
    simp only [oddReg_regAt, h5, Bool.not_false, true_and, toNat_regAt, toNat_immAt, Option.some.injEq, Nat.reduceAdd]
    omega

theorem decodeLM_sound {w : Nat} {i : Instr} (hw : w < 2 ^ 32) (hc : fld w 31 28 = 2) (h : decodeLM w = .ok i) :
    i.wf = true ∧ encodeNat i = some w := by
  unfold decodeLM at h
  split at h
  case h_1 | h_2 | h_3 | h_4 | h_5 | h_8 | h_11 | h_12 | h_13 | h_16 | h_19 =>
    obtain ⟨h3, h4, h5, h14, rfl⟩ := chk_ok h
    have hword := word_fields hw [28, 23, 17, 11, 3, 2] (by decide)
    simp only [fields, Nat.reduceSub] at hword
    unfold Instr.wf encodeNat
    simp only [oddReg_regAt, h5, Bool.not_false, true_and, toNat_regAt, toNat_immAt, bnat_bitAt, Option.some.injEq,
      Nat.reduceAdd]
    omega
  case h_6 | h_9 | h_14 | h_17 | h_20 =>
    obtain ⟨h3, h4, h5, h14, rfl⟩ := chk_ok h
    have hword := word_fields hw [28, 23, 17, 11, 3, 2] (by decide)
    simp only [fields, Nat.reduceSub] at hword
    unfold Instr.wf encodeNat
    simp only [oddReg_regAt, h5, Bool.not_false, true_and, toNat_regAt, toNat_immAt, bnat_bitAt, Option.some.injEq,
      Nat.reduceAdd]
    omega
  case h_7 | h_10 | h_15 | h_18 =>
    obtain ⟨h3, h4, h5, h14, rfl⟩ := chk_ok h
    have hword := word_fields hw [28, 23, 17, 11, 3, 2] (by decide)
    simp only [fields, Nat.reduceSub] at hword
    unfold Instr.wf encodeNat
    simp only [oddReg_regAt, badQuad_regAt, h5, Bool.not_false, true_and, toNat_regAt, toNat_immAt, bnat_bitAt,
      Option.some.injEq, Nat.reduceAdd]
    omega
  case h_21 =>
    obtain ⟨h3, h4, h5, h14, rfl⟩ := chk_ok h
    have hword := word_fields hw [28, 23, 17, 11, 3, 2] (by decide)
    simp only [fields, Nat.reduceSub] at hword
    unfold Instr.wf encodeNat
    simp only [bne_eq_false_iff_eq] at h3
    simp only [oddReg_regAt, h5, Bool.not_false, true_and, toNat_regAt, toNat_immAt, bnat_bitAt, Option.some.injEq,
      Nat.reduceAdd]
    omega
  case h_22 => exact absurd h nofun

theorem decodeLA_sound {w : Nat} {i : Instr} (hw : w < 2 ^ 32) (hc : fld w 31 28 = 3) (h : decodeLA w = .ok i) :
    i.wf = true ∧ encodeNat i = some w := by
  unfold decodeLA at h
  split at h
  case h_1 | h_2 | h_3 | h_4 | h_5 | h_6 | h_7 | h_8 | h_9 | h_10 | h_11 =>
    obtain ⟨h3, h4, h5, h14, rfl⟩ := chk_ok h
    have hword := word_fields hw [28, 22, 16, 10, 4, 2] (by decide)
    simp only [fields, Nat.reduceSub] at hword
    unfold Instr.wf encodeNat
    simp only [oddReg_regAt, h5, Order.code_fld, Scope.code_fld, Bool.not_false, true_and, toNat_regAt,
      Option.some.injEq, Nat.reduceAdd]
    omega
  case h_12 | h_13 | h_14 =>
    obtain ⟨h3, h4, h5, h14, rfl⟩ := chk_ok h
    have hword := word_fields hw [28, 22, 16, 10, 4, 2] (by decide)
    simp only [fields, Nat.reduceSub] at hword
    unfold Instr.wf encodeNat
    simp only [oddReg_regAt, h5, Order.code_fld, Scope.code_fld, Bool.not_false, true_and, toNat_regAt,
      Option.some.injEq, Nat.reduceAdd]
    omega
  case h_15 | h_16 | h_17 | h_18 | h_19 | h_20 | h_21 | h_22 =>
    obtain ⟨h3, h4, h5, h14, rfl⟩ := chk_ok h
    have hword := word_fields hw [28, 22, 16, 10, 4, 2] (by decide)
    simp only [fields, Nat.reduceSub] at hword
    unfold Instr.wf encodeNat
    simp only [bne_eq_false_iff_eq] at h3
    simp only [oddReg_regAt, h5, Bool.and_self, Order.acquires_fld, h4, Order.code_fld, Scope.code_fld,
      Bool.not_false, true_and, toNat_regAt, Option.some.injEq, Nat.reduceAdd]
    omega
  case h_23 =>
    obtain ⟨h3, h4, h5, h14, rfl⟩ := chk_ok h
    have hword := word_fields hw [28, 22, 16, 10, 4, 2] (by decide)
    simp only [fields, Nat.reduceSub] at hword
    unfold Instr.wf encodeNat
    simp only [oddReg_regAt, h5, Bool.and_self, Order.releases_fld, h4, Order.code_fld, Scope.code_fld,
      Bool.not_false, true_and, toNat_regAt, Option.some.injEq, Nat.reduceAdd]
    omega
  case h_24 => exact absurd h nofun

theorem decodeLX_sound {w : Nat} {i : Instr} (hw : w < 2 ^ 32) (hc : fld w 31 28 = 4) (h : decodeLX w = .ok i) :
    i.wf = true ∧ encodeNat i = some w := by
  unfold decodeLX at h
  split at h
  case h_1 | h_2 =>
    obtain ⟨h3, h4, h5, h14, rfl⟩ := chk_ok h
    have hword := word_fields hw [28, 22, 18, 17, 16, 10, 6, 3, 2] (by decide)
    simp only [fields, Nat.reduceSub] at hword
    unfold Instr.wf encodeNat
    simp only [Bool.or_eq_false_iff, bne_eq_false_iff_eq] at h3
    simp only [true_and, toNat_regAt, toNat_predAt, toNat_immAt, bnat_bitAt, Option.some.injEq, Nat.reduceAdd]
    omega
  case h_3 | h_23 | h_24 | h_26 =>
    obtain ⟨h3, h4, h5, h14, rfl⟩ := chk_ok h
    have hword := word_fields hw [28, 22, 16, 10, 4, 2] (by decide)
    simp only [fields, Nat.reduceSub] at hword
    unfold Instr.wf encodeNat
    simp only [Bool.or_eq_false_iff, bne_eq_false_iff_eq] at h3 h4
    simp only [true_and, toNat_regAt, toNat_immAt, Option.some.injEq, Nat.reduceAdd]
    omega
  case h_4 =>
    obtain ⟨h3, h4, h5, h14, rfl⟩ := chk_ok h
    have hword := word_fields hw [28, 22, 18, 4, 3, 2] (by decide)
    simp only [fields, Nat.reduceSub] at hword
    unfold Instr.wf encodeNat
    simp only [bne_eq_false_iff_eq, bitAt_eq_false] at h3 h4
    simp only [true_and, toNat_immAt, bnat_bitAt, Option.some.injEq, Nat.reduceAdd]
    omega
  case h_5 =>
    obtain ⟨h3, h4, h5, h14, rfl⟩ := chk_ok h
    have hword := word_fields hw [28, 22, 16, 10, 6, 4, 2] (by decide)
    simp only [fields, Nat.reduceSub] at hword
    unfold Instr.wf encodeNat
    rw [Bool.or_eq_false_iff] at h3
    obtain ⟨h3, h3'⟩ := h3
    simp only [bne_eq_false_iff_eq] at h3
    simp only [MreadMode.sat_fld, regAt_bne_zero, h3', MreadMode.code_fld, Bool.not_false, true_and, toNat_regAt,
      toNat_immAt, Option.some.injEq, Nat.reduceAdd]
    omega
  case h_6 =>
    obtain ⟨h3, h4, h5, h14, rfl⟩ := chk_ok h
    have hword := word_fields hw [28, 22, 18, 16, 10, 4, 3, 2] (by decide)
    simp only [fields, Nat.reduceSub] at hword
    unfold Instr.wf encodeNat
    simp only [bne_eq_false_iff_eq, bitAt_eq_false] at h3 h4
    simp only [true_and, toNat_regAt, toNat_immAt, bnat_bitAt, Option.some.injEq, Nat.reduceAdd]
    omega
  case h_7 =>
    obtain ⟨h3, h4, h5, h14, rfl⟩ := chk_ok h
    have hword := word_fields hw [28, 22, 18, 16, 10, 4, 3, 2] (by decide)
    simp only [fields, Nat.reduceSub] at hword
    unfold Instr.wf encodeNat
    simp only [bne_eq_false_iff_eq, bitAt_eq_false] at h3 h4
    simp only [oddReg_regAt, h5, Bool.not_false, true_and, toNat_regAt, toNat_immAt, bnat_bitAt, Option.some.injEq,
      Nat.reduceAdd]
    omega
  case h_8 =>
    obtain ⟨h3, h4, h5, h14, rfl⟩ := chk_ok h
    have hword := word_fields hw [28, 22, 18, 4, 3, 2] (by decide)
    simp only [fields, Nat.reduceSub] at hword
    unfold Instr.wf encodeNat
    rw [Bool.or_eq_false_iff] at h3
    obtain ⟨h3, h3'⟩ := h3
    simp only [bne_eq_false_iff_eq] at h3
    simp only [wf_of_top_clear h4 h3', immAt_bne_zero, Bool.not_false, true_and, toNat_immAt, bnat_bitAt,
      Option.some.injEq, Nat.reduceAdd]
    have : fld w 3 2 = fld w 3 3 * 2 + fld w 2 2 := fld_split_two w 2
    rw [bitAt_eq_false] at h4
    omega
  case h_9 | h_27 =>
    obtain ⟨h3, h4, h5, h14, rfl⟩ := chk_ok h
    have hword := word_fields hw [28, 22, 4, 2] (by decide)
    simp only [fields, Nat.reduceSub] at hword
    unfold Instr.wf encodeNat
    simp only [bne_eq_false_iff_eq] at h3 h4
    simp only [true_and, toNat_immAt, Option.some.injEq, Nat.reduceAdd]
    omega
  case h_10 | h_11 =>
    obtain ⟨h3, h4, h5, h14, rfl⟩ := chk_ok h
    have hword := word_fields hw [28, 22, 18, 16, 10, 4, 2] (by decide)
    simp only [fields, Nat.reduceSub] at hword
    unfold Instr.wf encodeNat
    simp only [Bool.or_eq_false_iff, bne_eq_false_iff_eq] at h3 h4
    simp only [true_and, toNat_regAt, toNat_immAt, Option.some.injEq, Nat.reduceAdd]
    omega
  case h_12 =>
    obtain ⟨h3, h4, h5, h14, rfl⟩ := chk_ok h
    have hword := word_fields hw [28, 22, 18, 4, 2] (by decide)
    simp only [fields, Nat.reduceSub] at hword
    unfold Instr.wf encodeNat
    simp only [bne_eq_false_iff_eq] at h3 h4
    simp only [true_and, toNat_immAt, Option.some.injEq, Nat.reduceAdd]
    omega
  case h_13 | h_14 =>
    obtain ⟨h3, h4, h5, h14, rfl⟩ := chk_ok h
    have hword := word_fields hw [28, 22, 16, 10, 4, 3, 2] (by decide)
    simp only [fields, Nat.reduceSub] at hword
    unfold Instr.wf encodeNat
    simp only [Bool.or_eq_false_iff, bne_eq_false_iff_eq, bitAt_eq_false] at h3
    simp only [true_and, toNat_regAt, toNat_immAt, bnat_bitAt, Option.some.injEq, Nat.reduceAdd]
    omega
  case h_15 =>
    obtain ⟨h3, h4, h5, h14, rfl⟩ := chk_ok h
    have hword := word_fields hw [28, 22, 16, 10, 4, 3, 2] (by decide)
    simp only [fields, Nat.reduceSub] at hword
    unfold Instr.wf encodeNat
    simp only [Bool.or_eq_false_iff, bne_eq_false_iff_eq, bitAt_eq_false] at h3
    simp only [true_and, toNat_regAt, toNat_immAt, bnat_bitAt, Option.some.injEq, Nat.reduceAdd]
    omega
  case h_16 =>
    obtain ⟨h3, h4, h5, h14, rfl⟩ := chk_ok h
    have hword := word_fields hw [28, 22, 16, 10, 4, 3, 2] (by decide)
    simp only [fields, Nat.reduceSub] at hword
    unfold Instr.wf encodeNat
    simp only [bne_eq_false_iff_eq, bitAt_eq_false] at h3 h4
    simp only [oddReg_regAt, h5, Bool.not_false, true_and, toNat_regAt, toNat_immAt, bnat_bitAt, Option.some.injEq,
      Nat.reduceAdd]
    omega
  case h_17 =>
    obtain ⟨h3, h4, h5, h14, rfl⟩ := chk_ok h
    have hword := word_fields hw [28, 22, 16, 10, 4, 3, 2] (by decide)
    simp only [fields, Nat.reduceSub] at hword
    unfold Instr.wf encodeNat
    simp only [bne_eq_false_iff_eq, bitAt_eq_false] at h3 h4
    simp only [true_and, toNat_regAt, toNat_immAt, bnat_bitAt, Option.some.injEq, Nat.reduceAdd]
    omega
  case h_18 =>
    obtain ⟨h3, h4, h5, h14, rfl⟩ := chk_ok h
    have hword := word_fields hw [28, 22, 16, 10, 4, 3, 2] (by decide)
    simp only [fields, Nat.reduceSub] at hword
    unfold Instr.wf encodeNat
    simp only [bne_eq_false_iff_eq, bitAt_eq_false] at h3 h4
    simp only [true_and, toNat_regAt, toNat_immAt, bnat_bitAt, Option.some.injEq, Nat.reduceAdd]
    omega
  case h_19 =>
    obtain ⟨h3, h4, h5, h14, rfl⟩ := chk_ok h
    have hword := word_fields hw [28, 22, 19, 16, 10, 4, 3, 2] (by decide)
    simp only [fields, Nat.reduceSub] at hword
    unfold Instr.wf encodeNat
    simp only [bne_eq_false_iff_eq, bitAt_eq_false] at h3 h4
    simp only [true_and, toNat_regAt, toNat_predAt, toNat_immAt, bnat_bitAt, Option.some.injEq, Nat.reduceAdd]
    omega
  case h_20 =>
    obtain ⟨h3, h4, h5, h14, rfl⟩ := chk_ok h
    have hword := word_fields hw [28, 22, 18, 16, 10, 4, 2] (by decide)
    simp only [fields, Nat.reduceSub] at hword
    unfold Instr.wf encodeNat
    simp only [bne_eq_false_iff_eq] at h3 h4
    simp only [true_and, toNat_regAt, toNat_immAt, Option.some.injEq, Nat.reduceAdd]
    omega
  case h_21 =>
    obtain ⟨h3, h4, h5, h14, rfl⟩ := chk_ok h
    have hword := word_fields hw [28, 22, 19, 16, 10, 4, 2] (by decide)
    simp only [fields, Nat.reduceSub] at hword
    unfold Instr.wf encodeNat
    simp only [bne_eq_false_iff_eq] at h3 h4
    simp only [true_and, toNat_regAt, toNat_predAt, toNat_immAt, Option.some.injEq, Nat.reduceAdd]
    omega
  case h_22 =>
    obtain ⟨h3, h4, h5, h14, rfl⟩ := chk_ok h
    have hword := word_fields hw [28, 22, 19, 16, 10, 4, 3, 2] (by decide)
    simp only [fields, Nat.reduceSub] at hword
    unfold Instr.wf encodeNat
    rw [Bool.or_eq_false_iff] at h3
    obtain ⟨h3, h3'⟩ := h3
    simp only [Bool.or_eq_false_iff, bne_eq_false_iff_eq] at h3
    simp only [wf_of_top_clear h4 h3', regAt_bne_zero, Bool.not_false, true_and, toNat_regAt, toNat_predAt,
      toNat_immAt, bnat_bitAt, Option.some.injEq, Nat.reduceAdd]
    have : fld w 3 2 = fld w 3 3 * 2 + fld w 2 2 := fld_split_two w 2
    rw [bitAt_eq_false] at h4
    omega
  case h_25 =>
    obtain ⟨h3, h4, h5, h14, rfl⟩ := chk_ok h
    have hword := word_fields hw [28, 22, 16, 10, 4, 3, 2] (by decide)
    simp only [fields, Nat.reduceSub] at hword
    unfold Instr.wf encodeNat
    simp only [Bool.or_eq_false_iff, bne_eq_false_iff_eq, bitAt_eq_false] at h3 h4
    simp only [true_and, toNat_regAt, toNat_immAt, bnat_bitAt, Option.some.injEq, Nat.reduceAdd]
    omega
  case h_28 => exact absurd h nofun

theorem decodeLC_sound {w : Nat} {i : Instr} (hw : w < 2 ^ 32) (hc : fld w 31 28 = 5) (h : decodeLC w = .ok i) :
    i.wf = true ∧ encodeNat i = some w := by
  unfold decodeLC at h
  split at h
  case h_1 =>
    obtain ⟨h3, h4, h5, h14, rfl⟩ := chk_ok h
    have hword := word_fields hw [28, 22, 16, 10, 4, 2] (by decide)
    simp only [fields, Nat.reduceSub] at hword
    unfold Instr.wf encodeNat
    simp only [bne_eq_false_iff_eq] at h3
    simp only [RediMode.code_fld, true_and, toNat_regAt, toNat_immAt, Option.some.injEq, Nat.reduceAdd]
    omega
  case h_2 =>
    obtain ⟨h3, h4, h5, h14, rfl⟩ := chk_ok h
    have hword := word_fields hw [28, 22, 16, 10, 4, 2] (by decide)
    simp only [fields, Nat.reduceSub] at hword
    unfold Instr.wf encodeNat
    simp only [bne_eq_false_iff_eq] at h3
    simp only [oddReg_regAt, h5, RednMode.wadd_fld, RednMode.code_fld, Bool.not_false, true_and, toNat_regAt,
      toNat_immAt, Option.some.injEq, Nat.reduceAdd]
    omega
  case h_3 =>
    obtain ⟨h3, h4, h5, h14, rfl⟩ := chk_ok h
    have hword := word_fields hw [28, 22, 16, 10, 4, 2] (by decide)
    simp only [fields, Nat.reduceSub] at hword
    unfold Instr.wf encodeNat
    simp only [bne_eq_false_iff_eq] at h3
    simp only [RedfMode.code_fld h4, true_and, toNat_regAt, toNat_immAt, Option.some.injEq, Nat.reduceAdd]
    omega
  case h_4 =>
    obtain ⟨h3, h4, h5, h14, rfl⟩ := chk_ok h
    have hword := word_fields hw [28, 22, 16, 10, 4, 2] (by decide)
    simp only [fields, Nat.reduceSub] at hword
    unfold Instr.wf encodeNat
    simp only [bne_eq_false_iff_eq] at h3
    simp only [oddReg_regAt, h5, RedfMode.code_fld h4, Bool.not_false, true_and, toNat_regAt, toNat_immAt,
      Option.some.injEq, Nat.reduceAdd]
    omega
  case h_5 =>
    obtain ⟨h3, h4, h5, h14, rfl⟩ := chk_ok h
    have hword := word_fields hw [28, 22, 16, 10, 4, 2] (by decide)
    simp only [fields, Nat.reduceSub] at hword
    unfold Instr.wf encodeNat
    simp only [bne_eq_false_iff_eq] at h3
    simp only [ScaniMode.code_fld, true_and, toNat_regAt, toNat_immAt, Option.some.injEq, Nat.reduceAdd]
    omega
  case h_6 =>
    obtain ⟨h3, h4, h5, h14, rfl⟩ := chk_ok h
    have hword := word_fields hw [28, 22, 16, 10, 4, 2] (by decide)
    simp only [fields, Nat.reduceSub] at hword
    unfold Instr.wf encodeNat
    simp only [bne_eq_false_iff_eq] at h3
    simp only [ScanfMode.code_fld, true_and, toNat_regAt, toNat_immAt, Option.some.injEq, Nat.reduceAdd]
    omega
  case h_9 =>
    obtain ⟨h3, h4, h5, h14, rfl⟩ := chk_ok h
    have hword := word_fields hw [28, 22, 16, 10, 4, 2] (by decide)
    simp only [fields, Nat.reduceSub] at hword
    unfold Instr.wf encodeNat
    simp only [bne_eq_false_iff_eq] at h3
    simp only [badQuad_regAt, h5, Bool.not_false, true_and, toNat_regAt, toNat_immAt, Option.some.injEq, Nat.reduceAdd]
    omega
  case h_10 =>
    obtain ⟨h3, h4, h5, h14, rfl⟩ := chk_ok h
    have hword := word_fields hw [28, 22, 16, 10, 4, 2] (by decide)
    simp only [fields, Nat.reduceSub] at hword
    unfold Instr.wf encodeNat
    simp only [badQuad_regAt, h5, Bool.not_false, true_and, toNat_regAt, toNat_immAt, Option.some.injEq, Nat.reduceAdd]
    omega
  case h_11 =>
    obtain ⟨h3, h4, h5, h14, rfl⟩ := chk_ok h
    have hword := word_fields hw [28, 22, 19, 16, 10, 4, 2] (by decide)
    simp only [fields, Nat.reduceSub] at hword
    unfold Instr.wf encodeNat
    simp only [bne_eq_false_iff_eq] at h3
    simp only [FCond.code_fld, true_and, toNat_regAt, toNat_predAt, toNat_immAt, Option.some.injEq, Nat.reduceAdd]
    omega
  case h_12 =>
    obtain ⟨h3, h4, h5, h14, rfl⟩ := chk_ok h
    have hword := word_fields hw [28, 22, 19, 16, 10, 4, 2] (by decide)
    simp only [fields, Nat.reduceSub] at hword
    unfold Instr.wf encodeNat
    simp only [bne_eq_false_iff_eq] at h3
    simp only [oddReg_regAt, h5, FCond.code_fld, Bool.not_false, true_and, toNat_regAt, toNat_predAt, toNat_immAt,
      Option.some.injEq, Nat.reduceAdd]
    omega
  case h_13 =>
    obtain ⟨h3, h4, h5, h14, rfl⟩ := chk_ok h
    have hword := word_fields hw [28, 22, 19, 16, 10, 4, 2] (by decide)
    simp only [fields, Nat.reduceSub] at hword
    unfold Instr.wf encodeNat
    simp only [bne_eq_false_iff_eq] at h3
    simp only [predAt_low, h5, FCond.code_fld, Bool.not_false, true_and, toNat_regAt, toNat_predAt, toNat_immAt,
      Option.some.injEq, Nat.reduceAdd]
    omega
  case h_14 =>
    obtain ⟨h3, h4, h5, h14, rfl⟩ := chk_ok h
    have hword := word_fields hw [28, 22, 16, 10, 4, 2] (by decide)
    simp only [fields, Nat.reduceSub] at hword
    unfold Instr.wf encodeNat
    simp only [bne_eq_false_iff_eq] at h3
    simp only [oddReg_regAt, h5, FclassFmt.f64_fld, FclassFmt.code_fld, Bool.not_false, true_and, toNat_regAt,
      toNat_immAt, Option.some.injEq, Nat.reduceAdd]
    omega
  case h_7 =>
    obtain ⟨h3, h4, -, h14, rfl⟩ := chk_ok h
    have hword := word_fields hw [28, 22, 16, 10, 4, 2] (by decide)
    have hs := BcastSrc.bits_at h3 h4 h14
    simp only [fields, Nat.reduceSub] at hword
    unfold Instr.wf encodeNat
    simp only [true_and, toNat_regAt, toNat_immAt, hs, Option.some.injEq, Nat.reduceAdd]
    omega
  case h_8 =>
    obtain ⟨h3, -, -, -, rfl⟩ := chk_ok h
    have hword := word_fields hw [28, 22, 16, 13, 10, 4, 2] (by decide)
    rw [Bool.or_eq_false_iff] at h3
    obtain ⟨h3, hm⟩ := h3
    have hs := VoteOp.bits_at hm
    simp only [fields, Nat.reduceSub] at hword
    unfold Instr.wf encodeNat
    simp only [Bool.or_eq_false_iff, bne_eq_false_iff_eq] at h3
    simp only [true_and, toNat_predAt, toNat_immAt, hs, Option.some.injEq, Nat.reduceAdd]
    omega
  case h_15 => exact absurd h nofun

theorem decodeFR_sound {w : Nat} {i : Instr} (hw : w < 2 ^ 32) (hc : fld w 31 28 = 8) (h : decodeFR w = .ok i) :
    i.wf = true ∧ encodeNat i = some w := by
  unfold decodeFR at h
  split at h
  case h_1 | h_16 | h_17 | h_19 | h_21 | h_22 =>
    obtain ⟨h3, h4, h5, h14, rfl⟩ := chk_ok h
    have hword := word_fields hw [28, 22, 16, 10, 4, 3, 2, 1] (by decide)
    simp only [fields, Nat.reduceSub] at hword
    unfold Instr.wf encodeNat
    simp only [Bool.or_eq_false_iff, bne_eq_false_iff_eq, bitAt_eq_false] at h3 h4
    simp only [oddReg_regAt, h5, Bool.not_false, true_and, toNat_regAt, bnat_bitAt, Option.some.injEq, Nat.reduceAdd]
    omega
  case h_2 | h_3 | h_4 | h_8 | h_9 | h_10 | h_11 | h_12 | h_13 | h_14 | h_15 =>
    obtain ⟨h3, h4, h5, h14, rfl⟩ := chk_ok h
    have hword := word_fields hw [28, 22, 16, 10, 4, 3, 2, 1] (by decide)
    simp only [fields, Nat.reduceSub] at hword
    unfold Instr.wf encodeNat
    simp only [bitAt_eq_false] at h4
    simp only [oddReg_regAt, h5, Bool.not_false, true_and, toNat_regAt, bnat_bitAt, Option.some.injEq, Nat.reduceAdd]
    omega
  case h_5 | h_6 | h_7 | h_18 =>
    obtain ⟨h3, h4, h5, h14, rfl⟩ := chk_ok h
    have hword := word_fields hw [28, 22, 16, 10, 4, 3, 2, 1] (by decide)
    simp only [fields, Nat.reduceSub] at hword
    unfold Instr.wf encodeNat
    simp only [bitAt_eq_false] at h4
    simp only [oddReg_regAt, h5, Bool.not_false, true_and, toNat_regAt, bnat_bitAt, Option.some.injEq, Nat.reduceAdd]
    omega
  case h_20 =>
    obtain ⟨h3, h4, h5, h14, rfl⟩ := chk_ok h
    have hword := word_fields hw [28, 22, 16, 10, 4, 3, 2, 1] (by decide)
    simp only [fields, Nat.reduceSub] at hword
    unfold Instr.wf encodeNat
    simp only [Bool.or_eq_false_iff, bne_eq_false_iff_eq, bitAt_eq_false] at h3 h4
    simp only [oddReg_regAt, h5, Bool.not_false, true_and, toNat_regAt, bnat_bitAt, Option.some.injEq, Nat.reduceAdd]
    omega
  case h_23 => exact absurd h nofun

theorem decodeFI_sound {w : Nat} {i : Instr} (hw : w < 2 ^ 32) (hc : fld w 31 28 = 9) (h : decodeFI w = .ok i) :
    i.wf = true ∧ encodeNat i = some w := by
  unfold decodeFI at h
  split at h
  case h_1 | h_2 | h_6 | h_7 | h_8 =>
    obtain rfl := Except.ok.inj h
    have hword := word_fields hw [28, 24, 18, 12] (by decide)
    simp only [fields, Nat.reduceSub] at hword
    unfold Instr.wf encodeNat
    simp only [true_and, toNat_regAt, toNat_immAt, Option.some.injEq, Nat.reduceAdd]
    omega
  case h_3 | h_4 | h_5 =>
    obtain ⟨h3, h4, h5, h14, rfl⟩ := chk_ok h
    have hword := word_fields hw [28, 24, 18, 12] (by decide)
    simp only [fields, Nat.reduceSub] at hword
    unfold Instr.wf encodeNat
    simp only [decide_eq_false_iff_not] at h14
    simp only [decide_eq_true_eq, toNat_regAt, toNat_immAt, Option.some.injEq, Nat.reduceAdd]
    omega
  case h_9 =>
    obtain ⟨h3, h4, h5, h14, rfl⟩ := chk_ok h
    have hword := word_fields hw [28, 24, 18, 12] (by decide)
    simp only [fields, Nat.reduceSub] at hword
    unfold Instr.wf encodeNat
    simp only [bne_eq_false_iff_eq] at h3
    simp only [true_and, toNat_regAt, toNat_immAt, Option.some.injEq, Nat.reduceAdd]
    omega
  case h_10 =>
    obtain ⟨h3, h4, h5, h14, rfl⟩ := chk_ok h
    have hword := word_fields hw [28, 24, 18, 12] (by decide)
    simp only [fields, Nat.reduceSub] at hword
    unfold Instr.wf encodeNat
    simp only [oddReg_regAt, h5, Bool.not_false, true_and, toNat_regAt, toNat_immAt, Option.some.injEq, Nat.reduceAdd]
    omega
  case h_11 => exact absurd h nofun

theorem decodeFK_sound {w : Nat} {i : Instr} (hw : w < 2 ^ 32) (hc : fld w 31 28 = 10) (h : decodeFK w = .ok i) :
    i.wf = true ∧ encodeNat i = some w := by
  unfold decodeFK at h
  split at h
  case h_1 | h_2 | h_3 =>
    obtain ⟨h3, h4, h5, h14, rfl⟩ := chk_ok h
    have hword := word_fields hw [28, 26, 20, 4] (by decide)
    simp only [fields, Nat.reduceSub] at hword
    unfold Instr.wf encodeNat
    simp only [bne_eq_false_iff_eq] at h3
    simp only [true_and, toNat_regAt, toNat_immAt, Option.some.injEq, Nat.reduceAdd]
    omega
  case h_4 => exact absurd h nofun

theorem decodeFC_sound {w : Nat} {i : Instr} (hw : w < 2 ^ 32) (hc : fld w 31 28 = 11) (h : decodeFC w = .ok i) :
    i.wf = true ∧ encodeNat i = some w := by
  unfold decodeFC at h
  split at h
  case h_1 | h_4 =>
    obtain ⟨h3, h4, h5, h14, rfl⟩ := chk_ok h
    have hword := word_fields hw [28, 22, 19, 16, 10, 4, 1] (by decide)
    simp only [fields, Nat.reduceSub] at hword
    unfold Instr.wf encodeNat
    simp only [Bool.or_eq_false_iff, bne_eq_false_iff_eq, decide_eq_false_iff_not] at h3 h4
    simp only [Cond.code_fld h4.1, true_and, toNat_regAt, toNat_predAt, Option.some.injEq, Nat.reduceAdd]
    omega
  case h_2 | h_3 | h_5 | h_6 =>
    obtain ⟨h3, h4, h5, h14, rfl⟩ := chk_ok h
    have hword := word_fields hw [28, 22, 19, 16, 10, 4, 1] (by decide)
    simp only [fields, Nat.reduceSub] at hword
    unfold Instr.wf encodeNat
    simp only [bne_eq_false_iff_eq, decide_eq_false_iff_not] at h3 h4
    simp only [Cond.code_fld h4, true_and, toNat_regAt, toNat_predAt, Option.some.injEq, Nat.reduceAdd]
    omega
  case h_7 | h_8 =>
    obtain ⟨h3, h4, h5, h14, rfl⟩ := chk_ok h
    have hword := word_fields hw [28, 22, 19, 16, 10, 4, 1] (by decide)
    simp only [fields, Nat.reduceSub] at hword
    unfold Instr.wf encodeNat
    simp only [Bool.or_eq_false_iff, bne_eq_false_iff_eq, decide_eq_false_iff_not] at h3 h4
    simp only [Cond.code_fld h4.1, true_and, toNat_regAt, toNat_predAt, toNat_immAt, Option.some.injEq, Nat.reduceAdd]
    omega
  case h_9 | h_10 =>
    obtain ⟨h3, h4, h5, h14, rfl⟩ := chk_ok h
    have hword := word_fields hw [28, 22, 19, 16, 10, 4, 1] (by decide)
    simp only [fields, Nat.reduceSub] at hword
    unfold Instr.wf encodeNat
    simp only [Bool.or_eq_false_iff, bne_eq_false_iff_eq, decide_eq_false_iff_not] at h3 h4
    simp only [oddReg_regAt, h5, Cond.code_fld h4.1, Bool.not_false, true_and, toNat_regAt, toNat_predAt,
      Option.some.injEq, Nat.reduceAdd]
    omega
  case h_11 | h_12 | h_13 | h_14 =>
    obtain ⟨h3, h4, h5, h14, rfl⟩ := chk_ok h
    have hword := word_fields hw [28, 22, 19, 16, 13, 10] (by decide)
    simp only [fields, Nat.reduceSub] at hword
    unfold Instr.wf encodeNat
    simp only [Bool.or_eq_false_iff, bne_eq_false_iff_eq] at h3
    simp only [true_and, toNat_predAt, Option.some.injEq, Nat.reduceAdd]
    omega
  case h_15 =>
    obtain ⟨h3, h4, h5, h14, rfl⟩ := chk_ok h
    have hword := word_fields hw [28, 22, 19, 16, 13] (by decide)
    simp only [fields, Nat.reduceSub] at hword
    unfold Instr.wf encodeNat
    simp only [Bool.or_eq_false_iff, bne_eq_false_iff_eq] at h3
    simp only [true_and, toNat_predAt, Option.some.injEq, Nat.reduceAdd]
    omega
  case h_16 =>
    obtain ⟨h3, h4, h5, h14, rfl⟩ := chk_ok h
    have hword := word_fields hw [28, 22, 19, 4, 3] (by decide)
    simp only [fields, Nat.reduceSub] at hword
    unfold Instr.wf encodeNat
    simp only [Bool.or_eq_false_iff, bne_eq_false_iff_eq] at h3
    simp only [true_and, toNat_predAt, bnat_bitAt, Option.some.injEq, Nat.reduceAdd]
    omega
  case h_17 =>
    obtain ⟨h3, h4, h5, h14, rfl⟩ := chk_ok h
    have hword := word_fields hw [28, 22, 19, 10, 4, 3] (by decide)
    simp only [fields, Nat.reduceSub] at hword
    unfold Instr.wf encodeNat
    simp only [Bool.or_eq_false_iff, bne_eq_false_iff_eq] at h3
    simp only [oddReg_regAt, h5, Bool.not_false, true_and, toNat_regAt, toNat_predAt, bnat_bitAt, Option.some.injEq,
      Nat.reduceAdd]
    omega
  case h_18 =>
    obtain rfl := Except.ok.inj h
    have hword := word_fields hw [28, 22, 16, 10, 4, 1] (by decide)
    simp only [fields, Nat.reduceSub] at hword
    unfold Instr.wf encodeNat
    simp only [true_and, toNat_regAt, toNat_predAt, bnat_bitAt, Option.some.injEq, Nat.reduceAdd]
    omega
  case h_19 =>
    obtain ⟨h3, h4, h5, h14, rfl⟩ := chk_ok h
    have hword := word_fields hw [28, 22, 16, 10, 4, 1] (by decide)
    simp only [fields, Nat.reduceSub] at hword
    unfold Instr.wf encodeNat
    simp only [oddReg_regAt, h5, Bool.not_false, true_and, toNat_regAt, toNat_predAt, bnat_bitAt, Option.some.injEq,
      Nat.reduceAdd]
    omega
  case h_20 =>
    obtain ⟨h3, h4, h5, h14, rfl⟩ := chk_ok h
    have hword := word_fields hw [28, 22, 16, 4, 1] (by decide)
    simp only [fields, Nat.reduceSub] at hword
    unfold Instr.wf encodeNat
    simp only [bne_eq_false_iff_eq] at h3
    simp only [true_and, toNat_regAt, toNat_predAt, bnat_bitAt, Option.some.injEq, Nat.reduceAdd]
    omega
  case h_21 => exact absurd h nofun

theorem decodeFT_sound {w : Nat} {i : Instr} (hw : w < 2 ^ 32) (hc : fld w 31 28 = 12) (h : decodeFT w = .ok i) :
    i.wf = true ∧ encodeNat i = some w := by
  unfold decodeFT at h
  split at h
  case h_1 | h_4 | h_10 =>
    obtain rfl := Except.ok.inj h
    have hword := word_fields hw [28, 24] (by decide)
    simp only [fields, Nat.reduceSub] at hword
    unfold Instr.wf encodeNat
    simp only [true_and, toNat_immAt, Option.some.injEq, Nat.reduceAdd]
    omega
  case h_2 =>
    obtain rfl := Except.ok.inj h
    have hword := word_fields hw [28, 24, 21, 20] (by decide)
    simp only [fields, Nat.reduceSub] at hword
    unfold Instr.wf encodeNat
    simp only [true_and, toNat_predAt, toNat_immAt, bnat_bitAt, Option.some.injEq, Nat.reduceAdd]
    omega
  case h_3 | h_5 =>
    obtain ⟨h3, h4, h5, h14, rfl⟩ := chk_ok h
    have hword := word_fields hw [28, 24, 18] (by decide)
    simp only [fields, Nat.reduceSub] at hword
    unfold Instr.wf encodeNat
    simp only [bne_eq_false_iff_eq] at h3
    simp only [oddReg_regAt, h5, Bool.not_false, true_and, toNat_regAt, Option.some.injEq, Nat.reduceAdd]
    omega
  case h_6 | h_7 =>
    obtain ⟨h3, h4, h5, h14, rfl⟩ := chk_ok h
    have hword := word_fields hw [28, 24] (by decide)
    simp only [fields, Nat.reduceSub] at hword
    unfold Instr.wf encodeNat
    simp only [bne_eq_false_iff_eq] at h3
    simp only [true_and, Option.some.injEq]
    omega
  case h_8 =>
    obtain ⟨h3, h4, h5, h14, rfl⟩ := chk_ok h
    have hword := word_fields hw [28, 24, 16] (by decide)
    simp only [fields, Nat.reduceSub] at hword
    unfold Instr.wf encodeNat
    simp only [bne_eq_false_iff_eq] at h3
    simp only [true_and, toNat_immAt, Option.some.injEq, Nat.reduceAdd]
    omega
  case h_9 =>
    obtain ⟨h3, h4, h5, h14, rfl⟩ := chk_ok h
    have hword := word_fields hw [28, 24, 18, 8] (by decide)
    simp only [fields, Nat.reduceSub] at hword
    unfold Instr.wf encodeNat
    simp only [bne_eq_false_iff_eq] at h3
    simp only [true_and, toNat_regAt, toNat_immAt, Option.some.injEq, Nat.reduceAdd]
    omega
  case h_11 => exact absurd h nofun

theorem decodeFY_sound {w : Nat} {i : Instr} (hw : w < 2 ^ 32) (hc : fld w 31 28 = 13) (h : decodeFY w = .ok i) :
    i.wf = true ∧ encodeNat i = some w := by
  unfold decodeFY at h
  split at h
  case h_1 =>
    obtain ⟨h3, h4, h5, h14, rfl⟩ := chk_ok h
    have hword := word_fields hw [28, 22, 16, 7, 6] (by decide)
    simp only [fields, Nat.reduceSub] at hword
    unfold Instr.wf encodeNat
    simp only [bne_eq_false_iff_eq] at h3
    simp only [oddReg_regAt, h5, SpecialReg.code_ofCode h4, Bool.not_false, true_and, toNat_regAt, bnat_bitAt,
      Option.some.injEq, Nat.reduceAdd]
    omega
  case h_2 =>
    obtain ⟨h3, h4, h5, h14, rfl⟩ := chk_ok h
    have hword := word_fields hw [28, 22, 16, 7, 6] (by decide)
    simp only [fields, Nat.reduceSub] at hword
    unfold Instr.wf encodeNat
    simp only [bne_eq_false_iff_eq] at h3
    simp only [oddReg_regAt, h5, Bool.and_self, SpecialReg.code_ofCode (SpecialReg.readable_of_writable h4),
      SpecialReg.wrsNames_ofCode, h4, Bool.not_false, true_and, toNat_regAt, bnat_bitAt, Option.some.injEq,
      Nat.reduceAdd]
    omega
  case h_3 =>
    obtain ⟨h3, h4, h5, h14, rfl⟩ := chk_ok h
    have hword := word_fields hw [28, 22, 6, 3] (by decide)
    simp only [fields, Nat.reduceSub] at hword
    unfold Instr.wf encodeNat
    simp only [Bool.or_eq_false_iff, bne_eq_false_iff_eq, decide_eq_false_iff_not] at h3 h4
    have hs := Scope.code_ofCode h4.1
    have hk := FenceKind.code_ofCode h4.2
    simp only [hs, hk, true_and, Option.some.injEq]
    omega
  case h_4 | h_5 =>
    obtain ⟨h3, h4, h5, h14, rfl⟩ := chk_ok h
    have hword := word_fields hw [28, 22, 4] (by decide)
    simp only [fields, Nat.reduceSub] at hword
    unfold Instr.wf encodeNat
    simp only [bne_eq_false_iff_eq] at h3
    simp only [true_and, toNat_immAt, Option.some.injEq, Nat.reduceAdd]
    omega
  case h_6 =>
    obtain rfl := Except.ok.inj h
    have hword := word_fields hw [28, 22, 16] (by decide)
    simp only [fields, Nat.reduceSub] at hword
    unfold Instr.wf encodeNat
    simp only [true_and, toNat_regAt, toNat_immAt, Option.some.injEq, Nat.reduceAdd]
    omega
  case h_7 =>
    obtain ⟨h3, h4, h5, h14, rfl⟩ := chk_ok h
    have hword := word_fields hw [28, 22, 16, 7, 6] (by decide)
    simp only [fields, Nat.reduceSub] at hword
    unfold Instr.wf encodeNat
    simp only [Bool.or_eq_false_iff, bne_eq_false_iff_eq] at h3
    simp only [oddReg_regAt, h5, Bool.not_false, true_and, toNat_regAt, bnat_bitAt, Option.some.injEq, Nat.reduceAdd]
    omega
  case h_8 | h_10 | h_16 =>
    obtain ⟨h3, h4, h5, h14, rfl⟩ := chk_ok h
    have hword := word_fields hw [28, 22] (by decide)
    simp only [fields, Nat.reduceSub] at hword
    unfold Instr.wf encodeNat
    simp only [bne_eq_false_iff_eq] at h3
    simp only [true_and, Option.some.injEq]
    omega
  case h_9 =>
    obtain ⟨h3, h4, h5, h14, rfl⟩ := chk_ok h
    have hword := word_fields hw [28, 22, 8] (by decide)
    simp only [fields, Nat.reduceSub] at hword
    unfold Instr.wf encodeNat
    simp only [bne_eq_false_iff_eq] at h3
    simp only [true_and, toNat_immAt, Option.some.injEq, Nat.reduceAdd]
    omega
  case h_11 =>
    obtain ⟨h3, h4, h5, h14, rfl⟩ := chk_ok h
    have hword := word_fields hw [28, 22, 16, 4] (by decide)
    simp only [fields, Nat.reduceSub] at hword
    unfold Instr.wf encodeNat
    simp only [bne_eq_false_iff_eq] at h3
    simp only [true_and, toNat_regAt, toNat_immAt, Option.some.injEq, Nat.reduceAdd]
    omega
  case h_12 | h_13 =>
    obtain ⟨h3, h4, h5, h14, rfl⟩ := chk_ok h
    have hword := word_fields hw [28, 22, 16, 6] (by decide)
    simp only [fields, Nat.reduceSub] at hword
    unfold Instr.wf encodeNat
    simp only [bne_eq_false_iff_eq] at h3
    simp only [oddReg_regAt, h5, Bool.not_false, true_and, toNat_regAt, Option.some.injEq, Nat.reduceAdd]
    omega
  case h_15 =>
    split at h
    case h_10 => exact absurd (chk_ok h).2.2.2.1 nofun
    all_goals
      obtain ⟨h3, -, h5, -, rfl⟩ := chk_ok h
      have hword := word_fields hw [28, 22, 16, 10, 6] (by decide)
      simp only [fields, Nat.reduceSub] at hword
      unfold Instr.wf encodeNat
      simp only [bne_eq_false_iff_eq] at h3
      simp only [oddReg_regAt, h5, Bool.not_false, true_and, toNat_regAt, Option.some.injEq, Nat.reduceAdd]
      omega
  case h_14 =>
    split at h
    · next h6 =>
      obtain ⟨h3, -, -, -, rfl⟩ := chk_ok h
      have hword := word_fields hw [28, 22, 7, 6] (by decide)
      have h6 : fld w 6 6 = 1 := by rw [← bnat_bitAt, h6]; rfl
      simp only [fields, Nat.reduceSub] at hword
      unfold Instr.wf encodeNat
      simp only [Bool.or_eq_false_iff, bne_eq_false_iff_eq] at h3
      simp only [true_and, Option.some.injEq]
      omega
    · next h6 =>
      obtain ⟨h3, -, h5, -, rfl⟩ := chk_ok h
      have hword := word_fields hw [28, 22, 7, 6] (by decide)
      have h6 : fld w 6 6 = 0 := bitAt_eq_false.mp (Bool.not_eq_true _ ▸ h6)
      simp only [fields, Nat.reduceSub] at hword
      unfold Instr.wf encodeNat
      simp only [bne_eq_false_iff_eq] at h3
      simp only [oddReg_regAt, h5, Bool.not_false, true_and, toNat_regAt, Option.some.injEq, Nat.reduceAdd]
      omega
  case h_17 => exact absurd h nofun

theorem decodeFH_sound {w : Nat} {i : Instr} (hw : w < 2 ^ 32) (hc : fld w 31 28 = 14) (h : decodeFH w = .ok i) :
    i.wf = true ∧ encodeNat i = some w := by
  unfold decodeFH at h
  split at h
  case h_1 =>
    obtain rfl := Except.ok.inj h
    have hword := word_fields hw [28, 26, 16, 15, 9, 2] (by decide)
    simp only [fields, Nat.reduceSub] at hword
    unfold Instr.wf encodeNat
    simp only [Role.code_fld, true_and, toNat_immAt, bnat_bitAt, Option.some.injEq, Nat.reduceAdd]
    omega
  case h_2 =>
    obtain ⟨h3, h4, h5, h14, rfl⟩ := chk_ok h
    have hword := word_fields hw [28, 26, 21, 18, 17, 9] (by decide)
    simp only [fields, Nat.reduceSub] at hword
    unfold Instr.wf encodeNat
    simp only [bne_eq_false_iff_eq] at h3
    simp only [predAt_beq_seven, h4, Bool.not_false, true_and, toNat_predAt, toNat_immAt, bnat_bitAt,
      Option.some.injEq, Nat.reduceAdd]
    omega
  case h_3 => exact absurd h nofun

theorem decodeNat_sound {w : Nat} {i : Instr} (hw : w < 2 ^ 32) (h : decodeNat w = .ok i) :
    i.wf = true ∧ encodeNat i = some w := by
  unfold decodeNat at h
  split at h
  case h_1 hc => exact decodeLR_sound hw hc h
  case h_2 hc => exact decodeLT_sound hw hc h
  case h_3 hc => exact decodeLM_sound hw hc h
  case h_4 hc => exact decodeLA_sound hw hc h
  case h_5 hc => exact decodeLX_sound hw hc h
  case h_6 hc => exact decodeLC_sound hw hc h
  case h_7 hc => exact decodeFR_sound hw hc h
  case h_8 hc => exact decodeFI_sound hw hc h
  case h_9 hc => exact decodeFK_sound hw hc h
  case h_10 hc => exact decodeFC_sound hw hc h
  case h_11 hc => exact decodeFT_sound hw hc h
  case h_12 hc => exact decodeFY_sound hw hc h
  case h_13 hc => exact decodeFH_sound hw hc h
  case h_14 => exact absurd h nofun

/-- Settles O51: class by class, the fields the decoder reads make up the word, and its checks are the scanner's. -/
theorem decodeThenEncode : Obligations.DecodeThenEncode := by
  intro w i h
  obtain ⟨hwf, he⟩ := decodeNat_sound w.isLt h
  exact ⟨hwf, by simp [encode, he]⟩

end Sys2Proof
end

