-- ==== Sys2Proof/Proofs/Reset.lean ====
section
/-! PROOF. Words written out from the spec, and the state after power-on reset (R7, R306, R310, R379, R382). -/

namespace Sys2Proof.Machine

/-- Settles O49: each word is decoded. -/
theorem decodeWords : Obligations.DecodeWords := by
  unfold Obligations.DecodeWords
  decide +kernel

/-- A control core after reset: no context, no launch numbered, no command and no trap. -/
theorem State.reset_cc {c : Nat} (h : c < 8) : State.reset.cc? c = some (CCore.init c) := by
  interval_cases c <;> rfl

/-- A return stack of a control core after reset is empty. -/
theorem State.reset_stack : ∀ k ∈ State.reset.ccs, ∀ l ∈ k.grp.lanes, l.stack = [] := by
  decide +kernel

/-- Settles O53: each field of the reset state, and its first step, evaluated. -/
theorem resetState : Obligations.ResetState := by
  unfold Obligations.ResetState
  refine ⟨rfl, rfl, by decide +kernel, ?_, ?_, ?_, by decide +kernel, rfl, rfl, rfl, rfl, rfl, State.reset_stack, rfl⟩
  · intro p hp
    exact ⟨congrArg (Option.map _) (List.getElem?_replicate_of_lt hp), congrArg (Option.map _) (List.getElem?_replicate_of_lt hp)⟩
  · intro p hp
    refine ⟨{ cmps := List.replicate 8 none, wps := List.replicate 4 none, fired := false, snaps := [] }, List.getElem?_replicate_of_lt hp, ?_, ?_, rfl, rfl⟩
    · exact fun c hc => List.eq_of_mem_replicate hc
    · exact fun w hw => List.eq_of_mem_replicate hw
  · intro c hc
    rw [State.reset_cc hc]; rfl

end Sys2Proof.Machine
end

