-- ==== Sys2Proof/Proofs/MemoryBytes.lean ====
section
/-! PROOF. Bytes of a memory: what is written reads back, and memories that read alike are equal (R4, R88, R89). -/

namespace Sys2Proof.Machine

/-- The entries from an address on hold the bytes at and above it. -/
theorem Memory.read_from (m : Memory) {a b : Nat} (h : a ≤ b) : (m.from a).read b = m.read b := by
  induction m with
  | nil => rfl
  | cons x r ih =>
    obtain ⟨c, v⟩ := x
    unfold Memory.from
    split_ifs with hc
    · rw [ih, Memory.read, if_neg (by omega), if_neg (by omega)]
    · rfl

/-- Bytes read one after the other are the bytes read one by one. -/
theorem Memory.readN_eq (m : Memory) (a n : Nat) : m.readN a n = (upto a n).map m.read := by
  unfold Memory.readN
  refine List.map_congr_left fun x hx => ?_
  exact m.read_from (mem_upto.mp hx).1

theorem Memory.readN_succ (m : Memory) (a n : Nat) : m.readN a (n + 1) = m.read a :: m.readN (a + 1) n := by
  rw [Memory.readN_eq, Memory.readN_eq]; rfl

theorem Memory.read_writeN_ne {m : Memory} {a b : Nat} {vs : List Byte} (h : m.wf = true)
    (hb : b < a ∨ a + vs.length ≤ b) : (m.writeN a vs).read b = m.read b := by
  induction vs generalizing m a with
  | nil => rfl
  | cons v r ih =>
    rw [List.length_cons] at hb
    rw [Memory.writeN, ih (Memory.wf_write h) (by omega), Memory.read_write_ne h (by omega)]

theorem Memory.readN_writeN {m : Memory} {a : Nat} {vs : List Byte} (h : m.wf = true) :
    (m.writeN a vs).readN a vs.length = vs := by
  induction vs generalizing m a with
  | nil => rfl
  | cons v r ih =>
    have hw := Memory.wf_write (a := a) (v := v) h
    rw [List.length_cons, Memory.readN_succ, Memory.writeN, Memory.read_writeN_ne hw (by omega), Memory.read_write_same h, ih hw]

theorem length_leBytes (n x : Nat) : (leBytes n x).length = n := by
  induction n generalizing x with
  | zero => rfl
  | succ n ih => rw [leBytes, List.length_cons, ih]

theorem leNat_leBytes (n x : Nat) : leNat (leBytes n x) = x % 2 ^ (8 * n) := by
  induction n generalizing x with
  | zero => simp [leBytes, leNat, Nat.mod_one]
  | succ n ih =>
    have hp : 2 ^ (8 * (n + 1)) = 256 * 2 ^ (8 * n) := by rw [Nat.mul_succ, Nat.pow_add]; omega
    rw [leBytes, leNat, ih, hp, Nat.mod_mul, BitVec.toNat_ofNat]

theorem Memory.nat_setNat {m : Memory} {a n x : Nat} (h : m.wf = true) : (m.setNat a n x).nat a n = x % 2 ^ (8 * n) := by
  have hl := length_leBytes n x
  calc (m.setNat a n x).nat a n = leNat ((m.writeN a (leBytes n x)).readN a (leBytes n x).length) := by rw [hl]; rfl
    _ = x % 2 ^ (8 * n) := by rw [Memory.readN_writeN h, leNat_leBytes]

/-- Memories in the canonical form that read alike are equal. -/
theorem Memory.ext_read {m k : Memory} (hm : m.wf = true) (hk : k.wf = true) (h : ∀ b, m.read b = k.read b) : m = k := by
  induction m generalizing k with
  | nil =>
    cases k with
    | nil => rfl
    | cons y s =>
      have h1 := h y.1
      rw [Memory.read, Memory.read, if_pos rfl] at h1
      exact absurd h1.symm (Memory.wf_cons.mp hk).1
  | cons x r ih =>
    obtain ⟨a, v⟩ := x
    obtain ⟨hv, ha, hr⟩ := Memory.wf_cons.mp hm
    cases k with
    | nil =>
      have h1 := h a
      rw [Memory.read, Memory.read, if_pos rfl] at h1
      exact absurd h1 hv
    | cons y s =>
      obtain ⟨b, w⟩ := y
      obtain ⟨hw, hb, hs⟩ := Memory.wf_cons.mp hk
      have h1 := h a
      have h2 := h b
      rw [Memory.read, Memory.read, if_pos rfl] at h1
      rw [Memory.read, Memory.read, if_pos rfl] at h2
      rcases Nat.lt_trichotomy a b with hab | rfl | hab
      · rw [if_neg (by omega), if_pos hab] at h1
        exact absurd h1 hv
      · have hvw : v = w := by rw [if_pos rfl] at h1; exact h1
        have hrs : ∀ c, Memory.read r c = Memory.read s c := by
          intro c
          rcases Nat.lt_or_ge a c with hc | hc
          · have h3 := h c
            rw [Memory.read, Memory.read, if_neg (by omega), if_neg (by omega), if_neg (by omega), if_neg (by omega)] at h3
            exact h3
          · rw [Memory.read_of_above ha (by omega), Memory.read_of_above hb (by omega)]
        rw [hvw, ih hr hs hrs]
      · rw [if_neg (by omega), if_pos hab] at h2
        exact absurd h2.symm hw

theorem State.homeWrite_mem {s : State} {a : Nat} {bs : List Byte} (h : winOf a = .near ∨ winOf a = .far) :
    (s.homeWrite a bs).mem = s.mem.writeN a bs := by
  unfold State.homeWrite
  rcases h with h | h <;> rw [h] <;> exact State.mailboxWake_mem ..

/-- Settles O55, by induction on the bytes written; equality by induction on the entries of both memories. -/
theorem memoryReadsBack : Obligations.MemoryReadsBack := by
  intro m a bs h
  exact ⟨Memory.readN_writeN h, fun _ hb => Memory.read_writeN_ne h hb, fun _ _ => Memory.nat_setNat h,
    fun _ hw => State.homeWrite_mem hw, fun _ hk hr => Memory.ext_read h hk hr⟩

end Sys2Proof.Machine
end

