-- ==== Sys2Proof/Proofs/TreeOrder.lean ====
section
/-! PROOF. The tree of R228 combines the present values in ascending lane order. -/

namespace Sys2Proof.Machine

/-- The present values, combined in order. -/
def combineAll {α : Type} (op : α → α → α) (v : List (Option α)) : Option α :=
  match v.filterMap id with
  | [] => none
  | x :: r => some (r.foldl op x)

theorem foldl_assoc_cons {α : Type} {op : α → α → α} (h : ∀ x y z, op (op x y) z = op x (op y z)) (x y : α) (r : List α) :
    r.foldl op (op x y) = op x (r.foldl op y) := by
  induction r generalizing y with
  | nil => rfl
  | cons z r ih => rw [List.foldl_cons, List.foldl_cons, h, ih]

theorem combineAll_cons {α : Type} {op : α → α → α} (h : ∀ x y z, op (op x y) z = op x (op y z)) (x : Option α) (v : List (Option α)) :
    combineAll op (x :: v) = treeNode op x (combineAll op v) := by
  cases x with
  | none => rfl
  | some x =>
    unfold combineAll
    rw [List.filterMap_cons_some (f := id) rfl]
    cases v.filterMap id with
    | nil => rfl
    | cons y r => exact congrArg some (foldl_assoc_cons h x y r)

theorem treeNode_assoc {α : Type} {op : α → α → α} (h : ∀ x y z, op (op x y) z = op x (op y z)) (x y z : Option α) :
    treeNode op (treeNode op x y) z = treeNode op x (treeNode op y z) := by
  cases x <;> cases y <;> cases z <;> simp [treeNode, h]

theorem combineAll_treeLevel {α : Type} {op : α → α → α} (h : ∀ x y z, op (op x y) z = op x (op y z)) (v : List (Option α)) :
    combineAll op (treeLevel op v) = combineAll op v := by
  induction v using treeLevel.induct with
  | case1 x y r ih => rw [treeLevel, combineAll_cons h, ih, combineAll_cons h x, combineAll_cons h y, treeNode_assoc h]
  | case2 l _ => rw [treeLevel]; assumption

theorem length_treeLevel {α : Type} (op : α → α → α) (v : List (Option α)) : (treeLevel op v).length = (v.length + 1) / 2 := by
  induction v using treeLevel.induct with
  | case1 x y r ih => rw [treeLevel, List.length_cons, ih, List.length_cons, List.length_cons]; omega
  | case2 l h =>
    match l with
    | [] => simp [treeLevel]
    | [x] => simp [treeLevel]
    | x :: y :: r => exact absurd rfl (h x y r)

theorem combineAll_singleton {α : Type} (op : α → α → α) (x : Option α) : combineAll op [x] = x := by
  cases x <;> rfl

theorem tree_eq_combineAll {op : Nat → Nat → Nat} (h : ∀ x y z, op (op x y) z = op x (op y z)) {v : List (Option Nat)} (hv : v.length = 32) :
    tree op v = combineAll op v := by
  have hc : combineAll op (treeLevel op (treeLevel op (treeLevel op (treeLevel op (treeLevel op v))))) = combineAll op v := by
    rw [combineAll_treeLevel h, combineAll_treeLevel h, combineAll_treeLevel h, combineAll_treeLevel h, combineAll_treeLevel h]
  have hl : (treeLevel op (treeLevel op (treeLevel op (treeLevel op (treeLevel op v))))).length = 1 := by
    simp only [length_treeLevel, hv]
  obtain ⟨x, hx⟩ := List.length_eq_one_iff.mp hl
  rw [← hc, tree, hx, combineAll_singleton]; rfl

/-- Settles O12: a level of the tree keeps the combination of the present values, and five levels leave one of 32. -/
theorem treeCombines : Obligations.TreeCombines :=
  by
  intro op v h hv
  rw [tree_eq_combineAll h hv]
  unfold combineAll
  cases v.filterMap id <;> rfl

end Sys2Proof.Machine
end

