-- ==== Sys2Proof/Proofs/KeptBasics.lean ====
section
/-! PROOF. What every step keeps, of memory and of the return stacks (R34, R88), and the updates of the state. -/

namespace Sys2Proof.Machine

/-- Every element of a list satisfies a predicate. -/
def All {α : Type} (p : α → Prop) (l : List α) : Prop := ∀ x ∈ l, p x

section
variable {α β : Type} {p : α → Prop} {q : β → Prop} {l k : List α}

theorem All.nil : All p [] := fun _ hx => absurd hx List.not_mem_nil

theorem All.cons {a : α} (ha : p a) (h : All p l) : All p (a :: l) := by
  intro x hx
  rcases List.mem_cons.mp hx with rfl | hx
  · exact ha
  · exact h x hx

theorem All.one {a : α} (ha : p a) : All p [a] := All.cons ha All.nil

theorem All.append (h : All p l) (hk : All p k) : All p (l ++ k) := fun x hx => (List.mem_append.mp hx).elim (h x)
    (hk x)

theorem All.reverse (h : All p l) : All p l.reverse := fun x hx => h x (List.mem_reverse.mp hx)

theorem All.filter {t : α → Bool} (h : All p l) : All p (l.filter t) := fun x hx => h x (List.mem_of_mem_filter hx)

theorem All.map {f : α → β} (h : All p l) (hf : ∀ x, p x → q (f x)) : All q (l.map f) := by
  intro y hy
  obtain ⟨x, hx, rfl⟩ := List.mem_map.mp hy
  exact hf x (h x hx)

theorem All.ofMap {f : α → β} (hf : ∀ x, q (f x)) : All q (l.map f) := by
  intro y hy
  obtain ⟨x, -, rfl⟩ := List.mem_map.mp hy
  exact hf x

theorem All.filterMap {f : α → Option β} (h : All p l) (hf : ∀ x y,
    p x → f x = some y → q y) : All q (l.filterMap f) := by
  intro y hy
  obtain ⟨x, hx, hxy⟩ := List.mem_filterMap.mp hy
  exact hf x y (h x hx) hxy

theorem All.flatMap {f : α → List β} (h : All p l) (hf : ∀ x, p x → All q (f x)) : All q (l.flatMap f) := by
  intro y hy
  obtain ⟨x, hx, hxy⟩ := List.mem_flatMap.mp hy
  exact hf x (h x hx) y hxy

theorem All.mapIf {t : α → Bool} {f : α → α} (h : All p l) (hf : ∀ x, p x → p (f x)) : All p (mapIf t f l) := by
  refine h.map fun x hx => ?_
  split
  · exact hf x hx
  · exact hx

theorem All.insKey {k : α → Nat} {a : α} (h : All p l) (ha : p a) : All p (insKey k a l) := by
  induction l with
  | nil => exact All.one ha
  | cons y l ih =>
    have hl : All p l := fun x hx => h x (List.mem_cons_of_mem _ hx)
    unfold Machine.insKey
    split
    · exact All.cons ha h
    · exact All.cons (h y List.mem_cons_self) (ih hl)

theorem All.foldl {γ : Type} {r : γ → Prop} {f : γ → α → γ} {a : γ} (h : All p l) (ha : r a)
    (hf : ∀ b x, r b → p x → r (f b x)) : r (l.foldl f a) := by
  induction l generalizing a with
  | nil => exact ha
  | cons y l ih =>
    exact ih (fun x hx => h x (List.mem_cons_of_mem _ hx)) (hf a y ha (h y List.mem_cons_self))

theorem All.sortKey {k : α → Nat} (h : All p l) : All p (sortKey k l) :=
  h.foldl (r := All p) All.nil fun _ _ hb hx => hb.insKey hx

theorem All.find {t : α → Bool} {a : α} (h : All p l) (ha : l.find? t = some a) : p a := h a
    (List.mem_of_find?_eq_some ha)

end

/-! ### What is kept -/

/-- The return stack of a thread keeps its bound (R34), where `c` asks for it. -/
def LaneSt.Kept (c : Prop) (l : LaneSt) : Prop := c → l.stack.length ≤ 32

/-- The same of the threads of a group. -/
def Grp.Kept (c : Prop) (g : Grp) : Prop := All (LaneSt.Kept c) g.lanes

/-- The same of a block. -/
def Block.Kept (c : Prop) (b : Block) : Prop := All (Grp.Kept c) b.groups

/-- The same of a trap context. -/
def TrapCtx.Kept (c : Prop) (t : TrapCtx) : Prop := All (Grp.Kept c) t.groups

/-- The same of a control core and its handler. -/
def CCore.Kept (c : Prop) (k : CCore) : Prop := k.grp.Kept c ∧ ∀ x, k.trap = some x → x.Kept c

/-- What every step keeps: the canonical form of memory, where `m` asks for it, and the bound of the return stacks,
  where
`c` does. -/
def State.Kept (m c : Prop) (s : State) : Prop :=
  (m → s.mem.wf = true) ∧ All (Block.Kept c) s.blocks ∧ All (TrapCtx.Kept c) s.traps ∧ All (CCore.Kept c) s.ccs

/-- A word's own effect keeps both. -/
def Eff.Kept (m c : Prop) : Eff → Prop
  | .done s e => s.Kept m c ∧ e.grp.Kept c
  | .moved s => s.Kept m c
  | .fault s _ _ _ _ _ => s.Kept m c
  | .hold s _ => s.Kept m c
  | _ => True

/-- A next state keeps both. -/
def NextKept (m c : Prop) : Host.Outcome State Fault Refusal → Prop
  | .next s => s.Kept m c
  | _ => True

/-- The state after an attempt on a ring keeps both. -/
def Put.Kept (m c : Prop) : Put → Prop
  | .stuck => True
  | .moved s => s.Kept m c
  | .done s => s.Kept m c

section
variable {m c : Prop} {s : State}

theorem State.Kept.foldl {α : Type} {f : State → α → State} {l : List α} (h : s.Kept m c)
    (hf : ∀ t x, t.Kept m c → (f t x).Kept m c) : (l.foldl f s).Kept m c :=
  All.foldl (p := fun _ => True) (fun _ _ => trivial) h fun t x ht _ => hf t x ht

theorem Block.Kept.foldl {α : Type} {b : Block} {f : Block → α → Block} {l : List α} (h : b.Kept c)
    (hf : ∀ b x, b.Kept c → (f b x).Kept c) : (l.foldl f b).Kept c :=
  All.foldl (p := fun _ => True) (fun _ _ => trivial) h fun t x ht _ => hf t x ht

theorem Grp.Kept.foldl {α : Type} {g : Grp} {f : Grp → α → Grp} {l : List α} (h : g.Kept c)
    (hf : ∀ g x, g.Kept c → (f g x).Kept c) : (l.foldl f g).Kept c :=
  All.foldl (p := fun _ => True) (fun _ _ => trivial) h fun t x ht _ => hf t x ht

theorem State.Kept.snd {α : Type} {x : α × State} {a : α} (h : x.2.Kept m c) (e : x = (a, s)) : s.Kept m c := by
  subst e; exact h

theorem State.Kept.fst {α : Type} {x : State × α} {a : α} (h : x.1.Kept m c) (e : x = (s, a)) : s.Kept m c := by
  subst e; exact h

theorem State.Kept.mem (h : s.Kept m c) : m → s.mem.wf = true := h.1
theorem State.Kept.blocks (h : s.Kept m c) : All (Block.Kept c) s.blocks := h.2.1
theorem State.Kept.traps (h : s.Kept m c) : All (TrapCtx.Kept c) s.traps := h.2.2.1
theorem State.Kept.ccs (h : s.Kept m c) : All (CCore.Kept c) s.ccs := h.2.2.2

theorem State.Kept.withMem {x : Memory} (h : s.Kept m c) (hx : m → x.wf = true) : State.Kept m c { s with mem := x } :=
  ⟨hx, h.2⟩

theorem State.Kept.withBlocks {l : List Block} (h : s.Kept m c) (hl : All (Block.Kept c) l) :
    State.Kept m c { s with blocks := l } := ⟨h.mem, hl, h.2.2⟩

theorem State.Kept.withTraps {l : List TrapCtx} (h : s.Kept m c) (hl : All (TrapCtx.Kept c) l) :
    State.Kept m c { s with traps := l } := ⟨h.mem, h.blocks, hl, h.ccs⟩

theorem State.Kept.withCcs {l : List CCore} (h : s.Kept m c) (hl : All (CCore.Kept c) l) :
    State.Kept m c { s with ccs := l } := ⟨h.mem, h.blocks, h.traps, hl⟩

theorem State.Kept.block {n : Nat} {b : Block} (h : s.Kept m c) (hb : s.block? n = some b) : b.Kept c :=
    h.blocks.find hb

theorem State.Kept.trap {n : Nat} {t : TrapCtx} (h : s.Kept m c) (ht : s.trap? n = some t) : t.Kept c := h.traps.find ht

theorem State.Kept.cc {n : Nat} {k : CCore} (h : s.Kept m c) (hk : s.cc? n = some k) : k.Kept c := h.ccs.find hk

theorem Block.Kept.of_groups {b k : Block} (h : b.Kept c) (e : k.groups = b.groups) : k.Kept c := by
  unfold Block.Kept; rw [e]; exact h

theorem Grp.Kept.of_same {g k : Grp} (h : g.Kept c) (e : SameThreads k g) : k.Kept c := by
  unfold Grp.Kept; rw [e.lanes]; exact h

theorem State.Kept.env {w : Who} {e : Env} (h : s.Kept m c) (he : s.env? w = some e) : e.grp.Kept c := by
  cases w <;> simp only [State.env?, Option.bind_eq_bind, Option.bind_eq_some_iff] at he
  case kern =>
    obtain ⟨b, hb, l, -, g, hg, u, -, he⟩ := he
    split at he
    · obtain rfl := Option.some.inj he
      exact (h.block hb).find hg
    · cases he
  case hand =>
    obtain ⟨t, ht, b, -, l, -, g, hg, u, -, he⟩ := he
    obtain rfl := Option.some.inj he
    exact (h.trap ht).find hg
  case cc =>
    obtain ⟨k, hk, u, -, he⟩ := he
    obtain rfl := Option.some.inj he
    exact (h.cc hk).1
  case ccHand =>
    obtain ⟨k, hk, t, ht, g, hg, u, -, he⟩ := he
    obtain rfl := Option.some.inj he
    exact (h.cc hk).2 t ht g (List.mem_of_mem_head? hg)

theorem State.Kept.next (h : s.Kept m c) : NextKept m c (.next s) := h

theorem Put.Kept.moved {p : Put} {t : State} (h : p.Kept m c) (e : p = .moved t) : t.Kept m c := by
  subst e; exact h

theorem Put.Kept.done {p : Put} {t : State} (h : p.Kept m c) (e : p = .done t) : t.Kept m c := by
  subst e; exact h

/-! ### Updates -/

variable {b : Block} {g : Grp}

theorem State.Kept.setBlock (h : s.Kept m c) (hb : b.Kept c) : (s.setBlock b).Kept m c :=
  h.withBlocks (h.blocks.mapIf fun _ _ => hb)

theorem State.Kept.onBlock {n : Nat} {f : Block → Block} (h : s.Kept m c) (hf : ∀ b, b.Kept c → (f b).Kept c) :
    (s.onBlock n f).Kept m c := h.withBlocks (h.blocks.mapIf hf)

theorem State.Kept.onCc {n : Nat} {f : CCore → CCore} (h : s.Kept m c) (hf : ∀ k, k.Kept c → (f k).Kept c) :
    (s.onCc n f).Kept m c := h.withCcs (h.ccs.mapIf hf)

theorem State.Kept.setCore {k : Core} (h : s.Kept m c) : (s.setCore k).Kept m c := by
  unfold State.setCore; split <;> exact h

theorem State.Kept.setQueue {q : QReg} (h : s.Kept m c) : (s.setQueue q).Kept m c := by
  unfold State.setQueue; split <;> exact h

theorem CCore.Kept.withGrp {k : CCore} (h : k.Kept c) (hg : g.Kept c) : CCore.Kept c { k with grp := g } := ⟨hg, h.2⟩

theorem CCore.Kept.mapTrap {k : CCore} {f : TrapCtx → TrapCtx} (h : k.Kept c) (hf : ∀ t, t.Kept c → (f t).Kept c) :
    CCore.Kept c { k with trap := k.trap.map f } := by
  refine ⟨h.1, fun x hx => ?_⟩
  obtain ⟨t, ht, rfl⟩ := Option.map_eq_some_iff.mp hx
  exact hf t (h.2 t ht)

theorem CCore.Kept.withTrap {k : CCore} {t : TrapCtx} (h : k.Kept c) (ht : t.Kept c) :
    CCore.Kept c { k with trap := some t } := ⟨h.1, fun _ hx => Option.some.inj hx ▸ ht⟩

theorem CCore.Kept.noTrap {k : CCore} (h : k.Kept c) : CCore.Kept c { k with trap := none } := ⟨h.1,
    fun _ hx => nomatch hx⟩

theorem State.Kept.putGrps {w : Who} {gs : List Grp} (h : s.Kept m c) (hg : All (Grp.Kept c) gs) : (s.putGrps w
    gs).Kept m c := by
  have sub : ∀ (n : Nat) (l : List Grp),
    All (Grp.Kept c) l → All (Grp.Kept c) (l.flatMap fun x => if x.gid == n then gs else [x]) := by
    intro n l hl
    refine hl.flatMap fun x hx => ?_
    split
    · exact hg
    · exact All.one hx
  unfold State.putGrps
  cases w with
  | kern n k _ => exact h.onBlock fun b hb => sub k _ hb
  | hand n k _ => exact h.withTraps (h.traps.mapIf fun t ht => sub k _ ht)
  | cc n =>
    cases gs with
    | nil => exact h
    | cons g r => exact h.onCc fun k hk => hk.withGrp (hg g List.mem_cons_self)
  | ccHand n => exact h.onCc fun k hk => hk.mapTrap fun _ _ => hg

theorem State.Kept.onGrp {w : Who} {f : Grp → Grp} (h : s.Kept m c) (hf : ∀ g,
    g.Kept c → (f g).Kept c) : (s.onGrp w f).Kept m c := by
  unfold State.onGrp
  cases w with
  | kern n k _ => exact h.onBlock fun b hb => hb.mapIf hf
  | hand n k _ => exact h.withTraps (h.traps.mapIf fun t ht => ht.mapIf hf)
  | cc n => exact h.onCc fun k hk => hk.withGrp (hf _ hk.1)
  | ccHand n => exact h.onCc fun k hk => hk.mapTrap fun _ ht => ht.map hf

theorem State.Kept.onUnit {w : Who} {f : ISet → ISet} (h : s.Kept m c) : (s.onUnit w f).Kept m c :=
  h.onGrp fun _ hg => hg

end

section
variable {m c : Prop} {s : State} {b : Block} {g : Grp}

theorem Grp.Kept.root {n lo hi : Nat} {pc : W64} {p : BitVec 3} : (Grp.root n lo hi pc p).Kept c := All.one fun _ =>
    Nat.zero_le 32

theorem CCore.Kept.init {n : Nat} : (CCore.init n).Kept c := ⟨Grp.Kept.root, fun _ hx => nomatch hx⟩

theorem State.Kept.reset : State.reset.Kept m c := by
  refine ⟨fun _ => State.reset_mem_wf, All.nil, All.nil, fun k hk => ?_⟩
  simp only [State.reset, List.mem_cons, List.not_mem_nil, or_false] at hk
  rcases hk with rfl | rfl | rfl | rfl | rfl | rfl | rfl | rfl <;> exact CCore.Kept.init

theorem Grp.Kept.sheaf {n w : Nat} {u : ISet} (hg : g.Kept c) : (g.sheaf n w u).Kept c := by
  unfold Grp.sheaf
  dsimp only
  split
  next l r hl => exact All.ofMap fun _ => hg l (hl ▸ List.mem_cons_self)
  · exact All.nil

theorem Grp.Kept.onLanes {u : ISet} {f : LaneSt → LaneSt} (hg : g.Kept c) (hf : ∀ l, l.Kept c → (f l).Kept c) :
    (g.onLanes u f).Kept c := hg.mapIf hf

theorem State.Kept.resident {n i : Nat} {base size : Block → Nat} (h : s.Kept m c) (hb : s.resident n base size i =
    some b) :
    b.Kept c := h.blocks.find hb

theorem State.Kept.tileOf {n q t i : Nat} (h : s.Kept m c) (hb : s.tileOf n q t = some (b, i)) : b.Kept c := by
  obtain ⟨k, hk, e⟩ := Option.map_eq_some_iff.mp hb
  obtain ⟨rfl, -⟩ := Prod.mk.inj e
  exact h.resident hk

theorem State.Kept.memWrite {a : Nat} {v : List Byte} (h : s.Kept m c) : (s.memWrite a v).Kept m c := by
  have hw : State.Kept m c { s with mem := s.mem.writeN a v, sums := sumsAfter s.sums a v.length } :=
    h.withMem fun hm => Memory.wf_writeN (h.mem hm)
  unfold State.memWrite State.mailboxWake
  split
  · refine hw.withCcs (hw.ccs.map fun k hk => ?_)
    split
    · split
      · exact hk
      · exact hk
    · exact hk
  · exact hw

theorem State.Kept.after {p : Put} (h : s.Kept m c) (hp : p.Kept m c) : (p.after s).Kept m c := by
  cases p with
  | stuck => exact h
  | moved t | done t => exact hp

end

end Sys2Proof.Machine
end

