-- ==== Sys2Proof/Proofs/KeptState.lean ====
section
/-! PROOF. Homes, registers, translation and the orders of memory keep it. -/

namespace Sys2Proof.Machine

section
variable {m c : Prop} {s : State}

theorem Grp.Kept.setCell {g : Grp} {r : Nat} {c' : RegCell} (hg : g.Kept c) :
    (g.setCell r c').Kept c := hg

theorem Grp.Kept.unpair {g : Grp} {r : Nat} (hg : g.Kept c) :
    (g.unpair r).Kept c := by
  unfold Grp.unpair
  extract_lets
  split
  · exact hg.setCell.setCell
  · split
    · exact hg.setCell.setCell
    · exact hg.setCell
  · exact hg.setCell
  · exact hg

theorem Grp.Kept.writeLanes {g : Grp} {r : Nat} {wide : Bool} {mask : W32} {vs : List W32} (hg : g.Kept c) :
    (g.writeLanes r wide mask vs).Kept c := hg.setCell

theorem Grp.Kept.write {g : Grp} {u : ISet} {d : Nat} {r : Res} (hg : g.Kept c) :
    (g.write u d r).Kept c := by
  unfold Grp.write
  split
  · extract_lets
    split
    · exact hg.unpair.setCell
    · exact hg.unpair.writeLanes
  · exact hg.unpair.writeLanes
  · extract_lets
    split
    · exact hg.setCell.setCell
    · exact hg.unpair.writeLanes.writeLanes
  · exact hg.unpair.writeLanes.writeLanes

theorem Grp.Kept.claim {g : Grp} {u : ISet} {r : Nat} (hg : g.Kept c) :
    (g.claim u r).Kept c := hg.setCell

theorem Grp.Kept.relsOf {g old : Grp} {rs : List Nat} (hg : g.Kept c) :
    (g.relsOf old rs).Kept c := hg.foldl (fun _ _ hg2 => hg2.setCell)

theorem Grp.Kept.pwrite {g : Grp} {u : ISet} {p : Nat} {r : PRes} (hg : g.Kept c) :
    (g.pwrite u p r).Kept c := by
  unfold Grp.pwrite
  split
  · exact hg
  split <;> exact hg

theorem Grp.Kept.part {g : Grp} {gid lo hi : Nat} {u : ISet} (hg : g.Kept c) :
    (g.part gid lo hi u).Kept c := hg.map (fun _ hl => hl)

theorem Grp.Kept.undef {g : Grp} {r : Nat} {mask : W32} {nonce : Nat} (hg : g.Kept c) :
    (g.undef r mask nonce).Kept c := by
  unfold Grp.undef
  extract_lets
  split <;> exact hg.unpair.setCell

theorem Grp.Kept.pundef {g : Grp} {p : Nat} {mask : W32} {nonce : Nat} (hg : g.Kept c) :
    (g.pundef p mask nonce).Kept c := by
  unfold Grp.pundef
  extract_lets
  split <;> exact hg

theorem Grp.Kept.release {g : Grp} {u : ISet} {r : Nat} (hg : g.Kept c) :
    (g.release u r).Kept c := by
  unfold Grp.release
  split
  · exact hg.setCell
  split
  · exact hg.setCell
  · exact hg.unpair.setCell

theorem Grp.Kept.prelease {g : Grp} {u : ISet} {p : Nat} (hg : g.Kept c) :
    (g.prelease u p).Kept c := hg

theorem State.Kept.onLaunch {s : State} {lid : Nat} {f : Launch → Launch} (h : s.Kept m c) :
    (s.onLaunch lid f).Kept m c := h

theorem State.Kept.onDie {s : State} {d : Nat} {f : Die → Die} (h : s.Kept m c) :
    (s.onDie d f).Kept m c := h

theorem State.Kept.onXreg {s : State} {p : Nat} {f : XReg → XReg} (h : s.Kept m c) :
    (s.onXreg p f).Kept m c := h

theorem State.Kept.onLctl {s : State} {p : Nat} {f : LCtl → LCtl} (h : s.Kept m c) :
    (s.onLctl p f).Kept m c := h

theorem State.Kept.onDbg {s : State} {p : Nat} {f : Dbg → Dbg} (h : s.Kept m c) :
    (s.onDbg p f).Kept m c := h

theorem Grp.Kept.setUnit {g : Grp} {u : ISet} (hg : g.Kept c) :
    (g.setUnit u).Kept c := hg

theorem State.Kept.kernEnv {s : State} {who : Who} {b : Block} {l : Launch} {g : Grp} {u : ISet} (hg : g.Kept c) :
    (s.kernEnv who b l g u).grp.Kept c := by
  unfold State.kernEnv
  exact hg

theorem State.Kept.ccEnv {s : State} {who : Who} {c' : CCore} {g : Grp} {u : ISet} (hg : g.Kept c) :
    (s.ccEnv who c' g u).grp.Kept c := by
  unfold State.ccEnv
  exact hg

theorem State.Kept.fresh {s : State} (h : s.Kept m c) :
    (s.fresh).2.Kept m c := h

theorem State.Kept.spend {s : State} {n : Nat} (h : s.Kept m c) :
    (s.spend n).Kept m c := h

theorem Grp.Kept.scrambled {nonce : Nat} {g : Grp} (hg : g.Kept c) :
    (Grp.scrambled nonce g).Kept c := hg

theorem Block.Kept.unsettled {n m' : Nat} {b : Block} (hb : b.Kept c) :
    (Block.unsettled n m' b).Kept c := hb.map (fun _ hg => hg.scrambled)

theorem State.Kept.stateWrite {s : State} {core : Nat} (h : s.Kept m c) :
    (s.stateWrite core).Kept m c := h.withBlocks (h.blocks.mapIf (fun _ hb => hb.unsettled))

theorem State.Kept.filesWrite {s : State} {core : Nat} (h : s.Kept m c) :
    (s.filesWrite core).Kept m c := h.withBlocks (h.blocks.mapIf (fun _ hb => hb.map (fun _ hg => hg.scrambled)))

theorem Block.Kept.onPart {b : Block} {q : Nat} {f : Part → Part} (hb : b.Kept c) :
    (b.onPart q f).Kept c := hb

theorem Block.Kept.spoil {b : Block} {r : EReq} {nonce : Nat} (hb : b.Kept c) :
    (b.spoil r nonce).Kept c := by
  unfold Block.spoil
  split
  · split
    · exact hb.onPart
    · exact hb
  · split
    · exact Block.Kept.onPart (hb.foldl (fun _ _ hb2 => hb2))
    · exact Block.Kept.onPart (hb.foldl (fun _ _ hb2 => hb2))
    · exact hb.foldl (fun _ _ hb2 => hb2)
  · exact hb

theorem State.Kept.disturb {s : State} {bid : Nat} {p : EReq → Bool} (h : s.Kept m c) :
    (s.disturb bid p).Kept m c := by
  unfold State.disturb
  split
  · exact h
  next hq =>
    have hb := h.block hq
    extract_lets
    split
    · exact h
    · exact State.Kept.spend (h.setBlock (Block.Kept.of_groups (hb.foldl (fun _ _ hb2 => hb2.spoil)) rfl))

theorem State.Kept.touchIns {s : State} {bid off n : Nat} (h : s.Kept m c) :
    (s.touchIns bid off n).Kept m c := h.disturb

theorem State.Kept.touchOuts {s : State} {bid off n : Nat} (h : s.Kept m c) :
    (s.touchOuts bid off n).Kept m c := h.disturb

theorem State.Kept.spadPut {s : State} {bid off : Nat} {bytes : List Byte} (h : s.Kept m c) :
    (s.spadPut bid off bytes).Kept m c := by
  unfold State.spadPut
  split
  · exact h
  next hq =>
    have hb := h.block hq
    extract_lets
    split
    · exact h.setBlock hb
    · exact State.Kept.spend (h.setBlock hb)

theorem State.Kept.chipWrite {s : State} {a : Nat} {v : Byte} (h : s.Kept m c) :
    (s.chipWrite a v).Kept m c := by
  unfold State.chipWrite
  extract_lets
  split
  · split
    · exact h.spadPut
    · exact h
  split
  · exact h.filesWrite
  split
  · exact h.stateWrite
  split
  · refine h.foldl (fun _ _ ht => ?_)
    split
    · extract_lets
      split
      next hq6 =>
        have hb := ht.resident hq6
        exact ht.setBlock hb
      · exact ht
    extract_lets
    split
    next hq6 =>
      have hb := ht.resident hq6
      exact ht.setBlock hb
    · exact ht
  split
  · split
    next hq6 =>
      have hb := h.tileOf hq6
      exact h.setBlock hb.onPart
    · exact h
  split
  · split
    next hq7 =>
      have hb := h.resident hq7
      exact h.setBlock hb.onPart
    · exact h
  · exact h

/-- The definition as an equation of functions: the kernel would otherwise compute with the map's base address in
  unary. -/
theorem State.chipWriteN_eq : @State.chipWriteN = fun s a v =>
    let core := (a - onChipBase) / 0x1000000
    let o := (a - onChipBase) % 0x1000000
    match if o + v.length ≤ 0x180000 then s.resident core (·.spadBase) s.spadSize o else none with
    | some b =>
      if o + v.length ≤ b.spadBase + s.spadSize b then s.spadPut b.bid (o - b.spadBase) v
      else ((upto a v.length).zip v).foldl (fun s x => s.chipWrite x.1 x.2) s
    | none => ((upto a v.length).zip v).foldl (fun s x => s.chipWrite x.1 x.2) s := rfl

theorem State.Kept.chipWriteN {a : Nat} {v : List Byte} (h : s.Kept m c) : (s.chipWriteN a v).Kept m c := by
  have hall : (((upto a v.length).zip v).foldl (fun s x => s.chipWrite x.1 x.2) s).Kept m c :=
    h.foldl fun _ _ ht => ht.chipWrite
  rw [State.chipWriteN_eq]
  beta_reduce
  extract_lets core o
  clear_value core o
  split
  · split
    · exact h.spadPut
    · exact hall
  · exact hall

theorem State.Kept.leave {s : State} {b : Block} (h : s.Kept m c) :
    (s.leave b).Kept m c := by
  unfold State.leave
  split <;> exact h

theorem State.Kept.wake {s : State} {c' : Nat} (h : s.Kept m c) :
    (s.wake c').Kept m c := h.onCc (fun _ hk => hk)

theorem State.Kept.queueError {s : State} {q code : Nat} (h : s.Kept m c) :
    (s.queueError q code).Kept m c := h.setQueue

theorem State.Kept.dropCaches {s : State} {core : Nat} (h : s.Kept m c) :
    (s.dropCaches core).Kept m c := h.setCore

theorem State.Kept.queueObserve {s : State} {q : Nat} (h : s.Kept m c) :
    (s.queueObserve q).Kept m c := by
  unfold State.queueObserve
  extract_lets
  split
  · exact h
  split
  · exact h.queueError
  split
  · exact h.setQueue
  · exact h.dropCaches.setQueue

theorem State.Kept.queuePost {s : State} {q : Nat} {v : W32} (h : s.Kept m c) :
    (s.queuePost q v).Kept m c := by
  unfold State.queuePost
  refine State.Kept.wake ?_
  split
  · exact h
  · exact h.setQueue.queueObserve

theorem State.Kept.queuesAgain {s : State} (h : s.Kept m c) :
    (s.queuesAgain).Kept m c := h.foldl (fun _ _ ht => ht.queueObserve)

theorem State.Kept.tlbInvalidate {s : State} {p : Nat} {v : W64} (h : s.Kept m c) :
    (s.tlbInvalidate p v).Kept m c := by
  unfold State.tlbInvalidate
  split <;> exact h

theorem State.Kept.replay {s : State} {p : Nat} {ctx : BitVec 16} (h : s.Kept m c) :
    (s.replay p ctx).Kept m c := h.withBlocks (h.blocks.mapIf (fun _ hb => hb.map (fun _ hg => hg)))

theorem State.Kept.writeQueue {q o : Nat} {v : List Byte} (h : s.Kept m c) : (s.writeQueue q o v).Kept m c := by
  unfold State.writeQueue
  extract_lets r x ones en r' t t'
  have ht' : t'.Kept m c := by
    unfold t'
    split
    · exact h.setQueue.queueObserve
    · exact h.setQueue
  split
  · exact ht'.queuePost
  · exact ht'

theorem State.Kept.writeXlate {s : State} {p off : Nat} {bytes : List Byte} (h : s.Kept m c) :
    (s.writeXlate p off bytes).Kept m c := by
  unfold State.writeXlate
  split
  · exact h.tlbInvalidate
  split
  · exact h.replay
  · exact h

theorem State.Kept.writeLctl {s : State} {p off : Nat} {bytes : List Byte} (h : s.Kept m c) :
    (s.writeLctl p off bytes).Kept m c := h

theorem State.Kept.blkWrite {s : State} {o : Nat} {bytes : List Byte} (h : s.Kept m c) :
    (s.blkWrite o bytes).Kept m c := by
  unfold State.blkWrite
  split
  split
  · exact h.writeQueue
  · exact h.writeXlate
  · exact h.writeLctl
  · exact h

theorem State.Kept.regWriteIn {n o : Nat} {v : List Byte} (h : s.Kept m c) : (State.regWriteIn n s o v).Kept m c := by
  induction n generalizing s o v with
  | zero => exact h
  | succ n ih =>
    unfold State.regWriteIn
    extract_lets k t
    split
    · exact h.blkWrite
    · exact ih h.blkWrite

theorem State.Kept.regWrite {s : State} {o : Nat} {bytes : List Byte} (h : s.Kept m c) :
    (s.regWrite o bytes).Kept m c := h.regWriteIn

theorem State.Kept.mailboxWake {s : State} {a n : Nat} (h : s.Kept m c) :
    (s.mailboxWake a n).Kept m c := by
  unfold State.mailboxWake
  split
  · refine h.withCcs (h.ccs.map (fun _ hk => ?_))
    split
    · split
      · exact hk
      · exact hk
    · exact hk
  · exact h

theorem State.Kept.homeWrite {s : State} {a : Nat} {bytes : List Byte} (h : s.Kept m c) :
    (s.homeWrite a bytes).Kept m c := by
  unfold State.homeWrite
  split
  · exact h.memWrite
  · exact h.memWrite
  · exact h.chipWriteN
  · exact h.regWrite
  · exact h
  · exact h

theorem State.Kept.devWrite {s : State} {a : Nat} {bytes : List Byte} (h : s.Kept m c) :
    (s.devWrite a bytes).Kept m c := h.homeWrite

theorem State.Kept.partWrite {s : State} {p a : Nat} {bytes : List Byte} (h : s.Kept m c) :
    (s.partWrite p a bytes).Kept m c := by
  unfold State.partWrite
  split
  · exact h.devWrite
  · exact h

theorem State.Kept.prodPut {s : State} {r : RingW} (h : s.Kept m c) :
    (s.prodPut r).Kept m c := by
  unfold State.prodPut
  extract_lets
  split <;> exact h.partWrite

theorem State.Kept.slotPut {s : State} {part prod : Nat} {full : Bool} {slot : Nat} {next : List Byte} {size data :
    Nat} (h : s.Kept m c) :
    (s.slotPut part prod full slot next size data).Kept m c := by
  unfold State.slotPut
  split
  · split
    · trivial
    split
    · exact h
    · exact h.prodPut
  split
  · trivial
  extract_lets
  split
  · exact h.partWrite
  · exact h.partWrite.prodPut

theorem State.Kept.ringPut {s : State} {part base log prod cons size data : Nat} (h : s.Kept m c) :
    (s.ringPut part base log prod cons size data).Kept m c := h.slotPut

theorem State.Kept.faultPut {s : State} {c' : Ctx} {data : Nat} (h : s.Kept m c) :
    (s.faultPut c' data).Kept m c := h.ringPut

theorem State.Kept.reportPut {s : State} {c' : Ctx} {data : Nat} (h : s.Kept m c) :
    (s.reportPut c' data).Kept m c := h.slotPut

theorem State.Kept.keep {s : State} {c' : Ctx} {reads : List (Nat × Nat × Nat)} (h : s.Kept m c) :
    (s.keep c' reads).Kept m c := h

theorem State.Kept.translate {s : State} {c' : Ctx} {va : Nat} {need : Need} {n : optParam Nat 1} (h : s.Kept m c) :
    (s.translate c' va need n).1.Kept m c := by
  unfold State.translate
  extract_lets
  split
  · exact h.keep
  · exact h.keep.spend

theorem State.Kept.scanOf {s : State} {d frame : Nat} {rd : optParam (Nat → Byte) s.homeByte} (h : s.Kept m c) :
    (s.scanOf d frame rd).1.Kept m c := by
  unfold State.scanOf
  split <;> exact h

theorem State.Kept.askFrame {s : State} {bid idx frame : Nat} {va : W64} {src : Origin} (h : s.Kept m c) :
    (s.askFrame bid idx frame va src).Kept m c := by
  unfold State.askFrame
  split <;> exact h

theorem State.Kept.takeFrame {s : State} {bid idx : Nat} (h : s.Kept m c) :
    (s.takeFrame bid idx).Kept m c := by
  unfold State.takeFrame
  split <;> exact h

theorem State.Kept.fetchSeg {k : Ctx} {d n i : Nat} {a : W64} (h : s.Kept m c) : (s.fetchSeg k d n i a).1.Kept m c := by
  unfold State.fetchSeg
  extract_lets v walked
  split
  · exact h
  split
  · exact h
  split
  · exact h
  have ht := h.translate (c' := k) (va := v) (need := .exec) (n := 1)
  split
  next t x e =>
    replace ht := ht.fst e
    split
    · exact ht
    · exact ht
    split
    · exact ht
    extract_lets line known here rd now keep
    clear_value line
    split
    · exact ht
    split
    next t2 r e2 =>
      have ht2 := ht.scanOf.fst e2
      split
      · exact ht2
      split
      · exact ht2
      cases line with
      | none => exact ht2
      | some l =>
        dsimp only
        split
        · exact ht2
        split
        · exact ht2
        · exact ht2

theorem State.Kept.dropFrame {s : State} {p frame : Nat} (h : s.Kept m c) :
    (s.dropFrame p frame).Kept m c := h

theorem State.Kept.markRead {s : State} {core d bid idx a : Nat} {bytes : List Byte} (h : s.Kept m c) :
    (s.markRead core d bid idx a bytes).Kept m c := by
  unfold State.markRead
  split <;> exact h

theorem State.Kept.fill {s : State} {core d a : Nat} (h : s.Kept m c) :
    (s.fill core d a).Kept m c := by
  unfold State.fill
  split
  · exact h
  extract_lets
  split
  · exact h
  · exact h.setCore

theorem State.Kept.send {s : State} {x : PtStore} {op : Option (Nat × W64)} (h : s.Kept m c) :
    (s.send x op).Kept m c := h

theorem State.Kept.arrive {s : State} {x : PtStore} (h : s.Kept m c) :
    (s.arrive x).Kept m c := by
  unfold State.arrive
  split
  · exact h.send
  · exact h.homeWrite

theorem State.Kept.toDie {s : State} {d : Nat} {x : PtStore} (h : s.Kept m c) :
    (s.toDie d x).Kept m c := by
  unfold State.toDie
  split
  · exact h.homeWrite
  · exact h

theorem State.Kept.coreToDie {s : State} {core i : Nat} (h : s.Kept m c) :
    (s.coreToDie core i).Kept m c := by
  unfold State.coreToDie
  extract_lets
  split
  · exact h
  · exact h.setCore.toDie

theorem State.Kept.dieToHome {s : State} {d i : Nat} (h : s.Kept m c) :
    (s.dieToHome d i).Kept m c := by
  unfold State.dieToHome
  split
  · exact h
  · exact State.Kept.arrive h.onDie

theorem State.Kept.flushCore {s : State} {core : Nat} (h : s.Kept m c) :
    (s.flushCore core).Kept m c := h.foldl (fun _ _ ht => ht.coreToDie)

theorem State.Kept.flushDie {s : State} {d : Nat} (h : s.Kept m c) :
    (s.flushDie d).Kept m c := h.foldl (fun _ _ ht => ht.dieToHome)

theorem State.Kept.flush {s : State} {core : Nat} {a : Scope} (h : s.Kept m c) :
    (s.flush core a).Kept m c := by
  unfold State.flush
  split
  · exact h
  · exact h.flushCore
  · exact h.flushCore.flushDie
  · exact h.flushCore.flushDie

theorem State.Kept.dropLine {s : State} {p : Nat → Bool} {a n : Nat} (h : s.Kept m c) :
    (s.dropLine p a n).Kept m c := h

theorem State.Kept.acquire {s : State} {core : Nat} {a : Scope} (h : s.Kept m c) :
    (s.acquire core a).Kept m c := by
  unfold State.acquire
  split
  · exact h
  · exact h.dropCaches
  · exact h.dropCaches
  · exact h.dropCaches

theorem State.Kept.slotPatch {s : State} {b : Block} {l : Launch} {slot off : Nat} {bytes : List Byte} (h : s.Kept m
    c) :
    (s.slotPatch b l slot off bytes).Kept m c := h.partWrite.onBlock (fun _ hb2 => hb2)

theorem State.Kept.slotSync {s : State} {bid off n : Nat} (h : s.Kept m c) :
    (s.slotSync bid off n).Kept m c := by
  unfold State.slotSync
  split
  · exact h
  split
  · exact h.slotPatch
  · exact h

theorem State.Kept.slotSyncObuf {s : State} {bid q off n : Nat} (h : s.Kept m c) :
    (s.slotSyncObuf bid q off n).Kept m c := by
  unfold State.slotSyncObuf
  split
  · exact h
  split
  · exact h.slotPatch
  · exact h

theorem State.Kept.spadWrite {s : State} {bid off : Nat} {bytes : List Byte} (h : s.Kept m c) :
    (s.spadWrite bid off bytes).Kept m c := h.touchIns.spadPut.slotSync

theorem State.Kept.localWrite {s : State} {bid : Nat} {loc : Loc} {bytes : List Byte} (h : s.Kept m c) :
    (s.localWrite bid loc bytes).Kept m c := by
  unfold State.localWrite
  split
  · exact h.spadWrite
  · exact h.onBlock (fun _ hb => hb)
  · exact h

theorem State.Kept.toCore {s : State} {bid core : Nat} {src : Origin} {x : SqElem} (h : s.Kept m c) :
    (s.toCore bid core src x).Kept m c := by
  unfold State.toCore
  split
  · exact h.setCore
  · exact h.localWrite

theorem Block.Kept.publish {b : Block} {idx : Nat} (hb : b.Kept c) :
    (b.publish idx).Kept c := hb

theorem Block.Kept.fenced {b : Block} {idx : Nat} (hb : b.Kept c) :
    (b.fenced idx).Kept c := hb

theorem Block.Kept.observe {b : Block} {idx : Nat} {p : Await → Bool} (hb : b.Kept c) :
    (b.observe idx p).Kept c := hb

theorem Block.Kept.learn {b : Block} {idx stamp : Nat} (hb : b.Kept c) :
    (b.learn idx stamp).Kept c := by
  unfold Block.learn
  split <;> exact hb

theorem Block.Kept.stampBytes {b : Block} {k : Nat} {loc : Loc} {n : Nat} (hb : b.Kept c) :
    (b.stampBytes k loc n).Kept c := by
  unfold Block.stampBytes
  split <;> exact hb

theorem Block.Kept.noteStamp {b : Block} {idx : Nat} {acq : Bool} {k : Nat} (hb : b.Kept c) :
    (b.noteStamp idx acq k).Kept c := by
  unfold Block.noteStamp
  split
  · exact hb.learn
  · exact hb

theorem Block.Kept.noteRead {b : Block} {idx : Nat} {loc : Loc} {n : Nat} {acq : Bool} {seen : optParam (List SEntry)
    []} (hb : b.Kept c) :
    (b.noteRead idx loc n acq seen).Kept c := hb.noteStamp

theorem Block.Kept.fenceLearn {b : Block} {idx : Nat} (hb : b.Kept c) :
    (b.fenceLearn idx).Kept c := hb.learn

theorem State.Kept.trigger {s : State} {c' : Ctx} {src : Nat} (h : s.Kept m c) :
    (s.trigger c' src).Kept m c := by
  unfold State.trigger
  split <;> exact h

theorem State.Kept.recPut {s : State} {c' : Ctx} {data : Nat} (h : s.Kept m c) :
    (s.recPut c' data).Kept m c := by
  unfold State.recPut
  split
  next hq =>
    split
    · exact ((h.faultPut.done hq).trigger).trigger
    · exact (h.faultPut.done hq).trigger
  · exact h.faultPut

end

end Sys2Proof.Machine
end

