-- ==== Sys2Proof/Proofs/KeptTraps.lean ====
section
/-! PROOF. Records, traps, the run of a word and what completes it keep it. -/

namespace Sys2Proof.Machine

section
variable {m c : Prop} {s : State}

theorem State.Kept.recordIn {k : Ctx} {d : Nat} {w : Option Who} {e : Option (Nat × Ending)} (h : s.Kept m c) :
    (s.recordIn k d w e).1.Kept m c := by
  have hp : Put.Kept m c (if s.pend.any (fun p => p.ctx.desc == k.desc && !p.isReport) then .stuck else s.recPut k d)
    := by
    split
    · trivial
    · exact h.recPut
  unfold State.recordIn
  split
  next t e => exact hp.done e
  · exact h.after hp

theorem State.Kept.report {k : Ctx} {d : Nat} {w : Option Who} (h : s.Kept m c) : (s.report k d w).Kept m c := by
  have hp : Put.Kept m c (if s.pend.any (fun p => p.ctx.mbox == k.mbox && p.isReport) then .stuck else s.reportPut k
    d) := by
    split
    · trivial
    · exact h.reportPut
  unfold State.report
  split
  · exact h
  split
  next t e => exact hp.done e
  extract_lets t u
  have hu : u.Kept m c := h.after hp
  split
  · exact hu.onUnit
  · exact hu

theorem State.Kept.dropCards {old : State} (h : s.Kept m c) : (s.dropCards old).Kept m c := by
  unfold State.dropCards; split <;> exact h

theorem State.Kept.dropBlock {n : Nat} (h : s.Kept m c) : (s.dropBlock n).Kept m c := by
  unfold State.dropBlock
  extract_lets t
  have ht : t.Kept m c := by
    refine State.Kept.onBlock ?_ fun _ _ => All.nil
    split
    · exact h.leave
    · exact h
  exact State.Kept.dropCards (ht.withTraps ht.traps.filter)

theorem State.Kept.killSweep {l : Launch} (h : s.Kept m c) : (s.killSweep l).Kept m c := by
  unfold State.killSweep
  extract_lets bids cut block
  have hblock : ∀ b, b.Kept c → (block b).Kept c := fun b hb =>
    All.filter (All.map (f := cut b) hb fun _ hg => hg)
  exact State.Kept.dropCards ((h.withBlocks (h.blocks.mapIf hblock)).withTraps h.traps.filter)

theorem State.Kept.record {s : State} {l : Launch} {r : Rec} {who : Option Who} (h : s.Kept m c) :
    (s.record l r who).1.Kept m c := by
  unfold State.record
  exact h.recordIn

theorem State.Kept.dropReplicas {s : State} {lid num : Nat} (h : s.Kept m c) :
    (s.dropReplicas lid num).Kept m c := h.foldl (fun _ _ ht => ht.dropBlock)

theorem State.Kept.policy {s : State} {lid num : Nat} (h : s.Kept m c) :
    (s.policy lid num).Kept m c := by
  unfold State.policy
  split
  · exact h
  split
  · extract_lets
    split
    · exact State.Kept.killSweep h.onLaunch
    · exact h
  · extract_lets
    split
    · exact State.Kept.killSweep h.onLaunch
    · exact h
  extract_lets
  split
  · exact State.Kept.killSweep h.onLaunch
  · exact h

theorem State.Kept.endBlock {s : State} {bid : Nat} {how : Ending} (h : s.Kept m c) :
    (s.endBlock bid how).Kept m c := by
  unfold State.endBlock
  split
  · exact h
  extract_lets
  split
  · exact h.dropReplicas.policy
  · exact h.dropReplicas.onLaunch

theorem Block.Kept.stopped {b : Block} (hb : b.Kept c) :
    (b.stopped).Kept c := hb.map (fun _ hg => hg)

theorem State.Kept.endWith {s : State} {b : Block} {r : Rec} {how : Ending} (h : s.Kept m c) :
    (s.endWith b r how).Kept m c := by
  unfold State.endWith
  split
  · exact h
  split
  next hq2 =>
    have ht := h.recordIn.fst hq2
    split
    · exact ht.endBlock
    · exact (ht.withBlocks (ht.blocks.mapIf (fun _ hb2 => hb2.stopped))).withTraps (ht.traps.mapIf (fun _ hx =>
      hx.map (fun _ hg => hg)))

theorem State.Kept.endFault {s : State} {b : Block} {r : Rec} (h : s.Kept m c) :
    (s.endFault b r).Kept m c := h.endWith

theorem State.Kept.storageEnd {s : State} {b : Block} {r : Rec} (h : s.Kept m c) :
    (s.storageEnd b r).Kept m c := by
  unfold State.storageEnd
  split
  · exact h
  · exact h.endWith

theorem State.Kept.groupFault {s : State} {e : Env} {kind level acc word addr : Nat} (h : s.Kept m c) :
    (s.groupFault e kind level acc word addr).Kept m c := by
  unfold State.groupFault
  split
  · exact h.endFault
  · exact h

theorem State.Kept.groupFault' {s : State} {e : Env} {kind acc : Nat} {addr : W64} {ps : List Nat} (h : s.Kept m c) :
    (s.groupFault' e kind acc addr ps).Kept m c := by
  unfold State.groupFault'
  split
  · exact h.endFault
  · exact h

theorem State.Kept.abandon {s : State} {c' : Nat} (h : s.Kept m c) :
    (s.abandon c').Kept m c := by
  unfold State.abandon
  split
  · exact h
  refine State.Kept.onCc ?_ (fun _ hk2 => ⟨hk2.1, fun _ hx => nomatch hx⟩)
  split
  · exact h.queueError
  · exact h

theorem Grp.Kept.handlerGrp {g : Grp} {u : ISet} {gid : Nat} {t : TrapReq} {pc : W64} {code : List W32} {fpctl :
    BitVec 3} {nonce : Nat} :
    (handlerGrp g u gid t pc code fpctl nonce).Kept c := by
  unfold Machine.handlerGrp
  exact Grp.Kept.foldl (All.ofMap (fun _ _ => Nat.zero_le _)) (fun _ _ hg2 => hg2.pundef)

theorem Grp.Kept.withStq {g : Grp} {q : List SqEntry} (hg : g.Kept c) : Grp.Kept c { g with stq := q } := hg

theorem State.Kept.enterTrap {e : Env} {t : TrapReq} (h : s.Kept m c) : (s.enterTrap e t).Kept m c := by
  unfold State.enterTrap
  split
  · split
    · exact h.abandon
    · exact h
  next k _ =>
    have ht := h.fetchSeg (k := k) (d := e.die) (n := e.bid) (i := e.idx e.first) (a := k.trapv)
    extract_lets i
    split
    next u f hu =>
      replace ht := ht.fst hu
      split
      · have h1 := ht.takeFrame (bid := e.bid) (idx := i)
        generalize u.takeFrame e.bid i = v at h1
        have h2 := h1.fresh.fresh
        extract_lets
        split
        next a v2 e2 =>
          split
          next b v3 e3 =>
            obtain rfl := (Prod.mk.inj e2).2
            obtain rfl := (Prod.mk.inj e3).2
            extract_lets mine hd v4 tc
            have h4 : v4.Kept m c := State.Kept.onGrp h2 fun _ hg => hg
            have hhd : hd.Kept c := Grp.Kept.withStq Grp.Kept.handlerGrp
            clear_value hd
            have htc : tc.Kept c := All.one hhd
            clear_value v4 tc
            split
            · exact h4.onCc fun k hk => hk.withTrap htc
            · exact State.Kept.withTraps h4.onUnit (h4.traps.append (All.one htc))
      · exact ht.onUnit
      · exact ht.askFrame.onUnit
      · split
        · exact ht.abandon
        · exact ht.groupFault

theorem Grp.Kept.landed {g : Grp} {u : ISet} (hg : g.Kept c) : (g.landed u).Kept c := hg.onLanes fun _ hl => hl

theorem State.Kept.whole {e : Env} (h : s.Kept m c) : (s.whole e).Kept m c := by
  unfold State.whole
  split
  · exact h.onUnit
  · exact h

theorem State.Kept.raise {e : Env} {t : TrapReq} (h : s.Kept m c) : (s.raise e t).Kept m c := by
  unfold State.raise
  extract_lets u u' held
  have hu : u.Kept m c := h.whole
  have hu' : u'.Kept m c := hu.onGrp fun _ hg => hg.landed
  split
  · split
    · exact hu'.onUnit
    · exact hu'.enterTrap
  · exact hu.groupFault
  · split
    · exact hu'.onUnit
    · exact hu'.enterTrap
  · exact hu.abandon

theorem State.Kept.place {l : Launch} {n i : Nat} {f : Nat → Bool → Nat} {gs : List Grp} (hgs : All (Grp.Kept c) gs) :
    All (Grp.Kept c) (s.place l n i f gs) := by
  unfold State.place
  exact All.reverse (hgs.foldl (r := fun acc : List Grp × List (Nat × Bool × Nat) => All (Grp.Kept c) acc.1) All.nil
    fun _ _ hacc hg => All.cons hg hacc)

theorem State.Kept.trapWord {s : State} {e : Env} {cause : Nat} {tdata : W64} {count : Nat} (h : s.Kept m c) :
    (s.trapWord e cause tdata count).Kept m c := h.raise

theorem State.Kept.dataFault {s : State} {e : Env} {kind level acc : Nat} {addr : W64} {ps : List Nat} (h : s.Kept m
    c) :
    (s.dataFault e kind level acc addr ps).Kept m c := by
  unfold State.dataFault
  split
  · split
    · extract_lets
      split
      · exact h.whole.storageEnd
      · exact h.whole
    split
    · extract_lets
      split
      · exact h.whole.endFault
      · exact h.whole
    extract_lets
    split
    · exact h.whole.record.onUnit
    · exact h.whole
  · split
    · exact h.whole.groupFault'
    split
    · extract_lets
      split
      · exact h.whole.storageEnd
      · exact h.whole
    · exact h.whole.trapWord
  · exact h.whole.trapWord

theorem Grp.Kept.undefView {e : Env} {sh : Shape} {nonce : Nat} (he : e.grp.Kept c) :
    (e.undefView sh nonce).Kept c := by
  unfold Env.undefView
  refine Grp.Kept.foldl (Grp.Kept.foldl (he.foldl (fun g y hg => ?_)) (fun g y hg => ?_)) (fun g y hg => ?_)
  · extract_lets
    dsimp only
    split
    · exact hg
    · exact hg.undef
  · extract_lets
    dsimp only
    split
    · exact hg
    · exact hg.undef
  · extract_lets
    split
    · exact hg
    · exact hg.pundef

theorem State.Kept.prepare {s : State} {e : Env} {sh : Shape} (h : s.Kept m c) :
    (s.prepare e sh).1.Kept m c := by
  unfold State.prepare
  split <;> exact h

theorem LaneSt.Kept.flightsAfter {sh : Shape} {l : LaneSt} (hl : l.Kept c) :
    (flightsAfter sh l).Kept c := hl

theorem Grp.Kept.spoil {e : Env} {old : Grp} {sh : Shape} {nonce : Nat} (he : e.grp.Kept c) :
    (e.spoil old sh nonce).Kept c := by
  unfold Env.spoil
  split
  · exact he
  refine Grp.Kept.foldl (he.foldl (fun g y3 hg => ?_)) (fun g y3 hg => ?_)
  · extract_lets
    split
    · exact hg
    · exact hg.undef
  · extract_lets
    split
    · exact hg
    · exact hg.pundef

theorem State.Kept.indexWritten {s : State} {bid : Nat} {is ds : List Nat} (h : s.Kept m c) :
    (s.indexWritten bid is ds).Kept m c := h.disturb

theorem State.Kept.regsWritten {s : State} {e : Env} {ds : List Nat} (h : s.Kept m c) :
    (s.regsWritten e ds).Kept m c := by
  unfold State.regsWritten
  split
  · exact h.indexWritten
  · exact h

theorem State.Kept.finish {s : State} {e : Env} {old : Grp} {sh : Shape} (h : s.Kept m c) (he : e.grp.Kept c) :
    (s.finish e old sh).Kept m c := by
  unfold State.finish
  refine State.Kept.regsWritten (State.Kept.putGrps ?_ (All.one (Grp.Kept.setUnit (Grp.Kept.onLanes ?_ (fun _ hl =>
    hl.flightsAfter)))))
  · split <;> exact h
  · split
    · exact he.spoil
    · exact he

theorem State.Kept.holdNew {s : State} {e : Env} {gs : List Grp} (hgs : All (Grp.Kept c) gs) :
    All (Grp.Kept c) (s.holdNew e gs) := by
  unfold State.holdNew
  split
  · exact State.Kept.place hgs
  · exact hgs

theorem State.Kept.expandGrp {s : State} {e : Env} (h : s.Kept m c) (he : e.grp.Kept c) :
    (s.expandGrp e).Kept m c := by
  unfold State.expandGrp
  exact State.Kept.putGrps h.fresh (State.Kept.holdNew (All.ofMap (fun _ => he.sheaf)))

theorem State.Kept.splitSpan {s : State} {e : Env} {k : Nat} {below above : ISet} (h : s.Kept m c) (he : e.grp.Kept c) :
    (s.splitSpan e k below above).Kept m c := by
  unfold State.splitSpan
  exact State.Kept.putGrps (State.Kept.fresh (State.Kept.fresh h.fresh)) (State.Kept.holdNew (All.cons he.part
    (All.one he.part)))

theorem State.Kept.divide {s : State} {e : Env} {us : List ISet} (h : s.Kept m c) (he : e.grp.Kept c) :
    (s.divide e us).Kept m c := by
  unfold State.divide
  split
  · exact h.putGrps (All.one he.setUnit)
  · exact State.Kept.putGrps h.fresh (All.one he)

theorem Env.Kept.prepare {e : Env} {sh : Shape} (he : e.grp.Kept c) : (s.prepare e sh).2.grp.Kept c := by
  have hg : (sh.rel.foldl (fun (g : Grp) r => g.release e.unit r) e.grp).Kept c := he.foldl fun _ _ hg => hg.release
  unfold State.prepare
  extract_lets g
  split
  · exact hg
  · exact hg

theorem Env.Kept.prepared {e e1 : Env} {s1 : State} {sh : Shape} (he : e.grp.Kept c) (hp : s.prepare e sh = (s1, e1)) :
    e1.grp.Kept c := by
  have h := Env.Kept.prepare (s := s) (sh := sh) he
  rw [hp] at h; exact h

/-- What a word's own meaning keeps, its run keeps. -/
theorem State.Kept.runWord {sh : Env → Shape} {f : State → Env → Eff} (h : s.Kept m c)
    (hf : ∀ t e, t.Kept m c → e.grp.Kept c → (f t e).Kept m c) : NextKept m c (s.runWord sh f) := by
  unfold State.runWord
  split
  · trivial
  next e hq =>
    have he := h.env hq
    extract_lets sh'
    split
    · exact h.trapWord
    · exact h
    · exact h.expandGrp he
    split
    next s1 e1 hp =>
      have h1 : s1.Kept m c := h.prepare.fst hp
      have he1 : e1.grp.Kept c := Env.Kept.prepared he hp
      have hk := hf s1 e1 h1 he1
      split
      next t e2 hd =>
        rw [hd] at hk
        obtain ⟨ht, he2⟩ := hk
        split
        · exact h.expandGrp he
        · exact ht.finish he2
      next t hd => rw [hd] at hk; exact hk
      · exact h.trapWord
      next hd => rw [hd] at hk; exact State.Kept.dataFault hk
      next hd => rw [hd] at hk; exact State.Kept.onUnit hk
      · exact h
      · exact h.expandGrp he

theorem Env.Kept.write {e : Env} {d : Nat} {r : Res} (he : e.grp.Kept c) :
    (e.write d r).grp.Kept c := he.write

theorem Env.Kept.pwrite {e : Env} {p : Nat} {r : PRes} (he : e.grp.Kept c) :
    (e.pwrite p r).grp.Kept c := he.pwrite

theorem State.Kept.put {e : Env} {s : State} {d : Nat} {a : Option Res} (he : e.grp.Kept c) (h : s.Kept m c) :
    (e.put s d a).Kept m c := by
  unfold Env.put
  split
  · exact ⟨h, Env.Kept.write he⟩
  · trivial

theorem State.Kept.fr2 {s : State} {op : Op2} {d a b : Nat} {ka kb wide bw : Bool} (h : s.Kept m c) :
    NextKept m c (s.fr2 op d a b ka kb wide bw) := h.runWord (fun _ _ ht hg => State.Kept.put hg ht)

theorem State.Kept.fr1 {s : State} {op : Op2} {k d a : Nat} {ka wide : Bool} (h : s.Kept m c) :
    NextKept m c (s.fr1 op k d a ka wide) := h.runWord (fun _ _ ht hg => State.Kept.put hg ht)

theorem State.Kept.fi {s : State} {op : Op2} {d a : Nat} {imm : BitVec 12} {wide : Bool} (h : s.Kept m c) :
    NextKept m c (s.fi op d a imm wide) := by
  unfold State.fi
  exact h.runWord (fun _ _ ht hg => State.Kept.put hg ht)

theorem State.Kept.lane {s : State} {op : LaneOp} {d : Nat} {srcs : List (Nat × Bool)} {rel : List Nat} {st : BitVec
    2} {f : Env → BitVec 3 → List Nat → Nat} (h : s.Kept m c) :
    NextKept m c (s.lane op d srcs rel st f) := h.runWord (fun _ _ ht hg => State.Kept.put hg ht)

theorem State.Kept.pput {e : Env} {s : State} {p : Nat} {a : Option PRes} (he : e.grp.Kept c) (h : s.Kept m c) :
    (e.pput s p a).Kept m c := by
  unfold Env.pput
  split
  · exact ⟨h, Env.Kept.pwrite he⟩
  · trivial

theorem State.Kept.compare {s : State} {c' : Cond} {signed wide : Bool} {pd ps a : Nat} {b : Option Nat} {k : Nat}
    {how : Combine} (h : s.Kept m c) :
    NextKept m c (s.compare c' signed wide pd ps a b k how) := h.runWord (fun _ _ ht hg => State.Kept.pput hg ht)

theorem State.Kept.plogic {s : State} {pd : Nat} {ps : List Nat} {f : List Bool → Bool} (h : s.Kept m c) :
    NextKept m c (s.plogic pd ps f) := h.runWord (fun _ _ ht hg => State.Kept.pput hg ht)

theorem State.Kept.select {s : State} {d a b p : Nat} {sense wide : Bool} (h : s.Kept m c) :
    NextKept m c (s.select d a b p sense wide) := h.runWord (fun _ _ ht hg => State.Kept.put hg ht)

theorem Block.Kept.onBar {b : Block} {n : Nat} {f : Bar → Bar} (hb : b.Kept c) :
    (b.onBar n f).Kept c := hb

theorem Block.Kept.releaseBar {b : Block} {n : Nat} (hb : b.Kept c) :
    (b.releaseBar n).Kept c := by
  unfold Block.releaseBar
  split
  · exact hb
  · exact hb.onBar

theorem Block.Kept.learnBar {b : Block} {g : Grp} {u : ISet} (hb : b.Kept c) :
    (b.learnBar g u).Kept c := by
  unfold Block.learnBar
  split
  · split
    · exact hb.foldl (fun _ _ hb2 => hb2.learn)
    · exact hb
  · exact hb

end

end Sys2Proof.Machine
end

