-- ==== Sys2Proof/Proofs/KeptControl.lean ====
section
/-! PROOF. Handlers, folds, headers, terminators and the system words keep it. -/

namespace Sys2Proof.Machine

section
variable {m c : Prop} {s : State}

theorem State.Kept.barriers {n : Nat} (h : s.Kept m c) : (s.barriers n).Kept m c := by
  unfold State.barriers
  split
  · exact h
  next b hb =>
    extract_lets b1 hs b2 pass s1
    have h1 : b1.Kept c := (h.block hb).foldl fun _ _ hb => hb.releaseBar
    have h2 : b2.Kept c := h1.foldl fun _ _ hb => hb.foldl fun _ _ hb => hb.learnBar
    clear_value b2
    have h3 : s1.Kept m c := h.setBlock (All.map (f := pass) h2 fun _ hg => hg)
    exact h3.withTraps (h3.traps.mapIf fun _ hx => hx.map fun _ hg => hg)

theorem State.Kept.pathStep {e : Env} {ps : List Nat} {a : W64} (h : s.Kept m c) : (s.pathStep e ps a).Kept m c := by
  unfold State.pathStep
  split
  · exact h.onBlock fun _ hb => hb
  · exact h

theorem State.Kept.traceStep {e : Env} {ps : List Nat} {a : W64} (h : s.Kept m c) : (s.traceStep e ps a).Kept m c := by
  unfold State.traceStep
  split
  · split
    · exact h
    split
    · exact h
    split
    · exact State.Kept.onBlock h.partWrite fun _ hb => hb
    split
    · exact h
    · exact State.Kept.report (h.onBlock fun _ hb => hb)
  · exact h

theorem State.Kept.termStep {e : Env} {ps : List Nat} {a : W64} (h : s.Kept m c) : (s.termStep e ps a).Kept m c :=
  h.pathStep.traceStep

theorem State.Kept.exitUnit {w : Who} {n : Nat} {u : ISet} {a : W64} (h : s.Kept m c) : (s.exitUnit w n u a).Kept m c
    := by
  unfold State.exitUnit
  extract_lets s1 s2
  have h1 : s1.Kept m c := h.onGrp fun _ hg => hg
  have h2 : s2.Kept m c := h1.onBlock fun _ hb => All.filter hb
  exact h2.barriers

theorem State.Kept.expandServed {b : Block} {g : Grp} {u : ISet} (h : s.Kept m c) (hg : g.Kept c) :
    (s.expandServed b g u).Kept m c :=
  State.Kept.putGrps h.fresh (All.ofMap fun _ => hg.sheaf)

theorem State.Kept.resumeUnit {t : TrapCtx} {a : W64} {g : Grp} {u : ISet} (h : s.Kept m c) :
    (s.resumeUnit t a g u).Kept m c := by
  unfold State.resumeUnit
  extract_lets w
  split
  · exact h
  next k hk =>
    have he := h.env hk
    extract_lets ends gone src s1 stays
    have h1 : s1.Kept m c := by
      unfold s1
      split
      · exact h
      · exact h.termStep
    split
    · exact h1.exitUnit
    split
    next n s2 e2 =>
      have h2 : s2.Kept m c := h1.fresh.snd e2
      extract_lets us units s3
      have h3 : s3.Kept m c := h2.putGrps (All.one he)
      split
      · exact h3
      · exact State.Kept.barriers (h3.onBlock fun _ hb => hb)

theorem Block.Kept.served {b : Block} {n : Nat} (hb : b.Kept c) : All (fun x => x.1.Kept c) (b.served n) :=
  hb.flatMap fun _ hg => All.ofMap fun _ => hg

theorem State.Kept.resumeAll {t : TrapCtx} {b : Block} {a : W64} (h : s.Kept m c) (hb : b.Kept c) :
    (s.resumeAll t b a).Kept m c := by
  unfold State.resumeAll
  extract_lets left s1 served own s2
  have h1 : s1.Kept m c := by
    refine (hb.served (n := t.tid)).foldl (r := State.Kept m c) h fun v x hv hx => ?_
    split
    · exact hv.expandServed hx
    · exact hv
  have h2 : s2.Kept m c := h1.onBlock fun _ hb => hb.map fun _ hg => hg
  exact h2.foldl fun _ _ hv => hv.resumeUnit

theorem State.Kept.passStep {s : State} {tid bid : Nat} {h' : ISet} (h : s.Kept m c) :
    (s.passStep tid bid h').Kept m c := by
  unfold State.passStep
  split
  · exact h.onBlock (fun _ hb => hb.map (fun _ hg => hg))
  · exact h

theorem State.Kept.endHandler {s : State} {e : Env} {how : HandEnd} (h : s.Kept m c) :
    (s.endHandler e how).Kept m c := by
  unfold State.endHandler
  split
  · extract_lets
    split
    next hq2 hq3 =>
      have hx := h.passStep.trap hq2
      have hb := h.passStep.block hq3
      extract_lets
      split
      · refine h.passStep.withTraps (h.passStep.traps.mapIf (fun _ _ => (hx.map (fun _ hg => ?_)).filter))
        split <;> exact hg
      · exact State.Kept.resumeAll (h.passStep.withTraps h.passStep.traps.filter) hb
    · exact h.passStep
  · split
    · exact h
    split
    · split
      · exact h.abandon
      · exact h.onCc (fun _ hk2 => ⟨hk2.1, fun _ hx => nomatch hx⟩)
    · exact h
  · exact h

theorem State.Kept.groupReport {s : State} {e : Env} {pc : W64} {addr kind flags : Nat} {ps : List Nat} (h : s.Kept m
    c) :
    (s.groupReport e pc addr kind flags ps).Kept m c := by
  unfold State.groupReport
  split
  · exact h.report
  · exact h

theorem Grp.Kept.lane {g : Grp} {p : Nat} (hg : g.Kept c) : (g.lane p).Kept c := by
  unfold Grp.lane
  generalize hl : g.lanes.find? _ = o
  cases o with
  | none => exact fun _ => Nat.zero_le 32
  | some l => exact hg.find hl

theorem Grp.Kept.mergeSheaf {a b : Grp} (ha : a.Kept c) (hb : b.Kept c) : (mergeSheaf a b).Kept c :=
  All.sortKey (All.append ha hb)

theorem Grp.Kept.enterSeg {v lp : Nat} {g : Grp} {u : ISet} (hg : g.Kept c) : (g.enterSeg v lp u).Kept c :=
  Grp.Kept.foldl (hg.foldl fun _ _ hg => hg.release) fun _ _ hg => hg.prelease

theorem Grp.Kept.joinUnits {v lp n : Nat} {halt : Bool} {g : Grp} (hg : g.Kept c) : (joinUnits v lp n halt g).Kept c
    := by
  unfold Machine.joinUnits
  split
  · exact hg
  next u r _ =>
    extract_lets mask one one' g'
    have hg' : g'.Kept c := hg
    split
    · exact hg'.landed
    · exact hg'.enterSeg.setUnit

theorem Grp.Kept.toSpan {v lp : Nat} {g : Grp} (hg : g.Kept c) : (toSpan v lp g).Kept c := by
  unfold Machine.toSpan
  split
  next a n u _ _ =>
    extract_lets rs okReg cutOfPred okPred first same
    split
    · exact All.one (hg.lane (p := a))
    · exact hg
  · exact hg

theorem Grp.Kept.mergeSpan {v lp : Nat} {a b g : Grp} (ha : a.Kept c) (hg : mergeSpan v lp a b = some g) : g.Kept c
    := by
  unfold Machine.mergeSpan at hg
  split at hg
  next u w x y _ _ hx _ =>
    extract_lets n rs okReg okPred at hg
    split at hg
    · obtain rfl := Option.some.inj hg
      exact All.one (ha x (hx ▸ List.mem_cons_self))
    · cases hg
  · cases hg

theorem All.mergeSpans {v lp : Nat} {l : List Grp} (hl : All (Grp.Kept c) l) : All (Grp.Kept c) (mergeSpans v lp l)
    := by
  unfold Machine.mergeSpans
  split
  · exact All.nil
  next a r =>
    extract_lets step x
    have hr : All (Grp.Kept c) r := fun y hy => hl y (List.mem_cons_of_mem _ hy)
    have hx : All (Grp.Kept c) (x.1 :: x.2) := by
      refine hr.foldl (r := fun x : Grp × List Grp => All (Grp.Kept c) (x.1 :: x.2)) (All.one (hl a
        List.mem_cons_self)) ?_
      intro acc b hacc hb
      have h1 : acc.1.Kept c := hacc _ List.mem_cons_self
      have h2 : All (Grp.Kept c) acc.2 := fun y hy => hacc y (List.mem_cons_of_mem _ hy)
      unfold step
      split
      next g hg => exact All.cons (h1.mergeSpan hg) h2
      · exact All.cons hb (All.cons h1 h2)
    exact hx.reverse

theorem All.insertSheaf {g : Grp} {l : List Grp} (hl : All (Grp.Kept c) l) (hg : g.Kept c) :
    All (Grp.Kept c) (insertSheaf g l) := by
  induction l with
  | nil => exact All.one hg
  | cons k r ih =>
    have hk : k.Kept c := hl k List.mem_cons_self
    have hr : All (Grp.Kept c) r := fun y hy => hl y (List.mem_cons_of_mem _ hy)
    unfold Machine.insertSheaf
    split
    · exact All.cons (hk.mergeSheaf hg) hr
    · exact All.cons hk (ih hr)

theorem Grp.Kept.recompress32 {lone : Option Nat} {g : Grp} {r : Nat} (hg : g.Kept c) :
    (recompress32 lone g r).Kept c := by
  unfold Machine.recompress32
  extract_lets
  split
  · split
    · exact hg
    split
    · exact hg.setCell
    · exact hg
  · exact hg

theorem Grp.Kept.recompress64 {g : Grp} {r : Nat} (hg : g.Kept c) :
    (recompress64 g r).Kept c := by
  unfold Machine.recompress64
  extract_lets
  split
  · split
    · exact hg
    split
    · exact hg.setCell.setCell
    · exact hg
  · exact hg

theorem Grp.Kept.unmark {g : Grp} {r : Nat} (hg : g.Kept c) :
    (unmark g r).Kept c := by
  unfold Machine.unmark
  split
  · exact hg
  · exact hg.setCell
  · exact hg

theorem Grp.Kept.recompress {v : Nat} {g : Grp} (hg : g.Kept c) :
    (recompress v g).Kept c := ((hg.foldl (fun _ _ hg2 => hg2.unmark)).foldl (fun _ _ hg2 => hg2.recompress64)).foldl
      (fun _ _ hg2 => hg2.recompress32)

theorem Grp.Kept.dropMate {v : Nat} {g : Grp} (hg : g.Kept c) :
    (Grp.dropMate v g).Kept c := by
  unfold Grp.dropMate
  split
  · split
    · exact hg.setCell.setCell
    · exact hg.unpair
  · exact hg

theorem All.closeNode {v lp n : Nat} {halt : Bool} {l : List Grp} (hl : All (Grp.Kept c) l) :
    All (Grp.Kept c) (closeNode v lp n halt l) := by
  unfold Machine.closeNode
  extract_lets inX mine sheaves sheaves' spans all
  have hm : All (Grp.Kept c) mine := hl.filter.map fun _ hg => hg.dropMate
  have hs : All (Grp.Kept c) sheaves := hm.filter.foldl (r := All (Grp.Kept c)) All.nil fun _ _ hl hg =>
    hl.insertSheaf hg
  have hs' : All (Grp.Kept c) sheaves' := hs.map fun _ hg => hg.joinUnits.recompress.toSpan
  have hp : All (Grp.Kept c) spans := hm.filter.map fun _ hg => hg.joinUnits
  have ha : All (Grp.Kept c) all := hs'.append hp
  exact (hl.filter.append ha.filter).append ha.filter.sortKey.mergeSpans

theorem State.Kept.unitEnv {s : State} {b : Block} {l : Launch} {g : Grp} {u : ISet} (hg : g.Kept c) :
    (s.unitEnv b l g u).grp.Kept c := by
  unfold State.unitEnv
  exact State.Kept.kernEnv hg

theorem State.Kept.passReports {s : State} {b : Block} {l : Launch} {seg : W64} {was : List Grp} (h : s.Kept m c) :
    (s.passReports b l seg was).Kept m c := by
  unfold State.passReports
  refine State.Kept.foldl ?_ (fun _ _ ht => ?_)
  · split
    · exact h
    · exact h.trigger
  · split
    · exact ht
    · exact ht.groupReport

theorem State.Kept.execFoldClose {n i : Nat} (h : s.Kept m c) : NextKept m c (execFoldClose n i s) := by
  unfold Machine.execFoldClose
  extract_lets run
  have hrun : ∀ halt gs x, All (Grp.Kept c) gs → run halt gs = some x → All (Grp.Kept c) x.2 := by
    intro halt gs x hgs hx
    unfold run at hx
    extract_lets busy at hx
    split at hx
    · split at hx
      · obtain rfl := Option.some.inj hx
        exact hgs.closeNode
      · cases hx
    · cases hx
  clear_value run
  refine State.Kept.next ?_
  split
  · exact h
  next b hb =>
    have hbk := h.block hb
    split
    · exact h
    extract_lets halt
    split
    next pc gs l hr hl =>
      exact State.Kept.barriers (State.Kept.passReports (h.setBlock (hrun _ _ _ hbk hr)))
    · refine h.withTraps (h.traps.map fun t ht => ?_)
      split
      · show All (Grp.Kept c) _
        dsimp only
        generalize hr : run (fun _ => false) t.groups = o
        cases o with
        | none => exact ht
        | some x => exact hrun _ _ _ ht hr
      · exact ht

theorem State.Kept.execHeldThreadPlacement {bid gid : Nat} {s : State} (h : s.Kept m c) :
    NextKept m c (execHeldThreadPlacement bid gid s) := by
  unfold Machine.execHeldThreadPlacement
  split
  · exact h
  split
  · extract_lets
    split
    · exact h
    refine h.withBlocks (h.blocks.map (fun _ hb2 => hb2.map (fun _ hg => ?_)))
    split
    · exact hg
    split <;> exact hg
  · exact h

theorem State.Kept.execConvergenceDeadlock {bid : Nat} {s : State} (h : s.Kept m c) :
    NextKept m c (execConvergenceDeadlock bid s) := by
  unfold Machine.execConvergenceDeadlock
  split
  · exact h
  split
  · exact h
  split
  · exact h
  extract_lets
  split
  · exact (h.foldl (fun _ _ ht => ht.record)).endFault
  · exact h.foldl (fun _ _ ht => ht.record)

theorem Grp.Kept.stepped {e : Env} {sh : Shape} (he : e.grp.Kept c) :
    (e.stepped sh).Kept c := he.onLanes (fun _ hl => hl.flightsAfter)

theorem State.Kept.goAll {s : State} {e : Env} {succ : W64} (h : s.Kept m c) (he : e.grp.Kept c) :
    (s.goAll e succ).Kept m c := (h.putGrps (All.one he.stepped.setUnit)).termStep

theorem State.Kept.goEach {s : State} {e : Env} {f : Nat → W64} (h : s.Kept m c) (he : e.grp.Kept c) :
    (s.goEach e f).Kept m c := (h.divide he.stepped).foldl (fun _ _ ht => ht.termStep)

theorem State.Kept.execSegh {n : BitVec 10} {f : Bool} {g : BitVec 6} {p : BitVec 7} {r : Role} (h : s.Kept m c) :
    NextKept m c (Machine.execSegh n f g p r s) := by
  unfold Machine.execSegh
  split
  · trivial
  next e he =>
    extract_lets waits t1 t2 t3 need
    have h2 : t2.Kept m c := State.Kept.onUnit (h.onGrp fun _ hg => hg.landed)
    have h3 : t3.Kept m c := by
      unfold t3
      split
      · exact h2.trigger
      · exact h2
    clear_value waits t3 need
    split
    · split
      · exact h
      · refine State.Kept.next ?_
        split
        · exact h3
        · exact h3.groupReport
    split
    · exact h.trapWord
    split
    · exact h.onUnit
    · exact h.putGrps (All.one (h.env he).enterSeg.setUnit)

theorem State.Kept.execRunh {n : BitVec 5} {p : PredN} {b : Bool} {x : BitVec 8} (h : s.Kept m c) :
    NextKept m c (Machine.execRunh n p b x s) := by
  unfold Machine.execRunh
  split
  · trivial
  next e he =>
    have hg := h.env he
    extract_lets n p run skip sh
    have hput : ∀ (t : State) (k : Env) (u : ISet),
      t.Kept m c → k.grp.Kept c → (t.putGrps k.who [k.grp.setUnit u]).Kept m c :=
      fun _ _ _ ht hk => ht.putGrps (All.one hk.setUnit)
    split
    · exact hput s e run h hg
    split
    · exact (hput s e run h hg).trapWord
    · exact h
    · exact h.expandGrp hg
    split
    next t k hp =>
      have ht : t.Kept m c := h.prepare.fst hp
      have hk : k.grp.Kept c := Env.Kept.prepared hg hp
      extract_lets q
      split
      · split
        · exact hput t k _ ht hk
        · exact hput t k _ ht hk
        · exact ht.splitSpan hk
        · exact ht.splitSpan hk
      · split
        · exact hput t k _ ht hk
        split
        · exact hput t k _ ht hk
        · exact ht.divide hk

theorem State.Kept.execNext {off : BitVec 24} {s : State} (h : s.Kept m c) :
    NextKept m c (execNext off s) := h.runWord (fun _ _ ht hg => ht.goAll hg)

theorem State.Kept.execYield {off : BitVec 24} {s : State} (h : s.Kept m c) :
    NextKept m c (execYield off s) := h.runWord (fun _ _ ht hg => ht.goAll hg)

theorem State.Kept.execBr {p : PredN} {sense : Bool} {off : BitVec 20} {s : State} (h : s.Kept m c) :
    NextKept m c (execBr p sense off s) := by
  unfold Machine.execBr
  refine h.runWord (fun _ _ ht hg => ?_)
  split
  · split
    · exact ht.goAll hg
    · exact ht.goAll hg
    · exact ((ht.splitSpan hg.stepped).termStep).termStep
    · exact ((ht.splitSpan hg.stepped).termStep).termStep
  · exact ht.goEach hg

theorem State.Kept.execBrx {a : RegN} {s : State} (h : s.Kept m c) :
    NextKept m c (execBrx a s) := by
  unfold Machine.execBrx
  refine h.runWord (fun _ _ ht hg => ?_)
  split
  · split
    · exact ht.goAll hg
    · trivial
  · exact ht.goEach hg

theorem bit_lt {m : W32} {i : Nat} (h : bit m.toNat i = true) : i < 32 := by
  by_contra hi
  have : m.toNat < 2 ^ i := Nat.lt_of_lt_of_le m.isLt (Nat.pow_le_pow_right (by decide) (Nat.le_of_not_lt hi))
  simp [bit, Nat.div_eq_of_lt this] at h

/-- Where no acting thread's return stack is full, each holds fewer than 32 entries. -/
theorem Env.short_of_full {e : Env} (h : e.full = 0) {l : LaneSt} (hl : l ∈ e.grp.lanes)
    (hb : bit e.unit.lanes.toNat l.lane = true) : l.stack.length < 32 := by
  by_contra hs
  have hm : bit e.full.toNat l.lane = true := by
    unfold Env.full
    rw [bit_maskOf (bit_lt hb), decide_eq_true_eq]
    refine List.mem_map.mpr ⟨l, List.mem_filter.mpr ⟨hl, ?_⟩, rfl⟩
    rw [hb, Bool.true_and, decide_eq_true_eq]
    omega
  rw [h] at hm
  simp [bit] at hm

theorem Env.Kept.pushRet {e : Env} (he : e.grp.Kept c) (hf : e.full = 0) : e.pushRet.grp.Kept c := by
  intro l hl
  obtain ⟨k, hk, rfl⟩ := List.mem_map.mp hl
  split
  next hb => exact fun _ => Env.short_of_full hf hk hb
  · exact he k hk

theorem State.Kept.execCall {off : BitVec 24} (h : s.Kept m c) : NextKept m c (execCall off s) := by
  refine h.runWord fun t e ht he => ?_
  split
  next hf => exact State.Kept.goAll ht (Env.Kept.pushRet he hf)
  · trivial

theorem State.Kept.execCallx {a : RegN} (h : s.Kept m c) : NextKept m c (execCallx a s) := by
  refine h.runWord fun t e ht he => ?_
  extract_lets f
  split
  · trivial
  split
  · trivial
  next hf =>
    have hp := Env.Kept.pushRet he (not_not.mp hf)
    split
    · exact ht.goAll hp
    · exact ht.goEach hp

theorem LaneSt.Kept.pop {l : LaneSt} (hl : l.Kept c) : LaneSt.Kept c { l with stack := l.stack.drop 1 } := by
  intro hc
  have := hl hc
  simp only [List.length_drop]
  omega

theorem State.Kept.execRet (h : s.Kept m c) : NextKept m c (execRet s) := by
  refine h.runWord fun t e ht he => ?_
  extract_lets empty f e'
  have he' : e'.grp.Kept c := he.onLanes fun _ hl => hl.pop
  split
  · trivial
  split
  · exact ht.goAll he'
  · exact ht.goEach he'

theorem State.Kept.execSwitch {a : RegN} {entriesM1 : BitVec 10} {s : State} (h : s.Kept m c) :
    NextKept m c (execSwitch a entriesM1 s) := by
  unfold Machine.execSwitch
  refine h.runWord (fun _ _ ht hg => ?_)
  split
  · split
    · exact ht.goAll hg
    · trivial
  · exact ht.goEach hg

theorem State.Kept.commandDone {s : State} {c' : Nat} (h : s.Kept m c) :
    (s.commandDone c').Kept m c := by
  unfold State.commandDone
  split
  · exact h
  refine State.Kept.onCc ?_ (fun _ hk2 => hk2.withGrp hk2.1)
  split
  · exact h.flush.setQueue
  · exact h.flush

theorem State.Kept.execExit {s : State} (h : s.Kept m c) :
    NextKept m c (execExit s) := by
  unfold Machine.execExit
  refine h.runWord (fun _ _ ht hg => ?_)
  split
  · exact (ht.termStep.putGrps (All.one hg)).exitUnit
  · split
    · trivial
    split
    · exact ht.commandDone
    · exact ht.flush
  · exact ht.endHandler

theorem State.Kept.execTrap {n : BitVec 8} {s : State} (h : s.Kept m c) :
    NextKept m c (execTrap n s) := by
  unfold Machine.execTrap
  refine h.runWord (fun _ _ ht hg => ?_)
  split
  · trivial
  · exact ((ht.putGrps (All.one hg.stepped.setUnit)).termStep).raise

theorem State.Kept.execEret {s : State} (h : s.Kept m c) :
    NextKept m c (execEret s) := h.runWord (fun _ _ ht _ => ht.endHandler)

theorem State.Kept.execHalt {s : State} (h : s.Kept m c) :
    NextKept m c (execHalt s) := by
  unfold Machine.execHalt
  refine h.runWord (fun _ _ ht hg => ?_)
  split
  · exact ⟨ht.onCc (fun _ hk => hk), hg⟩
  · exact ht.endHandler

theorem Block.Kept.forward {b : Block} {vs : List (Nat × W64 × W64 × Option (Nat × Nat))} (hb : b.Kept c) :
    (b.forward vs).Kept c := by
  unfold Block.forward
  refine hb.foldl (fun _ _ hb2 => ?_)
  split
  · exact hb2

theorem Block.Kept.labelled {b : Block} {idx : Nat} {r : Option (Nat × Nat)} (hb : b.Kept c) :
    (b.labelled idx r).Kept c := hb

theorem State.Kept.forwarding {e : Env} {ps : List Nat} {read : List Nat → State → State × (Nat → W64 × W64)}
    {x : State × (Nat → W64 × W64)} (h : s.Kept m c) (hr : ∀ l t, t.Kept m c → (read l t).1.Kept m c)
    (hx : s.forwarding e ps read = some x) : x.1.Kept m c := by
  unfold State.forwarding at hx
  split at hx
  · split at hx
    · obtain rfl := Option.some.inj hx
      exact hr _ _ h
    split at hx
    · obtain rfl := Option.some.inj hx
      exact State.Kept.onBlock (hr _ _ h) fun _ hb => hb.forward
    split at hx
    · cases hx
    extract_lets vs at hx
    split at hx
    · cases hx
    · obtain rfl := Option.some.inj hx
      exact State.Kept.onBlock (hr _ _ h) fun _ hb => hb.forward
  · obtain rfl := Option.some.inj hx
    exact hr _ _ h

theorem State.Kept.readCyc {s : State} {d : Nat} (h : s.Kept m c) :
    (s.readCyc d).1.Kept m c := by
  unfold State.readCyc
  exact h

theorem State.Kept.cycWord {s : State} {e : Env} {d : Nat} {wide : Bool} (h : s.Kept m c) (he : e.grp.Kept c) :
    (s.cycWord e d wide).Kept m c := by
  unfold State.cycWord
  split
  next hq => exact State.Kept.put he (h.forwarding (fun _ _ ht2 => ht2.readCyc) hq)
  · exact h

theorem State.Kept.execRds {d : RegN} {wide : Bool} {sreg : SpecialReg} {s : State} (h : s.Kept m c) :
    NextKept m c (execRds d wide sreg s) := by
  unfold Machine.execRds
  refine h.runWord (fun _ _ ht hg => ?_)
  split
  · exact ht.cycWord hg
  · exact State.Kept.put hg ht
  · exact State.Kept.put hg ht
  · exact ⟨ht, Env.Kept.write hg⟩

theorem Env.Kept.setFpctl {e : Env} {f : Nat → BitVec 3} (he : e.grp.Kept c) :
    (e.setFpctl f).grp.Kept c := by
  unfold Env.setFpctl
  exact he.onLanes (fun _ hl => hl)

theorem State.Kept.putCtx {s : State} {c' : Nat} {x : Option Ctx} (h : s.Kept m c) :
    (s.putCtx c' x).Kept m c := h.onCc (fun _ hk => hk)

theorem State.Kept.execWrs {a : RegN} {wide : Bool} {sreg : SpecialReg} {s : State} (h : s.Kept m c) :
    NextKept m c (execWrs a wide sreg s) := by
  unfold Machine.execWrs
  refine h.runWord (fun _ _ ht hg => ?_)
  split
  · split
    · trivial
    · exact ⟨ht, Env.Kept.setFpctl hg⟩
  · extract_lets
    split
    · exact ⟨ht.putCtx, hg⟩
    split
    · trivial
    · exact ⟨ht.putCtx, Env.Kept.setFpctl hg⟩
  split
  · exact ⟨ht.withTraps (ht.traps.mapIf (fun _ hx => hx)), hg⟩
  · refine ⟨ht.onCc (fun _ hk => hk.mapTrap ?_), hg⟩
    exact fun _ hx => hx
  · exact ⟨ht, hg⟩

theorem State.Kept.enqueue {e : Env} {s : State} {kind : SqKind} {f : Nat → Option SqElem} (he : e.grp.Kept c) :
    (e.enqueue s kind f).grp.Kept c := by
  unfold Env.enqueue
  exact he

theorem State.Kept.mark {e : Env} {s : State} {kind : SqKind} (he : e.grp.Kept c) :
    (e.mark s kind).grp.Kept c := by
  unfold Env.mark
  exact State.Kept.enqueue he

theorem State.Kept.fenceLearn {s : State} {e : Env} (h : s.Kept m c) :
    (s.fenceLearn e).Kept m c := h.onBlock (fun _ hb => hb.foldl (fun _ _ hb2 => hb2.fenceLearn))

theorem State.Kept.waitAt {s : State} {e : Env} {st : Stat} (h : s.Kept m c) (he : e.grp.Kept c) :
    (s.waitAt e st).Kept m c := h.putGrps (All.one he.stepped.setUnit)

theorem State.Kept.execFence {scope : Scope} {kind : FenceKind} {s : State} (h : s.Kept m c) :
    NextKept m c (execFence scope kind s) := by
  unfold Machine.execFence
  refine h.runWord (fun _ _ ht hg => ?_)
  split
  · exact ⟨ht.acquire.fenceLearn, hg⟩
  · exact ⟨ht, State.Kept.mark hg⟩
  · exact ⟨ht, State.Kept.mark hg⟩
  · exact ht.waitAt (State.Kept.mark hg)

theorem State.Kept.execBara {n : BitVec 4} {s : State} (h : s.Kept m c) :
    NextKept m c (execBara n s) := by
  unfold Machine.execBara
  refine h.runWord (fun _ _ ht hg => ⟨ht, ?_⟩)
  split
  · exact hg
  · exact State.Kept.mark hg

theorem State.Kept.execRand {d : RegN} {stream : BitVec 16} {s : State} (h : s.Kept m c) :
    NextKept m c (execRand d stream s) := by
  unfold Machine.execRand
  refine h.runWord (fun _ _ ht hg => ?_)
  split
  · exact State.Kept.put hg ht
  split
  · trivial
  · exact ⟨ht, Env.Kept.write hg⟩

theorem State.Kept.execCyc {d : RegN} {wide : Bool} {s : State} (h : s.Kept m c) :
    NextKept m c (execCyc d wide s) := by
  unfold Machine.execCyc
  refine h.runWord (fun _ _ ht hg => ?_)
  split
  · trivial
  · exact ht.cycWord hg

theorem State.Kept.execNop {s : State} (h : s.Kept m c) :
    NextKept m c (execNop s) := h.runWord (fun _ _ ht hg => ⟨ht, hg⟩)

theorem State.Kept.execBkpt {code : BitVec 8} {s : State} (h : s.Kept m c) :
    NextKept m c (execBkpt code s) := by
  unfold Machine.execBkpt
  refine h.runWord (fun _ _ ht hg => ?_)
  split
  · split
    · refine State.Kept.groupReport ?_
      split
      · exact (ht.putGrps (All.one hg.stepped.setUnit)).trigger
      · exact ht.putGrps (All.one hg.stepped.setUnit)
    · exact ⟨ht, hg⟩
  · exact (ht.putGrps (All.one hg.stepped.setUnit)).raise

theorem Grp.Kept.take {g : Grp} {m' : W32} {r : Nat} {c' : RegCell} {vs : List W32} (hg : g.Kept c) :
    (g.take m' r c' vs).Kept c := by
  unfold Grp.take
  extract_lets
  split
  · exact hg.unpair.setCell
  · exact hg.unpair.writeLanes.setCell

theorem Block.Kept.arrive {b : Block} {n i : Nat} (hb : b.Kept c) : (b.arrive n i).Kept c :=
  Block.Kept.of_groups (b := b.publish i) hb.publish rfl

theorem State.Kept.execBar {n : BitVec 4} (h : s.Kept m c) : NextKept m c (execBar n s) := by
  refine h.runWord fun _ e ht he => ?_
  split
  · exact ⟨ht, he⟩
  split
  · trivial
  split
  · trivial
  · exact State.Kept.barriers ((ht.waitAt he).onBlock fun _ hb => hb.foldl fun _ _ hb => hb.arrive)

theorem Grp.Kept.exchange {h g : Grp} {k : W32} {n d : Nat} (hh : h.Kept c) (hg : g.Kept c) :
    (exchange h k n g d).1.Kept c ∧ (exchange h k n g d).2.Kept c := ⟨hh.take, hg.take⟩

theorem State.Kept.exchanged {w : Who} {b : Block} {g : Grp} {is d : List Nat} (h : s.Kept m c) (hg : g.Kept c) :
    ((s.putGrps w [g]).indexWritten b.bid is d).Kept m c := (h.putGrps (All.one hg)).indexWritten

theorem State.Kept.execXcht {d : RegN} {n : BitVec 4} (h : s.Kept m c) : NextKept m c (execXcht d n s) := by
  refine h.runWord fun t e ht he => ?_
  split
  · split
    · trivial
    next b hb =>
      extract_lets served
      have hs : ∀ x, served = some x → x.1.Kept c := fun _ hx => (ht.block hb).served.find hx
      clear_value served
      split
      · trivial
      next g u =>
        have hg : g.Kept c := hs _ rfl
        split
        · trivial
        split
        · split
          · exact ⟨ht.exchanged (he.exchange hg).2, (he.exchange hg).1⟩
          · refine State.Kept.expandGrp ?_ he
            split
            · exact ht.expandServed hg
            · exact ht
        split
        · exact ht.expandServed hg
        · exact ⟨ht.exchanged (he.exchange hg).2, (he.exchange hg).1⟩
  · split
    · trivial
    next k hk =>
      have hx := he.exchange (k := 1) (n := n.toNat) (d := d.toNat) (ht.cc hk).1
      exact ⟨ht.onCc fun _ hk' => hk'.withGrp hx.2, hx.1⟩
  · trivial

theorem State.Kept.dropCode {x : Ctx} {p : Nat} {l : List Nat} (h : s.Kept m c) : (s.dropCode x p l).1.Kept m c := by
  induction l generalizing s with
  | nil => exact h
  | cons a l ih =>
    unfold State.dropCode
    split
    next hq => exact ih (h.translate.fst hq).dropFrame
    next hq => exact h.translate.fst hq

theorem State.Kept.execIcinv {a : RegN} {s : State} (h : s.Kept m c) :
    NextKept m c (execIcinv a s) := by
  unfold Machine.execIcinv
  refine h.runWord (fun _ _ ht hg => ?_)
  split
  · trivial
  extract_lets
  split
  next hq2 =>
    have ht2 := ht.dropCode.fst hq2
    exact ⟨ht2, hg⟩
  next hq2 =>
    have ht2 := ht.dropCode.fst hq2
    exact ht2

theorem State.Kept.execIcinvAll {s : State} (h : s.Kept m c) :
    NextKept m c (execIcinvAll s) := h.runWord (fun _ _ ht hg => ⟨ht, hg⟩)

end

end Sys2Proof.Machine
end

