-- ==== Sys2Proof/Proofs/KeptMemoryWords.lean ====
section
/-! PROOF. Accesses, the store queue, reductions, atomics and waits keep it. -/

namespace Sys2Proof.Machine

section
variable {m c : Prop} {s : State}

/-- The state or the effect that the checks of an access leave keeps both. -/
def Checked.Kept (m c : Prop) : Checked → Prop
  | .ok s _ => s.Kept m c
  | .bad e => e.Kept m c

/-- The state behind a walk keeps both. -/
def Walked.Kept (m c : Prop) (w : Walked) : Prop := w.s.Kept m c

/-- The state behind the reads of an engine's sources keeps both. -/
def SrcRead.Kept (m c : Prop) : SrcRead → Prop
  | .vals s _ => s.Kept m c
  | .wait s => s.Kept m c
  | .fault s _ _ _ => s.Kept m c

/-- The state behind the write of a sector keeps both. -/
def SecWrite.Kept (m c : Prop) : SecWrite → Prop
  | .ok s => s.Kept m c
  | .later s => s.Kept m c
  | .fault s _ _ _ => s.Kept m c

/-- The state or the effect behind the read of a handle's entry keeps both. -/
def HRead.Kept (m c : Prop) : HRead → Prop
  | .entry s _ => s.Kept m c
  | .bad e => e.Kept m c

/-- The state behind an operation of the debugger keeps both. -/
def DbgDone.Kept (m c : Prop) : DbgDone → Prop
  | .status s _ => s.Kept m c
  | .wait => True
  | .begun s _ => s.Kept m c

theorem Checked.Kept.ok {x : Checked} {l : List Elem} (h : x.Kept m c) (e : x = .ok s l) : s.Kept m c := by
  subst e; exact h

theorem Checked.Kept.bad {x : Checked} {f : Eff} (h : x.Kept m c) (e : x = .bad f) : f.Kept m c := by
  subst e; exact h

theorem Eff.Kept.doneState {f : Eff} {k : Env} (h : f.Kept m c) (e : f = .done s k) : s.Kept m c := by
  subst e; exact h.1

theorem Eff.Kept.doneGrp {f : Eff} {k : Env} (h : f.Kept m c) (e : f = .done s k) : k.grp.Kept c := by
  subst e; exact h.2

theorem Eff.Kept.moved {f : Eff} (h : f.Kept m c) (e : f = .moved s) : s.Kept m c := by
  subst e; exact h

theorem Eff.Kept.fault {f : Eff} {k l x : Nat} {v : W64} {ps : List Nat} (h : f.Kept m c) (e : f = .fault s k l x v
    ps) :
    s.Kept m c := by
  subst e; exact h

theorem Walked.Kept.state {w : Walked} (h : w.Kept m c) : w.s.Kept m c := h

theorem SrcRead.Kept.vals {x : SrcRead} {l : List (Option Byte × List Nat)} (h : x.Kept m c) (e : x = .vals s l) :
    s.Kept m c := by
  subst e; exact h

theorem SrcRead.Kept.wait {x : SrcRead} (h : x.Kept m c) (e : x = .wait s) : s.Kept m c := by
  subst e; exact h

theorem SrcRead.Kept.fault {x : SrcRead} {va k l : Nat} (h : x.Kept m c) (e : x = .fault s va k l) : s.Kept m c := by
  subst e; exact h

theorem SecWrite.Kept.ok {x : SecWrite} (h : x.Kept m c) (e : x = .ok s) : s.Kept m c := by
  subst e; exact h

theorem SecWrite.Kept.later {x : SecWrite} (h : x.Kept m c) (e : x = .later s) : s.Kept m c := by
  subst e; exact h

theorem SecWrite.Kept.fault {x : SecWrite} {va k l : Nat} (h : x.Kept m c) (e : x = .fault s va k l) : s.Kept m c := by
  subst e; exact h

theorem HRead.Kept.entry {x : HRead} {k : Handle} (h : x.Kept m c) (e : x = .entry s k) : s.Kept m c := by
  subst e; exact h

theorem HRead.Kept.bad {x : HRead} {f : Eff} (h : x.Kept m c) (e : x = .bad f) : f.Kept m c := by
  subst e; exact h

theorem DbgDone.Kept.status {x : DbgDone} {n : Nat} (h : x.Kept m c) (e : x = .status s n) : s.Kept m c := by
  subst e; exact h

theorem DbgDone.Kept.begun {x : DbgDone} {n : Nat} (h : x.Kept m c) (e : x = .begun s n) : s.Kept m c := by
  subst e; exact h

/-! ### The checks of an access -/

theorem Walked.Kept.one {w : Walked} {e : Env} {x : Option Ctx} {need : Need} {n pos va : Nat} (h : w.Kept m c) :
    (Walked.one e x need n w pos va).Kept m c := by
  unfold Walked.one
  extract_lets walk
  have hw : walk.Kept m c := by
    unfold walk
    split
    · exact h
    split
    · exact h
    split
    next hq => exact h.state.translate.fst hq
    next hq =>
      have ht := h.state.translate.fst hq
      split
      · split
        · exact ht
        · exact ht
      · exact ht
  clear_value walk
  split
  · exact h
  · exact h
  · exact hw

theorem Walked.Kept.foldl {α : Type} {w : Walked} {f : Walked → α → Walked} {l : List α} (h : w.Kept m c)
    (hf : ∀ w x, w.Kept m c → (f w x).Kept m c) : (l.foldl f w).Kept m c :=
  All.foldl (p := fun _ => True) (fun _ _ => trivial) h fun t x ht _ => hf t x ht

theorem State.Kept.checks {e : Env} {a : Ask} {ps : List Nat} {va : Nat → Nat} (h : s.Kept m c) :
    (s.checks e a ps va).Kept m c := by
  unfold State.checks
  extract_lets lost mis out own w
  have hw : w.Kept m c := Walked.Kept.foldl (w := ⟨s, [], [], [], false⟩) h fun _ _ hw => hw.one
  clear_value w
  split
  · trivial
  split
  · trivial
  split
  · exact h
  split
  · trivial
  split
  · exact hw
  split
  · trivial
  split
  · exact hw
  · trivial

theorem State.Kept.fillElem {s : State} {e : Env} {x : Elem} {n : Nat} {skip : Bool} (h : s.Kept m c) :
    (s.fillElem e x n skip).Kept m c := by
  unfold State.fillElem
  split
  · split
    · exact h
    · exact h.fill
  · exact h

theorem State.Kept.touch {s : State} {e : Env} {n : Nat} {write : Bool} {els : List Elem} (h : s.Kept m c) :
    (s.touch e n write els).Kept m c := by
  unfold State.touch
  refine h.foldl (fun _ _ ht => ?_)
  split
  · split
    · exact ht.touchIns
    · exact ht.touchOuts
  · exact ht

theorem State.Kept.markElem {s : State} {e : Env} {x : Elem} {bytes : List Byte} (h : s.Kept m c) :
    (s.markElem e x bytes).Kept m c := by
  unfold State.markElem
  split
  · exact h.markRead
  · exact h

theorem State.Kept.readAll {e : Env} {n : Nat} {skip : Bool} {l : List Elem} (h : s.Kept m c) :
    (s.readAll e n skip l).1.Kept m c := by
  induction l generalizing s with
  | nil => exact h
  | cons x l ih => exact ih h.touch.fillElem.markElem

theorem State.Kept.askFabric {e : Env} {n : Nat} {l : List Elem} (h : s.Kept m c) : (s.askFabric e n l).1.Kept m c := by
  refine All.foldl (p := fun _ => True) (r := fun a : State × Bool => a.1.Kept m c) (fun _ _ => trivial) h fun a x ha
    _ => ?_
  split
  · split
    · exact ha
    split
    extract_lets i
    split
    · exact ha
    · exact ha
  · exact ha

theorem State.Kept.settleEff {old : Env} {sh : Shape} {f : Eff} (h : s.Kept m c) (hf : f.Kept m c) :
    (s.settleEff old sh f).Kept m c := by
  cases f with
  | done t e => exact State.Kept.finish hf.1 hf.2
  | moved t => exact hf
  | _ => exact h

theorem Eff.Kept.ranged {e : Env} {off n align : Nat} {f : Eff} (hf : f.Kept m c) : (e.ranged off n align f).Kept m c
    := by
  unfold Env.ranged Env.rangeBad
  split
  · trivial
  split
  · trivial
  · exact hf

theorem Grp.Kept.tbWake {g : Grp} (hg : g.Kept c) : g.tbWake.Kept c := hg

theorem State.Kept.tbWake {n : Nat} (h : s.Kept m c) : (s.tbWake n).Kept m c := by
  have hb : (s.onBlock n fun b => { b with groups := b.groups.map Grp.tbWake }).Kept m c :=
    h.onBlock fun _ hb => hb.map fun _ hg => hg.tbWake
  exact hb.withTraps (h.traps.mapIf fun _ ht => ht.map fun _ hg => hg.tbWake)

theorem State.Kept.tbApply {n off darr : Nat} {dsec : Int} (h : s.Kept m c) : (s.tbApply n off darr dsec).Kept m c := by
  unfold State.tbApply
  split
  · exact h
  next b hb =>
    generalize tbUpdate (b.tb off) darr dsec = y
    exact State.Kept.tbWake (State.Kept.slotSync (h.setBlock ((h.block hb).of_groups rfl)))

theorem State.Kept.recordRaw {x : Ctx} {d : Nat} (h : s.Kept m c) : (s.recordRaw x d).Kept m c := h.recordIn

theorem State.Kept.countAccess {l : Option Launch} {x : Option Ctx} {num core pa : Nat} {who : Named} {va : W64}
    {mig : Bool} (h : s.Kept m c) : (s.countAccess l x num core who va pa mig).Kept m c := by
  unfold State.countAccess
  split
  · split
    · exact h
    extract_lets home frame d old new up hit keep t
    have ht : t.Kept m c := h.onDie
    clear_value t hit
    split
    · exact ht.recordRaw
    · exact ht
  · exact h

theorem State.Kept.applyEntry {b : Block} {l : Launch} {x : SEntry} (h : s.Kept m c) : (s.applyEntry b l x).Kept m c
    := by
  unfold State.applyEntry
  split
  · exact h
  extract_lets op t
  have ht : t.Kept m c := by
    unfold t
    split
    · exact h.send
    · exact h.arrive
  clear_value t
  split
  · exact ht.countAccess
  · exact ht

theorem State.Kept.takeFabric {s : State} {e : Env} {els : List Elem} (h : s.Kept m c) :
    (s.takeFabric e els).Kept m c := by
  unfold State.takeFabric
  split <;> exact h

theorem State.Kept.noteReads {s : State} {e : Env} {n : Nat} {acq : Bool} {els : List Elem} {fwd : optParam (List
    Nat) []} (h : s.Kept m c) :
    (s.noteReads e n acq els fwd).Kept m c := by
  unfold State.noteReads
  split
  · refine h.foldl (fun _ _ ht => ht.onBlock (fun _ hb => ?_))
    split
    · exact hb.noteRead
    split
    · exact hb.noteRead.labelled
    · exact hb.noteStamp
  · exact h

theorem State.Kept.sound {s : State} {e : Env} {n acc : Nat} {skip : Bool} {els : List Elem} {f : Eff} (h : s.Kept m
    c) (hf : f.Kept m c) :
    (s.sound e n acc skip els f).Kept m c := by
  unfold State.sound
  split
  · exact hf
  · exact h

theorem State.Kept.watchHalt {s : State} {e : Env} {hits : List (List Elem)} (h : s.Kept m c) :
    (s.watchHalt e hits).Kept m c := by
  unfold State.watchHalt
  split
  · exact h.onUnit.trigger.foldl (fun _ _ ht => ht.foldl (fun _ _ ht2 => ht2.report))
  · exact h

theorem State.Kept.sample {s : State} {e : Env} {acc n : Nat} {els : List Elem} (h : s.Kept m c) :
    (s.sample e acc n els).Kept m c := by
  unfold State.sample
  split
  · split
    · exact h
    · exact h
  · exact h

theorem State.Kept.access {s : State} {e old : Env} {sh : Shape} {kind acc n : Nat} {els : List Elem} (h : s.Kept m
    c) (he : e.grp.Kept c) :
    (s.access e old sh kind acc n els).Kept m c := by
  unfold State.access
  split
  · split
    · extract_lets
      split
      · exact ⟨h.touch.sample, he⟩
      · exact (h.touch.sample.finish he).watchHalt
    extract_lets
    split
    · exact ⟨h.sample, he⟩
    · exact (h.sample.finish he).watchHalt
  split
  · extract_lets
    split
    · exact ⟨h.touch.touch.sample, he⟩
    · exact (h.touch.touch.sample.finish he).watchHalt
  extract_lets
  split
  · exact ⟨h.touch.sample, he⟩
  · exact (h.touch.sample.finish he).watchHalt

theorem State.Kept.queueStores {e : Env} {s : State} {kind : SqKind} {els : List Elem} {bytes : Nat → List Byte} {o :
    Nat} (he : e.grp.Kept c) :
    (e.queueStores s kind els bytes o).grp.Kept c := by
  unfold Env.queueStores
  exact he

theorem Env.Kept.put {op : LoadOp} {e : Env} {d : Nat} {one : Bool} {f : Nat → W64 × W64} (he : e.grp.Kept c) :
    (op.put e d one f).grp.Kept c := by
  unfold LoadOp.put
  split
  · exact Env.Kept.write (Env.Kept.write (Env.Kept.write (Env.Kept.write he)))
  split <;> exact Env.Kept.write he

theorem State.Kept.readAt {e : Env} {op : LoadOp} {els : List Elem} {ps : List Nat} {s' : State} (h : s'.Kept m c) :
    (readAt e op els ps s').1.Kept m c := by
  unfold Machine.readAt
  exact h.readAll

theorem State.Kept.eachSheaf {s : State} {e : Env} {sh : Shape} {els : List Elem} {f : State → Env → (Nat → Nat) →
    List Elem → Eff} (h : s.Kept m c) (he : e.grp.Kept c) (hf : ∀ (x0 : State) (x1 : Env) (x2 : Nat → Nat) (x3 : List
    Elem), x0.Kept m c → x1.grp.Kept c → (f x0 x1 x2 x3).Kept m c) :
    (s.eachSheaf e sh els f).Kept m c := by
  unfold State.eachSheaf
  refine (h.expandGrp he).foldl (fun _ _ ht => ?_)
  split
  split
  · exact ht
  next hq =>
    have he2 := ht.env hq
    exact ht.settleEff (hf _ _ _ _ ht he2)

theorem State.Kept.loadPut {s : State} {e : Env} {sh : Shape} {op : LoadOp} {d : Nat} {one : Bool} {els : List Elem}
    {f : Nat → W64 × W64} (h : s.Kept m c) (he : e.grp.Kept c) :
    (s.loadPut e sh op d one els f).Kept m c := by
  unfold State.loadPut
  split
  · exact h.access (Env.Kept.put he)
  · exact h.eachSheaf he (fun _ _ _ _ ht hg => ht.access (Env.Kept.put hg))

theorem State.Kept.loadNow {e : Env} {sh : Shape} {op : LoadOp} {d : Nat} {one : Bool} {els all : List Elem} (h :
    s.Kept m c)
    (he : e.grp.Kept c) : (s.loadNow e sh op d one els all).Kept m c := by
  unfold State.loadNow
  extract_lets src
  clear_value src
  split
  · exact h
  next t f hf =>
    have ht : t.Kept m c := h.forwarding (fun _ _ ht => ht.readAt) hf
    refine State.Kept.loadPut (State.Kept.takeFabric (State.Kept.noteReads ?_)) he
    split
    · exact ht.acquire
    · exact ht

theorem State.Kept.loadLow {s : State} {e : Env} {els : List Elem} (h : s.Kept m c) :
    (s.loadLow e els).Kept m c := h.readAll.noteReads.onUnit

theorem State.Kept.loadHigh {s : State} {e : Env} {sh : Shape} {op : LoadOp} {d : Nat} {els : List Elem} {low : List
    (Nat × W64)} (h : s.Kept m c) (he : e.grp.Kept c) :
    (s.loadHigh e sh op d els low).Kept m c := h.readAll.noteReads.takeFabric.loadPut he

theorem State.Kept.load {op : LoadOp} {d a : RegN} {off : BitVec 8} {ka : Bool} {st : BitVec 2} (h : s.Kept m c) :
    NextKept m c (s.load op d a off ka st) := by
  unfold State.load
  extract_lets sh
  refine h.runWord fun t e ht he => ?_
  extract_lets va
  split
  next hq => exact ht.checks.bad hq
  next u all hq =>
    have hu : u.Kept m c := ht.checks.ok hq
    extract_lets one els own
    clear_value one els own
    split
    · exact hu
    split
    · trivial
    split
    · trivial
    split
    · exact hu
    split
    next v asked hv =>
      have hv : v.Kept m c := hu.askFabric.fst hv
      have now := hv.loadNow (e := e) (sh := sh) (op := op) (d := d.toNat) (one := one) (els := els) (all := all) he
      split
      · exact hv
      refine hv.sound ?_
      split
      · split
        · exact hv.loadLow
        · exact now
      · split
        · exact hv.loadHigh he
        · exact now
      · exact now

theorem State.Kept.execLd8 {d a : RegN} {off : BitVec 8} {ka : Bool} {st : BitVec 2} {s : State} (h : s.Kept m c) :
    NextKept m c (execLd8 d a off ka st s) := h.load

theorem State.Kept.execLd8s {d a : RegN} {off : BitVec 8} {ka : Bool} {st : BitVec 2} {s : State} (h : s.Kept m c) :
    NextKept m c (execLd8s d a off ka st s) := h.load

theorem State.Kept.execLd16 {d a : RegN} {off : BitVec 8} {ka : Bool} {st : BitVec 2} {s : State} (h : s.Kept m c) :
    NextKept m c (execLd16 d a off ka st s) := h.load

theorem State.Kept.execLd16s {d a : RegN} {off : BitVec 8} {ka : Bool} {st : BitVec 2} {s : State} (h : s.Kept m c) :
    NextKept m c (execLd16s d a off ka st s) := h.load

theorem State.Kept.execLd32 {d a : RegN} {off : BitVec 8} {ka : Bool} {st : BitVec 2} {s : State} (h : s.Kept m c) :
    NextKept m c (execLd32 d a off ka st s) := h.load

theorem State.Kept.execLd64 {d a : RegN} {off : BitVec 8} {ka : Bool} {st : BitVec 2} {s : State} (h : s.Kept m c) :
    NextKept m c (execLd64 d a off ka st s) := h.load

theorem State.Kept.execLd128 {d a : RegN} {off : BitVec 8} {ka : Bool} {st : BitVec 2} {s : State} (h : s.Kept m c) :
    NextKept m c (execLd128 d a off ka st s) := h.load

theorem State.Kept.execLda32 {d a : RegN} {off : BitVec 8} {ka : Bool} {st : BitVec 2} {s : State} (h : s.Kept m c) :
    NextKept m c (execLda32 d a off ka st s) := h.load

theorem State.Kept.execLda64 {d a : RegN} {off : BitVec 8} {ka : Bool} {st : BitVec 2} {s : State} (h : s.Kept m c) :
    NextKept m c (execLda64 d a off ka st s) := h.load

theorem State.Kept.execLd128a {d a : RegN} {off : BitVec 8} {ka : Bool} {st : BitVec 2} {s : State} (h : s.Kept m c) :
    NextKept m c (execLd128a d a off ka st s) := h.load

theorem State.Kept.execLdc32 {d a : RegN} {off : BitVec 8} {ka : Bool} {st : BitVec 2} {s : State} (h : s.Kept m c) :
    NextKept m c (execLdc32 d a off ka st s) := h.load

theorem State.Kept.execLdc64 {d a : RegN} {off : BitVec 8} {ka : Bool} {st : BitVec 2} {s : State} (h : s.Kept m c) :
    NextKept m c (execLdc64 d a off ka st s) := h.load

theorem State.Kept.queue {op : StoreOp} {s : State} {e : Env} {bs : Nat → List Byte} {els : List Elem} (he :
    e.grp.Kept c) :
    (op.queue s e bs els).grp.Kept c := by
  unfold StoreOp.queue
  split
  · split
    · exact State.Kept.queueStores (State.Kept.queueStores (State.Kept.queueStores he))
    · exact State.Kept.queueStores he
  split
  · exact State.Kept.queueStores (State.Kept.queueStores (State.Kept.queueStores he))
  · exact State.Kept.queueStores he

theorem State.Kept.storePut {s : State} {e : Env} {sh : Shape} {op : StoreOp} {d : Nat} {els : List Elem} (h : s.Kept
    m c) (he : e.grp.Kept c) :
    (s.storePut e sh op d els).Kept m c := by
  unfold State.storePut
  extract_lets
  split
  · exact h.eachSheaf he (fun _ _ _ _ ht hg => ht.access (State.Kept.queue hg))
  · exact h.access (State.Kept.queue he)

theorem State.Kept.store {s : State} {op : StoreOp} {d a : RegN} {off : BitVec 8} {ka : Bool} {st : BitVec 2} (h :
    s.Kept m c) :
    NextKept m c (s.store op d a off ka st) := by
  unfold State.store
  refine h.runWord (fun _ _ ht hg => ?_)
  split
  · trivial
  split
  · extract_lets
    split
    next hq3 => exact ht.checks.bad hq3
    next hq3 =>
      split
      · exact ht.checks.ok hq3
      · exact (ht.checks.ok hq3).storePut hg
  extract_lets
  split
  next hq3 => exact ht.checks.bad hq3
  next hq3 =>
    split
    · exact ht.checks.ok hq3
    · exact (ht.checks.ok hq3).storePut hg

theorem State.Kept.execSt8 {d a : RegN} {off : BitVec 8} {ka : Bool} {st : BitVec 2} {s : State} (h : s.Kept m c) :
    NextKept m c (execSt8 d a off ka st s) := h.store

theorem State.Kept.execSt16 {d a : RegN} {off : BitVec 8} {ka : Bool} {st : BitVec 2} {s : State} (h : s.Kept m c) :
    NextKept m c (execSt16 d a off ka st s) := h.store

theorem State.Kept.execSt32 {d a : RegN} {off : BitVec 8} {ka : Bool} {st : BitVec 2} {s : State} (h : s.Kept m c) :
    NextKept m c (execSt32 d a off ka st s) := h.store

theorem State.Kept.execSt64 {d a : RegN} {off : BitVec 8} {ka : Bool} {st : BitVec 2} {s : State} (h : s.Kept m c) :
    NextKept m c (execSt64 d a off ka st s) := h.store

theorem State.Kept.execSt128 {d a : RegN} {off : BitVec 8} {ka : Bool} {st : BitVec 2} {s : State} (h : s.Kept m c) :
    NextKept m c (execSt128 d a off ka st s) := h.store

theorem State.Kept.execStl32 {d a : RegN} {off : BitVec 8} {ka : Bool} {st : BitVec 2} {s : State} (h : s.Kept m c) :
    NextKept m c (execStl32 d a off ka st s) := h.store

theorem State.Kept.execStl64 {d a : RegN} {off : BitVec 8} {ka : Bool} {st : BitVec 2} {s : State} (h : s.Kept m c) :
    NextKept m c (execStl64 d a off ka st s) := h.store

theorem State.Kept.execSt128a {d a : RegN} {off : BitVec 8} {ka : Bool} {st : BitVec 2} {s : State} (h : s.Kept m c) :
    NextKept m c (execSt128a d a off ka st s) := h.store

theorem State.Kept.prefetch {s : State} {e : Env} {va : Nat} (h : s.Kept m c) :
    (s.prefetch e va).Kept m c := by
  unfold State.prefetch
  split
  · split
    · exact h
    split
    next hq4 =>
      have ht := h.translate.fst hq4
      exact ht.fill
    · exact h
  · exact h

theorem State.Kept.execPfx {a : RegN} {off : BitVec 8} {ka : Bool} {st : BitVec 2} {s : State} (h : s.Kept m c) :
    NextKept m c (execPfx a off ka st s) := h.runWord (fun _ _ ht hg => ⟨ht.foldl (fun _ _ ht2 => ht2.prefetch), hg⟩)

theorem State.Kept.groupWord {s : State} {srcs : List (RegN × Bool)} {shape : Env → Shape} {st : BitVec 2} {f : State
    → Env → Eff} (h : s.Kept m c) (hf : ∀ (x0 : State) (x1 : Env), x0.Kept m c → x1.grp.Kept c → (f x0 x1).Kept m c) :
    NextKept m c (s.groupWord srcs shape st f) := by
  unfold State.groupWord
  refine h.runWord (fun _ _ ht hg => ?_)
  split
  · trivial
  · exact hf _ _ ht hg

theorem Block.Kept.tbNote {b : Block} {off : Nat} (hb : b.Kept c) :
    (b.tbNote off).Kept c := hb

theorem Block.Kept.tbLearn {b : Block} {off p i : Nat} (hb : b.Kept c) :
    (b.tbLearn off p i).Kept c := hb.learn

theorem Block.Kept.tbInit {b : Block} {off n : Nat} {ring : Bool} (hb : b.Kept c) :
    (b.tbInit off n ring).Kept c := hb

theorem State.Kept.execTbinit {a b : RegN} {ring : Bool} {st : BitVec 2} {s : State} (h : s.Kept m c) :
    NextKept m c (execTbinit a b ring st s) := by
  unfold Machine.execTbinit
  refine h.groupWord (fun _ _ ht hg => Eff.Kept.ranged ?_)
  split
  · trivial
  split
  · split
    · trivial
    · exact ⟨(ht.onBlock (fun _ hb => hb.tbInit.tbInit)).tbWake, hg⟩
  split
  · trivial
  · exact ⟨(ht.onBlock (fun _ hb => hb.tbInit)).tbWake, hg⟩

theorem State.Kept.execTbarr {a b : RegN} {decl : Bool} {st : BitVec 2} {s : State} (h : s.Kept m c) :
    NextKept m c (execTbarr a b decl st s) := h.groupWord (fun _ _ ht hg => Eff.Kept.ranged ⟨ht, State.Kept.mark hg⟩)

theorem State.Kept.tbCheck {s : State} {e : Env} {a b : RegN} {par : Bool} {f : Block → Nat → Bool → Eff} (h : s.Kept
    m c) (hf : ∀ (x0 : Block) (x1 : Nat) (x2 : Bool), x0.Kept c → (f x0 x1 x2).Kept m c) :
    (s.tbCheck e a b par f).Kept m c := by
  unfold State.tbCheck
  refine Eff.Kept.ranged ?_
  split
  · trivial
  next hq =>
    have hb := h.block hq
    split
    · trivial
    extract_lets
    split
    · trivial
    · exact hf _ _ _ hb

theorem State.Kept.tbAcquire {s : State} {e : Env} {k : Block} {off q : Nat} {par : Bool} (h : s.Kept m c) :
    (s.tbAcquire e k off q par).Kept m c := h.onBlock (fun _ hb => hb.foldl (fun _ _ hb2 => hb2.tbLearn.observe))

theorem State.Kept.execTbwait {a b : RegN} {par : Bool} {st : BitVec 2} {s : State} (h : s.Kept m c) :
    NextKept m c (execTbwait a b par st s) := by
  unfold Machine.execTbwait
  refine h.groupWord (fun _ _ ht hg => ht.tbCheck (fun _ _ _ _ => ?_))
  split
  · exact ⟨ht.tbAcquire, hg⟩
  · exact ht

theorem State.Kept.execTbtest {pd : PredN} {a b : RegN} {par : Bool} {st : BitVec 2} {s : State} (h : s.Kept m c) :
    NextKept m c (execTbtest pd a b par st s) := by
  unfold Machine.execTbtest
  refine h.groupWord (fun _ _ ht hg => ht.tbCheck (fun _ _ _ _ => ⟨?_, Env.Kept.pwrite hg⟩))
  split
  · exact ht.tbAcquire
  · exact ht

theorem Block.Kept.enter {b : Block} {xs : List SEntry} (hb : b.Kept c) :
    (b.enter xs).Kept c := hb

theorem State.Kept.stage {s : State} {bid : Nat} {by' : FullBy} {xs : List SEntry} (h : s.Kept m c) :
    (s.stage bid by' xs).1.Kept m c := by
  unfold State.stage
  split
  · exact h
  next hq =>
    have hb := h.block hq
    split
    · exact h
    split
    · exact h
    split
    · exact h.setBlock hb.enter
    · exact State.Kept.onLaunch (h.setBlock hb)

theorem State.Kept.countBy {s : State} {bid core idx : Nat} {src : Origin} {va : W64} {pa : Nat} {mig : Bool} (h :
    s.Kept m c) :
    (s.countBy bid core idx src va pa mig).Kept m c := h.countAccess

theorem State.Kept.applySet {s : State} {b : Block} {l : Launch} {set : List SEntry} (h : s.Kept m c) :
    (s.applySet b l set).Kept m c := ((h.foldl (fun _ _ ht => ht.applyEntry)).foldl (fun _ _ ht =>
      ht.dropLine)).withBlocks ((((h.foldl (fun _ _ ht => ht.applyEntry)).foldl (fun _ _ ht =>
      ht.dropLine)).blocks).mapIf (fun _ hb2 => hb2.foldl (fun _ _ hb3 => hb3.stampBytes)))

theorem State.Kept.addSig {s : State} {lid num n : Nat} {sig : W64} (h : s.Kept m c) :
    (s.addSig lid num n sig).Kept m c := h

theorem State.Kept.detCommit {n : Nat} {k : CKind} {p : SEntry → Bool} {a : Option PAtomic} (h : s.Kept m c) :
    (s.detCommit n k p a).Kept m c := by
  unfold State.detCommit
  split
  · exact h
  next b hb =>
    split
    · exact h
    next l _ =>
      extract_lets set t u
      have ht : t.Kept m c := h.addSig
      exact State.Kept.applySet (ht.setBlock ((h.block hb).of_groups rfl))

theorem State.Kept.stageElems {x : Qx} {q : SqEntry} {p : Option SqElem} {l : List SqElem} (h : s.Kept m c) :
    (s.stageElems x q p l).1.Kept m c := by
  induction l generalizing s p with
  | nil => exact h
  | cons e l ih =>
    unfold State.stageElems
    extract_lets rel
    split
    next hq => exact ih (h.stage.fst hq)
    next hq => exact h.stage.fst hq

theorem State.Kept.onParts {n pos : Nat} {f : SqEntry → SqEntry} (h : s.Kept m c) : (s.onParts n pos f).Kept m c := by
  unfold State.onParts
  extract_lets part grp
  have hb : (s.onBlock n fun b => { b with groups := b.groups.map grp }).Kept m c :=
    h.onBlock fun _ hb => All.map hb fun _ hg => hg
  exact State.Kept.withTraps hb (h.traps.mapIf fun _ ht => All.map ht fun _ hg => hg)

theorem State.Kept.submit {s : State} {bid : Nat} {kind : CKind} {p : SEntry → Bool} {who : Option Who} {is : List
    Nat} {src : Origin} {atom : Option PAtomic} (h : s.Kept m c) :
    (s.submit bid kind p who is src atom).Kept m c := by
  unfold State.submit
  split
  · exact h
  next hq =>
    have hb := h.block hq
    split
    · exact h
    · exact h.setBlock hb

theorem State.Kept.prune {s : State} {w : Who} (h : s.Kept m c) :
    (s.prune w).Kept m c := by
  unfold State.prune
  split
  · exact h.onBlock (fun _ hb => hb.filter)
  · exact h.withTraps (h.traps.mapIf (fun _ hx => hx.filter))
  · exact h

theorem State.Kept.setHead {s : State} {w : Who} {q : Option SqEntry} (h : s.Kept m c) :
    (s.setHead w q).Kept m c := by
  unfold State.setHead
  exact State.Kept.prune (h.onGrp (fun _ hg => hg))

theorem State.Kept.releaseStep {s : State} {x : Qx} {q : SqEntry} {scope : Scope} (h : s.Kept m c) :
    (s.releaseStep x q scope).Kept m c := by
  unfold State.releaseStep
  refine State.Kept.flush ?_
  split
  · exact h.onBlock (fun _ hb => hb.foldl (fun _ _ hb2 => hb2.publish))
  · exact h

theorem State.Kept.stamped {s : State} {x : Qx} {q : SqEntry} {es : List SqElem} (h : s.Kept m c) :
    (s.stamped x q es).Kept m c := by
  unfold State.stamped
  split
  · exact h.onBlock (fun _ hb => hb.foldl (fun _ _ hb2 => hb2.stampBytes))
  · exact h

theorem State.Kept.storeLeaves {s : State} {x : Qx} {q : SqEntry} (h : s.Kept m c) :
    (s.storeLeaves x q).Kept m c := by
  unfold State.storeLeaves
  split
  · exact h
  · exact (((h.foldl (fun _ _ ht => ht.toCore)).stamped).stageElems).setHead

theorem State.Kept.relWrite {s : State} {x : Qx} {q : SqEntry} {primary : Bool} (h : s.Kept m c) :
    (s.relWrite x q primary).Kept m c := by
  unfold State.relWrite
  refine State.Kept.stamped (h.foldl (fun _ _ ht => ?_))
  split
  · split
    · exact ht.arrive.dropLine
    · exact ht
  · exact ht.localWrite

theorem State.Kept.toHomeQueue {s : State} {x : Qx} {q : SqEntry} {es : List SqElem} (h : s.Kept m c) :
    (s.toHomeQueue x q es).Kept m c := by
  unfold State.toHomeQueue
  split
  · exact h
  split
  next hq2 =>
    have ht := h.snd hq2
    extract_lets
    split
    · exact h
    · exact ht

theorem State.Kept.addonWatch {s : State} {bid : Nat} {q : SqEntry} {es : List SqElem} (h : s.Kept m c) :
    (s.addonWatch bid q es).Kept m c := by
  unfold State.addonWatch
  split
  · exact h
  split
  · exact h
  split
  · exact h
  extract_lets
  split
  · exact h
  · exact (h.foldl (fun _ _ ht => ht.trigger.report)).onParts

theorem State.Kept.reductionLeaves {s : State} {x : Qx} {q : SqEntry} (h : s.Kept m c) :
    (s.reductionLeaves x q).Kept m c := by
  unfold State.reductionLeaves
  split
  · extract_lets
    split
    · exact h
    · exact h.toHomeQueue.stageElems.setHead.addonWatch
  extract_lets
  split
  · exact h
  · exact h.toHomeQueue.stageElems.setHead

theorem State.Kept.releaseCommit {s : State} {x : Qx} {q : SqEntry} (h : s.Kept m c) :
    (s.releaseCommit x q).Kept m c := by
  unfold State.releaseCommit
  split
  · exact h
  · exact h.submit

theorem State.Kept.fencePass {s : State} {x : Qx} {q : SqEntry} {scope : Scope} (h : s.Kept m c) :
    (s.fencePass x q scope).Kept m c := by
  unfold State.fencePass
  extract_lets
  split
  · exact h
  · exact (h.acquire.onBlock (fun _ hb => hb.foldl (fun _ _ hb2 => hb2.fenceLearn))).onGrp (fun _ hg => hg)

theorem State.Kept.carried {s : State} {bid : Nat} {kind : SqKind} {e : SqElem} (h : s.Kept m c) :
    (s.carried bid kind e).Kept m c := by
  unfold State.carried
  split
  · exact h
  · exact h.onBlock (fun _ hb => hb.stampBytes)

theorem State.Kept.homePerform {s : State} {bid core : Nat} {src : Origin} {kind : SqKind} {e : SqElem} (h : s.Kept m
    c) :
    (s.homePerform bid core src kind e).Kept m c := by
  unfold State.homePerform
  split
  · split
    · split
      · exact h.carried.send
      · exact h.carried.arrive.dropLine.countBy
    · exact h.carried.localWrite
  · split
    · split
      · exact h.carried.send
      · exact h.carried.arrive.dropLine.countBy
    · exact h.carried.localWrite
  split
  · split
    · exact h.carried.send
    · exact h.carried.arrive.dropLine.countBy
  · exact h.carried.localWrite

theorem State.Kept.releaseHead {s : State} {x : Qx} {q : SqEntry} {primary : Bool} (h : s.Kept m c) :
    (s.releaseHead x q primary).Kept m c := by
  unfold State.releaseHead
  split
  · split
    · exact h.releaseStep.relWrite.setHead
    · exact h.releaseStep.relWrite.stageElems.setHead
  · refine State.Kept.fencePass (State.Kept.setHead ?_)
    split
    · exact h.releaseStep.onBlock (fun _ hb => hb.foldl (fun _ _ hb2 => hb2.fenced))
    · exact h.releaseStep
  · split
    · refine State.Kept.setHead (h.releaseStep.foldl (fun _ _ ht => ?_))
      split
      · exact ht.homePerform
      · exact ht.carried
    · exact h.releaseStep.reductionLeaves
  · exact h

theorem State.Kept.releaseLeaves {s : State} {x : Qx} {q : SqEntry} {scope : Scope} (h : s.Kept m c) :
    (s.releaseLeaves x q scope).Kept m c := by
  unfold State.releaseLeaves
  split
  · exact h
  split
  · exact h.flush
  split
  · exact h.releaseCommit
  · exact h.releaseHead

theorem State.Kept.tbarrLeaves {x : Qx} {q : SqEntry} {off darr : Nat} {dsec : Int} (h : s.Kept m c) :
    (s.tbarrLeaves x q off darr dsec).Kept m c := by
  unfold State.tbarrLeaves
  split
  · exact h
  extract_lets t u
  have ht : t.Kept m c := h.releaseStep.setHead
  clear_value t
  split
  · exact ht
  · refine State.Kept.tbApply ?_
    unfold u
    split
    · exact ht
    · exact ht.onBlock fun _ hb => hb.tbNote

theorem State.Kept.threadGrps {n i : Nat} (h : s.Kept m c) : All (Grp.Kept c) (s.threadGrps n i) := by
  unfold State.threadGrps
  split
  · split
    next k hk =>
      have hc := h.cc hk
      refine All.cons hc.1 ?_
      cases ht : k.trap with
      | none => exact All.nil
      | some x => exact hc.2 x ht
    · exact All.nil
  · refine All.append ?_ (h.traps.filter.flatMap fun _ ht => ht)
    cases hb : s.block? n with
    | none => exact All.nil
    | some b => exact h.block hb

theorem State.Kept.waitaDone {e : Env} {sh : Shape} {d : RegN} {ms : List WaitM} {echo : State → State} (h : s.Kept m c)
    (he : e.grp.Kept c) (hx : ∀ t, t.Kept m c → (echo t).Kept m c) : (s.waitaDone e sh d ms echo).Kept m c := by
  unfold State.waitaDone
  extract_lets v
  split
  · exact h
  next t f hq => exact State.Kept.access (hx t (h.forwarding (fun _ _ ht => ht) hq)) he.write

theorem State.Kept.baraLeaves {s : State} {x : Qx} {q : SqEntry} {n : Nat} (h : s.Kept m c) :
    (s.baraLeaves x q n).Kept m c := by
  unfold State.baraLeaves
  split
  · exact h
  · exact (h.setHead.onBlock (fun _ hb => hb.foldl (fun _ _ hb2 => hb2.arrive))).barriers

theorem State.Kept.execStoreToCorePoint {q : Who} {s : State} (h : s.Kept m c) :
    NextKept m c (execStoreToCorePoint q s) := by
  unfold Machine.execStoreToCorePoint
  split
  · exact h
  split
  · exact h
  split
  · exact h.storeLeaves
  · exact h.releaseLeaves
  · exact h.reductionLeaves
  · exact h.releaseLeaves
  · exact h.reductionLeaves
  · exact h.releaseLeaves
  · exact h.baraLeaves
  · exact h.tbarrLeaves

theorem State.Kept.execStoreToDiePoint {core i : Nat} {s : State} (h : s.Kept m c) :
    NextKept m c (execStoreToDiePoint core i s) := by
  unfold Machine.execStoreToDiePoint
  split
  · exact h
  · exact h.coreToDie

theorem State.Kept.execStoreToHome {die i : Nat} {s : State} (h : s.Kept m c) :
    NextKept m c (execStoreToHome die i s) := by
  unfold Machine.execStoreToHome
  split
  · exact h
  · exact h.dieToHome

theorem State.Kept.execQuietReductionPerform {hid i : Nat} {s : State} (h : s.Kept m c) :
    NextKept m c (execQuietReductionPerform hid i s) := by
  unfold Machine.execQuietReductionPerform
  split
  · exact h
  split
  · extract_lets
    split
    · exact h
    · exact h.homePerform
  · exact h

theorem State.Kept.execAddOnStorePerform {hid : Nat} {s : State} (h : s.Kept m c) :
    NextKept m c (execAddOnStorePerform hid s) := by
  unfold Machine.execAddOnStorePerform
  split
  · exact h
  split
  · split
    · exact h
    · exact State.Kept.addonWatch (h.foldl (fun _ _ ht => ht.homePerform))
  · exact h

theorem State.Kept.execLoadCacheDrop {core i : Nat} {fetchUnit : Bool} {s : State} (h : s.Kept m c) :
    NextKept m c (execLoadCacheDrop core i fetchUnit s) := by
  unfold Machine.execLoadCacheDrop
  split
  · extract_lets
    split
    · exact h.setCore
    · exact h
  extract_lets
  split
  · exact h.setCore
  · exact h

theorem State.Kept.retry {s : State} {w : Who} {st : Stat} (h : s.Kept m c) :
    (s.retry w st).Kept m c := h.onUnit

theorem State.Kept.execParkResume {q : Who} {s : State} (h : s.Kept m c) :
    NextKept m c (execParkResume q s) := h.retry

theorem State.Kept.execSharedLoadRead {q : Who} {s : State} (h : s.Kept m c) :
    NextKept m c (execSharedLoadRead q s) := h.retry

theorem State.Kept.execForwardedValue {q : Who} {s : State} (h : s.Kept m c) :
    NextKept m c (execForwardedValue q s) := h.retry

theorem State.Kept.issueAtoms {s : State} {e : Env} {op d : Nat} {scope : Scope} {order : Order} {b cmp : Nat → W64}
    {els : List Elem} (h : s.Kept m c) :
    (s.issueAtoms e op d scope order b cmp els).Kept m c := h.foldl (fun _ _ ht => ht)

theorem State.Kept.atomic {s : State} {op : Nat} {d a b : RegN} {scope : Scope} {order : Order} (h : s.Kept m c) :
    NextKept m c (s.atomic op d a b scope order) := by
  unfold State.atomic
  refine h.runWord (fun _ _ ht hg => ?_)
  split
  · trivial
  split
  · extract_lets
    split
    next hq3 => exact ht.checks.bad hq3
    next hq3 =>
      split
      · exact ht.checks.ok hq3
      · exact ((ht.checks.ok hq3).issueAtoms).access (hg.foldl (fun _ _ hg2 => hg2.claim))
  extract_lets
  split
  next hq3 => exact ht.checks.bad hq3
  next hq3 =>
    split
    · exact ht.checks.ok hq3
    · exact ((ht.checks.ok hq3).issueAtoms).access (hg.foldl (fun _ _ hg2 => hg2.claim))

theorem State.Kept.quiet {s : State} {op : Nat} {a b : RegN} {scope : Scope} {order : Order} (h : s.Kept m c) :
    NextKept m c (s.quiet op a b scope order) := by
  unfold State.quiet
  refine h.runWord (fun _ _ ht hg => ?_)
  split
  · trivial
  split
  next hq2 => exact ht.checks.bad hq2
  next hq2 =>
    split
    · exact ht.checks.ok hq2
    · exact (ht.checks.ok hq2).access (State.Kept.queueStores hg)

theorem State.Kept.execAadd {d a b : RegN} {scope : Scope} {order : Order} {s : State} (h : s.Kept m c) :
    NextKept m c (execAadd d a b scope order s) := h.atomic

theorem State.Kept.execAimin {d a b : RegN} {scope : Scope} {order : Order} {s : State} (h : s.Kept m c) :
    NextKept m c (execAimin d a b scope order s) := h.atomic

theorem State.Kept.execAimax {d a b : RegN} {scope : Scope} {order : Order} {s : State} (h : s.Kept m c) :
    NextKept m c (execAimax d a b scope order s) := h.atomic

theorem State.Kept.execAnmin {d a b : RegN} {scope : Scope} {order : Order} {s : State} (h : s.Kept m c) :
    NextKept m c (execAnmin d a b scope order s) := h.atomic

theorem State.Kept.execAnmax {d a b : RegN} {scope : Scope} {order : Order} {s : State} (h : s.Kept m c) :
    NextKept m c (execAnmax d a b scope order s) := h.atomic

theorem State.Kept.execAand {d a b : RegN} {scope : Scope} {order : Order} {s : State} (h : s.Kept m c) :
    NextKept m c (execAand d a b scope order s) := h.atomic

theorem State.Kept.execAor {d a b : RegN} {scope : Scope} {order : Order} {s : State} (h : s.Kept m c) :
    NextKept m c (execAor d a b scope order s) := h.atomic

theorem State.Kept.execAxor {d a b : RegN} {scope : Scope} {order : Order} {s : State} (h : s.Kept m c) :
    NextKept m c (execAxor d a b scope order s) := h.atomic

theorem State.Kept.execAxch {d a b : RegN} {scope : Scope} {order : Order} {s : State} (h : s.Kept m c) :
    NextKept m c (execAxch d a b scope order s) := h.atomic

theorem State.Kept.execAcas {d a b : RegN} {scope : Scope} {order : Order} {s : State} (h : s.Kept m c) :
    NextKept m c (execAcas d a b scope order s) := h.atomic

theorem State.Kept.execAfadd {d a b : RegN} {scope : Scope} {order : Order} {s : State} (h : s.Kept m c) :
    NextKept m c (execAfadd d a b scope order s) := h.atomic

theorem State.Kept.execAaddw {d a b : RegN} {scope : Scope} {order : Order} {s : State} (h : s.Kept m c) :
    NextKept m c (execAaddw d a b scope order s) := h.atomic

theorem State.Kept.execAxchw {d a b : RegN} {scope : Scope} {order : Order} {s : State} (h : s.Kept m c) :
    NextKept m c (execAxchw d a b scope order s) := h.atomic

theorem State.Kept.execAcasw {d a b : RegN} {scope : Scope} {order : Order} {s : State} (h : s.Kept m c) :
    NextKept m c (execAcasw d a b scope order s) := h.atomic

theorem State.Kept.execQadd {a b : RegN} {scope : Scope} {order : Order} {s : State} (h : s.Kept m c) :
    NextKept m c (execQadd a b scope order s) := h.quiet

theorem State.Kept.execQimin {a b : RegN} {scope : Scope} {order : Order} {s : State} (h : s.Kept m c) :
    NextKept m c (execQimin a b scope order s) := h.quiet

theorem State.Kept.execQimax {a b : RegN} {scope : Scope} {order : Order} {s : State} (h : s.Kept m c) :
    NextKept m c (execQimax a b scope order s) := h.quiet

theorem State.Kept.execQand {a b : RegN} {scope : Scope} {order : Order} {s : State} (h : s.Kept m c) :
    NextKept m c (execQand a b scope order s) := h.quiet

theorem State.Kept.execQor {a b : RegN} {scope : Scope} {order : Order} {s : State} (h : s.Kept m c) :
    NextKept m c (execQor a b scope order s) := h.quiet

theorem State.Kept.execQxor {a b : RegN} {scope : Scope} {order : Order} {s : State} (h : s.Kept m c) :
    NextKept m c (execQxor a b scope order s) := h.quiet

theorem State.Kept.execQfadd {a b : RegN} {scope : Scope} {order : Order} {s : State} (h : s.Kept m c) :
    NextKept m c (execQfadd a b scope order s) := h.quiet

theorem State.Kept.execQbadd2 {a b : RegN} {scope : Scope} {order : Order} {s : State} (h : s.Kept m c) :
    NextKept m c (execQbadd2 a b scope order s) := h.quiet

theorem State.Kept.atomRel {s : State} {a : PAtomic} (h : s.Kept m c) :
    (s.atomRel a).Kept m c := by
  unfold State.atomRel
  split
  · refine State.Kept.flush ?_
    split
    · exact h.onBlock (fun _ hb => hb.publish)
    · exact h
  · exact h

theorem State.Kept.atomAcq {s : State} {a : PAtomic} {old : Nat} (h : s.Kept m c) :
    (s.atomAcq a old).Kept m c := by
  unfold State.atomAcq
  split
  · split
    · extract_lets
      split
      · exact h.acquire.onBlock (fun _ hb => hb.noteRead)
      · exact h.acquire
    extract_lets
    split
    · exact h.acquire.onBlock (fun _ hb => hb.noteRead.stampBytes)
    · exact h.acquire
  split
  · extract_lets
    split
    · exact h.onBlock (fun _ hb => hb.noteRead)
    · exact h
  extract_lets
  split
  · exact h.onBlock (fun _ hb => hb.noteRead.stampBytes)
  · exact h

theorem State.Kept.atomDo {s : State} {a : PAtomic} (h : s.Kept m c) :
    (s.atomDo a).1.Kept m c := by
  unfold State.atomDo
  refine State.Kept.atomAcq ?_
  split
  · refine State.Kept.countBy (State.Kept.dropLine ?_)
    split
    · exact h.atomRel
    · exact h.atomRel.arrive
  split
  · exact h.atomRel
  · exact h.atomRel.localWrite

theorem Grp.Kept.land {g : Grp} {idx d : Nat} {wide : Bool} {v : W64} {solo : Bool} (hg : g.Kept c) :
    (g.land idx d wide v solo).Kept c := by
  unfold Grp.land
  split
  · exact hg.write
  split
  · extract_lets
    split
    · exact hg
    · exact hg.write
  extract_lets
  split
  · exact hg
  · exact hg.write

theorem State.Kept.atomLand {s : State} {a : PAtomic} {old : Nat} (h : s.Kept m c) :
    (s.atomLand a old).Kept m c := by
  unfold State.atomLand
  split
  · refine h.onCc (fun _ hk => ?_)
    split
    · refine hk.mapTrap ?_
      exact fun _ hx => hx.map (fun _ hg => hg.land.relsOf)
    · exact hk.withGrp hk.1.land.relsOf
  split
  · exact h.withTraps (h.traps.mapIf (fun _ hx => hx.map (fun _ hg => hg.land.relsOf)))
  · exact h.onBlock (fun _ hb => hb.map (fun _ hg => hg.land.relsOf))

theorem State.Kept.atomDone {s : State} {a : PAtomic} {old : Nat} (h : s.Kept m c) :
    (s.atomDone a old).Kept m c := by
  unfold State.atomDone
  split
  · exact h.onBlock (fun _ hb => hb.enter)
  · exact h

theorem State.Kept.atomFabric {a : PAtomic} {x : Nat} (h : s.Kept m c) : (s.atomFabric a x).Kept m c := by
  unfold State.atomFabric
  extract_lets n mine
  split
  next f _ =>
    split
    · have ht : State.Kept m c { s with fabric := s.fabric.filter fun g => g.fid != f.fid } := h
      exact ht.atomAcq.atomLand
    · exact h
  next hq => exact h.atomRel.fresh

theorem State.Kept.atomEcho {s : State} {a : PAtomic} {old : Nat} (h : s.Kept m c) :
    (s.atomEcho a old).Kept m c := h.atomRel.atomAcq

theorem State.Kept.atomAll {s : State} {b : Block} {idx old : Nat} (h : s.Kept m c) :
    (s.atomAll b idx old).Kept m c := by
  unfold State.atomAll
  refine h.foldl (fun _ _ ht => ?_)
  split
  · refine State.Kept.atomLand (State.Kept.atomDone ?_)
    split
    · exact ht.atomAcq
    · exact ht.atomEcho
  · exact ht

theorem State.Kept.ccFail {s : State} {c' : Nat} {va : W64} (h : s.Kept m c) :
    (s.ccFail c' va).Kept m c := by
  unfold State.ccFail
  split
  · extract_lets
    split
    · exact h.trapWord
    · exact h
  extract_lets
  split
  · exact h.trapWord
  · exact h

theorem State.Kept.atomLost {s : State} {a : PAtomic} (h : s.Kept m c) :
    (s.atomLost a).Kept m c := by
  unfold State.atomLost
  split
  · refine State.Kept.ccFail ?_
    exact h
  split
  · exact h.storageEnd
  · exact h

theorem State.Kept.atomPlain {s : State} {a : PAtomic} (h : s.Kept m c) :
    (s.atomPlain a).Kept m c := by
  unfold State.atomPlain
  split
  · exact h.atomFabric
  · exact h.atomDo.atomLand

theorem State.Kept.atomStaged {s : State} {a : PAtomic} {b : Block} {l : Launch} (h : s.Kept m c) :
    (s.atomStaged a b l).Kept m c := by
  unfold State.atomStaged
  split
  · extract_lets
    split
    · exact h
    refine State.Kept.atomAll ?_
    exact h
  split
  · exact h
  split
  · exact h.submit
  split
  · exact h
  split
  · exact h.detCommit.atomFabric
  · exact h.detCommit.atomDo.atomDone.atomLand

theorem State.Kept.execAtomicPerform {aid : Nat} {s : State} (h : s.Kept m c) :
    NextKept m c (execAtomicPerform aid s) := by
  unfold Machine.execAtomicPerform
  split
  · exact h
  split
  · exact h
  split
  · exact h.flush
  split
  · exact h.atomLost
  split
  · split
    · exact h.atomStaged
    · exact h.atomPlain
  · exact h.atomPlain

theorem State.Kept.waitaRead {s : State} {e : Env} {acq : Bool} {scope : Scope} {cmp : List W32} {ms : List WaitM} (h
    : s.Kept m c) :
    (s.waitaRead e acq scope cmp ms).1.Kept m c := by
  unfold State.waitaRead
  refine State.Kept.noteReads ?_
  split
  · exact h.readAll.acquire
  · exact h.readAll

theorem State.Kept.labelForward {s : State} {e : Env} {acq : Bool} (h : s.Kept m c) :
    (s.labelForward e acq).Kept m c := by
  unfold State.labelForward
  split
  · exact h.onBlock (fun _ hb => hb.foldl (fun _ _ hb2 => hb2.labelled))
  · exact h

theorem State.Kept.execWaita {d a b : RegN} {scope : Scope} {order : Order} (h : s.Kept m c) :
    NextKept m c (Machine.execWaita d a b scope order s) := by
  unfold Machine.execWaita
  extract_lets sh
  refine h.runWord fun t e ht he => ?_
  split
  · trivial
  split
  next hq => exact ht.checks.bad hq
  next u els hq =>
    have hu : u.Kept m c := ht.checks.ok hq
    extract_lets l shared replica
    clear_value shared replica
    split
    · exact hu
    split
    · refine hu.waitaDone he fun v hv => State.Kept.noteReads ?_
      split
      · exact hv.acquire
      · exact hv
    split
    · trivial
    split
    · exact hu
    split
    next v asked hv =>
      have hv : v.Kept m c := hu.askFabric.fst hv
      split
      · exact hv
      refine hv.sound ?_
      extract_lets
      split
      next hr =>
        have hw := (hv.waitaRead.fst hr).takeFabric (e := e) (els := els)
        split
        · exact hw.waitaDone he fun _ hx => hx.labelForward
        · exact hw

theorem State.Kept.waitaEnd {w : Who} {e : Env} {d : RegN} {ms : List WaitM} (h : s.Kept m c) (he : e.grp.Kept c) :
    (s.waitaEnd w e d ms).Kept m c := by
  unfold State.waitaEnd
  extract_lets t u y e1 sh
  have ht : t.Kept m c := h.onUnit
  have hw := ht.waitaDone (e := e1) (sh := sh) (d := d) (ms := ms) (echo := (·.labelForward e1 (waitaMode u).2))
    he.setUnit
    fun _ hx => hx.labelForward
  clear_value t e1
  split
  next hq => exact State.Kept.finish (hw.doneState hq) (hw.doneGrp hq)
  next hq => exact hw.moved hq
  · exact ht

theorem State.Kept.waitaAgain {w : Who} {force : Bool} (h : s.Kept m c) : (s.waitaAgain w force).Kept m c := by
  unfold State.waitaAgain
  split
  · exact h
  next e hq =>
    have he := h.env hq
    split
    · split
      extract_lets els
      split
      next t asked hq =>
        have ht := h.askFabric.fst hq
        split
        · split
          · exact h.waitaEnd he
          · exact ht
        split
        next hs => exact State.Kept.dataFault (Eff.Kept.fault (ht.sound (f := .wait) trivial) hs)
        split
        next hr =>
          have hx := (ht.waitaRead.fst hr).takeFabric (e := e) (els := els)
          split
          · exact hx.waitaEnd he
          · exact hx.onUnit
    · exact h

theorem State.Kept.engPages {x : Ctx} {d : Nat} {need : Need} {l : List (Nat × List Nat)} (h : s.Kept m c) :
    (s.engPages x d need l).1.Kept m c := by
  induction l generalizing s with
  | nil => exact h
  | cons p l ih =>
    unfold State.engPages
    extract_lets va
    split
    · exact h
    split
    next hq => exact h.translate.fst hq
    next hq =>
      have ht := h.translate.fst hq
      extract_lets base
      split
      · exact ht
      split
      · exact ht
      split
      · exact ht
      split
      next hr => exact (ih ht).fst hr
      · exact ih ht

theorem State.Kept.engAsk {x : Eng} {l : List (Nat × Nat)} (h : s.Kept m c) : (s.engAsk x l).1.Kept m c := by
  refine All.foldl (p := fun _ => True) (r := fun a : State × Bool => a.1.Kept m c) (fun _ _ => trivial) h fun a x ha
    _ => ?_
  split
  · exact ha
  extract_lets t
  split
  · exact ha
  · exact ha

end

end Sys2Proof.Machine
end

