-- ==== Sys2Proof/Proofs/KeptEngines.lean ====
section
/-! PROOF. Engines, matrix words, copies and SIFT words keep it. -/

namespace Sys2Proof.Machine

section
variable {m c : Prop} {s : State}

theorem State.Kept.execWaitaWake {q : Who} {s : State} (h : s.Kept m c) :
    NextKept m c (execWaitaWake q s) := h.waitaAgain

theorem State.Kept.execWaitaEnd {q : Who} {s : State} (h : s.Kept m c) :
    NextKept m c (execWaitaEnd q s) := h.waitaAgain

theorem State.Kept.setReq {s : State} {bid : Nat} {r : EReq} (h : s.Kept m c) :
    (s.setReq bid r).Kept m c := h.onBlock (fun _ hb => hb)

theorem State.Kept.dropReq {s : State} {bid rid : Nat} (h : s.Kept m c) :
    (s.dropReq bid rid).Kept m c := h.onBlock (fun _ hb => hb)

theorem State.Kept.engIssue {s : State} {e : Env} {kind : EKind} {ins outs : List (Nat × Nat)} {undef : Bool} (h :
    s.Kept m c) :
    (s.engIssue e kind ins outs undef).Kept m c := h.onBlock (fun _ hb => hb)

theorem State.Kept.engFault {s : State} {x : Eng} {acc va kind level : Nat} (h : s.Kept m c) :
    (s.engFault x acc va kind level).Kept m c := by
  unfold State.engFault
  split
  · exact h.storageEnd
  split
  · exact h.endFault
  · exact h.setReq.record

theorem State.Kept.engFill {s : State} {x : Eng} {pas : List Nat} (h : s.Kept m c) :
    (s.engFill x pas).Kept m c := by
  unfold State.engFill
  split
  · refine h.foldl (fun _ _ ht => ?_)
    extract_lets
    split
    · exact ht
    · exact ht.setCore
  · exact h

theorem State.Kept.readSrcs {s : State} {x : Eng} {l : List CSrc} (h : s.Kept m c) :
    (s.readSrcs x l).Kept m c := by
  unfold State.readSrcs
  extract_lets
  split
  next hq =>
    have ht := h.engPages.fst hq
    exact ht
  next hq =>
    have ht := h.engPages.fst hq
    exact ht
  next hq =>
    have ht := h.engPages.fst hq
    split
    next hq2 =>
      have ht2 := ht.engAsk.fst hq2
      split
      · exact ht2
      extract_lets
      split
      · exact ht2
      split
      next hq5 =>
        have ht3 := ht2.engPages.fst hq5
        exact ht3
      next hq5 =>
        have ht3 := ht2.engPages.fst hq5
        exact ht3
      next hq5 =>
        have ht3 := ht2.engPages.fst hq5
        split
        next hq6 =>
          have ht4 := ht3.engAsk.fst hq6
          split
          · exact ht4
          split
          · exact ht4
          · exact State.Kept.foldl ht4.engFill (fun _ _ ht5 => ht5.touchOuts)

theorem Block.Kept.await {b : Block} {k : Nat} (hb : b.Kept c) :
    (b.await k).Kept c := hb

theorem Block.Kept.arrived {b : Block} {k : Nat} (hb : b.Kept c) :
    (b.arrived k).Kept c := hb

theorem State.Kept.execCopySourceRead {bid rid sec first n : Nat} {s : State} (h : s.Kept m c) :
    NextKept m c (execCopySourceRead bid rid sec first n s) := by
  unfold Machine.execCopySourceRead
  split
  · exact h
  split
  · extract_lets
    split
    · exact h
    split
    · exact h
    split
    next hq5 => exact h.readSrcs.wait hq5
    next hq5 => exact (h.readSrcs.fault hq5).engFault
    next hq5 => exact ((h.readSrcs.vals hq5).setReq).onBlock (fun _ hb => hb)
  extract_lets
  split
  · exact h
  split
  · exact h
  split
  next hq5 => exact h.readSrcs.wait hq5
  next hq5 => exact (h.readSrcs.fault hq5).engFault
  next hq5 => exact (h.readSrcs.vals hq5).setReq

theorem State.Kept.writeSector {s : State} {x : Eng} {m' : List (Nat × Nat)} {ms : List CMove} (h : s.Kept m c) :
    (s.writeSector x m' ms).Kept m c := h.foldl (fun _ _ ht => ht.arrive)

theorem State.Kept.writeSpad {s : State} {bid : Nat} {ms : List (Nat × CMove)} (h : s.Kept m c) :
    (s.writeSpad bid ms).Kept m c := h.foldl (fun _ _ ht => ht.spadWrite)

theorem State.Kept.overtake {s : State} {x : Eng} {sec : CSec} (h : s.Kept m c) :
    (s.overtake x sec).Kept m c := by
  unfold State.overtake
  extract_lets
  split
  · exact h
  · exact h.withBlocks (h.blocks.mapIf (fun _ hb => hb))

theorem State.Kept.secWrite {s : State} {x : Eng} {i : Nat} {sec : CSec} (h : s.Kept m c) :
    (s.secWrite x i sec).Kept m c := by
  unfold State.secWrite
  split
  · exact h.writeSpad
  · exact h.writeSpad
  · exact (h.onBlock (fun _ hb => hb.onPart)).slotSyncObuf
  split
  · extract_lets
    split
    next hq3 =>
      have ht := h.engPages.fst hq3
      exact ht
    next hq3 =>
      have ht := h.engPages.fst hq3
      exact ht
    next hq3 =>
      have ht := h.engPages.fst hq3
      split
      next hq4 =>
        have ht2 := ht.stage.fst hq4
        exact ht2
      next hq4 =>
        have ht2 := ht.stage.fst hq4
        exact ht2
  extract_lets
  split
  next hq3 =>
    have ht := h.engPages.fst hq3
    exact ht
  next hq3 =>
    have ht := h.engPages.fst hq3
    exact ht
  next hq3 =>
    have ht := h.engPages.fst hq3
    exact ht.writeSector

theorem State.Kept.engDone {s : State} {bid : Nat} {r : EReq} {aw : Await} (h : s.Kept m c) :
    (s.engDone bid r aw).Kept m c := by
  unfold State.engDone
  split
  · exact h
  split
  · exact h.dropReq.onBlock (fun _ hb => hb.onPart)
  · exact h
  · exact h.dropReq

theorem State.Kept.secDone {s : State} {x : Eng} {i : Nat} {sec : CSec} {live : Bool} (h : s.Kept m c) :
    (s.secDone x i sec live).Kept m c := by
  unfold State.secDone
  split
  · exact h
  refine State.Kept.engDone ?_
  split
  · split
    · refine State.Kept.tbApply ?_
      split
      · split
        · exact h.setReq
        · exact h.setReq.onBlock (fun _ hb => hb.arrived)
      · exact h.setReq
    split
    · split
      · exact h.setReq
      · exact h.setReq.onBlock (fun _ hb => hb.arrived)
    · exact h.setReq
  split
  · split
    · exact h.setReq
    · exact h.setReq.onBlock (fun _ hb => hb.arrived)
  · exact h.setReq

theorem State.Kept.engWatch {x : Eng} {k : CSec} (h : s.Kept m c) : (s.engWatch x k).Kept m c := by
  unfold State.engWatch
  extract_lets fill k wps vas
  split
  · exact h
  refine h.foldl fun t y ht => ?_
  split
  · exact ht
  · split
    · split
      · exact ht
      · exact State.Kept.report (State.Kept.trigger (ht.onBlock fun _ hb => hb))
    · exact ht

theorem State.Kept.unitAhead {s : State} {x : Eng} {i : Nat} {sec : CSec} {u : Nat} (h : s.Kept m c) :
    (s.unitAhead x i sec u).Kept m c := by
  unfold State.unitAhead
  split
  · extract_lets
    split
    · exact h
    split
    next hq3 => exact h.secWrite.later hq3
    next hq3 => exact (h.secWrite.fault hq3).engFault
    next hq3 => exact (((h.secWrite.ok hq3).engWatch).overtake).onBlock (fun _ hb => hb)
  extract_lets
  split
  · exact h
  split
  next hq3 => exact h.secWrite.later hq3
  next hq3 => exact (h.secWrite.fault hq3).engFault
  next hq3 => exact (((h.secWrite.ok hq3).engWatch).overtake).onBlock (fun _ hb => hb)

theorem State.Kept.execSectorPerformed {n r : Nat} {p : SecPart} (h : s.Kept m c) :
    NextKept m c (Machine.execSectorPerformed n r p s) := by
  unfold Machine.execSectorPerformed
  refine State.Kept.next ?_
  split
  · exact h
  next x _ =>
    extract_lets secs gone
    clear_value gone
    split
    · exact h
    split
    · split
      · exact h
      · exact h.unitAhead
    · split
      · exact h
      split
      · exact h.secDone
      split
      next hq => exact h.secWrite.later hq
      next hq => exact (h.secWrite.fault hq).engFault
      next hq => exact (h.secWrite.ok hq).engWatch.overtake.secDone

theorem State.Kept.recordAt {s : State} {e : Env} {off : Nat} {f : State → Block → Nat → Eff} (h : s.Kept m c) (hf :
    ∀ (x0 : State) (x1 : Block) (x2 : Nat), x0.Kept m c → x1.Kept c → (f x0 x1 x2).Kept m c) :
    (s.recordAt e off f).Kept m c := by
  unfold State.recordAt
  refine Eff.Kept.ranged ?_
  split
  · trivial
  next hq =>
    have hb := h.block hq
    split
    · exact h
    split
    · trivial
    split
    · exact h
    · exact hf _ _ _ h.touch hb

theorem Eff.Kept.handleTrap {e : Env} {h' : Nat} :
    (e.handleTrap h').Kept m c := trivial

theorem State.Kept.heldEntry {s : State} {e : Env} {n : Nat} {now : BitVec 512} (h : s.Kept m c) :
    (s.heldEntry e n now).1.Kept m c := by
  unfold State.heldEntry
  split
  · exact h
  extract_lets
  split <;> exact h

theorem State.Kept.entryBytes {s : State} {e : Env} {va : W64} {pa : Nat} (h : s.Kept m c) :
    (s.entryBytes e va pa).1.Kept m c := by
  unfold State.entryBytes
  split
  · exact h
  split
  next hq2 =>
    have ht := h.snd hq2
    extract_lets
    split
    · split <;> exact h
    · exact ht

theorem State.Kept.handleAt {e : Env} {n : Nat} (h : s.Kept m c) : (s.handleAt e n).Kept m c := by
  unfold State.handleAt
  split
  · trivial
  extract_lets va
  split
  · trivial
  split
  next hq => exact h.translate.fst hq
  next hq =>
    have ht := h.translate.fst hq
    split
    · trivial
    split
    · exact ht
    split
    · trivial
    split
    next hr => exact ht.entryBytes.fst hr
    next hr =>
      split
      next hy =>
        have hk := (ht.entryBytes.fst hr).heldEntry.fst hy
        split
        · exact hk
        · trivial

theorem State.Kept.tileUsed {s : State} {e : Env} {t : Nat} (h : s.Kept m c) :
    (s.tileUsed e t).Kept m c := h.disturb

theorem State.Kept.tileWritten {s : State} {e : Env} {t : Nat} (h : s.Kept m c) :
    (s.tileWritten e t).Kept m c := h.disturb

theorem State.Kept.maskRead {s : State} {e : Env} {m' : Nat} (h : s.Kept m c) :
    (s.maskRead e m').Kept m c := by
  unfold State.maskRead
  split
  · exact h
  · exact h.disturb

theorem State.Kept.mma {s : State} {diag : Bool} {tile : BitVec 4} {zero : Bool} {a : RegN} {resv : BitVec 4} {mask :
    PredN} {st : BitVec 2} (h : s.Kept m c) :
    NextKept m c (s.mma diag tile zero a resv mask st) := by
  unfold State.mma
  refine h.runWord (fun _ _ ht hg => ?_)
  split
  · trivial
  split
  · extract_lets
    split
    · trivial
    split
    · trivial
    split
    · trivial
    split
    · split
      · trivial
      · trivial
    · trivial
  extract_lets
  split
  · trivial
  split
  · trivial
  split
  · trivial
  split
  · split
    · trivial
    · exact ⟨ht.tileWritten.maskRead.engIssue, hg⟩
  · trivial

theorem State.Kept.execMma {tile : BitVec 4} {zero : Bool} {a : RegN} {resv : BitVec 4} {mask : PredN} {st : BitVec
    2} {s : State} (h : s.Kept m c) :
    NextKept m c (execMma tile zero a resv mask st s) := h.mma

theorem State.Kept.execMmab {tile : BitVec 4} {zero : Bool} {a : RegN} {resv : BitVec 4} {mask : PredN} {st : BitVec
    2} {s : State} (h : s.Kept m c) :
    NextKept m c (execMmab tile zero a resv mask st s) := h.mma

theorem State.Kept.engFinish {s : State} {bid : Nat} {r : EReq} (h : s.Kept m c) :
    (s.engFinish bid r).Kept m c := by
  unfold State.engFinish
  split
  · exact h.dropReq
  · exact h.setReq

theorem State.Kept.execMatrixPerform {n r : Nat} (h : s.Kept m c) : NextKept m c (execMatrixPerform n r s) := by
  unfold Machine.execMatrixPerform
  refine State.Kept.next ?_
  split
  · exact h
  split
  next x _ k _ =>
    extract_lets before onTile' filling p onTile key
    have hT : ∀ f, (onTile f).Kept m c := fun f => h.onBlock fun _ hb => hb.onPart
    clear_value onTile onTile' filling
    split
    · exact h.engFinish
    split
    · exact h
    split
    · exact (hT _).spend.engFinish
    split
    · exact h
    split
    · exact (hT _).spend.engFinish
    split
    · exact h.engFault
    · exact State.Kept.engFinish ((hT _).foldl fun _ _ ht => ht.touchOuts)
  · exact h

theorem State.Kept.onMyPart {s : State} {e : Env} {f : Part → Part} (h : s.Kept m c) :
    (s.onMyPart e f).Kept m c := h.onBlock (fun _ hb => hb.onPart)

theorem State.Kept.execMcfg {a : RegN} {st : BitVec 2} {s : State} (h : s.Kept m c) :
    NextKept m c (execMcfg a st s) := by
  unfold Machine.execMcfg
  refine h.groupWord (fun _ _ ht hg => ?_)
  extract_lets
  split
  · exact ⟨ht.onMyPart, hg⟩
  · trivial

theorem State.Kept.execMzero {tile : BitVec 4} {k40 : Bool} {st : BitVec 2} {s : State} (h : s.Kept m c) :
    NextKept m c (execMzero tile k40 st s) := h.groupWord (fun _ _ ht hg => ⟨ht.onMyPart.tileUsed.tileWritten, hg⟩)

theorem State.Kept.execMread {d a : RegN} {tile : BitVec 4} {mode : MreadMode} {st : BitVec 2} {s : State} (h :
    s.Kept m c) :
    NextKept m c (execMread d a tile mode st s) := by
  unfold Machine.execMread
  refine h.runWord (fun _ _ ht hg => ?_)
  split
  · trivial
  · exact ⟨ht.tileUsed.spend, Env.Kept.write hg⟩

theorem State.Kept.execMwrite {tile : BitVec 4} {a b : RegN} {i32 : Bool} {st : BitVec 2} {s : State} (h : s.Kept m c) :
    NextKept m c (execMwrite tile a b i32 st s) := by
  unfold Machine.execMwrite
  refine h.runWord (fun _ _ ht hg => ?_)
  split
  · trivial
  · exact ⟨ht.onMyPart.tileUsed.tileWritten, hg⟩

theorem State.Kept.drainAdd {e : Env} {k : Bool} {t : Nat} {va : Nat → Nat} {f : Nat → Nat → W40} (h : s.Kept m c)
    (he : e.grp.Kept c) : (s.drainAdd e k t va f).Kept m c := by
  unfold State.drainAdd
  extract_lets w
  have hw : w.Kept m c := Walked.Kept.foldl (w := ⟨s, [], [], [], false⟩) h fun _ _ hw => hw.foldl fun _ _ hw => hw.one
  clear_value w
  split
  · trivial
  split
  · exact hw
  split
  · trivial
  split
  · trivial
  · exact ⟨hw, he⟩

theorem State.Kept.drainPlain {e : Env} {t : Nat} {va : Nat → Nat} {f : Nat → List Byte} (h : s.Kept m c) :
    (s.drainPlain e t va f).Kept m c := h.foldl fun _ _ ht => ht.engIssue

theorem State.Kept.execMdrain {t : BitVec 4} {a b : RegN} {add : Bool} {st : BitVec 2} (h : s.Kept m c) :
    NextKept m c (execMdrain t a b add st s) := by
  unfold Machine.execMdrain
  extract_lets k
  refine h.runWord fun u e hu he => ?_
  split
  · trivial
  extract_lets va ctl n x k40 mis out own opn t1 y known f0 elem t2 bytes
  have ht : t2.Kept m c := hu.spend.tileUsed.spend
  clear_value t2 own
  split
  · trivial
  split
  · trivial
  split
  · trivial
  split
  · exact hu
  split
  · trivial
  split
  · exact ht.drainAdd he
  · exact ⟨ht.drainPlain, he⟩

theorem State.Kept.waited {s : State} {e : Env} {p : EReq → Bool} (h : s.Kept m c) :
    (s.waited e p).Kept m c := h.onBlock (fun _ hb => hb)

theorem State.Kept.execMwait {tile : BitVec 4} {all : Bool} {st : BitVec 2} {s : State} (h : s.Kept m c) :
    NextKept m c (execMwait tile all st s) := by
  unfold Machine.execMwait
  refine h.groupWord (fun _ _ ht hg => ?_)
  split
  · extract_lets
    split
    · trivial
    · exact ⟨ht.waited.onBlock (fun _ hb => hb.foldl (fun _ _ hb2 => hb2.observe)), hg⟩
  extract_lets
  split
  · trivial
  · exact ⟨ht.waited.onBlock (fun _ hb => hb.foldl (fun _ _ hb2 => hb2.observe)), hg⟩

theorem State.Kept.execOfence {st : BitVec 2} {s : State} (h : s.Kept m c) :
    NextKept m c (execOfence st s) := by
  unfold Machine.execOfence
  refine h.groupWord (fun _ _ ht hg => ?_)
  extract_lets
  split
  · trivial
  · exact ⟨ht, hg⟩

theorem Eff.Kept.resvTrap {e : Env} :
    (e.resvTrap).Kept m c := trivial

theorem State.Kept.dropFill {s : State} {e : Env} {o : Nat} (h : s.Kept m c) :
    (s.dropFill e o).Kept m c := h.onBlock (fun _ hb => hb)

theorem State.Kept.forgetFill {s : State} {e : Env} {o : Nat} (h : s.Kept m c) :
    (s.forgetFill e o).Kept m c := h.onBlock (fun _ hb => hb)

theorem State.Kept.resvUsed {s : State} {e : Env} {o : Nat} (h : s.Kept m c) :
    (s.resvUsed e o).Kept m c := h.disturb

theorem State.Kept.setResv {s : State} {e : Env} {o : Nat} {v : Option Resv} (h : s.Kept m c) :
    (s.setResv e o v).Kept m c := h.onMyPart

theorem State.Kept.startFill {s : State} {e : Env} {o : Nat} {r : RRec} {h' : Handle} (h : s.Kept m c) :
    (s.startFill e o r h').Kept m c := h.engIssue

theorem State.Kept.bindWith {e : Env} {bad : Bool} {r : RRec} {f : State → Option Handle → Eff} (h : s.Kept m c)
    (hf : ∀ t o, t.Kept m c → (f t o).Kept m c) : (s.bindWith e bad r f).Kept m c := by
  unfold State.bindWith
  split
  · split
    · exact Eff.Kept.resvTrap
    · exact hf _ _ h
  split
  next hq =>
    split
    · exact Eff.Kept.resvTrap
    · exact h.handleAt.bad hq
  next hq =>
    extract_lets ls
    clear_value ls
    split
    · trivial
    split
    · exact Eff.Kept.resvTrap
    split
    · exact Eff.Kept.handleTrap
    split
    · exact Eff.Kept.resvTrap
    · exact hf _ _ (h.handleAt.entry hq)

theorem State.Kept.bindNow {s : State} {e : Env} {o : Nat} {r : RRec} {a : Option Handle} (h : s.Kept m c) :
    (s.bindNow e o r a).Kept m c := by
  unfold State.bindNow
  split
  · exact h.startFill
  · exact h

theorem State.Kept.execObres {resv : BitVec 4} {a : RegN} {st : BitVec 2} {s : State} (h : s.Kept m c) :
    NextKept m c (execObres resv a st s) := h.groupWord (fun _ _ ht hg => ht.recordAt (fun _ _ _ ht2 _ =>
      ht2.bindWith (fun _ _ ht3 => ⟨ht3.setResv.bindNow, hg⟩)))

theorem State.Kept.execObbind {resv : BitVec 4} {a : RegN} {st : BitVec 2} {s : State} (h : s.Kept m c) :
    NextKept m c (execObbind resv a st s) := by
  unfold Machine.execObbind
  refine h.groupWord (fun _ _ ht hg => ht.recordAt (fun _ _ _ ht2 _ => ?_))
  extract_lets
  split
  · exact ht2.bindWith (fun _ _ _ => Eff.Kept.resvTrap)
  · exact ht2.bindWith (fun _ _ ht3 => ⟨ht3.resvUsed.dropFill.setResv.bindNow, hg⟩)

theorem State.Kept.execObrel {resv : BitVec 4} {st : BitVec 2} {s : State} (h : s.Kept m c) :
    NextKept m c (execObrel resv st s) := h.groupWord (fun _ _ ht hg => ⟨ht.resvUsed.dropFill.forgetFill.setResv, hg⟩)

theorem State.Kept.execReservationFill {bid rid : Nat} {s : State} (h : s.Kept m c) :
    NextKept m c (execReservationFill bid rid s) := by
  unfold Machine.execReservationFill
  split
  · exact h
  split
  · split
    · exact h
    · exact h.dropReq.onBlock (fun _ hb => hb.onPart)
  · exact h

theorem Env.Kept.foldl {α : Type} {e : Env} {f : Env → α → Env} {l : List α} (he : e.grp.Kept c)
    (hf : ∀ k x, k.grp.Kept c → (f k x).grp.Kept c) : (l.foldl f e).grp.Kept c :=
  All.foldl (p := fun _ => True) (r := fun k : Env => k.grp.Kept c) (fun _ _ => True.intro) he fun k x hk _ => hf k x hk

theorem State.Kept.copyIssue {e : Env} {k : CopyWord} {d : CDesc} {arv : Bool} {x : Handle} {p : Option Nat}
    {rows : List CopyRow} (h : s.Kept m c) : (s.copyIssue e k d arv x p rows).Kept m c := by
  unfold State.copyIssue
  extract_lets resv r tbs t secs t1 t2 t3
  clear_value r
  have ht : t.Kept m c := by
    unfold t
    split
    · split
      · exact h.onMyPart
      · exact h
    · exact h
  have h2 : t2.Kept m c := State.Kept.onBlock ht.spend fun _ hb => hb.foldl fun _ _ hb => hb.await
  have h3 : t3.Kept m c := by
    unfold t3
    split
    · exact h2
    · exact h2.engIssue
  clear_value t3
  split
  · exact h3.tbApply
  · exact h3

theorem State.Kept.copy {e : Env} {b : Block} {k : CopyWord} {d : CDesc} {arv : Bool} {f : Nat → Nat} (h : s.Kept m c)
    (he : e.grp.Kept c) : (s.copy e b k d arv f).Kept m c := by
  unfold State.copy
  extract_lets t
  split
  · trivial
  · trivial
  split
  next hq => exact h.handleAt.bad hq
  next hq =>
    have ht := h.handleAt.entry hq
    extract_lets rows out peer wrong resv bad own
    clear_value out wrong bad own
    split
    · trivial
    split
    · trivial
    split
    · trivial
    split
    · trivial
    split
    · exact ht
    · exact ⟨ht.copyIssue, he⟩

end

end Sys2Proof.Machine
end

