-- ==== Sys2Proof/Proofs/KeptLaunches.lean ====
section
/-! PROOF. Commits, the lane words, launches and the saving of blocks keep it. -/

namespace Sys2Proof.Machine

section
variable {m c : Prop} {s : State}

theorem Eff.Kept.copyAt {off : Nat} {a : Eff} (ha : a.Kept m c) :
    (Eff.copyAt off a).Kept m c := by
  unfold Eff.copyAt
  split
  · trivial
  · exact ha

theorem State.Kept.execCpy {a : RegN} {arv : Bool} {st : BitVec 2} {s : State} (h : s.Kept m c) :
    NextKept m c (execCpy a arv st s) := h.groupWord (fun _ _ ht hg => ht.recordAt (fun _ _ _ ht2 _ => (ht2.copy
      hg).copyAt))

theorem State.Kept.execCpys {a : RegN} {arv : Bool} {st : BitVec 2} {s : State} (h : s.Kept m c) :
    NextKept m c (execCpys a arv st s) := h.groupWord (fun _ _ ht hg => ht.recordAt (fun _ _ _ ht2 _ => (ht2.copy
      hg).copyAt))

theorem State.Kept.execFetch {a b : RegN} {arv : Bool} {st : BitVec 2} {s : State} (h : s.Kept m c) :
    NextKept m c (execFetch a b arv st s) := by
  unfold Machine.execFetch
  refine h.groupWord (fun _ _ ht hg => ?_)
  split
  · trivial
  · exact ht.recordAt (fun _ _ _ ht2 _ => (ht2.copy hg).copyAt)

theorem Eff.Kept.siftTrap {e : Env} :
    (e.siftTrap).Kept m c := trivial

theorem State.Kept.siftIssue {s : State} {e : Env} {op : SiftOp} {ins outs : List (Nat × Nat)} {mask : Option Nat}
    {undef : Bool} (h : s.Kept m c) (he : e.grp.Kept c) :
    (s.siftIssue e op ins outs mask undef).Kept m c := by
  unfold State.siftIssue
  split
  · trivial
  · exact ⟨h.disturb.engIssue, he⟩

theorem Eff.Kept.siftRanges {e : Env} {align : Nat} {l : List (Nat × Nat)} {f : Eff} (hf : f.Kept m c) :
    (e.siftRanges align l f).Kept m c := by
  unfold Env.siftRanges
  split
  · trivial
  · trivial
  · exact hf

theorem State.Kept.maskWritten {s : State} {bid part m' : Nat} (h : s.Kept m c) :
    (s.maskWritten bid part m').Kept m c := by
  unfold State.maskWritten
  split
  · exact h
  · exact h.disturb.onBlock (fun _ hb => hb)

theorem State.Kept.execSfmax {tile : BitVec 4} {a b : RegN} {st : BitVec 2} {s : State} (h : s.Kept m c) :
    NextKept m c (execSfmax tile a b st s) := by
  unfold Machine.execSfmax
  refine h.groupWord (fun _ _ ht hg => ?_)
  split
  · extract_lets
    split
    · trivial
    refine Eff.Kept.siftRanges ?_
    split
    · exact Eff.Kept.siftTrap
    · exact ht.tileUsed.siftIssue hg
  extract_lets
  split
  · trivial
  refine Eff.Kept.siftRanges ?_
  split
  · exact Eff.Kept.siftTrap
  · exact ht.tileUsed.siftIssue hg

theorem State.Kept.execSfmask {mreg : PredN} {a b : RegN} {st : BitVec 2} {s : State} (h : s.Kept m c) :
    NextKept m c (execSfmask mreg a b st s) := h.groupWord (fun _ _ ht hg => (ht.maskWritten.siftIssue hg).siftRanges)

theorem State.Kept.execSfclr {mreg : PredN} {a : RegN} {maskOnly : Bool} {st : BitVec 2} {s : State} (h : s.Kept m c) :
    NextKept m c (execSfclr mreg a maskOnly st s) := h.groupWord (fun _ _ ht hg => (ht.maskWritten.siftIssue
      hg).siftRanges)

theorem State.Kept.siftDesc {s : State} {e : Env} {off : Nat} {op : BitVec 256 → SiftOp} {f : Nat → List (Nat × Nat)
    × List (Nat × Nat) × Bool} {inPlace : Bool} (h : s.Kept m c) (he : e.grp.Kept c) :
    (s.siftDesc e off op f inPlace).Kept m c := by
  unfold State.siftDesc
  refine Eff.Kept.siftRanges ?_
  split
  · trivial
  split
  · trivial
  extract_lets
  split
  refine Eff.Kept.siftRanges ?_
  split
  · exact Eff.Kept.siftTrap
  · exact h.siftIssue he

theorem State.Kept.execSftopk {a : RegN} {st : BitVec 2} {s : State} (h : s.Kept m c) :
    NextKept m c (execSftopk a st s) := h.groupWord (fun _ _ ht hg => ht.siftDesc hg)

theorem State.Kept.execSfhist {a : RegN} {st : BitVec 2} {s : State} (h : s.Kept m c) :
    NextKept m c (execSfhist a st s) := h.groupWord (fun _ _ ht hg => ht.siftDesc hg)

theorem State.Kept.execSfscan {a : RegN} {incl : Bool} {st : BitVec 2} {s : State} (h : s.Kept m c) :
    NextKept m c (execSfscan a incl st s) := h.groupWord (fun _ _ ht hg => ht.siftDesc hg)

theorem State.Kept.execSfperm {a : RegN} {st : BitVec 2} {s : State} (h : s.Kept m c) :
    NextKept m c (execSfperm a st s) := h.groupWord (fun _ _ ht hg => ht.siftDesc hg)

theorem State.Kept.execSfwait {st : BitVec 2} {s : State} (h : s.Kept m c) :
    NextKept m c (execSfwait st s) := by
  unfold Machine.execSfwait
  refine h.groupWord (fun _ _ ht hg => ?_)
  extract_lets
  split
  · trivial
  · exact ⟨ht.waited, hg⟩

theorem State.Kept.siftWrite {s : State} {x : Eng} {op : SiftOp} {p : Part} (h : s.Kept m c) :
    (s.siftWrite x op p).Kept m c := by
  unfold State.siftWrite
  split
  · exact (h.foldl (fun _ _ ht => ht.disturb.spadPut)).onBlock (fun _ hb => hb.onPart)
  · exact h.foldl (fun _ _ ht => ht.disturb.spadPut)

theorem State.Kept.execSiftPerform {bid rid : Nat} {s : State} (h : s.Kept m c) :
    NextKept m c (execSiftPerform bid rid s) := by
  unfold Machine.execSiftPerform
  split
  · exact h
  split
  · extract_lets
    split
    · exact h
    split
    · exact ((h.maskWritten.onBlock (fun _ hb => hb.spoil)).spend).engFinish
    · exact h.maskWritten.siftWrite.engFinish
  · exact h

theorem State.Kept.pathOut {s : State} {b : Block} {l : Launch} (h : s.Kept m c) :
    (s.pathOut b l).Kept m c := by
  unfold State.pathOut
  split
  · extract_lets
    split
    · exact h
    · exact h.partWrite
  extract_lets
  split
  · exact h
  · exact h.partWrite

theorem State.Kept.blockDone {s : State} {b : Block} {l : Launch} (h : s.Kept m c) :
    (s.blockDone b l).Kept m c := h.pathOut.dropReplicas.onLaunch

theorem State.Kept.blockClose {s : State} {b : Block} {l : Launch} (h : s.Kept m c) :
    (s.blockClose b l).Kept m c := by
  unfold State.blockClose
  extract_lets
  split
  · exact h.withBlocks (h.blocks.mapIf (fun _ hb2 => hb2))
  · exact State.Kept.blockDone (h.withBlocks (h.blocks.mapIf (fun _ hb2 => hb2)))

theorem State.Kept.execBlockEnd {bid : Nat} {s : State} (h : s.Kept m c) :
    NextKept m c (execBlockEnd bid s) := by
  unfold Machine.execBlockEnd
  split
  · exact h
  split
  · exact h
  split
  · exact h
  split
  · exact h.blockClose
  split
  · exact h.blockDone
  · split
    · exact h.detCommit.blockClose
    · exact h
  · exact h.submit

theorem State.Kept.stageStuck {n : Nat} (h : s.Kept m c) : (s.stageStuck n).Kept m c := by
  unfold State.stageStuck
  split
  · exact h
  next b _ =>
    extract_lets t
    have ht : t.Kept m c := h.onBlock fun _ hb => hb
    clear_value t
    split
    · exact ht
    · split
      · exact ht
      split
      · exact ht
      split
      next now later _ =>
        extract_lets es u
        have hu : u.Kept m c := State.Kept.setHead (ht.onBlock fun _ hb => hb.enter)
        clear_value u
        split
        · exact hu.addonWatch
        · exact hu
    · split
      · exact ht
      split
      · exact ht
      extract_lets ms
      split
      · exact ht
      next hq => exact (ht.engPages.fst hq).engFault
      next hq => exact State.Kept.secDone (State.Kept.engWatch ((ht.engPages.fst hq).onBlock fun _ hb => hb.enter))

theorem State.Kept.execCapacityCommit {n : Nat} (h : s.Kept m c) : NextKept m c (execCapacityCommit n s) := by
  unfold Machine.execCapacityCommit
  refine State.Kept.next ?_
  split
  · exact h
  split
  · exact h
  split
  · exact h
  split
  · exact h.submit
  split
  · exact h.detCommit.stageStuck
  · exact h

theorem State.Kept.replicas {l n : Nat} (h : s.Kept m c) : All (Block.Kept c) (s.replicas l n) :=
    h.blocks.filter.sortKey

theorem State.Kept.afterCommit {n : Nat} {k : Commit} {p : Bool} (h : s.Kept m c) : (s.afterCommit n k p).Kept m c := by
  unfold State.afterCommit
  split
  · split
    · split
      · exact h.releaseHead
      · exact h
    · exact h
  · exact h.stageStuck
  · exact h

theorem State.Kept.settle {l : Launch} {bs : List Block} (h : s.Kept m c) : (s.settle l bs).Kept m c := by
  unfold State.settle
  split
  · exact h
  next p r =>
    split
    · exact h
    next k _ =>
      extract_lets t u atom
      have ht : t.Kept m c := h.applySet.addSig
      have hu : u.Kept m c := ht.foldl fun _ _ hx => hx.onBlock fun _ hb => hb
      clear_value u atom
      split
      · exact hu.blockClose
      · split
        · split
          · exact hu.atomFabric
          split
          · exact hu.atomLost
          split
          next hq =>
            refine (hu.atomDo.fst hq).foldl fun v b hv => ?_
            split
            · extract_lets w
              have hw : w.Kept m c := by
                unfold w
                split
                · exact hv
                · exact hv.atomEcho
              exact hw.atomDone.atomLand
            · exact hv
        · exact hu
      · refine hu.foldl fun v b hv => ?_
        split
        · exact hv.afterCommit
        · exact hv

theorem State.Kept.mismatch {s : State} {l : Launch} {bs : List Block} (h : s.Kept m c) :
    (s.mismatch l bs).Kept m c := by
  unfold State.mismatch
  split
  · exact State.Kept.endWith h.onLaunch
  · exact h

theorem State.Kept.takeHalts {s : State} {gone p : Block} (h : s.Kept m c) :
    (s.takeHalts gone p).Kept m c := h.onBlock (fun _ hb => hb.map (fun _ hg => hg))

theorem State.Kept.takeOver {s : State} {gone p : Block} (h : s.Kept m c) :
    (s.takeOver gone p).Kept m c := by
  unfold State.takeOver
  exact State.Kept.onBlock (State.Kept.onBlock h.takeHalts (fun _ hb => hb)) (fun _ hb => hb)

theorem State.Kept.vote {l : Launch} {bs : List Block} {x : Block} (h : s.Kept m c) : (s.vote l bs x).Kept m c := by
  unfold State.vote
  split
  · exact h
  next p r =>
    extract_lets k was t1 t2 t3 t4
    have ht : t3.Kept m c := h.dropBlock.record.onLaunch
    have h4 : t4.Kept m c := by
      unfold t4
      split
      · exact ht.takeOver
      · exact ht
    exact h4.settle

theorem State.Kept.compareSigs {l : Launch} {bs : List Block} (h : s.Kept m c) : (s.compareSigs l bs).Kept m c := by
  unfold State.compareSigs
  extract_lets agree
  split
  · exact h.settle
  · split
    · exact h.settle
    · exact h.mismatch
  · split
    · exact h.settle
    split
    · exact h.vote
    split
    · exact h.vote
    split
    · exact h.vote
    · exact h.mismatch
  · exact h

theorem State.Kept.execCvt {d a : RegN} {k : CvtOp} {ka inf : Bool} {st : BitVec 2} (h : s.Kept m c) :
    NextKept m c (execCvt d a k ka inf st s) := by
  unfold Machine.execCvt
  extract_lets w
  exact h.lane

theorem State.Kept.execFclass {d a : RegN} {k : FclassFmt} {st : BitVec 2} (h : s.Kept m c) :
    NextKept m c (execFclass d a k st s) := by
  unfold Machine.execFclass
  extract_lets f w
  exact h.lane

theorem State.Kept.execReplicaCompare {lid num : Nat} {s : State} (h : s.Kept m c) :
    NextKept m c (execReplicaCompare lid num s) := by
  unfold Machine.execReplicaCompare
  split
  · exact h
  extract_lets
  split
  · exact h
  · exact h.compareSigs

theorem State.Kept.execReplicaTimeout {lid num : Nat} {s : State} (h : s.Kept m c) :
    NextKept m c (execReplicaTimeout lid num s) := by
  unfold Machine.execReplicaTimeout
  split
  · exact h
  extract_lets
  split
  · exact h
  · exact h.compareSigs

theorem State.Kept.lr1 {s : State} {lat : Nat} {wide fp : Bool} {d a : RegN} {ka : Bool} {st : BitVec 2} {f : Env →
    BitVec 3 → Nat → Nat} (h : s.Kept m c) :
    NextKept m c (s.lr1 lat wide fp d a ka st f) := h.lane

theorem State.Kept.lr2 {s : State} {lat : Nat} {wide bw fp : Bool} {d a b : RegN} {ka kb : Bool} {st : BitVec 2} {f :
    BitVec 3 → Nat → Nat → Nat} (h : s.Kept m c) :
    NextKept m c (s.lr2 lat wide bw fp d a b ka kb st f) := h.lane

theorem State.Kept.lt3 {s : State} {lat : Nat} {wide fp : Bool} {d a b c' : RegN} {st : BitVec 2} {f : BitVec 3 → Nat
    → Nat → Nat → Nat} (h : s.Kept m c) :
    NextKept m c (s.lt3 lat wide fp d a b c' st f) := h.lane

theorem State.Kept.execImulhi {d a b : RegN} {ka kb : Bool} {st : BitVec 2} {s : State} (h : s.Kept m c) :
    NextKept m c (execImulhi d a b ka kb st s) := h.lr2

theorem State.Kept.execNmulhi {d a b : RegN} {ka kb : Bool} {st : BitVec 2} {s : State} (h : s.Kept m c) :
    NextKept m c (execNmulhi d a b ka kb st s) := h.lr2

theorem State.Kept.execPopc {d a : RegN} {ka : Bool} {st : BitVec 2} {s : State} (h : s.Kept m c) :
    NextKept m c (execPopc d a ka st s) := h.lr1

theorem State.Kept.execClz {d a : RegN} {ka : Bool} {st : BitVec 2} {s : State} (h : s.Kept m c) :
    NextKept m c (execClz d a ka st s) := h.lr1

theorem State.Kept.execBrev {d a : RegN} {ka : Bool} {st : BitVec 2} {s : State} (h : s.Kept m c) :
    NextKept m c (execBrev d a ka st s) := h.lr1

theorem State.Kept.execBfe {d a b : RegN} {ka kb : Bool} {st : BitVec 2} {s : State} (h : s.Kept m c) :
    NextKept m c (execBfe d a b ka kb st s) := h.lr2

theorem State.Kept.execPrmt {d a b : RegN} {ka kb : Bool} {st : BitVec 2} {s : State} (h : s.Kept m c) :
    NextKept m c (execPrmt d a b ka kb st s) := h.lane

theorem State.Kept.execFadd {d a b : RegN} {ka kb : Bool} {st : BitVec 2} {s : State} (h : s.Kept m c) :
    NextKept m c (execFadd d a b ka kb st s) := h.lr2

theorem State.Kept.execFsub {d a b : RegN} {ka kb : Bool} {st : BitVec 2} {s : State} (h : s.Kept m c) :
    NextKept m c (execFsub d a b ka kb st s) := h.lr2

theorem State.Kept.execFmul {d a b : RegN} {ka kb : Bool} {st : BitVec 2} {s : State} (h : s.Kept m c) :
    NextKept m c (execFmul d a b ka kb st s) := h.lr2

theorem State.Kept.execFmin {d a b : RegN} {ka kb : Bool} {st : BitVec 2} {s : State} (h : s.Kept m c) :
    NextKept m c (execFmin d a b ka kb st s) := h.lr2

theorem State.Kept.execFmax {d a b : RegN} {ka kb : Bool} {st : BitVec 2} {s : State} (h : s.Kept m c) :
    NextKept m c (execFmax d a b ka kb st s) := h.lr2

theorem State.Kept.execFabs {d a : RegN} {ka : Bool} {st : BitVec 2} {s : State} (h : s.Kept m c) :
    NextKept m c (execFabs d a ka st s) := h.lr1

theorem State.Kept.execFneg {d a : RegN} {ka : Bool} {st : BitVec 2} {s : State} (h : s.Kept m c) :
    NextKept m c (execFneg d a ka st s) := h.lr1

theorem State.Kept.execDadd {d a b : RegN} {ka kb : Bool} {st : BitVec 2} {s : State} (h : s.Kept m c) :
    NextKept m c (execDadd d a b ka kb st s) := h.lr2

theorem State.Kept.execDsub {d a b : RegN} {ka kb : Bool} {st : BitVec 2} {s : State} (h : s.Kept m c) :
    NextKept m c (execDsub d a b ka kb st s) := h.lr2

theorem State.Kept.execDmul {d a b : RegN} {ka kb : Bool} {st : BitVec 2} {s : State} (h : s.Kept m c) :
    NextKept m c (execDmul d a b ka kb st s) := h.lr2

theorem State.Kept.execDmin {d a b : RegN} {ka kb : Bool} {st : BitVec 2} {s : State} (h : s.Kept m c) :
    NextKept m c (execDmin d a b ka kb st s) := h.lr2

theorem State.Kept.execDmax {d a b : RegN} {ka kb : Bool} {st : BitVec 2} {s : State} (h : s.Kept m c) :
    NextKept m c (execDmax d a b ka kb st s) := h.lr2

theorem State.Kept.execHadd2 {d a b : RegN} {ka kb : Bool} {st : BitVec 2} {s : State} (h : s.Kept m c) :
    NextKept m c (execHadd2 d a b ka kb st s) := h.lr2

theorem State.Kept.execHmul2 {d a b : RegN} {ka kb : Bool} {st : BitVec 2} {s : State} (h : s.Kept m c) :
    NextKept m c (execHmul2 d a b ka kb st s) := h.lr2

theorem State.Kept.execHmin2 {d a b : RegN} {ka kb : Bool} {st : BitVec 2} {s : State} (h : s.Kept m c) :
    NextKept m c (execHmin2 d a b ka kb st s) := h.lr2

theorem State.Kept.execHmax2 {d a b : RegN} {ka kb : Bool} {st : BitVec 2} {s : State} (h : s.Kept m c) :
    NextKept m c (execHmax2 d a b ka kb st s) := h.lr2

theorem State.Kept.execBadd2 {d a b : RegN} {ka kb : Bool} {st : BitVec 2} {s : State} (h : s.Kept m c) :
    NextKept m c (execBadd2 d a b ka kb st s) := h.lr2

theorem State.Kept.execBmul2 {d a b : RegN} {ka kb : Bool} {st : BitVec 2} {s : State} (h : s.Kept m c) :
    NextKept m c (execBmul2 d a b ka kb st s) := h.lr2

theorem State.Kept.execFexp2 {d a : RegN} {ka : Bool} {st : BitVec 2} {s : State} (h : s.Kept m c) :
    NextKept m c (execFexp2 d a ka st s) := h.lr1

theorem State.Kept.execFlog2 {d a : RegN} {ka : Bool} {st : BitVec 2} {s : State} (h : s.Kept m c) :
    NextKept m c (execFlog2 d a ka st s) := h.lr1

theorem State.Kept.execFsinp {d a : RegN} {ka : Bool} {st : BitVec 2} {s : State} (h : s.Kept m c) :
    NextKept m c (execFsinp d a ka st s) := h.lr1

theorem State.Kept.execFcosp {d a : RegN} {ka : Bool} {st : BitVec 2} {s : State} (h : s.Kept m c) :
    NextKept m c (execFcosp d a ka st s) := h.lr1

theorem State.Kept.execFtanh {d a : RegN} {ka : Bool} {st : BitVec 2} {s : State} (h : s.Kept m c) :
    NextKept m c (execFtanh d a ka st s) := h.lr1

theorem State.Kept.execFrcp {d a : RegN} {ka : Bool} {st : BitVec 2} {s : State} (h : s.Kept m c) :
    NextKept m c (execFrcp d a ka st s) := h.lr1

theorem State.Kept.execFrsq {d a : RegN} {ka : Bool} {st : BitVec 2} {s : State} (h : s.Kept m c) :
    NextKept m c (execFrsq d a ka st s) := h.lr1

theorem State.Kept.execFsqrt {d a : RegN} {ka : Bool} {st : BitVec 2} {s : State} (h : s.Kept m c) :
    NextKept m c (execFsqrt d a ka st s) := h.lr1

theorem State.Kept.execDrcp {d a : RegN} {ka : Bool} {st : BitVec 2} {s : State} (h : s.Kept m c) :
    NextKept m c (execDrcp d a ka st s) := h.lr1

theorem State.Kept.execDrsq {d a : RegN} {ka : Bool} {st : BitVec 2} {s : State} (h : s.Kept m c) :
    NextKept m c (execDrsq d a ka st s) := h.lr1

theorem State.Kept.execFscl {d a b : RegN} {ka kb : Bool} {st : BitVec 2} {s : State} (h : s.Kept m c) :
    NextKept m c (execFscl d a b ka kb st s) := h.lr2

theorem State.Kept.execDscl {d a b : RegN} {ka kb : Bool} {st : BitVec 2} {s : State} (h : s.Kept m c) :
    NextKept m c (execDscl d a b ka kb st s) := h.lr2

theorem State.Kept.execFfrc {d a : RegN} {ka : Bool} {st : BitVec 2} {s : State} (h : s.Kept m c) :
    NextKept m c (execFfrc d a ka st s) := h.lr1

theorem State.Kept.execFfma {d a b c' : RegN} {st : BitVec 2} {s : State} (h : s.Kept m c) :
    NextKept m c (execFfma d a b c' st s) := h.lt3

theorem State.Kept.execDfma {d a b c' : RegN} {st : BitVec 2} {s : State} (h : s.Kept m c) :
    NextKept m c (execDfma d a b c' st s) := h.lt3

theorem State.Kept.execHfma2 {d a b c' : RegN} {st : BitVec 2} {s : State} (h : s.Kept m c) :
    NextKept m c (execHfma2 d a b c' st s) := h.lt3

theorem State.Kept.execImad {d a b c' : RegN} {st : BitVec 2} {s : State} (h : s.Kept m c) :
    NextKept m c (execImad d a b c' st s) := h.lt3

theorem State.Kept.cross {s : State} {sh : Shape} {f : Env → Env} (h : s.Kept m c) (hf : ∀ (x0 : Env),
    x0.grp.Kept c → (f x0).grp.Kept c) :
    NextKept m c (s.cross sh f) := by
  unfold State.cross
  refine h.runWord (fun _ _ ht hg => ?_)
  split
  · trivial
  · exact ⟨ht, hf _ hg⟩

theorem State.Kept.reduce {s : State} {d a : RegN} {dw aw : Bool} {st : BitVec 2} {prep : BitVec 3 → Nat → Nat} {op :
    BitVec 3 → Nat → Nat → Nat} (h : s.Kept m c) :
    NextKept m c (s.reduce d a dw aw st prep op) := h.cross (fun _ hg => Env.Kept.write hg)

theorem State.Kept.scan {s : State} {d a : RegN} {st : BitVec 2} {excl : Bool} {prep : BitVec 3 → Nat → Nat} {op :
    BitVec 3 → Nat → Nat → Nat} (h : s.Kept m c) :
    NextKept m c (s.scan d a st excl prep op) := h.cross (fun _ hg => Env.Kept.write hg)

theorem State.Kept.execRedi {d a : RegN} {mode : RediMode} {st : BitVec 2} {s : State} (h : s.Kept m c) :
    NextKept m c (execRedi d a mode st s) := h.reduce

theorem State.Kept.execRedn {d a : RegN} {mode : RednMode} {st : BitVec 2} {s : State} (h : s.Kept m c) :
    NextKept m c (execRedn d a mode st s) := h.reduce

theorem State.Kept.execRedf {d a : RegN} {mode : RedfMode} {st : BitVec 2} {s : State} (h : s.Kept m c) :
    NextKept m c (execRedf d a mode st s) := h.reduce

theorem State.Kept.execRedd {d a : RegN} {mode : RedfMode} {st : BitVec 2} {s : State} (h : s.Kept m c) :
    NextKept m c (execRedd d a mode st s) := h.reduce

theorem State.Kept.execScani {d a : RegN} {mode : ScaniMode} {st : BitVec 2} {s : State} (h : s.Kept m c) :
    NextKept m c (execScani d a mode st s) := h.scan

theorem State.Kept.execScanf {d a : RegN} {mode : ScanfMode} {st : BitVec 2} {s : State} (h : s.Kept m c) :
    NextKept m c (execScanf d a mode st s) := h.scan

theorem State.Kept.execBcast {d a : RegN} {src : BcastSrc} {st : BitVec 2} {s : State} (h : s.Kept m c) :
    NextKept m c (execBcast d a src st s) := h.cross (fun _ hg => Env.Kept.write hg)

theorem State.Kept.execVote {op : VoteOp} {ps : PredN} {st : BitVec 2} {s : State} (h : s.Kept m c) :
    NextKept m c (execVote op ps st s) := by
  unfold Machine.execVote
  refine h.cross (fun _ hg => ?_)
  split
  · exact Env.Kept.write hg
  · exact Env.Kept.pwrite hg
  · exact Env.Kept.pwrite hg
  · exact Env.Kept.pwrite hg

theorem State.Kept.execIsect {d a b : RegN} {st : BitVec 2} {s : State} (h : s.Kept m c) :
    NextKept m c (execIsect d a b st s) := h.cross (fun _ hg => Env.Kept.write (Env.Kept.write (Env.Kept.write hg)))

theorem State.Kept.execIsectb {d a b : RegN} {pk st : BitVec 2} {s : State} (h : s.Kept m c) :
    NextKept m c (execIsectb d a b pk st s) := by
  unfold Machine.execIsectb
  refine h.cross (fun _ hg => ?_)
  split <;> exact Env.Kept.pwrite (Env.Kept.write (Env.Kept.write (Env.Kept.write (Env.Kept.write hg))))

theorem State.Kept.fcompare {s : State} {f : Fmt} {wide : Bool} {lat : Nat} {outs : List (Nat × (Nat → Nat))} {a b :
    RegN} {mode : FCond} {st : BitVec 2} (h : s.Kept m c) :
    NextKept m c (s.fcompare f wide lat outs a b mode st) := by
  unfold State.fcompare
  refine h.runWord (fun _ _ ht hg => ?_)
  split
  · trivial
  · exact ⟨ht, Env.Kept.foldl hg (fun _ _ hg2 => Env.Kept.pwrite hg2)⟩

theorem State.Kept.execFcmp {pd : PredN} {a b : RegN} {mode : FCond} {st : BitVec 2} {s : State} (h : s.Kept m c) :
    NextKept m c (execFcmp pd a b mode st s) := h.fcompare

theorem State.Kept.execDcmp {pd : PredN} {a b : RegN} {mode : FCond} {st : BitVec 2} {s : State} (h : s.Kept m c) :
    NextKept m c (execDcmp pd a b mode st s) := h.fcompare

theorem State.Kept.execHcmp2 {pd : PredN} {a b : RegN} {mode : FCond} {st : BitVec 2} {s : State} (h : s.Kept m c) :
    NextKept m c (execHcmp2 pd a b mode st s) := h.fcompare

theorem State.Kept.execMov {d a : RegN} {ka wide : Bool} {s : State} (h : s.Kept m c) :
    NextKept m c (execMov d a ka wide s) := h.fr1

theorem State.Kept.execIadd {d a b : RegN} {ka kb wide : Bool} {s : State} (h : s.Kept m c) :
    NextKept m c (execIadd d a b ka kb wide s) := h.fr2

theorem State.Kept.execIsub {d a b : RegN} {ka kb wide : Bool} {s : State} (h : s.Kept m c) :
    NextKept m c (execIsub d a b ka kb wide s) := h.fr2

theorem State.Kept.execImul {d a b : RegN} {ka kb wide : Bool} {s : State} (h : s.Kept m c) :
    NextKept m c (execImul d a b ka kb wide s) := h.fr2

theorem State.Kept.execShl {d a b : RegN} {ka kb wide : Bool} {s : State} (h : s.Kept m c) :
    NextKept m c (execShl d a b ka kb wide s) := h.fr2

theorem State.Kept.execShr {d a b : RegN} {ka kb wide : Bool} {s : State} (h : s.Kept m c) :
    NextKept m c (execShr d a b ka kb wide s) := h.fr2

theorem State.Kept.execSar {d a b : RegN} {ka kb wide : Bool} {s : State} (h : s.Kept m c) :
    NextKept m c (execSar d a b ka kb wide s) := h.fr2

theorem State.Kept.execAnd {d a b : RegN} {ka kb wide : Bool} {s : State} (h : s.Kept m c) :
    NextKept m c (execAnd d a b ka kb wide s) := h.fr2

theorem State.Kept.execOr {d a b : RegN} {ka kb wide : Bool} {s : State} (h : s.Kept m c) :
    NextKept m c (execOr d a b ka kb wide s) := h.fr2

theorem State.Kept.execXor {d a b : RegN} {ka kb wide : Bool} {s : State} (h : s.Kept m c) :
    NextKept m c (execXor d a b ka kb wide s) := h.fr2

theorem State.Kept.execAndn {d a b : RegN} {ka kb wide : Bool} {s : State} (h : s.Kept m c) :
    NextKept m c (execAndn d a b ka kb wide s) := h.fr2

theorem State.Kept.execImin {d a b : RegN} {ka kb wide : Bool} {s : State} (h : s.Kept m c) :
    NextKept m c (execImin d a b ka kb wide s) := h.fr2

theorem State.Kept.execImax {d a b : RegN} {ka kb wide : Bool} {s : State} (h : s.Kept m c) :
    NextKept m c (execImax d a b ka kb wide s) := h.fr2

theorem State.Kept.execNmin {d a b : RegN} {ka kb wide : Bool} {s : State} (h : s.Kept m c) :
    NextKept m c (execNmin d a b ka kb wide s) := h.fr2

theorem State.Kept.execNmax {d a b : RegN} {ka kb wide : Bool} {s : State} (h : s.Kept m c) :
    NextKept m c (execNmax d a b ka kb wide s) := h.fr2

theorem State.Kept.execIneg {d a : RegN} {ka wide : Bool} {s : State} (h : s.Kept m c) :
    NextKept m c (execIneg d a ka wide s) := h.fr1

theorem State.Kept.execIabs {d a : RegN} {ka wide : Bool} {s : State} (h : s.Kept m c) :
    NextKept m c (execIabs d a ka wide s) := h.fr1

theorem State.Kept.execMkform {d a b : RegN} {ka kb wide : Bool} {s : State} (h : s.Kept m c) :
    NextKept m c (execMkform d a b ka kb wide s) := h.runWord (fun _ _ ht hg => State.Kept.put hg ht)

theorem State.Kept.execXbase {d a : RegN} {ka wide : Bool} {s : State} (h : s.Kept m c) :
    NextKept m c (execXbase d a ka wide s) := h.runWord (fun _ _ ht hg => State.Kept.put hg ht)

theorem State.Kept.execXstride {d a : RegN} {ka wide : Bool} {s : State} (h : s.Kept m c) :
    NextKept m c (execXstride d a ka wide s) := h.runWord (fun _ _ ht hg => ⟨ht, Env.Kept.write hg⟩)

theorem State.Kept.execRdfirst {d a : RegN} {ka wide : Bool} {s : State} (h : s.Kept m c) :
    NextKept m c (execRdfirst d a ka wide s) := by
  unfold Machine.execRdfirst
  refine h.runWord (fun _ _ ht hg => ?_)
  split
  · trivial
  · exact ⟨ht, Env.Kept.write hg⟩

theorem State.Kept.execExpand {d a : RegN} {ka wide : Bool} {s : State} (h : s.Kept m c) :
    NextKept m c (execExpand d a ka wide s) := by
  unfold Machine.execExpand
  refine h.runWord (fun _ _ ht hg => ?_)
  split
  · trivial
  · exact ⟨ht, Env.Kept.write hg⟩

theorem State.Kept.execIaddi {d a : RegN} {imm : BitVec 12} {s : State} (h : s.Kept m c) :
    NextKept m c (execIaddi d a imm s) := h.fi

theorem State.Kept.execImuli {d a : RegN} {imm : BitVec 12} {s : State} (h : s.Kept m c) :
    NextKept m c (execImuli d a imm s) := h.fi

theorem State.Kept.execShli {d a : RegN} {imm : BitVec 12} {s : State} (h : s.Kept m c) :
    NextKept m c (execShli d a imm s) := h.fi

theorem State.Kept.execShri {d a : RegN} {imm : BitVec 12} {s : State} (h : s.Kept m c) :
    NextKept m c (execShri d a imm s) := h.fi

theorem State.Kept.execSari {d a : RegN} {imm : BitVec 12} {s : State} (h : s.Kept m c) :
    NextKept m c (execSari d a imm s) := h.fi

theorem State.Kept.execAndi {d a : RegN} {imm : BitVec 12} {s : State} (h : s.Kept m c) :
    NextKept m c (execAndi d a imm s) := h.fi

theorem State.Kept.execOri {d a : RegN} {imm : BitVec 12} {s : State} (h : s.Kept m c) :
    NextKept m c (execOri d a imm s) := h.fi

theorem State.Kept.execXori {d a : RegN} {imm : BitVec 12} {s : State} (h : s.Kept m c) :
    NextKept m c (execXori d a imm s) := h.fi

theorem State.Kept.execIaddiw {d a : RegN} {imm : BitVec 12} {s : State} (h : s.Kept m c) :
    NextKept m c (execIaddiw d a imm s) := h.fi

theorem State.Kept.constWord {s : State} {d : Nat} {x : ℤ} (h : s.Kept m c) :
    NextKept m c (s.constWord d x) := h.runWord (fun _ _ ht hg => State.Kept.put hg ht)

theorem State.Kept.execMovi {d : RegN} {imm : BitVec 12} {s : State} (h : s.Kept m c) :
    NextKept m c (execMovi d imm s) := h.constWord

theorem State.Kept.execMovl {d : RegN} {imm : BitVec 16} {s : State} (h : s.Kept m c) :
    NextKept m c (execMovl d imm s) := h.constWord

theorem State.Kept.execMovh {d : RegN} {imm : BitVec 16} {s : State} (h : s.Kept m c) :
    NextKept m c (execMovh d imm s) := h.runWord (fun _ _ ht hg => State.Kept.put hg ht)

theorem State.Kept.execMovs {d : RegN} {imm : BitVec 16} {s : State} (h : s.Kept m c) :
    NextKept m c (execMovs d imm s) := h.constWord

theorem State.Kept.execIcmp {pd : PredN} {a b : RegN} {cond : Cond} {s : State} (h : s.Kept m c) :
    NextKept m c (execIcmp pd a b cond s) := h.compare

theorem State.Kept.execIcmpa {pd ps : PredN} {a b : RegN} {cond : Cond} {s : State} (h : s.Kept m c) :
    NextKept m c (execIcmpa pd ps a b cond s) := h.compare

theorem State.Kept.execIcmpo {pd ps : PredN} {a b : RegN} {cond : Cond} {s : State} (h : s.Kept m c) :
    NextKept m c (execIcmpo pd ps a b cond s) := h.compare

theorem State.Kept.execNcmp {pd : PredN} {a b : RegN} {cond : Cond} {s : State} (h : s.Kept m c) :
    NextKept m c (execNcmp pd a b cond s) := h.compare

theorem State.Kept.execNcmpa {pd ps : PredN} {a b : RegN} {cond : Cond} {s : State} (h : s.Kept m c) :
    NextKept m c (execNcmpa pd ps a b cond s) := h.compare

theorem State.Kept.execNcmpo {pd ps : PredN} {a b : RegN} {cond : Cond} {s : State} (h : s.Kept m c) :
    NextKept m c (execNcmpo pd ps a b cond s) := h.compare

theorem State.Kept.execIcmpi {pd : PredN} {a : RegN} {imm : BitVec 6} {cond : Cond} {s : State} (h : s.Kept m c) :
    NextKept m c (execIcmpi pd a imm cond s) := h.compare

theorem State.Kept.execNcmpi {pd : PredN} {a : RegN} {imm : BitVec 6} {cond : Cond} {s : State} (h : s.Kept m c) :
    NextKept m c (execNcmpi pd a imm cond s) := h.compare

theorem State.Kept.execIcmpw {pd : PredN} {a b : RegN} {cond : Cond} {s : State} (h : s.Kept m c) :
    NextKept m c (execIcmpw pd a b cond s) := h.compare

theorem State.Kept.execNcmpw {pd : PredN} {a b : RegN} {cond : Cond} {s : State} (h : s.Kept m c) :
    NextKept m c (execNcmpw pd a b cond s) := h.compare

theorem State.Kept.execPand {pd pa pb : PredN} {s : State} (h : s.Kept m c) :
    NextKept m c (execPand pd pa pb s) := h.plogic

theorem State.Kept.execPor {pd pa pb : PredN} {s : State} (h : s.Kept m c) :
    NextKept m c (execPor pd pa pb s) := h.plogic

theorem State.Kept.execPxor {pd pa pb : PredN} {s : State} (h : s.Kept m c) :
    NextKept m c (execPxor pd pa pb s) := h.plogic

theorem State.Kept.execPandn {pd pa pb : PredN} {s : State} (h : s.Kept m c) :
    NextKept m c (execPandn pd pa pb s) := h.plogic

theorem State.Kept.execPnot {pd pa : PredN} {s : State} (h : s.Kept m c) :
    NextKept m c (execPnot pd pa s) := h.plogic

theorem State.Kept.execPset {pd : PredN} {k : Bool} {s : State} (h : s.Kept m c) :
    NextKept m c (execPset pd k s) := h.plogic

theorem State.Kept.execPcut {pd : PredN} {a : RegN} {above : Bool} {s : State} (h : s.Kept m c) :
    NextKept m c (execPcut pd a above s) := h.runWord (fun _ _ ht hg => State.Kept.pput hg ht)

theorem State.Kept.execSel {d a b : RegN} {p : PredN} {sense : Bool} {s : State} (h : s.Kept m c) :
    NextKept m c (execSel d a b p sense s) := h.select

theorem State.Kept.execSelw {d a b : RegN} {p : PredN} {sense : Bool} {s : State} (h : s.Kept m c) :
    NextKept m c (execSelw d a b p sense s) := h.select

theorem State.Kept.execPtoi {d : RegN} {p : PredN} {sense : Bool} {s : State} (h : s.Kept m c) :
    NextKept m c (execPtoi d p sense s) := h.runWord (fun _ _ ht hg => State.Kept.put hg ht)

theorem State.Kept.addLive {s : State} {path : List Nat} {d : ℤ} (h : s.Kept m c) :
    (s.addLive path d).Kept m c := h.foldl (fun _ _ ht => ht.homeWrite)

/-- The state behind an admission keeps both. -/
def Listed.Kept (m c : Prop) : Listed → Prop
  | .status s _ => s.Kept m c
  | .later => True
  | .asked s => s.Kept m c

theorem Listed.Kept.status {x : Listed} {n : Nat} (h : x.Kept m c) (e : x = .status s n) : s.Kept m c := by
  subst e; exact h

theorem Listed.Kept.asked {x : Listed} (h : x.Kept m c) (e : x = .asked s) : s.Kept m c := by
  subst e; exact h

theorem State.Kept.ownDescs {k : Ctx} {l : List Nat} (h : s.Kept m c) : (s.ownDescs k l).1.Kept m c := by
  induction l generalizing s with
  | nil => exact h
  | cons va l ih =>
    have hx : (if vwin va = .global then s.translate k va .read else (s, .fault 0 0)).1.Kept m c := by
      split
      · exact h.translate
      · exact h
    unfold State.ownDescs
    split
    next hq => exact hx.fst hq
    next hq =>
      have ht := hx.fst hq
      extract_lets d
      split
      next hr => exact (ih ht).fst hr
      · exact ih ht

theorem State.Kept.readOwnt {k : Ctx} {va : Nat} (h : s.Kept m c) : (s.readOwnt k va).1.Kept m c := by
  unfold State.readOwnt
  split
  · exact h
  split
  · exact h
  · exact h.ownDescs

theorem State.Kept.traceArm {k : Ctx} {n : Nat} (h : s.Kept m c) : (s.traceArm k n).1.Kept m c := by
  unfold State.traceArm
  extract_lets arm
  split
  · exact h
  split
  · exact h.partWrite
  · exact h

theorem State.Kept.enlist {e : Env} {k : Ctx} {r : BitVec 1024} (h : s.Kept m c) : (s.enlist e k r).Kept m c := by
  unfold State.enlist
  split
  · exact h
  next path _ =>
    extract_lets l own
    split
    · exact h
    split
    · trivial
    have hx : (if l.staged then s.readOwnt k own else (s, some [])).1.Kept m c := by
      split
      · exact h.readOwnt
      · exact h
    split
    next hq => exact hx.fst hq
    next t ownt hq =>
      have ht := hx.fst hq
      split
      next u f hf =>
        have hu : u.Kept m c := ht.fetchSeg.fst hf
        split
        · trivial
        · exact hu.askFrame
        · split
          next n v hv =>
            have hv : v.Kept m c := hu.takeFrame.fresh.snd hv
            extract_lets seq w
            have hw : w.Kept m c := State.Kept.onCc hv.addLive fun _ hk => hk
            split
            next y tr hy =>
              have hy : y.Kept m c := hw.traceArm.fst hy
              exact hy
        · exact hu.takeFrame
        · exact hu

theorem State.Kept.execLaunch {d a : RegN} (h : s.Kept m c) : NextKept m c (execLaunch d a s) := by
  refine h.runWord fun t e ht he => ?_
  extract_lets va put
  have hput : ∀ n, (put n).grp.Kept c := fun _ => he.write
  clear_value put
  split
  · trivial
  split
  · trivial
  have hu := ht.flush (core := e.core) (a := .device)
  split
  · exact ⟨hu, hput 4⟩
  split
  next hq => exact hu.checks.bad hq
  next hq =>
    split
    next v asked hv =>
      have hv := (hu.checks.ok hq).askFabric.fst hv
      split
      · exact hv
      refine hv.sound ?_
      extract_lets x
      split
      next hl => exact ⟨(hv.enlist.status hl).takeFabric, hput _⟩
      · trivial
      next hl => exact hv.enlist.asked hl

theorem State.Kept.execLwait {d a : RegN} (h : s.Kept m c) : NextKept m c (execLwait d a s) := by
  refine h.runWord fun t e ht he => ?_
  extract_lets n k put
  have hput : ∀ n, (put n).grp.Kept c := fun _ => he.write
  clear_value put
  split
  · exact ⟨ht, hput 3⟩
  split
  · exact ⟨ht, hput 3⟩
  split
  · exact ⟨ht.acquire, hput _⟩
  · trivial

theorem State.Kept.startBlock {l : Launch} {n r i : Nat} (h : s.Kept m c) : ∀ t,
    s.startBlock l n r i = some t → t.Kept m c := by
  intro t ht
  unfold State.startBlock at ht
  obtain ⟨⟨sb, tb, ob⟩, -, rfl⟩ := Option.map_eq_some_iff.mp ht
  split
  split
  next bid u hu =>
    have hu : u.Kept m c := h.fresh.snd hu
    extract_lets rs pc gs gs' part b v
    have hr : All (Grp.Kept c) gs := All.ofMap fun _ => Grp.Kept.root
    have hg : All (Grp.Kept c) gs' := State.Kept.place hr
    have hb : b.Kept c := hg
    have hv : v.Kept m c := hu.spend
    clear_value b v
    exact hv.withBlocks (hv.blocks.append (All.one hb))

theorem State.Kept.startAll {l : Launch} {n : Nat} {l' : List Nat} (h : s.Kept m c) :
    ∀ t, s.startAll l n l' = some t → t.Kept m c := by
  unfold State.startAll
  split
  · refine All.foldl (p := fun _ => True) (r := fun o : Option State => ∀ t,
    o = some t → t.Kept m c) (fun _ _ => trivial)
      (fun t ht => Option.some.inj ht ▸ h) fun o x ho _ t ht => ?_
    obtain ⟨u, hu, hut⟩ := Option.bind_eq_some_iff.mp ht
    exact (ho u hu).startBlock t hut
  · exact fun _ ht => nomatch ht

theorem State.Kept.residents {s : State} {core : Nat} (h : s.Kept m c) :
    All (Block.Kept c) (s.residents core) := h.blocks.filter

theorem State.Kept.unqueue {s : State} {core lid num : Nat} (h : s.Kept m c) :
    (s.unqueue core lid num).Kept m c := h.setCore

theorem State.Kept.execSteal {core victim : Nat} {s : State} (h : s.Kept m c) :
    NextKept m c (execSteal core victim s) := by
  unfold Machine.execSteal
  extract_lets
  split
  · exact h
  split
  · exact h
  split
  · exact h.unqueue.setCore
  · exact h

theorem State.Kept.closeLaunch {s : State} {l : Launch} (h : s.Kept m c) :
    (s.closeLaunch l).Kept m c := by
  unfold State.closeLaunch
  split
  · exact h
  next hq => exact h.ringPut.moved hq
  next hq =>
    exact (((h.ringPut.done hq).addLive).onLaunch).withBlocks (((((h.ringPut.done hq).addLive).onLaunch).blocks).filter)

theorem State.Kept.execPostmark {lid : Nat} {s : State} (h : s.Kept m c) :
    NextKept m c (execPostmark lid s) := by
  unfold Machine.execPostmark
  split
  · exact h
  extract_lets
  split
  · exact h
  · exact h.closeLaunch

theorem State.Kept.asSaved {s : State} {b : Block} {l : Launch} {st : BSt} (hb : b.Kept c) :
    (s.asSaved b l st).Kept c := hb.map (fun _ hg => hg.foldl (fun _ _ hg2 => hg2.landed))

theorem State.Kept.saveBlock {s : State} {b : Block} {l : Launch} {slot : Nat} {st : BSt} (h : s.Kept m c) (hb :
    b.Kept c) :
    (s.saveBlock b l slot st).Kept m c := by
  unfold State.saveBlock
  split
  · exact h.storageEnd
  · exact ((h.leave.setBlock (State.Kept.asSaved hb)).spend).partWrite

theorem Block.Kept.scramble {b : Block} {l : Launch} {n : Nat} (hb : b.Kept c) :
    (b.scramble l n).Kept c := hb.map (fun _ hg => hg.foldl (fun _ _ hg2 => hg2.undef))

theorem State.Kept.fetchable {s : State} {c' : Ctx} {die bid : Nat} {va : W64} (h : s.Kept m c) :
    (s.fetchable c' die bid va).1.Kept m c := by
  unfold State.fetchable
  exact h.fetchSeg

theorem State.Kept.execFetchFaultSwap {bid : Nat} {s : State} (h : s.Kept m c) :
    NextKept m c (execFetchFaultSwap bid s) := by
  unfold Machine.execFetchFaultSwap
  split
  · exact h
  next hq =>
    have hb := h.block hq
    split
    · split
      · exact h
      split
      · exact h.setBlock hb
      split
      · exact h.saveBlock hb
      · exact h
    · exact h

theorem State.Kept.lctlDone {s : State} {part stat : Nat} (h : s.Kept m c) :
    (s.lctlDone part stat).Kept m c := h

theorem State.Kept.lctlStarted {s : State} {part : Nat} (h : s.Kept m c) :
    (s.lctlStarted part).Kept m c := h

theorem State.Kept.startedOf {s : State} {l : Launch} (h : s.Kept m c) :
    All (Block.Kept c) (s.startedOf l) := h.blocks.filter

theorem State.Kept.execBlockSave {bid : Nat} {s : State} (h : s.Kept m c) :
    NextKept m c (execBlockSave bid s) := by
  unfold Machine.execBlockSave
  split
  · exact h
  next hq =>
    have hb := h.block hq
    split
    · exact h
    split
    · split
      · exact h.saveBlock hb
      · exact h
    · exact h

theorem State.Kept.execLaunchResume {part : Nat} {s : State} (h : s.Kept m c) :
    NextKept m c (execLaunchResume part s) := by
  unfold Machine.execLaunchResume
  split
  · exact h.lctlDone
  · split
    · exact h.lctlDone
    · exact State.Kept.lctlStarted h.onLaunch
  · exact h.lctlDone
  · extract_lets
    split
    · exact h
    · exact h.lctlDone
  · exact h

theorem State.Kept.execKill {part : Nat} {s : State} (h : s.Kept m c) :
    NextKept m c (execKill part s) := by
  unfold Machine.execKill
  split
  · exact h.lctlDone
  · split
    · exact h.lctlDone
    · exact State.Kept.lctlStarted (State.Kept.killSweep h.onLaunch)
  · exact h.lctlDone
  · exact h

theorem State.Kept.execQuiesceTokenReturn {lid : Nat} {s : State} (h : s.Kept m c) :
    NextKept m c (execQuiesceTokenReturn lid s) := by
  unfold Machine.execQuiesceTokenReturn
  split
  · exact h
  split
  · exact h
  extract_lets
  split
  · exact h.killSweep
  · exact h.killSweep.closeLaunch

theorem State.Kept.onUnits {s : State} {l : List DbgUnit} {f : DbgUnit → ISet} (h : s.Kept m c) :
    (s.onUnits l f).Kept m c := h.foldl (fun _ _ ht => ht.onUnit)

theorem State.Kept.stopUnits {s : State} {b : Block} (h : s.Kept m c) :
    (s.stopUnits b).Kept m c := h.foldl (fun _ _ ht => (ht.onGrp (fun _ hg => hg.landed)).onUnit)

theorem State.Kept.settleBlock {s : State} {b : Block} {l : Launch} (h : s.Kept m c) :
    (s.settleBlock b l).Kept m c := by
  unfold State.settleBlock
  extract_lets
  split
  · exact h.stopUnits
  · exact State.Kept.foldl (State.Kept.onBlock (State.Kept.onUnits h.stopUnits) (fun _ hb3 => hb3)) (fun _ _ ht =>
    ht.report)

theorem State.Kept.settleHalts {s : State} (h : s.Kept m c) :
    (s.settleHalts).Kept m c := by
  unfold State.settleHalts
  refine h.foldl (fun _ _ ht => ?_)
  split
  · split
    · exact ht.settleBlock
    · exact ht
  · exact ht

theorem State.Kept.getD {o : Option State} (h : s.Kept m c) (ho : ∀ t,
    o = some t → t.Kept m c) : (o.getD s).Kept m c := by
  cases o with
  | none => exact h
  | some t => exact ho t rfl

theorem State.Kept.ofMap {o : Option State} {f : State → State} (ho : ∀ t, o = some t → t.Kept m c)
    (hf : ∀ t, t.Kept m c → (f t).Kept m c) : ∀ t, o.map f = some t → t.Kept m c := by
  intro t ht
  obtain ⟨u, hu, rfl⟩ := Option.map_eq_some_iff.mp ht
  exact hf u (ho u hu)

theorem State.Kept.execBlockDispatch {n : Nat} {l : List Nat} (h : s.Kept m c) : NextKept m c (execBlockDispatch n l
    s) := by
  unfold Machine.execBlockDispatch
  refine State.Kept.next ?_
  split
  · split
    · exact h
    extract_lets start queued num take waits k
    have hs : ∀ u k, u.Kept m c → ∀ t, start u k = some t → t.Kept m c := by
      intro u k hu
      unfold start
      split
      · exact hu.startAll
      · exact fun _ ht => nomatch ht
    have hq : ∀ t, queued = some t → t.Kept m c := by
      intro t ht
      obtain ⟨x, -, hx⟩ := Option.bind_eq_some_iff.mp ht
      exact State.Kept.ofMap (hs s _ h) (fun _ hu => hu.unqueue) t hx
    have htake : ∀ u, u.Kept m c → (take u).Kept m c := fun _ hu => hu.onLaunch
    clear_value start queued take
    split
    · split
      · exact h
      · exact h.getD (State.Kept.ofMap (hs s _ h) fun t ht => State.Kept.onLaunch (ht.foldl fun _ _ hx =>
        hx.dropCaches))
    split
    · exact h
    split
    · exact hq _ rfl
    split
    · exact h
    split
    next hw =>
      refine htake _ ?_
      split at hw
      · cases hw
      · exact hs s _ h _ hw
    · split
      · exact htake _ h.setCore
      · exact h
  · exact h

theorem Option.Kept.ofMap {α : Type} {o : Option α} {f : α → State} (hf : ∀ x, (f x).Kept m c) :
    ∀ t, o.map f = some t → t.Kept m c := by
  intro t ht
  obtain ⟨x, -, rfl⟩ := Option.map_eq_some_iff.mp ht
  exact hf x

theorem Block.Kept.returned {b : Block} {i x y z : Nat} {gs : List Grp} (h : All (Grp.Kept c) gs) :
    (b.returned i x y z gs).Kept c := h.map fun _ hg => hg

theorem State.Kept.restoreBlock {b : Block} {i : Nat} (h : s.Kept m c) (hb : b.Kept c) :
    ∀ t, s.restoreBlock b i = some t → t.Kept m c := by
  intro t ht
  unfold State.restoreBlock at ht
  split at ht
  next l slot _ _ =>
    split at ht
    · cases ht
    refine Option.Kept.ofMap (fun x => ?_) t ht
    obtain ⟨ok, hok⟩ : ∃ ok, (upto (l.slotAt slot) l.z).all (s.paOk l.ctx.part) = ok := ⟨_, rfl⟩
    rw [hok]
    obtain ⟨sb, tb, ob⟩ := x
    split
    extract_lets mine changed b' u gs
    have hb' : b'.Kept c := by
      unfold b'
      split
      · exact hb.scramble
      · exact hb
    have hu : u.Kept m c := by
      unfold u
      split
      · exact h.spend
      · exact h
    clear_value b' u
    split
    · exact h.storageEnd
    exact State.Kept.dropCaches (hu.setBlock (Block.Kept.returned (State.Kept.place hb')))
  · cases ht

theorem State.Kept.execSwapRestore {n i : Nat} (h : s.Kept m c) : NextKept m c (execSwapRestore n i s) := by
  unfold Machine.execSwapRestore
  refine State.Kept.next ?_
  split
  · exact h
  next b hb =>
    split
    · exact h
    split
    · exact h
    split
    · split
      next hq =>
        split
        · exact h.getD ((h.fetchable.fst hq).restoreBlock (h.block hb))
        · exact h
    · split
      · exact h
      · exact h.getD (h.restoreBlock (h.block hb))
    · split
      · split
        next hq =>
          split
          · exact (h.fetchable.fst hq).onBlock fun _ hx => hx.map fun _ hg => hg
          · exact h
      · exact h
    · exact h

theorem State.Kept.execConcurrentPlacement {n : Nat} {l : List Nat} (h : s.Kept m c) :
    NextKept m c (execConcurrentPlacement n l s) := by
  have step : ∀ o : Option State, ∀ f : State → Option State, (∀ t, o = some t → t.Kept m c) →
      (∀ t, t.Kept m c → ∀ u, f t = some u → u.Kept m c) → ∀ t, o.bind f = some t → t.Kept m c := by
    intro o f ho hf t ht
    obtain ⟨u, hu, hut⟩ := Option.bind_eq_some_iff.mp ht
    exact hf u (ho u hu) t hut
  unfold Machine.execConcurrentPlacement
  refine State.Kept.next ?_
  split
  · exact h
  next k _ =>
    extract_lets saved r one
    have hs : All (Block.Kept c) saved := h.blocks.filter.sortKey.sortKey
    split
    · exact h
    split
    · split
      · exact h
      have hz : All (fun x : Block × Nat => x.1.Kept c) (saved.zip l) := fun x hx => hs x.1 (List.of_mem_zip hx).1
      exact h.getD (hz.foldl (r := fun o : Option State => ∀ t,
        o = some t → t.Kept m c) (fun t ht => Option.some.inj ht ▸ h)
        fun o x ho hx => step o _ ho fun t ht => ht.restoreBlock hx)
    split
    · exact h
    · exact h.getD (State.Kept.ofMap (All.foldl (p := fun _ => True) (r := fun o : Option State => ∀ t,
      o = some t → t.Kept m c)
        (fun _ _ => trivial) (fun t ht => Option.some.inj ht ▸ h) fun o x ho _ => step o _ ho fun t ht => ht.startAll)
        fun _ ht => ht.onLaunch)

theorem State.Kept.execPreEmpt {p : Nat} (h : s.Kept m c) : NextKept m c (execPreEmpt p s) := by
  unfold Machine.execPreEmpt
  refine State.Kept.next ?_
  split
  · exact h.lctlDone
  · extract_lets bs need mark src
    split
    · exact h.lctlDone
    split
    · exact h.lctlDone
    · refine State.Kept.lctlStarted (State.Kept.withBlocks h.onLaunch (h.blocks.map fun b hb => ?_))
      unfold mark
      split
      · exact hb
      · exact hb
  · exact h.lctlDone
  · split
    · exact h
    · exact h.onLaunch.lctlDone
  · exact h

end

end Sys2Proof.Machine
end

