-- ==== Sys2Proof/Proofs/KeptEvents.lean ====
section
/-! PROOF. The debugger, the device and what reaches it from outside keep it. -/

namespace Sys2Proof.Machine

section
variable {m c : Prop} {s : State}

theorem State.Kept.dbgGroups {s : State} {c' : Ctx} {op : DbgOp} {l : Launch} {x : DbgCmd} (h : s.Kept m c) :
    (s.dbgGroups c' op l x).Kept m c := by
  unfold State.dbgGroups
  split
  · exact h
  split
  next hq2 =>
    have ht := h.snd hq2
    split
    · split
      · exact h
      · exact ht.onUnits.trigger
    split
    · exact h
    split
    · trivial
    · exact (ht.foldl (fun _ _ ht2 => ht2.onGrp (fun _ hg => hg.landed))).onUnits

theorem State.Kept.dbgRead {s : State} {c' : Ctx} {l : Option Launch} {x : DbgCmd} (h : s.Kept m c) :
    (s.dbgRead c' l x).Kept m c := by
  unfold State.dbgRead
  split
  · split
    · exact h
    split
    · exact h
    split
    · exact h
    split
    · exact h
    · exact h.devWrite.spend
  · exact h
  split
  · exact h
  · exact h.devWrite

theorem State.Kept.putCmp {s : State} {part n : Nat} {v : Option (Nat × W64)} (h : s.Kept m c) :
    (s.putCmp part n v).Kept m c := h

theorem State.Kept.putWatch {s : State} {part n : Nat} {v : Option Watch} (h : s.Kept m c) :
    (s.putWatch part n v).Kept m c := h

theorem State.Kept.dbgDo {k : Ctx} {op : DbgOp} {x : DbgCmd} (h : s.Kept m c) : (s.dbgDo k op x).Kept m c := by
  unfold State.dbgDo
  extract_lets l watch data t
  clear_value l
  split
  · exact h
  split
  · exact h
  split
  · split
    · exact h
    · exact h.putCmp
  · exact h.putCmp
  · split
    · exact h
    split
    · exact h
    · exact h.putWatch
  · split
    · exact h
    · exact h.putWatch
  · exact h.dbgRead
  · have ht : t.Kept m c := h.report
    clear_value t
    split
    · exact ht
    · exact ht
  · split
    · exact h
    · exact h.dbgGroups

theorem State.Kept.dbgHalf {e : Env} {va : Nat} (h : s.Kept m c) : (s.dbgHalf e va).Kept m c := h.checks

theorem State.Kept.dbg' {op : DbgOp} {d a : RegN} (h : s.Kept m c) : NextKept m c (s.dbg' op d a) := by
  refine h.runWord fun t e ht he => ?_
  extract_lets va put
  have hput : ∀ u n, u.Kept m c → (put u n).Kept m c := fun _ _ hu => ⟨hu.acquire, he.write⟩
  clear_value put
  split
  · trivial
  split
  · split
    · trivial
    · exact hput _ _ ht
  split
  · exact hput _ _ ht
  split
  next hq => exact ht.dbgHalf.bad hq
  next hq =>
    have h1 := ht.dbgHalf.ok hq
    split
    next hr => exact h1.dbgHalf.bad hr
    next hr =>
      split
      next hv =>
        have h2 := (h1.dbgHalf.ok hr).askFabric.fst hv
        split
        · exact h2
        refine h2.sound ?_
        extract_lets x
        split
        next hd => exact hput _ _ (h2.takeFabric.dbgDo.status hd)
        · trivial
        next hd => exact (h2.takeFabric.dbgDo.begun hd).onUnit

theorem State.Kept.unpend {i : Nat} {p : PendRec} (h : s.Kept m c) : (s.unpend i p).Kept m c := by
  unfold State.unpend
  extract_lets t u
  have ht : t.Kept m c := h
  have hu : u.Kept m c := by
    unfold u
    split
    · exact ht.onUnit
    · exact ht
  clear_value u
  split
  · exact hu.endBlock
  · exact hu

theorem State.Kept.putHeld {i : Nat} {p : PendRec} {x : Put} (h : s.Kept m c) (hx : x.Kept m c) :
    (s.putHeld i p x).Kept m c := by
  cases x with
  | done t => exact State.Kept.unpend hx
  | moved t => exact hx
  | stuck => exact h

theorem State.Kept.execPostcard {i : Nat} (h : s.Kept m c) : NextKept m c (execPostcard i s) := by
  unfold Machine.execPostcard
  refine State.Kept.next ?_
  split
  · exact h
  extract_lets drop prod ring busy
  have hd : ∀ t, t.Kept m c → (drop t).Kept m c := fun _ ht => ht
  clear_value drop
  split
  · exact h
  split
  · exact hd _ h
  split
  next hq => exact hd _ (h.ringPut.done hq)
  next hq => exact h.ringPut.moved hq
  · split
    · exact h
    · exact hd _ h

theorem CCore.Kept.program {k : CCore} {q x : Nat} {p : BitVec 3} : (k.program q x p).Kept c := by
  unfold CCore.program
  extract_lets src g u arg g'
  have hs : src.Kept c := Grp.Kept.root
  have hg : g.Kept c := hs
  have harg : ∀ y r hi, y.Kept c → (arg y r hi).Kept c := fun _ _ _ hy => hy.write
  have hg' : g'.Kept c := harg _ _ _ (harg _ _ _ (harg _ _ _ (harg _ _ _ hg)))
  exact hg'.write.write

theorem State.Kept.serve {n k : Nat} (h : s.Kept m c) : (s.serve n k).Kept m c := by
  unfold State.serve
  split
  · exact h
  split
  · exact h
  split
  · exact h
  next q _ =>
    extract_lets r part fail
    split
    · exact h
    extract_lets x a ctx t seq fence
    have hf : ∀ i, (fail i).Kept m c := fun _ => h.queueError.onCc fun _ hk => hk
    clear_value fail ctx
    split
    · split
      · exact hf 2
      · exact h
    split
    · exact h
    split
    · exact hf 3
    extract_lets fpctl
    clear_value fpctl
    split
    · exact hf 4
    · refine h.onCc fun y hy => CCore.Kept.withGrp hy ?_
      split
      · exact CCore.Kept.program
      · exact hy.1.map fun _ hl => hl

theorem State.Kept.performAt {a : Nat} {b : FabricBody} (h : s.Kept m c) : (s.performAt a b).1.Kept m c := by
  cases b with
  | read n => exact h
  | write l => exact h.homeWrite

theorem State.Kept.execFabricRequest {f o : Nat} {b : FabricBody} (h : s.Kept m c) :
    NextKept m c (execFabricRequest f o b s) := by
  unfold Machine.execFabricRequest
  extract_lets answer at'
  have ha : ∀ t d, t.Kept m c → (answer t d).Kept m c := fun _ _ ht => ht
  clear_value answer at'
  refine State.Kept.next ?_
  split
  · split
    · split
      · exact h
      · exact ha _ _ h.performAt
    · exact ha _ _ h
  split
  · exact h
  split
  · exact ha _ _ h
  · exact ha _ _ h

theorem State.Kept.fabricWake {n i : Nat} (h : s.Kept m c) : (s.fabricWake n i).Kept m c := by
  unfold State.fabricWake
  extract_lets go src
  have hgo : ∀ g, g.Kept c → (go g).Kept c := fun _ hg => hg
  split
  · exact h.onCc fun k hk => CCore.Kept.mapTrap (CCore.Kept.withGrp hk (hgo _ hk.1)) fun _ ht => All.map ht hgo
  · have hs : src.Kept m c := h.onBlock fun _ hb => All.map hb hgo
    exact hs.withTraps (h.traps.mapIf fun _ ht => All.map ht hgo)

theorem State.Kept.execDbgHalt {d a : RegN} {s : State} (h : s.Kept m c) :
    NextKept m c (execDbgHalt d a s) := h.dbg'

theorem State.Kept.execDbgResume {d a : RegN} {s : State} (h : s.Kept m c) :
    NextKept m c (execDbgResume d a s) := h.dbg'

theorem State.Kept.execDbgStep {d a : RegN} {s : State} (h : s.Kept m c) :
    NextKept m c (execDbgStep d a s) := h.dbg'

theorem State.Kept.execDbgSetbp {d a : RegN} {s : State} (h : s.Kept m c) :
    NextKept m c (execDbgSetbp d a s) := h.dbg'

theorem State.Kept.execDbgClrbp {d a : RegN} {s : State} (h : s.Kept m c) :
    NextKept m c (execDbgClrbp d a s) := h.dbg'

theorem State.Kept.execDbgSetwp {d a : RegN} {s : State} (h : s.Kept m c) :
    NextKept m c (execDbgSetwp d a s) := h.dbg'

theorem State.Kept.execDbgClrwp {d a : RegN} {s : State} (h : s.Kept m c) :
    NextKept m c (execDbgClrwp d a s) := h.dbg'

theorem State.Kept.execDbgRead {d a : RegN} {s : State} (h : s.Kept m c) :
    NextKept m c (execDbgRead d a s) := h.dbg'

theorem State.Kept.execDbgPost {d a : RegN} {s : State} (h : s.Kept m c) :
    NextKept m c (execDbgPost d a s) := h.dbg'

theorem State.Kept.execReport {s : State} (h : s.Kept m c) :
    NextKept m c (execReport s) := by
  unfold Machine.execReport
  extract_lets
  split
  · exact h.putHeld h.reportPut
  · exact h

theorem State.Kept.execFaultRecordWrite {i : Nat} {s : State} (h : s.Kept m c) :
    NextKept m c (execFaultRecordWrite i s) := by
  unfold Machine.execFaultRecordWrite
  split
  · exact h
  extract_lets
  split
  · exact h
  · exact h.putHeld h.recPut

theorem State.Kept.execSnapshotLatch {part unit x2 : Nat} {s : State} (h : s.Kept m c) :
    NextKept m c (execSnapshotLatch part unit x2 s) := by
  unfold Machine.execSnapshotLatch
  split
  next hq =>
    have ht := h.readCyc.fst hq
    extract_lets
    split
    · exact h
    · exact ht

theorem State.Kept.execTrapEntry {q : Who} {s : State} (h : s.Kept m c) :
    NextKept m c (execTrapEntry q s) := by
  unfold Machine.execTrapEntry
  split
  · exact h
  split
  · split
    · exact h
    · exact h.onUnit.enterTrap
  · exact h

theorem State.Kept.execReplay {part : Nat} {ctx : BitVec 16} {s : State} (h : s.Kept m c) :
    NextKept m c (execReplay part ctx s) := h.replay

theorem State.Kept.execPageScan {die frame : Nat} {s : State} (h : s.Kept m c) :
    NextKept m c (execPageScan die frame s) := by
  unfold Machine.execPageScan
  split
  · exact h.scanOf
  · exact h

theorem State.Kept.execQueuePost {queue : Nat} {value : W32} {s : State} (h : s.Kept m c) :
    NextKept m c (execQueuePost queue value s) := by
  unfold Machine.execQueuePost
  split
  · exact h.queuePost
  · exact h

theorem State.Kept.execQueueEnable {queue : Nat} {value : W64} {s : State} (h : s.Kept m c) :
    NextKept m c (execQueueEnable queue value s) := by
  unfold Machine.execQueueEnable
  split
  · exact h.writeQueue
  · exact h

theorem State.Kept.execRegisterWrite {addr : Nat} {bytes : List Byte} {s : State} (h : s.Kept m c) :
    NextKept m c (execRegisterWrite addr bytes s) := by
  unfold Machine.execRegisterWrite
  split
  · exact h.regWrite
  · exact h

theorem State.Kept.execProgramCommand {cc : Nat} {s : State} (h : s.Kept m c) :
    NextKept m c (execProgramCommand cc s) := h.serve

theorem State.Kept.execCrossQueueFence {cc : Nat} {s : State} (h : s.Kept m c) :
    NextKept m c (execCrossQueueFence cc s) := h.serve

theorem State.Kept.execCrossQueueFenceDone {cc : Nat} {s : State} (h : s.Kept m c) :
    NextKept m c (execCrossQueueFenceDone cc s) := by
  unfold Machine.execCrossQueueFenceDone
  split
  · exact h
  split
  · split
    · exact h.commandDone
    · exact h
  · exact h

theorem State.Kept.execHaltWake {cc : Nat} {s : State} (h : s.Kept m c) :
    NextKept m c (execHaltWake cc s) := h.wake

theorem State.Kept.execTlbInvalidate {part : Nat} {value : W64} {s : State} (h : s.Kept m c) :
    NextKept m c (execTlbInvalidate part value s) := h.tlbInvalidate

theorem State.Kept.execInvalidationComplete {part : Nat} {s : State} (h : s.Kept m c) :
    NextKept m c (execInvalidationComplete part s) := by
  unfold Machine.execInvalidationComplete
  split
  · exact h
  split <;> exact h

theorem State.Kept.engStorage {s : State} {b : Block} {r : EReq} {addr : Nat} (h : s.Kept m c) :
    (s.engStorage b r addr).Kept m c := h.storageEnd

theorem State.Kept.unitStorage {s : State} {w : Who} {addr : W64} (h : s.Kept m c) :
    (s.unitStorage w addr).Kept m c := by
  unfold State.unitStorage
  split
  · exact h
  · exact h.dataFault

theorem State.Kept.execStorageError {flaw : Flaw} {addr : W64} {diff : BitVec 16} {s : State} (h : s.Kept m c) :
    NextKept m c (execStorageError flaw addr diff s) := by
  unfold Machine.execStorageError
  split
  · exact h.unitStorage
  · split
    · extract_lets
      split
      · exact h
      split
      · exact h.engStorage
      · exact h
    · extract_lets
      split
      · exact h
      split
      · exact h.engStorage
      · exact h
    extract_lets
    split
    · exact h
    split
    · exact h.engStorage
    · exact h
  · split <;> exact h
  · refine h.onBlock (fun _ hb => ?_)
    split <;> exact hb
  · exact h.onBlock (fun _ hb => hb)

theorem State.Kept.execCorrectableError {die : Nat} {s : State} (h : s.Kept m c) :
    NextKept m c (execCorrectableError die s) := h

theorem State.Kept.fabricDone {s : State} {f : FabOp} {data : List Byte} (h : s.Kept m c) :
    (s.fabricDone f data).Kept m c := by
  unfold State.fabricDone
  split
  · exact h
  split
  · exact h
  refine State.Kept.fabricWake ?_
  exact h

theorem State.Kept.fabricFail {f : FabOp} (h : s.Kept m c) : (s.fabricFail f).Kept m c := by
  unfold State.fabricFail
  extract_lets t
  have ht : t.Kept m c := h
  clear_value t
  split
  · exact ht.fabricWake.ccFail
  split
  · exact ht
  · split
    · exact ht.engStorage
    · exact ht.storageEnd

theorem State.Kept.farPerform {s : State} {f : FabOp} {a : Nat} (h : s.Kept m c) :
    (s.farPerform f a).1.Kept m c := by
  unfold State.farPerform
  split
  · split
    · exact h.homeWrite
    · exact h
  split
  · exact h
  · exact h.homeWrite

theorem State.Kept.farServe {s : State} {f : FabOp} {p o : Nat} (h : s.Kept m c) :
    (s.farServe f p o).Kept m c := by
  unfold State.farServe
  split
  · exact h.fabricFail
  split
  · exact h.fabricFail
  · exact h.farPerform.fabricDone

theorem State.Kept.execFabricCompletion {fid : Nat} {data : List Byte} {s : State} (h : s.Kept m c) :
    NextKept m c (execFabricCompletion fid data s) := by
  unfold Machine.execFabricCompletion
  split
  · exact h
  split
  · exact h
  split
  · split
    · split
      · exact h.farServe
      · exact h
    · exact h.farServe
  · exact h.fabricDone

theorem State.Kept.execErrorCompletion {fid : Nat} {s : State} (h : s.Kept m c) :
    NextKept m c (execErrorCompletion fid s) := by
  unfold Machine.execErrorCompletion
  split
  · exact h
  split
  · exact h
  · exact h.fabricFail

theorem State.Kept.resetPart {s : State} {p : Nat} (h : s.Kept m c) :
    (s.resetPart p).Kept m c := by
  unfold State.resetPart
  refine (((h.foldl (fun _ _ ht => ht.leave)).withBlocks (((h.foldl (fun _ _ ht =>
    ht.leave)).blocks).filter)).withCcs (((h.foldl (fun _ _ ht => ht.leave)).ccs).map (fun _ hk => ?_))).withTraps
    (((h.foldl (fun _ _ ht => ht.leave)).traps).filter)
  split
  · exact CCore.Kept.init
  · exact hk

theorem State.Kept.execPartitionReset {part : Nat} {s : State} (h : s.Kept m c) :
    NextKept m c (execPartitionReset part s) := h.resetPart

theorem State.Kept.execPowerOnReset {s : State} :
    NextKept m c (execPowerOnReset s) := State.Kept.reset

theorem State.Kept.mgmtPut {s : State} {d x : Nat} (h : s.Kept m c) :
    (s.mgmtPut d x).Kept m c := h

theorem State.Kept.execClockLowering {die : Nat} {s : State} (h : s.Kept m c) :
    NextKept m c (execClockLowering die s) := h

theorem State.Kept.execSelfTestComplete {fn : Nat} {failing : BitVec 16} {s : State} (h : s.Kept m c) :
    NextKept m c (execSelfTestComplete fn failing s) := by
  unfold Machine.execSelfTestComplete
  split
  · exact h
  refine State.Kept.queuesAgain ?_
  exact h

theorem State.Kept.execManagementWrite {d o : Nat} {l : List Byte} (h : s.Kept m c) :
    NextKept m c (execManagementWrite d o l s) := by
  unfold Machine.execManagementWrite
  refine State.Kept.next ?_
  obtain ⟨x, hx⟩ : ∃ x, overlay (s.mgmtFull d) o l = x := ⟨_, rfl⟩
  rw [hx]
  split
  · exact h
  extract_lets cfg t src
  have ht : t.Kept m c := h.foldl fun _ _ hx => hx.resetPart
  have hs : src.Kept m c := ht.mgmtPut
  clear_value src
  split
  · exact hs
  · exact h.mgmtPut

end

end Sys2Proof.Machine
end

