-- ==== Sys2Proof/Proofs/KeptSteps.lean ====
section
/-! PROOF. Every instruction, event and step keeps it. -/

namespace Sys2Proof.Machine

section
variable {m c : Prop} {s : State}

/-- Every instruction and every event keeps the canonical form of memory and the bound of the return stacks. -/
theorem State.Kept.exec {i : Instr} (h : s.Kept m c) : NextKept m c (exec i s) := by
  cases i with
  | mov => exact h.execMov
  | iadd => exact h.execIadd
  | isub => exact h.execIsub
  | imul => exact h.execImul
  | shl => exact h.execShl
  | shr => exact h.execShr
  | sar => exact h.execSar
  | and => exact h.execAnd
  | or => exact h.execOr
  | xor => exact h.execXor
  | andn => exact h.execAndn
  | imin => exact h.execImin
  | imax => exact h.execImax
  | nmin => exact h.execNmin
  | nmax => exact h.execNmax
  | ineg => exact h.execIneg
  | iabs => exact h.execIabs
  | mkform => exact h.execMkform
  | xbase => exact h.execXbase
  | xstride => exact h.execXstride
  | rdfirst => exact h.execRdfirst
  | expand => exact h.execExpand
  | iaddi => exact h.execIaddi
  | imuli => exact h.execImuli
  | shli => exact h.execShli
  | shri => exact h.execShri
  | sari => exact h.execSari
  | andi => exact h.execAndi
  | ori => exact h.execOri
  | xori => exact h.execXori
  | movi => exact h.execMovi
  | iaddiw => exact h.execIaddiw
  | movl => exact h.execMovl
  | movh => exact h.execMovh
  | movs => exact h.execMovs
  | icmp => exact h.execIcmp
  | icmpa => exact h.execIcmpa
  | icmpo => exact h.execIcmpo
  | ncmp => exact h.execNcmp
  | ncmpa => exact h.execNcmpa
  | ncmpo => exact h.execNcmpo
  | icmpi => exact h.execIcmpi
  | ncmpi => exact h.execNcmpi
  | icmpw => exact h.execIcmpw
  | ncmpw => exact h.execNcmpw
  | pand => exact h.execPand
  | por => exact h.execPor
  | pxor => exact h.execPxor
  | pandn => exact h.execPandn
  | pnot => exact h.execPnot
  | pset => exact h.execPset
  | pcut => exact h.execPcut
  | sel => exact h.execSel
  | selw => exact h.execSelw
  | ptoi => exact h.execPtoi
  | next => exact h.execNext
  | br => exact h.execBr
  | brx => exact h.execBrx
  | call => exact h.execCall
  | callx => exact h.execCallx
  | ret => exact h.execRet
  | exit => exact h.execExit
  | trap => exact h.execTrap
  | switch => exact h.execSwitch
  | yield => exact h.execYield
  | rds => exact h.execRds
  | wrs => exact h.execWrs
  | fence => exact h.execFence
  | bar => exact h.execBar
  | bara => exact h.execBara
  | rand => exact h.execRand
  | cyc => exact h.execCyc
  | nop => exact h.execNop
  | bkpt => exact h.execBkpt
  | eret => exact h.execEret
  | xcht => exact h.execXcht
  | launch => exact h.execLaunch
  | lwait => exact h.execLwait
  | icinv => exact h.execIcinv
  | icinvAll => exact h.execIcinvAll
  | dbgHalt => exact h.execDbgHalt
  | dbgResume => exact h.execDbgResume
  | dbgStep => exact h.execDbgStep
  | dbgSetbp => exact h.execDbgSetbp
  | dbgClrbp => exact h.execDbgClrbp
  | dbgSetwp => exact h.execDbgSetwp
  | dbgClrwp => exact h.execDbgClrwp
  | dbgRead => exact h.execDbgRead
  | dbgPost => exact h.execDbgPost
  | halt => exact h.execHalt
  | segh n => exact h.execSegh (n := n)
  | runh _ _ _ n => exact h.execRunh (x := n)
  | imulhi => exact h.execImulhi
  | nmulhi => exact h.execNmulhi
  | popc => exact h.execPopc
  | clz => exact h.execClz
  | brev => exact h.execBrev
  | bfe => exact h.execBfe
  | prmt => exact h.execPrmt
  | fadd => exact h.execFadd
  | fsub => exact h.execFsub
  | fmul => exact h.execFmul
  | fmin => exact h.execFmin
  | fmax => exact h.execFmax
  | fabs => exact h.execFabs
  | fneg => exact h.execFneg
  | dadd => exact h.execDadd
  | dsub => exact h.execDsub
  | dmul => exact h.execDmul
  | dmin => exact h.execDmin
  | dmax => exact h.execDmax
  | hadd2 => exact h.execHadd2
  | hmul2 => exact h.execHmul2
  | hmin2 => exact h.execHmin2
  | hmax2 => exact h.execHmax2
  | badd2 => exact h.execBadd2
  | bmul2 => exact h.execBmul2
  | cvt => exact h.execCvt
  | fexp2 => exact h.execFexp2
  | flog2 => exact h.execFlog2
  | frcp => exact h.execFrcp
  | frsq => exact h.execFrsq
  | fsqrt => exact h.execFsqrt
  | fsinp => exact h.execFsinp
  | fcosp => exact h.execFcosp
  | ftanh => exact h.execFtanh
  | drcp => exact h.execDrcp
  | drsq => exact h.execDrsq
  | fscl => exact h.execFscl
  | dscl => exact h.execDscl
  | ffrc => exact h.execFfrc
  | ffma => exact h.execFfma
  | dfma => exact h.execDfma
  | hfma2 => exact h.execHfma2
  | imad => exact h.execImad
  | ld8 => exact h.execLd8
  | ld8s => exact h.execLd8s
  | ld16 => exact h.execLd16
  | ld16s => exact h.execLd16s
  | ld32 => exact h.execLd32
  | ld64 => exact h.execLd64
  | ld128 => exact h.execLd128
  | lda32 => exact h.execLda32
  | lda64 => exact h.execLda64
  | ld128a => exact h.execLd128a
  | st8 => exact h.execSt8
  | st16 => exact h.execSt16
  | st32 => exact h.execSt32
  | st64 => exact h.execSt64
  | st128 => exact h.execSt128
  | stl32 => exact h.execStl32
  | stl64 => exact h.execStl64
  | st128a => exact h.execSt128a
  | ldc32 => exact h.execLdc32
  | ldc64 => exact h.execLdc64
  | pfx => exact h.execPfx
  | aadd => exact h.execAadd
  | aimin => exact h.execAimin
  | aimax => exact h.execAimax
  | anmin => exact h.execAnmin
  | anmax => exact h.execAnmax
  | aand => exact h.execAand
  | aor => exact h.execAor
  | axor => exact h.execAxor
  | axch => exact h.execAxch
  | acas => exact h.execAcas
  | afadd => exact h.execAfadd
  | aaddw => exact h.execAaddw
  | axchw => exact h.execAxchw
  | acasw => exact h.execAcasw
  | qadd => exact h.execQadd
  | qimin => exact h.execQimin
  | qimax => exact h.execQimax
  | qand => exact h.execQand
  | qor => exact h.execQor
  | qxor => exact h.execQxor
  | qfadd => exact h.execQfadd
  | qbadd2 => exact h.execQbadd2
  | waita => exact h.execWaita
  | mma => exact h.execMma
  | mmab => exact h.execMmab
  | mcfg => exact h.execMcfg
  | mzero => exact h.execMzero
  | mread => exact h.execMread
  | mwrite => exact h.execMwrite
  | mdrain => exact h.execMdrain
  | mwait => exact h.execMwait
  | ofence => exact h.execOfence
  | obres => exact h.execObres
  | obbind => exact h.execObbind
  | obrel => exact h.execObrel
  | cpy => exact h.execCpy
  | cpys => exact h.execCpys
  | fetch => exact h.execFetch
  | tbinit => exact h.execTbinit
  | tbarr => exact h.execTbarr
  | tbwait => exact h.execTbwait
  | tbtest => exact h.execTbtest
  | sfmax => exact h.execSfmax
  | sfmask => exact h.execSfmask
  | sfclr => exact h.execSfclr
  | sftopk => exact h.execSftopk
  | sfhist => exact h.execSfhist
  | sfscan => exact h.execSfscan
  | sfperm => exact h.execSfperm
  | sfwait => exact h.execSfwait
  | redi => exact h.execRedi
  | redn => exact h.execRedn
  | redf => exact h.execRedf
  | redd => exact h.execRedd
  | scani => exact h.execScani
  | scanf => exact h.execScanf
  | bcast => exact h.execBcast
  | vote => exact h.execVote
  | isect => exact h.execIsect
  | isectb => exact h.execIsectb
  | fcmp => exact h.execFcmp
  | dcmp => exact h.execDcmp
  | hcmp2 => exact h.execHcmp2
  | fclass => exact h.execFclass
  | foldClose => exact h.execFoldClose
  | heldThreadPlacement => exact h.execHeldThreadPlacement
  | convergenceDeadlock => exact h.execConvergenceDeadlock
  | blockDispatch => exact h.execBlockDispatch
  | steal => exact h.execSteal
  | concurrentPlacement => exact h.execConcurrentPlacement
  | blockEnd => exact h.execBlockEnd
  | postmark => exact h.execPostmark
  | storeToCorePoint => exact h.execStoreToCorePoint
  | storeToDiePoint => exact h.execStoreToDiePoint
  | storeToHome => exact h.execStoreToHome
  | quietReductionPerform => exact h.execQuietReductionPerform
  | atomicPerform => exact h.execAtomicPerform
  | loadCacheDrop => exact h.execLoadCacheDrop
  | sharedLoadRead => exact h.execSharedLoadRead
  | capacityCommit => exact h.execCapacityCommit
  | copySourceRead => exact h.execCopySourceRead
  | sectorPerformed => exact h.execSectorPerformed
  | parkResume => exact h.execParkResume
  | matrixPerform => exact h.execMatrixPerform
  | addOnStorePerform => exact h.execAddOnStorePerform
  | reservationFill => exact h.execReservationFill
  | siftPerform => exact h.execSiftPerform
  | waitaWake => exact h.execWaitaWake
  | waitaEnd => exact h.execWaitaEnd
  | replicaCompare => exact h.execReplicaCompare
  | replicaTimeout => exact h.execReplicaTimeout
  | forwardedValue => exact h.execForwardedValue
  | trapEntry => exact h.execTrapEntry
  | replay => exact h.execReplay
  | pageScan => exact h.execPageScan
  | fetchFaultSwap => exact h.execFetchFaultSwap
  | swapRestore => exact h.execSwapRestore
  | queuePost => exact h.execQueuePost
  | registerWrite => exact h.execRegisterWrite
  | programCommand => exact h.execProgramCommand
  | crossQueueFence => exact h.execCrossQueueFence
  | crossQueueFenceDone => exact h.execCrossQueueFenceDone
  | tlbInvalidate => exact h.execTlbInvalidate
  | invalidationComplete => exact h.execInvalidationComplete
  | preEmpt => exact h.execPreEmpt
  | launchResume => exact h.execLaunchResume
  | kill => exact h.execKill
  | blockSave => exact h.execBlockSave
  | quiesceTokenReturn => exact h.execQuiesceTokenReturn
  | storageError => exact h.execStorageError
  | correctableError => exact h.execCorrectableError
  | fabricRequest => exact h.execFabricRequest
  | errorCompletion => exact h.execErrorCompletion
  | managementWrite => exact h.execManagementWrite
  | partitionReset => exact h.execPartitionReset
  | powerOnReset => exact State.Kept.execPowerOnReset
  | selfTestComplete => exact h.execSelfTestComplete
  | clockLowering => exact h.execClockLowering
  | haltWake => exact h.execHaltWake
  | report => exact h.execReport
  | snapshotLatch => exact h.execSnapshotLatch
  | postcard => exact h.execPostcard
  | faultRecordWrite => exact h.execFaultRecordWrite
  | queueEnable => exact h.execQueueEnable
  | fabricCompletion => exact h.execFabricCompletion

theorem State.Kept.newRound {i p : Nat} (h : s.Kept m c) : (s.newRound i p).Kept m c := by
  unfold State.newRound
  extract_lets fresh mine
  have hf : ∀ g, g.Kept c → (fresh g).Kept c := fun _ hg => hg
  exact ⟨h.mem, h.blocks.mapIf fun _ hb => All.mapIf hb hf, h.traps.mapIf fun _ ht => All.map ht hf, h.ccs⟩

theorem State.Kept.granted {s : State} {e : Env} (h : s.Kept m c) :
    (s.granted e).Kept m c := by
  unfold State.granted
  split
  · refine State.Kept.onUnit ?_
    split
    · exact h.newRound
    · exact h
  · exact h

theorem State.Kept.fetchFails {s : State} {e : Env} {seg : W64} {f : Fetched} (h : s.Kept m c) :
    (s.fetchFails e seg f).Kept m c := by
  unfold State.fetchFails
  split
  · split
    · exact h
    · exact h
    · exact h
    · exact h.endFault
    · exact h.endFault
    · exact h.endFault
    extract_lets
    split
    next hq3 =>
      have ht := h.record.fst hq3
      split
      · extract_lets
        split
        · exact ht.onUnit.onBlock (fun _ hb2 => hb2)
        · exact ht.onUnit
      extract_lets
      split
      · exact ht.onUnit.onBlock (fun _ hb2 => hb2)
      · exact ht.onUnit
  · exact h

theorem State.Kept.fetch {s : State} {e : Env} (h : s.Kept m c) :
    (s.fetch e).Kept m c := by
  unfold State.fetch
  split
  · exact h.trapWord
  split
  · extract_lets
    split
    next hq3 =>
      have ht := h.fetchSeg.fst hq3
      split
      · exact ht.takeFrame.onUnit
      · exact ht
      · exact ht.askFrame.onUnit
      · exact ht.takeFrame.fetchFails
  · extract_lets
    split
    next hq3 =>
      have ht := h.fetchSeg.fst hq3
      split
      · exact ht.takeFrame.onUnit
      · exact ht
      · exact ht.askFrame.onUnit
      · exact ht.takeFrame.groupFault
  · extract_lets
    split
    next hq3 =>
      have ht := h.fetchSeg.fst hq3
      split
      · exact ht.takeFrame.onUnit
      · exact ht
      · exact ht.askFrame.onUnit
      split
      · exact ht.takeFrame.trapWord
      · exact ht.takeFrame.trapWord
      · exact ht.takeFrame.abandon
  extract_lets
  split
  next hq3 =>
    have ht := h.fetchSeg.fst hq3
    split
    · exact ht.takeFrame.onUnit
    · exact ht
    · exact ht.askFrame.onUnit
    · exact ht.takeFrame.abandon

theorem State.Kept.badWord {s : State} {e : Env} (h : s.Kept m c) :
    (s.badWord e).Kept m c := by
  unfold State.badWord
  split
  · exact h.fetchFails
  · exact h.groupFault
  · exact h.abandon
  · exact h.abandon

theorem State.Kept.found {s : State} {w : Who} {was : ISet} (h : s.Kept m c) :
    (s.found w was).Kept m c := h.onUnit

theorem State.Kept.splitNext {s : State} {w : Who} (h : s.Kept m c) :
    (s.splitNext w).Kept m c := by
  unfold State.splitNext
  split
  · split
    · exact h.onUnit
    · exact h
  · exact h

/-- What takes place keeps both. -/
def Deed.Kept (m c : Prop) (d : Deed) : Prop := ∀ s : State, s.Kept m c → NextKept m c (d s)

section
variable {m c : Prop} {s : State}

theorem All.ite {α : Type} {p : α → Prop} {b : Prop} [Decidable b] {l k : List α} (hl : All p l) (hk : All p k) :
    All p (if b then l else k) := by
  split
  · exact hl
  · exact hk

theorem All.of {α β : Type} {p : β → Prop} {l : List α} {f : α → List β} (hf : ∀ x,
    All p (f x)) : All p (l.flatMap f) :=
  All.flatMap (p := fun _ => True) (fun _ _ => trivial) fun x _ => hf x

theorem ISet.due_kept {b : Bool} {w : Who} {u : ISet} : All (Deed.Kept m c) (ISet.due b w u) := by
  unfold ISet.due
  split
  · exact All.one fun _ h => h.execParkResume
  · exact All.one fun _ h => h.execSharedLoadRead
  · exact All.one fun _ h => h.execForwardedValue
  · split
    · exact All.one fun _ h => h.execWaitaEnd
    · exact All.one fun _ h => h.execWaitaWake
  · exact All.one fun _ h => h.execTrapEntry
  · exact All.nil

theorem EReq.due_kept {n : Nat} {r : EReq} : All (Deed.Kept m c) (r.due n) := by
  unfold EReq.due
  split
  · exact All.nil
  split
  · exact All.one fun _ h => h.execMatrixPerform
  · exact All.one fun _ h => h.execSiftPerform
  · refine All.append (All.of fun x => ?_) ?_
    · split
      · exact All.nil
      split
      · exact All.one fun _ h => h.execCopySourceRead
      · exact All.one fun _ h => h.execSectorPerformed
    · split
      · exact All.one fun _ h => h.execReservationFill
      · exact All.nil

theorem State.blockDue_kept {b : Block} : All (Deed.Kept m c) (s.blockDue b) := by
  unfold State.blockDue
  extract_lets hs units queues stop cores
  clear_value units queues stop cores
  refine All.append (All.append (All.append (All.append (All.append (All.append (All.append ?_ ?_) ?_) ?_) ?_) ?_)
    ?_) ?_
  · exact All.ofMap fun _ _ h => h.execStoreToCorePoint
  · exact All.of fun _ => ISet.due_kept
  · exact All.of fun _ => EReq.due_kept
  · exact All.ofMap fun _ _ h => h.execFoldClose
  · exact All.ofMap fun _ _ h => h.execHeldThreadPlacement
  · exact All.ite (All.one fun _ h => h.execCapacityCommit) All.nil
  · exact All.ite (All.one fun _ h => h.execReplicaCompare) All.nil
  · split
    · refine All.append (All.append ?_ ?_) ?_
      · exact All.ite (All.one fun _ h => h.execBlockEnd) (All.one fun _ h => h.execConvergenceDeadlock)
      · exact All.ite (All.cons (fun _ h => h.execFetchFaultSwap) (All.one fun _ h => h.execSwapRestore)) All.nil
      · exact All.ite (All.one fun _ h => h.execBlockSave) All.nil
    · exact All.nil
    · exact All.ofMap fun _ _ h => h.execSwapRestore

theorem State.dispatchDue_kept {l : Launch} : All (Deed.Kept m c) (s.dispatchDue l) := by
  unfold State.dispatchDue
  refine All.append ?_ (All.ofMap fun _ _ h => h.execBlockDispatch)
  split
  · exact All.ite (All.one fun _ h => h.execBlockDispatch) All.nil
  · exact All.nil

theorem State.launchDue_kept {l : Launch} : All (Deed.Kept m c) (s.launchDue l) := by
  unfold State.launchDue
  split
  · exact All.nil
  split
  · exact All.one fun _ h => h.execQuiesceTokenReturn
  split
  · exact All.one fun _ h => h.execPostmark
  split
  · refine All.append (All.ite (All.ite ?_ All.nil) ?_) (All.ite All.nil State.dispatchDue_kept)
    · exact All.one fun _ h => h.execConcurrentPlacement
    · exact All.one fun _ h => h.execConcurrentPlacement
  · exact State.dispatchDue_kept

theorem State.ccDue_kept {k : CCore} : All (Deed.Kept m c) (s.ccDue k) := by
  unfold State.ccDue
  extract_lets stop
  refine All.append (All.append (All.ite All.nil (All.one fun _ h => h.execStoreToCorePoint)) ?_) ?_
  · split
    · exact All.append (All.ite (All.one fun _ h => h.execStoreToCorePoint) All.nil)
        (All.of fun _ => All.of fun _ => ISet.due_kept)
    · exact All.of fun _ => ISet.due_kept
  · split
    · exact All.cons (fun _ h => h.execProgramCommand) (All.one fun _ h => h.execCrossQueueFence)
    · exact All.ite (All.one fun _ h => h.execCrossQueueFenceDone) All.nil

theorem State.fabricDue_kept {f : FabOp} : All (Deed.Kept m c) (s.fabricDue f) :=
  All.ite (All.one fun _ h => h.execErrorCompletion) (All.ite (All.one fun _ h => h.execFabricCompletion) All.nil)

theorem State.partDue_kept {p : Nat} : All (Deed.Kept m c) (s.partDue p) := by
  unfold State.partDue
  refine All.append (All.append ?_ ?_) ?_
  · split
    · split
      · exact All.one fun _ h => h.execPreEmpt
      · exact All.one fun _ h => h.execLaunchResume
      · exact All.one fun _ h => h.execKill
      · exact All.nil
    · exact All.nil
  · exact All.ite All.nil (All.one fun _ h => h.execInvalidationComplete)
  · exact All.ite (All.ofMap fun _ _ h => h.execSnapshotLatch) All.nil

/-- Every event that may be due keeps both. -/
theorem State.due_kept : All (Deed.Kept m c) s.due := by
  unfold State.due
  refine All.append (All.append (All.append (All.append (All.append (All.append (All.append (All.append (All.append
    (All.append ?_ ?_) ?_) ?_) ?_) ?_) ?_) ?_) ?_) ?_) ?_
  · exact All.of fun _ => State.blockDue_kept
  · exact All.of fun _ => State.launchDue_kept
  · exact All.of fun _ => State.ccDue_kept
  · exact All.of fun _ => State.partDue_kept
  · exact All.of fun _ => All.ofMap fun _ _ h => h.execStoreToDiePoint
  · exact All.of fun _ => All.ofMap fun _ _ h => h.execStoreToHome
  · refine All.ofMap fun x => ?_
    split
    · exact fun _ h => h.execAddOnStorePerform
    · exact fun _ h => h.execQuietReductionPerform
  · exact All.ofMap fun _ _ h => h.execAtomicPerform
  · exact All.of fun _ => All.append (All.ofMap fun _ _ h => h.execLoadCacheDrop) (All.ofMap fun _ _ h =>
    h.execLoadCacheDrop)
  · exact All.of fun _ => State.fabricDue_kept
  · refine All.ofMap fun x => ?_
    split
    · exact fun _ h => h.execReport
    · exact fun _ h => h.execFaultRecordWrite

/-! ### The step -/

theorem NextKept.andThen {o : Host.Outcome State Fault Refusal} {f : State → State} (h : NextKept m c o)
    (hf : ∀ t, t.Kept m c → (f t).Kept m c) : NextKept m c (andThen o f) := by
  cases o with
  | next t => exact hf t h
  | fault x => trivial
  | refused x => trivial

theorem NextKept.settleOutcome {o : Host.Outcome State Fault Refusal} (h : NextKept m c o) :
    NextKept m c (settleOutcome o) := by
  cases o with
  | next t => exact State.Kept.settleHalts h
  | fault x => trivial
  | refused x => trivial

theorem State.Kept.issue {w : Who} (h : s.Kept m c) : NextKept m c (s.issue w) := by
  unfold State.issue
  split
  · exact h
  next e he =>
    split
    · exact h
    split
    · exact State.Kept.fetch h
    · split
      next i _ =>
        have hg : State.Kept m c { s.granted e with turn := w } := h.granted
        refine NextKept.andThen hg.exec fun t ht => ?_
        split
        · exact ht
        · exact ht.found
      · exact State.Kept.badWord h

theorem State.Kept.choose {f : Deed} (h : s.choose = some f) : f.Kept m c := by
  unfold State.choose at h
  extract_lets es event agent at h
  have he : ∀ d, event = some d → Deed.Kept m c d := fun d hd => State.due_kept d (List.mem_of_getElem? hd)
  have ha : ∀ d, agent = some d → Deed.Kept m c d := by
    intro d hd
    obtain ⟨w, -, rfl⟩ := Option.map_eq_some_iff.mp hd
    exact fun _ hs => hs.issue
  split at h
  · rcases Option.or_eq_some_iff.mp h with h | ⟨-, h⟩
    · exact ha f h
    · exact he f h
  · rcases Option.or_eq_some_iff.mp h with h | ⟨-, h⟩
    · exact he f h
    · exact ha f h

theorem State.Kept.act {p : Pick} (h : s.Kept m c) : NextKept m c (s.act p) := by
  unfold State.act
  split
  · exact h.issue
  · exact State.Kept.issue h.splitNext
  · split
    · exact h
    · exact h.exec

/-- Every step keeps the canonical form of memory and the bound of the return stacks. -/
theorem State.Kept.step (h : s.Kept m c) : NextKept m c (step s) := by
  unfold Machine.step State.stepNow
  extract_lets t
  have ht : t.Kept m c := h
  split
  next p r _ =>
    have hr : State.Kept m c { t with agenda := r } := ht
    exact NextKept.settleOutcome hr.act
  · split
    next f hf => exact NextKept.settleOutcome (State.Kept.choose hf t ht)
    · exact ht

theorem State.kept_mem_iff : s.Kept True False ↔ s.mem.wf = true := by
  have hg : ∀ l : List Grp, All (Grp.Kept False) l := fun _ _ _ _ _ hf => hf.elim
  exact ⟨fun h => h.mem trivial, fun h => ⟨fun _ => h, fun b _ => hg b.groups, fun x _ => hg x.groups,
    fun k _ => ⟨hg [k.grp] k.grp List.mem_cons_self, fun x _ => hg x.groups⟩⟩⟩

end

/-- Settles O54: what every step keeps, with the canonical form of memory as the part that is asked for. -/
theorem stepKeepsMemoryCanonical : Obligations.StepKeepsMemoryCanonical := by
  unfold Obligations.StepKeepsMemoryCanonical
  intro s t hs ht
  have h := (State.kept_mem_iff.mpr hs).step
  rw [ht] at h
  exact State.kept_mem_iff.mp h

/-- Settles O60: what every step keeps, with the bound of the return stacks as the part that is asked for. -/
theorem stepKeepsReturnStacks : Obligations.StepKeepsReturnStacks := by
  unfold Obligations.StepKeepsReturnStacks
  intro ok inv s t ⟨hb, hx, hk⟩ ht
  have h : NextKept False True (step s) := State.Kept.step ⟨fun hf => hf.elim,
    fun b hm g hg l hl _ => hb b hm g hg l hl,
    fun x hm g hg l hl _ => hx x hm g hg l hl, fun k hm => ⟨fun l hl _ => (hk k hm).1 l hl,
    fun x hm' g hg l hl _ => (hk k hm).2 x hm' g hg l hl⟩⟩
  rw [ht] at h
  exact ⟨fun b hm g hg l hl => h.blocks b hm g hg l hl trivial, fun x hm g hg l hl => h.traps x hm g hg l hl trivial,
    fun k hm => ⟨fun l hl => (h.ccs k hm).1 l hl trivial,
      fun x hm' g hg l hl => (h.ccs k hm).2 x hm' g hg l hl trivial⟩⟩

end

end Sys2Proof.Machine
end

