-- ==== Sys2Proof/Proofs/FormWords.lean ====
section
/-! PROOF. The form-pipe register words (R165, R168 to R170): each is a shared operation whose closure answers with its values, or a form word of its own. -/

namespace Sys2Proof.Machine

section
variable {i : Instr} {d a b : RegN} {ka kb wide : Bool}

/-- An FR word whose second source has the word's width. -/
theorem same_width_run {op : Op2} (hi : ∀ s, exec i s = s.fr2 op d.toNat a.toNat b.toNat ka kb wide true)
    (hs : ∀ e, op.Sound e (widthOf wide)) :
    FormWord i (frShape d.toNat wide a.toNat wide (some (b.toNat, wide)) ka kb) d wide
      (fun e p => op.val (widthOf wide) (e.val wide a.toNat p) (e.val wide b.toNat p))
      (fun e => e.binary wide a wide b fun x y => op.clo e (widthOf wide) x y) := by
  simpa only [Bool.and_true] using fr2_run hi hs (by simp)

/-- A shift: its count is a 32-bit source, and its closure asks for a uniform count. -/
theorem shift_run {op : Op2} (hi : ∀ s, exec i s = s.fr2 op d.toNat a.toNat b.toNat ka kb wide false)
    (hs : ∀ e, op.Sound e (widthOf wide)) (hu : ∀ e w x y f, op.clo e w x y = some f → y.2 = 0) :
    FormWord i (frShape d.toNat wide a.toNat wide (some (b.toNat, false)) ka kb) d wide
      (fun e p => op.val (widthOf wide) (e.val wide a.toNat p) (e.val false b.toNat p))
      (fun e => e.binary wide a false b fun x y => op.clo e (widthOf wide) x y) := by
  simpa only [Bool.and_false] using fr2_run hi hs fun _ => hu

/-- An FR word of one source. -/
theorem one_source_run {op : Op2} (hi : ∀ s, exec i s = s.fr1 op 0 d.toNat a.toNat ka wide)
    (hs : ∀ e, op.Sound e (widthOf wide)) :
    FormWord i (frShape d.toNat wide a.toNat wide none ka false) d wide
      (fun e p => op.val (widthOf wide) (e.val wide a.toNat p) 0)
      (fun e => e.unary wide a fun x => op.clo e (widthOf wide) x (0, 0)) :=
  fr1_run (Nat.two_pow_pos _) hi hs

end

theorem opShl_uniform {e : Env} {w : Nat} {x y : Nat × Int} {f : Int × Int} (h : opShl.clo e w x y = some f) :
    y.2 = 0 := by
  simp only [opShl, Option.ite_none_right_eq_some] at h
  exact h.1

theorem opShr_uniform {e : Env} {w : Nat} {x y : Nat × Int} {f : Int × Int} (h : opShr.clo e w x y = some f) :
    y.2 = 0 := by
  simp only [opShr, Option.ite_none_right_eq_some] at h
  exact h.1.1

theorem opSar_uniform {e : Env} {w : Nat} {x y : Nat × Int} {f : Int × Int} (h : opSar.clo e w x y = some f) :
    y.2 = 0 := by
  simp only [opSar, Option.ite_none_right_eq_some] at h
  exact h.1.1

/-- MOV is the sum with zero. -/
theorem mov_run (d a : RegN) (ka wide : Bool) :
    FormWord (.mov d a ka wide) (frShape d.toNat wide a.toNat wide none ka false) d wide
      (fun e p => e.val wide a.toNat p) (fun e => e.unary wide a fun x => some (x.1, x.2)) := by
  have h := one_source_run (i := .mov d a ka wide) (fun _ => rfl) fun e => opAdd_sound e (widthOf wide)
  simpa [opAdd] using h

theorem mkform_run (d a b : RegN) (ka kb wide : Bool) :
    FormWord (.mkform d a b ka kb wide) (frShape d.toNat wide a.toNat wide (some (b.toNat, false)) ka kb) d wide
      (fun e p => (e.val wide a.toNat p : Int) + sext 32 (e.val false b.toNat p) * e.index p)
      (fun e => e.binary wide a false b fun x y =>
        if x.2 = 0 ∧ y.2 = 0 then some ((x.1 : Int) + sext 32 y.1 * e.grp.lo, sext 32 y.1) else none) := by
  apply formWord_run
  · intro s
    show execMkform d a b ka kb wide s = _
    unfold execMkform Env.binary
    congr 1; funext s e
    cases e.form wide a.toNat <;> simp
    cases e.form false b.toNat <;> simp
    split <;> simp
  · intro e f ha hs hf p hp
    simp only [Env.binary, Option.bind_eq_some_iff, Option.ite_none_right_eq_some] at hf
    obtain ⟨x, hx, y, hy, ⟨hx0, hy0⟩, hf⟩ := hf
    cases hf
    have hxv := form_lt hx
    have hyv := form_lt hy
    rw [form_val hx hp, form_val hy hp, hx0, hy0]
    simp only [zero_mul, add_zero, wrap_of_lt hxv, wrap_of_lt hyv]
    have hi : e.index p = e.grp.lo + p := by simp [Env.index, hs]
    rw [hi]
    push_cast
    ring_nf

theorem exec_xbase (d a : RegN) (ka wide : Bool) (s : State) :
    exec (.xbase d a ka wide) s = s.runWord (fun _ => frShape d.toNat wide a.toNat wide none ka false) fun s e =>
      e.put s d.toNat (e.formWord wide ((e.form wide a.toNat).bind fun x => formRes wide x.1 0) fun p =>
        match e.form wide a.toNat with
        | some x => (x.1 : Int)
        | none => e.val wide a.toNat p) := rfl

/-- XBASE's closure is its own value: the base of the form. -/
theorem xbase_run (d a : RegN) (ka wide : Bool) :
    FormWord (.xbase d a ka wide) (frShape d.toNat wide a.toNat wide none ka false) d wide
      (fun e p => match e.form wide a.toNat with
        | some x => (x.1 : Int)
        | none => e.val wide a.toNat p)
      (fun e => e.unary wide a fun x => some (x.1, 0)) := by
  apply formWord_run
  · intro s
    rw [exec_xbase]
    congr 1; funext s e
    cases h : e.form wide a.toNat <;> simp [Env.unary, h]
  · intro e f ha hs hf p hp
    simp only [Env.unary, Option.bind_eq_some_iff] at hf
    obtain ⟨x, hx, hf⟩ := hf
    cases hf
    simp [hx]

theorem exec_expand (d a : RegN) (ka wide : Bool) (s : State) :
    exec (.expand d a ka wide) s = s.runWord (fun _ => frShape d.toNat wide a.toNat wide none ka false) fun s e =>
      if e.grp.span && !e.solo then .expand
      else .done s (e.write d.toNat (lanesRes wide fun p => e.val wide a.toNat p)) := rfl

/-- A word that writes a value per lane, and expands a span, is a form word without a closure. -/
theorem formWord_of_lanes {i : Instr} {sh : Shape} {d : RegN} {wide : Bool} {v : Env → Nat → Int}
    (hi : ∀ s, exec i s = s.runWord (fun _ => sh) fun s e =>
      if e.grp.span && !e.solo then .expand else .done s (e.write d.toNat (lanesRes wide (v e)))) :
    FormWord i sh d wide v (fun _ => none) := by
  intro s e he
  obtain ⟨ha, hm⟩ := he.acting
  refine ⟨fun h => ?laned, fun hl _ => ?span⟩
  case laned =>
    have hl := h.resolve_right (by simp)
    have hat := fun p (hp : p ∈ e.members) => lanesRes_at (wide := wide) (f := v (s.prepare e sh).2) (ha.lanes hl p
      (hm ▸ hp))
    refine ⟨lanesRes wide (v (s.prepare e sh).2), by cases wide <;> rfl, fun p hp => (hat p hp).2, by simp, ?_⟩
    rw [hi]
    exact runWord_done (sh := fun _ => sh) he (if_neg (by rw [laned_iff.mp hl]; decide))
  case span =>
    rw [hi]
    exact runWord_expand (sh := fun _ => sh) he.acts he.clear
      (if_pos ((Bool.eq_false_or_eq_true _).resolve_right (mt laned_iff.mpr hl)))

/-- Settles O1: each word is one of the shared form-word operations with a sound closure, or its own form word. -/
theorem formRegisterWords : Obligations.FormRegisterWords := by
  intro d a b ka kb wide
  refine ⟨?mov, ?iadd, ?isub, ?imul, ?shl, ?shr, ?sar, ?and, ?or, ?xor, ?andn, ?imin, ?imax, ?nmin, ?nmax, ?ineg, ?iabs,
    ?mkform, ?xbase, ?expand⟩
  case mov => exact mov_run d a ka wide
  case iadd => exact same_width_run (fun _ => rfl) fun e => opAdd_sound e _
  case isub => exact same_width_run (fun _ => rfl) fun e => opSub_sound e _
  case imul => exact same_width_run (fun _ => rfl) fun e => opMul_sound e _
  case shl => exact shift_run (fun _ => rfl) (fun e => opShl_sound e _) fun _ _ _ _ _ => opShl_uniform
  case shr => exact shift_run (fun _ => rfl) (fun e => opShr_sound e (widthOf_pos wide)) fun _ _ _ _ _ => opShr_uniform
  case sar => exact shift_run (fun _ => rfl) (fun e => opSar_sound e (widthOf_pos wide)) fun _ _ _ _ _ => opSar_uniform
  case and => exact same_width_run (fun _ => rfl) fun e => opBits_sound _ e _
  case or => exact same_width_run (fun _ => rfl) fun e => opBits_sound _ e _
  case xor => exact same_width_run (fun _ => rfl) fun e => opBits_sound _ e _
  case andn => exact same_width_run (op := opBits fun x y => x - (x &&& y)) (fun _ => rfl) fun e => opBits_sound _ e _
  case imin => exact same_width_run (fun _ => rfl) fun e => opPick_sound .le true e (widthOf_pos wide)
  case imax => exact same_width_run (fun _ => rfl) fun e => opPick_sound .ge true e (widthOf_pos wide)
  case nmin => exact same_width_run (fun _ => rfl) fun e => opPick_sound .le false e (widthOf_pos wide)
  case nmax => exact same_width_run (fun _ => rfl) fun e => opPick_sound .ge false e (widthOf_pos wide)
  case ineg => exact one_source_run (fun _ => rfl) fun e => opNeg_sound e _
  case iabs => exact one_source_run (fun _ => rfl) fun e => opAbs_sound e (widthOf_pos wide)
  case mkform => exact mkform_run d a b ka kb wide
  case xbase => exact xbase_run d a ka wide
  case expand => exact formWord_of_lanes (exec_expand d a ka wide)

end Sys2Proof.Machine
end

