-- ==== Sys2Proof/Proofs/Representations.lean ====
section
/-! PROOF. The words on representations: XSTRIDE and RDFIRST write one value for all members (R169, R170), RDFIRST that of the lowest. -/

namespace Sys2Proof.Machine

/-! ### XSTRIDE and RDFIRST (R169, R170) -/

theorem exec_xstride (d a : RegN) (ka wide : Bool) (s : State) :
    exec (.xstride d a ka wide) s = s.runWord
      (fun _ => { dsts := regsOf wide d.toNat, names := [a.toNat], rel := if ka then [a.toNat] else [] }) fun s e =>
      let st : Nat := match e.view.form32 a.toNat with
        | some f => f.2.toNat
        | none => 0
      .done s (e.write d.toNat (e.sameWord wide (if wide then st + 2 ^ 32 * e.tag a.toNat else st : Nat))) := rfl

theorem exec_rdfirst (d a : RegN) (ka wide : Bool) (s : State) :
    exec (.rdfirst d a ka wide) s = s.runWord
      (fun _ => { dsts := regsOf wide d.toNat, firsts := regsOf wide a.toNat
                  rel := if ka then regsOf wide a.toNat else [] }) fun s e =>
      if e.grp.span && (e.form wide a.toNat).isNone then .expand
      else .done s (e.write d.toNat (e.sameWord wide (e.val wide a.toNat e.first))) := rfl

/-- A word that completes with one value for every acting thread, on the environments where it does. -/
theorem sameWord_of_done {i : Instr} {sh : Env → Shape} {d : RegN} {wide : Bool} {ok : Env → Prop} {v : Env → Int}
    {f : State → Env → Eff} (hi : ∀ s, exec i s = s.runWord sh f)
    (hf : ∀ s e, ok e → f s e = .done s (e.write d.toNat (e.sameWord wide (v e)))) : SameWord i sh d wide ok v := by
  intro s e he hok
  have ha := prepare_acting he.acts (sh e)
  have hr := (prepare_reads s e (sh e)).1
  refine ⟨_, sameWord_wide _ _ _, fun p hp => ?_, fun hw => ?_, (hi s).trans (runWord_done he (hf _ _ hok))⟩
  · exact (sameWord_at ha (hr.members ▸ hp)).2
  · rw [← hr.solo] at hw
    exact if_pos hw

/-! ### The member of the lowest index -/

theorem least_le {l : List Nat} {d x : Nat} (hx : x ∈ l) : least d l ≤ x := by
  have folded (r : List Nat) (m : Nat) : r.foldl Nat.min m ≤ m ∧ ∀ x ∈ r, r.foldl Nat.min m ≤ x := by
    induction r generalizing m with
    | nil => simp
    | cons y r ih =>
      obtain ⟨hm, hr⟩ := ih (Nat.min m y)
      refine ⟨hm.trans (Nat.min_le_left m y), fun x hx => ?_⟩
      rcases List.mem_cons.mp hx with rfl | hx
      · exact hm.trans (Nat.min_le_right m x)
      · exact hr x hx
  cases l with
  | nil => simp at hx
  | cons y r =>
    rcases List.mem_cons.mp hx with rfl | hx
    · exact (folded r x).1
    · exact (folded r y).2 x hx

theorem first_le {e : Env} {p : Nat} (hp : p ∈ e.members) : e.first ≤ p := by
  unfold Env.first
  split
  · exact Nat.zero_le p
  · next h =>
    simp only [Bool.or_eq_true, not_or, Bool.not_eq_true] at h
    simp only [Env.members, Grp.members, h.1, h.2, Bool.false_eq_true, if_false] at hp
    exact least_le hp

/-- Settles O2: each word writes one value for all, or expands on a source that is no form. -/
theorem representationWords : Obligations.RepresentationWords := by
  intro d a ka wide
  refine ⟨?xstride, ?rdfirst, ?expands, fun s e _ hm => ⟨first_mem hm, fun p hp => first_le hp⟩⟩
  case xstride =>
    refine sameWord_of_done (exec_xstride d a ka wide) fun s e _ => ?_
    simp only [Env.tag]
    cases wide <;> simp <;> rfl
  case rdfirst =>
    refine sameWord_of_done (exec_rdfirst d a ka wide) fun s e h => if_neg ?_
    rcases h with h | h <;> simp [h, Option.ne_none_iff_isSome]
  case expands =>
    exact expands_of_runWord (exec_rdfirst d a ka wide) fun s e ⟨hs, hn⟩ => if_pos (by simp [hs, hn])

end Sys2Proof.Machine
end

