-- ==== Sys2Proof/Proofs/Immediates.lean ====
section
/-! PROOF. The immediate and constant words (R171, R172): the FR operations with the immediate as a uniform second source. -/

namespace Sys2Proof.Machine

/-! ### The immediate words (R171) -/

section
variable {i : Instr} {op : Op2} {d a : RegN} {imm : BitVec 12}

/-- An FI word is its FR operation with the immediate, wrapped to the width, as a uniform second source. -/
theorem immediate_run {wide : Bool} (hi : ∀ s, exec i s = s.fi op d.toNat a.toNat imm wide)
    (hs : ∀ e, op.Sound e (widthOf wide)) :
    FormWord i { dsts := regsOf wide d.toNat, srcs := regsOf wide a.toNat } d wide
      (fun e p => op.val (widthOf wide) (e.val wide a.toNat p) (wrap (widthOf wide) (sext 12 imm.toNat)))
      (fun e => e.unary wide a fun x => op.clo e (widthOf wide) x (wrap (widthOf wide) (sext 12 imm.toNat), 0)) :=
  fr1_run (wrap_lt _ _) hi hs

end

/-! ### The constant words (R171, R172) -/

/-- A word that writes one constant to every thread, always uniform. -/
theorem constant_run {i : Instr} {d : RegN} {x : Int} (hi : ∀ s, exec i s = s.constWord d.toNat x) :
    FormWord i { dsts := [d.toNat] } d false (fun _ _ => x) (fun _ => some (x, 0)) := by
  refine formWord_run (fun s => hi s) fun e f _ _ hf p _ => ?_
  cases hf
  simp

theorem exec_movh (d : RegN) (im : BitVec 16) (s : State) :
    exec (.movh d im) s = s.runWord (fun _ => { dsts := [d.toNat], srcs := [d.toNat] }) fun s e =>
      e.put s d.toNat (e.formWord false
        (match e.form false d.toNat with
          | some x => if x.2 = 0 then formRes false (im.toNat * 65536 + x.1 % 65536 : Nat) 0 else none
          | none => none) fun p => (im.toNat * 65536 + e.val false d.toNat p % 65536 : Nat)) := rfl

/-- MOVH's closure: over a uniform d its value is the same for every thread. -/
theorem movh_run (d : RegN) (im : BitVec 16) :
    FormWord (.movh d im) { dsts := [d.toNat], srcs := [d.toNat] } d false
      (fun e p => (im.toNat * 2 ^ 16 + e.val false d.toNat p % 2 ^ 16 : Nat))
      (fun e => e.unary false d fun x =>
        if x.2 = 0 then some ((im.toNat * 2 ^ 16 + x.1 % 2 ^ 16 : Nat), 0) else none) := by
  apply formWord_run
  · intro s
    rw [exec_movh]
    congr 1; funext s e
    unfold Env.unary
    cases e.form false d.toNat with
    | none => rfl
    | some x => simp only [Option.bind_some]; split <;> rfl
  · intro e f _ _ hf p hp
    simp only [Env.unary, Option.bind_eq_some_iff, Option.ite_none_right_eq_some] at hf
    obtain ⟨x, hx, hx0, hf⟩ := hf
    cases hf
    rw [form_val hx hp, hx0]
    simp [wrap_of_lt (form_lt hx)]

/-- A uniform second source asks only that the first be uniform. -/
theorem opBits_uniform (f : Nat → Nat → Nat) (e : Env) (w : Nat) (x : Nat × Int) (k : Nat) :
    (opBits f).clo e w x (k, 0) = if x.2 = 0 then some (((f x.1 k : Nat) : Int), (0 : Int)) else none := by
  simp [opBits]

theorem opBits_val (f : Nat → Nat → Nat) (w x y : Nat) : (opBits f).val w x y = (f x y : Nat) := rfl

/-- Settles O3: each FI word is its FR operation with the immediate, each constant word a uniform form. -/
theorem immediateWords : Obligations.ImmediateWords := by
  refine ⟨fun d a imm => ⟨?iaddi, ?imuli, ?shli, ?shri, ?sari, ?andi, ?ori, ?xori, ?iaddiw⟩,
    fun d imm im => ⟨?movi, ?movl, ?movs, ?movh⟩⟩
  case iaddi => simpa [opAdd, regsOf,
    widthOf] using immediate_run (i := .iaddi d a imm) (fun _ => rfl) fun e => opAdd_sound e _
  case imuli => simpa [opMul, regsOf,
    widthOf] using immediate_run (i := .imuli d a imm) (fun _ => rfl) fun e => opMul_sound e _
  case shli =>
    simpa [opShl, regsOf, widthOf,
      shiftCount] using immediate_run (i := .shli d a imm) (fun _ => rfl) fun e => opShl_sound e _
  case shri =>
    simpa [opShr, regsOf, widthOf, shiftCount] using
      immediate_run (i := .shri d a imm) (fun _ => rfl) fun e => opShr_sound e (widthOf_pos false)
  case sari =>
    simpa [opSar, regsOf, widthOf, shiftCount] using
      immediate_run (i := .sari d a imm) (fun _ => rfl) fun e => opSar_sound e (widthOf_pos false)
  case andi =>
    simpa [opBits_uniform, regsOf, widthOf, opBits_val] using
      immediate_run (i := .andi d a imm) (op := opBits (· &&& ·)) (fun _ => rfl) fun e => opBits_sound _ e _
  case ori =>
    simpa [opBits_uniform, regsOf, widthOf, opBits_val] using
      immediate_run (i := .ori d a imm) (op := opBits (· ||| ·)) (fun _ => rfl) fun e => opBits_sound _ e _
  case xori =>
    simpa [opBits_uniform, regsOf, widthOf, opBits_val] using
      immediate_run (i := .xori d a imm) (op := opBits (· ^^^ ·)) (fun _ => rfl) fun e => opBits_sound _ e _
  case iaddiw => simpa [opAdd, regsOf,
    widthOf] using immediate_run (i := .iaddiw d a imm) (fun _ => rfl) fun e => opAdd_sound e _
  case movi => exact constant_run fun _ => rfl
  case movl => exact constant_run fun _ => rfl
  case movs => exact constant_run fun _ => rfl
  case movh => exact movh_run d im

end Sys2Proof.Machine
end

