-- ==== Sys2Proof/Proofs/Compares.lean ====
section
/-! PROOF. The compares (R173): the shared compare of two registers, or of a register and an immediate. -/

namespace Sys2Proof.Machine

/-! ### Compares with a constant (R173) -/

/-- A 6-bit signed immediate, wrapped to 32 bits, reads as itself. -/
theorem sext_wrap_imm6 (imm : BitVec 6) : baseAs true 32 (wrap 32 (sext 6 imm.toNat)) = sext 6 imm.toNat := by
  obtain ⟨h1, h2⟩ := sext_range (n := 6) (by decide) imm.isLt
  exact sext_wrap (by decide) (by norm_num at *; omega) (by norm_num at *; omega)

theorem icmpi_run (pd : PredN) (a : RegN) (imm : BitVec 6) (c : Cond) :
    PredWord (.icmpi pd a imm c) { srcs := [a.toNat], pdsts := [pd.toNat] } pd
      (fun e p => condHolds c (sext 32 (e.val false a.toNat p)) (sext 6 imm.toNat))
      (fun e => e.compareCut c true 32 (e.form false a.toNat) (some (wrap 32 (sext 6 imm.toNat), 0))) := by
  have h := comparei_run (i := .icmpi pd a imm c) (signed := true) (wide := false) (pd := pd) (ps := 7) (a := a.toNat)
    (wrap_lt 32 (sext 6 imm.toNat)) fun _ => rfl
  have hk := sext_wrap_imm6 imm
  simp only [widthOf, Bool.false_eq_true, if_false, hk] at h
  exact h

theorem ncmpi_run (pd : PredN) (a : RegN) (imm : BitVec 6) (c : Cond) :
    PredWord (.ncmpi pd a imm c) { srcs := [a.toNat], pdsts := [pd.toNat] } pd
      (fun e p => condHolds c (e.val false a.toNat p : Nat) (imm.toNat : Int))
      (fun e => e.compareCut c false 32 (e.form false a.toNat) (some (imm.toNat, 0))) :=
  comparei_run (i := .ncmpi pd a imm c) (signed := false) (wide := false) (ps := 7)
    (imm.isLt.trans (by decide)) fun _ => rfl

/-- Settles O4: each word is the shared compare, with its readings and its combination. -/
theorem compares : Obligations.Compares := by
  intro pd ps a b imm c
  refine ⟨?icmp, ?icmpa, ?icmpo, ?ncmp, ?ncmpa, ?ncmpo, icmpi_run pd a imm c, ncmpi_run pd a imm c, ?icmpw, ?ncmpw⟩
  case icmp => simpa [Combine.apply] using compare_run (i := .icmp pd a b c) (ps := 7) fun _ => rfl
  case icmpa => exact compare_run (i := .icmpa pd ps a b c) (how := .with_and) fun _ => rfl
  case icmpo => exact compare_run (i := .icmpo pd ps a b c) (how := .with_or) fun _ => rfl
  case ncmp => simpa [Combine.apply] using compare_run (i := .ncmp pd a b c) (ps := 7) fun _ => rfl
  case ncmpa => exact compare_run (i := .ncmpa pd ps a b c) (how := .with_and) fun _ => rfl
  case ncmpo => exact compare_run (i := .ncmpo pd ps a b c) (how := .with_or) fun _ => rfl
  case icmpw => simpa [Combine.apply] using compare_run (i := .icmpw pd a b c) (ps := 7) fun _ => rfl
  case ncmpw => simpa [Combine.apply] using compare_run (i := .ncmpw pd a b c) (ps := 7) fun _ => rfl

end Sys2Proof.Machine
end

