-- ==== Sys2Proof/Proofs/PredicateWords.lean ====
section
/-! PROOF. Predicate logic, PSET and PCUT (R174). -/

namespace Sys2Proof.Machine

/-! ### PCUT (R174) -/

theorem exec_pcut (pd : PredN) (a : RegN) (above : Bool) (s : State) :
    exec (.pcut pd a above) s = s.runWord (fun _ => { srcs := regsOf true a.toNat, pdsts := [pd.toNat] }) fun s e =>
      e.pput s pd.toNat (e.pred
        (match e.form true a.toNat with
          | some x => if x.2 = 0 then some (if above then Cut.atOrAbove x.1 else .below x.1) else none
          | none => none) fun p =>
        if above then decide (e.val true a.toNat p ≤ e.index p) else decide (e.index p < e.val true a.toNat p)) := rfl

/-- PCUT's cut at a uniform pair compares the pair with each thread's index. -/
theorem pcut_run (pd : PredN) (a : RegN) (above : Bool) :
    PredWord (.pcut pd a above) { srcs := [a.toNat, a.toNat + 1], pdsts := [pd.toNat] } pd
      (fun e p => if above then decide (e.val true a.toNat p ≤ e.index p) else decide (e.index p < e.val true a.toNat
        p))
      (fun e => (e.form true a.toNat).bind fun x =>
        if x.2 = 0 then some (if above then .atOrAbove x.1 else .below x.1) else none) := by
  apply pred_run
  · intro s
    rw [exec_pcut]
    congr 1; funext s e
    cases e.form true a.toNat <;> rfl
  · intro e k hs _ hvs hvl hvh hc p hp
    simp only [Option.bind_eq_some_iff, Option.ite_none_right_eq_some] at hc
    obtain ⟨x, hx, hx0, hc⟩ := hc
    cases hc
    have hi : e.index p = e.grp.lo + p := by simp [Env.index, hs]
    rw [form_val hx (span_positions hvs (by omega)), hi, hx0]
    simp only [zero_mul, add_zero, wrap_of_lt (form_lt hx)]
    cases above <;> rfl

/-- Settles O5: each word of predicates is the shared operation over its truth function, PCUT a word of its own. -/
theorem predicateLogic : Obligations.PredicateLogic := by
  intro pd pa pb a k
  refine ⟨?pand, ?por, ?pxor, ?pandn, ?pnot, ?pset, pcut_run pd a k⟩
  case pand =>
    exact plogic_run (i := .pand pd pa pb) (ps := [pa.toNat,
      pb.toNat]) (f := fun l => nth l 0 false && nth l 1 false) fun _ => rfl
  case por =>
    exact plogic_run (i := .por pd pa pb) (ps := [pa.toNat,
      pb.toNat]) (f := fun l => nth l 0 false || nth l 1 false) fun _ => rfl
  case pxor =>
    exact plogic_run (i := .pxor pd pa pb) (ps := [pa.toNat,
      pb.toNat]) (f := fun l => xor (nth l 0 false) (nth l 1 false)) fun _ => rfl
  case pandn =>
    exact plogic_run (i := .pandn pd pa pb) (ps := [pa.toNat,
      pb.toNat]) (f := fun l => nth l 0 false && !nth l 1 false) fun _ => rfl
  case pnot =>
    exact plogic_run (i := .pnot pd pa) (ps := [pa.toNat]) (f := fun l => !nth l 0 false) fun _ => rfl
  case pset =>
    exact plogic_run (i := .pset pd k) (ps := []) (f := fun _ => k) fun _ => rfl

end Sys2Proof.Machine
end

