-- ==== Sys2Proof/Proofs/FloatWords.lean ====
section
/-! PROOF. The FP32 and FP64 words (R206, R208, R209): the shared lane operations over each word's value function. -/

namespace Sys2Proof.Machine

/-- Settles O8: each word is the shared lane operation of one, two or three sources over its value. -/
theorem floatLaneWords : Obligations.FloatLaneWords := by
  intro d a b c ka kb st
  refine ⟨?fadd, ?fsub, ?fmul, ?fmin, ?fmax, ?fabs, ?fneg, ?dadd, ?dsub, ?dmul, ?dmin, ?dmax, ?ffma, ?dfma, ?fscl,
    ?dscl,
    ?ffrc⟩
  case fadd => exact lr2_row (f := floatOp .f32 FV.add) (fun _ => rfl) nofun
  case fsub => exact lr2_row (f := floatOp .f32 FV.sub) (fun _ => rfl) nofun
  case fmul => exact lr2_row (f := floatOp .f32 fun _ x y => FV.mul x y) (fun _ => rfl) nofun
  case fmin => exact lr2_row (f := fun m => Fmt.f32.minNum (ftzOf m)) (fun _ => rfl) nofun
  case fmax => exact lr2_row (f := fun m => Fmt.f32.maxNum (ftzOf m)) (fun _ => rfl) nofun
  case fabs => exact lr1_row (f := fun _ _ x => x % 2 ^ 31) (fun _ => rfl) fun _ _ _ _ _ => rfl
  case fneg => exact lr1_row (f := fun _ _ x => if bit x 31 then x - 2 ^ 31 else x + 2 ^ 31) (fun _ => rfl) fun _ _ _
    _ _ => rfl
  case dadd => exact lr2_row (f := floatOp .f64 FV.add) (fun _ => rfl) nofun
  case dsub => exact lr2_row (f := floatOp .f64 FV.sub) (fun _ => rfl) nofun
  case dmul => exact lr2_row (f := floatOp .f64 fun _ x y => FV.mul x y) (fun _ => rfl) nofun
  case dmin => exact lr2_row (f := fun _ => Fmt.f64.minNum false) (fun _ => rfl) fun _ _ _ _ _ => rfl
  case dmax => exact lr2_row (f := fun _ => Fmt.f64.maxNum false) (fun _ => rfl) fun _ _ _ _ _ => rfl
  case ffma => exact lt3_row (f := fmaOp .f32) (fun _ => rfl) nofun
  case dfma => exact lt3_row (f := fmaOp .f64) (fun _ => rfl) nofun
  case fscl => exact lr2_row (f := sclVal .f32) (fun _ => rfl) nofun
  case dscl => exact lr2_row (f := sclVal .f64) (fun _ => rfl) nofun
  case ffrc => exact lr1_row (f := fun _ m x => ffrcVal m x) (fun _ => rfl) nofun

end Sys2Proof.Machine
end

