-- ==== Sys2Proof/Proofs/Registers.lean ====
section
/-! PROOF. What a register reads as after it is written, taken apart from its pair, or released: the cells of a group and their release marks. -/

namespace Sys2Proof.Machine

/-! ### Cells -/

theorem nth_set {α : Type} (l : List α) (i j : Nat) (x d : α) :
    nth (l.set i x) j d = if i = j ∧ i < l.length then x else nth l j d := by
  unfold nth
  rw [List.getElem?_set]
  by_cases h : i = j
  · subst h
    by_cases hi : i < l.length <;> simp [hi]
  · simp [h]

section
variable {g : Grp} {r q : Nat} {c : RegCell}

/-- A register reads back as it was written, and every other as before. -/
theorem cell_setCell : (g.setCell r c).cell q = if r = q ∧ r < g.regs.length then c else g.cell q :=
  nth_set _ _ _ _ _

@[simp] theorem cell_setCell_same (h : r < g.regs.length) : (g.setCell r c).cell r = c := by simp [cell_setCell, h]

@[simp] theorem cell_setCell_ne (h : r ≠ q) : (g.setCell r c).cell q = g.cell q := by simp [cell_setCell, h]

/-- A register the group does not have reads as the uniform zero. -/
theorem cell_beyond (h : g.regs.length ≤ r) : g.cell r = noReg := by
  simp [Grp.cell, nth, h]

/-- A register whose cell is not the uniform zero is one the group has. -/
theorem lt_of_kind_ne (h : (g.cell r).kind ≠ noReg.kind) : r < g.regs.length := by
  by_contra hr
  exact h (by rw [cell_beyond (not_lt.mp hr)])

@[simp] theorem setCell_length : (g.setCell r c).regs.length = g.regs.length := List.length_set

/-- Writing a cell that keeps the release mark keeps every mark. -/
theorem rel_setCell (h : r < g.regs.length → c.rel = (g.cell r).rel) : ((g.setCell r c).cell q).rel = (g.cell q).rel
    := by
  rw [cell_setCell]
  split
  · next hr => obtain ⟨rfl, hr⟩ := hr; exact h hr
  · rfl

/-- Changing how a register is held keeps every release mark. -/
@[simp] theorem rel_setKind (k : RegKind) : ((g.setCell r ⟨k, (g.cell r).rel⟩).cell q).rel = (g.cell q).rel :=
  rel_setCell fun _ => rfl

end

/-! ### Taking a pair apart (R39, R46) -/

/-- Taking a pair apart keeps every register's release mark, and how many there are. -/
theorem unpair_keeps (g : Grp) (r : Nat) :
    (g.unpair r).regs.length = g.regs.length ∧ ∀ q, ((g.unpair r).cell q).rel = (g.cell q).rel := by
  unfold Grp.unpair
  simp only
  split
  · refine ⟨by simp, fun q => ?_⟩
    rw [rel_setCell fun _ => by rw [cell_setCell_ne (by omega)], rel_setKind]
  · split
    · exact ⟨by simp, fun q => by rw [rel_setKind, rel_setKind]⟩
    · exact ⟨by simp, fun q => rel_setKind _⟩
  · exact ⟨by simp, fun q => rel_setKind _⟩
  · exact ⟨rfl, fun _ => rfl⟩

@[simp] theorem unpair_length (g : Grp) (r : Nat) : (g.unpair r).regs.length = g.regs.length := (unpair_keeps g r).1

@[simp] theorem unpair_rel (g : Grp) (r q : Nat) : ((g.unpair r).cell q).rel = (g.cell q).rel := (unpair_keeps g r).2 q

/-- Taking a pair apart changes nothing but registers. -/
theorem unpair_regs (g : Grp) (r : Nat) : g.unpair r = { g with regs := (g.unpair r).regs } := by
  unfold Grp.unpair
  simp only
  split
  · rfl
  · split <;> rfl
  · rfl
  · rfl

/-! ### Releasing registers and predicates (R37, R55) -/

section
variable (g : Grp) (u : ISet)

@[simp] theorem release_length (r : Nat) : (g.release u r).regs.length = g.regs.length := by
  unfold Grp.release
  split
  · simp
  · split <;> simp

/-- The release mark of every register after one is released. -/
theorem release_rel (r q : Nat) (hr : r < g.regs.length) : ((g.release u r).cell q).rel =
    if r = q then (if g.span then 1 else (g.cell q).rel ||| u.lanes) else (g.cell q).rel := by
  unfold Grp.release
  by_cases hs : g.span = true
  · by_cases h : r = q
    · subst h; simp [hs, hr]
    · simp [hs, h]
  · by_cases hl : (u.lanes == g.live) = true
    · by_cases h : r = q
      · subst h; simp [hs, hl, hr]
      · simp [hs, hl, h]
    · by_cases h : r = q
      · subst h; simp [hs, hl, hr]
      · simp [hs, hl, h]

/-- Releasing a register changes nothing but registers. -/
theorem release_regs (r : Nat) : g.release u r = { g with regs := (g.release u r).regs } := by
  unfold Grp.release
  split
  · rfl
  · split
    · rfl
    · simp only [Grp.setCell]
      rw [unpair_regs]

end

end Sys2Proof.Machine
end

