-- ==== Sys2Proof/Proofs/SegmentEntry.lean ====
section
/-! PROOF. SEGH (R18, R28, R37, R151, R363): what entering a segment releases, and the cases of a segment header. -/

namespace Sys2Proof.Machine

/-! ### What entering a segment releases (R37) -/

theorem foldl_release_length (u : ISet) (l : List Nat) (g : Grp) :
    (l.foldl (fun (g : Grp) r => g.release u r) g).regs.length = g.regs.length := by
  induction l generalizing g with
  | nil => rfl
  | cons r l ih => rw [List.foldl_cons, ih, release_length]

theorem release_span (g : Grp) (u : ISet) (r : Nat) : (g.release u r).span = g.span := (release_same g u r).span

/-- The release mark of a register after some registers are released. -/
theorem foldl_release_rel (u : ISet) (q : Nat) (l : List Nat) (g : Grp) (hl : ∀ r ∈ l, r < g.regs.length) :
    ((l.foldl (fun (g : Grp) r => g.release u r) g).cell q).rel =
      if q ∈ l then (if g.span then 1 else (g.cell q).rel ||| u.lanes) else (g.cell q).rel := by
  induction l generalizing g with
  | nil => simp
  | cons r l ih =>
    rw [List.foldl_cons, ih _ fun x hx => by rw [release_length]; exact hl x (List.mem_cons_of_mem _ hx)]
    rw [release_rel g u r q (hl r List.mem_cons_self), release_span]
    by_cases hr : r = q
    · subst hr
      simp only [List.mem_cons_self, if_true]
      split
      · split
        · rfl
        · rw [BitVec.or_assoc, BitVec.or_self]
      · rfl
    · simp [hr, Ne.symm hr]

@[simp] theorem prelease_cell (g : Grp) (u : ISet) (p q : Nat) : (g.prelease u p).cell q = g.cell q := rfl
@[simp] theorem prelease_span (g : Grp) (u : ISet) (p : Nat) : (g.prelease u p).span = g.span := rfl
@[simp] theorem prelease_length (g : Grp) (u : ISet) (p : Nat) : (g.prelease u p).preds.length = g.preds.length :=
  List.length_set

theorem foldl_prelease_cell (u : ISet) (l : List Nat) (g : Grp) :
    (∀ q, (l.foldl (fun (g : Grp) p => g.prelease u p) g).cell q = g.cell q) ∧
      (l.foldl (fun (g : Grp) p => g.prelease u p) g).span = g.span := by
  induction l generalizing g with
  | nil => exact ⟨fun _ => rfl, rfl⟩
  | cons p l ih => exact ⟨fun q => (ih _).1 q, (ih _).2⟩

/-- The release mark of a predicate other than p7, after one is released. -/
theorem prelease_rel (g : Grp) (u : ISet) {p q : Nat} (hq : q < 7) (hl : q < g.preds.length) :
    ((g.prelease u p).pcell q).rel = if p = q then (g.pcell q).rel ||| u.lanes else (g.pcell q).rel := by
  have h7 : q ≠ 7 := by omega
  simp only [Grp.pcell, h7, if_false, Grp.prelease, nth_set]
  by_cases h : p = q
  · subst h; simp [hl, h7]
  · simp [h]

/-- The release mark of a predicate other than p7, after some are released. -/
theorem foldl_prelease_rel (u : ISet) {q : Nat} (hq : q < 7) (l : List Nat) (g : Grp) (hl : q < g.preds.length) :
    ((l.foldl (fun (g : Grp) p => g.prelease u p) g).pcell q).rel =
      if q ∈ l then (g.pcell q).rel ||| u.lanes else (g.pcell q).rel := by
  induction l generalizing g with
  | nil => simp
  | cons p l ih =>
    rw [List.foldl_cons, ih _ (by rwa [prelease_length]), prelease_rel g u hq hl]
    by_cases hp : p = q
    · subst hp
      simp only [List.mem_cons_self, if_true]
      split
      · rw [BitVec.or_assoc, BitVec.or_self]
      · rfl
    · simp [hp, Ne.symm hp]

/-- Releasing a register changes no predicate. -/
theorem foldl_release_preds (u : ISet) (l : List Nat) (g : Grp) :
    (l.foldl (fun (g : Grp) r => g.release u r) g).preds = g.preds ∧
      (l.foldl (fun (g : Grp) r => g.release u r) g).span = g.span := by
  induction l generalizing g with
  | nil => exact ⟨rfl, rfl⟩
  | cons r l ih =>
    obtain ⟨h1, h2⟩ := ih (g.release u r)
    refine ⟨h1.trans ?_, h2.trans (release_span g u r)⟩
    rw [release_regs]

/-- The lanes that are added to a mask are in it. -/
theorem or_and_right_self (a b : W32) : (a ||| b) &&& b = b := by
  ext i hi
  simp only [BitVec.getElem_and, BitVec.getElem_or]
  cases a[i] <;> simp

theorem or_ne_zero {a b : W32} (h : b ≠ 0) : a ||| b ≠ 0 := by
  intro h0
  exact h (BitVec.or_eq_zero_iff.mp h0).2

/-- A register above LIVE_G is released in the lanes that enter. -/
theorem enterSeg_relMask (g : Grp) (u : ISet) {v lp r : Nat} (h : v < r) (hr : r < g.regs.length) :
    (g.enterSeg v lp u).relMask u.lanes r = if g.span then 1 else u.lanes := by
  obtain ⟨hc, hs⟩ := foldl_prelease_cell u ((upto 0 7).filter fun p => !bit lp p)
    (((upto 0 g.regs.length).filter fun r => decide (v < r)).foldl (fun (g : Grp) r => g.release u r) g)
  have hmem : r ∈ (upto 0 g.regs.length).filter fun r => decide (v < r) := by simp [mem_upto, h, hr]
  have hrel := foldl_release_rel u r ((upto 0 g.regs.length).filter fun r => decide (v < r)) g
    fun x hx => by simpa [mem_upto] using (List.mem_filter.mp hx).1
  rw [if_pos hmem] at hrel
  unfold Grp.relMask Grp.enterSeg
  simp only [hc, hs, hrel, (foldl_release_preds u _ g).2]
  split
  · simp
  · exact or_and_right_self _ _

/-- A predicate outside LIVE_P is released in the lanes that enter. -/
theorem enterSeg_prelMask (g : Grp) (u : ISet) (hu : u.lanes ≠ 0) {v lp p : Nat} (h7 : p < 7) (hp : p < g.preds.length)
    (h : bit lp p = false) : (g.enterSeg v lp u).prelMask u.lanes p = if g.span then 1 else u.lanes := by
  obtain ⟨hk, hs⟩ := foldl_release_preds u ((upto 0 g.regs.length).filter fun r => decide (v < r)) g
  have hmem : p ∈ (upto 0 7).filter fun p => !bit lp p := by simp [mem_upto, h, h7]
  have hrel := foldl_prelease_rel u h7 ((upto 0 7).filter fun p => !bit lp p)
    (((upto 0 g.regs.length).filter fun r => decide (v < r)).foldl (fun (g : Grp) r => g.release u r) g) (by rwa [hk])
  rw [if_pos hmem] at hrel
  unfold Grp.prelMask Grp.enterSeg
  simp only [(foldl_prelease_cell u _ _).2, hs, hrel, or_ne_zero hu]
  split
  · simp
  · exact or_and_right_self _ _

/-! ### SEGH (R18, R28, R151, R363) -/

section
variable {s : State} {e : Env} (len : BitVec 10) (fold : Bool) (lg : BitVec 6) (lp : BitVec 7) (role : Role)

/-- A SEGH that no comparator stops, whose role fits and which waits at no fold, is entered. -/
theorem segh_enters (he : s.env? s.turn = some e) (hc : s.cmpMatch e e.unit.pc = false ∨ e.unit.bpTaken = true)
    (hr : role.code = 0 ∨ e.role = 0 ∨ e.role = role.code) (hf : fold = false ∨ e.unit.path = [] ∨ e.unit.bpTaken =
      true) :
    exec (.segh len fold lg lp role) s =
      .next (s.putGrps e.who [(e.grp.enterSeg lg.toNat lp.toNat e.unit).setUnit e.unit.pastSegh]) := by
  show execSegh len fold lg lp role s = _
  have hw : (fold && !e.unit.path.isEmpty && !e.unit.bpTaken) = false := by
    rcases hf with h | h | h <;> simp [h]
  have hstop : (s.cmpMatch e e.unit.pc && !e.unit.bpTaken) = false := by
    rcases hc with h | h <;> simp [h]
  have hrole : ¬(role.code ≠ 0 ∧ e.role ≠ 0 ∧ e.role ≠ role.code) := by tauto
  simp only [execSegh, he, hw, hstop, hrole, Bool.false_and, Bool.false_eq_true, if_false]

/-- A role the threads do not have is a trap. -/
theorem segh_traps (he : s.env? s.turn = some e) (h0 : role.code ≠ 0) (h1 : e.role ≠ 0) (h2 : e.role ≠ role.code)
    (hc : s.cmpMatch e e.unit.pc = false ∨ e.unit.bpTaken = true) :
    exec (.segh len fold lg lp role) s = .next (s.trapWord e 1 (BitVec.ofNat 64 e.unit.word) e.count) := by
  show execSegh len fold lg lp role s = _
  have hstop : (s.cmpMatch e e.unit.pc && !e.unit.bpTaken) = false := by
    rcases hc with h | h <;> simp [h]
  have hrole : role.code ≠ 0 ∧ e.role ≠ 0 ∧ e.role ≠ role.code := ⟨h0, h1, h2⟩
  simp only [execSegh, he, hstop, if_pos hrole, Bool.false_and, Bool.false_eq_true, if_false]

/-- A fold with an open node waits. -/
theorem segh_waits (he : s.env? s.turn = some e) (hr : role.code = 0 ∨ e.role = 0 ∨ e.role = role.code)
    (hp : e.unit.path ≠ []) (hb : e.unit.bpTaken = false) :
    exec (.segh len true lg lp role) s = .next (s.onUnit e.who fun u => { u with stat := .fold }) := by
  show execSegh len true lg lp role s = _
  have hrole : ¬(role.code ≠ 0 ∧ e.role ≠ 0 ∧ e.role ≠ role.code) := by tauto
  have hw : (true && !e.unit.path.isEmpty && !e.unit.bpTaken) = true := by simp [hp, hb]
  simp only [execSegh, he, hw, hrole, Bool.not_true, Bool.and_false, Bool.false_eq_true, if_false, if_true]

/-- A comparator stops the group before the segment's first word, once what it has issued has landed. -/
theorem segh_halts {c : Ctx} (he : s.env? s.turn = some e) (hx : e.ctx = some c) (hm : s.cmpMatch e e.unit.pc = true)
    (hb : e.unit.bpTaken = false) (hf : fold = false ∨ e.unit.path = []) :
    exec (.segh len fold lg lp role) s = if s.landing e then .next s else
      let t := ((s.onGrp e.who fun g => g.landed e.unit).onUnit e.who fun u =>
        { u with stat := .halted, bpTaken := true }).trigger c 0
      .next (if e.unit.stepping then t else t.groupReport e e.unit.pc 0 1 0 e.members) := by
  show execSegh len fold lg lp role s = _
  have hw : (fold && !e.unit.path.isEmpty && !e.unit.bpTaken) = false := by
    rcases hf with h | h <;> simp [h]
  have hstop : (s.cmpMatch e e.unit.pc && !e.unit.bpTaken && !false) = true := by simp [hm, hb]
  simp only [execSegh, he, hw, hstop, hx, if_true]

end

/-- Settles O16: what SEGH does in each of its cases, and the release marks of the segment it enters. -/
theorem segmentHeaders : Obligations.SegmentHeaders := by
  refine ⟨fun len fold lg lp role s e he hc hr hf => ⟨segh_enters len fold lg lp role he hc hr hf, rfl, rfl, ?regs,
    ?preds⟩,
    fun len fold lg lp role s e he => ⟨?traps, ?waits⟩, fun len fold lg lp role s e c he hx hm hb hf => ⟨?landing,
      ?steps, ?reports⟩⟩
  case regs => exact fun _ r h hl => enterSeg_relMask e.grp e.unit h hl
  case preds => exact fun hu p h7 hl hb => enterSeg_prelMask e.grp e.unit hu h7 hl hb
  case traps => exact fun h0 h1 h2 hc => segh_traps len fold lg lp role he h0 h1 h2 hc
  case waits => exact fun hr hp hb => segh_waits len lg lp role he hr hp hb
  case landing => intro hl; rw [segh_halts len fold lg lp role he hx hm hb hf, if_pos hl]
  case steps =>
    intro hl hs
    rw [segh_halts len fold lg lp role he hx hm hb hf]
    simp only [hl, hs, Bool.false_eq_true, if_false, if_true]
  case reports =>
    intro hl hs l hlaunch
    rw [segh_halts len fold lg lp role he hx hm hb hf]
    simp only [hl, hs, Bool.false_eq_true, if_false, State.groupReport, hlaunch, Env.reportOf]

end Sys2Proof.Machine
end

