-- ==== Sys2Proof/Proofs/RunHeaders.lean ====
section
/-! PROOF. RUNH (R152, R155): where the guard of a run sends its group. -/

namespace Sys2Proof.Machine

/-! ### RUNH (R152, R155) -/

/-- What the guard of a run reads. -/
def guardShape (p : PredN) : Shape := { psrcs := [p.toNat], gap := 0, lat := none }

/-- The acting lanes of a sheaf whose guard, after sense, is true. -/
def Env.guardLanes (e : Env) (p : PredN) (sense : Bool) : W32 :=
  maskOf (e.members.filter fun q => xor (e.pval p.toNat q) sense)

/-- Where a run header sends its group once its guard has been read: into the run, past it, or both. -/
def State.enterRun (s : State) (e : Env) (run skip : ISet) (p : PredN) (sense : Bool) : Host.Outcome State Fault
  Refusal :=
  if e.grp.span then
    match e.view.pcut p.toNat with
    | .allTrue => .next (s.putGrps e.who [e.grp.setUnit (if sense then skip else run)])
    | .allFalse => .next (s.putGrps e.who [e.grp.setUnit (if sense then run else skip)])
    | .below k => .next (s.splitSpan e k (if sense then skip else run) (if sense then run else skip))
    | .atOrAbove k => .next (s.splitSpan e k (if sense then run else skip) (if sense then skip else run))
  else if e.guardLanes p sense = 0 then .next (s.putGrps e.who [e.grp.setUnit skip])
  else if e.guardLanes p sense = e.unit.lanes then .next (s.putGrps e.who [e.grp.setUnit run])
  else .next (s.divide e [{ run with lanes := e.guardLanes p sense },
    { skip with lanes := e.unit.lanes &&& ~~~e.guardLanes p sense }])

section
variable {s : State} {e : Env} (count : BitVec 5) (p : PredN) (sense : Bool) (pf : BitVec 8)

/-- A run without a guard begins. -/
theorem runh_begins (he : s.env? s.turn = some e) (h7 : p.toNat = 7) :
    exec (.runh count p sense pf) s = .next (s.putGrps e.who [e.grp.setUnit (e.unit.beginRun count.toNat)]) := by
  show execRunh count p sense pf s = _
  simp only [execRunh, he, h7, if_true]

/-- A guard that nothing stops is read. -/
theorem runh_enters (he : s.env? s.turn = some e) (h7 : p.toNat ≠ 7) (hz : s.hazard e (guardShape p) = none) :
    exec (.runh count p sense pf) s =
      let x := (s.prepare e (guardShape p)).2
      (s.prepare e (guardShape p)).1.enterRun x (x.unit.beginRun count.toNat) (x.unit.skipRun count.toNat) p sense := by
  show execRunh count p sense pf s = _
  dsimp only
  rw [(prepare_reads s e (guardShape p)).1.unit]
  unfold guardShape at *
  simp only [execRunh, he, h7, if_false, hz]
  rfl

/-- A guard that a check stops traps at the run's first word. -/
theorem runh_traps (he : s.env? s.turn = some e) (h7 : p.toNat ≠ 7) {c k : Nat} {d : W64}
    (hz : s.hazard e (guardShape p) = some (.trap c d k)) :
    exec (.runh count p sense pf) s =
      let u := e.unit.beginRun count.toNat
      let begun : Env := { e with grp := e.grp.setUnit u, unit := u }
      .next ((s.putGrps e.who [begun.grp]).trapWord begun c (BitVec.ofNat 64 u.word) k) := by
  show execRunh count p sense pf s = _
  unfold guardShape at hz
  simp only [execRunh, he, h7, if_false, hz]

end

section
variable {s : State} {e : Env} {run skip : ISet} {p : PredN} {sense : Bool}

theorem enterRun_all (hs : e.grp.span = false) (h : e.guardLanes p sense = e.unit.lanes) (h0 : e.guardLanes p sense ≠
    0) :
    s.enterRun e run skip p sense = .next (s.putGrps e.who [e.grp.setUnit run]) := by
  unfold State.enterRun
  rw [if_neg (by simp [hs]), if_neg h0, if_pos h]

theorem enterRun_none (hs : e.grp.span = false) (h0 : e.guardLanes p sense = 0) :
    s.enterRun e run skip p sense = .next (s.putGrps e.who [e.grp.setUnit skip]) := by
  unfold State.enterRun
  rw [if_neg (by simp [hs]), if_pos h0]

theorem enterRun_some (hs : e.grp.span = false) (h : e.guardLanes p sense ≠ e.unit.lanes) (h0 : e.guardLanes p sense
    ≠ 0) :
    s.enterRun e run skip p sense = .next (s.divide e [{ run with lanes := e.guardLanes p sense },
      { skip with lanes := e.unit.lanes &&& ~~~e.guardLanes p sense }]) := by
  unfold State.enterRun
  rw [if_neg (by simp [hs]), if_neg h0, if_neg h]

/-- A span's cut decides by its kind. -/
theorem enterRun_cut (hs : e.grp.span = true) {c : Cut} : e.view.pcut p.toNat = c →
    s.enterRun e run skip p sense = match c with
      | .allTrue => .next (s.putGrps e.who [e.grp.setUnit (if sense then skip else run)])
      | .allFalse => .next (s.putGrps e.who [e.grp.setUnit (if sense then run else skip)])
      | .below k => .next (s.splitSpan e k (if sense then skip else run) (if sense then run else skip))
      | .atOrAbove k => .next (s.splitSpan e k (if sense then run else skip) (if sense then skip else run)) := by
  rintro rfl
  unfold State.enterRun
  rw [if_pos hs]

end

/-- Settles O17: a guard sends its group on by the lanes or the cut for which it is true. -/
theorem runEntry : Obligations.RunEntry := by
  intro count p sense pf s e he
  refine ⟨runh_begins count p sense pf he, fun h7 hz => ?guard, fun h7 c d k hz => runh_traps count p sense pf he h7 hz,
    rfl, rfl, rfl⟩
  have henter := runh_enters count p sense pf he h7 hz
  refine ⟨?all, ?none, ?some, ?allTrue, ?allFalse, ?below, ?atOrAbove⟩
  case all => exact fun hs h h0 => henter.trans (enterRun_all hs h h0)
  case none => exact fun hs h0 => henter.trans (enterRun_none hs h0)
  case some => exact fun hs h h0 => henter.trans (enterRun_some hs h h0)
  case allTrue => exact fun hs hc => henter.trans (enterRun_cut hs hc)
  case allFalse => exact fun hs hc => henter.trans (enterRun_cut hs hc)
  case below => exact fun k hs hc => henter.trans (enterRun_cut hs hc)
  case atOrAbove => exact fun k hs hc => henter.trans (enterRun_cut hs hc)

end Sys2Proof.Machine
end

