-- ==== Sys2Proof/Proofs/CallsAndTraps.lean ====
section
/-! PROOF. CALL, CALLX, RET and TRAP (R34, R178, R182): full and empty return stacks, and each word case by case. -/

namespace Sys2Proof.Machine

/-! ### Full and empty return stacks (R34) -/

/-- A return stack is full exactly where a lane of the acting threads holds 32 entries. -/
theorem full_ne_zero {e : Env} :
    e.full ≠ 0 ↔ ∃ l ∈ e.grp.lanes, bit e.unit.lanes.toNat l.lane = true ∧ 32 ≤ l.stack.length := by
  constructor
  · intro h
    by_contra hno
    push Not at hno
    refine h ?_
    have hnil : (e.grp.lanes.filter fun l => bit e.unit.lanes.toNat l.lane && decide (32 ≤ l.stack.length)) = [] := by
      rw [List.filter_eq_nil_iff]
      intro l hl
      have := hno l hl
      simpa using this
    simp [Env.full, hnil, maskOf]
  · rintro ⟨l, hl, hb, hd⟩ h
    exact absurd (Env.short_of_full h hl hb) (by omega)

/-- A thread's return stack is empty exactly where the positions of depth 0 are some. -/
theorem depthIs_zero {e : Env} : (e.depthIs 0).isEmpty = false ↔ ∃ q ∈ e.members, (e.grp.lane q).stack = [] := by
  rw [List.isEmpty_eq_false_iff_exists_mem]
  simp [Env.depthIs]

/-- A word that a check of its own stops traps with the cause and operand it gives. -/
theorem traps_of_runWord {i : Instr} {sh : Env → Shape} {f : State → Env → Eff} {pre : State → Env → Prop} {cause : Nat}
    {tdata : Env → W64} (hi : ∀ s, exec i s = s.runWord sh f)
    (hf : ∀ s e, pre s e → ∃ n, f s e = .trap cause (tdata e) n) : Traps i sh pre cause tdata := by
  intro s e ha hc hp
  obtain ⟨n, hn⟩ := hf _ _ hp
  exact ⟨n, (hi s).trans (runWord_trap ha hc hn)⟩

/-! ### CALL, CALLX and RET (R178) -/

theorem exec_call (off : BitVec 24) (s : State) :
    exec (.call off) s = s.runWord (fun _ => termShape) fun s e =>
      if e.full = 0 then .moved (s.goAll e.pushRet (e.target 24 off.toNat)) else .trap 9 32 (e.grp.threads e.full) :=
        rfl

theorem exec_callx (a : RegN) (s : State) :
    exec (.callx a) s = s.runWord (fun _ => { termShape with srcs := [a.toNat, a.toNat + 1] }) fun s e =>
      if e.grp.span && !(e.solo || e.uniform true a.toNat) then .expand
      else if e.full ≠ 0 then .trap 9 32 (e.grp.threads e.full)
      else if e.grp.span then .moved (s.goAll e.pushRet (BitVec.ofNat 64 (e.val true a.toNat 0)))
      else .moved (s.goEach e.pushRet fun q => BitVec.ofNat 64 (e.val true a.toNat q)) := rfl

theorem exec_ret (s : State) :
    exec .ret s = s.runWord (fun _ => termShape) fun s e =>
      let e' := { e with grp := e.grp.onLanes e.unit fun l => { l with stack := l.stack.drop 1 } }
      if !(e.depthIs 0).isEmpty then .trap 9 0 (e.depthIs 0).length
      else if e.grp.span then .moved (s.goAll e' ((e.grp.lane 0).stack.headD 0))
      else .moved (s.goEach e' fun q => (e.grp.lane q).stack.headD 0) := rfl

/-- Settles O19: each word's own meaning, case by case, over the full and the empty stacks. -/
theorem callsAndReturns : Obligations.CallsAndReturns := by
  intro off a
  refine ⟨?call, ?callFull, ?callx, ?callxSpan, ?callxExpands, ?callxFull, ?ret, ?retSpan, ?retEmpty⟩
  case call =>
    refine moves_of_runWord (exec_call off) fun s e hd => ?_
    have hd : e.full = 0 := not_not.mp (mt full_ne_zero.mp hd)
    rw [if_pos hd]
    rfl
  case callFull =>
    refine traps_of_runWord (exec_call off) fun s e hd => ⟨e.grp.threads e.full, ?_⟩
    rw [if_neg (full_ne_zero.mpr hd)]
  case callx =>
    refine moves_of_runWord (exec_callx a) fun s e ⟨hs, hd⟩ => ?_
    have hd : e.full = 0 := not_not.mp (mt full_ne_zero.mp hd)
    simp only [hs, hd, Bool.false_and, Bool.false_eq_true, if_false, ne_eq, not_true]
    rfl
  case callxSpan =>
    refine moves_of_runWord (exec_callx a) fun s e ⟨hs, hu, hd⟩ => ?_
    have hd : e.full = 0 := not_not.mp (mt full_ne_zero.mp hd)
    have hu : (e.solo || e.uniform true a.toNat) = true := by simpa using hu
    simp only [hs, hd, hu, Bool.not_true, Bool.and_false, Bool.false_eq_true, if_false, if_true, ne_eq, not_true]
    rfl
  case callxExpands =>
    refine expands_of_runWord (exec_callx a) fun s e ⟨hs, hsolo, hu⟩ => if_pos ?_
    simp [hs, hsolo, hu]
  case callxFull =>
    refine traps_of_runWord (exec_callx a) fun s e ⟨hu, hd⟩ => ⟨e.grp.threads e.full, ?_⟩
    rw [if_neg (by rcases hu with h | h | h <;> simp [h]), if_pos (full_ne_zero.mpr hd)]
  case ret =>
    refine moves_of_runWord exec_ret fun s e ⟨hs, hd⟩ => ?_
    have hd : (e.depthIs 0).isEmpty = true := Bool.not_eq_false _ ▸ mt depthIs_zero.mp hd
    simp only [hs, hd, Bool.not_true, Bool.false_eq_true, if_false]
  case retSpan =>
    refine moves_of_runWord exec_ret fun s e ⟨hs, hd⟩ => ?_
    have hd : (e.depthIs 0).isEmpty = true := Bool.not_eq_false _ ▸ mt depthIs_zero.mp hd
    simp only [hs, hd, Bool.not_true, Bool.false_eq_true, if_false, if_true]
  case retEmpty =>
    refine traps_of_runWord exec_ret fun s e hd => ⟨(e.depthIs 0).length, ?_⟩
    exact if_pos (by rw [depthIs_zero.mpr hd]; rfl)

/-! ### TRAP (R182) -/

theorem exec_trap (n : BitVec 8) (s : State) :
    exec (.trap n) s = s.runWord (fun _ => termShape) fun s e =>
      let u := e.unit.goto e.nextPc
      match e.level with
      | .trap => .trap 19 (BitVec.ofNat 64 n.toNat) e.count
      | _ =>
        let e' := { e with grp := (e.stepped {}).setUnit u, unit := u }
        .moved (((s.putGrps e.who [e'.grp]).termStep e e.members e.nextPc).raise e'
          ⟨19, BitVec.ofNat 64 n.toNat, e.count, e.nextPc, e.unit.pc, s.tick⟩) := rfl

/-- Settles O21: outside a handler TRAP raises its trap, resumed at the next SEGH; inside one it traps. -/
theorem trapWords : Obligations.TrapWords := by
  refine fun n => ⟨moves_of_runWord (exec_trap n) fun s e hl => ?outside,
    traps_of_runWord (exec_trap n) fun s e hl => ⟨e.count, ?inside⟩⟩
  case outside =>
    cases h : e.level with
    | trap => exact absurd h hl
    | kernel => rfl
    | control => rfl
  case inside => simp only [hl]

end Sys2Proof.Machine
end

