-- ==== Sys2Proof/Proofs/SpecialRegisters.lean ====
section
/-! PROOF. RDS and WRS (R49, R50, R185, R296, R302): one value for all, the index as a form, each thread's FPCTL, and each selector written. -/

namespace Sys2Proof.Machine

/-! ### Words that complete -/

/-- A word whose own meaning completes with the state and group `post`. -/
theorem completes_of_runWord {i : Instr} {sh : Env → Shape} {f : State → Env → Eff} {pre : State → Env → Prop}
    {post : State → Env → State × Env} (hi : ∀ s, exec i s = s.runWord sh f)
    (hf : ∀ s e, pre s e → f s e = .done (post s e).1 (post s e).2) : Completes i sh pre post :=
  fun s _ he hp => (hi s).trans (runWord_done he (hf _ _ hp))

/-! ### RDS (R49, R185, R302) -/

theorem exec_rds (d : RegN) (wide : Bool) (r : SpecialReg) (s : State) :
    exec (.rds d wide r) s = s.runWord
      (fun e => { dsts := regsOf wide d.toNat
                  lat := if r = .cyc then none else some 1
                  pre := if privileged r && e.level == .kernel then some 4 else none }) fun s e =>
      match r with
      | .cyc => s.cycWord e d.toNat wide
      | .index => e.put s d.toNat (e.formWord wide (formRes wide e.grp.lo 1) fun p => (e.index p : Int))
      | .fpctl => e.put s d.toNat (e.memberWord wide fun p => ((e.grp.lane p).fpctl.toNat : Int))
      | r => .done s (e.write d.toNat (e.sameWord wide (s.special e r))) := rfl

/-- Every selector but INDEX, FPCTL and CYC is one value for all members. -/
theorem exec_rds_special (d : RegN) (wide : Bool) {r : SpecialReg} (hc : r ≠ .cyc) (hi : r ≠ .index) (hf : r ≠ .fpctl)
    (s : State) :
    exec (.rds d wide r) s = s.runWord
      (fun e => { dsts := regsOf wide d.toNat, lat := some 1
                  pre := if privileged r && e.level == .kernel then some 4 else none }) fun s e =>
      .done s (e.write d.toNat (e.sameWord wide (s.special e r))) := by
  rw [exec_rds, if_neg hc]
  cases r
  case cyc => exact absurd rfl hc
  case index => exact absurd rfl hi
  case fpctl => exact absurd rfl hf
  all_goals rfl

theorem exec_rds_index (d : RegN) (wide : Bool) (s : State) :
    exec (.rds d wide .index) s = s.runWord (fun _ => { dsts := regsOf wide d.toNat }) fun s e =>
      e.put s d.toNat (e.formWord wide (formRes wide e.grp.lo 1) fun p => (e.index p : Int)) := rfl

theorem exec_rds_fpctl (d : RegN) (wide : Bool) (s : State) :
    exec (.rds d wide .fpctl) s = s.runWord (fun _ => { dsts := regsOf wide d.toNat }) fun s e =>
      e.put s d.toNat (e.memberWord wide fun p => ((e.grp.lane p).fpctl.toNat : Int)) := rfl

/-- The threads of a span share one FPCTL. -/
theorem lane_fpctl_span {g : Grp} (hs : g.span = true) (p q : Nat) : (g.lane p).fpctl = (g.lane q).fpctl := by
  simp only [Grp.lane, hs, if_true]
  cases g.lanes.find? fun x => x.lane == 0 <;> rfl

/-- A word of one value per member, where a span's members agree: it completes with each thread's value. -/
theorem memberWord_run {i : Instr} {sh : Shape} {d : RegN} {wide : Bool} {v : Env → Nat → Int}
    (hi : ∀ s, exec i s = s.runWord (fun _ => sh) fun s e => e.put s d.toNat (e.memberWord wide (v e)))
    (hv : ∀ e p q, e.grp.span = true → v e p = v e q) : LaneWord i sh d wide (fun e => e.grp.span) v := by
  intro s e he
  obtain ⟨ha, hm⟩ := he.acting
  refine ⟨fun _ => ?done, fun hl hs => absurd (.inl hs) hl⟩
  generalize hx : (s.prepare e sh).2 = x at *
  by_cases hsame : (x.solo || x.members.all fun p => v x p == v x x.first) = true
  case pos =>
    have hsome : x.memberWord wide (v x) = some (x.sameWord wide (v x x.first)) := by
      simp only [Env.memberWord, hsame, Bool.not_true, Bool.and_false, Bool.false_eq_true, if_false, if_true]
    refine ⟨_, sameWord_wide x wide (v x x.first), fun p hp => ?_, ?_⟩
    · rw [(sameWord_at ha (hm ▸ hp)).2]
      congr 1
      rcases Bool.or_eq_true_iff.mp hsame with hsolo | hall
      · rw [← hm, ha.solo hsolo, List.mem_singleton] at hp
        subst hp
        simp [Env.first, hsolo]
      · exact (by simpa using List.all_eq_true.mp hall p (hm ▸ hp) : v x p = v x x.first).symm
    · rw [hi, runWord_done (sh := fun _ => sh) he (by rw [hx, hsome, Env.put])]
  case neg =>
    have hspan : x.grp.span = false := by
      by_contra h
      simp only [Bool.not_eq_false] at h
      exact hsame (by simp [List.all_eq_true, hv x _ x.first h])
    have hsome : x.memberWord wide (v x) = some (lanesRes wide (v x)) := by
      simp only [Env.memberWord, hspan, hsame, Bool.false_and, Bool.false_eq_true, if_false]
    refine ⟨_, by cases wide <;> rfl, fun p hp => (lanesRes_at (ha.lanes (.inl hspan) p (hm ▸ hp))).2, ?_⟩
    rw [hi, runWord_done (sh := fun _ => sh) he (by rw [hx, hsome, Env.put])]

/-- Settles O22: one value for all, the index as a form, or each thread's FPCTL. -/
theorem specialRegisterReads : Obligations.SpecialRegisterReads := by
  intro d wide r
  refine ⟨fun hc hi hf s e he => ?same, ?index, ?fpctl⟩
  case same =>
    obtain ⟨ha, hm⟩ := he.acting
    refine ⟨_, sameWord_wide _ wide _, fun p hp => ?_,
      (exec_rds_special d wide hc hi hf s).trans (runWord_done he rfl)⟩
    rw [(sameWord_at ha (hm ▸ hp)).2]
    cases r <;> rfl
  case index =>
    rintro rfl
    refine formWord_run (exec_rds_index d wide) fun e f _ hs hf p _ => ?_
    cases hf
    simp [Env.index, hs]
  case fpctl =>
    rintro rfl
    exact memberWord_run (exec_rds_fpctl d wide) fun e p q hs => by rw [lane_fpctl_span hs p q]

/-! ### WRS (R50, R185, R296, R302) -/

section
variable (a : RegN) (wide : Bool)

theorem exec_wrs_fpctl (s : State) :
    exec (.wrs a wide .fpctl) s = s.runWord
      (fun e => { srcs := regsOf wide a.toNat, pre := wrsTrap .fpctl e }) fun s e =>
      if e.grp.span && !(e.solo || e.uniform wide a.toNat) then .expand
      else .done s (e.setFpctl fun p => BitVec.ofNat 3 (e.val wide a.toNat p)) := rfl

theorem exec_wrs_ctxd (s : State) :
    exec (.wrs a wide .ctxd) s = s.runWord (fun e => { srcs := regsOf wide a.toNat, pre := wrsTrap .ctxd e }) fun s e =>
      if e.val wide a.toNat e.first = 0 then .done (s.putCtx (e.core - Config.cores) none) e
      else match s.descriptor e.ppart (e.val wide a.toNat e.first) with
        | none => .trap 16 (BitVec.ofNat 64 (e.val wide a.toNat e.first)) 1
        | some c => .done (s.putCtx (e.core - Config.cores) (some c)) (e.setFpctl fun _ => c.fpctlDef) := rfl

theorem exec_wrs_tpc (s : State) :
    exec (.wrs a wide .tpc) s = s.runWord (fun e => { srcs := regsOf wide a.toNat, pre := wrsTrap .tpc e }) fun s e =>
      match e.who with
      | .hand tid _ _ =>
        let n := BitVec.ofNat 64 (e.val wide a.toNat e.first)
        .done { s with traps := mapIf (·.tid == tid) (fun (t : TrapCtx) => { t with tpc := n }) s.traps } e
      | .ccHand c => .done (s.onCc c fun k => { k with trap := k.trap.map fun (t : TrapCtx) =>
          { t with tpc := BitVec.ofNat 64 (e.val wide a.toNat e.first) } }) e
      | _ => .done s e := rfl

end

/-- Settles O23: each selector that WRS may write, case by case. -/
theorem specialRegisterWrites : Obligations.SpecialRegisterWrites := by
  intro a wide
  refine ⟨?fpctl, ?fpctlExpands, ?noContext, fun c => ?context, ?badContext, fun tid g l => ?tpc, fun c => ?tpcControl⟩
  case fpctl =>
    refine completes_of_runWord (exec_wrs_fpctl a wide) fun s e h => if_neg ?_
    rcases h with (h | h) | h <;> simp [h]
  case fpctlExpands =>
    refine expands_of_runWord (exec_wrs_fpctl a wide) fun s e ⟨hl, hu⟩ => if_pos ?_
    simp only [Env.laned, not_or, Bool.not_eq_false, Bool.not_eq_true] at hl
    simp [hl, hu]
  case noContext => exact completes_of_runWord (exec_wrs_ctxd a wide) fun s e h => if_pos h
  case context =>
    refine completes_of_runWord (exec_wrs_ctxd a wide) fun s e ⟨h0, hd⟩ => (if_neg h0).trans ?_
    rw [hd]
    rfl
  case badContext =>
    refine traps_of_runWord (exec_wrs_ctxd a wide) fun s e ⟨h0, hd⟩ => ⟨1, (if_neg h0).trans ?_⟩
    rw [hd]
  case tpc =>
    refine completes_of_runWord (exec_wrs_tpc a wide) fun s e hw => ?_
    rw [hw]
  case tpcControl =>
    refine completes_of_runWord (exec_wrs_tpc a wide) fun s e hw => ?_
    rw [hw]

end Sys2Proof.Machine
end

