-- ==== Sys2Proof/Proofs/SystemWords.lean ====
section
/-! PROOF. The system words (R123, R124, R185 to R190, R195): fences, block barriers, RAND, the cycle counter, NOP, BKPT and the code drops. -/

namespace Sys2Proof.Machine

/-! ### FENCE (R123, R124, R186) -/

theorem exec_fence (scope : Scope) (kind : FenceKind) (s : State) :
    exec (.fence scope kind) s = s.runWord (fun _ => {}) fun s e =>
      match kind with
      | .acquire => .done ((s.acquire e.core scope).fenceLearn e) e
      | .release => .done s (e.mark s (.fence scope false))
      | .engine => .done s (e.mark s (.fence scope true))
      | _ => .moved (s.waitAt (e.mark s (.fence scope false)) .fence) := rfl

/-- A mark stands behind the stores of each acting thread. -/
theorem mark_queue (e : Env) (s : State) (kind : SqKind) :
    e.mark s kind = { e with grp := { e.grp with stq := e.grp.stq ++ e.members.map fun p =>
      ⟨kind, [⟨e.idx p, 0, .priv (e.idx p) 0, [], false, 0⟩], s.tick, e.origin, [], []⟩ } } := by
  simp only [Env.mark, Env.enqueue, List.filterMap_eq_map', List.map_map, Function.comp_def]

/-- Settles O24: each kind of fence, with its mark in the store queue. -/
theorem fences : Obligations.Fences := by
  intro scope
  refine ⟨?acquire, ?release, ?engine, ?acqRel, ?sc⟩
  case acquire => exact completes_of_runWord (exec_fence scope .acquire) fun _ _ _ => rfl
  case release => exact completes_of_runWord (exec_fence scope .release) fun s e _ => by dsimp only; rw [mark_queue]
  case engine => exact completes_of_runWord (exec_fence scope .engine) fun s e _ => by dsimp only; rw [mark_queue]
  case acqRel => exact moves_of_runWord (exec_fence scope .acqRel) fun s e _ => by dsimp only; rw [mark_queue]
  case sc => exact moves_of_runWord (exec_fence scope .sc) fun s e _ => by dsimp only; rw [mark_queue]

/-! ### BAR and BARA (R124, R187) -/

theorem exec_bar (n : BitVec 4) (s : State) :
    exec (.bar n) s = s.runWord (fun _ => {}) fun s e =>
      if e.solo then .done s e
      else if s.unreleased e then .wait
      else match s.block? e.bid with
        | none => .wait
        | some b => .moved (((s.waitAt e (.bar n.toNat
            (e.members.foldl (fun m p => max m (b.arrivals n.toNat (e.idx p))) 0))).onBlock e.bid fun k =>
              e.members.foldl (fun (k : Block) p => k.arrive n.toNat (e.idx p)) k).barriers e.bid) := rfl

theorem exec_bara (n : BitVec 4) (s : State) :
    exec (.bara n) s = s.runWord (fun _ => {}) fun s e => .done s (if e.solo then e else e.mark s (.bara n.toNat)) := rfl

/-- Settles O25: BAR's threads arrive and wait, BARA's arrival is queued, a control core only completes. -/
theorem blockBarriers : Obligations.BlockBarriers := by
  refine fun n => ⟨?solo, fun b => ?waits, ?araSolo, ?ara⟩
  case solo => exact completes_of_runWord (exec_bar n) fun _ _ h => if_pos h
  case waits =>
    refine moves_of_runWord (exec_bar n) fun s e ⟨hs, hu, hb⟩ => ?_
    rw [if_neg (by simp [hs]), if_neg (by simp [hu]), hb]
  case araSolo => exact completes_of_runWord (exec_bara n) fun s e h => by rw [if_pos h]
  case ara =>
    refine completes_of_runWord (exec_bara n) fun s e h => ?_
    rw [if_neg (by simp [h]), mark_queue]

/-! ### RAND (R188) -/

theorem exec_rand (d : RegN) (n : BitVec 16) (s : State) :
    exec (.rand d n) s = s.runWord (fun _ => { dsts := regsOf (d.toNat % 2 == 0) d.toNat }) fun s e =>
      let f (p : Nat) : Int := ((randValue (BitVec.ofNat 64 (e.ofLaunch (·.fld 319 256)))
        (BitVec.ofNat 64 (e.ofLaunch (·.fld 383 320))) (e.index p) n.toNat).toNat : Int)
      if e.solo || (e.grp.span && e.count == 1) then e.put s d.toNat (formRes (d.toNat % 2 == 0) (f 0) 0)
      else if e.grp.span then .expand
      else .done s (e.write d.toNat (lanesRes (d.toNat % 2 == 0) f)) := rfl

/-- A word that is uniform on a span of one index, expands on a longer one, and writes a value per lane in a sheaf. -/
theorem loneWord_run {i : Instr} {sh : Shape} {d : RegN} {wide : Bool} {v : Env → Nat → Int}
    (hi : ∀ s, exec i s = s.runWord (fun _ => sh) fun s e =>
      if e.solo || (e.grp.span && e.count == 1) then e.put s d.toNat (formRes wide (v e 0) 0)
      else if e.grp.span then .expand
      else .done s (e.write d.toNat (lanesRes wide (v e)))) :
    LaneWord i sh d wide (fun e => e.grp.span && decide (e.grp.hi - e.grp.lo = 1)) v := by
  intro s e he
  obtain ⟨ha, hm⟩ := he.acting
  generalize hx : (s.prepare e sh).2 = x at *
  refine ⟨fun hok => ?done, fun hl hn => ?expand⟩
  case done =>
    by_cases hone : (x.solo || (x.grp.span && x.count == 1)) = true
    case pos =>
      obtain ⟨r, hr⟩ := Option.isSome_iff_exists.mp (formRes_uniform wide (v x 0))
      have hat := formRes_at hr
      refine ⟨r, (hat 0).1, fun p hp => ?_, ?_⟩
      · have hp0 : p = 0 := by
          rw [← hm] at hp
          by_cases hs : x.solo = true
          · simpa [ha.solo hs] using hp
          · have h1 : x.grp.span = true ∧ x.count = 1 := by simpa [hs] using hone
            have h2 : x.grp.hi - x.grp.lo = 1 := by simpa [Env.count, h1.1] using h1.2
            have hs : x.solo = false := by simpa using hs
            simpa [Env.members, Grp.members, hs, h1.1, h2, upto] using hp
        subst hp0
        simpa using (hat 0).2
      · rw [hi, runWord_done (sh := fun _ => sh) he (by rw [hx, if_pos hone, hr, Env.put])]
    case neg =>
      have hsp : x.grp.span = false := by
        by_contra hs
        simp only [Bool.not_eq_false] at hs
        rcases hok with (h | h) | h
        · simp [hs] at h
        · exact hone (by simp [h])
        · exact hone (by simpa [Env.count, hs] using Or.inr (of_decide_eq_true (Bool.and_eq_true_iff.mp h).2))
      refine ⟨lanesRes wide (v x), by cases wide <;> rfl, fun p hp => (lanesRes_at (ha.lanes (.inl hsp) p (hm ▸ hp))).2, ?_⟩
      rw [hi, runWord_done (sh := fun _ => sh) he (by rw [hx, if_neg hone, if_neg (by simp [hsp])])]
  case expand =>
    simp only [Env.laned, not_or, Bool.not_eq_false, Bool.not_eq_true] at hl
    rw [hi, runWord_expand (sh := fun _ => sh) he.acts he.clear]
    rw [hx, if_neg, if_pos hl.1]
    simpa [hl, Env.count] using hn

/-! ### CYC and RDS CYC (R51, R185, R189) -/

/-- The cycle counter never goes backward (R51). -/
theorem readCyc_le (s : State) (d : Nat) : (s.die d).cyc.toNat ≤ (s.readCyc d).2.toNat := by
  have h := (s.die d).cyc.isLt
  simp only [State.readCyc, BitVec.toNat_ofNat]
  rw [Nat.mod_eq_of_lt (by omega)]
  omega

/-- A value that all members share is one value. -/
theorem memberWord_const (e : Env) (wide : Bool) (x : Int) : e.memberWord wide (fun _ => x) = some (e.sameWord wide x) := by
  simp [Env.memberWord]

/-- Outside redundant launches the cycle counter is read by the word itself. -/
theorem cycWord_done {s : State} {e : Env} (h : ∀ l, e.launch = some l → l.redundant = false) (d : Nat) (wide : Bool) :
    s.cycWord e d wide =
      .done (s.readCyc e.die).1 (e.write d (e.sameWord wide ((s.readCyc e.die).2.toNat : Int))) := by
  have hf : ∀ read, s.forwarding e e.members read = some (read e.members s) := by
    intro read
    unfold State.forwarding
    split
    · next l b hl hb => rw [if_pos (by simp [h l hl])]
    · rfl
  simp only [State.cycWord, hf, memberWord_const, Env.put]

theorem exec_cyc (d : RegN) (wide : Bool) (s : State) :
    exec (.cyc d wide) s = s.runWord (fun _ => { dsts := regsOf wide d.toNat, lat := none }) fun s e =>
      if e.members.any fun p => s.atomPending e.bid (e.idx p) s.tick then .wait else s.cycWord e d.toNat wide := rfl

theorem exec_rds_cyc (d : RegN) (wide : Bool) (s : State) :
    exec (.rds d wide .cyc) s = s.runWord (fun _ => { dsts := regsOf wide d.toNat, lat := none }) fun s e =>
      s.cycWord e d.toNat wide := rfl

/-- What a word reads with keeps the thread's launch, its indices and the atomics it waits for. -/
theorem prepare_pending (s : State) (e : Env) (sh : Shape) (p : Nat) :
    (s.prepare e sh).1.atomPending (s.prepare e sh).2.bid ((s.prepare e sh).2.idx p) (s.prepare e sh).1.tick =
      s.atomPending e.bid (e.idx p) s.tick := by
  obtain ⟨hr, n, hn⟩ := prepare_reads s e sh
  have hidx : (s.prepare e sh).2.idx p = e.idx p := by
    simp only [Env.idx, hr.solo, hr.grp.lo]
    rw [hr.rest]
  rw [hidx, hn, hr.rest]
  rfl

/-- A word that reads the cycle counter, outside redundant launches: one value for all, and the counter keeps it. -/
theorem cycWord_run {i : Instr} {sh : Shape} {d : RegN} {wide : Bool} {f : State → Env → Eff}
    (hi : ∀ s, exec i s = s.runWord (fun _ => sh) f) {s : State} {e : Env} (he : Executes s sh e)
    (hl : ∀ l, e.launch = some l → l.redundant = false)
    (hf : f (s.prepare e sh).1 (s.prepare e sh).2 = (s.prepare e sh).1.cycWord (s.prepare e sh).2 d.toNat wide) :
    ∃ (v : W64) (q : Res), ((s.prepare e sh).1.die e.die).cyc.toNat ≤ v.toNat ∧ q.wide = wide ∧
      (∀ p ∈ e.members, q.at p = wrap (widthOf wide) v.toNat) ∧
      exec i s = .next ((((s.prepare e sh).1.onDie e.die fun k => { k with cyc := v }).spend 1).finish
        ((s.prepare e sh).2.write d.toNat q) e.grp sh) := by
  obtain ⟨ha, hm⟩ := he.acting
  have hrest := (prepare_reads s e sh).1.rest
  have hdie : (s.prepare e sh).2.die = e.die := by rw [hrest]
  have hlaunch : (s.prepare e sh).2.launch = e.launch := by rw [hrest]
  refine ⟨((s.prepare e sh).1.readCyc e.die).2, _, readCyc_le _ _, sameWord_wide (s.prepare e sh).2 wide _,
    fun p hp => (sameWord_at ha (hm ▸ hp)).2, ?_⟩
  rw [hi, runWord_done (sh := fun _ => sh) he (hf.trans (cycWord_done (hlaunch ▸ hl) _ _)), hdie]
  rfl

/-- Settles O26: RAND's value, and one value of the cycle counter that never goes backward. -/
theorem randomAndCycleWords : Obligations.RandomAndCycleWords := by
  refine ⟨fun d n => loneWord_run (exec_rand d n), fun d wide s e => ⟨?cyc, ?rds, ?waits⟩⟩
  case cyc =>
    intro he hl hq
    refine cycWord_run (exec_cyc d wide) he hl (if_neg ?_)
    simp only [prepare_pending, (prepare_reads s e _).1.members]
    simpa using hq
  case rds => exact fun he hl _ => cycWord_run (exec_rds_cyc d wide) he hl rfl
  case waits =>
    intro he hp
    rw [exec_cyc]
    simp only [State.runWord, he.acts, he.clear, prepare_pending, (prepare_reads s e _).1.members]
    rw [if_pos (by simpa using hp)]

/-- The lowest acting thread is the one the word reads with. -/
theorem Reads.first {e e' : Env} (h : Reads e e') : e'.first = e.first := by
  simp only [Env.first, h.grp.span, h.solo, h.unit]

/-! ### NOP and BKPT (R190) -/

theorem exec_nop (s : State) : exec .nop s = s.runWord (fun _ => {}) fun s e => .done s e := rfl

theorem exec_bkpt (code : BitVec 8) (s : State) :
    exec (.bkpt code) s = s.runWord (fun _ => {}) fun s e =>
      if !e.solo && s.attached e.ctx then
        if ((s.block? e.bid).map s.primary).getD true then
          let t := s.putGrps e.who [(e.stepped {}).setUnit e.unit.advance.stopNow]
          .moved ((match e.ctx with
            | some c => t.trigger c 1
            | none => t).groupReport e e.nextPc code.toNat 2 0 e.members)
        else .done s e
      else
        let e' := { e with grp := (e.stepped {}).setUnit e.unit.advance, unit := e.unit.advance }
        .moved ((s.putGrps e.who [e'.grp]).raise e'
          ⟨18, BitVec.ofNat 64 code.toNat, e.count, e.nextPc, e.unit.pc, s.tick⟩) := rfl

/-! ### ICINV and ICINV.ALL (R195) -/

theorem exec_icinv (a : RegN) (s : State) :
    exec (.icinv a) s = s.runWord (fun e => { srcs := [a.toNat, a.toNat + 1], pre := privWord e }) fun s e =>
      match e.ctx with
      | none => .trap 17 (BitVec.ofNat 64 ((dedup (e.members.map fun p => e.val true a.toNat p)).headD 0)) 1
      | some c =>
        match s.dropCode c e.ppart (dedup (e.members.map fun p => e.val true a.toNat p)) with
        | (s, none) => .done s e
        | (s, some (k, l, x)) => .fault s k l 9 (BitVec.ofNat 64 x) [e.first] := rfl

theorem exec_icinvAll (s : State) :
    exec .icinvAll s = s.runWord (fun e => { pre := privWord e }) fun s e =>
      let emptied : List Die := s.dies.map fun d =>
        if s.partOf d.num == e.ppart then { d with scan := [], icache := [] } else d
      .done { s with dies := emptied } e := rfl

/-- ICINV drops the code of each address's frame in turn, and stops at the first without a page. -/
theorem dropCode_cons (s : State) (c : Ctx) (p a : Nat) (r : List Nat) :
    s.dropCode c p (a :: r) = match s.translate c a .any with
      | (u, .leaf _ pa _) => (u.dropFrame p (pa / 4096)).dropCode c p r
      | (u, .fault k l) => (u, some (k, l, a)) := rfl

/-- Settles O27: NOP, BKPT with and without a debugger, and what the code drops leave. -/
theorem nopBreakpointAndCodeDrops : Obligations.NopBreakpointAndCodeDrops := by
  refine ⟨fun code => ⟨?nop, fun c => ?halts, ?replica, ?traps⟩, fun a => ⟨fun c t => ?drops, ?fails, ?all⟩,
    fun s u c p a r => ⟨rfl, fun k l h => ?fault, fun x pa l h => ?leaf⟩⟩
  case nop => exact completes_of_runWord exec_nop fun _ _ _ => rfl
  case halts =>
    refine moves_of_runWord (exec_bkpt code) fun s e ⟨hs, hc, ha, hp⟩ => ?_
    rw [if_pos (by rw [hs, ha]; rfl), if_pos hp, hc]
    rfl
  case replica =>
    refine completes_of_runWord (exec_bkpt code) fun s e ⟨hs, ha, hp⟩ => ?_
    exact (if_pos (by rw [hs, ha]; rfl)).trans (if_neg (ne_true_of_eq_false hp))
  case traps =>
    refine moves_of_runWord (exec_bkpt code) fun s e h => if_neg ?_
    rcases h with h | h <;> simp [h]
  case drops =>
    refine completes_of_runWord (exec_icinv a) fun s e ⟨hc, hd⟩ => ?_
    rw [hc]
    simp only [hd]
  case fails =>
    intro c t k l x s e he hc hd
    have hr := (prepare_reads s e { srcs := [a.toNat, a.toNat + 1], pre := privWord e }).1
    have hctx : (s.prepare e { srcs := [a.toNat, a.toNat + 1], pre := privWord e }).2.ctx = some c := by rw [hr.rest]; exact hc
    have hpart : (s.prepare e { srcs := [a.toNat, a.toNat + 1], pre := privWord e }).2.ppart = e.ppart := by rw [hr.rest]
    rw [exec_icinv]
    simp only [State.runWord, he.acts, he.clear, hctx, hpart, hd, hr.first]
  case all => exact completes_of_runWord exec_icinvAll fun _ _ _ => rfl
  case fault => rw [dropCode_cons, h]
  case leaf => rw [dropCode_cons, h]; simp only [State.dropFrame, mapIf, beq_iff_eq]

end Sys2Proof.Machine
end

