-- ==== Sys2Proof/Proofs/Steps.lean ====
section
/-! PROOF. What a step does with the word of the agent that is due (O52). -/

namespace Sys2Proof.Machine

/-! ### O52: what a step does with the word of the agent that moves -/

/-- An environment reads neither the tick nor the agenda. -/
theorem env?_tick_agenda (s : State) (n : Nat) (r : List Pick) (w : Who) :
    ({ s with tick := n, agenda := r } : State).env? w = s.env? w := by
  cases w <;> rfl

/-- Whether an agent may issue depends on neither the tick nor the agenda. -/
theorem canIssue_tick_agenda (s : State) (n : Nat) (r : List Pick) (e : Env) :
    ({ s with tick := n, agenda := r } : State).canIssue e = s.canIssue e := by
  have henv : ({ s with tick := n, agenda := r } : State).env? = s.env? := funext (env?_tick_agenda s n r)
  have hopen : ({ s with tick := n, agenda := r } : State).roundOpen e = s.roundOpen e := by
    unfold State.roundOpen
    rw [henv]
    rfl
  unfold State.canIssue
  rw [hopen]
  rfl

/-- The state in which the agent `w` has the next step: the agenda's, or the model's own choice. -/
def DueAt (s : State) (w : Who) (r : List Pick) (n : State) : Prop :=
  (s.agenda = .issue w :: r ∧ n = { s with tick := s.tick + 1, agenda := r }) ∨
  (s.agenda = [] ∧ s.tick % 2 = 1 ∧ ({ s with tick := s.tick + 1 } : State).ready.head? = some w ∧
    n = { s with tick := s.tick + 1 })

/-- On the agent's turn the choice is the first ready agent. -/
theorem choose_of_ready {s : State} {w : Who} (ht : s.tick % 2 = 0) (hw : s.ready.head? = some w) :
    s.choose = some fun t => t.issue w := by
  unfold State.choose
  simp [ht, hw]

/-- A step with an agenda makes its first pick. -/
theorem step_of_agenda {s : State} {p : Pick} {r : List Pick} (ha : s.agenda = p :: r) :
    step s = settleOutcome (({ s with tick := s.tick + 1, agenda := r } : State).act p) := by
  unfold step State.stepNow
  dsimp only
  split
  next q rest h =>
    rw [ha] at h
    obtain ⟨rfl, rfl⟩ := List.cons.inj h
    rfl
  next h => simp [ha] at h

/-- A step without an agenda does what the model chooses. -/
theorem step_of_choice {s : State} {f : Deed} (ha : s.agenda = [])
    (hf : ({ s with tick := s.tick + 1 } : State).choose = some f) :
    step s = settleOutcome (f { s with tick := s.tick + 1 }) := by
  unfold step State.stepNow
  dsimp only
  split
  next h => simp [ha] at h
  next => rw [hf]

theorem step_of_due {s n : State} {w : Who} {r : List Pick} (h : DueAt s w r n) :
    step s = settleOutcome (n.issue w) := by
  rcases h with ⟨ha, rfl⟩ | ⟨ha, ht, hw, rfl⟩
  · exact step_of_agenda ha
  · have ht' : ({ s with tick := s.tick + 1 } : State).tick % 2 = 0 := by
      change (s.tick + 1) % 2 = 0
      omega
    exact step_of_choice ha (choose_of_ready ht' hw)

theorem due_env {s n : State} {w : Who} {r : List Pick} (h : DueAt s w r n) : n.env? w = s.env? w := by
  rcases h with ⟨-, rfl⟩ | ⟨-, -, -, rfl⟩
  · exact env?_tick_agenda s _ r w
  · exact env?_tick_agenda s _ s.agenda w

theorem due_canIssue {s n : State} {w : Who} {r : List Pick} (h : DueAt s w r n) (e : Env) :
    n.canIssue e = s.canIssue e := by
  rcases h with ⟨-, rfl⟩ | ⟨-, -, -, rfl⟩
  · exact canIssue_tick_agenda s _ r e
  · exact canIssue_tick_agenda s _ s.agenda e

/-- An agent that may issue runs what its next word decodes to. -/
theorem issue_ok {s : State} {w : Who} {e : Env} {x : W32} {ws : List W32} {i : Instr} (he : s.env? w = some e)
    (hc : s.canIssue e = true) (hx : e.unit.code = x :: ws) (hd : decode x = .ok i) :
    s.issue w = andThen (exec i { s.granted e with turn := w }) fun t => if e.solo then t else t.found w e.unit := by
  simp [State.issue, he, hc, hx, hd]

theorem issue_error {s : State} {w : Who} {e : Env} {x : W32} {ws : List W32} {d : DecodeError}
    (he : s.env? w = some e) (hc : s.canIssue e = true) (hx : e.unit.code = x :: ws) (hd : decode x = .error d) :
    s.issue w = .next (s.badWord e) := by
  simp [State.issue, he, hc, hx, hd]

theorem issue_fetch {s : State} {w : Who} {e : Env} (he : s.env? w = some e) (hc : s.canIssue e = true)
    (hx : e.unit.code = []) : s.issue w = .next (s.fetch e) := by
  simp [State.issue, he, hc, hx]

/-- What a turn leaves on an issue set that stood as `was` before it (R28, R42). -/
def turnMark (was u : ISet) : ISet :=
  if u.stat = .ready ∧ u.pc = was.pc ∧ u.left = was.left ∧ u.code = was.code ∧ u.half = was.half ∧ u.asked = was.asked then
    { u with idle := true, ran := true }
  else { u with idle := false }

theorem andThen_self (o : Host.Outcome State Fault Refusal) : andThen o (fun t => t) = o := by
  cases o <;> rfl

/-- Settles O52: a step is the turn of the agent that is due, and a turn fetches or runs its next word. -/
theorem stepRunsDecoded : Obligations.StepRunsDecoded := by
  unfold Obligations.StepRunsDecoded
  intro s e w r
  refine fun he hc => ⟨?_, ?_, ?_⟩
  · intro n x ws i hn hx hd
    have hn : DueAt s w r n := hn
    have hstep : step s = settleOutcome
        (andThen (exec i { n.granted e with turn := w }) fun t => if e.solo then t else t.found w e.unit) := by
      rw [step_of_due hn, issue_ok ((due_env hn).trans he) ((due_canIssue hn e).trans hc) hx hd]
    constructor
    · intro hs
      rw [hstep]
      simp only [hs, if_true, andThen_self]
    · intro hs
      refine ⟨turnMark e.unit, fun u => ⟨fun h => if_pos h, fun h => if_neg h⟩, ?_⟩
      rw [hstep]
      simp only [hs, Bool.false_eq_true, if_false]
      cases exec i { n.granted e with turn := w } <;> rfl
  · intro n x ws d hn hx hd
    have hn : DueAt s w r n := hn
    rw [step_of_due hn, issue_error ((due_env hn).trans he) ((due_canIssue hn e).trans hc) hx hd]
  · intro n hn hx
    have hn : DueAt s w r n := hn
    rw [step_of_due hn, issue_fetch ((due_env hn).trans he) ((due_canIssue hn e).trans hc) hx]

end Sys2Proof.Machine
end

