-- ==== Sys2Proof/Proofs/FinishFrame.lean ====
section
/-! PROOF. The frame of a finished word fails where an environment's block is not its agent's (O58). -/

namespace Sys2Proof.Machine

/-! ### O58: the frame of a finished word, for an environment whose block is not the one its agent names

The clause on what a finished word leaves unchanged takes the environment as it comes, and ties `e.who` to the block
that `onBlock` changes, but not `e.bid`, whose matrix words in progress the written registers disturb. Where the two differ,
the block `e.bid` changes too. -/

namespace StrayWrite

/-- A matrix word in progress whose index register is register 0, issued by thread 0. -/
def request : EReq :=
  { rid := 0, part := 0, issuers := [0], lanesForm := false, word := 0, seg := 0, pos := 0, ord := 0
    kind := .matrix
      { diag := false, tile := 0, resv := 0, record := 0, mask := 0, zero := false, slice := 0, rows := [], cfg := 0
        reg := 0 }
    ins := [], outs := [], undef := false, fault := none, seen := [], fin := false }

/-- The span of 32 threads, with no register. -/
def group : Grp := { Grp.root 0 0 32 0 0 with regs := [] }

/-- Block 2, with the request. -/
def block : Block := { Block.placed 2 0 group with eng := [request] }

/-- The state that holds block 2 alone. -/
def state : State := { State.reset with blocks := [block] }

/-- An environment whose agent is a group of block 1, and whose block is block 2. -/
def env : Env := state.kernEnv (.kern 1 0 0) block (Launch.plain 0) group (ISet.start 0)

/-- A word that writes register 0. -/
def shape : Shape := { dsts := [0] }

/-- The word disturbs block 2's matrix request. -/
theorem finish_disturbs :
    ((state.finish env group shape).block? 2).map (fun b => b.eng.map (·.undef)) = some [true] ∧
      (state.block? 2).map (fun b => b.eng.map (·.undef)) = some [false] := by
  decide +kernel

/-- No register of the group has a high half, or a low one, of an F64 form. -/
theorem cell_env (k : Nat) : (env.grp.cell k).kind = noReg.kind := rfl

end StrayWrite

/-- Refutes O58: of an environment whose agent names block 1 and whose block is block 2, a finished word that writes
register 0 disturbs the matrix word in progress of block 2, which the statement says it leaves as it was. -/
theorem not_writesAndFrames : ¬ Obligations.WritesAndFrames := by
  unfold Obligations.WritesAndFrames
  rintro ⟨-, -, -, hfinish, -, -⟩
  have hpair : ∀ k b st, (StrayWrite.env.grp.cell k).kind = .f64 b st → k % 2 = 0 := by
    intro k b st hk
    rw [StrayWrite.cell_env] at hk
    simp [noReg, RegCell.uniform] at hk
  obtain ⟨_, -, -, -, -, hkern, -⟩ := hfinish StrayWrite.state StrayWrite.env StrayWrite.group StrayWrite.shape hpair
  obtain ⟨-, -, hother, -⟩ := hkern 1 0 0 rfl
  have hsame := hother 2 (by decide)
  obtain ⟨hmarks, undisturbed⟩ := StrayWrite.finish_disturbs
  rw [hsame, undisturbed] at hmarks
  exact absurd hmarks (by decide)

end Sys2Proof.Machine
end

