-- ==== Sys2Proof/Proofs/StallCount.lean ====
section
/-! PROOF. The count of a broken stall, where a span's result in flight is some threads' alone (O56). -/

namespace Sys2Proof.Machine

/-! ### O56: the count of a broken stall, for a span that a result in flight concerns in part

A result in flight of a span may be that of some of its threads alone (`Flight.of`); a word that breaks its stall count
then counts those threads (R59), where the statement counts every thread of the span. -/

namespace StallOfSome

/-- The span of 32 threads, its register 2 awaiting for 4 cycles a result that is that of thread 0 alone. -/
def group : Grp :=
  { Grp.root 0 0 32 0 0 with
    lanes := [{ lane := 0, stack := [], fpctl := 0, flight := [⟨false, 2, 4, false, [(0, 1)]⟩] }] }

/-- A launch on checked issue. -/
def launch : Launch := { Launch.plain 1 with ctx := { Ctx.plain with check := true } }

/-- A handler that runs on the group's core and partition, so that a trap of the group is held. -/
def handler : TrapCtx := ⟨9, 0, 0, 2, 1, 0, 0, 0, 0, 0, 0, 0, [], []⟩

/-- The group in block 0, next to issue. -/
def state : State :=
  { State.reset with
    launches := [launch], blocks := [Block.placed 0 1 group], traps := [handler], turn := .kern 0 0 0 }

/-- The group's environment. -/
def env : Env := state.kernEnv (.kern 0 0 0) (Block.placed 0 1 group) launch group (ISet.start 0)

/-- IADD of registers 2 and 3 into register 1. -/
def add : Instr := .iadd 1 2 3 false false false

/-- Its shape. -/
def shape : Shape := frShape 1 false 2 false (some (3, false)) false false

/-- The number of failing threads of a held trap of the block's group. -/
def heldCount (o : Host.Outcome State Fault Refusal) : List Nat :=
  match o with
  | .next t => t.blocks.flatMap fun b => b.groups.flatMap fun g => g.units.filterMap fun u =>
    match u.stat with
    | .trapHeld q => some q.count
    | _ => none
  | _ => []

/-- The group is the one whose turn it is, and of the word's checks only that of the stall count fails. -/
theorem stalls : state.env? state.turn = some env ∧ (∀ r ∈ shape.regs, r < env.g) ∧
    state.scoreboard env shape = false ∧ env.released shape = 0 ∧ env.stalled shape ≠ 0 ∧
    heldCount (exec add state) = [1] ∧ heldCount (.next (state.trapWord env 6 (BitVec.ofNat 64 env.unit.word)
      (env.grp.threads (env.stalled shape)))) = [32] := by
  decide +kernel

end StallOfSome

/-- Refutes O56: an IADD of a span that breaks the stall count of a result of thread 0 alone traps with the count 1, where
the statement counts the span's 32 threads. -/
theorem not_wordChecks : ¬ Obligations.WordChecks := by
  unfold Obligations.WordChecks
  intro h
  obtain ⟨hadd, -⟩ := h 1 2 3 false false false 0 0 0
  obtain ⟨acts, regs_lt, unheld, unreleased, stalled_ne, exec_count, stated_count⟩ := StallOfSome.stalls
  obtain ⟨-, hchecks, -⟩ := hadd StallOfSome.state StallOfSome.env acts
  obtain ⟨-, hissue⟩ := hchecks regs_lt
  obtain ⟨-, hstall⟩ := hissue unheld rfl
  have hcount := exec_count.symm.trans (congrArg StallOfSome.heldCount (hstall unreleased stalled_ne))
  exact absurd (hcount.trans stated_count) (by decide)

end Sys2Proof.Machine
end

