-- ==== Sys2Proof/Proofs/SpanParts.lean ====
section
/-! PROOF. The parts and sheaves of a span, and what takes its place (O59). -/

namespace Sys2Proof.Machine

/-! ### O59: registers of the parts and sheaves of a span -/

/-- A form moved by n positions: its base is the value there. -/
def RegKind.shift (n : Int) : RegKind → RegKind
  | .f32 b s => .f32 (b + toW32 (int32 s * n)) s
  | .f64 b s => .f64 (b + toW64 (int32 s * n)) s
  | k => k

theorem toW32_int32 (x : W32) : toW32 (int32 x) = x := by
  apply BitVec.eq_of_toNat_eq
  have h := wrap_coe 32 (int32 x)
  rw [int32_emod, Int.emod_eq_of_lt (by omega) (by exact_mod_cast x.isLt)] at h
  rw [toNat_toW32]
  exact_mod_cast h

theorem toW32_int32_mul (s : W32) (n : Int) : toW32 (int32 s * n) = s * toW32 n := by
  rw [toW32_eq, toW32_eq, BitVec.ofInt_mul]
  congr 1
  rw [← toW32_eq]
  exact toW32_int32 s

theorem toW32_natCast (n : Nat) : toW32 (n : Int) = BitVec.ofNat 32 n := by
  rw [toW32_eq, BitVec.ofInt_natCast]

theorem formVal_eq (b s : W32) (p : Nat) : formVal b s p = b + toW32 (int32 s * p) := by
  rw [toW32_int32_mul, toW32_natCast]
  rfl

theorem toW32_add (x y : Int) : toW32 (x + y) = toW32 x + toW32 y := by simp only [toW32_eq, BitVec.ofInt_add]

theorem formVal_shift {b s : W32} {n : Int} {p q : Nat} (h : n + p = q) :
    formVal (b + toW32 (int32 s * n)) s p = formVal b s q := by
  rw [formVal_eq, formVal_eq, ← h, mul_add, toW32_add, BitVec.add_assoc]

theorem formVal64_shift {b : W64} {s : W32} {n : Int} {p q : Nat} (h : n + p = q) :
    formVal64 (b + toW64 (int32 s * n)) s p = formVal64 b s q := by
  unfold formVal64
  rw [← h, mul_add, toW64_add, BitVec.add_assoc]

theorem kind_rebaseI (n : Int) (c : RegCell) : (c.rebaseI n).kind = c.kind.shift n := by
  unfold RegCell.rebaseI
  split <;> simp_all [RegKind.shift]

theorem kind_rebase (n : Nat) (c : RegCell) : (c.rebase n).kind = c.kind.shift n := by
  unfold RegCell.rebase
  split
  next b s h => rw [h, formVal_eq]; rfl
  next b s h => rw [h]; rfl
  next h => simp_all [RegKind.shift]

theorem shift_noReg (n : Int) : noReg.kind.shift n = noReg.kind := by
  have hz : int32 (0 : W32) = 0 := by decide
  have hw : toW32 (0 : Int) = 0 := by decide
  show RegKind.f32 (0 + toW32 (int32 (0 : W32) * n)) 0 = .f32 0 0
  rw [hz, zero_mul, hw]
  rfl

theorem nth_map_kind {f : RegCell → RegCell} {n : Int} (hf : ∀ c, (f c).kind = c.kind.shift n) (l : List RegCell)
    (r : Nat) : (nth (l.map f) r noReg).kind = (nth l r noReg).kind.shift n := by
  unfold nth
  rw [List.getElem?_map]
  cases h : l[r]? with
  | none => simp [shift_noReg]
  | some c => simp [hf]

theorem cell_of_shift {g k : Grp} {f : RegCell → RegCell} {n : Int} (hf : ∀ c, (f c).kind = c.kind.shift n)
    (hk : k.regs = g.regs.map f) (r : Nat) : (k.cell r).kind = (g.cell r).kind.shift n := by
  unfold Grp.cell
  rw [hk, nth_map_kind hf]

/-- A group whose forms are another's, moved by n positions, holds at each position the value that stood n beyond. -/
theorem val_of_shift {g k : Grp} {n : Int} (hk : ∀ r, (k.cell r).kind = (g.cell r).kind.shift n)
    (he : ∀ r w vs, (g.cell r).kind ≠ .e w vs) {p q : Nat} (h : n + p = q) (r : Nat) : k.val r p = g.val r q := by
  unfold Grp.val
  rw [hk r, hk (r - 1)]
  cases hr : (g.cell r).kind with
  | f32 b s => exact formVal_shift h
  | f64 b s => exact congrArg lo64 (formVal64_shift h)
  | e w vs => exact absurd hr (he r w vs)
  | f64hi =>
    cases hr' : (g.cell (r - 1)).kind with
    | f64 b s => exact congrArg hi64 (formVal64_shift h)
    | f32 b s => rfl
    | f64hi => rfl
    | e w vs => rfl

theorem cell_ne_e {g : Grp} (he : ∀ c ∈ g.regs, ∀ w vs, c.kind ≠ .e w vs) (r : Nat) (w : Bool) (vs : List W32) :
    (g.cell r).kind ≠ .e w vs := by
  unfold Grp.cell nth
  cases h : g.regs[r]? with
  | none => simp [noReg, RegCell.uniform]
  | some c => exact he c (List.mem_of_getElem? h) w vs


/-! ### O59: the parts of a span -/

theorem filterMap_only {p : Nat → Bool} {l : List SqEntry} {q : SqEntry} (hq : q ∈ l.filterMap (SqEntry.only p)) :
    ∀ x ∈ q.elems, p x.idx = true := by
  obtain ⟨q', -, h⟩ := List.mem_filterMap.mp hq
  unfold SqEntry.only at h
  split at h
  next => exact absurd h (by simp)
  next es hes =>
    have hq : { q' with elems := q'.elems.filter fun x => p x.idx } = q := Option.some.inj h
    intro x hx
    rw [← hq] at hx
    exact (List.mem_filter.mp hx).2

/-- A span's predicates are cuts. -/
theorem pcell_ne_bits {g : Grp} (hs : g.span = true) (hb : ∀ c ∈ g.preds, ∀ b, c.kind ≠ .bits b) (q : Nat)
    (b : W32) : (g.pcell q).kind ≠ .bits b := by
  unfold Grp.pcell
  split
  next => simp
  next =>
    unfold nth
    cases h : g.preds[q]? with
    | none => simp
    | some c => exact hb c (List.mem_of_getElem? h) b

/-- The cut of a span's predicate. -/
theorem exists_pcut {g : Grp} (hs : g.span = true) (hb : ∀ c ∈ g.preds, ∀ b, c.kind ≠ .bits b) (q : Nat) :
    ∃ x, (g.pcell q).kind = .cut x := by
  cases h : (g.pcell q).kind with
  | cut x => exact ⟨x, rfl⟩
  | bits b => exact absurd h (pcell_ne_bits hs hb q b)

theorem pval_of_cut {g : Grp} {q : Nat} {x : Cut} (h : (g.pcell q).kind = .cut x) (p : Nat) :
    g.pval q p = x.at (g.lo + p) := by
  unfold Grp.pval
  rw [h]

theorem pcell_of_lt {g : Grp} {q : Nat} (hq : q ≠ 7) :
    g.pcell q = nth g.preds q { kind := .cut .allFalse, rel := 0 } :=
  if_neg hq

/-- A predicate of a part is the span's cut, as it stands between the part's ends. -/
theorem part_pcell {g : Grp} {gid lo hi q : Nat} {u : ISet} {x : Cut} (hs : g.span = true)
    (h : (g.pcell q).kind = .cut x) : ∃ y, ((g.part gid lo hi u).pcell q).kind = .cut y ∧
      ∀ i, lo ≤ i → i < hi → y.at i = x.at i := by
  by_cases hq : q = 7
  · subst hq
    have hx : Cut.allTrue = x := by
      have : (g.pcell 7).kind = .cut .allTrue := by simp [Grp.pcell, hs]
      simpa [this] using h
    exact ⟨.allTrue, by simp [Grp.pcell, Grp.part, hs], fun i _ _ => by rw [hx]⟩
  · rw [pcell_of_lt hq] at h ⊢
    unfold nth at h ⊢
    simp only [Grp.part, List.getElem?_map]
    cases hc : g.preds[q]? with
    | none =>
      rw [hc] at h
      have hx : Cut.allFalse = x := PredKind.cut.inj h
      exact ⟨.allFalse, rfl, fun i _ _ => by rw [hx]⟩
    | some c =>
      rw [hc] at h
      have hk : c.kind = .cut x := h
      exact ⟨x.norm lo hi, by simp [hk], fun i h1 h2 => norm_at x h1 h2⟩

theorem part_pval {g : Grp} {gid lo hi p : Nat} {u : ISet} (hs : g.span = true)
    (hb : ∀ c ∈ g.preds, ∀ b, c.kind ≠ .bits b) (hlo : g.lo ≤ lo) (hp : lo + p < hi) (q : Nat) :
    (g.part gid lo hi u).pval q p = g.pval q (lo - g.lo + p) := by
  obtain ⟨x, hx⟩ := exists_pcut hs hb q
  obtain ⟨y, hy, hat⟩ := part_pcell (gid := gid) (lo := lo) (hi := hi) (u := u) hs hx
  rw [pval_of_cut hx, pval_of_cut hy]
  show y.at (lo + p) = x.at (g.lo + (lo - g.lo + p))
  rw [hat _ (Nat.le_add_right lo p) hp]
  congr 1
  omega

theorem part_val {g : Grp} {gid lo hi : Nat} {u : ISet} (he : ∀ c ∈ g.regs, ∀ w vs, c.kind ≠ .e w vs)
    (p r : Nat) : (g.part gid lo hi u).val r p = g.val r (lo - g.lo + p) :=
  val_of_shift (cell_of_shift (kind_rebase _) rfl) (cell_ne_e he) (by push_cast; rfl) r

theorem part_lanes (g : Grp) (gid lo hi : Nat) (u : ISet) :
    (g.part gid lo hi u).lanes.map (fun x => (x.lane, x.stack, x.fpctl)) =
      g.lanes.map fun x => (x.lane, x.stack, x.fpctl) := by
  simp [Grp.part]

/-! ### O59: the sheaves of a span -/

theorem mem_windowLanes {g : Grp} {w l : Nat} :
    l ∈ g.windowLanes w ↔ l < 32 ∧ g.lo ≤ 32 * w + l ∧ 32 * w + l < g.hi := by
  simp [Grp.windowLanes, mem_upto]

/-- A register as a sheaf of the window takes it: its form moved, and released in the window's lanes where it was. -/
def RegCell.toSheaf (n : Int) (m : W32) (c : RegCell) : RegCell :=
  { c.rebaseI n with rel := if c.rel = 0 then 0 else m }

theorem sheaf_val {g : Grp} {gid w : Nat} {u : ISet} (he : ∀ c ∈ g.regs, ∀ v vs, c.kind ≠ .e v vs) {l : Nat}
    (hl : g.lo ≤ 32 * w + l) (r : Nat) : (g.sheaf gid w u).val r l = g.val r (32 * w + l - g.lo) :=
  val_of_shift (n := (32 * w : Int) - g.lo)
    (cell_of_shift (f := RegCell.toSheaf ((32 * w : Int) - g.lo) (maskOf (g.windowLanes w)))
      (fun c => kind_rebaseI _ c) rfl) (cell_ne_e he) (by omega) r

theorem sheaf_pval {g : Grp} {gid w : Nat} {u : ISet} (hs : g.span = true)
    (hb : ∀ c ∈ g.preds, ∀ b, c.kind ≠ .bits b) {l q : Nat} (hl : l ∈ g.windowLanes w) (hq : q < 7) :
    (g.sheaf gid w u).pval q l = g.pval q (32 * w + l - g.lo) := by
  obtain ⟨x, hx⟩ := exists_pcut hs hb q
  rw [pval_of_cut hx]
  obtain ⟨hl32, hlo, -⟩ := mem_windowLanes.mp hl
  have hidx : g.lo + (32 * w + l - g.lo) = 32 * w + l := by omega
  rw [hidx]
  rw [pcell_of_lt (by omega)] at hx
  unfold nth at hx
  unfold Grp.pval
  rw [pcell_of_lt (by omega)]
  unfold nth
  simp only [Grp.sheaf, List.getElem?_map]
  cases hc : g.preds[q]? with
  | none =>
    rw [hc] at hx
    have : Cut.allFalse = x := by simpa using hx
    rw [← this]
    rfl
  | some c =>
    rw [hc] at hx
    have hk : c.kind = .cut x := hx
    simp only [Option.map_some, Option.getD_some, hk, Bool.false_eq_true, if_false]
    rw [bit_maskOf hl32]
    simp [hl]

/-- A thread of a sheaf keeps the return stack and FPCTL that the span had for all. -/
theorem sheaf_lane {g : Grp} {gid w l : Nat} {u : ISet} (hne : g.lanes ≠ [])
    (h0 : ∀ x ∈ g.lanes, x.lane = 0) (hl : l ∈ g.windowLanes w) :
    ((g.sheaf gid w u).lane l).stack = (g.lane 0).stack ∧ ((g.sheaf gid w u).lane l).fpctl = (g.lane 0).fpctl := by
  obtain ⟨x, xs, hx⟩ : ∃ x xs, g.lanes = x :: xs := List.exists_cons_of_ne_nil hne
  have hx0 : x.lane = 0 := h0 x (by rw [hx]; exact List.mem_cons_self)
  have hspan : g.lane 0 = x := by simp [Grp.lane, hx, hx0]
  have hlane : ∀ y, (g.sheaf gid w u).lanes.find? (fun k => k.lane == l) = some y →
      y.stack = x.stack ∧ y.fpctl = x.fpctl := by
    intro y hy
    have hmem := List.mem_of_find?_eq_some hy
    simp only [Grp.sheaf, hx, List.mem_map] at hmem
    obtain ⟨k, -, rfl⟩ := hmem
    exact ⟨rfl, rfl⟩
  have hsome : ((g.sheaf gid w u).lanes.find? fun k => k.lane == l).isSome = true := by
    rw [List.find?_isSome]
    simp only [Grp.sheaf, hx, List.mem_map]
    exact ⟨_, ⟨l, hl, rfl⟩, by simp⟩
  obtain ⟨y, hy⟩ := Option.isSome_iff_exists.mp hsome
  have hsheaf : (g.sheaf gid w u).lane l = y := by
    show ((g.sheaf gid w u).lanes.find? fun k => k.lane == l).getD _ = y
    rw [hy]
    rfl
  rw [hspan, hsheaf]
  exact hlane y hy

/-! ### O59: what takes the place of the group -/

/-- A group but for whether it is held. -/
def Grp.placedHere (g : Grp) : Grp := { g with held := false }

theorem map_place (s : State) (l : Launch) (num core : Nat) (back : Nat → Bool → Nat) (gs : List Grp) :
    (s.place l num core back gs).map Grp.placedHere = gs.map Grp.placedHere := by
  unfold State.place
  dsimp only
  suffices h : ∀ acc : List Grp × List (Nat × Bool × Nat),
      ((gs.foldl (fun (acc : List Grp × List (Nat × Bool × Nat)) g =>
        let part := partOfWindow l num (g.lo / 32)
        let taken := ((acc.2.filter fun x => x.1 == part && x.2.1 == g.span).map fun x => x.2.2).foldl (· + ·) 0
        let h := decide (slotRoom g.span < s.slotsUsed core part g.span - back part g.span + taken + g.room)
        ({ g with held := h } :: acc.1, if h then acc.2 else (part, g.span, g.room) :: acc.2)) acc).1.reverse).map
          Grp.placedHere = acc.1.reverse.map Grp.placedHere ++ gs.map Grp.placedHere from by
    simpa using h ([], [])
  induction gs with
  | nil => intro acc; simp
  | cons g gs ih =>
    intro acc
    rw [List.foldl_cons, ih]
    simp [Grp.placedHere]

theorem map_holdNew (s : State) (e : Env) (gs : List Grp) :
    (s.holdNew e gs).map Grp.placedHere = gs.map Grp.placedHere := by
  unfold State.holdNew
  split
  next => exact map_place ..
  next => rfl

theorem length_holdNew (s : State) (e : Env) (gs : List Grp) : (s.holdNew e gs).length = gs.length := by
  simpa using congrArg List.length (map_holdNew s e gs)

theorem mem_windows {g : Grp} (h : g.lo < g.hi) (w : Nat) :
    w ∈ g.windows ↔ ∃ i, g.lo ≤ i ∧ i < g.hi ∧ i / 32 = w := by
  unfold Grp.windows
  rw [mem_upto]
  constructor
  · rintro ⟨h1, h2⟩
    exact ⟨max g.lo (32 * w), by omega, by omega, by omega⟩
  · rintro ⟨i, h1, h2, rfl⟩
    omega

theorem zip_upto_getElem? {α : Type} (l : List α) (i : Nat) (x : α) (h : l[i]? = some x) :
    ((upto 0 l.length).zip l)[i]? = some (i, x) := by
  have hi : i < l.length := (List.getElem?_eq_some_iff.mp h).1
  rw [List.getElem?_zip_eq_some]
  exact ⟨by simpa using getElem?_upto (lo := 0) hi, h⟩

/-- A split puts the two parts in the place of the span. -/
theorem splitSpan_places (s : State) (e : Env) (k : Nat) (below above : ISet) :
    ∃ gs, s.splitSpan e k below above = ({ s with nextId := s.nextId + 3 } : State).putGrps e.who gs ∧
      gs.map Grp.placedHere =
        [(e.grp.part (s.nextId + 1) e.grp.lo k (below.enter s.nextId .cut 0)).placedHere,
          (e.grp.part (s.nextId + 2) k e.grp.hi (above.enter s.nextId .cut 1)).placedHere] :=
  ⟨_, rfl, map_holdNew ..⟩

/-- An expansion puts the sheaves of the span's windows in its place. -/
theorem expandGrp_places (s : State) (e : Env) :
    ∃ gs, s.expandGrp e = ({ s with nextId := s.nextId + 1 + e.grp.windows.length } : State).putGrps e.who gs ∧
      gs.length = e.grp.windows.length ∧ ∀ i w, e.grp.windows[i]? = some w → (gs[i]?).map Grp.placedHere =
        some (e.grp.sheaf (s.nextId + 1 + i) w
          (e.unit.enter s.nextId .expansion w (decide (1 < e.grp.windows.length)))).placedHere := by
  refine ⟨_, rfl, by rw [length_holdNew]; simp, fun i w hw => ?_⟩
  rw [← List.getElem?_map, map_holdNew, List.getElem?_map, List.getElem?_map, zip_upto_getElem? _ _ _ hw]
  rfl

/-! ### O59: the pair rule (R46) -/

theorem splitsPair_single {e : Env} {sh : Shape} {d : Nat} (hd : sh.dsts = [d]) (hs : e.grp.span = true)
    (he : d % 2 = 0) (hf : e.grp.form32 (d + 1) = none) : e.splitsPair sh = true := by
  simp [Env.splitsPair, hd, hs, he, hf]

/-- A word that gives its one destination a result, or expands. -/
def PutsInto (word : State → Host.Outcome State Fault Refusal) (sh : Shape) (d : Nat) : Prop :=
  sh.dsts = [d] ∧ ∃ f : State → Env → Eff, (∀ s, word s = s.runWord (fun _ => sh) f) ∧
    ∀ s e, ∃ r : Option Res, f s e = e.put s d r

/-- Such a word expands where it would split a pair. -/
theorem PutsInto.splits {word : State → Host.Outcome State Fault Refusal} {sh : Shape} {d : Nat}
    (h : PutsInto word sh d) (s : State) (e : Env) (ha : s.env? s.turn = some e) (hz : s.hazard e sh = none)
    (hs : e.grp.span = true) (he : d % 2 = 0) (hf : e.grp.form32 (d + 1) = none) :
    word s = .next (s.expandGrp e) := by
  obtain ⟨hd, f, hw, hput⟩ := h
  obtain ⟨r, hr⟩ := hput (s.prepare e sh).1 (s.prepare e sh).2
  have hp : e.splitsPair sh = true := splitsPair_single hd hs he hf
  rw [hw]
  unfold State.runWord
  simp only [ha, hz, hr]
  cases r <;> simp [Env.put, hp]

theorem fr1_puts (op : Op2) (k d a : Nat) (ka : Bool) :
    PutsInto (fun s => s.fr1 op k d a ka false) (frShape d false a false none ka false) d :=
  ⟨rfl, _, fun _ => rfl, fun _ _ => ⟨_, rfl⟩⟩

theorem fr2_puts (op : Op2) (d a b : Nat) (ka kb bw : Bool) :
    PutsInto (fun s => s.fr2 op d a b ka kb false bw) (frShape d false a false (some (b, false)) ka kb) d :=
  ⟨rfl, _, fun _ => rfl, fun _ _ => ⟨_, rfl⟩⟩

theorem constWord_puts (d : Nat) (x : Int) : PutsInto (fun s => s.constWord d x) { dsts := [d] } d :=
  ⟨rfl, _, fun _ => rfl, fun _ _ => ⟨_, rfl⟩⟩

theorem xbase_puts (d a : RegN) (ka : Bool) :
    PutsInto (execXbase d a ka false) (frShape d.toNat false a.toNat false none ka false) d.toNat :=
  ⟨rfl, _, fun _ => rfl, fun _ _ => ⟨_, rfl⟩⟩

theorem mkform_puts (d a b : RegN) (ka kb : Bool) :
    PutsInto (execMkform d a b ka kb false) (frShape d.toNat false a.toNat false (some (b.toNat, false)) ka kb)
      d.toNat :=
  ⟨rfl, _, fun _ => rfl, fun _ _ => ⟨_, rfl⟩⟩

theorem fi_puts (op : Op2) (d a : Nat) (imm : BitVec 12) :
    PutsInto (fun s => s.fi op d a imm false) { dsts := [d], srcs := [a] } d := by
  unfold State.fi
  exact ⟨rfl, _, fun _ => rfl, fun _ _ => ⟨_, rfl⟩⟩

/-- Settles O59: the parts and sheaves of a span hold its forms moved to their own first thread, and a word that gives
its destination a result or expands does the latter where it would split a pair. -/
theorem spanPieces : Obligations.SpanPieces := by
  unfold Obligations.SpanPieces
  refine ⟨fun g gid u hs he hb => ⟨fun lo hi hlo hhi => ?_, fun w => ?_⟩, fun s e k below above => ?_,
    fun u n c kind many => ⟨rfl, rfl, rfl, rfl, rfl, rfl⟩, fun s shape f e e' t ha hz hf => ?_, ?_⟩
  · refine ⟨fun p hp => ⟨fun r => part_val he p r, fun q => part_pval hs hb hlo hp q⟩, part_lanes g gid lo hi u,
      rfl, rfl, hs, rfl, rfl, fun q hq x hx => ?_⟩
    simpa using filterMap_only hq x hx
  · refine ⟨fun l hl hlo hhi => ?_, rfl, rfl, rfl, fun v hv => ?_, fun q hq x hx => ?_⟩
    · have hmem : l ∈ g.windowLanes w := mem_windowLanes.mpr ⟨hl, hlo, hhi⟩
      exact ⟨sheaf_val he hlo, fun q hq => sheaf_pval hs hb hmem hq,
        fun ⟨hne, h0⟩ => sheaf_lane hne h0 hmem⟩
    · obtain rfl : v = { u with lanes := maskOf (g.windowLanes w) } := by simpa [Grp.sheaf] using hv
      rfl
    · simpa using filterMap_only hq x hx
  · exact ⟨splitSpan_places s e k below above, expandGrp_places s e, mem_windows⟩
  · constructor <;> intro hp <;> unfold State.runWord <;> simp only [ha, hz, hf, hp] <;> rfl
  · intro d a b ka kb imm im
    dsimp only
    exact ⟨(fr1_puts opAdd 0 _ _ ka).splits, (fr2_puts opAdd _ _ _ ka kb true).splits,
      (fr2_puts opSub _ _ _ ka kb true).splits, (fr2_puts opMul _ _ _ ka kb true).splits,
      (fr2_puts (opBits (· &&& ·)) _ _ _ ka kb true).splits, (fr2_puts opShl _ _ _ ka kb false).splits,
      (fr1_puts opNeg 0 _ _ ka).splits, (xbase_puts d a ka).splits, (mkform_puts d a b ka kb).splits,
      (constWord_puts _ _).splits, (constWord_puts _ _).splits, (constWord_puts _ _).splits,
      (fi_puts opAdd _ _ _).splits⟩

end Sys2Proof.Machine
end

