-- ==== Sys2Proof/Proofs/TrapEntry.lean ====
section
/-! PROOF. Trap entry: what is fetched, the handler's group, and an abandoned command (O57). -/

namespace Sys2Proof.Machine

/-! ### O57: what a fetch, a release and a queue's error leave -/

/-- A fetch changes what the dies have cached, the kept translations, and which free values are used up, and no more. -/
def FetchKeeps (s t : State) : Prop := t = { s with dies := t.dies, tlb := t.tlb, free := t.free }

theorem FetchKeeps.refl (s : State) : FetchKeeps s s := rfl

theorem FetchKeeps.trans {s t u : State} (h : FetchKeeps s t) (k : FetchKeeps t u) : FetchKeeps s u := by
  unfold FetchKeeps at *
  rw [k, h]

theorem FetchKeeps.fst {α : Type} {s t : State} {x : State × α} {a : α} (h : FetchKeeps s x.1) (e : x = (t, a)) :
    FetchKeeps s t := by
  rw [e] at h
  exact h

theorem FetchKeeps.onDie {s t : State} {d : Nat} {f : Die → Die} (h : FetchKeeps s t) : FetchKeeps s (t.onDie d f) :=
  h.trans rfl

theorem FetchKeeps.spend {s t : State} {n : Nat} (h : FetchKeeps s t) : FetchKeeps s (t.spend n) := h.trans rfl

theorem translate_keeps (s : State) (c : Ctx) (va : Nat) (need : Need) (n : Nat) :
    FetchKeeps s (s.translate c va need n).1 := by
  unfold State.translate
  extract_lets
  split <;> rfl

theorem scanOf_keeps (s : State) (d frame : Nat) (rd : Nat → Byte) : FetchKeeps s (s.scanOf d frame rd).1 := by
  unfold State.scanOf
  split <;> rfl

theorem fetchSeg_keeps (s : State) (c : Ctx) (d bid idx : Nat) (va : W64) :
    FetchKeeps s (s.fetchSeg c d bid idx va).1 := by
  unfold State.fetchSeg
  extract_lets v walked
  split
  · exact .refl s
  split
  · exact .refl s
  split
  · exact .refl s
  split
  next t x ht =>
    have hkt := (translate_keeps s c v .exec 1).fst ht
    split
    · exact hkt
    · exact hkt
    extract_lets line known here rd now keep
    clear_value line
    split
    · exact hkt
    split
    · exact hkt
    split
    next t2 r hr =>
      have hkr := hkt.trans ((scanOf_keeps t d _ rd).fst hr)
      split
      · exact hkr
      split
      · exact hkr
      cases line with
      | none => exact hkr.onDie
      | some l =>
        dsimp only
        split
        · exact hkr
        split
        · exact hkr.spend
        · exact hkr.onDie.spend.onDie

theorem takeFrame_mem (s : State) (b i : Nat) : (s.takeFrame b i).mem = s.mem := by
  unfold State.takeFrame
  split <;> rfl

theorem takeFrame_traps (s : State) (b i : Nat) : (s.takeFrame b i).traps = s.traps := by
  unfold State.takeFrame
  split <;> rfl

/-! ### O57: the handler's group -/

theorem pcell_rel_zero {g : Grp} (h : ∀ x ∈ g.preds, x.rel = 0) (p : Nat) : (g.pcell p).rel = 0 := by
  unfold Grp.pcell
  split
  · rfl
  · unfold nth
    cases hp : g.preds[p]? with
    | none => rfl
    | some c => exact h c (List.mem_of_getElem? hp)

/-- Undefined predicates change the predicates' values alone. -/
theorem pundef_preds (g : Grp) (p : Nat) (mask : W32) (n : Nat) (h : ∀ x ∈ g.preds, x.rel = 0) :
    ∃ ps : List PredCell, g.pundef p mask n = { g with preds := ps } ∧ ∀ x ∈ ps, x.rel = 0 := by
  have hset : ∀ k, ∀ x ∈ g.preds.set p { g.pcell p with kind := k }, x.rel = 0 := by
    intro k x hx
    rcases List.mem_or_eq_of_mem_set hx with hx | rfl
    · exact h x hx
    · exact pcell_rel_zero h p
  unfold Grp.pundef
  dsimp only
  split
  · exact ⟨_, rfl, hset _⟩
  · exact ⟨_, rfl, hset _⟩

theorem foldl_pundef_preds (l : List Nat) (mask : W32) (n : Nat) (g : Grp) (h : ∀ x ∈ g.preds, x.rel = 0) :
    ∃ ps : List PredCell, l.foldl (fun (g : Grp) p => g.pundef p mask (n + p)) g = { g with preds := ps } ∧
      ∀ x ∈ ps, x.rel = 0 := by
  induction l generalizing g with
  | nil => exact ⟨g.preds, rfl, h⟩
  | cons p l ih =>
    obtain ⟨ps, hp, h0⟩ := pundef_preds g p mask (n + p) h
    rw [List.foldl_cons, hp]
    exact ih _ h0

/-- The registers of a trap context's bank at entry. -/
def bankAtEntry (t : TrapReq) : List RegKind :=
  [.f32 (BitVec.ofNat 32 t.cause) 0, .f32 (BitVec.ofNat 32 t.count) 0, .f64 t.tdata 0, .f64hi, .f64 t.tpc 0, .f64hi]

/-- The handler's group but for its predicates. -/
theorem handlerGrp_eq (g : Grp) (u : ISet) (gid : Nat) (t : TrapReq) (pc : W64) (code : List W32) (fpctl : BitVec 3)
    (n : Nat) : ∃ ps : List PredCell, (∀ x ∈ ps, x.rel = 0) ∧ handlerGrp g u gid t pc code fpctl n =
      { g with
        gid := gid, regs := (upto 0 16).map (bankReg (bankAtEntry t) n)
        units := [{ ISet.start pc with lanes := u.lanes, code := code }]
        lanes := (lanesOf u.lanes).map fun l => ⟨l, [], fpctl, []⟩
        stq := [], held := false, preds := ps } := by
  obtain ⟨ps, hps, h0⟩ := foldl_pundef_preds (upto 0 7) u.lanes (n + 16)
    { g with
      gid := gid, regs := (upto 0 16).map (bankReg (bankAtEntry t) n)
      units := [{ ISet.start pc with lanes := u.lanes, code := code }]
      preds := g.preds.map fun p => { p with rel := 0 }
      lanes := (lanesOf u.lanes).map fun l => ⟨l, [], fpctl, []⟩
      stq := [], held := false }
    (by
      intro x hx
      obtain ⟨y, -, rfl⟩ := List.mem_map.mp hx
      rfl)
  exact ⟨ps, h0, hps⟩

theorem bankReg_rel (vals : List RegKind) (n i : Nat) : (bankReg vals n i).rel = 0 := by
  unfold bankReg
  split <;> rfl

/-! ### O57: the unit that an agent names -/

theorem find?_mapIf {α : Type} {q : α → Bool} {f : α → α} (hf : ∀ x, q (f x) = q x) (l : List α) :
    (mapIf q f l).find? q = (l.find? q).map f := by
  unfold mapIf
  induction l with
  | nil => rfl
  | cons a l ih =>
    rw [List.map_cons, List.find?_cons, List.find?_cons]
    cases ha : q a with
    | true => simp [hf, ha]
    | false => simpa [ha] using ih

theorem block?_onBlock (s : State) (n : Nat) {f : Block → Block} (hf : ∀ b, (f b).bid = b.bid) :
    (s.onBlock n f).block? n = (s.block? n).map f :=
  find?_mapIf (fun b => by rw [hf]) s.blocks

theorem cc?_onCc (s : State) (n : Nat) {f : CCore → CCore} (hf : ∀ k, (f k).num = k.num) :
    (s.onCc n f).cc? n = (s.cc? n).map f :=
  find?_mapIf (fun k => by rw [hf]) s.ccs

theorem unitAt_mapIf (g : Grp) (lane : Nat) {f : ISet → ISet} (hf : ∀ u, (f u).lanes = u.lanes) :
    ({ g with units := mapIf (fun u => bit u.lanes.toNat lane) f g.units } : Grp).unitAt lane =
      (g.unitAt lane).map f :=
  find?_mapIf (fun u => by rw [hf]) g.units

/-- What an agent finds of its unit, once that is changed. -/
theorem onUnit_kern_unit {s : State} {bid gid lane : Nat} {f : ISet → ISet} (hf : ∀ u, (f u).lanes = u.lanes) {k : Env}
    (h : (s.onUnit (.kern bid gid lane) f).env? (.kern bid gid lane) = some k) : ∃ u, k.unit = f u := by
  simp only [State.env?, State.onUnit, State.onGrp, Option.bind_eq_bind, Option.bind_eq_some_iff] at h
  obtain ⟨b, hb, l, -, g, hg, u, hu, hk⟩ := h
  have hku : k.unit = u := by
    split at hk
    · rw [← Option.some.inj hk]
      rfl
    · exact absurd hk (by simp)
  have hblock := block?_onBlock s bid
    (f := fun b => { b with
      groups := mapIf (fun x => x.gid == gid)
        (fun g => { g with units := mapIf (fun u => bit u.lanes.toNat lane) f g.units }) b.groups }) fun _ => rfl
  obtain ⟨b0, -, rfl⟩ := Option.map_eq_some_iff.mp (hblock.symm.trans hb)
  have hfind := find?_mapIf (q := fun x : Grp => x.gid == gid)
    (f := fun g => { g with units := mapIf (fun u => bit u.lanes.toNat lane) f g.units }) (fun _ => rfl) b0.groups
  obtain ⟨g0, -, rfl⟩ := Option.map_eq_some_iff.mp (hfind.symm.trans hg)
  obtain ⟨u0, -, rfl⟩ := Option.map_eq_some_iff.mp ((unitAt_mapIf g0 lane hf).symm.trans hu)
  exact ⟨u0, hku⟩

/-! ### O57: the trap's entry -/

/-- The handler's group at entry, with the queue entries of its threads. -/
def entryGrp (e : Env) (t : TrapReq) (gid : Nat) (c : Ctx) (ws : List W32) (n : Nat) : Grp :=
  { handlerGrp e.grp e.unit gid t c.trapv ws c.fpctlDef n with
    stq := e.grp.stq.filterMap (SqEntry.only fun i => e.members.any fun p => e.idx p == i) }

/-- The trap context at entry. -/
def entryCtx (e : Env) (t : TrapReq) (tid : Nat) (h : Grp) : TrapCtx :=
  { tid := tid, core := e.core, part := e.part, bid := e.bid, gid := e.grp.gid, lane := e.unit.low
    cause := t.cause, tdata := t.tdata, tidx := if e.solo then 0 else e.grp.lo + e.first
    tpc := t.tpc, entryTpc := t.tpc, word := t.word, groups := [h], ended := [] }

/-- A group without the queue entries of the trapping threads. -/
def leaveQueue (e : Env) (g : Grp) : Grp :=
  { g with stq := g.stq.filterMap (SqEntry.only fun i => !(e.members.any fun p => e.idx p == i)) }

theorem onGrp_kern_traps {s : State} {w : Who} {bid gid lane : Nat} (hw : w = .kern bid gid lane) (f : Grp → Grp) :
    (s.onGrp w f).traps = s.traps := by
  subst hw
  rfl

theorem onGrp_kern_mem {s : State} {w : Who} {bid gid lane : Nat} (hw : w = .kern bid gid lane) (f : Grp → Grp) :
    (s.onGrp w f).mem = s.mem := by
  subst hw
  rfl

/-- The state once the handler's words are there, in the state `k`. -/
def enteredBy (e : Env) (r : TrapReq) (c : Ctx) (ws : List W32) (k : State) : State :=
  let m := (k.fresh.2.fresh.2.spend 32).onGrp e.who (leaveQueue e)
  let tc := entryCtx e r k.nextId (entryGrp e r (k.nextId + 1) c ws k.free)
  match e.who with
  | .cc n => m.onCc n fun k => { k with trap := some tc }
  | _ => { m.onUnit e.who (fun u => { u with stat := .inTrap k.nextId }) with traps := m.traps ++ [tc] }

/-- A kernel group whose handler's segment is fetched enters its trap context. -/
theorem enterTrap_words {s t : State} {e : Env} {r : TrapReq} {bid gid lane : Nat} {c : Ctx} {ws : List W32}
    (hw : e.who = .kern bid gid lane) (hc : e.ctx = some c)
    (hf : s.fetchSeg c e.die e.bid (e.idx e.first) c.trapv = (t, .words ws)) :
    ∃ (m : State) (id n : Nat), m.mem = s.mem ∧ m.traps = s.traps ∧
      s.enterTrap e r = { m.onUnit e.who (fun u => { u with stat := .inTrap id }) with
        traps := m.traps ++ [entryCtx e r id (entryGrp e r (id + 1) c ws n)] } := by
  have hkeep : t = { s with dies := t.dies, tlb := t.tlb, free := t.free } :=
    (fetchSeg_keeps s c e.die e.bid (e.idx e.first) c.trapv).fst hf
  obtain ⟨k, hk⟩ : ∃ k, t.takeFrame e.bid (e.idx e.first) = k := ⟨_, rfl⟩
  have hmem : k.mem = s.mem := by rw [← hk, takeFrame_mem, hkeep]
  have htraps : k.traps = s.traps := by rw [← hk, takeFrame_traps, hkeep]
  refine ⟨(k.fresh.2.fresh.2.spend 32).onGrp e.who (leaveQueue e), k.nextId, k.free,
    (onGrp_kern_mem hw _).trans hmem, (onGrp_kern_traps hw _).trans htraps, ?_⟩
  have hrun : s.enterTrap e r = enteredBy e r c ws k := by
    unfold State.enterTrap enteredBy
    simp only [hc, hf, hk]
    rfl
  rw [hrun]
  unfold enteredBy
  split
  next n hn =>
    rw [hw] at hn
    exact absurd hn (by simp)
  next => rfl

/-- What the statement says of a handler's group at entry. -/
theorem entryGrp_spec (e : Env) (t : TrapReq) (gid : Nat) (c : Ctx) (ws : List W32) (n : Nat) :
    let h := entryGrp e t gid c ws n
    h.units = [{ ISet.start c.trapv with lanes := e.unit.lanes, code := ws }] ∧
    h.lo = e.grp.lo ∧ h.hi = e.grp.hi ∧ h.span = e.grp.span ∧
    h.regs = (upto 0 16).map (bankReg (bankAtEntry t) n) ∧ (∀ x ∈ h.preds, x.rel = 0) ∧
    ∀ x ∈ h.lanes, x.stack = [] ∧ x.fpctl = c.fpctlDef := by
  obtain ⟨ps, hps, heq⟩ := handlerGrp_eq e.grp e.unit gid t c.trapv ws c.fpctlDef n
  have hlanes : ∀ x ∈ (lanesOf e.unit.lanes).map fun l => (⟨l, [], c.fpctlDef, []⟩ : LaneSt),
      x.stack = [] ∧ x.fpctl = c.fpctlDef := by
    intro x hx
    obtain ⟨l, -, rfl⟩ := List.mem_map.mp hx
    exact ⟨rfl, rfl⟩
  intro h
  simp only [h, entryGrp, heq]
  exact ⟨trivial, trivial, trivial, trivial, trivial, hps, hlanes⟩

/-! ### O57: an abandoned command -/

theorem find?_replaced {α : Type} {p : α → Bool} {a : α} (ha : p a = true) :
    ∀ l : List α, l.any p = true → (mapIf p (fun _ => a) l).find? p = some a
  | [], h => absurd h (by simp)
  | x :: l, h => by
    rw [mapIf, List.map_cons, List.find?_cons]
    cases hx : p x with
    | true => simp [ha]
    | false =>
      simp only [Bool.false_eq_true, if_false, hx]
      exact find?_replaced ha l (by simpa [hx] using h)

theorem find?_inserted {α : Type} {p : α → Bool} {key : α → Nat} {a : α} (ha : p a = true) :
    ∀ l : List α, l.any p = false → (insKey key a l).find? p = some a
  | [], _ => by simp [insKey, ha]
  | x :: l, h => by
    rw [List.any_cons, Bool.or_eq_false_iff] at h
    unfold insKey
    split
    · simp [ha]
    · rw [List.find?_cons, h.1]
      exact find?_inserted ha l h.2

theorem setQueue_queue (s : State) (q : QReg) : (s.setQueue q).queue q.num = q := by
  have hq : (q.num == q.num) = true := beq_self_eq_true q.num
  unfold State.setQueue State.queue
  split
  next h => exact congrArg (Option.getD · _) (find?_replaced (p := fun x : QReg => x.num == q.num) hq _ h)
  next h =>
    exact congrArg (Option.getD · _)
      (find?_inserted (p := fun x : QReg => x.num == q.num) hq _ (Bool.eq_false_iff.mpr h))

theorem queue_num (s : State) (n : Nat) : (s.queue n).num = n := by
  unfold State.queue
  cases h : s.queues.find? (fun x => x.num == n) with
  | none => rfl
  | some q => simpa using List.find?_some h

/-- A queue after an error. -/
theorem queueError_queue (s : State) (q code : Nat) :
    (s.queueError q code).queue q = { s.queue q with qerr := BitVec.ofNat 4 code, enable := false, recs := [] } := by
  have h := setQueue_queue s { s.queue q with qerr := BitVec.ofNat 4 code, enable := false, recs := [] }
  rwa [show ({ s.queue q with qerr := BitVec.ofNat 4 code, enable := false, recs := [] } : QReg).num = q from
    queue_num s q] at h

theorem queueError_atoms (s : State) (q code : Nat) : (s.queueError q code).atoms = s.atoms := by
  unfold State.queueError State.setQueue
  split <;> rfl

theorem queueError_ccs (s : State) (q code : Nat) : (s.queueError q code).ccs = s.ccs := by
  unfold State.queueError State.setQueue
  split <;> rfl

/-- A control core's thread with its command abandoned. -/
def CCore.abandoned (k : CCore) : CCore :=
  { k with
    cmd := none, trap := none, halted := false
    grp := { k.grp with
      units := [ISet.start 0], stq := k.grp.stq ++ ((k.trap.map (·.groups)).getD []).flatMap (·.stq) } }

theorem abandon_eq {s : State} {c : Nat} {k : CCore} {m : Cmd} (hk : s.cc? c = some k) (hm : k.cmd = some m) :
    s.abandon c = ({ s.queueError m.queue 5 with
      atoms := (s.queueError m.queue 5).atoms.filter fun a => !(a.bid == 0 && a.idx == c)
      fabric := (s.queueError m.queue 5).fabric.filter fun f => f.write || !(f.bid == 0 && f.idx == c) } : State).onCc c
        CCore.abandoned := by
  unfold State.abandon
  simp only [hk, hm]
  rfl

/-! ### O57: which way a trap goes -/

theorem whole_traps {s : State} {e : Env} {bid gid lane : Nat} (hw : e.who = .kern bid gid lane) :
    (s.whole e).traps = s.traps := by
  unfold State.whole
  split
  · exact onGrp_kern_traps hw _
  · rfl

theorem onGrp_atoms (s : State) (w : Who) (f : Grp → Grp) : (s.onGrp w f).atoms = s.atoms := by
  cases w <;> rfl

theorem whole_atoms (s : State) (e : Env) : (s.whole e).atoms = s.atoms := by
  unfold State.whole
  split
  · exact onGrp_atoms ..
  · rfl

/-- A trap of a kernel group has to wait: its trap context is in use, an earlier trap waits for it, or the group's atomics
are still to land. -/
def State.trapWaits (s : State) (e : Env) : Bool :=
  s.traps.any (fun x => x.core == e.core && x.part == e.part) || !(s.trapQueue e.core e.part).isEmpty || s.landing e

theorem trapWaits_iff {s : State} {e : Env} {bid gid lane : Nat} (hw : e.who = .kern bid gid lane) :
    (s.whole e).trapWaits e = true ↔ (∃ x ∈ s.traps, x.core = e.core ∧ x.part = e.part) ∨
      (s.whole e).trapQueue e.core e.part ≠ [] ∨ ∃ a ∈ s.atoms, a.bid = e.bid ∧ ∃ p ∈ e.members, e.idx p = a.idx := by
  unfold State.trapWaits State.landing
  rw [whole_traps hw, whole_atoms]
  simp [or_assoc]

theorem raise_kern {s : State} {e : Env} {t : TrapReq} {bid gid lane : Nat} (hw : e.who = .kern bid gid lane) :
    s.raise e t = if (s.whole e).trapWaits e then
        ((s.whole e).onGrp e.who fun g => g.landed e.unit).onUnit e.who fun u => { u with stat := .trapHeld t }
      else ((s.whole e).onGrp e.who fun g => g.landed e.unit).enterTrap { e with grp := e.grp.landed e.unit } t := by
  unfold State.raise State.trapWaits
  split
  next => rfl
  all_goals
    next h =>
      rw [hw] at h
      exact absurd h (by simp)

theorem enterTrap_later {s t : State} {e : Env} {r : TrapReq} {c : Ctx} (hc : e.ctx = some c)
    (hf : s.fetchSeg c e.die e.bid (e.idx e.first) c.trapv = (t, .later)) :
    s.enterTrap e r = t.onUnit e.who fun u => { u with stat := .trapHeld r } := by
  unfold State.enterTrap
  simp only [hc, hf]

theorem enterTrap_target {s t : State} {e : Env} {r : TrapReq} {c : Ctx} (hc : e.ctx = some c)
    (hf : s.fetchSeg c e.die e.bid (e.idx e.first) c.trapv = (t, .target)) :
    (e.solo = false → s.enterTrap e r = t.groupFault e 7 0 0 r.word.toNat c.trapv.toNat) ∧
      ∀ n, e.who = .cc n → s.enterTrap e r = t.abandon n := by
  unfold State.enterTrap
  simp only [hc, hf]
  constructor
  · intro hs
    split
    next n hn => exact absurd hs (by simp [Env.solo, hn])
    next => rfl
  · intro n hn
    rw [hn]

/-- Settles O57: a trap is held or enters by the cases of `raise`, and what an entry makes is read off it. -/
theorem trapEntrySaves : Obligations.TrapEntrySaves := by
  unfold Obligations.TrapEntrySaves
  refine ⟨?_, ?_, ?_, ?_, ?_⟩
  · intro s e cause n tdata bid gid lane hw
    dsimp only
    refine ⟨fun h => ?_, fun h => ?_⟩
    · exact (raise_kern hw).trans (if_pos ((trapWaits_iff hw).mpr h))
    · exact (raise_kern hw).trans (if_neg fun hn => h ((trapWaits_iff hw).mp hn))
  · intro s t e r bid gid lane c ws hw hc hf
    obtain ⟨m, id, n, hmem, htraps, hrun⟩ := enterTrap_words (r := r) hw hc hf
    have hspec := entryGrp_spec e r (id + 1) c ws n
    obtain ⟨hunits, hlo, hhi, hspan, hregs, hpreds, hlanes⟩ := hspec
    have hcell : ∀ i, i < 16 → (entryGrp e r (id + 1) c ws n).cell i = bankReg (bankAtEntry r) n i := by
      intro i hi
      unfold Grp.cell
      rw [hregs, nth_map_upto0 hi]
    have htidx : (entryCtx e r id (entryGrp e r (id + 1) c ws n)).tidx = e.grp.lo + e.first := by
      simp [entryCtx, Env.solo, hw]
    refine ⟨entryCtx e r id (entryGrp e r (id + 1) c ws n), entryGrp e r (id + 1) c ws n, _, ?_, ?_, rfl, hunits, rfl, rfl,
      rfl, rfl, rfl, rfl, rfl, rfl, rfl, rfl, htidx, rfl, hlo, hhi, hspan, by rw [hregs]; rfl, hcell 0 (by decide),
      hcell 1 (by decide), hcell 2 (by decide), hcell 3 (by decide), hcell 4 (by decide), hcell 5 (by decide), ?_, hpreds,
      hlanes, ?_⟩
    · rw [hrun, htraps]
    · rw [hrun, hw]
      exact hmem
    · rw [hregs]
      intro x hx
      obtain ⟨i, -, rfl⟩ := List.mem_map.mp hx
      exact bankReg_rel ..
    · rw [hrun, hw]
      intro k hk
      obtain ⟨u, hu⟩ := onUnit_kern_unit (f := fun u => { u with stat := .inTrap id }) (fun _ => rfl) (s := m)
        (bid := bid) (gid := gid) (lane := lane) hk
      rw [hu]
      rfl
  · exact fun s t e r c hc => ⟨enterTrap_later hc, enterTrap_target hc⟩
  · intro s e cause n tdata
    refine ⟨fun tid gid lane hw => ?_, fun c hw => ?_⟩ <;> simp only [State.trapWord, State.raise, hw] <;>
      simp only [State.whole, hw]
  · intro s k m hk hm t
    obtain ⟨u, hu⟩ : ∃ u, s.queueError m.queue 5 = u := ⟨_, rfl⟩
    have ht : t = _ := abandon_eq hk hm
    rw [ht, hu]
    refine ⟨?_, ?_, k.abandoned, ?_, rfl, rfl, rfl, ?_⟩
    · intro a ha
      simpa [imp_iff_not_or] using (List.mem_filter.mp ha).2
    · show u.queue m.queue = _
      rw [← hu, queueError_queue]
      rfl
    · refine (cc?_onCc (f := CCore.abandoned) _ k.num fun _ => rfl).trans ?_
      have hccs : u.ccs = s.ccs := by rw [← hu, queueError_ccs]
      show Option.map CCore.abandoned (u.ccs.find? fun x => x.num == k.num) = _
      rw [hccs]
      exact congrArg (Option.map CCore.abandoned) hk
    · cases hx : k.trap <;> simp [CCore.abandoned, hx]

end Sys2Proof.Machine
end

