-- ==== Sys2Proof/Proofs/LoadedBytes.lean ====
section
/-! PROOF. Where the bytes of a load come from (O30). -/

namespace Sys2Proof.Machine

/-! ### O30: where a loaded byte comes from -/

/-- A load's byte is the youngest of the thread's own queued stores of it, or its byte without the queue. -/
theorem readElem_byte (s : State) (e : Env) (x : Elem) {n i : Nat} (skip : Bool) (hi : i < n) {v : Byte}
    (hlen : (s.readBase e x n skip)[i]? = some v) :
    nth (s.readElem e x n skip) i 0 = (e.grp.forward (e.idx x.pos) (x.loc.add i)).getD v := by
  unfold State.readElem
  dsimp only
  split
  next h =>
    have hq : e.grp.stq = [] := List.isEmpty_iff.mp h
    have hf : e.grp.forward (e.idx x.pos) (x.loc.add i) = none := by
      unfold Grp.forward Grp.forwardOf
      rw [hq]
      rfl
    rw [hf]
    simp [nth, hlen]
  next =>
    have hz : ((upto 0 n).zip (s.readBase e x n skip))[i]? = some (i, v) := by
      rw [List.getElem?_zip_eq_some]
      exact ⟨by simpa using getElem?_upto (lo := 0) hi, hlen⟩
    unfold nth
    rw [List.getElem?_map, hz]
    rfl

theorem readBase_pa {s : State} {e : Env} {x : Elem} {n i a : Nat} {skip : Bool} (hi : i < n) (ha : x.loc = .pa a)
    (ho : s.overlays e x = []) (hsh : e.sharedAt x = false) (hf : isFabric (a + i) = false) :
    (s.readBase e x n skip)[i]? = some (s.coreByte e.core e.die (a + i) skip) := by
  unfold State.readBase
  simp only [ha, ho, hsh, Bool.false_and, Bool.false_eq_true, if_false]
  rw [List.getElem?_map, getElem?_upto hi]
  simp [hf]

theorem readN_getElem? (m : Memory) {a n i : Nat} (hi : i < n) : (m.readN a n)[i]? = some (m.read (a + i)) := by
  rw [Memory.readN_eq, List.getElem?_map, getElem?_upto hi]
  rfl

theorem readBase_spad {s : State} {e : Env} {x : Elem} {n i o : Nat} {skip : Bool} {b : Block} (hi : i < n)
    (ho : x.loc = .spad o) (hb : s.block? e.bid = some b) :
    (s.readBase e x n skip)[i]? = some (b.spad.read (o + i)) := by
  unfold State.readBase
  simp only [ho, State.homeLoc, hb]
  exact readN_getElem? _ hi

theorem readBase_priv {s : State} {e : Env} {x : Elem} {n i k o : Nat} {skip : Bool} {b : Block} (hi : i < n)
    (ho : x.loc = .priv k o) (hb : s.block? e.bid = some b) :
    (s.readBase e x n skip)[i]? = some ((b.privOf k).read (o + i)) := by
  unfold State.readBase
  simp only [ho, State.homeLoc, hb]
  exact readN_getElem? _ hi

/-- Settles O30: the queue is looked through first, and `coreByte` goes on in the order of R116. -/
theorem loadedBytes : Obligations.LoadedBytes := by
  unfold Obligations.LoadedBytes
  constructor
  · intro s e y n i skip hi
    refine ⟨fun a ha ho hsh hf => ?_, fun b o ho hb => ?_, fun b k o ho hb => ?_⟩
    · exact readElem_byte s e y skip hi (readBase_pa hi ha ho hsh hf)
    · exact readElem_byte s e y skip hi (readBase_spad hi ho hb)
    · exact readElem_byte s e y skip hi (readBase_priv hi ho hb)
  · intro s core die a skip
    refine ⟨fun v hv => ?_, fun v hn hl => ?_, fun v hn hc hd => ?_, fun hn hc hd => ?_⟩
    · simp [State.coreByte, hv]
    · simp [State.coreByte, hn, hl]
    · rcases hc with rfl | hc <;> simp [State.coreByte, State.dieByte, hn, hd]
      simp [hc]
    · rcases hc with rfl | hc <;> simp [State.coreByte, State.dieByte, hn, hd]
      simp [hc]

end Sys2Proof.Machine
end

