-- ==== Sys2Proof/Proofs/AccessChecks.lean ====
section
/-! PROOF. The checks of an access, the page-table walk and what a leaf grants (O29). -/

namespace Sys2Proof.Machine

/-! ### O29: the elements that the checks give -/

/-- An element as its window places it. -/
def Elem.Placed (e : Env) (y : Elem) : Prop :=
  (∀ o, vwin y.va = .spad o → y.loc = .spad o) ∧ (∀ o, vwin y.va = .priv o → y.loc = .priv (e.idx y.pos) o) ∧
    (vwin y.va = .global → ∃ a, y.loc = .pa a)

/-- What the translation of some elements keeps: while nothing has failed, each has its element. -/
def Walked.Tracks (e : Env) (va : Nat → Nat) (ps : List Nat) (w : Walked) : Prop :=
  w.later = false → w.fails = [] → w.chip = [] →
    w.els.map (·.pos) = ps ∧ ∀ y ∈ w.els, y.va = va y.pos ∧ y.Placed e

theorem Walked.tracks_add {e : Env} {va : Nat → Nat} {ps : List Nat} {w w' : Walked} {y : Elem} {p : Nat}
    (h : w.Tracks e va ps) (hl : w'.later = w.later) (hf : w'.fails = w.fails) (hc : w'.chip = w.chip)
    (he : w'.els = w.els ++ [y]) (hp : y.pos = p) (hva : y.va = va p) (hy : y.Placed e) :
    w'.Tracks e va (ps ++ [p]) := by
  intro h1 h2 h3
  obtain ⟨hpos, hels⟩ := h (hl ▸ h1) (hf ▸ h2) (hc ▸ h3)
  rw [he]
  refine ⟨by rw [List.map_append, hpos]; simp [hp], fun x hx => ?_⟩
  rcases List.mem_append.mp hx with hx | hx
  · exact hels x hx
  · obtain rfl := List.mem_singleton.mp hx
    exact ⟨by rw [hva, hp], hy⟩

theorem Walked.tracks_one {e : Env} {c : Option Ctx} {need : Need} {n : Nat} {va : Nat → Nat} {ps : List Nat}
    {w : Walked} (h : w.Tracks e va ps) (p : Nat) : (Walked.one e c need n w p (va p)).Tracks e va (ps ++ [p]) := by
  have hwalk : ∀ {a : Nat} {x : Bool}, (∀ o, vwin (va p) ≠ .spad o) → (∀ o, vwin (va p) ≠ .priv o) →
      (⟨p, va p, .pa a, x⟩ : Elem).Placed e := fun h1 h2 =>
    ⟨fun o ho => absurd ho (h1 o), fun o ho => absurd ho (h2 o), fun _ => ⟨_, rfl⟩⟩
  unfold Walked.one
  dsimp only
  split
  next o ho =>
    refine tracks_add h rfl rfl rfl rfl rfl rfl ⟨fun o' ho' => ?_, fun o' ho' => ?_, fun hg => ?_⟩ <;> simp_all
  next o ho =>
    refine tracks_add h rfl rfl rfl rfl rfl rfl ⟨fun o' ho' => ?_, fun o' ho' => ?_, fun hg => ?_⟩ <;> simp_all
  next h1 h2 =>
    cases c with
    | none => exact fun _ hf _ => absurd hf (by simp)
    | some c =>
      dsimp only
      split
      · exact fun hl => absurd hl (by simp)
      split
      · exact fun _ hf _ => absurd hf (by simp)
      · split
        · split
          · exact fun _ _ hc => absurd hc (by simp)
          · exact tracks_add h rfl rfl rfl rfl rfl rfl (hwalk h1 h2)
        · exact tracks_add h rfl rfl rfl rfl rfl rfl (hwalk h1 h2)

theorem Walked.tracks_foldl {e : Env} {c : Option Ctx} {need : Need} {n : Nat} {va : Nat → Nat} (l ps : List Nat)
    {w : Walked} (h : w.Tracks e va ps) :
    (l.foldl (fun w p => Walked.one e c need n w p (va p)) w).Tracks e va (ps ++ l) := by
  induction l generalizing w ps with
  | nil => simpa using h
  | cons p l ih =>
    rw [List.foldl_cons, ← List.singleton_append, ← List.append_assoc]
    exact ih _ (tracks_one h p)

/-- The threads that a check stops, in the checks' order. -/
theorem checks_cases (s : State) (e : Env) (a : Ask) (ps : List Nat) (va : Nat → Nat) :
    let mis := ps.filter fun p => va p % a.align ≠ 0
    let out := ps.filter fun p => !addrOk e.spadLen e.privLen (va p) a.n a.write
    let own (l : Launch) : List Nat := ps.filter fun p => vwin (va p) == .global && l.ownFault e.num (va p)
    (∀ p r, mis = p :: r → s.checks e a ps va = .bad (.trap 7 (BitVec.ofNat 64 (va p)) mis.length)) ∧
    (∀ p r, mis = [] → out = p :: r → s.checks e a ps va = .bad (.trap 8 (BitVec.ofNat 64 (va p)) out.length)) ∧
    (∀ l p r, mis = [] → out = [] → e.launch = some l → a.write = true → own l = p :: r →
      s.checks e a ps va = .bad (.fault s 8 0 a.acc (BitVec.ofNat 64 (va p)) (own l))) := by
  intro mis out own
  refine ⟨fun p r hm => ?_, fun p r hm ho => ?_, fun l p r hm ho hl hw hown => ?_⟩
  · have hm' : ps.filter (fun p => va p % a.align ≠ 0) = p :: r := hm
    simp only [mis]
    unfold State.checks
    simp only [hm']
    rfl
  · have hm' : ps.filter (fun p => va p % a.align ≠ 0) = [] := hm
    have ho' : ps.filter (fun p => !addrOk e.spadLen e.privLen (va p) a.n a.write) = p :: r := ho
    simp only [out]
    unfold State.checks
    simp only [hm', ho']
    rfl
  · have hm' : ps.filter (fun p => va p % a.align ≠ 0) = [] := hm
    have ho' : ps.filter (fun p => !addrOk e.spadLen e.privLen (va p) a.n true) = [] := by
      rw [← hw]
      exact ho
    have hown' : ps.filter (fun p => vwin (va p) == .global && l.ownFault e.num (va p)) = p :: r := hown
    simp only [own]
    unfold State.checks
    simp only [hm', ho', hl, hw, hown']
    rfl

theorem eq_nil_of_isEmpty {α : Type} {l : List α} (h : ¬(!l.isEmpty) = true) : l = [] := by
  cases l with
  | nil => rfl
  | cons x l => exact absurd rfl h

/-- Checks that let an access pass give each of its threads an element. -/
theorem checks_ok {s t : State} {e : Env} {a : Ask} {ps : List Nat} {va : Nat → Nat} {els : List Elem}
    (h : s.checks e a ps va = .ok t els) :
    (ps.filter fun p => va p % a.align ≠ 0) = [] ∧
    (ps.filter fun p => !addrOk e.spadLen e.privLen (va p) a.n a.write) = [] ∧ els.map (·.pos) = ps ∧
      ∀ y ∈ els, y.va = va y.pos ∧ y.Placed e := by
  have htrack : (ps.foldl (fun w p => Walked.one e e.ctx a.need a.n w p (va p)) ⟨s, [], [], [], false⟩).Tracks e va
      ([] ++ ps) := Walked.tracks_foldl ps [] fun _ _ _ => ⟨rfl, fun y hy => absurd hy (by simp)⟩
  rw [List.nil_append] at htrack
  unfold State.checks at h
  extract_lets lost mis out own w at h
  have hw : w.Tracks e va ps := htrack
  clear_value own w
  split at h
  · exact absurd h (by simp [lost])
  next hm =>
    split at h
    · exact absurd h (by simp [lost])
    next ho =>
      split at h
      · exact absurd h (by simp)
      split at h
      · exact absurd h (by simp)
      next hl =>
        split at h
        · exact absurd h (by simp)
        next hf =>
          split at h
          · exact absurd h (by simp)
          next hc =>
            split at h
            · obtain ⟨-, rfl⟩ := Checked.ok.inj h
              obtain ⟨hpos, hels⟩ := hw (by simpa using hl) hf (by simpa using hc)
              exact ⟨eq_nil_of_isEmpty hm, eq_nil_of_isEmpty ho, hpos, hels⟩
            · exact absurd h (by simp)

/-! ### O29: the walk -/

theorem bit_iff (x n : Nat) : bit x n = true ↔ x / 2 ^ n % 2 = 1 := by simp [bit]

theorem bit_false_iff (x n : Nat) : bit x n = false ↔ x / 2 ^ n % 2 = 0 := by
  rw [← Bool.not_eq_true, bit_iff]
  omega

/-- The step to the entry of level n at an address: the partition's own memory is read, and no other. -/
def walkDown (s : State) (part va at' n : Nat) : List (Nat × Nat) × Xl :=
  if s.paOk part at' then
    ((n, s.homeNat at' 8) :: (walkFrom s part va n (s.homeNat at' 8)).1, (walkFrom s part va n (s.homeNat at' 8)).2)
  else ([], .fault 4 (if n = 0 then 5 else n))

theorem walk_eq (s : State) (part root va : Nat) :
    walk s part root va = walkDown s part va (root + 8 * (va / 2 ^ 55 % 4)) 4 := by
  have hix : va / 2 ^ 55 % 4 = ptIndex va 4 := rfl
  rw [hix]
  unfold walk walkDown State.entryOk
  cases s.paOk part (root + 8 * ptIndex va 4) <;> rfl

theorem walkFrom_zero (s : State) (part va e : Nat) :
    walkFrom s part va 0 e = if !bit e 0 then ([], .fault 1 5)
      else if bits e 63 52 ≠ 0 ∨ bit e 1 ∨ bit e 6 ∨ ptAddr e % 2 ^ 12 ≠ 0 then ([], .fault 2 5)
      else ([], .leaf e (ptAddr e + bits va 11 0) 5) := rfl

theorem walkFrom_succ (s : State) (part va e n : Nat) :
    walkFrom s part va (n + 1) e = if !bit e 0 then ([], .fault 1 (n + 1))
      else if bits e 63 52 ≠ 0 then ([], .fault 2 (n + 1))
      else if bit e 1 && decide (2 ≤ n + 1) then
        if bits e 6 2 ≠ 0 ∨ ptAddr e % 2 ^ 16 ≠ 0 then ([], .fault 2 (n + 1))
        else walkDown s part va (ptAddr e + 8 * ptIndex va n) n
      else if 3 ≤ n + 1 then ([], .fault 2 (n + 1))
      else if n + 1 = 2 then
        if bit e 6 ∨ ptAddr e % 2 ^ 29 ≠ 0 then ([], .fault 2 2) else ([], .leaf e (ptAddr e + bits va 28 0) 2)
      else if !bit e 1 then
        if ptAddr e % 2 ^ 16 ≠ 0 then ([], .fault 2 1) else ([], .leaf e (ptAddr e + bits va 15 0) 1)
      else if bits e 6 2 ≠ 0 then ([], .fault 2 1)
      else walkDown s part va (ptAddr e + 8 * ptIndex va n) n := by
  have hdown : walkDown s part va (ptAddr e + 8 * ptIndex va n) n =
      if !s.entryOk part (ptAddr e + 8 * ptIndex va n) then ([], .fault 4 (levelCode n))
      else ((n, s.homeNat (ptAddr e + 8 * ptIndex va n) 8) ::
          (walkFrom s part va n (s.homeNat (ptAddr e + 8 * ptIndex va n) 8)).1,
        (walkFrom s part va n (s.homeNat (ptAddr e + 8 * ptIndex va n) 8)).2) := by
    unfold walkDown State.entryOk levelCode
    cases s.paOk part (ptAddr e + 8 * ptIndex va n) <;> rfl
  rw [hdown]
  rfl

theorem bits_low (x hi : Nat) : bits x hi 0 = x % 2 ^ (hi + 1) := by simp [bits]

section
variable (s : State) (part va : Nat) {e : Nat}

theorem walkFrom_invalid (h : e % 2 = 0) (lev : Nat) :
    walkFrom s part va 0 e = ([], .fault 1 5) ∧ (1 ≤ lev → walkFrom s part va lev e = ([], .fault 1 lev)) := by
  have hb : bit e 0 = false := by simpa [bit_false_iff] using h
  refine ⟨by simp [walkFrom_zero, hb], fun hl => ?_⟩
  obtain ⟨n, rfl⟩ : ∃ n, lev = n + 1 := ⟨lev - 1, by omega⟩
  simp [walkFrom_succ, hb]

theorem walkFrom_reserved (h : e % 2 = 1) (hr : bits e 63 52 ≠ 0) (lev : Nat) :
    walkFrom s part va 0 e = ([], .fault 2 5) ∧ (1 ≤ lev → walkFrom s part va lev e = ([], .fault 2 lev)) := by
  have hb : bit e 0 = true := by simpa [bit_iff] using h
  refine ⟨by simp [walkFrom_zero, hb, hr], fun hl => ?_⟩
  obtain ⟨n, rfl⟩ : ∃ n, lev = n + 1 := ⟨lev - 1, by omega⟩
  simp [walkFrom_succ, hb, hr]

/-- The walk from a valid entry that points to a table. -/
theorem walkFrom_table (h0 : bit e 0 = true) (hr : bits e 63 52 = 0) (h1 : bit e 1 = true) :
    (∀ n, 1 ≤ n → walkFrom s part va (n + 1) e = if bits e 6 2 ≠ 0 ∨ ptAddr e % 2 ^ 16 ≠ 0 then ([], .fault 2 (n + 1))
      else walkDown s part va (ptAddr e + 8 * ptIndex va n) n) ∧
    (walkFrom s part va 1 e = if bits e 6 2 ≠ 0 then ([], .fault 2 1)
      else walkDown s part va (ptAddr e + 8 * ptIndex va 0) 0) ∧
    walkFrom s part va 0 e = ([], .fault 2 5) := by
  refine ⟨fun n hn => ?_, ?_, ?_⟩
  · have hn' : 2 ≤ n + 1 := by omega
    simp [walkFrom_succ, h0, hr, h1, hn]
  · simp [walkFrom_succ, h0, hr, h1]
  · simp [walkFrom_zero, h0, h1]

/-- The walk from a valid entry that is no table. -/
theorem walkFrom_leaf (h0 : bit e 0 = true) (hr : bits e 63 52 = 0) (h1 : bit e 1 = false) :
    walkFrom s part va 4 e = ([], .fault 2 4) ∧ walkFrom s part va 3 e = ([], .fault 2 3) ∧
    (walkFrom s part va 2 e = if bit e 6 ∨ ptAddr e % 2 ^ 29 ≠ 0 then ([], .fault 2 2)
      else ([], .leaf e (ptAddr e + bits va 28 0) 2)) ∧
    (walkFrom s part va 1 e = if ptAddr e % 2 ^ 16 ≠ 0 then ([], .fault 2 1)
      else ([], .leaf e (ptAddr e + bits va 15 0) 1)) ∧
    walkFrom s part va 0 e = if bit e 6 ∨ ptAddr e % 2 ^ 12 ≠ 0 then ([], .fault 2 5)
      else ([], .leaf e (ptAddr e + bits va 11 0) 5) := by
  refine ⟨?_, ?_, ?_, ?_, ?_⟩
  · simp [walkFrom_succ, h0, hr, h1]
  · simp [walkFrom_succ, h0, hr, h1]
  · simp [walkFrom_succ, h0, hr, h1]
  · simp [walkFrom_succ, h0, hr, h1]
  · simp [walkFrom_zero, h0, hr, h1]

end

/-! ### O29: what a leaf grants -/

theorem check_leaf (s : State) (part n l e pa : Nat) (need : Need) :
    ((∃ i, i < n ∧ s.paOk part (pa + i) = false) → Xl.check s part need n (.leaf e pa l) = .fault 4 l) ∧
    ((∀ i, i < n → s.paOk part (pa + i) = true) →
      Xl.check s part need n (.leaf e pa l) = if leafOk e need then .leaf e pa l else .fault 3 l) := by
  constructor
  · rintro ⟨i, hi, h⟩
    have hall : (upto pa n).all (s.paOk part) = false := by
      rw [List.all_eq_false]
      exact ⟨pa + i, mem_upto.mpr ⟨by omega, by omega⟩, by simp [h]⟩
    simp [Xl.check, hall]
  · intro h
    have hall : (upto pa n).all (s.paOk part) = true := by
      rw [List.all_eq_true]
      intro x hx
      obtain ⟨h1, h2⟩ := mem_upto.mp hx
      obtain ⟨i, rfl⟩ : ∃ i, x = pa + i := ⟨x - pa, by omega⟩
      exact h i (by omega)
    simp [Xl.check, hall]

/-- With nothing kept, and no other entry of a run, there is one way for a translation to come out. -/
theorem xlates_walk {s : State} {c : Ctx} {v : Nat} (ht : s.tlb = [])
    (hr : runOthers s c.part v (walk s c.part c.ptroot v).1 = []) :
    s.xlates c v = dedupWays [⟨readsAt v (walk s c.part c.ptroot v).1, (walk s c.part c.ptroot v).2⟩] := by
  simp [State.xlates, hr, ht]

theorem translate_walk {s : State} {c : Ctx} {va n : Nat} {need : Need} (ht : s.tlb = [])
    (hr : runOthers s c.part (va % 2 ^ 57) (walk s c.part c.ptroot (va % 2 ^ 57)).1 = []) :
    (s.translate c va need n).2 = (walk s c.part c.ptroot (va % 2 ^ 57)).2.check s c.part need n := by
  unfold State.translate
  dsimp only
  rw [xlates_walk ht hr]
  rfl

/-- Settles O29: the checks one by one, the walk's step at each level, and what a leaf grants. -/
theorem accessChecks : Obligations.AccessChecks := by
  unfold Obligations.AccessChecks
  refine ⟨fun s e a ps va => ?_, fun s part va root e => ?_, fun s part n k l e pa need => ?_,
    fun s c va n need ht hr => translate_walk ht hr⟩
  · obtain ⟨h7, h8, hown⟩ := checks_cases s e a ps va
    refine ⟨h7, h8, hown, fun t els h => ?_⟩
    obtain ⟨hmis, hout, hpos, hels⟩ := checks_ok h
    refine ⟨hmis, hout, hpos, fun y hy => ?_⟩
    obtain ⟨hva, hspad, hpriv, -⟩ := hels y hy
    exact ⟨hva, hspad, hpriv⟩
  · refine ⟨walk_eq s part root va, fun h => ?_, fun h hr => ?_, fun ⟨h0, hr⟩ h1 => ?_, fun ⟨h0, hr⟩ h1 => ?_⟩
    · exact ⟨(walkFrom_invalid s part va h 0).1, fun lev => (walkFrom_invalid s part va h lev).2⟩
    · exact ⟨(walkFrom_reserved s part va h hr 0).1, fun lev => (walkFrom_reserved s part va h hr lev).2⟩
    · obtain ⟨hn, hone, hzero⟩ := walkFrom_table s part va (e := e) (by simpa [bit_iff] using h0) hr
        ((bit_iff e 1).mpr h1)
      refine ⟨fun lev h2 h4 => ?_, hone, hzero⟩
      have hlev : lev = 2 ∨ lev = 3 ∨ lev = 4 := by omega
      rcases hlev with rfl | rfl | rfl
      · exact hn 1 (by omega)
      · exact hn 2 (by omega)
      · exact hn 3 (by omega)
    · obtain ⟨h4, h3, h2, hone, hzero⟩ := walkFrom_leaf s part va (e := e) (by simpa [bit_iff] using h0) hr
        ((bit_false_iff e 1).mpr h1)
      rw [h2, hone, hzero]
      simp only [bit_iff, bits_low]
      exact ⟨h4, h3, rfl, rfl, rfl⟩
  · obtain ⟨hbad, hgood⟩ := check_leaf s part n l e pa need
    have hgrants : leafOk e need = true ↔ (match need with
        | .read => e / 4 % 2 = 1
        | .write => e / 8 % 2 = 1 ∧ e / 16 % 2 = 0
        | .readWrite => e / 4 % 2 = 1 ∧ e / 8 % 2 = 1 ∧ e / 16 % 2 = 0
        | .exec => e / 16 % 2 = 1
        | .any => True) := by
      cases need <;> simp [leafOk, bit, and_assoc]
    refine ⟨rfl, hbad, fun h => ⟨fun hg => ?_, fun hg => ?_⟩⟩
    · rw [hgood h, if_pos (hgrants.mpr (by cases need <;> exact hg))]
    · rw [hgood h, if_neg fun hl => hg (by cases need <;> exact hgrants.mp hl)]

end Sys2Proof.Machine
end

