-- ==== Sys2Proof/Proofs/StoresMove.lean ====
section
/-! PROOF. Entries leave the store queue and reach their home (O36). -/

namespace Sys2Proof.Machine

/-! ### O36: entries leave the store queue -/

/-- What is not staged needs no staging. -/
theorem stages_of_not_staged {x : Qx} (h : x.staged = false) (y : SqElem) : x.stages y = false := by
  unfold Qx.staged at h
  unfold Qx.stages
  cases hl : x.launch with
  | none => rfl
  | some l =>
    rw [hl] at h
    have hm : l.mode = .normal := by simpa [Launch.staged] using h
    simp [Launch.stages, Launch.redundant, hm]

/-- A plain store outside a staged launch leaves its queue whole. -/
theorem storeLeaves_plain {s : State} {x : Qx} {h : SqEntry} (hs : x.staged = false)
    (ha : ∀ y ∈ h.elems, s.atomHolds x h y = false) :
    s.storeLeaves x h = (h.elems.foldl (fun t y => t.toCore x.bid x.core h.src y) s).setHead x.w none := by
  have hany : h.elems.any (s.atomHolds x h) = false := List.any_eq_false.mpr fun y hy => by simp [ha y hy]
  have hplain : (h.elems.filter fun y => !x.stages y) = h.elems :=
    List.filter_eq_self.mpr fun y _ => by simp [stages_of_not_staged hs y]
  have hstaged : h.elems.filter x.stages = [] :=
    List.filter_eq_nil_iff.mpr fun y _ => by simp [stages_of_not_staged hs y]
  unfold State.storeLeaves
  simp only [hany, hplain, hstaged, State.stamped, hs, State.stageElems]
  rfl

theorem releaseReady_iff (s : State) (x : Qx) (h : SqEntry) : s.releaseReady x h = true ↔
    ∀ y ∈ h.elems, s.atomPending x.bid y.idx h.pos = false ∧ s.homeAny x.bid y.idx = false := by
  simp [State.releaseReady]

theorem acked_iff (s : State) (x : Qx) (h : SqEntry) (scope : Scope) : s.acked x h scope = true ↔
    scope ≠ .system ∨ ∀ y ∈ h.elems, s.sysReady x.bid y.idx = true := by
  simp [State.acked]

theorem commits_eq_false {x : Qx} {scope : Scope} (h : x.redundant = false ∨ scope = .block) :
    x.commits scope = false := by
  rcases h with h | rfl
  · simp [Qx.commits, h]
  · simp [Qx.commits]

/-- The queue's head, by its kind. -/
theorem storeToCorePoint_head {q : Who} {s : State} {x : Qx} {h : SqEntry} {r : List SqEntry} (hx : s.stq? q = some x)
    (hq : x.g.stq = h :: r) : exec (.storeToCorePoint q) s = .next (match h.kind with
        | .store => s.storeLeaves x h
        | .relStore => s.releaseLeaves x h .device
        | .red _ none => s.reductionLeaves x h
        | .red _ (some scope) => s.releaseLeaves x h scope
        | .addon _ _ => s.reductionLeaves x h
        | .fence scope _ => s.releaseLeaves x h scope
        | .bara n => s.baraLeaves x h n
        | .tbarr off darr dsec => s.tbarrLeaves x h off darr dsec) := by
  show execStoreToCorePoint q s = _
  unfold execStoreToCorePoint
  rw [hx]
  simp only [hq] <;> rfl

theorem fence_leaves {q : Who} {s : State} {x : Qx} {h : SqEntry} {r : List SqEntry} {scope : Scope} {k : Bool}
    (hx : s.stq? q = some x) (hq : x.g.stq = h :: r) (hk : h.kind = .fence scope k)
    (hc : x.redundant = false ∨ scope = .block) :
    exec (.storeToCorePoint q) s = .next (
      if s.releaseReady x h then
        if s.acked x h scope then
          ((if x.staged then (s.releaseStep x h scope).onBlock x.bid fun b =>
              h.elems.foldl (fun (b : Block) y => b.fenced y.idx) b
            else s.releaseStep x h scope).setHead x.w none).fencePass x h scope
        else s.flush x.core scope
      else s) := by
  rw [storeToCorePoint_head hx hq, hk]
  dsimp only
  unfold State.releaseLeaves State.releaseHead
  rw [commits_eq_false hc, hk]
  cases s.releaseReady x h <;> cases s.acked x h scope <;> rfl

/-! ### O36: points -/

theorem setCore_core (s : State) (c : Core) : (s.setCore c).core c.num = c := by
  have hc : (c.num == c.num) = true := beq_self_eq_true c.num
  unfold State.setCore State.core
  split
  next h => exact congrArg (Option.getD · _) (find?_replaced (p := fun x : Core => x.num == c.num) hc _ h)
  next h =>
    exact congrArg (Option.getD · _)
      (find?_inserted (p := fun x : Core => x.num == c.num) hc _ (Bool.eq_false_iff.mpr h))

theorem core_num (s : State) (n : Nat) : (s.core n).num = n := by
  unfold State.core
  cases h : s.cores.find? (fun x => x.num == n) with
  | none => rfl
  | some c => simpa using List.find?_some h

theorem toCore_point {s : State} {bid core pa : Nat} {src : Origin} {y : SqElem} (hy : y.loc = .pa pa) :
    ((s.toCore bid core src y).core core).point = (s.core core).point ++ [⟨bid, y.idx, pa, y.va, y.bytes, src, []⟩] := by
  unfold State.toCore
  simp only [hy]
  have h := setCore_core s
    { s.core core with point := (s.core core).point ++ [⟨bid, y.idx, pa, y.va, y.bytes, src, []⟩] }
  rw [show ({ s.core core with point := (s.core core).point ++ [⟨bid, y.idx, pa, y.va, y.bytes, src, []⟩] } : Core).num =
    core from core_num s core] at h
  rw [h]

theorem blockedAt_iff {point : List PtStore} {i : Nat} {y : PtStore} (hy : point[i]? = some y) :
    blockedAt point i = true ↔ ∃ z ∈ point.take i, overlaps y.pa y.bytes.length z.pa z.bytes.length = true := by
  simp [blockedAt, hy]

/-- Settles O36: the head's kind says how it leaves, and a point's store moves unless an earlier one of its bytes is
there. -/
theorem storesMove : Obligations.StoresMove := by
  unfold Obligations.StoresMove
  refine ⟨fun q s x h r hx hq => ⟨fun hk hs ha => ?_, fun scope k hk hc => ?_⟩, fun s bid core pa src y hy => toCore_point hy,
    fun s core i y hy => ⟨fun hb => ?_, fun hb => ?_⟩, fun s die i y hy => ⟨fun hb => ?_, fun hb ha => ?_⟩,
    fun s core i => ⟨fun hi => ?_, fun hi => ?_⟩, fun q s => ⟨rfl, rfl, rfl⟩⟩
  · rw [storeToCorePoint_head hx hq, hk]
    exact congrArg _ (storeLeaves_plain hs ha)
  · rw [fence_leaves hx hq hk hc]
    refine ⟨fun hr hs => ?_, fun hr hs => ?_, fun hr => ?_⟩
    · rw [if_pos ((releaseReady_iff s x h).mpr hr), if_pos ((acked_iff s x h scope).mpr hs)]
    · rw [if_pos ((releaseReady_iff s x h).mpr hr), if_neg fun hn => hs ((acked_iff s x h scope).mp hn)]
    · rw [if_neg fun hn => hr ((releaseReady_iff s x h).mp hn)]
  · exact congrArg _ (if_pos ((blockedAt_iff hy).mpr hb))
  · refine congrArg _ ((if_neg fun hn => hb ((blockedAt_iff hy).mp hn)).trans ?_)
    unfold State.coreToDie
    simp only [hy]
  · exact congrArg _ (if_pos ((blockedAt_iff hy).mpr hb))
  · refine congrArg _ ((if_neg fun hn => hb ((blockedAt_iff hy).mp hn)).trans ?_)
    unfold State.dieToHome State.arrive
    simp only [hy, ha]
    rfl
  · show execLoadCacheDrop core i false s = _
    simp [execLoadCacheDrop, hi]
  · show execLoadCacheDrop core i true s = _
    simp [execLoadCacheDrop, hi]

end Sys2Proof.Machine
end

