-- ==== Sys2Proof/Proofs/AtomicWords.lean ====
section
/-! PROOF. Words that access memory: their checks and effect; atomics and quiet reductions (O33). -/

namespace Sys2Proof.Machine

/-! ### Words that access memory: from their effect to what the statements say -/

theorem release_kind_span {g : Grp} (hs : g.span = true) (u : ISet) (r q : Nat) :
    ((g.release u r).cell q).kind = (g.cell q).kind := by
  unfold Grp.release
  rw [if_pos hs]
  rw [cell_setCell]
  split
  next h => rw [h.1]
  next => rfl

theorem foldl_release_kind_span {g : Grp} (hs : g.span = true) (u : ISet) (q : Nat) (l : List Nat) :
    ((l.foldl (fun (g : Grp) r => g.release u r) g).cell q).kind = (g.cell q).kind := by
  induction l generalizing g with
  | nil => rfl
  | cons r l ih =>
    rw [List.foldl_cons, ih ((release_span g u r).trans hs), release_kind_span hs]

/-- A register of a span reads as the form its kind gives it. -/
theorem form32_congr {g h : Grp} (hs : g.span = true) (ht : SameThreads g h)
    (hk : ∀ q, (g.cell q).kind = (h.cell q).kind) (r : Nat) : g.form32 r = h.form32 r := by
  have hrun : g.run = h.run := by
    unfold Grp.run
    rw [if_pos hs, if_pos (ht.span.symm.trans hs), ht.lo, ht.hi]
  unfold Grp.form32
  rw [hk r, hk (r - 1), hrun]

/-- What prepares a word leaves its pairs as they are. -/
theorem prepare_splitsPair (s : State) (e : Env) (sh : Shape) : (s.prepare e sh).2.splitsPair sh = e.splitsPair sh := by
  obtain ⟨hr, -⟩ := prepare_reads s e sh
  unfold Env.splitsPair
  rw [hr.grp.span]
  cases hs : e.grp.span with
  | false => rfl
  | true =>
    have hk : ∀ q, ((s.prepare e sh).2.grp.cell q).kind = (e.grp.cell q).kind := by
      intro q
      unfold State.prepare
      dsimp only
      split <;> exact foldl_release_kind_span hs e.unit q sh.rel
    simp only [fun r => form32_congr (hr.grp.span.trans hs) hr.grp hk r]

/-- A word that makes its access leaves the state that `performed` gives. -/
theorem runWord_access {s t : State} {sh : Shape} {f : State → Env → Eff} {e x' : Env} {kind acc n : Nat} {els : List Elem}
    (he : Executes s sh e)
    (hf : f (s.prepare e sh).1 (s.prepare e sh).2 = t.access x' (s.prepare e sh).2 sh kind acc n els) :
    s.runWord (fun _ => sh) f = .next (t.performed x' (s.prepare e sh).2 e.grp sh kind acc n els) := by
  have hsp : (s.prepare e sh).2.splitsPair sh = false := (prepare_splitsPair s e sh).trans he.whole
  unfold State.access at hf
  unfold State.performed
  dsimp only at hf ⊢
  rw [hsp, Bool.or_false] at hf
  split at hf
  next h => rw [if_pos h]; exact runWord_done (sh := fun _ => sh) he hf
  next h => rw [if_neg h]; exact runWord_moved (sh := fun _ => sh) he.acts he.clear hf

/-- The shared part of a word's access: its checks, absent sectors, then its own effect on the elements. -/
def checkedEff (a : Ask) (va : Env → Nat → Nat) (g : State → Env → List Elem → Eff) (s : State) (x : Env) : Eff :=
  match s.checks x a x.members (va x) with
  | .bad y => y
  | .ok t els => if t.parks x els a.n then .hold t .parked else g t x els

section
variable {i : Instr} {sh : Shape} {a : Ask} {kind : Nat} {va : Env → Nat → Nat} {f : State → Env → Eff}
  {g : State → Env → List Elem → Eff} {one : Env → Prop}

theorem accesses_of_checked {pre : State → Env → List Elem → Prop} {post : State → Env → List Elem → State × Env}
    (hi : ∀ s, exec i s = s.runWord (fun _ => sh) f) (hf : ∀ s x, one x → f s x = checkedEff a va g s x)
    (hg : ∀ t x els, pre t x els → one x ∧
      g t x els = (post t x els).1.access (post t x els).2 x sh kind a.acc a.n els) :
    Accesses i sh a kind va pre post := by
  intro s t e els he _ hc hp hpre
  obtain ⟨hone, hacc⟩ := hg _ _ _ hpre
  rw [hi]
  refine runWord_access he ?_
  rw [hf _ _ hone, ← hacc]
  unfold checkedEff
  rw [he.acting.2, hc]
  simp only [hp, Bool.false_eq_true, if_false]

theorem refrains_of_checked (hi : ∀ s, exec i s = s.runWord (fun _ => sh) f)
    (hf : ∀ s x, one x → f s x = checkedEff a va g s x) : Refrains i sh a va one := by
  intro s e he hone k
  have hk : (s.prepare e sh).1.checks (s.prepare e sh).2 a (s.prepare e sh).2.members (va (s.prepare e sh).2) = k := by
    rw [he.acting.2]
  have hfk := hf (s.prepare e sh).1 (s.prepare e sh).2 hone
  unfold checkedEff at hfk
  rw [hk] at hfk
  refine ⟨fun c d n hb => ?_, fun t l j c v ps hb => ?_, fun t els hb hp => ?_⟩
  · rw [hb] at hfk
    exact (hi s).trans (runWord_trap (sh := fun _ => sh) he.acts he.clear hfk)
  · rw [hb] at hfk
    rw [hi]
    unfold State.runWord
    simp only [he.acts, he.clear, hfk]
  · rw [hb] at hfk
    simp only [hp, if_true] at hfk
    rw [hi]
    unfold State.runWord
    simp only [he.acts, he.clear, hfk]

end

/-! ### O33: atomics and quiet reductions -/

/-- The atomics a word issues, one per element. -/
def issuedAtoms (x : Env) (op d : Nat) (scope : Scope) (order : Order) (b cmp : Nat → W64) (n tick : Nat)
    (els : List Elem) : List PAtomic :=
  ((upto n els.length).zip els).map fun y =>
    ⟨y.1, x.bid, x.idx y.2.pos, x.inTrap, tick, op, BitVec.ofNat 64 y.2.va, y.2.loc, b y.2.pos, cmp y.2.pos, d, scope,
      order, x.origin, y.2.mig⟩

theorem issueAtoms_eq (x : Env) (op d : Nat) (scope : Scope) (order : Order) (b cmp : Nat → W64) (els : List Elem)
    (t : State) : t.issueAtoms x op d scope order b cmp els =
      { t with
        nextId := t.nextId + els.length
        atoms := t.atoms ++ issuedAtoms x op d scope order b cmp t.nextId t.tick els } := by
  unfold State.issueAtoms
  induction els generalizing t with
  | nil => simp [issuedAtoms, upto]
  | cons y els ih =>
    rw [List.foldl_cons, ih]
    simp [issuedAtoms, upto, State.fresh, Nat.add_assoc, Nat.add_comm 1]

theorem loc_add_zero (l : Loc) : l.add 0 = l := by cases l <;> rfl

/-- What enters the queue, as the model queues it. -/
theorem queueStores_zero (x : Env) (t : State) (kind : SqKind) (els : List Elem) (bytes : Nat → List Byte) :
    x.queueStores t kind els bytes 0 = x.enters t kind els bytes := by
  unfold Env.queueStores Env.enters
  simp only [Nat.add_zero, loc_add_zero]
  cases x.grp.span with
  | false => simp
  | true =>
    cases els with
    | nil => rfl
    | cons y els => rfl

/-- An atomic's effect on the elements that its checks give. -/
def atomicOn (op : Nat) (sh : Shape) (d b : RegN) (scope : Scope) (order : Order) (t : State) (x : Env)
    (els : List Elem) : Eff :=
  let wide := laWidth op == 8
  let v (r : RegN) (p : Nat) : W64 := BitVec.ofNat 64 (x.val wide r.toNat p)
  let x' := { x with grp := (regsOf wide d.toNat).foldl (fun (g : Grp) r => g.claim x.unit r) x.grp }
  (t.issueAtoms x op d.toNat scope order (v b) (if op == 9 || op == 13 then v d else fun _ => 0) els).access x' x sh 2 2
    (laWidth op) els

/-- The shape of an atomic. -/
def atomicShape (op : Nat) (d a b : RegN) : Shape :=
  { dsts := regsOf (laWidth op == 8) d.toNat
    srcs := regsOf true a.toNat ++ regsOf (laWidth op == 8) b.toNat ++
      (if op == 9 || op == 13 then regsOf (laWidth op == 8) d.toNat else []), lat := none }

/-- A word that accesses memory lane by lane: a span expands at it. -/
def lanedEff (a : Ask) (va : Env → Nat → Nat) (g : State → Env → List Elem → Eff) (s : State) (x : Env) : Eff :=
  if x.grp.span && !x.solo then .expand else checkedEff a va g s x

theorem laned_not (x : Env) : x.laned ↔ (x.grp.span && !x.solo) = false := by
  unfold Env.laned
  cases x.grp.span <;> cases x.solo <;> simp

theorem lanedEff_of_laned {a : Ask} {va : Env → Nat → Nat} {g : State → Env → List Elem → Eff} {s : State} {x : Env}
    (h : x.laned) : lanedEff a va g s x = checkedEff a va g s x :=
  if_neg (by rw [(laned_not x).mp h]; decide)

/-- What the statements say of such a word. -/
theorem laned_word {i : Instr} {sh : Shape} {a : Ask} {kind : Nat} {va : Env → Nat → Nat}
    {g : State → Env → List Elem → Eff} {post : State → Env → List Elem → State × Env}
    (hi : ∀ s, exec i s = s.runWord (fun _ => sh) (lanedEff a va g))
    (hg : ∀ t x els, g t x els = (post t x els).1.access (post t x els).2 x sh kind a.acc a.n els) :
    Accesses i sh a kind va (fun _ x _ => x.laned) post ∧ Refrains i sh a va Env.laned ∧
      Expands i (fun _ => sh) (fun x => ¬x.laned) :=
  ⟨accesses_of_checked hi (fun _ _ h => lanedEff_of_laned h) fun t x els h => ⟨h, hg t x els⟩,
    refrains_of_checked hi fun _ _ h => lanedEff_of_laned h,
    expands_of_runWord hi fun _ x h => if_pos ((Bool.eq_false_or_eq_true _).resolve_right (mt (laned_not x).mpr h))⟩

/-- The state and group that an atomic leaves before it is performed. -/
def atomicPost (op : Nat) (d b : RegN) (scope : Scope) (order : Order) (t : State) (x : Env) (els : List Elem) :
    State × Env :=
  let v (r : RegN) (p : Nat) : W64 := BitVec.ofNat 64 (x.val (laWidth op == 8) r.toNat p)
  ({ t with
      nextId := t.nextId + els.length
      atoms := t.atoms ++ issuedAtoms x op d.toNat scope order (v b) (if op == 9 || op == 13 then v d else fun _ => 0)
        t.nextId t.tick els },
    { x with grp := (regsOf (laWidth op == 8) d.toNat).foldl (fun (g : Grp) r => g.claim x.unit r) x.grp })

theorem atomic_word {i : Instr} (op : Nat) (d a b : RegN) (scope : Scope) (order : Order)
    (hi : ∀ s, exec i s = s.atomic op d a b scope order) :
    Accesses i (atomicShape op d a b) ⟨laWidth op, laWidth op, true, .readWrite, 2⟩ 2 (fun x => x.val true a.toNat)
      (fun _ x _ => x.laned) (atomicPost op d b scope order) ∧
    Refrains i (atomicShape op d a b) ⟨laWidth op, laWidth op, true, .readWrite, 2⟩ (fun x => x.val true a.toNat)
      Env.laned ∧
    Expands i (fun _ => atomicShape op d a b) fun x => ¬x.laned :=
  laned_word (g := atomicOn op (atomicShape op d a b) d b scope order) (fun s => (hi s).trans rfl) fun t x els => by
    unfold atomicOn
    dsimp only
    rw [issueAtoms_eq]
    rfl

/-- The shape of a quiet reduction. -/
def quietShape (a b : RegN) : Shape := { srcs := regsOf true a.toNat ++ [b.toNat], lat := none }

/-- A quiet reduction's entry. -/
def quietPost (op : Nat) (b : RegN) (scope : Scope) (order : Order) (t : State) (x : Env) (els : List Elem) :
    State × Env :=
  (t, x.enters t (.red op (if order = .release ∨ order = .acqRel then some scope else none)) els fun p =>
    leBytes 4 (x.val false b.toNat p))

theorem quiet_word {i : Instr} (op : Nat) (a b : RegN) (scope : Scope) (order : Order)
    (hi : ∀ s, exec i s = s.quiet op a b scope order) :
    Accesses i (quietShape a b) ⟨4, 4, true, .readWrite, 3⟩ 2 (fun x => x.val true a.toNat)
      (fun _ x _ => x.laned) (quietPost op b scope order) ∧
    Refrains i (quietShape a b) ⟨4, 4, true, .readWrite, 3⟩ (fun x => x.val true a.toNat) Env.laned ∧
    Expands i (fun _ => quietShape a b) fun x => ¬x.laned :=
  laned_word (g := fun t x els => t.access (x.queueStores t (.red op (if ordRel order then some scope else none)) els
      (fun p => leBytes 4 (x.val false b.toNat p)) 0) x (quietShape a b) 2 3 4 els) (fun s => (hi s).trans rfl)
    fun t x els => by
      rw [queueStores_zero]
      cases order <;> rfl

/-- Settles O33: each atomic is the model's `atomic` of its row, and each quiet reduction its `quiet`. -/
theorem atomicWords : Obligations.AtomicWords := by
  unfold Obligations.AtomicWords
  intro d a b scope order
  have atomic (i : Instr) (op : Nat) (hi : ∀ s, exec i s = s.atomic op d a b scope order) :=
    atomic_word op d a b scope order hi
  have quiet (i : Instr) (op : Nat) (hi : ∀ s, exec i s = s.quiet op a b scope order) :=
    quiet_word op a b scope order hi
  exact ⟨atomic _ 0 fun _ => rfl, atomic _ 1 fun _ => rfl, atomic _ 2 fun _ => rfl, atomic _ 3 fun _ => rfl,
    atomic _ 4 fun _ => rfl, atomic _ 5 fun _ => rfl, atomic _ 6 fun _ => rfl, atomic _ 7 fun _ => rfl,
    atomic _ 8 fun _ => rfl, atomic _ 9 fun _ => rfl, atomic _ 10 fun _ => rfl, atomic _ 11 fun _ => rfl,
    atomic _ 12 fun _ => rfl, atomic _ 13 fun _ => rfl, quiet _ 16 fun _ => rfl, quiet _ 17 fun _ => rfl,
    quiet _ 18 fun _ => rfl, quiet _ 19 fun _ => rfl, quiet _ 20 fun _ => rfl, quiet _ 21 fun _ => rfl,
    quiet _ 22 fun _ => rfl, quiet _ 23 fun _ => rfl⟩

end Sys2Proof.Machine
end

