-- ==== Sys2Proof/Proofs/Stores.lean ====
section
/-! PROOF. A store's data, its entries, and the sheaves of a span whose access is to its threads' own memory (O32). -/

namespace Sys2Proof.Machine

/-! ### O32: a store's data -/

theorem leBytes_add (m n x : Nat) : leBytes (m + n) x = leBytes m x ++ leBytes n (x / 256 ^ m) := by
  induction m generalizing x with
  | zero => simp [leBytes]
  | succ m ih =>
    rw [Nat.succ_add, leBytes, ih, leBytes, Nat.div_div_eq_div_mul, ← Nat.pow_succ', List.cons_append]

theorem leBytes_add_mul (n x y : Nat) : leBytes n (x + 256 ^ n * y) = leBytes n x := by
  induction n generalizing x with
  | zero => rfl
  | succ n ih =>
    have hdiv : (x + 256 ^ (n + 1) * y) / 256 = x / 256 + 256 ^ n * y := by
      rw [Nat.pow_succ, Nat.mul_comm (256 ^ n), Nat.mul_assoc, Nat.add_mul_div_left _ _ (by decide)]
    have hmod : BitVec.ofNat 8 (x + 256 ^ (n + 1) * y) = BitVec.ofNat 8 x := by
      apply BitVec.eq_of_toNat_eq
      rw [BitVec.toNat_ofNat, BitVec.toNat_ofNat, Nat.pow_succ, Nat.mul_comm (256 ^ n), Nat.mul_assoc]
      exact Nat.add_mul_mod_self_left _ _ _
    rw [leBytes, hdiv, ih, hmod, ← leBytes]

theorem take_leBytes {m n : Nat} (h : m ≤ n) (x : Nat) : (leBytes n x).take m = leBytes m x := by
  obtain ⟨k, rfl⟩ := Nat.exists_eq_add_of_le h
  rw [leBytes_add, List.take_left' (length_leBytes m x)]

theorem val_pair (x : Env) (r p : Nat) : x.val true r p = x.val false r p + 2 ^ 32 * x.val false (r + 1) p := by
  have h0 := (x.view.val r p).isLt
  have h1 := (x.view.val (r + 1) p).isLt
  unfold Env.val Grp.val64 pair64
  simp only [if_true, Bool.false_eq_true, if_false, BitVec.toNat_ofNat]
  omega

/-- A store word's data as the statement writes it, by the number of its registers. -/
theorem store_bytes_one (op : StoreOp) (hr : op.regs = 1) (hz : op.z ≤ 4) (x : Env) (d p : Nat) :
    op.bytes x d p = leBytes op.z (x.val false d p) := by
  unfold StoreOp.bytes
  rw [hr]
  exact (take_leBytes hz _).trans rfl

theorem store_bytes_two (op : StoreOp) (hr : op.regs = 2) (hz : op.z = 8) (x : Env) (d p : Nat) :
    op.bytes x d p = leBytes 8 (x.val true d p) := by
  unfold StoreOp.bytes
  rw [hr, hz, val_pair]
  exact (take_leBytes (Nat.le_refl 8) _).trans rfl

/-- The 16 bytes of a quad, low pair first. -/
def quadBytes (x : Env) (d p : Nat) : List Byte := leBytes 8 (x.val true d p) ++ leBytes 8 (x.val true (d + 2) p)

theorem store_bytes_four (op : StoreOp) (hr : op.regs = 4) (hz : op.z = 16) (x : Env) (d p : Nat) :
    op.bytes x d p = quadBytes x d p := by
  have hval : (upto d 4).foldr (fun r v => (x.view.val r p).toNat + 2 ^ 32 * v) 0 =
      x.val true d p + 256 ^ 8 * x.val true (d + 2) p := by
    rw [val_pair, val_pair]
    simp only [upto, List.foldr, Env.val, Bool.false_eq_true, if_false, Nat.add_assoc, Nat.reduceAdd]
    omega
  have hlt : x.val true d p < 256 ^ 8 := (x.view.val64 d p).isLt
  unfold StoreOp.bytes quadBytes
  rw [hr, hz]
  change (leBytes (8 + 8) ((upto d 4).foldr _ 0)).take 16 = _
  rw [hval, leBytes_add, leBytes_add_mul, Nat.add_mul_div_left _ _ (by decide), Nat.div_eq_of_lt hlt, Nat.zero_add]
  exact List.take_of_length_le (by simp [length_leBytes])

/-! ### O32: queued entries -/

theorem queueStores_eight (x : Env) (t : State) (kind : SqKind) (els : List Elem) (bytes : Nat → List Byte) :
    x.queueStores t kind els bytes 8 =
      x.enters t kind (els.map fun y => { y with va := y.va + 8, loc := y.loc.add 8 }) bytes := by
  unfold Env.queueStores Env.enters
  simp only [List.map_map]
  cases x.grp.span with
  | false => simp [Function.comp_def]
  | true => cases els <;> rfl

theorem enters_nil (x : Env) (t : State) (kind : SqKind) (bytes : Nat → List Byte) : x.enters t kind [] bytes = x := by
  unfold Env.enters
  simp

/-- A word that stores one entry per access queues it whole. -/
theorem queue_whole {op : StoreOp} (h : ¬(op.z = 16 ∧ op.whole = false)) (t : State) (x : Env) (bs : Nat → List Byte)
    (els : List Elem) : op.queue t x bs els = x.enters t (if op.rel then .relStore else .store) els bs := by
  unfold StoreOp.queue
  rw [if_neg h]
  exact queueStores_zero ..

/-- What a plain ST128 is. -/
def st128Op : StoreOp := ⟨16, 4, false, false⟩

theorem queue_halves {x : Env} {els : List Elem} (h : ∀ y ∈ els, x.stagesAt y.va = false) (t : State)
    (bs : Nat → List Byte) : st128Op.queue t x bs els =
      (x.enters t .store els fun p => (bs p).take 8).enters t .store
        (els.map fun y => { y with va := y.va + 8, loc := y.loc.add 8 }) fun p => (bs p).drop 8 := by
  have hpart : els.partition (fun y => x.stagesAt y.va) = ([], els) := by
    rw [List.partition_eq_filter_filter]
    simp only [Prod.mk.injEq, List.filter_eq_nil_iff, List.filter_eq_self, Function.comp]
    exact ⟨fun y hy => by simp [h y hy], fun y hy => by simp [h y hy]⟩
  unfold StoreOp.queue
  rw [if_pos ⟨rfl, rfl⟩]
  simp only [hpart, queueStores_zero, queueStores_eight, enters_nil]
  rfl

theorem queue_staged {x : Env} {els : List Elem} (h : ∀ y ∈ els, x.stagesAt y.va = true) (t : State)
    (bs : Nat → List Byte) : st128Op.queue t x bs els = x.enters t .store els bs := by
  have hpart : els.partition (fun y => x.stagesAt y.va) = (els, []) := by
    rw [List.partition_eq_filter_filter]
    simp only [Prod.mk.injEq, List.filter_eq_nil_iff, List.filter_eq_self, Function.comp]
    exact ⟨fun y hy => h y hy, fun y hy => by simp [h y hy]⟩
  unfold StoreOp.queue
  rw [if_pos ⟨rfl, rfl⟩]
  simp only [hpart, queueStores_zero, queueStores_eight, enters_nil, List.map_nil]
  rfl

/-! ### O32: a span's access reaches global memory whole or not at all -/

theorem vwin_global_iff (va : Nat) : vwin va = .global ↔ va < 2 ^ 56 := by
  constructor
  · intro h
    by_contra hn
    unfold vwin at h
    rw [if_neg hn] at h
    split at h
    · cases h
    split at h
    · cases h
    split at h <;> cases h
  · exact fun h => if_pos h

/-- A write that is within what its window gives the thread lies in global memory, or far above it. -/
theorem windows_of_addrOk {s p va n : Nat} (h : addrOk s p va n true = true) (hs : s < 2 ^ 33) :
    va < 2 ^ 56 ∨ 0xFFFFE00000000000 ≤ va ∧ va < 0xFFFFF00000000000 + 2 ^ 34 := by
  by_cases hg : va < 2 ^ 56
  · exact .inl hg
  refine .inr ?_
  unfold addrOk vwin at h
  rw [if_neg hg] at h
  by_cases hh : 0xFFFFD00000000000 ≤ va ∧ va < 0xFFFFD00000400000
  · simp [hh] at h
  rw [if_neg hh] at h
  by_cases hp : 0xFFFFE00000000000 ≤ va ∧ va < 0xFFFFF00000000000
  · omega
  rw [if_neg hp] at h
  by_cases hsp : 0xFFFFF00000000000 ≤ va
  · rw [if_pos hsp] at h
    have hoff := of_decide_eq_true h
    omega
  · simp [hsp] at h

theorem spadLen_lt (e : Env) : e.spadLen < 2 ^ 33 := by
  unfold Env.spadLen Env.ofLaunch
  cases e.launch with
  | none => decide
  | some l =>
    have hb : l.fld 543 512 < 2 ^ 32 := Nat.mod_lt _ (by decide)
    change cdiv (l.fld 543 512) 32 * 32 < _
    unfold cdiv
    rw [if_neg (by decide)]
    omega

/-- Neighbours of a form whose writes are within their windows lie both in global memory or both outside. -/
theorem global_step {x y t : Int} {s p n : Nat} (hx : addrOk s p (wrap 64 x) n true = true)
    (hy : addrOk s p (wrap 64 y) n true = true) (hs : s < 2 ^ 33) (hxy : y = x + t) (hlo : -2 ^ 31 ≤ t) (hhi : t < 2 ^ 31) :
    vwin (wrap 64 x) = .global ↔ vwin (wrap 64 y) = .global := by
  rw [vwin_global_iff, vwin_global_iff]
  have hwx := windows_of_addrOk hx hs
  have hwy := windows_of_addrOk hy hs
  have hcx := wrap_coe 64 x
  have hcy := wrap_coe 64 y
  omega

/-- A thread's address: the pair from a register, and the scaled offset. -/
def offsetAddr (a : RegN) (off : BitVec 8) (z : Nat) (x : Env) (p : Nat) : Nat :=
  wrap 64 ((x.val true a.toNat p : Int) + sext 8 off.toNat * z)

theorem offsetAddr_form {x : Env} {a : RegN} {b : Nat} {t : Int} (off : BitVec 8) (z : Nat)
    (hf : x.form true a.toNat = some (b, t)) {p : Nat} (hp : p ∈ x.view.positions) :
    offsetAddr a off z x p = wrap 64 (b + t * p + sext 8 off.toNat * z) := by
  unfold offsetAddr
  rw [form_val hf hp]
  apply toW64_congr
  change (((wrap 64 _ : Nat) : Int) + _) % 2 ^ 64 = _
  rw [Int.add_emod, wrap_emod, ← Int.add_emod]

theorem form_stride {x : Env} {r b : Nat} {t : Int} (hf : x.form true r = some (b, t)) : -2 ^ 31 ≤ t ∧ t < 2 ^ 31 := by
  unfold Env.form at hf
  rw [if_pos rfl, Option.map_eq_some_iff] at hf
  obtain ⟨f, -, hf⟩ := hf
  obtain ⟨-, rfl⟩ := Prod.mk.inj hf
  exact sext_range (by decide) f.2.isLt

/-- A span's access whose address reads as a form and which reaches a window of the threads' own reaches no global memory. -/
theorem not_global_of_priv {s t : State} {x : Env} {els : List Elem} {a : RegN} {off : BitVec 8} {z acc : Nat}
    {need : Need} (hx : Acting x) (hspan : x.grp.span = true) (hsolo : x.solo = false)
    (hform : (x.form true a.toNat).isSome) (hown : ∃ y ∈ els, ∃ k o, y.loc = .priv k o)
    (hc : s.checks x ⟨z, z, true, need, acc⟩ x.members (offsetAddr a off z x) = .ok t els) :
    ∀ y ∈ els, vwin y.va ≠ .global := by
  obtain ⟨⟨b, st⟩, hf⟩ := Option.isSome_iff_exists.mp hform
  obtain ⟨hlo, hhi⟩ := form_stride hf
  obtain ⟨-, hout, hpos, hels⟩ := checks_ok hc
  have hmem : x.members = upto 0 (x.grp.hi - x.grp.lo) := by
    unfold Env.members Grp.members
    rw [hsolo, hspan]
    rfl
  have hok : ∀ p ∈ x.members, addrOk x.spadLen x.privLen (offsetAddr a off z x p) z true = true := fun p hp => by
    simpa using List.filter_eq_nil_iff.mp hout p hp
  have haddr : ∀ p ∈ x.members, offsetAddr a off z x p = wrap 64 (b + st * p + sext 8 off.toNat * z) := fun p hp =>
    offsetAddr_form off z hf (hx.range hsolo p hp)
  have hall : ∀ p, p < x.grp.hi - x.grp.lo →
      (vwin (offsetAddr a off z x p) = .global ↔ vwin (offsetAddr a off z x 0) = .global) := by
    intro p
    induction p with
    | zero => exact fun _ => Iff.rfl
    | succ p ih =>
      intro hp
      have h1 : p + 1 ∈ x.members := by rw [hmem, mem_upto]; omega
      have h0 : p ∈ x.members := by rw [hmem, mem_upto]; omega
      refine Iff.trans ?_ (ih (by omega))
      have k1 := hok _ h1
      have k0 := hok _ h0
      rw [haddr _ h1] at k1 ⊢
      rw [haddr _ h0] at k0 ⊢
      refine (global_step k0 k1 (spadLen_lt x) ?_ hlo hhi).symm
      push_cast
      ring
  have hpm : ∀ y ∈ els, y.pos < x.grp.hi - x.grp.lo := fun y hy => by
    have : y.pos ∈ x.members := hpos ▸ List.mem_map_of_mem hy
    rw [hmem, mem_upto] at this
    omega
  obtain ⟨y0, hy0, k, o, hloc⟩ := hown
  have hy0g : vwin y0.va ≠ .global := fun hg => by
    obtain ⟨-, -, hpa⟩ := (hels y0 hy0).2
    obtain ⟨q, hq⟩ := hpa hg
    cases hloc.symm.trans hq
  intro y hy hg
  rw [(hels y hy).1, hall _ (hpm y hy), ← hall _ (hpm y0 hy0), ← (hels y0 hy0).1] at hg
  exact hy0g hg

theorem stagesAt_of_not_global {e : Env} {va : Nat} (h : vwin va ≠ .global) : e.stagesAt va = false := by
  unfold Env.stagesAt
  cases e.launch with
  | none => rfl
  | some l =>
    change (vwin va == .global && _) = false
    rw [beq_eq_false_iff_ne.mpr h, Bool.false_and]

/-! ### O32: the effect of a store word -/

/-- The shape of a store. -/
def storeShape (d a : RegN) (ka : Bool) (st : BitVec 2) (regs : Nat) : Shape :=
  { srcs := regsOf true a.toNat ++ upto d.toNat regs, rel := if ka then regsOf true a.toNat else []
    lat := none, gap := gapOf st none }

/-- A span's store is one access: its operands read as forms. -/
def storeSingle (a : RegN) (formed : Env → Prop) (x : Env) : Prop :=
  x.grp.span = false ∨ x.solo = true ∨ (x.form true a.toNat).isSome ∧ formed x

/-- No element of a span's access lies in a window of the threads' own. -/
def storeOne (x : Env) (els : List Elem) : Prop :=
  x.grp.span = false ∨ x.solo = true ∨ ∀ y ∈ els, ¬∃ k o, y.loc = .priv k o

/-- An element in a window of a thread's own, as the model tests it. -/
def inPrivate (y : Elem) : Bool := match y.loc with
  | .priv _ _ => true
  | _ => false

theorem inPrivate_iff (y : Elem) : inPrivate y = true ↔ ∃ k o, y.loc = .priv k o := by
  unfold inPrivate
  cases y.loc <;> simp

/-- What a store word does with its environment. -/
def storeEff (op : StoreOp) (d a : RegN) (off : BitVec 8) (sh : Shape) (s : State) (x : Env) : Eff :=
  if x.grp.span && !x.solo && ((x.form true a.toNat).isNone || !op.formed x d.toNat) then .expand
  else checkedEff ⟨op.z, op.z, true, .write, 1⟩ (offsetAddr a off op.z) (fun t x els => t.storePut x sh op d.toNat els) s x

theorem store_run (s : State) (op : StoreOp) (d a : RegN) (off : BitVec 8) (ka : Bool) (st : BitVec 2) :
    s.store op d a off ka st =
      s.runWord (fun _ => storeShape d a ka st op.regs) (storeEff op d a off (storeShape d a ka st op.regs)) := rfl

section
variable {op : StoreOp} {d a : RegN} {off : BitVec 8} {ka : Bool} {st : BitVec 2} {formed : Env → Prop}
  {x : Env} {sh : Shape}

theorem storeSingle_iff (hf : ∀ x, op.formed x d.toNat = true ↔ formed x) :
    storeSingle a formed x ↔
      (x.grp.span && !x.solo && ((x.form true a.toNat).isNone || !op.formed x d.toNat)) = false := by
  unfold storeSingle
  rw [← hf x]
  cases x.grp.span <;> cases x.solo <;> cases x.form true a.toNat <;> simp

theorem storeEff_single (hf : ∀ x, op.formed x d.toNat = true ↔ formed x) (h : storeSingle a formed x) (s : State) :
    storeEff op d a off sh s x =
      checkedEff ⟨op.z, op.z, true, .write, 1⟩ (offsetAddr a off op.z) (fun t x els => t.storePut x sh op d.toNat els) s x :=
  if_neg (by rw [(storeSingle_iff hf).mp h]; decide)

theorem storeEff_expand (hf : ∀ x, op.formed x d.toNat = true ↔ formed x) (h : ¬storeSingle a formed x) (s : State) :
    storeEff op d a off sh s x = .expand :=
  if_pos ((Bool.eq_false_or_eq_true _).resolve_right (mt (storeSingle_iff hf).mpr h))

theorem storeOne_iff (els : List Elem) :
    storeOne x els ↔ (x.grp.span && !x.solo && els.any inPrivate) = false := by
  unfold storeOne
  simp only [← inPrivate_iff]
  cases x.grp.span <;> cases x.solo <;> simp

theorem storePut_one {els : List Elem} (h : storeOne x els) (t : State) :
    t.storePut x sh op d.toNat els =
      t.access (op.queue t x (op.bytes x d.toNat) els) x sh 1 1 op.z els :=
  if_neg fun hp => Bool.false_ne_true (((storeOne_iff els).mp h).symm.trans hp)

/-- The elements of a window of a span, at the positions they have in the window's sheaf. -/
def windowElems (x : Env) (els : List Elem) (w : Nat) : List Elem :=
  (els.filter fun y => (x.grp.lo + y.pos) / 32 == w).map fun y => { y with pos := (x.grp.lo + y.pos) % 32 }

/-- Each sheaf of the expanded span makes its threads' stores. -/
def spreadStores (sh : Shape) (z : Nat) (put : State → Env → List Elem → Env → (Nat → Nat) → Env) (t : State) (x : Env)
    (els : List Elem) : State :=
  ((upto (t.nextId + 1) x.grp.windows.length).zip x.grp.windows).foldl (fun v (gid, w) =>
    match v.env? (x.inGroup gid ((x.grp.windowLanes w).headD 0)) with
    | none => v
    | some k => v.settleEff k sh (v.access (put v k (windowElems x els w) x fun p => 32 * w + p - x.grp.lo) k sh 1 1 z
        (windowElems x els w)))
    (t.expandGrp x)

theorem storePut_spread {els : List Elem} (h : ¬storeOne x els)
    {put : State → Env → List Elem → Env → (Nat → Nat) → Env}
    (hput : ∀ v k w, op.queue v k (fun p => op.bytes x d.toNat (32 * w + p - x.grp.lo)) (windowElems x els w) =
      put v k (windowElems x els w) x fun p => 32 * w + p - x.grp.lo) (t : State) :
    t.storePut x sh op d.toNat els = .moved (spreadStores sh op.z put t x els) := by
  have hany : (x.grp.span && !x.solo && els.any inPrivate) = true :=
    (Bool.eq_false_or_eq_true _).resolve_right (mt (storeOne_iff els).mpr h)
  refine (if_pos hany).trans ?_
  unfold State.eachSheaf spreadStores
  simp only [← hput]
  rfl

/-- A word's span whose access reaches the threads' own window is checked whole, and then each sheaf makes its stores. -/
def Spreads (i : Instr) (sh : Shape) (z : Nat) (a : RegN) (off : BitVec 8) (formed : Env → Prop)
    (put : State → Env → List Elem → Env → (Nat → Nat) → Env) : Prop :=
  ∀ (s t : State) (e : Env) (els : List Elem), Executes s sh e →
    let x := (s.prepare e sh).2
    storeSingle a formed x → ¬storeOne x els → (∀ y ∈ els, x.stagesAt y.va = false) →
    (s.prepare e sh).1.checks x ⟨z, z, true, .write, 1⟩ x.members (offsetAddr a off z x) = .ok t els →
    t.parks x els z = false → exec i s = .next (spreadStores sh z put t x els)

variable {i : Instr}

theorem spreads_of_put (hi : ∀ s, exec i s = s.store op d a off ka st)
    (hf : ∀ x, op.formed x d.toNat = true ↔ formed x) {put : State → Env → List Elem → Env → (Nat → Nat) → Env}
    (hput : ∀ x els, (∀ y ∈ els, vwin y.va ≠ .global) → ∀ v k w,
      op.queue v k (fun p => op.bytes x d.toNat (32 * w + p - x.grp.lo)) (windowElems x els w) =
        put v k (windowElems x els w) x fun p => 32 * w + p - x.grp.lo) :
    Spreads i (storeShape d a ka st op.regs) op.z a off formed put := by
  intro s t e els he x hsingle hone _ hc hp
  have hnot := mt (storeOne_iff els).mpr hone
  have hspan : x.grp.span = true ∧ x.solo = false ∧ els.any inPrivate = true := by
    simpa [and_assoc] using hnot
  obtain ⟨hs, hsolo, hany⟩ := hspan
  have hform : (x.form true a.toNat).isSome := by
    rcases hsingle with h | h | h
    · exact absurd (h.symm.trans hs) (by decide)
    · exact absurd (h.symm.trans hsolo) (by decide)
    · exact h.1
  obtain ⟨y, hy, hpriv⟩ := List.any_eq_true.mp hany
  have hglobal := not_global_of_priv he.acting.1 hs hsolo hform ⟨y, hy, (inPrivate_iff y).mp hpriv⟩ hc
  rw [hi, store_run]
  refine runWord_moved (sh := fun _ => storeShape d a ka st op.regs) he.acts he.clear ?_
  rw [storeEff_single hf hsingle]
  unfold checkedEff
  rw [hc]
  simp only [hp, Bool.false_eq_true, if_false]
  exact storePut_spread hone (hput x els hglobal) t

theorem refrains_store (hi : ∀ s, exec i s = s.store op d a off ka st)
    (hf : ∀ x, op.formed x d.toNat = true ↔ formed x) :
    Refrains i (storeShape d a ka st op.regs) ⟨op.z, op.z, true, .write, 1⟩ (offsetAddr a off op.z)
      (storeSingle a formed) :=
  refrains_of_checked (fun s => (hi s).trans (store_run s op d a off ka st)) fun s _ h => storeEff_single hf h s

theorem expands_store (hi : ∀ s, exec i s = s.store op d a off ka st)
    (hf : ∀ x, op.formed x d.toNat = true ↔ formed x) :
    Expands i (fun _ => storeShape d a ka st op.regs) fun x => ¬storeSingle a formed x :=
  expands_of_runWord (fun s => (hi s).trans (store_run s op d a off ka st)) fun s _ h => storeEff_expand hf h s

theorem accesses_store (hi : ∀ s, exec i s = s.store op d a off ka st)
    (hf : ∀ x, op.formed x d.toNat = true ↔ formed x) {pre : State → Env → List Elem → Prop}
    {post : State → Env → List Elem → Env}
    (hpost : ∀ t x els, pre t x els → storeSingle a formed x ∧ storeOne x els ∧
      op.queue t x (op.bytes x d.toNat) els = post t x els) :
    Accesses i (storeShape d a ka st op.regs) ⟨op.z, op.z, true, .write, 1⟩ 1 (offsetAddr a off op.z) pre
      fun t x els => (t, post t x els) :=
  accesses_of_checked (fun s => (hi s).trans (store_run s op d a off ka st)) (fun s _ h => storeEff_single hf h s)
    fun t x els h => by
      obtain ⟨hs, hone, hq⟩ := hpost t x els h
      exact ⟨hs, (storePut_one hone t).trans (by rw [hq])⟩

/-- A store word that queues its access whole. -/
theorem store_puts (hi : ∀ s, exec i s = s.store op d a off ka st) (hf : ∀ x, op.formed x d.toNat = true ↔ formed x)
    (hw : ¬(op.z = 16 ∧ op.whole = false)) {kind : SqKind} (hk : (if op.rel then .relStore else .store) = kind)
    {bytes : Env → Nat → List Byte} (hb : ∀ x p, op.bytes x d.toNat p = bytes x p) :
    Accesses i (storeShape d a ka st op.regs) ⟨op.z, op.z, true, .write, 1⟩ 1 (offsetAddr a off op.z)
      (fun _ x els => storeSingle a formed x ∧ storeOne x els) (fun t x els => (t, x.enters t kind els (bytes x))) ∧
    Spreads i (storeShape d a ka st op.regs) op.z a off formed
      (fun v k els x at' => k.enters v kind els fun p => bytes x (at' p)) ∧
    Refrains i (storeShape d a ka st op.regs) ⟨op.z, op.z, true, .write, 1⟩ (offsetAddr a off op.z)
      (storeSingle a formed) ∧
    Expands i (fun _ => storeShape d a ka st op.regs) fun x => ¬storeSingle a formed x := by
  have hbytes : ∀ x, op.bytes x d.toNat = bytes x := fun x => funext (hb x)
  refine ⟨accesses_store hi hf fun t x els h => ⟨h.1, h.2, ?_⟩, spreads_of_put hi hf fun x els _ v k w => ?_,
    refrains_store hi hf, expands_store hi hf⟩
  · rw [queue_whole hw, hk, hbytes]
  · rw [queue_whole hw, hk, hbytes]

end

/-! ### O32: the data registers as forms -/

theorem formed_one (op : StoreOp) (hr : op.regs ≠ 2) (x : Env) (d : Nat) :
    op.formed x d = true ↔ ∀ r ∈ upto d op.regs, (x.form false r).isSome := by
  unfold StoreOp.formed
  rw [if_neg hr, List.all_eq_true]
  unfold Env.form regRun
  simp

theorem formed_two (op : StoreOp) (hr : op.regs = 2) (x : Env) (d : Nat) :
    op.formed x d = true ↔ (x.form true d).isSome := by
  unfold StoreOp.formed Env.form
  rw [if_pos hr]
  simp

theorem take_quad (x : Env) (d p : Nat) : (quadBytes x d p).take 8 = leBytes 8 (x.val true d p) :=
  List.take_left' (length_leBytes 8 _)

theorem drop_quad (x : Env) (d p : Nat) : (quadBytes x d p).drop 8 = leBytes 8 (x.val true (d + 2) p) :=
  List.drop_left' (length_leBytes 8 _)

/-- A plain ST128 enters the queue in halves where it is not staged. -/
theorem queue_quad {x y : Env} {els : List Elem} {d : Nat} {f : Nat → Nat} (h : ∀ e ∈ els, y.stagesAt e.va = false)
    (t : State) : st128Op.queue t y (fun p => st128Op.bytes x d (f p)) els =
      (y.enters t .store els fun p => leBytes 8 (x.val true d (f p))).enters t .store
        (els.map fun y => { y with va := y.va + 8, loc := y.loc.add 8 }) fun p => leBytes 8 (x.val true (d + 2) (f p)) := by
  simp only [store_bytes_four st128Op rfl rfl, queue_halves h, take_quad, drop_quad]

theorem exec_pfx (a : RegN) (off : BitVec 8) (ka : Bool) (st : BitVec 2) (s : State) : exec (.pfx a off ka st) s =
    s.runWord (fun _ => { srcs := regsOf true a.toNat, rel := if ka then regsOf true a.toNat else []
                          lat := none, gap := gapOf st none })
      fun s x => .done (x.members.foldl (fun s p => s.prefetch x (offsetAddr a off 64 x p)) s) x := rfl

/-- The data registers of a store read as forms, as the statement writes it. -/
def storeFormed (d : RegN) (regs : Nat) (x : Env) : Prop :=
  if regs = 2 then (x.form true d.toNat).isSome else ∀ r ∈ upto d.toNat regs, (x.form false r).isSome

theorem formed_iff (d : RegN) (op : StoreOp) (x : Env) : op.formed x d.toNat = true ↔ storeFormed d op.regs x := by
  by_cases hr : op.regs = 2
  · rw [formed_two op hr]
    simp [storeFormed, hr]
  · rw [formed_one op hr]
    simp [storeFormed, hr]

section
variable {i : Instr} {op : StoreOp} {d a : RegN} {off : BitVec 8} {ka : Bool} {st : BitVec 2}

/-- What the statement says of a store word that queues its access whole. -/
def PutsWhole (i : Instr) (d a : RegN) (off : BitVec 8) (ka : Bool) (st : BitVec 2) (z regs : Nat) (kind : SqKind)
    (bytes : Env → Nat → List Byte) : Prop :=
  Accesses i (storeShape d a ka st regs) ⟨z, z, true, .write, 1⟩ 1 (offsetAddr a off z)
    (fun _ x els => storeSingle a (storeFormed d regs) x ∧ storeOne x els)
    (fun t x els => (t, x.enters t kind els (bytes x))) ∧
  Spreads i (storeShape d a ka st regs) z a off (storeFormed d regs)
    (fun v k els x at' => k.enters v kind els fun p => bytes x (at' p)) ∧
  Refrains i (storeShape d a ka st regs) ⟨z, z, true, .write, 1⟩ (offsetAddr a off z)
    (storeSingle a (storeFormed d regs)) ∧
  Expands i (fun _ => storeShape d a ka st regs) fun x => ¬storeSingle a (storeFormed d regs) x

theorem puts_one_reg (hi : ∀ s, exec i s = s.store op d a off ka st) (hr : op.regs = 1) (hz : op.z ≤ 4) :
    PutsWhole i d a off ka st op.z op.regs (if op.rel then .relStore else .store) fun x p =>
      leBytes op.z (x.val false d.toNat p) :=
  store_puts hi (formed_iff d op) (by omega) rfl fun x p => store_bytes_one op hr hz x _ p

theorem puts_two_regs (hi : ∀ s, exec i s = s.store op d a off ka st) (hr : op.regs = 2) (hz : op.z = 8) :
    PutsWhole i d a off ka st op.z op.regs (if op.rel then .relStore else .store) fun x p =>
      leBytes 8 (x.val true d.toNat p) :=
  store_puts hi (formed_iff d op) (by omega) rfl fun x p => store_bytes_two op hr hz x _ p

theorem puts_st128a : PutsWhole (.st128a d a off ka st) d a off ka st 16 4 .store fun x p => quadBytes x d.toNat p :=
  store_puts (op := ⟨16, 4, false, true⟩) (fun _ => rfl) (formed_iff d _) (by decide) rfl fun x p =>
    store_bytes_four _ rfl rfl x _ p

theorem exec_st128 (s : State) : exec (.st128 d a off ka st) s = s.store st128Op d a off ka st := rfl

/-- The two entries of a plain ST128 in the sheaves of an expanded span. -/
theorem spreads_st128 : Spreads (.st128 d a off ka st) (storeShape d a ka st 4) 16 a off (storeFormed d 4)
    fun v k els x at' => (k.enters v .store els fun p => leBytes 8 (x.val true d.toNat (at' p))).enters v .store
      (els.map fun y => { y with va := y.va + 8, loc := y.loc.add 8 }) fun p =>
        leBytes 8 (x.val true (d.toNat + 2) (at' p)) :=
  spreads_of_put (op := st128Op) exec_st128 (formed_iff d st128Op)
    (put := fun v k els x at' => (k.enters v .store els fun p => leBytes 8 (x.val true d.toNat (at' p))).enters v .store
      (els.map fun y => { y with va := y.va + 8, loc := y.loc.add 8 }) fun p =>
        leBytes 8 (x.val true (d.toNat + 2) (at' p)))
    fun x els h v k w => queue_quad (f := fun p => 32 * w + p - x.grp.lo) (fun y hy => by
      obtain ⟨z, hz, rfl⟩ := List.mem_map.mp hy
      exact stagesAt_of_not_global (h z (List.mem_filter.mp hz).1)) v

/-- The operands of a store of single registers read as forms. -/
def storeOnes (d : RegN) (regs : Nat) (x : Env) : Prop := ∀ r ∈ upto d.toNat regs, (x.form false r).isSome

theorem ones_st128 (x : Env) : st128Op.formed x d.toNat = true ↔ storeOnes d 4 x := formed_one st128Op (by decide) x _

theorem accesses_st128 : Accesses (.st128 d a off ka st) (storeShape d a ka st 4) ⟨16, 16, true, .write, 1⟩ 1
    (offsetAddr a off 16)
    (fun _ x els => storeSingle a (storeOnes d 4) x ∧ storeOne x els ∧ ∀ y ∈ els, x.stagesAt y.va = false)
    fun t x els => (t, (x.enters t .store els fun p => leBytes 8 (x.val true d.toNat p)).enters t .store
      (els.map fun y => { y with va := y.va + 8, loc := y.loc.add 8 }) fun p =>
        leBytes 8 (x.val true (d.toNat + 2) p)) :=
  accesses_store (op := st128Op) exec_st128 ones_st128 fun t x _ ⟨hs, hone, hst⟩ =>
    ⟨hs, hone, queue_quad (x := x) (f := id) hst t⟩

theorem accesses_st128_staged : Accesses (.st128 d a off ka st) (storeShape d a ka st 4) ⟨16, 16, true, .write, 1⟩ 1
    (offsetAddr a off 16)
    (fun _ x els => storeSingle a (storeOnes d 4) x ∧ storeOne x els ∧ ∀ y ∈ els, x.stagesAt y.va = true)
    fun t x els => (t, x.enters t .store els fun p => quadBytes x d.toNat p) :=
  accesses_store (op := st128Op) exec_st128 ones_st128 fun t x els ⟨hs, hone, hst⟩ =>
    ⟨hs, hone, (queue_staged hst t _).trans
      (congrArg (x.enters t .store els) (funext fun p => store_bytes_four st128Op rfl rfl x _ p))⟩

theorem refrains_st128 : Refrains (.st128 d a off ka st) (storeShape d a ka st 4) ⟨16, 16, true, .write, 1⟩
    (offsetAddr a off 16) (storeSingle a (storeOnes d 4)) :=
  refrains_store (op := st128Op) exec_st128 ones_st128

theorem expands_st128 : Expands (.st128 d a off ka st) (fun _ => storeShape d a ka st 4) fun x =>
    ¬storeSingle a (storeOnes d 4) x :=
  expands_store (op := st128Op) exec_st128 ones_st128

end

/-- Settles O32: each store word by its size and its registers; a plain ST128's two entries; PFX. -/
theorem stores : Obligations.Stores := by
  unfold Obligations.Stores
  intro d a off ka st shape va single own one ones formed spread puts quad half
  exact ⟨puts_one_reg (op := ⟨1, 1, false, false⟩) (fun _ => rfl) rfl (by decide),
    puts_one_reg (op := ⟨2, 1, false, false⟩) (fun _ => rfl) rfl (by decide),
    puts_one_reg (op := ⟨4, 1, false, false⟩) (fun _ => rfl) rfl (by decide),
    puts_two_regs (op := ⟨8, 2, false, false⟩) (fun _ => rfl) rfl rfl,
    puts_one_reg (op := ⟨4, 1, true, false⟩) (fun _ => rfl) rfl (by decide),
    puts_two_regs (op := ⟨8, 2, true, false⟩) (fun _ => rfl) rfl rfl, puts_st128a, accesses_st128,
    accesses_st128_staged, spreads_st128, refrains_st128, expands_st128,
    completes_of_runWord (exec_pfx a off ka st) fun _ _ _ => rfl⟩

end Sys2Proof.Machine
end

