-- ==== Sys2Proof/Proofs/Loads.lean ====
section
/-! PROOF. A load's effect in parts, and the values its destination receives (O31). -/

namespace Sys2Proof.Machine

/-! ### O31: a load's effect in parts -/

/-- The shape of a load. -/
def loadShape (d a : RegN) (ka : Bool) (st : BitVec 2) (regs : Nat) : Shape :=
  { dsts := upto d.toNat regs, srcs := regsOf true a.toNat, rel := if ka then regsOf true a.toNat else []
    lat := none, gap := gapOf st none }

/-- A load reads once for its whole group. -/
def loadOnce (a : RegN) (const : Bool) (t : State) (x : Env) (all : List Elem) : Bool :=
  x.solo || (const && x.whole && x.uniform true a.toNat && !t.ownView x all)

/-- The elements that a load reads. -/
def loadEls (one : Bool) (all : List Elem) : List Elem := if one then all.take 1 else all

/-- What a load does with the elements of its members. -/
def loadOn (op : LoadOp) (sh : Shape) (d a : RegN) (t : State) (x : Env) (all : List Elem) : Eff :=
  let one := loadOnce a op.const t x all
  let els := loadEls one all
  if t.parks x els op.z then .hold t .parked
  else if all.any (fun y => t.loadWaits x y op.z) then .wait
  else if one && decide (1 < all.length) && all.any (x.queuedOn · op.z) then .wait
  else if els.any x.sharedAt && (x.launch.map fun l => !l.redundant && !l.oldest x.num).getD false then
    .hold t .sharedWait
  else
    let own := t.ownReads x op.acq els
    let (t, asked) := t.askFabric x op.z own
    if asked then .hold t .fabricWait
    else t.sound x op.z 0 op.acq own <| match x.unit.half with
      | some [] => if op.halves && !els.any x.sharedAt then t.loadLow x els else t.loadNow x sh op d.toNat one els all
      | some low => if op.halves then t.loadHigh x sh op d.toNat els low else t.loadNow x sh op d.toNat one els all
      | none => t.loadNow x sh op d.toNat one els all

/-- What a load does with its environment. -/
def loadEff (op : LoadOp) (sh : Shape) (d a : RegN) (off : BitVec 8) (s : State) (x : Env) : Eff :=
  match s.checks x ⟨op.z, op.z, false, .read, 0⟩ x.members (offsetAddr a off op.z x) with
  | .bad y => y
  | .ok t all => loadOn op sh d a t x all

theorem load_run (s : State) (op : LoadOp) (d a : RegN) (off : BitVec 8) (ka : Bool) (st : BitVec 2) :
    s.load op d a off ka st =
      s.runWord (fun _ => loadShape d a ka st op.regs) (loadEff op (loadShape d a ka st op.regs) d a off) := rfl

/-- Nothing holds a load. -/
def LoadFree (t : State) (x : Env) (z : Nat) (acq one : Bool) (els all : List Elem) : Prop :=
  t.parks x els z = false ∧ (∀ y ∈ all, t.loadWaits x y z = false) ∧
  (one = false ∨ all.length ≤ 1 ∨ ∀ y ∈ all, x.queuedOn y z = false) ∧
  ((∀ y ∈ els, x.sharedAt y = false) ∨ ((x.launch.map fun l => l.redundant || l.oldest x.num).getD true) = true) ∧
  t.askFabric x z els = (t, false) ∧ (∀ y ∈ els, t.badElem x y z acq = false) ∧ x.unit.half = none ∧
  ((x.launch.map Launch.redundant).getD false = false ∨ (acq = false ∧ ∀ y ∈ els, x.sharedAt y = false))

theorem any_eq_false_of_forall {α : Type} {l : List α} {p : α → Bool} (h : ∀ y ∈ l, p y = false) : l.any p = false :=
  List.any_eq_false.mpr fun y hy => by simp [h y hy]

/-- Outside a redundant launch, and where nothing is shared, the threads read every element themselves. -/
theorem ownReads_eq {t : State} {x : Env} {acq : Bool} {els : List Elem}
    (h : (x.launch.map Launch.redundant).getD false = false ∨ (acq = false ∧ ∀ y ∈ els, x.sharedAt y = false)) :
    t.ownReads x acq els = els := by
  unfold State.ownReads
  rcases h with h | ⟨rfl, h⟩
  · rw [h]
    rfl
  · split
    · exact List.filter_eq_self.mpr fun y hy => by simp [h y hy]
    · rfl

theorem sound_eq {t : State} {x : Env} {n acc : Nat} {skip : Bool} {els : List Elem}
    (h : ∀ y ∈ els, t.badElem x y n skip = false) (f : Eff) : t.sound x n acc skip els f = f := by
  have hnil : (els.filter fun y => t.badElem x y n skip) = [] := List.filter_eq_nil_iff.mpr fun y hy => by simp [h y hy]
  unfold State.sound
  rw [hnil]

/-- A load that nothing holds reads. -/
theorem loadOn_free {op : LoadOp} {sh : Shape} {d a : RegN} {t : State} {x : Env} {all : List Elem}
    (h : LoadFree t x op.z op.acq (loadOnce a op.const t x all) (loadEls (loadOnce a op.const t x all) all) all) :
    loadOn op sh d a t x all =
      t.loadNow x sh op d.toNat (loadOnce a op.const t x all) (loadEls (loadOnce a op.const t x all) all) all := by
  obtain ⟨hpark, hwait, hqueue, hshared, hask, hbad, hhalf, hred⟩ := h
  unfold loadOn
  dsimp only
  generalize loadOnce a op.const t x all = one at *
  generalize loadEls one all = els at *
  have hq : (one && decide (1 < all.length) && all.any (x.queuedOn · op.z)) = false := by
    rcases hqueue with h | h | h
    · rw [h]
      rfl
    · rw [decide_eq_false (by omega), Bool.and_false, Bool.false_and]
    · rw [any_eq_false_of_forall h, Bool.and_false]
  have hsh : (els.any x.sharedAt && (x.launch.map fun l => !l.redundant && !l.oldest x.num).getD false) = false := by
    rcases hshared with h | h
    · rw [any_eq_false_of_forall h, Bool.false_and]
    · cases hl : x.launch with
      | none => simp
      | some l =>
        rw [hl] at h
        have hor : (l.redundant || l.oldest x.num) = true := h
        simp only [Option.map_some, Option.getD_some]
        rw [← Bool.not_or, hor]
        exact Bool.and_false _
  rw [hpark, any_eq_false_of_forall hwait, hq, hsh, ownReads_eq hred, hask, hhalf]
  simp only [Bool.false_eq_true, if_false, sound_eq hbad]

/-- The state after a load's reads. -/
def loadAfter (t : State) (x : Env) (z : Nat) (acq : Bool) (els all : List Elem) : State :=
  let u := (t.readAll x z acq els).1
  (((if acq then u.acquire x.core .device else u)).noteReads x z acq all
    (if acq then x.members else (all.filter x.sharedAt).map (·.pos))).takeFabric x els

theorem forwarding_own {t : State} {x : Env} {ps : List Nat} {read : List Nat → State → State × (Nat → W64 × W64)}
    (h : (x.launch.map Launch.redundant).getD false = false ∨ ps = []) :
    t.forwarding x ps read = some (read x.members t) := by
  unfold State.forwarding
  split
  next l b hl hb =>
    refine if_pos ?_
    rcases h with h | rfl
    · rw [hl] at h
      have hred : l.redundant = false := h
      rw [hred]
      rfl
    · exact Bool.or_true _
  · rfl

/-- What a load leaves that reads its own elements. -/
theorem loadNow_own {op : LoadOp} {sh : Shape} {d : Nat} {t : State} {x : Env} {one : Bool} {els all : List Elem}
    (hpos : ∀ y ∈ els, y.pos ∈ x.members)
    (h : (x.launch.map Launch.redundant).getD false = false ∨ (op.acq = false ∧ ∀ y ∈ all, x.sharedAt y = false)) :
    t.loadNow x sh op d one els all = (loadAfter t x op.z op.acq els all).loadPut x sh op d one all fun p =>
      look (t.readAll x op.z op.acq els).2 (if one then x.first else p) (0, 0) := by
  have hps : (x.launch.map Launch.redundant).getD false = false ∨
      (if op.acq then x.members else (all.filter x.sharedAt).map (·.pos)) = [] := by
    rcases h with h | ⟨ha, h⟩
    · exact .inl h
    · refine .inr ?_
      rw [ha, List.filter_eq_nil_iff.mpr fun y hy => by simp [h y hy]]
      rfl
  have hels : (els.filter fun y => x.members.contains y.pos) = els :=
    List.filter_eq_self.mpr fun y hy => List.contains_iff_mem.mpr (hpos y hy)
  unfold State.loadNow
  dsimp only
  rw [forwarding_own hps]
  simp only [readAt, hels]
  unfold loadAfter
  congr 1
  funext p
  cases one <;> rfl

/-! ### O31: the values that a load's destination receives -/

/-- A loaded value, zero- or sign-extended. -/
def loadLow (sign : Bool) (z : Nat) (v : W64 × W64) : Int := if sign then sext (8 * z) v.1.toNat else v.1.toNat

/-- Put results into a run of registers. -/
def Env.writeRun (k : Env) (d : RegN) (rs : List Res) : Env :=
  ((upto d.toNat rs.length).zip rs).foldl (fun k (n, r) => k.write n r) k

/-- The results of a load, by the number of its registers, give the threads their values. -/
def LoadHolds (regs : Nat) (sign : Bool) (z : Nat) (value : Nat → W64 × W64) (put : List Res → Prop) (at' : Nat → Nat)
    (ps : List Nat) : Prop :=
  (regs = 1 → ∃ r : Res, r.wide = false ∧ (∀ p ∈ ps, r.at p = wrap 32 (loadLow sign z (value (at' p)))) ∧ put [r]) ∧
  (regs = 2 → ∃ r : Res, r.wide = true ∧ (∀ p ∈ ps, r.at p = wrap 64 (loadLow sign z (value (at' p)))) ∧ put [r]) ∧
  (regs = 4 → ∃ r0 r1 r2 r3 : Res, r0.wide = false ∧ r1.wide = false ∧ r2.wide = false ∧ r3.wide = false ∧
    (∀ p ∈ ps, r0.at p + 2 ^ 32 * r1.at p = (value (at' p)).1.toNat ∧
      r2.at p + 2 ^ 32 * r3.at p = (value (at' p)).2.toNat) ∧ put [r0, r1, r2, r3])

/-- The results of a load. -/
def LoadOp.results (op : LoadOp) (x : Env) (one : Bool) (f : Nat → W64 × W64) : List Res :=
  let v (p : Nat) : Int := op.extend (f p).1.toNat
  let hi (p : Nat) : Int := ((f p).2.toNat : Int)
  if op.regs = 4 then [lanesRes false v, lanesRes false fun p => v p / 2 ^ 32, lanesRes false hi,
    lanesRes false fun p => hi p / 2 ^ 32]
  else [if one then x.sameWord (op.regs == 2) (v x.first) else lanesRes (op.regs == 2) v]

theorem put_results (op : LoadOp) (x : Env) (d : RegN) (one : Bool) (f : Nat → W64 × W64) :
    op.put x d.toNat one f = x.writeRun d (op.results x one f) := by
  unfold LoadOp.put LoadOp.results
  split
  · rfl
  · cases one <;> rfl

theorem halves_at (v : W64) {p : Nat} (hp : p < 32) {f : Nat → Int} (hf : f p = (v.toNat : Int)) :
    (lanesRes false f).at p + 2 ^ 32 * (lanesRes false fun p => f p / 2 ^ 32).at p = v.toNat := by
  have hv := v.isLt
  rw [(lanesRes_at hp).2, (lanesRes_at hp).2, hf]
  unfold wrap widthOf
  simp only [Bool.false_eq_true, if_false]
  omega

/-- The registers and reads a load word may have. -/
structure LoadOp.Plain (op : LoadOp) : Prop where
  regs : op.regs = 1 ∨ op.regs = 2 ∨ op.regs = 4
  quad : op.regs = 4 → op.sign = false ∧ op.const = false

/-- A value per lane. -/
theorem results_lanes {op : LoadOp} (ho : op.Plain) (x : Env) {value : Nat → W64 × W64} {put : List Res → Prop}
    {at' : Nat → Nat} {ps : List Nat} (hps : ∀ p ∈ ps, p < 32) {one : Bool} (h1 : one = false ∨ op.regs = 4)
    (hput : put (op.results x one fun p => value (at' p))) :
    LoadHolds op.regs op.sign op.z value put at' ps := by
  refine ⟨fun hr => ?_, fun hr => ?_, fun hr => ?_⟩
  · obtain rfl : one = false := h1.resolve_right (by omega)
    refine ⟨_, (lanesRes_at (f := fun p => op.extend (value (at' p)).1.toNat) (p := 0) (by decide)).1, fun p hp =>
      (lanesRes_at (hps p hp)).2, ?_⟩
    unfold LoadOp.results at hput
    rw [if_neg (by omega), hr] at hput
    exact hput
  · obtain rfl : one = false := h1.resolve_right (by omega)
    refine ⟨_, (lanesRes_at (f := fun p => op.extend (value (at' p)).1.toNat) (p := 0) (by decide)).1, fun p hp =>
      (lanesRes_at (hps p hp)).2, ?_⟩
    unfold LoadOp.results at hput
    rw [if_neg (by omega), hr] at hput
    exact hput
  · unfold LoadOp.results at hput
    rw [if_pos hr] at hput
    refine ⟨_, _, _, _, ?_, ?_, ?_, ?_, fun p hp => ⟨halves_at _ (hps p hp) ?_, halves_at _ (hps p hp) rfl⟩, hput⟩
    any_goals rfl
    unfold LoadOp.extend
    rw [(ho.quad hr).1]
    rfl

/-- One value for every member. -/
theorem results_same {op : LoadOp} {x : Env} (ha : Acting x) {value : Nat → W64 × W64} {put : List Res → Prop}
    (hr4 : op.regs ≠ 4) (hone : ∀ p, value p = value x.first) (hput : put (op.results x true value)) :
    LoadHolds op.regs op.sign op.z value put id x.members := by
  unfold LoadOp.results at hput
  rw [if_neg hr4] at hput
  have hat (wide : Bool) (p : Nat) (hp : p ∈ x.members) :
      (x.sameWord wide (op.extend (value x.first).1.toNat)).at p =
        wrap (widthOf wide) (loadLow op.sign op.z (value (id p))) := by
    rw [(sameWord_at ha hp).2, id, hone p]
    rfl
  refine ⟨fun hr => ⟨x.sameWord false (op.extend (value x.first).1.toNat), sameWord_wide .., hat false, ?_⟩,
    fun hr => ⟨x.sameWord true (op.extend (value x.first).1.toNat), sameWord_wide .., hat true, ?_⟩,
    fun hr => absurd hr hr4⟩
  · rw [hr] at hput
    exact hput
  · rw [hr] at hput
    exact hput

/-! ### O31: a load word -/

/-- The state of a span's load: the word completes in the sheaf of each window. -/
def spreadLoads (sh : Shape) (d : RegN) (z : Nat) (f : Nat → List Res) (u : State) (x : Env) (all : List Elem) : State :=
  ((upto (u.nextId + 1) x.grp.windows.length).zip x.grp.windows).foldl (fun v (gid, w) =>
    match v.env? (x.inGroup gid ((x.grp.windowLanes w).headD 0)) with
    | none => v
    | some k => v.settleEff k sh (v.access (k.writeRun d (f w)) k sh 0 0 z (windowElems x all w)))
    (u.expandGrp x)

/-- What the statement says of a load word. -/
def LoadReads (i : Instr) (d a : RegN) (off : BitVec 8) (ka : Bool) (st : BitVec 2) (z regs : Nat)
    (sign acq const : Bool) : Prop :=
  ∀ (s t : State) (e : Env) (all : List Elem), Executes s (loadShape d a ka st regs) e → e.members ≠ [] →
    let x := (s.prepare e (loadShape d a ka st regs)).2
    let k := (s.prepare e (loadShape d a ka st regs)).1.checks x ⟨z, z, false, .read, 0⟩ x.members (offsetAddr a off z x)
    let one := loadOnce a const t x all
    let els := loadEls one all
    let value (p : Nat) : W64 × W64 := look (t.readAll x z acq els).2 (if one then x.first else p) (0, 0)
    (∀ c v n, k = .bad (.trap c v n) → exec i s = .next (s.trapWord e c v n)) ∧
    (∀ u f l c v ps, k = .bad (.fault u f l c v ps) → exec i s = .next (u.dataFault e f l c v ps)) ∧
    (k = .ok t all → t.parks x els z = true → exec i s = .next (t.onUnit e.who fun u => { u with stat := .parked })) ∧
    (k = .ok t all → LoadFree t x z acq one els all →
      ((x.grp.span = false ∨ one = true) → LoadHolds regs sign z value (fun rs =>
        exec i s = .next ((loadAfter t x z acq els all).performed (x.writeRun d rs) x e.grp (loadShape d a ka st regs) 0 0 z
          all)) id e.members) ∧
      (x.grp.span = true → one = false →
        ∃ f : Nat → List Res, (∀ w, LoadHolds regs sign z value (fun rs => f w = rs) (fun p => 32 * w + p - x.grp.lo)
            (upto 0 32)) ∧
          exec i s = .next (spreadLoads (loadShape d a ka st regs) d z f (loadAfter t x z acq els all) x all)))

/-- Every element of a load that reads once lies at the first one's address. -/
theorem shared_of_once {s t : State} {x : Env} {a : RegN} {off : BitVec 8} {z : Nat} {const : Bool} {all : List Elem}
    (hx : Acting x) (hc : s.checks x ⟨z, z, false, .read, 0⟩ x.members (offsetAddr a off z x) = .ok t all)
    (h : ∀ y ∈ loadEls (loadOnce a const t x all) all, x.sharedAt y = false) : ∀ y ∈ all, x.sharedAt y = false := by
  obtain ⟨-, -, hpos, hels⟩ := checks_ok hc
  have hmem : ∀ y ∈ all, y.pos ∈ x.members := fun y hy => hpos ▸ List.mem_map_of_mem hy
  cases hone : loadOnce a const t x all with
  | false =>
    rw [hone] at h
    exact h
  | true =>
    rw [hone] at h
    have hva : ∀ y ∈ all, ∀ w ∈ all, y.va = w.va := by
      intro y hy w hw
      rw [(hels y hy).1, (hels w hw).1]
      unfold offsetAddr
      cases hs : x.solo with
      | true =>
        have h0 : x.members = [0] := by
          unfold Env.members
          rw [hs]
          rfl
        have hy0 := hmem y hy
        have hw0 := hmem w hw
        rw [h0, List.mem_singleton] at hy0 hw0
        rw [hy0, hw0]
      | false =>
        have hu : x.uniform true a.toNat = true := by
          unfold loadOnce at hone
          rw [hs, Bool.false_or] at hone
          simp only [Bool.and_eq_true] at hone
          exact hone.1.2
        rw [uniform_val hu (hx.range hs _ (hmem y hy)) (hx.range hs _ (hmem w hw))]
    intro y hy
    cases all with
    | nil => cases hy
    | cons w r =>
      have hw := h w (List.mem_cons_self ..)
      have heq := hva y hy w (List.mem_cons_self ..)
      unfold Env.sharedAt at hw ⊢
      rw [heq]
      exact hw

theorem load_reads {i : Instr} {op : LoadOp} {d a : RegN} {off : BitVec 8} {ka : Bool} {st : BitVec 2} (ho : op.Plain)
    (hi : ∀ s, exec i s = s.load op d a off ka st) :
    LoadReads i d a off ka st op.z op.regs op.sign op.acq op.const := by
  intro s t e all he hne x k one els value
  obtain ⟨hx, hmem⟩ := he.acting
  have hrun : exec i s = s.runWord (fun _ => loadShape d a ka st op.regs)
      (loadEff op (loadShape d a ka st op.regs) d a off) := (hi s).trans (load_run ..)
  have heff : ∀ c, k = c → loadEff op (loadShape d a ka st op.regs) d a off
      (s.prepare e (loadShape d a ka st op.regs)).1 (s.prepare e (loadShape d a ka st op.regs)).2 =
      match c with
      | .bad y => y
      | .ok t all => loadOn op (loadShape d a ka st op.regs) d a t (s.prepare e (loadShape d a ka st op.regs)).2 all := by
    rintro c rfl
    rfl
  have hone4 : op.regs = 4 → one = true → x.solo = true := fun hr h => by
    have h' : (x.solo || (op.const && x.whole && x.uniform true a.toNat && !t.ownView x all)) = true := h
    rw [(ho.quad hr).2] at h'
    simpa using h'
  refine ⟨fun c v n hb => ?_, fun u f l c v ps hb => ?_, fun hok hp => ?_, fun hok hfree => ?_⟩
  · exact hrun.trans (runWord_trap (sh := fun _ => loadShape d a ka st op.regs) he.acts he.clear (heff _ hb))
  · have h := heff _ hb
    rw [hrun]
    unfold State.runWord
    simp only [he.acts, he.clear, h]
  · have h : loadEff op (loadShape d a ka st op.regs) d a off
      (s.prepare e (loadShape d a ka st op.regs)).1 (s.prepare e (loadShape d a ka st op.regs)).2 = .hold t .parked :=
      (heff _ hok).trans (if_pos hp)
    rw [hrun]
    unfold State.runWord
    simp only [he.acts, he.clear, h]
  · obtain ⟨-, -, hpos, -⟩ := checks_ok hok
    have hall : ∀ y ∈ all, y.pos ∈ x.members := fun y hy => hpos ▸ List.mem_map_of_mem hy
    have hels : ∀ y ∈ els, y.pos ∈ x.members := fun y hy => hall y (by
      revert hy
      unfold els loadEls
      split
      · exact List.mem_of_mem_take
      · exact id)
    have ⟨_, _, _, _, _, _, _, hown⟩ := hfree
    have hred : (x.launch.map Launch.redundant).getD false = false ∨ op.acq = false ∧ ∀ y ∈ all, x.sharedAt y = false :=
      hown.imp_right fun h => ⟨h.1, shared_of_once hx hok h.2⟩
    have hput : loadEff op (loadShape d a ka st op.regs) d a off
        (s.prepare e (loadShape d a ka st op.regs)).1 (s.prepare e (loadShape d a ka st op.regs)).2 =
        (loadAfter t x op.z op.acq els all).loadPut x (loadShape d a ka st op.regs) op d.toNat one all value :=
      ((heff _ hok).trans (loadOn_free hfree)).trans (loadNow_own hels hred)
    refine ⟨fun h => ?_, fun hspan hone => ?_⟩
    · have hrun' : exec i s = .next ((loadAfter t x op.z op.acq els all).performed
          (x.writeRun d (op.results x one value)) x e.grp (loadShape d a ka st op.regs) 0 0 op.z all) := by
        refine hrun.trans (runWord_access he (hput.trans ?_))
        unfold State.loadPut
        rw [put_results]
        refine if_pos ?_
        rcases h with h | h <;> simp [h]
      by_cases hlanes : one = false ∨ op.regs = 4
      · refine results_lanes ho x (fun p hp => ?_) hlanes hrun'
        rw [← hmem] at hp
        refine hx.lanes ?_ p hp
        rcases h with h | h
        · exact .inl h
        · exact .inr (hone4 (hlanes.resolve_left (by simp [h])) h)
      · obtain ⟨h1, h4⟩ := not_or.mp hlanes
        have h1 : one = true := by simpa using h1
        rw [← hmem]
        rw [h1] at hrun'
        refine results_same hx h4 (fun p => ?_) hrun'
        simp only [value, h1, if_true]
    · refine ⟨fun w => op.results x false fun p => value (32 * w + p - x.grp.lo), fun w =>
        results_lanes ho x (fun p hp => by rw [mem_upto] at hp; omega) (.inl rfl) rfl, ?_⟩
      refine hrun.trans (runWord_moved (sh := fun _ => loadShape d a ka st op.regs) he.acts he.clear (hput.trans ?_))
      unfold State.loadPut
      rw [hone, if_neg (by simp [hspan])]
      unfold State.eachSheaf spreadLoads
      simp only [put_results]
      rfl

/-- Settles O31: each load word by its size, its registers and its order. -/
theorem loads : Obligations.Loads := by
  unfold Obligations.Loads
  intro d a off ka st shape va once free after reads
  have plain1 (op : LoadOp) (h : op.regs = 1) : op.Plain := ⟨.inl h, fun h4 => absurd (h.symm.trans h4) (by decide)⟩
  have plain2 (op : LoadOp) (h : op.regs = 2) : op.Plain := ⟨.inr (.inl h), fun h4 => absurd (h.symm.trans h4) (by decide)⟩
  have plain4 (op : LoadOp) (h : op.regs = 4) (hs : op.sign = false ∧ op.const = false) : op.Plain :=
    ⟨.inr (.inr h), fun _ => hs⟩
  exact ⟨load_reads (op := ⟨1, 1, false, false, false, false⟩) (plain1 _ rfl) fun _ => rfl,
    load_reads (op := ⟨1, 1, true, false, false, false⟩) (plain1 _ rfl) fun _ => rfl,
    load_reads (op := ⟨2, 1, false, false, false, false⟩) (plain1 _ rfl) fun _ => rfl,
    load_reads (op := ⟨2, 1, true, false, false, false⟩) (plain1 _ rfl) fun _ => rfl,
    load_reads (op := ⟨4, 1, false, false, false, false⟩) (plain1 _ rfl) fun _ => rfl,
    load_reads (op := ⟨8, 2, false, false, false, false⟩) (plain2 _ rfl) fun _ => rfl,
    load_reads (op := ⟨16, 4, false, false, false, true⟩) (plain4 _ rfl ⟨rfl, rfl⟩) fun _ => rfl,
    load_reads (op := ⟨4, 1, false, true, false, false⟩) (plain1 _ rfl) fun _ => rfl,
    load_reads (op := ⟨8, 2, false, true, false, false⟩) (plain2 _ rfl) fun _ => rfl,
    load_reads (op := ⟨16, 4, false, false, false, false⟩) (plain4 _ rfl ⟨rfl, rfl⟩) fun _ => rfl,
    load_reads (op := ⟨4, 1, false, false, true, false⟩) (plain1 _ rfl) fun _ => rfl,
    load_reads (op := ⟨8, 2, false, false, true, false⟩) (plain2 _ rfl) fun _ => rfl⟩

end Sys2Proof.Machine
end

