-- ==== Sys2Proof/Proofs/MatrixPerforms.lean ====
section
/-! PROOF. A matrix word of a block whose number another block has too (O40). -/

namespace Sys2Proof.Machine

/-! ### O40: two blocks of one number, with different scratchpads

The step updates the tile of every block of the number it names, of each from its own scratchpad; the statement updates
them all from the scratchpad of the first. -/

namespace TwinBlocks

/-- A partition with one tile, and a B operand of ones. -/
def part : Part :=
  ⟨[⟨none, false, none, []⟩], List.replicate 8 0, List.replicate 16 none, 0, Memory.writeN [] 0 (List.replicate 64 1)⟩

/-- A word that multiplies the row of lane 0, of 8-bit integers, by the columns on the diagonal, without a mask. -/
def word : MatReq := ⟨true, 0, 0, BitVec.ofNat 256 (7 * 2 ^ 32), 7, true, 0, [(0, 0)], 7, 0⟩

/-- Its request, issued by thread 0. -/
def request : EReq :=
  { rid := 0, part := 0, issuers := [0], lanesForm := true, word := 0, seg := 0, pos := 0, ord := 0, kind := .matrix word
    ins := [], outs := [], undef := false, fault := none, seen := [], fin := false }

/-- A block, number 1, whose A operand holds a value, with the request in progress. -/
def block (v : Nat) : Block :=
  { Block.placed 1 1 (Grp.root 0 0 32 0 0) with
    spad := Memory.writeN [] 0 (List.replicate 16 (BitVec.ofNat 8 v)), parts := [part], eng := [request] }

/-- Two blocks of number 1. -/
def state : State := { State.reset with launches := [Launch.plain 1], blocks := [block 1, block 2] }

/-- The request as the step finds it. -/
def found : Eng := ⟨block 1, Launch.plain 1, request⟩

/-- Element 0 of tile 0 in each block. -/
def elements (s : State) : List W40 := s.blocks.map fun b => ((nth b.parts 0 ⟨[], [], [], 0, []⟩).tile 0).elem 0

/-- The elements that a step leaves. -/
def after (o : Host.Outcome State Fault Refusal) : List W40 :=
  match o with
  | .next t => elements t
  | _ => []

/-- The state that the statement gives. -/
def stated : State :=
  (word.reads.foldl (fun (t : State) y => t.touchOuts 1 y.1 y.2)
    (state.onBlock 1 fun b => b.onPart 0 fun q => q.onTile 0
      (matTile (block 1) (nth (block 1).parts 0 ⟨[], [], [], 0, []⟩) word))).engFinish 1 request

/-- Each block's tile takes the products of its own operands, where the statement gives both those of the first. -/
theorem tiles_differ : state.eng? 1 0 = some found ∧ (block 1).spadBad word.reads = none ∧
    after (exec (.matrixPerform 1 0) state) = [16, 32] ∧ elements stated = [16, 16] := by decide +kernel

end TwinBlocks

/-- Refutes O40: of two blocks of one number the step updates the tile of the second from the second's own scratchpad,
where the statement updates it from the first's. -/
theorem not_matrixPerforms : ¬ Obligations.MatrixPerforms := by
  unfold Obligations.MatrixPerforms
  rintro ⟨hperform, -⟩
  obtain ⟨eng_found, sound, exec_elements, stated_elements⟩ := TwinBlocks.tiles_differ
  obtain ⟨-, -, hacts, -⟩ := hperform TwinBlocks.state 1 TwinBlocks.found TwinBlocks.word eng_found rfl
    (by decide)
  have hfirst : ∀ r ∈ TwinBlocks.found.b.eng, ¬r.rid < TwinBlocks.found.r.rid := fun r _ => Nat.not_lt_zero _
  obtain ⟨hdone, -⟩ := hacts (.inl rfl) fun r hr => ⟨fun h => hfirst r hr h.1.1, fun h => hfirst r hr h.1.1⟩
  have hexec : exec (.matrixPerform 1 0) TwinBlocks.state = .next TwinBlocks.stated := hdone rfl sound
  have hsame := exec_elements.symm.trans (congrArg TwinBlocks.after hexec)
  exact absurd (hsame.trans stated_elements) (by decide)

end Sys2Proof.Machine
end

