-- ==== Sys2Proof/Proofs/LaunchWords.lean ====
section
/-! PROOF. O44: LAUNCH and LWAIT, refuted by a peer address that aliases the package's own memory. -/

namespace Sys2Proof.Machine

/-! ### O44: a peer address that names the package's own memory

After power-on reset the package answers fabric identity 0 itself, so address `peerBase + o` of the peer window reads
near memory at `o`: LIVE of a region block at 0 is also what LIVE at `peerBase` reads. -/

namespace PeerAlias

theorem path_dram : ∀ b ∈ [0], b % 64 = 0 ∧ isDram b = true := by decide

/-- LIVE read through the peer window before and after one launch is counted on the region block at 0. -/
theorem live_peer : State.reset.live peerBase = 0 ∧ (State.reset.addLive [0] 1).live peerBase = 1 := by decide +kernel

end PeerAlias

open PeerAlias in
/-- Refutes O44: counting a launch on the region block at 0 changes what LIVE reads at `peerBase`, which the path does not
hold. -/
theorem not_launchWords : ¬ Obligations.LaunchWords := by
  unfold Obligations.LaunchWords
  rintro ⟨-, -, counted, -⟩
  obtain ⟨-, unchanged⟩ := counted State.reset [0] peerBase (by decide) path_dram
  have h := unchanged (by decide) (by decide)
  rw [live_peer.1, live_peer.2] at h
  exact absurd h (by decide)

end Sys2Proof.Machine
end

