-- ==== Sys2Proof/Proofs/LaunchEvents.lean ====
section
/-! PROOF. O45: what happens to blocks and launches, refuted by two sheaves that share a live lane. -/

namespace Sys2Proof.Machine

/-! ### O45: two sheaves of one window that share a live lane

The merged sheaf takes the OR of the two predicate bits of a lane; the statement takes the second sheaf's bit wherever
that sheaf has the lane. -/

namespace SharedLane

/-- A sheaf of window 0 with one issue set, lane 0, and p0 as given. -/
def sheaf (p0 : W32) : Grp :=
  { Grp.root 0 0 32 0 0 with span := false, units := [ISet.start 0], preds := [⟨.bits p0, 0⟩] }

/-- Lane 0 is live in the second sheaf and in the merged one; p0 is false in the second and true in the merged one. -/
theorem lane_merged : (sheaf 0).live = 1 ∧ bit (mergeSheaf (sheaf 1) (sheaf 0)).live.toNat 0 = true ∧
    (sheaf 0).pval 0 0 = false ∧ (mergeSheaf (sheaf 1) (sheaf 0)).pval 0 0 = true := by decide +kernel

end SharedLane

open SharedLane in
/-- Refutes O45: where both of two sheaves that merge have lane 0 live, with p0 true in the first and false in the second,
the merged sheaf's p0 is true there, and the statement gives the second's, false. -/
theorem not_launchEvents : ¬ Obligations.LaunchEvents := by
  unfold Obligations.LaunchEvents
  rintro ⟨-, -, -, -, -, merged, -⟩
  obtain ⟨-, -, -, -, -, pred, -⟩ := merged (sheaf 1) (sheaf 0) rfl
  obtain ⟨live, live_merged, hb, hm⟩ := lane_merged
  have h := pred 0 0 (by decide) (by decide) live_merged
  rw [live, if_pos (by decide), hb, hm] at h
  exact absurd h (by decide)

end Sys2Proof.Machine
end

