-- ==== Sys2Proof/Proofs/OutsideEvents.lean ====
section
/-! PROOF. O48: what reaches the machine from outside, refuted by a half-read word. -/

namespace Sys2Proof.Machine

/-! ### O48: a storage error at a word that has read its first half

The step forgets the first half of an LD128 that the group has read before the block's record waits for its ring; in the
state that the statement gives the half stays. -/

namespace HalfRead

/-- A block, number 1, whose group has read the first half of its word. -/
def block : Block :=
  let g := Grp.root 1 0 32 0 0
  Block.placed 1 1 { g with units := g.units.map fun u => { u with half := some [] } }

/-- A fault record of the launch's context that waits for its ring. -/
def waiting : PendRec := ⟨(Launch.plain 1).ctx, false, 0, none, none⟩

/-- The block runs, and a record waits before its own. -/
def state : State := { State.reset with launches := [Launch.plain 1], blocks := [block], pend := [waiting] }

/-- The halves that the groups of a state hold. -/
def halves (s : State) : List (Option (List (Nat × W64))) :=
  s.blocks.flatMap fun b => b.groups.flatMap fun g => g.units.map (·.half)

/-- The group that meets the error. -/
def who : Who := .kern 1 1 0

/-- The halves that a step leaves. -/
def after (o : Host.Outcome State Fault Refusal) : List (Option (List (Nat × W64))) :=
  match o with
  | .next t => halves t
  | _ => []

/-- The group as the step finds it. -/
def acting : Env := (state.env? who).getD (State.reset.kernEnv who block (Launch.plain 1) (Grp.root 1 0 32 0 0) (ISet.start 0))

/-- The step leaves no half; in the state that the statement gives the half stays. -/
theorem halves_differ : state.env? who = some acting ∧ acting.solo = false ∧ state.block? acting.bid = some block ∧
    after (exec (.storageError (.read who none) 0 0) state) = [none] ∧
    halves (state.storageEnd block (acting.fault 9 0 0 0 acting.members)) = [some []] := by decide +kernel

end HalfRead

open HalfRead in
/-- Refutes O48: the group's storage error, met while an earlier record waits for the ring, leaves it without the half that it
has read, and the statement leaves it with it. -/
theorem not_outsideEvents : ¬ Obligations.OutsideEvents := by
  unfold Obligations.OutsideEvents
  rintro ⟨storage, -⟩
  obtain ⟨env_acting, not_solo, block_acting, exec_halves, stated_halves⟩ := halves_differ
  have h := congrArg after (storage state who block acting 0 0 block_acting not_solo env_acting)
  rw [exec_halves] at h
  change [none] = halves (state.storageEnd block (acting.fault 9 0 0 0 acting.members)) at h
  rw [stated_halves] at h
  exact absurd h (by decide)

end Sys2Proof.Machine
end

