-- ==== Sys2Proof/Proofs/ThreadEnds.lean ====
section
/-! PROOF. O20: threads and handlers that end, refuted by a trace into the tile of a second block of the same number. -/

namespace Sys2Proof.Machine

/-! ### O20: a trace buffer that lies in the tile of a second block of the same number

As the handler's threads exit, the record of their terminator goes into the tile of the block on core 1. That write puts
the whole of that block, with a group more than the first has, in the place of every block of its number. -/

namespace TracedTile

/-- A group of 32 threads from an index on, in a handler of the trap context 7. -/
def served : Grp :=
  let g := Grp.root 1 0 32 0 0
  { g with units := g.units.map fun u => { u with stat := .inTrap 7 } }

/-- Block 1 on a core, with the served group and others. -/
def block (core : Nat) (more : List Grp) : Block := { Block.placed 1 1 served with core := core, groups := served :: more }

/-- The handler's group. -/
def handler : Grp := Grp.root 2 0 32 0 0

/-- The trap context that the handler runs in. -/
def context : TrapCtx := ⟨7, 0, 0, 1, 1, 0, 0, 0, 0, 0, 0, 0, [handler], []⟩

/-- The launch of both blocks, with a trace of block 0 into the first tile of core 1. -/
def launch : Launch := { Launch.plain 1 with trace := some ⟨0, onChipBase + 0x1000000 + 0x300000, 32⟩ }

/-- Two blocks of number 1, of which the second has a group of thread 32 and those after it. -/
def state : State :=
  { State.reset with
    launches := [launch], blocks := [block 0 [], block 1 [Grp.root 3 32 64 0 0]], traps := [context]
    mem := Memory.writeN [] 0 [1] }

/-- The handler's unit as the step finds it. -/
def acting : Env :=
  (state.env? (.hand 7 2 0)).getD (state.kernEnv (.hand 7 2 0) (block 0 []) launch handler (ISet.start 0))

/-- The served unit. -/
def unit : ISet := { ISet.start 0 with stat := .inTrap 7 }

/-- The served group as an agent. -/
def threads : Env := (state.env? (.kern 1 1 unit.low)).getD (state.kernEnv (.kern 1 1 0) (block 0 []) launch served unit)

/-- The handler, the one unit that it serves, and its threads, as the step finds them. -/
theorem handler_found :
    (acting.who = .hand 7 2 0 ∧ acting.bid = 1 ∧ handler.units = [acting.unit]) ∧
    (state.trap? 7 = some context ∧ state.block? 1 = some (block 0 []) ∧ (block 0 []).served 7 = [(served, unit)]) ∧
    (state.env? (.kern 1 1 unit.low) = some threads ∧ threads.grp = served ∧ threads.unit = unit ∧ threads.members ≠ []) ∧
    ∀ p ∈ threads.members, threads.idx p ∈ acting.members.map acting.idx := by decide +kernel

/-- Thread 32 is live in the block that the step leaves, and in no unit of the first block before it. -/
theorem live_thread : ((state.endHandler acting .exit).block? 1).map (fun b => b.live.contains 32) = some true ∧
    ∀ x ∈ (block 0 []).groups, ∀ v ∈ x.units, 32 ∉ x.indices v := by decide +kernel

end TracedTile

open TracedTile in
/-- Refutes O20: after a handler's exit that is traced into the tile of a second block of the same number, the block holds a
thread that it did not hold before. -/
theorem not_threadEnds : ¬ Obligations.ThreadEnds := by
  unfold Obligations.ThreadEnds
  rintro ⟨-, -, -, -, -, last, -⟩
  obtain ⟨⟨hwho, hbid, hunit⟩, ⟨context_found, block_found, served_alone⟩, ⟨hk, hgrp, hu, hne⟩, threads_handled⟩ :=
    handler_found
  obtain ⟨-, b', found, -, exits⟩ := last state acting threads 7 2 0 context (block 0 []) handler served unit .exit hwho
    context_found hbid.symm (hbid ▸ block_found) rfl rfl rfl hunit served_alone (hbid ▸ hk) hgrp hu hne threads_handled
  have live : 32 ∈ b'.live := by
    have h := live_thread.1
    rw [hbid] at found
    rw [found] at h
    simpa using h
  obtain ⟨x, hx, v, hv, hi, -⟩ := ((exits rfl).2 32).mp live
  exact live_thread.2 x hx v hv hi

end Sys2Proof.Machine
end

