-- ==== Sys2Proof/Proofs/SwapEvents.lean ====
section
/-! PROOF. O46: saving, restoring, pre-emption and kill, and what a slot keeps. -/

namespace Sys2Proof.Machine

/-! ### O46: saving, restoring and the launch control block -/

section SwapEvents

/-! #### The events -/

theorem exec_fetchFaultSwap {s : State} {b : Block} {l : Launch} {page : W64} (hb : s.block? b.bid = some b)
    (hl : s.launch? b.lid = some l) (hp : b.faultPage = some page) (hs : b.saving = true) (hr : l.st = .running) :
    exec (.fetchFaultSwap b.bid) s = .next (match s.freeSlot l with
      | none => s.setBlock { b with saving := false }
      | some slot => if s.savable b then s.saveBlock b l slot (.swapped slot page) else s) := by
  show execFetchFaultSwap b.bid s = _
  unfold execFetchFaultSwap
  simp only [hb, hl, hp, hs, hr]
  rfl

theorem exec_blockSave {s : State} {b : Block} {l : Launch} {slot : Nat} (hb : s.block? b.bid = some b)
    (hl : s.launch? b.lid = some l) (hst : l.st = .preempting) (hs : b.saving = true) (hsave : s.savable b = true)
    (hf : s.freeSlot l = some slot) (all : ∀ k ∈ s.startedOf l, k.st = .running → s.savable k = true) :
    exec (.blockSave b.bid) s = .next (s.saveBlock b l slot (.preempted slot)) := by
  have ok : ((s.startedOf l).all fun x => x.st != .running || s.savable x) = true := by
    simp only [List.all_eq_true, Bool.or_eq_true, bne_iff_ne]
    exact fun k hk => or_iff_not_imp_left.mpr fun h => all k hk (not_not.mp h)
  show execBlockSave b.bid s = _
  simp [execBlockSave, hb, hl, hf, hst, hs, hsave, ok]

theorem exec_swapRestore_swapped {s t u : State} {b : Block} {l : Launch} {core slot : Nat} {page : W64}
    (hb : s.block? b.bid = some b) (hl : s.launch? b.lid = some l) (hr : l.st = .running)
    (hst : b.st = .swapped slot page) (hf : s.fetchable l.ctx (coreDie core) b.bid page = (t, true))
    (hu : t.restoreBlock b core = some u) : exec (.swapRestore b.bid core) s = .next u := by
  show execSwapRestore b.bid core s = _
  simp [execSwapRestore, hb, hl, hr, hst, hf, hu]

theorem exec_swapRestore_preempted {s u : State} {b : Block} {l : Launch} {core slot : Nat}
    (hb : s.block? b.bid = some b) (hl : s.launch? b.lid = some l) (hr : l.st = .running)
    (hst : b.st = .preempted slot) (hp : l.progress ≠ 2) (hu : s.restoreBlock b core = some u) :
    exec (.swapRestore b.bid core) s = .next u := by
  show execSwapRestore b.bid core s = _
  simp [execSwapRestore, hb, hl, hr, hst, hp, hu]

/-- An operation of the launch control block that names no live launch. -/
theorem exec_unnamed {s : State} {part op : Nat} (h : s.lctlHead part = some (op, none)) :
    (op = 1 → exec (.preEmpt part) s = .next (s.lctlDone part 1)) ∧
    (op = 2 → exec (.launchResume part) s = .next (s.lctlDone part 1)) ∧
    (op = 3 → exec (.kill part) s = .next (s.lctlDone part 1)) := by
  refine ⟨?_, ?_, ?_⟩ <;> rintro rfl
  · show execPreEmpt part s = _
    simp [execPreEmpt, h]
  · show execLaunchResume part s = _
    simp [execLaunchResume, h]
  · show execKill part s = _
    simp [execKill, h]

theorem exec_preEmpt {s : State} {part : Nat} {l : Launch} (h : s.lctlHead part = some (1, some l)) :
    (l.st ≠ .running → exec (.preEmpt part) s = .next (s.lctlDone part 3)) ∧
    (l.st = .running →
      let need := ((s.startedOf l).filter fun b => b.st.slot?.isNone).length
      (l.slots - (s.slotsHeld l).length < need → exec (.preEmpt part) s = .next (s.lctlDone part 2)) ∧
      (need ≤ l.slots - (s.slotsHeld l).length →
        let marked : List Block := s.blocks.map fun b =>
          if b.lid = l.lid ∧ b.st = .running then { b with saving := true } else b
        exec (.preEmpt part) s = .next ({ s.onLaunch l.lid fun l => { l with st := .preempting } with
          blocks := marked }.lctlStarted part))) := by
  have run : exec (.preEmpt part) s = execPreEmpt part s := rfl
  refine ⟨fun hr => ?_, fun hr => ⟨fun lack => ?_, fun room => ?_⟩⟩ <;> rw [run]
  · simp [execPreEmpt, h, hr]
  · simp [execPreEmpt, h, hr, lack]
  · simp [execPreEmpt, h, hr, Nat.not_lt.mpr room]

theorem exec_launchResume {s : State} {part : Nat} {l : Launch} (h : s.lctlHead part = some (2, some l)) :
    (l.st ≠ .preempted → exec (.launchResume part) s = .next (s.lctlDone part 3)) ∧
    (l.st = .preempted → exec (.launchResume part) s =
      .next ((s.onLaunch l.lid fun l => { l with st := .running }).lctlStarted part)) := by
  have run : exec (.launchResume part) s = execLaunchResume part s := rfl
  refine ⟨fun hr => ?_, fun hr => ?_⟩ <;> rw [run] <;> simp [execLaunchResume, h, hr]

theorem exec_kill {s : State} {part : Nat} {l : Launch} (h : s.lctlHead part = some (3, some l)) :
    (l.killed = true → exec (.kill part) s = .next (s.lctlDone part 3)) ∧
    (l.killed = false → exec (.kill part) s =
      .next (((s.onLaunch l.lid fun l => { l with st := .killing false, status := 2 }).killSweep l).lctlStarted part)) := by
  have run : exec (.kill part) s = execKill part s := rfl
  refine ⟨fun hk => ?_, fun hk => ?_⟩ <;> rw [run] <;> simp [execKill, h, hk]

theorem exec_quiesceTokenReturn {s : State} {l : Launch} (hl : s.launch? l.lid = some l) (hk : l.killed = true) :
    exec (.quiesceTokenReturn l.lid) s =
      .next (if (s.killSweep l).drained l then (s.killSweep l).closeLaunch l else s.killSweep l) := by
  show execQuiesceTokenReturn l.lid s = _
  cases hd : (s.killSweep l).drained l <;> simp [execQuiesceTokenReturn, hl, hk, hd]

/-! #### Restoring -/

theorem restoreBlock_needs {s t : State} {b : Block} {l : Launch} {core slot : Nat} (hl : s.launch? b.lid = some l)
    (hst : b.st.slot? = some slot) (h : s.restoreBlock b core = some t) :
    s.settled b = true ∧ (s.room l core).isSome ∧ (l.redundant = true → coreDie core = coreDie b.core) := by
  unfold State.restoreBlock at h
  split at h
  next l' slot' hl' _ =>
    obtain rfl : l = l' := Option.some.inj (hl ▸ hl')
    split at h
    · exact absurd h (by simp)
    next free =>
      obtain ⟨place, found, -⟩ := Option.map_eq_some_iff.mp h
      simp only [Bool.or_eq_true, Bool.not_eq_true', Bool.and_eq_true, bne_iff_ne, not_or, Bool.not_eq_false,
        not_and, not_not] at free
      exact ⟨free.1, by simp [found], free.2⟩
  next no => exact absurd hst (no l slot hl)

/-- What a block's groups keep as they are restored: all but their registers, where they are held and their fetches. -/
def Grp.restored (g : Grp) : Nat × Bool × Nat × Nat × List PredCell × List LaneSt × List SqEntry :=
  (g.gid, g.span, g.lo, g.hi, g.preds, g.lanes, g.stq)

theorem undef_regs (g : Grp) (r : Nat) (mask : W32) (nonce : Nat) :
    g.undef r mask nonce = { g with regs := (g.undef r mask nonce).regs } := by
  unfold Grp.undef
  dsimp only
  rw [unpair_regs]
  split <;> rfl

theorem foldl_undef_preds (rs : List Nat) (n : Grp → Nat → Nat) (g : Grp) :
    (rs.foldl (fun (g : Grp) r => g.undef r g.live (n g r)) g).preds = g.preds := by
  induction rs generalizing g with
  | nil => rfl
  | cons r rs ih =>
    rw [List.foldl_cons, ih, undef_regs]

theorem scramble_groups (b : Block) (l : Launch) (n : Nat) :
    (b.scramble l n).groups.map Grp.restored = b.groups.map Grp.restored ∧
    (b.scramble l n).groups.map (·.units) = b.groups.map (·.units) := by
  let nonce (g : Grp) (r : Nat) : Nat := n + 2 ^ 12 * g.gid + 32 * r
  have same (g : Grp) : SameThreads ((upto 0 g.regs.length).foldl (fun g r => g.undef r g.live (nonce g r)) g) g :=
    SameThreads.foldl (fun g r => undef_same g r _ _) _ g
  have preds (g : Grp) := foldl_undef_preds (upto 0 g.regs.length) nonce g
  unfold Block.scramble
  dsimp only
  rw [List.map_map, List.map_map]
  constructor <;> refine List.map_congr_left fun g _ => ?_
  · obtain ⟨span, lo, hi, -, gid, lanes, stq, -⟩ := same g
    unfold Grp.restored
    exact Prod.ext gid (Prod.ext span (Prod.ext lo (Prod.ext hi (Prod.ext (preds g) (Prod.ext lanes stq)))))
  · exact (same g).units

theorem returned_groups (s : State) (b : Block) (l : Launch) (core core' sb tb ob num : Nat) (gs : List Grp) :
    let k := b.returned core sb tb ob (s.place l num core' (fun _ _ => 0) gs)
    k.groups.map Grp.restored = gs.map Grp.restored ∧ k.groups.map (·.units) = gs.map (fun g => g.units.map ISet.refetch) ∧
    k.groups.map (·.regs) = gs.map (·.regs) := by
  have here := map_place s l num core' (fun _ _ => 0) gs
  have keeps {α : Type} (f : Grp → α) (hf : ∀ g, f g = f g.placedHere) :
      (s.place l num core' (fun _ _ => 0) gs).map f = gs.map f := by
    have e : f = f ∘ Grp.placedHere := funext hf
    rw [e, ← List.map_map, here, List.map_map]
  unfold Block.returned
  simp only [List.map_map]
  exact ⟨keeps _ fun _ => rfl, keeps _ fun _ => rfl, keeps _ fun _ => rfl⟩

theorem block?_setBlock {s : State} {b k : Block} (hb : s.block? b.bid = some b) (hk : k.bid = b.bid) :
    (s.setBlock k).block? b.bid = some k := by
  have any : s.blocks.any (·.bid == k.bid) = true :=
    List.any_eq_true.mpr ⟨b, List.mem_of_find?_eq_some hb, by simp [hk]⟩
  rw [← hk]
  exact find?_replaced (by simp) s.blocks any

/-- The state in which a block, as it has been read from its slot, stands on a core again. -/
def State.standsAgain (s : State) (b : Block) (l : Launch) (core : Nat) (at' : Nat × Nat × Nat) : State :=
  (s.setBlock (b.returned core at'.1 at'.2.1 at'.2.2 (s.place l b.num core (fun _ _ => 0) b.groups))).dropCaches core

theorem restoreBlock_sound {s t : State} {b : Block} {l : Launch} {core slot : Nat} (hl : s.launch? b.lid = some l)
    (hst : b.st.slot? = some slot) (mine : ∀ a ∈ upto (l.slotAt slot) l.z, s.paOk l.ctx.part a = true)
    (good : ∀ k ∈ sectorsOf (l.slotAt slot) l.z, sectorBad s.sums k = false) (h : s.restoreBlock b core = some t) :
    (s.homeBytes (l.slotAt slot) l.z = b.slotImg → ∃ at', t = s.standsAgain b l core at') ∧
    (s.homeBytes (l.slotAt slot) l.z ≠ b.slotImg → ∃ at' n, t = (s.spend n).standsAgain (b.scramble l s.free) l core at') := by
  unfold State.restoreBlock at h
  split at h
  next l' slot' hl' hs' =>
    obtain rfl : l = l' := Option.some.inj (hl ▸ hl')
    obtain rfl : slot = slot' := Option.some.inj (hst ▸ hs')
    split at h
    · exact absurd h (by simp)
    obtain ⟨at', -, rfl⟩ := Option.map_eq_some_iff.mp h
    clear h
    have none : (sectorsOf (l.slotAt slot) l.z).find? (fun k => isDram (32 * k) && sectorBad s.sums k) = none :=
      List.find?_eq_none.mpr fun k hk => by simp [good k hk]
    obtain ⟨ok, hok⟩ : ∃ ok, (upto (l.slotAt slot) l.z).all (s.paOk l.ctx.part) = ok := ⟨_, rfl⟩
    have all : ok = true := hok ▸ List.all_eq_true.mpr mine
    -- the kernel would count out the bytes of the slot, were they not named
    rw [hok]
    obtain ⟨sb, tb, ob⟩ := at'
    split
    next sb tb ob _ =>
    extract_lets mine' changed b' u gs
    split
    next k found =>
      rw [if_pos all, none] at found
      exact absurd found (by simp)
    have num : (b.scramble l s.free).num = b.num := rfl
    constructor <;> intro eq
    · have hc : changed = false := by simp [changed, mine', all, eq]
      have hb : b' = b := by simp [b', hc]
      have hu : u = s := by simp [u, hc]
      exact ⟨(sb, tb, ob), by unfold State.standsAgain gs; rw [hb, hu]⟩
    · have hc : changed = true := by simp [changed, mine', all, eq]
      have hb : b' = b.scramble l s.free := by simp [b', hc]
      obtain ⟨n, hu⟩ : ∃ n, u = s.spend n := ⟨_, if_pos hc⟩
      exact ⟨(sb, tb, ob), n, by unfold State.standsAgain gs; rw [hb, hu, num]⟩
  next no => exact absurd hst (no l slot hl)

theorem standsAgain_block {s : State} {b k : Block} (l : Launch) (core : Nat) (at' : Nat × Nat × Nat)
    (hb : s.block? b.bid = some b) (hk : k.bid = b.bid) :
    (s.standsAgain k l core at').mem = s.mem ∧ (s.standsAgain k l core at').block? b.bid =
      some (k.returned core at'.1 at'.2.1 at'.2.2 (s.place l k.num core (fun _ _ => 0) k.groups)) :=
  ⟨by simp [State.standsAgain, State.dropCaches], by
    unfold State.standsAgain State.dropCaches
    rw [State.block?, State.setCore_blocks]
    exact block?_setBlock (k := k.returned _ _ _ _ _) hb hk⟩

/-- What a restored block has (R344). -/
theorem restored_block {s t : State} {b : Block} {l : Launch} {core slot : Nat} (hb : s.block? b.bid = some b)
    (hl : s.launch? b.lid = some l) (hst : b.st.slot? = some slot)
    (mine : ∀ a ∈ upto (l.slotAt slot) l.z, s.paOk l.ctx.part a = true ∧ isDram a = true)
    (good : ∀ k ∈ sectorsOf (l.slotAt slot) l.z, sectorBad s.sums k = false) (h : s.restoreBlock b core = some t) :
    t.mem = s.mem ∧ ∃ k, t.block? b.bid = some k ∧ k.st = .running ∧ k.core = core ∧
      k.groups.map (fun g => (g.gid, g.span, g.lo, g.hi, g.preds, g.lanes, g.stq)) =
        b.groups.map (fun g => (g.gid, g.span, g.lo, g.hi, g.preds, g.lanes, g.stq)) ∧
      k.groups.map (·.units) = b.groups.map (fun g => g.units.map ISet.refetch) ∧
      (s.homeBytes (l.slotAt slot) l.z = b.slotImg → k.spad = b.spad ∧ k.absent = b.absent ∧ k.priv = b.priv ∧
        k.bars = b.bars ∧ k.tbs = b.tbs ∧ k.parts = b.parts ∧ k.groups.map (·.regs) = b.groups.map (·.regs)) ∧
      (s.homeBytes (l.slotAt slot) l.z ≠ b.slotImg → k.spad = b.spad.writeN 0 (freeBytes s.free l.s)) := by
  obtain ⟨same, changed⟩ := restoreBlock_sound hl hst (fun a ha => (mine a ha).1) good h
  by_cases eq : s.homeBytes (l.slotAt slot) l.z = b.slotImg
  · obtain ⟨at', rfl⟩ := same eq
    obtain ⟨mem, found⟩ := standsAgain_block l core at' hb rfl
    obtain ⟨groups, units, regs⟩ := returned_groups s b l core core at'.1 at'.2.1 at'.2.2 b.num b.groups
    exact ⟨mem, _, found, rfl, rfl, groups, units, fun _ => ⟨rfl, rfl, rfl, rfl, rfl, rfl, regs⟩, fun ne => absurd eq ne⟩
  · obtain ⟨at', n, rfl⟩ := changed eq
    obtain ⟨mem, found⟩ := standsAgain_block (s := s.spend n) (k := b.scramble l s.free) l core at' hb rfl
    obtain ⟨groups, units, -⟩ := returned_groups (s.spend n) (b.scramble l s.free) l core core at'.1 at'.2.1 at'.2.2
      b.num (b.scramble l s.free).groups
    obtain ⟨scrambled, stand⟩ := scramble_groups b l s.free
    have refetch : (b.scramble l s.free).groups.map (fun g => g.units.map ISet.refetch) =
        b.groups.map fun g => g.units.map ISet.refetch := by
      simpa only [List.map_map, Function.comp_def] using congrArg (List.map (List.map ISet.refetch)) stand
    exact ⟨mem, _, found, rfl, rfl, groups.trans scrambled, units.trans refetch, fun e => absurd e eq, fun _ => rfl⟩

/-! #### Saving -/

theorem partWrite_dram {s : State} {p a : Nat} {bs : List Byte} (ha : isDram a = true) :
    (s.partWrite p a bs).blocks = s.blocks ∧
    ((∀ x ∈ upto a bs.length, s.paOk p x = true) → (s.partWrite p a bs).mem = s.mem.writeN a bs) := by
  have win : winOf a = .near ∨ winOf a = .far := by
    unfold isDram at ha
    split at ha <;> simp_all
  have blocks : (s.homeWrite a bs).blocks = s.blocks := by
    have kept : (s.memWrite a bs).blocks = s.blocks := by
      unfold State.memWrite State.mailboxWake
      split <;> rfl
    unfold State.homeWrite
    rcases win with h | h <;> rw [h] <;> exact kept
  unfold State.partWrite
  refine ⟨?_, fun ok => ?_⟩
  · split
    · exact blocks
    · rfl
  · rw [if_pos (List.all_eq_true.mpr ok)]
    exact State.homeWrite_mem win

theorem landed_keeps (g : Grp) :
    let h := g.units.foldl Grp.landed g
    h = { g with lanes := h.lanes } ∧ h.lanes.map (fun x => (x.lane, x.stack, x.fpctl)) =
      g.lanes.map fun x => (x.lane, x.stack, x.fpctl) := by
  suffices h : ∀ (us : List ISet) (g : Grp),
      us.foldl Grp.landed g = { g with lanes := (us.foldl Grp.landed g).lanes } ∧
      (us.foldl Grp.landed g).lanes.map (fun x => (x.lane, x.stack, x.fpctl)) =
        g.lanes.map fun x => (x.lane, x.stack, x.fpctl) from h g.units g
  intro us
  induction us with
  | nil => exact fun g => ⟨rfl, rfl⟩
  | cons u us ih =>
    intro g
    obtain ⟨rest, lanes⟩ := ih (g.landed u)
    refine ⟨rest, lanes.trans ?_⟩
    unfold Grp.landed Grp.onLanes mapIf
    rw [List.map_map]
    refine List.map_congr_left fun x _ => ?_
    dsimp only [Function.comp]
    split <;> rfl

/-- What a saved block keeps (R344). -/
theorem asSaved_keeps (s : State) (b : Block) (l : Launch) (st : BSt) :
    let k := s.asSaved b l st
    k.groups.map (fun g => (g.gid, g.span, g.lo, g.hi, g.regs, g.preds, g.units, g.stq)) =
      b.groups.map (fun g => (g.gid, g.span, g.lo, g.hi, g.regs, g.preds, g.units, g.stq)) ∧
    k.groups.map (fun g => g.lanes.map fun x => (x.lane, x.stack, x.fpctl)) =
      b.groups.map fun g => g.lanes.map fun x => (x.lane, x.stack, x.fpctl) := by
  unfold State.asSaved
  dsimp only
  rw [List.map_map, List.map_map]
  constructor <;> refine List.map_congr_left fun g _ => ?_ <;> obtain ⟨rest, lanes⟩ := landed_keeps g
  · dsimp only [Function.comp]
    rw [rest]
  · exact lanes

theorem nth_append_left {α : Type} {a b : List α} {i : Nat} {d : α} (h : i < a.length) : nth (a ++ b) i d = nth a i d := by
  unfold nth
  rw [List.getElem?_append_left h]

/-- A slot's bytes: the scratchpad's, then the registers' (R344). -/
theorem slotImage_starts (b : Block) (l : Launch) :
    ∃ more, b.slotImage l = b.spad.readN 0 l.s ++ ((upto 0 (nth l.areas 1 0)).map (b.regByte l) ++ more) :=
  ⟨_, by simp only [Block.slotImage, List.append_assoc]; rfl⟩

theorem slotImage_bytes (b : Block) (l : Launch) :
    (∀ j, j < l.s → nth (b.slotImage l) j 0 = b.spad.read j) ∧
    ∀ j, j < nth l.areas 1 0 → nth (b.slotImage l) (l.s + j) 0 = b.regByte l j := by
  have len : (b.spad.readN 0 l.s).length = l.s := by rw [Memory.readN_eq, List.length_map, length_upto]
  obtain ⟨more, image⟩ := slotImage_starts b l
  rw [image]
  refine ⟨fun j hj => ?_, fun j hj => ?_⟩
  · rw [nth_append_left (len.symm ▸ hj), Memory.readN_eq, nth_map_upto0 hj]
  · have right : nth (b.spad.readN 0 l.s ++ ((upto 0 (nth l.areas 1 0)).map (b.regByte l) ++ more)) (l.s + j) 0 =
        nth ((upto 0 (nth l.areas 1 0)).map (b.regByte l) ++ more) j 0 := by
      unfold nth
      rw [List.getElem?_append_right (by omega), len, Nat.add_sub_cancel_left]
    rw [right, nth_append_left (by simpa using hj), nth_map_upto0 hj]

/-- A save that a scratchpad sector's check stops. -/
theorem saveBlock_bad {s : State} {b : Block} {l : Launch} {slot k : Nat} {st : BSt}
    (h : (sectorsOf 0 l.s).find? (sectorBad b.sums) = some k) :
    s.saveBlock b l slot st = s.storageEnd b (b.swapError (0xFFFFF00000000000 + 32 * k)) := by
  unfold State.saveBlock
  split
  next k' h' => rw [Option.some.inj (h.symm.trans h')]
  next h' => exact absurd (h.symm.trans h') (by simp)

theorem paOk_of_same {s t : State} (cfg : t.partcfg = s.partcfg) (mgmt : t.mgmt = s.mgmt) : t.paOk = s.paOk := by
  funext p a
  have part : t.partOf = s.partOf := by
    funext d
    simp only [State.partOf, State.diesPer, cfg]
  have area : t.inSatchelArea = s.inSatchelArea := by
    funext x
    simp only [State.inSatchelArea, mgmt]
  unfold State.paOk
  rw [part, area]

theorem leave_chip (s : State) (b : Block) : ∃ m, s.leave b = { s with chip := m } := by
  unfold State.leave
  dsimp only
  split
  · exact ⟨s.chip, rfl⟩
  · exact ⟨_, rfl⟩

/-- A block that is saved, and its slot (R344). -/
theorem saveBlock_sound {s : State} {b : Block} {l : Launch} {slot : Nat} {st : BSt} (hb : s.block? b.bid = some b)
    (good : ∀ k ∈ sectorsOf 0 l.s, sectorBad b.sums k = false) (dram : isDram (l.slotAt slot) = true) :
    (s.saveBlock b l slot st).block? b.bid = some (s.asSaved b l st) ∧
    ((∀ a ∈ upto (l.slotAt slot) (s.asSaved b l st).slotImg.length, s.paOk l.ctx.part a = true) →
      (s.saveBlock b l slot st).mem = s.mem.writeN (l.slotAt slot) (s.asSaved b l st).slotImg) := by
  unfold State.saveBlock
  split
  next k' h' =>
    exact absurd (List.find?_some h') (by rw [good k' (List.mem_of_find?_eq_some h')]; exact Bool.false_ne_true)
  have bid : (s.asSaved b l st).bid = b.bid := rfl
  generalize s.asSaved b l st = k at bid ⊢
  extract_lets k' u
  obtain ⟨m, leave⟩ := leave_chip s { k with st := .running }
  obtain ⟨n, hu⟩ : ∃ n, u = (({ s with chip := m } : State).setBlock k).spend n := ⟨_, by unfold u; rw [leave]⟩
  clear_value u
  subst hu
  have ub : (({ s with chip := m } : State).setBlock k).block? b.bid = some k := block?_setBlock hb bid
  obtain ⟨blocks, mem⟩ := partWrite_dram (s := (({ s with chip := m } : State).setBlock k).spend n) (p := l.ctx.part)
    (bs := k.slotImg) dram
  have same : ((({ s with chip := m } : State).setBlock k).spend n).paOk = s.paOk := paOk_of_same rfl rfl
  constructor
  · rw [State.block?, blocks]
    exact ub
  · intro ok
    rw [same] at mem
    rw [mem ok]
    rfl

/-- The byte of a register that a thread holds (R344). -/
theorem regByte_held {b : Block} {l : Launch} {g : Grp} {w r lane k : Nat} (hr : r < l.g) (hlane : lane < 32) (hk : k < 4)
    (hg : g ∈ b.groups)
    (only : ∀ h ∈ b.groups, h.lo ≤ (l.blockRange b.num).1 / 32 * 32 + 32 * w + lane →
      (l.blockRange b.num).1 / 32 * 32 + 32 * w + lane - h.lo ∈ h.positions → h = g)
    (lo : g.lo ≤ (l.blockRange b.num).1 / 32 * 32 + 32 * w + lane)
    (pos : (l.blockRange b.num).1 / 32 * 32 + 32 * w + lane - g.lo ∈ g.positions) (rel : (g.cell r).rel = 0) :
    b.regByte l (128 * (l.g * w + r) + 4 * lane + k) =
      nth (leBytes 4 (g.val r ((l.blockRange b.num).1 / 32 * 32 + 32 * w + lane - g.lo)).toNat) k 0 := by
  have hj : (128 * (l.g * w + r) + 4 * lane + k) / 128 = l.g * w + r := by omega
  have hw : (128 * (l.g * w + r) + 4 * lane + k) / (128 * l.g) = w := by
    rw [← Nat.div_div_eq_div_mul, hj, Nat.mul_add_div (by omega), Nat.div_eq_of_lt hr, Nat.add_zero]
  have hreg : (128 * (l.g * w + r) + 4 * lane + k) / 128 % l.g = r := by
    rw [hj, Nat.mul_add_mod, Nat.mod_eq_of_lt hr]
  have hl : (128 * (l.g * w + r) + 4 * lane + k) % 128 / 4 = lane := by omega
  have hb : (128 * (l.g * w + r) + 4 * lane + k) % 4 = k := by omega
  unfold Block.regByte
  dsimp only
  rw [hw, hreg, hl, hb]
  generalize (l.blockRange b.num).1 / 32 * 32 + 32 * w + lane = i at only lo pos ⊢
  have found : (b.groups.find? fun (g : Grp) => g.lo ≤ i && g.positions.contains (i - g.lo)) = some g := by
    cases hf : b.groups.find? fun (g : Grp) => g.lo ≤ i && g.positions.contains (i - g.lo) with
    | none => exact absurd (List.find?_eq_none.mp hf g hg) (by simp [lo, pos])
    | some h =>
      have here := List.find?_some hf
      simp only [Bool.and_eq_true, decide_eq_true_eq, List.contains_iff_mem] at here
      rw [only h (List.mem_of_find?_eq_some hf) here.1 here.2]
  rw [found]
  dsimp only
  rw [if_pos rel]
  generalize (g.val r (i - g.lo)).toNat = x
  obtain rfl | rfl | rfl | rfl : k = 0 ∨ k = 1 ∨ k = 2 ∨ k = 3 := by omega
  all_goals simp [leBytes, nth, Nat.div_div_eq_div_mul]

end SwapEvents

/-- Settles O46: each event by the equation of its function; a block that is saved keeps what `asSaved` leaves it, its slot's
image starts with the scratchpad and the registers, and a restored block has the saved one's state, or a scrambled one. -/
theorem swapEvents : Obligations.SwapEvents := by
  unfold Obligations.SwapEvents
  refine ⟨fun s b l hb hl => ⟨?_, ?_, ?_, ?_, ?_⟩, fun s part l => ⟨?_, ?_, ?_, ?_⟩, ?_, ?_, ?_, ?_, ?_⟩
  · intro page slot hp hs hr hf
    have run := exec_fetchFaultSwap hb hl hp hs hr
    refine ⟨fun ok => ?_, fun no => ?_⟩ <;> rw [run, hf]
    · simp [ok]
    · simp [no]
  · intro page hp hs hr hf
    rw [exec_fetchFaultSwap hb hl hp hs hr, hf]
  · exact fun slot hst hs ok hf all => exec_blockSave hb hl hst hs ok hf all
  · exact fun core slot page t u hr hst hf hu => exec_swapRestore_swapped hb hl hr hst hf hu
  · exact fun core slot u hr hst hp hu => exec_swapRestore_preempted hb hl hr hst hp hu
  · exact fun op h => exec_unnamed h
  · exact exec_preEmpt
  · exact exec_launchResume
  · exact exec_kill
  · intro s l hl hk
    have run := exec_quiesceTokenReturn hl hk
    exact ⟨fun hd => run.trans (by rw [if_pos hd]), fun hd => run.trans (by rw [hd]; rfl)⟩
  · exact fun s t b l core slot hl hst h => restoreBlock_needs hl hst h
  · intro s b l slot st hb
    refine ⟨fun k hk => saveBlock_bad hk, fun good dram => ?_⟩
    obtain ⟨found, mem⟩ := saveBlock_sound (st := st) hb good dram
    obtain ⟨groups, lanes⟩ := asSaved_keeps s b l st
    obtain ⟨spad, regs⟩ := slotImage_bytes (s.asSaved b l st) l
    exact ⟨_, found, rfl, rfl, rfl, rfl, rfl, rfl, rfl, groups, lanes, spad, regs, mem⟩
  · exact fun b l g w r lane k hr hlane hk hg only lo pos rel => regByte_held hr hlane hk hg only lo pos rel
  · exact fun s t b l core slot hb hl hst mine good h => restored_block hb hl hst mine good h

end Sys2Proof.Machine
end

