-- ==== Sys2Proof/Proofs/ReductionsPerform.lean ====
section
/-! PROOF. O37: reductions and add-on-stores as they are performed. -/

namespace Sys2Proof.Machine

/-! ### O37: reductions and add-on-stores at their home -/

section ReductionsPerform

theorem exec_quietReductionPerform {s : State} {h : HomeReq} {op i : Nat} {rel : Option Scope} {y : SqElem}
    (found : s.homeq.find? (·.hid == h.hid) = some h) (kind : h.entry.kind = .red op rel) (elem : h.entry.elems[i]? = some y)
    (free : s.homeBlocked h [y] = false)
    (first : ∀ z ∈ h.entry.elems.take i, sharesByte h.bid h.bid h.entry.kind h.entry.kind y z = false) :
    let t := s.homePerform h.bid h.core h.entry.src h.entry.kind y
    let left (k : HomeReq) : Option HomeReq :=
      if k.hid ≠ h.hid then some k
      else if dropAt k.entry.elems i = [] then none
      else some { k with entry := { k.entry with elems := dropAt k.entry.elems i } }
    exec (.quietReductionPerform h.hid i) s = .next { t with homeq := t.homeq.filterMap left } := by
  intro t left
  have before : ((h.entry.elems.take i).any fun z => sharesByte h.bid h.bid h.entry.kind h.entry.kind y z) = false :=
    List.any_eq_false.mpr fun z hz => by simp [first z hz]
  show execQuietReductionPerform h.hid i s = _
  unfold execQuietReductionPerform
  rw [found]
  dsimp only
  split
  next op' rel' e _ he =>
    obtain rfl : y = e := Option.some.inj (elem.symm.trans he)
    rw [if_neg (by simp [free, before])]
    unfold left
    congr 2
    refine List.filterMap_congr fun k _ => ?_
    by_cases hk : k.hid = h.hid
    · rw [if_pos hk, if_neg (not_not.mpr hk)]
      split
      next none => rw [if_pos none]
      next some => rw [if_neg fun none => some none]
    · rw [if_neg hk, if_pos hk]
  next no => exact absurd elem (no op rel y kind)

theorem exec_addOnStorePerform {s : State} {h : HomeReq} {k40 : Bool} {tile : Nat}
    (found : s.homeq.find? (·.hid == h.hid) = some h) (kind : h.entry.kind = .addon k40 tile)
    (free : s.homeBlocked h h.entry.elems = false) (whole : s.stillQueued h.bid h.entry.pos = false)
    (last : s.matrixBefore h tile = false) :
    let t := h.entry.elems.foldl (fun (t : State) y => t.homePerform h.bid h.core h.entry.src (.addon k40 tile) y) s
    exec (.addOnStorePerform h.hid) s =
      .next (({ t with homeq := t.homeq.filter (·.hid != h.hid) } : State).addonWatch h.bid h.entry h.entry.elems) := by
  show execAddOnStorePerform h.hid s = _
  simp [execAddOnStorePerform, found, kind, free, whole, last]

/-! #### Watchpoints -/

theorem zip_upto_eq {α : Type} (l : List α) (d : α) :
    (upto 0 l.length).zip l = (upto 0 l.length).map fun i => (i, nth l i d) := by
  refine List.ext_getElem? fun i => ?_
  rw [List.getElem?_map]
  by_cases h : i < l.length
  · rw [zip_upto_getElem? l i l[i] (List.getElem?_eq_getElem h), getElem?_upto h, Nat.zero_add]
    simp [nth, List.getElem?_eq_getElem h]
  · rw [List.getElem?_eq_none (by simpa using Nat.not_lt.mp h), List.getElem?_eq_none (by simpa using Nat.not_lt.mp h)]
    rfl

theorem filterMap_only_one {α β : Type} {g : α → Option β} {i : α} {v : β} {l : List α} (nodup : l.Nodup) (hi : i ∈ l)
    (hv : g i = some v) (rest : ∀ k ∈ l, k ≠ i → g k = none) : l.filterMap g = [v] := by
  induction l with
  | nil => exact absurd hi (by simp)
  | cons a l ih =>
    obtain ⟨ha, nodup⟩ := List.nodup_cons.mp nodup
    by_cases eq : a = i
    · subst eq
      have none : l.filterMap g = [] := List.filterMap_eq_nil_iff.mpr fun k hk =>
        rest k (List.mem_cons_of_mem _ hk) fun e => ha (e ▸ hk)
      rw [List.filterMap_cons_some hv, none]
    · rw [List.filterMap_cons_none (rest a List.mem_cons_self eq)]
      exact ih nodup ((List.mem_cons.mp hi).resolve_left fun e => eq e.symm) fun k hk =>
        rest k (List.mem_cons_of_mem _ hk)

/-- The address at which the elements touch watchpoint i, where it has not been reported for them. -/
def State.touched (s : State) (l : Launch) (q : SqEntry) (es : List SqElem) (i : Nat) : Option W64 :=
  if i ∈ q.seen then none
  else (nth (nth s.dbg l.ctx.part ⟨[], [], false, []⟩).wps i none).bind fun w =>
    (es.find? fun x => w.hits l.ctx.desc 1 x.va.toNat 4).map (·.va)

theorem touched_nil (s : State) (l : Launch) (q : SqEntry) (i : Nat) : s.touched l q [] i = none := by
  unfold State.touched
  split
  · rfl
  · cases nth (nth s.dbg l.ctx.part ⟨[], [], false, []⟩).wps i none <;> rfl

theorem addonWatch_eq {s : State} {b : Block} {l : Launch} (q : SqEntry) (es : List SqElem)
    (hb : s.block? b.bid = some b) (hl : s.launch? b.lid = some l) :
    let hits := (upto 0 (nth s.dbg l.ctx.part ⟨[], [], false, []⟩).wps.length).filterMap fun i =>
      (s.touched l q es i).map fun va => (i, va)
    s.addonWatch b.bid q es = if es.isEmpty || !s.primary b || hits.isEmpty then s
      else (hits.foldl (fun (s : State) (h : Nat × W64) =>
        (s.trigger l.ctx 2).report l.ctx (reportImage l b.num q.word.toNat h.2.toNat (nameOf q.src.lanes q.is) 4 0 0) none) s).onParts
          b.bid q.pos fun q => { q with seen := q.seen ++ hits.map (·.1) } := by
  intro hits
  unfold State.addonWatch
  rw [hb]
  dsimp only
  rw [hl]
  dsimp only
  rw [zip_upto_eq _ none, List.filterMap_map]
  have same : (upto 0 (nth s.dbg l.ctx.part ⟨[], [], false, []⟩).wps.length).filterMap
      ((fun w : Nat × Option Watch => if q.seen.contains w.1 = true then none
        else (w.2.bind fun w => es.find? fun x => w.hits l.ctx.desc 1 x.va.toNat 4).map fun x => (w.1, x.va)) ∘
        fun i => (i, nth (nth s.dbg l.ctx.part ⟨[], [], false, []⟩).wps i none)) = hits := by
    refine List.filterMap_congr fun i _ => ?_
    unfold State.touched
    dsimp only [Function.comp]
    by_cases seen : i ∈ q.seen
    · simp [seen]
    · cases nth (nth s.dbg l.ctx.part ⟨[], [], false, []⟩).wps i none <;> simp [seen, Function.comp_def]
  rw [same]
  cases es.isEmpty || !s.primary b <;> cases hits.isEmpty <;> rfl

theorem addonWatch_untouched {s : State} {b : Block} {l : Launch} {q : SqEntry} {es : List SqElem}
    (hb : s.block? b.bid = some b) (hl : s.launch? b.lid = some l)
    (none : ∀ i, i < (nth s.dbg l.ctx.part ⟨[], [], false, []⟩).wps.length → s.touched l q es i = none) :
    s.addonWatch b.bid q es = s := by
  rw [addonWatch_eq q es hb hl]
  rw [List.filterMap_eq_nil_iff.mpr fun i hi => by rw [none i (by simpa using (mem_upto.mp hi).2)]; rfl]
  simp

theorem addonWatch_once {s : State} {b : Block} {l : Launch} {q : SqEntry} {es : List SqElem} {i : Nat} {va : W64}
    (hb : s.block? b.bid = some b) (hl : s.launch? b.lid = some l)
    (hi : i < (nth s.dbg l.ctx.part ⟨[], [], false, []⟩).wps.length) (hit : s.touched l q es i = some va)
    (only : ∀ k, k < (nth s.dbg l.ctx.part ⟨[], [], false, []⟩).wps.length → k ≠ i → s.touched l q es k = none)
    (primary : s.primary b = true) :
    s.addonWatch b.bid q es = ((s.trigger l.ctx 2).report l.ctx
      (reportImage l b.num q.word.toNat va.toNat (nameOf q.src.lanes q.is) 4 0 0) none).onParts b.bid q.pos
        fun q => { q with seen := q.seen ++ [i] } := by
  have some : es.isEmpty = false := by
    cases es with
    | nil => exact absurd hit (by rw [touched_nil]; simp)
    | cons => rfl
  rw [addonWatch_eq q es hb hl]
  rw [filterMap_only_one (v := (i, va)) ((upto_sorted 0 _).imp Nat.ne_of_lt) (mem_upto.mpr ⟨Nat.zero_le _, by simpa using hi⟩)
    (by rw [hit]; rfl) fun k hk ne => by rw [only k (by simpa using (mem_upto.mp hk).2) ne]; rfl]
  simp [some, primary]

/-! #### One element at its home -/

theorem homePerform_spad {s : State} {b : Block} {core o op tile : Nat} {src : Origin} {rel : Option Scope} {k40 : Bool}
    {y : SqElem} (hb : s.block? b.bid = some b) (hy : y.loc = .spad o) (hr : y.rel = 0) :
    (y.bytes.length = 4 → s.homePerform b.bid core src (.red op rel) y =
      s.spadWrite b.bid o (leBytes 4 (laNew op (b.spad.nat o 4) (leNat y.bytes) 0))) ∧
    s.homePerform b.bid core src (.addon k40 tile) y =
      s.spadWrite b.bid o (leBytes 4 (addOn k40 (b.spad.nat o 4) (BitVec.ofNat 40 (leNat y.bytes)))) := by
  have home : leNat (s.homeLoc b.bid (.spad o) 4) = b.spad.nat o 4 := by simp [State.homeLoc, hb, Memory.nat]
  refine ⟨fun len => ?_, ?_⟩
  · simp [State.homePerform, State.carried, hy, hr, SqKind.width, len, State.localWrite, home]
  · simp [State.homePerform, State.carried, hy, hr, SqKind.width, State.localWrite, home]

theorem countAccess_unmoved (s : State) (l : Option Launch) (c : Option Ctx) (num core : Nat) (who : Named) (va : W64) (pa : Nat) :
    s.countAccess l c num core who va pa false = s := by
  unfold State.countAccess
  split <;> rfl

theorem countBy_unmoved (s : State) (bid core idx : Nat) (src : Origin) (va : W64) (pa : Nat) :
    s.countBy bid core idx src va pa false = s :=
  countAccess_unmoved ..

theorem dram_win {a : Nat} (h : isDram a = true) : winOf a = .near ∨ winOf a = .far := by
  unfold isDram at h
  split at h <;> simp_all

theorem dram_plain {a : Nat} (h : isDram a = true) : isFabric a = false ∧ answersOnly a = false := by
  have fabric : isFabric a = false := by
    unfold isFabric
    rcases dram_win h with w | w <;> rw [w]
  refine ⟨fabric, ?_⟩
  unfold answersOnly
  rw [fabric]
  rcases dram_win h with w | w <;> rw [w] <;> rfl

theorem arrive_mem {s : State} {x : PtStore} (h : isDram x.pa = true) : (s.arrive x).mem = s.mem.writeN x.pa x.bytes := by
  unfold State.arrive
  rw [(dram_plain h).2, if_neg Bool.false_ne_true]
  exact State.homeWrite_mem (dram_win h)

/-- An element of 4 bytes at a physical address, by what it makes of what stands there. -/
theorem homePerform_pa {s : State} {bid core a : Nat} {src : Origin} {kind : SqKind} {y : SqElem} {new : Nat → Nat}
    {far : Nat × W64} (hy : y.loc = .pa a) (hr : y.rel = 0) (hfar : kind.farOp = some far)
    (hnew : isFabric a = false → s.homePerform bid core src kind y =
      ((s.arrive ⟨bid, y.idx, a, y.va, leBytes 4 (new (s.homeNat a 4)), src, []⟩).dropLine (fun c => c == core) a 4).countBy
        bid core y.idx src y.va a y.mig) :
    let t := s.homePerform bid core src kind y
    (isFabric a = true → t = s.send ⟨bid, y.idx, a, y.va, y.bytes, src, []⟩ (some far)) ∧
    (isFabric a = false → t = ((s.arrive ⟨bid, y.idx, a, y.va, leBytes 4 (new (s.homeNat a 4)), src, []⟩).dropLine
      (fun c => c == core) a 4).countBy bid core y.idx src y.va a y.mig) ∧
    (isDram a = true → y.mig = false → t.mem = s.mem.writeN a (leBytes 4 (new (s.homeNat a 4)))) := by
  intro t
  refine ⟨fun h => ?_, hnew, fun dram mig => ?_⟩
  · unfold t State.homePerform State.carried
    rw [if_pos hr, hy]
    dsimp only
    rw [if_pos h, hfar]
  · unfold t
    rw [hnew (dram_plain dram).1, mig, countBy_unmoved]
    exact arrive_mem dram

theorem homePerform_red {s : State} {bid core a op : Nat} {src : Origin} {rel : Option Scope} {y : SqElem}
    (hy : y.loc = .pa a) (hr : y.rel = 0) (len : y.bytes.length = 4) (plain : isFabric a = false) :
    s.homePerform bid core src (.red op rel) y =
      ((s.arrive ⟨bid, y.idx, a, y.va, leBytes 4 (laNew op (s.homeNat a 4) (leNat y.bytes) 0), src, []⟩).dropLine
        (fun c => c == core) a 4).countBy bid core y.idx src y.va a y.mig := by
  unfold State.homePerform State.carried SqKind.width
  rw [if_pos hr, hy, len]
  dsimp only
  rw [if_neg (by simp [plain])]

theorem homePerform_addon {s : State} {bid core a tile : Nat} {src : Origin} {k40 : Bool} {y : SqElem}
    (hy : y.loc = .pa a) (hr : y.rel = 0) (plain : isFabric a = false) :
    s.homePerform bid core src (.addon k40 tile) y =
      ((s.arrive ⟨bid, y.idx, a, y.va, leBytes 4 (addOn k40 (s.homeNat a 4) (BitVec.ofNat 40 (leNat y.bytes))), src, []⟩).dropLine
        (fun c => c == core) a 4).countBy bid core y.idx src y.va a y.mig := by
  unfold State.homePerform State.carried SqKind.width
  rw [if_pos hr, hy]
  dsimp only
  rw [if_neg (by simp [plain])]

theorem addOn_k40 (m : Nat) (x : W40) :
    addOn true m x < 2 ^ 32 ∧
      sext 32 (addOn true m x) = max (-2 ^ 31) (min (2 ^ 31 - 1) (sext 32 m + sext 40 x.toNat)) := by
  unfold addOn sat
  rw [if_pos rfl]
  refine ⟨wrap_lt 32 _, ?_⟩
  rw [sext_wrap (by decide) (by omega) (by omega)]
  omega

end ReductionsPerform

/-- Settles O37: each event by the equation of its function, the watchpoints by the list of those touched, and one element at
its home by where it lies. -/
theorem reductionsPerform : Obligations.ReductionsPerform := by
  unfold Obligations.ReductionsPerform
  refine ⟨fun s h op i rel y found kind elem free first => exec_quietReductionPerform found kind elem free first,
    fun s h k40 tile found kind free whole last => exec_addOnStorePerform found kind free whole last,
    fun s b l q es hb hl => ⟨fun none => addonWatch_untouched hb hl none,
      fun i va hi hit only primary => addonWatch_once hb hl hi hit only primary⟩,
    fun s b core o op tile src rel k40 y hb hy hr => homePerform_spad hb hy hr,
    fun s bid core a op tile src rel k40 y hy hr => ⟨fun len => ?_, ?_⟩, fun m x => ⟨addOn_k40 m x, rfl⟩⟩
  · exact homePerform_pa (new := fun m => laNew op m (leNat y.bytes) 0) hy hr rfl (homePerform_red hy hr len)
  · exact homePerform_pa (new := fun m => addOn k40 m (BitVec.ofNat 40 (leNat y.bytes))) hy hr rfl (homePerform_addon hy hr)

end Sys2Proof.Machine
end

