-- ==== Sys2Proof/Proofs/AddressWaits.lean ====
section
/-! PROOF. What a WAITA reads, as a word and behind its sleep (R134, R224). -/

namespace Sys2Proof.Machine

/-! ### O35: what a WAITA reads -/

/-- An element on a page whose frames are not counted. -/
def Elem.uncounted (y : Elem) : Elem := { y with mig := false }

/-- Reads, the publication of reads, watchpoints and samples do not ask whether a page's frames are counted. -/
theorem readAll_uncounted (e : Env) (n : Nat) (skip : Bool) (els : List Elem) :
    ∀ s : State, s.readAll e n skip (els.map Elem.uncounted) = s.readAll e n skip els := by
  induction els with
  | nil => exact fun _ => rfl
  | cons y r ih =>
    intro s
    rw [List.map_cons]
    unfold State.readAll
    dsimp only
    rw [ih]
    rfl

theorem noteReads_uncounted (s : State) (e : Env) (n : Nat) (acq : Bool) (els : List Elem) :
    s.noteReads e n acq (els.map Elem.uncounted) = s.noteReads e n acq els := by
  unfold State.noteReads
  rw [List.foldl_map]
  rfl

theorem watched_uncounted (s : State) (e : Env) (kind n : Nat) (els : List Elem) :
    s.watched e kind n (els.map Elem.uncounted) = (s.watched e kind n els).map (List.map Elem.uncounted) := by
  unfold State.watched
  split
  next c b _ _ _ =>
    split
    · rfl
    · rw [List.map_filterMap]
      refine List.filterMap_congr fun w _ => ?_
      cases w with
      | none => rfl
      | some w =>
        have hl : (els.map Elem.uncounted).filter (fun y => w.hits c.desc kind y.va n) =
          (els.filter fun y => w.hits c.desc kind y.va n).map Elem.uncounted := List.filter_map
        dsimp only
        rw [hl]
        cases els.filter fun y => w.hits c.desc kind y.va n <;> rfl
  · rfl

theorem watchHalt_uncounted (s : State) (e : Env) (hits : List (List Elem)) :
    s.watchHalt e (hits.map (List.map Elem.uncounted)) = s.watchHalt e hits := by
  unfold State.watchHalt
  split
  · rw [List.foldl_map]
    refine congrArg (fun f => List.foldl f _ hits) (funext fun u => funext fun l => ?_)
    rw [List.map_map]
    cases l <;> rfl
  · rfl

theorem sample_uncounted (s : State) (e : Env) (acc n : Nat) (els : List Elem) :
    s.sample e acc n (els.map Elem.uncounted) = s.sample e acc n els := by
  unfold State.sample
  simp only [List.map_map]
  rfl

theorem performed_uncounted (t : State) (x' x : Env) (old : Grp) (sh : Shape) (acc n : Nat) (els : List Elem) :
    t.performed x' x old sh 0 acc n (els.map Elem.uncounted) = t.performed x' x old sh 0 acc n els := by
  unfold State.performed
  simp only [watched_uncounted, watchHalt_uncounted, sample_uncounted, List.isEmpty_map, if_true]
  rfl

/-- The elements of the members still to be read are those of the checks. -/
theorem waitaElems_fresh {els : List Elem} (hva : ∀ y ∈ els, y.va < 2 ^ 64) (idx : Nat → Nat) :
    waitaElems (els.map fun y => ⟨idx y.pos, y.pos, BitVec.ofNat 64 y.va, y.loc, 0, false⟩) =
      els.map Elem.uncounted := by
  unfold waitaElems
  rw [List.filter_eq_self.mpr (fun m hm => by obtain ⟨y, -, rfl⟩ := List.mem_map.mp hm; rfl), List.map_map]
  refine List.map_congr_left fun y hy => ?_
  show (⟨y.pos, (BitVec.ofNat 64 y.va).toNat, y.loc, false⟩ : Elem) = _
  rw [BitVec.toNat_ofNat, Nat.mod_eq_of_lt (hva y hy)]
  rfl

/-- An effect of the acting agent's word that puts it to sleep. -/
theorem runWord_hold {s t : State} {sh : Shape} {f : State → Env → Eff} {e : Env} {st : Stat} (he : Executes s sh e)
    (hf : f (s.prepare e sh).1 (s.prepare e sh).2 = .hold t st) :
    s.runWord (fun _ => sh) f = .next (t.onUnit e.who fun u => { u with stat := st }) := by
  unfold State.runWord
  simp only [he.acts, he.clear, hf]

/-! ### O35: a WAITA that completes -/

/-- The result of a WAITA whose members have these values. -/
def waitaRes (ms : List WaitM) : Res :=
  lanesRes false fun p => (((ms.find? (·.lane == p)).map fun m => BitVec.ofNat 64 m.last.toNat).getD (0 : W64)).toNat

theorem waitaRes_at {ms : List WaitM} {m : WaitM} {p : Nat} (h : ms.find? (·.lane == p) = some m) (hp : p < 32) :
    (waitaRes ms).at p = m.last.toNat := by
  have hlt := m.last.isLt
  unfold waitaRes
  rw [(lanesRes_at hp).2, h]
  show wrap 32 (((BitVec.ofNat 64 m.last.toNat).toNat : Nat) : Int) = _
  rw [BitVec.toNat_ofNat]
  unfold wrap
  omega

/-- Outside a redundant launch nothing is forwarded when a WAITA completes. -/
theorem waitaDone_plain {s : State} {e : Env} (h : (e.launch.map Launch.redundant).getD false = false) (sh : Shape)
    (d : RegN) (ms : List WaitM) (acq : Bool) :
    s.waitaDone e sh d ms (·.labelForward e acq) = s.access (e.write d.toNat (waitaRes ms)) e sh 0 4 4
      (ms.map fun m => ⟨m.lane, m.va.toNat, m.loc, false⟩) := by
  unfold State.waitaDone
  extract_lets v
  rw [forwarding_own (.inl h)]
  dsimp only
  unfold State.labelForward
  rw [h]
  rfl

theorem level_of_solo {s : State} {w : Who} {e : Env} (he : s.env? w = some e) (hs : e.solo = true) :
    e.level ≠ .kernel := by
  unfold State.env? at he
  cases w with
  | kern =>
    simp only [Option.bind_eq_bind, Option.bind_eq_some_iff, Option.ite_none_right_eq_some, Option.some.injEq] at he
    obtain ⟨b, -, l, -, g, -, u, -, -, rfl⟩ := he
    exact Bool.noConfusion hs
  | hand =>
    simp only [Option.bind_eq_bind, Option.bind_eq_some_iff, Option.some.injEq] at he
    obtain ⟨t, -, b, -, l, -, g, -, u, -, rfl⟩ := he
    exact Level.noConfusion
  | cc =>
    simp only [Option.bind_eq_bind, Option.bind_eq_some_iff, Option.some.injEq] at he
    obtain ⟨k, -, u, -, rfl⟩ := he
    exact Level.noConfusion
  | ccHand =>
    simp only [Option.bind_eq_bind, Option.bind_eq_some_iff, Option.some.injEq] at he
    obtain ⟨k, -, t, -, g, -, u, -, rfl⟩ := he
    exact Level.noConfusion

/-- What an access leaves in a sheaf, or of a control core: there a pair need not expand the group. -/
theorem access_laned {s t : State} {w : Who} {e : Env} (he : s.env? w = some e) (hl : e.laned) {x x' : Env}
    (hk : x.level = e.level) (hg : x.grp.span = e.grp.span) {sh : Shape} {acc n : Nat} {els : List Elem} :
    (∃ u, t.access x' x sh 0 acc n els = .done u x' ∧ u.finish x' x.grp sh = t.performed x' x x.grp sh 0 acc n els) ∨
      t.access x' x sh 0 acc n els = .moved (t.performed x' x x.grp sh 0 acc n els) := by
  have hnot : ((t.watched x 0 n els).isEmpty || x.splitsPair sh) = (t.watched x 0 n els).isEmpty := by
    rcases hl with hl | hl
    · unfold Env.splitsPair
      rw [hg, hl]
      exact Bool.or_false _
    · have hw : t.watched x 0 n els = [] := by
        unfold State.watched
        split
        next h _ _ => exact absurd (hk.symm.trans h) (level_of_solo he hl)
        next => rfl
      rw [hw]
      rfl
  unfold State.access State.performed
  dsimp only
  rw [hnot]
  split
  next => exact .inl ⟨_, rfl, rfl⟩
  next => exact .inr rfl

/-! ### O35: a WAITA that reads -/

/-- The members of a WAITA that have read the values `now`. -/
def waitaMembers (x : Env) (cmp : List W32) (now : Nat → W64) (els : List Elem) : List WaitM :=
  els.map fun y => ⟨x.idx y.pos, y.pos, BitVec.ofNat 64 y.va, y.loc, lo64 (now y.pos), lo64 (now y.pos) != nth cmp y.pos 0⟩

/-- The state behind a WAITA's reads. -/
def waitaAfter (t : State) (x : Env) (acq : Bool) (scope : Scope) (els : List Elem) : State :=
  let u := (t.readAll x 4 (acq && scope != .block) els).1
  (if acq then u.acquire x.core scope else u).noteReads x 4 acq els

theorem waitaRead_fresh {t : State} {x : Env} {acq : Bool} {scope : Scope} {cmp : List W32} {els : List Elem}
    (hva : ∀ y ∈ els, y.va < 2 ^ 64) :
    t.waitaRead x acq scope cmp (els.map fun y => ⟨x.idx y.pos, y.pos, BitVec.ofNat 64 y.va, y.loc, 0, false⟩) =
      (waitaAfter t x acq scope els, waitaMembers x cmp
        (fun p => (look (t.readAll x 4 (acq && scope != .block) els).2 p (0, 0)).1) els) := by
  unfold State.waitaRead
  simp only [waitaElems_fresh hva x.idx, readAll_uncounted, noteReads_uncounted, List.map_map]
  rfl

theorem waita_reads {d a b : RegN} {scope : Scope} {order : Order} {s s' t : State} {x : Env} {els : List Elem}
    {out : Host.Outcome State Fault Refusal} (hl : x.laned)
    (hc : s'.checks x ⟨4, 4, false, .read, 4⟩ x.members (x.val true a.toNat) = .ok t els)
    (hp : t.parks x els 4 = false) (hw : ∀ y ∈ els, t.loadWaits x y 4 = false ∧ x.sharedAt y = false)
    (hf : t.askFabric x 4 els = (t, false)) (hr : (x.launch.map Launch.redundant).getD false = false)
    (hb : ∀ y ∈ els, t.badElem x y 4 (ordAcq order && scope != .block) = false)
    (hout : ∀ f : State → Env → Eff,
      (let cmp : List W32 := (upto 0 32).map fun p => BitVec.ofNat 32 (x.val false b.toNat p)
       let ms := waitaMembers x cmp (fun p => (look (t.readAll x 4 (ordAcq order && scope != .block) els).2 p (0, 0)).1) els
       let v := (waitaAfter t x (ordAcq order) scope els).takeFabric x els
       f s' x = if ms.all (·.fin) then v.access (x.write d.toNat (waitaRes ms)) x (waitaShape d.toNat a.toNat b.toNat) 0 4 4
           (els.map Elem.uncounted)
         else .hold v (.waita d cmp ms)) →
      s.runWord (fun _ => waitaShape d.toNat a.toNat b.toNat) f = out) :
    exec (.waita d a b scope order) s = out := by
  obtain ⟨-, -, -, hels⟩ := checks_ok hc
  have hva : ∀ y ∈ els, y.va < 2 ^ 64 := fun y hy => by
    rw [(hels y hy).1]
    exact BitVec.isLt _
  show execWaita d a b scope order s = out
  unfold execWaita
  refine hout _ ?_
  have hwait : els.any (fun y => t.loadWaits x y 4) = false := any_eq_false_of_forall fun y hy => (hw y hy).1
  have hshared : els.any x.sharedAt = false := any_eq_false_of_forall fun y hy => (hw y hy).2
  simp only [laned_iff.mp hl, hc, hp, hr, hwait, hshared, hf, sound_eq hb, waitaRead_fresh hva, waitaDone_plain hr,
    Bool.false_eq_true, Bool.false_and, if_false, Bool.or_false]
  have hls : ∀ ms : List WaitM, ms = waitaMembers x ((upto 0 32).map fun p => BitVec.ofNat 32 (x.val false b.toNat p))
      (fun p => (look (t.readAll x 4 (ordAcq order && scope != .block) els).2 p (0, 0)).1) els →
      (ms.map fun m => (⟨m.lane, m.va.toNat, m.loc, false⟩ : Elem)) = els.map Elem.uncounted := by
    rintro ms rfl
    unfold waitaMembers
    rw [List.map_map]
    refine List.map_congr_left fun y hy => ?_
    show (⟨y.pos, (BitVec.ofNat 64 y.va).toNat, y.loc, false⟩ : Elem) = _
    rw [BitVec.toNat_ofNat, Nat.mod_eq_of_lt (hva y hy)]
    rfl
  rw [hls _ rfl]

/-- A member of a WAITA has read the low 32 bits of its value, and is done where they differ from its condition. -/
theorem mem_waitaMembers {x : Env} {cmp : List W32} {now : Nat → W64} {els : List Elem} {m : WaitM}
    (h : m ∈ waitaMembers x cmp now els) : m.lane ∈ els.map (·.pos) ∧ m.last.toNat = (now m.lane).toNat % 2 ^ 32 ∧
      m.fin = (m.last != nth cmp m.lane 0) := by
  obtain ⟨y, hy, rfl⟩ := List.mem_map.mp h
  exact ⟨List.mem_map_of_mem hy, BitVec.toNat_ofNat .., rfl⟩

theorem lanes_waitaMembers (x : Env) (cmp : List W32) (now : Nat → W64) (els : List Elem) :
    (waitaMembers x cmp now els).map (·.lane) = els.map (·.pos) := by
  unfold waitaMembers
  rw [List.map_map]
  rfl

/-- The member of a lane. -/
theorem find_lane {ms : List WaitM} {p : Nat} (h : p ∈ ms.map (·.lane)) :
    ∃ m ∈ ms, m.lane = p ∧ ms.find? (·.lane == p) = some m := by
  obtain ⟨k, hk, rfl⟩ := List.mem_map.mp h
  cases hf : ms.find? (·.lane == k.lane) with
  | none => exact absurd (List.find?_eq_none.mp hf k hk) (by simp)
  | some m => exact ⟨m, List.mem_of_find?_eq_some hf, by simpa using List.find?_some hf, rfl⟩

theorem nth_conditions (x : Env) (b : RegN) {p : Nat} (hp : p < 32) :
    nth ((upto 0 32).map fun p => BitVec.ofNat 32 (x.val false b.toNat p)) p 0 = x.view.val b.toNat p := by
  rw [nth_map_upto0 hp]
  exact BitVec.ofNat_toNat ..

/-- A WAITA that reads: it completes where every member is done, and sleeps else. -/
theorem waita_word {d a b : RegN} {scope : Scope} {order : Order} {s t : State} {e : Env} {els : List Elem}
    (he : Executes s (waitaShape d.toNat a.toNat b.toNat) e)
    (hl : (s.prepare e (waitaShape d.toNat a.toNat b.toNat)).2.laned)
    (hc : (s.prepare e (waitaShape d.toNat a.toNat b.toNat)).1.checks (s.prepare e (waitaShape d.toNat a.toNat b.toNat)).2
      ⟨4, 4, false, .read, 4⟩ e.members ((s.prepare e (waitaShape d.toNat a.toNat b.toNat)).2.val true a.toNat) = .ok t els)
    (hp : t.parks (s.prepare e (waitaShape d.toNat a.toNat b.toNat)).2 els 4 = false)
    (hw : ∀ y ∈ els, t.loadWaits (s.prepare e (waitaShape d.toNat a.toNat b.toNat)).2 y 4 = false ∧
      (s.prepare e (waitaShape d.toNat a.toNat b.toNat)).2.sharedAt y = false)
    (hf : t.askFabric (s.prepare e (waitaShape d.toNat a.toNat b.toNat)).2 4 els = (t, false))
    (hr : ((s.prepare e (waitaShape d.toNat a.toNat b.toNat)).2.launch.map Launch.redundant).getD false = false)
    (hb : ∀ y ∈ els, t.badElem (s.prepare e (waitaShape d.toNat a.toNat b.toNat)).2 y 4
      (ordAcq order && scope != .block) = false) :
    let x := (s.prepare e (waitaShape d.toNat a.toNat b.toNat)).2
    let now (p : Nat) : Nat := (look (t.readAll x 4 (ordAcq order && scope != .block) els).2 p (0, 0)).1.toNat % 2 ^ 32
    let v := (waitaAfter t x (ordAcq order) scope els).takeFabric x els
    ((∀ p ∈ e.members, now p ≠ x.val false b.toNat p) → ∃ r : Res, r.wide = false ∧ (∀ p ∈ e.members, r.at p = now p) ∧
      exec (.waita d a b scope order) s =
        .next (v.performed (x.write d.toNat r) x e.grp (waitaShape d.toNat a.toNat b.toNat) 0 4 4 els)) ∧
    ((∃ p ∈ e.members, now p = x.val false b.toNat p) → ∃ cmp ms, (∀ p ∈ e.members, nth cmp p 0 = x.view.val b.toNat p) ∧
      (∀ m ∈ ms, m.last.toNat = now m.lane ∧ (m.fin = true ↔ now m.lane ≠ x.val false b.toNat m.lane)) ∧
      ms.map (·.lane) = e.members ∧
        exec (.waita d a b scope order) s = .next (v.onUnit e.who fun u => { u with stat := .waita d cmp ms })) := by
  intro x now v
  obtain ⟨hx, hmem⟩ := he.acting
  obtain ⟨-, -, hpos, -⟩ := checks_ok hc
  rw [← hmem] at hc
  have hlt : ∀ p ∈ e.members, p < 32 := fun p hp => hx.lanes hl p (hmem ▸ hp)
  let cmp : List W32 := (upto 0 32).map fun p => BitVec.ofNat 32 (x.val false b.toNat p)
  let ms := waitaMembers x cmp (fun p => (look (t.readAll x 4 (ordAcq order && scope != .block) els).2 p (0, 0)).1) els
  have hlanes : ms.map (·.lane) = e.members := (lanes_waitaMembers ..).trans hpos
  have hms : ∀ m ∈ ms, m.lane ∈ e.members ∧ m.last.toNat = now m.lane ∧
      (m.fin = true ↔ now m.lane ≠ x.val false b.toNat m.lane) := by
    intro m hm
    obtain ⟨hin, hlast, hfin⟩ := mem_waitaMembers hm
    rw [hpos] at hin
    refine ⟨hin, hlast, ?_⟩
    rw [hfin, nth_conditions x b (hlt _ hin), bne_iff_ne]
    refine not_congr ?_
    rw [← BitVec.toNat_inj, hlast]
    rfl
  refine ⟨fun hall => ⟨waitaRes ms, (lanesRes_at (p := 0) (by decide)).1, fun p hp' => ?_, ?_⟩, fun hone =>
    ⟨cmp, ms, fun p hp' => nth_conditions x b (hlt p hp'), fun m hm => (hms m hm).2, hlanes, ?_⟩⟩
  · obtain ⟨m, hm, rfl, hfind⟩ := find_lane (ms := ms) (p := p) (hlanes ▸ hp')
    rw [waitaRes_at hfind (hlt _ hp'), (hms m hm).2.1]
  · have hfin : ms.all (·.fin) = true :=
      List.all_eq_true.mpr fun m hm => (hms m hm).2.2.mpr (hall _ (hms m hm).1)
    refine waita_reads hl hc hp hw hf hr hb fun f hval => ?_
    rw [← performed_uncounted]
    exact runWord_access he (hval.trans (if_pos hfin))
  · obtain ⟨p, hp', heq⟩ := hone
    obtain ⟨m, hm, rfl, -⟩ := find_lane (ms := ms) (p := p) (hlanes ▸ hp')
    have hfin : ¬ms.all (·.fin) = true := fun h =>
      (hms m hm).2.2.mp (List.all_eq_true.mp h m hm) heq
    exact waita_reads hl hc hp hw hf hr hb fun f hval => runWord_hold he (hval.trans (if_neg hfin))

/-! ### O35: a WAITA that wakes -/

/-- The acting environment of a WAITA that its sleep has left. -/
def Env.woken (e : Env) : Env :=
  { e with grp := e.grp.setUnit { e.unit with stat := .ready }, unit := { e.unit with stat := .ready } }

theorem woken_span (e : Env) : e.woken.grp.span = e.grp.span := rfl

/-- A WAITA that ends behind its sleep completes with the values its members have. -/
theorem waitaEnd_plain {s v : State} {q : Who} {e : Env} (he : s.env? q = some e) (hl : e.laned)
    (hr : (e.launch.map Launch.redundant).getD false = false) (d : RegN) (ms : List WaitM) :
    v.waitaEnd q e d ms = (v.onUnit q fun u => { u with stat := .ready }).performed (e.woken.write d.toNat (waitaRes ms))
      e.woken e.woken.grp { dsts := [d.toNat], lat := none } 0 4 4
      (ms.map fun m => ⟨m.lane, m.va.toNat, m.loc, false⟩) := by
  have hdone := waitaDone_plain (s := v.onUnit q fun u => { u with stat := .ready }) (e := e.woken) hr
    { dsts := [d.toNat], lat := none } d ms (waitaMode e.woken.unit).2
  have hend : v.waitaEnd q e d ms = match (v.onUnit q fun u => { u with stat := .ready }).waitaDone e.woken
      { dsts := [d.toNat], lat := none } d ms (·.labelForward e.woken (waitaMode e.woken.unit).2) with
    | .done t e' => t.finish e' e.woken.grp { dsts := [d.toNat], lat := none }
    | .moved t => t
    | _ => v.onUnit q fun u => { u with stat := .ready } := rfl
  rw [hend, hdone]
  rcases access_laned (t := v.onUnit q fun u => { u with stat := .ready }) he hl (x := e.woken) rfl (woken_span e)
    (x' := e.woken.write d.toNat (waitaRes ms)) (sh := { dsts := [d.toNat], lat := none }) (acc := 4) (n := 4)
    (els := ms.map fun m => ⟨m.lane, m.va.toNat, m.loc, false⟩) with ⟨u, hu, hfin⟩ | hu
  · rw [hu]
    exact hfin
  · rw [hu]

/-- A sleeping WAITA that reads again. -/
theorem waitaAgain_plain {s : State} {q : Who} {e : Env} {d : RegN} {cmp : List W32} {ms : List WaitM}
    (he : s.env? q = some e) (hst : e.unit.stat = .waita d cmp ms) (hf : s.askFabric e 4 (waitaElems ms) = (s, false))
    (hb : ∀ y ∈ waitaElems ms,
      s.badElem e y 4 ((waitaMode e.unit).2 && (waitaMode e.unit).1 != .block) = false) (force : Bool) :
    let r := s.waitaRead e (waitaMode e.unit).2 (waitaMode e.unit).1 cmp ms
    let v := r.1.takeFabric e (waitaElems ms)
    s.waitaAgain q force = if r.2.all (·.fin) || force then v.waitaEnd q e d r.2
      else v.onUnit q fun u => { u with stat := .waita d cmp r.2 } := by
  intro r v
  unfold State.waitaAgain
  simp only [he, hst, hf, sound_eq hb, Bool.false_eq_true, if_false]
  rfl

/-- The word of a waiting group ends with the values its members have. -/
def WaitaEnds (i : Instr) (s v : State) (q : Who) (x : Env) (d : RegN) (ms : List WaitM) : Prop :=
  ∃ o : Res, o.wide = false ∧ (∀ p m, ms.find? (·.lane == p) = some m → p < 32 → o.at p = m.last.toNat) ∧
    exec i s = .next ((v.onUnit q fun u => { u with stat := .ready }).performed (x.write d.toNat o) x x.grp
      { dsts := [d.toNat], lat := none } 0 4 4 (ms.map fun m => ⟨m.lane, m.va.toNat, m.loc, false⟩))

theorem waitaEnds_of_exec {i : Instr} {s v : State} {q : Who} {e : Env} {d : RegN} {ms : List WaitM}
    (he : s.env? q = some e) (hl : e.laned) (hr : (e.launch.map Launch.redundant).getD false = false)
    (h : exec i s = .next (v.waitaEnd q e d ms)) : WaitaEnds i s v q e.woken d ms :=
  ⟨waitaRes ms, (lanesRes_at (p := 0) (by decide)).1, fun _ _ hm hp => waitaRes_at hm hp,
    h.trans (congrArg _ (waitaEnd_plain he hl hr d ms))⟩

/-- Settles O35: the reads of the word as it issues, then of its wake and of its end. -/
theorem addressWaits : Obligations.AddressWaits := by
  unfold Obligations.AddressWaits
  refine ⟨fun d a b scope order s t e els => ?_, ?_⟩
  · intro acq sh i he _ x hl hc hp hw hf hr hb
    have hacq : acq = ordAcq order := by cases order <;> rfl
    have hsh : sh = waitaShape d.toNat a.toNat b.toNat := rfl
    clear_value acq sh
    subst hacq hsh
    exact waita_word he hl hc hp hw hf hr hb
  · intro q s e d cmp ms he hst els
    have hagain := fun hf hb force => waitaAgain_plain he hst hf hb force
    generalize waitaMode e.unit = mode at hagain ⊢
    obtain ⟨scope, acq⟩ := mode
    intro hr hl hf hb
    replace hagain := hagain hf hb
    refine ⟨fun ⟨m, hm, hfin⟩ => ?_, fun hall => ?_, ?_⟩
    · refine congrArg Host.Outcome.next ((hagain false).trans (if_neg ?_))
      rw [Bool.or_false]
      exact fun h => absurd (List.all_eq_true.mp h m hm) (by simp [hfin])
    · refine waitaEnds_of_exec he hl hr (congrArg Host.Outcome.next ((hagain false).trans (if_pos ?_)))
      rw [Bool.or_false]
      exact List.all_eq_true.mpr hall
    · exact waitaEnds_of_exec he hl hr (congrArg Host.Outcome.next ((hagain true).trans (if_pos (Bool.or_true _))))

end Sys2Proof.Machine
end

