-- ==== Sys2Proof/Proofs/TransactionBarriers.lean ====
section
/-! PROOF. The words of transaction barriers, their numbers, and their updates (R95, R259 to R261). -/

namespace Sys2Proof.Machine

/-! ### O38: the numbers of a barrier (R95, R259, R261) -/

/-- The number that a barrier's fields make. -/
def tbWord (phase arr ring sec init : Nat) : Nat := phase + arr * 256 + ring * 2 ^ 28 + sec * 2 ^ 32 + init * 2 ^ 64

/-- The fields of such a number. -/
theorem tbWord_fields {phase arr ring sec init : Nat} (hp : phase < 16) (ha : arr < 2 ^ 20) (hr : ring < 2)
    (hs : sec < 2 ^ 32) (hi : init < 2 ^ 20) :
    bits (tbWord phase arr ring sec init) 3 0 = phase ∧ bits (tbWord phase arr ring sec init) 27 8 = arr ∧
      bits (tbWord phase arr ring sec init) 28 28 = ring ∧ bit (tbWord phase arr ring sec init) 29 = false ∧
      bits (tbWord phase arr ring sec init) 63 32 = sec ∧ bits (tbWord phase arr ring sec init) 83 64 = init := by
  unfold tbWord bits bit
  simp only [beq_eq_false_iff_ne]
  omega

/-- The fields of a new barrier. -/
theorem tbFresh_fields (n : Nat) (ring : Bool) (hn : n < 2 ^ 20) :
    bits (tbFresh n ring) 3 0 = 0 ∧ bits (tbFresh n ring) 27 8 = n ∧ bit (tbFresh n ring) 28 = ring ∧
      bit (tbFresh n ring) 29 = false ∧ bits (tbFresh n ring) 63 32 = 0 ∧ bits (tbFresh n ring) 83 64 = n ∧
      bits (tbFresh n ring) 127 84 = 0 := by
  have hw : tbFresh n ring = tbWord 0 n ring.toNat 0 n := by
    unfold tbFresh tbWord
    cases ring <;> simp
  obtain ⟨f0, f8, f28, f29, f32, f64⟩ :=
    tbWord_fields (phase := 0) (by decide) hn (Bool.toNat_lt ring) (sec := 0) (by decide) hn
  rw [hw]
  refine ⟨f0, f8, ?_, f29, f32, f64, ?_⟩
  · have hb : bit (tbWord 0 n ring.toNat 0 n) 28 = (bits (tbWord 0 n ring.toNat 0 n) 28 28 == 1) := rfl
    rw [hb, f28]
    cases ring <;> rfl
  · have hring := Bool.toNat_le ring
    unfold tbWord bits
    rw [Nat.div_eq_of_lt (by omega), Nat.zero_mod]

/-- A good update of a barrier writes these fields. -/
theorem tbUpdate_good {x darr : Nat} {dsec : Int} (herr : bit x 29 = false) (h127 : bits x 127 84 = 0)
    (h31 : bits x 31 30 = 0) (h7 : bits x 7 4 = 0) (hle : darr ≤ bits x 27 8)
    (h0 : -2 ^ 31 ≤ sext 32 (bits x 63 32) + dsec) (h1 : sext 32 (bits x 63 32) + dsec < 2 ^ 31) :
    tbUpdate x darr dsec =
      let sec := sext 32 (bits x 63 32) + dsec
      let fin := bits x 27 8 == darr && sec == 0
      (if fin then tbWord ((bits x 3 0 + 1) % 16) (bits x 83 64) (bits x 28 28) (wrap 32 sec) (bits x 83 64)
        else tbWord (bits x 3 0) (bits x 27 8 - darr) (bits x 28 28) (wrap 32 sec) (bits x 83 64), fin) := by
  have hno : ¬(sext 32 (bits x 63 32) + dsec < -2147483648 ∨ 2147483648 ≤ sext 32 (bits x 63 32) + dsec) := by omega
  have hbad : ¬(bits x 127 84 ≠ 0 ∨ bits x 31 30 ≠ 0 ∨ bits x 7 4 ≠ 0 ∨ bits x 27 8 < darr) := by omega
  unfold tbUpdate
  dsimp only
  rw [herr, if_neg (by decide), if_neg hbad, if_neg hno]
  unfold tbWord
  split <;> rfl

theorem bit_28_eq {x y : Nat} (h : bits y 28 28 = bits x 28 28) : bit y 28 = bit x 28 := by
  unfold bits at h
  unfold bit
  rw [show x / 2 ^ 28 % 2 = y / 2 ^ 28 % 2 from h.symm]

/-- What an update leaves: the next phase where both counts reach zero, else the counts. -/
theorem tbUpdate_moves (x darr : Nat) (dsec : Int) (herr : bit x 29 = false)
    (h127 : bits x 127 84 = 0) (h31 : bits x 31 30 = 0) (h7 : bits x 7 4 = 0) :
    let arr := bits x 27 8
    let sec := sext 32 (bits x 63 32) + dsec
    let y := (tbUpdate x darr dsec).1
    darr ≤ arr → -2 ^ 31 ≤ sec → sec < 2 ^ 31 →
    bit y 29 = false ∧ bits y 83 64 = bits x 83 64 ∧ bit y 28 = bit x 28 ∧
    (arr = darr ∧ sec = 0 → (tbUpdate x darr dsec).2 = true ∧ bits y 3 0 = (bits x 3 0 + 1) % 16 ∧
      bits y 27 8 = bits x 83 64 ∧ bits y 63 32 = 0) ∧
    (¬(arr = darr ∧ sec = 0) → (tbUpdate x darr dsec).2 = false ∧ bits y 3 0 = bits x 3 0 ∧ bits y 27 8 = arr - darr ∧
      sext 32 (bits y 63 32) = sec) := by
  intro arr sec y hle h0 h1
  have hup := tbUpdate_good herr h127 h31 h7 hle h0 h1
  have hw : wrap 32 sec < 2 ^ 32 := by unfold wrap; omega
  have hring : bits x 28 28 < 2 := bits_lt x 28 28
  have hinit : bits x 83 64 < 2 ^ 20 := bits_lt x 83 64
  have harr : bits x 27 8 < 2 ^ 20 := bits_lt x 27 8
  have hphase : bits x 3 0 < 16 := bits_lt x 3 0
  by_cases hfin : arr = darr ∧ sec = 0
  · have hy : tbUpdate x darr dsec =
        (tbWord ((bits x 3 0 + 1) % 16) (bits x 83 64) (bits x 28 28) (wrap 32 sec) (bits x 83 64), true) := by
      have hb : (bits x 27 8 == darr && sext 32 (bits x 63 32) + dsec == 0) = true := by
        rw [Bool.and_eq_true, beq_iff_eq, beq_iff_eq]
        exact hfin
      rw [hup]
      simp only [hb, if_true]
      rfl
    obtain ⟨f0, f8, f28, f29, f32, f64⟩ :=
      tbWord_fields (Nat.mod_lt (bits x 3 0 + 1) (by decide : 0 < 16)) hinit hring hw hinit
    have hzero : wrap 32 sec = 0 := by
      rw [hfin.2]
      rfl
    unfold y
    rw [hy]
    exact ⟨f29, f64, bit_28_eq f28, fun _ => ⟨rfl, f0, f8, f32.trans hzero⟩, fun h => absurd hfin h⟩
  · have hy : tbUpdate x darr dsec =
        (tbWord (bits x 3 0) (bits x 27 8 - darr) (bits x 28 28) (wrap 32 sec) (bits x 83 64), false) := by
      have hb : (bits x 27 8 == darr && sext 32 (bits x 63 32) + dsec == 0) = false := by
        rw [Bool.eq_false_iff, Ne, Bool.and_eq_true, beq_iff_eq, beq_iff_eq]
        exact hfin
      rw [hup]
      simp only [hb, Bool.false_eq_true, if_false]
      rfl
    obtain ⟨f0, f8, f28, f29, f32, f64⟩ := tbWord_fields hphase (Nat.lt_of_le_of_lt (Nat.sub_le _ darr) harr) hring hw hinit
    unfold y
    rw [hy]
    refine ⟨f29, f64, bit_28_eq f28, fun h => absurd h hfin, fun _ => ⟨rfl, f0, f8, ?_⟩⟩
    rw [f32]
    exact sext_wrap (by decide) h0 h1

/-- A wait for a parity, and one for a phase. -/
theorem tbDone_iff (x q : Nat) :
    (tbDone x q true = decide (x % 2 = q % 2)) ∧
      (tbDone x q false = decide (1 ≤ (bits x 3 0 + 16 - q % 16) % 16 ∧ (bits x 3 0 + 16 - q % 16) % 16 ≤ 8)) := by
  constructor
  · unfold tbDone
    rw [bits_low]
    rfl
  · unfold tbDone
    simp only [Bool.false_eq_true, if_false, Bool.decide_and]

/-! ### O38: the words of a barrier (R259, R260, R261) -/

/-- A word whose own meaning puts its group to sleep. -/
theorem moves_of_hold {i : Instr} {sh : Env → Shape} {f : State → Env → Eff} {pre : State → Env → Prop} {st : Stat}
    (hi : ∀ s, exec i s = s.runWord sh f) (hf : ∀ s x, pre s x → f s x = .hold s st) :
    Moves i sh pre fun s x => s.onUnit x.who fun u => { u with stat := st } := by
  intro s e ha hc hp
  have hwho : (s.prepare e (sh e)).2.who = e.who := by rw [(prepare_reads s e (sh e)).1.rest]
  dsimp only
  rw [hi, hwho]
  unfold State.runWord
  simp only [ha, hc, hf _ _ hp]

/-- The shape of a word on a barrier. -/
def tbShape (a b : RegN) (wide : Bool) (out : List Nat) (st : BitVec 2) : Shape :=
  { firsts := a.toNat :: regsOf wide b.toNat, pdsts := out, lat := none, gap := gapOf st none }

/-- The offset that a barrier's word names. -/
def Env.tbOff (x : Env) (a : RegN) : Nat := x.val false a.toNat x.first

/-- A word on a barrier executes once for its group. -/
def Env.once (x : Env) (a b : RegN) (wide : Bool) : Prop :=
  x.grp.span = false ∨ x.solo = true ∨ (x.uniform false a.toNat = true ∧ x.uniform wide b.toNat = true)

/-- A barrier's bytes lie inside the scratchpad. -/
def Env.inside (x : Env) (off n : Nat) : Prop := off % n = 0 ∧ off + n ≤ x.spadLen

theorem ranged_inside {x : Env} {off n : Nat} (h : x.inside off n) (f : Eff) : x.ranged off n n f = f := by
  unfold Env.ranged Env.rangeBad
  rw [if_neg (not_not.mpr h.1), if_neg (by have := h.2; omega)]
  rfl

/-- A word on a barrier, as a word of its shape. -/
theorem tbGroup_run (a b : RegN) (wide : Bool) (out : List Nat) (st : BitVec 2) (f : State → Env → Eff) (s : State) :
    s.groupWord [(a, false), (b, wide)] (fun _ => { pdsts := out }) st f = s.runWord (fun _ => tbShape a b wide out st)
      fun s x => if x.grp.span && !x.solo && !([(a, false), (b, wide)].all fun y => x.uniform y.2 y.1.toNat) then .expand
        else f s x := by
  cases wide <;> rfl

theorem tbGroup_once {x : Env} {a b : RegN} {wide : Bool} (h : x.once a b wide) (f : Eff) :
    (if x.grp.span && !x.solo && !([(a, false), (b, wide)].all fun y => x.uniform y.2 y.1.toNat) then .expand else f) =
      f := by
  refine if_neg ?_
  unfold Env.once at h
  rcases h with h | h | ⟨ha, hb⟩
  · simp [h]
  · simp [h]
  · simp [ha, hb]

section
variable (a b : RegN) (st : BitVec 2)

theorem tbinit_run (ring : Bool) (s : State) : exec (.tbinit a b ring st) s =
    s.groupWord [(a, false), (b, ring)] (fun _ => { pdsts := [] }) st fun s e =>
      let off := e.lead a
      let n := if ring then 32 else 16
      let c := e.val ring b.toNat e.first
      let lo := c % 2 ^ 32
      let hi := c / 2 ^ 32
      e.ranged off n n <|
        if !tbCountOk lo || (ring && !tbCountOk hi) then .trap 10 (BitVec.ofNat 64 off) e.count
        else if e.members.any fun p => e.grp.waiting (e.idx p) s.tick (·.on (e.idx p) (.spad off) n) ||
            s.homeOn e.bid (e.idx p) (.spad off) n || e.grp.arriving (e.idx p) (.spad off) n then .wait
        else
          .done ((s.onBlock e.bid fun k =>
            if ring then (k.tbInit off lo true).tbInit (off + 16) hi true else k.tbInit off lo false).tbWake e.bid) e :=
  rfl

/-- The counts a TBINIT takes. -/
def tbValid (ring : Bool) (c : Nat) : Prop :=
  (1 ≤ c % 2 ^ 32 ∧ c % 2 ^ 32 ≤ 2 ^ 20 - 1) ∧ (ring = true → 1 ≤ c / 2 ^ 32 ∧ c / 2 ^ 32 ≤ 2 ^ 20 - 1)

theorem tbCounts_iff (ring : Bool) (c : Nat) :
    (!tbCountOk (c % 2 ^ 32) || (ring && !tbCountOk (c / 2 ^ 32))) = false ↔ tbValid ring c := by
  unfold tbCountOk tbValid
  cases ring <;> simp

theorem tbinit_completes (ring : Bool) :
    let n : Nat := if ring then 32 else 16
    let c (x : Env) : Nat := x.val ring b.toNat x.first
    Completes (.tbinit a b ring st) (fun _ => tbShape a b ring [] st)
      (fun s x => x.once a b ring ∧ x.inside (x.tbOff a) n ∧ tbValid ring (c x) ∧
        (∀ p ∈ x.members, x.grp.arriving (x.idx p) (.spad (x.tbOff a)) n = false) ∧
        ∀ p ∈ x.members, x.grp.waiting (x.idx p) s.tick (·.on (x.idx p) (.spad (x.tbOff a)) n) = false ∧
          s.homeOn x.bid (x.idx p) (.spad (x.tbOff a)) n = false)
      (fun s x => ((s.onBlock x.bid fun k =>
        if ring then (k.tbInit (x.tbOff a) (c x % 2 ^ 32) true).tbInit (x.tbOff a + 16) (c x / 2 ^ 32) true
        else k.tbInit (x.tbOff a) (c x % 2 ^ 32) false).tbWake x.bid, x)) := by
  intro n c
  refine completes_of_runWord (fun s => (tbinit_run a b st ring s).trans (tbGroup_run ..)) fun s x h => ?_
  obtain ⟨hone, hin, hval, hq, hw⟩ := h
  refine (tbGroup_once hone _).trans ((ranged_inside hin _).trans ?_)
  refine (if_neg (by rw [Bool.not_eq_true]; exact (tbCounts_iff ring _).mpr hval)).trans (if_neg ?_)
  rw [Bool.not_eq_true]
  refine any_eq_false_of_forall fun p hp => ?_
  rw [Bool.or_eq_false_iff, Bool.or_eq_false_iff]
  exact ⟨hw p hp, hq p hp⟩

theorem tbinit_traps (ring : Bool) :
    Traps (.tbinit a b ring st) (fun _ => tbShape a b ring [] st)
      (fun _ x => x.once a b ring ∧ x.inside (x.tbOff a) (if ring then 32 else 16) ∧
        ¬tbValid ring (x.val ring b.toNat x.first)) 10 (fun x => BitVec.ofNat 64 (x.tbOff a)) := by
  refine traps_of_runWord (fun s => (tbinit_run a b st ring s).trans (tbGroup_run ..)) fun s x h => ?_
  obtain ⟨hone, hin, hval⟩ := h
  refine ⟨x.count, (tbGroup_once hone _).trans ((ranged_inside hin _).trans (if_pos ?_))⟩
  rw [← Bool.not_eq_false]
  exact mt (tbCounts_iff ring _).mp hval

theorem tbarr_run (decl : Bool) (s : State) : exec (.tbarr a b decl st) s =
    s.groupWord [(a, false), (b, false)] (fun _ => { pdsts := [] }) st fun s x =>
      x.ranged (x.tbOff a) 16 16 (.done s (x.mark s (.tbarr (x.tbOff a) (if decl then 0 else x.count)
        (sext 32 (x.val false b.toNat x.first))))) := rfl

theorem tbarr_completes (decl : Bool) :
    Completes (.tbarr a b decl st) (fun _ => tbShape a b false [] st)
      (fun _ x => x.once a b false ∧ x.inside (x.tbOff a) 16)
      (fun s x => (s, { x with grp := { x.grp with stq := x.grp.stq ++ x.members.map fun p =>
        ⟨.tbarr (x.tbOff a) (if decl then 0 else x.count) (sext 32 (x.val false b.toNat x.first)),
          [⟨x.idx p, 0, .priv (x.idx p) 0, [], false, 0⟩], s.tick, x.origin, [], []⟩ } })) := by
  refine completes_of_runWord (fun s => (tbarr_run a b st decl s).trans (tbGroup_run ..)) fun s x h => ?_
  refine (tbGroup_once h.1 _).trans ((ranged_inside h.2 _).trans ?_)
  show Eff.done s (x.mark s _) = _
  unfold Env.mark Env.enqueue
  simp only [List.filterMap_eq_map', List.map_map]
  rfl

variable (par : Bool)

/-- A barrier that a word waits for or tests: nothing stops the test, and its threads' arrivals there are made. -/
def TbTested (s : State) (x : Env) (k : Block) : Prop :=
  x.once a b false ∧ x.inside (x.tbOff a) 16 ∧
    (∀ p ∈ x.members, x.grp.arriving (x.idx p) (.spad (x.tbOff a)) 16 = false) ∧ s.block? x.bid = some k

/-- A barrier that is in error, or tested by parity where it is no ring's. -/
def TbStops (x : Env) (k : Block) : Prop :=
  bit (k.tb (x.tbOff a)) 29 = true ∨ (par = true ∧ bit (k.tb (x.tbOff a)) 28 = false)

variable {a b par}

theorem tbCheck_tested {s : State} {x : Env} {k : Block} (h : TbTested a b s x k) (hs : ¬TbStops a par x k)
    (f : Block → Nat → Bool → Eff) :
    s.tbCheck x a b par f = f k (x.tbOff a) (tbDone (k.tb (x.tbOff a)) (x.val false b.toNat x.first) par) := by
  obtain ⟨-, hin, hq, hk⟩ := h
  unfold State.tbCheck
  refine (ranged_inside hin _).trans ?_
  rw [hk]
  refine (if_neg ?_).trans (if_neg ?_)
  · rw [Bool.not_eq_true]
    exact any_eq_false_of_forall hq
  · unfold TbStops at hs
    change ¬(bit (k.tb (x.tbOff a)) 29 || (par && !bit (k.tb (x.tbOff a)) 28)) = true
    simpa using hs

variable (a b par)

theorem tbwait_run (s : State) : exec (.tbwait a b par st) s =
    s.groupWord [(a, false), (b, false)] (fun _ => { pdsts := [] }) st fun s x =>
      s.tbCheck x a b par fun k off fin =>
        if fin then .done (s.tbAcquire x k off (x.val false b.toNat x.first) par) x else .hold s .tbwait := rfl

theorem tbwait_completes (k : Block) :
    Completes (.tbwait a b par st) (fun _ => tbShape a b false [] st)
      (fun s x => TbTested a b s x k ∧ ¬TbStops a par x k ∧
        tbDone (k.tb (x.tbOff a)) (x.val false b.toNat x.first) par = true)
      (fun s x => (s.tbAcquire x k (x.tbOff a) (x.val false b.toNat x.first) par, x)) := by
  refine completes_of_runWord (fun s => (tbwait_run a b st par s).trans (tbGroup_run ..)) fun s x h => ?_
  obtain ⟨ht, hs, hd⟩ := h
  exact (tbGroup_once ht.1 _).trans ((tbCheck_tested ht hs _).trans (if_pos hd))

theorem tbwait_sleeps (k : Block) :
    Moves (.tbwait a b par st) (fun _ => tbShape a b false [] st)
      (fun s x => TbTested a b s x k ∧ ¬TbStops a par x k ∧
        tbDone (k.tb (x.tbOff a)) (x.val false b.toNat x.first) par = false)
      (fun s x => s.onUnit x.who fun u => { u with stat := .tbwait }) := by
  refine moves_of_hold (fun s => (tbwait_run a b st par s).trans (tbGroup_run ..)) fun s x h => ?_
  obtain ⟨ht, hs, hd⟩ := h
  exact (tbGroup_once ht.1 _).trans ((tbCheck_tested ht hs _).trans (if_neg (by rw [hd]; decide)))

variable (pd : PredN)

theorem tbtest_run (s : State) : exec (.tbtest pd a b par st) s =
    s.groupWord [(a, false), (b, false)] (fun _ => { pdsts := if pd.toNat < 7 then [pd.toNat] else [] }) st fun s x =>
      s.tbCheck x a b par fun k off fin =>
        .done (if fin then s.tbAcquire x k off (x.val false b.toNat x.first) par else s)
          (x.pwrite pd.toNat (x.samePred fin)) := rfl

theorem samePred_lane (x : Env) (v : Bool) (lo : Nat) {p : Nat} (hp : p < 32 ∨ x.grp.span = true) :
    (x.samePred v).at lo p = v := by
  unfold Env.samePred
  split
  next => cases v <;> rfl
  next hs =>
    cases v
    · simp [PRes.at, bit_eq_testBit]
    · show bit (BitVec.allOnes 32).toNat p = true
      rw [bit_eq_testBit, BitVec.toNat_allOnes, Nat.testBit_two_pow_sub_one, decide_eq_true (hp.resolve_right hs)]

theorem tbtest_writes (k : Block) (s : State) (e : Env)
    (he : Executes s (tbShape a b false (if pd.toNat < 7 then [pd.toNat] else []) st) e) :
    let sh := tbShape a b false (if pd.toNat < 7 then [pd.toNat] else []) st
    let t := (s.prepare e sh).1
    let x := (s.prepare e sh).2
    TbTested a b t x k → ¬TbStops a par x k →
    let fin := tbDone (k.tb (x.tbOff a)) (x.val false b.toNat x.first) par
    ∃ r : PRes, (∀ p ∈ e.members, p < 32 ∨ e.grp.span = true → r.at e.grp.lo p = fin) ∧
      exec (.tbtest pd a b par st) s =
        .next ((if fin then t.tbAcquire x k (x.tbOff a) (x.val false b.toNat x.first) par else t).finish
          (x.pwrite pd.toNat r) e.grp sh) := by
  intro sh t x ht hs fin
  have hspan : x.grp.span = e.grp.span := (prepare_reads s e sh).1.grp.span
  refine ⟨x.samePred fin, fun p _ hp => samePred_lane x fin _ (hspan ▸ hp),
    ((tbtest_run a b st par pd s).trans (tbGroup_run ..)).trans (runWord_done (sh := fun _ => sh) he ?_)⟩
  exact (tbGroup_once ht.1 _).trans (tbCheck_tested ht hs _)

end

/-- Settles O38: the words of a barrier, a new barrier's fields, an update, and when a wait is over. -/
theorem transactionBarriers : Obligations.TransactionBarriers := by
  unfold Obligations.TransactionBarriers
  refine ⟨fun a b pd ring decl par st => ?_, tbFresh_fields, fun x darr dsec _ => tbUpdate_moves x darr dsec, tbDone_iff⟩
  exact ⟨tbinit_completes a b st ring, tbinit_traps a b st ring, tbarr_completes a b st decl, tbwait_completes a b st par,
    tbwait_sleeps a b st par, fun k s e he => tbtest_writes a b st par pd k s e he⟩

end Sys2Proof.Machine
end

