-- ==== Sys2Proof/Proofs/MatrixWords.lean ====
section
/-! PROOF. The matrix and tile words as they issue (R241 to R251, R129, R130). -/

namespace Sys2Proof.Machine

/-! ### O39: matrix and tile words -/

/-- The shape of a matrix or tile word. -/
def tileShape (t : Nat) (st : BitVec 2) (ok : List Nat) (ranged : Bool) (srcs firsts dsts : List Nat) (e : Env) : Shape :=
  { srcs := srcs, firsts := firsts, dsts := dsts, pre := roleTrap ok e, lat := none, gap := gapOf st none
    post := if ranged then tileTrap t e else none }

theorem expands_not {x : Env} {n m : Nat} (h : x.laned ∨ n ≤ m) : (x.grp.span && !x.solo && decide (m < n)) = false := by
  rcases h with h | h
  · rw [laned_iff.mp h, Bool.false_and]
  · rw [decide_eq_false (by omega), Bool.and_false]

/-- A group word without sources executes once. -/
theorem groupWord_free (x : Env) (f : Eff) :
    (if x.grp.span && !x.solo && !([] : List (RegN × Bool)).all (fun y => x.uniform y.2 y.1.toNat) then .expand else f) =
      f := if_neg (by simp)

section
variable (tile resv : BitVec 4) (zero diag i32 k40 all : Bool) (a b d : RegN) (mask : PredN) (mode : MreadMode)
  (st : BitVec 2)

theorem mzero_completes :
    Completes (.mzero tile k40 st) (tileShape tile.toNat st [2] true [] [] []) (fun _ _ => True)
      (fun s x => (((s.onBlock x.bid fun k => k.onPart x.part fun p =>
        p.onTile tile.toNat fun _ => ⟨some k40, false, none, []⟩).tileUsed x tile.toNat).tileWritten x tile.toNat, x)) := by
  intro s e he _
  show execMzero tile k40 st s = _
  unfold execMzero State.groupWord
  exact runWord_done (sh := tileShape tile.toNat st [2] true [] [] []) he (groupWord_free _ _)

theorem mcfg_once {x : Env} (h : x.laned ∨ x.uniform false a.toNat = true) :
    ¬(x.grp.span && !x.solo && !([(a, false)].all fun y => x.uniform y.2 y.1.toNat)) = true := by
  rcases h with h | h
  · simp [laned_iff.mp h]
  · simp [h]

theorem mcfg_completes :
    Completes (.mcfg a st) (tileShape tile.toNat st [2] false [] [a.toNat] [])
      (fun _ x => (x.laned ∨ x.uniform false a.toNat = true) ∧ cfgOk (BitVec.ofNat 32 (x.val false a.toNat x.first)) = true)
      (fun s x => (s.onBlock x.bid fun k => k.onPart x.part fun p =>
        { p with mcfg := BitVec.ofNat 32 (x.val false a.toNat x.first) }, x)) := by
  intro s e he ⟨hone, hok⟩
  show execMcfg a st s = _
  unfold execMcfg State.groupWord
  exact runWord_done (sh := tileShape tile.toNat st [2] false [] [a.toNat] []) he
    ((if_neg (mcfg_once a hone)).trans (if_pos hok))

theorem mcfg_traps :
    Traps (.mcfg a st) (tileShape tile.toNat st [2] false [] [a.toNat] [])
      (fun _ x => (x.laned ∨ x.uniform false a.toNat = true) ∧ cfgOk (BitVec.ofNat 32 (x.val false a.toNat x.first)) = false)
      11 (fun x => BitVec.ofNat 64 x.unit.word) := by
  intro s e ha hc ⟨hone, hbad⟩
  refine ⟨(s.prepare e (tileShape tile.toNat st [2] false [] [a.toNat] [] e)).2.count, ?_⟩
  show execMcfg a st s = _
  unfold execMcfg State.groupWord
  exact runWord_trap (sh := tileShape tile.toNat st [2] false [] [a.toNat] []) ha hc
    ((if_neg (mcfg_once a hone)).trans (if_neg (Bool.eq_false_iff.mp hbad)))

theorem mwrite_completes :
    Completes (.mwrite tile a b i32 st) (tileShape tile.toNat st [2, 3] true [a.toNat, b.toNat] [] [])
      (fun _ x => x.laned ∨ x.count ≤ 1)
      (fun s x =>
        let v (p : Nat) : Nat := if i32 then wrap 40 (sext 32 (x.val false a.toNat p))
          else Fmt.w40.roundRn (Fmt.f32.value (x.val false a.toNat p))
        let set (y : Tile) : Tile := x.members.foldl (fun y p =>
          y.setElem (32 * x.laneOf p + x.val false b.toNat p % 32) (BitVec.ofNat 40 (v p))) y
        (((s.onBlock x.bid fun k => k.onPart x.part fun p => p.onTile tile.toNat fun y =>
          { set y with tag := some i32, sat := false }).tileUsed x tile.toNat).tileWritten x tile.toNat, x)) := by
  intro s e he hone
  show execMwrite tile a b i32 st s = _
  unfold execMwrite
  exact runWord_done (sh := tileShape tile.toNat st [2, 3] true [a.toNat, b.toNat] [] []) he
    (if_neg (by rw [expands_not hone]; decide))

/-- The sources of an MREAD. -/
def mreadSrcs : List Nat := if mode = .sat then [] else [a.toNat]

/-- What MREAD gives a member: what the tile holds, or an undefined value. -/
def mreadVal (t : Tile) (pending : Bool) (free : Nat) (x : Env) (p : Nat) : Nat :=
  (if pending then none else t.readAs mode (32 * x.laneOf p + x.val false a.toNat p % 32)).getD
    (let k := if mode == .sat then 0 else x.laneOf p
     (lo64 (Config.freeWord (free + k))).toNat % (if mode == .sat then 2 else if mode == .hi then 256 else 2 ^ 32))

def mreadRes (t : Tile) (pending : Bool) (free : Nat) (x : Env) : Res :=
  if mode == .sat then x.sameWord false (mreadVal a mode t pending free x x.first)
  else if x.grp.span then .form (toW32 (mreadVal a mode t pending free x 0)) 0
  else lanesRes false fun p => (mreadVal a mode t pending free x p : Int)

theorem mreadVal_of_some {t : Tile} {free : Nat} {x : Env} {p v : Nat}
    (h : t.readAs mode (32 * x.laneOf p + x.val false a.toNat p % 32) = some v) :
    mreadVal a mode t false free x p = v := by
  unfold mreadVal
  rw [h]
  rfl

/-- A count read as .sat is the same at every element. -/
theorem readAs_sat (t : Tile) (m n : Nat) : t.readAs .sat m = t.readAs .sat n := by
  unfold Tile.readAs
  cases t.tag with
  | none => rfl
  | some k => cases k <;> rfl

/-- A span of one thread, or a control core's, has its member at position 0. -/
theorem single_member {x : Env} (hs : x.grp.span = true) (hone : x.laned ∨ x.count ≤ 1) {p : Nat} (hp : p ∈ x.members) :
    p = 0 := by
  unfold Env.members at hp
  rcases hone with h | h
  · have hsolo : x.solo = true := h.resolve_left (by simp [hs])
    rw [hsolo] at hp
    exact List.mem_singleton.mp hp
  · split at hp
    · exact List.mem_singleton.mp hp
    · unfold Env.count at h
      rw [if_pos hs] at h
      unfold Grp.members at hp
      rw [if_pos hs, mem_upto] at hp
      omega

theorem mreadRes_at {t : Tile} {free : Nat} {x : Env} (hx : Acting x)
    (hone : (x.laned ∨ x.count ≤ 1) ∨ mode = .sat) {p v : Nat} (hp : p ∈ x.members)
    (h : t.readAs mode (32 * x.laneOf p + x.val false a.toNat p % 32) = some v) :
    (mreadRes a mode t false free x).at p = wrap 32 v := by
  unfold mreadRes
  by_cases hm : mode = .sat
  · subst hm
    rw [if_pos (by decide), (sameWord_at hx hp).2]
    rw [mreadVal_of_some a .sat ((readAs_sat t _ _).trans h)]
    rfl
  · rw [if_neg (by simpa using hm)]
    have hone := hone.resolve_right hm
    split
    next hs =>
      obtain rfl := single_member hs hone hp
      rw [mreadVal_of_some a mode h, (formRes_at (wide := false) (b := v) (s := 0) (r := .form (toW32 v) 0) rfl 0).2]
      simp
      rfl
    next hs =>
      rw [(lanesRes_at (hx.lanes (.inl (by simpa using hs)) p hp)).2, mreadVal_of_some a mode h]
      rfl

theorem mread_run (s : State) : exec (.mread d a tile mode st) s =
    s.runWord (tileShape tile.toNat st [2, 3] true (mreadSrcs a mode) [] [d.toNat]) fun s x =>
      if x.grp.span && !x.solo && !(mode == .sat) && decide (1 < x.count) then .expand
      else .done ((s.tileUsed x tile.toNat).spend 32) (x.write d.toNat
        (mreadRes a mode (((s.tileUsed x tile.toNat).myPart x).tile tile.toNat)
          (((s.block? x.bid).map fun b => b.tilePending x.part tile.toNat).getD false) (s.tileUsed x tile.toNat).free x)) := by
  have hsh : (fun e : Env => ({ dsts := [d.toNat], srcs := if mode == .sat then [] else [a.toNat], pre := roleTrap [2, 3] e
                                post := tileTrap tile.toNat e, lat := none, gap := gapOf st none } : Shape)) =
      tileShape tile.toNat st [2, 3] true (mreadSrcs a mode) [] [d.toNat] := by
    cases mode <;> rfl
  rw [← hsh]
  rfl

theorem mread_reads (s : State) (e : Env)
    (he : Executes s (tileShape tile.toNat st [2, 3] true (mreadSrcs a mode) [] [d.toNat] e) e) :
    let sh := tileShape tile.toNat st [2, 3] true (mreadSrcs a mode) [] [d.toNat] e
    let s' := (s.prepare e sh).1
    let x := (s.prepare e sh).2
    let u := s'.tileUsed x tile.toNat
    (x.laned ∨ x.count ≤ 1) ∨ mode = .sat →
    ∃ r : Res, r.wide = false ∧
      (∀ k, s'.block? x.bid = some k → k.tilePending x.part tile.toNat = false →
        ∀ p ∈ e.members, ∀ v,
          ((u.myPart x).tile tile.toNat).readAs mode (32 * x.laneOf p + x.val false a.toNat p % 32) = some v →
          r.at p = wrap 32 v) ∧
      exec (.mread d a tile mode st) s = .next ((u.spend 32).finish (x.write d.toNat r) e.grp sh) := by
  intro sh s' x u hone
  obtain ⟨hx, hmem⟩ := he.acting
  have hgo : (x.grp.span && !x.solo && !(mode == .sat) && decide (1 < x.count)) = false := by
    rcases hone with h | h
    · rw [Bool.and_right_comm, expands_not h, Bool.false_and]
    · simp [h]
  refine ⟨mreadRes a mode ((u.myPart x).tile tile.toNat)
    (((s'.block? x.bid).map fun b => b.tilePending x.part tile.toNat).getD false) u.free x, ?_, ?_, ?_⟩
  · unfold mreadRes
    split
    · exact sameWord_wide ..
    · split
      · rfl
      · exact (lanesRes_at (p := 0) (by decide)).1
  · intro k hk hp p hpm v hv
    have hopen : ((s'.block? x.bid).map fun b => b.tilePending x.part tile.toNat).getD false = false := by
      rw [hk]
      exact hp
    rw [hopen]
    exact mreadRes_at a mode hx hone (hmem ▸ hpm) hv
  · rw [mread_run]
    exact runWord_done (sh := tileShape tile.toNat st [2, 3] true (mreadSrcs a mode) [] [d.toNat]) he
      (if_neg (by rw [hgo]; decide))

/-- Scratchpad entries of the acting threads that have not reached the core point. -/
def spadQueued (x : Env) (q : SqEntry) : Bool :=
  q.elems.any fun y => x.members.any (fun p => x.idx p == y.idx) && (match y.loc with
    | .spad _ => true
    | _ => false)

theorem spadQueued_iff (x : Env) (q : SqEntry) :
    spadQueued x q = true ↔ ∃ y ∈ q.elems, (∃ p ∈ x.members, x.idx p = y.idx) ∧ ∃ o, y.loc = .spad o := by
  unfold spadQueued
  simp only [List.any_eq_true, Bool.and_eq_true, beq_iff_eq]
  refine exists_congr fun y => and_congr_right fun _ => and_congr_right fun _ => ?_
  cases y.loc <;> simp

/-- What an OFENCE waits for. -/
def ofenceBusy (s : State) (x : Env) : Bool :=
  x.grp.stq.any (spadQueued x) || s.homeq.any fun h => h.bid == x.bid && spadQueued x h.entry

theorem ofenceBusy_iff (s : State) (x : Env) : ofenceBusy s x = true ↔
    (∃ q ∈ x.grp.stq, ∃ y ∈ q.elems, (∃ p ∈ x.members, x.idx p = y.idx) ∧ ∃ o, y.loc = .spad o) ∨
      ∃ h ∈ s.homeq, h.bid = x.bid ∧ ∃ y ∈ h.entry.elems, (∃ p ∈ x.members, x.idx p = y.idx) ∧ ∃ o, y.loc = .spad o := by
  unfold ofenceBusy
  simp only [Bool.or_eq_true, List.any_eq_true, Bool.and_eq_true, beq_iff_eq, spadQueued_iff]

theorem ofence_run (s : State) : exec (.ofence st) s = s.runWord (tileShape tile.toNat st [2] false [] [] []) fun s x =>
    if x.grp.span && !x.solo && !([] : List (RegN × Bool)).all (fun y => x.uniform y.2 y.1.toNat) then .expand
    else if ofenceBusy s x then .wait else .done s x := rfl

/-- A word that waits leaves the state as it is. -/
theorem runWord_wait {s : State} {sh : Env → Shape} {f : State → Env → Eff} {e : Env} (he : Executes s (sh e) e)
    (hf : f (s.prepare e (sh e)).1 (s.prepare e (sh e)).2 = .wait) : s.runWord sh f = .next s := by
  unfold State.runWord
  simp only [he.acts, he.clear, hf]

/-- What an MWAIT waits for. -/
def mwaitBusy (on : Option Nat) (s : State) (x : Env) : Bool :=
  (((s.block? x.bid).map (·.eng)).getD []).any (fun r => !r.fin && r.onTile on && x.issued r) || x.members.any fun p =>
    x.grp.stq.any (fun q => q.drains on (x.idx p)) || s.homeq.any fun h => h.bid == x.bid && h.entry.drains on (x.idx p)

theorem mwaitBusy_iff (on : Option Nat) (s : State) (x : Env) : mwaitBusy on s x = true ↔
    (∃ k, s.block? x.bid = some k ∧ ∃ r ∈ k.eng, r.fin = false ∧ r.onTile on = true ∧ x.issued r = true) ∨
      ∃ p ∈ x.members, (∃ q ∈ x.grp.stq, q.drains on (x.idx p) = true) ∨
        ∃ h ∈ s.homeq, h.bid = x.bid ∧ h.entry.drains on (x.idx p) = true := by
  unfold mwaitBusy
  cases hk : s.block? x.bid with
  | none => simp [List.any_eq_true]
  | some k => simp [List.any_eq_true, and_assoc]

/-- A copy that an MWAIT's threads have then observed. -/
def mwaitSeen (on : Option Nat) : Await → Bool
  | .tile k => on.isNone || on == some k
  | _ => false

theorem mwait_run (s : State) : exec (.mwait tile all st) s =
    s.runWord (tileShape tile.toNat st [2, 3] (!all) [] [] []) fun s x =>
      if x.grp.span && !x.solo && !([] : List (RegN × Bool)).all (fun y => x.uniform y.2 y.1.toNat) then .expand
      else if mwaitBusy (if all then none else some tile.toNat) s x then .wait
      else .done ((s.waited x fun r => r.onTile (if all then none else some tile.toNat)).onBlock x.bid fun b =>
        x.members.foldl (fun (b : Block) p => b.observe (x.idx p) (mwaitSeen (if all then none else some tile.toNat))) b) x := by
  cases all <;> rfl

theorem mma_completes (r : Resv) (k : Block) :
    let rows (x : Env) : List (Nat × Nat) := x.members.map fun p => (x.laneOf p, bits (x.val false a.toNat p) 20 0)
    let slice (x : Env) : Nat := bits (x.val false a.toNat x.first) 31 24
    Completes (if diag then .mmab tile zero a resv mask st else .mma tile zero a resv mask st)
      (tileShape tile.toNat st [2] true [a.toNat] [] [])
      (fun s x =>
        let cfg := (s.myPart x).mcfg
        let c := rrecOf r.record
        let g := alongOf (cfgPack cfg) c.pack (slice x)
        (x.laned ∨ x.grp.windows.length ≤ 1) ∧ (s.myPart x).res resv.toNat = some r ∧ s.block? x.bid = some k ∧
        cfgOk cfg = true ∧ (cfgPack cfg).float = c.pack.float ∧ g.k0 + g.k ≤ c.kr ∧ s.fenced x = false ∧
        ∀ p ∈ x.members, bits (x.val false a.toNat p) 20 0 % 4 = 0 ∧ bits (x.val false a.toNat p) 23 21 = 0 ∧
          rowBad x.spadLen cfg c g diag (x.laneOf p) (bits (x.val false a.toNat p) 20 0) = none)
      (fun s x =>
        let cfg := (s.myPart x).mcfg
        let c := rrecOf r.record
        let g := alongOf (cfgPack cfg) c.pack (slice x)
        let m : MatReq := ⟨diag, tile.toNat, resv.toNat, r.record, mask.toNat, zero, slice x, rows x, cfg, a.toNat⟩
        let unseen : Bool := r.await.isSome && !x.members.all fun p => r.seen.contains (x.idx p)
        (((s.tileWritten x tile.toNat).maskRead x mask.toNat).engIssue x (.matrix m)
          ((rows x).map fun y => sliceOf (cfgPack cfg) g y.2) []
          (!c.bound && (!r.filled || k.filling x.part resv.toNat || unseen)), x)) := by
  intro rows slice s e he hp
  have hrun : exec (if diag then .mmab tile zero a resv mask st else .mma tile zero a resv mask st) s =
      s.mma diag tile zero a resv mask st := by
    cases diag <;> rfl
  rw [hrun]
  unfold State.mma
  refine runWord_done (sh := tileShape tile.toNat st [2] true [a.toNat] [] []) he ?_
  generalize (s.prepare e _).1 = t, (s.prepare e _).2 = x at hp ⊢
  obtain ⟨hone, hres, hk, hcfg, hfloat, hkr, hfence, hrows⟩ := hp
  refine (if_neg (by rw [expands_not hone]; decide)).trans ?_
  extract_lets part v row sl cfg mis word rec formats y bad out
  have hrec : rec = some (rrecOf r.record) := congrArg (Option.map _) hres
  clear_value rec
  subst hrec
  have hformats : formats = true := Bool.and_eq_true_iff.mpr ⟨hcfg, beq_iff_eq.mpr hfloat⟩
  have hbad : ∀ p ∈ x.members, bad p = none := by
    intro p hp
    obtain ⟨-, h23, hrow⟩ := hrows p hp
    refine (if_neg (not_not.mpr h23)).trans ?_
    dsimp only
    rw [hformats]
    exact hrow
  have hmis : mis = [] := List.filter_eq_nil_iff.mpr fun p hp => by
    simpa using (hrows p hp).1
  have hout : out = [] := List.filter_eq_nil_iff.mpr fun p hp => by simp [hbad p hp]
  rw [hmis, hout, hformats]
  refine (if_neg (by decide)).trans ((if_neg (by decide)).trans ((if_neg (by decide)).trans ?_))
  rw [show part.res resv.toNat = some r from hres, hk]
  refine (if_neg (by exact Nat.not_lt.mpr hkr)).trans (if_neg ?_)
  rw [hfence]
  decide

/-- The shape of an MDRAIN. -/
def mdrainShape : Env → Shape := tileShape tile.toNat st [2, 3] true [a.toNat, a.toNat + 1] [b.toNat] []

/-- The state whose tile an MDRAIN reads. -/
def drainUsed (s : State) (x : Env) : State := (s.spend 2).tileUsed x tile.toNat

/-- An element that an MDRAIN reads. -/
def drainElem (s : State) (x : Env) (p j : Nat) : W40 :=
  (((drainUsed tile s x).myPart x).tile tile.toNat).elem (32 * x.laneOf p + j)

/-- The translation of the rows of an MDRAIN with add-on-store. -/
def drainWalked (s : State) (x : Env) : Walked := x.members.foldl (fun (w : Walked) p =>
  (rowVas (x.val true a.toNat p)).foldl (fun w c => Walked.one x x.ctx .readWrite 4 w p c) w)
    ⟨(drainUsed tile s x).spend 4096, [], [], [], false⟩

/-- The bytes of a drained row. -/
def drainLen (add : Bool) (x : Env) : Nat := if add then 128 else drainBytes (x.val false b.toNat x.first)

/-- An MDRAIN that no check stops, on a tile of a known type. -/
def DrainOk (add k : Bool) (s : State) (x : Env) : Prop :=
  (x.laned ∨ x.count ≤ 1) ∧ ((s.myPart x).tile tile.toNat).tag = some k ∧ s.fenced x = false ∧
    (((drainUsed tile s x).myPart x).tile tile.toNat).tag.isSome ∧
    (∀ k, s.block? x.bid = some k → k.tilePending x.part tile.toNat = false) ∧
    drainOk (x.val false b.toNat x.first) k add = true ∧
    (∀ p ∈ x.members, x.val true a.toNat p % 8 = 0 ∧
      addrOk x.spadLen 0 (x.val true a.toNat p) (drainLen b add x) true = true) ∧
    ∀ l, x.launch = some l → l.staged = false

/-- Ownership faults are a staged launch's alone. -/
theorem ownFault_unstaged {l : Launch} (h : l.staged = false) (num va : Nat) : l.ownFault num va = false := by
  unfold Launch.ownFault
  rw [h, Bool.false_and]

/-- An MDRAIN that no check stops drains its rows, or adds them on. -/
theorem mdrain_drains (add k : Bool) {s : State} {e : Env}
    (hok : DrainOk tile a b add k (s.prepare e (mdrainShape tile a b st e)).1 (s.prepare e (mdrainShape tile a b st e)).2)
    {out : Host.Outcome State Fault Refusal}
    (hout : ∀ f : State → Env → Eff,
      (let t := (s.prepare e (mdrainShape tile a b st e)).1
       let x := (s.prepare e (mdrainShape tile a b st e)).2
       f t x = if add then
          State.drainAdd ((drainUsed tile t x).spend 4096) x k tile.toNat (x.val true a.toNat) (drainElem tile t x)
        else .done (((drainUsed tile t x).spend 4096).drainPlain x tile.toNat (x.val true a.toNat) fun p =>
          packCodes (drainLen b add x / 4) ((upto 0 32).map fun j =>
            drainCode (x.val false b.toNat x.first) k (drainElem tile t x p j))) x) →
      s.runWord (mdrainShape tile a b st) f = out) :
    exec (.mdrain tile a b add st) s = out := by
  show execMdrain tile a b add st s = out
  unfold execMdrain
  refine hout _ ?_
  generalize (s.prepare e _).1 = t, (s.prepare e _).2 = x at hok ⊢
  obtain ⟨hone, htag, hfence, hsome, hopen, hctl, haddr, hstaged⟩ := hok
  refine (if_neg (by rw [expands_not hone]; decide)).trans ?_
  extract_lets va ctl n y k40 mis out own pending u tile' known free elem u' bytes
  have hk40 : k40 = k := by
    show y.tag.getD _ = k
    rw [show y.tag = some k from htag]
    rfl
  have hmis : mis = [] := List.filter_eq_nil_iff.mpr fun p hp => by simpa using (haddr p hp).1
  have hout' : out = [] := List.filter_eq_nil_iff.mpr fun p hp => by
    rw [show addrOk x.spadLen 0 (va p) n true = true from (haddr p hp).2]
    decide
  have hown : own = [] := by
    show (match x.launch with
      | some l => _
      | none => []) = []
    split
    next l hl =>
      refine List.filter_eq_nil_iff.mpr fun p _ => ?_
      simp [ownFault_unstaged (hstaged l hl)]
    next => rfl
  have hpending : pending = false := by
    show ((t.block? x.bid).map _).getD false = false
    cases hb : t.block? x.bid with
    | none => rfl
    | some k => exact hopen k hb
  have hknown : known = true := by
    show (tile'.tag.isSome && !pending) = true
    rw [hpending, show tile'.tag.isSome = true from hsome]
    rfl
  have helem : elem = drainElem tile t x := funext fun p => funext fun j => if_pos hknown
  have hbytes : bytes = fun p => packCodes (drainLen b add x / 4) ((upto 0 32).map fun j =>
      drainCode (x.val false b.toNat x.first) k (drainElem tile t x p j)) := by
    refine funext fun p => (if_pos hknown).trans ?_
    rw [helem, hk40]
    rfl
  rw [hmis, hout', hown, helem, hbytes]
  refine (if_neg (by decide)).trans ((if_neg (by decide)).trans ((if_neg ?_).trans ((if_neg (by decide)).trans
    ((if_neg ?_).trans ?_))))
  · rw [hk40, show drainOk ctl k add = true from hctl]
    decide
  · rw [hfence]
    decide
  · rw [hk40]
    rfl

theorem mdrain_plain (k : Bool) :
    Completes (.mdrain tile a b false st) (mdrainShape tile a b st) (DrainOk tile a b false k)
      (fun s x => (((drainUsed tile s x).spend 4096).drainPlain x tile.toNat (x.val true a.toNat) fun p =>
        packCodes (drainLen b false x / 4) ((upto 0 32).map fun j =>
          drainCode (x.val false b.toNat x.first) k (drainElem tile s x p j)), x)) :=
  fun _ _ he hok => mdrain_drains tile a b st false k hok fun _ hf => runWord_done he hf

/-- The elements of an MDRAIN with add-on-store. -/
def drainRow (s : State) (x : Env) : List SqElem := (drainWalked tile a s x).els.map fun y =>
  ⟨x.idx y.pos, BitVec.ofNat 64 y.va, y.loc,
    leBytes 5 (drainElem tile s x y.pos ((y.va - x.val true a.toNat y.pos) / 4)).toNat, y.mig, 0⟩

theorem mdrain_adds (k : Bool) :
    Completes (.mdrain tile a b true st) (mdrainShape tile a b st)
      (fun s x => DrainOk tile a b true k s x ∧ (drainWalked tile a s x).later = false ∧
        (drainWalked tile a s x).fails = [] ∧ (drainWalked tile a s x).chip = [] ∧
        ∀ y ∈ (drainWalked tile a s x).els, x.reaches (drainWalked tile a s x).s y = true)
      (fun s x => ((drainWalked tile a s x).s, { x with grp := { x.grp with stq := x.grp.stq ++
        [⟨.addon k tile.toNat, drainRow tile a s x, (drainWalked tile a s x).s.tick, x.origin, x.members.map x.idx, []⟩] } })) := by
  intro s e he ⟨hok, hlater, hfails, hchip, hreach⟩
  refine mdrain_drains tile a b st true k hok fun _ hf => runWord_done he (hf.trans ?_)
  generalize (s.prepare e _).1 = t, (s.prepare e _).2 = x at hlater hfails hchip hreach ⊢
  refine (if_pos rfl).trans ?_
  unfold State.drainAdd
  extract_lets w es q
  have hw : w = drainWalked tile a t x := rfl
  have hlater : ¬w.later = true := by
    rw [hw, hlater]
    decide
  have hall : ¬(!w.els.all (x.reaches w.s)) = true := by
    rw [hw, List.all_eq_true.mpr hreach]
    decide
  refine (if_neg hlater).trans ?_
  rw [show w.fails = [] from hfails]
  refine (if_neg ?_).trans ((if_neg hall).trans rfl)
  rw [show w.chip = [] from hchip]
  decide

theorem mwait_done :
    let on : Option Nat := if all then none else some tile.toNat
    Completes (.mwait tile all st) (tileShape tile.toNat st [2, 3] (!all) [] [] []) (fun s x => ¬mwaitBusy on s x = true)
      (fun s x => ((s.waited x fun r => r.onTile on).onBlock x.bid fun b => x.members.foldl (fun (b : Block) p =>
        b.observe (x.idx p) (mwaitSeen on)) b, x)) := by
  intro on
  refine completes_of_runWord (mwait_run tile all st) fun s x h => ?_
  exact (groupWord_free _ _).trans (if_neg h)

theorem mwait_waits (s : State) (e : Env) (he : Executes s (tileShape tile.toNat st [2, 3] (!all) [] [] [] e) e)
    (h : mwaitBusy (if all then none else some tile.toNat)
      (s.prepare e (tileShape tile.toNat st [2, 3] (!all) [] [] [] e)).1
      (s.prepare e (tileShape tile.toNat st [2, 3] (!all) [] [] [] e)).2 = true) :
    exec (.mwait tile all st) s = .next s :=
  (mwait_run tile all st s).trans (runWord_wait he ((groupWord_free _ _).trans (if_pos h)))

theorem ofence_done :
    Completes (.ofence st) (tileShape tile.toNat st [2] false [] [] []) (fun s x => ¬ofenceBusy s x = true)
      (fun s x => (s, x)) :=
  completes_of_runWord (ofence_run tile st) fun _ _ h => (groupWord_free _ _).trans (if_neg h)

theorem ofence_waits (s : State) (e : Env) (he : Executes s (tileShape tile.toNat st [2] false [] [] [] e) e)
    (h : ofenceBusy (s.prepare e (tileShape tile.toNat st [2] false [] [] [] e)).1
      (s.prepare e (tileShape tile.toNat st [2] false [] [] [] e)).2 = true) :
    exec (.ofence st) s = .next s :=
  (ofence_run tile st s).trans (runWord_wait he ((groupWord_free _ _).trans (if_pos h)))

end

/-- Settles O39: each matrix or tile word by its own effect. -/
theorem matrixWords : Obligations.MatrixWords := by
  unfold Obligations.MatrixWords
  intro tile resv zero diag i32 k40 all a b d mask mode st t sh lead one A place mma rows slice
  refine ⟨mma_completes tile resv zero diag a mask st, mcfg_completes tile a st, mcfg_traps tile a st,
    mzero_completes tile k40 st, mread_reads tile a d mode st, mwrite_completes tile i32 a b st, ?_, ?_, ?_⟩
  · intro add k sh va n u elem walked ok
    refine ⟨?_, ?_⟩
    · rintro rfl
      exact mdrain_plain tile a b st k
    · rintro rfl
      exact mdrain_adds tile a b st k
  · intro on sh busy
    refine ⟨fun s e he hb => ?_, fun s e he hb => mwait_waits tile all st s e he ((mwaitBusy_iff ..).mpr hb)⟩
    exact mwait_done tile all st s e he (mt (mwaitBusy_iff ..).mp hb)
  · intro sh spad busy
    refine ⟨fun s e he hb => ?_, fun s e he hb => ofence_waits tile st s e he ((ofenceBusy_iff ..).mpr hb)⟩
    exact ofence_done tile st s e he (mt (ofenceBusy_iff ..).mp hb)

end Sys2Proof.Machine
end

