-- ==== Sys2Proof/Proofs/ReservationsAndCopies.lean ====
section
/-! PROOF. Reservations, copies and fetches as they issue, and the events of their requests (R252 to R258). -/

namespace Sys2Proof.Machine

/-! ### O41: what the words on reservations and copies share -/

/-- The shape of a word on a reservation, or of a copy. -/
def recShape (st : BitVec 2) (role : Nat) (srcs firsts : List Nat) (e : Env) : Shape :=
  { firsts := firsts, srcs := srcs, pre := roleTrap [role] e, lat := none, gap := gapOf st none }

/-- The record at an offset can be read. -/
def RecordReadable (off : Nat) (s : State) (x : Env) (k : Block) : Prop :=
  off % 32 = 0 ∧ off + 32 ≤ x.spadLen ∧ s.block? x.bid = some k ∧ k.absentAt off 32 = false ∧
    sectorBad k.sums (off / 32) = false ∧ ∀ p ∈ x.members, s.loadWaits x ⟨p, 0, .spad off, false⟩ 32 = false

/-- The state behind a record's read. -/
def recordRead (off : Nat) (s : State) (x : Env) : State := s.touch x 32 false [⟨x.first, 0, .spad off, false⟩]

theorem recordAt_readable {off : Nat} {s : State} {x : Env} {k : Block} (h : RecordReadable off s x k)
    (f : State → Block → Nat → Eff) :
    s.recordAt x off f = f (recordRead off s x) k (x.spadLoad k off 32) := by
  obtain ⟨hal, hin, hk, habs, hsum, hwait⟩ := h
  unfold State.recordAt
  refine (ranged_inside ⟨hal, hin⟩ _).trans ?_
  rw [hk]
  refine (if_neg (by rw [habs]; decide)).trans ((if_neg ?_).trans (if_neg (by rw [hsum]; decide)))
  rw [Bool.not_eq_true]
  exact any_eq_false_of_forall hwait

/-- A record names a handle that its reservation may be bound to. -/
def Binds (s t : State) (x : Env) (r : RRec) (h : Handle) : Prop :=
  r.bound = true ∧ s.handleAt x r.handle = .entry t h ∧
    rangeOut x.spadLen false (((h.rows r.coords).take 32).flatMap h.ranges) = none ∧ h.peer = false ∧
    h.coordOk r.coords = true ∧ bindOk h r = true

theorem bindWith_unbound {s : State} {x : Env} {r : RRec} (h : r.bound = false) (f : State → Option Handle → Eff) :
    s.bindWith x false r f = f s none := by
  unfold State.bindWith
  rw [h]
  rfl

theorem bindWith_bound {s t : State} {x : Env} {r : RRec} {h : Handle} (hb : Binds s t x r h)
    (f : State → Option Handle → Eff) : s.bindWith x false r f = f t (some h) := by
  obtain ⟨hbound, hat, hrange, hpeer, hcoord, hok⟩ := hb
  unfold State.bindWith
  rw [hbound, hat]
  simp only [Bool.not_true, Bool.false_eq_true, if_false, hpeer, hrange, hcoord, hok, Bool.or_self]

section
variable (resv : BitVec 4) (a : RegN) (st : BitVec 2)

/-- The offset of the record that a word reads. -/
def recOff (x : Env) : Nat := x.val false a.toNat x.first

/-- The record that an OBRES reads. -/
def obresRec (k : Block) (x : Env) : BitVec 256 := BitVec.ofNat 256 (x.spadLoad k (recOff a x) 32)

/-- The reservation's number and range are free. -/
def RecordFree (s : State) (x : Env) (k : Block) : Prop :=
  ((recordRead (recOff a x) s x).myPart x).res resv.toNat = none ∧
    resvOk (obresRec a k x) (x.ofLaunch Launch.obuf)
      (((recordRead (recOff a x) s x).myPart x).resv.filterMap fun v => v.map fun y => rrecOf y.record) = true

/-- What an OBRES does with its environment. -/
def obresEff (s : State) (x : Env) : Eff :=
  s.recordAt x (recOff a x) fun s _ v =>
    let p := s.myPart x
    let rec' := BitVec.ofNat 256 v
    let live := p.resv.filterMap fun v => v.map fun y => rrecOf y.record
    let bad := (p.res resv.toNat).isSome || !resvOk rec' (x.ofLaunch Launch.obuf) live
    let r := rrecOf rec'
    s.bindWith x bad r fun s h =>
      .done ((s.setResv x resv.toNat (some ⟨rec', false, none, []⟩)).bindNow x resv.toNat r h) x

/-- A word that executes once where register a is uniform. -/
def onceEff (f : State → Env → Eff) (s : State) (x : Env) : Eff :=
  if x.grp.span && !x.solo && !([(a, false)].all fun y => x.uniform y.2 y.1.toNat) then .expand else f s x

theorem onceEff_once {s : State} {x : Env} (h : x.laned ∨ x.uniform false a.toNat = true) (f : State → Env → Eff) :
    onceEff a f s x = f s x := if_neg (mcfg_once a h)

theorem obres_run (s : State) :
    exec (.obres resv a st) s = s.runWord (recShape st 2 [] [a.toNat]) (onceEff a (obresEff resv a)) := rfl

theorem obresEff_free {s : State} {x : Env} {k : Block} (hread : RecordReadable (recOff a x) s x k)
    (hfree : RecordFree resv a s x k) :
    obresEff resv a s x = (recordRead (recOff a x) s x).bindWith x false (rrecOf (obresRec a k x)) fun s h =>
      .done ((s.setResv x resv.toNat (some ⟨obresRec a k x, false, none, []⟩)).bindNow x resv.toNat
        (rrecOf (obresRec a k x)) h) x := by
  refine (recordAt_readable hread _).trans ?_
  extract_lets p r live bad r'
  have hbad : bad = false := by
    obtain ⟨hnone, hok⟩ := hfree
    show ((p.res resv.toNat).isSome || !resvOk r (x.ofLaunch Launch.obuf) live) = false
    rw [show p.res resv.toNat = none from hnone, show resvOk r _ live = true from hok]
    rfl
  rw [hbad]
  rfl

theorem obres_unbound (k : Block) :
    Completes (.obres resv a st) (recShape st 2 [] [a.toNat])
      (fun s x => (x.laned ∨ x.uniform false a.toNat = true) ∧ RecordReadable (recOff a x) s x k ∧
        RecordFree resv a s x k ∧ (rrecOf (obresRec a k x)).bound = false)
      (fun s x => ((recordRead (recOff a x) s x).setResv x resv.toNat (some ⟨obresRec a k x, false, none, []⟩), x)) := by
  refine completes_of_runWord (obres_run resv a st) fun s x h => ?_
  obtain ⟨hone, hread, hfree, hb⟩ := h
  exact (onceEff_once a hone _).trans ((obresEff_free resv a hread hfree).trans (bindWith_unbound hb _))

theorem obres_bound (k : Block) (t : State) (h : Handle) :
    Completes (.obres resv a st) (recShape st 2 [] [a.toNat])
      (fun s x => (x.laned ∨ x.uniform false a.toNat = true) ∧ RecordReadable (recOff a x) s x k ∧
        RecordFree resv a s x k ∧ Binds (recordRead (recOff a x) s x) t x (rrecOf (obresRec a k x)) h)
      (fun _ x => ((t.setResv x resv.toNat (some ⟨obresRec a k x, false, none, []⟩)).startFill x resv.toNat
        (rrecOf (obresRec a k x)) h, x)) := by
  refine completes_of_runWord (obres_run resv a st) fun s x h => ?_
  obtain ⟨hone, hread, hfree, hb⟩ := h
  exact (onceEff_once a hone _).trans ((obresEff_free resv a hread hfree).trans (bindWith_bound hb _))

/-- What an OBBIND does with its environment. -/
def obbindEff (s : State) (x : Env) : Eff :=
  s.recordAt x (recOff a x) fun s _ y =>
    match (s.myPart x).res resv.toNat with
    | none => s.bindWith x true (rrecOf (BitVec.ofNat 256 y)) fun _ _ => x.resvTrap
    | some v =>
      let rec' := rebind v.record (BitVec.ofNat 256 y)
      let r := rrecOf rec'
      s.bindWith x false r fun s h =>
        let s := (s.resvUsed x resv.toNat).dropFill x resv.toNat
        .done ((s.setResv x resv.toNat (some (v.rebound rec'))).bindNow x resv.toNat r h) x

theorem obbind_run (s : State) :
    exec (.obbind resv a st) s = s.runWord (recShape st 2 [] [a.toNat]) (onceEff a (obbindEff resv a)) := rfl

/-- The record of a reservation with a new binding. -/
def obbindRec (v : Resv) (k : Block) (x : Env) : BitVec 256 := rebind v.record (obresRec a k x)

theorem obbindEff_some {s : State} {x : Env} {k : Block} {v : Resv} (hread : RecordReadable (recOff a x) s x k)
    (hv : ((recordRead (recOff a x) s x).myPart x).res resv.toNat = some v) :
    obbindEff resv a s x = (recordRead (recOff a x) s x).bindWith x false (rrecOf (obbindRec a v k x)) fun s h =>
      .done ((((s.resvUsed x resv.toNat).dropFill x resv.toNat).setResv x resv.toNat
        (some (v.rebound (obbindRec a v k x)))).bindNow x resv.toNat (rrecOf (obbindRec a v k x)) h) x := by
  refine (recordAt_readable hread _).trans ?_
  dsimp only
  rw [hv]
  rfl

theorem obbind_unbound (k : Block) (v : Resv) :
    Completes (.obbind resv a st) (recShape st 2 [] [a.toNat])
      (fun s x => (x.laned ∨ x.uniform false a.toNat = true) ∧ RecordReadable (recOff a x) s x k ∧
        ((recordRead (recOff a x) s x).myPart x).res resv.toNat = some v ∧ (rrecOf (obbindRec a v k x)).bound = false)
      (fun s x => (((((recordRead (recOff a x) s x).resvUsed x resv.toNat).dropFill x resv.toNat).setResv x resv.toNat
        (some { v with record := obbindRec a v k x })), x)) := by
  refine completes_of_runWord (obbind_run resv a st) fun s x h => ?_
  obtain ⟨hone, hread, hv, hb⟩ := h
  refine (onceEff_once a hone _).trans ((obbindEff_some resv a hread hv).trans ((bindWith_unbound hb _).trans ?_))
  unfold Resv.rebound
  rw [hb]
  rfl

theorem obbind_bound (k : Block) (v : Resv) (t : State) (h : Handle) :
    Completes (.obbind resv a st) (recShape st 2 [] [a.toNat])
      (fun s x => (x.laned ∨ x.uniform false a.toNat = true) ∧ RecordReadable (recOff a x) s x k ∧
        ((recordRead (recOff a x) s x).myPart x).res resv.toNat = some v ∧
        Binds (recordRead (recOff a x) s x) t x (rrecOf (obbindRec a v k x)) h)
      (fun _ x => ((((t.resvUsed x resv.toNat).dropFill x resv.toNat).setResv x resv.toNat
        (some ⟨obbindRec a v k x, false, none, []⟩)).startFill x resv.toNat (rrecOf (obbindRec a v k x)) h, x)) := by
  refine completes_of_runWord (obbind_run resv a st) fun s x h => ?_
  obtain ⟨hone, hread, hv, hb⟩ := h
  refine (onceEff_once a hone _).trans ((obbindEff_some resv a hread hv).trans ((bindWith_bound hb _).trans ?_))
  unfold Resv.rebound
  rw [hb.1]
  rfl

theorem obrel_completes :
    Completes (.obrel resv st) (recShape st 2 [] []) (fun _ _ => True)
      (fun s x => ((((s.resvUsed x resv.toNat).dropFill x resv.toNat).forgetFill x resv.toNat).setResv x resv.toNat none,
        x)) := by
  intro s e he _
  show execObrel resv st s = _
  unfold execObrel State.groupWord
  exact runWord_done (sh := recShape st 2 [] []) he (groupWord_free _ _)

end

/-! ### O41: copies at issue -/

section
variable (arv : Bool)

/-- A copy passes its checks past its descriptor. -/
def CopyPasses (s t : State) (x : Env) (k : Block) (w : CopyWord) (d : CDesc) (h : Handle) (c1 : Nat → Nat) : Prop :=
  d.spad % 16 = 0 ∧ d.pitch % 16 = 0 ∧ (∀ b, d.bar = some b → b % 16 = 0 ∧ b + 16 ≤ x.spadLen) ∧
    s.handleAt x d.handle = .entry t h ∧ (∀ r ∈ d.rows w x h c1, d.rowOut w x h r = none) ∧ h.coordOk d.coords = true ∧
    (h.peer = true → w = .cpys ∧ x.ofLaunch Launch.progress = 2 ∧ (t.peerOf k h).isSome) ∧ d.bad w h arv = false ∧
    (d.toob = true → ∃ v, (t.myPart x).res d.resv = some v ∧ (rrecOf v.record).bound = false ∧
      bindOk h (rrecOf v.record) = true) ∧
    (w = .cpys → h.peer = false → ∀ l, x.launch = some l → l.staged = false)

/-- A copy that passes its checks is issued. -/
def copyIssued (t : State) (x : Env) (k : Block) (w : CopyWord) (d : CDesc) (h : Handle) (c1 : Nat → Nat) : State :=
  t.copyIssue x w d arv h (if h.peer then t.peerOf k h else none) (d.rows w x h c1)

theorem ownOut_unstaged {l : Launch} (h : l.staged = false) (num : Nat) (xs : List (Nat × Nat)) :
    ownOut l num xs = none := by
  unfold ownOut
  exact List.find?_eq_none.mpr fun a _ => by simp [ownFault_unstaged h]

theorem copy_passes {s t : State} {x : Env} {k : Block} {w : CopyWord} {d : CDesc} {h : Handle} {c1 : Nat → Nat}
    (hp : CopyPasses arv s t x k w d h c1) :
    s.copy x k w d arv c1 = .done (copyIssued arv t x k w d h c1) x := by
  obtain ⟨hspad, hpitch, hbar, hat, hrows, hcoord, hpeer, hbad, htoob, hstaged⟩ := hp
  unfold State.copy
  extract_lets tb
  have htb : ∀ y ∈ tb, y % 16 = 0 ∧ y + 16 ≤ x.spadLen := by
    intro y hy
    cases hb : d.bar with
    | none =>
      unfold tb at hy
      rw [hb] at hy
      cases hy
    | some b =>
      unfold tb at hy
      rw [hb] at hy
      obtain rfl : y = b := List.mem_singleton.mp hy
      exact hbar y hb
  have hmis : (([d.spad, d.pitch] ++ tb).find? fun x => x % 16 != 0) = none := by
    refine List.find?_eq_none.mpr fun y hy => ?_
    rcases List.mem_append.mp hy with hy | hy
    · rcases List.mem_pair.mp hy with rfl | rfl
      · simp [hspad]
      · simp [hpitch]
    · simp [(htb y hy).1]
  have hout : (tb.find? fun y => decide (x.spadLen < y + 16)) = none :=
    List.find?_eq_none.mpr fun y hy => by simpa using (htb y hy).2
  rw [hmis, hout, hat]
  dsimp -zeta only
  extract_lets rows out peer wrong resv resvBad own
  have hnil : out = [] := List.filter_eq_nil_iff.mpr fun r hr => by simp [hrows r hr]
  have hwrong : wrong = false := by
    cases hpe : h.peer with
    | false =>
      unfold wrong
      rw [hpe]
      rfl
    | true =>
      obtain ⟨hw, hprog, hsome⟩ := hpeer hpe
      show (h.peer && (w != .cpys || x.ofLaunch Launch.progress != 2 || peer.isNone)) = false
      rw [hpe, hw, hprog, Option.isNone_eq_false_iff.mpr hsome]
      rfl
  have hresv : (d.toob && resvBad) = false := by
    cases ht : d.toob with
    | false => rfl
    | true =>
      obtain ⟨v, hv, hb, hok⟩ := htoob ht
      unfold resvBad resv
      rw [hv]
      simp [hb, hok]
  have hown : own = none := by
    unfold own
    split
    next l hl =>
      split
      · rfl
      next hc =>
        have hw : w = .cpys := by
          by_contra hne
          exact hc (by simp [hne])
        exact ownOut_unstaged (hstaged hw (by simpa [hw] using hc) l hl) _ _
    next => rfl
  rw [hnil]
  refine (if_neg (by rw [hcoord, hwrong]; decide)).trans ((if_neg (by rw [hbad]; decide)).trans
    ((if_neg (by rw [hresv]; decide)).trans ?_))
  rw [hown]
  rfl

end

section
variable (a c : RegN) (arv : Bool) (st : BitVec 2)

/-- What a copy word does with its environment. -/
def copyEff (w : CopyWord) (c1 : Env → Nat → Nat) (s : State) (x : Env) : Eff :=
  s.recordAt x (recOff a x) fun s k y => (s.copy x k w (cdescOf y) arv (c1 x)).copyAt (recOff a x)

theorem copyEff_passes {w : CopyWord} {c1 : Env → Nat → Nat} {s t : State} {x : Env} {k : Block} {h : Handle}
    (hread : RecordReadable (recOff a x) s x k)
    (hp : CopyPasses arv (recordRead (recOff a x) s x) t x k w (cdescOf (x.spadLoad k (recOff a x) 32)) h (c1 x)) :
    copyEff a arv w c1 s x =
      .done (copyIssued arv t x k w (cdescOf (x.spadLoad k (recOff a x) 32)) h (c1 x)) x := by
  refine (recordAt_readable hread _).trans ?_
  rw [copy_passes arv hp]
  rfl

theorem cpy_run (s : State) : exec (.cpy a arv st) s =
    s.runWord (recShape st 1 [] [a.toNat]) (onceEff a (copyEff a arv .cpy fun _ _ => 0)) := rfl

theorem cpys_run (s : State) : exec (.cpys a arv st) s =
    s.runWord (recShape st 1 [] [a.toNat]) (onceEff a (copyEff a arv .cpys fun _ _ => 0)) := rfl

theorem fetch_run (s : State) : exec (.fetch a c arv st) s =
    s.runWord (recShape st 1 [c.toNat] [a.toNat]) (onceEff a fun s x =>
      if x.grp.span && !x.solo && decide (1 < x.count) then .expand
      else copyEff a arv .fetch (fun x => x.val false c.toNat) s x) := rfl

/-- A copy whose rows do not depend on the members is issued. -/
theorem copy_completes {i : Instr} {w : CopyWord} (hi : ∀ s, exec i s =
      s.runWord (recShape st 1 [] [a.toNat]) (onceEff a (copyEff a arv w fun _ _ => 0))) (k : Block) (t : State)
    (h : Handle) :
    Completes i (recShape st 1 [] [a.toNat])
      (fun s x => (x.laned ∨ x.uniform false a.toNat = true) ∧ RecordReadable (recOff a x) s x k ∧
        CopyPasses arv (recordRead (recOff a x) s x) t x k w (cdescOf (x.spadLoad k (recOff a x) 32)) h fun _ => 0)
      (fun _ x => (copyIssued arv t x k w (cdescOf (x.spadLoad k (recOff a x) 32)) h fun _ => 0, x)) := by
  refine completes_of_runWord hi fun s x hp => ?_
  obtain ⟨hone, hread, hpass⟩ := hp
  exact (onceEff_once a hone _).trans (copyEff_passes a arv hread hpass)

theorem fetch_completes (k : Block) (t : State) (h : Handle) :
    Completes (.fetch a c arv st) (recShape st 1 [c.toNat] [a.toNat])
      (fun s x => (x.laned ∨ x.uniform false a.toNat = true) ∧ (x.laned ∨ x.count ≤ 1) ∧
        RecordReadable (recOff a x) s x k ∧ CopyPasses arv (recordRead (recOff a x) s x) t x k .fetch
          (cdescOf (x.spadLoad k (recOff a x) 32)) h (x.val false c.toNat))
      (fun _ x => (copyIssued arv t x k .fetch (cdescOf (x.spadLoad k (recOff a x) 32)) h (x.val false c.toNat), x)) := by
  refine completes_of_runWord (fetch_run a c arv st) fun s x hp => ?_
  obtain ⟨hone, hcount, hread, hpass⟩ := hp
  refine (onceEff_once a hone _).trans ((if_neg (by rw [expands_not hcount]; decide)).trans ?_)
  exact copyEff_passes a arv (c1 := fun x => x.val false c.toNat) hread hpass

end

/-! ### O41: fills, reads and sectors -/

section
variable {s : State} {bid : Nat} {x : Eng}

theorem fill_over (hx : s.eng? bid x.r.rid = some x) {o : Nat} {secs : List CSec} (hk : x.r.kind = .fill o secs)
    (hfin : ∀ c ∈ secs, c.fin = true) :
    exec (.reservationFill bid x.r.rid) s =
      .next ((s.dropReq bid x.r.rid).onBlock bid fun b => b.onPart x.r.part fun p =>
        { p with resv := p.resv.set o ((p.res o).map fun v => { v with filled := true, await := none, seen := [] }) }) := by
  have hany : secs.any (fun c => !c.fin) = false := any_eq_false_of_forall fun c hc => by simp [hfin c hc]
  show execReservationFill bid x.r.rid s = _
  unfold execReservationFill
  rw [hx]
  dsimp only
  rw [hk]
  simp only [hany, Bool.false_eq_true, if_false]

theorem sources_read (hx : s.eng? bid x.r.rid = some x) {sec first n : Nat} {t : State}
    {vs : List (Option Byte × List Nat)} (hmode : x.l.mode = .normal) (hne : wanted x.r.kind.secs sec first n ≠ [])
    (hread : s.readSrcs x ((wanted x.r.kind.secs sec first n).map fun w => w.2.2.src) = .vals t vs) :
    exec (.copySourceRead bid x.r.rid sec first n) s = .next (t.setReq bid { x.r with
      kind := x.r.kind.withSecs (setVals x.r.kind.secs
        (((wanted x.r.kind.secs sec first n).zip vs).map fun y => (y.1.1, y.1.2.1, y.2))) }) := by
  have hred : x.l.redundant = false := by
    unfold Launch.redundant
    rw [hmode]
    rfl
  have hdet : (x.l.mode == .deterministic) = false := by
    rw [hmode]
    rfl
  have hemp : (wanted x.r.kind.secs sec first n).isEmpty = false := by simpa using hne
  show execCopySourceRead bid x.r.rid sec first n s = _
  unfold execCopySourceRead
  rw [hx]
  simp only [hred, hdet, hemp, Bool.false_and, Bool.or_self, Bool.false_eq_true, if_false, hread, List.append_nil]

theorem sector_written (hx : s.eng? bid x.r.rid = some x) {sec : Nat} {c : CSec} {t : State}
    (hc : x.r.kind.secs[sec]? = some c) (hfin : c.fin = false) (hread : ∀ m ∈ c.moves, m.val.isSome = true)
    (hfull : x.b.full = none) (hrow : waitsForRow x.r.kind.secs c = false)
    (hpeer : ∀ b p f o l, x.r.kind ≠ .copy b (some p) f o l) (hw : s.secWrite x sec c = .ok t) :
    exec (.sectorPerformed bid x.r.rid (.whole sec)) s =
      .next (((t.engWatch x c).overtake x c).secDone x sec c true) := by
  have hany : c.moves.any (fun m => m.val.isNone) = false := any_eq_false_of_forall fun m hm => by
    rw [Option.isNone_eq_false_iff]
    exact hread m hm
  show execSectorPerformed bid x.r.rid (.whole sec) s = _
  unfold execSectorPerformed
  rw [hx]
  dsimp only
  rw [show secNum (.whole sec) = sec from rfl, hc]
  dsimp only
  rw [hfin, hany, hfull, hrow]
  refine congrArg Host.Outcome.next ((if_neg (by decide)).trans ?_)
  split
  next p _ _ _ h => exact absurd h (hpeer _ _ _ _ _)
  next => simp [hw]

end

/-- Settles O41: the words, then what each event of their requests leaves. -/
theorem reservationsAndCopies : Obligations.ReservationsAndCopies := by
  unfold Obligations.ReservationsAndCopies
  refine ⟨fun resv a c arv st => ?_, fun s bid x hx => ⟨fun o secs hk hfin => fill_over hx hk hfin,
    fun sec first n t vs hm hne hr _ => sources_read hx hm hne hr,
    fun sec c t hc hfin hr hfull hrow hp hw => sector_written hx hc hfin hr hfull hrow hp hw⟩⟩
  exact ⟨obres_unbound resv a st, obres_bound resv a st, obbind_unbound resv a st, obbind_bound resv a st,
    obrel_completes resv st, copy_completes a arv st (cpy_run a arv st), copy_completes a arv st (cpys_run a arv st),
    fetch_completes a c arv st⟩

end Sys2Proof.Machine
end

