-- ==== Sys2Proof/Proofs/Exchanges.lean ====
section
/-! PROOF. An exchange with the trap bank: pairs taken apart, what each side takes, and the word (R191). -/

namespace Sys2Proof.Machine

/-! ### O28: registers that stand by themselves -/

/-- A pair form stands in an even register and the one after it. -/
def Grp.Paired (g : Grp) : Prop := ∀ k,
  (∀ b t, (g.cell k).kind = .f64 b t → k % 2 = 0 ∧ (g.cell (k + 1)).kind = .f64hi) ∧
  ((g.cell k).kind = .f64hi → k % 2 = 1 ∧ ∃ b t, (g.cell (k - 1)).kind = .f64 b t)

/-- A representation of one register by itself. -/
def RegKind.single : RegKind → Prop
  | .f32 _ _ => True
  | .e _ _ => True
  | _ => False

/-- The value at a position of a register held in one way, behind a register held in another. -/
def RegKind.value (k before : RegKind) (p : Nat) : W32 := match k with
  | .f32 b s => formVal b s p
  | .f64 b s => lo64 (formVal64 b s p)
  | .f64hi => match before with
    | .f64 b s => hi64 (formVal64 b s p)
    | _ => 0
  | .e _ vs => nth vs p 0

theorem val_eq_value (g : Grp) (r p : Nat) : g.val r p = (g.cell r).kind.value (g.cell (r - 1)).kind p := by
  unfold Grp.val RegKind.value
  cases (g.cell r).kind <;> rfl

theorem value_of_single {k : RegKind} (h : k.single) (x y : RegKind) (p : Nat) : k.value x p = k.value y p := by
  cases k with
  | f32 => rfl
  | e => rfl
  | f64 => cases h
  | f64hi => cases h

/-- Behind registers that start no pair form, a register reads alike. -/
theorem value_behind (k : RegKind) {x y : RegKind} (hx : ∀ b s, x ≠ .f64 b s) (hy : ∀ b s, y ≠ .f64 b s) (p : Nat) :
    k.value x p = k.value y p := by
  have hzero : ∀ z : RegKind, (∀ b s, z ≠ .f64 b s) → RegKind.f64hi.value z p = 0 := by
    intro z hz
    cases z with
    | f64 b s => exact absurd rfl (hz b s)
    | f32 => rfl
    | e => rfl
    | f64hi => rfl
  cases k with
  | f64hi => rw [hzero x hx, hzero y hy]
  | f32 => rfl
  | f64 => rfl
  | e => rfl

theorem single_starts_none {k : RegKind} (h : k.single) (b : W64) (s : W32) : k ≠ .f64 b s := by
  rintro rfl
  exact h

/-- A register that stands by itself reads by its own representation. -/
theorem val_of_single {g h : Grp} {r q : Nat} (hk : (g.cell r).kind = (h.cell q).kind) (hs : (h.cell q).kind.single)
    (p : Nat) : g.val r p = h.val q p := by
  rw [val_eq_value, val_eq_value, hk]
  exact value_of_single hs _ _ p

/-- Replacing a register that stands by itself by another such leaves what every other register reads as. -/
theorem val_setCell_single {g : Grp} {n r : Nat} {c : RegCell} (hc : c.kind.single) (hg : (g.cell n).kind.single)
    (hr : r ≠ n) (p : Nat) : (g.setCell n c).val r p = g.val r p := by
  rw [val_eq_value, val_eq_value, cell_setCell_ne (Ne.symm hr)]
  by_cases hn : n = r - 1
  · subst hn
    refine value_behind _ ?_ (single_starts_none hg) p
    rw [cell_setCell]
    split
    · exact single_starts_none hc
    · exact single_starts_none hg
  · rw [cell_setCell_ne hn]

/-- Dropping or setting the mark of a wide pair of values changes no value. -/
theorem val_setMark {g : Grp} {n : Nat} {w w' : Bool} {vs : List W32} (hg : (g.cell n).kind = .e w vs) (r p : Nat) :
    (g.setCell n { g.cell n with kind := .e w' vs }).val r p = g.val r p := by
  by_cases hr : r = n
  · subst hr
    have hlt : r < g.regs.length := lt_of_kind_ne (by rw [hg]; exact RegKind.noConfusion)
    rw [val_eq_value, val_eq_value, cell_setCell_same hlt, hg]
    rfl
  · exact val_setCell_single (c := { g.cell n with kind := .e w' vs }) trivial (by rw [hg]; trivial) hr p

/-- The low register of the pair that a register belongs to. -/
def pairLow (r : Nat) : Nat := r - r % 2

/-- A span's pair form whose high half reads as no form is not taken apart by itself. -/
def Grp.Apart (g : Grp) (n : Nat) : Prop :=
  g.span = true → ∀ b s, (g.cell (pairLow n)).kind = .f64 b s → (g.cell (pairLow n + 1)).kind = .f64hi →
    (g.form32 (pairLow n + 1)).isSome

theorem apart_of_alone {g : Grp} {n : Nat} (h : g.span = true → (g.alone n).isSome) : g.Apart n := by
  intro hs b s hlo hhi
  have hlt : pairLow n + 1 < g.regs.length := lt_of_kind_ne (by rw [hhi]; exact RegKind.noConfusion)
  have ha := h hs
  unfold Grp.alone at ha
  rcases Nat.mod_two_eq_zero_or_one n with hn | hn
  · have hp : pairLow n = n := by unfold pairLow; omega
    have hm : mate n = n + 1 := by unfold mate; rw [if_pos hn]
    rw [hp] at hlo hlt ⊢
    rw [hm] at ha
    cases hf : g.form32 (n + 1) with
    | some x => rfl
    | none =>
      rw [hf, show g.form32 n = some (lo64 b, s) by unfold Grp.form32; rw [hlo]] at ha
      simp [hlt] at ha
  · have hp : pairLow n + 1 = n := by unfold pairLow; omega
    rw [hp]
    cases hf : g.form32 n with
    | some x => rfl
    | none =>
      rw [hf] at ha
      simp at ha

/-- The halves of a pair form, each held by itself. -/
theorem val_halves {g : Grp} {lo p : Nat} {b : W64} {s : W32} {k : RegKind} (hlo : (g.cell lo).kind = .f64 b s)
    (hhi : (g.cell (lo + 1)).kind = .f64hi) (hk : k.single) (hv : k.value .f64hi p = g.val (lo + 1) p) (r : Nat) :
    ((g.setCell (lo + 1) { g.cell (lo + 1) with kind := k }).setCell lo
      { g.cell lo with kind := .f32 (lo64 b) s }).val r p = g.val r p := by
  have hlt : lo + 1 < g.regs.length := lt_of_kind_ne (by rw [hhi]; exact RegKind.noConfusion)
  have hlt' : lo < (g.setCell (lo + 1) { g.cell (lo + 1) with kind := k }).regs.length := by
    rw [setCell_length]
    omega
  rw [val_eq_value]
  by_cases h0 : r = lo
  · subst h0
    rw [cell_setCell_same hlt', val_eq_value, hlo]
    exact (lo64_formVal64 b s p).symm
  · by_cases h1 : r = lo + 1
    · subst h1
      rw [cell_setCell_ne (by omega), cell_setCell_same hlt, ← hv]
      exact value_of_single hk _ _ p
    · rw [cell_setCell_ne (Ne.symm h0), cell_setCell_ne (Ne.symm h1), val_eq_value]
      have hne : lo ≠ r - 1 := by omega
      rw [cell_setCell_ne hne]
      by_cases h2 : lo + 1 = r - 1
      · refine value_behind _ ?_ ?_ p
        · rw [← h2, cell_setCell_same hlt]
          exact single_starts_none hk
        · rw [← h2, hhi]
          exact fun _ _ => RegKind.noConfusion
      · rw [cell_setCell_ne h2]

/-- Taking a pair apart changes no value of the group's threads. -/
theorem unpair_val {g : Grp} {n : Nat} (ha : g.Apart n) {p : Nat} (hp : p ∈ g.positions) (r : Nat) :
    (g.unpair n).val r p = g.val r p := by
  unfold Grp.unpair
  simp only
  split
  next b s hlo hhi =>
    cases hf : g.form32 (n - n % 2 + 1) with
    | some f => exact val_halves (k := .f32 f.1 f.2) hlo hhi trivial (form32_val hf hp).symm r
    | none =>
      refine val_halves (k := .e false (g.lanesVals (n - n % 2 + 1))) hlo hhi trivial ?_ r
      have hs : ¬g.span = true := fun hs => by
        have h := ha hs b s hlo hhi
        rw [show pairLow n + 1 = n - n % 2 + 1 from rfl, hf] at h
        cases h
      unfold Grp.positions at hp
      rw [if_neg hs, mem_lanesOf] at hp
      exact nth_map_upto0 hp.1
  next vs hlo =>
    split
    next ws hhi =>
      rw [val_setMark (w := true), val_setMark hlo]
      rw [cell_setCell_ne (by omega)]
      exact hhi
    next => exact val_setMark hlo r p
  next ws hhi _ => exact val_setMark hhi r p
  next => rfl

theorem single_setCell {g : Grp} {r q : Nat} {c : RegCell} (hc : c.kind.single) (hg : (g.cell q).kind.single) :
    ((g.setCell r c).cell q).kind.single := by
  rw [cell_setCell]
  split
  · exact hc
  · exact hg

/-- A register stands by itself, or belongs to a pair form. -/
theorem single_or_pair {g : Grp} (hg : g.Paired) (n : Nat) :
    (g.cell n).kind.single ∨ ∃ b s, (g.cell (n - n % 2)).kind = .f64 b s ∧ (g.cell (n - n % 2 + 1)).kind = .f64hi := by
  cases hk : (g.cell n).kind with
  | f32 => exact .inl trivial
  | e => exact .inl trivial
  | f64 b s =>
    obtain ⟨heven, hhi⟩ := (hg n).1 b s hk
    rw [show n - n % 2 = n by omega]
    exact .inr ⟨b, s, hk, hhi⟩
  | f64hi =>
    obtain ⟨hodd, b, s, hlo⟩ := (hg n).2 hk
    rw [show n - n % 2 = n - 1 by omega, show n - 1 + 1 = n by omega]
    exact .inr ⟨b, s, hlo, hk⟩

/-- A register of a pair taken apart stands by itself. -/
theorem unpair_single {g : Grp} (hg : g.Paired) (n : Nat) : ((g.unpair n).cell n).kind.single := by
  have hor := single_or_pair hg n
  unfold Grp.unpair
  simp only
  split
  next b s hlo hhi =>
    have hlt : n - n % 2 + 1 < g.regs.length := lt_of_kind_ne (by rw [hhi]; exact RegKind.noConfusion)
    by_cases hn : n - n % 2 = n
    · rw [hn, cell_setCell_same (by rw [setCell_length]; omega)]
      trivial
    · rw [cell_setCell_ne hn, show n - n % 2 + 1 = n by omega, cell_setCell_same (by omega)]
      cases g.form32 n <;> trivial
  next vs hlo =>
    have hs : (g.cell n).kind.single := hor.resolve_right fun ⟨b, s, h, _⟩ => by
      rw [hlo] at h
      cases h
    split
    · exact single_setCell trivial (single_setCell trivial hs)
    · exact single_setCell trivial hs
  next ws hhi _ =>
    have hs : (g.cell n).kind.single := hor.resolve_right fun ⟨b, s, _, h⟩ => by
      rw [hhi] at h
      cases h
    exact single_setCell trivial hs
  next hno => exact hor.resolve_right fun ⟨b, s, h, h'⟩ => hno b s h h'

/-! ### O28: what one side of an exchange takes -/

section
variable {g : Grp} {m : W32} {n : Nat} {c : RegCell} {vs : List W32}

theorem take_regs : g.take m n c vs = { g with regs := (g.take m n c vs).regs } := by
  unfold Grp.take
  simp only
  rw [unpair_regs]
  split <;> rfl

theorem take_cell_ne {r : Nat} (hr : r ≠ n) : (g.take m n c vs).cell r = (g.unpair n).cell r := by
  unfold Grp.take Grp.writeLanes
  simp only
  split
  · exact cell_setCell_ne (Ne.symm hr)
  · rw [cell_setCell_ne (Ne.symm hr), cell_setCell_ne (Ne.symm hr)]

theorem take_rel_ne {r : Nat} (hr : r ≠ n) : ((g.take m n c vs).cell r).rel = (g.cell r).rel := by
  rw [take_cell_ne hr, unpair_rel]

/-- Another register keeps its value. -/
theorem take_val_ne (hg : g.Paired) (ha : g.Apart n) (hc : c.kind.single) {r p : Nat} (hr : r ≠ n) (hp : p ∈ g.positions) :
    (g.take m n c vs).val r p = g.val r p := by
  have hu := unpair_single hg n
  have hv : (g.take m n c vs).val r p = (g.unpair n).val r p := by
    unfold Grp.take Grp.writeLanes
    simp only
    split
    · exact val_setCell_single hc hu hr p
    · rw [val_setCell_single, val_setCell_single _ hu hr]
      · trivial
      · exact single_setCell trivial hu
      · exact single_setCell trivial hu
      · exact hr
  rw [hv]
  exact unpair_val ha hp r

/-- A whole group takes the cell. -/
theorem take_whole (hn : n < g.regs.length) (h : (g.span || m == g.live) = true) : (g.take m n c vs).cell n = c := by
  unfold Grp.take
  simp only
  rw [(unpair_same g n).span, show (g.unpair n).live = g.live by unfold Grp.live; rw [(unpair_same g n).units], if_pos h]
  exact cell_setCell_same (by rw [unpair_length]; exact hn)

/-- The lanes of a mask take the values and the release marks, the others keep theirs. -/
theorem take_lanes (hn : n < g.regs.length) (hs : g.span = false) (h : (m == g.live) = false) {p : Nat}
    (hp : p ∈ g.positions) :
    if bit m.toNat p = true
      then (g.take m n c vs).val n p = nth vs p 0 ∧ bit ((g.take m n c vs).cell n).rel.toNat p = bit c.rel.toNat p
      else (g.take m n c vs).val n p = g.val n p ∧
        bit ((g.take m n c vs).cell n).rel.toNat p = bit (g.cell n).rel.toNat p := by
  have hp32 : p < 32 := by
    unfold Grp.positions at hp
    rw [hs] at hp
    exact (mem_lanesOf.mp hp).1
  have hv := unpair_val (n := n) (fun h => by simp [hs] at h) hp n
  have hcell : (g.take m n c vs).cell n =
      { kind := .e false ((upto 0 32).map fun l => if bit m.toNat l then nth vs l 0 else nth ((g.unpair n).lanesVals n) l 0)
        rel := ((g.cell n).rel &&& ~~~m) ||| (c.rel &&& m) } := by
    unfold Grp.take Grp.writeLanes
    simp only
    rw [(unpair_same g n).span, show (g.unpair n).live = g.live by unfold Grp.live; rw [(unpair_same g n).units], hs, h,
      if_neg (by decide)]
    rw [cell_setCell_same (by rw [setCell_length, unpair_length]; exact hn),
      cell_setCell_same (by rw [unpair_length]; exact hn), unpair_rel]
  have hval : (g.take m n c vs).val n p = if bit m.toNat p then nth vs p 0 else g.val n p := by
    rw [val_eq_value, hcell]
    refine (nth_map_upto0 hp32).trans ?_
    rw [show nth ((g.unpair n).lanesVals n) p 0 = (g.unpair n).val n p from nth_map_upto0 hp32, hv]
  have hrel : bit (((g.cell n).rel &&& ~~~m) ||| (c.rel &&& m)).toNat p =
      if bit m.toNat p then bit c.rel.toNat p else bit (g.cell n).rel.toNat p := by
    have hbit : ∀ w : W32, bit w.toNat p = w.getLsbD p := fun w => bit_eq_testBit _ _
    simp only [hbit, BitVec.getLsbD_or, BitVec.getLsbD_and, BitVec.getLsbD_not, hp32, decide_true, Bool.true_and]
    cases m.getLsbD p <;> simp
  rw [hval, hcell, hrel]
  split <;> exact ⟨rfl, rfl⟩

/-- Each position of a sheaf after it takes a cell and values that agree with it. -/
theorem take_at (hn : n < g.regs.length) (hs : g.span = false) (hc : c.kind.single)
    (hvs : ∀ p, bit m.toNat p = true → c.kind.value .f64hi p = nth vs p 0) {p : Nat} (hp : p ∈ g.positions) :
    if bit m.toNat p = true
      then (g.take m n c vs).val n p = nth vs p 0 ∧ bit ((g.take m n c vs).cell n).rel.toNat p = bit c.rel.toNat p
      else (g.take m n c vs).val n p = g.val n p ∧
        bit ((g.take m n c vs).cell n).rel.toNat p = bit (g.cell n).rel.toNat p := by
  cases h : m == g.live with
  | false => exact take_lanes hn hs h hp
  | true =>
    have hm : bit m.toNat p = true := by
      unfold Grp.positions at hp
      rw [hs] at hp
      rw [eq_of_beq h]
      exact (mem_lanesOf.mp hp).2
    have hcell : (g.take m n c vs).cell n = c := take_whole hn (by rw [hs, h]; rfl)
    rw [if_pos hm, val_eq_value, hcell]
    exact ⟨(value_of_single hc _ _ p).trans (hvs p hm), rfl⟩

end

/-! ### O28: the exchange -/

/-- What is exchanged. -/
theorem exchange_swaps (h g : Grp) (m : W32) (n d : Nat) (hn : n < h.regs.length) (hd : d < g.regs.length)
    (hh : h.Paired) (hg : g.Paired) :
    let x := exchange h m n g d
    x.1 = { h with regs := x.1.regs } ∧ x.2 = { g with regs := x.2.regs } ∧
    (∀ r, r ≠ n → (x.1.cell r).rel = (h.cell r).rel ∧
      ∀ p ∈ h.positions, (h.span = true → (h.alone n).isSome) → x.1.val r p = h.val r p) ∧
    (∀ r, r ≠ d → (x.2.cell r).rel = (g.cell r).rel ∧
      ∀ p ∈ g.positions, (g.span = true → (g.alone d).isSome) → x.2.val r p = g.val r p) ∧
    (h.span = true → g.span = true → h.lo = g.lo → h.hi = g.hi → (h.alone n).isSome → (g.alone d).isSome →
      (x.1.cell n).rel = (g.cell d).rel ∧ (x.2.cell d).rel = (h.cell n).rel ∧
      ∀ p ∈ h.positions, x.1.val n p = g.val d p ∧ x.2.val d p = h.val n p) ∧
    (h.span = false → g.span = false → (∀ p, bit m.toNat p = true → p ∈ h.positions ∧ p ∈ g.positions) →
      ∀ p, (p ∈ h.positions → if bit m.toNat p = true
          then x.1.val n p = g.val d p ∧ bit (x.1.cell n).rel.toNat p = bit (g.cell d).rel.toNat p
          else x.1.val n p = h.val n p ∧ bit (x.1.cell n).rel.toNat p = bit (h.cell n).rel.toNat p) ∧
        (p ∈ g.positions → if bit m.toNat p = true
          then x.2.val d p = h.val n p ∧ bit (x.2.cell d).rel.toNat p = bit (h.cell n).rel.toNat p
          else x.2.val d p = g.val d p ∧ bit (x.2.cell d).rel.toNat p = bit (g.cell d).rel.toNat p)) := by
  intro x
  have hgs : (g.single d).kind.single := unpair_single hg d
  have hhs : (h.single n).kind.single := unpair_single hh n
  have hgv : ∀ {p}, g.Apart d → p ∈ g.positions → ∀ k, (g.single d).kind.value k p = g.val d p := fun ha hp k =>
    (value_of_single hgs _ _ _).trans ((val_eq_value ..).symm.trans (unpair_val ha hp d))
  have hhv : ∀ {p}, h.Apart n → p ∈ h.positions → ∀ k, (h.single n).kind.value k p = h.val n p := fun ha hp k =>
    (value_of_single hhs _ _ _).trans ((val_eq_value ..).symm.trans (unpair_val ha hp n))
  have hgr : (g.single d).rel = (g.cell d).rel := unpair_rel ..
  have hhr : (h.single n).rel = (h.cell n).rel := unpair_rel ..
  refine ⟨take_regs, take_regs, fun r hr => ?_, fun r hr => ?_, fun hs gs hlo hhi ha ga => ?_, fun hs gs hm p => ?_⟩
  · exact ⟨take_rel_ne hr, fun p hp ha => take_val_ne hh (apart_of_alone ha) hgs hr hp⟩
  · exact ⟨take_rel_ne hr, fun p hp ha => take_val_ne hg (apart_of_alone ha) hhs hr hp⟩
  · have hcell : x.1.cell n = g.single d := take_whole hn (by rw [hs]; rfl)
    have gcell : x.2.cell d = h.single n := take_whole hd (by rw [gs]; rfl)
    rw [hcell, gcell]
    refine ⟨hgr, hhr, fun p hp => ?_⟩
    have gp : p ∈ g.positions := by
      unfold Grp.positions at hp ⊢
      rw [hs, hlo, hhi] at hp
      rw [gs]
      exact hp
    rw [val_eq_value x.1, val_eq_value x.2, hcell, gcell]
    exact ⟨hgv (apart_of_alone fun _ => ga) gp _, hhv (apart_of_alone fun _ => ha) hp _⟩
  · have happ : h.Apart n := fun h' => by simp [hs] at h'
    have gapp : g.Apart d := fun h' => by simp [gs] at h'
    have hlane : ∀ q, bit m.toNat q = true → nth (g.lanesVals d) q 0 = g.val d q ∧ nth (h.lanesVals n) q 0 = h.val n q := by
      intro q hq
      have hq32 : q < 32 := by
        have hin := (hm q hq).1
        unfold Grp.positions at hin
        rw [hs] at hin
        exact (mem_lanesOf.mp hin).1
      exact ⟨nth_map_upto0 hq32, nth_map_upto0 hq32⟩
    refine ⟨fun hp => ?_, fun gp => ?_⟩
    · have ht := take_at (m := m) (vs := g.lanesVals d) hn hs hgs
        (fun q hq => (hgv gapp (hm q hq).2 _).trans (hlane q hq).1.symm) hp
      split at ht
      next hb =>
        rw [if_pos hb, ← hgr, ← (hlane p hb).1]
        exact ht
      next hb =>
        rw [if_neg hb]
        exact ht
    · have ht := take_at (m := m) (vs := h.lanesVals n) hd gs hhs
        (fun q hq => (hhv happ (hm q hq).1 _).trans (hlane q hq).2.symm) gp
      split at ht
      next hb =>
        rw [if_pos hb, ← hhr, ← (hlane p hb).2]
        exact ht
      next hb =>
        rw [if_neg hb]
        exact ht

/-! ### O28: the word (R191) -/

section
variable (d : RegN) (n : BitVec 4)

/-- The shape of an XCHT. -/
def xchtShape (e : Env) : Shape := { dsts := [n.toNat], pre := trapOnly e }

/-- The group that a handler's acting threads serve. -/
def Serves (s : State) (x : Env) (tid : Nat) (b : Block) (g : Grp) (u : ISet) : Prop :=
  s.block? x.bid = some b ∧ ((b.served tid).find? fun y =>
    decide (y.1.lo ≤ x.grp.lo + x.first) && decide (x.grp.lo + x.first < y.1.hi)) = some (g, u)

/-- The block's part of an exchange. -/
def exchangeKept (s : State) (x : Env) (b : Block) (g : Grp) (u : ISet) (g' : Grp) : State :=
  (s.putGrps (.kern b.bid g.gid u.low) [g']).indexWritten b.bid (x.members.map x.idx) [d.toNat]

/-- A handler's exchange with the group it serves. -/
def xchtServed (s : State) (x : Env) (b : Block) (g : Grp) (u : ISet) : Eff :=
  if (x.launch.map Launch.g).getD 0 ≤ d.toNat then .trap 2 (BitVec.ofNat 64 x.unit.word) x.count
  else if x.grp.span then
    if x.grp.covers g && (x.grp.alone n.toNat).isSome && (g.alone d.toNat).isSome then
      .done (exchangeKept d s x b g u (exchange x.grp 1 n.toNat g d.toNat).2)
        { x with grp := (exchange x.grp 1 n.toNat g d.toNat).1 }
    else .moved ((if g.span then s.expandServed b g u else s).expandGrp x)
  else if g.span then .moved (s.expandServed b g u)
  else .done (exchangeKept d s x b g u (exchange x.grp x.unit.lanes n.toNat g d.toNat).2)
    { x with grp := (exchange x.grp x.unit.lanes n.toNat g d.toNat).1 }

/-- What an XCHT does with its environment. -/
def xchtEff (s : State) (x : Env) : Eff :=
  match x.who with
  | .hand tid _ _ =>
    match s.block? x.bid with
    | none => .wait
    | some b =>
      match (b.served tid).find? fun y =>
          decide (y.1.lo ≤ x.grp.lo + x.first) && decide (x.grp.lo + x.first < y.1.hi) with
      | none => .wait
      | some (g, u) => xchtServed d n s x b g u
  | .ccHand c =>
    match s.cc? c with
    | none => .wait
    | some k =>
      .done (s.onCc c fun k' => { k' with grp := (exchange x.grp 1 n.toNat k.grp d.toNat).2 })
        { x with grp := (exchange x.grp 1 n.toNat k.grp d.toNat).1 }
  | _ => .wait

theorem xcht_run (s : State) : exec (.xcht d n) s = s.runWord (xchtShape n) (xchtEff d n) := rfl

theorem xchtEff_serves {s : State} {x : Env} {tid gid l : Nat} {b : Block} {g : Grp} {u : ISet}
    (hw : x.who = .hand tid gid l) (hs : Serves s x tid b g u) : xchtEff d n s x = xchtServed d n s x b g u := by
  unfold xchtEff
  rw [hw]
  dsimp only
  rw [hs.1]
  dsimp only
  rw [hs.2]

theorem covers_iff (h g : Grp) : h.covers g = true ↔ g.span = true ∧ h.lo = g.lo ∧ h.hi = g.hi := by
  simp [Grp.covers, and_assoc]

end

/-- Settles O28: the word in each of its cases, then what an exchange changes. -/
theorem exchanges : Obligations.Exchanges := by
  unfold Obligations.Exchanges
  refine ⟨fun d n => ?_, exchange_swaps⟩
  intro sh serves G swapped covers kept
  have hbig : ∀ {x : Env}, d.toNat < G x → ¬(x.launch.map Launch.g).getD 0 ≤ d.toNat := fun h => Nat.not_le.mpr h
  refine ⟨fun tid gid l b g u => ?_, fun tid gid l b g u => ?_, fun tid gid l b g u => ?_, fun tid gid l b g u => ?_,
    fun tid gid l b g u => ?_, fun c k => ?_⟩
  · refine completes_of_runWord (xcht_run d n) fun s x h => ?_
    obtain ⟨hw, hs, hG, hspan, gspan⟩ := h
    refine (xchtEff_serves d n hw hs).trans ((if_neg (hbig hG)).trans ?_)
    rw [hspan, gspan]
    rfl
  · refine completes_of_runWord (xcht_run d n) fun s x h => ?_
    obtain ⟨hw, hs, hG, hspan, hcov, hn, hd⟩ := h
    refine (xchtEff_serves d n hw hs).trans ((if_neg (hbig hG)).trans ((if_pos hspan).trans (if_pos ?_)))
    rw [(covers_iff ..).mpr hcov, hn, hd]
    rfl
  · refine moves_of_runWord (xcht_run d n) fun s x h => ?_
    obtain ⟨hw, hs, hG, hspan, hno⟩ := h
    refine (xchtEff_serves d n hw hs).trans ((if_neg (hbig hG)).trans ((if_pos hspan).trans (if_neg ?_)))
    rw [Bool.and_eq_true, Bool.and_eq_true, covers_iff, and_assoc]
    exact hno
  · refine moves_of_runWord (xcht_run d n) fun s x h => ?_
    obtain ⟨hw, hs, hG, hspan, gspan⟩ := h
    refine (xchtEff_serves d n hw hs).trans ((if_neg (hbig hG)).trans ?_)
    rw [hspan, gspan]
    rfl
  · refine traps_of_runWord (xcht_run d n) fun s x h => ⟨x.count, ?_⟩
    obtain ⟨hw, hs, hG⟩ := h
    exact (xchtEff_serves d n hw hs).trans (if_pos hG)
  · refine completes_of_runWord (xcht_run d n) fun s x h => ?_
    obtain ⟨hw, hk⟩ := h
    unfold xchtEff
    rw [hw]
    dsimp only
    rw [hk]

end Sys2Proof.Machine
end

