-- ==== Sys2Proof/Proofs/AtomicsPerform.lean ====
section
/-! PROOF. O34: the atomic at its home, the landing of its old value, and the numbers of its rows (R122, R222, R223). -/

namespace Sys2Proof.Machine

/-! ### O34: what an atomic leaves of two numbers (R222, R223) -/

theorem round_bf16_lt (v : FV) : Fmt.bf16.roundRn v < 2 ^ 16 := by
  have hsigned : ∀ s c, c ≤ Fmt.bf16.infCode → Fmt.bf16.signed s c < 2 ^ 16 := by
    intro s c hc
    have hinf : Fmt.bf16.infCode = 0x7F80 := by decide
    have hw : Fmt.bf16.width = 16 := rfl
    unfold Fmt.signed
    rw [hw]
    split <;> omega
  have hmax : Fmt.bf16.maxCode ≤ Fmt.bf16.infCode := by decide
  unfold Fmt.roundRn Fmt.round
  rw [show Fmt.bf16.isMf = false from rfl]
  cases v with
  | nan => decide
  | inf s => exact hsigned s _ le_rfl
  | fin s m e =>
    dsimp only
    rw [if_neg (by decide)]
    split
    · exact hsigned s _ le_rfl
    next h => exact hsigned s _ (Nat.le_trans (Nat.not_lt.mp h) hmax)

theorem addF_nan {x y : Nat} (h : (Fmt.f32.value x).isNan = true ∨ (Fmt.f32.value y).isNan = true) :
    addF .f32 x y = 0x7FC00000 := by
  have hadd : FV.add .rn (Fmt.f32.value x) (Fmt.f32.value y) = .nan := by
    cases hx : Fmt.f32.value x with
    | nan => rfl
    | inf s =>
      have hy : Fmt.f32.value y = .nan := by
        rw [hx] at h
        cases hy : Fmt.f32.value y <;> simp_all [FV.isNan]
      rw [hy]
      rfl
    | fin s m e =>
      have hy : Fmt.f32.value y = .nan := by
        rw [hx] at h
        cases hy : Fmt.f32.value y <;> simp_all [FV.isNan]
      rw [hy]
      rfl
  unfold addF
  rw [hadd]
  decide

/-- The lesser and the greater of two signed words. -/
theorem signed_pick {m b : Nat} (hm : m < 2 ^ 32) (hb : b < 2 ^ 32) :
    ((if sext 32 m ≤ sext 32 b then m else b) < 2 ^ 32 ∧
      sext 32 (if sext 32 m ≤ sext 32 b then m else b) = min (sext 32 m) (sext 32 b)) ∧
    ((if sext 32 b ≤ sext 32 m then m else b) < 2 ^ 32 ∧
      sext 32 (if sext 32 b ≤ sext 32 m then m else b) = max (sext 32 m) (sext 32 b)) := by
  refine ⟨?_, ?_⟩
  · split
    · exact ⟨hm, by omega⟩
    · exact ⟨hb, by omega⟩
  · split
    · exact ⟨hm, by omega⟩
    · exact ⟨hb, by omega⟩

theorem laNew_words (m b c : Nat) (hm : m < 2 ^ 32) (hb : b < 2 ^ 32) :
    let signed (f : Int → Int → Int) (x : Nat) : Prop := x < 2 ^ 32 ∧ sext 32 x = f (sext 32 m) (sext 32 b)
    laNew 0 m b c = (m + b) % 2 ^ 32 ∧ signed min (laNew 1 m b c) ∧ signed max (laNew 2 m b c) ∧
    laNew 3 m b c = min m b ∧ laNew 4 m b c = max m b ∧ laNew 5 m b c = m &&& b ∧ laNew 6 m b c = m ||| b ∧
    laNew 7 m b c = m ^^^ b ∧ laNew 8 m b c = b ∧ laNew 9 m b c = (if m = c then b else m) ∧
    laNew 16 m b c = (m + b) % 2 ^ 32 ∧ signed min (laNew 17 m b c) ∧ signed max (laNew 18 m b c) ∧
    laNew 19 m b c = m &&& b ∧ laNew 20 m b c = m ||| b ∧ laNew 21 m b c = m ^^^ b ∧
    (let sum (f : Fmt) (x y : Nat) : Nat := f.roundRn (FV.add .rn (f.value x) (f.value y))
     (∀ op, op = 10 ∨ op = 22 → laNew op m b c = sum .f32 m b ∧
       ((Fmt.f32.value m).isNan = true ∨ (Fmt.f32.value b).isNan = true → laNew op m b c = 0x7FC00000)) ∧
     laNew 23 m b c % 2 ^ 16 = sum .bf16 (m % 2 ^ 16) (b % 2 ^ 16) ∧
     laNew 23 m b c / 2 ^ 16 = sum .bf16 (m / 2 ^ 16) (b / 2 ^ 16)) ∧
    ∀ p q : Nat, p < 2 ^ 64 → q < 2 ^ 64 → laNew 11 p q c = (p + q) % 2 ^ 64 ∧ laNew 12 p q c = q ∧
      laNew 13 p q c = (if p = c then q else p) := by
  intro signed
  obtain ⟨hmin, hmax⟩ := signed_pick hm hb
  have hsum : ∀ n, wrap n ((m : Int) + b) = (m + b) % 2 ^ n := fun n => wrap_add n m b
  refine ⟨wrap_add 32 m b, hmin, hmax, rfl, rfl, rfl, rfl, rfl, rfl, rfl, wrap_add 32 m b, hmin, hmax, rfl, rfl, rfl,
    ⟨fun op hop => ?_, ?_⟩, fun p q _ _ => ⟨wrap_add 64 p q, rfl, rfl⟩⟩
  · rcases hop with rfl | rfl <;> exact ⟨rfl, addF_nan⟩
  · have h23 : laNew 23 m b c =
        addF .bf16 (m % 2 ^ 16) (b % 2 ^ 16) + 2 ^ 16 * addF .bf16 (m / 2 ^ 16) (b / 2 ^ 16) := rfl
    have hlo : addF .bf16 (m % 2 ^ 16) (b % 2 ^ 16) < 2 ^ 16 := round_bf16_lt _
    rw [h23]
    refine ⟨?_, ?_⟩
    · show _ = addF .bf16 (m % 2 ^ 16) (b % 2 ^ 16)
      rw [Nat.add_mul_mod_self_left, Nat.mod_eq_of_lt hlo]
    · show _ = addF .bf16 (m / 2 ^ 16) (b / 2 ^ 16)
      rw [Nat.add_mul_div_left _ _ (by decide), Nat.div_eq_of_lt hlo, Nat.zero_add]

/-! ### O34: registers that a result leaves alone -/

/-- Pair forms stand in even registers. -/
def Grp.EvenPairs (g : Grp) : Prop := ∀ k b s, (g.cell k).kind = .f64 b s → k % 2 = 0

/-- A register starts no pair form. -/
def Grp.Unpaired (g : Grp) (n : Nat) : Prop :=
  (∃ b s, (g.cell n).kind = .f64 b s) → (g.cell (n + 1)).kind ≠ .f64hi

theorem unpaired_of_kind {g : Grp} {n : Nat} (h : ∀ b s, (g.cell n).kind ≠ .f64 b s) : g.Unpaired n :=
  fun ⟨b, s, hk⟩ => absurd hk (h b s)

/-- Replacing a register that starts no pair form by another such leaves what every other register reads as. -/
theorem val_setCell_ne {g : Grp} {n r : Nat} {c : RegCell} (hc : ∀ b s, c.kind ≠ .f64 b s) (hg : g.Unpaired n)
    (hr : r ≠ n) (p : Nat) : (g.setCell n c).val r p = g.val r p := by
  rw [val_eq_value, val_eq_value, cell_setCell_ne (Ne.symm hr)]
  by_cases hn : n = r - 1
  · have hr' : n + 1 = r := by omega
    subst hn
    rw [cell_setCell]
    split
    · by_cases hf : ∃ b s, (g.cell (r - 1)).kind = .f64 b s
      · have hk := hg hf
        rw [hr'] at hk
        cases hkr : (g.cell r).kind with
        | f64hi => exact absurd hkr hk
        | f32 => rfl
        | f64 => rfl
        | e => rfl
      · exact value_behind _ hc (fun b s hk => hf ⟨b, s, hk⟩) p
    · rfl
  · rw [cell_setCell_ne hn]

/-- Taking a pair apart makes no pair form. -/
theorem unpair_kinds {g : Grp} (n k : Nat) : ((g.unpair n).cell k).kind = (g.cell k).kind ∨ ((g.unpair n).cell k).kind.single := by
  have hset : ∀ (h : Grp) (r : Nat) (c : RegCell), c.kind.single →
      ((h.setCell r c).cell k).kind = (h.cell k).kind ∨ ((h.setCell r c).cell k).kind.single := by
    intro h r c hc
    rw [cell_setCell]
    split
    · exact .inr hc
    · exact .inl rfl
  have hset2 : ∀ (h : Grp) (r q : Nat) (c e : RegCell), c.kind.single → e.kind.single →
      (((h.setCell r c).setCell q e).cell k).kind = (h.cell k).kind ∨
        (((h.setCell r c).setCell q e).cell k).kind.single := by
    intro h r q c e hc he
    rcases hset (h.setCell r c) q e he with h1 | h1
    · rw [h1]
      exact hset h r c hc
    · exact .inr h1
  unfold Grp.unpair
  simp only
  split
  next b s _ _ =>
    refine hset2 g _ _ _ _ ?_ trivial
    cases g.form32 (n - n % 2 + 1) <;> trivial
  next =>
    split
    · exact hset2 g _ _ _ _ trivial trivial
    · exact hset g _ _ trivial
  next => exact hset g _ _ trivial
  next => exact .inl rfl

theorem evenPairs_unpair {g : Grp} (hg : g.EvenPairs) (n : Nat) : (g.unpair n).EvenPairs := by
  intro k b s hk
  rcases unpair_kinds (g := g) n k with h | h
  · exact hg k b s (h ▸ hk)
  · rw [hk] at h
    cases h

theorem evenPairs_setCell {g : Grp} (hg : g.EvenPairs) (n : Nat) {c : RegCell} (hc : ∀ b s, c.kind ≠ .f64 b s) :
    (g.setCell n c).EvenPairs := by
  intro k b s hk
  rw [cell_setCell] at hk
  split at hk
  · exact absurd hk (hc b s)
  · exact hg k b s hk

/-- A register of a pair taken apart starts no pair form. -/
theorem unpair_unpaired {g : Grp} (hg : g.EvenPairs) (n : Nat) : (g.unpair n).Unpaired n := by
  rintro ⟨b, s, hk⟩ hhi
  have hgk : (g.cell n).kind = .f64 b s := by
    rcases unpair_kinds (g := g) n n with h | h
    · exact h ▸ hk
    · rw [hk] at h
      cases h
  have hgh : (g.cell (n + 1)).kind = .f64hi := by
    rcases unpair_kinds (g := g) n (n + 1) with h | h
    · exact h ▸ hhi
    · rw [hhi] at h
      cases h
  have hn : n - n % 2 = n := by have := hg n b s hgk; omega
  have hlt : n + 1 < g.regs.length := lt_of_kind_ne (by rw [hgh]; exact RegKind.noConfusion)
  unfold Grp.unpair at hk
  simp only [hn, hgk, hgh] at hk
  rw [cell_setCell_same (by rw [setCell_length]; omega)] at hk
  cases hk

theorem relsOf_regs (old : Grp) (rs : List Nat) : ∀ g : Grp, g.relsOf old rs = { g with regs := (g.relsOf old rs).regs } := by
  induction rs with
  | nil => exact fun _ => rfl
  | cons r rs ih =>
    intro g
    exact ih (g.setCell r { g.cell r with rel := (old.cell r).rel })

/-- Release marks change no value. -/
theorem relsOf_kind (old : Grp) (rs : List Nat) (k : Nat) : ∀ g : Grp, ((g.relsOf old rs).cell k).kind = (g.cell k).kind := by
  induction rs with
  | nil => exact fun _ => rfl
  | cons r rs ih =>
    intro g
    refine (ih (g.setCell r { g.cell r with rel := (old.cell r).rel })).trans ?_
    rw [cell_setCell]
    split
    next h => rw [h.1]
    next => rfl

theorem relsOf_val (g old : Grp) (rs : List Nat) (r p : Nat) : (g.relsOf old rs).val r p = g.val r p := by
  rw [val_eq_value, val_eq_value, relsOf_kind, relsOf_kind]

/-! ### O34: a group in which an old value lands (R60, R122) -/

/-- A group's registers alone change. -/
def RegsOnly (g h : Grp) : Prop := h = { g with regs := h.regs }

theorem regsOnly_write (g : Grp) (u : ISet) (d : Nat) (r : Res) : RegsOnly g (g.write u d r) := by
  have hu := unpair_regs g d
  unfold RegsOnly Grp.write Grp.writeLanes
  cases r with
  | form b s =>
    dsimp only
    split
    · rw [hu]
      rfl
    · rw [hu]
      rfl
  | lanes vs =>
    dsimp only
    rw [hu]
    rfl
  | form64 b s =>
    dsimp only
    split
    · rfl
    · rw [hu]
      rfl
  | lanes64 vs =>
    dsimp only
    rw [hu]
    rfl

/-- The values of a group of one thread after it receives a value. -/
theorem land_solo {g : Grp} {idx d : Nat} {wide : Bool} {v : W64} (hs : g.span = true) (hone : g.hi = g.lo + 1)
    (hd : d + 2 ≤ g.regs.length) (hg : g.EvenPairs) (hw : wide = true → d % 2 = 0) :
    (if wide then (g.land idx d wide v true).val64 d 0 = v else (g.land idx d wide v true).val d 0 = lo64 v) ∧
      ∀ q, q ∉ regsOf wide d → (g.land idx d wide v true).val q 0 = g.val q 0 := by
  unfold Grp.land
  rw [if_pos rfl]
  cases wide with
  | true =>
    have heven := hw rfl
    have hwrite : g.write (ISet.start 0) d (.form64 v 0) =
        (g.setCell d { kind := .f64 v 0, rel := 0 }).setCell (d + 1) { kind := .f64hi, rel := 0 } := by
      unfold Grp.write
      rw [hs]
      rfl
    have hlo : ((g.setCell d { kind := .f64 v 0, rel := 0 }).setCell (d + 1) { kind := .f64hi, rel := 0 }).cell d =
        { kind := .f64 v 0, rel := 0 } := by
      rw [cell_setCell_ne (by omega), cell_setCell_same (by omega)]
    have hhi : ((g.setCell d { kind := .f64 v 0, rel := 0 }).setCell (d + 1) { kind := .f64hi, rel := 0 }).cell (d + 1) =
        { kind := .f64hi, rel := 0 } := cell_setCell_same (by rw [setCell_length]; omega)
    rw [if_pos rfl, if_pos rfl, hwrite]
    refine ⟨?_, fun q hq => ?_⟩
    · unfold Grp.val64
      rw [val_eq_value, val_eq_value, hlo, hhi, Nat.add_sub_cancel, hlo]
      show pair64 (lo64 (formVal64 v 0 0)) (hi64 (formVal64 v 0 0)) = v
      rw [formVal64_zero, pair64_halves]
    · have hq : q ≠ d ∧ q ≠ d + 1 := by simpa [regsOf] using hq
      rw [val_eq_value, val_eq_value, cell_setCell_ne (Ne.symm hq.2), cell_setCell_ne (Ne.symm hq.1)]
      have hprev : d ≠ q - 1 := by omega
      by_cases hp : q - 1 = d + 1
      · rw [hp, hhi]
        refine value_behind _ (fun _ _ => RegKind.noConfusion) (fun b s hk => ?_) 0
        have := hg _ b s hk
        omega
      · rw [cell_setCell_ne (Ne.symm hp), cell_setCell_ne hprev]
  | false =>
    have hwrite : g.write (ISet.start 0) d (.form (lo64 v) 0) =
        (g.unpair d).setCell d { kind := .f32 (lo64 v) 0, rel := 0 } := by
      unfold Grp.write
      rw [hs]
      rfl
    rw [if_neg (by decide), if_neg (by decide), hwrite]
    have hpos : 0 ∈ g.positions := by
      unfold Grp.positions
      rw [hs, hone]
      exact mem_upto.mpr (by omega)
    have hapart : g.Apart d := by
      intro _ b s hlo hhi
      have hrun : g.run = some (0, 1) := by
        unfold Grp.run
        rw [hs, hone, if_pos rfl, Nat.add_sub_cancel_left]
      unfold Grp.form32
      rw [hhi, Nat.add_sub_cancel, hlo]
      dsimp only
      rw [hrun]
      dsimp only
      split <;> rfl
    refine ⟨?_, fun q hq => ?_⟩
    · rw [val_eq_value, cell_setCell_same (by rw [unpair_length]; omega)]
      exact formVal_zero _ _
    · have hq : q ≠ d := by simpa [regsOf] using hq
      rw [val_setCell_ne (fun _ _ => RegKind.noConfusion) (unpair_unpaired hg d) hq, unpair_val hapart hpos]

theorem nth_replicate {α : Type} {n i : Nat} (x d : α) (h : i < n) : nth (List.replicate n x) i d = x := by
  simp [nth, h]

theorem bit_single {k : Nat} (hk : k < 32) (l : Nat) : bit (BitVec.ofNat 32 (2 ^ k)).toNat l = decide (k = l) := by
  rw [bit_eq_testBit, BitVec.toNat_ofNat, Nat.mod_eq_of_lt (Nat.pow_lt_pow_right (by decide) hk), Nat.testBit_two_pow]

section
variable {g : Grp} {r : Nat} {w : Bool} {m : W32} {vs : List W32}

theorem writeLanes_val_same (hr : r < g.regs.length) {l : Nat} (hl : l < 32) :
    (g.writeLanes r w m vs).val r l = if bit m.toNat l then nth vs l 0 else g.val r l := by
  unfold Grp.writeLanes
  rw [val_eq_value, cell_setCell_same hr]
  refine (nth_map_upto0 hl).trans ?_
  rw [show nth (g.lanesVals r) l 0 = g.val r l from nth_map_upto0 hl]

theorem writeLanes_val_ne (hg : g.Unpaired r) {q : Nat} (hq : q ≠ r) (p : Nat) :
    (g.writeLanes r w m vs).val q p = g.val q p :=
  val_setCell_ne (fun _ _ => RegKind.noConfusion) hg hq p

theorem writeLanes_evenPairs (hg : g.EvenPairs) : (g.writeLanes r w m vs).EvenPairs :=
  evenPairs_setCell hg r fun _ _ => RegKind.noConfusion

theorem writeLanes_length : (g.writeLanes r w m vs).regs.length = g.regs.length := setCell_length

end

/-- The values of a sheaf whose lanes of a mask receive a value. -/
theorem write_lanes_val {g : Grp} {u : ISet} {d l : Nat} {wide : Bool} {v : W64} (hd : d + 2 ≤ g.regs.length)
    (hg : g.EvenPairs) (hw : wide = true → d % 2 = 0) (hs : g.span = false) (hl : l ∈ g.positions) :
    let h := g.write u d (if wide then .lanes64 (List.replicate 32 v) else .lanes (List.replicate 32 (lo64 v)))
    (bit u.lanes.toNat l = true → if wide then h.val64 d l = v else h.val d l = lo64 v) ∧
      ∀ q, q ∉ regsOf wide d ∨ ¬bit u.lanes.toNat l = true → h.val q l = g.val q l := by
  intro h
  have hl32 : l < 32 := by
    unfold Grp.positions at hl
    rw [hs] at hl
    exact (mem_lanesOf.mp hl).1
  have hu : ∀ q, (g.unpair d).val q l = g.val q l := unpair_val (fun h => by simp [hs] at h) hl
  have hfree := unpair_unpaired hg d
  have hlen : (g.unpair d).regs.length = g.regs.length := unpair_length g d
  cases wide with
  | false =>
    have hh : h = (g.unpair d).writeLanes d false u.lanes (List.replicate 32 (lo64 v)) := rfl
    rw [hh]
    refine ⟨fun hb => ?_, fun q hq => ?_⟩
    · rw [if_neg Bool.false_ne_true, writeLanes_val_same (by omega) hl32, if_pos hb, nth_replicate _ _ hl32]
    · by_cases hqd : q = d
      · subst hqd
        have hb : ¬bit u.lanes.toNat l = true := hq.resolve_left (by simp [regsOf])
        rw [writeLanes_val_same (by omega) hl32, if_neg hb, hu]
      · rw [writeLanes_val_ne hfree hqd, hu]
  | true =>
    have heven := hw rfl
    have hh : h = ((g.unpair d).writeLanes d true u.lanes ((List.replicate 32 v).map lo64)).writeLanes (d + 1) true u.lanes
        ((List.replicate 32 v).map hi64) := rfl
    have hodd : ((g.unpair d).writeLanes d true u.lanes ((List.replicate 32 v).map lo64)).Unpaired (d + 1) :=
      unpaired_of_kind fun b s hk => by
        have := writeLanes_evenPairs (evenPairs_unpair hg d) _ b s hk
        omega
    have hlo : h.val d l = if bit u.lanes.toNat l then lo64 v else g.val d l := by
      rw [hh, writeLanes_val_ne hodd (by omega), writeLanes_val_same (by omega) hl32, hu, List.map_replicate,
        nth_replicate _ _ hl32]
    have hhi : h.val (d + 1) l = if bit u.lanes.toNat l then hi64 v else g.val (d + 1) l := by
      rw [hh, writeLanes_val_same (by rw [writeLanes_length]; omega) hl32, writeLanes_val_ne hfree (by omega), hu,
        List.map_replicate, nth_replicate _ _ hl32]
    refine ⟨fun hb => ?_, fun q hq => ?_⟩
    · rw [if_pos rfl]
      unfold Grp.val64
      rw [hlo, hhi, if_pos hb, if_pos hb, pair64_halves]
    · by_cases hqd : q = d
      · subst hqd
        rw [hlo, if_neg (hq.resolve_left (by simp [regsOf]))]
      · by_cases hqe : q = d + 1
        · subst hqe
          rw [hhi, if_neg (hq.resolve_left (by simp [regsOf]))]
        · rw [hh, writeLanes_val_ne hodd hqe, writeLanes_val_ne hfree hqd, hu]

/-- A sheaf's lane that receives a value, and the lanes that keep theirs. -/
theorem land_lane {g : Grp} {idx d l : Nat} {wide : Bool} {v : W64} (hd : d + 2 ≤ g.regs.length) (hg : g.EvenPairs)
    (hw : wide = true → d % 2 = 0) :
    let mine : Prop := g.span = false ∧ l < 32 ∧ idx = g.lo + l ∧ bit g.live.toNat l = true
    (mine → if wide then (g.land idx d wide v false).val64 d l = v else (g.land idx d wide v false).val d l = lo64 v) ∧
      ∀ q, l ∈ g.positions → q ∉ regsOf wide d ∨ ¬mine → (g.land idx d wide v false).val q l = g.val q l := by
  intro mine
  unfold Grp.land
  rw [if_neg Bool.false_ne_true]
  extract_lets m
  by_cases hout : (g.span || decide (idx < g.lo) || decide (g.lo + 32 ≤ idx) || g.live &&& m == 0) = true
  · rw [if_pos hout]
    refine ⟨fun ⟨hs, hl, hidx, hlive⟩ => ?_, fun _ _ _ => rfl⟩
    have hz : (g.live &&& m == 0) = true := by
      rw [hs, decide_eq_false (by omega), decide_eq_false (by omega)] at hout
      simpa using hout
    have hbit : (g.live &&& m).toNat.testBit l = true := by
      rw [BitVec.toNat_and, Nat.testBit_and, ← bit_eq_testBit, ← bit_eq_testBit, hlive, Bool.true_and]
      unfold m
      rw [bit_single (by omega) l]
      simp only [decide_eq_true_eq]
      omega
    rw [eq_of_beq hz] at hbit
    simp at hbit
  · rw [if_neg hout]
    simp only [Bool.or_eq_true, not_or, decide_eq_true_eq, Bool.not_eq_true] at hout
    obtain ⟨⟨⟨hs, hlow⟩, hhigh⟩, -⟩ := hout
    have hmine : l < 32 → (bit m.toNat l = true ↔ idx = g.lo + l) := fun hl => by
      unfold m
      rw [bit_single (by omega) l, decide_eq_true_eq]
      omega
    have hpos : l ∈ g.positions ↔ l < 32 ∧ bit g.live.toNat l = true := by
      unfold Grp.positions
      rw [hs]
      exact mem_lanesOf
    refine ⟨fun ⟨_, hl, hidx, hlive⟩ => ?_, fun q hl hq => ?_⟩
    · exact (write_lanes_val (u := { ISet.start 0 with lanes := m }) hd hg hw hs (hpos.mpr ⟨hl, hlive⟩)).1 ((hmine hl).mpr hidx)
    · obtain ⟨hl32, hlive⟩ := hpos.mp hl
      exact (write_lanes_val (u := { ISet.start 0 with lanes := m }) hd hg hw hs hl).2 q
        (hq.imp_right fun h hb => h ⟨hs, hl32, (hmine hl32).mp hb, hlive⟩)

/-- The lane in which an atomic's old value lands. -/
def AtomLane (p : PAtomic) (g : Grp) (l : Nat) : Prop :=
  if p.bid = 0 then l = 0 else g.span = false ∧ l < 32 ∧ p.idx = g.lo + l ∧ bit g.live.toNat l = true

/-- What becomes of a group in which an atomic's old value lands. -/
def AtomLands (p : PAtomic) (old : Nat) (g h : Grp) : Prop :=
  p.d + 2 ≤ g.regs.length → (∀ k b s, (g.cell k).kind = .f64 b s → k % 2 = 0) →
    (p.bid = 0 → g.span = true ∧ g.hi = g.lo + 1) →
    h = { g with regs := h.regs } ∧
      (∀ l, AtomLane p g l → (if (laWidth p.op == 8) then (h.val64 p.d l).toNat else (h.val p.d l).toNat) = old) ∧
      ∀ q l, l ∈ g.positions → q ∉ regsOf (laWidth p.op == 8) p.d ∨ ¬AtomLane p g l → h.val q l = g.val q l

/-- The group in which an atomic's old value has landed. -/
def atomLanded (p : PAtomic) (old : Nat) (g : Grp) : Grp :=
  (g.land p.idx p.d (laWidth p.op == 8) (BitVec.ofNat 64 old) (p.bid == 0)).relsOf g (regsOf (laWidth p.op == 8) p.d)

theorem atomLanded_lands {p : PAtomic} {old : Nat} (hold : old < 2 ^ (8 * laWidth p.op))
    (heven : (laWidth p.op == 8) = true → p.d % 2 = 0) (g : Grp) : AtomLands p old g (atomLanded p old g) := by
  intro hd hg hsolo
  have hval : ∀ q l, (atomLanded p old g).val q l =
      (g.land p.idx p.d (laWidth p.op == 8) (BitVec.ofNat 64 old) (p.bid == 0)).val q l := fun q l => relsOf_val ..
  have hlow : (laWidth p.op == 8) = false → (lo64 (BitVec.ofNat 64 old)).toNat = old := by
    intro hw
    have h4 : laWidth p.op = 4 := by
      unfold laWidth at hw ⊢
      split at hw
      · cases hw
      next h => exact if_neg h
    rw [h4] at hold
    unfold lo64
    rw [BitVec.toNat_ofNat, BitVec.toNat_ofNat]
    omega
  have hwide : (laWidth p.op == 8) = true → (BitVec.ofNat 64 old).toNat = old := by
    intro hw
    rw [eq_of_beq hw] at hold
    rw [BitVec.toNat_ofNat]
    omega
  have hnum : ∀ h : Grp, ∀ l, (∀ q, (atomLanded p old g).val q l = h.val q l) →
      (if (laWidth p.op == 8) then h.val64 p.d l = BitVec.ofNat 64 old else h.val p.d l = lo64 (BitVec.ofNat 64 old)) →
      (if (laWidth p.op == 8) then ((atomLanded p old g).val64 p.d l).toNat else ((atomLanded p old g).val p.d l).toNat) =
        old := by
    intro h l heq hh
    unfold Grp.val64 at hh ⊢
    rw [heq, heq]
    split at hh
    next hw => rw [if_pos hw, hh, hwide hw]
    next hw => rw [if_neg hw, hh, hlow (by simpa using hw)]
  refine ⟨?_, fun l hl => ?_, fun q l hl hq => ?_⟩
  · unfold atomLanded
    rw [relsOf_regs]
    have hland : RegsOnly g (g.land p.idx p.d (laWidth p.op == 8) (BitVec.ofNat 64 old) (p.bid == 0)) := by
      unfold Grp.land
      by_cases hb : (p.bid == 0) = true
      · rw [if_pos hb]
        exact regsOnly_write ..
      · rw [if_neg hb]
        extract_lets m
        by_cases hm : (g.span || decide (p.idx < g.lo) || decide (g.lo + 32 ≤ p.idx) || g.live &&& m == 0) = true
        · rw [if_pos hm]
          rfl
        · rw [if_neg hm]
          exact regsOnly_write ..
    rw [hland]
  · refine hnum _ l (fun q => hval q l) ?_
    unfold AtomLane at hl
    by_cases hb : p.bid = 0
    · rw [if_pos hb] at hl
      subst hl
      obtain ⟨hs, hone⟩ := hsolo hb
      rw [show (p.bid == 0) = true from beq_iff_eq.mpr hb]
      exact (land_solo hs hone hd hg heven).1
    · rw [if_neg hb] at hl
      rw [show (p.bid == 0) = false from beq_eq_false_iff_ne.mpr hb]
      exact (land_lane hd hg heven).1 hl
  · rw [hval]
    unfold AtomLane at hq
    by_cases hb : p.bid = 0
    · obtain ⟨hs, hone⟩ := hsolo hb
      have h0 : l = 0 := by
        unfold Grp.positions at hl
        rw [hs, hone, if_pos rfl, mem_upto] at hl
        omega
      rw [if_pos hb] at hq
      rw [show (p.bid == 0) = true from beq_iff_eq.mpr hb, h0]
      exact (land_solo hs hone hd hg heven).2 q (hq.resolve_right (by simp [h0]))
    · rw [if_neg hb] at hq
      rw [show (p.bid == 0) = false from beq_eq_false_iff_ne.mpr hb]
      exact (land_lane hd hg heven).2 q hl hq

/-! ### O34: the atomic (R122) -/

theorem setCore_atomLaunch (s : State) (c : Core) (p : PAtomic) : (s.setCore c).atomLaunch p = s.atomLaunch p := by
  unfold State.setCore
  split <;> rfl

theorem acquire_atomLaunch (s : State) (core : Nat) (scope : Scope) (p : PAtomic) :
    (s.acquire core scope).atomLaunch p = s.atomLaunch p := by
  cases scope with
  | block => rfl
  | die => exact setCore_atomLaunch ..
  | device => exact setCore_atomLaunch ..
  | system => exact setCore_atomLaunch ..

theorem atomAcq_unstaged (t : State) (p : PAtomic) (old : Nat)
    (h : (t.atomLaunch p).all (fun l => !l.staged) = true) :
    t.atomAcq p old = if p.order = .acquire ∨ p.order = .acqRel then t.acquire (t.atomCore p) p.scope else t := by
  have hacq : ∀ u : State, u.atomLaunch p = t.atomLaunch p →
      ((u.atomLaunch p).map Launch.staged).getD false = false := by
    intro u hu
    rw [hu]
    cases hl : t.atomLaunch p with
    | none => rfl
    | some l =>
      rw [hl] at h
      simpa using h
  have hkeep := acquire_atomLaunch t (t.atomCore p) p.scope p
  have hord : ordAcq p.order = true ↔ p.order = .acquire ∨ p.order = .acqRel := by cases p.order <;> decide
  unfold State.atomAcq
  by_cases ho : ordAcq p.order = true
  · rw [if_pos ho, if_pos (hord.mp ho), if_neg (by rw [hacq _ hkeep]; decide)]
  · rw [if_neg ho, if_neg (mt hord.mpr ho), if_neg (by rw [hacq _ rfl]; decide)]

/-- What an atomic does at its place, behind its release part and before its acquire part. -/
def State.atomAt (u : State) (p : PAtomic) (core old : Nat) (loc : Loc) : State :=
  let bytes := leBytes (laWidth p.op) (laNew p.op old p.b.toNat p.cmp.toNat)
  match loc with
  | .pa x => ((if p.fails old then u else u.arrive ⟨p.bid, p.idx, x, p.va, bytes, p.src, []⟩).dropLine (p.drops core) x
      (laWidth p.op)).countBy p.bid core p.idx p.src p.va x p.mig
  | loc => if p.fails old then u else u.localWrite p.bid loc bytes

theorem atomRel_unstaged {s : State} {p : PAtomic} (h : ((s.atomLaunch p).map Launch.staged).getD false = false) :
    s.atomRel p = if ordRel p.order then s.flush (s.atomCore p) p.scope else s := by
  unfold State.atomRel
  rw [h, if_neg Bool.false_ne_true]

theorem atomPlain_near {s : State} {p : PAtomic} (hfar : p.far = none)
    (h : ((s.atomLaunch p).map Launch.staged).getD false = false) :
    s.atomPlain p =
      let u := if ordRel p.order then s.flush (s.atomCore p) p.scope else s
      let old := leNat (u.homeLoc p.bid p.loc (laWidth p.op))
      ((u.atomAt p (s.atomCore p) old p.loc).atomAcq p old).atomLand p old := by
  unfold State.atomPlain State.atomDo
  rw [hfar, atomRel_unstaged h]
  rfl

theorem perform_plain {s : State} {p : PAtomic} (found : s.atoms.find? (·.aid == p.aid) = some p)
    (ready : s.atomReady p = true) (sound : s.homeBad p.bid p.loc (laWidth p.op) = false)
    (acked : (ordRel p.order && p.scope == .system && !s.sysReady p.bid p.idx) = false)
    (plain : ∀ b l, s.block? p.bid = some b → s.atomLaunch p = some l → l.staged = false) :
    exec (.atomicPerform p.aid) s = .next (s.atomPlain p) := by
  show execAtomicPerform p.aid s = _
  unfold execAtomicPerform
  rw [found]
  dsimp only
  rw [ready, if_neg (by simp), acked, if_neg Bool.false_ne_true, sound, Bool.and_false, if_neg Bool.false_ne_true]
  congr 1
  split
  next b l hb hl =>
    have hst : l.stages p.va.toNat = false := by
      have := plain b l hb hl
      unfold Launch.staged at this
      unfold Launch.stages Launch.redundant
      simp_all
    rw [hst, if_neg Bool.false_ne_true]
  next => rfl

theorem fails_iff (p : PAtomic) (old : Nat) : p.fails old = true ↔ (p.op = 9 ∨ p.op = 13) ∧ old ≠ p.cmp.toNat := by
  simp [PAtomic.fails]

theorem look_put_same {β : Type} (l : List (Nat × β)) (k : Nat) (v d : β) : look (put l k v) k d = v := by
  induction l with
  | nil => simp [look, put]
  | cons x l ih =>
    obtain ⟨k', v'⟩ := x
    unfold put
    split
    · simp [look]
    next h =>
      unfold look at ih ⊢
      rwa [List.find?_cons_of_neg (by exact h)]

theorem localWrite_priv {s : State} {bid j o : Nat} {bytes : List Byte} {b k : Block} (hb : s.block? bid = some b)
    (hk : (s.localWrite bid (.priv j o) bytes).block? bid = some k) : k.privOf j = (b.privOf j).writeN o bytes := by
  rw [show (s.localWrite bid (.priv j o) bytes).block? bid = _ from block?_onBlock _ _ fun _ => rfl, hb] at hk
  cases hk
  unfold Block.privOf
  exact look_put_same ..

/-- Where an old value lands (R60, R122): the register file of the thread's group, and nothing else. -/
theorem atomLand_frame (t : State) (p : PAtomic) (old : Nat) :
    (t.atomLand p old).atoms = t.atoms.filter (fun a => a.aid != p.aid) ∧ (t.atomLand p old).mem = t.mem ∧
      (t.atomLand p old).cores = t.cores ∧ (t.atomLand p old).dies = t.dies := by
  unfold State.atomLand
  extract_lets s wide f
  split
  · exact ⟨rfl, rfl, rfl, rfl⟩
  · split <;> exact ⟨rfl, rfl, rfl, rfl⟩

theorem atomLand_own {t : State} {p : PAtomic} {old : Nat} (hbid : p.bid ≠ 0) (hand : p.hand = false) :
    t.atomLand p old = State.onBlock { t with atoms := t.atoms.filter (·.aid != p.aid) } p.bid fun b =>
      { b with groups := b.groups.map (atomLanded p old) } := by
  unfold State.atomLand
  rw [if_neg hbid, hand, if_neg Bool.false_ne_true]
  rfl

theorem atomLand_core {t : State} {p : PAtomic} {old : Nat} (hbid : p.bid = 0) (hand : p.hand = false) :
    t.atomLand p old = State.onCc { t with atoms := t.atoms.filter (·.aid != p.aid) } p.idx fun k =>
      { k with grp := atomLanded p old k.grp } := by
  unfold State.atomLand
  rw [if_pos hbid, hand]
  rfl

theorem atomLand_block {t : State} {p : PAtomic} {old : Nat} (hbid : p.bid ≠ 0) (hand : p.hand = false) {b : Block}
    (hb : t.block? p.bid = some b) :
    (t.atomLand p old).block? p.bid = some { b with groups := b.groups.map (atomLanded p old) } := by
  rw [atomLand_own hbid hand]
  exact (block?_onBlock _ _ (by intro; rfl)).trans (congrArg (Option.map _) hb)

theorem atomLand_trap {t : State} {p : PAtomic} {old : Nat} (hbid : p.bid ≠ 0) (hand : p.hand = true) {i : Nat}
    {x : TrapCtx} (hx : t.traps[i]? = some x) (hin : x.bid = p.bid) :
    (t.atomLand p old).traps[i]? = some { x with groups := x.groups.map (atomLanded p old) } := by
  unfold State.atomLand
  rw [if_neg hbid, hand, if_pos rfl]
  show (List.map _ t.traps)[i]? = _
  rw [List.getElem?_map, hx, Option.map_some, if_pos (beq_iff_eq.mpr hin)]
  rfl

theorem atomLand_cc {t : State} {p : PAtomic} {old : Nat} (hbid : p.bid = 0) (hand : p.hand = false) {k : CCore}
    (hk : t.cc? p.idx = some k) :
    (t.atomLand p old).cc? p.idx = some { k with grp := atomLanded p old k.grp } := by
  rw [atomLand_core hbid hand]
  exact (cc?_onCc _ _ (by intro; rfl)).trans (congrArg (Option.map _) hk)

theorem lands_map {p : PAtomic} {old : Nat} (hold : old < 2 ^ (8 * laWidth p.op))
    (heven : (laWidth p.op == 8) = true → p.d % 2 = 0) {gs : List Grp} {i : Nat} {g h : Grp} (hg : gs[i]? = some g)
    (hh : (gs.map (atomLanded p old))[i]? = some h) : AtomLands p old g h := by
  rw [List.getElem?_map, hg] at hh
  cases hh
  exact atomLanded_lands hold heven g

/-- Settles O34: the atomic's effect at its home, its acquire part, the landing of its old value, and the numbers of its
rows, each by its own lemma. -/
theorem atomicsPerform : Obligations.AtomicsPerform := by
  unfold Obligations.AtomicsPerform
  refine ⟨?_, atomAcq_unstaged, ?_, laNew_words⟩
  · intro s p found
    extract_lets n rel u old bytes fails
    refine ⟨fun unready => ?_, fun ready near sound acked plain => ?_⟩
    · show execAtomicPerform p.aid s = _
      unfold execAtomicPerform
      rw [found]
      dsimp only
      rw [unready]
      rfl
    · have hrel : ordRel p.order = true ↔ rel := by
        show _ ↔ p.order = .release ∨ p.order = .acqRel
        cases p.order <;> decide
      have hu : u = if ordRel p.order then s.flush (s.atomCore p) p.scope else s := by
        by_cases h : rel
        · exact (if_pos h).trans (if_pos (hrel.mpr h)).symm
        · exact (if_neg h).trans (if_neg (mt hrel.mp h)).symm
      have hfar : p.far = none := by
        unfold PAtomic.far
        split
        next x hx => rw [near x hx, if_neg Bool.false_ne_true]
        next => rfl
      have launched : ∀ b l, s.block? p.bid = some b → s.atomLaunch p = some l → l.staged = false := by
        intro b l hb hl
        unfold State.atomLaunch at hl
        rw [hb] at hl
        exact plain b l hb hl
      have unstaged : ((s.atomLaunch p).map Launch.staged).getD false = false := by
        cases hl : s.atomLaunch p with
        | none => rfl
        | some l =>
          cases hb : s.block? p.bid with
          | none =>
            unfold State.atomLaunch at hl
            rw [hb] at hl
            cases hl
          | some b => exact launched b l hb hl
      have hack : (ordRel p.order && p.scope == .system && !s.sysReady p.bid p.idx) = false := by
        by_cases h : p.scope = .system ∧ rel
        · simp [acked h.1 h.2]
        · rcases not_and_or.mp h with h | h
          · rw [beq_eq_false_iff_ne.mpr h]
            simp
          · rw [Bool.eq_false_iff.mpr (mt hrel.mp h)]
            rfl
      refine ⟨u.atomAt p (s.atomCore p) old p.loc, ?_, fun x hx => ?_, fun o ho => ?_, 
        fun j o ho => ⟨fun hf => ?_, fun hf b k hb hk => ?_⟩⟩
      · rw [perform_plain found ready sound hack launched, atomPlain_near hfar unstaged, ← hu]
      · refine ⟨if p.fails old then u else u.arrive ⟨p.bid, p.idx, x, p.va, bytes, p.src, []⟩, ?_, fun hf => ?_,
          fun hf => ?_, fun hm => ?_⟩
        · rw [hx]
          rfl
        · exact if_pos ((fails_iff p old).mpr hf)
        · have hv : (if p.fails old then u else u.arrive ⟨p.bid, p.idx, x, p.va, bytes, p.src, []⟩) = _ :=
            if_neg (mt (fails_iff p old).mp hf)
          refine ⟨hv, fun dram => ?_⟩
          rw [hv]
          exact arrive_mem dram
        · rw [hx]
          unfold State.atomAt
          dsimp -zeta only
          rw [hm, countBy_unmoved]
          rfl
      · rw [ho]
        exact if_congr (fails_iff p old) rfl rfl
      · rw [ho]
        exact if_pos ((fails_iff p old).mpr hf)
      · rw [ho, show u.atomAt p (s.atomCore p) old (.priv j o) = u.localWrite p.bid (.priv j o) bytes from
          if_neg (mt (fails_iff p old).mp hf)] at hk
        exact localWrite_priv hb hk
  · intro t p old wide hold heven r lands
    obtain ⟨hatoms, hmem, hcores, hdies⟩ := atomLand_frame t p old
    refine ⟨hatoms, hmem, hcores, hdies, fun hb hh b hk => ?_, fun hb hh i x hx hin => ?_, fun hb hh k hk => ?_⟩
    · exact ⟨_, atomLand_block hb hh hk, List.length_map .., fun i g h hg hh => lands_map hold heven hg hh⟩
    · exact ⟨_, atomLand_trap hb hh hx hin, List.length_map .., fun i g h hg hh => lands_map hold heven hg hh⟩
    · exact ⟨_, atomLand_cc hb hh hk, atomLanded_lands hold heven k.grp⟩

end Sys2Proof.Machine
end

