-- ==== Sys2Proof/Proofs/PageScanner.lean ====
section
/-! PROOF. The page scanner's walk and verdict, replays and traps that waited (R158, R159, R331, R340). -/

namespace Sys2Proof.Machine

/-! ### O47: traps that waited and replays (R303, R331, R340) -/

theorem landing_iff (s : State) (e : Env) :
    s.landing e = true ↔ ∃ a ∈ s.atoms, a.bid = e.bid ∧ ∃ p ∈ e.members, e.idx p = a.idx := by
  simp [State.landing]

/-- A trap context is free for a kernel's group, and no trap waits before it; a control core always has one. -/
theorem trapFree_iff (s : State) (e : Env) (r : TrapReq) :
    s.trapFree e r = true ↔ ((∃ b g l, e.who = .kern b g l) → (¬∃ c ∈ s.traps, c.core = e.core ∧ c.part = e.part) ∧
      ∀ y ∈ s.trapQueue e.core e.part, r.pos < y.1.pos ∨ (r.pos = y.1.pos ∧ e.grp.lo + e.first ≤ y.2.1)) := by
  unfold State.trapFree
  cases hw : e.who <;> simp

theorem trapEntry_word (s : State) :
    ∀ (q : Who) (e : Env) (r : TrapReq), s.env? q = some e → e.unit.stat = .trapHeld r →
      exec (.trapEntry q) s = .next (if !s.trapFree e r || s.landing e then s else
        (s.onUnit q fun u => { u with stat := .ready }).enterTrap
          { e with unit := { e.unit with stat := .ready }
                   grp := (e.grp.landed e.unit).setUnit { e.unit with stat := .ready } } r) := by
  intro q e r he hr
  show execTrapEntry q s = _
  unfold execTrapEntry
  rw [he]
  dsimp only
  rw [hr]

/-- The unit of a waiting fault of kind 1, 2 or 3 retries. -/
def ISet.retried (u : ISet) : ISet :=
  match u.stat with
  | .dataFault k => if 1 ≤ k ∧ k ≤ 3 then { u with stat := .ready } else u
  | _ => u

/-- An engine request on a fault of kind 1, 2 or 3 retries. -/
def EReq.retried (r : EReq) : EReq :=
  match r.fault with
  | some k => if 1 ≤ k ∧ k ≤ 3 then { r with fault := none } else r
  | none => r

theorem ISet.retried_eq (u : ISet) : u.retried =
    if u.stat = .dataFault 1 ∨ u.stat = .dataFault 2 ∨ u.stat = .dataFault 3 then { u with stat := .ready } else u := by
  unfold ISet.retried
  cases hu : u.stat with
  | dataFault k => exact if_congr (by simp only [Stat.dataFault.injEq]; omega) rfl rfl
  | _ => simp

theorem EReq.retried_eq (r : EReq) : r.retried =
    if r.fault = some 1 ∨ r.fault = some 2 ∨ r.fault = some 3 then { r with fault := none } else r := by
  unfold EReq.retried
  cases hr : r.fault with
  | some k => exact if_congr (by simp only [Option.some.injEq]; omega) rfl rfl
  | none => simp

/-- A block whose waiting faults retry. -/
def Block.retried (b : Block) : Block :=
  { b with
    groups := b.groups.map fun g => { g with units := g.units.map ISet.retried }
    eng := b.eng.map EReq.retried }

/-- A block of a launch of the context. -/
def State.ofContext (s : State) (part : Nat) (ctx : BitVec 16) (b : Block) : Bool :=
  match s.launch? b.lid with
  | some l => l.ctx.ctxid == ctx && l.ctx.part == part
  | none => false

theorem replay_blocks (s : State) (part : Nat) (ctx : BitVec 16) :
    (s.replay part ctx).blocks = mapIf (s.ofContext part ctx) Block.retried s.blocks := rfl

theorem replay_block {s : State} {part : Nat} {ctx : BitVec 16} {k : Nat} {b b' : Block} (hb : s.blocks[k]? = some b)
    (hb' : (s.replay part ctx).blocks[k]? = some b') : b' = if s.ofContext part ctx b then b.retried else b := by
  rw [replay_blocks] at hb'
  unfold mapIf at hb'
  rw [List.getElem?_map, hb] at hb'
  exact (Option.some.inj hb').symm

theorem replay_context {s : State} {part : Nat} {ctx : BitVec 16} {k : Nat} {b b' : Block} (hb : s.blocks[k]? = some b)
    (hb' : (s.replay part ctx).blocks[k]? = some b') :
    ((∀ l, s.launch? b.lid = some l → ¬(l.ctx.ctxid = ctx ∧ l.ctx.part = part)) → b' = b) ∧
    ∀ l, s.launch? b.lid = some l → l.ctx.ctxid = ctx → l.ctx.part = part → b' = b.retried := by
  have heq := replay_block hb hb'
  refine ⟨fun no => ?_, fun l hl hc hp => ?_⟩
  · have out : s.ofContext part ctx b = false := by
      unfold State.ofContext
      split
      next l hl => simpa using no l hl
      next => rfl
    rwa [out] at heq
  · have own : s.ofContext part ctx b = true := by
      unfold State.ofContext
      rw [hl]
      simp [hc, hp]
    rwa [own] at heq

theorem retried_groups {b : Block} {i : Nat} {g : Grp} (hg : b.groups[i]? = some g) :
    ∃ g' : Grp, b.retried.groups[i]? = some g' ∧ g' = { g with units := g'.units } ∧
      ∀ (j : Nat) (u : ISet), g.units[j]? = some u →
        g'.units[j]? = some (if u.stat = .dataFault 1 ∨ u.stat = .dataFault 2 ∨ u.stat = .dataFault 3 then
          { u with stat := .ready } else u) := by
  refine ⟨{ g with units := g.units.map ISet.retried }, ?_, rfl, fun j u hu => ?_⟩
  · show (b.groups.map _)[i]? = _
    rw [List.getElem?_map, hg]
    rfl
  · rw [List.getElem?_map, hu, ← u.retried_eq]
    rfl

theorem retried_eng {b : Block} {i : Nat} {r : EReq} (hr : b.eng[i]? = some r) :
    b.retried.eng[i]? =
      some (if r.fault = some 1 ∨ r.fault = some 2 ∨ r.fault = some 3 then { r with fault := none } else r) := by
  show (b.eng.map _)[i]? = _
  rw [List.getElem?_map, hr, ← r.retried_eq]
  rfl

/-! ### O47: the page scanner (R158, R159, R319) -/

theorem executable_iff (s : State) (part frame : Nat) : s.executable part frame = true ↔
    ∃ x ∈ s.tlb, x.part = part ∧ bit x.entry.toNat 4 = true ∧ x.covers frame = true := by
  simp [State.executable, and_assoc]

theorem pageScan_able (s : State) (die frame : Nat) :
    (s.bring.up 5 && !isFabric (4096 * frame) && s.usable die (4096 * frame) && s.executable (s.partOf die) frame) = true ↔
      s.bring.up 5 = true ∧ isFabric (4096 * frame) = false ∧ s.usable die (4096 * frame) = true ∧
      ∃ x ∈ s.tlb, x.part = s.partOf die ∧ bit x.entry.toNat 4 = true ∧ x.covers frame = true := by
  rw [← executable_iff]
  simp [and_assoc]

theorem scanOf_held {s : State} {die frame : Nat} (h : ∃ r ∈ (s.die die).scan, r.frame = frame) :
    (s.scanOf die frame).1 = s := by
  unfold State.scanOf
  split
  next => rfl
  next none =>
    obtain ⟨r, hr, hf⟩ := h
    exact absurd hf (by simpa using List.find?_eq_none.mp none r hr)

theorem scanOf_new {s : State} {die frame : Nat} (h : ∀ r ∈ (s.die die).scan, r.frame ≠ frame) :
    (s.scanOf die frame).1 = s.onDie die fun d => { d with scan := d.scan ++ [scanFrame frame
      ((upto 0 1024).map fun i => s.homeNat (4096 * frame + 4 * i) 4)] } := by
  unfold State.scanOf
  rw [List.find?_eq_none.mpr fun r hr => by simpa using h r hr]
  rfl

theorem foldl_min_fst (l : List (Nat × Nat)) (m : Nat) :
    l.foldl (fun m y => min m y.1) m = (l.map Prod.fst).foldl Nat.min m := by
  rw [List.foldl_map]

theorem foldl_min_le (l : List Nat) (m : Nat) :
    l.foldl Nat.min m ≤ m ∧ (∀ x ∈ l, l.foldl Nat.min m ≤ x) ∧ (l.foldl Nat.min m = m ∨ l.foldl Nat.min m ∈ l) := by
  induction l generalizing m with
  | nil => simp
  | cons a l ih =>
    obtain ⟨hle, hall, hmem⟩ := ih (Nat.min m a)
    have hm : Nat.min m a = m ∨ Nat.min m a = a := by
      rcases Nat.le_total m a with h | h
      · exact .inl (Nat.min_eq_left h)
      · exact .inr (Nat.min_eq_right h)
    rw [List.foldl_cons]
    refine ⟨hle.trans (Nat.min_le_left m a), fun x hx => ?_, ?_⟩
    · rcases List.mem_cons.mp hx with rfl | hx
      · exact hle.trans (Nat.min_le_right m x)
      · exact hall x hx
    · rcases hmem with h | h
      · rw [h]
        exact hm.imp_right fun h => by rw [h]; exact List.mem_cons_self
      · exact .inr (List.mem_cons_of_mem a h)

/-- The least of a list that is not empty is one of it and none is below it. -/
theorem least_spec {l : List Nat} (d : Nat) (h : l ≠ []) : least d l ∈ l ∧ ∀ x ∈ l, least d l ≤ x := by
  cases l with
  | nil => exact absurd rfl h
  | cons a l =>
    obtain ⟨hle, hall, hmem⟩ := foldl_min_le l a
    refine ⟨?_, fun x hx => ?_⟩
    · exact List.mem_cons.mpr hmem
    · rcases List.mem_cons.mp hx with rfl | hx
      · exact hle
      · exact hall x hx

theorem lowestFailure_eq {bad : List (Nat × Nat)} (h : bad ≠ []) :
    lowestFailure bad = some (least 0 (bad.map Prod.fst),
      least 0 ((bad.filter (·.1 == least 0 (bad.map Prod.fst))).map Prod.snd)) := by
  cases bad with
  | nil => exact absurd rfl h
  | cons x r =>
    unfold lowestFailure
    simp only [foldl_min_fst]
    rfl

theorem lowestFailure_none (bad : List (Nat × Nat)) : lowestFailure bad = none ↔ bad = [] := by
  cases bad with
  | nil => exact iff_of_true rfl rfl
  | cons x r => simp [lowestFailure]

/-- The failure noted is one, and none comes before it in the order of words, then codes. -/
theorem lowestFailure_spec {bad : List (Nat × Nat)} {p c : Nat} (h : lowestFailure bad = some (p, c)) :
    (p, c) ∈ bad ∧ ∀ p' c', (p', c') ∈ bad → p < p' ∨ (p = p' ∧ c ≤ c') := by
  have hne : bad ≠ [] := fun hnil => by rw [(lowestFailure_none bad).mpr hnil] at h; cases h
  rw [lowestFailure_eq hne] at h
  obtain ⟨hp, hc⟩ := Prod.mk.inj (Option.some.inj h)
  obtain ⟨hpin, hple⟩ := least_spec 0 (show bad.map Prod.fst ≠ [] by simpa using hne)
  rw [hp] at hpin hple hc
  obtain ⟨⟨q, d⟩, hq, rfl⟩ := List.mem_map.mp hpin
  have hfil : ((bad.filter (·.1 == q)).map Prod.snd) ≠ [] := by
    simp only [ne_eq, List.map_eq_nil_iff, List.filter_eq_nil_iff, not_forall]
    exact ⟨(q, d), hq, by simp⟩
  obtain ⟨hcin, hcle⟩ := least_spec 0 hfil
  rw [hc] at hcin hcle
  refine ⟨?_, fun p' c' hin => ?_⟩
  · obtain ⟨⟨a, b⟩, hab, rfl⟩ := List.mem_map.mp hcin
    obtain ⟨hin, ha⟩ := List.mem_filter.mp hab
    rwa [← eq_of_beq ha]
  · have hle := hple p' (List.mem_map.mpr ⟨_, hin, rfl⟩)
    dsimp only at hle ⊢
    rcases Nat.lt_or_eq_of_le hle with hlt | heq
    · exact .inl hlt
    · exact .inr ⟨heq, hcle c' (List.mem_map.mpr ⟨_, List.mem_filter.mpr ⟨hin, beq_iff_eq.mpr heq.symm⟩, rfl⟩)⟩

/-- What fails in a frame whose walk has given `a`. -/
def ScanFails (a : ScanAcc) (ws : List Nat) (p c : Nat) : Prop :=
  (p, c) ∈ a.bad ∨ (c = 10 ∧ ∃ t : Nat, (p, (t : Int)) ∈ a.targets ∧ t < 1024 ∧ t ∉ a.starts) ∨
    (c = 11 ∧ p ∈ a.after ∧ ¬(p + 1 < 1024 ∧ bits (nth ws (p + 1) 0) 31 26 = 0x38))

/-- The failures of a frame whose walk has given `a`, as the scanner lists them. -/
def ScanAcc.failures (a : ScanAcc) (ws : List Nat) : List (Nat × Nat) :=
  a.bad ++ (a.targets.filterMap fun (p, t) =>
    if 0 ≤ t ∧ t < 1024 ∧ !(a.starts.any fun x => (x : Int) == t) then some (p, 10) else none) ++
    a.after.filterMap fun p => if p < 1023 && isSegh (nth ws (p + 1) 0) then none else some (p, 11)

theorem scanFrame_eq (frame : Nat) (ws : List Nat) :
    scanFrame frame ws = ⟨frame, (scanWords ⟨.seg, [], [], [], []⟩ 0 ws).starts,
      lowestFailure ((scanWords ⟨.seg, [], [], [], []⟩ 0 ws).failures ws)⟩ := rfl

theorem mem_failures (a : ScanAcc) (ws : List Nat) (p c : Nat) : (p, c) ∈ a.failures ws ↔ ScanFails a ws p c := by
  have hten : ((p, c) ∈ a.targets.filterMap fun (p, t) =>
      if 0 ≤ t ∧ t < 1024 ∧ !(a.starts.any fun x => (x : Int) == t) then some (p, 10) else none) ↔
      c = 10 ∧ ∃ t : Nat, (p, (t : Int)) ∈ a.targets ∧ t < 1024 ∧ t ∉ a.starts := by
    rw [List.mem_filterMap]
    constructor
    · rintro ⟨⟨q, t⟩, hin, hif⟩
      dsimp only at hif
      split at hif
      next hc =>
        obtain ⟨h0, hlt, hno⟩ := hc
        obtain ⟨rfl, rfl⟩ := Prod.mk.inj (Option.some.inj hif)
        lift t to Nat using h0
        refine ⟨rfl, t, hin, by omega, fun hin => ?_⟩
        exact (by simpa using hno : ∀ x ∈ a.starts, ¬x = t) t hin rfl
      next => cases hif
    · rintro ⟨rfl, t, hin, hlt, hno⟩
      refine ⟨(p, (t : Int)), hin, ?_⟩
      exact if_pos ⟨by omega, by omega, by simpa using fun (x : Nat) (hx : x ∈ a.starts) (he : x = t) => hno (he ▸ hx)⟩
  have heleven : ((p, c) ∈ a.after.filterMap fun p =>
      if p < 1023 && isSegh (nth ws (p + 1) 0) then none else some (p, 11)) ↔
      c = 11 ∧ p ∈ a.after ∧ ¬(p + 1 < 1024 ∧ bits (nth ws (p + 1) 0) 31 26 = 0x38) := by
    have hsegh : ∀ q, (decide (q < 1023) && isSegh (nth ws (q + 1) 0)) = true ↔
        q + 1 < 1024 ∧ bits (nth ws (q + 1) 0) 31 26 = 0x38 := by
      intro q
      rw [isSegh, Bool.and_eq_true, decide_eq_true_eq, beq_iff_eq]
      exact and_congr_left' (by omega)
    rw [List.mem_filterMap]
    constructor
    · rintro ⟨q, hin, hif⟩
      split at hif
      next => cases hif
      next hc =>
        obtain ⟨rfl, rfl⟩ := Prod.mk.inj (Option.some.inj hif)
        exact ⟨rfl, hin, mt (hsegh q).mpr hc⟩
    · rintro ⟨rfl, hin, hno⟩
      exact ⟨p, hin, if_neg (mt (hsegh p).mp hno)⟩
  unfold ScanAcc.failures ScanFails
  rw [List.mem_append, List.mem_append, hten, heleven, or_assoc]

theorem scanFrame_verdict (frame : Nat) (ws : List Nat) :
    let a := scanWords ⟨.seg, [], [], [], []⟩ 0 ws
    ((scanFrame frame ws).bad = none ↔ ∀ p c, ¬ScanFails a ws p c) ∧
    ∀ p c, (scanFrame frame ws).bad = some (p, c) →
      ScanFails a ws p c ∧ ∀ p' c', ScanFails a ws p' c' → p < p' ∨ (p = p' ∧ c ≤ c') := by
  intro a
  rw [scanFrame_eq]
  refine ⟨?_, fun p c h => ?_⟩
  · rw [lowestFailure_none, List.eq_nil_iff_forall_not_mem]
    simp only [← mem_failures]
    exact ⟨fun h p c => h (p, c), fun h x => h x.1 x.2⟩
  · obtain ⟨hin, hmin⟩ := lowestFailure_spec h
    exact ⟨(mem_failures a ws p c).mp hin, fun p' c' hf => hmin p' c' ((mem_failures a ws p' c').mpr hf)⟩

/-- The failures behind a word whose own encoding has been noted. -/
def ScanAcc.own (a : ScanAcc) (p w : Nat) : List (Nat × Nat) :=
  match decodeNat w with
  | .ok _ => a.bad
  | .error e => (p, e.code) :: a.bad

theorem ScanAcc.note_eq (a : ScanAcc) (p w : Nat) : a.note p w = { a with bad := a.own p w } := by
  unfold ScanAcc.note ScanAcc.own
  cases decodeNat w <;> rfl

theorem ScanAcc.note_fail (a : ScanAcc) (p w code : Nat) :
    (a.note p w).fail p code = { a with mode := .stopped, bad := (p, code) :: a.own p w } := by
  rw [note_eq]
  rfl

/-- The step of the walk by the mode it is in. -/
theorem ScanAcc.step_pad {a : ScanAcc} (h : a.mode = .pad) (p w : Nat) :
    a.step p w = if w = 0 then a else { a with mode := .stopped, bad := (p, 13) :: a.own p w } := by
  unfold ScanAcc.step
  rw [h, ← note_fail]

theorem ScanAcc.step_seg {a : ScanAcc} (h : a.mode = .seg) (p w : Nat) :
    (w = 0 → a.step p w = { a with mode := .pad }) ∧
    (w ≠ 0 → bits w 31 26 ≠ 0x38 → a.step p w = { a with mode := .stopped, bad := (p, 6) :: a.own p w }) ∧
    (bits w 31 26 = 0x38 → 1024 ≤ p + bits w 25 16 →
      a.step p w = { a with mode := .stopped, bad := (p, 7) :: a.bad }) ∧
    (bits w 31 26 = 0x38 → p + bits w 25 16 < 1024 → p ≠ 1023 →
      a.step p w = { a with mode := .body (p + bits w 25 16) false, starts := p :: a.starts }) := by
  have hstep : a.step p w = if w = 0 then { a with mode := .pad }
      else if !isSegh w then (a.note p w).fail p 6
      else if 1024 ≤ p + bits w 25 16 then a.fail p 7
      else if p = 1023 then { a with starts := p :: a.starts }.fail p 8
      else { a with mode := .body (p + bits w 25 16) false, starts := p :: a.starts } := by
    unfold ScanAcc.step
    rw [h]
  have hhead : bits w 31 26 = 0x38 → w ≠ 0 ∧ ¬(!isSegh w) = true := by
    intro hk
    refine ⟨fun h0 => ?_, by simp [isSegh, hk]⟩
    rw [h0] at hk
    exact absurd hk (by decide)
  rw [hstep]
  refine ⟨fun h0 => if_pos h0, fun h0 hk => ?_, fun hk hlast => ?_, fun hk hlast hp => ?_⟩
  · rw [if_neg h0, if_pos (by simpa [isSegh] using hk), note_fail]
  · rw [if_neg (hhead hk).1, if_neg (hhead hk).2, if_pos hlast]
    rfl
  · rw [if_neg (hhead hk).1, if_neg (hhead hk).2, if_neg (Nat.not_le.mpr hlast), if_neg hp]

theorem ScanAcc.step_runh {a : ScanAcc} {last : Nat} {run : Bool} (h : a.mode = .body last run) {p w : Nat}
    (hk : bits w 31 26 = 0x39) :
    (bits w 25 21 = 0 ∨ 24 < bits w 25 21 ∨ last ≤ p + bits w 25 21 →
      a.step p w = { a with mode := .stopped, bad := (p, 8) :: a.own p w }) ∧
    (1 ≤ bits w 25 21 → bits w 25 21 ≤ 24 → p + bits w 25 21 < last →
      a.step p w = { a with mode := .run (bits w 25 21) last, bad := a.own p w }) := by
  have hstep : a.step p w = if bits w 25 21 = 0 ∨ 24 < bits w 25 21 ∨ last ≤ p + bits w 25 21 then (a.note p w).fail p 8
      else { a.note p w with mode := .run (bits w 25 21) last } := by
    unfold ScanAcc.step
    rw [h]
    exact if_pos (by simpa [isRunh] using hk)
  rw [hstep]
  refine ⟨fun hc => ?_, fun h1 h24 hlast => ?_⟩
  · rw [if_pos hc, note_fail]
  · rw [if_neg (by omega), note_eq]

theorem ScanAcc.step_unrun {a : ScanAcc} {last : Nat} (h : a.mode = .body last false) {p w : Nat}
    (hk : bits w 31 26 ≠ 0x39) : a.step p w = { a with mode := .stopped, bad := (p, 8) :: a.own p w } := by
  unfold ScanAcc.step
  rw [h]
  exact (if_neg (by simpa [isRunh] using hk)).trans (note_fail ..)

/-- The static targets of a terminator. -/
def termGoals (p w : Nat) : List (Nat × Int) :=
  if bits w 27 24 = 0 ∨ bits w 27 24 = 3 ∨ bits w 27 24 = 9 then [(p, (p : Int) + sext 24 (bits w 23 0))]
  else if bits w 27 24 = 1 then [(p, (p : Int) + sext 20 (bits w 19 0))] else []

/-- The words of a terminator whose successor must be a SEGH. -/
def termAfter (p w : Nat) : List Nat :=
  if bits w 27 24 = 1 ∨ bits w 27 24 = 3 ∨ bits w 27 24 = 4 ∨ bits w 27 24 = 7 then [p] else []

theorem ScanAcc.step_term {a : ScanAcc} {last : Nat} (h : a.mode = .body last true) {p w : Nat}
    (hk : bits w 31 26 ≠ 0x39) :
    a.step p w = if bits w 31 28 ≠ 12 then { a with mode := .stopped, bad := (p, 9) :: a.own p w }
      else if bits w 27 24 = 8 then
        if last < p + (bits w 17 8 + 1) then { a with mode := .stopped, bad := (p, 12) :: a.own p w }
        else if p + (bits w 17 8 + 1) < last then { a with mode := .stopped, bad := (p, 9) :: a.own p w }
        else { a with mode := .table (bits w 17 8 + 1) p last, bad := a.own p w }
      else if p ≠ last then { a with mode := .stopped, bad := (p, 9) :: a.own p w }
      else { a with mode := .seg, bad := a.own p w, targets := termGoals p w ++ a.targets
                    after := termAfter p w ++ a.after } := by
  have hstep : a.step p w = a.term p w last := by
    unfold ScanAcc.step
    rw [h]
    exact (if_neg (by simpa [isRunh] using hk)).trans (if_pos rfl)
  have hft : (!isFT w) = true ↔ bits w 31 28 ≠ 12 := by simp [isFT]
  rw [hstep]
  unfold ScanAcc.term
  simp only [hft, note_eq]
  rfl

theorem ScanAcc.step_run {a : ScanAcc} {left last : Nat} (h : a.mode = .run left last) (p w : Nat) :
    a.step p w = if bits w 31 28 = 14 ∨ bits w 31 28 = 12 then { a with mode := .stopped, bad := (p, 8) :: a.own p w }
      else { a with mode := if left = 1 then .body last true else .run (left - 1) last, bad := a.own p w } := by
  have hclass : (isFH w || isFT w) = true ↔ bits w 31 28 = 14 ∨ bits w 31 28 = 12 := by simp [isFH, isFT]
  unfold ScanAcc.step
  rw [h]
  simp only [hclass, note_eq]
  rfl

end Sys2Proof.Machine
end

