-- ==== Sys2Proof/Proofs/Rings.lean ====
section
/-! PROOF. Records on their way into a ring, and held records and reports (R298, R331, R360). -/

namespace Sys2Proof.Machine

/-! ### O47: rings (R298) -/

theorem unacked_empty (s : State) (n : Nat) : s.unacked n n = false := by
  unfold State.unacked
  refine List.any_eq_false.mpr fun f _ => ?_
  simp only [Bool.and_eq_true, decide_eq_true_eq, not_and, Nat.not_lt]
  omega

theorem memWrite_frame (s : State) (a : Nat) (bs : List Byte) :
    (s.memWrite a bs).fabric = s.fabric ∧ (s.memWrite a bs).nextId = s.nextId ∧ (s.memWrite a bs).rings = s.rings := by
  unfold State.memWrite State.mailboxWake
  split <;> exact ⟨rfl, rfl, rfl⟩

theorem homeWrite_dram {a : Nat} (h : isDram a = true) (s : State) (bs : List Byte) : s.homeWrite a bs = s.memWrite a bs := by
  unfold State.homeWrite
  rcases dram_win h with w | w <;> rw [w]

/-- What a device's write to near or far memory leaves of the fabric and the rings. -/
theorem partWrite_frame {a : Nat} (h : isDram a = true) (s : State) (p : Nat) (bs : List Byte) :
    (s.partWrite p a bs).fabric = s.fabric ∧ (s.partWrite p a bs).nextId = s.nextId ∧ (s.partWrite p a bs).rings = s.rings := by
  unfold State.partWrite
  split
  · unfold State.devWrite
    dsimp only
    rw [homeWrite_dram h]
    exact memWrite_frame s a bs
  · exact ⟨rfl, rfl, rfl⟩

theorem find_ring_none {s : State} {part prod : Nat} (h : ∀ x ∈ s.rings, ¬(x.part = part ∧ x.prod = prod)) :
    s.rings.find? (fun x => x.part == part && x.prod == prod) = none :=
  List.find?_eq_none.mpr fun x hx => by simpa using h x hx

theorem filter_ring_free {s : State} {part prod : Nat} (h : ∀ x ∈ s.rings, ¬(x.part = part ∧ x.prod = prod)) :
    s.rings.filter (fun x => !(x.part == part && x.prod == prod)) = s.rings :=
  List.filter_eq_self.mpr fun x hx => by simpa [imp_iff_not_or] using h x hx

theorem prodPut_dram {s : State} {r : RingW} (hprod : isDram r.prod = true)
    (hfree : ∀ x ∈ s.rings, ¬(x.part = r.part ∧ x.prod = r.prod)) :
    s.prodPut r = .done (s.partWrite r.part r.prod r.next) := by
  obtain ⟨-, hid, hrings⟩ := partWrite_frame hprod s r.part r.next
  have hsame : ∀ t : State, t.rings = s.rings →
      ({ t with rings := s.rings.filter fun x => !(x.part == r.part && x.prod == r.prod) } : State) = t := by
    intro t ht
    rw [filter_ring_free hfree, ← ht]
  unfold State.prodPut
  rw [hsame _ hrings]
  dsimp only
  rw [hid]
  exact if_neg (by rw [unacked_empty]; exact Bool.false_ne_true)

theorem slotPut_full {s : State} {part prod slot size data : Nat} {full : Bool} {next : List Byte}
    (hfree : ∀ x ∈ s.rings, ¬(x.part = part ∧ x.prod = prod)) (h : full = true) :
    s.slotPut part prod full slot next size data = .stuck := by
  unfold State.slotPut
  rw [find_ring_none hfree, h]
  rfl

theorem slotPut_dram {s : State} {part prod slot size data : Nat} {full : Bool} {next : List Byte}
    (hfree : ∀ x ∈ s.rings, ¬(x.part = part ∧ x.prod = prod)) (h : full = false) (hslot : isDram slot = true)
    (hprod : isDram prod = true) :
    s.slotPut part prod full slot next size data =
      .done ((s.partWrite part slot (leBytes size data)).partWrite part prod next) := by
  obtain ⟨-, hid, hrings⟩ := partWrite_frame hslot s part (leBytes size data)
  unfold State.slotPut
  rw [find_ring_none hfree, h]
  dsimp only [recBytes]
  rw [if_neg Bool.false_ne_true, hid, unacked_empty, if_neg Bool.false_ne_true]
  exact prodPut_dram hprod (by rw [hrings]; exact hfree)

/-- A record whose slot lies beyond the fabric is sent there first. -/
theorem slotPut_fabric {s : State} {part prod slot size data : Nat} {full : Bool} {next : List Byte}
    (hfree : ∀ x ∈ s.rings, ¬(x.part = part ∧ x.prod = prod)) (h : full = false) (hslot : isFabric slot = true)
    (hok : ∀ a ∈ upto slot size, s.paOk part a = true) :
    ∃ t f, s.slotPut part prod full slot next size data = .moved t ∧ t.mem = s.mem ∧ t.fabric = s.fabric ++ [f] ∧
      f.write = true ∧ f.pa = slot ∧ f.bytes = leBytes size data := by
  let f : FabOp := ⟨s.nextId, 0, devIdx, slot, 0, true, leBytes size data, (leBytes size data).length, false, none, ⟨0, 0, false, none⟩⟩
  have hhome : s.homeWrite slot (leBytes size data) = { s with nextId := s.nextId + 1, fabric := s.fabric ++ [f] } := by
    unfold isFabric at hslot
    unfold State.homeWrite
    cases hw : winOf slot <;> rw [hw] at hslot
    case peer => rfl
    case host => rfl
    all_goals cases hslot
  have hwrite : s.partWrite part slot (leBytes size data) = s.devWrite slot (leBytes size data) :=
    if_pos (by rw [length_leBytes]; exact List.all_eq_true.mpr hok)
  have hsent : (s.devWrite slot (leBytes size data)).fabric = s.fabric ++ [f] := by
    unfold State.devWrite
    dsimp only
    rw [hhome]
  have hnext : (s.devWrite slot (leBytes size data)).nextId = s.nextId + 1 := by
    unfold State.devWrite
    dsimp only
    rw [hhome]
  have hmem : (s.devWrite slot (leBytes size data)).mem = s.mem := by
    unfold State.devWrite
    dsimp only
    rw [hhome]
  have hwaits : (s.devWrite slot (leBytes size data)).unacked s.nextId (s.nextId + 1) = true := by
    unfold State.unacked
    rw [hsent]
    refine List.any_eq_true.mpr ⟨f, List.mem_append_right _ (List.mem_singleton.mpr rfl), ?_⟩
    simp [f]
  refine ⟨{ s.devWrite slot (leBytes size data) with
    rings := (s.devWrite slot (leBytes size data)).rings ++ [⟨part, prod, data, next, false, s.nextId, s.nextId + 1⟩] },
    f, ?_, hmem, hsent, rfl, rfl, rfl⟩
  unfold State.slotPut
  rw [find_ring_none hfree, h]
  dsimp only [recBytes]
  rw [if_neg Bool.false_ne_true, hwrite, hnext, hwaits, if_pos rfl]

theorem unacked_iff (s : State) (lo hi : Nat) :
    s.unacked lo hi = true ↔ ∃ f ∈ s.fabric, f.write = true ∧ lo ≤ f.fid ∧ f.fid < hi := by
  simp [State.unacked, and_assoc]

theorem slotPut_begun {s : State} {part prod slot size data : Nat} {full : Bool} {next : List Byte} {r : RingW}
    (hr : s.rings.find? (fun x => x.part == part && x.prod == prod) = some r) :
    (r.data ≠ data ∨ (∃ f ∈ s.fabric, f.write = true ∧ r.lo ≤ f.fid ∧ f.fid < r.hi) →
      s.slotPut part prod full slot next size data = .stuck) ∧
    (r.data = data → (∀ f ∈ s.fabric, f.write = true → ¬(r.lo ≤ f.fid ∧ f.fid < r.hi)) → r.made = true →
      s.slotPut part prod full slot next size data =
        .done { s with rings := s.rings.filter fun x => !(x.part == part && x.prod == prod) }) := by
  unfold State.slotPut
  rw [hr]
  dsimp only
  have hbusy := or_congr (Iff.refl (r.data ≠ data)) (unacked_iff s r.lo r.hi)
  refine ⟨fun h => if_pos (hbusy.mpr h), fun hdata hacked hmade => ?_⟩
  rw [if_neg (mt hbusy.mp (by rintro (h | ⟨f, hf, hw, hin⟩); exacts [h hdata, hacked f hf hw hin])), hmade]
  rfl

theorem faultPut_ring (s : State) (c : Ctx) (data : Nat) :
    let p := s.partNat c.part (c.desc + 40) 4
    let k := s.partNat c.part (c.desc + 44) 4
    let slot := c.fqBase + 64 * (p % 2 ^ c.fqlog)
    (∀ x ∈ s.rings, ¬(x.part = c.part ∧ x.prod = c.desc + 40)) →
    (wrap 32 ((p : Int) - k) = 2 ^ c.fqlog → s.faultPut c data = .stuck) ∧
    (wrap 32 ((p : Int) - k) ≠ 2 ^ c.fqlog → isDram slot = true → isDram (c.desc + 40) = true →
      s.faultPut c data = .done ((s.partWrite c.part slot (leBytes 64 data)).partWrite c.part (c.desc + 40)
        (leBytes 4 (p + 1)))) ∧
    (wrap 32 ((p : Int) - k) ≠ 2 ^ c.fqlog → isFabric slot = true → (∀ a ∈ upto slot 64, s.paOk c.part a = true) →
      ∃ t f, s.faultPut c data = .moved t ∧ t.mem = s.mem ∧ t.fabric = s.fabric ++ [f] ∧ f.write = true ∧ f.pa = slot ∧
        f.bytes = leBytes 64 data) := by
  intro p k slot hfree
  exact ⟨fun h => slotPut_full hfree (beq_iff_eq.mpr h),
    fun h => slotPut_dram hfree (beq_eq_false_iff_ne.mpr h),
    fun h => slotPut_fabric hfree (beq_eq_false_iff_ne.mpr h)⟩

theorem reportPut_ring (s : State) (c : Ctx) (data : Nat) :
    let q := s.partNat c.part (c.mbox + 28) 4
    let m := s.partNat c.part (c.mbox + 24) 4
    let place := c.mbox + 256 + 64 * (q % 60)
    (∀ x ∈ s.rings, ¬(x.part = c.part ∧ x.prod = c.mbox + 28)) →
    (3840 ≤ m ∨ (q + 3840 - m) % 3840 = 60 → s.reportPut c data = .stuck) ∧
    (m < 3840 → (q + 3840 - m) % 3840 ≠ 60 → isDram place = true → isDram (c.mbox + 28) = true →
      s.reportPut c data = .done ((s.partWrite c.part place (leBytes 64 data)).partWrite c.part (c.mbox + 28)
        (leBytes 4 ((q + 1) % 3840)))) := by
  intro q m place hfree
  refine ⟨fun h => slotPut_full hfree ?_, fun hm hq => slotPut_dram hfree ?_⟩
  · simpa [q, m] using h
  · simpa [q, m] using ⟨hm, hq⟩

/-! ### O47: held records and reports (R298, R331, R360) -/

/-- What follows a held record that has been written. -/
theorem unpend_eq (t : State) (i : Nat) (p : PendRec) :
    t.unpend i p =
      (let held : State := { t with pend := dropAt t.pend i }
      let woken : State := match p.who with
        | some w => held.onUnit w (ISet.unheld p)
        | none => held
      match p.ends with
      | some (bid, how) => woken.endBlock bid how
      | none => woken) := rfl

theorem faultRecordWrite_first {s : State} {i : Nat} {p : PendRec} (hp : s.pend[i]? = some p) (hk : p.isReport = false)
    (h : ∀ y ∈ s.pend.take i, y.isReport = false → y.ctx.desc ≠ p.ctx.desc) :
    exec (.faultRecordWrite i) s = .next (s.putHeld i p (s.recPut p.ctx p.data.toNat)) := by
  show execFaultRecordWrite i s = _
  unfold execFaultRecordWrite
  rw [hp]
  dsimp only
  rw [hk, if_neg]
  simpa using h

theorem faultRecordWrite_behind {s : State} {i : Nat} {p : PendRec} (hp : s.pend[i]? = some p)
    (h : ∃ y ∈ s.pend.take i, y.isReport = false ∧ y.ctx.desc = p.ctx.desc) :
    exec (.faultRecordWrite i) s = .next s := by
  show execFaultRecordWrite i s = _
  unfold execFaultRecordWrite
  rw [hp]
  dsimp only
  rw [if_pos]
  simpa using Or.inr h

/-- A report that no earlier one of its ring stands before, and whose ring has room. -/
def State.posts (s : State) (x : Nat × PendRec) : Bool :=
  (x.2.isReport && !(s.pend.take x.1).any fun p => p.isReport && p.ctx.mbox == x.2.ctx.mbox) &&
    !(s.reportPut x.2.ctx x.2.data.toNat).waits

theorem report_run (s : State) : exec .report s = .next (match ((upto 0 s.pend.length).zip s.pend).find? s.posts with
    | some (i, p) => s.putHeld i p (s.reportPut p.ctx p.data.toNat)
    | none => s) := rfl

theorem report_none {s : State} (h : ∀ y ∈ s.pend, y.isReport = true → s.reportPut y.ctx y.data.toNat = .stuck) :
    exec .report s = .next s := by
  rw [report_run, List.find?_eq_none.mpr]
  intro x hx
  unfold State.posts
  by_cases hk : x.2.isReport = true
  · rw [h x.2 (List.of_mem_zip hx).2 hk]
    simp [Put.waits]
  · simp [hk]

theorem report_first {s : State} {i : Nat} {p : PendRec} (hp : s.pend[i]? = some p) (hk : p.isReport = true)
    (h : ∀ y ∈ s.pend.take i, y.isReport = true → y.ctx.mbox ≠ p.ctx.mbox ∧ s.reportPut y.ctx y.data.toNat = .stuck)
    (hput : s.reportPut p.ctx p.data.toNat ≠ .stuck) :
    exec .report s = .next (s.putHeld i p (s.reportPut p.ctx p.data.toNat)) := by
  have hfound : ((upto 0 s.pend.length).zip s.pend).find? s.posts = some (i, p) := by
    obtain ⟨hi, rfl⟩ := List.getElem?_eq_some_iff.mp hp
    have hzip : ((upto 0 s.pend.length).zip s.pend)[i]? = some (i, s.pend[i]) := zip_upto_getElem? _ _ _ hp
    obtain ⟨hiz, hzi⟩ := List.getElem?_eq_some_iff.mp hzip
    rw [List.find?_eq_some_iff_getElem]
    refine ⟨?_, i, hiz, hzi, fun j hj => ?_⟩
    · have hroom : (s.reportPut s.pend[i].ctx s.pend[i].data.toNat).waits = false := by
        cases hx : s.reportPut s.pend[i].ctx s.pend[i].data.toNat with
        | stuck => exact absurd hx hput
        | moved t => rfl
        | done t => rfl
      unfold State.posts
      rw [hk, hroom]
      simpa using fun y hy hr => (h y hy hr).1
    · have hjz : ((upto 0 s.pend.length).zip s.pend)[j]? = some (j, s.pend[j]) :=
        zip_upto_getElem? _ _ _ (List.getElem?_eq_getElem (by omega))
      rw [(List.getElem?_eq_some_iff.mp hjz).2]
      have hin : s.pend[j] ∈ s.pend.take i := by
        rw [List.mem_take_iff_getElem]
        exact ⟨j, by omega, rfl⟩
      unfold State.posts
      by_cases hr : s.pend[j].isReport = true
      · rw [(h _ hin hr).2]
        simp [Put.waits]
      · simp [hr]
  rw [report_run, hfound]

end Sys2Proof.Machine
end

