-- ==== Sys2Proof/Proofs/FaultRecords.lean ====
section
/-! PROOF. The fields of fault records and reports, and how they are made (R298, R331, R332, R342, R360, R361). -/

namespace Sys2Proof.Machine

/-! ### O47: the fields of a fault record and of a report (R332, R361) -/

theorem recImage_fields (r : Rec) (l : Launch) (hseq : l.lseq < 2 ^ 64) (hnum : r.num < 2 ^ 64) (hseg : r.seg < 2 ^ 64)
    (hword : r.word < 2 ^ 64) (haddr : r.addr < 2 ^ 64) (hidx : r.who.idx < 2 ^ 40) (hmask : r.who.lmask < 2 ^ 32)
    (hcount : r.who.count < 2 ^ 11) (hlevel : r.level < 8) (hkind : r.kind < 16) (hacc : r.acc < 16) (hdie : r.die < 4) :
    let x := r.image l
    bits x 511 448 = l.sitePc.toNat ∧ bits x 447 384 = l.lseq ∧ bits x 383 320 = r.num ∧ bits x 319 256 = r.seg ∧
    bits x 255 192 = r.word ∧ bits x 191 128 = r.addr ∧ bits x 127 88 = r.who.idx ∧ bits x 87 56 = r.who.lmask ∧
    bits x 55 45 = r.who.count ∧ bits x 44 42 = r.level ∧ bits x 41 38 = r.kind ∧ bits x 37 34 = r.acc ∧ bits x 33 32 = r.die ∧
    bits x 31 16 = l.fdom.toNat ∧ bits x 15 0 = l.ctx.ctxid.toNat := by
  intro x
  have hsite := l.sitePc.isLt
  have hfdom := l.fdom.isLt
  have hctx := l.ctx.ctxid.isLt
  simp only [x, Rec.image, bits]
  refine ⟨?_, ?_, ?_, ?_, ?_, ?_, ?_, ?_, ?_, ?_, ?_, ?_, ?_, ?_, ?_⟩ <;> omega

theorem reportImage_fields (l : Launch) (num pc addr kind flags data : Nat) (n : Named) (hseq : l.lseq < 2 ^ 64)
    (hnum : num < 2 ^ 64) (hpc : pc < 2 ^ 64) (haddr : addr < 2 ^ 64) (hidx : n.idx < 2 ^ 40) (hmask : n.lmask < 2 ^ 32)
    (hcount : n.count < 2 ^ 11) (hkind : kind < 32) (hflags : flags < 256) (hdata : data < 2 ^ 96) :
    let x := reportImage l num pc addr n kind flags data
    bits x 511 448 = l.sitePc.toNat ∧ bits x 447 384 = l.lseq ∧ bits x 383 320 = num ∧ bits x 319 256 = pc ∧
    bits x 255 192 = addr ∧ bits x 191 152 = n.idx ∧ bits x 151 120 = n.lmask ∧ bits x 119 109 = n.count ∧
    bits x 108 104 = kind ∧ bits x 103 96 = flags ∧ bits x 95 0 = data := by
  intro x
  have hsite := l.sitePc.isLt
  simp only [x, reportImage, bits]
  refine ⟨?_, ?_, ?_, ?_, ?_, ?_, ?_, ?_, ?_, ?_, ?_⟩ <;> omega

/-! ### O47: how records and reports are made (R298, R331, R342, R360) -/

theorem recPut_outcome (s : State) (c : Ctx) (x : Nat) :
    (s.faultPut c x = .stuck → s.recPut c x = .stuck) ∧ (∀ t, s.faultPut c x = .moved t → s.recPut c x = .moved t) ∧
    ∀ t, s.faultPut c x = .done t → s.recPut c x =
      .done (if bits x 41 38 = 11 ∨ bits x 41 38 = 12 then (t.trigger c 4).trigger c 5 else t.trigger c 4) := by
  unfold State.recPut
  refine ⟨fun h => ?_, fun t h => ?_, fun t h => ?_⟩ <;> rw [h]

/-- A record of the context stands before a new one. -/
def State.behind (s : State) (c : Ctx) : Bool := s.pend.any fun p => p.ctx.desc == c.desc && !p.isReport

theorem behind_iff (s : State) (c : Ctx) : s.behind c = true ↔ ∃ p ∈ s.pend, p.ctx.desc = c.desc ∧ p.isReport = false := by
  simp [State.behind]

/-- The state that keeps a record which waits for its ring. -/
def State.keptRec (s : State) (c : Ctx) (x : Nat) (who : Option Who) (ends : Option (Nat × Ending)) : State :=
  { s with pend := s.pend ++ [⟨c, false, BitVec.ofNat 512 x, who, ends⟩] }

theorem recordIn_written {s t : State} {c : Ctx} {x : Nat} (who : Option Who) (ends : Option (Nat × Ending))
    (hb : s.behind c = false) (h : s.recPut c x = .done t) : s.recordIn c x who ends = (t, true) := by
  unfold State.recordIn
  unfold State.behind at hb
  rw [hb, if_neg Bool.false_ne_true, h]

theorem recordIn_kept {s : State} {c : Ctx} {x : Nat} (who : Option Who) (ends : Option (Nat × Ending))
    (h : s.behind c = true ∨ s.recPut c x = .stuck) : s.recordIn c x who ends = (s.keptRec c x who ends, false) := by
  have hstuck : (if s.pend.any (fun p => p.ctx.desc == c.desc && !p.isReport) then .stuck else s.recPut c x) = Put.stuck := by
    unfold State.behind at h
    split
    · rfl
    next hno => exact h.resolve_left hno
  unfold State.recordIn
  rw [hstuck]
  rfl

theorem fault_fields (e : Env) (kind level acc addr : Nat) (ps : List Nat) :
    (e.fault kind level acc addr ps).num = e.num ∧ (e.fault kind level acc addr ps).word = e.unit.pc.toNat ∧
    (e.fault kind level acc addr ps).addr = addr ∧ (e.fault kind level acc addr ps).kind = kind ∧
    (e.fault kind level acc addr ps).level = level ∧ (e.fault kind level acc addr ps).acc = acc ∧
    (e.fault kind level acc addr ps).die = e.die ∧ (e.fault kind level acc addr ps).who = e.named ps ∧
    (0 < e.unit.left ∨ isSegh e.unit.word = false → (e.fault kind level acc addr ps).seg = e.unit.seg.toNat) := by
  refine ⟨rfl, rfl, rfl, rfl, rfl, rfl, rfl, rfl, fun h => ?_⟩
  unfold Env.fault
  dsimp only
  rw [if_neg]
  rcases h with h | h
  · simp only [Bool.and_eq_true, beq_iff_eq, not_and]
    omega
  · simp [h]

section
variable {s : State} {e : Env} {b : Block} {l : Launch} {n i k level acc : Nat} {addr : W64} {ps : List Nat}
  (hw : e.who = .kern n i k) (hhalf : e.unit.half = none) (hb : s.block? e.bid = some b) (hl : e.launch = some l)
include hw hhalf hb hl

theorem dataFault_eq (kind : Nat) : s.dataFault e kind level acc addr ps =
    if kind = 9 then s.storageEnd b (e.fault 9 0 acc addr.toNat ps)
    else if kind = 4 ∨ kind = 8 then s.endFault b (e.fault kind level acc addr.toNat ps)
    else
      let x := s.record l (e.fault kind level acc addr.toNat ps) (some e.who)
      x.1.onUnit e.who fun u => { u with stat := if x.2 then .dataFault kind else .ringWait } := by
  have hwhole : s.whole e = s := by
    unfold State.whole
    rw [hhalf]
    rfl
  unfold State.dataFault
  rw [hwhole]
  dsimp only
  rw [hw]
  dsimp only
  rw [hb]
  dsimp only
  rw [hl]

theorem dataFault_waits (kind : Nat) (hk : kind = 1 ∨ kind = 2 ∨ kind = 3) :
    let x := (e.fault kind level acc addr.toNat ps).image l
    (∀ t, s.behind l.ctx = false → s.recPut l.ctx x = .done t →
      s.dataFault e kind level acc addr ps = t.onUnit e.who fun u => { u with stat := .dataFault kind }) ∧
    (s.behind l.ctx = true ∨ s.recPut l.ctx x = .stuck → s.dataFault e kind level acc addr ps =
      (s.keptRec l.ctx x (some e.who) none).onUnit e.who fun u => { u with stat := .ringWait }) := by
  intro x
  rw [dataFault_eq hw hhalf hb hl, if_neg (by omega), if_neg (by omega)]
  unfold State.record
  refine ⟨fun t hno hdone => ?_, fun h => ?_⟩
  · rw [recordIn_written _ _ hno hdone]
    rfl
  · rw [recordIn_kept _ _ h]
    rfl

end

theorem endFault_record {s : State} {b : Block} {l : Launch} (hl : s.launch? b.lid = some l) (q : Rec) :
    (∀ t, s.behind l.ctx = false → s.recPut l.ctx (q.image l) = .done t → s.endFault b q = t.endBlock b.bid .policy) ∧
    (s.behind l.ctx = true ∨ s.recPut l.ctx (q.image l) = .stuck →
      (s.endFault b q).pend = (s.keptRec l.ctx (q.image l) none (some (b.bid, .policy))).pend ∧
      (s.endFault b q).mem = s.mem ∧
      ∀ y ∈ (s.endFault b q).blocks, y.lid = b.lid → y.num = b.num → y.st ≠ .ended → y.satchel = [] ∧ y.commit = none ∧
        ∀ g ∈ y.groups, ∀ u ∈ g.units, u.stat = .ringWait) := by
  unfold State.endFault State.endWith
  rw [hl]
  dsimp only
  refine ⟨fun t hno hdone => ?_, fun h => ?_⟩
  · rw [recordIn_written _ _ hno hdone]
    rfl
  · rw [recordIn_kept _ _ h]
    refine ⟨rfl, rfl, fun y hy hlid hnum hst => ?_⟩
    obtain ⟨x, hx, rfl⟩ : ∃ x ∈ s.blocks, (if x.lid == b.lid && x.num == b.num && x.st != .ended then x.stopped else x) = y :=
      List.mem_map.mp hy
    by_cases hc : (x.lid == b.lid && x.num == b.num && x.st != .ended) = true
    · rw [if_pos hc]
      refine ⟨rfl, rfl, fun g hg u hu => ?_⟩
      obtain ⟨g', -, rfl⟩ := List.mem_map.mp hg
      obtain ⟨u', -, rfl⟩ := List.mem_map.mp hu
      rfl
    · rw [if_neg hc] at hlid hnum hst
      exact absurd (by simp [hlid, hnum, hst]) hc

/-- The state that keeps a report which waits for its ring. -/
def State.keptReport (s : State) (c : Ctx) (x : Nat) (who : Option Who) : State :=
  { s with pend := s.pend ++ [⟨c, true, BitVec.ofNat 512 x, who, none⟩] }

theorem report_outcome (s : State) (c : Ctx) (x : Nat) (who : Option Who) :
    let busy : Prop := ∃ p ∈ s.pend, p.ctx.mbox = c.mbox ∧ p.isReport = true
    (c.mbox = 0 → s.report c x who = s) ∧
    (∀ t, c.mbox ≠ 0 → ¬busy → s.reportPut c x = .done t → s.report c x who = t) ∧
    (c.mbox ≠ 0 → busy ∨ s.reportPut c x = .stuck → s.report c x who = match who with
      | none => s.keptReport c x who
      | some w => (s.keptReport c x who).onUnit w ISet.awaitRing) := by
  intro busy
  have hbusy : (s.pend.any fun p => p.ctx.mbox == c.mbox && p.isReport) = true ↔ busy := by simp [busy]
  unfold State.report
  refine ⟨fun h => if_pos h, fun t h0 hno hdone => ?_, fun h0 h => ?_⟩
  · rw [if_neg h0, if_neg (mt hbusy.mp hno), hdone]
  · have hstuck : (if s.pend.any (fun p => p.ctx.mbox == c.mbox && p.isReport) then .stuck else s.reportPut c x) =
        Put.stuck := by
      split
      · rfl
      next hno => exact h.resolve_left (mt hbusy.mpr hno)
    rw [if_neg h0, hstuck]
    cases who <;> rfl

end Sys2Proof.Machine
end

