-- ==== Sys2Proof/Proofs/QueueRegisters.lean ====
section
/-! PROOF. Snapshots, postcards, and writes to the device register window (R310, R311, R330, R331, R341, R369, R370). -/

namespace Sys2Proof.Machine

/-! ### O47: snapshots and postcards (R369, R370) -/

theorem snapshotLatch_run (part unit inst : Nat) (s : State) :
    let d := nth s.dbg part ⟨[], [], false, []⟩
    (d.fired = false → exec (.snapshotLatch part unit inst) s = .next s) ∧
    (d.fired = true → 1 ≤ unit → unit ≤ 13 → (∀ k ∈ d.snaps, ¬(k.unit = unit ∧ k.inst = inst)) →
      ∃ (t : State) (data : BitVec 512), exec (.snapshotLatch part unit inst) s = .next (t.onDbg part fun d =>
        { d with snaps := d.snaps ++ [⟨unit, inst, data⟩] }) ∧ t.dbg = s.dbg ∧ t.mem = s.mem) := by
  intro d
  refine ⟨fun h => congrArg Host.Outcome.next (if_pos ?_), fun h h1 h13 hnew =>
    ⟨_, _, congrArg Host.Outcome.next (if_neg ?_), rfl, rfl⟩⟩
  · simp [d, h]
  · simp only [Bool.or_eq_true, decide_eq_true_eq, Bool.not_eq_true', List.any_eq_true, Bool.and_eq_true, beq_iff_eq]
    rintro (((hf | hu) | hu) | ⟨k, hk, hku⟩)
    · exact absurd (h.symm.trans hf) (by decide)
    · omega
    · omega
    · exact hnew k hk hku

theorem postcard_fields (c : CardReq) (hseq : c.lseq < 2 ^ 64) (hdie : c.die < 4) (hacc : c.acc < 16) (hidx : c.idx < 2 ^ 40) :
    let x := c.image
    bits x 511 448 = c.sitePc.toNat ∧ bits x 447 384 = c.lseq ∧ bits x 383 320 = c.word.toNat ∧
    bits x 319 256 = c.addr.toNat ∧ bits x 255 246 = 0 ∧ bits x 245 244 = c.die ∧ bits x 243 240 = c.acc ∧
    bits x 127 88 = c.idx ∧ bits x 71 0 = 0 := by
  intro x
  have hsite := c.sitePc.isLt
  have hword := c.word.isLt
  have haddr := c.addr.isLt
  have hfirst := (Config.freeWord c.nonce).isLt
  simp only [x, CardReq.image, bits]
  generalize (Config.freeWord c.nonce).toNat = a at *
  generalize (Config.freeWord (c.nonce + 1)).toNat = b at *
  generalize (Config.freeWord (c.nonce + 2)).toNat = d at *
  have hb : b % 2 ^ 48 < 2 ^ 48 := Nat.mod_lt _ (by decide)
  have hd : d % 2 ^ 16 < 2 ^ 16 := Nat.mod_lt _ (by decide)
  refine ⟨?_, ?_, ?_, ?_, ?_, ?_, ?_, ?_, ?_⟩ <;> omega

section
variable {s : State} {i : Nat} {c : CardReq} (hc : s.cards[i]? = some c)
include hc

theorem postcard_waits (h : s.unperformed c = true) : exec (.postcard i) s = .next s := by
  show execPostcard i s = _
  unfold execPostcard
  rw [hc]
  dsimp only
  rw [h, if_pos rfl]

/-- A postcard whose ring no card is on its way into. -/
theorem postcard_free (h : s.unperformed c = false) (hfree : ∀ x ∈ s.rings, ¬(x.part = c.ctx.part ∧ x.prod = c.ctx.mbox + 36)) :
    exec (.postcard i) s = .next
      (if bits (s.partNat c.ctx.part c.ctx.mbox 1) 7 4 = 0 then { s with cards := dropAt s.cards i }
      else match s.ringPut c.ctx.part (bits (s.partNat c.ctx.part (c.ctx.mbox + 40) 8) 51 12 * 4096)
          (bits (s.partNat c.ctx.part (c.ctx.mbox + 40) 8) 4 0) (c.ctx.mbox + 36) (c.ctx.mbox + 32) 64 c.image with
        | .done t => { t with cards := dropAt t.cards i }
        | .moved t => t
        | .stuck => { s with cards := dropAt s.cards i }) := by
  have hbusy : (s.rings.any fun x => x.part == c.ctx.part && x.prod == c.ctx.mbox + 36) = false :=
    List.any_eq_false.mpr fun x hx => by simpa using hfree x hx
  show execPostcard i s = _
  unfold execPostcard
  rw [hc]
  dsimp only
  rw [h, if_neg Bool.false_ne_true, hbusy]
  simp only [Bool.not_false, Bool.true_and, beq_iff_eq]
  rfl

end

/-! ### O47: a queue's registers (R310, R311) -/

/-- What a queue whose registers have been written, and which the device looks at, is left with. -/
def Observed (s : State) (q : Nat) (r : QReg) (t : State) : Prop :=
  let bad : Prop := r.qlog.toNat < 4 ∨ 12 < r.qlog.toNat ∨ 2 ^ r.qlog.toNat < (r.post - r.done).toNat
  let seen := (s.setQueue r).dropCaches (192 + q / 256)
  let posted : List Nat := (upto 1 (r.post - r.done).toNat).map fun j =>
    r.qbase.toNat + 64 * ((r.done + BitVec.ofNat 32 j).toNat % 2 ^ r.qlog.toNat)
  (r.enable = false → t = s.setQueue r) ∧
  (r.enable = true → bad → t = (s.setQueue r).setQueue { r with qerr := 1, enable := false, recs := [] }) ∧
  (r.enable = true → ¬bad → (∃ a ∈ posted, s.usable (q / 512) a = false) → t = (s.setQueue r).setQueue { r with recs := [] }) ∧
  (r.enable = true → ¬bad → (∀ a ∈ posted, s.usable (q / 512) a = true) →
    t = seen.setQueue { r with recs := posted.map fun a => BitVec.ofNat 512 (seen.partNat (s.partOf (q / 512)) a 64) })

theorem overrun_iff (r : QReg) :
    r.overrun = true ↔ r.qlog.toNat < 4 ∨ 12 < r.qlog.toNat ∨ 2 ^ r.qlog.toNat < (r.post - r.done).toNat := by
  simp [QReg.overrun, or_assoc]

theorem setQueue_usable (s : State) (r : QReg) : (s.setQueue r).usable = s.usable := by
  unfold State.setQueue
  split <;> rfl

theorem setQueue_partOf (s : State) (r : QReg) : (s.setQueue r).partOf = s.partOf := by
  unfold State.setQueue
  split <;> rfl

theorem dropCaches_partOf (s : State) (c : Nat) : (s.dropCaches c).partOf = s.partOf := by
  unfold State.dropCaches State.setCore
  split <;> rfl

theorem queueObserve_observed (s : State) {q : Nat} {r : QReg} (hr : r.num = q) :
    Observed s q r ((s.setQueue r).queueObserve q) := by
  have hqueue : (s.setQueue r).queue q = r := hr ▸ setQueue_queue s r
  have hrun : (s.setQueue r).queueObserve q =
      if !r.enable then s.setQueue r
      else if r.overrun then (s.setQueue r).setQueue { r with qerr := 1, enable := false, recs := [] }
      else if r.posted.any fun a => !s.usable (q / 512) a then (s.setQueue r).setQueue { r with recs := [] }
      else ((s.setQueue r).dropCaches (192 + q / 256)).setQueue { r with
        recs := r.posted.map fun a =>
          BitVec.ofNat 512 (((s.setQueue r).dropCaches (192 + q / 256)).partNat (s.partOf (q / 512)) a 64) } := by
    unfold State.queueObserve State.queueError
    rw [hqueue, setQueue_usable]
    dsimp only
    rw [dropCaches_partOf, setQueue_partOf]
    rfl
  have hbad := overrun_iff r
  have hposted : (r.posted.any fun a => !s.usable (q / 512) a) = true ↔ ∃ a ∈ r.posted, s.usable (q / 512) a = false := by
    simp
  unfold Observed
  refine ⟨fun h => ?_, fun h hb => ?_, fun h hb hx => ?_, fun h hb hx => ?_⟩
  · rw [hrun, h]
    rfl
  · rw [hrun, h, if_neg (by decide), if_pos (hbad.mpr hb)]
  · rw [hrun, h, if_neg (by decide), if_neg (mt hbad.mp hb), if_pos (hposted.mpr hx)]
  · rw [hrun, h, if_neg (by decide), if_neg (mt hbad.mp hb), if_neg]
    · rfl
    · rw [hposted]
      rintro ⟨a, ha, hua⟩
      exact absurd ((hx a ha).symm.trans hua) (by decide)

theorem queuePost_same {s : State} {q : Nat} (hq : q < 2048) {v : W32} (h : v = (s.queue q).post) :
    exec (.queuePost q v) s = .next (s.onCc (q / 256) fun k => { k with halted := false }) := by
  show execQueuePost q v s = _
  unfold execQueuePost State.queuePost State.wake
  rw [if_pos (show q < Config.queues from hq), if_pos h]

theorem queuePost_new {s : State} {q : Nat} (hq : q < 2048) {v : W32} (h : v ≠ (s.queue q).post) :
    ∃ t, Observed s q { s.queue q with post := v } t ∧
      exec (.queuePost q v) s = .next (t.onCc (q / 256) fun k => { k with halted := false }) := by
  refine ⟨_, queueObserve_observed s (r := { s.queue q with post := v }) (queue_num s q), ?_⟩
  show execQueuePost q v s = _
  unfold execQueuePost State.queuePost State.wake
  rw [if_pos (show q < Config.queues from hq), if_neg h]

/-- A queue's registers behind a write of the 8 bytes that hold QERR, QLOG and ENABLE. -/
def QReg.controlled (r : QReg) (x : W64) : QReg :=
  { r with
    qbase := BitVec.ofNat 64 (r.qbase.toNat / 4096 * 4096), qlog := BitVec.ofNat 4 (bits x.toNat 35 32)
    qerr := r.qerr &&& ~~~(BitVec.ofNat 4 (bits x.toNat 39 36)), enable := bit x.toNat 31 }

theorem overlay_eight (img off : Nat) (x : W64) :
    overlay img off (leBytes 8 x.toNat) = img % 256 ^ off + x.toNat * 256 ^ off + img / 256 ^ (off + 8) * 256 ^ (off + 8) := by
  unfold overlay
  rw [length_leBytes, leNat_leBytes, Nat.mod_eq_of_lt x.isLt]

theorem queueImage_fields (r : QReg) :
    r.image / 2 ^ 448 = r.qbase.toNat ∧ r.image < 2 ^ 512 := by
  have h1 := r.qbase.isLt
  have h2 := r.post.isLt
  have h3 := r.done.isLt
  have h4 := r.qerr.isLt
  have h5 := r.qlog.isLt
  unfold QReg.image
  split <;> constructor <;> omega

theorem writeQueue_control (s : State) (q : Nat) (x : W64) :
    s.writeQueue q 40 (leBytes 8 x.toNat) =
      if ((s.queue q).controlled x).enable && (!(s.queue q).enable || ((s.queue q).controlled x).overrun) then
        (s.setQueue ((s.queue q).controlled x)).queueObserve q
      else s.setQueue ((s.queue q).controlled x) := by
  obtain ⟨hbase, himg⟩ := queueImage_fields (s.queue q)
  have hx := x.isLt
  have hqbase : bits (overlay (s.queue q).image 40 (leBytes 8 x.toNat)) 511 448 = (s.queue q).qbase.toNat := by
    rw [overlay_eight, bits]
    omega
  have hqlog : bits (overlay (s.queue q).image 40 (leBytes 8 x.toNat)) 355 352 = bits x.toNat 35 32 := by
    rw [overlay_eight, bits, bits]
    omega
  have hones : bits (overlay 0 40 (leBytes 8 x.toNat)) 359 356 = bits x.toNat 39 36 := by
    rw [overlay_eight, bits, bits]
    omega
  have henable : bit (overlay (s.queue q).image 40 (leBytes 8 x.toNat)) 351 = bit x.toNat 31 := by
    have hbit : overlay (s.queue q).image 40 (leBytes 8 x.toNat) / 2 ^ 351 % 2 = x.toNat / 2 ^ 31 % 2 := by
      rw [overlay_eight]
      omega
    unfold bit
    rw [hbit]
  unfold State.writeQueue
  dsimp only
  rw [hqbase, hqlog, hones, henable, length_leBytes, if_neg (by omega)]
  rfl

theorem queueEnable_kept {s : State} {q : Nat} (hq : q < 2048) (x : W64)
    (h : (s.queue q).enable = true ∧ ((s.queue q).controlled x).enable = true ∧
      ((s.queue q).controlled x).overrun = false) :
    exec (.queueEnable q x) s = .next (s.setQueue ((s.queue q).controlled x)) := by
  obtain ⟨ho, hn, hr⟩ := h
  show execQueueEnable q x s = _
  unfold execQueueEnable
  rw [if_pos (show q < Config.queues from hq), writeQueue_control, ho, hn, hr]
  rfl

theorem queueEnable_observed {s : State} {q : Nat} (hq : q < 2048) (x : W64)
    (h : ¬((s.queue q).enable = true ∧ ((s.queue q).controlled x).enable = true ∧
      ((s.queue q).controlled x).overrun = false)) :
    ∃ t, Observed s q ((s.queue q).controlled x) t ∧ exec (.queueEnable q x) s = .next t := by
  have hseen := queueObserve_observed s (r := (s.queue q).controlled x) (queue_num s q)
  refine ⟨_, hseen, ?_⟩
  show execQueueEnable q x s = _
  unfold execQueueEnable
  rw [if_pos (show q < Config.queues from hq), writeQueue_control]
  cases hn : ((s.queue q).controlled x).enable with
  | false => rw [Bool.false_and, if_neg Bool.false_ne_true, hseen.1 hn]
  | true =>
    rw [if_pos]
    cases ho : (s.queue q).enable with
    | false => rfl
    | true =>
      rw [hn, ho] at h
      simpa using h

/-! ### O47: writes to the device register window (R310, R330, R331, R341, R376) -/

theorem regs_win {o : Nat} (h : o < 0x58100) : winOf (regsBase + o) = .regs := by
  have hb : regsBase = 0xFF10000000000 := rfl
  have hc : onChipBase = 0xFF00000000000 := rfl
  unfold winOf
  rw [hb, hc]
  rw [if_neg (by omega), if_neg (by omega), if_neg (by omega), if_neg (by omega), if_neg (by omega), if_pos (by omega)]

theorem registerWrite_run {o : Nat} (ho : o < 0x58100) (bs : List Byte) (s : State) :
    exec (.registerWrite (regsBase + o) bs) s = .next (State.regWriteIn bs.length s o bs) := by
  show execRegisterWrite (regsBase + o) bs s = _
  unfold execRegisterWrite
  rw [if_pos (regs_win ho), Nat.add_sub_cancel_left]
  rfl

theorem regWriteIn_within (k : Nat) (s : State) {o : Nat} {bs : List Byte} (hroom : bs.length ≤ blkRoom o) :
    State.regWriteIn (k + 1) s o bs = s.blkWrite o bs := by
  unfold State.regWriteIn
  dsimp only
  rw [List.take_of_length_le hroom, if_pos hroom]

theorem regWriteIn_beyond (k : Nat) (s : State) {o : Nat} {bs cs : List Byte} (hroom : blkRoom o = bs.length) (hc : cs ≠ []) :
    State.regWriteIn (k + 1) s o (bs ++ cs) = State.regWriteIn k (s.blkWrite o bs) (o + bs.length) cs := by
  have hcpos : 0 < cs.length := List.length_pos_iff.mpr hc
  rw [State.regWriteIn]
  rw [hroom, List.take_left, List.drop_left, if_neg (by rw [List.length_append]; omega)]

/-- A write to the register window that ends in the block it begins in. -/
theorem registerWrite_block {o : Nat} (ho : o < 0x58100) {bs : List Byte} (hne : bs ≠ []) (hroom : bs.length ≤ blkRoom o)
    (s : State) : exec (.registerWrite (regsBase + o) bs) s = .next (s.blkWrite o bs) := by
  obtain ⟨k, hk⟩ := Nat.exists_eq_succ_of_ne_zero (mt List.length_eq_zero_iff.mp hne)
  rw [registerWrite_run ho, hk]
  exact congrArg Host.Outcome.next (regWriteIn_within k s hroom)

theorem queue_blk {q o : Nat} (hq : q < 2048) (ho : o < 64) : regBlk (64 * q + o) = (.queue q, o) := by
  unfold regBlk
  rw [if_pos (by omega), Nat.mul_add_div (by decide), Nat.div_eq_of_lt ho, Nat.mul_add_mod, Nat.mod_eq_of_lt ho]
  rfl

theorem xlate_blk {p o : Nat} (hp : p < 4) (ho : o < 24) : regBlk (0x20000 + 0x1000 * p + o) = (.xlate p, o) := by
  unfold regBlk
  rw [if_neg (by omega), if_pos (by omega), show (0x20000 + 0x1000 * p + o) / 0x1000 % 16 = p by omega,
    show (0x20000 + 0x1000 * p + o) % 0x1000 = o by omega]

theorem lctl_blk {p o : Nat} (hp : p < 4) (ho : o < 32) : regBlk (0x30000 + 0x1000 * p + o) = (.lctl p, o) := by
  unfold regBlk
  rw [if_neg (by omega), if_neg (by omega), if_pos (by omega), show (0x30000 + 0x1000 * p + o) / 0x1000 % 16 = p by omega,
    show (0x30000 + 0x1000 * p + o) % 0x1000 = o by omega]

theorem leBytes_ne_nil {n : Nat} (h : n ≠ 0) (x : Nat) : leBytes n x ≠ [] := by
  intro hnil
  have := length_leBytes n x
  rw [hnil] at this
  exact h this.symm

theorem registerWrite_queue (s : State) {q : Nat} (hq : q < 2048) (x : W64) :
    exec (.registerWrite (regsBase + 64 * q + 40) (leBytes 8 x.toNat)) s = exec (.queueEnable q x) s := by
  have hblk := queue_blk hq (show 40 < 64 by decide)
  rw [Nat.add_assoc, registerWrite_block (by omega) (leBytes_ne_nil (by decide) _)
    (by simp [length_leBytes, blkRoom, hblk])]
  show _ = execQueueEnable q x s
  unfold execQueueEnable State.blkWrite
  rw [hblk, if_pos (show q < Config.queues from hq)]

theorem registerWrite_tlbi (s : State) {p : Nat} (hp : p < 4) (v : W64) :
    exec (.registerWrite (regsBase + 0x20000 + 0x1000 * p) (leBytes 8 v.toNat)) s = exec (.tlbInvalidate p v) s := by
  have hblk : regBlk (0x20000 + 0x1000 * p) = _ := xlate_blk hp (show 0 < 24 by decide)
  have hnum : BitVec.ofNat 64 (overlay (nth s.xregs p ⟨0, 0, 0, []⟩).image 0 (leBytes 8 v.toNat)) = v := by
    have hv := v.isLt
    apply BitVec.eq_of_toNat_eq
    rw [overlay_eight, BitVec.toNat_ofNat]
    omega
  rw [Nat.add_assoc, registerWrite_block (by omega) (leBytes_ne_nil (by decide) _)
    (by simp [length_leBytes, blkRoom, hblk])]
  show _ = execTlbInvalidate p v s
  unfold execTlbInvalidate State.blkWrite
  rw [hblk]
  dsimp only
  unfold State.writeXlate
  dsimp only
  rw [if_pos ⟨rfl, length_leBytes ..⟩, hnum]

theorem registerWrite_replay (s : State) {p : Nat} (hp : p < 4) (c : BitVec 16) :
    exec (.registerWrite (regsBase + 0x20000 + 0x1000 * p + 16) (leBytes 2 c.toNat)) s = exec (.replay p c) s := by
  have hblk := xlate_blk hp (show 16 < 24 by decide)
  have hnum : BitVec.ofNat 16 (bits (overlay (nth s.xregs p ⟨0, 0, 0, []⟩).image 16 (leBytes 2 c.toNat)) 143 128) = c := by
    have hc := c.isLt
    apply BitVec.eq_of_toNat_eq
    unfold overlay
    rw [length_leBytes, leNat_leBytes, Nat.mod_eq_of_lt c.isLt, BitVec.toNat_ofNat, bits]
    dsimp only
    omega
  rw [Nat.add_assoc, Nat.add_assoc, ← Nat.add_assoc 0x20000, registerWrite_block (by omega) (leBytes_ne_nil (by decide) _)
    (by simp [length_leBytes, blkRoom, hblk])]
  show _ = execReplay p c s
  unfold execReplay State.blkWrite
  rw [hblk]
  dsimp only
  unfold State.writeXlate
  dsimp only
  rw [if_neg (fun h => absurd h.1 (by decide)), if_pos ⟨rfl, length_leBytes ..⟩, hnum]

/-- A launch control block behind a 64-bit store to its first register. -/
def LCtl.ordered (l : LCtl) (v : W64) : LCtl :=
  let op := BitVec.ofNat 2 (bits v.toNat 1 0)
  { l with op := op, pend := if op = 0 then l.pend else l.pend ++ [(op.toNat, l.sitePc, l.seq)] }

theorem lctlImage_fields (l : LCtl) (v : W64) :
    BitVec.ofNat 64 (bits (overlay l.image 0 (leBytes 8 v.toNat)) 255 192) = l.sitePc ∧
    BitVec.ofNat 64 (bits (overlay l.image 0 (leBytes 8 v.toNat)) 191 128) = l.seq ∧
    bits (overlay l.image 0 (leBytes 8 v.toNat)) 1 0 = bits v.toNat 1 0 := by
  have h1 := l.sitePc.isLt
  have h2 := l.seq.isLt
  have h3 := l.done.isLt
  have h4 := l.stat.isLt
  have h5 := l.op.isLt
  have hv := v.isLt
  rw [overlay_eight]
  unfold LCtl.image
  refine ⟨BitVec.eq_of_toNat_eq ?_, BitVec.eq_of_toNat_eq ?_, ?_⟩
  · rw [BitVec.toNat_ofNat, bits]
    omega
  · rw [BitVec.toNat_ofNat, bits]
    omega
  · rw [bits, bits]
    omega

theorem onLctl_congr {s : State} {p : Nat} {f g : LCtl → LCtl} (h : ∀ l, s.lctls[p]? = some l → f l = g l) :
    s.onLctl p f = s.onLctl p g := by
  have hmap : ((s.lctls.zip (upto 0 s.lctls.length)).map fun x => if x.2 == p then f x.1 else x.1) =
      (s.lctls.zip (upto 0 s.lctls.length)).map fun x => if x.2 == p then g x.1 else x.1 := by
    refine List.map_congr_left fun x hx => ?_
    obtain ⟨i, hi⟩ := List.mem_iff_getElem?.mp hx
    obtain ⟨hl, hu⟩ := List.getElem?_zip_eq_some.mp hi
    by_cases hp : (x.2 == p) = true
    · have hlen : i < s.lctls.length := (List.getElem?_eq_some_iff.mp hl).1
      rw [getElem?_upto hlen, Nat.zero_add] at hu
      have hip : i = p := (Option.some.inj hu).trans (eq_of_beq hp)
      rw [if_pos hp, if_pos hp, h _ (hip ▸ hl)]
    · rw [if_neg hp, if_neg hp]
  unfold State.onLctl
  rw [hmap]

theorem registerWrite_lctl (s : State) {p : Nat} (hp : p < 4) (v : W64) :
    exec (.registerWrite (regsBase + 0x30000 + 0x1000 * p) (leBytes 8 v.toNat)) s =
      .next (s.onLctl p fun l => l.ordered v) := by
  have hblk : regBlk (0x30000 + 0x1000 * p) = _ := lctl_blk hp (show 0 < 32 by decide)
  rw [Nat.add_assoc, registerWrite_block (by omega) (leBytes_ne_nil (by decide) _)
    (by simp [length_leBytes, blkRoom, hblk])]
  unfold State.blkWrite
  rw [hblk]
  dsimp only
  unfold State.writeLctl
  refine congrArg Host.Outcome.next (onLctl_congr fun l hl => ?_)
  rw [show nth s.lctls p ⟨0, 0, 0, 0, 0, []⟩ = l by unfold nth; rw [hl]; rfl]
  obtain ⟨hsite, hseq, hop⟩ := lctlImage_fields l v
  rw [hsite, hseq, hop, length_leBytes]
  unfold LCtl.ordered
  dsimp only
  by_cases h0 : BitVec.ofNat 2 (bits v.toNat 1 0) = 0
  · rw [if_neg (fun h => h.2.2 h0), if_pos h0]
  · rw [if_pos ⟨rfl, rfl, h0⟩, if_neg h0]

/-- What lies above the launch control blocks takes no write. -/
theorem regBlk_above {o : Nat} (h : 0x40000 ≤ o) :
    (regBlk o).1 = .bring ∨ (∃ d, (regBlk o).1 = .mgmt d) ∨ (regBlk o).1 = .mailbox ∨ (regBlk o).1 = .none := by
  unfold regBlk
  rw [if_neg (by omega), if_neg (by omega), if_neg (by omega)]
  split
  · exact .inl rfl
  · split
    · exact .inr (.inl ⟨_, rfl⟩)
    · split
      · exact .inr (.inr (.inl rfl))
      · exact .inr (.inr (.inr rfl))

theorem blkWrite_above (s : State) {o : Nat} (h : 0x40000 ≤ o) (bs : List Byte) : s.blkWrite o bs = s := by
  unfold State.blkWrite
  rcases regBlk_above h with h | ⟨d, h⟩ | h | h <;> simp only [h]

theorem blkRoom_above {o : Nat} (h : 0x40000 ≤ o) : blkRoom o = 1 := by
  unfold blkRoom
  rcases regBlk_above h with h | ⟨d, h⟩ | h | h <;> split <;> simp_all

theorem registerWrite_other (s : State) {a : Nat} {bs : List Byte} (hw : winOf a = .regs) (ha : 0x40000 ≤ a - regsBase)
    (hb : bs.length ≤ 1) : exec (.registerWrite a bs) s = .next s := by
  show execRegisterWrite a bs s = _
  unfold execRegisterWrite
  rw [if_pos hw]
  unfold State.regWrite
  cases hn : bs.length with
  | zero => rfl
  | succ k => rw [regWriteIn_within _ _ (by rw [blkRoom_above ha]; exact hb), blkWrite_above s ha]

/-- A write that goes on behind the end of a queue's block is the two writes in order. -/
theorem registerWrite_append (s : State) {q o : Nat} {bs cs : List Byte} (hq : q + 1 < 2048) (hb : bs ≠ [])
    (ho : o + bs.length = 64) (hc : cs ≠ []) (hlen : cs.length ≤ 64) :
    ∃ t, exec (.registerWrite (regsBase + 64 * q + o) bs) s = .next t ∧
      exec (.registerWrite (regsBase + 64 * q + o) (bs ++ cs)) s =
        exec (.registerWrite (regsBase + 64 * (q + 1)) cs) t := by
  have hpos : 0 < bs.length := List.length_pos_iff.mpr hb
  have hcpos : 0 < cs.length := List.length_pos_iff.mpr hc
  have hroom : blkRoom (64 * q + o) = bs.length := by
    rw [blkRoom, queue_blk (by omega) (by omega)]
    dsimp only
    omega
  have hnext : blkRoom (64 * (q + 1)) = 64 := by
    rw [blkRoom, ← Nat.add_zero (64 * (q + 1)), queue_blk hq (by decide)]
  refine ⟨s.blkWrite (64 * q + o) bs, ?_, ?_⟩
  · rw [Nat.add_assoc, registerWrite_block (by omega) hb (by omega)]
  · obtain ⟨k, hk⟩ : ∃ k, (bs ++ cs).length = k + 1 + 1 := ⟨bs.length + cs.length - 2, by rw [List.length_append]; omega⟩
    rw [registerWrite_block (by omega) hc (by omega), Nat.add_assoc, registerWrite_run (by omega), hk,
      regWriteIn_beyond _ _ hroom hc, show 64 * q + o + bs.length = 64 * (q + 1) by omega,
      regWriteIn_within _ _ (by omega)]

end Sys2Proof.Machine
end

