-- ==== Sys2Proof/Proofs/QueueAndFaultEvents.lean ====
section
/-! PROOF. O47: commands, invalidations, and the clauses from the sections before (R303, R311 to R313, R319, R330). -/

namespace Sys2Proof.Machine

/-! ### O47: commands (R311, R312, R313) -/

/-- A command record is well formed. -/
def GoodRec (r : QReg) (x : Nat) : Prop := bits x 127 96 = (r.done + 1).toNat ∧ bits x 95 80 ≤ 1 ∧ bits x 79 0 = 0

theorem recOk_iff (r : QReg) (x : Nat) : r.recOk x = true ↔ GoodRec r x := by
  simp [QReg.recOk, GoodRec, and_assoc]

/-- A queue that a control core serves has failed. -/
def State.queueFails (s : State) (c q code : Nat) : State :=
  (s.setQueue { s.queue q with qerr := BitVec.ofNat 4 code, enable := false, recs := [] }).onCc c fun k =>
    { k with lastQ := q }

section
variable {s : State} {k : CCore} {q : Nat} {w : BitVec 512} {r : List (BitVec 512)} (hk : s.cc? k.num = some k)
  (hcmd : k.cmd = none) (htrap : k.trap = none) (hup : s.bring.control = true) (hq : s.nextQueue k = some q)
  (hrecs : (s.queue q).recs = w :: r)
include hk hcmd htrap hup hq hrecs

/-- What a control core makes of the record that it serves next. -/
theorem serve_record (kind : Nat) : s.serve k.num kind =
    if !(s.queue q).recOk w.toNat then (if kind = 0 then s.queueFails k.num q 2 else s)
    else if bits w.toNat 95 80 ≠ kind then s
    else match (if bits w.toNat 511 448 = 0 then some k.ctx
        else (s.descriptor (s.partOf (k.num / 2)) (bits w.toNat 511 448)).map some) with
      | none => s.queueFails k.num q 3
      | some cx =>
        if kind = 1 ∧ s.partOf (bits w.toNat 330 320 / 512) ≠ s.partOf (k.num / 2) then s.queueFails k.num q 4
        else s.onCc k.num fun k' =>
          let fpctl := if bits w.toNat 511 448 = 0 then (k.grp.lane 0).fpctl else (cx.map (·.fpctlDef)).getD 0
          { k' with
            ctx := cx, lastQ := q, halted := false
            cmd := some ⟨q, BitVec.ofNat 32 (bits w.toNat 127 96),
              if kind = 1 then some (bits w.toNat 330 320, BitVec.ofNat 32 (bits w.toNat 287 256)) else none⟩
            grp := if kind = 0 then k'.program q w.toNat fpctl
              else { k'.grp with lanes := k'.grp.lanes.map fun l => { l with fpctl := fpctl } } } := by
  unfold State.serve
  rw [hk]
  dsimp only
  rw [hcmd, htrap, hup, if_neg (by decide), hq]
  dsimp only
  rw [hrecs]
  rfl

theorem programCommand_bad (h : ¬GoodRec (s.queue q) w.toNat) :
    exec (.programCommand k.num) s = .next (s.queueFails k.num q 2) := by
  refine congrArg Host.Outcome.next ((serve_record hk hcmd htrap hup hq hrecs 0).trans ?_)
  rw [if_pos (by simpa using mt (recOk_iff ..).mp h), if_pos rfl]

theorem programCommand_starts {c : Ctx} (h : GoodRec (s.queue q) w.toNat) (hkind : bits w.toNat 95 80 = 0)
    (ha : bits w.toNat 511 448 ≠ 0) (hc : s.descriptor (s.partOf (k.num / 2)) (bits w.toNat 511 448) = some c) :
    exec (.programCommand k.num) s = .next (s.onCc k.num fun k => { k with
      ctx := some c, lastQ := q, cmd := some ⟨q, BitVec.ofNat 32 (bits w.toNat 127 96), none⟩, halted := false
      grp := k.program q w.toNat c.fpctlDef }) := by
  refine congrArg Host.Outcome.next ((serve_record hk hcmd htrap hup hq hrecs 0).trans ?_)
  rw [if_neg (by simpa [recOk_iff] using h), if_neg (not_not.mpr hkind), if_neg ha, hc]
  dsimp only [Option.map_some]
  rw [if_neg (by omega), if_neg ha]
  rfl

theorem serve_no_context {kind : Nat} (h : GoodRec (s.queue q) w.toNat) (hkind : bits w.toNat 95 80 = kind)
    (ha : bits w.toNat 511 448 ≠ 0) (hc : s.descriptor (s.partOf (k.num / 2)) (bits w.toNat 511 448) = none) :
    s.serve k.num kind = s.queueFails k.num q 3 := by
  rw [serve_record hk hcmd htrap hup hq hrecs kind, if_neg (by simpa [recOk_iff] using h),
    if_neg (not_not.mpr hkind), if_neg ha, hc]
  rfl

theorem crossQueueFence_outside (h : GoodRec (s.queue q) w.toNat) (hkind : bits w.toNat 95 80 = 1)
    (ha : bits w.toNat 511 448 = 0) (hp : s.partOf (bits w.toNat 330 320 / 512) ≠ s.partOf (k.num / 2)) :
    exec (.crossQueueFence k.num) s = .next (s.queueFails k.num q 4) := by
  refine congrArg Host.Outcome.next ((serve_record hk hcmd htrap hup hq hrecs 1).trans ?_)
  rw [if_neg (by simpa [recOk_iff] using h), if_neg (not_not.mpr hkind), if_pos ha]
  dsimp only
  rw [if_pos ⟨rfl, hp⟩]

theorem crossQueueFence_starts (h : GoodRec (s.queue q) w.toNat) (hkind : bits w.toNat 95 80 = 1)
    (ha : bits w.toNat 511 448 = 0) (hp : s.partOf (bits w.toNat 330 320 / 512) = s.partOf (k.num / 2)) :
    exec (.crossQueueFence k.num) s = .next (s.onCc k.num fun k' => { k' with
      ctx := k.ctx, lastQ := q, halted := false
      cmd := some ⟨q, BitVec.ofNat 32 (bits w.toNat 127 96),
        some (bits w.toNat 330 320, BitVec.ofNat 32 (bits w.toNat 287 256))⟩
      grp := { k'.grp with lanes := k'.grp.lanes.map fun l => { l with fpctl := (k.grp.lane 0).fpctl } } }) := by
  refine congrArg Host.Outcome.next ((serve_record hk hcmd htrap hup hq hrecs 1).trans ?_)
  rw [if_neg (by simpa [recOk_iff] using h), if_neg (not_not.mpr hkind), if_pos ha]
  dsimp only
  rw [if_neg (fun h => h.2 hp), if_pos ha]
  rfl

end

theorem span_write64 {g : Grp} (hs : g.span = true) (u : ISet) (d : Nat) (b : W64) :
    g.write u d (.form64 b 0) = (g.setCell d { kind := .f64 b 0, rel := 0 }).setCell (d + 1) { kind := .f64hi, rel := 0 } := by
  unfold Grp.write
  rw [hs]
  rfl

theorem span_write32 {g : Grp} (hs : g.span = true) (u : ISet) (d : Nat) (b : W32) :
    g.write u d (.form b 0) = (g.unpair d).setCell d { kind := .f32 b 0, rel := 0 } := by
  unfold Grp.write
  rw [hs]
  rfl

theorem unpair_of_f32 {g : Grp} {r : Nat} {b c t v : W32} (hlo : (g.cell (r - r % 2)).kind = .f32 b t)
    (hhi : (g.cell (r - r % 2 + 1)).kind = .f32 c v) : g.unpair r = g := by
  unfold Grp.unpair
  dsimp only
  rw [hlo, hhi]

/-- A command program's thread before its entry writes its registers. -/
def CCore.entry (k : CCore) (x : Nat) (fp : BitVec 3) : Grp :=
  { Grp.root k.grp.gid 0 1 (BitVec.ofNat 64 (bits x 447 384)) fp with stq := k.grp.stq }

/-- The thread with its four arguments. -/
def CCore.args (k : CCore) (x : Nat) (fp : BitVec 3) : Grp :=
  let arg (g : Grp) (r hi : Nat) : Grp :=
    (g.setCell r { kind := .f64 (BitVec.ofNat 64 (bits x hi (hi - 63))) 0, rel := 0 }).setCell (r + 1)
      { kind := .f64hi, rel := 0 }
  arg (arg (arg (arg (k.entry x fp) 0 383) 2 319) 4 255) 6 191

theorem args_cells (k : CCore) (x : Nat) (fp : BitVec 3) (r : Nat) (hr : 8 ≤ r) (h : r < 64) :
    (k.args x fp).cell r = RegCell.uniform 0 := by
  have hentry : (k.entry x fp).cell r = RegCell.uniform 0 := nth_replicate _ _ h
  unfold CCore.args
  dsimp only
  rw [cell_setCell_ne (by omega), cell_setCell_ne (by omega), cell_setCell_ne (by omega), cell_setCell_ne (by omega),
    cell_setCell_ne (by omega), cell_setCell_ne (by omega), cell_setCell_ne (by omega), cell_setCell_ne (by omega), hentry]

theorem args_length (k : CCore) (x : Nat) (fp : BitVec 3) : (k.args x fp).regs.length = 64 := by
  simp only [CCore.args, setCell_length]
  rfl

theorem program_eq (k : CCore) (q x : Nat) (fp : BitVec 3) :
    k.program q x fp = ((k.args x fp).setCell 8 { kind := .f32 (BitVec.ofNat 32 (q % 256)) 0, rel := 0 }).setCell 9
      { kind := .f32 (BitVec.ofNat 32 (bits x 127 96)) 0, rel := 0 } := by
  have hargs : ∀ u : ISet, ((((k.entry x fp).write u 0 (.form64 (BitVec.ofNat 64 (bits x 383 (383 - 63))) 0)).write u 2
      (.form64 (BitVec.ofNat 64 (bits x 319 (319 - 63))) 0)).write u 4
      (.form64 (BitVec.ofNat 64 (bits x 255 (255 - 63))) 0)).write u 6
      (.form64 (BitVec.ofNat 64 (bits x 191 (191 - 63))) 0) = k.args x fp := by
    intro u
    have hs : (k.entry x fp).span = true := rfl
    rw [span_write64 hs, span_write64 (by exact hs), span_write64 (by exact hs), span_write64 (by exact hs)]
    rfl
  have hs : (k.args x fp).span = true := rfl
  have h8 := args_cells k x fp 8 (by decide) (by decide)
  have h9 := args_cells k x fp 9 (by decide) (by decide)
  have hkind : (RegCell.uniform 0).kind = .f32 0 0 := rfl
  unfold CCore.program
  refine (congrArg (fun g : Grp => (g.write (ISet.start 0) 8 (.form (BitVec.ofNat 32 (q % 256)) 0)).write (ISet.start 0) 9
    (.form (BitVec.ofNat 32 (bits x 127 96)) 0)) (hargs (ISet.start 0))).trans ?_
  rw [span_write32 hs, unpair_of_f32 (r := 8) (h8 ▸ hkind) (h9 ▸ hkind), span_write32 (by exact hs),
    unpair_of_f32 (r := 9) (b := BitVec.ofNat 32 (q % 256)) (t := 0) (c := 0) (v := 0)]
  · rw [cell_setCell_same (by rw [args_length]; decide)]
  · rw [cell_setCell_ne (by decide), h9, hkind]

/-- The register file of a command program's thread, as its entry writes it. -/
theorem program_cells (k : CCore) (q x : Nat) (fp : BitVec 3) :
    let g := k.program q x fp
    (∀ i, i < 4 → (g.cell (2 * i)).kind = .f64 (BitVec.ofNat 64 (bits x (383 - 64 * i) (383 - 64 * i - 63))) 0 ∧
      (g.cell (2 * i + 1)).kind = .f64hi) ∧
    (g.cell 8).kind = .f32 (BitVec.ofNat 32 (q % 256)) 0 ∧ (g.cell 9).kind = .f32 (BitVec.ofNat 32 (bits x 127 96)) 0 := by
  have hlen := args_length k x fp
  have hentry : (k.entry x fp).regs.length = 64 := rfl
  dsimp only
  rw [program_eq]
  refine ⟨fun i hi => ?_, ?_, ?_⟩
  · rw [cell_setCell_ne (by omega), cell_setCell_ne (by omega), cell_setCell_ne (by omega), cell_setCell_ne (by omega)]
    unfold CCore.args
    interval_cases i <;> simp [hentry]
  · rw [cell_setCell_ne (by decide), cell_setCell_same (by rw [hlen]; decide)]
  · rw [cell_setCell_same (by rw [setCell_length, hlen]; decide)]

theorem val64_of_pair {g : Grp} {r : Nat} {b : W64} (hlo : (g.cell r).kind = .f64 b 0) (hhi : (g.cell (r + 1)).kind = .f64hi)
    (l : Nat) : g.val64 r l = b := by
  unfold Grp.val64 Grp.val
  rw [hlo, hhi]
  dsimp only
  rw [Nat.add_sub_cancel, hlo]
  dsimp only
  rw [formVal64_zero]
  exact pair64_halves b

theorem program_grp (k : CCore) (q x : Nat) (fp : BitVec 3) :
    let g := k.program q x fp
    let word (hi : Nat) : W64 := BitVec.ofNat 64 (bits x hi (hi - 63))
    g.span = true ∧ g.lo = 0 ∧ g.hi = 1 ∧ g.stq = k.grp.stq ∧ (∀ l ∈ g.lanes, l.stack = [] ∧ l.fpctl = fp) ∧
    (∃ u, g.units = [u] ∧ u.pc = word 447 ∧ u.stat = .ready) ∧
    g.val64 0 0 = word 383 ∧ g.val64 2 0 = word 319 ∧ g.val64 4 0 = word 255 ∧ g.val64 6 0 = word 191 ∧
    g.val 8 0 = BitVec.ofNat 32 (q % 256) ∧ g.val 9 0 = BitVec.ofNat 32 (bits x 127 96) := by
  intro g word
  obtain ⟨hpairs, h8, h9⟩ := program_cells k q x fp
  have hval : ∀ i, i < 4 → g.val64 (2 * i) 0 = BitVec.ofNat 64 (bits x (383 - 64 * i) (383 - 64 * i - 63)) :=
    fun i hi => val64_of_pair (hpairs i hi).1 (hpairs i hi).2 0
  have hsingle : ∀ (n : Nat) (b : W32), (g.cell n).kind = .f32 b 0 → g.val n 0 = b := by
    intro n b hn
    unfold Grp.val
    rw [hn]
    exact formVal_zero b 0
  have hg : g = _ := program_eq k q x fp
  refine ⟨by rw [hg]; rfl, by rw [hg]; rfl, by rw [hg]; rfl, by rw [hg]; rfl, fun l hl => ?_, ⟨ISet.start (word 447),
    by rw [hg]; rfl, rfl, rfl⟩, hval 0 (by decide), hval 1 (by decide), hval 2 (by decide), hval 3 (by decide),
    hsingle 8 _ h8, hsingle 9 _ h9⟩
  rw [hg] at hl
  obtain rfl : l = { lane := 0, stack := [], fpctl := fp, flight := [] } := List.mem_singleton.mp hl
  exact ⟨rfl, rfl⟩

theorem crossQueueFenceDone_run {s : State} {k : CCore} {m q : Nat} {seq n : W32} (hk : s.cc? k.num = some k)
    (hcmd : k.cmd = some ⟨m, seq, some (q, n)⟩) :
    (((s.queue q).done - n).toNat < 2 ^ 31 → s.ccQuiet k = true →
      exec (.crossQueueFenceDone k.num) s = .next (s.commandDone k.num)) ∧
    (2 ^ 31 ≤ ((s.queue q).done - n).toNat → exec (.crossQueueFenceDone k.num) s = .next s) := by
  have hrun : exec (.crossQueueFenceDone k.num) s = .next
      (if decide (((s.queue q).done - n).toNat < 2 ^ 31) && s.ccQuiet k then s.commandDone k.num else s) := by
    show execCrossQueueFenceDone k.num s = _
    unfold execCrossQueueFenceDone
    rw [hk]
    dsimp only
    rw [hcmd]
  rw [hrun]
  refine ⟨fun hlt hquiet => ?_, fun hle => ?_⟩
  · rw [decide_eq_true hlt, hquiet]
    rfl
  · rw [decide_eq_false (Nat.not_lt.mpr hle)]
    rfl

/-! ### O47: invalidations (R319, R330) -/

theorem tlbInvalidate_run (s : State) (part : Nat) (v : W64) :
    (bits v.toNat 47 46 = 3 → exec (.tlbInvalidate part v) s = .next s) ∧
    (bits v.toNat 47 46 ≠ 3 →
      let w := v &&& BitVec.ofNat 64 0xFFFFC1FFFFFFFFFF
      exec (.tlbInvalidate part v) s = .next (s.onXreg part fun x => { x with tlbi := w, pend := x.pend ++ [w] })) :=
  ⟨fun h => congrArg Host.Outcome.next (if_pos h), fun h => congrArg Host.Outcome.next (if_neg h)⟩

theorem tlbCovered_iff (part : Nat) (v : W64) (z : TlbE) : tlbCovered part v z = true ↔ (z.part = part ∧
    let ctx := BitVec.ofNat 16 (bits v.toNat 63 48)
    let page := bits v.toNat 40 0
    let leaf : Prop := bit z.entry.toNat 1 = false ∨ z.level = 5
    (bits v.toNat 47 46 = 0 → z.ctx = ctx ∧ (¬leaf ∨ z.va / 2 ^ 16 = page ∨ (z.level = 2 ∧ z.va / 2 ^ 29 = page / 2 ^ 13) ∨
      (z.level = 3 ∧ z.va / 2 ^ 42 = page / 2 ^ 26) ∨ (z.level = 4 ∧ z.va / 2 ^ 55 = page / 2 ^ 39) ∨
      (z.level = 1 ∧ z.va / 2 ^ 21 = page / 2 ^ 5 ∧ bit z.entry.toNat 6 = true))) ∧
    (bits v.toNat 47 46 = 1 → z.ctx = ctx)) := by
  have hbit : ∀ n, bits z.entry.toNat n n = 1 ↔ bit z.entry.toNat n = true := by
    intro n
    simp [bits, bit]
  unfold tlbCovered
  dsimp only
  rw [Bool.and_eq_true, beq_iff_eq]
  refine and_congr_right fun _ => ?_
  split
  next h =>
    have hleaf : ¬(bit z.entry.toNat 1 = false ∨ z.level = 5) ↔ z.level ≠ 5 ∧ bit z.entry.toNat 1 = true := by
      rw [not_or, Bool.not_eq_false, and_comm]
    simp only [h, hleaf, Bool.and_eq_true, Bool.or_eq_true, decide_eq_true_eq, beq_iff_eq, hbit, or_assoc, forall_const,
      zero_ne_one, false_imp_iff, and_true]
  next h =>
    rw [h]
    simp
  next h0 h1 => exact iff_of_true rfl ⟨fun h => absurd h h0, fun h => absurd h h1⟩

/-- The state behind a completed invalidation. -/
def State.invalidated (s : State) (part : Nat) (v : W64) : State :=
  let gone := s.tlb.filter (tlbCovered part v)
  let keep (r : Scan) : Bool := !gone.any fun t => t.covers r.frame
  { s.onXreg part fun x => { x with pend := x.pend.drop 1, tlbiDone := x.tlbiDone + 1 } with
    tlb := s.tlb.filter fun t => !tlbCovered part v t
    dies := mapIf (fun d => s.partOf d.num == part) (fun (d : Die) => { d with scan := d.scan.filter keep }) s.dies }

theorem invalidated_scans {s : State} {part : Nat} {v : W64} {d : Die} (hd : d ∈ (s.invalidated part v).dies)
    (hpart : s.partOf d.num = part) {y : Scan} (hy : y ∈ d.scan) {z : TlbE} (hz : z ∈ s.tlb)
    (hcov : tlbCovered part v z = true) : z.covers y.frame = false := by
  obtain ⟨x, -, rfl⟩ := List.mem_map.mp hd
  by_cases hx : (s.partOf x.num == part) = true
  · rw [if_pos hx] at hy
    have hkeep := (List.mem_filter.mp hy).2
    rw [Bool.not_eq_true', List.any_eq_false] at hkeep
    exact Bool.eq_false_iff.mpr (hkeep z (List.mem_filter.mpr ⟨hz, hcov⟩))
  · rw [if_neg hx] at hpart
    exact absurd (beq_iff_eq.mpr hpart) hx

theorem invalidationComplete_run {s : State} {part : Nat} {v : W64} {r : List W64}
    (hp : (nth s.xregs part ⟨0, 0, 0, []⟩).pend = v :: r) :
    ((∃ y ∈ s.outstanding, s.tlbiWaitsFor part v y = true) → exec (.invalidationComplete part) s = .next s) ∧
    ((∀ y ∈ s.outstanding, s.tlbiWaitsFor part v y = false) →
      exec (.invalidationComplete part) s = .next (s.invalidated part v)) := by
  have hrun : exec (.invalidationComplete part) s = .next
      (if s.outstanding.any (s.tlbiWaitsFor part v) then s else s.invalidated part v) := by
    show execInvalidationComplete part s = _
    unfold execInvalidationComplete
    rw [hp]
    rfl
  rw [hrun]
  exact ⟨fun hw => congrArg Host.Outcome.next (if_pos (List.any_eq_true.mpr hw)),
    fun hno => congrArg Host.Outcome.next (if_neg (by simpa using hno))⟩

/-! ### O47: what the clauses say, from the lemmas above -/

theorem trapEntry_outcome (q : Who) (s : State) (e : Env) (r : TrapReq) (he : s.env? q = some e)
    (hr : e.unit.stat = .trapHeld r) :
    let mine := e.grp.lo + e.first
    let kernel : Prop := ∃ b g l, e.who = .kern b g l
    let taken : Prop := ∃ c ∈ s.traps, c.core = e.core ∧ c.part = e.part
    let first : Prop := ∀ y ∈ s.trapQueue e.core e.part, r.pos < y.1.pos ∨ (r.pos = y.1.pos ∧ mine ≤ y.2.1)
    let landing : Prop := ∃ a ∈ s.atoms, a.bid = e.bid ∧ ∃ p ∈ e.members, e.idx p = a.idx
    let u : ISet := { e.unit with stat := .ready }
    ((kernel → ¬taken ∧ first) → ¬landing → exec (.trapEntry q) s = .next ((s.onUnit q fun u => { u with stat := .ready }).enterTrap
      { e with unit := u, grp := (e.grp.onLanes e.unit fun l => { l with flight := [] }).setUnit u } r)) ∧
    ((kernel ∧ (taken ∨ ¬first)) ∨ landing → exec (.trapEntry q) s = .next s) := by
  intro mine kernel taken first landing u
  have hfree : s.trapFree e r = true ↔ (kernel → ¬taken ∧ first) := trapFree_iff s e r
  have hlands : s.landing e = true ↔ landing := landing_iff s e
  rw [trapEntry_word s q e r he hr]
  refine ⟨fun hf hl => congrArg Host.Outcome.next (if_neg ?_), fun h => congrArg Host.Outcome.next (if_pos ?_)⟩
  · rw [hfree.mpr hf, Bool.eq_false_iff.mpr (mt hlands.mp hl)]
    decide
  · rcases h with ⟨hk, hno⟩ | hl
    · have hbusy : s.trapFree e r = false := Bool.eq_false_iff.mpr fun ht => by
        obtain ⟨hnt, hf⟩ := hfree.mp ht hk
        exact hno.elim hnt fun h => h hf
      rw [hbusy]
      rfl
    · rw [hlands.mpr hl, Bool.or_true]

theorem replay_outcome (s : State) (part : Nat) (ctx : BitVec 16) : ∃ t, exec (.replay part ctx) s = .next t ∧
    t.xregs = (s.onXreg part fun x => { x with rplCtx := ctx }).xregs ∧ t.mem = s.mem ∧ t.blocks.length = s.blocks.length ∧
    ∀ (k : Nat) (b b' : Block), s.blocks[k]? = some b → t.blocks[k]? = some b' →
      ((∀ l, s.launch? b.lid = some l → ¬(l.ctx.ctxid = ctx ∧ l.ctx.part = part)) → b' = b) ∧
      ∀ l, s.launch? b.lid = some l → l.ctx.ctxid = ctx → l.ctx.part = part →
        (∀ (i : Nat) (g : Grp), b.groups[i]? = some g → ∃ g' : Grp, b'.groups[i]? = some g' ∧ g' = { g with units := g'.units } ∧
          ∀ (j : Nat) (u : ISet), g.units[j]? = some u →
            g'.units[j]? = some (if u.stat = .dataFault 1 ∨ u.stat = .dataFault 2 ∨ u.stat = .dataFault 3 then { u with stat := .ready }
              else u)) ∧
        ∀ (i : Nat) (r : EReq), b.eng[i]? = some r →
          b'.eng[i]? = some (if r.fault = some 1 ∨ r.fault = some 2 ∨ r.fault = some 3 then { r with fault := none } else r) := by
  refine ⟨s.replay part ctx, rfl, rfl, rfl, by rw [replay_blocks]; exact List.length_map .., fun k b b' hb hb' => ?_⟩
  obtain ⟨hother, hown⟩ := replay_context hb hb'
  refine ⟨hother, fun l hl hc hp => ?_⟩
  obtain rfl := hown l hl hc hp
  exact ⟨fun i g hg => retried_groups hg, fun i r hr => retried_eng hr⟩

theorem pageScan_outcome (s : State) (die frame : Nat) :
    let able : Prop := s.bring.up 5 = true ∧ isFabric (4096 * frame) = false ∧ s.usable die (4096 * frame) = true ∧
      ∃ x ∈ s.tlb, x.part = s.partOf die ∧ bit x.entry.toNat 4 = true ∧ x.covers frame = true
    let words := (upto 0 1024).map fun i => s.homeNat (4096 * frame + 4 * i) 4
    (¬able ∨ (∃ r ∈ (s.die die).scan, r.frame = frame) → exec (.pageScan die frame) s = .next s) ∧
    (able → (∀ r ∈ (s.die die).scan, r.frame ≠ frame) →
      exec (.pageScan die frame) s = .next (s.onDie die fun d => { d with scan := d.scan ++ [scanFrame frame words] })) := by
  intro able words
  have hable := pageScan_able s die frame
  refine ⟨fun h => congrArg Host.Outcome.next ?_, fun ha hnew => congrArg Host.Outcome.next ?_⟩
  · by_cases ha : able
    · exact (if_pos (hable.mpr ha)).trans (scanOf_held (h.resolve_left (not_not.mpr ha)))
    · exact if_neg (mt hable.mp ha)
  · exact (if_pos (hable.mpr ha)).trans (scanOf_new hnew)

theorem scanStep_outcome (a : ScanAcc) (p w last left sw : Nat) (run : Bool) :
    let kind := bits w 31 26
    let own := a.own p w
    let stops (code : Nat) : Prop := a.step p w = { a with mode := .stopped, bad := (p, code) :: own }
    let len := bits w 25 16
    let n := bits w 25 21
    let entries := bits w 17 8 + 1
    let op := bits w 27 24
    (a.mode = .stopped → a.step p w = a) ∧
    (a.mode = .pad → (w = 0 → a.step p w = a) ∧
      (w ≠ 0 → stops 13)) ∧
    (a.mode = .seg → (w = 0 → a.step p w = { a with mode := .pad }) ∧ (w ≠ 0 → kind ≠ 0x38 → stops 6) ∧
      (kind = 0x38 → 1024 ≤ p + len → a.step p w = { a with mode := .stopped, bad := (p, 7) :: a.bad }) ∧
      (kind = 0x38 → p + len < 1024 → p ≠ 1023 →
        a.step p w = { a with mode := .body (p + len) false, starts := p :: a.starts })) ∧
    (a.mode = .body last run → kind = 0x39 → (n = 0 ∨ 24 < n ∨ last ≤ p + n → stops 8) ∧
      (1 ≤ n → n ≤ 24 → p + n < last → a.step p w = { a with mode := .run n last, bad := own })) ∧
    (a.mode = .body last false → kind ≠ 0x39 → stops 8) ∧
    (a.mode = .body last true → kind ≠ 0x39 →
      (bits w 31 28 ≠ 12 ∨ (op ≠ 8 ∧ p ≠ last) ∨ (op = 8 ∧ p + entries < last) → stops 9) ∧
      (bits w 31 28 = 12 → op = 8 → last < p + entries → stops 12) ∧
      (bits w 31 28 = 12 → op = 8 → p + entries = last → a.step p w = { a with mode := .table entries p last, bad := own }) ∧
      (bits w 31 28 = 12 → op ≠ 8 → p = last →
        a.step p w = { a with mode := .seg, bad := own, targets := termGoals p w ++ a.targets
                              after := termAfter p w ++ a.after })) ∧
    (a.mode = .run left last → (bits w 31 28 = 14 ∨ bits w 31 28 = 12 → stops 8) ∧
      (bits w 31 28 ≠ 14 → bits w 31 28 ≠ 12 →
        a.step p w = { a with mode := if left = 1 then .body last true else .run (left - 1) last, bad := own })) ∧
    (a.mode = .table left sw last → a.step p w = { a with
      mode := if left = 1 then .seg else .table (left - 1) sw last, targets := (p, (sw : Int) + sext 32 w) :: a.targets }) := by
  intro kind own stops len n entries op
  refine ⟨fun h => ?_, fun h => ⟨fun h0 => ?_, fun h0 => ?_⟩, fun h => a.step_seg h p w, fun h hk => a.step_runh h hk,
    fun h hk => a.step_unrun h hk, fun h hk => ?_, fun h => ⟨fun hc => ?_, fun h14 h12 => ?_⟩, fun h => ?_⟩
  · unfold ScanAcc.step
    rw [h]
  · rw [a.step_pad h, if_pos h0]
  · exact (a.step_pad h p w).trans (if_neg h0)
  · have hterm := a.step_term h hk (p := p)
    refine ⟨fun hc => hterm.trans ?_, fun h12 h8 hlt => hterm.trans ?_, fun h12 h8 heq => hterm.trans ?_,
      fun h12 h8 hlast => hterm.trans ?_⟩
    · by_cases h12 : bits w 31 28 = 12
      · rw [if_neg (not_not.mpr h12)]
        rcases hc with hc | ⟨h8, hp⟩ | ⟨h8, hlt⟩
        · exact absurd h12 hc
        · rw [if_neg h8, if_pos hp]
        · rw [if_pos h8, if_neg (Nat.not_lt.mpr (Nat.le_of_lt hlt)), if_pos hlt]
      · exact if_pos h12
    · rw [if_neg (not_not.mpr h12), if_pos h8, if_pos hlt]
    · rw [if_neg (not_not.mpr h12), if_pos h8, if_neg (by omega), if_neg (by omega)]
    · rw [if_neg (not_not.mpr h12), if_neg h8, if_neg (not_not.mpr hlast)]
  · exact (a.step_run h p w).trans (if_pos hc)
  · exact (a.step_run h p w).trans (if_neg (by omega))
  · unfold ScanAcc.step
    rw [h]

theorem pend_outcome (s t : State) (i : Nat) (p : PendRec) (hp : s.pend[i]? = some p) :
    let goes := t.unpend i p
    (p.isReport = false → (∀ y ∈ s.pend.take i, y.isReport = false → y.ctx.desc ≠ p.ctx.desc) →
      (s.recPut p.ctx p.data.toNat = .done t → exec (.faultRecordWrite i) s = .next goes) ∧
      (s.recPut p.ctx p.data.toNat = .moved t → exec (.faultRecordWrite i) s = .next t) ∧
      (s.recPut p.ctx p.data.toNat = .stuck → exec (.faultRecordWrite i) s = .next s)) ∧
    (p.isReport = false → (∃ y ∈ s.pend.take i, y.isReport = false ∧ y.ctx.desc = p.ctx.desc) →
      exec (.faultRecordWrite i) s = .next s) ∧
    (p.isReport = true →
      (∀ y ∈ s.pend.take i, y.isReport = true → y.ctx.mbox ≠ p.ctx.mbox ∧ s.reportPut y.ctx y.data.toNat = .stuck) →
      (s.reportPut p.ctx p.data.toNat = .done t → exec .report s = .next goes) ∧
      (s.reportPut p.ctx p.data.toNat = .moved t → exec .report s = .next t)) := by
  refine ⟨fun hk hfirst => ?_, fun _ h => faultRecordWrite_behind hp h, fun hk hfirst => ?_⟩
  · rw [faultRecordWrite_first hp hk hfirst]
    refine ⟨fun h => ?_, fun h => ?_, fun h => ?_⟩ <;> rw [h] <;> rfl
  · refine ⟨fun h => ?_, fun h => ?_⟩ <;> rw [report_first hp hk hfirst (by rw [h]; exact Put.noConfusion), h] <;> rfl

theorem partWrite_cards {a : Nat} (h : isDram a = true) (s : State) (p : Nat) (bs : List Byte) :
    (s.partWrite p a bs).cards = s.cards := by
  have hmem : (s.memWrite a bs).cards = s.cards := by
    unfold State.memWrite State.mailboxWake
    split <;> rfl
  unfold State.partWrite
  split
  · unfold State.devWrite
    dsimp only
    rw [homeWrite_dram h]
    exact hmem
  · rfl

theorem postcard_outcome (s : State) (i : Nat) (c : CardReq) (hc : s.cards[i]? = some c) :
    let part := c.ctx.part
    let ring := s.partNat part (c.ctx.mbox + 40) 8
    let prod := s.partNat part (c.ctx.mbox + 36) 4
    let slot := bits ring 51 12 * 4096 + 64 * (prod % 2 ^ bits ring 4 0)
    let full : Prop := wrap 32 ((prod : Int) - s.partNat part (c.ctx.mbox + 32) 4) = 2 ^ bits ring 4 0
    let off : Prop := bits (s.partNat part c.ctx.mbox 1) 7 4 = 0
    (s.unperformed c = true → exec (.postcard i) s = .next s) ∧
    (s.unperformed c = false → (∀ x ∈ s.rings, ¬(x.part = part ∧ x.prod = c.ctx.mbox + 36)) →
      (off ∨ full → exec (.postcard i) s = .next { s with cards := dropAt s.cards i }) ∧
      (¬off → ¬full → isDram slot = true → isDram (c.ctx.mbox + 36) = true →
        let w : State := (s.partWrite part slot (leBytes 64 c.image)).partWrite part (c.ctx.mbox + 36) (leBytes 4 (prod + 1))
        exec (.postcard i) s = .next { w with cards := dropAt s.cards i })) := by
  intro part ring prod slot full off
  refine ⟨postcard_waits hc, fun hp hfree => ?_⟩
  rw [postcard_free hc hp hfree]
  refine ⟨fun h => ?_, fun hoff hfull hslot hprod => ?_⟩
  · by_cases hoff : off
    · rw [if_pos hoff]
    · rw [if_neg hoff]
      have hput := slotPut_full (s := s) (slot := slot) (size := 64) (data := c.image) (next := leBytes 4 (prod + 1)) hfree
        (beq_iff_eq.mpr (h.resolve_left hoff))
      unfold State.ringPut
      rw [hput]
  · rw [if_neg hoff]
    have hput := slotPut_dram (s := s) (slot := slot) (size := 64) (data := c.image) (next := leBytes 4 (prod + 1)) hfree
      (beq_eq_false_iff_ne.mpr hfull) hslot hprod
    unfold State.ringPut
    rw [hput]
    dsimp only
    rw [partWrite_cards hprod, partWrite_cards hslot]

theorem dataFault_outcome (s : State) (e : Env) (b : Block) (l : Launch) (n i k level acc : Nat) (addr : W64) (ps : List Nat)
    (hw : e.who = .kern n i k) (hhalf : e.unit.half = none) (hb : s.block? e.bid = some b) (hl : e.launch = some l)
    (hlaunch : s.launch? b.lid = some l) :
    let r (kind : Nat) := e.fault kind level acc addr.toNat ps
    let busy : Prop := ∃ p ∈ s.pend, p.ctx.desc = l.ctx.desc ∧ p.isReport = false
    let kept (x : Nat) (who : Option Who) (ends : Option (Nat × Ending)) : State :=
      { s with pend := s.pend ++ [⟨l.ctx, false, BitVec.ofNat 512 x, who, ends⟩] }
    (∀ kind, (r kind).num = e.num ∧ (r kind).word = e.unit.pc.toNat ∧ (r kind).addr = addr.toNat ∧ (r kind).kind = kind ∧
      (r kind).level = level ∧ (r kind).acc = acc ∧ (r kind).die = e.die ∧ (r kind).who = e.named ps ∧
      (0 < e.unit.left ∨ isSegh e.unit.word = false → (r kind).seg = e.unit.seg.toNat)) ∧
    (∀ kind, kind = 4 ∨ kind = 8 → s.dataFault e kind level acc addr ps = s.endFault b (r kind)) ∧
    (s.dataFault e 9 level acc addr ps = s.storageEnd b { r 9 with level := 0 }) ∧
    (∀ kind, kind = 1 ∨ kind = 2 ∨ kind = 3 →
      (∀ t, ¬busy → s.recPut l.ctx ((r kind).image l) = .done t →
        s.dataFault e kind level acc addr ps = t.onUnit e.who fun u => { u with stat := .dataFault kind }) ∧
      (busy ∨ s.recPut l.ctx ((r kind).image l) = .stuck →
        s.dataFault e kind level acc addr ps =
          (kept ((r kind).image l) (some e.who) none).onUnit e.who fun u => { u with stat := .ringWait })) ∧
    ∀ q : Rec,
      (∀ t, ¬busy → s.recPut l.ctx (q.image l) = .done t → s.endFault b q = t.endBlock b.bid .policy) ∧
      (busy ∨ s.recPut l.ctx (q.image l) = .stuck → ∃ t, s.endFault b q = t ∧
        t.pend = (kept (q.image l) none (some (b.bid, .policy))).pend ∧ t.mem = s.mem ∧
        ∀ y ∈ t.blocks, y.lid = b.lid → y.num = b.num → y.st ≠ .ended → y.satchel = [] ∧ y.commit = none ∧
          ∀ g ∈ y.groups, ∀ u ∈ g.units, u.stat = .ringWait) := by
  intro r busy kept
  have hbusy : s.behind l.ctx = true ↔ busy := behind_iff s l.ctx
  have hidle : ¬busy → s.behind l.ctx = false := fun h => Bool.eq_false_iff.mpr (mt hbusy.mp h)
  refine ⟨fun kind => fault_fields .., fun kind hk => ?_, ?_, fun kind hk => ?_, fun q => ?_⟩
  · rw [dataFault_eq hw hhalf hb hl, if_neg (by omega), if_pos hk]
  · rw [dataFault_eq hw hhalf hb hl, if_pos rfl]
    rfl
  · obtain ⟨hdone, hwaits⟩ := dataFault_waits (level := level) (acc := acc) (addr := addr) (ps := ps) hw hhalf hb hl kind hk
    exact ⟨fun t hno => hdone t (hidle hno), fun h => hwaits (h.imp_left hbusy.mpr)⟩
  · obtain ⟨hdone, hwaits⟩ := endFault_record hlaunch q
    exact ⟨fun t hno => hdone t (hidle hno), fun h => ⟨_, rfl, hwaits (h.imp_left hbusy.mpr)⟩⟩

/-- Settles O47: each clause from the lemmas about the walk of a frame, rings, records, queues and invalidations. -/
theorem queueAndFaultEvents : Obligations.QueueAndFaultEvents := by
  unfold Obligations.QueueAndFaultEvents
  refine ⟨trapEntry_outcome, replay_outcome, pageScan_outcome, fun frame ws => ?_, scanStep_outcome, fun s c data => ?_,
    pend_outcome, fun s h => report_none h, recImage_fields, reportImage_fields, dataFault_outcome, recPut_outcome,
    report_outcome, fun s part unit inst => snapshotLatch_run part unit inst s, fun s i c hc => ?_,
    fun s q v x hq => ?_, fun s p v c hp => ?_, fun s a bs => registerWrite_other s,
    fun s q o bs cs => registerWrite_append s, fun s k q w r hk hcmd htrap hup hq hrecs => ?_, program_grp,
    fun s k m q seq n => crossQueueFenceDone_run, fun s c => rfl, tlbInvalidate_run, fun s part v r hp => ?_⟩
  · obtain ⟨hnone, hsome⟩ := scanFrame_verdict frame ws
    exact ⟨rfl, rfl, hnone, hsome⟩
  · refine ⟨fun hf => (faultPut_ring s c data hf).1, fun hf => (faultPut_ring s c data hf).2.1,
      fun hf => (faultPut_ring s c data hf).2.2, fun hf => (reportPut_ring s c data hf).1,
      fun hf => (reportPut_ring s c data hf).2, fun r prod full slot next size hr => slotPut_begun hr⟩
  · obtain ⟨hwait, hfree⟩ := postcard_outcome s i c hc
    refine ⟨hwait, fun hp hr => ⟨(hfree hp hr).1, fun hoff hfull hslot hprod hseq hdie hacc hidx => ?_⟩⟩
    obtain ⟨h1, h2, h3, h4, h5, h6, h7, h8, h9⟩ := postcard_fields c hseq hdie hacc hidx
    exact ⟨c.image, h1, h2, h3, h4, h5, h6, h7, h8, h9, (hfree hp hr).2 hoff hfull hslot hprod⟩
  · exact ⟨queuePost_same hq, queuePost_new hq, queueEnable_kept hq x, queueEnable_observed hq x,
      registerWrite_queue s hq x⟩
  · exact ⟨registerWrite_tlbi s hp v, registerWrite_replay s hp c, registerWrite_lctl s hp v⟩
  · refine ⟨programCommand_bad hk hcmd htrap hup hq hrecs, fun c => programCommand_starts hk hcmd htrap hup hq hrecs,
      fun hg ha hc => ⟨fun hkind => ?_, fun hkind => ?_⟩, crossQueueFence_outside hk hcmd htrap hup hq hrecs,
      crossQueueFence_starts hk hcmd htrap hup hq hrecs⟩
    · exact congrArg Host.Outcome.next (serve_no_context hk hcmd htrap hup hq hrecs hg hkind ha hc)
    · exact congrArg Host.Outcome.next (serve_no_context hk hcmd htrap hup hq hrecs hg hkind ha hc)
  · obtain ⟨hwait, hdone⟩ := invalidationComplete_run hp
    exact ⟨hwait, fun hno => ⟨s.invalidated part v, hdone hno, rfl, rfl, rfl,
      fun d hd hpart y hy z hz hcov => invalidated_scans hd hpart hy hz hcov, tlbCovered_iff part v⟩⟩

end Sys2Proof.Machine
end

