-- ==== Sys2Proof/Proofs/SpecialInputs.lean ====
section
/-! PROOF. The conversions by their row (R214), the special inputs of the transcendentals (R84) and the conversion to an integer (R72). -/

namespace Sys2Proof.Machine

/-! ### O10: the words (R198, R210 to R214) -/

theorem fin_unflushed {f : Fmt} (h : f.flushes = false) (ftz : Bool) (x : Nat) : f.fin ftz x = f.value x := by
  unfold Fmt.fin
  rw [h, Bool.and_false, Bool.false_and, if_neg Bool.false_ne_true]

/-- A conversion that does not read FPCTL is one from FP64 or from an integer to an integer. -/
theorem cvtVal_unread {code : CvtOp} (h : cvtReadsFp code = false) (inf : Bool) (c c' : BitVec 3) (x : Nat) :
    cvtVal code inf c x = cvtVal code inf c' x := by
  unfold cvtReadsFp at h
  unfold cvtVal
  split at h
  next => cases h
  next f ty rm hsh =>
    obtain rfl : f = .f64 := by simpa using h
    rw [hsh]
    simp only [CvtSrc.value, fin_unflushed (f := .f64) rfl]
  next sh hfp hint =>
    rcases hsh : cvtShape code with ⟨src, dst⟩
    rw [hsh] at hfp hint
    cases dst with
    | fp f => exact absurd rfl (hfp src f)
    | narrow w => rfl
    | int ty rm =>
      cases src with
      | fp f => exact absurd rfl (hint f ty rm)
      | int sg w => rfl

theorem cvt_row (d a : RegN) (ka inf : Bool) (st : BitVec 2) (code : CvtOp) :
    LaneRow (.cvt d a code ka inf st) 4 d (cvtShape code).2.wide (cvtReadsFp code) [(a.toNat, (cvtShape code).1.wide)]
      (lastUse ka (cvtShape code).1.wide a) st (fun _ m l =>
        let v := (cvtShape code).1.value (ftzOf m) (nth l 0 0)
        match (cvtShape code).2 with
        | .fp f => f.convert (ftzOf m) (rmOf m) inf v
        | .int ty rm => wrap 64 (v.toInt rm ty)
        | .narrow w => wrap w (sat (sext 32 (nth l 0 0)) (-(2 ^ (w - 1))) (2 ^ (w - 1) - 1))) := by
  refine laneRow_of_lane (f := fun _ m l => cvtVal code inf m (nth l 0 0)) (fun s => ?_) fun h _ m m' l =>
    cvtVal_unread h inf m m' _
  show execCvt d a code ka inf st s = _
  simp only [execCvt, headD_eq_nth]

/-! ### O10: the special inputs of R84 -/

theorem tableRound_zero (ftv : Nat) (ftz s : Bool) : tableRound .f32 ftv ftz (.fin s 0 0) = Fmt.f32.signed s 0 := by
  unfold tableRound
  dsimp only
  rw [if_neg (fun h => h.1 rfl)]
  by_cases hv : ftv = 1
  · rw [if_pos hv]
    revert ftz s
    decide
  · rw [if_neg hv]
    revert ftz s
    decide

theorem tableRound_one (ftv : Nat) (ftz s : Bool) : tableRound .f32 ftv ftz (.fin s 1 0) = Fmt.f32.signed s 0x3F800000 := by
  have hcmp : ¬((1 : Nat) ≠ 0 ∧ FV.cmp (Fmt.f32.value Fmt.f32.maxCode) (.fin false 1 0) < 0) := by decide
  unfold tableRound
  dsimp only
  rw [if_neg hcmp]
  by_cases hv : ftv = 1
  · rw [if_pos hv]
    revert ftz s
    decide
  · rw [if_neg hv]
    revert ftz s
    decide

theorem flog2_one (ftv : Nat) (ftz : Bool) : flog2 ftv ftz 0x3F800000 = 0 := by
  have hv : Fmt.f32.fin ftz 0x3F800000 = .fin false (2 ^ 23) (-23) := by
    revert ftz
    decide
  have hlog : log2Val (2 ^ 23) (-23) = .fin false 0 0 := by decide
  unfold flog2
  rw [hv]
  dsimp only
  rw [if_neg (by decide), if_neg Bool.false_ne_true, hlog, tableRound_zero]
  rfl

theorem sinPiVal_integer {s : Bool} {m n : Nat} {e : Int} (h : m * 2 ^ e.toNat = n * 2 ^ (-e).toNat) :
    sinPiVal s m e = .fin s 0 0 := by
  unfold sinPiVal
  by_cases he : 0 ≤ e
  · rw [if_pos he]
  · rw [if_neg he]
    rw [Int.toNat_of_nonpos (by omega), Nat.pow_zero, Nat.mul_one] at h
    have hr : m % (2 * 2 ^ (-e).toNat) % 2 ^ (-e).toNat = 0 := by
      rw [Nat.mod_mul_left_mod, h, Nat.mul_mod_left]
    dsimp only
    rw [if_pos hr]

theorem cosPiVal_integer {m n : Nat} {e : Int} (h : m * 2 ^ e.toNat = n * 2 ^ (-e).toNat) :
    cosPiVal m e = .fin (n % 2 == 1) 1 0 := by
  unfold cosPiVal
  by_cases h1 : 1 ≤ e
  · rw [if_pos h1]
    rw [Int.toNat_of_nonpos (z := -e) (by omega), Nat.pow_zero, Nat.mul_one,
      show e.toNat = (e.toNat - 1) + 1 by omega, Nat.pow_succ, ← Nat.mul_assoc] at h
    rw [← h, Nat.mul_mod_left]
    rfl
  · rw [if_neg h1]
    by_cases h0 : e = 0
    · rw [if_pos h0]
      subst h0
      simp only [Int.toNat_zero, neg_zero, Nat.pow_zero, Nat.mul_one] at h
      rw [h]
    · rw [if_neg h0]
      rw [Int.toNat_of_nonpos (by omega), Nat.pow_zero, Nat.mul_one] at h
      have hd : 0 < 2 ^ (-e).toNat := Nat.two_pow_pos _
      generalize 2 ^ (-e).toNat = d at h hd
      have hr : m % (2 * d) = n % 2 * d := by
        rw [h, Nat.mul_mod_mul_right]
      dsimp only
      rw [hr]
      rcases Nat.mod_two_eq_zero_or_one n with hn | hn <;> rw [hn]
      · simp
      · rw [Nat.one_mul, if_neg (Nat.lt_irrefl d), decide_eq_true (show d < 2 * d by omega)]
        simp

theorem cosPiVal_half {m n : Nat} {e : Int} (h : 2 * m * 2 ^ e.toNat = (2 * n + 1) * 2 ^ (-e).toNat) :
    cosPiVal m e = .fin false 0 0 := by
  have he : e < 0 := by
    by_contra hge
    rw [Int.toNat_of_nonpos (z := -e) (by omega), Nat.pow_zero, Nat.mul_one, Nat.mul_assoc] at h
    omega
  unfold cosPiVal
  rw [if_neg (by omega), if_neg (by omega)]
  rw [Int.toNat_of_nonpos (by omega), Nat.pow_zero, Nat.mul_one, show (-e).toNat = ((-e).toNat - 1) + 1 by omega] at h
  rw [show (-e).toNat = ((-e).toNat - 1) + 1 by omega]
  have hd : 0 < 2 ^ ((-e).toNat - 1) := Nat.two_pow_pos _
  rw [Nat.pow_succ] at h ⊢
  generalize 2 ^ ((-e).toNat - 1) = d at h hd
  have hm : m = n * (2 * d) + d := by nlinarith
  have hr : m % (2 * (d * 2)) = n % 2 * (2 * d) + d := by
    have hsplit : m = n % 2 * (2 * d) + d + 2 * (d * 2) * (n / 2) := by
      have hn := Nat.div_add_mod n 2
      calc m = n * (2 * d) + d := hm
        _ = (2 * (n / 2) + n % 2) * (2 * d) + d := by rw [hn]
        _ = n % 2 * (2 * d) + d + 2 * (d * 2) * (n / 2) := by ring
    have hlt : n % 2 * (2 * d) + d < 2 * (d * 2) := by
      rcases Nat.mod_two_eq_zero_or_one n with hn | hn <;> rw [hn] <;> omega
    rw [hsplit, Nat.add_mul_mod_self_left, Nat.mod_eq_of_lt hlt]
  have hfold : (if d * 2 < n % 2 * (2 * d) + d then 2 * (d * 2) - (n % 2 * (2 * d) + d) else n % 2 * (2 * d) + d) = d := by
    rcases Nat.mod_two_eq_zero_or_one n with hn | hn <;> rw [hn] <;> split <;> omega
  dsimp only
  rw [hr, hfold, decide_eq_false (show ¬d * 2 < 2 * d by omega), if_neg Bool.false_ne_true, if_neg (show d ≠ 0 by omega),
    if_pos (Nat.mul_comm 2 d)]

section
variable {ftv x : Nat} {ftz : Bool}

theorem single_nan (rm : RMode) (h : Fmt.f32.fin ftz x = .nan) :
    fexp2 ftv ftz x = 0x7FC00000 ∧ flog2 ftv ftz x = 0x7FC00000 ∧ rcpOf .f32 ftv ftz x = 0x7FC00000 ∧
    rsqOf .f32 ftv ftz x = 0x7FC00000 ∧ fsqrt rm ftz x = 0x7FC00000 ∧ fsinp ftv ftz x = 0x7FC00000 ∧
    fcosp ftv ftz x = 0x7FC00000 ∧ ftanh ftv ftz x = 0x7FC00000 := by
  simp only [fexp2, flog2, rcpOf, rsqOf, fsqrt, fsinp, fcosp, ftanh, h]
  decide

theorem single_inf (rm : RMode) (h : Fmt.f32.fin ftz x = .inf false) :
    fexp2 ftv ftz x = 0x7F800000 ∧ flog2 ftv ftz x = 0x7F800000 ∧ rcpOf .f32 ftv ftz x = 0 ∧
    rsqOf .f32 ftv ftz x = 0 ∧ fsqrt rm ftz x = 0x7F800000 ∧ fsinp ftv ftz x = 0x7FC00000 ∧
    fcosp ftv ftz x = 0x7FC00000 ∧ ftanh ftv ftz x = 0x3F800000 := by
  simp only [fexp2, flog2, rcpOf, rsqOf, fsqrt, fsinp, fcosp, ftanh, h]
  decide

theorem single_neg_inf (rm : RMode) (h : Fmt.f32.fin ftz x = .inf true) :
    fexp2 ftv ftz x = 0 ∧ flog2 ftv ftz x = 0x7FC00000 ∧ rcpOf .f32 ftv ftz x = 0x80000000 ∧
    rsqOf .f32 ftv ftz x = 0x7FC00000 ∧ fsqrt rm ftz x = 0x7FC00000 ∧ fsinp ftv ftz x = 0x7FC00000 ∧
    fcosp ftv ftz x = 0x7FC00000 ∧ ftanh ftv ftz x = 0xBF800000 := by
  simp only [fexp2, flog2, rcpOf, rsqOf, fsqrt, fsinp, fcosp, ftanh, h]
  decide

theorem single_zero (rm : RMode) {s : Bool} {e : Int} (h : Fmt.f32.fin ftz x = .fin s 0 e) :
    fexp2 ftv ftz x = 0x3F800000 ∧ flog2 ftv ftz x = 0xFF800000 ∧
    rcpOf .f32 ftv ftz x = (if s then 0xFF800000 else 0x7F800000) ∧
    rsqOf .f32 ftv ftz x = (if s then 0xFF800000 else 0x7F800000) ∧ fsqrt rm ftz x = (if s then 0x80000000 else 0) ∧
    ftanh ftv ftz x = (if s then 0x80000000 else 0) := by
  simp only [fexp2, flog2, rcpOf, rsqOf, fsqrt, ftanh, h, reduceIte]
  clear h
  revert s
  decide

theorem single_negative (rm : RMode) {m : Nat} {e : Int} (hm : m ≠ 0) (h : Fmt.f32.fin ftz x = .fin true m e) :
    flog2 ftv ftz x = 0x7FC00000 ∧ rsqOf .f32 ftv ftz x = 0x7FC00000 ∧ fsqrt rm ftz x = 0x7FC00000 := by
  simp only [flog2, rsqOf, fsqrt, h, if_neg hm, reduceIte]
  decide

/-- The special inputs of the two words of 64 bits. -/
theorem double_special :
    (Fmt.f64.value x = .nan → rcpOf .f64 ftv false x = 0x7FF8000000000000 ∧ rsqOf .f64 ftv false x = 0x7FF8000000000000) ∧
    (Fmt.f64.value x = .inf false → rcpOf .f64 ftv false x = 0 ∧ rsqOf .f64 ftv false x = 0) ∧
    (Fmt.f64.value x = .inf true →
      rcpOf .f64 ftv false x = 0x8000000000000000 ∧ rsqOf .f64 ftv false x = 0x7FF8000000000000) ∧
    (∀ s e, Fmt.f64.value x = .fin s 0 e →
      rcpOf .f64 ftv false x = (if s then 0xFFF0000000000000 else 0x7FF0000000000000) ∧
      rsqOf .f64 ftv false x = (if s then 0xFFF0000000000000 else 0x7FF0000000000000)) ∧
    (∀ m e, m ≠ 0 → Fmt.f64.value x = .fin true m e → rsqOf .f64 ftv false x = 0x7FF8000000000000) := by
  have hfin : Fmt.f64.fin false x = Fmt.f64.value x := fin_unflushed rfl false x
  refine ⟨fun h => ?_, fun h => ?_, fun h => ?_, fun s e h => ?_, fun m e hm h => ?_⟩
  · simp only [rcpOf, rsqOf, hfin, h]
    decide
  · simp only [rcpOf, rsqOf, hfin, h]
    decide
  · simp only [rcpOf, rsqOf, hfin, h]
    decide
  · simp only [rcpOf, rsqOf, hfin, h, reduceIte]
    clear h
    revert s
    decide
  · simp only [rsqOf, hfin, h, if_neg hm, reduceIte]
    decide

theorem trig_integer {s : Bool} {m n : Nat} {e : Int} (h : Fmt.f32.fin ftz x = .fin s m e)
    (hn : m * 2 ^ e.toNat = n * 2 ^ (-e).toNat) :
    fsinp ftv ftz x = (if s then 0x80000000 else 0) ∧
    fcosp ftv ftz x = (if n % 2 = 0 then 0x3F800000 else 0xBF800000) := by
  have hpos : ∀ k, 0 < 2 ^ k := Nat.two_pow_pos
  simp only [fsinp, fcosp, h, sinPiVal_integer hn, cosPiVal_integer hn, tableRound_zero, tableRound_one]
  refine ⟨?_, ?_⟩
  · clear h
    split <;> (revert s; decide)
  · by_cases hm : m = 0
    · have h0 : n = 0 := by
        rw [hm, Nat.zero_mul] at hn
        exact (Nat.mul_eq_zero.mp hn.symm).resolve_right (hpos _).ne'
      rw [if_pos hm, h0]
      rfl
    · rw [if_neg hm]
      rcases Nat.mod_two_eq_zero_or_one n with hn | hn <;> rw [hn] <;> decide

theorem fcosp_half {s : Bool} {m n : Nat} {e : Int} (h : Fmt.f32.fin ftz x = .fin s m e)
    (hn : 2 * m * 2 ^ e.toNat = (2 * n + 1) * 2 ^ (-e).toNat) : fcosp ftv ftz x = 0 := by
  have hm : m ≠ 0 := by
    rintro rfl
    rw [Nat.mul_zero, Nat.zero_mul] at hn
    exact absurd (Nat.mul_eq_zero.mp hn.symm) (by simp)
  simp only [fcosp, h, cosPiVal_half hn, tableRound_zero, if_neg hm]
  decide

end

/-! ### O10: conversion to an integer (R72) -/

theorem sat_eq {lo hi : Int} (h : lo ≤ hi) (x : Int) : sat x lo hi = max lo (min x hi) := by
  unfold sat
  split
  · omega
  · split <;> omega

/-- What a cut quotient becomes, in each mode and of each sign, beside the exact one. -/
theorem roundsUp_spec (rm : RMode) (s : Bool) (m sh : Nat) :
    let r := if roundsUp rm s (m / 2 ^ sh) (m % 2 ^ sh) sh then m / 2 ^ sh + 1 else m / 2 ^ sh
    match rm, s with
    | .rz, _ => r = m / 2 ^ sh
    | .rd, false => r = m / 2 ^ sh
    | .ru, true => r = m / 2 ^ sh
    | .rd, true => m ≤ r * 2 ^ sh ∧ r * 2 ^ sh < m + 2 ^ sh
    | .ru, false => m ≤ r * 2 ^ sh ∧ r * 2 ^ sh < m + 2 ^ sh
    | .rn, _ => 2 * m ≤ (2 * r + 1) * 2 ^ sh ∧ 2 * r * 2 ^ sh ≤ 2 * m + 2 ^ sh ∧
      (2 * m = (2 * r + 1) * 2 ^ sh ∨ 2 * r * 2 ^ sh = 2 * m + 2 ^ sh → r % 2 = 0) := by
  have hm := Nat.div_add_mod m (2 ^ sh)
  have hlt := Nat.mod_lt m (Nat.two_pow_pos sh)
  unfold roundsUp
  generalize 2 ^ sh = D at hm hlt ⊢
  generalize m / D = fl at hm ⊢
  generalize m % D = rem at hm hlt ⊢
  subst hm
  have h0 : fl * D = D * fl := Nat.mul_comm ..
  have h1 : (fl + 1) * D = D * fl + D := by ring
  have h2 : (2 * fl + 1) * D = 2 * (D * fl) + D := by ring
  have h3 : (2 * (fl + 1) + 1) * D = 2 * (D * fl) + 3 * D := by ring
  have h4 : 2 * fl * D = 2 * (D * fl) := by ring
  have h5 : 2 * (fl + 1) * D = 2 * (D * fl) + 2 * D := by ring
  generalize D * fl = P at h0 h1 h2 h3 h4 h5 ⊢
  have hceil : rem ≠ 0 → P + rem ≤ (fl + 1) * D ∧ (fl + 1) * D < P + rem + D := fun h => by omega
  have hfloor : rem = 0 → P + rem ≤ fl * D ∧ fl * D < P + rem + D := fun h => by omega
  cases rm with
  | rz => rfl
  | rd =>
    cases s with
    | false => simp
    | true =>
      by_cases h : rem = 0
      · simpa [h] using hfloor h
      · simpa [h] using hceil h
  | ru =>
    cases s with
    | true => simp
    | false =>
      by_cases h : rem = 0
      · simpa [h] using hfloor h
      · simpa [h] using hceil h
  | rn =>
    dsimp only
    by_cases hup : (decide (D < 2 * rem) || (2 * rem == D && fl % 2 == 1)) = true
    · rw [if_pos hup]
      simp only [Bool.or_eq_true, decide_eq_true_eq, Bool.and_eq_true, beq_iff_eq] at hup
      rw [h3, h5]
      omega
    · rw [if_neg hup]
      simp only [Bool.or_eq_true, decide_eq_true_eq, Bool.and_eq_true, beq_iff_eq] at hup
      rw [h2, h4]
      omega

/-- What the rounded integer of ±m · 2^e is, beside the exact quotient. -/
theorem roundInt_spec (rm : RMode) (s : Bool) (m : Nat) (e : Int) :
    let n : Int := (if s then -1 else 1) * (m * 2 ^ e.toNat : Nat)
    let d : Int := (2 ^ (-e).toNat : Nat)
    let q := roundInt rm s m e
    match rm with
    | .rz => q = n.tdiv d
    | .rd => q * d ≤ n ∧ n < (q + 1) * d
    | .ru => (q - 1) * d < n ∧ n ≤ q * d
    | .rn => 2 * (n - q * d).natAbs ≤ d.natAbs ∧ (2 * (n - q * d).natAbs = d.natAbs → q % 2 = 0) := by
  intro n d q
  by_cases he : 0 ≤ e
  · have hd : d = 1 := by
      simp only [d, Int.toNat_of_nonpos (z := -e) (by omega)]
      rfl
    have hq : q = n := by
      simp only [q, n, roundInt, if_pos he, smant]
      cases s <;> simp
    rw [hd, hq]
    cases rm <;> simp
  · have hn : n = (if s then -1 else 1) * (m : Int) := by
      simp only [n, Int.toNat_of_nonpos (show e ≤ 0 by omega), Nat.pow_zero, Nat.mul_one]
    have hq : q = smant s (if roundsUp rm s (m / 2 ^ (-e).toNat) (m % 2 ^ (-e).toNat) (-e).toNat then
        m / 2 ^ (-e).toNat + 1 else m / 2 ^ (-e).toNat) := if_neg he
    have hspec := roundsUp_spec rm s m (-e).toNat
    rw [hq, hn]
    simp only [d]
    dsimp only at hspec
    generalize (if roundsUp rm s (m / 2 ^ (-e).toNat) (m % 2 ^ (-e).toNat) (-e).toNat then m / 2 ^ (-e).toNat + 1
      else m / 2 ^ (-e).toNat) = r at hspec ⊢
    have hpos := Nat.two_pow_pos (-e).toNat
    generalize 2 ^ (-e).toNat = D at hspec hpos ⊢
    have hcut : r = m / D → r * D ≤ m ∧ m < r * D + D := by
      rintro rfl
      have := Nat.div_add_mod m D
      have := Nat.mod_lt m hpos
      rw [Nat.mul_comm (m / D)]
      omega
    have hmul : (r : Int) * D = (r * D : Nat) := by push_cast; rfl
    have hodd : (2 * r + 1) * D = 2 * (r * D) + D := by ring
    have heven : 2 * r * D = 2 * (r * D) := by ring
    have hnext : ((r : Int) + 1) * D = (r * D : Nat) + D := by push_cast; ring
    have hback : (-(r : Int) + 1) * D = -(r * D : Nat) + D := by push_cast; ring
    have hprev : ((r : Int) - 1) * D = (r * D : Nat) - D := by push_cast; ring
    have hlast : (-(r : Int) - 1) * D = -(r * D : Nat) - D := by push_cast; ring
    cases s with
    | false =>
      simp only [smant, Bool.false_eq_true, if_false, one_mul]
      cases rm with
      | rz => exact (congrArg _ hspec).trans (Int.ofNat_tdiv m D)
      | rd =>
        obtain ⟨hle, hlt⟩ := hcut hspec
        rw [hnext, hmul]
        omega
      | ru =>
        rw [hprev, hmul]
        dsimp only at hspec
        omega
      | rn =>
        rw [hmul]
        dsimp only at hspec
        rw [hodd, heven] at hspec
        omega
    | true =>
      simp only [smant, if_true, neg_mul, one_mul]
      cases rm with
      | rz => rw [Int.neg_tdiv, hspec, ← Int.ofNat_tdiv]
      | ru =>
        obtain ⟨hle, hlt⟩ := hcut hspec
        rw [hlast, hmul]
        omega
      | rd =>
        rw [hback, hmul]
        dsimp only at hspec
        omega
      | rn =>
        rw [hmul]
        dsimp only at hspec
        rw [hodd, heven] at hspec
        omega

end Sys2Proof.Machine
end

