-- ==== Sys2Proof/Proofs/Rounding.lean ====
section
/-! PROOF. Where a magnitude rounded to nearest even passes a code (R64, R70). -/

namespace Sys2Proof.Machine

/-! ### O10: the overflow threshold of a format (R70, R71) -/

/-- Past what the rounded mantissa of man · 2^exp at exponent q goes, to nearest even. -/
def roundAt (man : Nat) (exp q : Int) : Nat :=
  if q ≤ exp then man * 2 ^ (exp - q).toNat
  else if roundsUp .rn false (man / 2 ^ (q - exp).toNat) (man % 2 ^ (q - exp).toNat) (q - exp).toNat then
    man / 2 ^ (q - exp).toNat + 1 else man / 2 ^ (q - exp).toNat

/-- A rounded mantissa is past c exactly when the quotient is past the middle of c and c + 1, or there and c is odd. -/
theorem lt_roundAt (man c : Nat) (exp q : Int) :
    c < roundAt man exp q ↔
      (2 * c + 1) * 2 ^ (q - exp).toNat < 2 * man * 2 ^ (exp - q).toNat ∨
      ((2 * c + 1) * 2 ^ (q - exp).toNat = 2 * man * 2 ^ (exp - q).toNat ∧ c % 2 = 1) := by
  unfold roundAt
  by_cases h : q ≤ exp
  · rw [if_pos h, Int.toNat_of_nonpos (z := q - exp) (by omega), Nat.pow_zero, Nat.mul_one, Nat.mul_assoc]
    omega
  · rw [if_neg h, Int.toNat_of_nonpos (z := exp - q) (by omega), Nat.pow_zero, Nat.mul_one]
    have hm := Nat.div_add_mod man (2 ^ (q - exp).toNat)
    have hlt := Nat.mod_lt man (Nat.two_pow_pos (q - exp).toNat)
    unfold roundsUp
    generalize 2 ^ (q - exp).toNat = D at hm hlt ⊢
    generalize man / D = fl at hm ⊢
    generalize man % D = rem at hm hlt ⊢
    subst hm
    dsimp only
    rw [show 2 * (D * fl + rem) = 2 * fl * D + 2 * rem by ring]
    rcases Nat.lt_trichotomy c fl with hc | rfl | hc
    · have hle : (2 * c + 2) * D ≤ 2 * fl * D := Nat.mul_le_mul_right D (by omega)
      rw [show (2 * c + 2) * D = (2 * c + 1) * D + D by ring] at hle
      refine iff_of_true ?_ (.inl (by omega))
      split <;> omega
    · rw [show (2 * c + 1) * D = 2 * c * D + D by ring]
      by_cases hup : (decide (D < 2 * rem) || (2 * rem == D && c % 2 == 1)) = true
      · rw [if_pos hup]
        simp only [Bool.or_eq_true, decide_eq_true_eq, Bool.and_eq_true, beq_iff_eq] at hup
        omega
      · rw [if_neg hup]
        simp only [Bool.or_eq_true, decide_eq_true_eq, Bool.and_eq_true, beq_iff_eq] at hup
        omega
    · have hle : (2 * fl + 3) * D ≤ (2 * c + 1) * D := Nat.mul_le_mul_right D (by omega)
      rw [show (2 * fl + 3) * D = 2 * fl * D + 3 * D by ring] at hle
      refine iff_of_false ?_ (by omega)
      split <;> omega

/-- Two numbers scaled by powers of two, compared without a fraction. -/
theorem scaled_lt (x y : Nat) (q e : Int) :
    (x * 2 ^ (q - e).toNat < y * 2 ^ (e - q).toNat ↔ (x : ℚ) * 2 ^ q < y * 2 ^ e) ∧
    (x * 2 ^ (q - e).toNat = y * 2 ^ (e - q).toNat ↔ (x : ℚ) * 2 ^ q = y * 2 ^ e) := by
  obtain ⟨c, hc, hx, hy⟩ : ∃ c : ℚ, 0 < c ∧ (2 : ℚ) ^ q = 2 ^ (q - e).toNat * c ∧ (2 : ℚ) ^ e = 2 ^ (e - q).toNat * c := by
    rcases Int.le_total q e with h | h
    · refine ⟨2 ^ q, by positivity, ?_, ?_⟩
      · rw [Int.toNat_of_nonpos (z := q - e) (by omega)]
        simp
      · rw [← zpow_natCast, Int.toNat_of_nonneg (by omega), ← zpow_add₀ (by norm_num)]
        congr 1
        omega
    · refine ⟨2 ^ e, by positivity, ?_, ?_⟩
      · rw [← zpow_natCast, Int.toNat_of_nonneg (by omega), ← zpow_add₀ (by norm_num)]
        congr 1
        omega
      · rw [Int.toNat_of_nonpos (z := e - q) (by omega)]
        simp
  rw [hx, hy, ← mul_assoc, ← mul_assoc, mul_lt_mul_iff_left₀ hc, mul_left_inj' hc.ne']
  constructor
  · rw [← Nat.cast_lt (α := ℚ)]
    push_cast
    rfl
  · rw [← Nat.cast_inj (R := ℚ)]
    push_cast
    rfl

theorem roundMag_eq (f : Fmt) (neg : Bool) {man : Nat} (exp : Int) (h : man ≠ 0) :
    let emin : Int := 1 - (f.bias : Int) - f.fb
    let q : Int := max emin (exp + (Nat.log2 man : Int) - f.fb)
    f.roundMag .rn neg man exp = (q - emin).toNat * 2 ^ f.fb + roundAt man exp q := by
  intro emin q
  have hq : (if exp + (Nat.log2 man : Int) - f.fb < emin then emin else exp + (Nat.log2 man : Int) - f.fb) = q := by
    simp only [q]
    split <;> omega
  unfold Fmt.roundMag
  rw [if_neg h]
  dsimp only
  rw [hq]
  rfl

/-- A rounded magnitude is past a normal code exactly when the value is past the middle of it and the next one, or there
and the code is odd. -/
theorem lt_roundMag {f : Fmt} {man c qc : Nat} (neg : Bool) (exp : Int) (h : man ≠ 0) (hlo : 2 ^ f.fb ≤ c)
    (hhi : c < 2 ^ (f.fb + 1)) (hq1 : 1 ≤ qc) (hqc : 1 - (f.bias : Int) - f.fb < qc) :
    (qc - (1 - (f.bias : Int) - f.fb)).toNat * 2 ^ f.fb + c < f.roundMag .rn neg man exp ↔
      (2 * c + 1) * 2 ^ (qc - 1) * 2 ^ (-exp).toNat < man * 2 ^ exp.toNat ∨
      ((2 * c + 1) * 2 ^ (qc - 1) * 2 ^ (-exp).toNat = man * 2 ^ exp.toNat ∧ c % 2 = 1) := by
  rw [roundMag_eq f neg exp h]
  have hval : ∀ q : Int, ∀ k : Nat, k < roundAt man exp q ↔
      ((2 * k + 1 : Nat) : ℚ) * 2 ^ q < ((2 * man : Nat) : ℚ) * 2 ^ exp ∨
      (((2 * k + 1 : Nat) : ℚ) * 2 ^ q = ((2 * man : Nat) : ℚ) * 2 ^ exp ∧ k % 2 = 1) := by
    intro q k
    rw [lt_roundAt, (scaled_lt _ _ q exp).1, (scaled_lt _ _ q exp).2]
  have hhalf : (((2 * c + 1) * 2 ^ (qc - 1) : Nat) : ℚ) * 2 * 2 ^ (0 : Int) = ((2 * c + 1 : Nat) : ℚ) * 2 ^ (qc : Int) := by
    rw [zpow_natCast, show (2 : ℚ) ^ qc = 2 ^ (qc - 1) * 2 by rw [← pow_succ]; congr 1; omega]
    push_cast
    ring
  have hgoal : ((2 * c + 1) * 2 ^ (qc - 1) * 2 ^ (-exp).toNat < man * 2 ^ exp.toNat ↔
      ((2 * c + 1 : Nat) : ℚ) * 2 ^ (qc : Int) < ((2 * man : Nat) : ℚ) * 2 ^ exp) ∧
      ((2 * c + 1) * 2 ^ (qc - 1) * 2 ^ (-exp).toNat = man * 2 ^ exp.toNat ↔
      ((2 * c + 1 : Nat) : ℚ) * 2 ^ (qc : Int) = ((2 * man : Nat) : ℚ) * 2 ^ exp) := by
    obtain ⟨hl, he⟩ := scaled_lt ((2 * c + 1) * 2 ^ (qc - 1)) man 0 exp
    rw [zero_sub, sub_zero] at hl he
    rw [hl, he, ← hhalf, show ((2 * man : Nat) : ℚ) * 2 ^ exp = man * 2 ^ exp * 2 by push_cast; ring]
    constructor <;> constructor <;> intro hx <;> linarith
  rw [hgoal.1, hgoal.2]
  have hman1 : ((2 ^ Nat.log2 man : Nat) : ℚ) ≤ man := by exact_mod_cast Nat.log2_self_le h
  have hman2 : (man : ℚ) < ((2 ^ (Nat.log2 man + 1) : Nat) : ℚ) := by exact_mod_cast Nat.lt_log2_self
  have htwo : ∀ k : Int, (0 : ℚ) < 2 ^ k := fun k => by positivity
  have hadd : ∀ a b : Int, (2 : ℚ) ^ (a + b) = 2 ^ a * 2 ^ b := fun a b => zpow_add₀ (by norm_num) a b
  have hmono : ∀ a b : Int, a ≤ b → (2 : ℚ) ^ a ≤ 2 ^ b := fun a b hab => zpow_le_zpow_right₀ (by norm_num) hab
  have hbelow : (2 : ℚ) ^ (Nat.log2 man + exp) ≤ man * 2 ^ exp := by
    rw [hadd]
    refine mul_le_mul_of_nonneg_right ?_ (htwo _).le
    simpa using hman1
  have habove : (man : ℚ) * 2 ^ exp < 2 ^ (Nat.log2 man + 1 + exp) := by
    rw [hadd]
    refine mul_lt_mul_of_pos_right ?_ (htwo _)
    rw [← Nat.cast_succ, zpow_natCast]
    simpa using hman2
  have hc1 : ((2 : ℚ) ^ f.fb) ≤ c := by exact_mod_cast hlo
  have hc2 : (c : ℚ) + 1 ≤ 2 ^ (f.fb + 1) := by exact_mod_cast hhi
  generalize hq : max (1 - (f.bias : Int) - f.fb) (exp + (Nat.log2 man : Int) - f.fb) = q
  rcases lt_trichotomy q qc with hlt | rfl | hgt
  · have hr : ¬2 ^ (f.fb + 1) < roundAt man exp q := by
      rw [hval]
      have hx : ((2 * man : Nat) : ℚ) * 2 ^ exp < ((2 * 2 ^ (f.fb + 1) + 1 : Nat) : ℚ) * 2 ^ q := by
        have h1 := hmono (Nat.log2 man + 1 + exp) (q + (f.fb + 1 : Nat)) (by push_cast; omega)
        rw [hadd q, zpow_natCast] at h1
        have h2 := htwo q
        push_cast
        nlinarith
      rintro (h1 | ⟨h1, -⟩) <;> linarith
    refine iff_of_false ?_ ?_
    · have hk : ((q - (1 - (f.bias : Int) - f.fb)).toNat + 1) ≤ (qc - (1 - (f.bias : Int) - f.fb)).toNat := by omega
      have hm := Nat.mul_le_mul_right (2 ^ f.fb) hk
      rw [Nat.pow_succ] at hr
      rw [Nat.add_mul] at hm
      omega
    · have hx : ((2 * man : Nat) : ℚ) * 2 ^ exp < ((2 * c + 1 : Nat) : ℚ) * 2 ^ (qc : Int) := by
        have h1 := hmono (Nat.log2 man + 1 + exp) (qc + f.fb) (by omega)
        rw [hadd qc, zpow_natCast (2 : ℚ) f.fb] at h1
        have h2 := htwo qc
        push_cast
        nlinarith
      rintro (h1 | ⟨h1, -⟩) <;> linarith
  · rw [← hval]
    omega
  · have hq0 : q = exp + (Nat.log2 man : Int) - f.fb := by omega
    have hx : ((2 * 2 ^ f.fb : Nat) : ℚ) * 2 ^ q ≤ ((2 * man : Nat) : ℚ) * 2 ^ exp := by
      have h1 := hbelow
      rw [show Nat.log2 man + exp = q + f.fb by omega, hadd q, zpow_natCast (2 : ℚ) f.fb] at h1
      push_cast
      linarith
    have hr : 2 ^ f.fb ≤ roundAt man exp q := by
      have hpos := Nat.two_pow_pos f.fb
      have := (hval q (2 ^ f.fb - 1)).mpr (.inl (lt_of_lt_of_le (mul_lt_mul_of_pos_right
        (by exact_mod_cast (by omega : 2 * (2 ^ f.fb - 1) + 1 < 2 * 2 ^ f.fb)) (htwo q)) hx))
      omega
    refine iff_of_true ?_ (.inl ?_)
    · have hk : ((qc - (1 - (f.bias : Int) - f.fb)).toNat + 1) ≤ (q - (1 - (f.bias : Int) - f.fb)).toNat := by omega
      have hm := Nat.mul_le_mul_right (2 ^ f.fb) hk
      rw [Nat.pow_succ] at hhi
      rw [Nat.add_mul] at hm
      omega
    · have h1 := hmono (qc + 1) q (by omega)
      rw [hadd, zpow_one] at h1
      have h2 := htwo qc
      rw [pow_succ] at hc2
      refine lt_of_lt_of_le ?_ hx
      push_cast
      have h3 : (0 : ℚ) < 2 ^ f.fb := by positivity
      nlinarith

end Sys2Proof.Machine
end

