-- ==== Sys2Proof/Proofs/FunctionAndConversionWords.lean ====
section
/-! PROOF. The overflow thresholds (R71), the nearest MF code (R68, R70), and O10. -/

namespace Sys2Proof.Machine

/-! ### O10: the overflow threshold of each format (R71) -/

theorem lt_roundMag_odd {f : Fmt} {m c qc t M : Nat} (s : Bool) (e : Int) (h : m ≠ 0) (hlo : 2 ^ f.fb ≤ c)
    (hhi : c < 2 ^ (f.fb + 1)) (hq1 : 1 ≤ qc) (hqc : 1 - (f.bias : Int) - f.fb < qc) (hodd : c % 2 = 1)
    (ht : t = (2 * c + 1) * 2 ^ (qc - 1)) (hM : M = (qc - (1 - (f.bias : Int) - f.fb)).toNat * 2 ^ f.fb + c) :
    M < f.roundMag .rn s m e ↔ t * 2 ^ (-e).toNat ≤ m * 2 ^ e.toNat := by
  rw [hM, lt_roundMag s e h hlo hhi hq1 hqc, ht, Nat.le_iff_lt_or_eq]
  simp only [hodd, and_true]

theorem f16_overflows (s : Bool) {m : Nat} (e : Int) (h : m ≠ 0) :
    Fmt.f16.overflows .rn s m e = true ↔ 65520 * 2 ^ (-e).toNat ≤ m * 2 ^ e.toNat :=
  decide_eq_true_iff.trans (lt_roundMag_odd (f := .f16) (c := 2047) (qc := 5) s e h (by decide) (by decide) (by decide)
    (by decide) rfl rfl rfl)

theorem bf16_overflows (s : Bool) {m : Nat} (e : Int) (h : m ≠ 0) :
    Fmt.bf16.overflows .rn s m e = true ↔ 511 * 2 ^ 119 * 2 ^ (-e).toNat ≤ m * 2 ^ e.toNat :=
  decide_eq_true_iff.trans (lt_roundMag_odd (f := .bf16) (c := 255) (qc := 120) s e h (by decide) (by decide) (by decide)
    (by decide) rfl rfl rfl)

theorem e5m2_overflows (s : Bool) {m : Nat} (e : Int) (h : m ≠ 0) :
    Fmt.e5m2.overflows .rn s m e = true ↔ 61440 * 2 ^ (-e).toNat ≤ m * 2 ^ e.toNat :=
  decide_eq_true_iff.trans (lt_roundMag_odd (f := .e5m2) (c := 7) (qc := 13) s e h (by decide) (by decide) (by decide)
    (by decide) rfl rfl rfl)

/-- The largest code of E4M3 is even, so the middle above it rounds down to it. -/
theorem e4m3_overflows (s : Bool) {m : Nat} (e : Int) (h : m ≠ 0) :
    Fmt.e4m3.overflows .rn s m e = true ↔ 464 * 2 ^ (-e).toNat < m * 2 ^ e.toNat := by
  have hlt := lt_roundMag (f := .e4m3) (c := 14) (qc := 5) s e h (by decide) (by decide) (by decide) (by decide)
  refine decide_eq_true_iff.trans (hlt.trans (or_iff_left fun h => ?_))
  exact absurd h.2 (by decide)

theorem convert_special {f : Fmt} {nan big top : Nat} (hn : (if f.isMf then 0 else f.nanCode) = nan) {inf : Bool}
    (hi : ∀ s, f.signed s (if inf then f.infCode else f.maxCode) =
      (if inf then big else top) + (if s then 2 ^ (f.width - 1) else 0)) (ftz : Bool) (rm : RMode) :
    f.convert ftz rm inf .nan = nan ∧
    ∀ s, f.convert ftz rm inf (.inf s) = (if inf then big else top) + (if s then 2 ^ (f.width - 1) else 0) := ⟨hn, hi⟩

/-- The two results of a conversion of a finite value: the code past the threshold, and the rounded one below it. -/
theorem convert_limit {f : Fmt} {mode : RMode} {inf : Bool} {big top : Nat} {past : Prop} (ftz s : Bool) (m : Nat) (e : Int)
    (hmode : (if f.ignoresRm then .rn else mode) = .rn) (hpast : f.overflows .rn s m e = true ↔ past)
    (hbig : ∀ s, (if inf then (if f.ignoresRm then f.signed s f.infCode else f.ovfCode .rn s) else
      f.signed s f.maxCode) = (if inf then big else top) + (if s then 2 ^ (f.width - 1) else 0)) :
    (past → f.convert ftz mode inf (.fin s m e) = (if inf then big else top) + (if s then 2 ^ (f.width - 1) else 0)) ∧
    (¬past → f.convert ftz mode inf (.fin s m e) = f.fout ftz (if f.ignoresRm then .rn else mode) (.fin s m e)) := by
  rw [hmode, ← hbig s]
  simp only [Fmt.convert, hmode]
  exact ⟨fun h => if_pos (hpast.mpr h), fun h => if_neg fun h' => h (hpast.mp h')⟩

/-! ### O10: the nearest MF code (R68, R70) -/

/-- The step of MFNearest's search: a nearer code is taken, or one as near with bit 0 clear. -/
def nearer (dist : Nat → Nat) (best c : Nat) : Nat :=
  if dist c < dist best then c
  else if dist c = dist best ∧ best % 2 = 1 ∧ c % 2 = 0 then c else best

/-- What the search has found once it has met the codes of a list beside 0. -/
structure Nearest (dist : Nat → Nat) (seen : Nat → Prop) (best : Nat) : Prop where
  met : seen best
  least : ∀ c, seen c → dist best ≤ dist c
  even : ∀ c, seen c → dist best = dist c → c % 2 = 0 → best % 2 = 0
  past_zero : best ≠ 0 → dist best < dist 0

theorem Nearest.step {dist : Nat → Nat} {seen : Nat → Prop} {best : Nat} (h : Nearest dist seen best) (c : Nat)
    (h0 : dist best ≤ dist 0) : Nearest dist (fun k => seen k ∨ k = c) (nearer dist best c) := by
  obtain ⟨hmet, hleast, heven, hzero⟩ := h
  unfold nearer
  by_cases hlt : dist c < dist best
  · rw [if_pos hlt]
    refine ⟨.inr rfl, ?_, ?_, fun _ => Nat.lt_of_lt_of_le hlt h0⟩
    · rintro k (hk | rfl)
      · exact (Nat.le_of_lt hlt).trans (hleast k hk)
      · exact Nat.le_refl _
    · rintro k (hk | rfl) heq hev
      · exact absurd (hleast k hk) (by omega)
      · exact hev
  · rw [if_neg hlt]
    by_cases htie : dist c = dist best ∧ best % 2 = 1 ∧ c % 2 = 0
    · rw [if_pos htie]
      obtain ⟨heq, hodd, hev⟩ := htie
      refine ⟨.inr rfl, ?_, fun _ _ _ _ => hev, fun _ => heq ▸ hzero (by rintro rfl; cases hodd)⟩
      rintro k (hk | rfl)
      · exact heq ▸ hleast k hk
      · exact Nat.le_refl _
    · rw [if_neg htie]
      refine ⟨.inl hmet, ?_, ?_, hzero⟩
      · rintro k (hk | rfl)
        · exact hleast k hk
        · omega
      · rintro k (hk | rfl) heq hev
        · exact heven k hk heq hev
        · omega

theorem nearest_foldl {dist : Nat → Nat} (l : List Nat) : ∀ {seen : Nat → Prop} {best : Nat}, seen 0 → Nearest dist seen best →
    Nearest dist (fun k => seen k ∨ k ∈ l) (l.foldl (nearer dist) best) := by
  induction l with
  | nil =>
    intro seen best _ h
    simpa only [List.foldl_nil, List.not_mem_nil, or_false] using h
  | cons c l ih =>
    intro seen best h0 h
    have := ih (.inl h0) (h.step c (h.least 0 h0))
    simpa only [List.foldl_cons, List.mem_cons, or_assoc] using this

/-- The codes of a format in the order of their values: between two of one parity, neither of them 0, stands another. -/
def Spread (w : Nat) (u : Nat → Int) : Prop :=
  ∀ r, r < w → ∀ c, c < w → (u r = u c → r = c) ∧
    (u r < u c → r % 2 = c % 2 → r ≠ 0 → c ≠ 0 → ∃ k, k < w ∧ u r < u k ∧ u k < u c)

/-- Of two codes as far from x, on its two sides, a third between them is nearer. -/
theorem between_nearer {x a b k d : Int} (hd : 0 < d) (hab : a < k ∧ k < b) (h : (x - a * d).natAbs = (x - b * d).natAbs) :
    (x - k * d).natAbs < (x - a * d).natAbs := by
  have h1 : a * d < k * d := mul_lt_mul_of_pos_right hab.1 hd
  have h2 : k * d < b * d := mul_lt_mul_of_pos_right hab.2 hd
  omega

theorem nearest_unique {w : Nat} {u : Nat → Int} {x d : Int} {r : Nat} (hu : Spread w u) (hd : 0 < d)
    (h : Nearest (fun c => (x - u c * d).natAbs) (· < w) r) {c : Nat} (hc : c < w)
    (heq : (x - u r * d).natAbs = (x - u c * d).natAbs) (hne : c ≠ r) : r % 2 = 0 ∧ (c % 2 = 0 → r = 0) := by
  obtain ⟨hr, hleast, heven, hzero⟩ := h
  have hparity : r % 2 = c % 2 → r = 0 ∨ c = 0 := by
    intro hp
    by_contra hn
    obtain ⟨hr0, hc0⟩ := not_or.mp hn
    rcases lt_trichotomy (u r) (u c) with hlt | he | hlt
    · obtain ⟨k, hk, hb⟩ := (hu r hr c hc).2 hlt hp hr0 hc0
      exact absurd (hleast k hk) (Nat.not_le.mpr (between_nearer hd hb heq))
    · exact hne ((hu r hr c hc).1 he).symm
    · obtain ⟨k, hk, hb⟩ := (hu c hc r hr).2 hlt hp.symm hc0 hr0
      exact absurd (hleast k hk) (Nat.not_le.mpr (heq ▸ between_nearer hd hb heq.symm))
  have hrz : c % 2 = 0 → r % 2 = 0 := heven c hc heq
  refine ⟨?_, fun hc2 => ?_⟩
  · by_contra hodd
    have hc2 : c % 2 = 0 := by
      by_contra hc2
      rcases hparity (by omega) with rfl | rfl <;> omega
    exact hodd (hrz hc2)
  · by_contra hr0
    obtain rfl := (hparity (by rw [hc2, hrz hc2])).resolve_left hr0
    exact absurd (hzero hr0) (by simp only [heq, Nat.lt_irrefl, not_false_iff])

/-- The code of the next greater value, of a format of 2 · h codes: 0 follows the least negative one. -/
def nextCode (h r : Nat) : Nat := if r < h then r + 1 else if r = h then 0 else r - 1

/-- The values of two codes differ, and where they are not 0 and of one parity the next code stands between them. -/
def ordered (u : Nat → Int) (h r c : Nat) : Bool :=
  (u r != u c || r == c) &&
    (decide (u c ≤ u r) || r % 2 != c % 2 || r == 0 || c == 0 ||
      (decide (nextCode h r < 2 * h) && decide (u r < u (nextCode h r)) && decide (u (nextCode h r) < u c)))

theorem spread_of_ordered {u : Nat → Int} {w h : Nat} (hw : 2 * h = w)
    (ho : ∀ r, r < w → ∀ c, c < w → ordered u h r c = true) : Spread w u := by
  intro r hr c hc
  have hrc := ho r hr c hc
  simp only [ordered, Bool.and_eq_true, Bool.or_eq_true, bne_iff_ne, beq_iff_eq, decide_eq_true_eq, hw] at hrc
  obtain ⟨hinj, hnext⟩ := hrc
  refine ⟨fun h => hinj.resolve_left (not_not.mpr h), fun hlt hp h0 h1 => ?_⟩
  obtain ((((h | h) | h) | h) | ⟨⟨h, hl⟩, hu⟩) := hnext
  · exact absurd h (by omega)
  · exact absurd hp h
  · exact absurd h h0
  · exact absurd h h1
  · exact ⟨_, h, hl, hu⟩

theorem units_ordered :
    (∀ r < 64, ∀ c < 64, ordered Fmt.mf6.mfUnits 32 r c = true) ∧
    ∀ r < 16, ∀ c < 16, ordered Fmt.mf4.mfUnits 8 r c = true := by
  decide +kernel

theorem mf6_spread : Spread 64 Fmt.mf6.mfUnits := spread_of_ordered rfl units_ordered.1

theorem mf4_spread : Spread 16 Fmt.mf4.mfUnits := spread_of_ordered rfl units_ordered.2

/-- What MFNearest finds: a nearest code, and which of two as near. -/
theorem mfNearest_nearest {f : Fmt} {w : Nat} (hw : 2 ^ f.width = w) (hw1 : 1 ≤ w) (s : Bool) (m : Nat) (e : Int) :
    Nearest (fun c => ((if s then -1 else 1) * ((m * 2 ^ (e + f.bias + f.fb).toNat : Nat) : Int) -
      f.mfUnits c * ((2 ^ (-(e + f.bias + f.fb)).toNat : Nat) : Int)).natAbs) (· < w) (f.mfNearest s m e) := by
  have hdist : f.mfNearest s m e = (upto 1 (2 ^ f.width - 1)).foldl (nearer fun c =>
      ((if s then -(if 0 ≤ e + f.bias + f.fb then (m : Int) * 2 ^ (e + f.bias + f.fb).toNat else m) else
        if 0 ≤ e + f.bias + f.fb then (m : Int) * 2 ^ (e + f.bias + f.fb).toNat else m) -
      f.mfUnits c * (if 0 ≤ e + f.bias + f.fb then 1 else 2 ^ (-(e + f.bias + f.fb)).toNat)).natAbs) 0 := rfl
  have hnum : (if 0 ≤ e + f.bias + f.fb then (m : Int) * 2 ^ (e + f.bias + f.fb).toNat else m) =
      ((m * 2 ^ (e + f.bias + f.fb).toNat : Nat) : Int) := by
    split
    · push_cast
      rfl
    · rw [Int.toNat_of_nonpos (by omega), Nat.pow_zero, Nat.mul_one]
  have hden : (if 0 ≤ e + f.bias + f.fb then (1 : Int) else 2 ^ (-(e + f.bias + f.fb)).toNat) =
      ((2 ^ (-(e + f.bias + f.fb)).toNat : Nat) : Int) := by
    split
    · rw [Int.toNat_of_nonpos (z := -(e + f.bias + f.fb)) (by omega)]
      rfl
    · push_cast
      rfl
  have hsign : ∀ x : Int, (if s then -x else x) = (if s then -1 else 1) * x := fun x => by cases s <;> simp
  rw [hnum, hden, hsign, hw] at hdist
  rw [hdist]
  generalize (fun c => ((if s then -1 else 1) * ((m * 2 ^ (e + f.bias + f.fb).toNat : Nat) : Int) -
    f.mfUnits c * ((2 ^ (-(e + f.bias + f.fb)).toNat : Nat) : Int)).natAbs) = dist
  have h0 : Nearest dist (· = 0) 0 := by
    refine ⟨rfl, ?_, fun _ _ _ _ => rfl, fun h => absurd rfl h⟩
    rintro c rfl
    exact Nat.le_refl _
  have h := nearest_foldl (upto 1 (w - 1)) (seen := (· = 0)) rfl h0
  have hseen : (fun k => k = 0 ∨ k ∈ upto 1 (w - 1)) = (· < w) := by
    funext k
    simp only [mem_upto, eq_iff_iff]
    omega
  rwa [hseen] at h

theorem convert_mf {f : Fmt} (hf : f.isMf = true) (hign : f.ignoresRm = true) (hfl : f.flushes = false) (ftz inf : Bool)
    (rm : RMode) {s : Bool} {m : Nat} {e : Int} (h : f.overflows .rn s m e = false) :
    f.convert ftz rm inf (.fin s m e) = f.mfNearest s m e := by
  simp only [Fmt.convert, hign, if_true, h, Bool.false_eq_true, if_false, Fmt.fout, hfl, Bool.and_false, Bool.false_and,
    Fmt.round, hf]

/-- A conversion into MF6 or MF4 takes the nearest code, one of bit 0 clear of two as near, and 0 of two such. -/
theorem convert_nearest {f : Fmt} {w b : Nat} {u : Nat → Int} (hf : f.isMf = true) (hign : f.ignoresRm = true)
    (hfl : f.flushes = false) (hw : 2 ^ f.width = w) (hw1 : 1 ≤ w) (hb : (b : Int) = f.bias + f.fb)
    (hu : ∀ c, c < w → f.mfUnits c = u c) (hs : Spread w f.mfUnits) (ftz inf : Bool) (rm : RMode) (s : Bool) (m : Nat)
    (e : Int) (h : f.overflows .rn s m e = false) :
    let r := f.convert ftz rm inf (.fin s m e)
    let x : Int := (if s then -1 else 1) * (m * 2 ^ (e + b).toNat : Nat)
    let off (c : Nat) : Nat := (x - u c * 2 ^ (-(e + b)).toNat).natAbs
    r < w ∧ ∀ c, c < w → off r ≤ off c ∧ (off r = off c → c ≠ r → r % 2 = 0 ∧ (c % 2 = 0 → r = 0)) := by
  intro r x off
  have hn := mfNearest_nearest (f := f) hw hw1 s m e
  rw [← convert_mf hf hign hfl ftz inf rm h] at hn
  have hpos : (0 : Int) < ((2 ^ (-(e + f.bias + f.fb)).toNat : Nat) : Int) := Int.natCast_pos.mpr (Nat.two_pow_pos _)
  have hoff : ∀ c, c < w → off c = ((if s then -1 else 1) * ((m * 2 ^ (e + f.bias + f.fb).toNat : Nat) : Int) -
      f.mfUnits c * ((2 ^ (-(e + f.bias + f.fb)).toNat : Nat) : Int)).natAbs := by
    intro c hc
    simp only [off, x, hb, ← hu c hc, ← Int.add_assoc]
    push_cast
    rfl
  refine ⟨hn.met, fun c hc => ⟨?_, fun heq hne => ?_⟩⟩
  · rw [hoff r hn.met, hoff c hc]
    exact hn.least c hc
  · rw [hoff r hn.met, hoff c hc] at heq
    exact nearest_unique hs hpos hn hc heq hne

/-! ### O10: the obligation -/

/-- The values of the codes as R68 gives them. -/
theorem units_values :
    (∀ c < 64, Fmt.mf6.mfUnits c =
      if c = 0 then (0 : Int) else (if 32 ≤ c then -1 else 1) * ((4 + c % 4) * 2 ^ (c / 4 % 8) : Nat)) ∧
    (∀ c < 16, Fmt.mf4.mfUnits c =
      if c = 0 then (0 : Int) else (if 8 ≤ c then -1 else 1) * ((2 + c % 2) * 2 ^ (c / 2 % 4) : Nat)) := by
  decide

/-- Settles O10: the words by their rows, the special inputs by the branch each takes, the thresholds by where the rounded
magnitude passes the largest code, the nearest code by what the search keeps, the integers by the rounded quotient. -/
theorem functionAndConversionWords : Obligations.FunctionAndConversionWords := by
  refine ⟨fun d a ka inf st code => ?_, fun ftv x ftz rm => ?_, fun ftz inf rm => ?_, fun rm ty s m e => ?_⟩
  · refine ⟨?_, ?_, ?_, ?_, ?_, ?_, ?_, ?_, ?_, ?_, cvt_row d a ka inf st code⟩
    · exact lr1_row (f := fun e m x => fexp2 e.ftv (ftzOf m) x) (fun _ => rfl) nofun
    · exact lr1_row (f := fun e m x => flog2 e.ftv (ftzOf m) x) (fun _ => rfl) nofun
    · exact lr1_row (f := fun e m x => rcpOf .f32 e.ftv (ftzOf m) x) (fun _ => rfl) nofun
    · exact lr1_row (f := fun e m x => rsqOf .f32 e.ftv (ftzOf m) x) (fun _ => rfl) nofun
    · exact lr1_row (f := fun _ m x => fsqrt (rmOf m) (ftzOf m) x) (fun _ => rfl) nofun
    · exact lr1_row (f := fun e m x => fsinp e.ftv (ftzOf m) x) (fun _ => rfl) nofun
    · exact lr1_row (f := fun e m x => fcosp e.ftv (ftzOf m) x) (fun _ => rfl) nofun
    · exact lr1_row (f := fun e m x => ftanh e.ftv (ftzOf m) x) (fun _ => rfl) nofun
    · exact lr1_row (f := fun e _ x => rcpOf .f64 e.ftv false x) (fun _ => rfl) fun _ _ _ _ _ => rfl
    · exact lr1_row (f := fun e _ x => rsqOf .f64 e.ftv false x) (fun _ => rfl) fun _ _ _ _ _ => rfl
  · obtain ⟨hnan, hinf, hneg, hzero, hbelow⟩ := double_special (ftv := ftv) (x := x)
    exact ⟨single_nan rm, hnan, single_inf rm, hinf, single_neg_inf rm, hneg, fun _ _ => single_zero rm, hzero,
      fun _ _ hm => single_negative rm hm, hbelow, flog2_one ftv ftz, fun _ _ _ _ h hn => trig_integer h hn,
      fun _ _ _ _ h hn => fcosp_half h hn⟩
  · refine ⟨?_, ?_, ?_, ?_, ?_, ?_, ?_, fun s m e hm => ?_, fun s m e hm => ?_, fun s m e hm => ?_, fun s m e hm => ?_,
      fun hi => ⟨fun s m e hm => ?_, fun s m e hm => ?_⟩, ?_, ?_⟩
    · exact convert_special (by decide) (by revert inf; decide) ftz rm
    · exact convert_special (by decide) (by revert inf; decide) ftz rm
    · exact convert_special (by decide) (by revert inf; decide) ftz rm
    · exact convert_special (by decide) (by revert inf; decide) ftz rm
    · exact convert_special (by decide) (by revert inf; decide) ftz rm
    · exact convert_special (by decide) (by revert inf; decide) ftz rm
    · rintro rfl
      exact ⟨convert_special (by decide) (by decide) ftz rm, convert_special (by decide) (by decide) ftz rm⟩
    · exact convert_limit ftz s m e rfl (f16_overflows s e hm) (by revert inf; decide)
    · exact convert_limit ftz s m e rfl (bf16_overflows s e hm) (by revert inf; decide)
    · exact convert_limit ftz s m e rfl (e4m3_overflows s e hm) (by revert inf; decide)
    · exact convert_limit ftz s m e rfl (e5m2_overflows s e hm) (by revert inf; decide)
    · subst hi
      exact convert_limit ftz s m e rfl decide_eq_true_iff (by decide)
    · subst hi
      exact convert_limit ftz s m e rfl decide_eq_true_iff (by decide)
    · exact convert_nearest (f := .mf6) rfl rfl rfl rfl (by decide) rfl units_values.1 mf6_spread ftz inf rm
    · exact convert_nearest (f := .mf4) rfl rfl rfl rfl (by decide) rfl units_values.2 mf4_spread ftz inf rm
  · have hb : intLower ty ≤ intUpper ty := by cases ty <;> decide
    intro lo hi n d
    have hlo : intLower ty = lo := by cases ty <;> rfl
    have hhi : intUpper ty = hi := by cases ty <;> rfl
    refine ⟨rfl, ?_, roundInt rm s m e, ?_, roundInt_spec rm s m e⟩
    · rw [← hlo, ← hhi]
      rfl
    · rw [← hlo, ← hhi]
      exact sat_eq hb _

end Sys2Proof.Machine
end

