-- ==== Sys2Proof/Proofs/SiftIssue.lean ====
section
/-! PROOF. The SIFT words at issue and their performing (R262 to R265). -/

namespace Sys2Proof.Machine

/-! ### O42: what a disturbance leaves of the groups -/

theorem Block.onPart_groups (b : Block) (q : Nat) (f : Part → Part) : (b.onPart q f).groups = b.groups := rfl

theorem Block.onPart_bid (b : Block) (q : Nat) (f : Part → Part) : (b.onPart q f).bid = b.bid := rfl

theorem foldl_spad (l : List (Nat × Nat)) (g : Block → Nat × Nat → Memory) : ∀ b : Block,
    (l.foldl (fun (b : Block) o => { b with spad := g b o }) b).groups = b.groups ∧
    (l.foldl (fun (b : Block) o => { b with spad := g b o }) b).bid = b.bid := by
  induction l with
  | nil => exact fun b => ⟨rfl, rfl⟩
  | cons o l ih => exact fun b => ih { b with spad := g b o }

theorem Block.spoil_frame (b : Block) (r : EReq) (nonce : Nat) :
    (b.spoil r nonce).groups = b.groups ∧ (b.spoil r nonce).bid = b.bid := by
  unfold Block.spoil
  split
  · split <;> exact ⟨rfl, rfl⟩
  · have hf := foldl_spad r.outs (fun b o => b.spad.writeN o.1 (freeBytes (nonce + o.1) o.2)) b
    split <;> exact hf
  · exact ⟨rfl, rfl⟩

theorem Block.spoils_frame (l : List EReq) (g : EReq → Nat) : ∀ b : Block,
    (l.foldl (fun (b : Block) r => b.spoil r (g r)) b).groups = b.groups ∧
    (l.foldl (fun (b : Block) r => b.spoil r (g r)) b).bid = b.bid := by
  induction l with
  | nil => exact fun b => ⟨rfl, rfl⟩
  | cons r l ih =>
    intro b
    obtain ⟨hg, hb⟩ := b.spoil_frame r (g r)
    obtain ⟨hg', hb'⟩ := ih (b.spoil r (g r))
    exact ⟨hg'.trans hg, hb'.trans hb⟩

/-- Two states in which a block's groups and its handlers', and the control cores, are the same. -/
structure SameGroups (bid : Nat) (t s : State) : Prop where
  groups : (t.block? bid).map (·.groups) = (s.block? bid).map (·.groups)
  traps : t.traps = s.traps
  ccs : t.ccs = s.ccs
  tick : t.tick = s.tick

theorem SameGroups.trans {bid : Nat} {u t s : State} (h : SameGroups bid u t) (h' : SameGroups bid t s) :
    SameGroups bid u s :=
  ⟨h.groups.trans h'.groups, h.traps.trans h'.traps, h.ccs.trans h'.ccs, h.tick.trans h'.tick⟩

theorem SameGroups.fenced {t s : State} {x : Env} (h : SameGroups x.bid t s) : t.fenced x = s.fenced x := by
  obtain ⟨hg, ht, hc, hk⟩ := h
  have hcc : ∀ n, t.cc? n = s.cc? n := fun n => by
    unfold State.cc?
    rw [hc]
  unfold State.fenced State.threadGrps
  simp only [hg, ht, hk, hcc]

theorem sameGroups_onBlock (s : State) (bid : Nat) {f : Block → Block} (hb : ∀ b, (f b).bid = b.bid)
    (hg : ∀ b, (f b).groups = b.groups) : SameGroups bid (s.onBlock bid f) s := by
  refine ⟨?_, rfl, rfl, rfl⟩
  rw [block?_onBlock s bid hb, Option.map_map]
  exact congrArg (Option.map · (s.block? bid)) (funext hg)

theorem sameGroups_setBlock {s : State} {bid : Nat} {b k : Block} (hk : s.block? bid = some k) (hb : b.bid = k.bid)
    (hg : b.groups = k.groups) : SameGroups bid (s.setBlock b) s := by
  have hbid : k.bid = bid := by simpa using List.find?_some hk
  refine ⟨?_, rfl, rfl, rfl⟩
  have hput := block?_setBlock (s := s) (hbid ▸ hk) hb
  rw [← hbid, hput, hbid, hk]
  exact congrArg some hg

theorem sameGroups_spend (s : State) (bid n : Nat) : SameGroups bid (s.spend n) s := ⟨rfl, rfl, rfl, rfl⟩

theorem sameGroups_disturb (s : State) (bid : Nat) (p : EReq → Bool) : SameGroups bid (s.disturb bid p) s := by
  unfold State.disturb
  split
  · exact ⟨rfl, rfl, rfl, rfl⟩
  next k hk =>
    extract_lets hits b rid
    obtain ⟨hg, hb⟩ : b.groups = k.groups ∧ b.bid = k.bid := Block.spoils_frame hits _ k
    split
    · exact ⟨rfl, rfl, rfl, rfl⟩
    · have hset : ∀ eng, SameGroups bid (s.setBlock { b with eng := eng }) s := fun _ => sameGroups_setBlock hk hb hg
      exact (sameGroups_spend _ bid _).trans (hset _)

theorem sameGroups_maskWritten (s : State) (bid part m : Nat) : SameGroups bid (s.maskWritten bid part m) s := by
  unfold State.maskWritten
  split
  · exact ⟨rfl, rfl, rfl, rfl⟩
  · extract_lets tests lost
    refine SameGroups.trans (t := s.disturb bid tests) ?_ (sameGroups_disturb s bid tests)
    exact sameGroups_onBlock _ bid (f := fun b => { b with eng := mapIf tests lost b.eng }) (fun _ => rfl) fun _ => rfl

/-! ### O42: what the SIFT words share -/

/-- The shape of a SIFT word. -/
def siftShape (tile : Nat) (st : BitVec 2) (firsts : List Nat) (ranged : Bool) (e : Env) : Shape :=
  { firsts := firsts, pre := roleTrap [3] e, lat := none, gap := gapOf st none
    post := if ranged then tileTrap tile e else none }

/-- A word crosses a request not yet waited for of other threads. -/
def siftCrossed (x : Env) (ins outs : List (Nat × Nat)) (mask : Option Nat) (r : EReq) : Bool :=
  r.isSift && !x.members.any (fun p => r.issuers.contains (x.idx p)) &&
    (rangesMeet ins r.outs || rangesMeet outs r.ins ||
      (mask.isSome && mask != some 7 && r.part == x.part && r.maskOf? == mask))

/-- The state in which a SIFT word has been issued. -/
def siftIssued (s : State) (x : Env) (op : SiftOp) (ins outs : List (Nat × Nat)) (mask : Option Nat) (undef : Bool) :
    State :=
  (s.disturb x.bid (siftCrossed x ins outs mask)).engIssue x (.sift op) ins outs
    (undef || ((s.block? x.bid).map fun b => b.eng.any fun r => siftCrossed x ins outs mask r && !r.fin).getD false)

theorem siftIssue_unfenced {s : State} {x : Env} (h : s.fenced x = false) (op : SiftOp) (ins outs : List (Nat × Nat))
    (mask : Option Nat) (undef : Bool) :
    s.siftIssue x op ins outs mask undef = .done (siftIssued s x op ins outs mask undef) x :=
  if_neg (by rw [h]; decide)

/-- A word's ranges are aligned and inside the scratchpad. -/
def SiftFits (x : Env) (align : Nat) (l : List (Nat × Nat)) : Prop :=
  ∀ y ∈ l, y.1 % align = 0 ∧ (y.2 = 0 ∨ y.1 + y.2 ≤ x.spadLen)

theorem siftRanges_fit {x : Env} {align : Nat} {l : List (Nat × Nat)} (h : SiftFits x align l) (f : Eff) :
    x.siftRanges align l f = f := by
  have hmis : (l.find? fun y => y.1 % align != 0) = none := List.find?_eq_none.mpr fun y hy => by simp [(h y hy).1]
  have hout : spadOut x.spadLen (l.filter (·.2 != 0)) = none := by
    refine Option.map_eq_none_iff.mpr (List.find?_eq_none.mpr fun y hy => ?_)
    obtain ⟨hy, hne⟩ := List.mem_filter.mp hy
    obtain ⟨-, hz⟩ := h y hy
    have := hz.resolve_left (by simpa using hne)
    simpa using this
  unfold Env.siftRanges
  rw [hmis, hout]

/-- What a group word that executes once does. -/
def groupEff (l : List (RegN × Bool)) (f : State → Env → Eff) (s : State) (x : Env) : Eff :=
  if x.grp.span && !x.solo && !l.all (fun y => x.uniform y.2 y.1.toNat) then .expand else f s x

theorem groupEff_once {l : List (RegN × Bool)} {s : State} {x : Env}
    (h : x.laned ∨ ∀ y ∈ l, x.uniform y.2 y.1.toNat = true) (f : State → Env → Eff) : groupEff l f s x = f s x := by
  refine if_neg ?_
  rcases h with h | h
  · rw [laned_iff.mp h, Bool.false_and]
    decide
  · rw [List.all_eq_true.mpr h, Bool.not_true, Bool.and_false]
    decide

section
variable (tile : BitVec 4) (m : PredN) (a b : RegN) (only incl : Bool) (st : BitVec 2)

/-- The value that a group word reads of a register. -/
def once (r : RegN) (x : Env) : Nat := x.val false r.toNat x.first

theorem once_one {x : Env} (h : x.laned ∨ x.uniform false a.toNat = true) :
    x.laned ∨ ∀ y ∈ [(a, false)], x.uniform y.2 y.1.toNat = true :=
  h.imp_right fun h y hy => by
    obtain rfl := List.mem_singleton.mp hy
    exact h

theorem once_two {x : Env} (h : x.laned ∨ (x.uniform false a.toNat = true ∧ x.uniform false b.toNat = true)) :
    x.laned ∨ ∀ y ∈ [(a, false), (b, false)], x.uniform y.2 y.1.toNat = true :=
  h.imp_right fun h y hy => by
    rcases List.mem_pair.mp hy with rfl | rfl
    · exact h.1
    · exact h.2

theorem sfclr_completes :
    Completes (.sfclr m a only st) (siftShape tile.toNat st (if only then [] else [a.toNat]) false)
      (fun s x => (only = true ∨ ((x.laned ∨ x.uniform false a.toNat = true) ∧ SiftFits x 16 [(once a x, 8320)])) ∧
        s.fenced x = false)
      (fun s x => (siftIssued (s.maskWritten x.bid x.part m.toNat) x
        (.clr m.toNat (if only then 0 else once a x) only) [] (if only then [] else [(once a x, 8320)]) (some m.toNat)
        false, x)) := by
  have hrun : ∀ s, exec (.sfclr m a only st) s =
      s.runWord (siftShape tile.toNat st (if only then [] else [a.toNat]) false)
        (groupEff (if only then [] else [(a, false)]) fun s x =>
          x.siftRanges 16 (if only then [] else [(once a x, 8320)]) <|
            (s.maskWritten x.bid x.part m.toNat).siftIssue x (.clr m.toNat (if only then 0 else once a x) only) []
              (if only then [] else [(once a x, 8320)]) (some m.toNat) false) := by
    cases only <;> exact fun _ => rfl
  refine completes_of_runWord hrun fun s x h => ?_
  obtain ⟨hone, hfence⟩ := h
  have hf : (s.maskWritten x.bid x.part m.toNat).fenced x = false := (sameGroups_maskWritten ..).fenced.trans hfence
  cases only with
  | true =>
    refine (groupEff_once (.inr (List.forall_mem_nil _)) _).trans ((siftRanges_fit (List.forall_mem_nil _) _).trans ?_)
    exact siftIssue_unfenced hf _ _ _ _ _
  | false =>
    obtain ⟨hone, hfit⟩ := hone.resolve_left Bool.false_ne_true
    refine (groupEff_once (once_one a hone) _).trans ((siftRanges_fit hfit _).trans ?_)
    exact siftIssue_unfenced hf _ _ _ _ _

theorem sfmask_completes :
    Completes (.sfmask m a b st) (siftShape tile.toNat st [a.toNat, b.toNat] false)
      (fun s x => (x.laned ∨ (x.uniform false a.toNat = true ∧ x.uniform false b.toNat = true)) ∧
        SiftFits x 16 [(once a x, 8320)] ∧ s.fenced x = false)
      (fun s x => (siftIssued (s.maskWritten x.bid x.part m.toNat) x
        (.mask m.toNat (once a x) (BitVec.ofNat 32 (once b x))) [(once a x, 8320)] [] (some m.toNat) false, x)) := by
  have hrun : ∀ s, exec (.sfmask m a b st) s = s.runWord (siftShape tile.toNat st [a.toNat, b.toNat] false)
      (groupEff [(a, false), (b, false)] fun s x => x.siftRanges 16 [(once a x, 8320)] <|
        (s.maskWritten x.bid x.part m.toNat).siftIssue x (.mask m.toNat (once a x) (BitVec.ofNat 32 (once b x)))
          [(once a x, 8320)] [] (some m.toNat) false) := fun _ => rfl
  refine completes_of_runWord hrun fun s x h => ?_
  obtain ⟨htwo, hfit, hfence⟩ := h
  refine (groupEff_once (once_two a b htwo) _).trans ((siftRanges_fit hfit _).trans ?_)
  exact siftIssue_unfenced ((sameGroups_maskWritten ..).fenced.trans hfence) _ _ _ _ _

/-- The ranges of an SFMAX, its control value within its limits. -/
def maxOuts (x : Env) : List (Nat × Nat) := match maxCtl (once b x) with
  | some (rows, _, kt) => [(once a x, 4 * rows), (once a x + 128 + 128 * kt, 4 * rows)]
  | none => []

/-- What an SFMAX does with its environment. -/
def sfmaxEff (s : State) (x : Env) : Eff :=
  if once a x % 16 ≠ 0 then .trap 7 (BitVec.ofNat 64 (once a x)) x.count
  else x.siftRanges 1 (maxOuts a b x) <|
    if (maxOuts a b x).isEmpty then x.siftTrap
    else (s.tileUsed x tile.toNat).siftIssue x (.max tile.toNat (once a x) (BitVec.ofNat 32 (once b x)))
      ((maxOuts a b x).take 1) (maxOuts a b x) none
      (((s.block? x.bid).map fun b => b.tilePending x.part tile.toNat).getD false)

theorem sfmax_run (s : State) : exec (.sfmax tile a b st) s =
    s.runWord (siftShape tile.toNat st [a.toNat, b.toNat] true)
      (groupEff [(a, false), (b, false)] (sfmaxEff tile a b)) := rfl

theorem sfmax_completes (rows cols kt : Nat) :
    Completes (.sfmax tile a b st) (siftShape tile.toNat st [a.toNat, b.toNat] true)
      (fun s x => (x.laned ∨ (x.uniform false a.toNat = true ∧ x.uniform false b.toNat = true)) ∧ once a x % 16 = 0 ∧
        SiftFits x 1 [(once a x, 4 * rows), (once a x + 128 + 128 * kt, 4 * rows)] ∧
        maxCtl (once b x) = some (rows, cols, kt) ∧ s.fenced x = false)
      (fun s x => (siftIssued (s.tileUsed x tile.toNat) x
        (.max tile.toNat (once a x) (BitVec.ofNat 32 (once b x))) [(once a x, 4 * rows)]
        [(once a x, 4 * rows), (once a x + 128 + 128 * kt, 4 * rows)] none
        (((s.block? x.bid).map fun b => b.tilePending x.part tile.toNat).getD false), x)) := by
  refine completes_of_runWord (sfmax_run tile a b st) fun s x h => ?_
  obtain ⟨htwo, hal, hfit, hctl, hfence⟩ := h
  have houts : maxOuts a b x = [(once a x, 4 * rows), (once a x + 128 + 128 * kt, 4 * rows)] := by
    unfold maxOuts
    rw [hctl]
  refine (groupEff_once (once_two a b htwo) _).trans ((if_neg (not_not.mpr hal)).trans ?_)
  rw [houts]
  refine (siftRanges_fit hfit _).trans ((if_neg Bool.false_ne_true).trans ?_)
  exact siftIssue_unfenced ((sameGroups_disturb ..).fenced.trans hfence) _ _ _ _ _

theorem sfmax_traps :
    Traps (.sfmax tile a b st) (siftShape tile.toNat st [a.toNat, b.toNat] true)
      (fun _ x => (x.laned ∨ (x.uniform false a.toNat = true ∧ x.uniform false b.toNat = true)) ∧ once a x % 16 = 0 ∧
        maxCtl (once b x) = none) 15 (fun x => BitVec.ofNat 64 x.unit.word) := by
  refine traps_of_runWord (sfmax_run tile a b st) fun s x h => ?_
  obtain ⟨htwo, hal, hctl⟩ := h
  have houts : maxOuts a b x = [] := by
    unfold maxOuts
    rw [hctl]
  refine ⟨x.count, (groupEff_once (once_two a b htwo) _).trans ((if_neg (not_not.mpr hal)).trans ?_)⟩
  rw [houts]
  exact (siftRanges_fit (List.forall_mem_nil _) _).trans (if_pos rfl)

/-- An output of a descriptor word laid over an input or another output. -/
def siftLapped (off : Nat) (ins outs : List (Nat × Nat)) (inPlace : Bool) : Bool :=
  (!(inPlace && ins.map (·.1) == outs.map (·.1)) && rangesMeet ins outs) || rangesMeet [(off, 32)] outs ||
    (match outs with
      | [y, z] => rangesMeet [y] [z]
      | _ => false)

theorem siftDesc_issues {s : State} {x : Env} {k : Block} {off : Nat} {f : Nat → List (Nat × Nat) × List (Nat × Nat) × Bool}
    (hoff : SiftFits x 32 [(off, 32)]) (hk : s.block? x.bid = some k) (hfence : s.fenced x = false)
    (hbehind : s.siftBehind x off 32 = false)
    (hfit : SiftFits x 4 ((f (k.spad.nat off 32)).1 ++ (f (k.spad.nat off 32)).2.1))
    (hok : (f (k.spad.nat off 32)).2.2 = true) (op : BitVec 256 → SiftOp) (inPlace : Bool) :
    s.siftDesc x off op f inPlace = .done (siftIssued s x (op (BitVec.ofNat 256 (k.spad.nat off 32)))
      ((off, 32) :: (f (k.spad.nat off 32)).1) (f (k.spad.nat off 32)).2.1 none
      (siftLapped off (f (k.spad.nat off 32)).1 (f (k.spad.nat off 32)).2.1 inPlace)) x := by
  unfold State.siftDesc
  refine (siftRanges_fit hoff _).trans ?_
  rw [hk]
  refine (if_neg (by rw [hfence, hbehind]; decide)).trans ?_
  refine (siftRanges_fit hfit _).trans ((if_neg (by rw [hok]; decide)).trans ?_)
  exact siftIssue_unfenced hfence _ _ _ _ _

/-- A word that reads a descriptor. -/
theorem desc_completes {i : Instr} {op : BitVec 256 → SiftOp} {ins outs : Nat → List (Nat × Nat)} {ok : Nat → Bool}
    {inPlace : Bool}
    (hi : ∀ s, exec i s = s.runWord (siftShape tile.toNat st [a.toNat] false) (groupEff [(a, false)] fun s x =>
      s.siftDesc x (once a x) op (fun y => (ins y, outs y, ok y)) inPlace)) (k : Block) :
    Completes i (siftShape tile.toNat st [a.toNat] false)
      (fun s x => (x.laned ∨ x.uniform false a.toNat = true) ∧ SiftFits x 32 [(once a x, 32)] ∧ s.block? x.bid = some k ∧
        s.fenced x = false ∧ s.siftBehind x (once a x) 32 = false ∧
        SiftFits x 4 (ins (k.spad.nat (once a x) 32) ++ outs (k.spad.nat (once a x) 32)) ∧
        ok (k.spad.nat (once a x) 32) = true)
      (fun s x => (siftIssued s x (op (BitVec.ofNat 256 (k.spad.nat (once a x) 32)))
        ((once a x, 32) :: ins (k.spad.nat (once a x) 32)) (outs (k.spad.nat (once a x) 32)) none
        (siftLapped (once a x) (ins (k.spad.nat (once a x) 32)) (outs (k.spad.nat (once a x) 32)) inPlace), x)) := by
  refine completes_of_runWord hi fun s x h => ?_
  obtain ⟨hone, hoff, hk, hfence, hbehind, hfit, hok⟩ := h
  exact (groupEff_once (once_one a hone) _).trans
    (siftDesc_issues (f := fun y => (ins y, outs y, ok y)) hoff hk hfence hbehind hfit hok op inPlace)

/-- A SIFT word of the acting threads has not completed. -/
def siftBusy (s : State) (x : Env) : Bool :=
  (((s.block? x.bid).map (·.eng)).getD []).any fun r => r.isSift && !r.fin && x.issued r

theorem siftBusy_iff (s : State) (x : Env) : siftBusy s x = true ↔
    ∃ k, s.block? x.bid = some k ∧ ∃ r ∈ k.eng, r.isSift = true ∧ r.fin = false ∧ x.issued r = true := by
  unfold siftBusy
  cases hk : s.block? x.bid with
  | none => simp
  | some k => simp [List.any_eq_true, and_assoc]

theorem sfwait_run (s : State) : exec (.sfwait st) s =
    s.runWord (siftShape tile.toNat st [] false) (groupEff [] fun s x =>
      if siftBusy s x then .wait else .done (s.waited x EReq.isSift) x) := rfl

theorem sfwait_completes :
    Completes (.sfwait st) (siftShape tile.toNat st [] false) (fun s x => ¬siftBusy s x = true)
      (fun s x => (s.waited x EReq.isSift, x)) :=
  completes_of_runWord (sfwait_run tile st) fun _ _ h =>
    (groupEff_once (.inr (List.forall_mem_nil _)) _).trans (if_neg h)

theorem sfwait_waits (s : State) (e : Env) (he : Executes s (siftShape tile.toNat st [] false e) e)
    (h : siftBusy (s.prepare e (siftShape tile.toNat st [] false e)).1
      (s.prepare e (siftShape tile.toNat st [] false e)).2 = true) : exec (.sfwait st) s = .next s :=
  (sfwait_run tile st s).trans
    (runWord_wait he ((groupEff_once (.inr (List.forall_mem_nil _)) _).trans (if_pos h)))

end

/-! ### O42: performing a SIFT word -/

/-- The bytes of one of its results are written: matrix words that read them are disturbed. -/
def siftPut (bid : Nat) (t : State) (w : Nat × List Nat) : State :=
  (t.disturb bid fun r => !r.isSift && meetsAny r.ins w.1 (w.2.flatMap (leBytes 4)).length).spadPut bid w.1
    (w.2.flatMap (leBytes 4))

theorem eng?_bid {s : State} {bid rid : Nat} {x : Eng} (h : s.eng? bid rid = some x) : x.b.bid = bid := by
  unfold State.eng? at h
  obtain ⟨b, hb, h⟩ := Option.bind_eq_some_iff.mp h
  obtain ⟨l, -, h⟩ := Option.bind_eq_some_iff.mp h
  obtain ⟨r, -, h⟩ := Option.bind_eq_some_iff.mp h
  obtain ⟨-, h⟩ := Option.ite_none_right_eq_some.mp h
  obtain rfl := Option.some.inj h
  simpa using List.find?_some hb

section
variable {s : State} {bid : Nat} {x : Eng} {op : SiftOp}

/-- A request of the unit comes before this one of the same issuers. -/
def SiftFirst (x : Eng) (r : EReq) : Prop :=
  r.rid < x.r.rid ∧ r.isSift = true ∧ r.fin = false ∧ ∃ i ∈ r.issuers, i ∈ x.r.issuers

theorem siftFirst_any : (x.b.eng.any fun r => decide (r.rid < x.r.rid) && r.isSift && !r.fin &&
    r.issuers.any fun i => x.r.issuers.contains i) = true ↔ ∃ r ∈ x.b.eng, SiftFirst x r := by
  simp [List.any_eq_true, SiftFirst, and_assoc]

theorem siftPerform_later (hx : s.eng? bid x.r.rid = some x) (hk : x.r.kind = .sift op)
    (h : ∃ r ∈ x.b.eng, SiftFirst x r) : exec (.siftPerform bid x.r.rid) s = .next s := by
  show execSiftPerform bid x.r.rid s = _
  unfold execSiftPerform
  rw [hx]
  dsimp only
  rw [hk]
  exact congrArg Host.Outcome.next (if_pos (siftFirst_any.mpr h))

theorem siftPerform_writes (hx : s.eng? bid x.r.rid = some x) (hk : x.r.kind = .sift op)
    (h : ∀ r ∈ x.b.eng, ¬SiftFirst x r) (hu : x.r.undef = false)
    (ht : op.untagged (nth x.b.parts x.r.part ⟨[], [], [], 0, []⟩) = false) :
    exec (.siftPerform bid x.r.rid) s = .next
      (((s.maskWritten bid x.r.part op.maskReg).siftWrite x op (nth x.b.parts x.r.part ⟨[], [], [], 0, []⟩)).engFinish bid
        x.r) := by
  show execSiftPerform bid x.r.rid s = _
  unfold execSiftPerform
  rw [hx]
  dsimp only
  rw [hk]
  refine congrArg Host.Outcome.next ((if_neg ?_).trans (if_neg ?_))
  · rw [siftFirst_any]
    rintro ⟨r, hr, hf⟩
    exact h r hr hf
  · rw [hu, ht]
    decide

theorem siftWrite_eq (hx : s.eng? bid x.r.rid = some x) (t : State) (p : Part) :
    t.siftWrite x op p = match op.maskOut x.b with
      | some (m, v) => ((op.writes x.b p).foldl (siftPut bid) t).onBlock bid fun b =>
          b.onPart x.r.part fun q => { q with masks := q.masks.set m v }
      | none => (op.writes x.b p).foldl (siftPut bid) t := by
  unfold State.siftWrite
  rw [eng?_bid hx]
  rfl

end

end Sys2Proof.Machine
end

