-- ==== Sys2Proof/Proofs/SiftWords.lean ====
section
/-! PROOF. What each SIFT word writes (R263 to R267), and O42. -/

namespace Sys2Proof.Machine

/-! ### O42: words of the scratchpad -/

theorem take_upto : ∀ (n lo k : Nat), k ≤ n → (upto lo n).take k = upto lo k
  | _, _, 0, _ => by rw [List.take_zero]; rfl
  | n + 1, lo, k + 1, h => by
    rw [upto, List.take_succ_cons, take_upto n (lo + 1) k (by omega), upto]

theorem drop_upto : ∀ (n lo k : Nat), k ≤ n → (upto lo n).drop k = upto (lo + k) (n - k)
  | _, _, 0, _ => rfl
  | n + 1, lo, k + 1, h => by
    rw [upto, List.drop_succ_cons, drop_upto n (lo + 1) k (by omega), Nat.add_assoc, Nat.add_comm 1 k, Nat.succ_sub_succ]

theorem zip_upto_map {α : Type} (f : Nat → α) (lo n : Nat) :
    (upto lo n).zip ((upto lo n).map f) = (upto lo n).map fun i => (i, f i) := by
  have h := List.zip_map' (f := id) (g := f) (l := upto lo n)
  rwa [List.map_id] at h

theorem Block.words_eq (b : Block) (off n : Nat) : b.words off n = (upto 0 n).map fun i => b.spad.nat (off + 4 * i) 4 := by
  unfold Block.words
  refine List.map_congr_left fun i hi => ?_
  rw [mem_upto] at hi
  unfold Memory.nat
  rw [Memory.readN_eq, Memory.readN_eq, ← List.map_drop, ← List.map_take, drop_upto _ _ _ (by omega),
    take_upto _ _ _ (by omega)]

/-! ### O42: the order of values -/

/-- Where a value that is not a NaN stands: below the finite ones, among them, or above. -/
def fvKey : FV → ℤ ×ₗ ℚ
  | .nan => toLex (0, 0)
  | .inf s => toLex (if s then -1 else 1, 0)
  | .fin s m e => toLex (0, (smant s m : ℚ) * 2 ^ e)

/-- The sign of a comparison is that of the difference of the places. -/
theorem cmp_key {u v : FV} (hu : u.isNan = false) (hv : v.isNan = false) :
    (0 < FV.cmp u v ↔ fvKey v < fvKey u) ∧ (FV.cmp u v = 0 ↔ fvKey u = fvKey v) := by
  cases u with
  | nan => cases hu
  | inf s =>
    cases v with
    | nan => cases hv
    | inf t => cases s <;> cases t <;> simp [FV.cmp, fvKey, Prod.Lex.toLex_lt_toLex]
    | fin t n g => cases s <;> simp [FV.cmp, fvKey, Prod.Lex.toLex_lt_toLex]
  | fin s m e =>
    cases v with
    | nan => cases hv
    | inf t => cases t <;> simp [FV.cmp, fvKey, Prod.Lex.toLex_lt_toLex]
    | fin t n g =>
      have hsm : ∀ (s : Bool) (m c : Nat), ((smant s (m * 2 ^ c) : Int) : ℚ) = smant s m * 2 ^ c := by
        intro s m c
        cases s <;> simp [smant]
      obtain ⟨k, hk, hke, hkg⟩ : ∃ k : Int, (if e ≤ g then e else g) = k ∧ k ≤ e ∧ k ≤ g := by
        by_cases h : e ≤ g
        · exact ⟨e, if_pos h, le_refl _, h⟩
        · exact ⟨g, if_neg h, by omega, le_refl _⟩
      have hpow : ∀ e : Int, k ≤ e → (2 : ℚ) ^ e = 2 ^ (e - k).toNat * 2 ^ k := by
        intro e he
        rw [← zpow_natCast, Int.toNat_of_nonneg (by omega), ← zpow_add₀ (by norm_num)]
        congr 1
        omega
      have hpos : (0 : ℚ) < 2 ^ k := by positivity
      simp only [FV.cmp, fvKey, hk, Prod.Lex.toLex_lt_toLex, toLex_inj, Prod.mk.injEq, true_and, lt_irrefl, false_or]
      rw [hpow e hke, hpow g hkg, ← mul_assoc, ← mul_assoc, mul_lt_mul_iff_left₀ hpos, mul_left_inj' hpos.ne', ← hsm, ← hsm,
        Int.cast_lt, Int.cast_inj]
      generalize smant s (m * 2 ^ (e - k).toNat) = x
      generalize smant t (n * 2 ^ (g - k).toNat) = y
      by_cases h1 : x - y < 0
      · rw [if_pos h1]
        omega
      · rw [if_neg h1]
        by_cases h2 : x - y = 0
        · rw [if_pos h2]
          omega
        · rw [if_neg h2]
          omega

/-- Where an entry ranks: NaNs last, greater values first, then by index and column. -/
def Score.key (x : Score) : ℕ ×ₗ (ℤ ×ₗ ℚ)ᵒᵈ ×ₗ ℕ ×ₗ ℕ :=
  toLex ((Fmt.f32.value x.code).isNan.toNat, toLex (OrderDual.toDual (fvKey (Fmt.f32.value x.code)), toLex (x.gidx, x.col)))

/-- A NaN has one place. -/
theorem fvKey_nan {v : FV} (h : v.isNan = true) : fvKey v = toLex (0, 0) := by
  cases v with
  | nan => rfl
  | inf s => cases h
  | fin s m e => cases h

theorem Score.before_iff (x y : Score) : x.before y = true ↔ x.key < y.key := by
  unfold Score.before Score.key
  simp only [Prod.Lex.toLex_lt_toLex, OrderDual.toDual_lt_toDual, OrderDual.toDual_inj]
  cases hx : (Fmt.f32.value x.code).isNan with
  | true =>
    cases hy : (Fmt.f32.value y.code).isNan with
    | true => simp [fvKey_nan hx, fvKey_nan hy]
    | false => simp
  | false =>
    cases hy : (Fmt.f32.value y.code).isNan with
    | true => simp
    | false => simp [cmp_key hx hy]

/-! ### O42: sorting -/

theorem Score.insert_perm (x : Score) (l : List Score) : (x.insert l).Perm (x :: l) := by
  induction l with
  | nil => exact List.Perm.refl _
  | cons y l ih =>
    unfold Score.insert
    split
    · exact List.Perm.refl _
    · exact (ih.cons y).trans (List.Perm.swap x y l)

theorem Score.insert_sorted {x : Score} {l : List Score} (h : l.Pairwise fun a b => a.key < b.key)
    (hx : ∀ y ∈ l, x.key ≠ y.key) : (x.insert l).Pairwise fun a b => a.key < b.key := by
  induction l with
  | nil => exact List.pairwise_singleton _ _
  | cons y l ih =>
    obtain ⟨hy, hl⟩ := List.pairwise_cons.mp h
    unfold Score.insert
    split
    next hb =>
      rw [Score.before_iff] at hb
      refine List.pairwise_cons.mpr ⟨fun z hz => ?_, h⟩
      rcases List.mem_cons.mp hz with rfl | hz
      · exact hb
      · exact hb.trans (hy z hz)
    next hb =>
      rw [Score.before_iff] at hb
      refine List.pairwise_cons.mpr ⟨fun z hz => ?_, ih hl fun z hz => hx z (List.mem_cons_of_mem _ hz)⟩
      rcases List.mem_cons.mp ((x.insert_perm l).mem_iff.mp hz) with rfl | hz
      · exact lt_of_le_of_ne (not_lt.mp hb) (hx y List.mem_cons_self).symm
      · exact hy z hz

/-- Entries of different places, inserted one after another, stand in the order of their places. -/
theorem inserted_sorted (l : List Score) : ∀ acc : List Score, (acc.Pairwise fun a b => a.key < b.key) →
    (l ++ acc).Pairwise (fun a b => a.key ≠ b.key) →
    ((l.foldl (fun l x => x.insert l) acc).Pairwise fun a b => a.key < b.key) ∧
    (l.foldl (fun l x => x.insert l) acc).Perm (l ++ acc) := by
  induction l with
  | nil => exact fun acc h _ => ⟨h, List.Perm.refl _⟩
  | cons x l ih =>
    intro acc h hne
    obtain ⟨hx, hne⟩ := List.pairwise_cons.mp hne
    have hperm : (l ++ x.insert acc).Perm (x :: (l ++ acc)) :=
      ((x.insert_perm acc).append_left l).trans List.perm_middle
    obtain ⟨hs, hp⟩ := ih (x.insert acc) (Score.insert_sorted h fun y hy => hx y (List.mem_append_right _ hy))
      (hperm.symm.pairwise (List.pairwise_cons.mpr ⟨hx, hne⟩) fun h => h.symm)
    exact ⟨hs, hp.trans hperm⟩

/-- Insertion by key, and the sort by it, keep the elements. -/
theorem insKey_perm {α : Type} (key : α → Nat) (x : α) (l : List α) : (insKey key x l).Perm (x :: l) := by
  induction l with
  | nil => exact List.Perm.refl _
  | cons y l ih =>
    unfold insKey
    split
    · exact List.Perm.refl _
    · exact (ih.cons y).trans (List.Perm.swap x y l)

/-- Of two pairs of an index and a value, the first has the lower value, or the same and the lower index. -/
def PairBefore (a b : Nat × Nat) : Prop := a.2 < b.2 ∨ (a.2 = b.2 ∧ a.1 < b.1)

theorem insKey_stable {x : Nat × Nat} {l : List (Nat × Nat)} (h : l.Pairwise PairBefore) (hx : ∀ y ∈ l, y.1 < x.1) :
    (insKey (·.2) x l).Pairwise PairBefore := by
  induction l with
  | nil => exact List.pairwise_singleton _ _
  | cons y l ih =>
    obtain ⟨hy, hl⟩ := List.pairwise_cons.mp h
    unfold insKey
    split
    next hb =>
      refine List.pairwise_cons.mpr ⟨fun z hz => ?_, h⟩
      rcases List.mem_cons.mp hz with rfl | hz
      · exact .inl hb
      · exact .inl (lt_of_lt_of_le hb ((hy z hz).elim Nat.le_of_lt fun h => Nat.le_of_eq h.1))
    next hb =>
      refine List.pairwise_cons.mpr ⟨fun z hz => ?_, ih hl fun z hz => hx z (List.mem_cons_of_mem _ hz)⟩
      rcases List.mem_cons.mp ((insKey_perm _ x l).mem_iff.mp hz) with rfl | hz
      · have hlt := hx y List.mem_cons_self
        unfold PairBefore
        omega
      · exact hy z hz

theorem sorted_stable (l : List (Nat × Nat)) : ∀ acc : List (Nat × Nat), acc.Pairwise PairBefore →
    l.Pairwise (fun a b => a.1 < b.1) → (∀ y ∈ acc, ∀ z ∈ l, y.1 < z.1) →
    (l.foldl (fun acc x => insKey (·.2) x acc) acc).Pairwise PairBefore ∧
    (l.foldl (fun acc x => insKey (·.2) x acc) acc).Perm (l ++ acc) := by
  induction l with
  | nil => exact fun acc h _ _ => ⟨h, List.Perm.refl _⟩
  | cons x l ih =>
    intro acc h hl hacc
    obtain ⟨hx, hl⟩ := List.pairwise_cons.mp hl
    have hperm : (l ++ insKey (·.2) x acc).Perm (x :: (l ++ acc)) :=
      ((insKey_perm _ x acc).append_left l).trans List.perm_middle
    obtain ⟨hs, hp⟩ := ih (insKey (·.2) x acc)
      (insKey_stable h fun y hy => hacc y hy x List.mem_cons_self) hl fun y hy z hz => by
        rcases List.mem_cons.mp ((insKey_perm _ x acc).mem_iff.mp hy) with rfl | hy
        · exact hx z hz
        · exact hacc y hy z (List.mem_cons_of_mem _ hz)
    exact ⟨hs, hp.trans hperm⟩

/-! ### O42: the results of SFMASK and SFMAX (R264, R265) -/

/-- A mask that is summed bit by bit has the bits of its test. -/
theorem mask_sum (c : Nat → Bool) (n : Nat) :
    (upto 0 n).foldl (fun m k => if c k then m + 2 ^ k else m) 0 = joined 1 (fun k => (c k).toNat) n := by
  unfold joined
  congr 1
  funext r k
  rw [Nat.one_mul]
  cases h : c k <;> simp [h]

theorem mask_bit (c : Nat → Bool) {k : Nat} (hk : k < 64) :
    (BitVec.ofNat 64 ((upto 0 64).foldl (fun m k => if c k then m + 2 ^ k else m) 0)).getLsbD k = c k := by
  have h := testBit_joined (w := 1) (f := fun k => (c k).toNat) (fun _ => Bool.toNat_lt _) hk Nat.zero_lt_one
  rw [Nat.one_mul, Nat.add_zero] at h
  rw [mask_sum, BitVec.getLsbD_ofNat, decide_eq_true hk, Bool.true_and, h]
  cases c k <;> rfl

theorem add_fin_isNan (mode : RMode) (s t : Bool) (m n : Nat) (e f : Int) :
    (FV.add mode (.fin s m e) (.fin t n f)).isNan = false := by
  unfold FV.add
  dsimp -zeta only
  extract_lets k x
  split
  · split <;> rfl
  · rfl

theorem sub_isNan (mode : RMode) (u g : FV) : (FV.add mode u (FV.negate g)).isNan = false ↔
    u.isNan = false ∧ g.isNan = false ∧ ∀ z, ¬(u = .inf z ∧ g = .inf z) := by
  cases u with
  | nan => simp [FV.add, FV.isNan]
  | inf s =>
    cases g with
    | nan => simp [FV.add, FV.negate, FV.isNan]
    | inf t => cases s <;> cases t <;> simp [FV.add, FV.negate, FV.isNan]
    | fin t n f => simp [FV.add, FV.negate, FV.isNan]
  | fin s m e =>
    cases g with
    | nan => simp [FV.add, FV.negate, FV.isNan]
    | inf t => simp [FV.add, FV.negate, FV.isNan]
    | fin t n f =>
      rw [FV.negate, add_fin_isNan]
      simp [FV.isNan]

theorem sfmaskRow_iff (g run t : Nat) : sfmaskRow g run t = true ↔
    (Fmt.f32.value t).isNan = false ∧ Fmt.f32.value t ≠ .inf true ∧ (Fmt.f32.value run).isNan = false ∧
      (Fmt.f32.value g).isNan = false ∧ (∀ z, ¬(Fmt.f32.value run = .inf z ∧ Fmt.f32.value g = .inf z)) ∧
      0 ≤ FV.cmp (Fmt.f32.value t) (FV.add .rn (Fmt.f32.value run) (FV.negate (Fmt.f32.value g))) := by
  have hn := sub_isNan .rn (Fmt.f32.value run) (Fmt.f32.value g)
  unfold sfmaskRow
  simp only [Bool.and_eq_true, Bool.not_eq_true', bne_iff_ne, decide_eq_true_eq, hn]
  tauto

/-- A key tile's mask bit is set where some row of it passes. -/
theorem sfmaskBits_bit (b : Block) (tab : Nat) (g : W32) {kt : Nat} (hkt : kt < 64) :
    (sfmaskBits b tab g).getLsbD kt = true ↔
      ∃ r < 32, sfmaskRow g.toNat (b.spad.nat (tab + 4 * r) 4) (b.spad.nat (tab + 128 + 128 * kt + 4 * r) 4) = true := by
  unfold sfmaskBits
  dsimp only
  rw [mask_bit (fun kt => ((b.words tab 32).zip (b.words (tmaxAt tab kt 0) 32)).any
    fun x => sfmaskRow g.toNat x.1 x.2) hkt]
  simp only [Block.words_eq, List.zip_map', List.any_map, List.any_eq_true, mem_upto, tmaxAt, Nat.mul_zero, Nat.add_zero,
    Nat.zero_le, true_and, Nat.zero_add, Function.comp_apply]

section
variable {b : Block} {p : Part} {tab : Nat} {g : W32}

theorem maxCtl_cols {v rows cols kt : Nat} (h : maxCtl v = some (rows, cols, kt)) : 1 ≤ cols := by
  unfold maxCtl at h
  dsimp only at h
  split at h
  next hc =>
    cases h
    omega
  · cases h

theorem maxOf_upto (f : Nat → Nat) {n : Nat} (h : 1 ≤ n) :
    maxOf ((upto 0 n).map f) = (upto 1 (n - 1)).foldl (fun m j => Fmt.f32.maxNum false m (f j)) (f 0) := by
  obtain ⟨n, rfl⟩ := Nat.exists_eq_add_of_le' h
  rw [upto, List.map_cons, maxOf, List.foldl_map]
  rfl

theorem sfmax_writes {t rows cols kt : Nat} {k40 : Bool} (hctl : maxCtl g.toNat = some (rows, cols, kt))
    (htag : (p.tile t).tag = some k40) : ∃ xs runs,
      let v (r j : Nat) : Nat :=
        let x := (p.tile t).elem (32 * r + j)
        Fmt.f32.roundRn (if k40 then FV.ofInt (sext 40 x.toNat) else Fmt.w40.value x.toNat)
      SiftOp.writes (.max t tab g) b p = [(tab + 128 + 128 * kt, xs), (tab, runs)] ∧ xs.length = rows ∧ runs.length = rows ∧
      ∀ r < rows, nth xs r 0 = (upto 1 (cols - 1)).foldl (fun m j => Fmt.f32.maxNum false m (v r j)) (v r 0) ∧
        nth runs r 0 = Fmt.f32.maxNum false (b.spad.nat (tab + 4 * r) 4) (nth xs r 0) := by
  have hwrites : SiftOp.writes (.max t tab g) b p =
      [(tab + 128 + 128 * kt, (upto 0 rows).map fun r => maxOf ((upto 0 cols).map fun j =>
        siftF32 k40 ((p.tile t).elem (32 * r + j)))),
      (tab, (upto 0 rows).map fun r => Fmt.f32.maxNum false (b.spad.nat (tab + 4 * r) 4)
        (maxOf ((upto 0 cols).map fun j => siftF32 k40 ((p.tile t).elem (32 * r + j)))))] := by
    show sfmaxOut b (p.tile t) tab g = _
    unfold sfmaxOut
    rw [hctl, htag]
    simp only [Option.getD_some, zip_upto_map, List.map_map, tmaxAt, Nat.mul_zero, Nat.add_zero]
    rfl
  refine ⟨_, _, hwrites, by simp, by simp, fun r hr => ?_⟩
  rw [nth_map_upto0 hr, nth_map_upto0 hr]
  refine ⟨?_, rfl⟩
  rw [maxOf_upto _ (maxCtl_cols hctl)]
  rfl

end

/-! ### O42: the results of SFTOPK (R266) -/

section
variable (b : Block) (q : TopK)

/-- The code of a column of a score row. -/
def topCode (r c : Nat) : Nat := b.spad.nat (q.val + 4 * (q.cols * r + c)) 4

/-- Its global index. -/
def topIdx (r c : Nat) : Nat := wrap 32 ((match q.idx with
  | some o => (b.spad.nat (o + 4 * (q.cols * r + c)) 4 : Int)
  | none => (c : Int)) + q.goff)

/-- The entry of a column. -/
def topScore (r c : Nat) : Score := ⟨topCode b q r c, topIdx b q r c, c⟩

/-- The entries of a row, ranked. -/
def topRanked (r : Nat) : List Score := ((upto 0 q.cols).map (topScore b q r)).foldl (fun l x => x.insert l) []

theorem topRanked_spec (r : Nat) : ((topRanked b q r).Pairwise fun x y : Score => x.key < y.key) ∧
    (topRanked b q r).Perm ((upto 0 q.cols).map (topScore b q r)) := by
  have hne : (((upto 0 q.cols).map (topScore b q r)) ++ []).Pairwise fun x y : Score => x.key ≠ y.key := by
    rw [List.append_nil, List.pairwise_map]
    refine (upto_sorted 0 q.cols).imp fun {x y} hxy hk => ?_
    simp only [Score.key, topScore, toLex_inj, Prod.mk.injEq] at hk
    omega
  obtain ⟨hs, hp⟩ := inserted_sorted _ [] List.Pairwise.nil hne
  exact ⟨hs, by rwa [List.append_nil] at hp⟩

theorem topRanked_mem {r : Nat} {x : Score} (hx : x ∈ topRanked b q r) : x = topScore b q r x.col := by
  obtain ⟨c, -, rfl⟩ := List.mem_map.mp ((topRanked_spec b q r).2.mem_iff.mp hx)
  rfl

/-- What SFTOPK writes of a row: its first ranks, and what fills the rest. -/
theorem sftopkOut_row {r : Nat} (hr : r < q.rows) :
    (q.oval + 4 * q.k * r, ((topRanked b q r).take q.k).map (·.code) ++ List.replicate (q.k - q.cols) 0x7FC00000) ∈
      sftopkOut b q ∧
    (q.oidx + 4 * q.k * r, ((topRanked b q r).take q.k).map (·.gidx) ++ List.replicate (q.k - q.cols) 0xFFFFFFFF) ∈
      sftopkOut b q := by
  have hlen : (topRanked b q r).length = q.cols := by simpa using (topRanked_spec b q r).2.length_eq
  have hpad : q.k - ((topRanked b q r).take q.k).length = q.k - q.cols := by
    rw [List.length_take, hlen]
    omega
  have hvals : b.words (q.val + 4 * q.cols * r) q.cols = (upto 0 q.cols).map (topCode b q r) := by
    rw [Block.words_eq]
    refine List.map_congr_left fun c _ => ?_
    unfold topCode
    rw [Nat.mul_add, Nat.mul_assoc, Nat.add_assoc]
  have his : ((upto 0 q.cols).zip ((b.words (q.val + 4 * q.cols * r) q.cols).zip (match q.idx with
      | some o => b.words (o + 4 * q.cols * r) q.cols
      | none => upto 0 q.cols))).map (fun x => (⟨x.2.1, wrap 32 (x.2.2 + q.goff : Nat), x.1⟩ : Score)) =
      (upto 0 q.cols).map (topScore b q r) := by
    have hidx : ∃ f : Nat → Nat, (match q.idx with
        | some o => b.words (o + 4 * q.cols * r) q.cols
        | none => upto 0 q.cols) = (upto 0 q.cols).map f ∧ ∀ c, topIdx b q r c = wrap 32 (f c + q.goff : Nat) := by
      cases hq : q.idx with
      | some o =>
        refine ⟨fun c => b.spad.nat (o + 4 * (q.cols * r + c)) 4, ?_, fun c => ?_⟩
        · show b.words (o + 4 * q.cols * r) q.cols = _
          rw [Block.words_eq]
          refine List.map_congr_left fun c _ => ?_
          rw [Nat.mul_add, Nat.mul_assoc, Nat.add_assoc]
        · unfold topIdx
          rw [hq]
          exact congrArg (wrap 32) (Nat.cast_add _ _).symm
      | none =>
        refine ⟨id, (List.map_id _).symm, fun c => ?_⟩
        unfold topIdx
        rw [hq]
        exact congrArg (wrap 32) (Nat.cast_add _ _).symm
    obtain ⟨f, hf, hidx⟩ := hidx
    rw [hf, hvals, List.zip_map', zip_upto_map, List.map_map]
    refine List.map_congr_left fun c _ => ?_
    simp [topScore, hidx]
  have hrow : ∀ w, w ∈ [(q.oval + 4 * q.k * r, ((topRanked b q r).take q.k).map (·.code) ++
        List.replicate (q.k - q.cols) 0x7FC00000),
      (q.oidx + 4 * q.k * r, ((topRanked b q r).take q.k).map (·.gidx) ++
        List.replicate (q.k - q.cols) 0xFFFFFFFF)] → w ∈ sftopkOut b q := by
    intro w hw
    refine List.mem_flatMap.mpr ⟨r, mem_upto.mpr (by omega), ?_⟩
    extract_lets vals is xs top pad
    have htop : top = (topRanked b q r).take q.k := congrArg (fun l => (l.foldl (fun l x => x.insert l) []).take q.k) his
    have hpad' : pad = q.k - q.cols := by rw [← hpad, ← htop]
    rw [htop, hpad']
    exact hw
  exact ⟨hrow _ List.mem_cons_self, hrow _ (List.mem_cons_of_mem _ List.mem_cons_self)⟩

/-- A column ranks before another (R266): NaNs last, greater values first, then by index and column. -/
def TopRanks (r x y : Nat) : Prop :=
  let u := Fmt.f32.value (topCode b q r x)
  let v := Fmt.f32.value (topCode b q r y)
  let tie : Prop := topIdx b q r x < topIdx b q r y ∨ (topIdx b q r x = topIdx b q r y ∧ x < y)
  (u.isNan = false ∧ v.isNan = true) ∨ (u.isNan = true ∧ v.isNan = true ∧ tie) ∨
    (u.isNan = false ∧ v.isNan = false ∧ (0 < FV.cmp u v ∨ (FV.cmp u v = 0 ∧ tie)))

theorem before_ranks {r x y : Nat} (h : (topScore b q r x).before (topScore b q r y) = true) : TopRanks b q r x y := by
  unfold Score.before topScore at h
  unfold TopRanks
  dsimp only at h ⊢
  cases hx : (Fmt.f32.value (topCode b q r x)).isNan with
  | true =>
    cases hy : (Fmt.f32.value (topCode b q r y)).isNan with
    | true =>
      rw [hx, hy] at h
      simpa using h
    | false =>
      rw [hx, hy] at h
      cases h
  | false =>
    cases hy : (Fmt.f32.value (topCode b q r y)).isNan with
    | true => simp
    | false =>
      rw [hx, hy] at h
      simpa using h

theorem sftopk_writes {r : Nat} (hr : r < q.rows) :
    ∃ order : List Nat, order.Perm (upto 0 q.cols) ∧ order.Pairwise (TopRanks b q r) ∧
      (q.oval + 4 * q.k * r, (order.take q.k).map (topCode b q r) ++ List.replicate (q.k - q.cols) 0x7FC00000) ∈
        sftopkOut b q ∧
      (q.oidx + 4 * q.k * r, (order.take q.k).map (topIdx b q r) ++ List.replicate (q.k - q.cols) 0xFFFFFFFF) ∈
        sftopkOut b q := by
  obtain ⟨hsorted, hperm⟩ := topRanked_spec b q r
  have hcols : ((upto 0 q.cols).map (topScore b q r)).map (·.col) = upto 0 q.cols := by
    rw [List.map_map]
    exact List.map_id _
  obtain ⟨hval, hidx⟩ := sftopkOut_row b q hr
  have hmem : ∀ x ∈ (topRanked b q r).take q.k, x = topScore b q r x.col := fun x hx =>
    topRanked_mem b q (List.mem_of_mem_take hx)
  refine ⟨(topRanked b q r).map (·.col), hcols ▸ hperm.map (·.col), ?_, ?_, ?_⟩
  · refine List.pairwise_map.mpr (hsorted.imp_of_mem fun {x y} hx hy h => before_ranks b q ?_)
    rw [← topRanked_mem b q hx, ← topRanked_mem b q hy]
    exact (Score.before_iff x y).mpr h
  · have hcode : (((topRanked b q r).map (·.col)).take q.k).map (topCode b q r) =
        ((topRanked b q r).take q.k).map (·.code) := by
      rw [← List.map_take, List.map_map]
      exact List.map_congr_left fun x hx => congrArg Score.code (hmem x hx).symm
    rwa [hcode]
  · have hgidx : (((topRanked b q r).map (·.col)).take q.k).map (topIdx b q r) =
        ((topRanked b q r).take q.k).map (·.gidx) := by
      rw [← List.map_take, List.map_map]
      exact List.map_congr_left fun x hx => congrArg Score.gidx (hmem x hx).symm
    rwa [hgidx]

end

/-! ### O42: the results of SFHIST, SFSCAN and SFPERM (R267) -/

section
variable (b : Block) (q : SiftDesc)

/-- A word of the input. -/
def siftIn (i : Nat) : Nat := b.spad.nat (q.inp + 4 * i) 4

theorem sfhist_writes : ∃ l, sfhistOut b q = [(q.out, l)] ∧ l.length = q.nb ∧ ∀ k < q.nb,
    nth l k 0 = ((upto 0 q.n).filter fun i => wrap 32 ((siftIn b q i : Int) - q.base) == k).length % 2 ^ 32 := by
  refine ⟨_, rfl, by simp, fun k hk => ?_⟩
  rw [nth_map_upto0 hk, Block.words_eq, List.map_map, List.filter_map, List.length_map]
  rfl

theorem length_sumsOf (l : List Nat) : ∀ t, (sumsOf t l).length = l.length + 1 := by
  induction l with
  | nil => exact fun _ => rfl
  | cons x l ih => exact fun t => congrArg (· + 1) (ih _)

theorem nth_sumsOf (l : List Nat) : ∀ t i, t < 2 ^ 32 → i ≤ l.length →
    nth (sumsOf t l) i 0 = (t + (l.take i).sum) % 2 ^ 32 := by
  induction l with
  | nil =>
    intro t i ht hi
    obtain rfl : i = 0 := Nat.le_zero.mp hi
    exact (Nat.mod_eq_of_lt ht).symm
  | cons x l ih =>
    intro t i ht hi
    cases i with
    | zero => exact (Nat.mod_eq_of_lt ht).symm
    | succ i =>
      have h := ih ((t + x) % 2 ^ 32) i (Nat.mod_lt _ (by norm_num)) (Nat.le_of_succ_le_succ hi)
      rw [List.take_succ_cons, List.sum_cons, ← Nat.add_assoc, ← Nat.mod_add_mod]
      exact h

/-- The sum of the first words of the input. -/
def siftSum (n : Nat) : Nat := ((upto 0 n).map (siftIn b q)).sum % 2 ^ 32

theorem nth_running {i : Nat} (hi : i ≤ q.n) : nth (sumsOf 0 (b.words q.inp q.n)) i 0 = siftSum b q i := by
  have hlen : (b.words q.inp q.n).length = q.n := by simp [Block.words]
  rw [nth_sumsOf _ 0 i (by norm_num) (by rw [hlen]; exact hi), Nat.zero_add, Block.words_eq, ← List.map_take, take_upto _ _ _ hi]
  rfl

theorem sfscan_excl : ∃ l, sfscanOut b q false = [(q.out, l)] ∧ l.length = q.n + 1 ∧
    ∀ i ≤ q.n, nth l i 0 = siftSum b q i :=
  ⟨_, rfl, (length_sumsOf _ 0).trans (by simp [Block.words]), fun _ hi => nth_running b q hi⟩

theorem sfscan_incl : ∃ l, sfscanOut b q true = [(q.out, l)] ∧ l.length = q.n ∧
    ∀ i < q.n, nth l i 0 = siftSum b q (i + 1) := by
  refine ⟨_, rfl, ?_, fun i hi => ?_⟩
  · rw [if_pos rfl, List.length_drop, length_sumsOf]
    simp [Block.words]
  · rw [← nth_running b q hi, if_pos rfl]
    unfold nth
    rw [List.getElem?_drop, Nat.add_comm]

/-- The inputs below the bound, sorted by value and then by index. -/
def permOrder : List Nat :=
  (sortKey (·.2) (((upto 0 q.n).zip (b.words q.inp q.n)).filter fun x => decide (x.2 < q.nb))).map (·.1)

/-- An input stands before another: a lower value, or the same and a lower index. -/
def PermBefore (j i : Nat) : Prop := siftIn b q j < siftIn b q i ∨ (siftIn b q j = siftIn b q i ∧ j < i)

theorem permOrder_spec : (permOrder b q).Pairwise (PermBefore b q) ∧
    (permOrder b q).Perm ((upto 0 q.n).filter fun j => decide (siftIn b q j < q.nb)) := by
  have hpairs : ((upto 0 q.n).zip (b.words q.inp q.n)).filter (fun x => decide (x.2 < q.nb)) =
      ((upto 0 q.n).filter fun j => decide (siftIn b q j < q.nb)).map fun i => (i, siftIn b q i) := by
    rw [Block.words_eq, zip_upto_map, List.filter_map]
    rfl
  have hasc : (((upto 0 q.n).filter fun j => decide (siftIn b q j < q.nb)).map fun i => (i, siftIn b q i)).Pairwise
      fun x y => x.1 < y.1 :=
    List.pairwise_map.mpr ((upto_sorted 0 q.n).filter _)
  obtain ⟨hs, hp⟩ := sorted_stable _ [] List.Pairwise.nil hasc fun y hy => nomatch hy
  rw [List.append_nil] at hp
  unfold permOrder sortKey
  rw [hpairs]
  refine ⟨List.pairwise_map.mpr (hs.imp_of_mem fun {x y} hx hy h => ?_), ?_⟩
  · obtain ⟨i, -, rfl⟩ := List.mem_map.mp (hp.mem_iff.mp hx)
    obtain ⟨j, -, rfl⟩ := List.mem_map.mp (hp.mem_iff.mp hy)
    exact h
  · have h := hp.map (·.1)
    rw [List.map_map] at h
    exact h.trans (List.map_id _ ▸ List.Perm.refl _)

theorem mem_permOrder {i : Nat} : i ∈ permOrder b q ↔ i < q.n ∧ siftIn b q i < q.nb := by
  rw [(permOrder_spec b q).2.mem_iff, List.mem_filter, mem_upto, decide_eq_true_eq]
  simp

/-- The place of an element among some that are numbered from a start. -/
theorem find_numbered (l : List Nat) (i : Nat) : ∀ lo, (((upto lo l.length).zip l).find? fun x => x.2 == i).map (·.1) =
    if i ∈ l then some (lo + l.idxOf i) else none := by
  induction l with
  | nil => exact fun _ => rfl
  | cons x l ih =>
    intro lo
    rw [List.length_cons, upto, List.zip_cons_cons, List.find?_cons]
    by_cases hx : x = i
    · subst hx
      simp
    · have hb : (x == i) = false := by simpa using hx
      simp only [hb, ih, List.idxOf_cons, List.mem_cons]
      by_cases hi : i ∈ l
      · simp [hi]
        omega
      · simp [hi, Ne.symm hx]

/-- In a list in strict order, as many come before an element as its place says. -/
theorem idxOf_eq_count {r : Nat → Nat → Prop} [DecidableRel r] (hasymm : ∀ x y, r x y → ¬r y x) (l : List Nat)
    (h : l.Pairwise r) {i : Nat} (hi : i ∈ l) : l.idxOf i = (l.filter fun j => decide (r j i)).length := by
  induction l with
  | nil => cases hi
  | cons x l ih =>
    obtain ⟨hx, hl⟩ := List.pairwise_cons.mp h
    by_cases hxi : x = i
    · subst hxi
      have hnone : (l.filter fun j => decide (r j x)) = [] := List.filter_eq_nil_iff.mpr fun j hj => by
        simpa using hasymm x j (hx j hj)
      have hself : ¬r x x := fun h => hasymm x x h h
      simp [hself, hnone]
    · have hi := (List.mem_cons.mp hi).resolve_left (Ne.symm hxi)
      have hb : (x == i) = false := by simpa using hxi
      rw [List.idxOf_cons, hb, List.filter_cons, if_pos (by simpa using hx i hi), List.length_cons, ih hl hi]
      rfl

/-- How many inputs satisfy a test. -/
def siftCount (c : Nat → Bool) : Nat := ((upto 0 q.n).filter c).length

theorem length_permOrder : (permOrder b q).length = siftCount q fun j => decide (siftIn b q j < q.nb) :=
  (permOrder_spec b q).2.length_eq

theorem idxOf_permOrder {i : Nat} (hi : i ∈ permOrder b q) : (permOrder b q).idxOf i = siftCount q fun j =>
    decide (siftIn b q j < q.nb ∧ (siftIn b q j < siftIn b q i ∨ (siftIn b q j = siftIn b q i ∧ j < i))) := by
  obtain ⟨hsorted, hperm⟩ := permOrder_spec b q
  have hdec : DecidableRel (PermBefore b q) := fun j i => by
    unfold PermBefore
    infer_instance
  have hasymm : ∀ x y, PermBefore b q x y → ¬PermBefore b q y x := fun x y h h' => by
    unfold PermBefore at h h'
    omega
  rw [idxOf_eq_count hasymm _ hsorted hi, (hperm.filter _).length_eq, List.filter_filter]
  refine congrArg List.length (List.filter_congr fun j _ => ?_)
  rw [← Bool.decide_and]
  exact decide_eq_decide.mpr and_comm

theorem sfperm_writes : ∃ at' of', sfpermOut b q = [(q.out, at'), (q.out2, of')] ∧ at'.length = q.n ∧ of'.length = q.n ∧
    (∀ i < q.n, (q.nb ≤ siftIn b q i → nth at' i 0 = 0xFFFFFFFF) ∧
      (siftIn b q i < q.nb → nth at' i 0 = siftCount q (fun j =>
          decide (siftIn b q j < q.nb ∧ (siftIn b q j < siftIn b q i ∨ (siftIn b q j = siftIn b q i ∧ j < i)))) ∧
        nth of' (nth at' i 0) 0 = i)) ∧
    ∀ i, siftCount q (fun j => decide (siftIn b q j < q.nb)) ≤ i → i < q.n → nth of' i 0 = 0xFFFFFFFF := by
  have hlen : (permOrder b q).length ≤ q.n := by
    rw [length_permOrder]
    exact (List.length_filter_le ..).trans_eq (length_upto ..)
  have hpos : ∀ i, ((((upto 0 (permOrder b q).length).zip (permOrder b q)).find? fun x => x.2 == i).map (·.1)).getD
      0xFFFFFFFF = if i ∈ permOrder b q then (permOrder b q).idxOf i else 0xFFFFFFFF := by
    intro i
    rw [find_numbered]
    split <;> simp
  refine ⟨_, _, rfl, by simp, ?_, fun i hi => ?_, fun i hc hi => ?_⟩
  · show (permOrder b q ++ List.replicate (q.n - (permOrder b q).length) 0xFFFFFFFF).length = q.n
    rw [List.length_append, List.length_replicate]
    omega
  · rw [nth_map_upto0 hi]
    refine ⟨fun hx => ?_, fun hx => ?_⟩
    · refine (hpos i).trans (if_neg fun h => ?_)
      exact absurd ((mem_permOrder b q).mp h).2 (by omega)
    · have hmem := (mem_permOrder b q).mpr ⟨hi, hx⟩
      have hat := (hpos i).trans (if_pos hmem)
      refine ⟨hat.trans (idxOf_permOrder b q hmem), ?_⟩
      have hlt := List.idxOf_lt_length_of_mem hmem
      refine (congrArg (nth _ · 0) hat).trans ((nth_append_left hlt).trans ?_)
      unfold nth
      rw [List.getElem?_eq_getElem hlt, List.getElem_idxOf]
      rfl
  · rw [← length_permOrder] at hc
    show nth (permOrder b q ++ List.replicate (q.n - (permOrder b q).length) 0xFFFFFFFF) i 0 = 0xFFFFFFFF
    unfold nth
    rw [List.getElem?_append_right hc, List.getElem?_replicate, if_pos (by omega)]
    rfl

end

/-! ### O42: the obligation -/

/-- What SFCLR and SFMASK leave (R263, R265). -/
theorem mask_writes (b : Block) (p : Part) (tab : Nat) (g : W32) (incl : Bool) (m : Nat) :
    SiftOp.writes (.clr m tab false) b p = [(tab, List.replicate 2080 0xFF800000)] ∧
    SiftOp.writes (.clr m tab true) b p = [] ∧ SiftOp.writes (.mask m tab g) b p = [] ∧
    (m ≠ 7 → SiftOp.maskOut (.clr m tab incl) b = some (m, 0)) ∧
    (m = 7 → SiftOp.maskOut (.clr m tab incl) b = none ∧ SiftOp.maskOut (.mask m tab g) b = none) ∧
    (m ≠ 7 → ∃ v : W64, SiftOp.maskOut (.mask m tab g) b = some (m, v) ∧ ∀ kt < 64, (v.getLsbD kt = true ↔
      ∃ r < 32, sfmaskRow g.toNat (b.spad.nat (tab + 4 * r) 4) (b.spad.nat (tab + 128 + 128 * kt + 4 * r) 4) = true)) :=
  ⟨rfl, rfl, rfl, fun h => if_neg h, fun h => ⟨if_pos h, if_pos h⟩,
    fun h => ⟨_, if_neg h, fun _ hkt => sfmaskBits_bit b tab g hkt⟩⟩

/-- Settles O42: the words at issue, what performing one leaves, and what each writes. -/
theorem siftWords : Obligations.SiftWords := by
  unfold Obligations.SiftWords
  refine ⟨fun tile m a b only incl st => ?_, fun s bid x op hx hk => ?_, fun b p tab g d incl => ⟨?_, ?_, ?_, ?_⟩⟩
  · intro sh A B one two fits desc issue word four
    refine ⟨sfclr_completes tile m a only st, sfmax_completes tile a b st, sfmax_traps tile a b st,
      sfmask_completes tile m a b st, ?_, ?_, ?_, ?_, ?_⟩
    · exact desc_completes tile a st (op := .topk) (ins := fun x => (topkOf x).ins) (outs := fun x => (topkOf x).outs)
        (ok := fun x => (topkOf x).ok) (inPlace := false) fun _ => rfl
    · exact desc_completes tile a st (op := .hist) (ins := fun x => [((siftDescOf x).inp, 4 * (siftDescOf x).n)])
        (outs := fun x => [((siftDescOf x).out, 4 * (siftDescOf x).nb)])
        (ok := fun x => (siftDescOf x).ok && (siftDescOf x).out2 == 0 && (siftDescOf x).nb != 0) (inPlace := false)
        fun _ => rfl
    · exact desc_completes tile a st (op := fun x => .scan x incl)
        (ins := fun x => [((siftDescOf x).inp, 4 * (siftDescOf x).n)])
        (outs := fun x => [((siftDescOf x).out, 4 * (if incl then (siftDescOf x).n else (siftDescOf x).n + 1))])
        (ok := fun x => (siftDescOf x).ok && (siftDescOf x).out2 == 0 && (siftDescOf x).nb == 0 && (siftDescOf x).base == 0)
        (inPlace := incl) fun _ => rfl
    · exact desc_completes tile a st (op := .perm) (ins := fun x => [((siftDescOf x).inp, 4 * (siftDescOf x).n)])
        (outs := fun x => [((siftDescOf x).out, 4 * (siftDescOf x).n), ((siftDescOf x).out2, 4 * (siftDescOf x).n)])
        (ok := fun x => (siftDescOf x).ok && (siftDescOf x).base == 0 && (siftDescOf x).nb != 0) (inPlace := false)
        fun _ => rfl
    · intro busy
      refine ⟨fun s e he hb => ?_, fun s e he hb => sfwait_waits tile st s e he ((siftBusy_iff ..).mpr hb)⟩
      exact sfwait_completes tile st s e he (mt (siftBusy_iff ..).mp hb)
  · intro q first put t
    refine ⟨siftPerform_later hx hk, fun hno hu ht => ⟨fun hout => ?_, fun m v hout => ?_⟩⟩
    · rw [siftPerform_writes hx hk hno hu ht, siftWrite_eq hx, hout]
      rfl
    · rw [siftPerform_writes hx hk hno hu ht, siftWrite_eq hx, hout]
      rfl
  · intro m
    have h := mask_writes b p tab g incl m
    simp only [sfmaskRow_iff] at h
    exact h
  · exact fun t rows cols kt k40 hctl htag => sfmax_writes hctl htag
  · exact fun r hr => sftopk_writes b (topkOf d.toNat) hr
  · exact ⟨sfhist_writes b (siftDescOf d.toNat), sfscan_excl b (siftDescOf d.toNat), sfscan_incl b (siftDescOf d.toNat),
      sfperm_writes b (siftDescOf d.toNat)⟩

end Sys2Proof.Machine
end

