-- ==== Sys2Proof/Proofs/DebugCommands.lean ====
section
/-! PROOF. The DBG words and their operations (R196, R362 to R365). -/

namespace Sys2Proof.Machine

/-! ### O43: the words -/

section
variable (d a : RegN)

/-- The shape of a DBG word. -/
def dbgShape (e : Env) : Shape :=
  { dsts := [d.toNat], srcs := [a.toNat, a.toNat + 1], lat := none, pre := if e.level = .kernel then some 4 else none }

/-- The address of a DBG word's block. -/
def dbgVa (x : Env) : Nat := x.val true a.toNat x.first

/-- A DBG word completes with a status. -/
def dbgPut (s : State) (x : Env) (n : Nat) : State × Env :=
  (s.acquire x.core .system, x.write d.toNat (.form (BitVec.ofNat 32 n) 0))

/-- What a DBG word makes of its operation's outcome. -/
def dbgOutcome (x : Env) : DbgDone → Eff
  | .status s n => .done (dbgPut d s x n).1 (dbgPut d s x n).2
  | .wait => .wait
  | .begun s t => .moved (s.onUnit x.who fun u => { u with asked := true, token := t })

/-- What a DBG word does with its environment. -/
def dbgEff (op : DbgOp) (s : State) (x : Env) : Eff :=
  match x.ctx with
  | none => .trap 17 (BitVec.ofNat 64 (dbgVa a x)) x.count
  | some c =>
    if x.unit.asked then (if s.dbgPending c op x.unit.token then .wait else .done (dbgPut d s x 0).1 (dbgPut d s x 0).2)
    else if dbgVa a x % 32 ≠ 0 then .done (dbgPut d s x 8).1 (dbgPut d s x 8).2
    else match s.dbgHalf x (dbgVa a x) with
      | .bad y => y
      | .ok s lo => match s.dbgHalf x (dbgVa a x + 32) with
        | .bad y => y
        | .ok s hi =>
          if (s.askFabric x 32 (lo ++ hi)).2 then .hold (s.askFabric x 32 (lo ++ hi)).1 .fabricWait
          else (s.askFabric x 32 (lo ++ hi)).1.sound x 32 0 false (lo ++ hi) <|
            dbgOutcome d x (((s.askFabric x 32 (lo ++ hi)).1.takeFabric x (lo ++ hi)).dbgDo c op (DbgCmd.of
              (leNat ((lo ++ hi).flatMap fun y => (s.askFabric x 32 (lo ++ hi)).1.readElem x y 32 false))))

theorem privWord_eq (e : Env) : privWord e = if e.level = .kernel then some 4 else none := by
  unfold privWord
  cases e.level <;> rfl

theorem dbg_run (op : DbgOp) (s : State) : s.dbg' op d a = s.runWord (dbgShape d a) (dbgEff d a op) := by
  unfold State.dbg'
  simp only [privWord_eq]
  rfl

/-- The command block has been read, and nothing holds it. -/
structure DbgReads (s : State) (x : Env) (c : Ctx) (lo hi : List Elem) (t1 t2 : State) : Prop where
  ctx : x.ctx = some c
  fresh : x.unit.asked = false
  aligned : dbgVa a x % 32 = 0
  low : s.checks x ⟨32, 1, false, .read, 0⟩ [x.first] (fun _ => dbgVa a x) = .ok t1 lo
  high : t1.checks x ⟨32, 1, false, .read, 0⟩ [x.first] (fun _ => dbgVa a x + 32) = .ok t2 hi
  fabric : t2.askFabric x 32 (lo ++ hi) = (t2, false)
  sound : ∀ y ∈ lo ++ hi, t2.badElem x y 32 false = false

/-- What a DBG word that has read its block makes of the operation's outcome. -/
theorem dbgEff_reads {op : DbgOp} {s : State} {x : Env} {c : Ctx} {lo hi : List Elem} {t1 t2 : State}
    (h : DbgReads a s x c lo hi t1 t2) {o : DbgDone} (ho : (t2.takeFabric x (lo ++ hi)).dbgDo c op
      (DbgCmd.of (leNat ((lo ++ hi).flatMap fun y => t2.readElem x y 32 false))) = o) :
    dbgEff d a op s x = dbgOutcome d x o := by
  obtain ⟨hctx, hfresh, hal, hlo, hhi, hf, hs⟩ := h
  unfold dbgEff State.dbgHalf
  simp only [hctx, hfresh, hal, hlo, hhi, hf, Bool.false_eq_true, if_false, ne_eq, not_true_eq_false]
  rw [sound_eq hs, ho]

section
variable {i : Instr} {op : DbgOp} (hi : ∀ s, exec i s = s.dbg' op d a)
include hi

theorem dbg_misaligned (c : Ctx) :
    Completes i (dbgShape d a) (fun _ x => x.ctx = some c ∧ x.unit.asked = false ∧ dbgVa a x % 32 ≠ 0)
      (fun s x => dbgPut d s x 8) := by
  refine completes_of_runWord (fun s => (hi s).trans (dbg_run d a op s)) fun s x h => ?_
  obtain ⟨hctx, hfresh, hal⟩ := h
  unfold dbgEff
  simp only [hctx, hfresh, Bool.false_eq_true, if_false, ne_eq, hal, not_false_eq_true, if_true]

theorem dbg_status (c : Ctx) (lo hi' : List Elem) (t1 t2 t3 : State) (n : Nat) :
    Completes i (dbgShape d a) (fun s x => DbgReads a s x c lo hi' t1 t2 ∧ (t2.takeFabric x (lo ++ hi')).dbgDo c op
        (DbgCmd.of (leNat ((lo ++ hi').flatMap fun y => t2.readElem x y 32 false))) = .status t3 n)
      (fun _ x => dbgPut d t3 x n) :=
  completes_of_runWord (fun s => (hi s).trans (dbg_run d a op s)) fun _ _ h => dbgEff_reads d a h.1 h.2

theorem dbg_begins (c : Ctx) (lo hi' : List Elem) (t1 t2 t3 : State) (n : Nat) :
    Moves i (dbgShape d a) (fun s x => DbgReads a s x c lo hi' t1 t2 ∧ (t2.takeFabric x (lo ++ hi')).dbgDo c op
        (DbgCmd.of (leNat ((lo ++ hi').flatMap fun y => t2.readElem x y 32 false))) = .begun t3 n)
      (fun _ x => t3.onUnit x.who fun u => { u with asked := true, token := n }) :=
  moves_of_runWord (fun s => (hi s).trans (dbg_run d a op s)) fun _ _ h => dbgEff_reads d a h.1 h.2

theorem dbg_ends (c : Ctx) :
    Completes i (dbgShape d a)
      (fun s x => x.ctx = some c ∧ x.unit.asked = true ∧ s.dbgPending c op x.unit.token = false)
      (fun s x => dbgPut d s x 0) := by
  refine completes_of_runWord (fun s => (hi s).trans (dbg_run d a op s)) fun s x h => ?_
  obtain ⟨hctx, hasked, hdone⟩ := h
  unfold dbgEff
  simp only [hctx, hasked, hdone, if_true, Bool.false_eq_true, if_false]

theorem dbg_waits (s : State) (e : Env) (c : Ctx) (he : s.env? s.turn = some e) (hc : s.hazard e (dbgShape d a e) = none)
    (hctx : e.ctx = some c) (hasked : e.unit.asked = true)
    (hp : (s.prepare e (dbgShape d a e)).1.dbgPending c op e.unit.token = true) : exec i s = .next s := by
  have hrest := (prepare_reads s e (dbgShape d a e)).1.rest
  have hctx' : (s.prepare e (dbgShape d a e)).2.ctx = some c := by rw [hrest]; exact hctx
  have hunit : (s.prepare e (dbgShape d a e)).2.unit = e.unit := by rw [hrest]
  have hwait : dbgEff d a op (s.prepare e (dbgShape d a e)).1 (s.prepare e (dbgShape d a e)).2 = .wait := by
    unfold dbgEff
    simp only [hctx', hunit, hasked, hp, if_true]
  rw [hi, dbg_run]
  unfold State.runWord
  simp only [he, hc, hwait]

theorem dbg_privileged (s : State) (e : Env) (he : s.env? s.turn = some e) (hk : e.level = .kernel) :
    exec i s = .next (s.trapWord e 4 (BitVec.ofNat 64 e.unit.word) e.count) := by
  have hpre : (dbgShape d a e).pre = some 4 := if_pos hk
  rw [hi, dbg_run]
  refine runWord_hazard he ?_
  unfold State.hazard
  rw [hpre]

end

end

/-! ### O43: an operation on its command block -/

section
variable (s : State) (c : Ctx) (x : DbgCmd)

/-- The launch that a command block names. -/
def dbgLaunch : Option Launch :=
  s.launches.find? fun l => l.ctx.desc == c.desc && l.sitePc.toNat == x.site && l.lseq == x.lseq && l.st != .done

/-- What an operation does once its block and the mailbox have passed. -/
def dbgOwnCodes (op : DbgOp) : DbgDone := match op with
  | .setbp => if x.addr % 4 ≠ 0 then .status s 6 else .status (s.putCmp c.part x.slot (some (c.desc, BitVec.ofNat 64 x.addr))) 0
  | .clrbp => .status (s.putCmp c.part x.slot none) 0
  | .setwp =>
    if decide (3 < x.slot) then .status s 5
    else if !watchOk x.addr x.len then .status s 6
    else .status (s.putWatch c.part x.slot (some ⟨c.desc, BitVec.ofNat 64 x.addr, x.len, BitVec.ofNat 3 x.wkind⟩)) 0
  | .clrwp => if decide (3 < x.slot) then .status s 5 else .status (s.putWatch c.part x.slot none) 0
  | .read => s.dbgRead c (dbgLaunch s c x) x
  | .post =>
    let data := 7 * 2 ^ 104 + x.data % 2 ^ 96
    let t := s.report c data none
    if t.pend.length = s.pend.length then .status t 0 else .begun t data
  | _ => match dbgLaunch s c x with
    | none => .status s 1
    | some l => s.dbgGroups c op l x

variable {s c x}

theorem dbgDo_dirty {op : DbgOp} (h : x.clean op = false) : s.dbgDo c op x = .status s 8 := by
  unfold State.dbgDo
  exact if_pos (by rw [h]; rfl)

theorem dbgDo_detached {op : DbgOp} (h : x.clean op = true) (ha : s.attached (some c) = false) :
    s.dbgDo c op x = .status s 7 := by
  unfold State.dbgDo
  exact (if_neg (by rw [h]; decide)).trans (if_pos (by rw [ha]; rfl))

theorem dbgDo_good {op : DbgOp} (h : x.clean op = true ∧ s.attached (some c) = true) :
    s.dbgDo c op x = dbgOwnCodes s c x op := by
  unfold State.dbgDo
  refine (if_neg (by rw [h.1]; decide)).trans ((if_neg (by rw [h.2]; decide)).trans ?_)
  cases op <;> rfl

theorem groups_none {op : DbgOp} (hop : op = .halt ∨ op = .resume ∨ op = .step) (h : dbgLaunch s c x = none) :
    dbgOwnCodes s c x op = .status s 1 := by
  rcases hop with rfl | rfl | rfl <;> (unfold dbgOwnCodes; rw [h])

theorem groups_some {op : DbgOp} (hop : op = .halt ∨ op = .resume ∨ op = .step) {l : Launch} (h : dbgLaunch s c x = some l) :
    dbgOwnCodes s c x op = s.dbgGroups c op l x := by
  rcases hop with rfl | rfl | rfl <;> (unfold dbgOwnCodes; rw [h])

variable {l : Launch}

theorem dbgGroups_none {op : DbgOp} (h : s.dbgTarget l x.idx = none) : s.dbgGroups c op l x = .status s 2 := by
  unfold State.dbgGroups
  rw [h]

variable {b : Block} {u : DbgUnit}

theorem dbgTarget_some {idx : Nat} (h : s.dbgTarget l idx = some (b, u)) :
    b.lid = l.lid ∧ b.num = idx / l.b ∧ s.primary b = true ∧ idx ∈ u.2.1.indices u.2.2 := by
  unfold State.dbgTarget at h
  obtain ⟨b', hb, h⟩ := Option.bind_eq_some_iff.mp h
  obtain ⟨u', hu, h⟩ := Option.bind_eq_some_iff.mp h
  obtain ⟨rfl, rfl⟩ : b' = b ∧ u' = u := by simpa using h
  have hb := List.find?_some hb
  have hu := List.find?_some hu
  simp only [Bool.and_eq_true, beq_iff_eq] at hb
  obtain ⟨⟨⟨hl, hn⟩, -⟩, hp⟩ := hb
  exact ⟨hl, hn, hp, by simpa using hu⟩

/-- The groups a .halt asks. -/
def dbgRuns (s : State) (x : DbgCmd) (b : Block) (u : DbgUnit) : List DbgUnit :=
  (b.dbgOwn.filter (dbgNames x.scope u)).filter fun y => !s.stands y.2.2

/-- The halted groups that a .resume or a .step names. -/
def dbgHalted (s : State) (x : DbgCmd) (b : Block) (u : DbgUnit) : List DbgUnit :=
  ((s.dbgUnits b).filter (dbgNames x.scope u)).filter haltedUnit

variable (ht : s.dbgTarget l x.idx = some (b, u))
include ht

theorem halt_none (h : dbgRuns s x b u = []) : s.dbgGroups c .halt l x = .status s 4 := by
  unfold dbgRuns at h
  unfold State.dbgGroups
  rw [ht]
  simp only [h]

theorem halt_begins (h : dbgRuns s x b u ≠ []) : s.dbgGroups c .halt l x =
    .begun ((({ s with nextId := s.nextId + 1 } : State).onUnits (dbgRuns s x b u) fun y =>
      { y.2.2 with haltReq := true, haltBy := y.2.2.haltBy ++ [s.nextId] }).trigger c 3) s.nextId := by
  unfold State.dbgGroups
  rw [ht]
  dsimp only
  split
  next hn => exact absurd hn h
  next => rfl

theorem resume_none {op : DbgOp} (hop : op ≠ .halt) (h : dbgHalted s x b u = []) :
    s.dbgGroups c op l x = .status s 3 := by
  unfold dbgHalted at h
  unfold State.dbgGroups
  rw [ht]
  dsimp only
  split
  next => exact absurd rfl hop
  next => rw [h]

theorem resume_some {op : DbgOp} (hop : op ≠ .halt) (h : dbgHalted s x b u ≠ []) :
    s.dbgGroups c op l x =
      if (dbgHalted s x b u).any fun y => !s.quietUnit b y.2.1 y.2.2 then .wait
      else .status (((dbgHalted s x b u).foldl (fun (s : State) y => s.onGrp y.1 fun g => g.landed y.2.2)
        { s with nextId := s.nextId + 1 }).onUnits (dbgHalted s x b u)
          (s.dbgGo (if op = .step then some s.nextId else none))) 0 := by
  unfold State.dbgGroups
  rw [ht]
  dsimp only
  split
  next => exact absurd rfl hop
  next =>
    split
    next hn => exact absurd hn h
    next => rfl

omit ht

/-- Nothing is in flight for the halted groups. -/
theorem quiet_iff {ys : List DbgUnit} : (ys.any fun y => !s.quietUnit b y.2.1 y.2.2) = false ↔
    ∀ y ∈ ys, ∀ a ∈ s.atoms, a.bid = b.bid → a.idx ∉ y.2.1.indices y.2.2 := by
  simp [State.quietUnit, List.any_eq_false]

end

/-! ### O43: .read, and what an operation waits for -/

section
variable {s : State} {c : Ctx} {x : DbgCmd}

/-- What .read writes of a named group. -/
def dbgImage (s : State) (c : Ctx) (x : DbgCmd) : Option Launch → DbgDone
  | none => .status s 1
  | some l =>
    match s.dbgTarget l x.idx with
    | none => .status s 2
    | some (b, y) =>
      if !haltedUnit y then .status s 3
      else if x.buf % 64 ≠ 0 ∨ s.dbgBuf c x.buf 568 = false then .status s 6
      else .status ((s.devWrite x.buf ((s.kernEnv y.1 b l y.2.1 y.2.2).image x.idx s.free)).spend 128) 0

theorem read_named (hu : x.unit = 0) : (dbgLaunch s c x = none → s.dbgRead c (dbgLaunch s c x) x = .status s 1) ∧
    ∀ l, dbgLaunch s c x = some l → (s.dbgTarget l x.idx = none → s.dbgRead c (dbgLaunch s c x) x = .status s 2) ∧
      ∀ b w g u, s.dbgTarget l x.idx = some (b, w, g, u) →
        let bad : Prop := x.buf % 64 ≠ 0 ∨ s.dbgBuf c x.buf 568 = false
        (u.stat ≠ .halted → s.dbgRead c (dbgLaunch s c x) x = .status s 3) ∧
        (u.stat = .halted → bad → s.dbgRead c (dbgLaunch s c x) x = .status s 6) ∧
        (u.stat = .halted → ¬bad → s.dbgRead c (dbgLaunch s c x) x = .status
          ((s.devWrite x.buf ((s.kernEnv w b l g u).image x.idx s.free)).spend 128) 0) := by
  have hread : ∀ l, s.dbgRead c l x = dbgImage s c x l := by
    intro l
    unfold State.dbgRead
    rw [hu]
    rfl
  simp only [hread]
  refine ⟨fun h => by rw [h]; rfl, fun l h => ⟨fun ht => ?_, fun b w g u ht => ?_⟩⟩
  · rw [h]
    simp only [dbgImage, ht]
  rw [h]
  simp only [dbgImage, ht, haltedUnit]
  refine ⟨fun hs => if_pos (by simpa using hs), fun hs hb => ?_, fun hs hb => ?_⟩
  · exact (if_neg (by simp [hs])).trans (if_pos hb)
  · exact (if_neg (by simp [hs])).trans (if_neg hb)

theorem read_rearms (l : Option Launch) (hu : x.unit = 15) :
    s.dbgRead c l x = .status (s.onDbg c.part fun d => { d with fired := false, snaps := [] }) 0 := by
  unfold State.dbgRead
  rw [hu]
  rfl

theorem read_snapshot (l : Option Launch) (h0 : x.unit ≠ 0) (h15 : x.unit ≠ 15) :
    let bad : Prop := x.buf % 64 ≠ 0 ∨ s.dbgBuf c x.buf 64 = false
    let snap := (nth s.dbg c.part ⟨[], [], false, []⟩).snaps.find? fun k => k.unit == x.unit && k.inst == x.addr
    (bad → s.dbgRead c l x = .status s 6) ∧
    (¬bad → snap = none → s.dbgRead c l x = .status (s.devWrite x.buf (leBytes 64 0)) 0) ∧
    ∀ k, ¬bad → snap = some k → s.dbgRead c l x = .status (s.devWrite x.buf (leBytes 64 k.data.toNat)) 0 := by
  intro bad snap
  have hread : s.dbgRead c l x = if bad then .status s 6
      else .status (s.devWrite x.buf (leBytes 64 ((snap.map (·.data.toNat)).getD 0))) 0 := by
    unfold State.dbgRead
    split
    next h => exact absurd h h0
    next h => exact absurd h h15
    next => rfl
  rw [hread]
  refine ⟨fun h => if_pos h, fun h hs => (if_neg h).trans ?_, fun k h hs => (if_neg h).trans ?_⟩
  · rw [hs]
    rfl
  · rw [hs]
    rfl

theorem haltPending_iff (k : Nat) : s.dbgPending c .halt k = true ↔ ∃ b ∈ s.blocks, b.st ≠ .ended ∧ ∃ g ∈ b.groups,
    ∃ u ∈ g.units, u.haltReq = true ∧ u.stat ≠ .halted ∧ k ∈ u.haltBy := by
  simp [State.dbgPending, State.haltsPending, List.any_eq_true, and_assoc]

theorem postPending_iff (k : Nat) : s.dbgPending c .post k = true ↔
    ∃ p ∈ s.pend, p.isReport = true ∧ p.ctx.mbox = c.mbox ∧ p.data = BitVec.ofNat 512 k := by
  simp [State.dbgPending, List.any_eq_true, and_assoc]

end

end Sys2Proof.Machine
end

