-- ==== Sys2Proof/Proofs/DebugStops.lean ====
section
/-! PROOF. A group that stops for a .halt or a .step (R363, R364, R373). -/

namespace Sys2Proof.Machine

/-! ### O43: a block that stands alone under its number -/

/-- A block is the only one of its number. -/
structure Alone (s : State) (b : Block) : Prop where
  here : s.block? b.bid = some b
  only : ∀ x ∈ s.blocks, x.bid = b.bid → x = b

section
variable {s : State} {b : Block}

theorem Alone.onBlock (h : Alone s b) {f : Block → Block} (hf : (f b).bid = b.bid) :
    s.onBlock b.bid f = s.setBlock (f b) := by
  unfold State.onBlock State.setBlock mapIf
  congr 1
  refine List.map_congr_left fun x hx => ?_
  rw [hf]
  by_cases hb : x.bid = b.bid
  · rw [if_pos (beq_iff_eq.mpr hb), if_pos (beq_iff_eq.mpr hb), h.only x hx hb]
  · rw [if_neg (by simpa using hb), if_neg (by simpa using hb)]

theorem Alone.setBlock (h : Alone s b) {k : Block} (hk : k.bid = b.bid) : Alone (s.setBlock k) k := by
  refine ⟨hk ▸ block?_setBlock h.here hk, fun x hx hb => ?_⟩
  obtain ⟨y, hy, rfl⟩ := List.mem_map.mp hx
  by_cases hyb : (y.bid == k.bid) = true
  · exact if_pos hyb
  · rw [if_neg hyb] at hb
    exact absurd (beq_iff_eq.mpr hb) hyb

theorem setBlock_setBlock {k k' : Block} (hk : k'.bid = k.bid) : (s.setBlock k).setBlock k' = s.setBlock k' := by
  unfold State.setBlock mapIf
  congr 1
  rw [List.map_map]
  refine List.map_congr_left fun x _ => ?_
  rw [hk, Function.comp_apply]
  by_cases hx : x.bid = k.bid
  · simp [hx]
  · simp [hx]

end

/-! ### O43: a group that is to stop (R363, R364) -/

/-- The group of one unit, with nothing in flight. -/
def stoppedGrp (g : Grp) (u v : ISet) : Grp := { (g.onLanes u fun x => { x with flight := [] }) with units := [v] }

/-- A unit, halted. -/
def haltedAt (u : ISet) : ISet := { u with stat := .halted }

/-- The units of a block of one group and one unit. -/
theorem dbgUnits_one {s : State} {b : Block} {g : Grp} {u : ISet} (ht : ∀ t ∈ s.traps, t.bid ≠ b.bid)
    (hg : b.groups = [g]) (hu : g.units = [u]) : s.dbgUnits b = [(.kern b.bid g.gid u.low, g, u)] := by
  have hnone : s.traps.filter (·.bid == b.bid) = [] := List.filter_eq_nil_iff.mpr fun t h => by simpa using ht t h
  unfold State.dbgUnits State.dbgHands Block.dbgOwn
  rw [hnone, hg]
  simp [hu]

section
variable {s : State} {b : Block} {l : Launch} {g : Grp} {u : ISet}
variable (ha : Alone s b) (ht : ∀ t ∈ s.traps, t.bid ≠ b.bid) (hg : b.groups = [g])
include ha hg

/-- The one group of a block changes. -/
theorem onGrp_one (low : Nat) (f : Grp → Grp) :
    s.onGrp (.kern b.bid g.gid low) f = s.setBlock { b with groups := [f g] } := by
  refine (ha.onBlock rfl).trans ?_
  rw [hg]
  simp [mapIf]

theorem onUnit_one (hu : g.units = [u]) (hlow : bit u.lanes.toNat u.low = true) (f : ISet → ISet) :
    s.onUnit (.kern b.bid g.gid u.low) f = s.setBlock { b with groups := [{ g with units := [f u] }] } := by
  unfold State.onUnit
  refine (onGrp_one ha hg _ _).trans ?_
  simp [hu, mapIf, hlow]

include ht

theorem stopUnits_one (hu : g.units = [u]) (hlow : bit u.lanes.toNat u.low = true) (hs : s.stopsHere b g u = true) :
    s.stopUnits b = s.setBlock { b with groups := [stoppedGrp g u (haltedAt u)] } := by
  unfold State.stopUnits
  rw [dbgUnits_one ht hg hu, List.filter_cons, if_pos hs, List.filter_nil, List.foldl_cons, List.foldl_nil,
    onGrp_one ha hg]
  have h1 := ha.setBlock (k := { b with groups := [g.landed u] }) rfl
  refine (onUnit_one (b := { b with groups := [g.landed u] }) (g := g.landed u) h1 rfl (u := u) hu hlow _).trans ?_
  exact setBlock_setBlock rfl

end

/-- One report owed, once no operation of its is open. -/
theorem owedNow_one (r : Owed) : owedNow [] [r] = ([r], []) := by
  unfold owedNow
  simp [sortKey, insKey]

/-- What settling a block does once its units have stopped. -/
def settleStopped (s : State) (b : Block) (l : Launch) : State :=
  let us := s.dbgUnits b
  let new := us.flatMap fun x =>
    (if x.2.2.haltEnds then [s.owe b l x x.2.2.haltBy 5 0] else []) ++
      (if stepEnds b.groups us x.2.2 then [s.owe b l x x.2.2.stepBy 6 x.2.2.stepFlags] else [])
  let t := s.onUnits (us.filter fun x => x.2.2.haltEnds || stepEnds b.groups us x.2.2) fun x => x.2.2.settled b.groups us
  let r := owedNow (opsOpen (((t.block? b.bid).map t.dbgUnits).getD [])) (b.owed ++ new)
  r.1.foldl (fun (s : State) r => s.report l.ctx r.data (some r.who)) (t.onBlock b.bid fun b => { b with owed := r.2 })

theorem settleBlock_stopped {s : State} {b k : Block} {l : Launch} (h : (s.stopUnits b).block? b.bid = some k) :
    s.settleBlock b l = settleStopped (s.stopUnits b) k l := by
  have hsettle : s.settleBlock b l = match (s.stopUnits b).block? b.bid with
      | none => s.stopUnits b
      | some k => settleStopped (s.stopUnits b) k l := rfl
  rw [hsettle, h]

section
variable {s : State} {b : Block} {l : Launch} {g : Grp} {u v : ISet}

/-- The one stopped group of a block settles, and its report is posted. -/
theorem settleStopped_one (ha : Alone s b) (ht : ∀ t ∈ s.traps, t.bid ≠ b.bid) (hg : b.groups = [g]) (hu : g.units = [u])
    (hlow : bit u.lanes.toNat u.low = true) (howed : b.owed = []) {r : Owed}
    (hends : (u.haltEnds || stepEnds [g] [(.kern b.bid g.gid u.low, g, u)] u) = true)
    (hv : u.settled [g] [(.kern b.bid g.gid u.low, g, u)] = v) (hclosed : v.haltReq = false ∧ v.stepping = false)
    (hnew : (if u.haltEnds then [s.owe b l (.kern b.bid g.gid u.low, g, u) u.haltBy 5 0] else []) ++
      (if stepEnds [g] [(.kern b.bid g.gid u.low, g, u)] u then
        [s.owe b l (.kern b.bid g.gid u.low, g, u) u.stepBy 6 u.stepFlags] else []) = [r]) :
    settleStopped s b l = (s.setBlock { b with groups := [{ g with units := [v] }], owed := [] }).report l.ctx r.data
      (some r.who) := by
  have hset : ∀ f : DbgUnit → ISet, f (.kern b.bid g.gid u.low, g, u) = v →
      s.onUnits [(.kern b.bid g.gid u.low, g, u)] f = s.setBlock { b with groups := [{ g with units := [v] }] } := by
    intro f hf
    unfold State.onUnits
    rw [List.foldl_cons, List.foldl_nil, onUnit_one ha hg hu hlow, hf]
  have hafter := ha.setBlock (k := { b with groups := [{ g with units := [v] }] }) rfl
  have hopen : opsOpen ((s.setBlock { b with groups := [{ g with units := [v] }] }).dbgUnits
      { b with groups := [{ g with units := [v] }] }) = [] := by
    refine (congrArg opsOpen (dbgUnits_one (s := s.setBlock { b with groups := [{ g with units := [v] }] })
      (b := { b with groups := [{ g with units := [v] }] }) (g := { g with units := [v] }) (u := v) ht rfl rfl)).trans ?_
    unfold opsOpen
    simp [hclosed.1, hclosed.2]
  unfold settleStopped
  rw [dbgUnits_one ht hg hu, hg, howed]
  extract_lets us new t r'
  have hus : us.filter (fun x => x.2.2.haltEnds || stepEnds [g] us x.2.2) = us := by
    unfold us
    rw [List.filter_cons, if_pos hends, List.filter_nil]
  have ht' : t = s.setBlock { b with groups := [{ g with units := [v] }] } := by
    unfold t
    rw [hus]
    exact hset _ hv
  have hnew' : new = [r] := by
    unfold new us
    rw [List.flatMap_cons, List.flatMap_nil, List.append_nil]
    exact hnew
  have hr : r' = ([r], []) := by
    unfold r'
    rw [ht', show (s.setBlock { b with groups := [{ g with units := [v] }] }).block? b.bid = _ from hafter.here]
    rw [Option.map_some, Option.getD_some, hopen, hnew', List.nil_append, owedNow_one]
  rw [hr, ht', List.foldl_cons, List.foldl_nil]
  refine congrArg (fun t : State => t.report l.ctx r.data (some r.who)) ?_
  exact (hafter.onBlock rfl).trans (setBlock_setBlock rfl)

variable (ha : Alone s b) (ht : ∀ t ∈ s.traps, t.bid ≠ b.bid) (hg : b.groups = [g]) (hu : g.units = [u])
  (hlow : bit u.lanes.toNat u.low = true) (hs : s.stopsHere b g u = true) (howed : b.owed = [])
include ha ht hg hu hlow hs howed

/-- The environment in which a stopping group's report is made. -/
def stopEnv (s : State) (b : Block) (l : Launch) (g : Grp) (u : ISet) : Env :=
  (s.setBlock { b with groups := [stoppedGrp g u (haltedAt u)] }).kernEnv (.kern b.bid g.gid u.low)
    { b with groups := [stoppedGrp g u (haltedAt u)] } l (stoppedGrp g u (haltedAt u)) (haltedAt u)

/-- The report of a group that stops. -/
def stopReport (s : State) (b : Block) (l : Launch) (g : Grp) (u : ISet) (kind flags : Nat) : Nat :=
  reportImage l (stopEnv s b l g u).num u.standsAt.toNat 0 ((stopEnv s b l g u).named (stopEnv s b l g u).members) kind flags
    0

theorem settleBlock_one {us : List DbgUnit} (hus : us = [(.kern b.bid g.gid u.low, stoppedGrp g u (haltedAt u), haltedAt u)])
    {by' : List Nat} {kind flags : Nat}
    (hends : ((haltedAt u).haltEnds || stepEnds [stoppedGrp g u (haltedAt u)] us (haltedAt u)) = true)
    (hv : (haltedAt u).settled [stoppedGrp g u (haltedAt u)] us = v) (hclosed : v.haltReq = false ∧ v.stepping = false)
    (hnew : ∀ f : List Nat → Nat → Nat → Owed, (if (haltedAt u).haltEnds then [f (haltedAt u).haltBy 5 0] else []) ++
      (if stepEnds [stoppedGrp g u (haltedAt u)] us (haltedAt u) then
        [f (haltedAt u).stepBy 6 (haltedAt u).stepFlags] else []) = [f by' kind flags]) :
    s.settleBlock b l = (s.setBlock { b with groups := [stoppedGrp g u v], owed := [] }).report l.ctx
      (stopReport s b l g u kind flags) (some (.kern b.bid g.gid u.low)) := by
  subst hus
  have h1 := ha.setBlock (k := { b with groups := [stoppedGrp g u (haltedAt u)] }) rfl
  have hstop := stopUnits_one ha ht hg hu hlow hs
  rw [settleBlock_stopped (k := { b with groups := [stoppedGrp g u (haltedAt u)] }) (by rw [hstop]; exact h1.here), hstop]
  refine (settleStopped_one h1 ht rfl (u := haltedAt u) rfl hlow howed hends hv hclosed (hnew _)).trans ?_
  refine congrArg (fun t : State => t.report l.ctx _ _) ?_
  exact setBlock_setBlock rfl

omit ha ht hg hu hlow hs howed

@[simp] theorem haltEnds_haltedAt : (haltedAt u).haltEnds = u.haltReq := by
  simp [ISet.haltEnds, haltedAt]

@[simp] theorem stepEnds_haltedAt (gs : List Grp) (us : List DbgUnit) : stepEnds gs us (haltedAt u) = u.stepping := by
  simp [stepEnds, ISet.stepDone, haltedAt]

include ha ht hg hu hlow hs howed

theorem settleBlock_halts (hreq : u.haltReq = true) (hstep : u.stepping = false) :
    s.settleBlock b l = (s.setBlock { b with
      groups := [stoppedGrp g u { haltedAt u with haltReq := false, haltBy := [] }]
      owed := [] }).report l.ctx (stopReport s b l g u 5 0) (some (.kern b.bid g.gid u.low)) := by
  refine settleBlock_one ha ht hg hu hlow hs howed rfl (by' := u.haltBy) (kind := 5) (flags := 0) ?_ ?_ ⟨rfl, hstep⟩ ?_
  · simp [hreq]
  · unfold ISet.settled
    simp only [haltEnds_haltedAt, stepEnds_haltedAt, hreq, hstep]
    simp [haltedAt]
  · intro f
    simp only [haltEnds_haltedAt, stepEnds_haltedAt, hreq, hstep]
    rfl

theorem settleBlock_steps (hreq : u.haltReq = false) (hstep : u.stepping = true) (hrun : u.atRun = true) :
    s.settleBlock b l = (s.setBlock { b with
      groups := [stoppedGrp g u { haltedAt u with stepping := false, stepBy := [], stepSplit := false }]
      owed := [] }).report l.ctx (stopReport s b l g u 6 (flag u.stepSplit 0)) (some (.kern b.bid g.gid u.low)) := by
  have hflags : (haltedAt u).stepFlags = flag u.stepSplit 0 := by
    unfold ISet.stepFlags
    rw [show (haltedAt u).atRun = true from hrun]
    simp [flag, haltedAt]
  refine settleBlock_one ha ht hg hu hlow hs howed rfl (by' := u.stepBy) (kind := 6) (flags := flag u.stepSplit 0) ?_ ?_
    ⟨hreq, rfl⟩ ?_
  · simp [hstep]
  · unfold ISet.settled
    simp only [haltEnds_haltedAt, stepEnds_haltedAt, hreq, hstep]
    simp [haltedAt]
  · intro f
    simp only [haltEnds_haltedAt, stepEnds_haltedAt, hreq, hstep, hflags]
    rfl

end

end Sys2Proof.Machine
end

