-- ==== Sys2Proof/Proofs/GroupImage.lean ====
section
/-! PROOF. A group's image (R371). -/

namespace Sys2Proof.Machine

/-! ### O43: a group's image (R371) -/

/-- A field of some bytes: what stands behind the bytes before it. -/
theorem slice_append {α : Type} {x a b c : List α} {o n : Nat} (hx : x = a ++ (b ++ c)) (ha : a.length = o)
    (hb : b.length = n) : (x.drop o).take n = b := by
  rw [hx, ← ha, List.drop_left, ← hb, List.take_left]

/-- A number among some bytes, read back. -/
theorem field_append {x a c : List Byte} {o n v : Nat} (hx : x = a ++ (leBytes n v ++ c)) (ha : a.length = o)
    (hv : v < 2 ^ (8 * n)) : leNat ((x.drop o).take n) = v := by
  rw [slice_append hx ha (length_leBytes ..), leNat_leBytes, Nat.mod_eq_of_lt hv]

theorem upto_split {lo n k : Nat} (h : k < n) : upto lo n = upto lo k ++ ((lo + k) :: upto (lo + k + 1) (n - k - 1)) := by
  have hsplit : upto lo n = upto lo k ++ upto (lo + k) (n - k) := by
    rw [← take_upto n lo k (by omega), ← drop_upto n lo k (by omega), List.take_append_drop]
  rw [hsplit, show n - k = (n - k - 1) + 1 by omega, upto]
  rfl

theorem length_flatMap_const {α β : Type} {f : α → List β} {k : Nat} (hf : ∀ x, (f x).length = k) (l : List α) :
    (l.flatMap f).length = k * l.length := by
  induction l with
  | nil => rfl
  | cons x l ih =>
    rw [List.flatMap_cons, List.length_append, hf, ih, List.length_cons]
    ring

/-- A joined field, read back. -/
theorem bits_joined {w : Nat} {f : Nat → Nat} (hw : 0 < w) (hf : ∀ k, f k < 2 ^ w) {n k : Nat} (hk : k < n) :
    bits (joined w f n) (w * k + w - 1) (w * k) = f k := by
  refine Nat.eq_of_testBit_eq fun j => ?_
  rw [testBit_bits]
  by_cases hj : j < w
  · rw [testBit_joined hf hk hj, decide_eq_true (by omega), Bool.true_and]
  · rw [decide_eq_false (by omega), Bool.false_and]
    exact (Nat.testBit_lt_two_pow ((hf k).trans_le (Nat.pow_le_pow_right (by norm_num) (by omega)))).symm

section
variable (e : Env) (idx nonce : Nat)

/-- The tags of an image, two bits each. -/
def imageTags : Nat := joined 2 e.imageTag 64

/-- A predicate as an image holds it. -/
def imagePred (p : Nat) : Bool :=
  if bit (e.grp.prelMask e.unit.lanes p).toNat (if e.grp.span then 0 else idx - e.grp.lo) then
    bit (Config.freeWord (nonce + 64)).toNat p else e.grp.pval p (idx - e.grp.lo)

/-- The predicates of an image, a bit each. -/
def imagePreds : Nat := joined 1 (fun p => (imagePred e idx nonce p).toNat) 7

/-- The registers of an image. -/
def imageRegs : List Byte := (upto 0 64).flatMap fun r => leBytes 8 (e.imageReg (idx - e.grp.lo) nonce r)

theorem image_eq : e.image idx nonce = leBytes 8 e.unit.standsAt.toNat ++ (leBytes 8 (e.named e.members).idx ++
    (leBytes 8 ((e.named e.members).lmask + (e.named e.members).count * 2 ^ 32) ++ (imageRegs e idx nonce ++
    (leBytes 16 (imageTags e) ++ (leBytes 1 (imagePreds e idx nonce) ++ leBytes 15 0))))) := by
  have htags : (upto 0 64).foldl (fun m r => m + e.imageTag r * 4 ^ r) 0 = imageTags e := by
    unfold imageTags joined
    congr 1
    funext m r
    rw [Nat.pow_mul]
  have hpreds : (upto 0 7).foldl (fun m p => m + flag (imagePred e idx nonce p) p) 0 = imagePreds e idx nonce := by
    unfold imagePreds joined
    congr 1
    funext m p
    unfold flag
    rw [Nat.one_mul]
    cases h : imagePred e idx nonce p <;> simp [h]
  rw [← htags, ← hpreds]
  unfold Env.image imageRegs
  simp only [List.append_assoc]
  rfl

theorem length_imageRegs : (imageRegs e idx nonce).length = 512 :=
  (length_flatMap_const (fun _ => length_leBytes ..) _).trans (by rw [length_upto])

theorem tag_lt (r : Nat) : e.tag r < 4 := by
  unfold Env.tag
  split
  · omega
  · split <;> omega

theorem imageTag_lt (r : Nat) : e.imageTag r < 2 ^ 2 := by
  unfold Env.imageTag
  split
  · omega
  · exact tag_lt e r

theorem image_reg {r : Nat} (hr : r < 64) : leNat (((e.image idx nonce).drop (24 + 8 * r)).take 8) =
    e.imageReg (idx - e.grp.lo) nonce r % 2 ^ 64 := by
  have hregs : imageRegs e idx nonce =
      ((upto 0 r).flatMap fun r => leBytes 8 (e.imageReg (idx - e.grp.lo) nonce r)) ++
      (leBytes 8 (e.imageReg (idx - e.grp.lo) nonce r) ++
        (upto (r + 1) (63 - r)).flatMap fun r => leBytes 8 (e.imageReg (idx - e.grp.lo) nonce r)) := by
    unfold imageRegs
    rw [upto_split hr, List.flatMap_append, List.flatMap_cons, Nat.zero_add, show 64 - r - 1 = 63 - r by omega]
  have hx := image_eq e idx nonce
  rw [hregs] at hx
  simp only [List.append_assoc] at hx
  rw [← List.append_assoc, ← List.append_assoc, ← List.append_assoc] at hx
  rw [slice_append hx ?_ (length_leBytes ..), leNat_leBytes]
  simp only [List.length_append, length_leBytes, length_flatMap_const (fun _ => length_leBytes ..), length_upto]

/-- The fields of an image beside its registers. -/
theorem image_fields (hi : (e.named e.members).idx < 2 ^ 64) (hm : (e.named e.members).lmask < 2 ^ 32)
    (hc : (e.named e.members).count < 2 ^ 32) :
    let at' (o n : Nat) : Nat := leNat (((e.image idx nonce).drop o).take n)
    (e.image idx nonce).length = 568 ∧ at' 0 8 = e.unit.standsAt.toNat ∧ at' 8 8 = (e.named e.members).idx ∧
    at' 16 4 = (e.named e.members).lmask ∧ at' 20 4 = (e.named e.members).count ∧ at' 553 15 = 0 ∧
    at' 536 16 = imageTags e ∧ at' 552 1 = imagePreds e idx nonce := by
  intro at'
  have hx := image_eq e idx nonce
  have htags : imageTags e < 2 ^ 128 := joined_lt (imageTag_lt e) 64
  have hpreds : imagePreds e idx nonce < 2 ^ 7 := joined_lt (fun _ => Bool.toNat_lt _) 7
  have hpc := e.unit.standsAt.isLt
  have hword : leBytes 8 ((e.named e.members).lmask + (e.named e.members).count * 2 ^ 32) =
      leBytes 4 (e.named e.members).lmask ++ leBytes 4 (e.named e.members).count := by
    have h := leBytes_add 4 4 ((e.named e.members).lmask + (e.named e.members).count * 2 ^ 32)
    rw [h]
    congr 1
    · rw [Nat.mul_comm]
      exact leBytes_add_mul 4 _ _
    · rw [show (256 : Nat) ^ 4 = 2 ^ 32 by norm_num, Nat.add_mul_div_right _ _ (by norm_num), Nat.div_eq_of_lt hm, Nat.zero_add]
  have hlen := length_imageRegs e idx nonce
  refine ⟨by simp [hx, hlen, length_leBytes], ?_, ?_, ?_, ?_, ?_, ?_, ?_⟩
  · exact field_append (hx.trans (List.nil_append _).symm) List.length_nil hpc
  · exact field_append hx (length_leBytes ..) hi
  · rw [hword, List.append_assoc, ← List.append_assoc] at hx
    exact field_append hx (by simp [length_leBytes]) hm
  · rw [hword, List.append_assoc, ← List.append_assoc, ← List.append_assoc] at hx
    exact field_append hx (by simp [length_leBytes]) hc
  · rw [← List.append_nil (leBytes 15 0)] at hx
    simp only [← List.append_assoc _ _ (leBytes 15 0 ++ [])] at hx
    exact field_append hx (by simp [length_leBytes, hlen]) (Nat.two_pow_pos _)
  · simp only [← List.append_assoc _ _ (leBytes 16 (imageTags e) ++ _)] at hx
    exact field_append hx (by simp [length_leBytes, hlen]) htags
  · simp only [← List.append_assoc _ _ (leBytes 1 (imagePreds e idx nonce) ++ _)] at hx
    exact field_append hx (by simp [length_leBytes, hlen]) (hpreds.trans (by norm_num))

/-- A register of an image that is not released. -/
theorem imageReg_live {r : Nat} (hr : r < e.grp.regs.length)
    (hrel : bit (e.grp.relMask e.unit.lanes r).toNat (if e.grp.span then 0 else idx - e.grp.lo) = false) :
    let pair : Prop := (∃ b st, (e.grp.cell r).kind = .f64 b st) ∨ ((∃ vs, (e.grp.cell r).kind = .e true vs) ∧ r % 2 = 0)
    (pair → e.imageReg (idx - e.grp.lo) nonce r = (e.grp.val64 r (idx - e.grp.lo)).toNat) ∧
    (¬pair → e.imageReg (idx - e.grp.lo) nonce r = (e.grp.val r (idx - e.grp.lo)).toNat) := by
  intro pair
  have hgone : (decide (e.grp.regs.length ≤ r) ||
      bit (e.grp.relMask e.unit.lanes r).toNat (if e.grp.span then 0 else idx - e.grp.lo)) = false := by
    rw [hrel, decide_eq_false (by omega)]
    rfl
  have hpair : (match (e.grp.cell r).kind with
      | .f64 _ _ => true
      | .e true _ => r % 2 == 0
      | _ => false) = true ↔ pair := by
    cases hk : (e.grp.cell r).kind with
    | f32 b st => simp [pair, hk]
    | f64 b st => simp [pair, hk]
    | f64hi => simp [pair, hk]
    | e tag vs => cases tag <;> simp [pair, hk]
  have hreg : e.imageReg (idx - e.grp.lo) nonce r = if (match (e.grp.cell r).kind with
      | .f64 _ _ => true
      | .e true _ => r % 2 == 0
      | _ => false) = true then (e.grp.val64 r (idx - e.grp.lo)).toNat else (e.grp.val r (idx - e.grp.lo)).toNat :=
    if_neg (Bool.eq_false_iff.mp hgone)
  rw [hreg]
  exact ⟨fun h => if_pos (hpair.mpr h), fun h => if_neg fun h' => h (hpair.mp h')⟩

theorem image_pred {p : Nat} (hp : p < 7)
    (hrel : bit (e.grp.prelMask e.unit.lanes p).toNat (if e.grp.span then 0 else idx - e.grp.lo) = false) :
    bit (imagePreds e idx nonce) p = e.grp.pval p (idx - e.grp.lo) := by
  have h := testBit_joined (w := 1) (f := fun p => (imagePred e idx nonce p).toNat) (fun _ => Bool.toNat_lt _) hp
    Nat.zero_lt_one
  rw [Nat.one_mul, Nat.add_zero] at h
  have hv : imagePred e idx nonce p = e.grp.pval p (idx - e.grp.lo) := if_neg (by rw [hrel]; decide)
  rw [bit_eq_testBit, imagePreds, h, ← hv]
  cases imagePred e idx nonce p <;> rfl

end

end Sys2Proof.Machine
end

