-- ==== Sys2Proof/Proofs/DebugWords.lean ====
section
/-! PROOF. O43. -/

namespace Sys2Proof.Machine

/-! ### O43: the obligation -/

/-- Settles O43: the words by their outcome, the operations by their branch, a stop by what settling a block does, an image
by its fields. -/
theorem debugWords : Obligations.DebugWords := by
  unfold Obligations.DebugWords
  refine ⟨fun d a => ?_, fun s c x => ?_, fun s c k x y => ?_, fun s b l g u kind hb honly ht hg hu hlow hready hrun howed
    hatoms => ?_, fun e idx nonce hi hm hc => ?_⟩
  · intro sh va put word
    have hword : ∀ (i : Instr) (op : DbgOp), (∀ s, exec i s = s.dbg' op d a) → word i op := by
      intro i op hi
      refine ⟨dbg_misaligned d a hi, fun c lo hi' t1 t2 t3 n s e he hp => ?_, fun c lo hi' t1 t2 t3 n s e he hz hp => ?_,
        dbg_ends d a hi, fun s e c he hz => dbg_waits d a hi s e c he hz, dbg_privileged d a hi⟩
      · obtain ⟨hctx, hfresh, hal, hlo, hhi, hf, hs, ho⟩ := hp
        exact dbg_status d a hi c lo hi' t1 t2 t3 n s e he ⟨⟨hctx, hfresh, hal, hlo, hhi, hf, hs⟩, ho⟩
      · obtain ⟨hctx, hfresh, hal, hlo, hhi, hf, hs, ho⟩ := hp
        exact dbg_begins d a hi c lo hi' t1 t2 t3 n s e he hz ⟨⟨hctx, hfresh, hal, hlo, hhi, hf, hs⟩, ho⟩
    exact ⟨hword _ _ fun _ => rfl, hword _ _ fun _ => rfl, hword _ _ fun _ => rfl, hword _ _ fun _ => rfl,
      hword _ _ fun _ => rfl, hword _ _ fun _ => rfl, hword _ _ fun _ => rfl, hword _ _ fun _ => rfl,
      hword _ _ fun _ => rfl⟩
  · intro good
    refine ⟨fun op h => dbgDo_dirty h, fun op h ha => dbgDo_detached h ha, fun h => dbgDo_good h, fun h => dbgDo_good h,
      fun h => ?_, fun h => ?_, ?_⟩
    · rw [dbgDo_good h]
      simp only [dbgOwnCodes, decide_eq_true_eq, Bool.not_eq_true']
      rfl
    · rw [dbgDo_good h]
      simp only [dbgOwnCodes, decide_eq_true_eq]
      rfl
    · intro named group
      refine ⟨fun op hop h hn => (dbgDo_good h).trans (groups_none hop hn), fun l hl => ⟨fun op hop h ht => ?_,
        fun b u ht => ?_⟩, fun h => ⟨fun hu => ?_, fun hu => ?_, fun h0 h15 => ?_⟩, fun h => ?_⟩
      · exact (dbgDo_good h).trans ((groups_some hop hl).trans (dbgGroups_none ht))
      · obtain ⟨hlid, hnum, hprim, hidx⟩ := dbgTarget_some ht
        refine ⟨hlid, hnum, hprim, hidx, ?_⟩
        intro s' ours runs halted begin go quiet
        refine ⟨fun h hr => ?_, fun h hr => ?_, fun step h => ?_⟩
        · exact (dbgDo_good h).trans ((groups_some (.inl rfl) hl).trans (halt_none ht hr))
        · exact (dbgDo_good h).trans ((groups_some (.inl rfl) hl).trans (halt_begins ht hr))
        · have hop : ∀ step : Bool, (if step then DbgOp.step else .resume) ≠ .halt := by decide
          have hgroup : ∀ step : Bool, (if step then DbgOp.step else .resume) = .halt ∨
              (if step then DbgOp.step else .resume) = .resume ∨ (if step then DbgOp.step else .resume) = .step := by decide
          have hdo : s.dbgDo c (if step then .step else .resume) x = s.dbgGroups c (if step then .step else .resume) l x :=
            (dbgDo_good h).trans (groups_some (hgroup step) hl)
          rw [hdo]
          refine ⟨fun hn => resume_none ht (hop step) hn, fun hn hq => ?_, fun hn hq => ⟨_, ?_, rfl⟩⟩
          · refine (resume_some ht (hop step) hn).trans (if_pos ?_)
            by_contra hc
            exact hq (quiet_iff.mp (Bool.eq_false_iff.mpr hc))
          · refine (resume_some ht (hop step) hn).trans ((if_neg ?_).trans ?_)
            · rw [show ((dbgHalted s x b u).any fun y => !s.quietUnit b y.2.1 y.2.2) = false from quiet_iff.mpr hq]
              decide
            · cases step <;> rfl
      · rw [dbgDo_good h]
        exact read_named hu
      · rw [dbgDo_good h]
        exact read_rearms _ hu
      · rw [dbgDo_good h]
        exact read_snapshot _ h0 h15
      · rw [dbgDo_good h]
        exact ⟨fun hp => if_pos hp, fun hp => if_neg hp⟩
  · exact ⟨haltPending_iff k, postPending_iff k, beq_iff_eq, beq_iff_eq, rfl⟩
  · intro hkind h k who env v
    have ha : Alone s b := ⟨hb, honly⟩
    have hquiet : s.quietUnit b g u = true := by
      simpa [State.quietUnit] using hatoms
    rcases hkind with ⟨rfl, hreq, hstep⟩ | ⟨rfl, hreq, hstep, hasked⟩
    · have hs : s.stopsHere b g u = true := by simp [State.stopsHere, hready, hrun, hreq, hquiet]
      exact settleBlock_halts ha ht hg hu hlow hs howed hreq hstep
    · have hs : s.stopsHere b g u = true := by simp [State.stopsHere, hready, hrun, hstep, hasked, hquiet]
      have hflag : flag u.stepSplit 0 = if (6 : Nat) = 6 ∧ u.stepSplit = true then 1 else 0 := by
        cases u.stepSplit <;> rfl
      have hsettle := settleBlock_steps ha ht hg hu hlow hs howed (l := l) hreq hstep hrun
      rw [hflag] at hsettle
      exact hsettle
  · intro x at' pos lane
    obtain ⟨hlen, hpc, hidx, hmask, hcount, hzero, htags, hpreds⟩ := image_fields e idx nonce hi hm hc
    refine ⟨hlen, hpc, hidx, hmask, hcount, hzero, fun r hr hlt hrel => ?_, fun r hr => ?_, fun p hp hrel => ?_⟩
    · intro pair
      obtain ⟨hp, hn⟩ := imageReg_live e idx nonce hlt hrel
      refine ⟨fun h => (image_reg e idx nonce hr).trans ?_, fun h => (image_reg e idx nonce hr).trans ?_⟩
      · rw [hp h]
        exact Nat.mod_eq_of_lt (BitVec.isLt _)
      · rw [hn h]
        exact Nat.mod_eq_of_lt ((BitVec.isLt _).trans (by norm_num))
    · rw [show at' 536 16 = imageTags e from htags]
      exact bits_joined (w := 2) (by norm_num) (imageTag_lt e) hr
    · rw [show at' 552 1 = imagePreds e idx nonce from hpreds]
      exact image_pred e idx nonce hp hrel

end Sys2Proof.Machine
end
